-- ==== Sys2Proof/Word.lean ====
section
/-! DEFINITION. The plain words of the machine: 32-bit register images, 64-bit addresses and
masks, bytes. Nothing here depends on the part. -/

namespace Sys2Proof

/-- One thread's copy of one register (R161). -/
abbrev Word := BitVec 32

/-- A 64-bit value: an address, a register pair (R163) or a mask of 64 threads. -/
abbrev DWord := BitVec 64

/-- One byte of memory (R2). -/
abbrev Byte := BitVec 8

/-- A one-bit field as a bit vector. -/
def bit1 (b : Bool) : BitVec 1 := BitVec.ofBool b

end Sys2Proof
end

