-- ==== Sys2Proof/Config.lean ====
section
/-! DEFINITION. What the manual leaves open: uninterpreted constants that no proof can evaluate.
Each names its log entry. -/

namespace Sys2Proof

/-- A fresh unpredictable value (R7): the argument is a counter that State advances (log 1). -/
opaque Config.freeWord : Nat → BitVec 64

/-- The encoding that a bounded function of R364 returns, before the model holds it to its bound:
function, format code, element as read, daz, ftz (log 14). -/
opaque Config.boundedFn : Nat → Nat → Nat → Bool → Bool → Nat

/-- How many ticks pass before a step (R483: durations are free; log 2). -/
opaque Config.elapsed : Nat → Nat

/-- The L2 set that a physical line uses in its slice (R193 states no function; log 11). -/
opaque Config.l2Set : Nat → Nat

/-- The L1 set that a 64-byte line uses (R190 states no function; log 9). -/
opaque Config.l1Set : Nat → Nat

/-- The place of a tick in the order in which throttling leaves the ticks of a window empty: quadrant, window, tick of
the window (R39; log 58). -/
opaque Config.emptyRank : Nat → Nat → Nat → Nat

/-- SHA-384 of a byte string (R49 names the function; log 13). -/
opaque Config.sha384 : List (BitVec 8) → Nat

/-- Whether an ECDSA P-384 signature verifies: key, digest, signature (R49; log 13). -/
opaque Config.ecdsaP384 : List (BitVec 8) → Nat → List (BitVec 8) → Bool

/-- Whether two signatures of R232 report a match that no granule of theirs causes (log 1). -/
opaque Config.falseHit : Nat → Bool

/-- Whether the L1 still holds a sector that the manual lets it drop at any time (R190; log 9). -/
opaque Config.l1Kept : Nat → Nat → Bool

/-- Which of several cached entries is used, or is replaced, where the manual does not say
(R98, R190; log 10). -/
opaque Config.pick : Nat → Nat

end Sys2Proof
end

