-- ==== Sys2Proof/Syntax.lean ====
section
/-! DEFINITION. The instruction set: one constructor for each row of spec/opcode_table.json.
Device words keep the fields the table names (R302, R303, R316, R317); host words keep the
fields of R229; an event carries as arguments what the outside party or the scheduling unit
supplies with it (log 3). Rows with arguments stand before rows without. -/

namespace Sys2Proof

/-- A row with repeated corrected errors, and whether the resources of its repair are used up (R22, R23). -/
structure RepairRow where
  row : Nat
  exhausted : Bool
  deriving DecidableEq, Repr

/-- The package that a packet comes from, what it asks for, and the VF there that asks with the generation that it had
then, which the answer repeats (R120). -/
structure PeerRequest where
  src : Nat
  kind : Nat
  vf : Nat
  gen : Nat
  deriving DecidableEq, Repr

/-- The data of a packet, and whether it is poisoned (R209). -/
structure PacketBody where
  bytes : List (BitVec 8)
  poison : Bool
  deriving DecidableEq, Repr

/-- A flush marker: the package at its other end, the number that the answer repeats (R259), and the sending VF with its
generation (R120). -/
structure Marker where
  pkg : Nat
  id : Nat
  vf : Nat
  gen : Nat
  deriving DecidableEq, Repr

/-- The connection of an Estuary packet, its place in it, its delivery mode (R32, R33), and for the request of a read the
number of bytes that the peer asks for (R417). -/
structure EstuaryHead where
  conn : Nat
  seq : Nat
  mode : Nat
  read : Option Nat
  deriving DecidableEq, Repr

/-- A packet that is sent again: how often it was sent, its work, when it was first sent (R35, R79), and the generation
that the negative acknowledgement carries (R120). -/
structure RetxPacket where
  sent : Nat
  work : Nat
  first : Nat
  gen : Nat
  deriving DecidableEq, Repr

/-- The threads whose answers are poisoned or refused (R93, R210). -/
structure AnswerMarks where
  poison : BitVec 64
  refused : BitVec 64
  deriving DecidableEq, Repr

/-- One step of the machine: a device word, a host transaction word or an event. -/
inductive Instr where
  /-- IMAGE_OFFER (R49): A complete signed firmware image arrives from PCIe port 0 or the management bus and is authenticated, then accepted, rejected with status 0x10-0x15, or refused with 0x03 after boot. -/
  | imageOffer (bytes : List (BitVec 8))
  /-- SELF_TEST_COMPLETE (R50): Self-test and memory training finish, and the status becomes 0x03 (boot complete) or 0x20 (self-test failure). -/
  | selfTestComplete (linksOk : Bool) (passing : List Nat)
  /-- ROW_REPAIR_IN_SERVICE (R22): A row with repeated corrected errors is copied and replaced by soft repair while accesses to it are held. -/
  | rowRepairInService (row : RepairRow)
  /-- L2_WAY_FAILURE (R24): A failing L2 way is replaced by the spare way, or on a second failure the way is disabled and the slice runs 15-way. -/
  | l2WayFailure (slice : Nat)
  /-- MILLRACE_PORT_FAILURE (R30): A failed Millrace port is removed from the spray set and its outstanding packets and flush markers are sent again on surviving paths. -/
  | millracePortFailure (port : Nat)
  /-- MILLRACE_PATH_TIMEOUT (R31): A request whose destination has had no surviving path for 100 µs completes with an UNCORRECTABLE fault or a host access fault. -/
  | millracePathTimeout (pkg : Nat)
  /-- MILLRACE_PACKET_RX (R120): A Millrace packet for a VF arrives, and is dropped at ingress if its generation differs from the VF's current VFID.gen. The kind is 0 for a read of the length of `bytes`, 1 for a write, 32 to 35 for a weir operation, 48 for its withdrawal, 49 for a list registered with a commons, 64 for the end of a cached copy, 80 for a scattered add, else an atomic (log 17). -/
  | millracePacketRx (vf : Nat) (gen : Nat) (ppid : Nat) (req : PeerRequest) (pa : Nat) (body : PacketBody)
  /-- FLUSH_MARKER (R259): A flush marker arrives at a destination package, which answers once it has the marker on every path and has performed the group's earlier packets. -/
  | flushMarker (marker : Marker)
  /-- FLUSH_ANSWER (R259): A destination's answer arrives, and the waiting release takes effect once every destination has answered. -/
  | flushAnswer (gid : Nat) (marker : Marker)
  /-- ESTUARY_PACKET_RX (R33): An Estuary packet arrives; one with a stale generation is dropped, one with an unsupported delivery mode is dropped and answered with a negative acknowledgement. -/
  | estuaryPacketRx (vf : Nat) (gen : Nat) (head : EstuaryHead) (va : Nat) (bytes : List (BitVec 8)) (counter : Option Nat)
  /-- ESTUARY_RETX_TIMEOUT (R35): An Estuary retransmission timer expires, and the packet is resent in hardware or, with FUNCCTL.retx = 1, posted to the assist table. -/
  | estuaryRetxTimeout (conn : Nat) (vf : Nat) (port : Nat) (seq : Nat) (packet : RetxPacket) (nak : Bool)
  /-- ESTUARY_WORK_COMPLETE (R419): An NPOST work request ends, adding 1 to its completion counter with release and recording a non-OK status in err. -/
  | estuaryWorkComplete (id : Nat) (status : Nat) (bytes : List (BitVec 8))
  /-- ASSIST_DONE (R80): The hypervisor writes a slot number to the assist completion register and the posted request's answer is applied. -/
  | assistDone (part : Nat) (slot : Nat)
  /-- REGISTER_WRITE (R52): A host write to a register or table in register and management space that has no behaviour of its own stores the value, subject to the access checks of the space. -/
  | registerWrite (agent : Nat) (off : Nat) (size : Nat) (val : BitVec 64)
  /-- LQTAIL_WRITE (R62): A write to LQTAIL is checked against free space; it advances the tail or stops the queue with err 2. -/
  | lqtailWrite (vf : Nat) (val : BitVec 64)
  /-- VFCTL_EN (R59): A write to VFCTL.en enables or disables record starts; on a 0-to-1 transition the queue takes LQBASE and LQCFG and stops with err 1 if they are invalid. -/
  | vfctlEn (vf : Nat) (en : Bool)
  /-- QRESET (R58): Writing VFCTL.qreset while the queue is stopped sets LQHEAD to LQTAIL and clears LQSTAT. -/
  | qreset (vf : Nat)
  /-- VRESET (R119): Writing VFCTL.vreset resets the VF through steps 1 to 9: halting its groups, ending its grids with RESET, completing its calls and tearing down its connections. -/
  | vreset (vf : Nat)
  /-- HSDONE_WRITE (R77): The host writes a slot number to HSDONE, returning a pending host-service call to the device. -/
  | hsdoneWrite (vf : Nat) (slot : Nat)
  /-- HCALL_RESUME (R77): The device's read of a returned slot's status and results completes; the slot is freed and the calling group resumes. -/
  | hcallResume (vf : Nat) (slot : Nat)
  /-- RECORD_START (R64): The launch queue begins starting the next record: it reads and validates the record, stopping with err 3 or 5 on failure. -/
  | recordStart (vf : Nat)
  /-- RECORD_WAIT_SATISFIED (R64): A record's wait condition holds; the header is read and validated, the grid is handed to Delta, and LQHEAD advances. -/
  | recordWaitSatisfied (vf : Nat)
  /-- WOBJ_REREAD (R67): The queue unit re-reads a wait barrier object after a write to its line, or after 2 µs at most. -/
  | wobjReread (vf : Nat)
  /-- DLQ_RECORD_START (R75): A record at the head of the device launch queue waits on wobj and is then started from its kept copies or, on a failed wait read, completed with FAULT. -/
  | dlqRecordStart (vf : Nat)
  /-- CONTEXT_ERROR_REPORT (R74): The first error of a grid reaches the queue unit; the grid's remaining groups are halted, no further block is placed and the queue stops with err 6. -/
  | contextErrorReport (grid : Nat) (status : Nat) (detail : Nat) (core : Nat) (slot : Nat) (pc : Nat)
  /-- GRID_COMPLETION (R72): Once every write of an ended grid has been performed at partition scope, the completion record is written and sobj and MSI-X vectors are signalled. -/
  | gridCompletion (grid : Nat)
  /-- PCLUS_WRITE (R85): A write to PCLUS changes the partition's clusters, or is refused with a PSTAT reason. -/
  | pclusWrite (part : Nat) (val : BitVec 64)
  /-- L2Q_WRITE (R85): A write to L2Q sets the partition's line quota per slice, or is refused; a lowered quota starts reclaiming excess lines. -/
  | l2qWrite (part : Nat) (val : BitVec 64)
  /-- MRPORTS_WRITE (R85): A write to MRPORTS changes the partition's Millrace ports, or is refused. -/
  | mrportsWrite (part : Nat) (val : BitVec 64)
  /-- ESTP_WRITE (R85): A write to ESTP changes the partition's Estuary ports and connection limit, or is refused. -/
  | estpWrite (part : Nat) (val : BitVec 64)
  /-- WTINV_WRITE (R110): Writing 1 to WTINV drops the partition's cached weir table entries. -/
  | wtinvWrite (part : Nat)
  /-- STAGE_INVALIDATE (R101): Writing INV starts an invalidation of a translation stage, and ISTAT.busy reads 1. -/
  | stageInvalidate (stage2 : Bool) (n : Nat)
  /-- INVALIDATION_DONE (R101): All derived translation entries are dropped and all accesses that used them are done; busy clears and new RTAB, RCNT and PTROOT take effect. -/
  | invalidationDone (stage2 : Bool) (n : Nat)
  /-- WEIR_REQUEST (R111): A weir operation arrives at its home weir unit, is checked and is performed, held or registered in weir order. -/
  | weirRequest (gid : Nat) (entry : Nat) (kind : Nat) (handle : Nat) (value : Nat)
  /-- DELTA_BATCH_HANDOUT (R132): Delta gives the next batch of a grid to a die with enough credit, or ends the grid with PLACEMENT when no cluster can take its gang. -/
  | deltaBatchHandout (part : Nat)
  /-- BATCH_RETURN (R127): A die returns a gang batch it can never place to Delta with its credit. -/
  | batchReturn (die : Nat) (part : Nat)
  /-- BLOCK_PLACEMENT (R126): A die dispatcher places the next block or gang of its queue on cores that admit it and moves its pointer. -/
  | blockPlacement (die : Nat) (part : Nat)
  /-- STEAL_REQUEST (R133): A die with an empty queue and free slots asks another die, which gives up its last batch or refuses. -/
  | stealRequest (die : Nat) (part : Nat)
  /-- SPLIT_EXCHANGE (R142): Over 8 ticks the youngest split waiting at JOIN is exchanged with the top split stack entry. -/
  | splitExchange (gid : Nat)
  /-- DEMOTION_TIMEOUT (R144): Demotion with an empty watch set ends 1,024 free ticks after it began. -/
  | demotionTimeout (gid : Nat)
  /-- SWITCH_TICK (R148): At a multiple of period × 70,000 ticks, the partition begins switching from the running VF to the next VF with work. -/
  | switchTick (part : Nat)
  /-- SWITCH_DONE (R149): A die finishes rewinding or saving its groups and sends done, and the tick commits once every die has sent done. -/
  | switchDone (part : Nat) (die : Nat)
  /-- SWITCH_DEADLINE (R151): At T + 28,000 ticks with a die not done, the tick is aborted, misses rises, or on the third miss a forced drain runs. -/
  | switchDeadline (part : Nat)
  /-- SWITCH_IN (R156): The incoming VF's saved blocks are restored to the same cores and slots and its groups resume. -/
  | switchIn (part : Nat)
  /-- IN_FIELD_SCAN (R43): Management starts a 3 ms scan on an empty core, at boot or at an interval it chooses. -/
  | inFieldScan (core : Nat)
  /-- SCAN_COMPLETE (R44): A scan ends; a failed core is removed from the map and its spare takes over or the cluster's count drops. -/
  | scanComplete (core : Nat) (pass : Bool)
  /-- CORE_LOST (R45): A core detects an uncorrectable internal error, stops, and each grid with a block on it ends with CORE_LOST. -/
  | coreLost (core : Nat)
  /-- HANDLER_ENTRY (R182): A trapped group whose issued operations have completed receives its quadrant's handler context; its fault record is written and the handler starts at TVEC, or the group halts when TVEC is 0. -/
  | handlerEntry (hid : Nat)
  /-- LOAD_RESPONSE (R378): The data of a load arrives and is written to each thread's destination, or poison raises UNCORRECTABLE. -/
  | loadResponse (gid : Nat) (id : Nat) (data : List (BitVec 128)) (marks : AnswerMarks)
  /-- ATOMIC_RESPONSE (R388): The old value of an atomic performed at its home slice returns to the issuing threads. -/
  | atomicResponse (gid : Nat) (id : Nat) (data : List (BitVec 128)) (marks : AnswerMarks)
  /-- HOME_REQUEST (R234): A request reaches its home L2 slice and is served under the directory, checked against open host transaction signatures. `hart` is a host hart, or 64 and 65 for the PCIe ports; The kind is 0 for a read of the length of `bytes`, 1 for a write, 1024 for an uncorrectable error in a Pool, else an atomic (log 67). -/
  | homeRequest (hart : Option Nat) (tx : Bool) (kind : Nat) (pa : Nat) (bytes : List (BitVec 8)) (uncorrectable : Bool)
  /-- GRID_OP_COMPLETE (R446): A grid operation's grid phase ends and its accumulators are written. -/
  | gridOpComplete (gid : Nat)
  /-- ENGINE_COMMAND_START (R180): A copy or gather engine starts the next startable command of a group, round-robin by slot. -/
  | engineCommandStart (core : Nat) (gather : Bool)
  /-- ENGINE_COMMAND_COMPLETE (R410): A stream command ends; its writes are performed and its status is written and its completion object signalled. -/
  | engineCommandComplete (core : Nat) (id : Nat)
  /-- ENGINE_FAULT (R425): A stream command access faults or a chain entry fails its checks; the command stops at c and the issuing group traps. -/
  | engineFault (core : Nat) (id : Nat)
  /-- CHAIN_ENTRY_START (R421): With k < TC, a chain engine reads, checks and runs entry k, then writes k + 1 to the sequence location. -/
  | chainEntryStart (core : Nat) (id : Nat)
  /-- COLL_COMPLETE (R419): A collective ends and increments its completion counter with release, recording any non-OK status. -/
  | collComplete (id : Nat) (status : Nat) (bytes : List (BitVec 8))
  /-- FALLBACK_LOCK_GRANT (R226): A fallback lock request reaches the lock; open transactions abort with FALLBACK and the lock is granted in arrival order. -/
  | fallbackLockGrant (part : Nat)
  /-- HOST_TX_INTERRUPT (R231): An interrupt or exception inside a host transaction aborts it with code INTERRUPT. -/
  | hostTxInterrupt (h : Nat) (exception : Bool)
  /-- BOW_REREAD (R404): A waiting BOW re-reads its barrier object after a write to its line, or after 2 µs at most. -/
  | bowReread (gid : Nat) (entry : Nat)
  /-- SLP_WAKE (R469): The tick count reaches t0 + a and a group waiting in SLP becomes ready. -/
  | slpWake (gid : Nat) (entry : Nat)
  /-- YLD_EXPIRE (R469): A yielded group becomes ready again after 64 free ticks or after each other ready group has issued. -/
  | yldExpire (gid : Nat)
  /-- TX_OPEN (R230): Host transaction open: records registers at depth 0, raises depth, writes 0 to rd. -/
  | txOpen (d : BitVec 5)
  /-- TX_DROP (R230): Host transaction drop: aborts with code DROP and detail rs1[7:0]. -/
  | txDrop (s : BitVec 5)
  /-- EXT (R309): Sets the low prefix part of the split. -/
  | ext (i : BitVec 24)
  /-- EXTH (R309): Sets the high prefix part of the split. -/
  | exth (i : BitVec 24)
  /-- SETM (R313): Writes MODE from imm24 after checking etype, rounding and guard. -/
  | setm (i : BitVec 24)
  /-- SETCV (R315): Writes CVMODE from B of the lowest active thread. -/
  | setcv (b : BitVec 8)
  /-- BRA (R334): Unconditional branch by a signed word offset. -/
  | bra (i : BitVec 24)
  /-- BRC (R335): Conditional branch that may divide the split. -/
  | brc (u : Bool) (d : BitVec 8) (i : BitVec 16)
  /-- JMPI (R339): Indirect jump to a uniform 64-bit target. -/
  | jmpi (a : BitVec 8)
  /-- CALL (R340): Writes the return address to a pair and branches by offset. -/
  | call (d : BitVec 8) (i : BitVec 16)
  /-- CALLI (R340): Writes the return address and jumps to a uniform register target. -/
  | calli (d : BitVec 8) (a : BitVec 8)
  /-- IADD (R344): Typed integer add. -/
  | iadd (u : Bool) (d : BitVec 8) (a : BitVec 8) (b : BitVec 8)
  /-- ISUB (R344): Typed integer subtract. -/
  | isub (u : Bool) (d : BitVec 8) (a : BitVec 8) (b : BitVec 8)
  /-- IMUL (R344): Typed integer multiply, low part. -/
  | imul (u : Bool) (d : BitVec 8) (a : BitVec 8) (b : BitVec 8)
  /-- IMULH (R344): Typed integer multiply, high part. -/
  | imulh (u : Bool) (d : BitVec 8) (a : BitVec 8) (b : BitVec 8)
  /-- IMAD (R344): Typed integer multiply-add with D as addend. -/
  | imad (u : Bool) (d : BitVec 8) (a : BitVec 8) (b : BitVec 8)
  /-- IDIV (R345): Typed integer divide rounding toward zero, never faulting. -/
  | idiv (u : Bool) (d : BitVec 8) (a : BitVec 8) (b : BitVec 8)
  /-- IMIN (R344): Typed integer minimum. -/
  | imin (u : Bool) (d : BitVec 8) (a : BitVec 8) (b : BitVec 8)
  /-- IMAX (R344): Typed integer maximum. -/
  | imax (u : Bool) (d : BitVec 8) (a : BitVec 8) (b : BitVec 8)
  /-- AND (R348): Bitwise and. -/
  | and (u : Bool) (d : BitVec 8) (a : BitVec 8) (b : BitVec 8)
  /-- OR (R348): Bitwise or. -/
  | or (u : Bool) (d : BitVec 8) (a : BitVec 8) (b : BitVec 8)
  /-- XOR (R348): Bitwise exclusive or. -/
  | xor (u : Bool) (d : BitVec 8) (a : BitVec 8) (b : BitVec 8)
  /-- ANDN (R348): Bitwise a and not b. -/
  | andn (u : Bool) (d : BitVec 8) (a : BitVec 8) (b : BitVec 8)
  /-- SHL (R346): Typed shift left. -/
  | shl (u : Bool) (d : BitVec 8) (a : BitVec 8) (b : BitVec 8)
  /-- SHR (R346): Typed logical shift right. -/
  | shr (u : Bool) (d : BitVec 8) (a : BitVec 8) (b : BitVec 8)
  /-- SAR (R346): Typed arithmetic shift right. -/
  | sar (u : Bool) (d : BitVec 8) (a : BitVec 8) (b : BitVec 8)
  /-- FSHL (R349): Funnel shift of a pair, returning the high word. -/
  | fshl (u : Bool) (d : BitVec 8) (a : BitVec 8) (b : BitVec 8)
  /-- BFX (R349): Bit-field extract. -/
  | bfx (u : Bool) (d : BitVec 8) (a : BitVec 8) (b : BitVec 8)
  /-- BFI (R349): Bit-field insert into D. -/
  | bfi (u : Bool) (d : BitVec 8) (a : BitVec 8) (b : BitVec 8)
  /-- PRMB (R349): Byte permute of a pair with sign replication. -/
  | prmb (u : Bool) (d : BitVec 8) (a : BitVec 8) (b : BitVec 8)
  /-- SEL (R347): Selects a or b per element by the old value of D. -/
  | sel (u : Bool) (d : BitVec 8) (a : BitVec 8) (b : BitVec 8)
  /-- ISEQ (R347): Integer equality compare to a mask. -/
  | iseq (u : Bool) (d : BitVec 8) (a : BitVec 8) (b : BitVec 8)
  /-- ISNE (R347): Integer inequality compare to a mask. -/
  | isne (u : Bool) (d : BitVec 8) (a : BitVec 8) (b : BitVec 8)
  /-- ISLT (R347): Integer less-than compare to a mask. -/
  | islt (u : Bool) (d : BitVec 8) (a : BitVec 8) (b : BitVec 8)
  /-- ISLE (R347): Integer less-or-equal compare to a mask. -/
  | isle (u : Bool) (d : BitVec 8) (a : BitVec 8) (b : BitVec 8)
  /-- LIMM (R350): Loads a sign-extended 16-bit immediate. -/
  | limm (u : Bool) (d : BitVec 8) (i : BitVec 16)
  /-- LIMMH (R350): Loads a 16-bit immediate into the high half, keeping the low half. -/
  | limmh (u : Bool) (d : BitVec 8) (i : BitVec 16)
  /-- IADD64 (R351): 64-bit pair add. -/
  | iadd64 (u : Bool) (d : BitVec 8) (a : BitVec 8) (b : BitVec 8)
  /-- ISUB64 (R351): 64-bit pair subtract. -/
  | isub64 (u : Bool) (d : BitVec 8) (a : BitVec 8) (b : BitVec 8)
  /-- MOV (R352): Copies a. -/
  | mov (u : Bool) (d : BitVec 8) (a : BitVec 8)
  /-- NOT (R352): Bitwise complement. -/
  | not (u : Bool) (d : BitVec 8) (a : BitVec 8)
  /-- INEG (R352): Typed negate. -/
  | ineg (u : Bool) (d : BitVec 8) (a : BitVec 8)
  /-- IABS (R352): Typed absolute value. -/
  | iabs (u : Bool) (d : BitVec 8) (a : BitVec 8)
  /-- CLZ (R352): Counts leading zeros per element. -/
  | clz (u : Bool) (d : BitVec 8) (a : BitVec 8)
  /-- FFS (R352): Index of the lowest set bit per element. -/
  | ffs (u : Bool) (d : BitVec 8) (a : BitVec 8)
  /-- POPC (R352): Population count per element. -/
  | popc (u : Bool) (d : BitVec 8) (a : BitVec 8)
  /-- BREV (R352): Bit reverse per element. -/
  | brev (u : Bool) (d : BitVec 8) (a : BitVec 8)
  /-- ADA (R351): Adds a sign-extended 32-bit value to a 64-bit address. -/
  | ada (u : Bool) (d : BitVec 8) (a : BitVec 8) (b : BitVec 8)
  /-- ADAX (R351): Adds a scaled sign-extended index to a 64-bit address. -/
  | adax (u : Bool) (d : BitVec 8) (a : BitVec 8) (b : BitVec 8)
  /-- ADCMP (R351): Three-way unsigned 64-bit address compare. -/
  | adcmp (u : Bool) (d : BitVec 8) (a : BitVec 8) (b : BitVec 8)
  /-- FADD (R356): Float add, rounded once. -/
  | fadd (u : Bool) (d : BitVec 8) (a : BitVec 8) (b : BitVec 8)
  /-- FSUB (R356): Float subtract, rounded once. -/
  | fsub (u : Bool) (d : BitVec 8) (a : BitVec 8) (b : BitVec 8)
  /-- FMUL (R356): Float multiply, rounded once. -/
  | fmul (u : Bool) (d : BitVec 8) (a : BitVec 8) (b : BitVec 8)
  /-- FMA (R357): Fused multiply-add with D as addend. -/
  | fma (u : Bool) (d : BitVec 8) (a : BitVec 8) (b : BitVec 8)
  /-- FNMA (R357): Fused d minus a times b. -/
  | fnma (u : Bool) (d : BitVec 8) (a : BitVec 8) (b : BitVec 8)
  /-- FMIN (R358): Float minimum with -0 below +0. -/
  | fmin (u : Bool) (d : BitVec 8) (a : BitVec 8) (b : BitVec 8)
  /-- FMAX (R358): Float maximum with -0 below +0. -/
  | fmax (u : Bool) (d : BitVec 8) (a : BitVec 8) (b : BitVec 8)
  /-- FCPYS (R358): Copies the sign of b onto a. -/
  | fcpys (u : Bool) (d : BitVec 8) (a : BitVec 8) (b : BitVec 8)
  /-- FSCL (R356): Scales a by 2 to the integer b. -/
  | fscl (u : Bool) (d : BitVec 8) (a : BitVec 8) (b : BitVec 8)
  /-- FDIV (R356): Correctly rounded float divide. -/
  | fdiv (u : Bool) (d : BitVec 8) (a : BitVec 8) (b : BitVec 8)
  /-- FSEQ (R359): Float equality compare to a mask. -/
  | fseq (u : Bool) (d : BitVec 8) (a : BitVec 8) (b : BitVec 8)
  /-- FSNE (R359): Float inequality compare to a mask. -/
  | fsne (u : Bool) (d : BitVec 8) (a : BitVec 8) (b : BitVec 8)
  /-- FSLT (R359): Float less-than compare to a mask. -/
  | fslt (u : Bool) (d : BitVec 8) (a : BitVec 8) (b : BitVec 8)
  /-- FSLE (R359): Float less-or-equal compare to a mask. -/
  | fsle (u : Bool) (d : BitVec 8) (a : BitVec 8) (b : BitVec 8)
  /-- FSUN (R359): Unordered compare to a mask. -/
  | fsun (u : Bool) (d : BitVec 8) (a : BitVec 8) (b : BitVec 8)
  /-- FABS (R361): Clears the sign bit. -/
  | fabs (u : Bool) (d : BitVec 8) (a : BitVec 8)
  /-- FNEG (R361): Inverts the sign bit. -/
  | fneg (u : Bool) (d : BitVec 8) (a : BitVec 8)
  /-- FCLASS (R361): Writes a one-hot class mask. -/
  | fclass (u : Bool) (d : BitVec 8) (a : BitVec 8)
  /-- FRND (R362): Rounds to an integral value. -/
  | frnd (u : Bool) (d : BitVec 8) (a : BitVec 8)
  /-- FEXPO (R362): Writes the integer exponent floor(log2 |a|). -/
  | fexpo (u : Bool) (d : BitVec 8) (a : BitVec 8)
  /-- FRCP (R363): Correctly rounded reciprocal. -/
  | frcp (u : Bool) (d : BitVec 8) (a : BitVec 8)
  /-- FRSQ (R364): Bounded reciprocal square root. -/
  | frsq (u : Bool) (d : BitVec 8) (a : BitVec 8)
  /-- FSQRT (R363): Correctly rounded square root. -/
  | fsqrt (u : Bool) (d : BitVec 8) (a : BitVec 8)
  /-- FEX2 (R364): Bounded 2 to the a. -/
  | fex2 (u : Bool) (d : BitVec 8) (a : BitVec 8)
  /-- FLG2 (R364): Bounded log2. -/
  | flg2 (u : Bool) (d : BitVec 8) (a : BitVec 8)
  /-- FSIN (R364): Bounded sine of 2 pi a. -/
  | fsin (u : Bool) (d : BitVec 8) (a : BitVec 8)
  /-- FCOS (R364): Bounded cosine of 2 pi a. -/
  | fcos (u : Bool) (d : BitVec 8) (a : BitVec 8)
  /-- FTANH (R364): Bounded hyperbolic tangent. -/
  | ftanh (u : Bool) (d : BitVec 8) (a : BitVec 8)
  /-- CVTF (R366): Converts f32 to a float or scale format. -/
  | cvtf (u : Bool) (d : BitVec 8) (a : BitVec 8) (f : BitVec 4)
  /-- CVTI (R366): Converts f32 to an integer format. -/
  | cvti (u : Bool) (d : BitVec 8) (a : BitVec 8) (f : BitVec 4)
  /-- CVIF (R366): Converts an integer to a float or scale format. -/
  | cvif (u : Bool) (d : BitVec 8) (a : BitVec 8) (f : BitVec 4)
  /-- CVII (R366): Converts an integer to an integer format. -/
  | cvii (u : Bool) (d : BitVec 8) (a : BitVec 8) (f : BitVec 4)
  /-- UNPK (R366): Decodes a format code exactly to f32 or an integer image. -/
  | unpk (u : Bool) (d : BitVec 8) (a : BitVec 8) (f : BitVec 4)
  /-- MXQ (R367): Quantises an MX block element to e4m3 or e5m2. -/
  | mxq (u : Bool) (d : BitVec 8) (a : BitVec 8) (f : BitVec 4)
  /-- MXSC (R367): Computes the e8m0 scale of an MX block. -/
  | mxsc (u : Bool) (d : BitVec 8) (a : BitVec 8) (f : BitVec 4)
  /-- PACK2 (R368): Converts two sources into two 16-bit elements. -/
  | pack2 (u : Bool) (d : BitVec 8) (a : BitVec 8) (b : BitVec 8)
  /-- PACK4 (R368): Converts four sources into four 8-bit elements. -/
  | pack4 (u : Bool) (d : BitVec 8) (a : BitVec 8) (b : BitVec 8)
  /-- SHFL (R370): Reads a from an indexed source thread. -/
  | shfl (u : Bool) (d : BitVec 8) (a : BitVec 8) (b : BitVec 8)
  /-- SHFLX (R370): Reads a from thread t xor b. -/
  | shflx (u : Bool) (d : BitVec 8) (a : BitVec 8) (b : BitVec 8)
  /-- SHFLUP (R370): Reads a from thread t minus b. -/
  | shflup (u : Bool) (d : BitVec 8) (a : BitVec 8) (b : BitVec 8)
  /-- SHFLDN (R370): Reads a from thread t plus b. -/
  | shfldn (u : Bool) (d : BitVec 8) (a : BitVec 8) (b : BitVec 8)
  /-- RED (R374): Reduces a over all threads. -/
  | red (u : Bool) (d : BitVec 8) (a : BitVec 8)
  /-- RSTEP (R374): Butterfly stepwise reduction. -/
  | rstep (u : Bool) (d : BitVec 8) (a : BitVec 8)
  /-- VANY (R373): Vote: some active thread has a non-zero. -/
  | vany (u : Bool) (d : BitVec 8) (a : BitVec 8)
  /-- VALL (R373): Vote: every active thread has a non-zero. -/
  | vall (u : Bool) (d : BitVec 8) (a : BitVec 8)
  /-- BLT (R373): Writes the 64-bit ballot of non-zero a. -/
  | blt (u : Bool) (d : BitVec 8) (a : BitVec 8)
  /-- ELECT (R373): Marks the lowest executing thread. -/
  | elect (u : Bool) (d : BitVec 8) (a : BitVec 8)
  /-- PSCAN (R374): Inclusive prefix sum over threads. -/
  | pscan (u : Bool) (d : BitVec 8) (a : BitVec 8)
  /-- BCAST (R373): Broadcasts a from the thread indexed by thread l's old D. -/
  | bcast (u : Bool) (d : BitVec 8) (a : BitVec 8)
  /-- LDB (R378): Loads a byte. -/
  | ldb (u : Bool) (d : BitVec 8) (a : BitVec 8) (b : BitVec 8)
  /-- LDH (R378): Loads a half-word. -/
  | ldh (u : Bool) (d : BitVec 8) (a : BitVec 8) (b : BitVec 8)
  /-- LDW (R378): Loads a word. -/
  | ldw (u : Bool) (d : BitVec 8) (a : BitVec 8) (b : BitVec 8)
  /-- LDD (R378): Loads a double word to a pair. -/
  | ldd (u : Bool) (d : BitVec 8) (a : BitVec 8) (b : BitVec 8)
  /-- LDQ (R378): Loads 16 bytes to a quad. -/
  | ldq (u : Bool) (d : BitVec 8) (a : BitVec 8) (b : BitVec 8)
  /-- STB (R378): Stores a byte. -/
  | stb (u : Bool) (d : BitVec 8) (a : BitVec 8) (b : BitVec 8)
  /-- STH (R378): Stores a half-word. -/
  | sth (u : Bool) (d : BitVec 8) (a : BitVec 8) (b : BitVec 8)
  /-- STW (R378): Stores a word. -/
  | stw (u : Bool) (d : BitVec 8) (a : BitVec 8) (b : BitVec 8)
  /-- STD (R378): Stores a pair. -/
  | std (u : Bool) (d : BitVec 8) (a : BitVec 8) (b : BitVec 8)
  /-- STQ (R378): Stores a quad. -/
  | stq (u : Bool) (d : BitVec 8) (a : BitVec 8) (b : BitVec 8)
  /-- LDC (R384): Loads from the grid's constant bank through the constant cache. -/
  | ldc (u : Bool) (d : BitVec 8) (b : BitVec 8)
  /-- AT_ADD (R388): Atomic add returning the old value. -/
  | atAdd (u : Bool) (d : BitVec 8) (a : BitVec 8) (b : BitVec 8)
  /-- AT_MIN (R388): Atomic minimum. -/
  | atMin (u : Bool) (d : BitVec 8) (a : BitVec 8) (b : BitVec 8)
  /-- AT_MAX (R388): Atomic maximum. -/
  | atMax (u : Bool) (d : BitVec 8) (a : BitVec 8) (b : BitVec 8)
  /-- AT_AND (R388): Atomic and. -/
  | atAnd (u : Bool) (d : BitVec 8) (a : BitVec 8) (b : BitVec 8)
  /-- AT_OR (R388): Atomic or. -/
  | atOr (u : Bool) (d : BitVec 8) (a : BitVec 8) (b : BitVec 8)
  /-- AT_XOR (R388): Atomic exclusive or. -/
  | atXor (u : Bool) (d : BitVec 8) (a : BitVec 8) (b : BitVec 8)
  /-- AT_XCH (R388): Atomic exchange. -/
  | atXch (u : Bool) (d : BitVec 8) (a : BitVec 8) (b : BitVec 8)
  /-- AT_CAS (R388): Atomic compare-and-swap. -/
  | atCas (u : Bool) (d : BitVec 8) (a : BitVec 8) (b : BitVec 8)
  /-- AT_INC (R388): Atomic wrapping increment. -/
  | atInc (u : Bool) (d : BitVec 8) (a : BitVec 8) (b : BitVec 8)
  /-- AT_AGG (R390): Aggregated atomic add, one access per distinct address with prefix values per thread. -/
  | atAgg (u : Bool) (d : BitVec 8) (a : BitVec 8) (b : BitVec 8)
  /-- AT_FADD (R389): Atomic float add rounded once. -/
  | atFadd (u : Bool) (d : BitVec 8) (a : BitVec 8) (b : BitVec 8)
  /-- FENCE (R394): Orders the split's accesses at a scope with release, acquire or sc. -/
  | fence (o : BitVec 3) (s : BitVec 4)
  /-- BAR (R396): Block barrier with acq-rel at block scope. -/
  | bar (r : BitVec 4) (i : BitVec 4)
  /-- BARG (R396): Gang barrier with acq-rel at cluster scope. -/
  | barg (i : BitVec 4)
  /-- WAITC (R398): Waits until a wait counter is at most n. -/
  | waitc (n : BitVec 8) (c : BitVec 8)
  /-- SEAL (R399): Closes the group's unsealed copy and gather commands into a new batch. -/
  | seal (d : BitVec 8)
  /-- WAITB (R401): Waits for every command of the batches up to n. -/
  | waitb (b : BitVec 8)
  /-- PFT (R403): Starts a tier move of a range to the fast tier. -/
  | pft (a : BitVec 8) (b : BitVec 8)
  /-- EVT (R403): Starts a tier move of a range to the capacity tier. -/
  | evt (a : BitVec 8) (b : BitVec 8)
  /-- BOW (R404): Waits until a barrier object reaches a value, with acquire at partition scope. -/
  | bow (d : BitVec 8) (a : BitVec 8) (b : BitVec 8)
  /-- CINV_RANGE (R405): Drops the L1 sectors of a virtual address range. -/
  | cinvRange (a : BitVec 8) (b : BitVec 8)
  /-- CPY (R412): Enqueues a tensor copy command. -/
  | cpy (g : Bool) (s : BitVec 3) (a : BitVec 8)
  /-- GTHR (R413): Enqueues an embedding gather command. -/
  | gthr (g : Bool) (s : BitVec 3) (a : BitVec 8)
  /-- GBAG (R414): Enqueues an embedding bag command. -/
  | gbag (g : Bool) (s : BitVec 3) (a : BitVec 8)
  /-- SCTR (R415): Enqueues an atomic scatter-add into an embedding table. -/
  | sctr (g : Bool) (s : BitVec 3) (a : BitVec 8)
  /-- COLL (R416): Hands a collective to the die's collective engine. -/
  | coll (g : Bool) (s : BitVec 3) (a : BitVec 8)
  /-- CHAIN (R421): Binds an engine to a linked list of command entries. -/
  | chain (g : Bool) (s : BitVec 3) (a : BitVec 8)
  /-- NPOST (R417): Posts an Estuary work request. -/
  | npost (g : Bool) (s : BitVec 3) (a : BitVec 8)
  /-- CTAIL (R422): Advances the tail count of the group's latest chain for an engine. -/
  | ctail (e : Bool) (b : BitVec 8)
  /-- GRES (R423): Resolves a guard slot as true or false. -/
  | gres (s : BitVec 3) (b : BitVec 8)
  /-- GRES_CLEAR (R423): Returns a guard slot to open. -/
  | gresClear (s : BitVec 3)
  /-- NCWT (R420): Waits until a completion counter reaches n, with acquire. -/
  | ncwt (d : BitVec 8) (a : BitVec 8) (b : BitVec 8)
  /-- TSWAP (R427): Atomically swaps an embedding table's base and version. -/
  | tswap (d : BitVec 8) (a : BitVec 8) (b : BitVec 8)
  /-- LNCH (R428): Checks and submits a launch record to the device launch queue. -/
  | lnch (d : BitVec 8) (a : BitVec 8)
  /-- HCALL (R429): Posts a host-service call and waits for its answer. -/
  | hcall (d : BitVec 8) (a : BitVec 8)
  /-- TXD (R430): Aborts each lane's transaction with code DROP. -/
  | txd (b : BitVec 8)
  /-- TXS (R430): Writes each lane's transaction status word. -/
  | txs (d : BitVec 8)
  /-- WSIG (R431): Signals a weir by an increment, waiting through rate holds. -/
  | wsig (a : BitVec 8) (b : BitVec 8)
  /-- WTRY (R431): Signals a weir if a token is available, returning a status. -/
  | wtry (d : BitVec 8) (a : BitVec 8) (b : BitVec 8)
  /-- WWAIT (R431): Waits until a weir's count reaches n, with acquire. -/
  | wwait (d : BitVec 8) (a : BitVec 8) (b : BitVec 8)
  /-- WQRY (R431): Returns a weir's count. -/
  | wqry (d : BitVec 8) (a : BitVec 8)
  /-- GMM (R442): Dense 64x16 by 16x64 matrix multiply-accumulate. -/
  | gmm (z : Bool) (a : BitVec 8) (b : BitVec 8)
  /-- GMM_SPARSE (R444): Sparse matrix multiply-accumulate with bitmaps in o7. -/
  | gmmSparse (z : Bool) (a : BitVec 8) (b : BitVec 8)
  /-- GMM_LINKED (R445): Linked matrix multiply across a lock set of four. -/
  | gmmLinked (z : Bool) (a : BitVec 8) (b : BitVec 8)
  /-- GMM_LINKED_SPARSE (R445): Linked sparse matrix multiply across a lock set of four. -/
  | gmmLinkedSparse (z : Bool) (a : BitVec 8) (b : BitVec 8)
  /-- GOUT (R447): Rank-1 update of the accumulators. -/
  | gout (z : Bool) (a : BitVec 8) (b : BitVec 8)
  /-- GBIAS (R449): Adds row and column biases to the accumulators. -/
  | gbias (d : BitVec 8) (a : BitVec 8)
  /-- GSCL (R449): Scales the accumulators by row and column factors. -/
  | gscl (d : BitVec 8) (a : BitVec 8)
  /-- GPACK (R450): Converts and packs accumulator cells into one register. -/
  | gpack (d : BitVec 8) (a : BitVec 8)
  /-- GSTP (R451): Stores a register panel to the tile store. -/
  | gstp (d : BitVec 8) (a : BitVec 8)
  /-- GLDP (R451): Loads a register panel from the tile store. -/
  | gldp (d : BitVec 8) (a : BitVec 8)
  /-- GSTAT (R452): Writes the group's grid status word. -/
  | gstat (d : BitVec 8)
  /-- TRAP (R461): Raises USER_TRAP with a user code. -/
  | trap (i : BitVec 24)
  /-- SRD (R462): Reads a status register. -/
  | srd (d : BitVec 8) (i : BitVec 16)
  /-- SWR (R462): Writes a status register with its checks. -/
  | swr (d : BitVec 8) (i : BitVec 16)
  /-- FSKIP_MASK (R466): Marks the faulting threads in a mask pair as skipped. -/
  | fskipMask (a : BitVec 8)
  /-- SLP (R469): Waits until a tick count has passed. -/
  | slp (a : BitVec 8)
  /-- LRD (R465): Reads a trapped group's register into the handler. -/
  | lrd (d : BitVec 8) (a : BitVec 8) (b : BitVec 8)
  /-- LWR (R465): Writes a trapped group's register from the handler. -/
  | lwr (d : BitVec 8) (a : BitVec 8) (b : BitVec 8)
  /-- ERPL (R466): Supplies replacement values for faulting threads. -/
  | erpl (a : BitVec 8) (b : BitVec 8)
  /-- FPT (R470): Declares a flashback point, recording state and opening a region. -/
  | fpt (a : BitVec 8)
  /-- VF_RESET_COMPLETE (R119): A running VF reset reaches step 9: LQSTAT.idle reads 1, VF window writes are accepted again and the reset is complete, at most 5 ms after it began. -/
  | vfResetComplete (vf : Nat)
  /-- COLL_ACCEPT (R416): The die's collective engine accepts a queued COLL, freeing its core queue entry, reads its communicator descriptor and starts or refuses the collective. -/
  | collAccept (core : Nat) (id : Nat)
  /-- NPOST_ACCEPT (R417): Estuary accepts a queued NPOST work request, freeing its core queue entry, checks it and begins sending, or completes it at once with an error. -/
  | npostAccept (core : Nat) (id : Nat)
  /-- PRIVATE_CACHE_EVICTION (R231): A host core's private cache evicts a granule that an open host transaction has written, aborting it with CAPACITY detail 0. -/
  | privateCacheEviction (h : Nat) (granule : Nat)
  /-- HOST_TX_ILLEGAL (R231): A host core inside a transaction executes fence.i, sfence.vma, wfi, a CSR write or an access to register and management space, aborting the transaction with code ILLEGAL. -/
  | hostTxIllegal (h : Nat)
  /-- RESERVED_OPCODE (R318): A group issues a word whose opcode, sub-code or AT operation is reserved, which raises ILLEGAL_OP and has no other effect. -/
  | reservedOpcode (w : BitVec 32)
  /-- POWER_GOOD (R46): Package power becomes good and the boot ROM on the host chiplet starts, waiting for an image with status 0x00. -/
  | powerGood
  /-- POWER_CAP_EXCEEDED (R39): Package power exceeds the board controller's cap and management raises the throttle level. -/
  | powerCapExceeded
  /-- THROTTLE_STEP_DOWN (R39): Each millisecond with power at least 3% below the cap, management lowers the throttle level by one. -/
  | throttleStepDown
  /-- THERMAL_THROTTLE (R40): A die reaches 105 °C and throttle level 15 applies package-wide. -/
  | thermalThrottle
  /-- THERMAL_RECOVER (R40): Every die falls below 100 °C and the forced throttle level 15 ends. -/
  | thermalRecover
  /-- THERMAL_SHUTDOWN (R40): A die reaches 115 °C, the package powers off and all contexts are lost. -/
  | thermalShutdown
  /-- SETSTRIPE (R91): The configuration port sets a range of stripe allocation entries, applying the trust-domain rules or finishing with result 1 or 2. -/
  | setstripe
  /-- STRIPE_SCRUB_DONE (R92): A stripe that left its trust domain has been written back, invalidated and zeroed, and takes its new value; CFGSTAT.busy clears. -/
  | stripeScrubDone
  /-- ASSIGNVF (R88): The configuration port assigns a VF to a partition and local index, or finishes with result 3. -/
  | assignvf
  /-- UNASSIGNVF (R88): The configuration port resets a VF and removes it from its partition. -/
  | unassignvf
  /-- WOPEN (R116): The weir unit loads a descriptor, opens and holds the weir, and registers commons admission. -/
  | wopen
  /-- WQUIESCE (R116): An open weir becomes quiesced: new operations are held and refill stops. -/
  | wquiesce
  /-- WEXPORT (R116): A quiesced weir writes count, tokens and state moving to its descriptor. -/
  | wexport
  /-- WCLOSE (R116): A held weir is closed, written back unless moving, commons admission is withdrawn and held operations are looked up again. -/
  | wclose
  /-- WRELOAD (R116): An open or quiesced weir reloads refill, burst, access list and commons from memory, clipping tokens. -/
  | wreload
  /-- BANDWIDTH_REFILL (R106): Every 700 ticks each enabled VF bucket gains its rate, overflow goes to the partition's reservoir, and held requests are retried. -/
  | bandwidthRefill
  /-- WEIR_REFILL (R112): Every 700 ticks an open rate-limited weir gains its refill, and held signals are retried. -/
  | weirRefill
  /-- TIER_MOVE_COMPLETE (R199): The tier unit finishes copying a range, flips cur, writes the status and signals the barrier object. -/
  | tierMoveComplete
  /-- SLUICE_TURN (R224): A transaction's ticket turn begins once earlier overlapping turns have ended; lanes are validated and passing writes made visible at one point. -/
  | sluiceTurn
  /-- TX_CLOSE (R230): Host transaction close: lowers the depth, or at depth 1 requests a ticket and commits at its turn. -/
  | txClose
  /-- NOP (R330): Does nothing but consume the prefix state. -/
  | nop
  /-- JOIN (R337): Waits for sibling splits and merges them at the reconvergence point. -/
  | join
  /-- EXIT (R338): Ends every thread of the split and removes it. -/
  | exit
  /-- CINV (R405): Drops every valid sector of the core's L1. -/
  | cinv
  /-- TXO (R430): Opens a transaction per lane, raises its depth or requests the fallback lock. -/
  | txo
  /-- TXC (R430): Lowers the depth, or at depth 1 requests a commit ticket. -/
  | txc
  /-- ENTG (R436): Enters grid mode, making v64-v127 the accumulators. -/
  | entg
  /-- EXTG (R437): Waits for the group's grid operations and leaves grid mode. -/
  | extg
  /-- GZRO (R448): Writes +0 to every accumulator of the executing rows. -/
  | gzro
  /-- RETT (R467): Ends the handler activation and resumes, re-executes or skips the trapped instruction. -/
  | rett
  /-- FPRET (R472): Ends a flashback recipe and continues at the point with recorded mode state. -/
  | fpret
  /-- YLD (R469): Yields issue to the quadrant's other ready groups. -/
  | yld
  /-- HALT (R468): Halts the trapped group and reports a context error. -/
  | halt
  /-- DBRK (R461): Raises BREAKPOINT. -/
  | dbrk
  /-- FSKIP_ALL (R466): Marks every faulting thread as skipped. -/
  | fskipAll
  /-- POWER_OFF (R50): The board controller removes package power, ending every state including the 0x20 self-test failure state and losing all contexts. -/
  | powerOff
  deriving DecidableEq, Repr

end Sys2Proof
end

