-- ==== Sys2Proof/WellFormed.lean ====
section
/-! DEFINITION. The checks on an instruction's fields that its form makes beyond the opcode map:
the values that R365, R393, R394, R398, R321 and R407 allow. -/

namespace Sys2Proof

/-- The format codes that each CVT kind accepts (R365). -/
def cvtfFormats : List Nat := [1, 2, 3, 4, 14]
/-- CVTI and CVII (R365). -/
def cvtiFormats : List Nat := [5, 6, 7, 8, 9, 10, 11, 12, 13]
/-- CVIF (R365). -/
def cvifFormats : List Nat := [0, 1, 2, 3, 4, 14]
/-- UNPK (R365). -/
def unpkFormats : List Nat := [1, 2, 3, 4, 7, 8, 9, 10, 11, 12, 13, 14]
/-- MXQ and MXSC (R365). -/
def mxFormats : List Nat := [3, 4]

/-- The fields hold values that the instruction's form allows. -/
def Instr.wellFormed : Instr → Bool
  | .cvtf _ _ _ f => cvtfFormats.contains f.toNat
  | .cvti _ _ _ f => cvtiFormats.contains f.toNat
  | .cvif _ _ _ f => cvifFormats.contains f.toNat
  | .cvii _ _ _ f => cvtiFormats.contains f.toNat
  | .unpk _ _ _ f => unpkFormats.contains f.toNat
  | .mxq _ _ _ f => mxFormats.contains f.toNat
  | .mxsc _ _ _ f => mxFormats.contains f.toNat
  | .fence o _ => decide (1 ≤ o.toNat ∧ o.toNat ≤ 4)
  | .waitc _ c => decide (c.toNat < 5)
  | .srd _ i => decide (i.toNat < 0x1A)
  | .swr _ i => decide (i.toNat < 0x1A)
  | .cpy g n _ | .gthr g n _ | .gbag g n _ | .sctr g n _ | .coll g n _ | .chain g n _ | .npost g n _ => g || decide (n = 0#3)
  | _ => true

/-- The row of the opcode table is an event: it has no instruction word (R9). -/
def Instr.isEvent : Instr → Bool
  | .powerGood => true
  | .imageOffer _ => true
  | .selfTestComplete _ _ => true
  | .rowRepairInService _ => true
  | .l2WayFailure _ => true
  | .powerCapExceeded => true
  | .throttleStepDown => true
  | .thermalThrottle => true
  | .thermalRecover => true
  | .thermalShutdown => true
  | .millracePortFailure _ => true
  | .millracePathTimeout _ => true
  | .millracePacketRx _ _ _ _ _ _ => true
  | .flushMarker _ => true
  | .flushAnswer _ _ => true
  | .estuaryPacketRx _ _ _ _ _ _ => true
  | .estuaryRetxTimeout _ _ _ _ _ _ => true
  | .estuaryWorkComplete _ _ _ => true
  | .assistDone _ _ => true
  | .registerWrite _ _ _ _ => true
  | .lqtailWrite _ _ => true
  | .vfctlEn _ _ => true
  | .qreset _ => true
  | .vreset _ => true
  | .hsdoneWrite _ _ => true
  | .hcallResume _ _ => true
  | .recordStart _ => true
  | .recordWaitSatisfied _ => true
  | .wobjReread _ => true
  | .dlqRecordStart _ => true
  | .contextErrorReport _ _ _ _ _ _ => true
  | .gridCompletion _ => true
  | .pclusWrite _ _ => true
  | .l2qWrite _ _ => true
  | .mrportsWrite _ _ => true
  | .estpWrite _ _ => true
  | .wtinvWrite _ => true
  | .stageInvalidate _ _ => true
  | .invalidationDone _ _ => true
  | .setstripe => true
  | .stripeScrubDone => true
  | .assignvf => true
  | .unassignvf => true
  | .wopen => true
  | .wquiesce => true
  | .wexport => true
  | .wclose => true
  | .wreload => true
  | .bandwidthRefill => true
  | .weirRequest _ _ _ _ _ => true
  | .weirRefill => true
  | .deltaBatchHandout _ => true
  | .batchReturn _ _ => true
  | .blockPlacement _ _ => true
  | .stealRequest _ _ => true
  | .splitExchange _ => true
  | .demotionTimeout _ => true
  | .switchTick _ => true
  | .switchDone _ _ => true
  | .switchDeadline _ => true
  | .switchIn _ => true
  | .inFieldScan _ => true
  | .scanComplete _ _ => true
  | .coreLost _ => true
  | .handlerEntry _ => true
  | .loadResponse _ _ _ _ => true
  | .atomicResponse _ _ _ _ => true
  | .homeRequest _ _ _ _ _ _ => true
  | .gridOpComplete _ => true
  | .engineCommandStart _ _ => true
  | .engineCommandComplete _ _ => true
  | .engineFault _ _ => true
  | .chainEntryStart _ _ => true
  | .collComplete _ _ _ => true
  | .tierMoveComplete => true
  | .sluiceTurn => true
  | .fallbackLockGrant _ => true
  | .hostTxInterrupt _ _ => true
  | .bowReread _ _ => true
  | .slpWake _ _ => true
  | .yldExpire _ => true
  | .powerOff => true
  | .vfResetComplete _ => true
  | .collAccept _ _ => true
  | .npostAccept _ _ => true
  | .privateCacheEviction _ _ => true
  | .hostTxIllegal _ => true
  | .reservedOpcode _ => true
  | _ => false

end Sys2Proof
end

