-- ==== Sys2Proof/Decode.lean ====
section
/-! DEFINITION. From bits to an instruction and back: R302 to R304, R307, R316 to R319 for device
words and R229 for the host's transaction words. Decoding is total and rejects by name. -/

namespace Sys2Proof

/-- Why a word is no instruction. Every one of them is an ILLEGAL_OP of step 2 of R319. -/
inductive DecodeError where
  /-- the opcode is reserved (R316, R318) -/
  | reservedOpcode
  /-- the sub-code of a family is reserved (R317, R318) -/
  | reservedSub
  /-- the atomic operation of EXTV[23:20] is reserved (R318) -/
  | reservedAt
  /-- U = 1 on a G-class word (R307) -/
  | uniformMark
  /-- a field marked 0 is not zero (R304) -/
  | zeroField
  /-- a field holds a value that the form does not allow (R365, R393, R321) -/
  | fieldValue
  deriving DecidableEq, Repr

/-- The five fields of an instruction word (R302). -/
structure WordFields where
  /-- uniform marker, bit 31 -/
  u : Bool
  /-- opcode, bits 30 to 24 -/
  op : BitVec 7
  /-- first operand field, bits 23 to 16 -/
  d : BitVec 8
  /-- second operand field, bits 15 to 8 -/
  a : BitVec 8
  /-- third operand field or sub-code, bits 7 to 0 -/
  b : BitVec 8
  deriving DecidableEq, Repr

/-- The fields of a word (R302). -/
def fieldsOfWord (w : BitVec 32) : WordFields :=
  ⟨w.getLsbD 31, w.extractLsb' 24 7, w.extractLsb' 16 8, w.extractLsb' 8 8, w.extractLsb' 0 8⟩

/-- The word that has the given fields (R302). -/
def wordOfFields (f : WordFields) : BitVec 32 :=
  bit1 f.u ++ f.op ++ f.d ++ f.a ++ f.b

/-- The instruction that the fields name, under the opcode map of R316 and R317.
The operation of an AT comes from EXTV[23:20] (R317, R385). -/
def decodeFields (extv : BitVec 24) (f : WordFields) : Except DecodeError Instr :=
  match f.op.toNat with
  | 0x00 => if f.u = false then (if f.d = 0#8 ∧ f.a = 0#8 ∧ f.b = 0#8 then .ok .nop else .error .zeroField) else .error .uniformMark
  | 0x01 => if f.u = false then (.ok (.ext (f.d ++ f.a ++ f.b))) else .error .uniformMark
  | 0x02 => if f.u = false then (.ok (.exth (f.d ++ f.a ++ f.b))) else .error .uniformMark
  | 0x03 => if f.u = false then (.ok (.setm (f.d ++ f.a ++ f.b))) else .error .uniformMark
  | 0x04 => if f.u = false then (if f.d = 0#8 ∧ f.a = 0#8 then .ok (.setcv f.b) else .error .zeroField) else .error .uniformMark
  | 0x05 => if f.u = false then (.ok (.bra (f.d ++ f.a ++ f.b))) else .error .uniformMark
  | 0x06 => .ok (.brc f.u f.d (f.a ++ f.b))
  | 0x07 => if f.u = false then (if f.d = 0#8 ∧ f.a = 0#8 ∧ f.b = 0#8 then .ok .join else .error .zeroField) else .error .uniformMark
  | 0x08 => if f.u = false then (if f.d = 0#8 ∧ f.b = 0#8 then .ok (.jmpi f.a) else .error .zeroField) else .error .uniformMark
  | 0x09 => if f.u = false then (.ok (.call f.d (f.a ++ f.b))) else .error .uniformMark
  | 0x0a => if f.u = false then (if f.b = 0#8 then .ok (.calli f.d f.a) else .error .zeroField) else .error .uniformMark
  | 0x0b => if f.u = false then (if f.d = 0#8 ∧ f.a = 0#8 ∧ f.b = 0#8 then .ok .exit else .error .zeroField) else .error .uniformMark
  | 0x10 => .ok (.iadd f.u f.d f.a f.b)
  | 0x11 => .ok (.isub f.u f.d f.a f.b)
  | 0x12 => .ok (.imul f.u f.d f.a f.b)
  | 0x13 => .ok (.imulh f.u f.d f.a f.b)
  | 0x14 => .ok (.imad f.u f.d f.a f.b)
  | 0x15 => .ok (.idiv f.u f.d f.a f.b)
  | 0x16 => .ok (.imin f.u f.d f.a f.b)
  | 0x17 => .ok (.imax f.u f.d f.a f.b)
  | 0x18 => .ok (.and f.u f.d f.a f.b)
  | 0x19 => .ok (.or f.u f.d f.a f.b)
  | 0x1a => .ok (.xor f.u f.d f.a f.b)
  | 0x1b => .ok (.andn f.u f.d f.a f.b)
  | 0x1c => .ok (.shl f.u f.d f.a f.b)
  | 0x1d => .ok (.shr f.u f.d f.a f.b)
  | 0x1e => .ok (.sar f.u f.d f.a f.b)
  | 0x1f => .ok (.fshl f.u f.d f.a f.b)
  | 0x20 => .ok (.bfx f.u f.d f.a f.b)
  | 0x21 => .ok (.bfi f.u f.d f.a f.b)
  | 0x22 => .ok (.prmb f.u f.d f.a f.b)
  | 0x23 => .ok (.sel f.u f.d f.a f.b)
  | 0x24 => .ok (.iseq f.u f.d f.a f.b)
  | 0x25 => .ok (.isne f.u f.d f.a f.b)
  | 0x26 => .ok (.islt f.u f.d f.a f.b)
  | 0x27 => .ok (.isle f.u f.d f.a f.b)
  | 0x28 => .ok (.limm f.u f.d (f.a ++ f.b))
  | 0x29 => .ok (.limmh f.u f.d (f.a ++ f.b))
  | 0x2a => .ok (.iadd64 f.u f.d f.a f.b)
  | 0x2b => .ok (.isub64 f.u f.d f.a f.b)
  | 0x2c =>
    match f.b.toNat with
    | 0x00 => .ok (.mov f.u f.d f.a)
    | 0x01 => .ok (.not f.u f.d f.a)
    | 0x02 => .ok (.ineg f.u f.d f.a)
    | 0x03 => .ok (.iabs f.u f.d f.a)
    | 0x04 => .ok (.clz f.u f.d f.a)
    | 0x05 => .ok (.ffs f.u f.d f.a)
    | 0x06 => .ok (.popc f.u f.d f.a)
    | 0x07 => .ok (.brev f.u f.d f.a)
    | _ => .error .reservedSub
  | 0x2d => .ok (.ada f.u f.d f.a f.b)
  | 0x2e => .ok (.adax f.u f.d f.a f.b)
  | 0x2f => .ok (.adcmp f.u f.d f.a f.b)
  | 0x30 => .ok (.fadd f.u f.d f.a f.b)
  | 0x31 => .ok (.fsub f.u f.d f.a f.b)
  | 0x32 => .ok (.fmul f.u f.d f.a f.b)
  | 0x33 => .ok (.fma f.u f.d f.a f.b)
  | 0x34 => .ok (.fnma f.u f.d f.a f.b)
  | 0x35 => .ok (.fmin f.u f.d f.a f.b)
  | 0x36 => .ok (.fmax f.u f.d f.a f.b)
  | 0x37 => .ok (.fcpys f.u f.d f.a f.b)
  | 0x38 => .ok (.fscl f.u f.d f.a f.b)
  | 0x39 => .ok (.fdiv f.u f.d f.a f.b)
  | 0x3a => .ok (.fseq f.u f.d f.a f.b)
  | 0x3b => .ok (.fsne f.u f.d f.a f.b)
  | 0x3c => .ok (.fslt f.u f.d f.a f.b)
  | 0x3d => .ok (.fsle f.u f.d f.a f.b)
  | 0x3e => .ok (.fsun f.u f.d f.a f.b)
  | 0x3f =>
    match f.b.toNat with
    | 0x00 => .ok (.fabs f.u f.d f.a)
    | 0x01 => .ok (.fneg f.u f.d f.a)
    | 0x02 => .ok (.fclass f.u f.d f.a)
    | 0x03 => .ok (.frnd f.u f.d f.a)
    | 0x04 => .ok (.fexpo f.u f.d f.a)
    | 0x08 => .ok (.frcp f.u f.d f.a)
    | 0x09 => .ok (.frsq f.u f.d f.a)
    | 0x0a => .ok (.fsqrt f.u f.d f.a)
    | 0x0b => .ok (.fex2 f.u f.d f.a)
    | 0x0c => .ok (.flg2 f.u f.d f.a)
    | 0x0d => .ok (.fsin f.u f.d f.a)
    | 0x0e => .ok (.fcos f.u f.d f.a)
    | 0x0f => .ok (.ftanh f.u f.d f.a)
    | _ => .error .reservedSub
  | 0x40 =>
    match (f.b.extractLsb' 4 4).toNat with
    | 0 => .ok (.cvtf f.u f.d f.a (f.b.extractLsb' 0 4))
    | 1 => .ok (.cvti f.u f.d f.a (f.b.extractLsb' 0 4))
    | 2 => .ok (.cvif f.u f.d f.a (f.b.extractLsb' 0 4))
    | 3 => .ok (.cvii f.u f.d f.a (f.b.extractLsb' 0 4))
    | 4 => .ok (.unpk f.u f.d f.a (f.b.extractLsb' 0 4))
    | 5 => .ok (.mxq f.u f.d f.a (f.b.extractLsb' 0 4))
    | 6 => .ok (.mxsc f.u f.d f.a (f.b.extractLsb' 0 4))
    | _ => .error .reservedSub
  | 0x41 => .ok (.pack2 f.u f.d f.a f.b)
  | 0x42 => .ok (.pack4 f.u f.d f.a f.b)
  | 0x43 => .ok (.shfl f.u f.d f.a f.b)
  | 0x44 => .ok (.shflx f.u f.d f.a f.b)
  | 0x45 => .ok (.shflup f.u f.d f.a f.b)
  | 0x46 => .ok (.shfldn f.u f.d f.a f.b)
  | 0x47 =>
    match f.b.toNat with
    | 0x00 => .ok (.red f.u f.d f.a)
    | 0x01 => .ok (.rstep f.u f.d f.a)
    | 0x02 => .ok (.vany f.u f.d f.a)
    | 0x03 => .ok (.vall f.u f.d f.a)
    | 0x04 => .ok (.blt f.u f.d f.a)
    | 0x05 => .ok (.elect f.u f.d f.a)
    | 0x06 => .ok (.pscan f.u f.d f.a)
    | 0x07 => .ok (.bcast f.u f.d f.a)
    | _ => .error .reservedSub
  | 0x48 => .ok (.ldb f.u f.d f.a f.b)
  | 0x49 => .ok (.ldh f.u f.d f.a f.b)
  | 0x4a => .ok (.ldw f.u f.d f.a f.b)
  | 0x4b => .ok (.ldd f.u f.d f.a f.b)
  | 0x4c => .ok (.ldq f.u f.d f.a f.b)
  | 0x4d => .ok (.stb f.u f.d f.a f.b)
  | 0x4e => .ok (.sth f.u f.d f.a f.b)
  | 0x4f => .ok (.stw f.u f.d f.a f.b)
  | 0x50 => .ok (.std f.u f.d f.a f.b)
  | 0x51 => .ok (.stq f.u f.d f.a f.b)
  | 0x52 => if f.a = 0#8 then .ok (.ldc f.u f.d f.b) else .error .zeroField
  | 0x53 =>
    match (extv.extractLsb' 20 4).toNat with
    | 0 => .ok (.atAdd f.u f.d f.a f.b)
    | 1 => .ok (.atMin f.u f.d f.a f.b)
    | 2 => .ok (.atMax f.u f.d f.a f.b)
    | 3 => .ok (.atAnd f.u f.d f.a f.b)
    | 4 => .ok (.atOr f.u f.d f.a f.b)
    | 5 => .ok (.atXor f.u f.d f.a f.b)
    | 6 => .ok (.atXch f.u f.d f.a f.b)
    | 7 => .ok (.atCas f.u f.d f.a f.b)
    | 8 => .ok (.atInc f.u f.d f.a f.b)
    | 9 => .ok (.atAgg f.u f.d f.a f.b)
    | 10 => .ok (.atFadd f.u f.d f.a f.b)
    | _ => .error .reservedAt
  | 0x54 => if f.u = false then (if f.d = 0#8 ∧ f.a = 0#8 ∧ f.b.extractLsb' 7 1 = 0#1 then .ok (.fence (f.b.extractLsb' 4 3) (f.b.extractLsb' 0 4)) else .error .zeroField) else .error .uniformMark
  | 0x55 => if f.u = false then (if f.d = 0#8 ∧ f.a = 0#8 then .ok (.bar (f.b.extractLsb' 4 4) (f.b.extractLsb' 0 4)) else .error .zeroField) else .error .uniformMark
  | 0x56 => if f.u = false then (if f.d = 0#8 ∧ f.a = 0#8 ∧ f.b.extractLsb' 4 4 = 0#4 then .ok (.barg (f.b.extractLsb' 0 4)) else .error .zeroField) else .error .uniformMark
  | 0x57 => if f.u = false then (if f.a = 0#8 then .ok (.waitc f.d f.b) else .error .zeroField) else .error .uniformMark
  | 0x58 => if f.u = false then (if f.a = 0#8 ∧ f.b = 0#8 then .ok (.seal f.d) else .error .zeroField) else .error .uniformMark
  | 0x59 => if f.u = false then (if f.d = 0#8 ∧ f.a = 0#8 then .ok (.waitb f.b) else .error .zeroField) else .error .uniformMark
  | 0x5a => if f.u = false then (if f.d = 0#8 then .ok (.pft f.a f.b) else .error .zeroField) else .error .uniformMark
  | 0x5b => if f.u = false then (if f.d = 0#8 then .ok (.evt f.a f.b) else .error .zeroField) else .error .uniformMark
  | 0x5c => if f.u = false then (.ok (.bow f.d f.a f.b)) else .error .uniformMark
  | 0x5d => if f.d = 1#8 then (if f.u = false then (.ok (.cinvRange f.a f.b)) else .error .uniformMark) else (if f.u = false then (if f.d = 0#8 ∧ f.a = 0#8 ∧ f.b = 0#8 then .ok .cinv else .error .zeroField) else .error .uniformMark)
  | 0x60 =>
    match f.b.toNat with
    | 0x00 => if f.u = false then (if f.d.extractLsb' 3 4 = 0#4 then .ok (.cpy (f.d.getLsbD 7) (f.d.extractLsb' 0 3) f.a) else .error .zeroField) else .error .uniformMark
    | 0x01 => if f.u = false then (if f.d.extractLsb' 3 4 = 0#4 then .ok (.gthr (f.d.getLsbD 7) (f.d.extractLsb' 0 3) f.a) else .error .zeroField) else .error .uniformMark
    | 0x02 => if f.u = false then (if f.d.extractLsb' 3 4 = 0#4 then .ok (.gbag (f.d.getLsbD 7) (f.d.extractLsb' 0 3) f.a) else .error .zeroField) else .error .uniformMark
    | 0x03 => if f.u = false then (if f.d.extractLsb' 3 4 = 0#4 then .ok (.sctr (f.d.getLsbD 7) (f.d.extractLsb' 0 3) f.a) else .error .zeroField) else .error .uniformMark
    | 0x04 => if f.u = false then (if f.d.extractLsb' 3 4 = 0#4 then .ok (.coll (f.d.getLsbD 7) (f.d.extractLsb' 0 3) f.a) else .error .zeroField) else .error .uniformMark
    | 0x05 => if f.u = false then (if f.d.extractLsb' 3 4 = 0#4 then .ok (.chain (f.d.getLsbD 7) (f.d.extractLsb' 0 3) f.a) else .error .zeroField) else .error .uniformMark
    | 0x06 => if f.u = false then (if f.d.extractLsb' 3 4 = 0#4 then .ok (.npost (f.d.getLsbD 7) (f.d.extractLsb' 0 3) f.a) else .error .zeroField) else .error .uniformMark
    | _ => .error .reservedSub
  | 0x61 => if f.u = false then (if f.d.extractLsb' 1 7 = 0#7 ∧ f.a = 0#8 then .ok (.ctail (f.d.getLsbD 0) f.b) else .error .zeroField) else .error .uniformMark
  | 0x62 => if f.d.extractLsb' 3 5 = 1#5 then (if f.u = false then (if f.d.extractLsb' 3 5 = 1#5 ∧ f.a = 0#8 ∧ f.b = 0#8 then .ok (.gresClear (f.d.extractLsb' 0 3)) else .error .zeroField) else .error .uniformMark) else (if f.u = false then (if f.d.extractLsb' 3 5 = 0#5 ∧ f.a = 0#8 then .ok (.gres (f.d.extractLsb' 0 3) f.b) else .error .zeroField) else .error .uniformMark)
  | 0x63 => if f.u = false then (.ok (.ncwt f.d f.a f.b)) else .error .uniformMark
  | 0x64 => if f.u = false then (.ok (.tswap f.d f.a f.b)) else .error .uniformMark
  | 0x65 => if f.u = false then (if f.b = 0#8 then .ok (.lnch f.d f.a) else .error .zeroField) else .error .uniformMark
  | 0x66 => if f.u = false then (if f.b = 0#8 then .ok (.hcall f.d f.a) else .error .zeroField) else .error .uniformMark
  | 0x67 => if f.u = false then (if f.d = 0#8 ∧ f.a = 0#8 ∧ f.b = 0#8 then .ok .txo else .error .zeroField) else .error .uniformMark
  | 0x68 => if f.u = false then (if f.d = 0#8 ∧ f.a = 0#8 ∧ f.b = 0#8 then .ok .txc else .error .zeroField) else .error .uniformMark
  | 0x69 => if f.u = false then (if f.d = 0#8 ∧ f.a = 0#8 then .ok (.txd f.b) else .error .zeroField) else .error .uniformMark
  | 0x6a => if f.u = false then (if f.a = 0#8 ∧ f.b = 0#8 then .ok (.txs f.d) else .error .zeroField) else .error .uniformMark
  | 0x6b => if f.u = false then (if f.d = 0#8 then .ok (.wsig f.a f.b) else .error .zeroField) else .error .uniformMark
  | 0x6c => if f.u = false then (.ok (.wtry f.d f.a f.b)) else .error .uniformMark
  | 0x6d => if f.u = false then (.ok (.wwait f.d f.a f.b)) else .error .uniformMark
  | 0x6e => if f.u = false then (if f.b = 0#8 then .ok (.wqry f.d f.a) else .error .zeroField) else .error .uniformMark
  | 0x70 => if f.u = false then (if f.d = 0#8 ∧ f.a = 0#8 ∧ f.b = 0#8 then .ok .entg else .error .zeroField) else .error .uniformMark
  | 0x71 => if f.u = false then (if f.d = 0#8 ∧ f.a = 0#8 ∧ f.b = 0#8 then .ok .extg else .error .zeroField) else .error .uniformMark
  | 0x72 =>
    match (f.d.extractLsb' 0 2).toNat with
    | 0 => if f.u = false then (if f.d.extractLsb' 3 5 = 0#5 ∧ f.d.extractLsb' 0 2 = 0#2 then .ok (.gmm (f.d.getLsbD 2) f.a f.b) else .error .zeroField) else .error .uniformMark
    | 1 => if f.u = false then (if f.d.extractLsb' 3 5 = 0#5 ∧ f.d.extractLsb' 0 2 = 1#2 then .ok (.gmmSparse (f.d.getLsbD 2) f.a f.b) else .error .zeroField) else .error .uniformMark
    | 2 => if f.u = false then (if f.d.extractLsb' 3 5 = 0#5 ∧ f.d.extractLsb' 0 2 = 2#2 then .ok (.gmmLinked (f.d.getLsbD 2) f.a f.b) else .error .zeroField) else .error .uniformMark
    | 3 => if f.u = false then (if f.d.extractLsb' 3 5 = 0#5 ∧ f.d.extractLsb' 0 2 = 3#2 then .ok (.gmmLinkedSparse (f.d.getLsbD 2) f.a f.b) else .error .zeroField) else .error .uniformMark
    | _ => .error .zeroField
  | 0x73 => if f.u = false then (if f.d.extractLsb' 3 5 = 0#5 ∧ f.d.extractLsb' 0 2 = 0#2 then .ok (.gout (f.d.getLsbD 2) f.a f.b) else .error .zeroField) else .error .uniformMark
  | 0x74 => if f.u = false then (if f.d = 0#8 ∧ f.a = 0#8 ∧ f.b = 0#8 then .ok .gzro else .error .zeroField) else .error .uniformMark
  | 0x75 =>
    match f.b.toNat with
    | 0x00 => if f.u = false then (.ok (.gbias f.d f.a)) else .error .uniformMark
    | 0x01 => if f.u = false then (.ok (.gscl f.d f.a)) else .error .uniformMark
    | 0x02 => if f.u = false then (.ok (.gpack f.d f.a)) else .error .uniformMark
    | _ => .error .reservedSub
  | 0x76 =>
    match f.b.toNat with
    | 0x00 => if f.u = false then (.ok (.gstp f.d f.a)) else .error .uniformMark
    | 0x01 => if f.u = false then (.ok (.gldp f.d f.a)) else .error .uniformMark
    | _ => .error .reservedSub
  | 0x77 => if f.u = false then (if f.a = 0#8 ∧ f.b = 0#8 then .ok (.gstat f.d) else .error .zeroField) else .error .uniformMark
  | 0x78 => if f.u = false then (.ok (.trap (f.d ++ f.a ++ f.b))) else .error .uniformMark
  | 0x79 => if f.u = false then (.ok (.srd f.d (f.a ++ f.b))) else .error .uniformMark
  | 0x7a => if f.u = false then (.ok (.swr f.d (f.a ++ f.b))) else .error .uniformMark
  | 0x7b =>
    match f.b.toNat with
    | 0x00 => if f.u = false then (if f.d = 0#8 ∧ f.a = 0#8 then .ok .rett else .error .zeroField) else .error .uniformMark
    | 0x01 => if f.u = false then (if f.d = 0#8 ∧ f.a = 0#8 then .ok .fpret else .error .zeroField) else .error .uniformMark
    | 0x02 => if f.u = false then (if f.d = 0#8 ∧ f.a = 0#8 then .ok .yld else .error .zeroField) else .error .uniformMark
    | 0x03 => if f.u = false then (if f.d = 0#8 ∧ f.a = 0#8 then .ok .halt else .error .zeroField) else .error .uniformMark
    | 0x04 => if f.u = false then (if f.d = 0#8 ∧ f.a = 0#8 then .ok .dbrk else .error .zeroField) else .error .uniformMark
    | 0x05 => if f.d = 1#8 then (if f.u = false then (if f.a = 0#8 then .ok .fskipAll else .error .zeroField) else .error .uniformMark) else (if f.u = false then (if f.d = 0#8 then .ok (.fskipMask f.a) else .error .zeroField) else .error .uniformMark)
    | 0x06 => if f.u = false then (if f.d = 0#8 then .ok (.slp f.a) else .error .zeroField) else .error .uniformMark
    | _ => .error .reservedSub
  | 0x7c => if f.u = false then (.ok (.lrd f.d f.a f.b)) else .error .uniformMark
  | 0x7d => if f.u = false then (.ok (.lwr f.d f.a f.b)) else .error .uniformMark
  | 0x7e => if f.u = false then (if f.d = 0#8 then .ok (.erpl f.a f.b) else .error .zeroField) else .error .uniformMark
  | 0x7f => if f.u = false then (if f.d = 0#8 ∧ f.b = 0#8 then .ok (.fpt f.a) else .error .zeroField) else .error .uniformMark
  | _ => .error .reservedOpcode

/-- Decode one device word, with the EXTV that the split has pending (R310, R319 steps 1 and 2
without the checks that depend on MODE). -/
def decodeDevice (extv : BitVec 24) (w : BitVec 32) : Except DecodeError Instr :=
  match decodeFields extv (fieldsOfWord w) with
  | .error e => .error e
  | .ok i => if i.wellFormed then .ok i else .error .fieldValue

/-- Decode one host word: the custom-0 words of R229. Every other RV64 word is outside the spec. -/
def decodeHost (w : BitVec 32) : Option Instr :=
  if w.extractLsb' 0 7 = 0x0B#7 then
    if w.extractLsb' 12 20 = 0#20 then some (.txOpen (w.extractLsb' 7 5))
    else if w = 0x0000100B#32 then some .txClose
    else if w.extractLsb' 20 12 = 0#12 ∧ w.extractLsb' 7 8 = 0b01000000#8 then
      some (.txDrop (w.extractLsb' 15 5))
    else none
  else none

/-- A word from its four bytes, the lowest address first (R2). -/
def wordOfBytes (b0 b1 b2 b3 : Byte) : BitVec 32 := b3 ++ b2 ++ b1 ++ b0

/-- The four bytes of a word, the lowest address first (R2). -/
def bytesOfWord (w : BitVec 32) : List Byte :=
  [w.extractLsb' 0 8, w.extractLsb' 8 8, w.extractLsb' 16 8, w.extractLsb' 24 8]

/-- Decode a device instruction from the bytes at its address: the instruction and the bytes
after it, or the name of what is wrong; `none` when fewer than four bytes stand there. -/
def decodeBytes (extv : BitVec 24) : List Byte → Option (Except DecodeError Instr × List Byte)
  | b0 :: b1 :: b2 :: b3 :: rest => some (decodeDevice extv (wordOfBytes b0 b1 b2 b3), rest)
  | _ => none

/-- The fields of a device instruction's word (R316, R317); `none` for what has no device word. -/
def fieldsOfInstr : Instr → Option WordFields
  | .nop => some ⟨false, 0#7, 0#8, 0#8, 0#8⟩
  | .ext i => some ⟨false, 1#7, (i.extractLsb' 16 8), (i.extractLsb' 8 8), (i.extractLsb' 0 8)⟩
  | .exth i => some ⟨false, 2#7, (i.extractLsb' 16 8), (i.extractLsb' 8 8), (i.extractLsb' 0 8)⟩
  | .setm i => some ⟨false, 3#7, (i.extractLsb' 16 8), (i.extractLsb' 8 8), (i.extractLsb' 0 8)⟩
  | .setcv b => some ⟨false, 4#7, 0#8, 0#8, b⟩
  | .bra i => some ⟨false, 5#7, (i.extractLsb' 16 8), (i.extractLsb' 8 8), (i.extractLsb' 0 8)⟩
  | .brc u d i => some ⟨u, 6#7, d, (i.extractLsb' 8 8), (i.extractLsb' 0 8)⟩
  | .join => some ⟨false, 7#7, 0#8, 0#8, 0#8⟩
  | .jmpi a => some ⟨false, 8#7, 0#8, a, 0#8⟩
  | .call d i => some ⟨false, 9#7, d, (i.extractLsb' 8 8), (i.extractLsb' 0 8)⟩
  | .calli d a => some ⟨false, 10#7, d, a, 0#8⟩
  | .exit => some ⟨false, 11#7, 0#8, 0#8, 0#8⟩
  | .iadd u d a b => some ⟨u, 16#7, d, a, b⟩
  | .isub u d a b => some ⟨u, 17#7, d, a, b⟩
  | .imul u d a b => some ⟨u, 18#7, d, a, b⟩
  | .imulh u d a b => some ⟨u, 19#7, d, a, b⟩
  | .imad u d a b => some ⟨u, 20#7, d, a, b⟩
  | .idiv u d a b => some ⟨u, 21#7, d, a, b⟩
  | .imin u d a b => some ⟨u, 22#7, d, a, b⟩
  | .imax u d a b => some ⟨u, 23#7, d, a, b⟩
  | .and u d a b => some ⟨u, 24#7, d, a, b⟩
  | .or u d a b => some ⟨u, 25#7, d, a, b⟩
  | .xor u d a b => some ⟨u, 26#7, d, a, b⟩
  | .andn u d a b => some ⟨u, 27#7, d, a, b⟩
  | .shl u d a b => some ⟨u, 28#7, d, a, b⟩
  | .shr u d a b => some ⟨u, 29#7, d, a, b⟩
  | .sar u d a b => some ⟨u, 30#7, d, a, b⟩
  | .fshl u d a b => some ⟨u, 31#7, d, a, b⟩
  | .bfx u d a b => some ⟨u, 32#7, d, a, b⟩
  | .bfi u d a b => some ⟨u, 33#7, d, a, b⟩
  | .prmb u d a b => some ⟨u, 34#7, d, a, b⟩
  | .sel u d a b => some ⟨u, 35#7, d, a, b⟩
  | .iseq u d a b => some ⟨u, 36#7, d, a, b⟩
  | .isne u d a b => some ⟨u, 37#7, d, a, b⟩
  | .islt u d a b => some ⟨u, 38#7, d, a, b⟩
  | .isle u d a b => some ⟨u, 39#7, d, a, b⟩
  | .limm u d i => some ⟨u, 40#7, d, (i.extractLsb' 8 8), (i.extractLsb' 0 8)⟩
  | .limmh u d i => some ⟨u, 41#7, d, (i.extractLsb' 8 8), (i.extractLsb' 0 8)⟩
  | .iadd64 u d a b => some ⟨u, 42#7, d, a, b⟩
  | .isub64 u d a b => some ⟨u, 43#7, d, a, b⟩
  | .mov u d a => some ⟨u, 44#7, d, a, 0#8⟩
  | .not u d a => some ⟨u, 44#7, d, a, 1#8⟩
  | .ineg u d a => some ⟨u, 44#7, d, a, 2#8⟩
  | .iabs u d a => some ⟨u, 44#7, d, a, 3#8⟩
  | .clz u d a => some ⟨u, 44#7, d, a, 4#8⟩
  | .ffs u d a => some ⟨u, 44#7, d, a, 5#8⟩
  | .popc u d a => some ⟨u, 44#7, d, a, 6#8⟩
  | .brev u d a => some ⟨u, 44#7, d, a, 7#8⟩
  | .ada u d a b => some ⟨u, 45#7, d, a, b⟩
  | .adax u d a b => some ⟨u, 46#7, d, a, b⟩
  | .adcmp u d a b => some ⟨u, 47#7, d, a, b⟩
  | .fadd u d a b => some ⟨u, 48#7, d, a, b⟩
  | .fsub u d a b => some ⟨u, 49#7, d, a, b⟩
  | .fmul u d a b => some ⟨u, 50#7, d, a, b⟩
  | .fma u d a b => some ⟨u, 51#7, d, a, b⟩
  | .fnma u d a b => some ⟨u, 52#7, d, a, b⟩
  | .fmin u d a b => some ⟨u, 53#7, d, a, b⟩
  | .fmax u d a b => some ⟨u, 54#7, d, a, b⟩
  | .fcpys u d a b => some ⟨u, 55#7, d, a, b⟩
  | .fscl u d a b => some ⟨u, 56#7, d, a, b⟩
  | .fdiv u d a b => some ⟨u, 57#7, d, a, b⟩
  | .fseq u d a b => some ⟨u, 58#7, d, a, b⟩
  | .fsne u d a b => some ⟨u, 59#7, d, a, b⟩
  | .fslt u d a b => some ⟨u, 60#7, d, a, b⟩
  | .fsle u d a b => some ⟨u, 61#7, d, a, b⟩
  | .fsun u d a b => some ⟨u, 62#7, d, a, b⟩
  | .fabs u d a => some ⟨u, 63#7, d, a, 0#8⟩
  | .fneg u d a => some ⟨u, 63#7, d, a, 1#8⟩
  | .fclass u d a => some ⟨u, 63#7, d, a, 2#8⟩
  | .frnd u d a => some ⟨u, 63#7, d, a, 3#8⟩
  | .fexpo u d a => some ⟨u, 63#7, d, a, 4#8⟩
  | .frcp u d a => some ⟨u, 63#7, d, a, 8#8⟩
  | .frsq u d a => some ⟨u, 63#7, d, a, 9#8⟩
  | .fsqrt u d a => some ⟨u, 63#7, d, a, 10#8⟩
  | .fex2 u d a => some ⟨u, 63#7, d, a, 11#8⟩
  | .flg2 u d a => some ⟨u, 63#7, d, a, 12#8⟩
  | .fsin u d a => some ⟨u, 63#7, d, a, 13#8⟩
  | .fcos u d a => some ⟨u, 63#7, d, a, 14#8⟩
  | .ftanh u d a => some ⟨u, 63#7, d, a, 15#8⟩
  | .cvtf u d a f => some ⟨u, 64#7, d, a, (0#4 ++ f : BitVec 8)⟩
  | .cvti u d a f => some ⟨u, 64#7, d, a, (1#4 ++ f : BitVec 8)⟩
  | .cvif u d a f => some ⟨u, 64#7, d, a, (2#4 ++ f : BitVec 8)⟩
  | .cvii u d a f => some ⟨u, 64#7, d, a, (3#4 ++ f : BitVec 8)⟩
  | .unpk u d a f => some ⟨u, 64#7, d, a, (4#4 ++ f : BitVec 8)⟩
  | .mxq u d a f => some ⟨u, 64#7, d, a, (5#4 ++ f : BitVec 8)⟩
  | .mxsc u d a f => some ⟨u, 64#7, d, a, (6#4 ++ f : BitVec 8)⟩
  | .pack2 u d a b => some ⟨u, 65#7, d, a, b⟩
  | .pack4 u d a b => some ⟨u, 66#7, d, a, b⟩
  | .shfl u d a b => some ⟨u, 67#7, d, a, b⟩
  | .shflx u d a b => some ⟨u, 68#7, d, a, b⟩
  | .shflup u d a b => some ⟨u, 69#7, d, a, b⟩
  | .shfldn u d a b => some ⟨u, 70#7, d, a, b⟩
  | .red u d a => some ⟨u, 71#7, d, a, 0#8⟩
  | .rstep u d a => some ⟨u, 71#7, d, a, 1#8⟩
  | .vany u d a => some ⟨u, 71#7, d, a, 2#8⟩
  | .vall u d a => some ⟨u, 71#7, d, a, 3#8⟩
  | .blt u d a => some ⟨u, 71#7, d, a, 4#8⟩
  | .elect u d a => some ⟨u, 71#7, d, a, 5#8⟩
  | .pscan u d a => some ⟨u, 71#7, d, a, 6#8⟩
  | .bcast u d a => some ⟨u, 71#7, d, a, 7#8⟩
  | .ldb u d a b => some ⟨u, 72#7, d, a, b⟩
  | .ldh u d a b => some ⟨u, 73#7, d, a, b⟩
  | .ldw u d a b => some ⟨u, 74#7, d, a, b⟩
  | .ldd u d a b => some ⟨u, 75#7, d, a, b⟩
  | .ldq u d a b => some ⟨u, 76#7, d, a, b⟩
  | .stb u d a b => some ⟨u, 77#7, d, a, b⟩
  | .sth u d a b => some ⟨u, 78#7, d, a, b⟩
  | .stw u d a b => some ⟨u, 79#7, d, a, b⟩
  | .std u d a b => some ⟨u, 80#7, d, a, b⟩
  | .stq u d a b => some ⟨u, 81#7, d, a, b⟩
  | .ldc u d b => some ⟨u, 82#7, d, 0#8, b⟩
  | .atAdd u d a b => some ⟨u, 83#7, d, a, b⟩
  | .atMin u d a b => some ⟨u, 83#7, d, a, b⟩
  | .atMax u d a b => some ⟨u, 83#7, d, a, b⟩
  | .atAnd u d a b => some ⟨u, 83#7, d, a, b⟩
  | .atOr u d a b => some ⟨u, 83#7, d, a, b⟩
  | .atXor u d a b => some ⟨u, 83#7, d, a, b⟩
  | .atXch u d a b => some ⟨u, 83#7, d, a, b⟩
  | .atCas u d a b => some ⟨u, 83#7, d, a, b⟩
  | .atInc u d a b => some ⟨u, 83#7, d, a, b⟩
  | .atAgg u d a b => some ⟨u, 83#7, d, a, b⟩
  | .atFadd u d a b => some ⟨u, 83#7, d, a, b⟩
  | .fence o s => some ⟨false, 84#7, 0#8, 0#8, (0#1 ++ o ++ s : BitVec 8)⟩
  | .bar r i => some ⟨false, 85#7, 0#8, 0#8, (r ++ i : BitVec 8)⟩
  | .barg i => some ⟨false, 86#7, 0#8, 0#8, (0#4 ++ i : BitVec 8)⟩
  | .waitc n c => some ⟨false, 87#7, n, 0#8, c⟩
  | .seal d => some ⟨false, 88#7, d, 0#8, 0#8⟩
  | .waitb b => some ⟨false, 89#7, 0#8, 0#8, b⟩
  | .pft a b => some ⟨false, 90#7, 0#8, a, b⟩
  | .evt a b => some ⟨false, 91#7, 0#8, a, b⟩
  | .bow d a b => some ⟨false, 92#7, d, a, b⟩
  | .cinv => some ⟨false, 93#7, 0#8, 0#8, 0#8⟩
  | .cinvRange a b => some ⟨false, 93#7, 1#8, a, b⟩
  | .cpy g s a => some ⟨false, 96#7, (bit1 g ++ 0#4 ++ s : BitVec 8), a, 0#8⟩
  | .gthr g s a => some ⟨false, 96#7, (bit1 g ++ 0#4 ++ s : BitVec 8), a, 1#8⟩
  | .gbag g s a => some ⟨false, 96#7, (bit1 g ++ 0#4 ++ s : BitVec 8), a, 2#8⟩
  | .sctr g s a => some ⟨false, 96#7, (bit1 g ++ 0#4 ++ s : BitVec 8), a, 3#8⟩
  | .coll g s a => some ⟨false, 96#7, (bit1 g ++ 0#4 ++ s : BitVec 8), a, 4#8⟩
  | .chain g s a => some ⟨false, 96#7, (bit1 g ++ 0#4 ++ s : BitVec 8), a, 5#8⟩
  | .npost g s a => some ⟨false, 96#7, (bit1 g ++ 0#4 ++ s : BitVec 8), a, 6#8⟩
  | .ctail e b => some ⟨false, 97#7, (0#7 ++ bit1 e : BitVec 8), 0#8, b⟩
  | .gres s b => some ⟨false, 98#7, (0#5 ++ s : BitVec 8), 0#8, b⟩
  | .gresClear s => some ⟨false, 98#7, (1#5 ++ s : BitVec 8), 0#8, 0#8⟩
  | .ncwt d a b => some ⟨false, 99#7, d, a, b⟩
  | .tswap d a b => some ⟨false, 100#7, d, a, b⟩
  | .lnch d a => some ⟨false, 101#7, d, a, 0#8⟩
  | .hcall d a => some ⟨false, 102#7, d, a, 0#8⟩
  | .txo => some ⟨false, 103#7, 0#8, 0#8, 0#8⟩
  | .txc => some ⟨false, 104#7, 0#8, 0#8, 0#8⟩
  | .txd b => some ⟨false, 105#7, 0#8, 0#8, b⟩
  | .txs d => some ⟨false, 106#7, d, 0#8, 0#8⟩
  | .wsig a b => some ⟨false, 107#7, 0#8, a, b⟩
  | .wtry d a b => some ⟨false, 108#7, d, a, b⟩
  | .wwait d a b => some ⟨false, 109#7, d, a, b⟩
  | .wqry d a => some ⟨false, 110#7, d, a, 0#8⟩
  | .entg => some ⟨false, 112#7, 0#8, 0#8, 0#8⟩
  | .extg => some ⟨false, 113#7, 0#8, 0#8, 0#8⟩
  | .gmm z a b => some ⟨false, 114#7, (0#5 ++ bit1 z ++ 0#2 : BitVec 8), a, b⟩
  | .gmmSparse z a b => some ⟨false, 114#7, (0#5 ++ bit1 z ++ 1#2 : BitVec 8), a, b⟩
  | .gmmLinked z a b => some ⟨false, 114#7, (0#5 ++ bit1 z ++ 2#2 : BitVec 8), a, b⟩
  | .gmmLinkedSparse z a b => some ⟨false, 114#7, (0#5 ++ bit1 z ++ 3#2 : BitVec 8), a, b⟩
  | .gout z a b => some ⟨false, 115#7, (0#5 ++ bit1 z ++ 0#2 : BitVec 8), a, b⟩
  | .gzro => some ⟨false, 116#7, 0#8, 0#8, 0#8⟩
  | .gbias d a => some ⟨false, 117#7, d, a, 0#8⟩
  | .gscl d a => some ⟨false, 117#7, d, a, 1#8⟩
  | .gpack d a => some ⟨false, 117#7, d, a, 2#8⟩
  | .gstp d a => some ⟨false, 118#7, d, a, 0#8⟩
  | .gldp d a => some ⟨false, 118#7, d, a, 1#8⟩
  | .gstat d => some ⟨false, 119#7, d, 0#8, 0#8⟩
  | .trap i => some ⟨false, 120#7, (i.extractLsb' 16 8), (i.extractLsb' 8 8), (i.extractLsb' 0 8)⟩
  | .srd d i => some ⟨false, 121#7, d, (i.extractLsb' 8 8), (i.extractLsb' 0 8)⟩
  | .swr d i => some ⟨false, 122#7, d, (i.extractLsb' 8 8), (i.extractLsb' 0 8)⟩
  | .rett => some ⟨false, 123#7, 0#8, 0#8, 0#8⟩
  | .fpret => some ⟨false, 123#7, 0#8, 0#8, 1#8⟩
  | .yld => some ⟨false, 123#7, 0#8, 0#8, 2#8⟩
  | .halt => some ⟨false, 123#7, 0#8, 0#8, 3#8⟩
  | .dbrk => some ⟨false, 123#7, 0#8, 0#8, 4#8⟩
  | .fskipAll => some ⟨false, 123#7, 1#8, 0#8, 5#8⟩
  | .fskipMask a => some ⟨false, 123#7, 0#8, a, 5#8⟩
  | .slp a => some ⟨false, 123#7, 0#8, a, 6#8⟩
  | .lrd d a b => some ⟨false, 124#7, d, a, b⟩
  | .lwr d a b => some ⟨false, 125#7, d, a, b⟩
  | .erpl a b => some ⟨false, 126#7, 0#8, a, b⟩
  | .fpt a => some ⟨false, 127#7, 0#8, a, 0#8⟩
  | .powerGood => none
  | .imageOffer _ => none
  | .selfTestComplete _ _ => none
  | .rowRepairInService _ => none
  | .l2WayFailure _ => none
  | .powerCapExceeded => none
  | .throttleStepDown => none
  | .thermalThrottle => none
  | .thermalRecover => none
  | .thermalShutdown => none
  | .millracePortFailure _ => none
  | .millracePathTimeout _ => none
  | .millracePacketRx _ _ _ _ _ _ => none
  | .flushMarker _ => none
  | .flushAnswer _ _ => none
  | .estuaryPacketRx _ _ _ _ _ _ => none
  | .estuaryRetxTimeout _ _ _ _ _ _ => none
  | .estuaryWorkComplete _ _ _ => none
  | .assistDone _ _ => none
  | .registerWrite _ _ _ _ => none
  | .lqtailWrite _ _ => none
  | .vfctlEn _ _ => none
  | .qreset _ => none
  | .vreset _ => none
  | .hsdoneWrite _ _ => none
  | .hcallResume _ _ => none
  | .recordStart _ => none
  | .recordWaitSatisfied _ => none
  | .wobjReread _ => none
  | .dlqRecordStart _ => none
  | .contextErrorReport _ _ _ _ _ _ => none
  | .gridCompletion _ => none
  | .pclusWrite _ _ => none
  | .l2qWrite _ _ => none
  | .mrportsWrite _ _ => none
  | .estpWrite _ _ => none
  | .wtinvWrite _ => none
  | .stageInvalidate _ _ => none
  | .invalidationDone _ _ => none
  | .setstripe => none
  | .stripeScrubDone => none
  | .assignvf => none
  | .unassignvf => none
  | .wopen => none
  | .wquiesce => none
  | .wexport => none
  | .wclose => none
  | .wreload => none
  | .bandwidthRefill => none
  | .weirRequest _ _ _ _ _ => none
  | .weirRefill => none
  | .deltaBatchHandout _ => none
  | .batchReturn _ _ => none
  | .blockPlacement _ _ => none
  | .stealRequest _ _ => none
  | .splitExchange _ => none
  | .demotionTimeout _ => none
  | .switchTick _ => none
  | .switchDone _ _ => none
  | .switchDeadline _ => none
  | .switchIn _ => none
  | .inFieldScan _ => none
  | .scanComplete _ _ => none
  | .coreLost _ => none
  | .handlerEntry _ => none
  | .loadResponse _ _ _ _ => none
  | .atomicResponse _ _ _ _ => none
  | .homeRequest _ _ _ _ _ _ => none
  | .gridOpComplete _ => none
  | .engineCommandStart _ _ => none
  | .engineCommandComplete _ _ => none
  | .engineFault _ _ => none
  | .chainEntryStart _ _ => none
  | .collComplete _ _ _ => none
  | .tierMoveComplete => none
  | .sluiceTurn => none
  | .fallbackLockGrant _ => none
  | .hostTxInterrupt _ _ => none
  | .bowReread _ _ => none
  | .slpWake _ _ => none
  | .yldExpire _ => none
  | .txOpen _ => none
  | .txClose => none
  | .txDrop _ => none
  | .powerOff => none
  | .vfResetComplete _ => none
  | .collAccept _ _ => none
  | .npostAccept _ _ => none
  | .privateCacheEviction _ _ => none
  | .hostTxIllegal _ => none
  | .reservedOpcode _ => none

/-- The word of an instruction: a device word, or a host word of R229; `none` for an event. -/
def encode (i : Instr) : Option (BitVec 32) :=
  match i with
  | .txOpen d => some (0#20 ++ d ++ 0x0B#7)
  | .txClose => some 0x0000100B#32
  | .txDrop s => some (0#12 ++ s ++ 0b01000000#8 ++ 0x0B#7)
  | i => (fieldsOfInstr i).map wordOfFields

/-- The EXTV that selects an AT operation (R385); every other instruction is selected by its
word alone, and 0 stands for that. -/
def selectExtv : Instr → BitVec 24
  | .atAdd _ _ _ _ => 0#4 ++ 0#20
  | .atMin _ _ _ _ => 1#4 ++ 0#20
  | .atMax _ _ _ _ => 2#4 ++ 0#20
  | .atAnd _ _ _ _ => 3#4 ++ 0#20
  | .atOr _ _ _ _ => 4#4 ++ 0#20
  | .atXor _ _ _ _ => 5#4 ++ 0#20
  | .atXch _ _ _ _ => 6#4 ++ 0#20
  | .atCas _ _ _ _ => 7#4 ++ 0#20
  | .atInc _ _ _ _ => 8#4 ++ 0#20
  | .atAgg _ _ _ _ => 9#4 ++ 0#20
  | .atFadd _ _ _ _ => 10#4 ++ 0#20
  | _ => 0#24

/-- The instruction that the decoder reads from the table's word numbering: device words first,
then the host's custom-0 words. The bits above `nbits` are zero. An AT is read with EXTV = 0,
which names its add (log 18). -/
def decodeTableWord (nbits w : Nat) : Option Instr :=
  let v : BitVec 32 := BitVec.ofNat 32 (w % 2 ^ nbits)
  match bytesOfWord v with
  | [b0, b1, b2, b3] =>
    match decodeHost (wordOfBytes b0 b1 b2 b3) with
    | some i => some i
    | none =>
      match decodeDevice 0#24 (wordOfBytes b0 b1 b2 b3) with
      | .ok i => some i
      | .error _ => none
  | _ => none

end Sys2Proof
end

