-- ==== Sys2Proof/Machine/Bits.lean ====
section
/-! DEFINITION. Bit fields, sign extension and byte order: the helpers of R1, R2 and R301. -/

namespace Sys2Proof.Machine

/-- Bits [lo+w-1 : lo] of a number (R1). -/
def field (x lo w : Nat) : Nat := x / 2 ^ lo % 2 ^ w

/-- Bit i of a number. -/
def bitAt (x i : Nat) : Bool := x / 2 ^ i % 2 = 1

/-- `x` with bits [lo+w-1 : lo] replaced by the low bits of `v`. -/
def setField (x lo w v : Nat) : Nat :=
  x / 2 ^ (lo + w) * 2 ^ (lo + w) + v % 2 ^ w * 2 ^ lo + x % 2 ^ lo

/-- A w-bit number read as two's complement (R273). -/
def toSigned (w x : Nat) : Int := if 2 * (x % 2 ^ w) < 2 ^ w then (x % 2 ^ w : Nat) else (x % 2 ^ w : Nat) - (2 ^ w : Nat)

/-- The w-bit two's complement image of an integer. -/
def ofSigned (w : Nat) (x : Int) : Nat := (x % (2 ^ w : Nat)).toNat

/-- Sign-extend a field to 64 bits (R301 sext64). -/
def sext64 {w : Nat} (x : BitVec w) : BitVec 64 := x.signExtend 64

/-- Zero-extend to 64 bits (R301 zext64). -/
def zext64 {w : Nat} (x : BitVec w) : BitVec 64 := x.setWidth 64

/-- The low half of a pair: the even register (R163). -/
def lo32 (x : BitVec 64) : BitVec 32 := x.extractLsb' 0 32

/-- The high half of a pair: the odd register (R163). -/
def hi32 (x : BitVec 64) : BitVec 32 := x.extractLsb' 32 32

/-- A pair from its odd and its even register (R163). -/
def pairOf (hi lo : BitVec 32) : BitVec 64 := hi ++ lo

/-- The n little-endian bytes of a number, lowest address first (R2). -/
def bytesLE : Nat → Nat → List (BitVec 8)
  | 0, _ => []
  | n + 1, x => BitVec.ofNat 8 x :: bytesLE n (x / 256)

/-- The number that little-endian bytes hold (R2). -/
def ofBytesLE : List (BitVec 8) → Nat
  | [] => 0
  | b :: r => b.toNat + 256 * ofBytesLE r

/-- The threads of a 64-bit mask, in ascending order (R9). -/
def threadsOf (m : BitVec 64) : List Nat := (List.range 64).filter (fun t => m.getLsbD t)

/-- The mask that holds exactly the listed threads. -/
def maskOf (l : List Nat) : BitVec 64 := l.foldl (fun m t => m ||| BitVec.twoPow 64 t) 0#64

/-- The lowest thread of a mask, 0 for an empty one. -/
def lowest (m : BitVec 64) : Nat := (threadsOf m).headD 0

/-- The lowest set bit among the first `n` bits of a number, `n` if there is none. -/
def lowestSet : Nat → Nat → Nat
  | 0, _ => 0
  | n + 1, x => if x % 2 = 1 then 0 else 1 + lowestSet n (x / 2)

/-- The number of set bits among the first `n`. -/
def countOnes : Nat → Nat → Nat
  | 0, _ => 0
  | n + 1, x => x % 2 + countOnes n (x / 2)

/-- The first `n` bits reversed. -/
def reverseBits : Nat → Nat → Nat
  | 0, _ => 0
  | n + 1, x => x % 2 * 2 ^ n + reverseBits n (x / 2)

/-- The integer square root, found bit by bit from bit `i - 1` down. -/
def isqrtFrom : Nat → Nat → Nat → Nat
  | 0, _, r => r
  | i + 1, n, r => if (r + 2 ^ i) * (r + 2 ^ i) ≤ n then isqrtFrom i n (r + 2 ^ i) else isqrtFrom i n r

/-- The integer square root. -/
def isqrt (n : Nat) : Nat := isqrtFrom (Nat.log2 n / 2 + 1) n 0

/-- The elements of a register image, lowest first (R273). -/
def elems (w k : Nat) (x : BitVec 64) : List Nat := (List.range k).map (fun i => field x.toNat (w * i) w)

/-- A register image from its elements, lowest first (R273). -/
def packElems (w : Nat) (l : List Nat) : BitVec 64 :=
  BitVec.ofNat 64 (l.foldr (fun x acc => x % 2 ^ w + acc * 2 ^ w) 0)

end Sys2Proof.Machine
end

