-- ==== Sys2Proof/Machine/Num.lean ====
section
/-! DEFINITION. Number formats and arithmetic: R272 to R301. Every value is exact until it is
rounded once. -/

namespace Sys2Proof.Machine

/-- The rounding rules of R284. -/
inductive Rnd where
  /-- to nearest, ties to even -/
  | rne
  /-- toward zero -/
  | rtz
  /-- toward plus infinity -/
  | rup
  /-- toward minus infinity -/
  | rdn
  /-- to nearest, ties away from zero -/
  | rna
  /-- stochastic -/
  | sr
  deriving DecidableEq, Repr

/-- The rule of a rounding code; codes 6 and 7 never reach a register (R284). -/
def rndOfCode (n : Nat) : Rnd :=
  match n with
  | 0 => .rne
  | 1 => .rtz
  | 2 => .rup
  | 3 => .rdn
  | 4 => .rna
  | _ => .sr

/-- A float format (R277): exponent bits, significand bits, bias, and whether it has infinities. -/
structure FloatFmt where
  ebits : Nat
  mbits : Nat
  bias : Nat
  hasInf : Bool
  deriving DecidableEq, Repr

def fmtF32 : FloatFmt := ⟨8, 23, 127, true⟩
def fmtF16 : FloatFmt := ⟨5, 10, 15, true⟩
def fmtBf16 : FloatFmt := ⟨8, 7, 127, true⟩
def fmtE4m3 : FloatFmt := ⟨4, 3, 7, false⟩
def fmtE5m2 : FloatFmt := ⟨5, 2, 15, true⟩

/-- The storage width of a float format. -/
def FloatFmt.width (F : FloatFmt) : Nat := 1 + F.ebits + F.mbits

/-- The sign bit as a number. -/
def FloatFmt.signBit (F : FloatFmt) : Nat := 2 ^ (F.ebits + F.mbits)

/-- The encoding, without sign, of the largest finite value (R278). -/
def FloatFmt.maxFin (F : FloatFmt) : Nat :=
  if F.hasInf then (2 ^ F.ebits - 1) * 2 ^ F.mbits - 1 else 2 ^ (F.ebits + F.mbits) - 2

/-- The encoding, without sign, of infinity; the NaN where the format has none (R278, R286). -/
def FloatFmt.infCode (F : FloatFmt) : Nat :=
  if F.hasInf then (2 ^ F.ebits - 1) * 2 ^ F.mbits else 2 ^ (F.ebits + F.mbits) - 1

/-- The canonical NaN (R278). -/
def FloatFmt.nanCode (F : FloatFmt) : Nat :=
  if F.hasInf then (2 ^ F.ebits - 1) * 2 ^ F.mbits + 2 ^ (F.mbits - 1)
  else 2 ^ (F.ebits + F.mbits) - 1

/-- The quiet bit of a NaN (R277). -/
def FloatFmt.quietBit (F : FloatFmt) : Nat := 2 ^ (F.mbits - 1)

/-- An exact value: the result of decode (R301). A NaN keeps its significand at the top of the
23 bits that f32 has (R290). A finite value is m times 2 to the e, with m not zero. -/
inductive FVal where
  | nan (neg : Bool) (payload : Nat)
  | inf (neg : Bool)
  | zero (neg : Bool)
  | fin (neg : Bool) (m : Nat) (e : Int)
  deriving DecidableEq, Repr

def FVal.isNan : FVal → Bool
  | .nan _ _ => true
  | _ => false

def FVal.isInf : FVal → Bool
  | .inf _ => true
  | _ => false

def FVal.isZero : FVal → Bool
  | .zero _ => true
  | _ => false

def FVal.neg : FVal → Bool
  | .nan s _ => s
  | .inf s => s
  | .zero s => s
  | .fin s _ _ => s

def FVal.negate : FVal → FVal
  | .nan s p => .nan (!s) p
  | .inf s => .inf (!s)
  | .zero s => .zero (!s)
  | .fin s m e => .fin (!s) m e

/-- The value times 2 to the k. -/
def FVal.scale (k : Int) : FVal → FVal
  | .fin s m e => .fin s m (e + k)
  | x => x

/-- An integer as an exact value. -/
def FVal.ofInt (x : Int) : FVal :=
  if x = 0 then .zero false else .fin (decide (x < 0)) x.natAbs 0

/-- The value of a float encoding (R277). -/
def decodeFloat (F : FloatFmt) (c : Nat) : FVal :=
  let s := bitAt c (F.ebits + F.mbits)
  let E := field c F.mbits F.ebits
  let m := c % 2 ^ F.mbits
  if F.hasInf ∧ E = 2 ^ F.ebits - 1 then
    if m = 0 then .inf s else .nan s (m * 2 ^ (23 - F.mbits))
  else if ¬ F.hasInf ∧ E = 2 ^ F.ebits - 1 ∧ m = 2 ^ F.mbits - 1 then
    .nan s (m * 2 ^ (23 - F.mbits))
  else if E = 0 then
    if m = 0 then .zero s else .fin s m (1 - (F.bias : Int) - F.mbits)
  else .fin s (2 ^ F.mbits + m) ((E : Int) - F.bias - F.mbits)

/-- The encoding is a NaN (R301 isnan). -/
def isNanCode (F : FloatFmt) (c : Nat) : Bool := (decodeFloat F c).isNan

/-- The encoding with its quiet bit set (R301 quiet). -/
def quietCode (F : FloatFmt) (c : Nat) : Nat :=
  if bitAt c (F.mbits - 1) then c else c + F.quietBit

/-- The encoding is subnormal: exponent field 0 and significand not 0. -/
def isSubCode (F : FloatFmt) (c : Nat) : Bool :=
  decide (field c F.mbits F.ebits = 0 ∧ c % 2 ^ F.mbits ≠ 0)

/-- The sign bit of an encoding, in place. -/
def signOf (F : FloatFmt) (c : Nat) : Nat := if bitAt c (F.ebits + F.mbits) then F.signBit else 0

/-- A zero of the encoding's own sign. -/
def zeroLike (F : FloatFmt) (c : Nat) : Nat := signOf F c

/-- The encoding as daz reads it (R283). -/
def dazRead (F : FloatFmt) (daz : Bool) (c : Nat) : Nat :=
  if daz && isSubCode F c then zeroLike F c else c

/-- The encoding as ftz writes it (R283). -/
def ftzWrite (F : FloatFmt) (ftz : Bool) (c : Nat) : Nat :=
  if ftz && isSubCode F c then zeroLike F c else c

/-- A positive real: num / den times 2 to the e. -/
structure Mag where
  num : Nat
  den : Nat
  e : Int
  deriving DecidableEq, Repr

/-- Floor of the base-2 logarithm of a positive real. -/
def Mag.floorLog2 (x : Mag) : Int :=
  let l : Int := (Nat.log2 x.num : Int) - (Nat.log2 x.den : Int)
  let ge : Bool :=
    if 0 ≤ l then decide (x.den * 2 ^ l.toNat ≤ x.num) else decide (x.den ≤ x.num * 2 ^ (-l).toNat)
  (if ge then l else l - 1) + x.e

/-- A positive real measured in a quantum: its whole part, the next 32 bits of its fraction, and
whether nothing is left below them. -/
structure Scaled where
  whole : Nat
  frac : Nat
  exact : Bool
  deriving DecidableEq, Repr

/-- Split a number of 2 to the -32 units. -/
def Scaled.ofUnits (u : Nat) (exact : Bool) : Scaled := ⟨u / 2 ^ 32, u % 2 ^ 32, exact⟩

/-- A real measured in the quantum 2 to the k. -/
def Mag.scaled (x : Mag) (k : Int) : Scaled :=
  let sh := x.e - k + 32
  let n := if 0 ≤ sh then x.num * 2 ^ sh.toNat else x.num
  let d := if 0 ≤ sh then x.den else x.den * 2 ^ (-sh).toNat
  .ofUnits (n / d) (decide (n % d = 0))

/-- The square root of m times 2 to the e, measured in the quantum 2 to the k. -/
def sqrtScaled (m : Nat) (e k : Int) : Scaled :=
  let sh := e - 2 * k + 64
  let n := if 0 ≤ sh then m * 2 ^ sh.toNat else m / 2 ^ (-sh).toNat
  let whole : Bool := if 0 ≤ sh then true else decide (m % 2 ^ (-sh).toNat = 0)
  let r := isqrt n
  .ofUnits r (whole && decide (r * r = n))

/-- The magnitude that R285 chooses, in quanta: `whole` or one more. `d` is the draw of SR. -/
def chooseMag (r : Rnd) (neg : Bool) (d : Nat) (x : Scaled) : Nat :=
  if x.frac = 0 ∧ x.exact then x.whole
  else
    let tie : Bool := decide (x.frac = 2 ^ 31) && x.exact
    let above : Bool := decide (2 ^ 31 ≤ x.frac) && !tie
    let up : Bool :=
      match r with
      | .rne => if tie then decide (x.whole % 2 = 1) else above
      | .rtz => false
      | .rup => !neg
      | .rdn => neg
      | .rna => tie || above
      | .sr => decide (d < x.frac) || (decide (d = x.frac) && !x.exact)
    if up then x.whole + 1 else x.whole

/-- The exponent of the quantum of R285 for a real whose logarithm has floor `l`. -/
def quantumExp (F : FloatFmt) (l : Int) : Int := max l (1 - (F.bias : Int)) - F.mbits

/-- The encoding, without sign, of n quanta of 2 to the k, the exponent unbounded above. -/
def magCode (F : FloatFmt) (n : Nat) (k : Int) : Nat :=
  if n < 2 ^ F.mbits then n
  else (k + F.mbits + F.bias).toNat * 2 ^ F.mbits + (n - 2 ^ F.mbits)

/-- R286: the encoding, without sign, of a rounded magnitude. -/
def overflowCode (F : FloatFmt) (r : Rnd) (neg sat : Bool) (c : Nat) : Nat :=
  if c ≤ F.maxFin then c
  else if sat || decide (r = .rtz) || (decide (r = .rup) && neg) || (decide (r = .rdn) && !neg) then F.maxFin
  else F.infCode

/-- The sign in place. -/
def withSign (F : FloatFmt) (neg : Bool) (c : Nat) : Nat := if neg then F.signBit + c else c

/-- round(x, F, mode) of R285 with R286. -/
def roundMag (F : FloatFmt) (r : Rnd) (sat neg : Bool) (d : Nat) (x : Mag) : Nat :=
  let k := quantumExp F x.floorLog2
  withSign F neg (overflowCode F r neg sat (magCode F (chooseMag r neg d (x.scaled k)) k))

/-- The correctly rounded square root of a positive finite value (R363). -/
def roundSqrt (F : FloatFmt) (r : Rnd) (d m : Nat) (e : Int) : Nat :=
  let l := (Mag.floorLog2 ⟨m, 1, e⟩) / 2
  let k := quantumExp F l
  overflowCode F r false false (magCode F (chooseMag r false d (sqrtScaled m e k)) k)

/-- The signed exact sum of finite values: an integer times 2 to the e. -/
structure Dyadic where
  m : Int
  e : Int
  deriving DecidableEq, Repr

def Dyadic.add (x y : Dyadic) : Dyadic :=
  let e := min x.e y.e
  ⟨x.m * (2 ^ (x.e - e).toNat : Nat) + y.m * (2 ^ (y.e - e).toNat : Nat), e⟩

def FVal.dyadic : FVal → Dyadic
  | .fin s m e => ⟨if s then -(m : Int) else m, e⟩
  | _ => ⟨0, 0⟩

def exactSum (l : List FVal) : Dyadic :=
  l.foldl (fun acc x => match x with
    | .fin s m e => acc.add (FVal.dyadic (.fin s m e))
    | _ => acc) ⟨0, 0⟩

/-- How an arithmetic instruction computes one element: its format and the MODE fields in force. -/
structure FEnv where
  F : FloatFmt
  rnd : Rnd
  daz : Bool
  ftz : Bool
  deriving DecidableEq, Repr

/-- Round a non-zero dyadic result once and apply ftz (R283, R285, R286). -/
def FEnv.finish (env : FEnv) (d : Nat) (z : Dyadic) : Nat :=
  ftzWrite env.F env.ftz (roundMag env.F env.rnd false (decide (z.m < 0)) d ⟨z.m.natAbs, 1, z.e⟩)

/-- The rounded sum of terms that are no NaN (R282, R285, R374): invalid sums, infinities, exact
zeros and finite sums. -/
def FEnv.sum (env : FEnv) (d : Nat) (terms : List FVal) : Nat :=
  let F := env.F
  let pinf := terms.any (fun x => decide (x = .inf false))
  let ninf := terms.any (fun x => decide (x = .inf true))
  if pinf && ninf then F.nanCode
  else if pinf then F.infCode
  else if ninf then withSign F true F.infCode
  else
    let z := exactSum terms
    if z.m = 0 then
      if terms.all (fun x => decide (x = .zero true)) then F.signBit
      else if terms.all (fun x => decide (x = .zero false)) then 0
      else if env.rnd = .rdn then F.signBit else 0
    else env.finish d z

/-- The product of two values that are no NaN; `none` for 0 times infinity (R280). -/
def mulVal (x y : FVal) : Option FVal :=
  let s := x.neg != y.neg
  match x, y with
  | .inf _, .zero _ => none
  | .zero _, .inf _ => none
  | .inf _, _ => some (.inf s)
  | _, .inf _ => some (.inf s)
  | .zero _, _ => some (.zero s)
  | _, .zero _ => some (.zero s)
  | .fin _ m e, .fin _ n f => some (.fin s (m * n) (e + f))
  | _, _ => none

/-- The first NaN among the operands, quieted (R280, R355). -/
def firstNan (F : FloatFmt) (l : List Nat) : Option Nat :=
  (l.find? (isNanCode F)).map (quietCode F)

/-- FADD (R356). -/
def fAdd (env : FEnv) (d a b : Nat) : Nat :=
  let a := dazRead env.F env.daz a
  let b := dazRead env.F env.daz b
  match firstNan env.F [a, b] with
  | some c => c
  | none => env.sum d [decodeFloat env.F a, decodeFloat env.F b]

/-- FSUB (R356): as FADD on a and -b, with NaN operands as they are. -/
def fSub (env : FEnv) (d a b : Nat) : Nat :=
  let a := dazRead env.F env.daz a
  let b := dazRead env.F env.daz b
  match firstNan env.F [a, b] with
  | some c => c
  | none => env.sum d [decodeFloat env.F a, (decodeFloat env.F b).negate]

/-- A product alone, rounded (R356). -/
def FEnv.product (env : FEnv) (d : Nat) (x y : FVal) : Nat :=
  match mulVal x y with
  | none => env.F.nanCode
  | some (.inf s) => withSign env.F s env.F.infCode
  | some (.zero s) => withSign env.F s 0
  | some (.fin s m e) => env.finish d ⟨if s then -(m : Int) else m, e⟩
  | some (.nan _ _) => env.F.nanCode

/-- FMUL (R356). -/
def fMul (env : FEnv) (d a b : Nat) : Nat :=
  let a := dazRead env.F env.daz a
  let b := dazRead env.F env.daz b
  match firstNan env.F [a, b] with
  | some c => c
  | none => env.product d (decodeFloat env.F a) (decodeFloat env.F b)

/-- FMA and FNMA (R357): a times b, negated for FNMA, plus the old D. -/
def fMulAdd (negProduct : Bool) (env : FEnv) (d a b c : Nat) : Nat :=
  let a := dazRead env.F env.daz a
  let b := dazRead env.F env.daz b
  let c := dazRead env.F env.daz c
  match firstNan env.F [a, b, c] with
  | some r => r
  | none =>
    let va := decodeFloat env.F a
    match mulVal (if negProduct then va.negate else va) (decodeFloat env.F b) with
    | none => env.F.nanCode
    | some p => env.sum d [p, decodeFloat env.F c]

/-- FDIV (R356). -/
def fDiv (env : FEnv) (d a b : Nat) : Nat :=
  let F := env.F
  let a := dazRead F env.daz a
  let b := dazRead F env.daz b
  match firstNan F [a, b] with
  | some c => c
  | none =>
    let x := decodeFloat F a
    let y := decodeFloat F b
    let s := x.neg != y.neg
    match x, y with
    | .inf _, .inf _ => F.nanCode
    | .zero _, .zero _ => F.nanCode
    | .inf _, _ => withSign F s F.infCode
    | _, .inf _ => withSign F s 0
    | .zero _, _ => withSign F s 0
    | _, .zero _ => withSign F s F.infCode
    | .fin _ m e, .fin _ n f =>
      ftzWrite F env.ftz (roundMag F env.rnd false s d ⟨m, n, e - f⟩)
    | _, _ => F.nanCode

/-- FSCL (R356): a times 2 to the signed integer b. -/
def fScl (env : FEnv) (d a : Nat) (n : Int) : Nat :=
  let F := env.F
  let a := dazRead F env.daz a
  match decodeFloat F a with
  | .nan _ _ => quietCode F a
  | .inf _ => a
  | .zero _ => a
  | .fin s m e => env.finish d ⟨if s then -(m : Int) else m, e + n⟩

/-- The place of an encoding that is no NaN in numeric order, -0 just below +0 (R358). -/
def orderKey (F : FloatFmt) (c : Nat) : Int :=
  if bitAt c (F.ebits + F.mbits) then -((c % F.signBit : Nat) : Int) - 1 else (c % F.signBit : Nat)

/-- The place of an encoding that is no NaN in numeric order, both zeros equal (R359). -/
def valueKey (F : FloatFmt) (c : Nat) : Int :=
  if bitAt c (F.ebits + F.mbits) then -((c % F.signBit : Nat) : Int) else (c % F.signBit : Nat)

/-- FMIN and FMAX (R358). -/
def fMinMax (takeMax : Bool) (env : FEnv) (a b : Nat) : Nat :=
  let a := dazRead env.F env.daz a
  let b := dazRead env.F env.daz b
  match firstNan env.F [a, b] with
  | some c => c
  | none =>
    let aLess := decide (orderKey env.F a < orderKey env.F b)
    ftzWrite env.F env.ftz (if aLess != takeMax then a else b)

/-- The comparisons of R359. -/
inductive FCmp where
  | eq
  | ne
  | lt
  | le
  | un
  deriving DecidableEq, Repr

/-- Whether a comparison of R359 holds. -/
def fCmp (k : FCmp) (env : FEnv) (a b : Nat) : Bool :=
  let a := dazRead env.F env.daz a
  let b := dazRead env.F env.daz b
  let un := isNanCode env.F a || isNanCode env.F b
  let x := valueKey env.F a
  let y := valueKey env.F b
  match k with
  | .eq => !un && decide (x = y)
  | .ne => un || decide (x ≠ y)
  | .lt => !un && decide (x < y)
  | .le => !un && decide (x ≤ y)
  | .un => un

/-- FCLASS (R361): the bit of the class. -/
def fClass (F : FloatFmt) (c : Nat) : Nat :=
  match decodeFloat F c with
  | .inf true => 2 ^ 0
  | .inf false => 2 ^ 7
  | .zero true => 2 ^ 3
  | .zero false => 2 ^ 4
  | .nan _ _ => if bitAt c (F.mbits - 1) then 2 ^ 9 else 2 ^ 8
  | .fin s _ _ =>
    if isSubCode F c then (if s then 2 ^ 2 else 2 ^ 5) else (if s then 2 ^ 1 else 2 ^ 6)

/-- FRND (R362). -/
def fRnd (env : FEnv) (d a : Nat) : Nat :=
  let F := env.F
  let a := dazRead F env.daz a
  match decodeFloat F a with
  | .nan _ _ => quietCode F a
  | .inf _ => a
  | .zero _ => a
  | .fin s m e =>
    if 0 ≤ e then a
    else
      let n := chooseMag env.rnd s d (Mag.scaled ⟨m, 1, e⟩ 0)
      if n = 0 then withSign F s 0
      else ftzWrite F env.ftz (roundMag F .rtz false s 0 ⟨n, 1, 0⟩)

/-- FEXPO (R362): an integer element of the format's width. -/
def fExpo (env : FEnv) (a : Nat) : Nat :=
  let F := env.F
  let a := dazRead F env.daz a
  match decodeFloat F a with
  | .nan _ _ => 2 ^ (F.width - 1) - 1
  | .inf _ => 2 ^ (F.width - 1) - 1
  | .zero _ => 2 ^ (F.width - 1)
  | .fin _ m e => ofSigned F.width (Mag.floorLog2 ⟨m, 1, e⟩)

/-- FRCP (R363). -/
def fRcp (env : FEnv) (d a : Nat) : Nat :=
  let F := env.F
  let a := dazRead F env.daz a
  match decodeFloat F a with
  | .nan _ _ => quietCode F a
  | .inf s => withSign F s 0
  | .zero s => withSign F s F.infCode
  | .fin s m e => ftzWrite F env.ftz (roundMag F env.rnd false s d ⟨1, m, -e⟩)

/-- FSQRT (R363). -/
def fSqrt (env : FEnv) (d a : Nat) : Nat :=
  let F := env.F
  let a := dazRead F env.daz a
  match decodeFloat F a with
  | .nan _ _ => quietCode F a
  | .zero _ => a
  | .inf true => F.nanCode
  | .inf false => a
  | .fin true _ _ => F.nanCode
  | .fin false m e => ftzWrite F env.ftz (roundSqrt F env.rnd d m e)

/-- fsum of R374, on encodings already read under daz. -/
def fSum (env : FEnv) (d : Nat) (l : List Nat) : Nat :=
  match firstNan env.F l with
  | some c => c
  | none => env.sum d (l.map (decodeFloat env.F))

/-- One draw of R287. -/
def srdraw (x : BitVec 32) : BitVec 32 :=
  let x := x ^^^ (x <<< 13)
  let x := x ^^^ (x >>> 17)
  x ^^^ (x <<< 5)

/-- `n` draws in order, and the seed after them (R287, R288). -/
def srdraws : Nat → BitVec 32 → List Nat × BitVec 32
  | 0, x => ([], x)
  | n + 1, x =>
    let y := srdraw x
    let r := srdraws n y
    (y.toNat :: r.1, r.2)

/-- What a format code names (R275). -/
inductive FmtKind where
  | float (F : FloatFmt)
  | int (signed : Bool) (bits : Nat)
  | scale
  | reserved
  deriving DecidableEq, Repr

/-- The format of a code (R275). The `bits` of i3 are its value bits; its storage is 4 bits. -/
def fmtOfCode (n : Nat) : FmtKind :=
  match n with
  | 0 => .float fmtF32
  | 1 => .float fmtF16
  | 2 => .float fmtBf16
  | 3 => .float fmtE4m3
  | 4 => .float fmtE5m2
  | 5 => .int true 32
  | 6 => .int false 32
  | 7 => .int true 16
  | 8 => .int false 16
  | 9 => .int true 8
  | 10 => .int false 8
  | 11 => .int true 4
  | 12 => .int false 4
  | 13 => .int true 3
  | 14 => .scale
  | _ => .reserved

/-- Storage bits of a format code (R275). -/
def fmtBits (n : Nat) : Nat :=
  match fmtOfCode n with
  | .float F => F.width
  | .int _ b => if b = 3 then 4 else b
  | .scale => 8
  | .reserved => 0

/-- decode(F, c) of R301 for every format. -/
def decodeFmt (n c : Nat) : FVal :=
  match fmtOfCode n with
  | .float F => decodeFloat F c
  | .int true b => .ofInt (toSigned b c)
  | .int false b => .ofInt (c % 2 ^ b : Nat)
  | .scale => if c = 255 then .nan false (2 ^ 22) else .fin false 1 ((c : Int) - 127)
  | .reserved => .zero false

/-- The range of an integer type (R272). -/
def intRange (signed : Bool) (b : Nat) : Int × Int :=
  if signed then (-(2 ^ (b - 1) : Nat), (2 ^ (b - 1) : Nat) - 1) else (0, (2 ^ b : Nat) - 1)

/-- clampi of R301. -/
def clampInt (signed : Bool) (b : Nat) (x : Int) : Int :=
  let r := intRange signed b
  if x < r.1 then r.1 else if r.2 < x then r.2 else x

/-- wrapi of R301. -/
def wrapInt (signed : Bool) (b : Nat) (x : Int) : Int :=
  if signed then toSigned b (ofSigned b x) else (ofSigned b x : Nat)

/-- fixi of R301. -/
def fixInt (isat signed : Bool) (b : Nat) (x : Int) : Int :=
  if isat then clampInt signed b x else wrapInt signed b x

/-- A value converted to an integer format (R293, R294). -/
def encodeInt (signed : Bool) (b : Nat) (r : Rnd) (sat : Bool) (d : Nat) (x : FVal) : Int :=
  match x with
  | .nan _ _ => 0
  | .zero _ => 0
  | .inf s => if sat then (if s then (intRange signed b).1 else (intRange signed b).2) else 0
  | .fin s m e =>
    let n := chooseMag r s d (Mag.scaled ⟨m, 1, e⟩ 0)
    fixInt sat signed b (if s then -(n : Int) else n)

/-- encode(F, x, rnd, sat) of R301 for a float format (R291). -/
def encodeFloat (F : FloatFmt) (r : Rnd) (sat : Bool) (d : Nat) (x : FVal) : Nat :=
  match x with
  | .nan s p =>
    let m := p / 2 ^ (23 - F.mbits)
    if F.hasInf then withSign F s ((2 ^ F.ebits - 1) * 2 ^ F.mbits + (if m = 0 then 1 else m))
    else withSign F s F.nanCode
  | .inf s =>
    if F.hasInf then withSign F s F.infCode
    else withSign F s (if sat then F.maxFin else F.nanCode)
  | .zero s => withSign F s 0
  | .fin s m e => roundMag F r sat s d ⟨m, 1, e⟩

/-- encode into e8m0 (R292). -/
def encodeScale (x : FVal) : Nat :=
  match x with
  | .nan _ _ => 255
  | .inf _ => 254
  | .zero _ => 0
  | .fin _ m e => (min 254 (max 0 (Mag.floorLog2 ⟨m, 1, e⟩ + 127))).toNat

/-- The CVMODE field of a destination format code, as its lowest bit (R289). -/
def cvField (n : Nat) : Nat :=
  match n with
  | 1 => 0
  | 2 => 4
  | 3 => 8
  | 4 => 12
  | 7 => 16
  | 8 => 16
  | 9 => 20
  | 10 => 20
  | 11 => 24
  | 12 => 24
  | 13 => 24
  | _ => 28

/-- The rounding rule of a destination: its CVMODE field, or MODE.rnd for f32 (R289). -/
def cvRnd (cvmode : BitVec 32) (modeRnd : Rnd) (n : Nat) : Rnd :=
  if n = 0 then modeRnd else rndOfCode (field cvmode.toNat (cvField n) 3)

/-- The saturate bit of a destination; f32 destinations use 0 (R286, R289). -/
def cvSat (cvmode : BitVec 32) (n : Nat) : Bool :=
  if n = 0 then false else bitAt cvmode.toNat (cvField n + 3)

/-- The 32-bit image of a converted value: codes zero-extended, integers extended by their type
(R365, R366). -/
def convertTo (cvmode : BitVec 32) (modeRnd : Rnd) (d n : Nat) (x : FVal) : Nat :=
  match fmtOfCode n with
  | .float F => encodeFloat F (cvRnd cvmode modeRnd n) (cvSat cvmode n) d x
  | .int s b => ofSigned 32 (encodeInt s b (cvRnd cvmode modeRnd n) (cvSat cvmode n) d x)
  | .scale => encodeScale x
  | .reserved => 0

/-- emax of the two MX element formats (R297). -/
def mxEmax (n : Nat) : Int := if n = 3 then 8 else 15

/-- mxscale of R297, on values decoded from f32. -/
def mxScale (n : Nat) (l : List FVal) : Nat :=
  if l.any (fun x => x.isNan || x.isInf) then 255
  else
    let logs := l.filterMap (fun x => match x with
      | .fin _ m e => some (Mag.floorLog2 ⟨m, 1, e⟩)
      | _ => none)
    match logs with
    | [] => 0
    | h :: r => (min 254 (max 0 (r.foldl max h - mxEmax n + 127))).toNat

/-- mxquant of R297. -/
def mxQuant (cvmode : BitVec 32) (d n X : Nat) (x : FVal) : Nat :=
  if X = 255 then (if n = 3 then 0x7F else 0x7E) + (if x.neg then 0x80 else 0)
  else convertTo cvmode .rne d n (x.scale (127 - (X : Int)))

/-- widen(e, F, X) of R298: a grid operand element under a scale. -/
def widen (n X c : Nat) : FVal :=
  if X = 255 then .nan false (2 ^ 22) else (decodeFmt n c).scale ((X : Int) - 127)

/-- One product of fdot; NaN for a NaN operand or 0 times infinity (R299). -/
def dotProduct (x y : FVal) : FVal :=
  if x.isNan || y.isNan then .nan false (2 ^ 22)
  else match mulVal x y with
    | some p => p
    | none => .nan false (2 ^ 22)

/-- fdot of R299: one accumulation step of an f32 accumulator. -/
def fdot (rnd : Rnd) (daz ftz : Bool) (d c : Nat) (p : List FVal) : Nat :=
  let c := dazRead fmtF32 daz c
  let v := decodeFloat fmtF32 c
  if v.isNan then quietCode fmtF32 c
  else if p.any FVal.isNan then 0x7FC00000
  else
    let terms := v :: p
    let pinf := terms.any (fun x => decide (x = .inf false))
    let ninf := terms.any (fun x => decide (x = .inf true))
    if pinf && ninf then 0x7FC00000
    else if pinf then 0x7F800000
    else if ninf then 0xFF800000
    else
      let z := exactSum terms
      if z.m = 0 then (if terms.all (fun x => decide (x = .zero true)) then 0x80000000 else 0)
      else ftzWrite fmtF32 ftz (roundMag fmtF32 rnd false (decide (z.m < 0)) d ⟨z.m.natAbs, 1, z.e⟩)

end Sys2Proof.Machine
end

