-- ==== Sys2Proof/Machine/FMap.lean ====
section
/-! DEFINITION. Sparse maps from numbers to plain data, in one canonical form: keys strictly
rising, and no entry equal to what an unlisted key reads as. Memory, register files and the
tables of the part are held in them. -/

namespace Sys2Proof.Machine

/-- A sparse map: entries in rising order of key. -/
abbrev FMap (α : Type) := List (Nat × α)

/-- The entry of a key, if there is one. -/
def FMap.find {α : Type} : FMap α → Nat → Option α
  | [], _ => none
  | (k, v) :: r, q => if k = q then some v else FMap.find r q

/-- Put an entry at its place, replacing an earlier entry of the key. -/
def FMap.insert {α : Type} : FMap α → Nat → α → FMap α
  | [], q, v => [(q, v)]
  | (k, w) :: r, q, v =>
    if q < k then (q, v) :: (k, w) :: r
    else if q = k then (q, v) :: r
    else (k, w) :: FMap.insert r q v

/-- Remove the entry of a key. -/
def FMap.erase {α : Type} : FMap α → Nat → FMap α
  | [], _ => []
  | (k, w) :: r, q => if k = q then FMap.erase r q else (k, w) :: FMap.erase r q

/-- The value at a key, where an unlisted key reads as `d`. -/
def FMap.getD {α : Type} (m : FMap α) (d : α) (k : Nat) : α := (FMap.find m k).getD d

/-- Write a value at a key; writing what an unlisted key reads as removes the entry. -/
def FMap.setD {α : Type} [DecidableEq α] (m : FMap α) (d : α) (k : Nat) (v : α) : FMap α :=
  if v = d then FMap.erase m k else FMap.insert m k v

/-- Every key is above `lo` and the keys rise strictly. -/
def FMap.rising {α : Type} : Nat → FMap α → Bool
  | _, [] => true
  | lo, (k, _) :: r => decide (lo ≤ k) && FMap.rising (k + 1) r

/-- The canonical form. -/
def FMap.wf {α : Type} [DecidableEq α] (d : α) (m : FMap α) : Bool :=
  FMap.rising 0 m && m.all (fun p => decide (p.2 ≠ d))

/-- The keys of a map. -/
def FMap.keys {α : Type} (m : FMap α) : List Nat := m.map (fun p => p.1)

/-- Change every entry. -/
def FMap.mapVals {α β : Type} (f : Nat → α → β) (m : FMap α) : FMap β :=
  m.map (fun p => (p.1, f p.1 p.2))

/-- Keep the entries that satisfy a test. -/
def FMap.filterKV {α : Type} (f : Nat → α → Bool) (m : FMap α) : FMap α :=
  m.filter (fun p => f p.1 p.2)

end Sys2Proof.Machine
end

