-- ==== Sys2Proof/Machine/State.lean ====
section
/-! DEFINITION. The state of one CX-Y4-1T package: plain data, in the order of INVENTORY.md. Flat
keys: a core is cluster * 9 + logical core; a group is core * 64 + slot; a handler context is
core * 4 + quadrant; register n of thread t is n * 64 + t; an address in `mem` is a package offset. -/

namespace Sys2Proof.Machine

/-- Why the machine stops. -/
inductive Fault where
  /-- Raised by every device instruction when no split, handler or hart is issuing: such a state is
  no state of the part, so stopping is safe. -/
  | noIssuer
  deriving DecidableEq, Repr

/-- Why the model gives no meaning. -/
inductive Refusal where
  /-- Raised by `exec` for an instruction whose meaning is not written yet; safe. -/
  | notModelled (mnemonic : String)
  /-- Raised by `step` when the host hart that has the turn stands at an RV64 word that is none of
  the words of R229: RV64 itself is outside the spec (spec/00 introduction, R302); safe. -/
  | hostWordOutsideSpec (w : BitVec 32)
  deriving DecidableEq, Repr

/-- The prefix state of a split (R308). -/
structure PfxState where
  pl : Bool
  lo : BitVec 24
  ph : Bool
  hi : BitVec 24
  deriving DecidableEq, Repr

/-- A clear prefix state. -/
def PfxState.clear : PfxState := ⟨false, 0#24, false, 0#24⟩

/-- Who issues the instruction that the machine executes. -/
inductive Issuer where
  /-- a split of a group, by its split table entry -/
  | split (gid entry : Nat)
  /-- a single-lane handler -/
  | handler (hid : Nat)
  /-- a hart of the host chiplet -/
  | hart (h : Nat)
  /-- a unit of the package, by its event -/
  | unit (event : Instr)
  deriving DecidableEq, Repr

/-- What a split waits for (R136, R141). -/
inductive Wait where
  | none
  | join
  | bar (id mask : Nat) (cluster : Bool)
  | barg (id : Nat)
  | counter (cls n : Nat)
  | batch (n : Nat)
  /-- a BOW that waits on a line, the tick of its next read, and its word (R404) -/
  | bow (line due : Nat) (word : Word)
  | engineRoom
  | launchRoom
  | callSlot
  | call (slot : Nat)
  | ncwt (c n : Nat)
  | txLock
  | ticket
  /-- the word of a weir instruction that its home has not answered -/
  | weir (word : BitVec 32)
  /-- a weir has answered: the instruction completes with the value when its group issues it (R183) -/
  | answered (v : Nat)
  | sleep (deadline : Nat)
  | gridOps
  /-- a linked GMM with these fields D, A and B stands for its partners (R130) -/
  | linked (d a b : Nat)
  /-- an access to another package, by its number -/
  | remote (id : Nat)
  | flush
  /-- a release whose flush marker could not reach a package: issued again it faults (R260) -/
  | unreached (pkg : Nat)
  /-- a request held for bandwidth (R106): how many of the instruction's have gone out, and its sectors -/
  | tokens (out need : Nat)
  | assist (slot : Nat)
  /-- no path to this package is up (R31) -/
  | path (pkg : Nat)
  deriving DecidableEq, Repr

/-- What an instruction that waits after its issue keeps of it (R313, R382): MODE, and its executing threads. -/
structure Issued where
  mode : Word
  exec : BitVec 64
  deriving DecidableEq, Repr

/-- One split (R332). -/
structure Split where
  mask : BitVec 64
  pc : BitVec 64
  drec : Option Nat
  pfx : PfxState
  wait : Wait
  retry : Option (BitVec 64)
  poisonAct : Bool
  /-- the place of its creation in the group's order of creations (R142) -/
  born : Nat
  /-- its instruction has issued, and waits (R313) -/
  issued : Option Issued
  deriving DecidableEq, Repr

/-- A fault of one access, as the record reports it (R457, R459); `table` says that a read of a translation table
failed (R482). -/
structure XFault where
  code : Nat
  addr : Nat
  stage2 : Bool
  physical : Bool
  pathFail : Bool
  table : Bool
  deriving DecidableEq, Repr

/-- A lane to abort: its thread, code and detail (R236). -/
structure LaneAbort where
  thread : Nat
  code : Nat
  detail : Nat
  deriving DecidableEq, Repr

/-- The registers that an instruction stream names directly (R161, R162, R312, R289). -/
structure Regs where
  v : FMap Word
  o : FMap Word
  l : FMap Word
  mode : Word
  cvmode : Word
  deriving DecidableEq, Repr

/-- The transaction state of one lane (R219, R220, R227, R236). -/
structure TxLane where
  depth : Nat
  irrev : Bool
  retries : Nat
  detail : Nat
  code : Nat
  txoPc : BitVec 64
  home : Option Nat
  rlines : List Nat
  rlog : FMap Byte
  wbuf : FMap Byte
  /-- two different values of one byte were read, so validation cannot pass (R224) -/
  torn : Bool
  /-- the number of the TXO whose split entry is reserved for this lane's retry, or 0 (R219) -/
  res : Nat
  deriving DecidableEq, Repr

/-- A lane that has run no transaction. -/
def TxLane.empty : TxLane := ⟨0, false, 0, 0, 0, 0#64, none, [], [], [], false, 0⟩

/-- A fault as the core keeps it (R457, R459, R460). -/
structure FaultInfo where
  code : Nat
  mask : BitVec 64
  pc : BitVec 64
  word : BitVec 32
  addr : BitVec 64
  trapKind : Bool
  engine : Option Nat
  fetch : Bool
  stage2 : Bool
  physical : Bool
  pathFail : Bool
  poison : Bool
  pfx : PfxState
  cpos : Nat
  spos : Nat
  seq : Nat
  user : Nat
  entry : Nat
  txAborted : BitVec 64
  /-- MODE as the instruction issued (R466) -/
  mode : Word
  deriving DecidableEq, Repr

/-- FPREC and what FPT recorded (R464, R470). -/
structure FpState where
  valid : Bool
  isOpen : Bool
  recipe : Bool
  cause : Nat
  count : Nat
  point : BitVec 64
  recipePc : Option (BitVec 64)
  live : BitVec 128
  mask : BitVec 64
  mode : Word
  cvmode : Word
  srseed : Word
  batch : Nat
  barG : FMap Nat
  bargG : FMap Nat
  filter : BitVec 512
  deriving DecidableEq, Repr

/-- Nothing recorded. -/
def FpState.empty : FpState :=
  ⟨false, false, false, 0, 0, 0#64, none, 0#128, 0#64, 0#32, 0#32, 0#32, 0, [], [], 0#512⟩

/-- The spin detector of a group (R143, R144). -/
structure SpinState where
  branch : Option (BitVec 64)
  count : Nat
  changed : Bool
  demoted : Bool
  watching : Bool
  passDone : Bool
  watch : List Nat
  since : Nat
  deriving DecidableEq, Repr

def SpinState.clear : SpinState := ⟨none, 0, false, false, false, false, [], 0⟩

/-- A grid operation issued and not completed: its cells as they will be written, keyed row * 64 +
column (R172, R435), the length of its grid phase and its end, in free ticks of its quadrant (R39, R446). -/
structure GridOp where
  phase : Nat
  due : Nat
  isGmm : Bool
  cells : FMap Word
  deriving DecidableEq, Repr

/-- One access to another package: the threads it serves, the thread whose data it uses, its virtual and
physical address, its size, and whether a peer's answer may be kept in a cache (R190, R378, R388). -/
structure RemoteReq where
  targets : BitVec 64
  data : Nat
  va : Nat
  pa : Nat
  size : Nat
  keep : Bool
  deriving DecidableEq, Repr

/-- What waits for an answer from another package. -/
inductive RemoteKind where
  /-- a load: destination specifier, signed extension -/
  | load (dst : Nat) (signed : Bool)
  /-- an atomic: destination specifier, operation, etype, the draws of fadd by thread (R389) -/
  | atomic (dst op et : Nat) (draws : FMap (List Nat))
  /-- a BOW: destination specifier and the value that it waits for -/
  | bow (dst v : Nat)
  /-- a weir operation at another home: kind, handle, operand, and the lookups that are left (R111) -/
  | weir (kind handle value tries : Nat)
  deriving DecidableEq, Repr

/-- An instruction's outstanding accesses to other packages, with the faults and aborts of its other
threads (R378, R381, R388, R398). -/
structure RemoteOp where
  id : Nat
  kind : RemoteKind
  reqs : List RemoteReq
  bad : List (Nat × XFault)
  aborts : List LaneAbort
  word : BitVec 32
  entry : Nat
  deriving DecidableEq, Repr

/-- What one group's instruction in flight outside the core owns (R259, R398): its operations, the packages
written since the last release, the flush markers that are not answered, as package and number, and its stores that are not
known to be performed, as the store, the package, and the marker that was sent after it, or 0. -/
structure Links where
  remote : List RemoteOp
  written : List Nat
  flush : List (Nat × Nat)
  stores : List (Nat × Nat × Nat)
  deriving DecidableEq, Repr

/-- The states of a group as its scheduler sees them (R136); `running` covers ready, waiting and
demoted, which the waits and the spin detector tell apart. -/
inductive GStatus where
  | running
  | trapped
  | handler
  | saved
  | exited
  deriving DecidableEq, Repr

/-- What is fixed for a group at placement (R71, R129, R167, R177). -/
structure GroupId where
  block : Nat
  role : Nat
  grpix : Nat
  local_ : Nat
  allot : Nat
  depth : Nat
  lk4 : Bool
  age : Nat
  deriving DecidableEq, Repr

/-- One group in a slot (R136 to R181, R332). -/
structure Group where
  status : GStatus
  ident : GroupId
  regs : Regs
  table : FMap Split
  stack : List Split
  births : Nat
  lastSplit : Nat
  parents : FMap (Option Nat)
  srseed : Word
  txlim : Nat
  stklim : Nat
  tvec : Word
  grid : Bool
  fpgrid : Bool
  batch : Nat
  clock : Option (BitVec 64)
  fp : FpState
  guards : FMap Nat
  barG : FMap Nat
  bargG : FMap Nat
  tx : FMap TxLane
  gridOps : List GridOp
  lastG : Nat
  fault : Option FaultInfo
  savedFull : Bool
  engFaults : List FaultInfo
  spin : SpinState
  links : Links
  /-- a yielded group: the free tick of its quadrant at which it is ready again at the latest (R469) -/
  yieldDue : Option Nat
  /-- the groups that a yielded group lets issue first (R469) -/
  yieldSet : List Nat
  /-- the free tick of its quadrant since which the group has been ready (R137) -/
  readySince : Option Nat
  /-- the tick at which a trapped group's operations were complete (R182 step 3) -/
  trapTick : Nat
  /-- lanes that aborted while the group was frozen: they leave their splits when it runs again (R183, R225) -/
  ejectDue : BitVec 64
  deriving DecidableEq, Repr

/-- A handler context (R184, R456, R466). -/
structure Handler where
  gid : Nat
  regs : Regs
  pc : BitVec 64
  pfx : PfxState
  repl : FMap (BitVec 128)
  skip : BitVec 64
  /-- what the handler's instruction waits for -/
  wait : Wait
  deriving DecidableEq, Repr

/-- A launch record as read (R66). -/
structure LaunchRec where
  type : Nat
  flags : Nat
  vector : Nat
  tag : Nat
  header : Nat
  wobj : Nat
  wval : Nat
  sobj : Nat
  sinc : Nat
  crec : Nat
  deriving DecidableEq, Repr

/-- A role entry (R70). -/
structure RoleEnt where
  entry : Nat
  regs : Nat
  lock : Nat
  groups : Nat
  deriving DecidableEq, Repr

/-- A launch header as read (R68). -/
structure LaunchHdr where
  nroles : Nat
  gang : Nat
  pool : Nat
  gx : Nat
  gy : Nat
  gz : Nat
  code : Nat
  cbank : Nat
  csize : Nat
  seed : Nat
  param : Nat
  stack : Nat
  ssize : Nat
  roles : List RoleEnt
  deriving DecidableEq, Repr

/-- The first error of a grid (R73, R74). -/
structure GridErr where
  status : Nat
  detail : Nat
  cluster : Nat
  core : Nat
  slot : Nat
  pc : Nat
  deriving DecidableEq, Repr

/-- A started grid (R64, R72, R131). -/
structure Grid where
  vf : Nat
  fromRing : Bool
  lrec : LaunchRec
  hdr : LaunchHdr
  tid : Nat
  nextBlock : Nat
  ended : Nat
  tstart : Option Nat
  tend : Nat
  err : Option GridErr
  reported : Bool
  stopsQueue : Bool
  bargP : FMap Nat
  /-- other packages that its groups had written when they ended, and the markers sent to them (R72, R259) -/
  written : List Nat
  flush : List (Nat × Nat)
  /-- how far the steps of its completion are: 0 not ended, 1 ended, 2 the record is written or failed, 3 the barrier object is
  signalled or failed; and one of them failed (R72) -/
  stage : Nat
  stepFailed : Bool
  deriving DecidableEq, Repr

/-- A command of a core's engine queue (R180, R408 to R424). -/
structure EngCmd where
  id : Nat
  gid : Nat
  sub : Nat
  words : List Word
  guard : Option Nat
  held : Bool
  started : Bool
  batch : Option Nat
  cvmode : Word
  version : Nat
  base : Nat
  cpos : Nat
  spos : Nat
  oor : Nat
  tc : Nat
  k : Nat
  entryAddr : Nat
  entrySub : Nat
  entryWords : List Word
  nextAddr : Nat
  runningEntry : Bool
  seqWritten : Nat
  stopped : Bool
  enqWord : Word
  mask : BitVec 64
  /-- nibbles that it has written, with what they held before (R204, R412) -/
  wrote : FMap Nat
  /-- bytes that it has written in other packages (R204) -/
  far : FMap Byte
  /-- packages that it has written since its last flush markers, and the markers that are not answered (R410) -/
  wroteTo : List Nat
  marks : List (Nat × Nat)
  /-- the status code with which it ends, once it has performed its elements or is cancelled (R410), and its status is written -/
  ended : Option Nat
  posted : Bool
  /-- a chain's entry or an entry that it names was poisoned: so is what the chain writes (R209, R425) -/
  taint : Bool
  /-- MODE as ENQ issued (R289) -/
  mode : Word
  /-- the bytes of the two entries that the command names, as ENQ read them (R202, R208) -/
  ent1 : List Byte
  ent2 : List Byte
  deriving DecidableEq, Repr

/-- A block with its Pool regions (R123, R166, R168) and its barriers (R396). -/
structure Block where
  grid : Nat
  linear : Nat
  core : Nat
  q0 : Nat
  gids : List Nat
  scSize : Nat
  tiSize : Nat
  units : Nat
  sc : FMap Byte
  ti : FMap Byte
  poison : FMap Bool
  barP : FMap Nat
  barMask : FMap Nat
  saved : Bool
  /-- the engine commands of a switched-out block (R181) -/
  queue : List EngCmd
  deriving DecidableEq, Repr

/-- One cached range of a translation stage (R98): `vf` names the stage-1 tables of a VF, none the
partition's stage 2. -/
structure CachedRange where
  part : Nat
  vf : Option Nat
  base : Nat
  len : Nat
  target : Nat
  perm : Nat
  policy : Nat
  /-- the physical address of the entry of a tier range (R97, R199) -/
  tierAt : Option Nat
  deriving DecidableEq, Repr

/-- A hypervisor's answer of TRANSLATION or PERMISSION to the access that waits for it (R102): the stage, as in a cached
range, its input address, the fault code, and who asked. -/
structure Denial where
  part : Nat
  vf : Option Nat
  addr : Nat
  code : Nat
  asker : Option Issuer
  deriving DecidableEq, Repr

/-- One core (R158, R180, R190, R192). -/
structure Core where
  qnext : Nat
  l1 : FMap (BitVec 256)
  cc : FMap (BitVec 512)
  tlb : List CachedRange
  trap : FMap Byte
  queue : List EngCmd
  served : FMap Nat
  lost : Bool
  trapQueue : List Nat
  gridOrder : List Nat
  /-- a scan is pending or running -/
  scan : Bool
  /-- the tick at which the last in-service scan began (R43) -/
  scanTick : Option Nat
  /-- the tick since which the core has stood empty for its scan (R43) -/
  scanFrom : Option Nat
  /-- operations on other packages of lower number leave nothing in the L1: it has been dropped since (R191, R253) -/
  l1From : Nat
  deriving DecidableEq, Repr

def Core.empty : Core := ⟨0, [], [], [], [], [], [], false, [], [], false, none, none, 0⟩

/-- MOESI states (R216). -/
inductive Moesi where
  | i
  | s
  | e
  | o
  | m
  deriving DecidableEq, Repr

/-- A directory entry (R215): host copies by granule, peers' copies by node slot. -/
structure DirEntry where
  host : FMap Moesi
  peers : FMap Moesi
  deriving DecidableEq, Repr

def DirEntry.empty : DirEntry := ⟨[], []⟩

/-- A line held in an L2 slice (R103, R193): a valid and a dirty bit for each of its eight sectors. -/
structure L2Line where
  slice : Nat
  set : Nat
  line : Nat
  part : Nat
  valid : Nat
  dirty : Nat
  deriving DecidableEq, Repr

/-- A stage of translation: registers as written and as in force (R95). -/
structure Stage where
  rtab : Nat
  rcnt : Nat
  ptroot : Nat
  inRtab : Nat
  inRcnt : Nat
  inPtroot : Nat
  busy : Bool
  deriving DecidableEq, Repr

def Stage.zero : Stage := ⟨0, 0, 0, 0, 0, 0, false⟩

/-- Who sends a Millrace request (R82, R120): the partition's PPID, the VF and its generation. -/
structure Sender where
  ppid : Nat
  vf : Nat
  gen : Nat
  deriving DecidableEq, Repr

/-- Where a weir operation of another package comes from: the package, its number there, and its sender. -/
structure WeirSrc where
  pkg : Nat
  id : Nat
  sender : Sender
  deriving DecidableEq, Repr

/-- A weir operation at its home (R111, R112). -/
structure WeirOp where
  gid : Nat
  entry : Nat
  kind : Nat
  handle : Nat
  value : Nat
  ppid : Nat
  /-- an operation from another package -/
  src : Option WeirSrc
  deriving DecidableEq, Repr

/-- A weir held by the weir unit (R109, R116). -/
structure Weir where
  count : Nat
  tokens : Nat
  refill : Nat
  burst : Nat
  home : Nat
  state : Nat
  acl : List Nat
  commons : Nat
  heldOps : List WeirOp
  rateOps : List WeirOp
  waiters : List WeirOp
  deriving DecidableEq, Repr

/-- A request posted to an assist table (R80). -/
structure AssistReq where
  fn : Nat
  reason : Nat
  data : List Nat
  gid : Nat
  entry : Nat
  /-- the unit's event that goes on when the answer arrives -/
  resume : Option Instr
  deriving DecidableEq, Repr

/-- A switch in progress (R149 to R152). -/
structure Switch where
  since : Nat
  incoming : Nat
  doneDies : List Nat
  forced : Bool
  restoring : Bool
  deriving DecidableEq, Repr

/-- A VF's bandwidth table entry (R105). -/
structure Bandwidth where
  burst : Nat
  rate : Nat
  en : Bool
  deriving DecidableEq, Repr

/-- A partition (R81 to R85, R78, R80, R95, R105, R146). -/
structure Partition where
  live : Bool
  pindex : Nat
  ppid : Nat
  pclus : Nat
  pstatOff : Nat
  pstatReason : Nat
  l2q : Nat
  mrports : Nat
  estLimit : Nat
  estPorts : Nat
  routes : Nat
  funcctl : Nat
  assistBase : Nat
  assist : FMap AssistReq
  period : Nat
  stbase : Nat
  active : Bool
  misses : Nat
  running : Nat
  switch : Option Switch
  stage2 : Stage
  wtbase : Nat
  wtcnt : Nat
  bw : FMap Bandwidth
  lockHolder : Option (Nat × Nat)
  lockQueue : List (Nat × Nat)
  /-- a holder that is gone owes the release of its writes in these packages (R227, R259): they are told, and then their
  answers are waited for; and the holder's VF -/
  lockOwed : List Nat
  lockFlush : List (Nat × Nat)
  lockVf : Nat
  liveConns : Nat
  /-- a switch tick that waits for a free slot of the assist table (R80, R152) -/
  tickHeld : Bool
  /-- where no path leads to a package, the tick since which none does (R31); keyed as the switch routes -/
  downSince : FMap Nat
  /-- the ticks of the changes of FUNCCTL.retx (R79) -/
  retxLog : List Nat
  /-- the partition's clusters on its packages of lower and of higher index (R71, R82) -/
  clusBelow : Nat
  clusAbove : Nat
  deriving DecidableEq, Repr

def Partition.reset : Partition :=
  ⟨false, 0, 0, 0, 0, 0, 0, 0, 0, 0, 0, 0, 0, [], 10, 0, false, 0, 0, none, .zero, 0, 0, [], none, [], [], [], 0, 0, false, [], [], 0, 0⟩

/-- A host-service call in a slot (R77). -/
structure CallSlot where
  gid : Nat
  entry : Nat
  pending : Bool
  returned : Bool
  reg : Nat
  dst : Nat
  deriving DecidableEq, Repr

/-- A record being started, or waiting on its barrier object (R64, R67, R75). -/
structure PendingRec where
  lrec : LaunchRec
  hdr : Option LaunchHdr
  /-- the line of wobj, once it was read below wval, and the tick of the next re-read -/
  line : Option Nat
  due : Nat
  /-- the wait condition holds -/
  ok : Bool
  /-- its wait read has failed: the fault code and the tick (R75) -/
  failed : Option (Nat × Nat)
  deriving DecidableEq, Repr

/-- An MSI-X vector: message address, message data, control (R54, R55). -/
structure MsixVec where
  addr : Nat
  data : Nat
  ctrl : Nat
  deriving DecidableEq, Repr

/-- A vector as PCIe leaves it at reset: masked. -/
def MsixVec.reset : MsixVec := ⟨0, 0, 1⟩

/-- An ordered packet that arrived before its turn (R35): sequence number, address, payload, counter, and for the request of
a read its length. -/
structure RodPacket where
  seq : Nat
  va : Nat
  bytes : List Byte
  counter : Option Nat
  read : Option Nat
  deriving DecidableEq, Repr

/-- The receiver's side of a connection's ordered packets: the next sequence number and those held. -/
structure RodState where
  next : Nat
  held : List RodPacket
  deriving DecidableEq, Repr

/-- A VF and its window (R55 to R60, R75, R77, R88, R95, R419). -/
structure Vf where
  assigned : Bool
  part : Nat
  index : Nat
  gen : Nat
  presented : Nat
  en : Bool
  lqbase : Nat
  lgsize : Nat
  inLqbase : Nat
  inLgsize : Nat
  lqtail : Nat
  lqhead : Nat
  lqerr : Nat
  lqdetail : Nat
  stopped : Bool
  starting : Option PendingRec
  hsbase : Nat
  calls : FMap CallSlot
  tidbase : Nat
  msix : FMap MsixVec
  msixPend : Nat
  stage1 : Stage
  counters : FMap (Nat × Nat)
  dlq : List PendingRec
  resetting : Bool
  /-- Estuary connections by handle: port and the peer's generation (R108, R120) -/
  conns : FMap (Nat × Nat)
  rod : FMap RodState
  /-- requests that wait for bandwidth, by die, in arrival order: group and entry (R106) -/
  tokenQ : FMap (List (Nat × Nat))
  /-- the tick at which its last reset began (R119) -/
  resetAt : Nat
  deriving DecidableEq, Repr

def Vf.reset : Vf :=
  ⟨false, 0, 0, 0, 0, false, 0, 0, 0, 0, 0, 0, 0, 0, false, none, 0, [], 0, [], 0, .zero, [], [], false, [], [], [], 0⟩

/-- A hart of the host chiplet, as far as R229 to R234 describe it. -/
structure Hart where
  x : FMap (BitVec 64)
  f : FMap (BitVec 64)
  pc : BitVec 64
  depth : Nat
  recX : FMap (BitVec 64)
  recF : FMap (BitVec 64)
  rd : Nat
  resume : BitVec 64
  openTick : Nat
  buf : FMap Byte
  rsig : List Nat
  wsig : List Nat
  slices : List Nat
  ticket : Bool
  /-- the package of the open transaction's first access (R235) -/
  home : Option Nat
  deriving DecidableEq, Repr

def Hart.reset : Hart := ⟨[], [], 0#64, 0, [], [], 0, 0#64, 0, [], [], [], [], false, none⟩

/-- A ticket of the Sluice (R218). -/
inductive Ticket where
  | group (gid entry : Nat) (lanes : BitVec 64)
  | hart (h : Nat)
  deriving DecidableEq, Repr

/-- A tier move (R198 to R201). -/
structure TierMove where
  part : Nat
  vf : Nat
  ipa : Nat
  target : Nat
  bobj : Nat
  id : Nat
  /-- its status, once steps 1 to 3 are over -/
  status : Option Nat
  /-- packages that it has written, once its status is; and the markers that its signal waits for (R246) -/
  written : Option (List Nat)
  flush : List (Nat × Nat)
  deriving DecidableEq, Repr

/-- A batch of blocks (R131). -/
structure Batch where
  grid : Nat
  first : Nat
  blocks : Nat
  groups : Nat
  deriving DecidableEq, Repr

/-- A collective accepted by an engine (R416). -/
structure Collective where
  id : Nat
  vf : Nat
  op : Nat
  fmt : Nat
  root : Nat
  counter : Nat
  n : Nat
  src : Nat
  dst : Nat
  /-- the participants' descriptor words, by rank (R416) -/
  ranks : List Nat
  own : Nat
  tag : Nat
  /-- its own request has ended already: the status that this gives the participants that it matches (R416, R418) -/
  ended : Option Nat
  /-- with participants of other packages: its source, once it has been read and sent to them, each byte with its poison -/
  part : Option (List (Byte × Bool))
  deriving DecidableEq, Repr

/-- An Estuary work request accepted by Estuary (R417). -/
structure NetWork where
  id : Nat
  vf : Nat
  op : Nat
  counter : Nat
  len : Nat
  laddr : Nat
  raddr : Nat
  conn : Nat
  remoteCounter : Option Nat
  /-- the delivery mode (R32) -/
  mode : Nat
  deriving DecidableEq, Repr

/-- What leaves the package or reaches an outside party (log 17). -/
inductive OutMsg where
  | msix (vf : Option Nat) (vec addr data : Nat)
  /-- a request to another package: 0 load, 1 store, 2 + operation atomic, 32 + kind weir operation -/
  | millrace (kind pkg addr size : Nat) (data : List Byte) (poison : Bool) (from_ : Sender)
  /-- the answer to another package's request: refused, or the data and its poison -/
  | millraceAnswer (pkg : Nat) (refused : Bool) (data : List Byte) (poison : Bool) (to_ : Sender)
  /-- a weir's list is registered with, or withdrawn from, a commons of another package (R115) -/
  | commons (pkg commons weir : Nat) (acl : List Nat)
  /-- the answer to another package's weir operation: 0 done, 1 WEIR_INVALID, 2 WEIR_DENIED, 3 closed and moved -/
  | weirAnswer (to_ : WeirSrc) (result value : Nat)
  /-- a weir operation at another home is withdrawn (R114) -/
  | weirWithdraw (pkg id : Nat) (from_ : Sender)
  | flushMarker (pkg gid id : Nat) (from_ : Sender)
  | flushAnswer (to_ : Marker)
  /-- an Estuary request with the peer's generation, and a write's bytes (R32, R120, R417) -/
  | estuary (gen : Nat) (work : NetWork) (bytes : List Byte)
  /-- a participant's source for a collective's participants of other packages, each byte with its poison; none where it
  could not be read (R416): VF and tag -/
  | collPart (vf tag rank : Nat) (bytes : Option (List (Byte × Bool)))
  /-- the bytes that a peer's read has asked for: VF, connection, the peer's generation, sequence number (R120, R417) -/
  | estuaryData (vf conn gen seq : Nat) (bytes : List Byte)
  /-- a row whose repair resources are exhausted (R23) -/
  | rowExhausted (row : Nat)
  /-- the answer of a host or PCIe read -/
  | hostData (h : Option Nat) (data : List Byte)
  /-- a refused Estuary packet with the status that its request gets there (R417, R418), and one of an unsupported mode
  (R33): VF, connection, the peer's generation -/
  | nack (vf conn gen status : Nat)
  | negAck (vf conn gen : Nat)
  /-- an Estuary packet sent again (R35): connection, the peer's generation, port, sequence number -/
  | resend (vf conn gen port seq : Nat)
  /-- a connection torn down (R35, R119), with the peer's generation -/
  | teardown (vf conn gen : Nat)
  | hostFault (h addr : Nat)
  /-- an access of a PCIe port or of another agent outside the cores that is refused -/
  | accessFault (addr : Nat)
  | hostIllegal (h : Nat)
  | coreLost (core : Nat)
  | powerOff (thermal : Bool)
  | status (b : Nat)
  deriving DecidableEq, Repr

/-- A fused key digest and its revocation fuse (R49). -/
structure KeyFuse where
  digest : Nat
  revoked : Bool
  deriving DecidableEq, Repr

/-- The boot ROM, the board controller's view and management's settings (R36 to R54). -/
structure Boot where
  status : Nat
  /-- the image that the ROM authenticates (R47, R50) -/
  image : List Byte
  fusedSvn : Nat
  fuses : List KeyFuse
  portRoot : Nat
  repairList : List Nat
  throttle : Nat
  thermal : Bool
  /-- the tick of the last lowering of the throttle level (R39) -/
  throttleAt : Option Nat
  pkg : Nat
  /-- the package numbers of the pod, as bits (R19, R28) -/
  pod : Nat
  /-- the tick of the boot scan (R43) -/
  bootScan : Option Nat
  spareUsed : FMap Bool
  portsUp : Nat
  /-- the Millrace ports that the pod's switch routes connect to a package, as bits: all of them where it is not listed
  (R107) -/
  switchRoutes : FMap Nat
  /-- ways that a slice has lost, and the slices whose spare way is in use (R24) -/
  l2Ways : FMap Nat
  l2Spare : FMap Bool
  softRepaired : List Nat
  pfPresented : Nat
  pfMsix : FMap MsixVec
  pfPend : Nat
  coreMap : FMap Nat
  deriving DecidableEq, Repr

/-- The configuration port and the scrub it started (R86, R92). -/
structure CfgPort where
  arg0 : Nat
  arg1 : Nat
  busy : Bool
  last : Nat
  result : Nat
  scrub : Option (Bool × Nat × Nat × Nat)
  /-- the VF whose reset ends an unassignment (R88) -/
  unassign : Option Nat
  deriving DecidableEq, Repr

/-- Memory and what guards it (R17, R89, R103, R209, R215). -/
structure MemSys where
  mem : FMap Byte
  poison : FMap Bool
  /-- poisoned sectors that have been posted to a hypervisor (R213) -/
  known : FMap Bool
  /-- weirs of other packages that name a commons of this one: package, descriptor, commons, list (R115) -/
  guests : List (Nat × Nat × Nat × List Nat)
  fast : FMap Nat
  cap : FMap Nat
  dir : FMap DirEntry
  l2 : List L2Line
  rcache : FMap (List CachedRange)
  /-- denials of a hypervisor that the access has not met yet (R102) -/
  denials : List Denial
  /-- lines of peers' memory, with the number of the first operation whose answer may still be kept of them (R215, R253) -/
  peerGone : FMap Nat
  deriving DecidableEq, Repr

/-- The placement units (R126, R131 to R133). -/
structure Placement where
  delta : List Batch
  dieQueues : FMap (List Batch)
  diePtr : FMap Nat
  lastDie : FMap Nat
  /-- the cores that a hypervisor chose for a gang, which wait for its TVEC words (R128): by die, the grid, the
  gang's first block, and the cores -/
  chosen : FMap (Nat × Nat × List Nat)
  deriving DecidableEq, Repr

/-- Which agent moves next, and what has left the package (log 3, log 4, log 17). -/
structure Turn where
  cur : Option Issuer
  agenda : List Instr
  /-- events of units that wait for a free slot of an assist table (R80) -/
  held : List Instr
  /-- time has passed since the last issue: the next step issues (log 2) -/
  ticked : Bool
  hostTurn : Option Nat
  rotor : Nat
  /-- the tick of each quadrant's last issue (R39, R138) -/
  issuedAt : FMap Nat
  /-- the ticks that throttling has left empty, by quadrant (R39) -/
  emptied : FMap Nat
  /-- host accesses that wait for a path: the hart, the address and the tick of the access (R31) -/
  hostWaits : List (Option Nat × Nat × Nat)
  nextId : Nat
  freeCount : Nat
  outbox : List OutMsg
  deriving DecidableEq, Repr

/-- The whole package. -/
structure State where
  power : Bool
  tick : Nat
  turn : Turn
  groups : FMap Group
  handlers : FMap Handler
  cores : FMap Core
  blocks : FMap Block
  grids : FMap Grid
  vfs : FMap Vf
  parts : FMap Partition
  ms : MemSys
  boot : Boot
  cfg : CfgPort
  place : Placement
  buckets : FMap Nat
  reservoirs : FMap Nat
  weirs : FMap Weir
  wtCache : FMap Nat
  tickets : List Ticket
  moves : List TierMove
  colls : List Collective
  works : List NetWork
  harts : FMap Hart
  savedArea : FMap Group
  deriving DecidableEq, Repr

/-- The logical core map word that the boot scan writes when all nine logical cores are present
and physical core k serves logical core k (R41, log 7). -/
def bootMapWord : Nat := 2 ^ 63 + 9 * 2 ^ 36 + 0x876543210

/-- The state right after POWER_GOOD (R46, R50): what the spec gives, and what log 7 names. -/
def State.reset : State :=
  { power := true
    tick := 0
    turn := ⟨none, [], [], false, none, 0, [], [], [], 0, 0, []⟩
    groups := []
    handlers := []
    cores := []
    blocks := []
    grids := []
    vfs := []
    parts := []
    ms := ⟨[], [], [], [], [], [], [], [], [], [], []⟩
    boot := ⟨0, [], 0, [], 0, [], 0, false, none, 0, 2 ^ 512 - 1, none, [], 0xFFFFFFFF, [], [], [], [], 0, [], 0, []⟩
    cfg := ⟨0, 0, false, 0, 0, none, none⟩
    place := ⟨[], [], [], [], []⟩
    buckets := []
    reservoirs := []
    weirs := []
    wtCache := []
    tickets := []
    moves := []
    colls := []
    works := []
    harts := []
    savedArea := [] }

end Sys2Proof.Machine
end

