-- ==== Sys2Proof/Machine/Flags.lean ====
section
/-! DEFINITION. MODE, CVMODE and the status words that software reads: R272, R289, R312 to R315,
R177, R179, R236, R464. -/

namespace Sys2Proof.Machine

/-- MODE.etype (R312). -/
def modeEtype (m : Word) : Nat := field m.toNat 10 4
/-- MODE.rnd (R312). -/
def modeRndCode (m : Word) : Nat := field m.toNat 14 3
/-- The rounding rule of MODE.rnd. -/
def modeRnd (m : Word) : Rnd := rndOfCode (modeRndCode m)
/-- MODE.daz (R283). -/
def modeDaz (m : Word) : Bool := m.getLsbD 17
/-- MODE.ftz (R283). -/
def modeFtz (m : Word) : Bool := m.getLsbD 18
/-- MODE.isat (R274). -/
def modeIsat (m : Word) : Bool := m.getLsbD 19
/-- MODE.gen: the guard is enabled (R312). -/
def modeGen (m : Word) : Bool := m.getLsbD 8
/-- MODE.gsense (R312). -/
def modeGsense (m : Word) : Bool := m.getLsbD 9
/-- MODE.guard, the specifier of the guard register (R312). -/
def modeGuard (m : Word) : Nat := field m.toNat 0 8

/-- The float format of an element type (R272); `none` for the integer types. -/
def etypeFloat (et : Nat) : Option FloatFmt :=
  match et with
  | 6 => some fmtF32
  | 7 => some fmtF16
  | 8 => some fmtBf16
  | _ => none

/-- Element width of an element type (R272). -/
def etypeWidth (et : Nat) : Nat :=
  match et with
  | 2 => 16
  | 3 => 16
  | 4 => 8
  | 5 => 8
  | 7 => 16
  | 8 => 16
  | 9 => 64
  | 10 => 64
  | _ => 32

/-- Elements per register, or per pair for the 64-bit types (R272). -/
def etypeCount (et : Nat) : Nat :=
  match et with
  | 2 => 2
  | 3 => 2
  | 4 => 4
  | 5 => 4
  | 7 => 2
  | 8 => 2
  | _ => 1

/-- The element type is signed (R272). -/
def etypeSigned (et : Nat) : Bool := decide (et = 0 ∨ et = 2 ∨ et = 4 ∨ et = 9)

/-- The element type uses register pairs (R272, R163). -/
def etypeWide (et : Nat) : Bool := decide (et = 9 ∨ et = 10)

/-- The environment of a float element (R283, R355). -/
def floatEnv (m : Word) (F : FloatFmt) : FEnv := ⟨F, modeRnd m, modeDaz m, modeFtz m⟩

/-- The checks of R313 on the value bits of MODE: reserved bits, etype and rnd. -/
def modeValueOk (x : BitVec 24) : Bool :=
  decide (field x.toNat 20 4 = 0 ∧ field x.toNat 10 4 ≤ 10 ∧ field x.toNat 14 3 ≤ 5)

/-- The check of R313 on the guard specifier. -/
def modeGuardOk (allot : Nat) (x : BitVec 24) : Bool :=
  !x.getLsbD 8 || decide (field x.toNat 0 8 < 128 ∧ field x.toNat 0 8 < allot) ||
    decide (0x80 ≤ field x.toNat 0 8 ∧ field x.toNat 0 8 ≤ 0x87)

/-- The check of R315: no rounding field holds 6 or 7. -/
def cvmodeOk (x : Word) : Bool := (List.range 8).all (fun i => decide (field x.toNat (4 * i) 3 < 6))

/-- CVMODE at reset (R289). -/
def cvmodeReset : Word := 0x88888800#32

/-- The extension value EXTV of R310. -/
def PfxState.extv (p : PfxState) : BitVec 24 := if p.pl then p.lo else 0#24

/-- The extension immediate XI of R310. -/
def PfxState.xi (p : PfxState) : BitVec 64 :=
  if p.ph then
    if p.pl then (p.hi ++ p.lo).signExtend 64 else (p.hi ++ 0#24).signExtend 64
  else if p.pl then p.lo.signExtend 64 else 0#64

/-- The status word of a lane (R236). -/
def TxLane.word (x : TxLane) : Word :=
  BitVec.ofNat 32
    ((if x.depth ≠ 0 ∨ x.irrev then 2 ^ 31 else 0) + (if x.irrev then 2 ^ 30 else 0) + x.depth % 16 * 2 ^ 24 +
      x.retries % 256 * 2 ^ 16 + x.detail % 256 * 2 ^ 8 + x.code % 256)

/-- FPREC (R464). -/
def FpState.word (x : FpState) : Word :=
  BitVec.ofNat 32
    ((if x.valid then 2 ^ 31 else 0) + (if x.isOpen then 2 ^ 30 else 0) + (if x.recipe then 2 ^ 29 else 0) +
      x.cause % 16 * 2 ^ 24 + x.count % 2 ^ 24)

/-- The number of live splits of a group (R332). -/
def Group.liveSplits (g : Group) : Nat := g.table.length + g.stack.length

/-- GSTATE (R177) of the group in slot `gid`; `single` is 1 for a handler's read. -/
def Group.gstate (g : Group) (gid : Nat) (single : Bool) : Word :=
  let slot := gid % 64
  BitVec.ofNat 32
    ((if g.grid then 2 ^ 31 else 0) + (if single then 2 ^ 30 else 0) + (if g.fpgrid then 2 ^ 29 else 0) +
      (if g.ident.lk4 then 2 ^ 28 else 0) + slot / 16 * 2 ^ 26 + slot % 16 * 2 ^ 22 +
      (if 1 < g.liveSplits then 1 else 0))

/-- SPLITS (R179). -/
def Group.splitsWord (g : Group) : Word :=
  BitVec.ofNat 32 (g.ident.depth % 256 * 2 ^ 24 + g.stack.length % 128 * 2 ^ 16 + g.table.length % 32)

/-- GSTAT's word (R452). -/
def Group.gstatWord (g : Group) : Word :=
  BitVec.ofNat 32
    ((if g.grid then 2 ^ 31 else 0) + (if g.ident.lk4 then 2 ^ 30 else 0) + min 255 g.gridOps.length * 2 ^ 16 +
      min 65535 g.lastG)

end Sys2Proof.Machine
end

