-- ==== Sys2Proof/Machine/Operands.lean ====
section
/-! DEFINITION. Register operands: R161 to R163, R305, R377, R407, and the latches of R162. -/

namespace Sys2Proof.Machine

/-- Thread t's vn. -/
def Regs.getV (r : Regs) (n t : Nat) : Word := FMap.getD r.v 0#32 (n * 64 + t)
/-- Thread t's on. -/
def Regs.getO (r : Regs) (n t : Nat) : Word := FMap.getD r.o 0#32 (n * 64 + t)
/-- Thread t's latch: l0 for n = 0, l1 for n = 1. -/
def Regs.getL (r : Regs) (n t : Nat) : Word := FMap.getD r.l 0#32 (n * 64 + t)
/-- Write thread t's vn. -/
def Regs.setV (r : Regs) (n t : Nat) (x : Word) : Regs := { r with v := FMap.setD r.v 0#32 (n * 64 + t) x }
/-- Write thread t's on. -/
def Regs.setO (r : Regs) (n t : Nat) (x : Word) : Regs := { r with o := FMap.setD r.o 0#32 (n * 64 + t) x }
/-- Write one of thread t's latches. -/
def Regs.setL (r : Regs) (n t : Nat) (x : Word) : Regs := { r with l := FMap.setD r.l 0#32 (n * 64 + t) x }

/-- What a specifier names (R161). -/
inductive Spec where
  | v (n : Nat)
  | o (n : Nat)
  | l (n : Nat)
  | zero
  | tid
  | xi
  | bad
  deriving DecidableEq, Repr

/-- The meaning of a specifier byte (R161). -/
def specOf (b : BitVec 8) : Spec :=
  let n := b.toNat
  if n < 0x80 then .v n
  else if n < 0x88 then .o (n - 0x80)
  else if n = 0x90 then .l 0
  else if n = 0x91 then .l 1
  else if n = 0xF0 then .zero
  else if n = 0xF1 then .tid
  else if n = 0xFF then .xi
  else .bad

/-- A valid 32-bit source; `xi` says whether the extension immediate is accepted (R161, R305). -/
def src32Ok (allot : Nat) (xi : Bool) (b : BitVec 8) : Bool :=
  match specOf b with
  | .v n => decide (n < allot)
  | .o _ => true
  | .l _ => true
  | .zero => true
  | .tid => true
  | .xi => xi
  | .bad => false

/-- A valid 32-bit destination (R161). -/
def dst32Ok (allot : Nat) (b : BitVec 8) : Bool :=
  match specOf b with
  | .v n => decide (n < allot)
  | .o _ => true
  | .zero => true
  | _ => false

/-- A valid 64-bit source (R163). -/
def src64Ok (allot : Nat) (xi : Bool) (b : BitVec 8) : Bool :=
  match specOf b with
  | .v n => decide (n % 2 = 0 ∧ n + 1 < allot)
  | .o n => decide (n % 2 = 0)
  | .l n => decide (n = 0)
  | .zero => true
  | .tid => true
  | .xi => xi
  | .bad => false

/-- A valid 64-bit destination (R163). -/
def dst64Ok (allot : Nat) (b : BitVec 8) : Bool :=
  match specOf b with
  | .v n => decide (n % 2 = 0 ∧ n + 1 < allot)
  | .o n => decide (n % 2 = 0)
  | .zero => true
  | _ => false

/-- A valid run of `k` registers of the main file, aligned to `al`, or of the operand file where it
fits (R377: quad; R407: octet). `zero` names a quad. -/
def runOk (allot k al : Nat) (operandFile zeroOk : Bool) (b : BitVec 8) : Bool :=
  match specOf b with
  | .v n => decide (n % al = 0 ∧ n + k ≤ allot)
  | .o n => operandFile && decide (n % al = 0 ∧ n + k ≤ 8)
  | .zero => zeroOk
  | _ => false

/-- A valid quad (R377). -/
def quadOk (allot : Nat) (b : BitVec 8) : Bool := runOk allot 4 4 true true b
/-- A valid octet (R407, R451). -/
def octetOk (allot : Nat) (b : BitVec 8) : Bool := runOk allot 8 8 true false b
/-- A valid block of 12 (R407). -/
def block12Ok (allot : Nat) (b : BitVec 8) : Bool := runOk allot 12 4 false false b

/-- Thread t's 32-bit source (R161). -/
def Regs.read32 (r : Regs) (xi : BitVec 64) (t : Nat) (b : BitVec 8) : Word :=
  match specOf b with
  | .v n => r.getV n t
  | .o n => r.getO n t
  | .l n => r.getL n t
  | .zero => 0#32
  | .tid => BitVec.ofNat 32 t
  | .xi => lo32 xi
  | .bad => 0#32

/-- Thread t's 64-bit source (R163). -/
def Regs.read64 (r : Regs) (xi : BitVec 64) (t : Nat) (b : BitVec 8) : DWord :=
  match specOf b with
  | .v n => pairOf (r.getV (n + 1) t) (r.getV n t)
  | .o n => pairOf (r.getO (n + 1) t) (r.getO n t)
  | .l _ => pairOf (r.getL 1 t) (r.getL 0 t)
  | .zero => 0#64
  | .tid => BitVec.ofNat 64 t
  | .xi => xi
  | .bad => 0#64

/-- Thread t's word k of a run of registers (R377, R407). -/
def Regs.readRun (r : Regs) (t : Nat) (b : BitVec 8) (k : Nat) : Word :=
  match specOf b with
  | .v n => r.getV (n + k) t
  | .o n => r.getO (n + k) t
  | _ => 0#32

/-- Write thread t's 32-bit destination; `zero` discards (R161). -/
def Regs.write32 (r : Regs) (t : Nat) (b : BitVec 8) (x : Word) : Regs :=
  match specOf b with
  | .v n => r.setV n t x
  | .o n => r.setO n t x
  | _ => r

/-- Write thread t's 64-bit destination; `zero` discards (R163). -/
def Regs.write64 (r : Regs) (t : Nat) (b : BitVec 8) (x : DWord) : Regs :=
  match specOf b with
  | .v n => (r.setV n t (lo32 x)).setV (n + 1) t (hi32 x)
  | .o n => (r.setO n t (lo32 x)).setO (n + 1) t (hi32 x)
  | _ => r

/-- Write thread t's word k of a run (R377). -/
def Regs.writeRun (r : Regs) (t : Nat) (b : BitVec 8) (k : Nat) (x : Word) : Regs :=
  match specOf b with
  | .v n => r.setV (n + k) t x
  | .o n => r.setO (n + k) t x
  | _ => r

/-- Write a list of words to a run, from word k on. -/
def Regs.writeRunList (r : Regs) (t : Nat) (b : BitVec 8) : Nat → List Word → Regs
  | _, [] => r
  | k, x :: l => Regs.writeRunList (r.writeRun t b k x) t b (k + 1) l

/-- The latch update of a 32-bit result (R162). -/
def Regs.latch32 (r : Regs) (t : Nat) (x : Word) : Regs := (r.setL 1 t (r.getL 0 t)).setL 0 t x
/-- The latch update of a 64-bit result (R162). -/
def Regs.latch64 (r : Regs) (t : Nat) (x : DWord) : Regs := (r.setL 0 t (lo32 x)).setL 1 t (hi32 x)

/-- A source of either width as a 64-bit image; a 32-bit one is zero-extended. -/
def Regs.readImg (r : Regs) (xi : BitVec 64) (wide : Bool) (t : Nat) (b : BitVec 8) : DWord :=
  if wide then r.read64 xi t b else (r.read32 xi t b).setWidth 64

/-- A latching write of either width (R162). -/
def Regs.writeLatch (r : Regs) (wide : Bool) (t : Nat) (b : BitVec 8) (x : DWord) : Regs :=
  if wide then (r.latch64 t x).write64 t b x else (r.latch32 t (lo32 x)).write32 t b (lo32 x)

/-- The specifier reaches v64 to v127, as a run of `k` registers (R171, R172). -/
def touchesAcc (k : Nat) (b : BitVec 8) : Bool :=
  match specOf b with
  | .v n => decide (64 ≤ n + k - 1)
  | _ => false

end Sys2Proof.Machine
end

