-- ==== Sys2Proof/Machine/Ops.lean ====
section
/-! DEFINITION. The named operations that meanings share: state access, the context of an issuing
split, retiring and waiting, splits and their merging (R332 to R338), barriers (R396), aborting
lanes (R225), taking an exception (R182, R222, R484), halting (R74, R185, R468) and the end of groups. -/

namespace Sys2Proof.Machine

/-! Numbering. -/

/-- The core of a group slot. -/
def coreOf (gid : Nat) : Nat := gid / 64
/-- The slot s of a group on its core (R170). -/
def slotOf (gid : Nat) : Nat := gid % 64
/-- The handler context that serves a group: its core and quadrant. -/
def hidOf (gid : Nat) : Nat := coreOf gid * 4 + slotOf gid / 16
/-- The package cluster of a core (R13). -/
def clusterOf (core : Nat) : Nat := core / 9
/-- The die of a core (R13). -/
def dieOf (core : Nat) : Nat := core / 144

/-! State access. -/

def State.core (s : State) (k : Nat) : Core := FMap.getD s.cores Core.empty k
def State.setCore (s : State) (k : Nat) (c : Core) : State := { s with cores := FMap.setD s.cores Core.empty k c }
def State.modCore (s : State) (k : Nat) (f : Core → Core) : State := s.setCore k (f (s.core k))
def State.vf (s : State) (n : Nat) : Vf := FMap.getD s.vfs Vf.reset n
def State.setVf (s : State) (n : Nat) (v : Vf) : State := { s with vfs := FMap.setD s.vfs Vf.reset n v }
def State.modVf (s : State) (n : Nat) (f : Vf → Vf) : State := s.setVf n (f (s.vf n))
def State.part (s : State) (p : Nat) : Partition := FMap.getD s.parts Partition.reset p
def State.setPart (s : State) (p : Nat) (x : Partition) : State := { s with parts := FMap.setD s.parts Partition.reset p x }
def State.modPart (s : State) (p : Nat) (f : Partition → Partition) : State := s.setPart p (f (s.part p))
def State.hart (s : State) (h : Nat) : Hart := FMap.getD s.harts Hart.reset h
def State.setHart (s : State) (h : Nat) (x : Hart) : State := { s with harts := FMap.setD s.harts Hart.reset h x }
def State.modHart (s : State) (h : Nat) (f : Hart → Hart) : State := s.setHart h (f (s.hart h))
def State.setGroup (s : State) (gid : Nat) (g : Group) : State := { s with groups := FMap.insert s.groups gid g }
def State.modGroup (s : State) (gid : Nat) (f : Group → Group) : State :=
  match FMap.find s.groups gid with
  | some g => s.setGroup gid (f g)
  | none => s
def State.modBlock (s : State) (b : Nat) (f : Block → Block) : State :=
  match FMap.find s.blocks b with
  | some x => { s with blocks := FMap.insert s.blocks b (f x) }
  | none => s
def State.modGrid (s : State) (k : Nat) (f : Grid → Grid) : State :=
  match FMap.find s.grids k with
  | some x => { s with grids := FMap.insert s.grids k (f x) }
  | none => s

/-- The block of a group. -/
def State.blockOf (s : State) (gid : Nat) : Option Block :=
  match FMap.find s.groups gid with
  | some g => FMap.find s.blocks g.ident.block
  | none => none

/-- The grid of a group. -/
def State.gridOf (s : State) (gid : Nat) : Option Grid :=
  match s.blockOf gid with
  | some b => FMap.find s.grids b.grid
  | none => none

/-- The VF of a group (R83). -/
def State.vfOf (s : State) (gid : Nat) : Nat :=
  match s.gridOf gid with
  | some g => g.vf
  | none => 0

/-- The partition of a group (R82). -/
def State.partOf (s : State) (gid : Nat) : Nat := (s.vf (s.vfOf gid)).part

/-- Add an event that an agent now has to take (log 3). -/
def State.schedule (s : State) (i : Instr) : State :=
  { s with turn := { s.turn with agenda := s.turn.agenda ++ [i] } }

/-- Send a message out of the package (log 17). -/
def State.send (s : State) (m : OutMsg) : State :=
  { s with turn := { s.turn with outbox := s.turn.outbox ++ [m] } }

/-- A fresh unpredictable value and the state after drawing it (R7, log 1). -/
def State.freeWord (s : State) : BitVec 64 × State :=
  (Config.freeWord s.turn.freeCount, { s with turn := { s.turn with freeCount := s.turn.freeCount + 1 } })

/-- A fresh identifier of the model. -/
def State.fresh (s : State) : Nat × State :=
  (s.turn.nextId, { s with turn := { s.turn with nextId := s.turn.nextId + 1 } })

/-- The message of an MSI-X vector (R54). On the host chiplet it is a naturally aligned write of four bytes, which
the package's own memory takes where the address lies there. -/
def State.msixMessage (s : State) (presented : Nat) (vf : Option Nat) (vec : Nat) (m : MsixVec) : State :=
  let s := s.send (.msix vf vec m.addr m.data)
  if presented = 0 ∧ m.addr < 2 ^ 51 ∧ m.addr / 2 ^ 42 = s.boot.pkg ∧ m.addr % 2 ^ 42 < 3 * 2 ^ 40 ∧ m.addr % 4 = 0 then
    s.schedule (.homeRequest none false 1 m.addr (bytesLE 4 m.data) false)
  else s

/-- Signal an MSI-X vector of a VF (R54, R55): a masked vector sets its pending bit. -/
def State.signalMsix (s : State) (vf vec : Nat) : State :=
  let v := s.vf vf
  let m := FMap.getD v.msix MsixVec.reset vec
  if m.ctrl % 2 = 1 then s.setVf vf { v with msixPend := v.msixPend ||| 2 ^ vec }
  else s.msixMessage v.presented (some vf) vec m

/-- A PCIe port is an endpoint (R36): its bit of the image header's port roles is clear. -/
def State.endpoint (s : State) (port : Nat) : Bool := !bitAt s.boot.portRoot port

/-- Where the physical function is presented (R54): at the host chiplet, 0, where neither port is an endpoint;
else as management asks: 0, or port k as k + 1. -/
def State.pfPresentation (s : State) : Nat := if !s.endpoint 0 && !s.endpoint 1 then 0 else s.boot.pfPresented

/-- Signal an MSI-X vector of the physical function (R54, R80). -/
def State.signalPf (s : State) (vec : Nat) : State :=
  let m := FMap.getD s.boot.pfMsix MsixVec.reset vec
  if m.ctrl % 2 = 1 then { s with boot := { s.boot with pfPend := s.boot.pfPend ||| 2 ^ vec } }
  else s.msixMessage s.pfPresentation none vec m

/-- Drop every sector of a core's L1 (R191): what answers are still to bring for earlier operations is not kept (R253). -/
def State.dropL1 (s : State) (core : Nat) : State := s.modCore core (fun c => { c with l1 := [], l1From := s.turn.nextId })

/-! The context of an issuing split. -/

/-- What an issuing instruction sees of its split or handler. -/
structure Ctx where
  who : Issuer
  gid : Nat
  entry : Nat
  single : Bool
  regs : Regs
  seed : Word
  allot : Nat
  split : Split
  /-- the active mask of the split -/
  mask : BitVec 64
  /-- the executing threads: those of the mask, or of those that RETT re-executes (R467), that the
  guard enables (R314) -/
  exec : BitVec 64
  /-- the group has grid operations that have not completed (R172) -/
  accBusy : Bool
  /-- the group's MODE, where `regs` holds another one under which the instruction issued (R313) -/
  keepMode : Option Word
  deriving DecidableEq, Repr

def Ctx.pc (c : Ctx) : BitVec 64 := c.split.pc
def Ctx.xi (c : Ctx) : BitVec 64 := c.split.pfx.xi
def Ctx.extv (c : Ctx) : BitVec 24 := c.split.pfx.extv
def Ctx.etype (c : Ctx) : Nat := modeEtype c.regs.mode
/-- The lowest thread of the active mask (R160), or of the threads that RETT re-executes (R382). -/
def Ctx.lane (c : Ctx) : Nat := lowest (c.split.retry.getD c.mask)

/-- The threads of a mask that the MODE guard enables (R314). -/
def guardEnabled (r : Regs) (mask : BitVec 64) : BitVec 64 :=
  if modeGen r.mode then
    maskOf ((threadsOf mask).filter (fun t =>
      (r.read32 0#64 t (BitVec.ofNat 8 (modeGuard r.mode)) != 0#32) != modeGsense r.mode))
  else mask

/-- The context of a group's split. An instruction that has issued keeps its MODE and its executing threads (R313, R382). -/
def groupCtx (g : Group) (gid e : Nat) (sp : Split) : Ctx :=
  { who := .split gid e, gid := gid, entry := e, single := false, seed := g.srseed, allot := g.ident.allot, split := sp, mask := sp.mask,
    regs := { g.regs with mode := (sp.issued.map (fun i => i.mode)).getD g.regs.mode },
    exec := (sp.issued.map (fun i => i.exec &&& sp.mask)).getD (guardEnabled g.regs (sp.retry.getD sp.mask)),
    accBusy := !g.gridOps.isEmpty, keepMode := sp.issued.map (fun _ => g.regs.mode) }

/-- The context of a handler: one thread, an allotment of 32 (R184); entry 16 is no table entry. -/
def handlerCtx (h : Handler) (hid : Nat) (g : Group) : Ctx :=
  { who := .handler hid, gid := h.gid, entry := 16, single := true, regs := h.regs, seed := g.srseed,
    allot := 32, split := ⟨1#64, h.pc, none, h.pfx, h.wait, none, false, 0, none⟩, mask := 1#64,
    exec := guardEnabled h.regs 1#64, accBusy := false, keepMode := none }

/-- The context of an issuer. -/
def State.ctxOf (s : State) (who : Option Issuer) : Option Ctx :=
  match who with
  | some (.split gid e) =>
    match FMap.find s.groups gid with
    | some g =>
      match FMap.find g.table e with
      | some sp => some (groupCtx g gid e sp)
      | none => none
    | none => none
  | some (.handler hid) =>
    match FMap.find s.handlers hid with
    | some h =>
      match FMap.find s.groups h.gid with
      | some g => some (handlerCtx h hid g)
      | none => none
    | none => none
  | _ => none

/-- The issuer of a group's entry: entry 16 stands for the handler that serves it. -/
def issuerAt (gid e : Nat) : Issuer := if e = 16 then .handler (hidOf gid) else .split gid e

/-- The context of the split or handler that issues. -/
def State.ctx (s : State) : Option Ctx := s.ctxOf s.turn.cur

/-- Write a context back: registers, seed, split or handler. -/
def State.putCtx (s : State) (c : Ctx) : State :=
  match c.who with
  | .split gid e =>
    s.modGroup gid (fun g => { g with regs := { c.regs with mode := c.keepMode.getD c.regs.mode }, srseed := c.seed, table := FMap.insert g.table e c.split })
  | .handler hid =>
    let s := s.modGroup c.gid (fun g => { g with srseed := c.seed })
    match FMap.find s.handlers hid with
    | some h => { s with handlers := FMap.insert s.handlers hid { h with regs := c.regs, pc := c.split.pc, pfx := c.split.pfx, wait := c.split.wait } }
    | none => s
  | .hart _ => s
  | .unit _ => s

/-- The fault that an instruction raises. -/
structure FaultReq where
  code : Nat
  mask : BitVec 64
  addr : BitVec 64
  stage2 : Bool
  physical : Bool
  pathFail : Bool
  /-- a thread of the mask met poison (R211) -/
  poison : Bool
  trapKind : Bool
  fetch : Bool
  user : Nat
  /-- lanes in transactions that abort at this instruction whatever the fault (R220 to R222, R235) -/
  aborts : List LaneAbort
  deriving DecidableEq, Repr

/-- A fault with no address (R459). -/
def FaultReq.plain (code : Nat) (mask : BitVec 64) : FaultReq :=
  ⟨code, mask, 0#64, false, false, false, false, false, false, 0, []⟩

/-! Fault codes (R458). -/
def fIllegalOp : Nat := 0x01
def fIllegalReg : Nat := 0x02
def fMisaligned : Nat := 0x03
def fTranslation : Nat := 0x04
def fPermission : Nat := 0x05
def fUncorrectable : Nat := 0x06
def fNonuniform : Nat := 0x07
def fStackLimit : Nat := 0x08
def fSplitOverflow : Nat := 0x09
def fGridState : Nat := 0x0A
def fTensorId : Nat := 0x0B
def fWeirDenied : Nat := 0x0C
def fWeirInvalid : Nat := 0x0D
def fScope : Nat := 0x0E
def fUserTrap : Nat := 0x0F
def fBreakpoint : Nat := 0x10
def fDoubleFault : Nat := 0x11
def fPriv : Nat := 0x12
def fLinkPartner : Nat := 0x13
def fPoolRange : Nat := 0x14

/-- How the issue of an instruction ends. -/
inductive Done where
  /-- it has its effect and the split goes on at `npc` -/
  | retire (s : State) (c : Ctx) (npc : BitVec 64)
  /-- it waits and is issued again when the wait ends -/
  | stay (s : State) (c : Ctx) (w : Wait)
  /-- it raises a fault; `c` holds what the unfaulted threads have done -/
  | fault (s : State) (c : Ctx) (r : FaultReq)
  /-- it has changed the group's splits itself -/
  | next (s : State)
  deriving DecidableEq, Repr

/-- The ordinary end: the split goes on at the next word. -/
def Done.seq (s : State) (c : Ctx) : Done := .retire s c (c.split.pc + 4#64)

/-- A fault of steps 1 to 4 of R319: every active thread is in the mask. -/
def Done.early (s : State) (c : Ctx) (code : Nat) : Done := .fault s c (.plain code c.split.mask)

/-! Splits. -/

/-- The first free table entry after entry `e`, wrapping round (R336). -/
def freeEntryFrom (t : FMap Split) : Nat → Nat → Option Nat
  | 0, _ => none
  | n + 1, e => if (FMap.find t (e % 16)).isNone then some (e % 16) else freeEntryFrom t n (e + 1)

/-- Place a new split (R336): the first free entry after `e`, else the stack. -/
def Group.placeSplit (g : Group) (e : Nat) (sp : Split) : Group :=
  let sp := { sp with born := g.births }
  let g := { g with births := g.births + 1 }
  match freeEntryFrom g.table 15 (e + 1) with
  | some k => { g with table := FMap.insert g.table k sp }
  | none => { g with stack := sp :: g.stack }

/-- Refill free table entries from the top of the stack (R142). -/
def refillFrom : Nat → Group → Group
  | 0, g => g
  | n + 1, g =>
    match g.stack with
    | [] => g
    | sp :: r =>
      match freeEntryFrom g.table 16 0 with
      | some k => refillFrom n { g with table := FMap.insert g.table k sp, stack := r }
      | none => g

def Group.refill (g : Group) : Group := refillFrom 16 g

/-- The chain of a record, from the record itself outward (R332). -/
def chainFrom (parents : FMap (Option Nat)) : Nat → Option Nat → List Nat
  | 0, _ => []
  | _, none => []
  | n + 1, some r => r :: chainFrom parents n ((FMap.find parents r).getD none)

def Group.chain (g : Group) (r : Option Nat) : List Nat := chainFrom g.parents (g.parents.length + 1) r

/-- The live splits: table entries in order, then the stack. -/
def Group.splits (g : Group) : List Split := g.table.map (fun p => p.2) ++ g.stack

/-- The split waits at a JOIN at address p. -/
def Split.atJoin (sp : Split) (p : BitVec 64) : Bool := decide (sp.wait = .join) && decide (sp.pc = p)

/-- The outermost record of the split's chain that is complete at its JOIN (R337). -/
def Group.joinRecord (g : Group) (sp : Split) : Option Nat :=
  (g.chain sp.drec).reverse.find? (fun dv =>
    g.splits.all (fun x => !(g.chain x.drec).contains dv || x.atJoin sp.pc))

/-- Merge every split whose chain contains dv (R337). -/
def Group.mergeAt (g : Group) (dv : Nat) (p : BitVec 64) : Group :=
  let inDv := fun (x : Split) => (g.chain x.drec).contains dv
  let mask := (g.splits.filter inDv).foldl (fun m x => m ||| x.mask) 0#64
  let m : Split := ⟨mask, p + 4#64, (FMap.find g.parents dv).getD none, .clear, .none, none, false, g.births, none⟩
  let merged := (g.table.filter (fun q => inDv q.2)).map (fun q => q.1)
  let table := g.table.filter (fun q => !inDv q.2)
  let stack := g.stack.filter (fun x => !inDv x)
  let g := match merged with
    | e :: _ => { g with table := FMap.insert table e m, stack := stack }
    | [] => { g with table := table, stack := m :: stack }
  { g with births := g.births + 1 }.refill

/-- Re-evaluate JOIN for the splits that wait (R337, R338). -/
def joinRounds : Nat → Group → Group
  | 0, g => g
  | n + 1, g =>
    match (g.splits.filter (fun x => decide (x.wait = .join))).find? (fun x => (g.joinRecord x).isSome) with
    | some x =>
      match g.joinRecord x with
      | some dv => joinRounds n (g.mergeAt dv x.pc)
      | none => g
    | none => g

def Group.rejoin (g : Group) : Group := joinRounds g.liveSplits g.refill

/-- A record number that no split and no record uses. -/
def Group.newRecord (g : Group) : Nat :=
  ((List.range 128).find? (fun r => (FMap.find g.parents r).isNone)).getD g.parents.length

/-- Forget the records that no live split's chain holds. -/
def Group.pruneRecords (g : Group) : Group :=
  { g with parents := FMap.filterKV (fun r _ => g.splits.any (fun x => (g.chain x.drec).contains r)) g.parents }

/-! Transactions of lanes. -/

def Group.lane (g : Group) (t : Nat) : TxLane := FMap.getD g.tx TxLane.empty t
def Group.setLane (g : Group) (t : Nat) (x : TxLane) : Group := { g with tx := FMap.setD g.tx TxLane.empty t x }

/-- The lane has an open transaction (R220), which an irrevocable lane has not (R227). -/
def TxLane.isOpen (x : TxLane) : Bool := decide (x.depth ≠ 0) && !x.irrev

/-- The lanes of a mask with an open transaction. -/
def Group.openLanes (g : Group) (m : BitVec 64) : BitVec 64 :=
  maskOf ((threadsOf m).filter (fun t => (g.lane t).isOpen))

/-- Abort codes (R236). -/
def xConflict : Nat := 1
def xCapacity : Nat := 2
def xRemote : Nat := 3
def xIllegal : Nat := 4
def xPreempt : Nat := 5
def xNest : Nat := 6
def xDrop : Nat := 7
def xFault : Nat := 8
def xFallback : Nat := 9
def xInterrupt : Nat := 10

/-- A lane after an abort (R223, R225, R236). -/
def TxLane.abort (x : TxLane) (code detail : Nat) : TxLane :=
  { x with depth := 0, irrev := false, code := code, detail := detail,
           retries := if code = xPreempt ∨ code = xFallback then x.retries else min 255 (x.retries + 1),
           home := none, rlines := [], rlog := [], wbuf := [], torn := false, res := 0 }

/-- The lanes of a mask, aborted alike. -/
def abortsOf (m : BitVec 64) (code detail : Nat) : List LaneAbort := (threadsOf m).map (fun t => ⟨t, code, detail⟩)

/-- The threads of a list of aborts. -/
def abortMask (l : List LaneAbort) : BitVec 64 := maskOf (l.map (fun a => a.thread))

/-- Write the status of each lane of a list (R236). -/
def Group.abortStatus (g : Group) (l : List LaneAbort) : Group :=
  l.foldl (fun g a => g.setLane a.thread ((g.lane a.thread).abort a.code a.detail)) g

/-- The splits that a split's aborted lanes form: one for each address of an outermost TXO (R225). -/
def Group.retrySplits (g : Group) (sp : Split) (m : BitVec 64) : List Split :=
  let ts := threadsOf (sp.mask &&& m)
  let pcs := (ts.map (fun t => (g.lane t).txoPc)).eraseDups
  pcs.map (fun p => ⟨maskOf (ts.filter (fun t => decide ((g.lane t).txoPc = p))), p, sp.drec, .clear, .none, none, false, 0, none⟩)

/-- The reservations of R219: one split entry for each TXO with an open lane that has not used it. -/
def Group.reserved (g : Group) : Nat := ((g.tx.filter (fun q => q.2.isOpen && decide (q.2.res ≠ 0))).map (fun q => q.2.res)).eraseDups.length

/-- The entries that the group may still fill: 16 and the stack's depth, without those reserved (R178, R219). -/
def Group.splitRoom (g : Group) : Nat := 16 + g.ident.depth - (g.table.length + g.stack.length) - g.reserved

/-- The lanes of a mask use up the entry that their TXO reserved (R225). -/
def Group.useReserved (g : Group) (m : BitVec 64) (used : List Nat) : Group :=
  { g with tx := FMap.mapVals (fun t (x : TxLane) => if !m.getLsbD t && used.contains x.res then { x with res := 0 } else x) g.tx }

/-- The lanes of a mask leave their splits and return to their outermost TXO (R225). A split that finds every entry taken
goes on the stack all the same (log 74). -/
def Group.eject (g : Group) (m : BitVec 64) : Group :=
  let news := (g.splits.map (fun sp => g.retrySplits sp m)).flatten
  let keep := fun (sp : Split) => { sp with mask := sp.mask &&& ~~~m }
  let table := (g.table.map (fun q => (q.1, keep q.2))).filter (fun q => decide (q.2.mask ≠ 0#64))
  let stack := (g.stack.map keep).filter (fun sp => decide (sp.mask ≠ 0#64))
  (news.foldl (fun (g : Group) (sp : Split) => g.placeSplit g.lastSplit sp) { g with table := table, stack := stack }).rejoin

/-- A ticket without the lanes of a mask. -/
def trimTicket (gid : Nat) (m : BitVec 64) (t : Ticket) : Option Ticket :=
  match t with
  | .group k e lanes => if k = gid then (if lanes &&& ~~~m = 0#64 then none else some (.group k e (lanes &&& ~~~m))) else some t
  | .hart _ => some t

/-- The table entries whose ticket loses every lane of it. -/
def deadTickets (gid : Nat) (m : BitVec 64) (l : List Ticket) : List Nat :=
  l.filterMap (fun t => match t with
    | .group k e lanes => if k = gid ∧ lanes &&& ~~~m = 0#64 then some e else none
    | .hart _ => none)

/-- Splits whose ticket is gone issue their TXC again, for the lanes that are left. -/
def Group.clearTickets (g : Group) (l : List Nat) : Group :=
  { g with table := FMap.mapVals (fun e sp => if l.contains e ∧ sp.wait = .ticket then { sp with wait := .none } else sp) g.table }

/-- The lanes of a mask leave their splits, or will do so when the handler of the frozen group returns (R183, R225). -/
def Group.leave (g : Group) (m : BitVec 64) : Group := if g.status = .handler then { g with ejectDue := g.ejectDue ||| m } else g.eject m

/-- The lanes that aborted while the group was frozen leave their splits. -/
def Group.ejectLate (g : Group) : Group := if g.ejectDue = 0#64 then g else { g.eject g.ejectDue with ejectDue := 0#64 }

/-- The table entries whose every lane is in a mask. -/
def Group.emptied (g : Group) (m : BitVec 64) : List Nat := (g.table.filter (fun q => decide (q.2.mask &&& ~~~m = 0#64))).map (fun q => q.1)

/-- Forget the denials of the askers of a test. -/
def State.forgetDenials (s : State) (test : Option Issuer → Bool) : State :=
  if s.ms.denials.isEmpty then s else { s with ms := { s.ms with denials := s.ms.denials.filter (fun d => !test d.asker) } }

/-- Forget a hypervisor's denials that wait for a group's table entries (R102). -/
def State.forgetEntries (s : State) (gid : Nat) (es : List Nat) : State := s.forgetDenials (fun a => es.any (fun e => decide (a = some (.split gid e))))

/-- Abort open transactions of a group's lanes: the lanes leave for their TXO (R225). -/
def State.abortLanes (s : State) (gid : Nat) (l : List LaneAbort) : State :=
  if l.isEmpty then s
  else
    let m := abortMask l
    let dead := deadTickets gid m s.tickets
    let s := s.forgetEntries gid (((FMap.find s.groups gid).map (fun g => g.emptied m)).getD [])
    let s := s.modGroup gid (fun g =>
      let used := ((l.map (fun a => (g.lane a.thread).res)).filter (fun k => decide (k ≠ 0))).eraseDups
      (((g.abortStatus l).useReserved m used).clearTickets dead).leave m)
    { s with tickets := s.tickets.filterMap (trimTicket gid m) }

/-- Release a partition's fallback lock (R226, R227): the TXOs that wait for it run again. -/
def State.releaseLock (s : State) (p : Nat) : State :=
  let s := s.modPart p (fun x => { x with lockHolder := none })
  let clear := fun (sp : Split) => if sp.wait = .txLock then { sp with wait := .none } else sp
  let groups := FMap.mapVals (fun gid g =>
    if s.partOf gid = p then { g with table := FMap.mapVals (fun _ sp => clear sp) g.table } else g) s.groups
  ({ s with groups := groups }).schedule (.fallbackLockGrant p)

/-- Release the lock if a lane of the mask of this group holds it (R227). -/
def State.releaseLockOf (s : State) (gid : Nat) (m : BitVec 64) : State :=
  let p := s.partOf gid
  match (s.part p).lockHolder with
  | some (k, t) =>
    if k = gid ∧ m.getLsbD t then
      (s.modGroup gid (fun g => g.setLane t { g.lane t with depth := 0, irrev := false, retries := 0 })).releaseLock p
    else s
  | none => s

/-- The group number of a lock's holder that is gone. -/
def lockGhost : Nat := 2 ^ 50

/-- What a group has written in other packages without a release. -/
def Links.owed (l : Links) : List Nat := (l.written ++ l.flush.map (fun q => q.1)).eraseDups

/-- The lock's holder is gone: the lock is released once what it has written in other packages has been performed there
(R227, R259, R267). -/
def State.releaseLockAfter (s : State) (p vf : Nat) (owed : List Nat) : State :=
  if owed.isEmpty then s.releaseLock p
  else (s.modPart p (fun x => { x with lockHolder := some (lockGhost, 0), lockOwed := owed, lockVf := vf })).schedule (.fallbackLockGrant p)

/-- The key of a saved group. -/
def savedKey (vf gid : Nat) : Nat := vf * 2 ^ 16 + gid

/-- How the lock names a holder that is switched out: its slot may serve another VF until then (R228). -/
def savedHolder (vf gid : Nat) : Nat := 2 ^ 40 + savedKey vf gid

/-- A partition's lock names its holder anew. -/
def State.renameHolder (s : State) (p old new : Nat) : State :=
  s.modPart p (fun x => { x with lockHolder := x.lockHolder.map (fun q => if q.1 = old then (new, q.2) else q) })

/-- The lock of a partition is released if a switched-out group that a test names holds it (R227, R238). -/
def State.releaseSavedLock (s : State) (p vf : Nat) (test : Nat → Bool) : State :=
  match (s.part p).lockHolder with
  | some (k, _) => if test k then s.releaseLockAfter p vf (((FMap.find s.savedArea (k - 2 ^ 40)).map (fun g => g.links.owed)).getD []) else s
  | none => s

/-- The lock is released if a group that halts holds it (R227, R267). -/
def State.releaseLockHalted (s : State) (gid : Nat) : State :=
  match FMap.find s.groups gid, (s.part (s.partOf gid)).lockHolder with
  | some g, some (k, _) => if k = gid then s.releaseLockAfter (s.partOf gid) (s.vfOf gid) g.links.owed else s
  | _, _ => s

/-! Flashback regions. -/

/-- Close an open flashback region (R154, R464). -/
def Group.closeRegion (g : Group) (cause : Nat) : Group :=
  if g.fp.isOpen then { g with fp := { g.fp with isOpen := false, cause := cause } } else g

/-- An instruction that closes its group's flashback region (R154) does so unless it faults: a fault leaves no effect (R319). -/
def closing (cause : Nat) (body : State → Ctx → Done) (s : State) (c : Ctx) : Done :=
  match body (s.modGroup c.gid (fun g => g.closeRegion cause)) c with
  | .fault s' c' r => match FMap.find s.groups c.gid with
    | some g => .fault (s'.modGroup c.gid (fun x => { x with fp := g.fp })) c' r
    | none => .fault s' c' r
  | d => d

/-! Barriers (R396). -/

/-- The group has arrived: every live split of it waits at this barrier. -/
def Group.arrivedBar (g : Group) (id : Nat) : Bool :=
  !g.splits.isEmpty && g.splits.all (fun sp => match sp.wait with
    | .bar i _ _ => decide (i = id)
    | _ => false)

def Group.arrivedBarg (g : Group) (id : Nat) : Bool :=
  !g.splits.isEmpty && g.splits.all (fun sp => decide (sp.wait = .barg id))

/-- The group takes part in a phase with this role mask (R395). -/
def Group.inRoles (g : Group) (mask : Nat) : Bool := decide (mask = 0) || bitAt mask g.ident.role

/-- Every split that waits at a barrier goes on; a frozen group's keep their place until it runs again (R183). -/
def Group.releaseWait (g : Group) (test : Wait → Bool) : Group :=
  let go := fun (sp : Split) =>
    if test sp.wait then
      (if g.status = .running then { sp with wait := .none, pc := sp.pc + 4#64, pfx := .clear, retry := none, poisonAct := false, issued := none }
      else { sp with wait := .answered 0 })
    else sp
  { g with table := FMap.mapVals (fun _ sp => go sp) g.table, stack := g.stack.map go }

def isBar (id : Nat) (w : Wait) : Bool :=
  match w with
  | .bar i _ _ => decide (i = id)
  | _ => false

def isClusterBar (id : Nat) (w : Wait) : Bool :=
  match w with
  | .bar i _ c => decide (i = id) && c
  | _ => false

/-- Complete the phase of BAR `id` of a block if every participating group has arrived. -/
def State.evalBar (s : State) (b id : Nat) : State :=
  match FMap.find s.blocks b with
  | none => s
  | some blk =>
    match FMap.find blk.barMask id with
    | none => s
    | some mask =>
      let gs := blk.gids.filterMap (fun k => (FMap.find s.groups k).map (fun g => (k, g)))
      let parts := gs.filter (fun q => q.2.inRoles mask)
      if parts.all (fun q => q.2.splits.isEmpty || q.2.arrivedBar id) && parts.any (fun q => q.2.arrivedBar id) then
        let p := (FMap.getD blk.barP 0 id + 1) % 2 ^ 32
        let drop := parts.any (fun q => q.2.splits.any (fun sp => isClusterBar id sp.wait))
        let s := s.modBlock b (fun x => { x with barP := FMap.setD x.barP 0 id p, barMask := FMap.erase x.barMask id })
        let s := (parts.filter (fun q => q.2.arrivedBar id)).foldl (fun s q =>
          s.modGroup q.1 (fun g => { g.releaseWait (isBar id) with barG := FMap.setD g.barG 0 id p })) s
        if drop then s.dropL1 blk.core else s
      else s

/-- The blocks of a gang (R122). -/
def State.gangBlocks (s : State) (grid gangIx : Nat) : List Block :=
  match FMap.find s.grids grid with
  | none => []
  | some gr => (s.blocks.map (fun q => q.2)).filter (fun b => decide (b.grid = grid ∧ b.linear / gr.hdr.gang = gangIx))

/-- Complete the phase of BARG `id` of a gang if every group has arrived; each core drops its L1. -/
def State.evalBarg (s : State) (grid gangIx id : Nat) : State :=
  match FMap.find s.grids grid with
  | none => s
  | some gr =>
    let blks := s.gangBlocks grid gangIx
    let gs := (blks.map (fun b => b.gids)).flatten.filterMap (fun k => (FMap.find s.groups k).map (fun g => (k, g)))
    if gs.all (fun q => q.2.splits.isEmpty || q.2.arrivedBarg id) && gs.any (fun q => q.2.arrivedBarg id) then
      let key := gangIx * 16 + id
      let p := (FMap.getD gr.bargP 0 key + 1) % 2 ^ 32
      let s := s.modGrid grid (fun x => { x with bargP := FMap.setD x.bargP 0 key p })
      let s := (gs.filter (fun q => q.2.arrivedBarg id)).foldl (fun s q =>
        s.modGroup q.1 (fun g => { g.releaseWait (fun w => decide (w = .barg id)) with bargG := FMap.setD g.bargG 0 id p })) s
      blks.foldl (fun s b => s.dropL1 b.core) s
    else s

/-- Re-evaluate every barrier that a group's exit can complete (R396). -/
def State.evalBarriers (s : State) (gid : Nat) : State :=
  match s.blockOf gid with
  | none => s
  | some b =>
    let bk := (match FMap.find s.groups gid with
      | some g => g.ident.block
      | none => 0)
    let s := (List.range 16).foldl (fun s id => s.evalBar bk id) s
    match FMap.find s.grids b.grid with
    | some gr =>
      if gr.hdr.gang = 1 then s
      else (List.range 16).foldl (fun s id => s.evalBarg b.grid (b.linear / gr.hdr.gang) id) s
    | none => s

/-! The end of groups and blocks. -/

/-- The members of a group's lock set (R129). -/
def State.lockSet (s : State) (gid : Nat) : List Nat :=
  match FMap.find s.groups gid, s.blockOf gid with
  | some g, some b =>
    if g.ident.lk4 then
      b.gids.filter (fun k => match FMap.find s.groups k with
        | some x => decide (x.ident.role = g.ident.role ∧ x.ident.grpix / 4 = g.ident.grpix / 4)
        | none => false)
    else [gid]
  | _, _ => [gid]

/-- The split stands at a linked GMM. -/
def Wait.isLinked (w : Wait) : Bool :=
  match w with
  | .linked _ _ _ => true
  | _ => false

/-- Partners that wait at a linked GMM issue it again, and find the member gone (R130). -/
def State.wakeLinked (s : State) (gid : Nat) : State :=
  (s.lockSet gid).foldl (fun s k => s.modGroup k (fun g =>
    { g with table := FMap.mapVals (fun _ sp => if sp.wait.isLinked then { sp with wait := .none } else sp) g.table })) s

/-- The block's groups have all ended, with no grid operation outstanding (R174), and none of its engine commands is
left (R123). -/
def State.blockEnded (s : State) (b : Block) : Bool :=
  b.gids.all (fun k => match FMap.find s.groups k with
    | some g => decide (g.status = .exited) && g.gridOps.isEmpty
    | none => true) &&
  (s.core b.core).queue.all (fun q => !b.gids.contains q.gid)

/-- Release a block that has ended: its Pool units and slots are free, and a grid's constant cache
entries go with its last block on the core (R123, R192). What its engines have still written in other packages is the
grid's to wait for (R72). Where only its engine commands are left, its VF may have lost its
work (R148). -/
def State.releaseBlock (s : State) (bk : Nat) : State :=
  match FMap.find s.blocks bk with
  | none => s
  | some b =>
    if s.blockEnded b then
      let owed := (b.gids.map (fun k => ((FMap.find s.groups k).map (fun g => g.links.owed)).getD [])).flatten
      let s := { s with blocks := FMap.erase s.blocks bk, groups := FMap.filterKV (fun k _ => !b.gids.contains k) s.groups }
      let s := s.modGrid b.grid (fun g => { g with ended := g.ended + 1, written := (g.written ++ owed).eraseDups })
      let last := (s.blocks.map (fun q => q.2)).all (fun x => !(decide (x.core = b.core) && decide (x.grid = b.grid)))
      let s := if last then s.modCore b.core (fun c => { c with cc := FMap.filterKV (fun k _ => decide (k / 1024 ≠ b.grid)) c.cc }) else s
      let part := match FMap.find s.grids b.grid with
        | some g => (s.vf g.vf).part
        | none => 0
      (((s.schedule (.gridCompletion b.grid)).schedule (.blockPlacement (dieOf b.core) part)).schedule (.deltaBatchHandout part)).schedule (.switchIn part)
    else if b.gids.all (fun k => ((FMap.find s.groups k).map (fun g => decide (g.status = .exited))).getD true) then
      s.schedule (.switchIn (s.vf (((FMap.find s.grids b.grid).map (fun g => g.vf)).getD 0)).part)
    else s

/-- Take a group out of every queue in which it waits: weirs, tickets, locks (R114, R218, R226). -/
def State.withdrawGroup (s : State) (gid : Nat) : State :=
  let keep := fun (o : WeirOp) => decide (o.gid ≠ gid)
  let weirs := FMap.mapVals (fun _ w => { w with heldOps := w.heldOps.filter keep, rateOps := w.rateOps.filter keep, waiters := w.waiters.filter keep }) s.weirs
  let parts := FMap.mapVals (fun _ p => { p with lockQueue := p.lockQueue.filter (fun q => decide (q.1 ≠ gid)) }) s.parts
  { s with weirs := weirs, parts := parts, tickets := s.tickets.filterMap (trimTicket gid (~~~0#64)) }

/-- What follows the end of a group: its remote writes, barriers, linked partners, its block. -/
def State.afterExit (s : State) (gid : Nat) : State :=
  let bk := match FMap.find s.groups gid with
    | some g => g.ident.block
    | none => 0
  let owed := match FMap.find s.groups gid with
    | some g => g.links.owed
    | none => []
  let s := match FMap.find s.blocks bk with
    | some b => s.modGrid b.grid (fun g => { g with tend := s.tick, written := (g.written ++ owed).eraseDups })
    | none => s
  let s := s.modGroup gid (fun g => { g with links := ⟨[], [], [], []⟩ })
  ((s.evalBarriers gid).wakeLinked gid).releaseBlock bk

/-- Pass a quadrant's handler context to the next trapped group (R182, R185). -/
def State.freeHandler (s : State) (hid : Nat) : State :=
  (({ s with handlers := FMap.erase s.handlers hid }).forgetDenials (fun a => decide (a = some (Issuer.handler hid)))).schedule (.handlerEntry hid)

/-- Halt a group (R74, R185, R468): it ends, its transactions abort (R238), its lock is released (R227). -/
def State.haltGroup (s : State) (gid : Nat) : State :=
  match FMap.find s.groups gid with
  | none => s
  | some g =>
    if g.status = .exited then s
    else
      let s := (s.releaseLockHalted gid).forgetDenials (fun a => match a with
        | some (.split k _) => decide (k = gid)
        | _ => false)
      let s := s.withdrawGroup gid
      let s := s.modVf (s.vfOf gid) (fun v => { v with calls := FMap.filterKV (fun _ (x : CallSlot) => decide (x.gid ≠ gid) || x.pending) v.calls })
      let s := s.modGroup gid (fun g => { g with status := .exited, table := [], stack := [], parents := [], tx := [], fault := none, engFaults := [] })
      let s := s.modCore (coreOf gid) (fun c => { c with trapQueue := c.trapQueue.filter (fun k => decide (k ≠ gid)) })
      let hid := hidOf gid
      let s := match FMap.find s.handlers hid with
        | some h => if h.gid = gid then s.freeHandler hid else s
        | none => s
      s.afterExit gid

/-- The pc field of a completion record: the offset from the code base (R73). -/
def pcOffset (code : Nat) (pc : BitVec 64) : Nat :=
  if code ≤ pc.toNat ∧ pc.toNat - code < 2 ^ 32 then pc.toNat - code else 0xFFFFFFFF

/-- Report a context error of a group to its grid's queue unit (R74). -/
def State.reportError (s : State) (gid status detail : Nat) (pc : BitVec 64) : State :=
  match s.blockOf gid with
  | none => s
  | some b =>
    let code := match FMap.find s.grids b.grid with
      | some g => g.hdr.code
      | none => 0
    s.schedule (.contextErrorReport b.grid status detail (coreOf gid) (slotOf gid) (pcOffset code pc))

/-! Throttling (R39, R40). -/

/-- The throttle level in force. -/
def State.throttleLevel (s : State) : Nat := if s.boot.thermal then 15 else min 15 s.boot.throttle

/-- Throttling leaves a tick of a quadrant empty: exactly `level` of the 16 of its window, those that come first in an
order that is free (log 58). -/
def emptyTick (hid level tick : Nat) : Bool :=
  if level = 0 then false
  else
    let rank := fun (j : Nat) => Config.emptyRank hid (tick / 16) j
    let j := tick % 16
    decide (((List.range 16).filter (fun k => decide (rank k < rank j ∨ (rank k = rank j ∧ k < j)))).length < level)

/-- The empty ticks of a quadrant below a tick, at one level. -/
def emptyBelow (hid level tick : Nat) : Nat :=
  if level = 0 then 0 else tick / 16 * level + ((List.range (tick % 16)).filter (fun j => emptyTick hid level (tick / 16 * 16 + j))).length

/-- The free ticks of a quadrant that have passed. -/
def State.freeNow (s : State) (hid : Nat) : Nat := s.tick - FMap.getD s.turn.emptied 0 hid

/-! Taking an exception (R182, R222, R457, R484). -/

/-- The fault as the core keeps it for the record (R457). -/
def faultInfo (c : Ctx) (word : BitVec 32) (r : FaultReq) (m txAborted : BitVec 64) : FaultInfo :=
  { code := r.code, mask := m, pc := c.split.pc, word := word, addr := r.addr, trapKind := r.trapKind,
    engine := none, fetch := r.fetch, stage2 := r.stage2, physical := r.physical, pathFail := r.pathFail, poison := r.poison,
    pfx := c.split.pfx, cpos := 0, spos := 0, seq := 0, user := r.user, entry := c.entry, txAborted := txAborted, mode := c.regs.mode }

/-- A group joins its core's queue for handler contexts (R182): after all that joined earlier, and of those that joined
at the same tick in the order of slots. -/
def State.queueTrap (s : State) (gid : Nat) : State :=
  let s := s.modGroup gid (fun g => { g with trapTick := s.tick })
  let later := fun (k : Nat) => decide (slotOf gid < slotOf k) && ((FMap.find s.groups k).map (fun g => decide (g.trapTick = s.tick))).getD false
  s.modCore (coreOf gid) (fun c =>
    let q := c.trapQueue.filter (fun k => decide (k ≠ gid))
    { c with trapQueue := q.takeWhile (fun k => !later k) ++ gid :: q.dropWhile (fun k => !later k) })

/-- The group enters the trapped state and queues for its quadrant's handler context (R182). -/
def State.trapGroup (s : State) (gid : Nat) (f : FaultInfo) : State :=
  let s := s.modGroup gid (fun g => { g with status := .trapped, fault := some f, spin := .clear })
  let s := s.queueTrap gid
  s.schedule (.handlerEntry (hidOf gid))

/-- A fault in single-lane mode (R185): the group is halted with detail 0x11. -/
def State.doubleFault (s : State) (gid : Nat) (pc : BitVec 64) : State :=
  (s.reportError gid 1 fDoubleFault pc).haltGroup gid

/-- The split goes on at `npc`: the prefix state is consumed (R310) and a re-execution is over. -/
def Ctx.advance (c : Ctx) (npc : BitVec 64) : Ctx :=
  { c with split := { c.split with pc := npc, pfx := .clear, wait := .none, retry := none, poisonAct := false, issued := none } }

/-- A register of an active thread changed between two contexts (R143). -/
def regsChanged (a b : Regs) : Bool := !(decide (a.v = b.v) && decide (a.o = b.o))

/-- The group's record of this issue: the split that issued last (R140) and the spin detector's
note of a change (R143, R144). -/
def Group.noteIssue (g : Group) (e : Nat) (changed : Bool) : Group :=
  { g with lastSplit := e,
           spin := if changed then { g.spin with changed := true, demoted := false, watching := false, passDone := false, watch := [] } else g.spin }

/-- Demotion ends (R144): a response has arrived for the group. The branch and the count of the spin stay as they were
(log 64). -/
def Group.undemote (g : Group) : Group :=
  if g.spin.demoted then { g with spin := { g.spin with demoted := false, watching := false, passDone := false, watch := [] } } else g

/-- The spin detector's note of a change that no issue makes (R143, R144). -/
def Group.noteChange (g : Group) (changed : Bool) : Group :=
  if changed then { g with spin := { g.spin with changed := true, demoted := false, watching := false, passDone := false, watch := [] } } else g

/-- The note of an instruction's end: of an issue, or of a wait that ends, which is no issue (R140). -/
def State.noteEnd (s : State) (c0 c : Ctx) : State :=
  match c.who with
  | .split gid e =>
    if s.turn.cur = some c.who && c0.split.issued.isNone then s.modGroup gid (fun g => g.noteIssue e (regsChanged c0.regs c.regs))
    else s.modGroup gid (fun g => g.noteChange (regsChanged c0.regs c.regs))
  | _ => s

/-- Retire the issuing instruction. -/
def State.retire (s : State) (c0 c : Ctx) (npc : BitVec 64) : State :=
  (s.putCtx (c.advance npc)).noteEnd c0 c

/-- The wait is one of an instruction that has issued (R313). -/
def Wait.inFlight : Wait → Bool
  | .remote _ | .flush | .unreached _ | .tokens _ _ | .assist _ | .path _ => true
  | _ => false

/-- The wait is a condition of the issue that is not met (R136): the instruction has not issued. -/
def Wait.unmet : Wait → Bool
  | .counter _ _ | .batch _ | .engineRoom | .launchRoom | .callSlot | .ncwt _ _ | .txLock | .gridOps | .linked _ _ _ => true
  | _ => false

/-- The split as its instruction waits: one that has issued keeps its MODE and its executing threads (R313). -/
def Ctx.waiting (c : Ctx) (w : Wait) : Ctx :=
  { c with split := { c.split with wait := w, issued := if w.inFlight && !c.single then some (c.split.issued.getD ⟨c.regs.mode, c.exec⟩) else c.split.issued } }

/-- A split or handler waits before its instruction issues. -/
def State.holdCtx (s : State) (c : Ctx) (w : Wait) : State := s.putCtx { c with split := { c.split with wait := w } }

/-- The issuing instruction waits, or a condition of its issue is not met. -/
def State.stay (s : State) (c0 c : Ctx) (w : Wait) : State :=
  if w.unmet then s.holdCtx c w else (s.putCtx (c.waiting w)).noteEnd c0 c

/-- The lanes that a fault aborts instead of trapping (R222): none for ILLEGAL_OP and ILLEGAL_REG. -/
def faultAborts (g : Group) (r : FaultReq) : BitVec 64 :=
  if r.code = fIllegalOp ∨ r.code = fIllegalReg then 0#64 else g.openLanes r.mask

/-- The lanes outside `gone` go on after the instruction, if there are any. -/
def State.passRest (s : State) (c : Ctx) (gone : BitVec 64) : State :=
  if c.split.mask &&& ~~~gone = 0#64 then s else s.putCtx (c.advance (c.split.pc + 4#64))

/-- A second poison fault of one activation (R211). -/
def secondPoison (c : Ctx) (r : FaultReq) : Bool :=
  c.split.poisonAct && r.poison

/-- Lanes in transactions under ILLEGAL_OP and ILLEGAL_REG (R484): their status is written, and they
stay in the trapped split. -/
def State.abortInPlace (s : State) (gid : Nat) (r : FaultReq) : State × BitVec 64 :=
  if r.code = fIllegalOp ∨ r.code = fIllegalReg then
    match FMap.find s.groups gid with
    | some g =>
      let m := g.openLanes r.mask
      (s.modGroup gid (fun g => g.abortStatus (abortsOf m xFault r.code)), m)
    | none => (s, 0#64)
  else (s, 0#64)

/-- Take the exception that an instruction raises: TAKING AN EXCEPTION of R182, with R222 and R484
for lanes in transactions, R185 in single-lane mode, and R211 for a second poison fault. Where every
faulting lane aborts instead, the others go on. -/
def State.raise (s : State) (c0 c : Ctx) (word : BitVec 32) (r : FaultReq) : State :=
  if c.single then s.doubleFault c.gid c.split.pc
  else
    let s := s.putCtx { c with split := { c.split with wait := .none, poisonAct := false, issued := none } }
    match FMap.find s.groups c.gid with
    | none => s
    | some g =>
      let gone := faultAborts g r
      let rest := r.mask &&& ~~~gone
      let aborts := r.aborts ++ abortsOf gone xFault r.code
      let s := s.noteEnd c0 c
      if rest = 0#64 then (s.passRest c (abortMask aborts)).abortLanes c.gid aborts
      else if secondPoison c r then s.doubleFault c.gid c.split.pc
      else
        let s := s.abortLanes c.gid aborts
        let q := s.abortInPlace c.gid r
        q.1.trapGroup c.gid (faultInfo c word r rest q.2)

/-- The end of an issue. -/
def finish (c0 : Ctx) (word : BitVec 32) (d : Done) : Host.Outcome State Fault Refusal :=
  match d with
  | .retire s c npc => .next (s.retire c0 c npc)
  | .stay s c w => .next (s.stay c0 c w)
  | .fault s c r => .next (s.raise c0 c word r)
  | .next s => .next s

/-- Issue a device instruction: `single` says whether the single-lane handler may run it (R455). -/
def issue (i : Instr) (single : Bool) (f : State → Ctx → Done) (s : State) : Host.Outcome State Fault Refusal :=
  match s.ctx with
  | none => .fault .noIssuer
  | some c =>
    if c.single && !single then .next (s.raise c c ((encode i).getD 0#32) (.plain fIllegalOp c.split.mask))
    else finish c ((encode i).getD 0#32) (f s c)

/-- Issue an instruction that changes nothing but its split or handler context. -/
def issueLocal (i : Instr) (f : Ctx → Except FaultReq (Ctx × BitVec 64)) (s : State) : Host.Outcome State Fault Refusal :=
  issue i true (fun s c => match f c with
    | .ok (c', npc) => .retire s c' npc
    | .error r => .fault s c r) s

/-- An ILLEGAL_OP of step 2 of R319: RESERVED_OPCODE and every other word that decodes to nothing. -/
def raiseIllegalWord (w : BitVec 32) (s : State) : Host.Outcome State Fault Refusal :=
  match s.ctx with
  | none => .fault .noIssuer
  | some c => .next (s.raise c c w (.plain fIllegalOp c.split.mask))

/-- The effect of an event: it always leads to a next state, and does nothing when its condition
does not hold (log 3). -/
def event (s : State) : Host.Outcome State Fault Refusal := .next s

/-- Lanes of a mask that must not execute this instruction inside a transaction abort with ILLEGAL
and its opcode (R221); the rest of the split, if any is left, goes on with `k`. -/
def txIllegal (op : Nat) (m : BitVec 64) (k : State → Ctx → Done) (s : State) (c : Ctx) : Done :=
  match FMap.find s.groups c.gid with
  | none => k s c
  | some g =>
    let bad := if c.single then 0#64 else g.openLanes (m &&& c.split.mask)
    if bad = 0#64 then k s c
    else
      let s := (s.abortLanes c.gid (abortsOf bad xIllegal op)).modGroup c.gid (fun g => g.noteIssue c.entry false)
      if c.split.mask &&& ~~~bad = 0#64 then .next s
      else match s.ctx with
        | some c' => k s c'
        | none => .next s

/-! The return from an exception (R467). -/

/-- Single-lane mode ends and the handler context passes on; the group runs again. -/
def State.leaveHandler (s : State) (hid gid : Nat) : State :=
  (s.modGroup gid (fun g => Group.ejectLate { g with status := .running, fault := none })).freeHandler hid

/-- The trapped split as RETT leaves it. -/
def Group.resumeSplit (g : Group) (e : Nat) (f : Split → Split) : Group :=
  match FMap.find g.table e with
  | some sp => { g with table := FMap.insert g.table e (f { sp with wait := .none }) }
  | none => g

/-- The split goes on elsewhere with a clear prefix state. -/
def Split.goto (sp : Split) (pc : BitVec 64) : Split := { sp with pc := pc, pfx := .clear, retry := none, poisonAct := false, issued := none }

end Sys2Proof.Machine
end

