-- ==== Sys2Proof/Machine/Vector.lean ====
section
/-! DEFINITION. The issue of a V-class instruction that touches registers only: the checks of R319
in order, the uniform form (R160), the draws of R288, and the latching write (R162). -/

namespace Sys2Proof.Machine

/-- How an operand field is used (R161, R163, R305). -/
inductive OpRole where
  /-- a source that may not be `xi` -/
  | src
  /-- a source in the B field, which may be `xi` -/
  | srcXi
  | dst
  deriving DecidableEq, Repr

/-- An operand field: its role, its width and its specifier. -/
structure Opnd where
  role : OpRole
  wide : Bool
  b : BitVec 8
  deriving DecidableEq, Repr

/-- The specifier is valid for its field and width: step 3 of R319. -/
def Opnd.ok (allot : Nat) (o : Opnd) : Bool :=
  match o.role, o.wide with
  | .src, false => src32Ok allot false o.b
  | .src, true => src64Ok allot false o.b
  | .srcXi, false => src32Ok allot true o.b
  | .srcXi, true => src64Ok allot true o.b
  | .dst, false => dst32Ok allot o.b
  | .dst, true => dst64Ok allot o.b

/-- The operand reaches an accumulator register (R172). -/
def Opnd.touches (o : Opnd) : Bool := touchesAcc (if o.wide then 2 else 1) o.b

/-- The guard register is an accumulator register. -/
def Ctx.guardTouches (c : Ctx) : Bool :=
  modeGen c.regs.mode && touchesAcc 1 (BitVec.ofNat 8 (modeGuard c.regs.mode))

/-- The operation has to wait for the group's grid operations (R172). -/
def Ctx.mustWait (c : Ctx) (touch : Bool) : Bool := c.accBusy && (touch || c.guardTouches)

/-- Write one latched result to each listed thread (R162). -/
def writeResults (wide : Bool) (d : BitVec 8) (rs : List (Nat × DWord)) (r : Regs) : Regs :=
  rs.foldl (fun r p => r.writeLatch wide p.1 d p.2) r

/-- One result for each thread of a list, in order, with `n` draws each (R288). -/
def threadResults (n : Nat) (f : Nat → List Nat → DWord) : List Nat → Word → List (Nat × DWord) × Word
  | [], seed => ([], seed)
  | t :: ts, seed =>
    let ds := if n = 0 then ([], seed) else srdraws n seed
    let r := threadResults n f ts ds.2
    ((t, f t ds.1) :: r.1, r.2)

/-- The same result for each thread of a mask; with no thread there is no effect (R160). -/
def sameResult (n : Nat) (f : List Nat → DWord) (exec : BitVec 64) (seed : Word) : List (Nat × DWord) × Word :=
  if exec = 0#64 then ([], seed)
  else
    let ds := srdraws n seed
    ((threadsOf exec).map (fun t => (t, f ds.1)), ds.2)

/-- The vector or the uniform form of a computation on one thread's sources. -/
def Ctx.compute (c : Ctx) (u : Bool) (n : Nat) (f : Nat → List Nat → DWord) : List (Nat × DWord) × Word :=
  if u then sameResult n (f c.lane) c.exec c.seed else threadResults n f (threadsOf c.exec) c.seed

/-- Issue a V-class register instruction: etype check, operand checks, R172, then the results. -/
def vIssue (etOk : Bool) (ops : List Opnd) (wide : Bool) (d : BitVec 8) (run : Ctx → List (Nat × DWord) × Word)
    (s : State) (c : Ctx) : Done :=
  if !etOk then Done.early s c fIllegalOp
  else if !(ops.all (fun o => o.ok c.allot)) then Done.early s c fIllegalReg
  else if c.mustWait (ops.any Opnd.touches) then .stay s c .gridOps
  else
    let r := run c
    Done.seq s { c with regs := writeResults wide d r.1 c.regs, seed := r.2 }

/-- A source of either width. -/
def Ctx.img (c : Ctx) (wide : Bool) (t : Nat) (b : BitVec 8) : DWord := c.regs.readImg c.xi wide t b

/-- Draws per thread of an instruction that rounds by MODE.rnd (R355). -/
def modeDraws (c : Ctx) (n : Nat) : Nat := if modeRndCode c.regs.mode = 5 then n else 0

/-- An element-wise computation (R273): element i from element i of a, b and the old d, with its
draw. -/
def elemMap (et : Nat) (ds : List Nat) (f : Nat → Nat → Nat → Nat → Nat) (a b d : DWord) : DWord :=
  let w := etypeWidth et
  packElems w ((List.range (etypeCount et)).map (fun i =>
    f (ds.getD i 0) (field a.toNat (w * i) w) (field b.toNat (w * i) w) (field d.toNat (w * i) w)))

/-! Operand shapes. -/

/-- d, a, b of one width. -/
def opsDAB (wide : Bool) (d a b : BitVec 8) : List Opnd := [⟨.dst, wide, d⟩, ⟨.src, wide, a⟩, ⟨.srcXi, wide, b⟩]
/-- d, a of one width. -/
def opsDA (wide : Bool) (d a : BitVec 8) : List Opnd := [⟨.dst, wide, d⟩, ⟨.src, wide, a⟩]

end Sys2Proof.Machine
end

