-- ==== Sys2Proof/Machine/Convert.lean ====
section
/-! DEFINITION. The conversions, opcodes 0x40 to 0x42: R365 to R368. -/

namespace Sys2Proof.Machine

/-- A destination format rounds stochastically (R288, R289): e8m0 never does. -/
def cvDraws (c : Ctx) (fmt n : Nat) : Nat :=
  if fmt ≠ 14 ∧ cvRnd c.regs.cvmode (modeRnd c.regs.mode) fmt = .sr then n else 0

/-- The 32-bit image of a value in a destination format, under the context's CVMODE and MODE. -/
def Ctx.convert (c : Ctx) (fmt d : Nat) (x : FVal) : DWord :=
  BitVec.ofNat 64 (convertTo c.regs.cvmode (modeRnd c.regs.mode) d fmt x)

/-- A register image read as f32. -/
def asF32 (x : DWord) : FVal := decodeFloat fmtF32 (lo32 x).toNat

/-- A register image read as an integer by CVIF and CVII (R366). -/
def asInt (et : Nat) (x : DWord) : FVal :=
  .ofInt (if et = 1 ∨ et = 3 ∨ et = 5 then ((lo32 x).toNat : Int) else toSigned 32 (lo32 x).toNat)

/-- A CVT kind that converts one thread's value (R366). -/
def vConvert (u ok draws : Bool) (d a : BitVec 8) (fmt : Nat) (f : Ctx → Nat → DWord → DWord) (s : State) (c : Ctx) : Done :=
  vIssue ok (opsDA false d a) false d
    (fun c => c.compute u (if draws then cvDraws c fmt 1 else 0) (fun t ds => f c (ds.getD 0 0) (c.img false t a))) s c

/-- UNPK's image of a code (R366). -/
def unpkOf (fmt : Nat) (x : DWord) : DWord :=
  let code := field x.toNat 0 (fmtBits fmt)
  match fmtOfCode fmt with
  | .int signed b => BitVec.ofNat 64 (if signed then ofSigned 32 (toSigned b code) else code % 2 ^ b)
  | _ => BitVec.ofNat 64 (encodeFloat fmtF32 .rne false 0 (decodeFmt fmt code))

/-- The 32 values of thread t's MX block (R367): threads outside the mask are +0. -/
def Ctx.mxBlock (c : Ctx) (a : BitVec 8) (t : Nat) : List FVal :=
  (List.range 32).map (fun i =>
    let k := t / 32 * 32 + i
    if c.mask.getLsbD k then asF32 (c.img false k a) else .zero false)

/-- The MX block of the uniform form (R367). -/
def Ctx.mxUniform (c : Ctx) (a : BitVec 8) : List FVal :=
  asF32 (c.img false c.lane a) :: List.replicate 31 (.zero false)

/-- The block that thread t's MX conversion sees. -/
def Ctx.mxOf (c : Ctx) (u : Bool) (a : BitVec 8) (t : Nat) : List FVal :=
  if u then c.mxUniform a else c.mxBlock a t

/-- The formats of the MX kinds (R365). -/
def mxFmtOk (fmt : Nat) : Bool := decide (fmt = 3 ∨ fmt = 4)

/-- The destination format of PACK2 and PACK4 (R368), 15 where the etype is not accepted. -/
def packFmt (four : Bool) (et : Nat) : Nat :=
  if four then (match et with | 4 => 9 | 5 => 10 | 6 => 3 | 7 => 4 | _ => 15)
  else (match et with | 2 => 7 | 3 => 8 | 7 => 1 | 8 => 2 | _ => 15)

/-- The source element of a pack (R368): i32, n32 or f32 by etype. -/
def packSrc (et : Nat) (x : Nat) : FVal :=
  if et = 2 ∨ et = 4 then .ofInt (toSigned 32 x) else if et = 3 ∨ et = 5 then .ofInt (x : Int) else decodeFloat fmtF32 x

/-- PACK2 (`four` false) and PACK4: the elements of d from those of a, then b. -/
def vPack (u four : Bool) (d a b : BitVec 8) (s : State) (c : Ctx) : Done :=
  let et := c.etype
  let fmt := packFmt four et
  let k := if four then 4 else 2
  vIssue (decide (fmt ≠ 15)) [⟨.dst, false, d⟩, ⟨.src, four, a⟩, ⟨.srcXi, four, b⟩] false d
    (fun c => c.compute u (if et ≤ 5 then 0 else cvDraws c fmt k) (fun t ds =>
      let x := c.img four t a
      let y := c.img four t b
      let src := if four then [(lo32 x).toNat, (hi32 x).toNat, (lo32 y).toNat, (hi32 y).toNat] else [(lo32 x).toNat, (lo32 y).toNat]
      packElems (32 / k) (src.mapIdx (fun i v => convertTo c.regs.cvmode (modeRnd c.regs.mode) (ds.getD i 0) fmt (packSrc et v))))) s c

/-! The instructions. -/

/-- CVTF (R366): f32 to a float or scale format. -/
def execCvtf (u : Bool) (d a : BitVec 8) (f : BitVec 4) : State → Host.Outcome State Fault Refusal :=
  issue (.cvtf u d a f) true (fun s c =>
    let n := f.toNat
    vConvert u (decide (n = 1 ∨ n = 2 ∨ n = 3 ∨ n = 4 ∨ n = 14)) true d a n (fun c r x => c.convert n r (asF32 x)) s c)

/-- CVTI (R366): f32 to an integer format. -/
def execCvti (u : Bool) (d a : BitVec 8) (f : BitVec 4) : State → Host.Outcome State Fault Refusal :=
  issue (.cvti u d a f) true (fun s c =>
    let n := f.toNat
    vConvert u (decide (5 ≤ n ∧ n ≤ 13)) true d a n (fun c r x => c.convert n r (asF32 x)) s c)

/-- CVIF (R366): an integer to a float or scale format. -/
def execCvif (u : Bool) (d a : BitVec 8) (f : BitVec 4) : State → Host.Outcome State Fault Refusal :=
  issue (.cvif u d a f) true (fun s c =>
    let n := f.toNat
    vConvert u (decide (n ≤ 4 ∨ n = 14) && !etypeWide c.etype) true d a n (fun c r x => c.convert n r (asInt c.etype x)) s c)

/-- CVII (R366): an integer to an integer format, with no rounding. -/
def execCvii (u : Bool) (d a : BitVec 8) (f : BitVec 4) : State → Host.Outcome State Fault Refusal :=
  issue (.cvii u d a f) true (fun s c =>
    let n := f.toNat
    vConvert u (decide (5 ≤ n ∧ n ≤ 13) && !etypeWide c.etype) false d a n (fun c _ x => c.convert n 0 (asInt c.etype x)) s c)

/-- UNPK (R366). -/
def execUnpk (u : Bool) (d a : BitVec 8) (f : BitVec 4) : State → Host.Outcome State Fault Refusal :=
  issue (.unpk u d a f) true (fun s c =>
    let n := f.toNat
    vConvert u (decide (1 ≤ n ∧ n ≤ 4 ∨ 7 ≤ n ∧ n ≤ 14)) false d a n (fun _ _ x => unpkOf n x) s c)

/-- MXQ (R367): the codes of an MX block. -/
def execMxq (u : Bool) (d a : BitVec 8) (f : BitVec 4) : State → Host.Outcome State Fault Refusal :=
  issue (.mxq u d a f) true (fun s c =>
    let n := f.toNat
    vIssue (mxFmtOk n) (opsDA false d a) false d
      (fun c => c.compute u (cvDraws c n 1) (fun t ds =>
        let xs := c.mxOf u a t
        BitVec.ofNat 64 (mxQuant c.regs.cvmode (ds.getD 0 0) n (mxScale n xs) (xs.getD (if u then 0 else t % 32) (.zero false))))) s c)

/-- MXSC (R367): the scale of an MX block. -/
def execMxsc (u : Bool) (d a : BitVec 8) (f : BitVec 4) : State → Host.Outcome State Fault Refusal :=
  issue (.mxsc u d a f) true (fun s c =>
    let n := f.toNat
    vIssue (mxFmtOk n) (opsDA false d a) false d
      (fun c => c.compute u (0) (fun t _ =>
        let xs := c.mxOf u a t
        BitVec.ofNat 64 (mxScale n xs))) s c)

/-- PACK2 (R368). -/
def execPack2 (u : Bool) (d a b : BitVec 8) : State → Host.Outcome State Fault Refusal :=
  issue (.pack2 u d a b) true (vPack u false d a b)

/-- PACK4 (R368). -/
def execPack4 (u : Bool) (d a b : BitVec 8) : State → Host.Outcome State Fault Refusal :=
  issue (.pack4 u d a b) true (vPack u true d a b)

end Sys2Proof.Machine
end

