-- ==== Sys2Proof/Machine/Xlate.lean ====
section
/-! DEFINITION. Physical addresses (R16 to R19, R52, R93) and two-stage translation (R94 to R102,
R482). -/

namespace Sys2Proof.Machine

/-! Physical memory of the package. -/

/-- The package number of a physical address (R16). -/
def pkgOf (pa : Nat) : Nat := field pa 42 9
/-- The offset in a package window (R16). -/
def offOf (pa : Nat) : Nat := field pa 0 42
/-- The end of the memory tiers (R17). -/
def tierEnd : Nat := 0x30000000000
/-- The start of the capacity tier (R17). -/
def capBase : Nat := 0x10000000000
/-- The start of register and management space (R17). -/
def regBase : Nat := 0x3F000000000

/-- The value of the stripe that holds an offset (R89, R90); an unlisted stripe is free (log 6). -/
def State.stripe (s : State) (off : Nat) : Nat :=
  if off < capBase then FMap.getD s.ms.fast 0xFF (off / 2 ^ 23)
  else FMap.getD s.ms.cap 0xFF ((off - capBase) / 2 ^ 23)

/-- One byte of memory (log 5). -/
def State.byteAt (s : State) (off : Nat) : Byte := FMap.getD s.ms.mem 0#8 off

/-- `n` bytes of memory from an offset. -/
def State.bytesAt (s : State) (off n : Nat) : List Byte := (List.range n).map (fun i => s.byteAt (off + i))

/-- A little-endian number in memory (R2). -/
def State.wordAt (s : State) (off n : Nat) : Nat := ofBytesLE (s.bytesAt off n)

/-- Whether a sector of a range of bytes is poisoned (R209). -/
def State.poisoned (s : State) (off n : Nat) : Bool :=
  (List.range ((off + n - 1) / 32 + 1 - off / 32)).any (fun i => FMap.getD s.ms.poison false (off / 32 + i))

/-- Put bytes into memory, keeping the canonical form. -/
def putBytes : FMap Byte → Nat → List Byte → FMap Byte
  | m, _, [] => m
  | m, a, b :: r => putBytes (FMap.setD m 0#8 a b) (a + 1) r

/-- A map of bytes with a run of bytes in place of what it lists there: the writes of the run's bytes at once. -/
def spliceBytes (m : FMap Byte) (a : Nat) (b : List Byte) : FMap Byte :=
  FMap.filterKV (fun k _ => decide (k < a)) m ++ (b.mapIdx (fun i x => (a + i, x))).filter (fun q => decide (q.2 ≠ 0#8)) ++
    FMap.filterKV (fun k _ => decide (a + b.length ≤ k)) m

/-! Tracked copies of a line (R215, R216). -/

/-- The units of `k` bytes that `n` bytes from an offset meet. -/
def spanUnits (k off n : Nat) : List Nat := (List.range ((off + n - 1) / k + 1 - off / k)).map (fun i => off / k + i)

/-- A copy's state after a read by another agent (R216). -/
def Moesi.afterRead : Moesi → Moesi
  | .m => .o
  | .e => .s
  | x => x

/-- A host transaction has written the granule: a read is served the committed value, and leaves the copies that it
holds as they are (R217, R234). -/
def State.hostWrites (s : State) (granule : Nat) : Bool := s.harts.any (fun q => decide (q.2.depth ≠ 0) && q.2.wsig.contains granule)

/-- A directory entry after a read, by an agent that is not tracked, of granules of its line. -/
def DirEntry.deviceRead (d : DirEntry) (granules : List Nat) : DirEntry :=
  ⟨FMap.mapVals (fun k x => if granules.contains k then x.afterRead else x) d.host, FMap.mapVals (fun _ x => x.afterRead) d.peers⟩

/-- The tracked copies of one line after a read by a device agent of `n` bytes at an offset (R216). -/
def State.noteReadLine (s : State) (off n line : Nat) : State :=
  match FMap.find s.ms.dir line with
  | none => s
  | some d =>
    let gs := ((spanUnits 64 off n).filter (fun g => decide (g / 4 = line) && !s.hostWrites g)).map (fun g => g % 4)
    { s with ms := { s.ms with dir := FMap.insert s.ms.dir line (d.deviceRead gs) } }

/-- A read by a device agent of `n` bytes at home: the tracked copies of every line that it meets (R216). -/
def State.noteRead (s : State) (off n : Nat) : State := (spanUnits 256 off n).foldl (fun s l => s.noteReadLine off n l) s

/-! Faults of an access. -/

/-- A fault at a device virtual address. -/
def XFault.virt (code addr : Nat) : XFault := ⟨code, addr, false, false, false, false⟩
/-- A fault at an intermediate address (R100). -/
def XFault.inter (code addr : Nat) : XFault := ⟨code, addr, true, false, false, false⟩
/-- A fault at a physical address (R19, R93). -/
def XFault.phys (code addr : Nat) : XFault := ⟨code, addr, false, true, false, false⟩
/-- A fault of a read of a translation table (R482). -/
def XFault.ofTable (f : XFault) : XFault := { f with table := true }

/-- What an access waits for before it goes on: an answer of the hypervisor, or a path. -/
inductive AssistNeed where
  /-- a range miss (R102) -/
  | walk (stage2 : Bool) (input need : Nat)
  /-- the first detection of a poisoned sector (R213) -/
  | contain (sec : Nat)
  /-- a path to a package: no port of the partition has been up, for less than 100 µs (R31) -/
  | path (pkg : Nat)
  deriving DecidableEq, Repr

/-- Why a translation does not answer an address. -/
inductive XStop where
  | fault (f : XFault)
  | assist (x : AssistNeed)
  deriving DecidableEq, Repr

/-- Where an admitted physical address lies. -/
inductive Place where
  | own (off : Nat)
  | remote (pa : Nat)
  deriving DecidableEq, Repr

/-- An access list admits a PPID to its commons: an entry with a right (R115). -/
def aclAdmits (acl : List Nat) (ppid : Nat) : Bool := acl.any (fun a => decide (a % 2 ^ 16 = ppid) && decide (a / 2 ^ 16 % 8 ≠ 0))

/-- A commons of this package admits a partition's PPID (R115): by a weir held here, or one of another package that
has registered its list here. -/
def State.commonsAdmits (s : State) (c ppid : Nat) : Bool :=
  s.weirs.any (fun q => decide (q.2.commons = s.boot.pkg * 64 + c) && aclAdmits q.2.acl ppid) ||
    s.ms.guests.any (fun q => decide (q.2.2.1 = c) && aclAdmits q.2.2.2 ppid)

/-- A stripe admits an access of a partition (R93). -/
def State.stripeAdmits (s : State) (p off : Nat) : Bool :=
  let v := s.stripe off
  if v < 64 then decide (v = p)
  else if v < 128 then s.commonsAdmits (v - 64) (s.part p).ppid
  else false

/-- A package number is routed for a partition (R19, R85, R107): it is in the pod, and the partition owns a route. -/
def State.routed (s : State) (p pkg : Nat) : Bool := decide (pkg = s.boot.pkg) || (bitAt s.boot.pod pkg && bitAt (s.part p).routes pkg)

/-- The ports that the pod's switch routes connect to a package (R107; log 71). -/
def State.portsTo (s : State) (pkg : Nat) : Nat := FMap.getD s.boot.switchRoutes 0xFFFFFFFF pkg

/-- A path leads to a package: a port of the partition that the switch routes connect to it is up (R27, R31, R107). -/
def State.pathUp (s : State) (p pkg : Nat) : Bool := decide ((s.part p).mrports &&& s.boot.portsUp &&& s.portsTo pkg ≠ 0)

/-- Under which number a partition notes that no path leads to a package: its own, or one for all the packages that the
switch routes do not list. -/
def State.routeKey (s : State) (pkg : Nat) : Nat := if (FMap.find s.boot.switchRoutes pkg).isSome then pkg else 512

/-- The ticks of the 100 µs after which a request without a path completes with an error (R31). -/
def pathTicks : Nat := 70000

/-- No path has led to a package for 100 µs (R31). -/
def State.pathDead (s : State) (p pkg : Nat) : Bool :=
  !s.pathUp p pkg && decide (FMap.getD (s.part p).downSince 0 (s.routeKey pkg) + pathTicks ≤ s.tick)

/-- The node of a package and its slot there (R214). -/
def nodeOf (pkg : Nat) : Nat := pkg / 8
def nodeSlot (pkg : Nat) : Nat := pkg % 8

/-- Another package is a peer: it is of this package's node (R214). -/
def State.isPeer (s : State) (pkg : Nat) : Bool := decide (pkg ≠ s.boot.pkg ∧ nodeOf pkg = nodeOf s.boot.pkg) && bitAt s.boot.pod pkg

/-- `n` bytes that an agent outside the package supplies (log 1, log 17). -/
def State.freeBytes : Nat → State → List Byte × State
  | 0, s => ([], s)
  | n + 1, s =>
    let q := s.freeWord
    let r := State.freeBytes n q.2
    (q.1.setWidth 8 :: r.1, r.2)

/-- What another package answers to a read: the bytes, whether poison is among them (R209), and whether it refuses the
access (R93). -/
structure FarRead where
  bytes : List Byte
  poison : Bool
  refused : Bool
  deriving DecidableEq, Repr

/-- What another package answers to a read of `n` bytes: free values (log 17). -/
def State.farRead (s : State) (n : Nat) : FarRead × State :=
  let q := s.freeBytes n
  let p := q.2.freeWord
  (⟨q.1, p.1.getLsbD 0, p.1.getLsbD 1⟩, p.2)

/-- Whether another package refuses a write (R93): a free value (log 17). -/
def State.farRefuses (s : State) : Bool × State :=
  let q := s.freeWord
  (q.1.getLsbD 0, q.2)

/-- The sender of a VF's requests (R82, R120). -/
def State.sender (s : State) (vf : Nat) : Sender := ⟨(s.part (s.vf vf).part).ppid, vf, (s.vf vf).gen⟩

/-- Send a request of a VF to another package (R28, R82, R107): 0 load, 1 store, 2 + operation atomic. -/
def State.sendRemote (s : State) (vf kind pa size : Nat) (data : List Byte) (poison : Bool) : State :=
  s.send (.millrace kind (pkgOf pa) (offOf pa) size data poison (s.sender vf))

/-- The device's check of a physical address (R16 to R19, R52, R93). -/
def State.letIn (s : State) (p pa : Nat) : Except XFault Place :=
  let off := offOf pa
  if 2 ^ 51 ≤ pa then .error (.phys fTranslation pa)
  else if pkgOf pa = s.boot.pkg then
    if off < tierEnd then (if s.stripeAdmits p off then .ok (.own off) else .error (.phys fPermission pa))
    else if off < regBase then .error (.phys fTranslation pa)
    else .error (.phys fPermission pa)
  else if s.routed p (pkgOf pa) && decide (off < tierEnd) then .ok (.remote pa)
  else if s.routed p (pkgOf pa) && decide (regBase ≤ off) then .error (.phys fPermission pa)
  else .error (.phys fTranslation pa)

/-- The hypervisor's memory of this package: reads and writes on its behalf (R93). -/
def State.hyperOff (s : State) (pa n : Nat) : Option Nat :=
  let off := offOf pa
  if pa < 2 ^ 51 ∧ pkgOf pa = s.boot.pkg ∧ off + n ≤ tierEnd ∧ s.stripe off = 0xFD ∧ s.stripe (off + n - 1) = 0xFD then some off
  else none

/-! Range entries and page tables. -/

/-- Who asks for a translation: the VF, its partition, the core where a core asks, and its die. -/
structure XWho where
  part : Nat
  vf : Nat
  core : Option Nat
  die : Nat
  /-- the split, handler or unit's event that a hypervisor's denial answers (R102) -/
  asker : Option Issuer
  deriving DecidableEq, Repr

/-- A range entry as it stands in its three words (R96, R97): base, end, and the entry unless it is
malformed. `at` is the physical address of a stage-2 entry. -/
def rangeEntry (part : Nat) (vf : Option Nat) (entryAt w0 w1 w2 : Nat) : Nat × Nat × Option CachedRange :=
  let vb := field w0 16 32 * 2 ^ 16
  let len := field w1 16 31 * 2 ^ 16
  let tgt := field w2 16 36 * 2 ^ 16
  let cbase := field w1 47 17
  let tier := bitAt w0 4
  let resv := field w0 48 16 + field w0 8 8 + field w1 0 16 + field w2 52 12 + field w2 0 16
  let plain := decide (resv = 0 ∧ field w0 6 2 ≠ 3 ∧ len ≠ 0 ∧ len ≤ 2 ^ 46 ∧ vb + len ≤ 2 ^ 48)
  let stage1 := vf.isNone || (!tier && decide (tgt + len ≤ 2 ^ 48))
  let tierOk := if tier then decide (offOf tgt + len ≤ capBase ∧ tgt < 2 ^ 51 ∧ cbase * 2 ^ 24 + len ≤ 2 ^ 41) else decide (cbase = 0)
  let out := if tier && bitAt w0 5 then pkgOf tgt * 2 ^ 42 + capBase + cbase * 2 ^ 24 else tgt
  (vb, vb + len, if plain && stage1 && tierOk then
    some ⟨part, vf, vb, len, out, field w0 1 3, field w0 6 2, if tier then some entryAt else none⟩ else none)

/-- How a stage reads one 8-byte word of its tables. -/
abbrev TableRead := Nat → State → Except XStop Nat × State

/-- The search of a range table from an entry on, in table order (R98); `none` for no valid entry that covers the address.
No access meets a malformed entry of length 0 (R96; log 76). -/
def searchRanges (rd : TableRead) (part : Nat) (vf : Option Nat) (a : Nat) (bad : XStop) :
    Nat → Nat → State → Except XStop (Option CachedRange) × State
  | 0, _, s => (.ok none, s)
  | n + 1, e, s =>
    match rd e s with
    | (.error x, s) => (.error x, s)
    | (.ok w0, s) =>
      if !bitAt w0 0 then searchRanges rd part vf a bad n (e + 24) s
      else match rd (e + 8) s with
        | (.error x, s) => (.error x, s)
        | (.ok w1, s) =>
          match rd (e + 16) s with
          | (.error x, s) => (.error x, s)
          | (.ok w2, s) =>
            let r := rangeEntry part vf e w0 w1 w2
            if r.1 ≤ a ∧ a < r.2.1 then
              match r.2.2 with
              | some c => (.ok (some c), s)
              | none => (.error bad, s)
            else searchRanges rd part vf a bad n (e + 24) s

/-- A page table entry that breaks no rule of its own (R99). -/
def pteOk (e : Nat) : Bool := bitAt e 0 && decide (field e 52 12 = 0 ∧ field e 8 4 = 0 ∧ field e 6 2 ≠ 3)

/-- The entry of a leaf (R99): its permissions in the order R, W, X. -/
def leafRange (part : Nat) (vf : Option Nat) (e base len target : Nat) : CachedRange :=
  ⟨part, vf, base, len, target, field e 2 3, field e 6 2, none⟩

/-- The output base of a page table entry. -/
def pteAddr (e : Nat) : Nat := field e 12 40 * 2 ^ 12

/-- The eight leaves of an 8 GiB page (R99). -/
def readGroup (rd : TableRead) : Nat → Nat → State → Except XStop (List Nat) × State
  | 0, _, s => (.ok [], s)
  | n + 1, a, s =>
    match rd a s with
    | (.error x, s) => (.error x, s)
    | (.ok e, s) =>
      match readGroup rd n (a + 8) s with
      | (.error x, s) => (.error x, s)
      | (.ok r, s) => (.ok (e :: r), s)

/-- The eight leaves keep the rules of an 8 GiB page (R99). -/
def groupOk (own : Nat) (l : List Nat) : Bool :=
  let b := pteAddr (l.headD 0)
  decide (l.length = 8 ∧ b % 2 ^ 33 = 0) &&
    (l.mapIdx (fun k e => pteOk e && !bitAt e 1 && bitAt e 5 && decide (field e 2 3 = field own 2 3 ∧
      field e 6 2 = field own 6 2 ∧ pteAddr e = b + k * 2 ^ 30))).all (fun x => x)

/-- The leaf at level 2 with c8 set: the 8 GiB page, or, where the group breaks its rules, one of the
two translations that R99 leaves open. The flag says whether the result may be kept. -/
def groupLeaf (rd : TableRead) (part : Nat) (vf : Option Nat) (a tab idx e : Nat) (s : State) :
    Except XStop (Option (CachedRange × Bool)) × State :=
  let own := leafRange part vf e (a / 2 ^ 30 * 2 ^ 30) (2 ^ 30) (pteAddr e)
  match readGroup rd 8 (tab + idx / 8 * 64) s with
  | (.error (.assist x), s) => (.error (.assist x), s)
  | (.error _, s) => (.ok (some (own, false)), s)
  | (.ok l, s) =>
    let vg := a / 2 ^ 33 * 2 ^ 33
    let first := l.headD 0
    if groupOk e l then (.ok (some (leafRange part vf e vg (2 ^ 33) (pteAddr first), true)), s)
    else
      let q := s.freeWord
      if pteOk first && q.1.getLsbD 0 then (.ok (some (leafRange part vf first vg (2 ^ 33) (pteAddr first / 2 ^ 33 * 2 ^ 33), false)), q.2)
      else (.ok (some (own, false)), q.2)

/-- The page walk from level `l - 1` down (R99); `none` for a TRANSLATION. -/
def walkFrom (rd : TableRead) (part : Nat) (vf : Option Nat) (a : Nat) :
    Nat → Nat → State → Except XStop (Option (CachedRange × Bool)) × State
  | 0, _, s => (.ok none, s)
  | l + 1, tab, s =>
    let idx := field a (12 + 9 * l) 9
    match rd (tab + 8 * idx) s with
    | (.error x, s) => (.error x, s)
    | (.ok e, s) =>
      if !pteOk e then (.ok none, s)
      else if bitAt e 1 then
        if l = 0 ∨ bitAt e 5 then (.ok none, s) else walkFrom rd part vf a l (pteAddr e) s
      else if l = 3 then (.ok none, s)
      else if bitAt e 5 then (if l = 2 then groupLeaf rd part vf a tab idx e s else (.ok none, s))
      else
        let size := 2 ^ (12 + 9 * l)
        (.ok (some (leafRange part vf e (a / size * size) size (pteAddr e), true)), s)

/-! The caches of R98. -/

def CachedRange.covers (r : CachedRange) (part : Nat) (vf : Option Nat) (a : Nat) : Bool :=
  decide (r.part = part ∧ r.vf = vf ∧ r.base ≤ a ∧ a < r.base + r.len)

/-- The core's range TLB, then the die's range cache (R98). -/
def State.cachedRange (s : State) (w : XWho) (vf : Option Nat) (a : Nat) : Option CachedRange :=
  let tlb := match w.core with
    | some k => (s.core k).tlb
    | none => []
  match tlb.find? (fun r => r.covers w.part vf a) with
  | some r => some r
  | none => (FMap.getD s.ms.rcache [] w.die).find? (fun r => r.covers w.part vf a)

/-- Keep an entry in a cache of `n` entries: a full one loses an entry of the model's free choice
(log 10). -/
def keepIn (n pick : Nat) (l : List CachedRange) (r : CachedRange) : List CachedRange :=
  if l.length < n then r :: l else r :: l.eraseIdx (pick % n)

/-- Keep a translation in the core's range TLB and the die's range cache (R98). -/
def State.keepRange (s : State) (w : XWho) (r : CachedRange) : State :=
  let k := Config.pick s.turn.freeCount
  let s := match w.core with
    | some c => s.modCore c (fun x => { x with tlb := keepIn 32 k x.tlb r })
    | none => s
  { s with ms := { s.ms with rcache := FMap.setD s.ms.rcache [] w.die (keepIn 2048 k (FMap.getD s.ms.rcache [] w.die) r) } }

/-- Drop every cached entry that satisfies a test, in every core and die (R101, R199). -/
def State.dropRanges (s : State) (test : CachedRange → Bool) : State :=
  let keep := fun (l : List CachedRange) => l.filter (fun r => !test r)
  { s with cores := FMap.mapVals (fun _ c => { c with tlb := keep c.tlb }) s.cores,
           ms := { s.ms with rcache := FMap.filterKV (fun _ l => !l.isEmpty) (FMap.mapVals (fun _ l => keep l) s.ms.rcache) } }

/-- The code with which the hypervisor has denied this access, if it has (R102). -/
def State.denied (s : State) (w : XWho) (vf : Option Nat) (a : Nat) : Option Nat :=
  (s.ms.denials.find? (fun d => decide (d.part = w.part ∧ d.vf = vf ∧ d.addr = a ∧ d.asker = w.asker))).map (fun d => d.code)

/-- Forget the hypervisor's denials that the asker has now met (R102). -/
def State.dropDenials (s : State) (w : XWho) : State := s.forgetDenials (fun a => decide (a = w.asker))

/-! Translation. -/

/-- Host-assisted walks are on, and the assist table is usable (R78, R80, R102). -/
def State.assistOn (s : State) (p bit : Nat) : Bool :=
  bitAt (s.part p).funcctl bit && decide ((s.part p).assistBase ≠ 0) && (s.hyperOff ((s.part p).assistBase) 4096).isSome

/-- One stage of a translation (R98): caches, range table, page walk. `fault` gives a fault of this
stage at its input address. With no page table root a miss raises TRANSLATION, host-assisted walks or not (log 61). -/
def stageLookup (w : XWho) (vf : Option Nat) (regs : Stage) (rd : TableRead) (fault : Nat → XFault) (a need : Nat)
    (s : State) : Except XStop CachedRange × State :=
  let miss := XStop.fault (fault fTranslation)
  match s.denied w vf a, s.cachedRange w vf a with
  | some k, _ => (.error (.fault (fault k)), s)
  | none, some r => (.ok r, s)
  | none, none =>
    match searchRanges rd w.part vf a miss (min regs.inRcnt 65536) regs.inRtab s with
    | (.error x, s) => (.error x, s)
    | (.ok (some r), s) => (.ok r, s.keepRange w r)
    | (.ok none, s) =>
      if regs.inPtroot = 0 then (.error miss, s)
      else if s.assistOn w.part 0 then (.error (.assist (.walk vf.isNone a need)), s)
      else match walkFrom rd w.part vf a 4 regs.inPtroot s with
        | (.error x, s) => (.error x, s)
        | (.ok none, s) => (.error miss, s)
        | (.ok (some (r, keep)), s) => (.ok r, if keep then s.keepRange w r else s)

/-- The first sector of a range whose poison the controller detects first and posts (R213): contain
is on for the partition. -/
def State.toPost (s : State) (p off n : Nat) : Option Nat :=
  if s.assistOn p 3 then
    ((List.range ((off + n - 1) / 32 + 1 - off / 32)).map (fun i => off / 32 + i)).find? (fun k =>
      FMap.getD s.ms.poison false k && !FMap.getD s.ms.known false k)
  else none

/-- A word of a table in another package: its home answers (log 17), over a path (R31); `bad` and `refused` are the faults
of a poisoned and of a refused one (R93, R482). -/
def remoteTable (p vf pa : Nat) (bad refused : XFault) (s : State) : Except XStop Nat × State :=
  if s.pathDead p (pkgOf pa) then (.error (.fault { (XFault.phys fUncorrectable pa).ofTable with pathFail := true }), s)
  else if !s.pathUp p (pkgOf pa) then (.error (.assist (.path (pkgOf pa))), s)
  else
    let q := (s.sendRemote vf 0 pa 8 [] false).farRead 8
    (if q.1.refused then .error (.fault refused) else if q.1.poison then .error (.fault bad) else .ok (ofBytesLE q.1.bytes), q.2)

/-- The fault of a stage-2 table read that is refused or meets poison (R482). -/
def XFault.table2 (pa : Nat) : XFault := { (XFault.inter fTranslation pa).ofTable with physical := true }

/-- A stage-2 table is read at a physical address on the hypervisor's behalf (R93, R482). -/
def readTable2 (p vf : Nat) : TableRead := fun pa s =>
  if pa < 2 ^ 51 ∧ pkgOf pa ≠ s.boot.pkg ∧ offOf pa < tierEnd ∧ s.routed p (pkgOf pa) = true then remoteTable p vf pa (.table2 pa) (.table2 pa) s
  else match s.hyperOff pa 8 with
  | some off =>
    match s.toPost p off 8 with
    | some sec => (.error (.assist (.contain sec)), s)
    | none =>
    if s.poisoned off 8 then (.error (.fault (.table2 pa)), s)
    else (.ok (s.wordAt off 8), s.noteRead off 8)
  | none => (.error (.fault (.table2 pa)), s)

/-- Stage 2 of an intermediate address. One of 2^48 or more, which only a leaf of a stage-1 page table can give, raises
TRANSLATION at stage 2 with that address (log 61). -/
def lookup2 (w : XWho) (ipa need : Nat) (s : State) : Except XStop CachedRange × State :=
  if 2 ^ 48 ≤ ipa then (.error (.fault (.inter fTranslation ipa)), s)
  else stageLookup w none (s.part w.part).stage2 (readTable2 w.part w.vf) (fun k => .inter k ipa) ipa need s

/-- A stage-1 table is read at an intermediate address through stage 2, as a read (R482). -/
def readTable1 (w : XWho) : TableRead := fun ia s =>
  match lookup2 w ia 1 s with
  | (.error (.fault f), s) => (.error (.fault (if f.physical then f else (XFault.inter f.code ia).ofTable)), s)
  | (.error x, s) => (.error x, s)
  | (.ok r, s) =>
    if !bitAt r.perm 0 then (.error (.fault (XFault.inter fPermission ia).ofTable), s)
    else
      let pa := r.target + (ia - r.base)
      match s.letIn w.part pa with
      | .ok (.own off) =>
        match s.toPost w.part off 8 with
        | some sec => (.error (.assist (.contain sec)), s)
        | none => if s.poisoned off 8 then (.error (.fault (XFault.phys fTranslation pa).ofTable), s) else (.ok (s.wordAt off 8), s.noteRead off 8)
      | .ok (.remote pa) => remoteTable w.part w.vf pa (XFault.phys fTranslation pa).ofTable (XFault.phys fPermission pa).ofTable s
      | .error f => (.error (.fault f.ofTable), s)

/-- Stage 1 of a device virtual address. -/
def lookup1 (w : XWho) (va need : Nat) (s : State) : Except XStop CachedRange × State :=
  stageLookup w (some w.vf) (s.vf w.vf).stage1 (readTable1 w) (fun k => .virt k va) va need s

/-- Every permission bit of `need` is in `perm` (R100): R = 1, W = 2, X = 4. -/
def permits (perm need : Nat) : Bool := perm &&& need == need

/-- A device virtual address to a physical one with its effective policy (R94, R98 to R100). -/
def translate (w : XWho) (va need : Nat) (s : State) : Except XStop (Nat × Nat) × State :=
  if 2 ^ 48 ≤ va then (.error (.fault (.virt fTranslation va)), s)
  else match lookup1 w va need s with
    | (.error x, s) => (.error x, s)
    | (.ok r1, s) =>
      if !permits r1.perm need then (.error (.fault (.virt fPermission va)), s)
      else
        let ipa := r1.target + (va - r1.base)
        match lookup2 w ipa need s with
        | (.error x, s) => (.error x, s)
        | (.ok r2, s) =>
          if !permits r2.perm need then (.error (.fault (.inter fPermission ipa)), s)
          else (.ok (r2.target + (ipa - r2.base), max r1.policy r2.policy), s)

/-- Translate, and let the address in (R93, R98 to R100). A package that no path reaches is waited for, and after 100 µs
the access faults (R31). -/
def resolve (w : XWho) (va need : Nat) (s : State) : Except XStop (Place × Nat) × State :=
  match translate w va need s with
  | (.error x, s) => (.error x, s)
  | (.ok (pa, pol), s) =>
    match s.letIn w.part pa with
    | .ok (.own off) => (.ok (.own off, pol), s)
    | .ok (.remote pa) =>
      if s.pathDead w.part (pkgOf pa) then (.error (.fault { XFault.virt fUncorrectable va with pathFail := true }), s)
      else if s.pathUp w.part (pkgOf pa) then (.ok (.remote pa, pol), s)
      else (.error (.assist (.path (pkgOf pa))), s)
    | .error f => (.error (.fault f), s)

/-- Translate for an access that ends with its first fault: a refusal of the hypervisor is then used up (R102). -/
def resolveOnce (w : XWho) (va need : Nat) (s : State) : Except XStop (Place × Nat) × State :=
  match resolve w va need s with
  | (.error (.fault f), s) => (.error (.fault f), s.dropDenials w)
  | r => r

/-- The translation of a group's accesses: those of the instruction that issues, or of the group's engines. -/
def State.whoOf (s : State) (gid : Nat) : XWho :=
  let vf := s.vfOf gid
  ⟨(s.vf vf).part, vf, some (coreOf gid), dieOf (coreOf gid), s.turn.cur⟩

/-- The translation of a unit of a VF, which uses die 0's range cache (log 10). -/
def State.whoVf (s : State) (vf : Nat) : XWho := ⟨(s.vf vf).part, vf, none, 0, s.turn.cur⟩

/-! The assist table (R80). -/

/-- The lowest free slot of a partition's assist table. -/
def Partition.freeAssist (p : Partition) : Option Nat := (List.range 64).find? (fun k => (FMap.find p.assist k).isNone)

/-- The 64 bytes of a request (R80). -/
def assistBytes (r : AssistReq) : List Byte :=
  bytesLE 1 r.fn ++ bytesLE 3 0 ++ bytesLE 4 r.reason ++ ((List.range 7).map (fun i => bytesLE 8 (r.data.getD i 0))).flatten

end Sys2Proof.Machine
end

