-- ==== Sys2Proof/Machine/MemPath.lean ====
section
/-! DEFINITION. The memory path of one package: L2 and L1 (R103, R190 to R197), poison (R209,
R210), what a write does to other agents (R144, R216, R234, R404), the Pool (R168, R169), the stack
check (R380), and transactional buffering (R219, R220, R235). -/

namespace Sys2Proof.Machine

/-! L2 and L1. -/

/-- The home slice of an offset (R196, R197). -/
def sliceOf (o : Nat) : Nat :=
  if o < capBase then (field o 8 9 ^^^ field o 17 9 ^^^ field o 26 9 ^^^ field o 35 5) / 2
  else
    let lch := (o - capBase) / 256 % 48
    64 * (lch / 12) + (field o 8 6 ^^^ field o 14 6 ^^^ field o 20 6 ^^^ field o 26 6 ^^^ field o 32 6 ^^^ field o 38 4)

/-- Drop a line's sectors from every L1 of the package (R195). -/
def State.dropLine (s : State) (line : Nat) : State :=
  { s with cores := FMap.mapVals (fun _ c => { c with l1 := FMap.filterKV (fun k _ => decide (k / 8 ≠ line)) c.l1 }) s.cores }

/-- The key of a memory line or sector: an own offset, or the address of a peer's memory beside it (R29, R190). -/
def peerKey (pa : Nat) : Nat := 2 ^ 51 + pa

/-- The sectors of a line that `n` bytes from a key meet, as bits. -/
def sectorBits (line key n : Nat) : Nat := (spanUnits 32 key n).foldl (fun m k => if k / 8 = line then m ||| 2 ^ (k % 8) else m) 0

/-- A line after an access to some of its sectors (R193, R194): those read or filled are valid, those written are dirty
as well. -/
def L2Line.access (x : L2Line) (bits : Nat) (write : Bool) : L2Line :=
  { x with valid := x.valid ||| bits, dirty := if write then x.dirty ||| bits else x.dirty }

/-- The L2 as an access of a partition to one line leaves it (R103): whether the line is held, and the lines from the
most to the least recently used. A line that leaves takes its sectors from every L1 (R195). -/
def State.touchLine (s : State) (p line bits : Nat) (write : Bool) : Bool × State :=
  let quota := (s.part p).l2q
  match s.ms.l2.find? (fun x => decide (x.line = line)) with
  | some x => (true, { s with ms := { s.ms with l2 := x.access bits write :: s.ms.l2.filter (fun y => decide (y.line ≠ line)) } })
  | none =>
    if quota = 0 then (false, s)
    else
      let sl := sliceOf (offOf (line * 256))
      let set := Config.l2Set line % 256
      let own := s.ms.l2.filter (fun x => decide (x.part = p ∧ x.slice = sl))
      let inSet := s.ms.l2.filter (fun x => decide (x.slice = sl ∧ x.set = set))
      let fresh : L2Line := (⟨sl, set, line, p, 0, 0⟩ : L2Line).access bits write
      if own.length < quota ∧ inSet.length < 16 - FMap.getD s.boot.l2Ways 0 sl then
        (true, { s with ms := { s.ms with l2 := fresh :: s.ms.l2 } })
      else match (inSet.filter (fun x => decide (x.part = p))).getLast? with
        | some v => (true, ({ s with ms := { s.ms with l2 := fresh :: s.ms.l2.filter (fun x => decide (x.line ≠ v.line)) } }).dropLine v.line)
        | none => (false, s)

/-- An access of `n` bytes from a key (R103, R193): whether its last line is held. -/
def State.touchL2 (s : State) (p key n : Nat) (write : Bool) : Bool × State :=
  (spanUnits 256 key n).foldl (fun r line => r.2.touchLine p line (sectorBits line key n) write) (false, s)

/-- The 32 bytes of a sector as one value. -/
def State.sectorAt (s : State) (sec : Nat) : BitVec 256 := BitVec.ofNat 256 (s.wordAt (sec * 32) 32)

/-- The L1 holds a sector, as far as the manual lets the core keep it (R190; log 9). -/
def State.l1Has (s : State) (core sec kept : Nat) : Bool :=
  (FMap.find (s.core core).l1 sec).isSome && Config.l1Kept sec kept

/-- The lines of an L1: two sectors each. -/
def l1Lines (l : FMap (BitVec 256)) : List Nat := (l.map (fun q => q.1 / 2)).eraseDups

/-- Put a sector into the L1 (R158, R190): 256 KiB in 256 sets of 16 lines. A full set loses a line of the model's free
choice (log 9). -/
def l1Insert (l : FMap (BitVec 256)) (pick sec : Nat) (d : BitVec 256) : FMap (BitVec 256) :=
  if l.length < 16 ∨ (l1Lines l).contains (sec / 2) then FMap.insert l sec d
  else
    let inSet := (l1Lines l).filter (fun k => decide (Config.l1Set k % 256 = Config.l1Set (sec / 2) % 256))
    if inSet.length < 16 then FMap.insert l sec d
    else FMap.insert (FMap.filterKV (fun k _ => decide (k / 2 ≠ inSet.getD (pick % inSet.length) 0)) l) sec d

/-- A core keeps a sector that the L2 holds (R190, R195). -/
def State.fillL1 (s : State) (core sec : Nat) (d : BitVec 256) : State :=
  s.modCore core (fun c => { c with l1 := l1Insert c.l1 (Config.pick s.turn.freeCount) sec d })

/-- A read of `n` bytes at home by a device agent of a partition: the tracked copies (R216) and the L2. -/
def State.readHome (s : State) (p off n : Nat) : State := ((s.noteRead off n).touchL2 p off n false).2

/-- Bytes of a copy of a sector, from the place of an address in it. -/
def sectorBytes (d : BitVec 256) (a n : Nat) : List Byte := bytesLE n (field d.toNat (8 * (a % 32)) (8 * n))

/-- Bytes merged into a copy of a sector, from byte `o` of it on. -/
def mergeSector (d : BitVec 256) (o : Nat) (b : List Byte) : BitVec 256 :=
  BitVec.ofNat 256 (setField d.toNat (8 * o) (8 * b.length) (ofBytesLE b))

/-- Update a valid sector of the writer's own L1 in place with the bytes written, which lie in one sector
(R190): its other bytes stay the copy's own. -/
def State.updateL1 (s : State) (core off : Nat) (b : List Byte) : State :=
  let sec := off / 32
  match FMap.find (s.core core).l1 sec with
  | some d => s.modCore core (fun c => { c with l1 := FMap.insert c.l1 sec (mergeSector d (off % 32) b) })
  | none => s

/-- Drop the core's L1 copy of a sector (R190: atomics). -/
def State.dropSector (s : State) (core off : Nat) : State :=
  s.modCore core (fun c => { c with l1 := FMap.erase c.l1 (off / 32) })

/-- A load's bytes at an own offset (R190, R210): from the L1's copy, where that serves it, else from the home, where poison
answers none. A load that the L1 may not serve leaves no older copy there (R253). -/
def State.loadHome (s : State) (core p pol : Nat) (copy : Option (BitVec 256)) (off n : Nat) : Option (List Byte) × State :=
  match copy with
  | some d => (some (sectorBytes d off n), s)
  | none =>
    if s.poisoned off n then (none, s)
    else
      let b := s.bytesAt off n
      let q := (s.noteRead off n).touchL2 p off n false
      (some b, if pol = 0 && q.1 then q.2.fillL1 core (off / 32) (q.2.sectorAt (off / 32)) else q.2.dropSector core off)

/-- Answers of operations that have been sent already leave nothing of a line of a peer's memory in a cache (R215, R253). -/
def State.spoilPeer (s : State) (pa : Nat) : State :=
  { s with ms := { s.ms with peerGone := FMap.insert s.ms.peerGone (peerKey pa / 256) s.turn.nextId } }

/-- The core's own copy of a sector of a peer's memory after a write of the core (R190). -/
def State.updatePeer (s : State) (core pa : Nat) (b : List Byte) : State := (s.updateL1 core (peerKey pa) b).spoilPeer pa

/-- The core's copy of a sector of a peer's memory goes. -/
def State.dropPeer (s : State) (core pa : Nat) : State := (s.dropSector core (peerKey pa)).spoilPeer pa

/-- The answer of an operation to another package may be kept: neither the L1 nor the line has been dropped since it was
sent (R191, R215, R253). -/
def State.keepsPeer (s : State) (core id pa : Nat) : Bool :=
  decide ((s.core core).l1From ≤ id ∧ FMap.getD s.ms.peerGone 0 (peerKey pa / 256) ≤ id)

/-! What a write does to other agents. -/

/-- A hart's integer register (R230); x0 discards. -/
def Hart.setX (h : Hart) (n : Nat) (v : BitVec 64) : Hart := if n = 0 then h else { h with x := FMap.setD h.x 0#64 n v }

/-- A host transaction aborts (R230, R236): registers return, the status goes to rd of the outermost
`tx.open`, and the hart goes on after it. -/
def Hart.abort (h : Hart) (code detail : Nat) : Hart :=
  ({ h with x := h.recX, f := h.recF, depth := 0, recX := [], recF := [], pc := h.resume, buf := [], rsig := [], wsig := [], slices := [], ticket := false, home := none }).setX h.rd (BitVec.ofNat 64 (detail % 256 * 256 + code))

/-- Abort a hart's open transaction; its ticket is void. -/
def State.abortHart (s : State) (k code detail : Nat) : State :=
  if (s.hart k).depth = 0 then s
  else
    let s := s.modHart k (fun h => h.abort code detail)
    { s with tickets := s.tickets.filter (fun t => decide (t ≠ .hart k)) }

/-- Harts with an open transaction. -/
def State.openHarts (s : State) : List Nat := (s.harts.filter (fun q => decide (q.2.depth ≠ 0))).map (fun q => q.1)

/-- A non-transactional write meets open host transactions (R234); a false hit acts as a true one
(R232, log 1). -/
def State.checkHost (s : State) (off : Nat) : State :=
  s.openHarts.foldl (fun s k =>
    let h := s.hart k
    let g := off / 64
    let hit := h.rsig.contains g || h.wsig.contains g || (h.slices.contains (sliceOf off) && Config.falseHit s.turn.freeCount)
    let s := { s with turn := { s.turn with freeCount := s.turn.freeCount + 1 } }
    if hit then s.abortHart k xConflict 0 else s) s

/-- The demotion of a group ends when another agent writes into its watch set (R144). -/
def State.wakeWatch (s : State) (by_ : Option Nat) (key : Nat) : State :=
  { s with groups := FMap.mapVals (fun gid g =>
      if decide (by_ ≠ some gid) && g.spin.demoted && g.spin.passDone && g.spin.watch.contains key then
        { g with spin := { g.spin with demoted := false, watching := false, passDone := false, watch := [] } }
      else g) s.groups }

/-- Every BOW that waits on a line is read again (R404). -/
def State.wakeBow (s : State) (line : Nat) : State :=
  s.groups.foldl (fun s q => q.2.table.foldl (fun s e =>
    match e.2.wait with
    | .bow l _ _ => if l = line then s.schedule (.bowReread q.1 e.1) else s
    | _ => s) s) s

/-- The queue units re-read a wait object after a write to its line (R67). -/
def State.wakeQueues (s : State) (line : Nat) : State :=
  s.vfs.foldl (fun s q =>
    let hit := fun (r : PendingRec) => decide (r.line = some line)
    let s := if (q.2.starting.map hit).getD false then s.schedule (.wobjReread q.1) else s
    if (q.2.dlq.head?.map hit).getD false then s.schedule (.dlqRecordStart q.1) else s) s

/-- A directory entry after a write of a device agent to granules of its line: the host's copies of them go, and every
peer's copy of the line (R215, R216). -/
def DirEntry.deviceWrite (d : DirEntry) (granules : List Nat) : DirEntry := ⟨FMap.filterKV (fun k _ => !granules.contains k) d.host, []⟩

/-- The number of a message to a peer that takes its copy of a line away (R215). -/
def invalidateKind : Nat := 64

/-- The peers that hold a copy of a line are told that it is gone (R215). -/
def State.tellPeers (s : State) (line : Nat) (d : DirEntry) : State :=
  d.peers.foldl (fun s q => s.send (.millrace invalidateKind (nodeOf s.boot.pkg * 8 + q.1) (line * 256) 256 [] false ⟨0, 0, 0⟩)) s

/-- The tracked copies of a line after a write of `n` bytes at an offset (R216). -/
def State.dropCopies (s : State) (off n line : Nat) : State :=
  match FMap.find s.ms.dir line with
  | none => s
  | some d =>
    let s := s.tellPeers line d
    let gs := ((spanUnits 64 off n).filter (fun g => decide (g / 4 = line))).map (fun g => g % 4)
    { s with ms := { s.ms with dir := FMap.setD s.ms.dir DirEntry.empty line (d.deviceWrite gs) } }

/-- What follows a write of `n` bytes at home: tracked copies go (R216), host transactions are checked
(R234), spin watches and BOW waits are told. -/
def State.noteWrite (s : State) (by_ : Option Nat) (off n : Nat) : State :=
  let lines := spanUnits 256 off n
  let s := lines.foldl (fun s l => s.dropCopies off n l) s
  let s := if s.harts.isEmpty then s else (spanUnits 64 off n).foldl (fun s g => s.checkHost (g * 64)) s
  let s := (spanUnits 32 off n).foldl (fun s k => s.wakeWatch by_ k) s
  lines.foldl (fun s l => (s.wakeBow l).wakeQueues l) s

/-- What follows a write of a whole range of bytes that starts and ends on lines, by a unit on the hypervisor's behalf: as
`noteWrite`. -/
def State.noteRange (s : State) (lo n : Nat) : State :=
  let hit := fun (unit k : Nat) => decide (lo ≤ k * unit ∧ k * unit < lo + n)
  let s := (s.ms.dir.filter (fun q => hit 256 q.1)).foldl (fun s q => s.tellPeers q.1 q.2) s
  let s := { s with ms := { s.ms with dir := FMap.filterKV (fun k _ => !hit 256 k) s.ms.dir } }
  let s := s.openHarts.foldl (fun s k => if ((s.hart k).rsig ++ (s.hart k).wsig).any (hit 64) then s.abortHart k xConflict 0 else s) s
  let s := s.groups.foldl (fun s q =>
    let s := (q.2.spin.watch.filter (hit 32)).foldl (fun s k => s.wakeWatch none k) s
    q.2.table.foldl (fun s e => match e.2.wait with
      | .bow l _ _ => if hit 256 l then s.schedule (.bowReread q.1 e.1) else s
      | _ => s) s) s
  ((s.vfs.map (fun q => (q.2.starting.toList ++ q.2.dlq).filterMap (fun r => r.line))).flatten.filter (hit 256)).foldl (fun s l => s.wakeQueues l) s

/-- Write bytes at home: one access of an agent of partition `p`. -/
def State.writeHome (s : State) (by_ : Option Nat) (p off : Nat) (b : List Byte) : State :=
  let s := (s.touchL2 p off b.length true).2
  let s := { s with ms := { s.ms with mem := putBytes s.ms.mem off b } }
  s.noteWrite by_ off b.length

/-- The L2 holds a sector valid: a partial store to one that it does not hold reads memory first (R194). -/
def State.l2Valid (s : State) (sec : Nat) : Bool := s.ms.l2.any (fun x => decide (x.line = sec / 8) && bitAt x.valid (sec % 8))

/-- The sectors that a range of bytes meets but does not cover. -/
def partSectors (off n : Nat) : List Nat := (spanUnits 32 off n).filter (fun k => !decide (off ≤ 32 * k ∧ 32 * k + 32 ≤ off + n))

/-- The first sector that a write fills from memory and whose poison the controller detects first (R194, R213). -/
def State.fillPost (s : State) (p off n : Nat) : Option Nat :=
  ((partSectors off n).filter (fun k => !s.l2Valid k)).findSome? (fun k => s.toPost p (32 * k) 32)

/-- Sectors all of whose bytes a request writes lose their poison (R194, R209). -/
def State.clearPoison (s : State) (written : List (Nat × Nat)) : State :=
  let secs := ((written.map (fun q => (List.range ((q.1 + q.2 - 1) / 32 + 1 - q.1 / 32)).map (fun i => q.1 / 32 + i))).flatten).eraseDups
  let full := secs.filter (fun sec => (List.range 32).all (fun i => written.any (fun q => decide (q.1 ≤ sec * 32 + i ∧ sec * 32 + i < q.1 + q.2))))
  { s with ms := { s.ms with poison := full.foldl (fun m sec => FMap.erase m sec) s.ms.poison,
                             known := full.foldl (fun m sec => FMap.erase m sec) s.ms.known } }

/-- Mark or clear the poison of one sector. -/
def State.setPoison (s : State) (sec : Nat) (b : Bool) : State :=
  { s with ms := { s.ms with poison := FMap.setD s.ms.poison false sec b, known := if b then s.ms.known else FMap.erase s.ms.known sec } }

/-! The Pool window. -/

/-- The base of the Pool window (R168). -/
def poolBase : Nat := 0xFFFFFFC00000
def poolSize : Nat := 0x400000
/-- The window offset of the tile store (R168). -/
def tileOff : Nat := 0x200000
/-- The tile bytes that the window reaches (R168). -/
def tileMax : Nat := 0x1F8000
/-- The window offset of the trap region (R168). -/
def trapOff : Nat := 0x3F8000

/-- An address lies in the Pool window. -/
def inPool (a : Nat) : Bool := decide (poolBase ≤ a ∧ a < poolBase + poolSize)

/-- A location of the Pool. -/
inductive PoolLoc where
  | sc (o : Nat)
  | ti (o : Nat)
  | trap (o : Nat)
  deriving DecidableEq, Repr

/-- What a window offset maps to (R168): `trapOk` for LD and ST in single-lane mode. -/
def poolLoc (b : Block) (wo size : Nat) (trapOk : Bool) : Except Nat PoolLoc :=
  if wo + size ≤ b.scSize then .ok (.sc wo)
  else if tileOff ≤ wo ∧ wo + size ≤ tileOff + min b.tiSize tileMax then .ok (.ti (wo - tileOff))
  else if trapOff ≤ wo then (if trapOk then .ok (.trap (wo - trapOff)) else .error fPermission)
  else .error fPoolRange

/-- The key of a Pool sector in a block's poison map, and in a watch set. -/
def PoolLoc.sector : PoolLoc → Nat
  | .sc o => o / 32
  | .ti o => 2 ^ 20 + o / 32
  | .trap o => 2 ^ 21 + o / 32

/-- The key of a Pool byte, 32 to a sector key. -/
def PoolLoc.byteKey : PoolLoc → Nat
  | .sc o => o
  | .ti o => 2 ^ 25 + o
  | .trap o => 2 ^ 26 + o

/-- Where a list of written ranges holds the keys of Pool bytes. -/
def poolMark : Nat := 2 ^ 62

/-- Pool sectors all of whose bytes a request writes lose their poison (R209). -/
def State.clearPoolPoison (s : State) (bk : Nat) (written : List (Nat × Nat)) : State :=
  let pw := (written.filter (fun q => decide (poolMark ≤ q.1))).map (fun q => (q.1 - poolMark, q.2))
  let secs := (pw.map (fun q => q.1 / 32)).eraseDups
  let full := secs.filter (fun sec => (List.range 32).all (fun i => pw.any (fun q => decide (q.1 ≤ sec * 32 + i ∧ sec * 32 + i < q.1 + q.2))))
  if full.isEmpty then s else s.modBlock bk (fun b => { b with poison := full.foldl (fun m sec => FMap.erase m sec) b.poison })

/-- The watch key of a Pool sector of a block (R144). -/
def poolWatch (bk : Nat) (l : PoolLoc) : Nat := 2 ^ 60 + bk * 2 ^ 22 + l.sector

/-- Bytes of the Pool (log 5). -/
def State.poolBytes (s : State) (bk core : Nat) (l : PoolLoc) (n : Nat) : List Byte :=
  let m := match l with
    | .sc _ => (match FMap.find s.blocks bk with
      | some b => b.sc
      | none => [])
    | .ti _ => (match FMap.find s.blocks bk with
      | some b => b.ti
      | none => [])
    | .trap _ => (s.core core).trap
  let o := match l with
    | .sc o => o
    | .ti o => o
    | .trap o => o
  (List.range n).map (fun i => FMap.getD m 0#8 (o + i))

/-- Write bytes of the Pool; other groups that watch the sector wake (R144). -/
def State.poolWrite (s : State) (by_ : Option Nat) (bk core : Nat) (l : PoolLoc) (b : List Byte) : State :=
  let s := match l with
    | .sc o => s.modBlock bk (fun x => { x with sc := putBytes x.sc o b })
    | .ti o => s.modBlock bk (fun x => { x with ti := putBytes x.ti o b })
    | .trap o => s.modCore core (fun c => { c with trap := putBytes c.trap o b })
  s.wakeWatch by_ (poolWatch bk l)

/-- A Pool sector is poisoned (R209). -/
def State.poolPoisoned (s : State) (bk : Nat) (l : PoolLoc) : Bool :=
  match FMap.find s.blocks bk with
  | some b => FMap.getD b.poison false l.sector
  | none => false

/-! The stack check. -/

/-- The clusters of a partition, in ascending number. -/
def Partition.clusters (p : Partition) : List Nat := (List.range 64).filter (fun c => bitAt p.pclus c)

/-- The partition cluster index of a cluster of this package (R71): ascending order of package index, then of cluster. -/
def Partition.clusterIndex (p : Partition) (cl : Nat) : Nat := p.clusBelow + (p.clusters.filter (fun c => decide (c < cl))).length

/-- The number of clusters of a partition on all of its packages (R71). -/
def Partition.clusterCount (p : Partition) : Nat := p.clusBelow + p.clusters.length + p.clusAbove

/-- The slice of thread t and the checked range (R380, R464): lo, hi, start and end of C. -/
def State.stackSlice (s : State) (gid t : Nat) (stklim : Nat) : Nat × Nat × Nat × Nat :=
  match s.gridOf gid with
  | none => (0, 0, 0, 0)
  | some gr =>
    let z := gr.hdr.ssize
    let p := s.part (s.partOf gid)
    let core := coreOf gid
    let j := p.clusterIndex (clusterOf core)
    let slot := (j * 9 + core % 9) * 64 + slotOf gid
    let hi := gr.hdr.stack + (slot * 64 + t + 1) * z
    (hi - 16 * min (stklim % 2 ^ 17) (z / 16), hi, gr.hdr.stack, gr.hdr.stack + p.clusterCount * 36864 * z)

/-- A store of a thread breaks its stack limit (R380). -/
def State.stackFault (s : State) (gid t stklim a size : Nat) : Bool :=
  let r := s.stackSlice gid t stklim
  decide (r.2.2.1 ≤ a ∧ a < r.2.2.2) && !decide (r.1 ≤ a ∧ a + size ≤ r.2.1)

/-! Where an access goes. -/

/-- Where one access of a thread goes, or its fault (R187, R379). -/
inductive Reach where
  | pool (l : PoolLoc)
  | own (off pol : Nat)
  | remote (pa pol : Nat)
  | fault (f : XFault)
  deriving DecidableEq, Repr

/-- The kind of an access: its permissions (R100). -/
inductive AccKind where
  | load
  | store
  | atomic
  deriving DecidableEq, Repr

def AccKind.need : AccKind → Nat
  | .load => 1
  | .store => 2
  | .atomic => 3

/-- Steps 1 to 5 of R379 for one thread: the place, or the fault; or an address that the hypervisor
has to answer. -/
def State.reach (s : State) (c : Ctx) (t a size : Nat) (k : AccKind) : Except AssistNeed Reach × State :=
  match FMap.find s.groups c.gid, s.blockOf c.gid with
  | some g, some b =>
    if a % size ≠ 0 then (.ok (.fault (.virt fMisaligned a)), s)
    else if 2 ^ 48 ≤ a then (.ok (.fault (.virt fTranslation a)), s)
    else if inPool a then
      match poolLoc b (a - poolBase) size (c.single && decide (k ≠ .atomic)) with
      | .ok l => (.ok (.pool l), s)
      | .error code => (.ok (.fault (.virt code a)), s)
    else if !c.single && decide (k ≠ .load) && s.stackFault c.gid t g.stklim a size then
      (.ok (.fault (.virt fStackLimit a)), s)
    else match resolve (s.whoOf c.gid) a k.need s with
      | (.ok (.own off, pol), s) => (.ok (.own off pol), s)
      | (.ok (.remote pa, pol), s) => (.ok (.remote pa pol), s)
      | (.error (.fault f), s) => (.ok (.fault f), s)
      | (.error (.assist x), s) => (.error x, s)
  | _, _ => (.ok (.fault (.virt fTranslation a)), s)

/-! Transactional accesses. -/

/-- Distinct 64-byte lines of a byte map. -/
def linesOf (m : FMap Byte) : List Nat := (m.map (fun q => q.1 / 64)).eraseDups

/-- The lines that a lane has read and written (R220). -/
def TxLane.lines (x : TxLane) : Nat := x.rlines.length + (linesOf x.wbuf).length

/-- The footprint of a group: its lanes with an open transaction (R220). -/
def Group.footprint (g : Group) : Nat := (g.tx.filter (fun q => q.2.isOpen)).foldl (fun n q => n + q.2.lines) 0

/-- The footprint of a core (R220). -/
def State.coreFootprint (s : State) (core : Nat) : Nat :=
  (s.groups.filter (fun q => decide (coreOf q.1 = core))).foldl (fun n q => n + q.2.footprint) 0

/-- A transactional access of a lane to the line of `pa` (R220, R235): the abort it meets, if any. The room is tested lane
by lane, in ascending order (log 74). -/
def State.enterTx (s : State) (gid t pa : Nat) (write : Bool) : Option LaneAbort :=
  match FMap.find s.groups gid with
  | none => none
  | some g =>
    let x := g.lane t
    let held := if write then (linesOf x.wbuf).contains (pa / 64) else x.rlines.contains (pa / 64)
    if decide (x.home ≠ none ∧ x.home ≠ some (pkgOf pa)) then some ⟨t, xRemote, 0⟩
    else if held then none
    else if 512 < g.footprint + 1 ∨ 2048 < s.coreFootprint (coreOf gid) + 1 then some ⟨t, xCapacity, 0⟩
    else none

/-- The lane's home and read lines after a transactional read (R220, R235). -/
def TxLane.noteRead (x : TxLane) (pa : Nat) : TxLane :=
  { x with home := some (x.home.getD (pkgOf pa)), rlines := if x.rlines.contains (pa / 64) then x.rlines else (pa / 64) :: x.rlines }

/-- One byte of a transactional read (R220): the lane's own byte, or the home's, which is logged. -/
def TxLane.readByte (x : TxLane) (pa : Nat) (b : Byte) : Byte × TxLane :=
  match FMap.find x.wbuf pa with
  | some v => (v, x)
  | none =>
    match FMap.find x.rlog pa with
    | some v => (b, if v = b then x else { x with torn := true })
    | none => (b, { x with rlog := FMap.insert x.rlog pa b })

/-- The bytes of a transactional read. -/
def txReadBytes : TxLane → Nat → List Byte → List Byte × TxLane
  | x, _, [] => ([], x)
  | x, pa, b :: r =>
    let q := x.readByte pa b
    let y := txReadBytes q.2 (pa + 1) r
    (q.1 :: y.1, y.2)

/-- Buffer the bytes of a transactional write (R220). -/
def TxLane.writeBytes (x : TxLane) (pa : Nat) (b : List Byte) : TxLane :=
  { x with home := some (x.home.getD (pkgOf pa)),
           wbuf := (b.mapIdx (fun i v => (pa + i, v))).foldl (fun m q => FMap.insert m q.1 q.2) x.wbuf }

/-- The physical address of an own offset (R16). -/
def State.paOf (s : State) (off : Nat) : Nat := s.boot.pkg * 2 ^ 42 + off

/-! Messages to other packages. -/

/-- The group has written to a package since the last flush (R259). -/
def Group.noteRemoteWrite (g : Group) (pkg : Nat) : Group :=
  { g with links := { g.links with written := if g.links.written.contains pkg then g.links.written else pkg :: g.links.written } }

/-! Bandwidth (R105, R106). -/

/-- The bucket of a VF on a die: one FMap entry, full where unlisted. -/
def bucketKey (vf die : Nat) : Nat := vf * 4 + die

/-- The bandwidth entry of a VF. -/
def State.bandwidth (s : State) (vf : Nat) : Bandwidth := FMap.getD (s.part (s.vf vf).part).bw ⟨0, 0, false⟩ (s.vf vf).index

/-- Bucket size (R105): values below 8 act as 8. -/
def Bandwidth.size (b : Bandwidth) : Nat := max 8 b.burst

/-- Tokens in a bucket: full where it was filled at the enable, and empty where nothing filled it. -/
def State.tokens (s : State) (vf die : Nat) : Nat := FMap.getD s.buckets 0 (bucketKey vf die)

/-- The reservoir of a partition on a die. -/
def reservoirKey (p die : Nat) : Nat := p * 4 + die

/-- The requests of a VF on a die that wait for bandwidth, in arrival order (R106): a group's table entry, 16 for the
handler, or 64 and the number of an engine command. -/
def Vf.waiting (v : Vf) (die : Nat) : List (Nat × Nat) := FMap.getD v.tokenQ [] die

/-- The split waits for bandwidth. -/
def Wait.isTokens (w : Wait) : Bool :=
  match w with
  | .tokens _ _ => true
  | _ => false

/-- A held request of a VF still waits, and may go on: a frozen group's may not. -/
def State.inLine (s : State) (vf : Nat) (x : Nat × Nat) : Bool :=
  decide (s.vfOf x.1 = vf) &&
    (if 64 ≤ x.2 then (s.core (coreOf x.1)).queue.any (fun q => decide (q.id + 64 = x.2) && !q.stopped)
    else (decide (x.2 = 16) || ((FMap.find s.groups x.1).map (fun g => decide (g.status = .running))).getD false) &&
      ((s.ctxOf (some (issuerAt x.1 x.2))).map (fun c => c.split.wait.isTokens)).getD false)

/-- No request of the VF on the die is held before this one (R106). -/
def State.nextInLine (s : State) (vf die : Nat) (who : Nat × Nat) : Bool :=
  match ((s.vf vf).waiting die).filter (s.inLine vf) with
  | [] => true
  | x :: _ => decide (x = who)

/-- A request is held for bandwidth, or leaves the line. -/
def State.joinLine (s : State) (vf die : Nat) (who : Nat × Nat) : State :=
  s.modVf vf (fun v => if (v.waiting die).contains who then v else { v with tokenQ := FMap.setD v.tokenQ [] die (v.waiting die ++ [who]) })
def State.leaveLine (s : State) (vf die : Nat) (who : Nat × Nat) : State :=
  if (s.vf vf).tokenQ.isEmpty then s
  else s.modVf vf (fun v => { v with tokenQ := FMap.setD v.tokenQ [] die ((v.waiting die).filter (fun x => decide (x ≠ who))) })

/-- A request of `n` sectors may go out now: no other is held before it, and its tokens are there (R106). -/
def State.mayGoOut (s : State) (vf die n : Nat) (who : Nat × Nat) : Bool :=
  !(s.bandwidth vf).en || (s.nextInLine vf die who && decide (n ≤ s.tokens vf die + FMap.getD s.reservoirs 0 (reservoirKey (s.vf vf).part die)))

/-- A request of `n` sectors takes its tokens, all or none (R106): from the bucket, and what is missing from the
reservoir. One that cannot is held, and holds back the VF's later requests on the die. -/
def State.spend (s : State) (vf die n : Nat) (who : Nat × Nat) : Bool × State :=
  if !(s.bandwidth vf).en ∨ n = 0 then (true, s.leaveLine vf die who)
  else
    let k := reservoirKey (s.vf vf).part die
    let tok := s.tokens vf die
    let res := FMap.getD s.reservoirs 0 k
    if s.mayGoOut vf die n who then
      (true, { s with buckets := FMap.setD s.buckets 0 (bucketKey vf die) (tok - n), reservoirs := FMap.setD s.reservoirs 0 k (res - (n - tok)) }.leaveLine vf die who)
    else (false, s.joinLine vf die who)

/-! Hypervisor memory and the assist table (R80). -/

/-- Write to hypervisor memory (R93). -/
def State.pokeHyper (s : State) (pa : Nat) (b : List Byte) : State :=
  match s.hyperOff pa b.length with
  | some off => { s with ms := { s.ms with mem := putBytes s.ms.mem off b } }.noteWrite none off b.length
  | none => s

/-- Post a request: its slot is written and the physical function's vector is signalled (R80). A poisoned sector is posted
once (R213). The slot, or none when the table is full. -/
def State.postAssist (s : State) (p : Nat) (r : AssistReq) : Option Nat × State :=
  match (s.part p).freeAssist with
  | none => (none, s)
  | some k =>
    let s := s.modPart p (fun x => { x with assist := FMap.insert x.assist k r })
    let s := if r.fn = 3 then { s with ms := { s.ms with known := FMap.insert s.ms.known (offOf (r.data.getD 0 0) / 32) true } } else s
    (some k, (s.pokeHyper ((s.part p).assistBase + 64 * k) (assistBytes r)).signalPf p)

/-- Hold a unit's event until a slot of an assist table frees (R80), or a path is there or has timed out (R31). -/
def State.holdEvent (s : State) (i : Instr) : State :=
  if s.turn.held.contains i then s else { s with turn := { s.turn with held := s.turn.held ++ [i] } }

/-- Post a request of a unit, or hold the unit's event until a slot frees (R80). -/
def State.postOrHold (s : State) (p : Nat) (r : AssistReq) (i : Instr) : State :=
  let q := s.postAssist p r
  if q.1.isSome then q.2 else q.2.holdEvent i

/-- The request of a range miss (R102). -/
def walkRequest (w : XWho) (stage2 : Bool) (input need gid entry : Nat) (resume : Option Instr) : AssistReq :=
  ⟨0, 0, [input, w.vf * 2 ^ 16 + (if stage2 then 2 ^ 8 else 0) + (if bitAt need 2 then 4 else 0) + (if bitAt need 1 then 2 else 0) + (if bitAt need 0 then 1 else 0)], gid, entry, resume⟩

/-- The request of R213 for a sector: its physical address, the VF, and the kind of access. -/
def State.containRequest (s : State) (vf sec kind gid entry : Nat) (resume : Option Instr) : AssistReq :=
  ⟨3, 0, [s.boot.pkg * 2 ^ 42 + sec * 32, vf * 2 ^ 16 + kind], gid, entry, resume⟩

/-- The request for what the hypervisor has to answer; `kind` is R213's kind of access. A path is no answer of the
hypervisor. -/
def State.needRequest (s : State) (w : XWho) (x : AssistNeed) (kind gid entry : Nat) (resume : Option Instr) : Option AssistReq :=
  match x with
  | .walk stage2 input need => some (walkRequest w stage2 input need gid entry resume)
  | .contain sec => some (s.containRequest w.vf sec kind gid entry resume)
  | .path _ => none

/-- The event of a unit whose access has to wait: the request is posted, or the event is held. -/
def State.postNeed (s : State) (w : XWho) (x : AssistNeed) (kind gid entry : Nat) (i : Instr) : State :=
  match s.needRequest w x kind gid entry (some i) with
  | some r => s.postOrHold w.part r i
  | none => s.holdEvent i

/-- Events that were held go on. -/
def State.releaseHeld (s : State) : State :=
  let l := s.turn.held
  let s := { s with turn := { s.turn with held := [] } }
  l.foldl (fun s i => s.schedule i) s

end Sys2Proof.Machine
end

