-- ==== Sys2Proof/Machine/Access.lean ====
section
/-! DEFINITION. One memory instruction of a split: the plan of its accesses (R240, R378, R383), its
faults taken together (R381), its waits, and its loads and stores. -/

namespace Sys2Proof.Machine

/-- One access: the thread whose address and data it uses, the threads it serves, and whether it is
transactional (R220, R240, R383). -/
structure Access where
  t : Nat
  targets : BitVec 64
  tx : Bool
  deriving DecidableEq, Repr

/-- One bit of a thread mask. -/
def bitOf (t : Nat) : BitVec 64 := BitVec.twoPow 64 t

/-- The lanes of the executing threads that have an open transaction. -/
def Ctx.txLanes (c : Ctx) (s : State) : BitVec 64 :=
  if c.single then 0#64
  else match FMap.find s.groups c.gid with
    | some g => g.openLanes c.exec
    | none => 0#64

/-- The accesses of an instruction, in ascending thread index. -/
def accessPlan (c : Ctx) (u : Bool) (open_ : BitVec 64) : List Access :=
  if u then
    (if c.exec &&& ~~~open_ = 0#64 then [] else [⟨c.lane, c.exec &&& ~~~open_, false⟩]) ++
      (threadsOf (c.exec &&& open_)).map (fun k => ⟨c.lane, bitOf k, true⟩)
  else (threadsOf c.exec).map (fun t => ⟨t, bitOf t, open_.getLsbD t⟩)

/-- An access with where it goes. -/
abbrev Reached := Access × Reach

/-- Classify every access (R379, steps 1 to 5). -/
def reachAll (c : Ctx) (size : Nat) (k : AccKind) (addr : Nat → Nat) :
    List Access → State → Except AssistNeed (List Reached) × State
  | [], s => (.ok [], s)
  | a :: r, s =>
    match s.reach c a.t (addr a.t) size k with
    | (.error x, s) => (.error x, s)
    | (.ok p, s) =>
      match reachAll c size k addr r s with
      | (.error x, s) => (.error x, s)
      | (.ok l, s) => (.ok ((a, p) :: l), s)

/-- The address of R186: base of thread l, offset of thread t, displacement. -/
def Ctx.address (c : Ctx) (a b : BitVec 8) (size : Nat) (disp : BitVec 64) (t : Nat) : Nat :=
  (c.regs.read64 c.xi c.lane a + zext64 (c.regs.read32 c.xi t b) * BitVec.ofNat 64 size + disp).toNat

/-- What an instruction's accesses have done so far. -/
structure MemAcc where
  s : State
  regs : Regs
  bad : List (Nat × XFault)
  aborts : List LaneAbort
  reqs : List RemoteReq
  written : List (Nat × Nat)
  deriving DecidableEq, Repr

/-- An access faults for every thread it serves (R381). -/
def MemAcc.fail (m : MemAcc) (a : Access) (f : XFault) : MemAcc :=
  { m with bad := m.bad ++ (threadsOf a.targets).map (fun t => (t, f)) }

/-- A lane aborts at its access. -/
def MemAcc.drop (m : MemAcc) (x : LaneAbort) : MemAcc := { m with aborts := m.aborts ++ [x] }

/-- A Pool access of a lane in a transaction (R221). -/
def MemAcc.illegal (m : MemAcc) (a : Access) (op : Nat) : MemAcc :=
  { m with aborts := m.aborts ++ abortsOf a.targets xIllegal op }

/-- An access faults; one of a lane in a transaction at an address of the Pool window aborts with ILLEGAL, whatever else is
wrong with it (R221). -/
def MemAcc.refuse (m : MemAcc) (a : Access) (op : Nat) (f : XFault) : MemAcc :=
  if a.tx && inPool f.addr && !f.stage2 && !f.physical then m.illegal a op else m.fail a f

/-- The lane of a transactional access. -/
def Access.lane (a : Access) : Nat := lowest a.targets

/-- Change the transaction state of a lane of the group. -/
def State.modLane (s : State) (gid t : Nat) (f : TxLane → TxLane) : State :=
  s.modGroup gid (fun g => g.setLane t (f (g.lane t)))

/-- The transaction state of a lane. -/
def State.laneOf (s : State) (gid t : Nat) : TxLane :=
  match FMap.find s.groups gid with
  | some g => g.lane t
  | none => TxLane.empty

/-- The faults of an instruction, taken together (R381): lanes in transactions abort with their own
code (R222), and the lowest of the others gives the code and the address. -/
def memFault (open_ : BitVec 64) (bad : List (Nat × XFault)) (aborts : List LaneAbort) : FaultReq :=
  let tx := (bad.filter (fun q => open_.getLsbD q.1)).map (fun q => (⟨q.1, xFault, q.2.code⟩ : LaneAbort))
  let rest := bad.filter (fun q => !open_.getLsbD q.1)
  let mask := maskOf (rest.map (fun q => q.1))
  let first := ((rest.find? (fun q => decide (q.1 = lowest mask))).map (fun q => q.2)).getD ⟨0, 0, false, false, false, false⟩
  { code := first.code, mask := mask, addr := BitVec.ofNat 64 first.addr, stage2 := first.stage2, physical := first.physical,
    pathFail := first.pathFail, poison := rest.any (fun q => decide (q.2.code = fUncorrectable) && !q.2.pathFail),
    trapKind := false, fetch := false, user := 0, aborts := aborts ++ tx }

/-- The block of the context's group. -/
def Ctx.block (c : Ctx) (s : State) : Nat :=
  match FMap.find s.groups c.gid with
  | some g => g.ident.block
  | none => 0

/-- The end of a memory instruction: it waits for other packages, or it completes, or it faults. -/
def memDone (c : Ctx) (open_ : BitVec 64) (kind : RemoteKind) (word : BitVec 32) (m : MemAcc) : Done :=
  let c := { c with regs := m.regs }
  let s := ((m.s.clearPoison m.written).clearPoolPoison (c.block m.s) m.written).dropDenials (m.s.whoOf c.gid)
  if m.reqs.isEmpty then
    if m.bad.isEmpty && m.aborts.isEmpty then Done.seq s c else .fault s c (memFault open_ m.bad m.aborts)
  else
    let q := s.fresh
    let op : RemoteOp := ⟨q.1, kind, m.reqs, m.bad, m.aborts, word, c.entry⟩
    .stay (q.2.modGroup c.gid (fun g => { g with links := { g.links with remote := g.links.remote ++ [op] } })) c (.remote q.1)

/-- What an instruction waits for, and the state with its request posted: the hypervisor's answer (R102, R213), a free
slot, or a path (R31). -/
def State.waitNeed (s : State) (gid entry : Nat) (x : AssistNeed) : Wait × State :=
  let w := s.whoOf gid
  match x, s.needRequest w x 0 gid entry none with
  | .path pkg, _ => (.path pkg, s)
  | _, some r =>
    let q := s.postAssist w.part r
    (.assist (q.1.getD 64), q.2)
  | _, none => (.none, s)

/-- The instruction waits. -/
def assistWait (c : Ctx) (x : AssistNeed) (s : State) : Done :=
  let q := s.waitNeed c.gid c.entry x
  .stay q.2 c q.1

/-- A first detection of poison under contain = 1 holds the instruction until the hypervisor answers
(R213). -/
def containWait (c : Ctx) (size : Nat) (places : List (Reach)) (s : State) : Option Done :=
  let p := s.partOf c.gid
  match places.findSome? (fun r => match r with
    | .own off _ => s.toPost p off size
    | _ => none) with
  | none => none
  | some sec => some (assistWait c (.contain sec) s)

/-- The requests of an instruction go out one after another: the first that is held, if any, as the number of those before
it and its sectors. -/
def spendAll (vf die : Nat) (who : Nat × Nat) : List Nat → Nat → State → Option (Nat × Nat) × State
  | [], _, s => (none, s)
  | n :: r, out, s =>
    let q := s.spend vf die n who
    if q.1 then spendAll vf die who r (out + 1) q.2 else (some (out, n), q.2)

/-- Count the requests of an instruction, by their sectors, at the requester's die (R106): it goes on once all have gone
out. -/
def chargeSectors (c : Ctx) (sizes : List Nat) (k : State → Done) (s : State) : Done :=
  let out := match c.split.wait with
    | .tokens n _ => n
    | _ => 0
  match spendAll (s.vfOf c.gid) (dieOf (coreOf c.gid)) (c.gid, c.entry) (sizes.drop out) out s with
  | (some q, s) => .stay s c (.tokens q.1 q.2)
  | (none, s) => k s

/-- The access goes to another package. -/
def Reach.isRemote (r : Reach) : Bool :=
  match r with
  | .remote _ _ => true
  | _ => false

/-- The sector of an access that an L1 may hold: at home here, or in a peer's memory (R29, R190). -/
def Reach.cacheKey (r : Reach) (s : State) : Option (Nat × Nat) :=
  match r with
  | .own off pol => some (off / 32, pol)
  | .remote pa pol => if s.isPeer (pkgOf pa) then some (peerKey pa / 32, pol) else none
  | _ => none

/-- The L1's copies that serve the loads of one instruction (R188, R190): of the sectors that every access of it may take
from the L1, as they stand when it issues. -/
def State.l1Copies (s : State) (core kept : Nat) (l : List Reached) : FMap (BitVec 256) :=
  let keys := l.filterMap (fun q => (q.2.cacheKey s).map (fun k => (k.1, !q.1.tx && decide (k.2 = 0))))
  keys.foldl (fun m k =>
    if keys.all (fun x => decide (x.1 ≠ k.1) || x.2) && s.l1Has core k.1 kept then
      (match FMap.find (s.core core).l1 k.1 with
        | some d => FMap.insert m k.1 d
        | none => m)
    else m) []

/-- The copy that serves an access, if one does. -/
def Reach.copyIn (r : Reach) (s : State) (copies : FMap (BitVec 256)) : Option (BitVec 256) := (r.cacheKey s).bind (fun k => FMap.find copies k.1)

/-- How many of the sectors lie in each line that they meet: an instruction makes one request for each 256-byte line
(R106; log 33). -/
def lineRequests (secs : List Nat) : List Nat := ((secs.map (fun k => k / 8)).eraseDups).map (fun l => (secs.filter (fun k => decide (k / 8 = l))).length)

/-- The requests that an instruction sends into the fabric, as their numbers of sectors (R189, R106). -/
def fabricSectors (s : State) (copies : FMap (BitVec 256)) (l : List Reached) : List Nat :=
  lineRequests ((l.filterMap (fun q => match q.2 with
    | .own off _ => if (q.2.copyIn s copies).isSome then none else some (off / 32)
    | .remote pa _ => if (q.2.copyIn s copies).isSome then none else some (peerKey pa / 32)
    | _ => none)).eraseDups)

/-- Add a sector to the watch set of a demoted group in its first pass (R144): more than eight leave
it empty. -/
def Group.watchSector (g : Group) (key : Nat) : Group :=
  if !g.spin.watching || g.spin.watch.contains key then g
  else if 8 ≤ g.spin.watch.length then { g with spin := { g.spin with watching := false, passDone := true, watch := [] } }
  else { g with spin := { g.spin with watch := key :: g.spin.watch } }

/-- The flashback filter bit of a window offset (R154). -/
def filterBit (wo : Nat) : Nat := wo / 256 % 512

/-- The window offset of a Pool location. -/
def PoolLoc.window : PoolLoc → Nat
  | .sc o => o
  | .ti o => tileOff + o
  | .trap o => trapOff + o

/-- A group's load from the Pool sets its filter bit (R154). -/
def Group.filterLoad (g : Group) (l : PoolLoc) : Group :=
  { g with fp := { g.fp with filter := g.fp.filter ||| BitVec.twoPow 512 (filterBit l.window) } }

/-- A group's store to the Pool closes its region where the filter bit is set (R154, R464). -/
def Group.filterStore (g : Group) (l : PoolLoc) : Group :=
  if g.fp.filter.getLsbD (filterBit l.window) then g.closeRegion 5 else g

/-- Note a Pool access of a group; the handler's are not the group's. -/
def State.notePool (s : State) (c : Ctx) (store : Bool) (l : PoolLoc) (bk : Nat) : State :=
  if c.single then s
  else s.modGroup c.gid (fun g => if store then g.filterStore l else (g.filterLoad l).watchSector (poolWatch bk l))

/-- A group reads a sector: a demoted one watches it (R144); the handler's reads are not the group's. -/
def State.watchOf (s : State) (c : Ctx) (key : Nat) : State := if c.single then s else s.modGroup c.gid (fun g => g.watchSector key)

/-- The agent by which a group's write is known to other groups' watches. -/
def Ctx.writer (c : Ctx) : Option Nat := if c.single then none else some c.gid

/-! Loads. -/

/-- Write a loaded value (R376 to R378): 1, 2 and 4 bytes to a register, 8 to a pair, 16 to a quad. -/
def Regs.writeLoaded (r : Regs) (size : Nat) (signed : Bool) (d : BitVec 8) (t v : Nat) : Regs :=
  match size with
  | 8 => r.write64 t d (BitVec.ofNat 64 v)
  | 16 => r.writeRunList t d 0 ((List.range 4).map (fun i => BitVec.ofNat 32 (field v (32 * i) 32)))
  | _ => r.write32 t d (BitVec.ofNat 32 (if signed then ofSigned 32 (toSigned (8 * size) v) else v))

/-- Give a value to every thread that an access serves. -/
def writeTargets (f : Regs → Nat → Regs) (targets : BitVec 64) (r : Regs) : Regs := (threadsOf targets).foldl f r

/-- Bytes of a transactional load of a lane: none where poison meets a byte that the lane has not
written (R210, R220). The home serves it, and the core keeps no older copy of what it has now read (R253). -/
def txLoad (s : State) (gid t off size : Nat) : Option (List Byte) × State :=
  let x := s.laneOf gid t
  let pa := s.paOf off
  if s.poisoned off size && (List.range size).any (fun i => (FMap.find x.wbuf (pa + i)).isNone) then (none, s)
  else
    let q := txReadBytes (x.noteRead pa) pa (s.bytesAt off size)
    (some q.1, ((s.readHome (s.partOf gid) off size).dropSector (coreOf gid) off).modLane gid t (fun _ => q.2))

/-- One access of a load. `put` writes the value to a thread; `copies` are the L1's sectors that serve the instruction. -/
def loadOne (c : Ctx) (op size : Nat) (copies : FMap (BitVec 256)) (addr : Nat → Nat) (put : Nat → Regs → Nat → Regs) (m : MemAcc) (q : Reached) : MemAcc :=
  let a := q.1
  let s := m.s
  let give := fun (m : MemAcc) (b : List Byte) => { m with regs := writeTargets (put (ofBytesLE b)) a.targets m.regs }
  match q.2 with
  | .fault f => m.refuse a op f
  | .pool l =>
    if a.tx then m.illegal a op
    else if s.poolPoisoned (c.block s) l then m.fail a (.virt fUncorrectable (addr a.t))
    else give { m with s := s.notePool c false l (c.block s) } (s.poolBytes (c.block s) (coreOf c.gid) l size)
  | .own off pol =>
    if a.tx then
      match s.enterTx c.gid a.lane (s.paOf off) false with
      | some x => m.drop x
      | none =>
        match txLoad s c.gid a.lane off size with
        | (some b, s) => give { m with s := s.watchOf c (off / 32) } b
        | (none, s) => { m with s := s }.fail a (.virt fUncorrectable (addr a.t))
    else
      let p := s.partOf c.gid
      match s.loadHome (coreOf c.gid) p pol (q.2.copyIn s copies) off size with
      | (some b, s) => give { m with s := s.watchOf c (off / 32) } b
      | (none, s) => { m with s := s }.fail a (.virt fUncorrectable (addr a.t))
  | .remote pa pol =>
    match q.2.copyIn s copies with
    | some d => give { m with s := s.watchOf c (peerKey pa / 32) } (sectorBytes d pa size)
    | none =>
    let abort := if a.tx then s.enterTx c.gid a.lane pa false else none
    match abort with
    | some x => m.drop x
    | none =>
      let s := if a.tx then (s.modLane c.gid a.lane (fun x => x.noteRead pa)).dropPeer (coreOf c.gid) pa
        else if pol = 0 then s else s.dropPeer (coreOf c.gid) pa
      let s := s.watchOf c (peerKey pa / 32)
      { m with s := s.sendRemote (s.vfOf c.gid) 0 pa size [] false, reqs := m.reqs ++ [⟨a.targets, a.t, addr a.t, pa, size, !a.tx && decide (pol = 0)⟩] }

/-- A load of a split (R378). -/
def runLoad (c : Ctx) (u : Bool) (op size : Nat) (word : BitVec 32) (d : BitVec 8) (signed : Bool) (addr : Nat → Nat) (s : State) : Done :=
  let open_ := c.txLanes s
  match reachAll c size .load addr (accessPlan c u open_) s with
  | (.error x, s) => assistWait c x s
  | (.ok l, s) =>
    let copies := s.l1Copies (coreOf c.gid) s.turn.freeCount l
    let detect := l.filterMap (fun q => match q.2 with
      | .own _ _ => if (q.2.copyIn s copies).isSome then none else some q.2
      | _ => none)
    (containWait c size detect s).getD <|
    chargeSectors c (fabricSectors s copies l) (fun s =>
      let s := { s with turn := { s.turn with freeCount := s.turn.freeCount + 1 } }
      let put := fun v r t => r.writeLoaded size signed d t v
      memDone c open_ (.load d.toNat signed) word (l.foldl (loadOne c op size copies addr put) ⟨s, c.regs, [], [], [], []⟩)) s

/-! Releases. -/

/-- The fault of R31 for an access, or of R19 where the package is not routed (R107, R260). -/
def State.pathFault (s : State) (p pa va : Nat) : XFault :=
  if s.routed p (pkgOf pa) then { XFault.virt fUncorrectable va with pathFail := true } else .phys fTranslation pa

/-- The numbers by which flush markers are known that no group sends: of a grid (R72), of a fallback lock whose holder is
gone (R227), of a tier move (R199), and of an engine command (R410). -/
def gridSender (grid : Nat) : Nat := 2 ^ 30 + 4 * grid
def lockSender (part : Nat) : Nat := 2 ^ 30 + 4 * part + 1
def moveSender (move : Nat) : Nat := 2 ^ 30 + 4 * move + 2
def engineSender (command : Nat) : Nat := 2 ^ 30 + 4 * command + 3

/-- No request of a partition can reach a package: it is not routed (R19), or no path has led there for 100 µs (R31). -/
def State.unreachable (s : State) (p pkg : Nat) : Bool := s.pathDead p pkg || !s.routed p pkg

/-- Send a flush marker of a VF's group to each package of a list (R259); one that cannot be reached times out (R31). -/
def State.sendMarkers (s : State) (vf gid : Nat) (l : List Nat) : List (Nat × Nat) × State :=
  l.foldl (fun (r : List (Nat × Nat) × State) pkg =>
    let q := r.2.fresh
    let s := q.2.send (.flushMarker pkg gid q.1 (q.2.sender vf))
    (r.1 ++ [(pkg, q.1)], if s.unreachable (s.vf vf).part pkg then s.schedule (.millracePathTimeout pkg) else s)) ([], s)

/-- Markers have been sent after everything that the group has written so far. -/
def Links.marked (l : Links) (marks : List (Nat × Nat)) : Links :=
  { l with written := [], flush := l.flush ++ marks,
           stores := l.stores.map (fun q => if q.2.2 = 0 then (q.1, q.2.1, ((marks.find? (fun m => decide (m.1 = q.2.1))).map (fun m => m.2)).getD 0) else q) }

/-- A release of the threads of `m` (R259, R260): every package written since the last release answers a
flush marker first. -/
def withReleaseOf (m : BitVec 64) (k : State → Ctx → Done) (s : State) (c : Ctx) : Done :=
  match FMap.find s.groups c.gid, c.split.wait with
  | none, _ => k s c
  | some _, .unreached pkg =>
    .fault s c (memFault 0#64 ((threadsOf m).map (fun t => (t, s.pathFault (s.partOf c.gid) (pkg * 2 ^ 42) 0))) [])
  | some g, _ =>
    if g.links.written.isEmpty then (if g.links.flush.isEmpty then k s c else .stay s c .flush)
    else
      let q := s.sendMarkers (s.vfOf c.gid) c.gid g.links.written
      .stay (q.2.modGroup c.gid (fun g => { g with links := g.links.marked q.1 })) c .flush

/-- A release of every thread of the split. -/
def withRelease (k : State → Ctx → Done) (s : State) (c : Ctx) : Done := withReleaseOf c.split.mask k s c

/-- The stores of a group that are outstanding (R398). -/
def Group.storeCount (g : Group) : Nat := ((g.links.stores.map (fun q => q.1)).eraseDups).length

/-- A store that would take its group's counter past 255 waits to issue (R398): what the group has written is flushed. -/
def storeRoom (m : BitVec 64) (k : State → Done) (c : Ctx) (s : State) : Done :=
  match FMap.find s.groups c.gid with
  | some g => if g.storeCount < 255 then k s else withReleaseOf m (fun s _ => k s) s c
  | none => k s

/-! Stores. -/

/-- A thread's store data (R376): the low bytes of D. -/
def Ctx.storeBytes (c : Ctx) (size : Nat) (d : BitVec 8) (t : Nat) : List Byte :=
  match size with
  | 8 => bytesLE 8 (c.regs.read64 c.xi t d).toNat
  | 16 => ((List.range 4).map (fun i => bytesLE 4 (c.regs.readRun t d i).toNat)).flatten
  | _ => bytesLE size (c.regs.read32 c.xi t d).toNat

/-- A write of a group to another package is posted (R259): its next release sends a flush marker there. -/
def State.postWrite (s : State) (gid pa : Nat) (b : List Byte) (poison : Bool) : State :=
  (s.sendRemote (s.vfOf gid) 1 pa b.length b poison).modGroup gid (fun g => g.noteRemoteWrite (pkgOf pa))

/-- A write of a core for a group to another package: its home may refuse it (R93; log 17). -/
def State.writeFar (s : State) (gid pa : Nat) (b : List Byte) (poison : Bool) : Bool × State :=
  let q := s.farRefuses
  if q.1 then (false, q.2.sendRemote (q.2.vfOf gid) 1 pa b.length b poison) else (true, (q.2.postWrite gid pa b poison).updatePeer (coreOf gid) pa b)

/-- A store of a group to another package is outstanding until the answer of a marker sent after it (R259, R398). -/
def Group.noteStore (g : Group) (n pkg : Nat) : Group :=
  if g.links.stores.contains (n, pkg, 0) then g else { g with links := { g.links with stores := g.links.stores ++ [(n, pkg, 0)] } }

/-- One access of a store (R188, R220): `n` numbers the instruction. -/
def storeOne (c : Ctx) (op size n : Nat) (data : Nat → List Byte) (m : MemAcc) (q : Reached) : MemAcc :=
  let a := q.1
  let s := m.s
  let b := data a.t
  match q.2 with
  | .fault f => m.refuse a op f
  | .pool l =>
    if a.tx then m.illegal a op
    else { m with s := (s.notePool c true l (c.block s)).poolWrite c.writer (c.block s) (coreOf c.gid) l b, written := m.written ++ [(poolMark + l.byteKey, size)] }
  | .own off _ =>
    if a.tx then
      match s.enterTx c.gid a.lane (s.paOf off) true with
      | some x => m.drop x
      | none => { m with s := s.modLane c.gid a.lane (fun x => x.writeBytes (s.paOf off) b) }
    else { m with s := (s.writeHome c.writer (s.partOf c.gid) off b).updateL1 (coreOf c.gid) off b, written := m.written ++ [(off, size)] }
  | .remote pa _ =>
    if a.tx then
      match s.enterTx c.gid a.lane pa true with
      | some x => m.drop x
      | none => { m with s := s.modLane c.gid a.lane (fun x => x.writeBytes pa b) }
    else
      let r := s.writeFar c.gid pa b false
      if r.1 then { m with s := r.2.modGroup c.gid (fun g => g.noteStore n (pkgOf pa)) } else { m with s := r.2 }.fail a (.phys fPermission pa)

/-- The partial stores of an instruction to sectors that the L2 does not hold valid: each reads memory first, and may
meet poison (R194, R213). -/
def partialFills (p size : Nat) (s : State) (l : List Reached) : List Reach :=
  if !s.assistOn p 3 then []
  else
    let offs := l.filterMap (fun q => match q.2 with
      | .own off _ => if q.1.tx then none else some off
      | _ => none)
    let whole := fun (sec : Nat) => (List.range 32).all (fun i => offs.any (fun o => decide (o ≤ sec * 32 + i ∧ sec * 32 + i < o + size)))
    (l.filter (fun q => match q.2 with
      | .own off _ => !q.1.tx && !s.l2Valid (off / 32) && !whole (off / 32)
      | _ => false)).map (fun q => q.2)

/-- A store of a split (R378). -/
def runStore (c : Ctx) (u : Bool) (op size : Nat) (word : BitVec 32) (d : BitVec 8) (addr : Nat → Nat) (s : State) : Done :=
  let open_ := c.txLanes s
  match reachAll c size .store addr (accessPlan c u open_) s with
  | (.error x, s) => assistWait c x s
  | (.ok l, s) =>
    (containWait c size (partialFills (s.partOf c.gid) size s l) s).getD <|
    let far := l.any (fun q => !q.1.tx && q.2.isRemote)
    let body := chargeSectors c (fabricSectors s [] l) (fun s =>
      let n := if far then s.fresh else (0, s)
      memDone c open_ (.load d.toNat false) word (l.foldl (storeOne c op size n.1 (c.storeBytes size d)) ⟨n.2, c.regs, [], [], [], []⟩))
    if far then storeRoom c.split.mask body c s else body s

end Sys2Proof.Machine
end

