-- ==== Sys2Proof/Machine/Memory.lean ====
section
/-! DEFINITION. The loads, stores, constant loads and atomics, opcodes 0x48 to 0x53: R376 to R392. -/

namespace Sys2Proof.Machine

/-- A load or store takes its displacement from EXTV (R376). -/
def Ctx.disp24 (c : Ctx) : BitVec 64 := sext64 c.extv

/-- The data operand of an access of `size` bytes is valid (R377): as a destination, or as a source. -/
def dataOk (allot size : Nat) (dest : Bool) (d : BitVec 8) : Bool :=
  match size with
  | 8 => if dest then dst64Ok allot d else src64Ok allot false d
  | 16 => quadOk allot d
  | _ => if dest then dst32Ok allot d else src32Ok allot false d

/-- Registers that a data operand of `size` bytes spans. -/
def dataRegs (size : Nat) : Nat := if size = 16 then 4 else if size = 8 then 2 else 1

/-- The address operands are valid (R377): a pair and a 32-bit source, neither `xi`. -/
def addrOk (allot : Nat) (a b : BitVec 8) : Bool := src64Ok allot false a && src32Ok allot false b

/-- The bytes are sign-extended (R378). -/
def loadSigned (size et : Nat) : Bool := decide (size ≤ 2) && etypeSigned et

/-- A load (R376 to R383). -/
def vLoad (u : Bool) (op size : Nat) (word : BitVec 32) (d a b : BitVec 8) (s : State) (c : Ctx) : Done :=
  if !(dataOk c.allot size true d && addrOk c.allot a b) then Done.early s c fIllegalReg
  else if c.mustWait (touchesAcc (dataRegs size) d || touchesAcc 2 a || touchesAcc 1 b) then .stay s c .gridOps
  else runLoad c u op size word d (loadSigned size c.etype) (c.address a b size c.disp24) s

/-- A store (R376 to R383). -/
def vStore (u : Bool) (op size : Nat) (word : BitVec 32) (d a b : BitVec 8) (s : State) (c : Ctx) : Done :=
  if !(dataOk c.allot size false d && addrOk c.allot a b) then Done.early s c fIllegalReg
  else if c.mustWait (touchesAcc (dataRegs size) d || touchesAcc 2 a || touchesAcc 1 b) then .stay s c .gridOps
  else runStore c u op size word d (c.address a b size c.disp24) s

/-! Constant loads. -/

/-- The offset of a constant load in the bank (R384), exact. -/
def Ctx.constOff (c : Ctx) (b : BitVec 8) (size t : Nat) : Int :=
  (c.regs.read32 c.xi t b).toNat * (size : Int) + (c.extv.toInt : Int)

/-- Put a line into the constant cache of 1,024 lines: a full one loses a line of the model's free choice
(R192; log 9). -/
def ccInsert (m : FMap (BitVec 512)) (pick key : Nat) (d : BitVec 512) : FMap (BitVec 512) :=
  FMap.insert (if m.length < 1024 then m else m.eraseIdx (pick % 1024)) key d

/-- A line of the constant bank through the constant cache (R192): bytes at offset `o` of the bank,
where the bank's line lies at an own offset. Poison in the bytes answers none; a line with poison is
not kept. -/
def State.constRead (s : State) (core grid p line home o n : Nat) : Option (List Byte) × State :=
  let key := grid * 1024 + line
  match FMap.find (s.core core).cc key with
  | some d => (some (bytesLE n (field d.toNat (8 * (o % 64)) (8 * n))), s)
  | none =>
    if s.poisoned (home + o % 64) n then (none, s)
    else
      let v := s.bytesAt (home + o % 64) n
      let s := s.readHome p home 64
      if s.poisoned home 64 then (some v, s)
      else
        let k := Config.pick s.turn.freeCount
        let s := if (s.core core).cc.length < 1024 then s else { s with turn := { s.turn with freeCount := s.turn.freeCount + 1 } }
        (some v, s.modCore core (fun c => { c with cc := ccInsert c.cc k key (BitVec.ofNat 512 (s.wordAt home 64)) }))

/-- Where a constant load goes: out of the bank, the bank's line at an own offset, or elsewhere. -/
inductive ConstReach where
  | misaligned
  | outside
  /-- a line of the constant cache, as it stands when the load issues -/
  | cached (d : BitVec 512)
  | place (line : Nat) (pl : Place)
  | fault (f : XFault)
  deriving DecidableEq, Repr

/-- Classify a constant load (R384). -/
def constReach (c : Ctx) (gr : Grid) (grid size : Nat) (o : Int) (s : State) : Except AssistNeed ConstReach × State :=
  if o % (size : Int) ≠ 0 then (.ok .misaligned, s)
  else if o < 0 ∨ (gr.hdr.csize : Int) < o + size then (.ok .outside, s)
  else
    let line := o.toNat / 64
    match FMap.find (s.core (coreOf c.gid)).cc (grid * 1024 + line) with
    | some d => (.ok (.cached d), s)
    | none => match resolve (s.whoOf c.gid) (gr.hdr.cbank + line * 64) 1 s with
      | (.ok (pl, _), s) => (.ok (.place line pl), s)
      | (.error (.fault f), s) => (.ok (.fault (if f.table then f else { f with addr := f.addr + o.toNat % 64 })), s)
      | (.error (.assist x), s) => (.error x, s)

/-- Classify every thread's constant load. -/
def constReachAll (c : Ctx) (gr : Grid) (grid size : Nat) (off : Nat → Int) :
    List Access → State → Except AssistNeed (List (Access × ConstReach)) × State
  | [], s => (.ok [], s)
  | a :: r, s =>
    match constReach c gr grid size (off a.t) s with
    | (.error x, s) => (.error x, s)
    | (.ok p, s) =>
      match constReachAll c gr grid size off r s with
      | (.error x, s) => (.error x, s)
      | (.ok l, s) => (.ok ((a, p) :: l), s)

/-- One thread's constant load (R384). -/
def constOne (c : Ctx) (gr : Grid) (grid size : Nat) (d : BitVec 8) (off : Nat → Int) (m : MemAcc) (q : Access × ConstReach) : MemAcc :=
  let a := q.1
  let s := m.s
  let o := (off a.t).toNat
  let va := (BitVec.ofInt 64 (gr.hdr.cbank + off a.t)).toNat
  let put := fun (m : MemAcc) (v : Nat) => { m with regs := writeTargets (fun r t => r.writeLoaded size false d t v) a.targets m.regs }
  let read := fun (line home : Nat) =>
    match s.constRead (coreOf c.gid) grid (s.partOf c.gid) line home o size with
    | (some b, s) => put { m with s := s.watchOf c ((home + o % 64) / 32) } (ofBytesLE b)
    | (none, s) => { m with s := s }.fail a (.virt fUncorrectable va)
  match q.2 with
  | .misaligned => m.fail a (.virt fMisaligned va)
  | .outside => put m 0
  | .cached d => put m (field d.toNat (8 * (o % 64)) (8 * size))
  | .place line (.own home) => read line home
  | .place _ (.remote pa) =>
    { m with s := (s.watchOf c (peerKey (pa + o % 64) / 32)).sendRemote (s.vfOf c.gid) 0 (pa + o % 64) size [] false, reqs := m.reqs ++ [⟨a.targets, a.t, va, pa + o % 64, size, true⟩] }
  | .fault f => m.fail a f

/-- The requests of an instruction's constant loads that miss the constant cache, as their numbers of sectors (R106): a line
of the bank from its home here, or the bytes of another package's. -/
def constSectors (off : Nat → Int) (l : List (Access × ConstReach)) : List Nat :=
  lineRequests ((l.map (fun q => match q.2 with
    | .place _ (.own home) => [home / 32, home / 32 + 1]
    | .place _ (.remote pa) => [peerKey (pa + (off q.1.t).toNat % 64) / 32]
    | _ => [])).flatten.eraseDups)

/-- A constant load (R384): it is never transactional (R240, R384). -/
def vConstLoad (u : Bool) (word : BitVec 32) (d b : BitVec 8) (s : State) (c : Ctx) : Done :=
  let size := if etypeWide c.etype then 8 else 4
  if !(dataOk c.allot size true d && src32Ok c.allot false b) then Done.early s c fIllegalReg
  else if c.mustWait (touchesAcc (dataRegs size) d || touchesAcc 1 b) then .stay s c .gridOps
  else match s.blockOf c.gid with
    | none => .next s
    | some blk => match FMap.find s.grids blk.grid with
      | none => .next s
      | some gr =>
        let off := fun t => c.constOff b size t
        match constReachAll c gr blk.grid size off (accessPlan c u 0#64) s with
        | (.error x, s) => assistWait c x s
        | (.ok l, s) =>
          let detect := l.filterMap (fun q => match q.2 with
            | .place _ (.own home) => some (Reach.own home 0)
            | _ => none)
          (containWait c 64 detect s).getD <|
          chargeSectors c (constSectors off l) (fun s => memDone c (c.txLanes s) (.load d.toNat false) word
            (l.foldl (constOne c gr blk.grid size d off) ⟨s, c.regs, [], [], [], []⟩)) s

/-! Atomics. -/

/-- The operations of AT (R385). -/
inductive AtOp where
  | add | min | max | and | or | xor | xch | cas | inc | agg | fadd
  deriving DecidableEq, Repr

/-- The operation's code (R385). -/
def AtOp.code : AtOp → Nat
  | .add => 0 | .min => 1 | .max => 2 | .and => 3 | .or => 4 | .xor => 5 | .xch => 6 | .cas => 7 | .inc => 8 | .agg => 9 | .fadd => 10

/-- The operation of a code. -/
def atOpOf (n : Nat) : AtOp :=
  match n with
  | 0 => .add | 1 => .min | 2 => .max | 3 => .and | 4 => .or | 5 => .xor | 6 => .xch | 7 => .cas | 8 => .inc | 9 => .agg | _ => .fadd

/-- The etypes that an operation accepts (R386). -/
def AtOp.etOk (op : AtOp) (et : Nat) : Bool :=
  let int := decide (et = 0 ∨ et = 1 ∨ et = 9 ∨ et = 10)
  let flt := decide (et = 6 ∨ et = 7 ∨ et = 8)
  match op with
  | .xch => int || flt
  | .cas => int || flt
  | .fadd => flt
  | _ => int

/-- The access size (R386). -/
def atSize (et : Nat) : Nat := if etypeWide et then 8 else 4

/-- D is valid (R387). -/
def atDataOk (op : AtOp) (allot size : Nat) (d : BitVec 8) : Bool :=
  if op = .cas then (if size = 8 then quadOk allot d else dst64Ok allot d)
  else if size = 8 then dst64Ok allot d else dst32Ok allot d

/-- Registers that D spans. -/
def atRegs (op : AtOp) (size : Nat) : Nat := (if op = .cas then 2 else 1) * (size / 4)

/-- Thread t's x, or its expected value for cas (R387). -/
def Ctx.atX (c : Ctx) (size : Nat) (d : BitVec 8) (t : Nat) : Nat :=
  if size = 8 then (c.regs.read64 c.xi t d).toNat else (c.regs.read32 c.xi t d).toNat

/-- Thread t's new value for cas (R387). -/
def Ctx.atNew (c : Ctx) (size : Nat) (d : BitVec 8) (t : Nat) : Nat :=
  if size = 8 then (pairOf (c.regs.readRun t d 3) (c.regs.readRun t d 2)).toNat else (c.regs.readRun t d 1).toNat

/-- fadd on each element (R389). -/
def atFadd (mode : Word) (et : Nat) (ds : List Nat) (old x : Nat) : Nat :=
  match etypeFloat et with
  | none => old
  | some F => (elemMap et ds (fun r a b _ => fAdd (floatEnv mode F) r a b) (BitVec.ofNat 64 old) (BitVec.ofNat 64 x) 0#64).toNat

/-- The value that an atomic writes (R388): x is the expected value and `nv` the new one for cas. -/
def atResult (op : AtOp) (mode : Word) (et : Nat) (ds : List Nat) (old x nv : Nat) : Nat :=
  let w := 8 * atSize et
  let key := fun v => if etypeSigned et then toSigned w v else (v : Int)
  match op with
  | .add => (old + x) % 2 ^ w
  | .agg => (old + x) % 2 ^ w
  | .min => if key old ≤ key x then old else x
  | .max => if key x ≤ key old then old else x
  | .and => old &&& x
  | .or => old ||| x
  | .xor => old ^^^ x
  | .xch => x
  | .cas => if old = x then nv else old
  | .inc => if x ≤ old then 0 else old + 1
  | .fadd => atFadd mode et ds old x

/-- Write the old value to D (R388): for cas, to the expected half. -/
def Regs.writeOld (r : Regs) (size : Nat) (d : BitVec 8) (t v : Nat) : Regs :=
  if size = 8 then r.write64 t d (BitVec.ofNat 64 v) else r.write32 t d (BitVec.ofNat 32 v)

/-- The sum of x over the threads of T below t (R390). -/
def sumBelow (x : Nat → Nat) (ts : List Nat) (t : Nat) : Nat := ((ts.filter (fun k => decide (k < t))).map x).foldl (fun a b => a + b) 0

/-- What an atomic computes with: operation, sizes, registers' values, draws by thread. -/
structure AtEnv where
  op : AtOp
  et : Nat
  mode : Word
  shared : Bool
  x : Nat → Nat
  nv : Nat → Nat
  ds : Nat → List Nat

/-- An agg of several threads is one add of their sum (R390); a uniform one adds thread l's x (R392). -/
def AtEnv.operand (e : AtEnv) (a : Access) : Nat :=
  if e.op = .agg ∧ !e.shared then ((threadsOf a.targets).map e.x).foldl (fun p q => p + q) 0 else e.x a.t

/-- The value written by an access. -/
def AtEnv.result (e : AtEnv) (a : Access) (old : Nat) : Nat :=
  atResult e.op e.mode e.et (e.ds a.t) old (e.operand a % 2 ^ (8 * atSize e.et)) (e.nv a.t)

/-- The value that thread t receives (R388, R390). -/
def AtEnv.answer (e : AtEnv) (a : Access) (old t : Nat) : Nat :=
  if e.op = .agg ∧ !e.shared then (old + sumBelow e.x (threadsOf a.targets) t) % 2 ^ (8 * atSize e.et) else old

/-- The code of an atomic on its way to another package's home: operation and etype. -/
def atKind (op : AtOp) (et : Nat) : Nat := 2 + op.code + 16 * et

/-- What a home needs to perform an atomic (R29, R388): the operand, the new value, MODE and the draws. -/
def AtEnv.image (e : AtEnv) (a : Access) : List Byte :=
  bytesLE (atSize e.et) (e.operand a) ++ bytesLE (atSize e.et) (e.nv a.t) ++ bytesLE 4 e.mode.toNat ++ ((e.ds a.t).map (fun d => bytesLE 4 d)).flatten

/-- The fields of such an image. -/
def imageNat (b : List Byte) (o n : Nat) : Nat := ofBytesLE ((b.drop o).take n)

/-- The value that an atomic of another package or of the host writes at its home, from its image (R388). -/
def homeResult (kind : Nat) (b : List Byte) (old : Nat) : Nat :=
  let et := kind / 16
  let n := atSize et
  let draws := (List.range ((b.length - (2 * n + 4)) / 4)).map (fun i => imageNat b (2 * n + 4 + 4 * i) 4)
  atResult (atOpOf (kind % 16 - 2)) (BitVec.ofNat 32 (imageNat b (2 * n) 4)) et draws old (imageNat b 0 n) (imageNat b n n)

/-- A transactional atomic of a lane needs its read line and its written line at once (R220, R235). -/
def State.enterAtomic (s : State) (gid t pa : Nat) : Option LaneAbort :=
  match FMap.find s.groups gid with
  | none => none
  | some g =>
    let x := g.lane t
    let need := (if x.rlines.contains (pa / 64) then 0 else 1) + (if (linesOf x.wbuf).contains (pa / 64) then 0 else 1)
    if x.home ≠ none ∧ x.home ≠ some (pkgOf pa) then some ⟨t, xRemote, 0⟩
    else if need ≠ 0 ∧ (512 < g.footprint + need ∨ 2048 < s.coreFootprint (coreOf gid) + need) then some ⟨t, xCapacity, 0⟩
    else none

/-- One access of an atomic (R388 to R391). -/
def atOne (c : Ctx) (e : AtEnv) (d : BitVec 8) (addr : Nat → Nat) (m : MemAcc) (q : Reached) : MemAcc :=
  let a := q.1
  let s := m.s
  let size := atSize e.et
  let give := fun (m : MemAcc) (old : Nat) => { m with regs := writeTargets (fun r t => r.writeOld size d t (e.answer a old t)) a.targets m.regs }
  match q.2 with
  | .fault f => m.refuse a 0x53 f
  | .pool l =>
    let bk := c.block s
    if a.tx then m.illegal a 0x53
    else if s.poolPoisoned bk l then m.fail a (.virt fUncorrectable (addr a.t))
    else
      let old := ofBytesLE (s.poolBytes bk (coreOf c.gid) l size)
      give { m with s := s.poolWrite c.writer bk (coreOf c.gid) l (bytesLE size (e.result a old)) } old
  | .own off _ =>
    if a.tx then
      let pa := s.paOf off
      match s.enterAtomic c.gid a.lane pa with
      | some x => m.drop x
      | none =>
        match txLoad s c.gid a.lane off size with
        | (some b, s) =>
          let old := ofBytesLE b
          give { m with s := s.modLane c.gid a.lane (fun x => x.writeBytes pa (bytesLE size (e.result a old))) } old
        | (none, s) => { m with s := s }.fail a (.virt fUncorrectable (addr a.t))
    else if s.poisoned off size then m.fail a (.virt fUncorrectable (addr a.t))
    else
      let old := s.wordAt off size
      let s := (s.writeHome c.writer (s.partOf c.gid) off (bytesLE size (e.result a old))).dropSector (coreOf c.gid) off
      give { m with s := s } old
  | .remote pa _ =>
    let abort := if a.tx then s.enterAtomic c.gid a.lane pa else none
    match abort with
    | some x => m.drop x
    | none =>
      let s := if a.tx then s.modLane c.gid a.lane (fun x => x.noteRead pa) else s.dropPeer (coreOf c.gid) pa
      let s := if a.tx then s.sendRemote (s.vfOf c.gid) 0 pa size [] false else s.sendRemote (s.vfOf c.gid) (atKind e.op e.et) pa size (e.image a) false
      { m with s := s, reqs := m.reqs ++ [⟨a.targets, a.t, addr a.t, pa, size, false⟩] }

/-- Two accesses name one location. -/
def Reach.same : Reach → Reach → Bool
  | .own x _, .own y _ => decide (x = y)
  | .pool x, .pool y => decide (x = y)
  | .remote x _, .remote y _ => decide (x = y)
  | _, _ => false

/-- An access goes into the fabric (R106, R169). -/
def Reach.inFabric : Reach → Bool
  | .own _ _ => true
  | .remote _ _ => true
  | _ => false

/-- Put an access into the first group of its address (R390). -/
def aggInsert (addr : Nat → Nat) (q : Reached) : List Reached → List Reached
  | [] => [q]
  | p :: r =>
    if !p.1.tx && !q.1.tx && decide (addr p.1.t = addr q.1.t) && p.2.same q.2 then (({ p.1 with targets := p.1.targets ||| q.1.targets }), p.2) :: r
    else p :: aggInsert addr q r

/-- The accesses of an agg: one for each distinct address (R390). -/
def aggMerge (addr : Nat → Nat) (l : List Reached) : List Reached := l.foldl (fun acc q => aggInsert addr q acc) []

/-- The draws of fadd, taken at issue (R288, R389): one set for each executing thread, or one for the
uniform form; the seed after them. -/
def atDraws (c : Ctx) (u : Bool) (op : AtOp) : FMap (List Nat) × Word :=
  let n := if op = .fadd then modeDraws c (etypeCount c.etype) else 0
  if n = 0 ∨ c.exec = 0#64 then ([], c.seed)
  else if u then (let r := srdraws n c.seed; ([(c.lane, r.1)], r.2))
  else (threadsOf c.exec).foldl (fun acc t => (let r := srdraws n acc.2; (FMap.insert acc.1 t r.1, r.2))) ([], c.seed)

/-- The scope, order and displacement fields of EXTV (R385). -/
def Ctx.atScope (c : Ctx) : Nat := field c.extv.toNat 16 4
def Ctx.atOrder (c : Ctx) : Nat := field c.extv.toNat 14 2
def Ctx.atDisp (c : Ctx) : BitVec 64 := sext64 (c.extv.extractLsb' 0 14)

/-- Drop the L1 after an acquire at cluster scope or wider on a location outside the Pool (R191, R391). -/
def acquireDrop (c : Ctx) (open_ : BitVec 64) (l : List Reached) (s : State) : State :=
  let outside := l.any (fun q => !q.1.tx && q.2.inFabric)
  if c.exec &&& ~~~open_ ≠ 0#64 ∧ outside ∧ 3 ≤ c.atScope ∧ c.atOrder % 2 = 1 then s.dropL1 (coreOf c.gid) else s

/-- Perform an atomic whose checks have passed. With `scopeBad` the lanes outside transactions raise SCOPE, and those
inside, whose scope is ignored, are performed (R220, R243). -/
def runAtomic (u : Bool) (op : AtOp) (word : BitVec 32) (d a b : BitVec 8) (open_ : BitVec 64) (scopeBad : Bool) (s : State) (c : Ctx) : Done :=
  let size := atSize c.etype
  let addr := c.address a b size c.atDisp
  let plan := accessPlan c u open_
  match reachAll c size .atomic addr (if scopeBad then plan.filter (fun x => x.tx) else plan) s with
  | (.error x, s) => assistWait c x s
  | (.ok l, s) =>
    let l := if scopeBad then l ++ (plan.filter (fun x => !x.tx)).map (fun x => (x, Reach.fault (.virt fScope 0))) else l
    (containWait c size (l.map (fun q => q.2)) s).getD <|
    let l := if op = .agg ∧ u = false then aggMerge addr l else l
    chargeSectors c ((l.filter (fun q => q.2.inFabric)).map (fun _ => 1)) (fun s =>
      let dr := atDraws c u op
      let e : AtEnv := { op := op, et := c.etype, mode := c.regs.mode, shared := u, x := c.atX size d, nv := c.atNew size d, ds := fun t => (FMap.find dr.1 t).getD [] }
      let s := if c.single then s else s.modGroup c.gid (fun g => (g.closeRegion 1).undemote)
      let m := l.foldl (atOne c e d addr) ⟨s, c.regs, [], [], [], []⟩
      let m := { m with s := acquireDrop c open_ l m.s }
      memDone { c with seed := dr.2 } open_ (.atomic d.toNat op.code c.etype dr.1) word m) s

/-- An atomic (R385 to R392). The scope is checked for lanes outside transactions (R220, R243), and a
release waits for the group's writes to other packages (R259). -/
def vAtomic (u : Bool) (op : AtOp) (word : BitVec 32) (d a b : BitVec 8) (s : State) (c : Ctx) : Done :=
  let size := atSize c.etype
  let open_ := c.txLanes s
  let plain := c.exec &&& ~~~open_
  if !op.etOk c.etype then Done.early s c fIllegalOp
  else if !(atDataOk op c.allot size d && addrOk c.allot a b) then Done.early s c fIllegalReg
  else if c.mustWait (touchesAcc (atRegs op size) d || touchesAcc 2 a || touchesAcc 1 b) then .stay s c .gridOps
  else if 10 ≤ c.atScope ∧ plain ≠ 0#64 then
    (if c.exec &&& open_ = 0#64 then .fault s c (.plain fScope c.exec) else runAtomic u op word d a b open_ true s c)
  else if 2 ≤ c.atOrder ∧ plain ≠ 0#64 then withReleaseOf plain (runAtomic u op word d a b open_ false) s c
  else runAtomic u op word d a b open_ false s c

/-! The instructions. -/

/-- LDB (R376, R378). -/
def execLdb (u : Bool) (d a b : BitVec 8) : State → Host.Outcome State Fault Refusal :=
  let i : Instr := .ldb u d a b
  issue i true (vLoad u 0x48 1 ((encode i).getD 0#32) d a b)

/-- LDH (R376, R378). -/
def execLdh (u : Bool) (d a b : BitVec 8) : State → Host.Outcome State Fault Refusal :=
  let i : Instr := .ldh u d a b
  issue i true (vLoad u 0x49 2 ((encode i).getD 0#32) d a b)

/-- LDW (R376, R378). -/
def execLdw (u : Bool) (d a b : BitVec 8) : State → Host.Outcome State Fault Refusal :=
  let i : Instr := .ldw u d a b
  issue i true (vLoad u 0x4a 4 ((encode i).getD 0#32) d a b)

/-- LDD (R376, R378). -/
def execLdd (u : Bool) (d a b : BitVec 8) : State → Host.Outcome State Fault Refusal :=
  let i : Instr := .ldd u d a b
  issue i true (vLoad u 0x4b 8 ((encode i).getD 0#32) d a b)

/-- LDQ (R376, R378). -/
def execLdq (u : Bool) (d a b : BitVec 8) : State → Host.Outcome State Fault Refusal :=
  let i : Instr := .ldq u d a b
  issue i true (vLoad u 0x4c 16 ((encode i).getD 0#32) d a b)

/-- STB (R376, R378). -/
def execStb (u : Bool) (d a b : BitVec 8) : State → Host.Outcome State Fault Refusal :=
  let i : Instr := .stb u d a b
  issue i true (vStore u 0x4d 1 ((encode i).getD 0#32) d a b)

/-- STH (R376, R378). -/
def execSth (u : Bool) (d a b : BitVec 8) : State → Host.Outcome State Fault Refusal :=
  let i : Instr := .sth u d a b
  issue i true (vStore u 0x4e 2 ((encode i).getD 0#32) d a b)

/-- STW (R376, R378). -/
def execStw (u : Bool) (d a b : BitVec 8) : State → Host.Outcome State Fault Refusal :=
  let i : Instr := .stw u d a b
  issue i true (vStore u 0x4f 4 ((encode i).getD 0#32) d a b)

/-- STD (R376, R378). -/
def execStd (u : Bool) (d a b : BitVec 8) : State → Host.Outcome State Fault Refusal :=
  let i : Instr := .std u d a b
  issue i true (vStore u 0x50 8 ((encode i).getD 0#32) d a b)

/-- STQ (R376, R378). -/
def execStq (u : Bool) (d a b : BitVec 8) : State → Host.Outcome State Fault Refusal :=
  let i : Instr := .stq u d a b
  issue i true (vStore u 0x51 16 ((encode i).getD 0#32) d a b)

/-- LDC (R384). -/
def execLdc (u : Bool) (d b : BitVec 8) : State → Host.Outcome State Fault Refusal :=
  let i : Instr := .ldc u d b
  issue i true (vConstLoad u ((encode i).getD 0#32) d b)

/-- AT_ADD (R385 to R392). -/
def execAtAdd (u : Bool) (d a b : BitVec 8) : State → Host.Outcome State Fault Refusal :=
  let i : Instr := .atAdd u d a b
  issue i true (vAtomic u .add ((encode i).getD 0#32) d a b)

/-- AT_MIN (R385 to R392). -/
def execAtMin (u : Bool) (d a b : BitVec 8) : State → Host.Outcome State Fault Refusal :=
  let i : Instr := .atMin u d a b
  issue i true (vAtomic u .min ((encode i).getD 0#32) d a b)

/-- AT_MAX (R385 to R392). -/
def execAtMax (u : Bool) (d a b : BitVec 8) : State → Host.Outcome State Fault Refusal :=
  let i : Instr := .atMax u d a b
  issue i true (vAtomic u .max ((encode i).getD 0#32) d a b)

/-- AT_AND (R385 to R392). -/
def execAtAnd (u : Bool) (d a b : BitVec 8) : State → Host.Outcome State Fault Refusal :=
  let i : Instr := .atAnd u d a b
  issue i true (vAtomic u .and ((encode i).getD 0#32) d a b)

/-- AT_OR (R385 to R392). -/
def execAtOr (u : Bool) (d a b : BitVec 8) : State → Host.Outcome State Fault Refusal :=
  let i : Instr := .atOr u d a b
  issue i true (vAtomic u .or ((encode i).getD 0#32) d a b)

/-- AT_XOR (R385 to R392). -/
def execAtXor (u : Bool) (d a b : BitVec 8) : State → Host.Outcome State Fault Refusal :=
  let i : Instr := .atXor u d a b
  issue i true (vAtomic u .xor ((encode i).getD 0#32) d a b)

/-- AT_XCH (R385 to R392). -/
def execAtXch (u : Bool) (d a b : BitVec 8) : State → Host.Outcome State Fault Refusal :=
  let i : Instr := .atXch u d a b
  issue i true (vAtomic u .xch ((encode i).getD 0#32) d a b)

/-- AT_CAS (R385 to R392). -/
def execAtCas (u : Bool) (d a b : BitVec 8) : State → Host.Outcome State Fault Refusal :=
  let i : Instr := .atCas u d a b
  issue i true (vAtomic u .cas ((encode i).getD 0#32) d a b)

/-- AT_INC (R385 to R392). -/
def execAtInc (u : Bool) (d a b : BitVec 8) : State → Host.Outcome State Fault Refusal :=
  let i : Instr := .atInc u d a b
  issue i true (vAtomic u .inc ((encode i).getD 0#32) d a b)

/-- AT_AGG (R385 to R392). -/
def execAtAgg (u : Bool) (d a b : BitVec 8) : State → Host.Outcome State Fault Refusal :=
  let i : Instr := .atAgg u d a b
  issue i true (vAtomic u .agg ((encode i).getD 0#32) d a b)

/-- AT_FADD (R385 to R392). -/
def execAtFadd (u : Bool) (d a b : BitVec 8) : State → Host.Outcome State Fault Refusal :=
  let i : Instr := .atFadd u d a b
  issue i true (vAtomic u .fadd ((encode i).getD 0#32) d a b)

end Sys2Proof.Machine
end

