-- ==== Sys2Proof/Machine/Sync.lean ====
section
/-! DEFINITION. The synchronisation instructions, opcodes 0x54 to 0x5D: R393 to R405. -/

namespace Sys2Proof.Machine

/-- Write a value to a 32-bit destination in every thread of the mask (R393). -/
def Ctx.put32 (c : Ctx) (d : BitVec 8) (v : Word) : Ctx :=
  { c with regs := (threadsOf c.split.mask).foldl (fun r t => r.write32 t d v) c.regs }

/-- Write a value to a 64-bit destination in every thread of the mask (R393). -/
def Ctx.put64 (c : Ctx) (d : BitVec 8) (v : DWord) : Ctx :=
  { c with regs := (threadsOf c.split.mask).foldl (fun r t => r.write64 t d v) c.regs }

/-- An operand field reaches an accumulator that a grid operation still writes (R172); the guard plays
no part (R393). -/
def Ctx.accWait (c : Ctx) (touch : Bool) : Bool := c.accBusy && touch

/-- A fault of an access that the whole mask shares (R403, R404): lanes in transactions are gone. -/
def sharedFault (c : Ctx) (f : XFault) : FaultReq := memFault 0#64 ((threadsOf c.split.mask).map (fun t => (t, f))) []

/-! Fences. -/

/-- The acquire part at a scope: the L1 is dropped at cluster scope or wider (R191, R394). -/
def State.acquire (s : State) (core scope : Nat) : State := if 3 ≤ scope then s.dropL1 core else s

/-- The fence of the lanes outside transactions (R394). -/
def fenceBody (order scope : Nat) (s : State) (c : Ctx) : Done :=
  let open_ := match FMap.find s.groups c.gid with
    | some g => if c.single then 0#64 else g.openLanes c.split.mask
    | none => 0#64
  if c.split.mask &&& ~~~open_ = 0#64 then Done.seq s c
  else
    let acq := fun s c => Done.seq (if order ≠ 2 then s.acquire (coreOf c.gid) scope else s) c
    if order = 1 then acq s c else withRelease acq s c

/-- FENCE (R394): inside a transaction it has no effect at package scope or narrower, and aborts the
lane at a wider one (R221). -/
def execFence (o : BitVec 3) (sc : BitVec 4) : State → Host.Outcome State Fault Refusal :=
  issue (.fence o sc) true (fun s c =>
    let order := o.toNat
    let scope := sc.toNat
    if order = 0 ∨ 5 ≤ order then Done.early s c fIllegalOp
    else if 10 ≤ scope then .fault s c (.plain fScope c.split.mask)
    else if 5 < scope then txIllegal 0x54 c.split.mask (fenceBody order scope) s c
    else fenceBody order scope s c)

/-! Barriers. -/

/-- An arrival whose mask differs from that of its phase (R395). -/
def Block.otherMask (b : Block) (id mask : Nat) : Bool := ((FMap.find b.barMask id).map (fun m => decide (m ≠ mask))).getD false

/-- A split at a block barrier (R396): of a phase that has completed it is no arrival (R397). One whose phase ended while its
group was frozen goes on (R183). -/
def barBody (id mask : Nat) (cluster : Bool) (s : State) (c : Ctx) : Done :=
  match FMap.find s.groups c.gid, s.blockOf c.gid with
  | some g, some b =>
    let bk := g.ident.block
    if c.split.wait = .answered 0 then Done.seq s c
    else if !g.inRoles mask then .fault s c (.plain fIllegalOp c.split.mask)
    else if FMap.getD g.barG 0 id ≠ FMap.getD b.barP 0 id then
      let s := s.modGroup c.gid (fun g => { g with barG := FMap.setD g.barG 0 id ((FMap.getD g.barG 0 id + 1) % 2 ^ 32) })
      Done.seq (if cluster then s.dropL1 (coreOf c.gid) else s) c
    else if b.otherMask id mask then .fault s c (.plain fIllegalOp c.split.mask)
    else
      let s := s.modBlock bk (fun b => { b with barMask := FMap.insert b.barMask id mask })
      .next ((s.stay c c (.bar id mask cluster)).evalBar bk id)
  | _, _ => .next s

/-- A split at a gang barrier (R396); with gang = 1 it acts as a block barrier over every role. -/
def bargBody (id : Nat) (s : State) (c : Ctx) : Done :=
  match FMap.find s.groups c.gid, s.blockOf c.gid with
  | some g, some b =>
    match FMap.find s.grids b.grid with
    | none => .next s
    | some gr =>
      if gr.hdr.gang = 1 then barBody id 0 true s c
      else if c.split.wait = .answered 0 then Done.seq s c
      else
        let gangIx := b.linear / gr.hdr.gang
        if FMap.getD g.bargG 0 id ≠ FMap.getD gr.bargP 0 (gangIx * 16 + id) then
          let s := s.modGroup c.gid (fun g => { g with bargG := FMap.setD g.bargG 0 id ((FMap.getD g.bargG 0 id + 1) % 2 ^ 32) })
          Done.seq (s.dropL1 (coreOf c.gid)) c
        else .next ((s.stay c c (.barg id)).evalBarg b.grid gangIx id)
  | _, _ => .next s

/-- BAR (R395, R396). -/
def execBar (r i : BitVec 4) : State → Host.Outcome State Fault Refusal :=
  issue (.bar r i) false (fun s c => txIllegal 0x55 c.split.mask (withRelease (barBody i.toNat r.toNat false)) s c)

/-- BARG (R395, R396). -/
def execBarg (i : BitVec 4) : State → Host.Outcome State Fault Refusal :=
  issue (.barg i) false (fun s c => txIllegal 0x56 c.split.mask (withRelease (bargBody i.toNat)) s c)

/-! Counters and batches. -/

/-- A kind of remote access is a load. -/
def RemoteKind.isLoad : RemoteKind → Bool
  | .load _ _ => true
  | _ => false

/-- A kind of remote access is an atomic. -/
def RemoteKind.isAtomic : RemoteKind → Bool
  | .atomic _ _ _ _ => true
  | _ => false

/-- The engine commands of a group that are outstanding in its core's queue (R180): copy and gather
commands, chains among them. -/
def State.engineOutstanding (s : State) (gid : Nat) : Nat :=
  ((s.core (coreOf gid)).queue.filter (fun q => decide (q.gid = gid ∧ q.sub ≠ 4 ∧ q.sub ≠ 6))).length

/-- A wait counter of a group (R398): operations performed in the issuing step are complete. -/
def State.waitCounter (s : State) (gid : Nat) (g : Group) (cls : Nat) : Nat :=
  match cls with
  | 0 => (g.links.remote.filter (fun r => r.kind.isLoad)).length
  | 1 => g.storeCount
  | 2 => (g.links.remote.filter (fun r => r.kind.isAtomic)).length
  | 3 => g.gridOps.length
  | _ => s.engineOutstanding gid

/-- WAITC (R398): stores to other packages are flushed. -/
def execWaitc (n cls : BitVec 8) : State → Host.Outcome State Fault Refusal :=
  issue (.waitc n cls) false (fun s c =>
    if 5 ≤ cls.toNat then Done.early s c fIllegalOp
    else match FMap.find s.groups c.gid with
      | none => .next s
      | some g =>
        if s.waitCounter c.gid g cls.toNat ≤ n.toNat then Done.seq s c
        else if cls.toNat = 1 then withRelease Done.seq s c
        else .stay s c (.counter cls.toNat n.toNat))

/-- An unsealed copy or gather command of a group (R399). -/
def EngCmd.unsealed (q : EngCmd) (gid : Nat) : Bool := decide (q.gid = gid ∧ q.sub ≤ 3) && q.batch.isNone

/-- SEAL (R399). -/
def execSeal (d : BitVec 8) : State → Host.Outcome State Fault Refusal :=
  issue (.seal d) false (fun s c =>
    if !dst32Ok c.allot d then Done.early s c fIllegalReg
    else if c.accWait (touchesAcc 1 d) then .stay s c .gridOps
    else txIllegal 0x58 c.split.mask (fun s c =>
      match FMap.find s.groups c.gid with
      | none => .next s
      | some g =>
        let n := (g.batch + 1) % 2 ^ 32
        let s := s.modGroup c.gid (fun g => { g with batch := n })
        let s := s.modCore (coreOf c.gid) (fun k => { k with queue := k.queue.map (fun q => if q.unsealed c.gid then { q with batch := some n } else q) })
        Done.seq s (c.put32 d (BitVec.ofNat 32 n))) s c)

/-- Batch number b is at or before n (R401). -/
def batchUpTo (n b : Nat) : Bool := decide ((n + 2 ^ 32 - b) % 2 ^ 32 < 2 ^ 31)

/-- Some command of a batch up to n has not completed (R401). -/
def State.batchPending (s : State) (gid n : Nat) : Bool :=
  (s.core (coreOf gid)).queue.any (fun q => decide (q.gid = gid) && (match q.batch with
    | some b => batchUpTo n b
    | none => false))

/-- WAITB (R401): n' is that of its first issue. -/
def execWaitb (b : BitVec 8) : State → Host.Outcome State Fault Refusal :=
  issue (.waitb b) false (fun s c =>
    if !src32Ok c.allot true b then Done.early s c fIllegalReg
    else if c.accWait (touchesAcc 1 b) then .stay s c .gridOps
    else txIllegal 0x59 c.split.mask (fun s c =>
      match FMap.find s.groups c.gid with
      | none => .next s
      | some g =>
        let x := (c.regs.read32 c.xi c.lane b).toNat
        let n := match c.split.wait with
          | .batch n => n
          | _ => if batchUpTo g.batch x then x else g.batch
        if s.batchPending c.gid n then .stay s c (.batch n) else Done.seq s c) s c)

/-! Tier moves. -/

/-- The checks of R198: the move's intermediate address, or the fault. -/
def moveChecks (c : Ctx) (a b : Nat) (s : State) : Except XStop Nat × State :=
  let w := s.whoOf c.gid
  if inPool a then (.error (.fault (.virt fPermission a)), s)
  else if 2 ^ 48 ≤ a then (.error (.fault (.virt fTranslation a)), s)
  else match lookup1 w a 1 s with
    | (.error x, s) => (.error x, s)
    | (.ok r1, s) =>
      if !permits r1.perm 1 then (.error (.fault (.virt fPermission a)), s)
      else
        let ipa := r1.target + (a - r1.base)
        match lookup2 w ipa 1 s with
        | (.error x, s) => (.error x, s)
        | (.ok r2, s) =>
          if r2.tierAt.isNone then (.error (.fault (.inter fTranslation ipa)), s)
          else if inPool b then (.error (.fault (.virt fPermission b)), s)
          else match s.reach c c.lane b 16 .store with
            | (.error x, s) => (.error (.assist x), s)
            | (.ok (.fault f), s) => (.error (.fault f), s)
            | (.ok _, s) => (.ok ipa, s)

/-- Start a tier move (R198, R403). -/
def moveBody (target : Nat) (a b : BitVec 8) (s : State) (c : Ctx) : Done :=
  let va := (c.regs.read64 c.xi c.lane a).toNat
  let bo := (c.regs.read64 c.xi c.lane b).toNat
  match moveChecks c va bo s with
  | (.error (.assist x), s) => assistWait c x s
  | (.error (.fault f), s) => .fault (s.dropDenials (s.whoOf c.gid)) c (sharedFault c f)
  | (.ok ipa, s) =>
    let q := s.fresh
    let m : TierMove := ⟨s.partOf c.gid, s.vfOf c.gid, ipa, target, bo, q.1, none, none, []⟩
    Done.seq (({ q.2 with moves := s.moves ++ [m] }).schedule .tierMoveComplete) c

/-- The operand checks and the body of PFT and EVT. -/
def vMove (op target : Nat) (a b : BitVec 8) (s : State) (c : Ctx) : Done :=
  if !(src64Ok c.allot false a && src64Ok c.allot false b) then Done.early s c fIllegalReg
  else if c.accWait (touchesAcc 2 a || touchesAcc 2 b) then .stay s c .gridOps
  else txIllegal op c.split.mask (moveBody target a b) s c

/-- PFT (R403): to the fast tier. -/
def execPft (a b : BitVec 8) : State → Host.Outcome State Fault Refusal := issue (.pft a b) false (vMove 0x5A 0 a b)

/-- EVT (R403): to the capacity tier. -/
def execEvt (a b : BitVec 8) : State → Host.Outcome State Fault Refusal := issue (.evt a b) false (vMove 0x5B 1 a b)

/-! Barrier objects. -/

/-- BOW completes with value v: D in every thread, and the acquire at partition scope (R404, R191). -/
def bowDone (d : BitVec 8) (v : Nat) (s : State) (c : Ctx) : Done :=
  Done.seq ((s.acquire (coreOf c.gid) 8).dropDenials (s.whoOf c.gid)) (c.put64 d (BitVec.ofNat 64 v))

/-- One read of the barrier object (R404). -/
def bowBody (word : BitVec 32) (d a b : BitVec 8) (s : State) (c : Ctx) : Done :=
  let va := (c.regs.read64 c.xi c.lane a).toNat
  let v := (c.regs.read64 c.xi c.lane b).toNat
  let fail := fun (s : State) f => Done.fault (s.dropDenials (s.whoOf c.gid)) c (sharedFault c f)
  if va % 8 ≠ 0 then fail s (.virt fMisaligned va)
  else if inPool va then fail s (.virt fPermission va)
  else match s.reach c c.lane va 8 .load with
    | (.error x, s) => assistWait c x s
    | (.ok (.fault f), s) => fail s f
    | (.ok (.own off pol), s) =>
      (containWait c 8 [.own off pol] s).getD <|
      chargeSectors c [1] (fun s =>
      if s.poisoned off 8 then fail s (.virt fUncorrectable va)
      else
        let x := s.wordAt off 8
        if v ≤ x then bowDone d x (s.noteRead off 8) c else .stay (s.noteRead off 8) c (.bow (off / 256) (s.tick + 1400) word)) s
    | (.ok (.remote pa _), s) => chargeSectors c [1] (fun s =>
      let q := s.fresh
      let op : RemoteOp := ⟨q.1, .bow d.toNat v, [⟨c.split.mask, c.lane, va, pa, 8, false⟩], [], [], word, c.entry⟩
      .stay ((q.2.modGroup c.gid (fun g => { g with links := { g.links with remote := g.links.remote ++ [op] } })).sendRemote (s.vfOf c.gid) 0 pa 8 [] false) c (.remote q.1)) s
    | (.ok (.pool _), s) => .next s

/-- BOW (R404). -/
def execBow (d a b : BitVec 8) : State → Host.Outcome State Fault Refusal :=
  let i : Instr := .bow d a b
  issue i false (fun s c =>
    if !(dst64Ok c.allot d && src64Ok c.allot false a && src64Ok c.allot true b) then Done.early s c fIllegalReg
    else if c.accWait (touchesAcc 2 d || touchesAcc 2 a || touchesAcc 2 b) then .stay s c .gridOps
    else txIllegal 0x5C c.split.mask (bowBody ((encode i).getD 0#32) d a b) s c)

/-! Dropping sectors. -/

/-- CINV (R405). -/
def execCinv : State → Host.Outcome State Fault Refusal :=
  issue .cinv false (fun s c => txIllegal 0x5D c.split.mask (fun s c => Done.seq (s.dropL1 (coreOf c.gid)) c) s c)

/-- The run of addresses from `va` that one pair of range entries maps, and its physical start: none
where the address does not translate or lacks R (R405); or an address that the hypervisor has to answer. -/
def mappedRun (w : XWho) (va : Nat) (s : State) : Except AssistNeed (Option (Nat × Nat)) × State :=
  if inPool va then (.ok none, s)
  else match lookup1 w va 1 s with
    | (.error (.assist x), s) => (.error x, s)
    | (.error (.fault _), s) => (.ok none, s)
    | (.ok r1, s) =>
      let ipa := r1.target + (va - r1.base)
      match lookup2 w ipa 1 s with
      | (.error (.assist x), s) => (.error x, s)
      | (.error (.fault _), s) => (.ok none, s)
      | (.ok r2, s) =>
        if permits r1.perm 1 && permits r2.perm 1 then
          (.ok (some (r2.target + (ipa - r2.base), min (r1.base + r1.len - va) (r2.base + r2.len - ipa))), s)
        else (.ok none, s)

/-- Drop the L1 sectors that overlap `n` bytes of physical memory from `pa`: of another package's memory, what answers are
still to bring is not kept either. -/
def State.dropSpan (s : State) (core pa n : Nat) : State :=
  let own := decide (pkgOf pa = s.boot.pkg)
  let key := if own then offOf pa else peerKey pa
  s.modCore core (fun c => { c with l1 := FMap.filterKV (fun k _ => !decide (key / 32 ≤ k ∧ k ≤ (key + n - 1) / 32)) c.l1,
                                    l1From := if own then c.l1From else s.turn.nextId })

/-- Go through a range of device virtual addresses, run by run (R405), up to one that the hypervisor has to
answer (R102). -/
def cinvSpan (w : XWho) (core : Nat) : Nat → Nat → Nat → State → Option AssistNeed × State
  | 0, _, _, s => (none, s)
  | k + 1, va, n, s =>
    if n = 0 ∨ 2 ^ 48 ≤ va then (none, s)
    else match mappedRun w va s with
      | (.error x, s) => (some x, s)
      | (.ok (some r), s) =>
        let m := min n (max 1 r.2)
        cinvSpan w core k (va + m) (n - m) (s.dropSpan core r.1 m)
      | (.ok none, s) =>
        let m := min n (4096 - va % 4096)
        cinvSpan w core k (va + m) (n - m) s

/-- CINV_RANGE (R405). -/
def execCinvRange (a b : BitVec 8) : State → Host.Outcome State Fault Refusal :=
  issue (.cinvRange a b) false (fun s c =>
    if !(src64Ok c.allot false a && src32Ok c.allot false b) then Done.early s c fIllegalReg
    else if c.accWait (touchesAcc 2 a || touchesAcc 1 b) then .stay s c .gridOps
    else txIllegal 0x5D c.split.mask (fun s c =>
      let va := (c.regs.read64 c.xi c.lane a).toNat
      let n := (c.regs.read32 c.xi c.lane b).toNat
      match cinvSpan (s.whoOf c.gid) (coreOf c.gid) (2 ^ 21) va n s with
      | (some x, s) => assistWait c x s
      | (none, s) => Done.seq (s.dropDenials (s.whoOf c.gid)) c) s c)

end Sys2Proof.Machine
end

