-- ==== Sys2Proof/Machine/Unit.lean ====
section
/-! DEFINITION. Accesses of a unit of the package on behalf of a VF, outside any core (R64, R67,
R72, R77, R418): reads, writes and signals through both stages of translation. -/

namespace Sys2Proof.Machine

/-- A range of addresses that a unit reads or writes meets the Pool window (R418). -/
def meetsPool (a n : Nat) : Bool := decide (a < poolBase + poolSize ∧ poolBase < a + n)

/-- A read by a unit of `n` bytes that lie on one page: the bytes and whether they are poisoned. -/
def unitRead (w : XWho) (va n : Nat) (s : State) : Except XStop (List Byte × Bool) × State :=
  match resolveOnce w va 1 s with
  | (.error x, s) => (.error x, s)
  | (.ok (.own off, _), s) =>
    match s.toPost w.part off n with
    | some sec => (.error (.assist (.contain sec)), s)
    | none => (.ok (s.bytesAt off n, s.poisoned off n), s.readHome w.part off n)
  | (.ok (.remote pa, _), s) =>
    let q := (s.sendRemote w.vf 0 pa n [] false).farRead n
    (if q.1.refused then .error (.fault (.phys fPermission pa)) else .ok (q.1.bytes, q.1.poison), q.2)

/-- A write by a unit to another package: its home may refuse it (R93; log 17). -/
def State.unitFar (s : State) (w : XWho) (kind pa n : Nat) (b : List Byte) (bad : Bool) : Except XStop Unit × State :=
  let q := (s.sendRemote w.vf kind pa n b bad).farRefuses
  (if q.1 then .error (.fault (.phys fPermission pa)) else .ok (), q.2)

/-- A write by a unit of bytes that lie on one page. -/
def unitWrite (w : XWho) (va : Nat) (b : List Byte) (s : State) : Except XStop Unit × State :=
  match resolveOnce w va 2 s with
  | (.error x, s) => (.error x, s)
  | (.ok (.own off, _), s) => (.ok (), (s.writeHome none w.part off b).clearPoison [(off, b.length)])
  | (.ok (.remote pa, _), s) => s.unitFar w 1 pa b.length b false

/-- A 64-bit add at another package's home (R67). -/
def addKind : Nat := atKind .add 9

/-- Its image. -/
def addImage (n : Nat) : List Byte := bytesLE 8 n ++ bytesLE 8 0 ++ bytesLE 4 0

/-- Why a signal is not made. -/
inductive SignalStop where
  | stop (x : XStop)
  | poison
  deriving DecidableEq, Repr

/-- Signal a barrier object by `inc` (R67): an atomic add at its home. -/
def unitSignal (w : XWho) (va inc : Nat) (s : State) : Except SignalStop Unit × State :=
  match resolveOnce w va 3 s with
  | (.error x, s) => (.error (.stop x), s)
  | (.ok (.own off, _), s) =>
    match s.toPost w.part off 8 with
    | some sec => (.error (.stop (.assist (.contain sec))), s)
    | none =>
    if s.poisoned off 8 then (.error .poison, s)
    else (.ok (), s.writeHome none w.part off (bytesLE 8 ((s.wordAt off 8 + inc) % 2 ^ 64)))
  | (.ok (.remote pa, _), s) => match s.unitFar w addKind pa 8 (addImage inc) false with
    | (.ok _, s) => (.ok (), s)
    | (.error x, s) => (.error (.stop x), s)

/-- A request of a unit that the hypervisor has to answer (R102, R213): the unit's event goes on then, and
is posted once. -/
def State.unitAssist (s : State) (w : XWho) (x : AssistNeed) (i : Instr) : State :=
  if (s.part w.part).assist.any (fun q => decide (q.2.resume = some i)) then s else s.postNeed w x 3 0 0 i

/-- The address words of a range in aligned pieces of eight bytes, so that none crosses a page. -/
def unitReadWords (w : XWho) (va : Nat) : Nat → State → Except XStop (List Byte × Bool) × State
  | 0, s => (.ok ([], false), s)
  | n + 1, s =>
    match unitRead w va 8 s with
    | (.error x, s) => (.error x, s)
    | (.ok (b, p), s) =>
      match unitReadWords w (va + 8) n s with
      | (.error x, s) => (.error x, s)
      | (.ok (r, q), s) => (.ok (b ++ r, p || q), s)

/-- Write a list of bytes in pieces that cross no page. -/
def unitWriteList (w : XWho) (va : Nat) : List (List Byte) → State → Except XStop Unit × State
  | [], s => (.ok (), s)
  | b :: r, s =>
    match unitWrite w va b s with
    | (.error x, s) => (.error x, s)
    | (.ok _, s) => unitWriteList w (va + b.length) r s

/-- A little-endian field of a list of bytes. -/
def leField (b : List Byte) (o n : Nat) : Nat := ofBytesLE ((b.drop o).take n)

/-- Continue a split that waited, and retire its instruction with changed registers. -/
def State.completeEntry (s : State) (gid e : Nat) (f : Ctx → Ctx) : State :=
  match s.ctxOf (some (issuerAt gid e)) with
  | none => s
  | some c => s.retire c (f c) (c.split.pc + 4#64)

/-- Issue a waiting instruction again. -/
def State.reissueEntry (s : State) (gid e : Nat) : State :=
  match s.ctxOf (some (issuerAt gid e)) with
  | some c => s.putCtx { c with split := { c.split with wait := .none } }
  | none => s

/-- A waiting instruction faults for every thread of its split. -/
def State.faultEntry (s : State) (gid e : Nat) (word : BitVec 32) (r : Ctx → FaultReq) : State :=
  match s.ctxOf (some (issuerAt gid e)) with
  | none => s
  | some c => s.raise c c word (r c)

end Sys2Proof.Machine
end

