-- ==== Sys2Proof/Machine/Tensor.lean ====
section
/-! DEFINITION. The tensor identifier table (R202 to R208): entries, their checks and addresses. -/

namespace Sys2Proof.Machine

/-- An access of a core on behalf of a group (R187): a Pool location, or memory through translation. -/
def coreReach (gid va n need : Nat) (s : State) : Except XStop Reach × State :=
  if inPool va then
    match s.blockOf gid with
    | none => (.error (.fault (.virt fPermission va)), s)
    | some b => match poolLoc b (va - poolBase) n false with
      | .ok l => (.ok (.pool l), s)
      | .error k => (.error (.fault (.virt k va)), s)
  else match resolveOnce (s.whoOf gid) va need s with
    | (.error x, s) => (.error x, s)
    | (.ok (.own off, pol), s) => (.ok (.own off pol), s)
    | (.ok (.remote pa, pol), s) => (.ok (.remote pa pol), s)

/-- The block number of a group. -/
def State.blockKey (s : State) (gid : Nat) : Nat :=
  match FMap.find s.groups gid with
  | some g => g.ident.block
  | none => 0

/-- A read of a core for a group: the bytes and whether they are poisoned. -/
def coreRead (gid va n : Nat) (s : State) : Except XStop (List Byte × Bool) × State :=
  match coreReach gid va n 1 s with
  | (.error x, s) => (.error x, s)
  | (.ok (.pool l), s) => (.ok (s.poolBytes (s.blockKey gid) (coreOf gid) l n, s.poolPoisoned (s.blockKey gid) l), s)
  | (.ok (.own off _), s) =>
    match s.toPost (s.partOf gid) off n with
    | some sec => (.error (.assist (.contain sec)), s)
    | none => (.ok (s.bytesAt off n, s.poisoned off n), s.readHome (s.partOf gid) off n)
  | (.ok (.remote pa _), s) =>
    let q := (s.sendRemote (s.vfOf gid) 0 pa n [] false).farRead n
    (if q.1.refused then .error (.fault (.phys fPermission pa)) else .ok (q.1.bytes, q.1.poison), q.2)
  | (.ok (.fault f), s) => (.error (.fault f), s)

/-- A tensor entry (R203). -/
structure TensorEnt where
  base : Nat
  sbase : Nat
  tile : Bool
  fmt : Nat
  rank : Nat
  sgrp : Nat
  d : List Nat
  st : List Nat
  deriving DecidableEq, Repr

/-- An embedding table entry (R206). -/
structure TableEnt where
  base : Nat
  version : Nat
  fmt : Nat
  hmode : Nat
  dim : Nat
  rows1 : Nat
  rows2 : Nat
  boff : Nat
  seed1 : Nat
  seed2 : Nat
  deriving DecidableEq, Repr

/-- Dimension k keeps the rules of R203 for a rank: extent and stride. -/
def dimOk (rank k d st : Nat) : Bool :=
  if k < rank then decide (1 ≤ d ∧ st % 16 = 0) else decide (d = 0 ∧ st = 0)

/-- A tensor entry from its 64 bytes; none where a rule of R203 or R205 is broken. -/
def tensorEnt (b : List Byte) : Option TensorEnt :=
  let ctl := leField b 0x10 4
  let base := leField b 0 8
  let sbase := leField b 8 8
  let rank := field ctl 18 2 + 1
  let d := [leField b 0x14 4, leField b 0x18 4, leField b 0x1C 4, leField b 0x20 4]
  let st := [leField b 0x28 8, leField b 0x30 8, leField b 0x38 8]
  let fmt := field ctl 24 4
  let sgrp := field ctl 8 8
  let scales := if sbase = 0 then decide (field ctl 20 4 = 0 ∧ sgrp = 0)
    else decide (field ctl 20 4 = 14 ∧ (sgrp = 16 ∨ sgrp = 32) ∧ d.headD 0 % sgrp = 0)
  let ok := bitAt ctl 31 && decide (field ctl 29 2 = 0 ∧ fmt ≤ 13 ∧ field ctl 16 2 = 0 ∧ field ctl 0 8 = 0 ∧ base % 64 = 0 ∧ leField b 0x24 4 = 0) &&
    scales && decide (1 ≤ d.headD 0) && decide (fmtBits fmt ≠ 4 ∨ d.headD 0 % 2 = 0) &&
    dimOk rank 1 (d.getD 1 0) (st.getD 0 0) && dimOk rank 2 (d.getD 2 0) (st.getD 1 0) && dimOk rank 3 (d.getD 3 0) (st.getD 2 0)
  if ok then some ⟨base, sbase, bitAt ctl 28, fmt, rank, sgrp, d, st⟩ else none

/-- An embedding table entry from its 64 bytes; none where a rule of R205 or R206 is broken. -/
def tableEnt (b : List Byte) : Option TableEnt :=
  let ctl := leField b 0x10 4
  let e : TableEnt := ⟨leField b 0 8, leField b 8 4, field ctl 24 4, field ctl 22 2, leField b 0x14 4, leField b 0x18 8, leField b 0x20 8,
    leField b 0x28 8, leField b 0x30 4, leField b 0x34 4⟩
  let two := decide (e.hmode = 2)
  let fmtOk := if two then decide (e.fmt = 1 ∨ e.fmt = 3 ∨ e.fmt = 4) else decide (e.fmt ≤ 4 ∨ e.fmt = 9)
  let ok := bitAt ctl 31 && decide (field ctl 29 2 = 1 ∧ field ctl 28 1 = 0 ∧ field ctl 0 22 = 0 ∧ e.hmode ≠ 3 ∧ e.base % 64 = 0) && fmtOk &&
    decide (leField b 0xC 4 = 0 ∧ leField b 0x38 8 = 0 ∧ 1 ≤ e.dim ∧ e.dim ≤ 4096 ∧ 1 ≤ e.rows1 ∧ e.boff % 64 = 0) &&
    (if two then decide (1 ≤ e.rows2) else decide (e.rows2 = 0 ∧ e.boff = 0))
  if ok then some e else none

/-- Why an identifier gives no entry. -/
inductive IdStop where
  | fault (f : XFault)
  | assist (x : AssistNeed)
  deriving DecidableEq, Repr

/-- The base of a group's tensor identifier table (R202). -/
def State.tableBase (s : State) (gid : Nat) : Nat := ((s.gridOf gid).map (fun g => g.tid)).getD 0

/-- The 64 bytes of entry i of a grid, and whether they are poisoned (R202, R205). A path failure is none of the faults of
R205: it raises UNCORRECTABLE, as for any access (R31, R210). The bytes are those that memory holds now (log 65). -/
def entryRead (gid i : Nat) (s : State) : Except IdStop (List Byte × Bool) × State :=
  let base := s.tableBase gid
  if base = 0 ∨ base % 4096 ≠ 0 then (.error (.fault (.virt fTensorId i)), s)
  else match coreRead gid (base + 64 * i) 64 s with
    | (.ok b, s) => (.ok b, s)
    | (.error (.fault f), s) => (.error (.fault (if f.pathFail then f else .virt fTensorId (base + 64 * i))), s)
    | (.error (.assist x), s) => (.error (.assist x), s)

/-- An entry by its identifier, with its bytes, and whether it depends on poison (R205): poison stops an instruction, and
only marks what an engine's chain does (`chain`; R209, R425). -/
def entryOf {α : Type} (parse : List Byte → Option α) (chain : Bool) (gid i : Nat) (s : State) : Except IdStop (α × List Byte × Bool) × State :=
  match entryRead gid i s with
  | (.error x, s) => (.error x, s)
  | (.ok (b, bad), s) =>
    if bad && !chain then (.error (.fault (.virt fUncorrectable (s.tableBase gid + 64 * i))), s)
    else match parse b with
      | some e => (.ok (e, b, bad), s)
      | none => (.error (.fault (.virt fTensorId i)), s)

/-- The requests by which a core reads ranges of bytes for an instruction (R106), up to the first that cannot be read: none
while a read waits for the hypervisor or a path. -/
def coreRequests (gid : Nat) (l : List (Nat × Nat)) (s : State) : List Nat :=
  let reads := l.map (fun x => (x.2, (coreReach gid x.1 x.2 1 s).1))
  let waits := reads.any (fun r => match r.2 with
    | .error (.assist _) => true
    | .ok (.own off _) => (s.toPost (s.partOf gid) off r.1).isSome
    | _ => false)
  if waits then []
  else ((reads.takeWhile (fun r => match r.2 with
    | .ok (.fault _) | .error _ => false
    | _ => true)).filter (fun r => match r.2 with
    | .ok (.pool _) => false
    | _ => true)).map (fun r => r.1 / 32)

/-- The requests by which the entries of these identifiers are read (R106, R202). -/
def entryRequests (gid : Nat) (ids : List Nat) (s : State) : List Nat :=
  let base := s.tableBase gid
  if base = 0 ∨ base % 4096 ≠ 0 then [] else coreRequests gid (ids.map (fun i => (base + 64 * i, 64))) s

/-- A tensor by its identifier (R205). -/
def tensorOf (gid i : Nat) (s : State) : Except IdStop TensorEnt × State :=
  match entryOf tensorEnt false gid i s with
  | (.error x, s) => (.error x, s)
  | (.ok q, s) => (.ok q.1, s)

/-- An embedding table by its identifier (R205). -/
def tableOf (gid i : Nat) (s : State) : Except IdStop TableEnt × State :=
  match entryOf tableEnt false gid i s with
  | (.error x, s) => (.error x, s)
  | (.ok q, s) => (.ok q.1, s)

/-- The fields of a tensor entry and of a table entry that are read at one time, as offset and length (R202, R208): of a
table, without the unit that ENQ binds. -/
def tensorFields : List (Nat × Nat) := (List.range 8).map (fun k => (8 * k, 8))
def tableFields : List (Nat × Nat) := [(16, 4), (20, 4), (24, 8), (32, 8), (40, 8), (48, 4), (52, 4), (56, 8)]

/-- An entry that a command uses: as ENQ read it, or, field by field, as it has been changed since (R202, R208). What
cannot be read, or breaks a rule, leaves the entry as it was kept (log 65). -/
def usedEntry {α : Type} (parse : List Byte → Option α) (fields : List (Nat × Nat)) (gid i : Nat) (old : List Byte) (s : State) : Option α × State :=
  match entryRead gid i s with
  | (.ok (now, false), s) =>
    if now = old then (parse old, s)
    else
      let q := s.freeWord
      let mix := old.take (fields.headD (0, 0)).1 ++ (fields.mapIdx (fun k x => ((if q.1.getLsbD k then now else old).drop x.1).take x.2)).flatten
      ((parse mix).or (parse old), q.2)
  | (_, s) => (parse old, s)

/-- The address of an element (R204), mod 2^64. -/
def TensorEnt.eaddr (t : TensorEnt) (i0 i1 i2 i3 : Nat) : Nat :=
  (t.base + i0 * fmtBits t.fmt / 8 + i1 * t.st.getD 0 0 + i2 * t.st.getD 1 0 + i3 * t.st.getD 2 0) % 2 ^ 64

/-- The address of an element's scale (R204), mod 2^64. -/
def TensorEnt.saddr (t : TensorEnt) (i0 i1 i2 i3 : Nat) : Nat :=
  (t.sbase + i0 / t.sgrp + t.d.getD 0 0 / t.sgrp * (i1 + t.d.getD 1 0 * (i2 + t.d.getD 2 0 * i3))) % 2 ^ 64

/-- mix of R207. -/
def rowMix (x : BitVec 64) (seed : Nat) : Nat :=
  let z := x ^^^ (BitVec.ofNat 64 seed * 0x9E3779B97F4A7C15#64)
  let z := (z ^^^ (z >>> 30)) * 0xBF58476D1CE4E5B9#64
  let z := (z ^^^ (z >>> 27)) * 0x94D049BB133111EB#64
  (z ^^^ (z >>> 31)).toNat

/-- Bytes of a table row (R207). -/
def TableEnt.rowBytes (e : TableEnt) : Nat := (e.dim * fmtBits e.fmt / 8 + 15) / 16 * 16

end Sys2Proof.Machine
end

