-- ==== Sys2Proof/Machine/Stream.lean ====
section
/-! DEFINITION. The stream commands of the copy and gather engines: CPY, GTHR, GBAG and SCTR
(R410 to R415), their positions (R424), poison (R209) and overlaps (R412). -/

namespace Sys2Proof.Machine

/-- A piece of an element where an engine finds it. -/
inductive ELoc where
  | pool (l : PoolLoc)
  | own (off : Nat)
  | remote (pa : Nat)
  deriving DecidableEq, Repr

/-- A key for a byte of a place, distinct over the places. -/
def ELoc.key : ELoc → Nat
  | .own off => off
  | .remote pa => peerKey pa
  | .pool l => poolMark + l.byteKey

/-- The physical address of a place in another package. -/
def ELoc.far : ELoc → Nat
  | .remote pa => pa
  | _ => 0

/-- The progress of one run of a command. -/
structure EngAcc where
  s : State
  /-- the place of the last sector read and written, for R106 -/
  lastR : Nat
  lastW : Nat
  /-- the command, as it stands in the line for bandwidth (R106) -/
  cmd : Nat
  /-- a copy: what its source and destination share is unpredictable (R412) -/
  loose : Bool
  /-- nibbles of a copy's source, and those that the command has written, with what they held before -/
  read : FMap Unit
  wrote : FMap Nat
  /-- bytes that the command has written in other packages, and those packages -/
  far : FMap Byte
  wroteTo : List Nat
  /-- sectors that this run has read -/
  seen : List Nat
  /-- written ranges, and sectors to poison at the end -/
  ranges : List (Nat × Nat)
  bad : List Nat
  /-- everything that the command writes depends on poison (R209) -/
  taint : Bool
  oor : Nat
  deriving DecidableEq, Repr

/-- Why a run stops before its end. -/
inductive EngStop where
  | fault (f : XFault)
  | assist (x : AssistNeed)
  /-- the bandwidth bucket is empty (R106) -/
  | tokens
  deriving DecidableEq, Repr

/-- What an element read answers: its bytes, whether poison is among them, and their keys. -/
structure ERead where
  bytes : List Byte
  bad : Bool
  keys : List Nat
  deriving DecidableEq, Repr

/-- Where a piece of an element lies (R168, R187, R411). -/
def engLoc (gid : Nat) (tile : Bool) (va n need : Nat) (s : State) : Except EngStop ELoc × State :=
  if tile then
    match s.blockOf gid with
    | none => (.error (.fault (.virt fPoolRange va)), s)
    | some b => if va + n ≤ b.tiSize then (.ok (.pool (.ti va)), s) else (.error (.fault (.virt fPoolRange va)), s)
  else match coreReach gid va n need s with
    | (.ok (.pool l), s) => (.ok (.pool l), s)
    | (.ok (.own off _), s) => (.ok (.own off), s)
    | (.ok (.remote pa _), s) => (.ok (.remote pa), s)
    | (.ok (.fault f), s) => (.error (.fault f), s)
    | (.error (.fault f), s) => (.error (.fault f), s)
    | (.error (.assist x), s) => (.error (.assist x), s)

/-- Take a token for a new sector (R106). -/
def engToken (gid cmd last : Nat) (l : ELoc) (s : State) : Option Nat × State :=
  match l with
  | .pool _ => (some last, s)
  | _ =>
    let sec := l.key / 32 + 1
    if sec = last then (some last, s)
    else
      let q := s.spend (s.vfOf gid) (dieOf (coreOf gid)) 1 (gid, 64 + cmd)
      (if q.1 then some sec else none, q.2)

/-- The pieces of an element: one where it is naturally aligned, else bytes. -/
def pieces (va n : Nat) : List (Nat × Nat) := if va % n = 0 then [(va, n)] else (List.range n).map (fun i => ((va + i) % 2 ^ 64, 1))

/-- A sector of this package's memory whose poison a read by an engine detects first (R213). -/
def ELoc.toPost (l : ELoc) (p n : Nat) (s : State) : Option Nat :=
  match l with
  | .own off => s.toPost p off n
  | _ => none

/-- Read the pieces of an element. -/
def engRead (gid : Nat) (tile : Bool) : List (Nat × Nat) → EngAcc → Except EngStop ERead × EngAcc
  | [], a => (.ok ⟨[], false, []⟩, a)
  | (va, n) :: r, a =>
    match engLoc gid tile va n 1 a.s with
    | (.error x, s) => (.error x, { a with s := s })
    | (.ok l, s) =>
      match engToken gid a.cmd a.lastR l s with
      | (none, s) => (.error .tokens, { a with s := s })
      | (some sec, s) =>
       match l.toPost (s.partOf gid) n s with
       | some k => (.error (.assist (.contain k)), { a with s := s })
       | none =>
        let v : FarRead × State := match l with
          | .pool p => (⟨s.poolBytes (s.blockKey gid) (coreOf gid) p n, s.poolPoisoned (s.blockKey gid) p, false⟩, s)
          | .own off => (⟨s.bytesAt off n, s.poisoned off n, false⟩, s.readHome (s.partOf gid) off n)
          | .remote pa => (s.sendRemote (s.vfOf gid) 0 pa n [] false).farRead n
        let a := { a with s := v.2, lastR := sec, seen := if a.seen.contains (l.key / 32) then a.seen else l.key / 32 :: a.seen }
        if v.1.refused then (.error (.fault (.phys fPermission l.far)), a)
        else match engRead gid tile r a with
        | (.error x, a) => (.error x, a)
        | (.ok t, a) => (.ok ⟨v.1.bytes ++ t.bytes, v.1.poison || t.bad, (List.range n).map (fun i => l.key + i) ++ t.keys⟩, a)

/-- A write of less than a sector that the L2 does not hold valid reads memory first, and may detect poison (R194,
R213). -/
def ELoc.fillPost (l : ELoc) (p n : Nat) (s : State) : Option Nat :=
  match l with
  | .own off => if s.l2Valid (off / 32) then none else s.toPost p off n
  | _ => none

/-- Where the pieces of a destination element lie, all of them before the first write. -/
def engPlaces (gid : Nat) (tile : Bool) (need : Nat) : List (Nat × Nat) → EngAcc → Except EngStop (List (ELoc × Nat)) × EngAcc
  | [], a => (.ok [], a)
  | (va, n) :: r, a =>
    match engLoc gid tile va n need a.s with
    | (.error x, s) => (.error x, { a with s := s })
    | (.ok l, s) =>
      match engToken gid a.cmd a.lastW l s with
      | (none, s) => (.error .tokens, { a with s := s })
      | (some sec, s) =>
       match l.fillPost (s.partOf gid) n s with
       | some k => (.error (.assist (.contain k)), { a with s := s })
       | none =>
        match engPlaces gid tile need r { a with s := s, lastW := sec } with
        | (.error x, a) => (.error x, a)
        | (.ok t, a) => (.ok ((l, n) :: t), a)

/-- The bytes that the places of a destination element hold: another package's are what the run wrote there last, or
free values (log 17). -/
def engNow (gid : Nat) : List (ELoc × Nat) → EngAcc → List Byte × EngAcc
  | [], a => ([], a)
  | (l, n) :: r, a =>
    let q : List Byte × State := match l with
      | .pool p => (a.s.poolBytes (a.s.blockKey gid) (coreOf gid) p n, a.s)
      | .own off => (a.s.bytesAt off n, a.s)
      | .remote _ => let f := a.s.freeBytes n; (f.1.mapIdx (fun i b => (FMap.find a.far (l.key + i)).getD b), f.2)
    let t := engNow gid r { a with s := q.2 }
    (q.1 ++ t.1, t.2)

/-- A request of an engine to change another package's memory: its home may refuse it (R93; log 17). -/
def State.engineFar (s : State) (gid kind pa n : Nat) (b : List Byte) (bad : Bool) : Bool × State :=
  let q := ((s.sendRemote (s.vfOf gid) kind pa n b bad).dropPeer (coreOf gid) pa).farRefuses
  (!q.1, q.2)

/-- The command has written in another package (R410). -/
def EngAcc.wroteAt (a : EngAcc) (pa : Nat) : EngAcc := if a.wroteTo.contains (pkgOf pa) then a else { a with wroteTo := pkgOf pa :: a.wroteTo }

/-- Write bytes at the places of an element; `bad` marks its sectors (R209). An engine is another agent than its group
(R144). -/
def engPut (gid : Nat) (bad : Bool) : List (ELoc × Nat) → List Byte → EngAcc → Except EngStop Unit × EngAcc
  | [], _, a => (.ok (), a)
  | (l, n) :: r, b, a =>
    let now := b.take n
    let put := fun (s : State) => { a with s := s, ranges := (l.key, n) :: a.ranges, bad := if bad then l.key / 32 :: a.bad else a.bad }
    match l with
    | .pool p => engPut gid bad r (b.drop n) (put (a.s.poolWrite none (a.s.blockKey gid) (coreOf gid) p now))
    | .own off => engPut gid bad r (b.drop n) (put (a.s.writeHome none (a.s.partOf gid) off now))
    | .remote pa =>
      let q := a.s.engineFar gid 1 pa n now bad
      if q.1 then
        let far := (now.mapIdx (fun i x => (l.key + i, x))).foldl (fun m x => FMap.insert m x.1 x.2) a.far
        engPut gid bad r (b.drop n) ({ put q.2 with far := far }.wroteAt pa)
      else (.error (.fault (.phys fPermission pa)), { a with s := q.2 })

/-- The nibble keys of an element of e bits at its byte keys; `hi` names the upper nibble of a byte. -/
def nibbles (e : Nat) (hi : Bool) (keys : List Nat) : List Nat :=
  if e = 4 then keys.map (fun k => 2 * k + (if hi then 1 else 0)) else (keys.map (fun k => [2 * k, 2 * k + 1])).flatten

/-- The value of an element of e bits in its bytes (R204). -/
def elemOf (e : Nat) (hi : Bool) (b : List Byte) : Nat :=
  let v := ofBytesLE b
  if e = 4 then (if hi then v / 16 % 16 else v % 16) else v

/-- The bytes of an element with a value, in place of the old bytes. -/
def elemBytes (e : Nat) (hi : Bool) (old : Nat) (v : Nat) : List Byte :=
  if e = 4 then bytesLE 1 (if hi then old % 16 + v % 16 * 16 else old / 16 * 16 + v % 16) else bytesLE (e / 8) v

/-- Mark nibbles. -/
def markAll (m : FMap Unit) (l : List Nat) : FMap Unit := l.foldl (fun m k => FMap.insert m k ()) m

/-- The nibbles of a value, the lowest first, as one value. -/
def ofNibbles (l : List Nat) : Nat := l.foldr (fun x acc => x % 16 + 16 * acc) 0

/-- The value of an element before the run wrote it: `v` is its value now. -/
def EngAcc.before (a : EngAcc) (keys : List Nat) (v : Nat) : Nat := ofNibbles (keys.mapIdx (fun i k => (FMap.find a.wrote k).getD (v / 16 ^ i % 16)))

/-- Read an element: its code, whether it is poisoned, and the run. The accesses of a command are unordered (R261): of
what the run has written itself, a copy reads an unpredictable value (R412), and every other command the value before or
after (R255, R258). -/
def readElem (gid : Nat) (tile : Bool) (va e : Nat) (hi : Bool) (a : EngAcc) : Except EngStop (Nat × Bool) × EngAcc :=
  match engRead gid tile (pieces va ((e + 7) / 8)) a with
  | (.error x, a) => (.error x, a)
  | (.ok r, a) =>
    let keys := nibbles e hi r.keys
    if keys.any (fun k => (FMap.find a.wrote k).isSome) then
      let q := a.s.freeWord
      let v := elemOf e hi r.bytes
      (.ok (if a.loose then field q.1.toNat 0 e else if q.1.getLsbD 0 then a.before keys v else v, r.bad), { a with s := q.2 })
    else (.ok (elemOf e hi r.bytes, r.bad), a)

/-- The bytes of an element where it overlaps earlier ones: of each byte that an earlier element wrote, one of the two
values stays (R204). `draw` says which. -/
def overlapBytes (e : Nat) (old new : List Byte) (dup : Nat → Bool) (draw : BitVec 64) : List Byte :=
  if e = 4 then (if dup 0 && draw.getLsbD 0 then old else new)
  else (old.zip new).mapIdx (fun i q => if (dup (2 * i) || dup (2 * i + 1)) && draw.getLsbD i then q.1 else q.2)

/-- A written i3 element has bit 3 as bit 2 (R276). -/
def i3Write (fmt code : Nat) : Nat := if fmt = 13 then code % 8 + (if bitAt code 2 then 8 else 0) else code

/-- Write an element of a format, or of plain bits. Where a copy's source holds it too, its value is unpredictable (R412). -/
def writeElem (gid : Nat) (tile : Bool) (va fmt e : Nat) (hi bad : Bool) (v : Nat) (a : EngAcc) : Except EngStop Unit × EngAcc :=
  match engPlaces gid tile 2 (pieces va ((e + 7) / 8)) a with
  | (.error x, a) => (.error x, a)
  | (.ok pl, a) =>
    let keys := nibbles e hi ((pl.map (fun q => (List.range q.2).map (fun i => q.1.key + i))).flatten)
    let o := engNow gid pl a
    let a := o.2
    let old := ofBytesLE o.1
    let src := a.loose && keys.any (fun k => (FMap.find a.read k).isSome)
    let dup := fun (i : Nat) => ((keys[i]?).map (fun k => (FMap.find a.wrote k).isSome)).getD false
    let any := keys.any (fun k => (FMap.find a.wrote k).isSome)
    let q := a.s.freeWord
    let new := elemBytes e hi old (if src then i3Write fmt (field q.1.toNat 0 e) else v)
    let b := if src || !any then new else overlapBytes e o.1 new dup q.1
    let was := fun (i : Nat) => if e = 4 then (if hi then old / 16 % 16 else old % 16) else old / 16 ^ i % 16
    let wrote := (keys.mapIdx (fun i k => (i, k))).foldl (fun m x => if (FMap.find m x.2).isSome then m else FMap.insert m x.2 (was x.1)) a.wrote
    engPut gid (bad || a.taint) pl b { a with s := if src || any then q.2 else a.s, wrote := wrote }

/-- A rounding rule as an engine takes it: SR acts as RNE, because engines take no draws (R412). -/
def engRnd (r : Rnd) : Rnd := if r = .sr then .rne else r

/-- The captured registers by which a command converts: CVMODE, and MODE for a conversion into f32 (R289, R290; log 21). -/
structure EngCv where
  cvmode : Word
  mode : Word
  deriving DecidableEq, Repr

/-- cvt of R412. Equal formats copy the bits, but that every write of an i3 element sets bit 3 as bit 2 (R276). -/
def engCvt (cv : EngCv) (src dst code : Nat) : Nat :=
  if src = dst then i3Write dst code
  else
    let m := modeRnd cv.mode
    let field := if engRnd (cvRnd cv.cvmode m dst) = cvRnd cv.cvmode m dst then cv.cvmode else BitVec.ofNat 32 (setField cv.cvmode.toNat (cvField dst) 3 0)
    convertTo field (engRnd m) 0 dst (decodeFmt src code) % 2 ^ fmtBits dst

/-! CPY. -/

/-- One outer dimension of CPY (R412). -/
structure OuterDim where
  count : Nat
  ss : Nat
  ds : Nat
  deriving DecidableEq, Repr

/-- The product of a list. -/
def productOf (l : List Nat) : Nat := l.foldl (fun a b => a * b) 1

/-- The coordinates of a position, the first dimension fastest. -/
def coordsOf : List Nat → Nat → List Nat
  | [], _ => []
  | d :: r, i => i % d :: coordsOf r (i / d)

/-- The coordinates of an element of CPY in the tensor, and the offsets of its outer dimensions in source and destination (R412). -/
def cpyCoords (x : TensorEnt) (outer : List OuterDim) (i : Nat) : List Nat × Nat × Nat :=
  let inner := x.d.map (fun d => max 1 d)
  let n := productOf inner
  let j := coordsOf (outer.map (fun o => o.count)) (i / n)
  (coordsOf inner (i % n), ((j.zip outer).map (fun q => q.1 * q.2.ss)).foldl (fun p q => p + q) 0,
    ((j.zip outer).map (fun q => q.1 * q.2.ds)).foldl (fun p q => p + q) 0)

/-- One element of CPY (R412): source and destination addresses of element and scale. -/
def cpyElem (gid : Nat) (cv : EngCv) (x y : TensorEnt) (outer : List OuterDim) (i : Nat) (a : EngAcc) : Except EngStop Unit × EngAcc :=
  let (c, so, dd) := cpyCoords x outer i
  let i0 := c.getD 0 0
  let i1 := c.getD 1 0
  let i2 := c.getD 2 0
  let i3 := c.getD 3 0
  match readElem gid x.tile ((x.eaddr i0 i1 i2 i3 + so) % 2 ^ 64) (fmtBits x.fmt) (decide (i0 % 2 = 1)) a with
  | (.error e, a) => (.error e, a)
  | (.ok v, a) =>
    let put := fun (a : EngAcc) => writeElem gid y.tile ((y.eaddr i0 i1 i2 i3 + dd) % 2 ^ 64) y.fmt (fmtBits y.fmt) (decide (i0 % 2 = 1)) v.2 (engCvt cv x.fmt y.fmt v.1) a
    if x.sbase ≠ 0 ∧ i0 % x.sgrp = 0 then
      match readElem gid false (x.saddr i0 i1 i2 i3) 8 false a with
      | (.error e, a) => (.error e, a)
      | (.ok sv, a) =>
        match put a with
        | (.error e, a) => (.error e, a)
        | (.ok _, a) => writeElem gid false (y.saddr i0 i1 i2 i3) 0 8 false sv.2 sv.1 a
    else put a

/-- The entries of an outer descriptor (R412). -/
def outerDims (b : List Byte) : Nat → Nat → List OuterDim
  | 0, _ => []
  | n + 1, o => ⟨leField b o 8, leField b (o + 8) 8, leField b (o + 16) 8⟩ :: outerDims b n (o + 24)

/-- The words of a descriptor, eight bytes at a time; what the command writes depends on their poison (R209). -/
def engWords (gid va : Nat) : Nat → EngAcc → Except EngStop (List Byte) × EngAcc
  | 0, a => (.ok [], a)
  | n + 1, a =>
    match engRead gid false (pieces va 8) a with
    | (.error x, a) => (.error x, a)
    | (.ok r, a) =>
      match engWords gid (va + 8) n { a with taint := a.taint || r.bad } with
      | (.error x, a) => (.error x, a)
      | (.ok t, a) => (.ok (r.bytes ++ t), a)

/-- The outer descriptor of a CPY: none where it breaks R412, which faults at its address as an entry
that fails its checks does (log 21). -/
def engOuter (gid va : Nat) (a : EngAcc) : Except EngStop (List OuterDim) × EngAcc :=
  if va = 0 then (.ok [], a)
  else match engWords gid va 1 a with
    | (.error x, a) => (.error x, a)
    | (.ok h, a) =>
      let k := leField h 0 8
      if 12 < k then (.error (.fault (.virt fIllegalOp va)), a)
      else match engWords gid (va + 8) (3 * k) a with
        | (.error x, a) => (.error x, a)
        | (.ok b, a) =>
          let l := outerDims b k 0
          if l.any (fun o => decide (o.count = 0)) then (.error (.fault (.virt fIllegalOp va)), a) else (.ok l, a)

/-- The nibbles of the source of one element of CPY, where it can be reached (R412). -/
def cpySource (gid : Nat) (x : TensorEnt) (outer : List OuterDim) (s : State) (i : Nat) : List Nat :=
  let (c, so, _) := cpyCoords x outer i
  let e := fmtBits x.fmt
  let keys := ((pieces ((x.eaddr (c.getD 0 0) (c.getD 1 0) (c.getD 2 0) (c.getD 3 0) + so) % 2 ^ 64) ((e + 7) / 8)).map (fun q =>
    match (engLoc gid x.tile q.1 q.2 1 s).1 with
    | .ok l => (List.range q.2).map (fun k => l.key + k)
    | .error _ => [])).flatten
  nibbles e (decide (c.getD 0 0 % 2 = 1)) keys

/-! Table rows. -/

/-- Element e of row r of a table as an f32 code (R207). -/
def rowElem (gid : Nat) (t : TableEnt) (tab r e : Nat) (a : EngAcc) : Except EngStop (Nat × Bool) × EngAcc :=
  let bits := fmtBits t.fmt
  match readElem gid false ((tab + r * t.rowBytes + e * bits / 8) % 2 ^ 64) bits false a with
  | (.error x, a) => (.error x, a)
  | (.ok v, a) => (.ok (encodeFloat fmtF32 .rne false 0 (decodeFmt t.fmt v.1), v.2), a)

/-- The f32 environment of an engine: RNE, daz = ftz = 0. -/
def engEnv : FEnv := ⟨fmtF32, .rne, false, false⟩

/-- The index is out of range (R207). -/
def TableEnt.outOfRange (t : TableEnt) (x : Nat) : Bool := decide (t.hmode = 0 ∧ t.rows1 ≤ x)

/-- Element e of V for index x (R207), for an index that is in range. -/
def gatherElem (gid : Nat) (t : TableEnt) (base x e : Nat) (a : EngAcc) : Except EngStop (Nat × Bool) × EngAcc :=
  let r1 := if t.hmode = 0 then x else rowMix (BitVec.ofNat 64 x) t.seed1 % t.rows1
  match rowElem gid t base r1 e a with
  | (.error z, a) => (.error z, a)
  | (.ok v, a) =>
    if t.hmode = 2 then
      match rowElem gid t (base + t.boff) (rowMix (BitVec.ofNat 64 x) t.seed2 % t.rows2) e a with
      | (.error z, a) => (.error z, a)
      | (.ok w, a) => (.ok (fMul engEnv 0 v.1 w.1, v.2 || w.2), a)
    else (.ok v, a)

/-- One n64 of an index array. -/
def indexAt (gid va i : Nat) (a : EngAcc) : Except EngStop (Nat × Bool) × EngAcc := readElem gid false ((va + 8 * i) % 2 ^ 64) 64 false a

/-- One element of GTHR (R413). -/
def gthrElem (gid : Nat) (cv : EngCv) (t : TableEnt) (base : Nat) (y : TensorEnt) (idx i : Nat) (a : EngAcc) : Except EngStop Unit × EngAcc :=
  let e := i % t.dim
  let k := i / t.dim
  match indexAt gid idx k a with
  | (.error z, a) => (.error z, a)
  | (.ok x, a) =>
    let put := fun (v : Nat × Bool) (a : EngAcc) => writeElem gid y.tile (y.eaddr e k 0 0) y.fmt (fmtBits y.fmt) false (v.2 || x.2) (engCvt cv 0 y.fmt v.1) a
    if t.outOfRange x.1 then put (0, false) { a with oor := if e = 0 then a.oor + 1 else a.oor }
    else match gatherElem gid t base x.1 e a with
      | (.error z, a) => (.error z, a)
      | (.ok v, a) => put v a

/-- The values V[e] of the positions of a bag, in ascending position, with poison; a row out of range gives none (R414). -/
def bagElems (gid : Nat) (t : TableEnt) (base idx e : Nat) : Nat → Nat → EngAcc → Except EngStop (List (Option Nat × Bool)) × EngAcc
  | 0, _, a => (.ok [], a)
  | n + 1, p, a =>
    match indexAt gid idx p a with
    | (.error z, a) => (.error z, a)
    | (.ok x, a) =>
      if t.outOfRange x.1 then
        match bagElems gid t base idx e n (p + 1) { a with oor := if e = 0 then a.oor + 1 else a.oor } with
        | (.error z, a) => (.error z, a)
        | (.ok l, a) => (.ok ((none, x.2) :: l), a)
      else match gatherElem gid t base x.1 e a with
        | (.error z, a) => (.error z, a)
        | (.ok v, a) =>
          match bagElems gid t base idx e n (p + 1) a with
          | (.error z, a) => (.error z, a)
          | (.ok l, a) => (.ok ((some v.1, v.2 || x.2) :: l), a)

/-- The sum divided by a count, correctly rounded under RNE (R414). -/
def meanOf (sum n : Nat) : Nat :=
  match decodeFloat fmtF32 sum with
  | .fin s m e => roundMag fmtF32 .rne false s 0 ⟨m, n, e⟩
  | _ => sum

/-- The result of a bag (R414). -/
def bagResult (mode : Nat) (l : List Nat) : Nat :=
  match l with
  | [] => 0
  | h :: r =>
    if mode = 2 then r.foldl (fun m x => fMinMax true engEnv m x) h
    else if mode = 1 then meanOf (fSum engEnv 0 l) l.length
    else fSum engEnv 0 l

/-- One element of GBAG (R414). -/
def gbagElem (gid : Nat) (cv : EngCv) (t : TableEnt) (base : Nat) (y : TensorEnt) (mode idx offs i : Nat) (a : EngAcc) : Except EngStop Unit × EngAcc :=
  let e := i % t.dim
  let j := i / t.dim
  match readElem gid false ((offs + 4 * j) % 2 ^ 64) 32 false a with
  | (.error z, a) => (.error z, a)
  | (.ok p, a) =>
    match readElem gid false ((offs + 4 * (j + 1)) % 2 ^ 64) 32 false a with
    | (.error z, a) => (.error z, a)
    | (.ok q, a) =>
      match bagElems gid t base idx e (q.1 - p.1) p.1 a with
      | (.error z, a) => (.error z, a)
      | (.ok l, a) =>
        writeElem gid y.tile (y.eaddr e j 0 0) y.fmt (fmtBits y.fmt) false (p.2 || q.2 || l.any (fun v => v.2)) (engCvt cv 0 y.fmt (bagResult mode (l.filterMap (fun v => v.1)))) a

/-- The value that SCTR adds: a source element under its scale, where its tensor has scales (R279). -/
def sctrVal (sf code : Nat) (X : Option Nat) : FVal :=
  match X with
  | some X => widen sf X code
  | none => decodeFmt sf code

/-- The sum of SCTR in the table's format (R415, R389): the table's element first. -/
def sctrSum (tf old : Nat) (v : FVal) : Nat :=
  match fmtOfCode tf with
  | .float F =>
    if isNanCode F old then quietCode F old
    else if v.isNan then quietCode F (encodeFloat F .rne false 0 v)
    else FEnv.sum ⟨F, .rne, false, false⟩ 0 [decodeFmt tf old, v]
  | _ => old

/-- SCTR's add at another package's home (R254, R415): one atomic, whose image holds the table's format, the source's, the
source's scale and its code. -/
def scatterKind : Nat := 80
def scatterImage (tf sf code : Nat) (X : Option Nat) : List Byte :=
  bytesLE 1 tf ++ bytesLE 1 sf ++ bytesLE 1 (if X.isSome then 1 else 0) ++ bytesLE 1 (X.getD 0) ++ bytesLE 4 code

/-- What such an atomic writes at its home. -/
def scatterResult (b : List Byte) (old : Nat) : Nat :=
  sctrSum (imageNat b 0 1) old (sctrVal (imageNat b 1 1) (imageNat b 4 4) (if imageNat b 2 1 = 1 then some (imageNat b 3 1) else none))

/-- The scale of a source element, where its tensor has scales (R204, R279), and its poison. -/
def scaleOf (gid : Nat) (x : TensorEnt) (e k : Nat) (a : EngAcc) : Except EngStop (Option Nat × Bool) × EngAcc :=
  if x.sbase = 0 then (.ok (none, false), a)
  else match readElem gid false (x.saddr e k 0 0) 8 false a with
    | (.error z, a) => (.error z, a)
    | (.ok v, a) => (.ok (some v.1, v.2), a)

/-- The add at the place of a table element: one atomic at its home (R254). -/
def sctrAdd (gid : Nat) (t : TableEnt) (sf code : Nat) (X : Option Nat) (bad : Bool) (pl : List (Nat × Nat)) (a : EngAcc) : Except EngStop Unit × EngAcc :=
  let n := fmtBits t.fmt / 8
  match engPlaces gid false 3 pl a with
  | (.error z, a) => (.error z, a)
  | (.ok [(.remote pa, _)], a) =>
    let q := a.s.engineFar gid scatterKind pa n (scatterImage t.fmt sf code X) (bad || a.taint)
    if q.1 then (.ok (), { a with s := q.2, ranges := (peerKey pa, n) :: a.ranges }.wroteAt pa)
    else (.error (.fault (.phys fPermission pa)), { a with s := q.2 })
  | (.ok places, a) =>
    match engRead gid false pl { a with lastR := a.lastW } with
    | (.error z, a) => (.error z, a)
    | (.ok old, a) => engPut gid (bad || old.bad || a.taint) places (bytesLE n (sctrSum t.fmt (ofBytesLE old.bytes) (sctrVal sf code X))) a

/-- One add of SCTR (R415): the position is an element of a row. -/
def sctrElem (gid : Nat) (t : TableEnt) (base : Nat) (x : TensorEnt) (idx i : Nat) (a : EngAcc) : Except EngStop Unit × EngAcc :=
  let e := i % t.dim
  let k := i / t.dim
  match indexAt gid idx k a with
  | (.error z, a) => (.error z, a)
  | (.ok n, a) =>
    if t.outOfRange n.1 then (.ok (), { a with oor := if e = 0 then a.oor + 1 else a.oor })
    else
      let r := if t.hmode = 0 then n.1 else rowMix (BitVec.ofNat 64 n.1) t.seed1 % t.rows1
      let bits := fmtBits t.fmt
      match readElem gid x.tile (x.eaddr e k 0 0) (fmtBits x.fmt) false a with
      | (.error z, a) => (.error z, a)
      | (.ok v, a) =>
        match scaleOf gid x e k a with
        | (.error z, a) => (.error z, a)
        | (.ok X, a) => sctrAdd gid t x.fmt v.1 X.1 (v.2 || n.2 || X.2) (pieces ((base + r * t.rowBytes + e * bits / 8) % 2 ^ 64) (bits / 8)) a

/-! A run. -/

/-- Perform elements from position c on, up to `n` of them: the position reached, and the stop. An element that
stops has counted no row: it is done again from its start (R424). -/
def runElems (f : Nat → EngAcc → Except EngStop Unit × EngAcc) : Nat → Nat → EngAcc → Nat × Option EngStop × EngAcc
  | 0, c, a => (c, none, a)
  | n + 1, c, a =>
    match f c a with
    | (.error x, a') => (c, some x, { a' with oor := a.oor })
    | (.ok _, a') => runElems f n (c + 1) a'

/-- A run's effect on poison: sectors written whole are clean, those that depend on poison are marked (R209); the
sectors written or read outside the Pool leave the L1 of the core, which would give the group's later loads older values
(R253, R261, R399). -/
def EngAcc.settle (gid : Nat) (a : EngAcc) : State :=
  let s := a.s.modCore (coreOf gid) (fun k => { k with l1 := a.seen.foldl FMap.erase (a.ranges.foldl (fun m r => FMap.erase m (r.1 / 32)) k.l1) })
  let s := (a.seen.filter (fun k => decide (2 ^ 46 ≤ k ∧ k < poolMark / 32))).foldl (fun s k => s.spoilPeer (k * 32 - 2 ^ 51)) s
  let s := (s.clearPoison a.ranges).clearPoolPoison (a.s.blockKey gid) a.ranges
  a.bad.foldl (fun s sec =>
    if poolMark / 32 ≤ sec then s.modBlock (s.blockKey gid) (fun b => { b with poison := FMap.insert b.poison (sec - poolMark / 32) true })
    else if sec < 2 ^ 46 then s.setPoison sec true else s) s

/-- A word of a command. -/
def wordOf (w : List Word) (k : Nat) : Nat := (w.getD k 0#32).toNat

/-- A pair of words of a command (R407). -/
def pairAt (w : List Word) (k : Nat) : Nat := wordOf w k + 2 ^ 32 * wordOf w (k + 1)

/-- The outcome of a run: the position reached, the total, out-of-range rows, and why it stopped. -/
structure RunEnd where
  c : Nat
  total : Nat
  oor : Nat
  stop : Option EngStop
  /-- what the command has written so far, and the other packages that this run has written -/
  wrote : FMap Nat
  far : FMap Byte
  wroteTo : List Nat
  s : State
  deriving DecidableEq, Repr

/-- A stream command as an engine runs it: its group, number, sub-code and words, its captured registers, the base of its
table, and the entries that it names as ENQ read them (R208, R408). -/
structure StreamJob where
  gid : Nat
  id : Nat
  sub : Nat
  words : List Word
  cv : EngCv
  base : Nat
  ent1 : List Byte
  ent2 : List Byte
  /-- what its earlier runs have written (R204, R412), and whether everything that it writes depends on poison -/
  wrote : FMap Nat
  far : FMap Byte
  taint : Bool
  deriving DecidableEq, Repr

/-- Run a stream command from position c on (R411 to R415). A command that no ENQ has bound reads nothing. -/
def runStream (j : StreamJob) (c : Nat) (s : State) : RunEnd :=
  let gid := j.gid
  let w := j.words
  let a0 : EngAcc := { s := s, lastR := 0, lastW := 0, cmd := j.id, loose := decide (j.sub = 0), read := [], wrote := j.wrote, far := j.far,
                       wroteTo := [], seen := [], ranges := [], bad := [], taint := j.taint, oor := 0 }
  let done := fun (total : Nat) (r : Nat × Option EngStop × EngAcc) => (⟨r.1, total, r.2.2.oor, r.2.1, r.2.2.wrote, r.2.2.far, r.2.2.wroteTo, r.2.2.settle gid⟩ : RunEnd)
  let y := usedEntry tensorEnt tensorFields gid (field (wordOf w 0) 12 12) j.ent2 s
  if j.sub = 0 then
    let x := usedEntry tensorEnt tensorFields gid (field (wordOf w 0) 0 12) j.ent1 y.2
    match x.1, y.1 with
    | some xe, some ye =>
      match engOuter gid (pairAt w 2) { a0 with s := x.2 } with
      | (.error e, a) => done (c + 1) (c, some e, a)
      | (.ok outer, a) =>
        let total := productOf (xe.d.map (fun d => max 1 d)) * productOf (outer.map (fun o => o.count))
        let reads := (List.range total).foldl (fun m i => markAll m (cpySource gid xe outer a.s i)) []
        done total (runElems (cpyElem gid j.cv xe ye outer) (total - c) c { a with read := reads })
    | _, _ => done c (c, none, { a0 with s := x.2 })
  else
    let t := usedEntry tableEnt tableFields gid (field (wordOf w 0) 0 12) j.ent1 y.2
    match t.1, y.1 with
    | some te, some ye =>
      let a := { a0 with s := t.2 }
      let n := if j.sub = 2 then field (wordOf w 1) 0 24 else wordOf w 1
      let total := n * te.dim
      if j.sub = 1 then done total (runElems (gthrElem gid j.cv te j.base ye (pairAt w 2)) (total - c) c a)
      else if j.sub = 2 then done total (runElems (gbagElem gid j.cv te j.base ye (field (wordOf w 1) 24 2) (pairAt w 2) (pairAt w 6)) (total - c) c a)
      else done total (runElems (sctrElem gid te j.base ye (pairAt w 2)) (total - c) c a)
    | _, _ => done c (c, none, { a0 with s := t.2 })

end Sys2Proof.Machine
end

