-- ==== Sys2Proof/Machine/Engine.lean ====
section
/-! DEFINITION. The engine instructions 0x60 to 0x64 (R406 to R427), the engine queue's events
(R180, R181, R421, R424 to R426), and collectives and Estuary work (R416 to R419). -/

namespace Sys2Proof.Machine

/-! Checking a command (R409). -/

/-- What an ENQ has read of the entries that it names: version and base of a named table, and their bytes (R202, R208). -/
structure EnqInfo where
  version : Nat
  base : Nat
  ent1 : List Byte
  ent2 : List Byte
  /-- one of the entries was poisoned (R209) -/
  taint : Bool
  deriving DecidableEq, Repr

/-- A command that names no entry. -/
def EnqInfo.none : EnqInfo := ⟨0, 0, [], [], false⟩

/-- A sub-code's engine for stream commands: gather is 1. -/
def engineOf (sub : Nat) (words : List Word) : Nat := if sub = 5 then wordOf words 0 % 2 else if sub = 0 then 0 else 1

/-- Alignment and field rules of a command (R411, R416, R417, R421): the address rules first. -/
def enqFields (sub : Nat) (w : List Word) : Option Nat :=
  let z := fun (k : Nat) => decide (wordOf w k = 0)
  let al := fun (k n : Nat) => decide (pairAt w k % n = 0)
  let chk := fun (align fields : Bool) => if !align then some fMisaligned else if !fields then some fIllegalOp else none
  let ids := decide (field (wordOf w 0) 24 8 = 0)
  let count := fun (n lim : Nat) => decide (1 ≤ n ∧ n ≤ lim)
  match sub with
  | 0 => chk (al 2 64 && al 4 16) (ids && z 1 && z 6 && z 7)
  | 1 => chk (al 2 8 && al 4 16) (ids && count (wordOf w 1) (2 ^ 24) && z 6 && z 7)
  | 2 => chk (al 2 8 && al 4 16 && al 6 4) (ids && count (field (wordOf w 1) 0 24) (2 ^ 24) && decide (field (wordOf w 1) 24 2 ≠ 3 ∧ field (wordOf w 1) 26 6 = 0))
  | 3 => chk (al 2 8 && al 4 16) (ids && count (wordOf w 1) (2 ^ 24) && z 6 && z 7)
  | 4 =>
    let fmt := field (wordOf w 0) 4 4
    let e := fmtBits fmt / 8
    let fmtOk := decide (fmt = 0 ∨ fmt = 1 ∨ fmt = 2 ∨ fmt = 5 ∨ fmt = 6)
    chk (!fmtOk || (al 2 e && al 4 e && al 6 64)) (fmtOk && decide (field (wordOf w 0) 0 4 ≤ 3 ∧ field (wordOf w 0) 20 4 = 0) && count (wordOf w 1) (2 ^ 28))
  | 5 => chk (al 2 64 && al 4 8) (decide (field (wordOf w 0) 1 31 = 0) && z 1)
  | _ => chk true (decide (field (wordOf w 0) 17 7 = 0 ∧ field (wordOf w 6) 16 16 = 0) && count (wordOf w 1) (2 ^ 30) && z 7)

/-- The two entries of a CPY agree (R412). -/
def cpyAgree (x y : TensorEnt) : Bool :=
  decide (x.rank = y.rank ∧ x.d = y.d) && ((decide (x.sbase = 0) && decide (y.sbase = 0)) || decide (x.sbase ≠ 0 ∧ y.sbase ≠ 0 ∧ x.fmt = y.fmt ∧ x.sgrp = y.sgrp))

/-- The tensor of a row command (R413 to R415). -/
def rowsOk (t : TableEnt) (y : TensorEnt) (n : Nat) : Bool := decide (y.rank = 2 ∧ y.d.getD 0 0 = t.dim ∧ n ≤ y.d.getD 1 0 ∧ y.fmt ≤ 4)

/-- The table of SCTR (R415). -/
def sctrTableOk (t : TableEnt) : Bool := decide (t.hmode ≠ 2 ∧ t.fmt ≤ 2)

/-- The identifiers that a command names (R409). -/
def enqIds (sub : Nat) (w : List Word) : List Nat := if sub ≤ 3 then [field (wordOf w 0) 0 12, field (wordOf w 0) 12 12] else []

/-- The entries that a command names (R205, R409); `chain` says that it is an entry of a chain, which poison does not stop
(R425). -/
def enqEntries (chain : Bool) (gid sub : Nat) (w : List Word) (s : State) : Except IdStop EnqInfo × State :=
  let a := field (wordOf w 0) 0 12
  let b := field (wordOf w 0) 12 12
  match sub with
  | 0 =>
    match entryOf tensorEnt chain gid a s with
    | (.error x, s) => (.error x, s)
    | (.ok x, s) => match entryOf tensorEnt chain gid b s with
      | (.error e, s) => (.error e, s)
      | (.ok y, s) => if cpyAgree x.1 y.1 then (.ok ⟨0, 0, x.2.1, y.2.1, x.2.2 || y.2.2⟩, s) else (.error (.fault (.virt fTensorId b)), s)
  | 4 => (.ok .none, s)
  | 5 => (.ok .none, s)
  | 6 => (.ok .none, s)
  | k =>
    match entryOf tableEnt chain gid a s with
    | (.error x, s) => (.error x, s)
    | (.ok t, s) =>
      if k = 3 ∧ sctrTableOk t.1 = false then (.error (.fault (.virt fTensorId a)), s)
      else match entryOf tensorEnt chain gid b s with
        | (.error x, s) => (.error x, s)
        | (.ok y, s) =>
          let n := if k = 2 then field (wordOf w 1) 0 24 else wordOf w 1
          if rowsOk t.1 y.1 n then (.ok ⟨t.1.version, t.1.base, t.2.1, y.2.1, t.2.2 || y.2.2⟩, s) else (.error (.fault (.virt fTensorId b)), s)

/-- The checks of R409: identifiers, then alignment, then the other fields (log 22). -/
def enqCheck (chain : Bool) (gid sub : Nat) (w : List Word) (s : State) : Except IdStop EnqInfo × State :=
  match enqEntries chain gid sub w s with
  | (.error x, s) => (.error x, s)
  | (.ok i, s) => match enqFields sub w with
    | some k => (.error (.fault (.virt k 0)), s)
    | none => (.ok i, s)

/-! Enqueuing. -/

/-- A fault of step 5 with an address, for every thread of the split. -/
def FaultReq.at (code : Nat) (mask : BitVec 64) (addr : Nat) : FaultReq := { FaultReq.plain code mask with addr := BitVec.ofNat 64 addr }

/-- Close the group's flashback region (R154). -/
def State.closeRegionOf (s : State) (gid cause : Nat) : State := s.modGroup gid (fun g => g.closeRegion cause)

/-- The event that serves a queued command. -/
def serveEvent (core id sub : Nat) (w : List Word) : Instr :=
  if sub = 4 then .collAccept core id else if sub = 6 then .npostAccept core id else .engineCommandStart core (decide (engineOf sub w = 1))

/-- A command as it is queued. -/
def newCommand (id gid sub : Nat) (w : List Word) (guard : Option Nat) (held : Bool) (cv : EngCv) (i : EnqInfo) (word : Word) (mask : BitVec 64) : EngCmd :=
  { id := id, gid := gid, sub := sub, words := w, guard := guard, held := held, started := false, batch := none, cvmode := cv.cvmode,
    mode := cv.mode, ent1 := i.ent1, ent2 := i.ent2,
    version := i.version, base := i.base, cpos := 0, spos := 0, oor := 0, tc := pairAt w 6, k := 0, entryAddr := pairAt w 2,
    entrySub := 0, entryWords := [], nextAddr := 0, runningEntry := false, seqWritten := 0, stopped := false, enqWord := word, mask := mask,
    wrote := [], far := [], wroteTo := [], marks := [], ended := none, posted := false, taint := i.taint }

/-- There is room for a command of the group (R180). -/
def State.engineRoomFor (s : State) (gid : Nat) : Bool :=
  let q := (s.core (coreOf gid)).queue
  decide (q.length < 64 ∧ (q.filter (fun x => decide (x.gid = gid))).length < 8)

/-- Queue a command, or discard it at a guard slot that is false (R181, R408). -/
def enqueue (sub : Nat) (guard : Option Nat) (word : Word) (w : List Word) (i : EnqInfo) (s : State) (c : Ctx) : Done :=
  let st := match guard, FMap.find s.groups c.gid with
    | some n, some g => FMap.getD g.guards 0 n
    | _, _ => 1
  if st = 2 then Done.seq s c
  else
    let q := s.fresh
    let core := coreOf c.gid
    let cmd := newCommand q.1 c.gid sub w guard (decide (st = 0)) ⟨c.regs.cvmode, c.regs.mode⟩ i word c.split.mask
    let s := q.2.modCore core (fun k => { k with queue := k.queue ++ [cmd] })
    Done.seq (s.schedule (serveEvent core q.1 sub w)) c

/-- An ENQ of the lanes outside transactions (R408): the read of an embedding table's entry is an acquire at partition scope
(R427), and NPOST is a release (R246). -/
def enqBody (sub : Nat) (guard : Option Nat) (word : Word) (a : BitVec 8) (s : State) (c : Ctx) : Done :=
  let w := (List.range 8).map (fun k => c.regs.readRun c.lane a k)
  chargeSectors c (entryRequests c.gid (enqIds sub w) s) (fun s =>
    match enqCheck false c.gid sub w s with
    | (.error (.assist x), s) => assistWait c x s
    | (.error (.fault f), s) => .fault s c (sharedFault c f)
    | (.ok i, s) =>
      if !s.engineRoomFor c.gid then .stay s c .engineRoom
      else if sub = 6 then withRelease (enqueue sub guard word w i) s c
      else enqueue sub guard word w i (if 1 ≤ sub ∧ sub ≤ 3 then s.acquire (coreOf c.gid) 8 else s) c) s

/-- Issue an ENQ (R406 to R409). -/
def enq (i : Instr) (sub : Nat) (g : Bool) (n : BitVec 3) (a : BitVec 8) : State → Host.Outcome State Fault Refusal :=
  issue i false (fun s c =>
    if !octetOk c.allot a then Done.early s c fIllegalReg
    else if c.accWait (touchesAcc 8 a) then .stay s c .gridOps
    else txIllegal 0x60 c.split.mask (closing 2 (enqBody sub (if g then some n.toNat else none) ((encode i).getD 0#32) a)) s c)

/-- CPY (R412). -/
def execCpy (g : Bool) (n : BitVec 3) (a : BitVec 8) : State → Host.Outcome State Fault Refusal := enq (.cpy g n a) 0 g n a
/-- GTHR (R413). -/
def execGthr (g : Bool) (n : BitVec 3) (a : BitVec 8) : State → Host.Outcome State Fault Refusal := enq (.gthr g n a) 1 g n a
/-- GBAG (R414). -/
def execGbag (g : Bool) (n : BitVec 3) (a : BitVec 8) : State → Host.Outcome State Fault Refusal := enq (.gbag g n a) 2 g n a
/-- SCTR (R415). -/
def execSctr (g : Bool) (n : BitVec 3) (a : BitVec 8) : State → Host.Outcome State Fault Refusal := enq (.sctr g n a) 3 g n a
/-- COLL (R416). -/
def execColl (g : Bool) (n : BitVec 3) (a : BitVec 8) : State → Host.Outcome State Fault Refusal := enq (.coll g n a) 4 g n a
/-- CHAIN (R421). -/
def execChain (g : Bool) (n : BitVec 3) (a : BitVec 8) : State → Host.Outcome State Fault Refusal := enq (.chain g n a) 5 g n a
/-- NPOST (R417). -/
def execNpost (g : Bool) (n : BitVec 3) (a : BitVec 8) : State → Host.Outcome State Fault Refusal := enq (.npost g n a) 6 g n a

/-! CTAIL, GRES, NCWT and TSWAP. -/

/-- Change the commands of a core's queue. -/
def State.mapQueue (s : State) (core : Nat) (f : EngCmd → EngCmd) : State := s.modCore core (fun k => { k with queue := k.queue.map f })

/-- CTAIL of the lanes outside transactions (R422). -/
def ctailBody (e : Bool) (b : BitVec 8) (s : State) (c : Ctx) : Done :=
  let t := (c.regs.read64 c.xi c.lane b).toNat
  let s := s.closeRegionOf c.gid 2
  let core := coreOf c.gid
  match ((s.core core).queue.filter (fun q => decide (q.gid = c.gid ∧ q.sub = 5 ∧ engineOf q.sub q.words = (if e then 1 else 0)))).getLast? with
  | none => Done.seq s c
  | some q =>
    if (t + 2 ^ 64 - q.tc) % 2 ^ 64 < 2 ^ 63 then
      Done.seq ((s.mapQueue core (fun x => if x.id = q.id then { x with tc := t } else x)).schedule (.chainEntryStart core q.id)) c
    else Done.seq s c

/-- CTAIL (R422). -/
def execCtail (e : Bool) (b : BitVec 8) : State → Host.Outcome State Fault Refusal :=
  issue (.ctail e b) false (fun s c =>
    if !src64Ok c.allot true b then Done.early s c fIllegalReg
    else if c.accWait (touchesAcc 2 b) then .stay s c .gridOps
    else txIllegal 0x61 c.split.mask (ctailBody e b) s c)

/-- What follows the end of a command: its engine goes on, and its block may end (R123). -/
def State.afterCommand (s : State) (gid : Nat) : State :=
  let core := coreOf gid
  ((s.schedule (.engineCommandStart core false)).schedule (.engineCommandStart core true)).releaseBlock (s.blockKey gid)

/-- Resolve a guard slot (R181): 1 true, 2 false. -/
def State.resolveGuard (s : State) (gid n v : Nat) : State :=
  match FMap.find s.groups gid with
  | none => s
  | some g =>
    let core := coreOf gid
    let mine := fun (q : EngCmd) => decide (q.gid = gid ∧ q.guard = some n) && q.held
    let s' := s.modGroup gid (fun g => { g with guards := FMap.setD g.guards 0 n v })
    if FMap.getD g.guards 0 n = 0 then
      let held := (s.core core).queue.filter mine
      if v = 1 then
        let s' := s'.mapQueue core (fun q => if mine q then { q with held := false } else q)
        held.foldl (fun s q => s.schedule (serveEvent core q.id q.sub q.words)) s'
      else
        let s' := s'.modCore core (fun k => { k with queue := k.queue.filter (fun q => !mine q) })
        let s' := ((s.core core).queue.filter (fun q => decide (q.gid = gid) && !q.held && !q.started)).foldl
          (fun s q => s.schedule (serveEvent core q.id q.sub q.words)) s'
        s'.afterCommand gid
    else s'

/-- GRES (R423, R181). -/
def execGres (n : BitVec 3) (b : BitVec 8) : State → Host.Outcome State Fault Refusal :=
  issue (.gres n b) false (fun s c =>
    if !src32Ok c.allot true b then Done.early s c fIllegalReg
    else if c.accWait (touchesAcc 1 b) then .stay s c .gridOps
    else txIllegal 0x62 c.split.mask (fun s c =>
      let v := if c.regs.read32 c.xi c.lane b = 0#32 then 2 else 1
      Done.seq ((s.closeRegionOf c.gid 2).resolveGuard c.gid n.toNat v) c) s c)

/-- GRES.clear (R423, R181): an open slot stays open. -/
def execGresClear (n : BitVec 3) : State → Host.Outcome State Fault Refusal :=
  issue (.gresClear n) false (fun s c => txIllegal 0x62 c.split.mask (fun s c =>
    Done.seq ((s.closeRegionOf c.gid 2).modGroup c.gid (fun g => { g with guards := FMap.setD g.guards 0 n.toNat 0 })) c) s c)

/-- A completion counter of a VF (R419): err and count. -/
def Vf.counter (v : Vf) (k : Nat) : Nat × Nat := FMap.getD v.counters (0, 0) k

/-- A counter as its 64 bits (R419). -/
def counterWord (x : Nat × Nat) : Nat := x.1 * 2 ^ 56 + x.2

/-- One completion (R419). -/
def State.countUp (s : State) (vf k status : Nat) : State :=
  s.modVf vf (fun v =>
    let x := v.counter k
    { v with counters := FMap.setD v.counters (0, 0) k (if status = 0 then x.1 else status, (x.2 + 1) % 2 ^ 56) })

/-- NCWT of the lanes outside transactions (R420). -/
def ncwtBody (d a b : BitVec 8) (s : State) (c : Ctx) : Done :=
  let k := field (c.regs.read32 c.xi c.lane a).toNat 0 8
  let n := (c.regs.read64 c.xi c.lane b).toNat
  let s := s.closeRegionOf c.gid 2
  let x := (s.vf (s.vfOf c.gid)).counter k
  if n ≤ x.2 then Done.seq (s.acquire (coreOf c.gid) 8) (c.put64 d (BitVec.ofNat 64 (counterWord x)))
  else .stay s c (.ncwt k n)

/-- NCWT (R420). -/
def execNcwt (d a b : BitVec 8) : State → Host.Outcome State Fault Refusal :=
  issue (.ncwt d a b) false (fun s c =>
    if !(dst64Ok c.allot d && src32Ok c.allot false a && src64Ok c.allot true b) then Done.early s c fIllegalReg
    else if c.accWait (touchesAcc 2 d || touchesAcc 1 a || touchesAcc 2 b) then .stay s c .gridOps
    else txIllegal 0x63 c.split.mask (ncwtBody d a b) s c)

/-- A core's write for a group's instruction (R427). -/
def coreWrite (by_ : Option Nat) (gid va : Nat) (b : List Byte) (s : State) : Except XStop Unit × State :=
  match coreReach gid va b.length 2 s with
  | (.error x, s) => (.error x, s)
  | (.ok (.pool l), s) => (.ok (), s.poolWrite by_ (s.blockKey gid) (coreOf gid) l b)
  | (.ok (.own off _), s) => (.ok (), ((s.writeHome by_ (s.partOf gid) off b).clearPoison [(off, b.length)]).updateL1 (coreOf gid) off b)
  | (.ok (.remote pa _), s) =>
    let q := s.writeFar gid pa b false
    (if q.1 then .ok () else .error (.fault (.phys fPermission pa)), q.2)
  | (.ok (.fault f), s) => (.error (.fault f), s)

/-- The end of a TSWAP (R427): the unit is written, and D receives the old version. -/
def tswapWrite (d a b : BitVec 8) (old : TableEnt) (s : State) (c : Ctx) : Done :=
  let id := field (c.regs.read32 c.xi c.lane d).toNat 0 12
  let tid := match s.gridOf c.gid with
    | some g => g.tid
    | none => 0
  let unit := bytesLE 8 (c.regs.read64 c.xi c.lane a).toNat ++ bytesLE 4 (c.regs.read32 c.xi c.lane b).toNat ++ bytesLE 4 0
  match coreWrite c.writer c.gid (tid + 64 * id) unit s with
  | (.error (.assist x), s) => assistWait c x s
  | (.error (.fault f), s) => .fault s c (sharedFault c f)
  | (.ok _, s) => Done.seq s (c.put32 d (BitVec.ofNat 32 old.version))

/-- The requests of a TSWAP: the read of its entry, and the write of its unit (R106). -/
def tswapRequests (gid id : Nat) (s : State) : List Nat :=
  let l := entryRequests gid [id] s
  if l.isEmpty then [] else l ++ [1]

/-- TSWAP of the lanes outside transactions (R427). -/
def tswapBody (d a b : BitVec 8) (s : State) (c : Ctx) : Done :=
  let x := (c.regs.read32 c.xi c.lane d).toNat
  if field x 12 20 ≠ 0 then .fault s c (.at fTensorId c.split.mask (field x 0 12))
  else
    let checked := fun (k : TableEnt → State → Ctx → Done) (s : State) (c : Ctx) =>
      match tableOf c.gid (field x 0 12) s with
      | (.error (.assist y), s) => assistWait c y s
      | (.error (.fault f), s) => .fault s c (sharedFault c f)
      | (.ok t, s) =>
        if (c.regs.read64 c.xi c.lane a).toNat % 64 ≠ 0 then .fault s c (.at fTensorId c.split.mask (field x 0 12)) else k t s c
    checked (fun _ => withRelease (fun s c =>
      chargeSectors c (tswapRequests c.gid (field x 0 12) s) (fun s => checked (tswapWrite d a b) s c) s)) s c

/-- TSWAP (R427). -/
def execTswap (d a b : BitVec 8) : State → Host.Outcome State Fault Refusal :=
  issue (.tswap d a b) false (fun s c =>
    if !(dst32Ok c.allot d && src64Ok c.allot false a && src32Ok c.allot true b) then Done.early s c fIllegalReg
    else if c.accWait (touchesAcc 1 d || touchesAcc 2 a || touchesAcc 1 b) then .stay s c .gridOps
    else txIllegal 0x64 c.split.mask (closing 2 (tswapBody d a b)) s c)

/-! The queue's events. -/

/-- A command of a core's queue. -/
def State.command (s : State) (core id : Nat) : Option EngCmd := (s.core core).queue.find? (fun q => decide (q.id = id))

/-- Change one command. -/
def State.modCommand (s : State) (core id : Nat) (f : EngCmd → EngCmd) : State := s.mapQueue core (fun q => if q.id = id then f q else q)

/-- Packages in which a command's writes may not have been performed. -/
def EngCmd.owed (q : EngCmd) : List Nat := (q.wroteTo ++ q.marks.map (fun m => m.1)).eraseDups

/-- Take a command out of the queue; what it has still written in other packages is its group's (R72, R261). -/
def State.removeCommand (s : State) (core id : Nat) : State :=
  let s := match s.command core id with
    | some q => q.owed.foldl (fun (s : State) pkg => s.modGroup q.gid (fun g => g.noteRemoteWrite pkg)) s
    | none => s
  s.modCore core (fun k => { k with queue := k.queue.filter (fun q => decide (q.id ≠ id)) })

/-- Change a command wherever it stands: in its core's queue, or with its saved block (R181). -/
def State.anyCommand (s : State) (id : Nat) (f : EngCmd → EngCmd) : State :=
  let on := fun (l : List EngCmd) => l.map (fun q => if q.id = id then f q else q)
  { s with cores := FMap.mapVals (fun _ k => { k with queue := on k.queue }) s.cores, blocks := FMap.mapVals (fun _ b => { b with queue := on b.queue }) s.blocks }

/-- Every command in a queue or with a saved block. -/
def State.allCommands (s : State) : List EngCmd := (s.cores.map (fun k => k.2.queue)).flatten ++ (s.blocks.map (fun b => b.2.queue)).flatten

/-- Every command with the VF of its group. -/
def State.vfCommands (s : State) : List (Nat × EngCmd) :=
  (s.cores.map (fun k => k.2.queue.map (fun q => (s.vfOf q.gid, q)))).flatten ++
    (s.blocks.map (fun b => b.2.queue.map (fun q => (((FMap.find s.grids b.2.grid).map (fun g => g.vf)).getD 0, q)))).flatten

/-- Markers follow what a command has written in other packages (R246, R259). -/
def State.flushCommand (s : State) (vf : Nat) (q : EngCmd) : State :=
  let m := s.sendMarkers vf (engineSender q.id) q.wroteTo
  m.2.anyCommand q.id (fun x => { x with wroteTo := [], marks := x.marks ++ m.1 })

/-- The command that an engine may start for a slot (R180): the group's oldest for that engine, if it
is not started and not held. -/
def startable (queue : List EngCmd) (gid eng : Nat) : Option EngCmd :=
  match queue.find? (fun q => decide (q.gid = gid ∧ q.sub ≠ 4 ∧ q.sub ≠ 6 ∧ engineOf q.sub q.words = eng)) with
  | some q => if q.started || q.held then none else some q
  | none => none

/-- A switch tick is saving the group's VF: its streams stand at their committed positions (R150). -/
def State.streamsStop (s : State) (gid : Nat) : Bool :=
  match (s.part (s.partOf gid)).switch with
  | some w => !w.restoring
  | none => false

/-- ENGINE_COMMAND_START (R180): round-robin over the slots. -/
def execEngineCommandStart (core : Nat) (gather : Bool) (s : State) : Host.Outcome State Fault Refusal :=
  let eng := if gather then 1 else 0
  let k := s.core core
  let last := FMap.getD k.served 63 eng
  match (List.range 64).findSome? (fun i =>
      let gid := core * 64 + (last + 1 + i) % 64
      if s.streamsStop gid then none else startable k.queue gid eng) with
  | none => .next s
  | some q =>
    let s := s.modCore core (fun k => { k with served := FMap.setD k.served 63 eng (slotOf q.gid) })
    let s := s.modCommand core q.id (fun x => { x with started := true })
    .next (s.schedule (if q.sub = 5 then .chainEntryStart core q.id else .engineCommandComplete core q.id))

/-- The group's split that would issue next (R140): the first in turn that waits for nothing, else the
first in turn. -/
def Group.nextEntry (g : Group) : Option (Nat × Split) :=
  let turn := (List.range 16).filterMap (fun i => (FMap.find g.table ((g.lastSplit + 1 + i) % 16)).map (fun sp => ((g.lastSplit + 1 + i) % 16, sp)))
  match turn.find? (fun q => decide (q.2.wait = .none)) with
  | some q => some q
  | none => turn.head?

/-- Take the oldest engine fault of a group that is running (R425): PC is the instruction that it would
issue next. -/
def State.takeEngFault (s : State) (gid : Nat) : State :=
  match FMap.find s.groups gid with
  | none => s
  | some g =>
    match g.engFaults with
    | [] => s
    | f :: r =>
      if g.status ≠ .running then s
      else match g.nextEntry with
        | none => s
        | some (e, sp) =>
          let s := s.modGroup gid (fun g => { g with engFaults := r })
          s.trapGroup gid { f with pc := sp.pc, pfx := sp.pfx, entry := e }

/-- A command stops at its committed position with a fault for its group (R424, R425). -/
def State.stopCommand (s : State) (q : EngCmd) (c total : Nat) (f : XFault) : State :=
  let r := s.freeWord
  let spos := if c < total then c + 1 + r.1.toNat % (total - c) else c
  let s := r.2.modCommand (coreOf q.gid) q.id (fun x => { x with stopped := true, cpos := c, spos := spos })
  let info : FaultInfo :=
    { code := f.code, mask := q.mask, pc := 0#64, word := q.enqWord, addr := BitVec.ofNat 64 f.addr, trapKind := false, engine := some q.id,
      fetch := false, stage2 := f.stage2, physical := f.physical, pathFail := f.pathFail, poison := false, pfx := .clear, cpos := c, spos := spos,
      seq := if q.sub = 5 then q.seqWritten else 0, user := 0, entry := 0, txAborted := 0#64, mode := 0#32 }
  (s.modGroup q.gid (fun g => { g with engFaults := g.engFaults ++ [info] })).schedule (.engineFault (coreOf q.gid) q.id)

/-- ENGINE_FAULT (R425): a running or waiting group traps; an exited one reports a context error. -/
def execEngineFault (core id : Nat) (s : State) : Host.Outcome State Fault Refusal :=
  match s.command core id with
  | none => .next s
  | some q =>
    match FMap.find s.groups q.gid with
    | none => .next (s.removeCommand core id)
    | some g =>
      if g.status = .exited then
        match g.engFaults.find? (fun f => decide (f.engine = some id)), s.gridOf q.gid with
        | some f, some gr =>
          let s := (s.reportError q.gid 1 f.code (BitVec.ofNat 64 gr.hdr.code)).removeCommand core id
          .next (s.afterCommand q.gid)
        | _, _ => .next s
      else .next (s.takeEngFault q.gid)

/-- The run stops for something other than a fault: it goes on when an answer or tokens arrive. -/
def State.pauseCommand (s : State) (q : EngCmd) (x : EngStop) (i : Instr) : State :=
  match x with
  | .assist y =>
    if (s.part (s.partOf q.gid)).assist.any (fun x => decide (x.2.resume = some i)) then s
    else s.postNeed (s.whoOf q.gid) y 1 q.gid 0 i
  | _ => s

/-- The status of R410. -/
def statusWord (version oor code : Nat) : Nat := version * 2 ^ 32 + min oor (2 ^ 24 - 1) * 2 ^ 8 + code

/-- The words of the stream command that a command runs: its own, or those of a chain's entry (R421). -/
def EngCmd.stream (q : EngCmd) : List Word := if q.sub = 5 then q.entryWords else q.words

/-- The completion object of what a command runs (R410): none for a chain that runs no entry. -/
def EngCmd.completion (q : EngCmd) : Nat := if q.sub = 5 ∧ q.runningEntry = false then 0 else pairAt q.stream 4

/-- An engine's aligned store of eight bytes: the other packages that it has written. -/
def engStore (q : EngCmd) (va v : Nat) (s : State) : Except EngStop (List Nat) × State :=
  let a : EngAcc := { s := s, lastR := 0, lastW := 0, cmd := q.id, loose := false, read := [], wrote := [], far := [], wroteTo := [], seen := [],
                      ranges := [], bad := [], taint := false, oor := 0 }
  let r := writeElem q.gid false va 0 64 false false v a
  (r.1.map (fun _ => r.2.wroteTo), r.2.settle q.gid)

/-- An engine's access goes into the fabric (R106). -/
def engRequest (q : EngCmd) (n : Nat) (s : State) : Bool × State := s.spend (s.vfOf q.gid) (dieOf (coreOf q.gid)) n (q.gid, 64 + q.id)

/-- What stops an access of a core stops an engine. -/
def XStop.toEng (x : XStop) : EngStop :=
  match x with
  | .fault f => .fault f
  | .assist y => .assist y

/-- Signal a command's completion object by 1 (R67, R410): an atomic, which poison leaves unmade. -/
def engCount (q : EngCmd) (b : Nat) (s : State) : Except EngStop Unit × State :=
  let gid := q.gid
  match coreReach gid b 8 3 s with
  | (.error x, s) => (.error x.toEng, s)
  | (.ok (.fault f), s) => (.error (.fault f), s)
  | (.ok (.pool l), s) =>
    let bk := s.blockKey gid
    (.ok (), if s.poolPoisoned bk l then s else s.poolWrite none bk (coreOf gid) l (bytesLE 8 ((ofBytesLE (s.poolBytes bk (coreOf gid) l 8) + 1) % 2 ^ 64)))
  | (.ok (.own off _), s) =>
    match s.toPost (s.partOf gid) off 8 with
    | some sec => (.error (.assist (.contain sec)), s)
    | none =>
      let r := engRequest q 1 s
      if !r.1 then (.error .tokens, r.2)
      else
        let s := r.2
        let s := if s.poisoned off 8 then s else s.writeHome none (s.partOf gid) off (bytesLE 8 ((s.wordAt off 8 + 1) % 2 ^ 64))
        (.ok (), s.dropSector (coreOf gid) off)
  | (.ok (.remote pa _), s) =>
    let r := engRequest q 1 s
    if !r.1 then (.error .tokens, r.2)
    else
      let x := r.2.engineFar gid addKind pa 8 (addImage 1) false
      (if x.1 then .ok () else .error (.fault (.phys fPermission pa)), x.2)

/-- A command cannot go on: an access faults (R425), or it waits. One that is cancelled faults no more: what it could not
write is left out (log 21). -/
def State.haltCommand (s : State) (q : EngCmd) (c total : Nat) (x : EngStop) : State :=
  match x with
  | .fault f => if q.ended = some 2 then (s.removeCommand (coreOf q.gid) q.id).afterCommand q.gid else s.stopCommand q c total f
  | x => s.pauseCommand q x (.engineCommandComplete (coreOf q.gid) q.id)

/-- The end of one entry of a chain (R421): the sequence location, then the next entry or the end. -/
def chainNext (q : EngCmd) (s : State) : State :=
  let core := coreOf q.gid
  match engStore q (pairAt q.words 4) (q.k + 1) s with
  | (.error x, s) => s.haltCommand q q.cpos q.cpos x
  | (.ok l, s) =>
    let s := s.modCommand core q.id (fun x =>
      { x with seqWritten := q.k + 1, k := q.k + 1, entryAddr := q.nextAddr, runningEntry := false, cpos := 0, spos := 0, oor := 0,
               ended := none, wrote := [], far := [], wroteTo := l, taint := false })
    if q.nextAddr = 0 then (s.removeCommand core q.id).afterCommand q.gid else s.schedule (.chainEntryStart core q.id)

/-- What follows a command's last write and its signal (R410, R421, R426): a chain's entry that completed leads on, every
other command is over. -/
def State.endCommand (s : State) (q : EngCmd) : State :=
  if q.sub = 5 ∧ q.ended = some 0 then chainNext q s else (s.removeCommand (coreOf q.gid) q.id).afterCommand q.gid

/-- A command ends with a status code (R410, R421, R426): every write of it is performed first, then its status is
written, and the completion object is signalled once that has been performed too (R246). -/
def State.finishCommand (s : State) (q : EngCmd) (code : Nat) : State :=
  let core := coreOf q.gid
  let b := q.completion
  if !q.wroteTo.isEmpty then s.flushCommand (s.vfOf q.gid) q
  else if !q.marks.isEmpty then s
  else if b = 0 then s.endCommand q
  else if !q.posted then
    match engStore q (b + 8) (statusWord q.version q.oor code) s with
    | (.error x, s) => s.haltCommand q q.cpos q.cpos x
    | (.ok l, s) => (s.modCommand core q.id (fun x => { x with posted := true, wroteTo := l })).schedule (.engineCommandComplete core q.id)
  else match engCount q b s with
    | (.error x, s) => s.haltCommand q q.cpos q.cpos x
    | (.ok _, s) =>
      let clear := fun (w : List Word) => (w.set 4 0#32).set 5 0#32
      let done := fun (x : EngCmd) => if q.sub = 5 then { x with entryWords := clear x.entryWords, posted := false } else { x with words := clear x.words, posted := false }
      (s.modCommand core q.id done).endCommand (done q)

/-- ENGINE_COMMAND_COMPLETE (R410, R421, R424): the command runs on from its committed position, or goes on with its end. -/
def execEngineCommandComplete (core id : Nat) (s : State) : Host.Outcome State Fault Refusal :=
  match s.command core id with
  | none => .next s
  | some q =>
    if !q.started || q.stopped || s.streamsStop q.gid || (decide (q.sub = 5) && !q.runningEntry && q.ended.isNone) then .next s
    else match q.ended with
      | some code => .next (s.finishCommand q code)
      | none =>
        let r := runStream ⟨q.gid, id, if q.sub = 5 then q.entrySub else q.sub, q.stream, ⟨q.cvmode, q.mode⟩, q.base, q.ent1, q.ent2, q.wrote, q.far, q.taint⟩ q.cpos s
        let q := { q with cpos := r.c, spos := r.c, oor := q.oor + r.oor, wrote := r.wrote, far := r.far, wroteTo := (q.wroteTo ++ r.wroteTo).eraseDups,
                          ended := if r.stop.isNone then some 0 else none }
        let s := r.s.modCommand core id (fun _ => q)
        match r.stop with
        | some x => .next (s.haltCommand q r.c r.total x)
        | none => .next (s.finishCommand q 0)

/-- A command's marker is answered, or its package is gone: it goes on (R410). -/
def State.endEngineMarkers (s : State) (id : Nat) (done : Nat × Nat → Bool) : State :=
  let s := s.anyCommand id (fun q => { q with marks := q.marks.filter (fun m => !done m) })
  match s.allCommands.find? (fun q => decide (q.id = id)) with
  | some q => s.schedule (.engineCommandComplete (coreOf q.gid) id)
  | none => s

/-- The words of a chain entry keep R421's layout for its engine. -/
def chainEntryOk (eng : Nat) (b : List Byte) : Option Nat :=
  let sub := leField b 0x20 1
  let zero := decide (leField b 0x21 7 = 0 ∧ leField b 0x30 16 = 0)
  let subOk := if eng = 0 then decide (sub = 0) else decide (1 ≤ sub ∧ sub ≤ 3)
  if leField b 0x28 8 % 64 ≠ 0 then some fMisaligned else if zero && subOk then none else some fIllegalOp

/-- The sectors that an engine reads to take a chain's entry: the entry, and the entries that it names (R106, R421). -/
def chainSectors (q : EngCmd) (s : State) : Nat :=
  match coreReach q.gid q.entryAddr 64 1 s with
  | (.ok (.own _ _), _) | (.ok (.remote _ _), _) =>
    match coreRead q.gid q.entryAddr 64 s with
    | (.ok (b, _), s) =>
      (entryRequests q.gid (enqIds (leField b 0x20 1) ((List.range 8).map (fun k => BitVec.ofNat 32 (leField b (4 * k) 4)))) s).foldl (fun n k => n + k) 2
    | _ => 0
  | _ => 0

/-- CHAIN_ENTRY_START (R421): entry k is read and checked once k is below the tail count. Poison in it, or in an entry that
it names, raises nothing, and marks what the entry's command writes (R209, R425). -/
def execChainEntryStart (core id : Nat) (s : State) : Host.Outcome State Fault Refusal :=
  match s.command core id with
  | none => .next s
  | some q =>
    if q.sub ≠ 5 ∨ q.started = false ∨ q.stopped ∨ s.streamsStop q.gid ∨ q.runningEntry ∨ q.tc ≤ q.k then .next s
    else
      let again : Instr := .chainEntryStart core id
      let out := engRequest q (chainSectors q s) s
      if !out.1 then .next out.2
      else match coreRead q.gid q.entryAddr 64 out.2 with
      | (.error (.fault f), s) => .next (s.stopCommand q 0 0 f)
      | (.error (.assist x), s) => .next (s.pauseCommand q (.assist x) again)
      | (.ok (b, bad), s) =>
        let w := (List.range 8).map (fun k => BitVec.ofNat 32 (leField b (4 * k) 4))
        match chainEntryOk (engineOf 5 q.words) b with
        | some k => .next (s.stopCommand q 0 0 (.virt k q.entryAddr))
        | none =>
          let sub := leField b 0x20 1
          match enqCheck true q.gid sub w s with
          | (.error (.assist x), s) => .next (s.pauseCommand q (.assist x) again)
          | (.error (.fault f), s) => .next (s.stopCommand q 0 0 { f with addr := q.entryAddr, physical := false, stage2 := false })
          | (.ok i, s) =>
            let s := s.modCommand core id (fun x => { x with entrySub := sub, entryWords := w, nextAddr := leField b 0x28 8, runningEntry := true,
                                                             version := i.version, base := i.base, ent1 := i.ent1, ent2 := i.ent2, cpos := 0, spos := 0, oor := 0,
                                                             ended := none, posted := false, wrote := [], far := [], taint := bad || i.taint })
            .next (s.schedule (.engineCommandComplete core id))

/-- The event by which a command goes on. -/
def EngCmd.again (core : Nat) (q : EngCmd) : Instr :=
  if q.sub = 5 ∧ q.runningEntry = false ∧ q.ended.isNone then .chainEntryStart core q.id else .engineCommandComplete core q.id

/-- Restart a command after RETT (R426). -/
def State.restartCommand (s : State) (core id : Nat) : State :=
  match s.command core id with
  | none => s
  | some q =>
    (s.modCommand core id (fun x => { x with stopped := false })).schedule (q.again core)

/-- Cancel a command, by FSKIP or for its lost image (R410, R426, R475): status code 2 is written and signalled. -/
def State.cancelCommand (s : State) (core id : Nat) : State :=
  (s.modCommand core id (fun q => { q with started := true, held := false, stopped := false, ended := some 2, posted := false })).schedule (.engineCommandComplete core id)

/-- Units that wait for tokens or for a free slot of the assist table try again. -/
def State.retryEngines (s : State) : State :=
  s.cores.foldl (fun s k => k.2.queue.foldl (fun s q =>
    if q.started && !q.stopped then s.schedule (q.again k.1) else s) s) s

/-! Ranges of bytes of a VF. -/

/-- The pieces of a range that cross no 4 KiB page. -/
def pagePieces : Nat → Nat → Nat → List (Nat × Nat)
  | 0, _, _ => []
  | k + 1, va, n => if n = 0 then [] else let m := min n (4096 - va % 4096); (va, m) :: pagePieces k (va + m) (n - m)

/-- Read a range: bytes and poison. -/
def readPieces (w : XWho) : List (Nat × Nat) → State → Except XStop (List Byte × Bool) × State
  | [], s => (.ok ([], false), s)
  | (va, n) :: r, s =>
    match unitRead w va n s with
    | (.error x, s) => (.error x, s)
    | (.ok (b, p), s) =>
      match readPieces w r s with
      | (.error x, s) => (.error x, s)
      | (.ok (c, q), s) => (.ok (b ++ c, p || q), s)

/-- Read `n` bytes from an address. -/
def unitReadRange (w : XWho) (va n : Nat) (s : State) : Except XStop (List Byte × Bool) × State := readPieces w (pagePieces (n / 4096 + 2) va n) s

/-- Write the bytes of a range piece by piece; `bad` leaves its sectors poisoned (R209). -/
def writePieces (w : XWho) (bad : Bool) : List (Nat × Nat) → List Byte → State → Except XStop Unit × State
  | [], _, s => (.ok (), s)
  | (va, n) :: r, b, s =>
    match resolveOnce w va 2 s with
    | (.error x, s) => (.error x, s)
    | (.ok (.own off, _), s) =>
      let s := (s.writeHome none w.part off (b.take n)).clearPoison [(off, n)]
      let s := if bad then (List.range ((off + n - 1) / 32 + 1 - off / 32)).foldl (fun s i => s.setPoison (off / 32 + i) true) s else s
      writePieces w bad r (b.drop n) s
    | (.ok (.remote pa, _), s) =>
      match s.unitFar w 1 pa n (b.take n) bad with
      | (.error x, s) => (.error x, s)
      | (.ok _, s) => writePieces w bad r (b.drop n) s

/-- The pieces of a range that cross no sector: poison travels by sector (R209). -/
def sectorPieces : Nat → Nat → Nat → List (Nat × Nat)
  | 0, _, _ => []
  | k + 1, va, n => if n = 0 then [] else let m := min n (32 - va % 32); (va, m) :: sectorPieces k (va + m) (n - m)

/-- Read a range sector by sector: each byte, with the poison of its sector. -/
def readFlagged (w : XWho) : List (Nat × Nat) → State → Except XStop (List (Byte × Bool)) × State
  | [], s => (.ok [], s)
  | (va, n) :: r, s =>
    match unitRead w va n s with
    | (.error x, s) => (.error x, s)
    | (.ok (b, p), s) =>
      match readFlagged w r s with
      | (.error x, s) => (.error x, s)
      | (.ok l, s) => (.ok (b.map (fun x => (x, p)) ++ l), s)

/-- Write a range sector by sector: a sector with a flagged byte is left poisoned. -/
def writeFlagged (w : XWho) : List (Nat × Nat) → List (Byte × Bool) → State → Except XStop Unit × State
  | [], _, s => (.ok (), s)
  | (va, n) :: r, b, s =>
    match writePieces w ((b.take n).any (fun x => x.2)) [(va, n)] ((b.take n).map (fun x => x.1)) s with
    | (.error x, s) => (.error x, s)
    | (.ok _, s) => writeFlagged w r (b.drop n) s

/-- Write bytes from an address on. -/
def unitWriteRange (w : XWho) (va : Nat) (bad : Bool) (b : List Byte) (s : State) : Except XStop Unit × State :=
  writePieces w bad (pagePieces (b.length / 4096 + 2) va b.length) b s

/-- What the hypervisor has to answer before a range can be read or written (R102, R213), if anything. -/
def probePieces (w : XWho) (need : Nat) : List (Nat × Nat) → State → Option AssistNeed × State
  | [], s => (none, s)
  | (va, n) :: r, s =>
    match resolve w va need s with
    | (.error (.assist x), s) => (some x, s)
    | (.ok (.own off, _), s) =>
      match (if need = 1 then s.toPost w.part off n else none) with
      | some sec => (some (.contain sec), s)
      | none => probePieces w need r s
    | (_, s) => probePieces w need r s

/-- The same for a range of bytes. -/
def unitProbe (w : XWho) (need va n : Nat) (s : State) : Option AssistNeed × State := probePieces w need (pagePieces (n / 4096 + 2) va n) s

/-! Collectives (R416, R418, R419). -/

/-- Earlier commands of the group for the same unit stand before this one. -/
def firstOfKind (queue : List EngCmd) (q : EngCmd) : Bool :=
  match queue.find? (fun x => decide (x.gid = q.gid ∧ x.sub = q.sub)) with
  | some x => decide (x.id = q.id)
  | none => false

/-- The next command of the group for the same unit, once one is accepted. -/
def State.serveNext (s : State) (gid sub : Nat) : State :=
  match (s.core (coreOf gid)).queue.find? (fun x => decide (x.gid = gid ∧ x.sub = sub)) with
  | some x => if x.held then s else s.schedule (serveEvent (coreOf gid) x.id sub x.words)
  | none => s

/-- Bytes of a collective's source and destination (R416). -/
def Collective.sizes (c : Collective) (n : Nat) : Nat × Nat :=
  let e := fmtBits c.fmt / 8
  (if c.op = 2 then c.n * n * e else c.n * e, if c.op = 1 then c.n * n * e else c.n * e)

/-- A participant word of a descriptor: package, VF, generation; its other bits are zero (R416). -/
def partWordOk (x : Nat) : Bool := decide (field x 9 7 = 0 ∧ field x 26 6 = 0 ∧ field x 48 16 = 0)

/-- The end of a collective for one participant (R419). -/
def State.endColl (s : State) (c : Collective) (status : Nat) : State :=
  ({ s with colls := s.colls.filter (fun x => decide (x.id ≠ c.id)) }).countUp c.vf c.counter status

/-- A request that ends at its acceptance counts, and stays as what its partners match (R416, R418). -/
def State.endAtOnce (s : State) (c : Collective) (own peers : Nat) : State :=
  let s := ({ s with colls := s.colls ++ [{ c with ended := some peers }] }).countUp c.vf c.counter own
  (s.colls.filter (fun x => decide (x.tag = c.tag ∧ x.ended = none))).foldl (fun s x => s.schedule (.collComplete x.id 0 [])) s

/-- A malformed descriptor: the request ends with MISMATCH and free destination values (R416). -/
def collMalformed (core id : Nat) (c : Collective) (n : Nat) (go : State → State) (s : State) : State :=
  let size := (c.sizes (min n 4096)).2
  match unitProbe (s.whoVf c.vf) 2 c.dst size s with
  | (some x, s) => s.unitAssist (s.whoVf c.vf) x (.collAccept core id)
  | (none, s) =>
    let f := (go s).freeBytes size
    (unitWriteRange (f.2.whoVf c.vf) c.dst false f.1 f.2).2.endAtOnce c 6 6

/-- COLL_ACCEPT (R416, R418): the engine takes the command, reads the descriptor, and refuses what
meets the Pool window. -/
def execCollAccept (core id : Nat) (s : State) : Host.Outcome State Fault Refusal :=
  match s.command core id with
  | none => .next s
  | some q =>
    if q.sub ≠ 4 ∨ q.held ∨ firstOfKind (s.core core).queue q = false then .next s
    else
      let vf := s.vfOf q.gid
      let w0 := wordOf q.words 0
      let desc := pairAt q.words 6
      let c0 : Collective := ⟨q.id, vf, field w0 0 4, field w0 4 4, field w0 8 12, field w0 24 8, wordOf q.words 1, pairAt q.words 2, pairAt q.words 4, [], 0, 0, none, none⟩
      let go := fun (s : State) => (s.removeCommand core id).afterCommand q.gid |>.serveNext q.gid 4
      match unitReadWords (s.whoVf vf) desc 2 s with
      | (.error (.assist x), s) => .next (s.unitAssist (s.whoVf vf) x (.collAccept core id))
      | (.error (.fault _), s) => .next ((go s).countUp vf c0.counter 5)
      | (.ok (h, p0), s) =>
        let n := leField h 0 4
        let size := c0.sizes n
        if meetsPool desc 16 then .next ((go s).countUp vf c0.counter 5)
        else
          let c1 : Collective := { c0 with own := leField h 4 4, tag := leField h 8 4 }
          if meetsPool desc (16 + 8 * min n 4096) || meetsPool c0.src size.1 || meetsPool c0.dst size.2 then .next ((go s).endAtOnce c1 5 2)
          else if n < 2 ∨ 4096 < n ∨ n ≤ leField h 4 4 ∨ leField h 12 4 ≠ 0 then .next (collMalformed core id c1 n go s)
          else match unitReadWords (s.whoVf vf) (desc + 16) n s with
            | (.error (.assist x), s) => .next (s.unitAssist (s.whoVf vf) x (.collAccept core id))
            | (.error (.fault _), s) => .next ((go s).endAtOnce c1 5 2)
            | (.ok (b, p1), s) =>
              let ranks := (List.range n).map (fun i => leField b (8 * i) 8)
              if p0 || p1 then .next ((go s).endAtOnce c1 7 2)
              else if !ranks.all partWordOk then .next (collMalformed core id c1 n go s)
              else
                let c : Collective := { c1 with ranks := ranks }
                .next ((go { s with colls := s.colls ++ [c] }).schedule (.collComplete id 0 []))

/-- A participant's VF was reset since the set-up (R119, R120). -/
def State.stalePart (s : State) (c : Collective) : Bool :=
  c.ranks.any (fun x => decide (field x 0 9 = s.boot.pkg) && decide (field x 32 16 ≠ (s.vf (field x 16 10)).gen))

/-- The participant of a rank on this package, whose set-up names no reset VF (R120): its collective of the tag that comes first (R416). -/
def State.partner (s : State) (c : Collective) (i : Nat) : Option Collective :=
  s.colls.find? (fun x => decide (x.tag = c.tag ∧ x.own = i ∧ x.vf = field (c.ranks.getD i 0) 16 10) && !s.stalePart x)

/-- Every participant belongs to this package. -/
def State.allLocal (s : State) (c : Collective) : Bool := c.ranks.all (fun x => decide (field x 0 9 = s.boot.pkg))

/-- Participants agree (R416), and none of them has ended. -/
def collsAgree (c x : Collective) : Bool := decide (x.ended = none ∧ c.op = x.op ∧ c.fmt = x.fmt ∧ c.n = x.n ∧ c.ranks.length = x.ranks.length ∧ (c.op ≠ 3 ∨ c.root = x.root))

/-- The sum of one element over the ranks (R416): integers wrap, floats by fsum under RNE. -/
def collSum (fmt : Nat) (l : List Nat) : Nat :=
  match fmtOfCode fmt with
  | .float F => fSum ⟨F, .rne, false, false⟩ 0 l
  | _ => (l.foldl (fun a b => a + b) 0) % 2 ^ 32

/-- Elements of a byte list. -/
def elemsOf (e : Nat) (b : List Byte) : List Nat := (List.range (b.length / e)).map (fun i => leField b (e * i) e)

/-- An element at a place of a source, and the poison of its bytes. -/
def flaggedElem (e at' : Nat) (b : List (Byte × Bool)) : Nat × Bool :=
  let l := (b.drop at').take e
  (ofBytesLE (l.map (fun x => x.1)), l.any (fun x => x.2))

/-- The result of a participant from all sources by rank (R416): each byte with its poison (R209). -/
def collResult (c : Collective) (i : Nat) (srcs : List (List (Byte × Bool))) : List (Byte × Bool) :=
  let e := fmtBits c.fmt / 8
  let sums := fun (lo n : Nat) => ((List.range n).map (fun k =>
    let l := srcs.map (flaggedElem e (e * (lo + k)))
    (bytesLE e (collSum c.fmt (l.map (fun x => x.1)))).map (fun x => (x, l.any (fun y => y.2))))).flatten
  match c.op with
  | 0 => sums 0 c.n
  | 1 => srcs.flatten
  | 2 => sums (i * c.n) c.n
  | _ => srcs.getD c.root []

/-- The participant's source is read: in a broadcast, the root's alone. -/
def Collective.readsSource (c : Collective) : Bool := decide (c.op ≠ 3 ∨ c.own = c.root)

/-- The source bytes of every participant, in rank order: the first stop by rank, if any. -/
def collSources (cs : List Collective) (s : State) : List (Except XStop (List (Byte × Bool))) × State :=
  cs.foldl (fun (acc : List (Except XStop (List (Byte × Bool))) × State) c =>
    let n := if c.readsSource then (c.sizes c.ranks.length).1 else 0
    let r := readFlagged (acc.2.whoVf c.vf) (sectorPieces (n / 32 + 2) c.src n) acc.2
    (acc.1 ++ [r.1], r.2)) ([], s)

/-- What the hypervisor has to answer before the sources, if they are read, and the destinations of participants are
reached: the first such need, with the translation that meets it. -/
def probeColls (sources : Bool) : List Collective → State → Option (XWho × AssistNeed) × State
  | [], s => (none, s)
  | c :: r, s =>
    let w := s.whoVf c.vf
    match (if sources && c.readsSource then unitProbe w 1 c.src (c.sizes c.ranks.length).1 s else (none, s)) with
    | (some x, s) => (some (w, x), s)
    | (none, s) =>
      match unitProbe w 2 c.dst (c.sizes c.ranks.length).2 s with
      | (some x, s) => (some (w, x), s)
      | (none, s) => probeColls sources r s

/-- What a participant receives; a broadcast whose root is no rank gives free values (log 17). -/
def State.collBytes (s : State) (c : Collective) (srcs : List (List (Byte × Bool))) : List (Byte × Bool) × State :=
  if c.op = 3 ∧ c.ranks.length ≤ c.root then
    let f := s.freeBytes (c.sizes c.ranks.length).2
    (f.1.map (fun x => (x, false)), f.2)
  else (collResult c c.own srcs, s)

/-- The result of a collective from the sources of every rank is written for some of its participants (R416, R419):
poison marks the results that depend on it (R209). -/
def State.deliverColl (s : State) (cs : List Collective) (bytes : List (List (Byte × Bool))) : State :=
  let bad := bytes.any (fun b => b.any (fun x => x.2))
  cs.foldl (fun s c =>
    let d := s.collBytes c bytes
    match writeFlagged (d.2.whoVf c.vf) (sectorPieces (d.1.length / 32 + 2) c.dst d.1.length) d.1 d.2 with
    | (.error _, s) => s.endColl c 5
    | (.ok _, s) => s.endColl c (if bad then 7 else 0)) s

/-- Perform a collective whose participants are all here and agree (R416, R419): a participant whose
source faults ends with FAULT and the others with REMOTE. -/
def State.performColl (s : State) (cs : List Collective) : State :=
  let q := collSources cs s
  let bad : Except XStop (List (Byte × Bool)) → Bool := fun r => match r with
    | .error _ => true
    | .ok _ => false
  if q.1.any bad then (cs.zip q.1).foldl (fun s x => s.endColl x.1 (if bad x.2 then 5 else 2)) q.2
  else q.2.deliverColl cs (q.1.map (fun r => r.toOption.getD []))

/-- Participants that have ended before they were matched go. -/
def State.dropEnded (s : State) (cs : List Collective) : State :=
  { s with colls := s.colls.filter (fun x => !(x.ended.isSome && cs.any (fun c => decide (c.id = x.id)))) }

/-- Participants disagree, or one's descriptor is malformed (R416): every one ends with MISMATCH and free destination
values. -/
def State.mismatchColl (s : State) (cs : List Collective) : State :=
  (cs.filter (fun c => c.ended.isNone)).foldl (fun s c =>
    let f := s.freeBytes (c.sizes c.ranks.length).2
    (unitWriteRange (f.2.whoVf c.vf) c.dst false f.1 f.2).2.endColl c 6) (s.dropEnded cs)

/-- One of the participants was refused: the others end with REMOTE (R418). -/
def State.refusedColl (s : State) (cs : List Collective) : State :=
  (cs.filter (fun c => c.ended.isNone)).foldl (fun s c => s.endColl c 2) (s.dropEnded cs)

/-- The participant of a rank belongs to this package. -/
def State.localRank (s : State) (c : Collective) (i : Nat) : Bool := decide (field (c.ranks.getD i 0) 0 9 = s.boot.pkg)

/-- The length of the source that a rank contributes: of a broadcast, the root's alone. -/
def Collective.sourceSize (c : Collective) (i : Nat) : Nat := if c.op ≠ 3 ∨ i = c.root then (c.sizes c.ranks.length).1 else 0

/-- The sources by rank: of this package's participants as they were read, of the others as their packages have sent them, one
after the other. -/
def State.rankSources (s : State) (c : Collective) (bad : Bool) : List Nat → List Byte → List (List (Byte × Bool))
  | [], _ => []
  | i :: r, b =>
    if s.localRank c i then ((s.partner c i).bind (fun x => x.part)).getD [] :: s.rankSources c bad r b
    else (b.take (c.sourceSize i)).map (fun x => (x, bad)) :: s.rankSources c bad r (b.drop (c.sourceSize i))

/-- A participant's source is read and goes to the participants of other packages; one that cannot be read ends it with FAULT,
and the others with REMOTE (R416, R419). -/
def sendSource (c : Collective) (again : Instr) (s : State) : State :=
  let w := s.whoVf c.vf
  let n := if c.readsSource then (c.sizes c.ranks.length).1 else 0
  match unitProbe w 1 c.src n s with
  | (some x, s) => s.unitAssist w x again
  | (none, s) =>
    match readFlagged w (sectorPieces (n / 32 + 2) c.src n) s with
    | (.error _, s) => (s.endColl c 5).send (.collPart c.vf c.tag c.own none)
    | (.ok b, s) =>
      let keep := fun (x : Collective) => if x.id = c.id then { x with part := some b } else x
      State.send { s with colls := s.colls.map keep } (.collPart c.vf c.tag c.own (some b))

/-- A collective with participants of other packages, whose sources have come (R416): this package's participants receive their
results, once each of them has read its own source. -/
def State.farColl (s : State) (c : Collective) (status : Nat) (bytes : List Byte) (again : Instr) : State :=
  let here := (List.range c.ranks.length).filter (s.localRank c)
  let cs := here.filterMap (s.partner c)
  let far := ((List.range c.ranks.length).filter (fun i => !s.localRank c i)).foldl (fun n i => n + c.sourceSize i) 0
  if cs.length < here.length ∨ bytes.length < far ∨ cs.any (fun x => x.part.isNone && x.ended.isNone) then s
  else
    let agree := cs.all (collsAgree c)
    if !agree && cs.any (fun x => decide (x.ended = some 2)) then s.refusedColl cs
    else match probeColls false (cs.filter (fun x => x.ended.isNone)) s with
      | (some (w, x), s) => s.unitAssist w x again
      | (none, s) => if agree then s.deliverColl cs (s.rankSources c (decide (status = 7)) (List.range c.ranks.length) bytes) else s.mismatchColl cs

/-- COLL_COMPLETE (R416, R419): with every participant on this package the result is computed here; else this package's
participants read and send their sources first, and the other packages supply the status, and with statuses 0 and 7 the
sources of their participants, in rank order (log 17). -/
def execCollComplete (id status : Nat) (bytes : List (BitVec 8)) (s : State) : Host.Outcome State Fault Refusal :=
  match s.colls.find? (fun c => decide (c.id = id)) with
  | none => .next s
  | some c =>
    if c.ended.isSome then .next s
    else if s.stalePart c then .next (s.endColl c 1)
    else if s.allLocal c then
      let ps := (List.range c.ranks.length).map (fun i => s.partner c i)
      if ps.any Option.isNone then .next s
      else
        let cs := ps.filterMap (fun x => x)
        let agree := cs.all (collsAgree c)
        if !agree && cs.any (fun x => decide (x.ended = some 2)) then .next (s.refusedColl cs)
        else match probeColls agree (cs.filter (fun x => agree || x.ended.isNone)) s with
        | (some (w, x), s) => .next (s.unitAssist w x (.collComplete id status bytes))
        | (none, s) => .next (if agree then s.performColl cs else s.mismatchColl cs)
    else if status ≠ 0 ∧ status ≠ 7 then .next (s.endColl c status)
    else if c.part.isNone then .next (sendSource c (.collComplete id 0 []) s)
    else .next (s.farColl c status bytes (.collComplete id status bytes))

/-! Estuary work (R417 to R419). -/

/-- The status with which a work request ends at once, if it does (R33, R108, R417, R418). -/
def State.npostRefusal (s : State) (vf : Nat) (w : List Word) : Option Nat :=
  let v := s.vf vf
  let w0 := wordOf w 0
  if meetsPool (pairAt w 2) (wordOf w 1) then some 5
  else if 1 < field w0 0 4 ∨ 1 < field w0 4 4 then some 3
  else match FMap.find v.conns (field (wordOf w 6) 0 16) with
    | none => some 4
    | some conn => if bitAt (s.part v.part).estPorts conn.1 then none else some 4

/-- NPOST_ACCEPT (R417): Estuary takes the request and sends it; a write reads its local bytes now, and they go with it. -/
def execNpostAccept (core id : Nat) (s : State) : Host.Outcome State Fault Refusal :=
  match s.command core id with
  | none => .next s
  | some q =>
    if q.sub ≠ 6 ∨ q.held ∨ firstOfKind (s.core core).queue q = false then .next s
    else
      let vf := s.vfOf q.gid
      let w0 := wordOf q.words 0
      let counter := field w0 24 8
      let go := fun (s : State) => (s.removeCommand core id).afterCommand q.gid |>.serveNext q.gid 6
      let work : NetWork := ⟨q.id, vf, field w0 0 4, counter, wordOf q.words 1, pairAt q.words 2, pairAt q.words 4, field (wordOf q.words 6) 0 16,
        if bitAt w0 16 then some (field w0 8 8) else none, field w0 4 4⟩
      let gen := (FMap.getD (s.vf vf).conns (0, 0) work.conn).2
      let post := fun (b : List Byte) (s : State) => ({ go s with works := s.works ++ [work] }).send (.estuary gen work b)
      match s.npostRefusal vf q.words with
      | some st => .next ((go s).countUp vf counter st)
      | none =>
        if work.op = 1 then .next (post [] s)
        else match unitReadRange (s.whoVf vf) work.laddr work.len s with
          | (.error (.assist x), s) => .next (s.unitAssist (s.whoVf vf) x (.npostAccept core id))
          | (.error (.fault _), s) => .next ((go s).countUp vf counter 5)
          | (.ok (_, true), s) => .next ((go s).countUp vf counter 7)
          | (.ok (b, false), s) => .next (post b s)

/-- ESTUARY_WORK_COMPLETE (R417, R419): the bytes of a read are performed here before the count. -/
def execEstuaryWorkComplete (id status : Nat) (bytes : List (BitVec 8)) (s : State) : Host.Outcome State Fault Refusal :=
  match s.works.find? (fun w => decide (w.id = id)) with
  | none => .next s
  | some w =>
    let done := fun (s : State) => { s with works := s.works.filter (fun x => decide (x.id ≠ id)) }
    if status = 0 ∧ w.op = 1 then
      match unitWriteRange (s.whoVf w.vf) w.laddr false (bytes.take w.len) s with
      | (.error (.assist x), s) => .next (s.unitAssist (s.whoVf w.vf) x (.estuaryWorkComplete id status bytes))
      | (.error _, s) => .next ((done s).countUp w.vf w.counter 5)
      | (.ok _, s) => .next ((done s).countUp w.vf w.counter 0)
    else .next ((done s).countUp w.vf w.counter (status % 256))

end Sys2Proof.Machine
end

