-- ==== Sys2Proof/Machine/Launch.lean ====
section
/-! DEFINITION. Launch queues, records and headers (R59 to R75), completion (R72 to R74), the device
launch queue and LNCH (R75, R428), and host-service calls (R76, R77, R429). -/

namespace Sys2Proof.Machine

/-! Records and headers. -/

/-- The fields of a launch record (R66). -/
def launchRec (b : List Byte) : LaunchRec :=
  ⟨leField b 0 1, leField b 1 1, leField b 2 2, leField b 4 4, leField b 8 8, leField b 0x10 8, leField b 0x18 8, leField b 0x20 8, leField b 0x28 8, leField b 0x30 8⟩

/-- The first offset at which a list of checks fails. -/
def firstFail (l : List (Nat × Bool)) : Option Nat := (l.find? (fun q => !q.2)).map (fun q => q.1)

/-- The failing offset of a record, if there is one (R66): fewer fields count for a NOP. -/
def recFail (b : List Byte) : Option Nat :=
  let r := launchRec b
  let flags := decide (r.flags / 8 = 0)
  let wobj := !bitAt r.flags 0 || decide (r.wobj % 8 = 0)
  let zero := decide (leField b 0x38 8 = 0)
  if r.type = 0 then firstFail [(1, flags), (0x10, wobj), (0x38, zero)]
  else firstFail [(0, decide (r.type = 1)), (1, flags), (2, decide (r.vector ≤ 63)), (8, decide (r.header % 128 = 0)), (0x10, wobj),
    (0x20, !bitAt r.flags 1 || decide (r.sobj % 8 = 0)), (0x30, decide (r.crec % 32 = 0)), (0x38, zero)]

/-- Role entry i of a header (R70). -/
def roleEnt (b : List Byte) (i : Nat) : RoleEnt := ⟨leField b (0x40 + 16 * i) 4, leField b (0x44 + 16 * i) 1, leField b (0x45 + 16 * i) 1, leField b (0x46 + 16 * i) 1⟩

/-- The fields of a launch header (R68). -/
def launchHdr (b : List Byte) : LaunchHdr :=
  let n := min 4 (leField b 2 1)
  ⟨leField b 2 1, leField b 3 1, leField b 4 4, leField b 8 4, leField b 0xC 2, leField b 0xE 2, leField b 0x10 8, leField b 0x18 8, leField b 0x20 4,
    leField b 0x24 4, leField b 0x28 8, leField b 0x30 8, leField b 0x38 4, (List.range n).map (roleEnt b)⟩

/-- Blocks of a grid. -/
def LaunchHdr.total (h : LaunchHdr) : Nat := h.gx * h.gy * h.gz

/-- Groups of a block. -/
def LaunchHdr.groups (h : LaunchHdr) : Nat := (h.roles.map (fun r => r.groups)).foldl (fun a b => a + b) 0

/-- Pool units of the register region, scratchpad and tile store (R69). -/
def LaunchHdr.regUnits (h : LaunchHdr) : Nat := field h.pool 0 10
def LaunchHdr.scUnits (h : LaunchHdr) : Nat := field h.pool 10 10
def LaunchHdr.tiUnits (h : LaunchHdr) : Nat := field h.pool 20 10
def LaunchHdr.units (h : LaunchHdr) : Nat := h.regUnits + h.scUnits + h.tiUnits

/-- The pool word passes (R69). -/
def LaunchHdr.poolOk (h : LaunchHdr) : Bool :=
  let need := ((h.roles.map (fun r => r.groups * r.regs * 256)).foldl (fun a b => a + b) 0 + 4095) / 4096
  decide (h.pool / 2 ^ 30 = 0 ∧ need ≤ h.regUnits ∧ h.scUnits ≤ 512 ∧ h.units + 8 ≤ 640)

/-- The checks of role entry i (R68, R70), in offset order. -/
def roleChecks (b : List Byte) (n total i : Nat) : List (Nat × Bool) :=
  let o := 0x40 + 16 * i
  let r := roleEnt b i
  if i < n then
    [(o, decide (r.entry % 4 = 0)), (o + 4, decide (16 ≤ r.regs ∧ r.regs ≤ 128 ∧ r.regs % 8 = 0)), (o + 5, decide (1 ≤ r.lock ∧ r.lock ≤ 16)),
     (o + 6, decide (r.groups ≠ 0 ∧ r.lock ≠ 0 ∧ r.groups % r.lock = 0) && (decide (i + 1 ≠ n) || decide (total ≤ 64))), (o + 7, decide (leField b (o + 7) 9 = 0))]
  else [(o, decide (leField b o 16 = 0))]

/-- The failing offset of a header, the lowest one, if there is one (R68). -/
def hdrFail (b : List Byte) : Option Nat :=
  let h := launchHdr b
  let n := leField b 2 1
  let nOk := decide (1 ≤ n ∧ n ≤ 4)
  firstFail ([(0, decide (leField b 0 2 = 1)), (2, nOk), (3, decide (1 ≤ h.gang ∧ h.gang ≤ 9) && decide (h.total % h.gang = 0)), (4, h.poolOk),
    (8, decide (1 ≤ h.gx)), (0xC, decide (1 ≤ h.gy)), (0xE, decide (1 ≤ h.gz)), (0x10, decide (h.code % 256 = 0)), (0x18, decide (h.cbank % 256 = 0)),
    (0x20, decide (h.csize % 256 = 0 ∧ h.csize ≤ 65536)), (0x28, decide (h.param % 8 = 0)), (0x30, decide (h.stack % 4096 = 0)),
    (0x38, decide (h.ssize % 16 = 0 ∧ h.ssize ≤ 2 ^ 20)), (0x3C, decide (leField b 0x3C 4 = 0))] ++
    ((List.range 4).map (roleChecks b n h.groups)).flatten)

/-! The queue unit. -/

/-- Stop the queue (R60, R65): the first stop is recorded; `msix` signals vector 0 now. The VF may have lost its work
(R148). -/
def State.stopQueue (s : State) (vf err detail : Nat) (msix : Bool) : State :=
  let v := s.vf vf
  if v.stopped then s
  else
    let s := (s.setVf vf { v with stopped := true, lqerr := err, lqdetail := detail, starting := none }).schedule (.switchIn v.part)
    if msix then s.signalMsix vf 0 else s

/-- The grid of a record goes to Delta (R64 step 5, R202). -/
def State.startGrid (s : State) (vf : Nat) (ring : Bool) (r : LaunchRec) (h : LaunchHdr) : State :=
  let q := s.fresh
  let v := s.vf vf
  let g : Grid := ⟨vf, ring, r, h, v.tidbase, 0, 0, none, 0, none, false, false, [], [], [], 0, false⟩
  ({ q.2 with grids := FMap.insert q.2.grids q.1 g }).schedule (.deltaBatchHandout v.part)

/-- The queue may start its next record (R58, R61, R64). -/
def Vf.mayStart (v : Vf) : Bool := v.assigned && v.en && !v.stopped && !v.resetting && v.starting.isNone && decide (v.lqhead ≠ v.lqtail)

/-- A record that has been read goes on: the queue starts records still (R58, R61). -/
def Vf.mayGoOn (v : Vf) : Bool := v.assigned && v.en && !v.stopped && !v.resetting

/-- Step 6 of R64: LQHEAD advances, and the next record may start; the VF may have lost its work (R148). -/
def State.advanceHead (s : State) (vf : Nat) : State :=
  ((s.modVf vf (fun v => { v with lqhead := (v.lqhead + 1) % 2 ^ 32, starting := none })).schedule (.recordStart vf)).schedule (.switchIn (s.vf vf).part)

/-- RECORD_START (R64 steps 1 and 2, R61, R65). -/
def execRecordStart (vf : Nat) (s : State) : Host.Outcome State Fault Refusal :=
  let v := s.vf vf
  if !v.mayStart then .next s
  else match unitReadWords (s.whoVf vf) (v.inLqbase + 64 * (v.lqhead % 2 ^ v.inLgsize)) 8 s with
    | (.error (.assist x), s) => .next (s.unitAssist (s.whoVf vf) x (.recordStart vf))
    | (.error (.fault _), s) => .next (s.stopQueue vf 5 0 true)
    | (.ok (b, bad), s) =>
      if bad then .next (s.stopQueue vf 5 0 true)
      else match recFail b with
        | some o => .next (s.stopQueue vf 3 o true)
        | none =>
          let r := launchRec b
          let wait := bitAt r.flags 0
          let s := s.modVf vf (fun v => { v with starting := some ⟨r, none, none, 0, !wait, none⟩ })
          .next (s.schedule (if wait then .wobjReread vf else .recordWaitSatisfied vf))

/-- The acquire read of a wait object (R67): its value and line, or none where the read fails. -/
inductive WaitRead where
  | value (v line : Nat)
  | failed (code : Nat)
  | assist (x : AssistNeed)
  deriving DecidableEq, Repr

/-- Read a wait object. -/
def readWobj (w : XWho) (va : Nat) (s : State) : WaitRead × State :=
  match resolveOnce w va 1 s with
  | (.error (.fault f), s) => (.failed f.code, s)
  | (.error (.assist x), s) => (.assist x, s)
  | (.ok (.own off, _), s) =>
    match s.toPost w.part off 8 with
    | some sec => (.assist (.contain sec), s)
    | none => if s.poisoned off 8 then (.failed fUncorrectable, s) else (.value (s.wordAt off 8) (off / 256), s.noteRead off 8)
  | (.ok (.remote pa, _), s) =>
    let q := (s.sendRemote w.vf 0 pa 8 [] false).farRead 8
    (if q.1.refused then .failed fPermission else if q.1.poison then .failed fUncorrectable else .value (ofBytesLE q.1.bytes) (2 ^ 50 + pa / 256), q.2)

/-- A wait object below wval is read again within 2 us, which is 1400 ticks (R67, R38). -/
def PendingRec.waitOn (r : PendingRec) (line tick : Nat) : PendingRec := { r with line := some line, due := tick + 1400 }

/-- WOBJ_REREAD (R67, R65); no record goes on while en = 0 (R58). -/
def execWobjReread (vf : Nat) (s : State) : Host.Outcome State Fault Refusal :=
  match (s.vf vf).starting with
  | none => .next s
  | some r =>
    if r.ok || !(s.vf vf).mayGoOn then .next s
    else match readWobj (s.whoVf vf) r.lrec.wobj s with
      | (.failed _, s) => .next (s.stopQueue vf 5 0 true)
      | (.assist x, s) => .next (s.unitAssist (s.whoVf vf) x (.wobjReread vf))
      | (.value x line, s) =>
        if r.lrec.wval ≤ x then .next ((s.modVf vf (fun v => { v with starting := some { r with ok := true, line := none } })).schedule (.recordWaitSatisfied vf))
        else .next (s.modVf vf (fun v => { v with starting := some (r.waitOn line s.tick) }))

/-- RECORD_WAIT_SATISFIED (R64 steps 4 to 6, R66): a NOP only advances LQHEAD. No record starts while en = 0 (R58). -/
def execRecordWaitSatisfied (vf : Nat) (s : State) : Host.Outcome State Fault Refusal :=
  match (s.vf vf).starting with
  | none => .next s
  | some r =>
    if !r.ok || !(s.vf vf).mayGoOn then .next s
    else if r.lrec.type = 0 then .next (s.advanceHead vf)
    else match unitReadWords (s.whoVf vf) r.lrec.header 16 s with
      | (.error (.assist x), s) => .next (s.unitAssist (s.whoVf vf) x (.recordWaitSatisfied vf))
      | (.error (.fault _), s) => .next (s.stopQueue vf 5 0 true)
      | (.ok (b, bad), s) =>
        if bad then .next (s.stopQueue vf 5 0 true)
        else match hdrFail b with
          | some o => .next (s.stopQueue vf 4 o true)
          | none => .next ((s.startGrid vf true r.lrec (launchHdr b)).advanceHead vf)

/-- LQTAIL_WRITE (R62). While en = 0 the queue unit has taken no size (R59), and the check uses the register's (log 60). -/
def execLqtailWrite (vf : Nat) (val : BitVec 64) (s : State) : Host.Outcome State Fault Refusal :=
  let v := s.vf vf
  if v.resetting then .next s
  else
    let n := val.toNat % 2 ^ 32
    let lg := if v.en then v.inLgsize else v.lgsize
    let d := (n + 2 ^ 32 - v.lqtail) % 2 ^ 32
    let free := (v.lqhead + 2 ^ lg + 2 ^ 32 - v.lqtail) % 2 ^ 32
    if d ≤ free then
      let s := s.setVf vf { v with lqtail := n }
      .next ((s.schedule (.recordStart vf)).schedule (.switchIn v.part))
    else .next (s.stopQueue vf 2 0 true)

/-- VFCTL_EN (R58, R59): the base and the size are taken when en goes from 0 to 1. -/
def execVfctlEn (vf : Nat) (en : Bool) (s : State) : Host.Outcome State Fault Refusal :=
  let v := s.vf vf
  if v.resetting then .next s
  else if en && !v.en then
    let s := s.setVf vf { v with en := true, inLqbase := v.lqbase, inLgsize := v.lgsize, starting := none }
    if v.lgsize < 4 ∨ 16 < v.lgsize ∨ v.lqbase % 4096 ≠ 0 then .next (s.stopQueue vf 1 0 true)
    else .next ((s.schedule (.recordStart vf)).schedule (.switchIn v.part))
  else .next ((s.setVf vf { v with en := en }).schedule (.switchIn v.part))

/-- QRESET (R58): while the queue is stopped. -/
def execQreset (vf : Nat) (s : State) : Host.Outcome State Fault Refusal :=
  let v := s.vf vf
  if v.stopped && !v.resetting then .next ((s.setVf vf { v with lqhead := v.lqtail, stopped := false, lqerr := 0, lqdetail := 0, starting := none }).schedule (.switchIn v.part))
  else .next s

/-! Grid ends. -/

/-- The cluster field of a completion record (R73). -/
def State.clusterField (s : State) (part core : Nat) : Nat := field (s.part part).pindex 0 6 * 2 ^ 10 + clusterOf core % 64

/-- The dies that hold clusters of a partition. -/
def State.partDies (s : State) (p : Nat) : List Nat := (List.range 4).filter (fun d => (s.part p).clusters.any (fun c => decide (c / 16 = d)))

/-- Placement goes on for the running VF (R132 to R134). -/
def State.wakePlacement (s : State) (p : Nat) : State :=
  (s.partDies p).foldl (fun s d => s.schedule (.blockPlacement d p)) (s.schedule (.deltaBatchHandout p))

/-- Halt every resident group of a grid and drop its batches (R74); saved groups are halted when they
come back (R156). -/
def State.haltGrid (s : State) (grid : Nat) : State :=
  let part := match FMap.find s.grids grid with
    | some g => (s.vf g.vf).part
    | none => 0
  let s := s.modGrid grid (fun g => { g with nextBlock := g.hdr.total })
  let keep := fun (b : Batch) => decide (b.grid ≠ grid)
  let s := { s with place := { s.place with delta := s.place.delta.filter keep, dieQueues := FMap.mapVals (fun _ (l : List Batch) => l.filter keep) s.place.dieQueues } }
  let gids := (s.blocks.filter (fun q => decide (q.2.grid = grid) && !q.2.saved)).map (fun q => q.2.gids)
  let s := gids.flatten.foldl (fun s k => s.haltGroup k) s
  (s.schedule (.gridCompletion grid)).wakePlacement part

/-- CONTEXT_ERROR_REPORT (R73, R74): the first error of a grid is kept, its queue stops with err 6, and
its remaining groups are halted. -/
def execContextErrorReport (grid status detail core slot pc : Nat) (s : State) : Host.Outcome State Fault Refusal :=
  match FMap.find s.grids grid with
  | none => .next s
  | some g =>
    if g.err.isSome ∨ 2 ≤ g.stage then .next s
    else
      let part := (s.vf g.vf).part
      let located := decide (status = 1 ∨ status = 2)
      let e : GridErr := ⟨status, if status = 1 then detail else 0, if located then s.clusterField part core else 0, if located then core % 9 else 0, slot, pc⟩
      let stops := g.fromRing && !(s.vf g.vf).stopped && decide (status ≠ 3)
      let s := s.modGrid grid (fun g => { g with err := some e, stopsQueue := stops })
      let s := if stops then s.stopQueue g.vf 6 0 false else s
      .next (s.haltGrid grid)

/-- The 32 bytes of a completion record (R73). -/
def completionBytes (r : LaunchRec) (status detail tstart tend cluster core slot pc : Nat) : List Byte :=
  bytesLE 4 r.tag ++ bytesLE 2 status ++ bytesLE 2 detail ++ bytesLE 8 tstart ++ bytesLE 8 tend ++ bytesLE 2 cluster ++ bytesLE 1 core ++ bytesLE 1 slot ++ bytesLE 4 pc

/-- The grid's completion record. -/
def Grid.completion (g : Grid) : List Byte :=
  let e := g.err.getD ⟨0, 0, 0, 0, 0, 0⟩
  completionBytes g.lrec e.status e.detail (g.tstart.getD 0) g.tend e.cluster e.core e.slot e.pc

/-- The grid has ended: where no group of it ran, now (R73). -/
def Grid.close (g : Grid) (tick : Nat) : Grid := { g with stage := 1, tend := if g.tstart.isSome then g.tend else tick }

/-- Every group of the grid has ended (R72). -/
def State.gridDone (s : State) (k : Nat) (g : Grid) : Bool :=
  s.blocks.all (fun q => decide (q.2.grid ≠ k)) && (g.err.isSome || decide (g.ended = g.hdr.total))

/-- Step 2 of R72. -/
def State.writeCompletion (s : State) (w : XWho) (g : Grid) : Except XStop Unit × State :=
  if g.lrec.crec = 0 then (.ok (), s) else unitWrite w g.lrec.crec g.completion s

/-- The other package, if any, that a unit's write to an address reaches. -/
def unitPackage (w : XWho) (va : Nat) (s : State) : List Nat :=
  match (resolve w va 2 s).1 with
  | .ok (.remote pa, _) => [pkgOf pa]
  | _ => []

/-- Step 3 of R72. -/
def State.signalCompletion (s : State) (w : XWho) (g : Grid) : Except SignalStop Unit × State :=
  if bitAt g.lrec.flags 1 && g.err.isNone then unitSignal w g.lrec.sobj g.lrec.sinc s else (.ok (), s)

/-- Steps 1 and 2 of R72 for writes to other packages: a flush marker to each that the grid's groups had written, or that holds
its record (R246, R259). One that no path reaches counts as performed after R31's time (R260). -/
def State.flushGrid (s : State) (grid : Nat) (g : Grid) : State :=
  let q := s.sendMarkers g.vf (gridSender grid) g.written
  q.2.modGrid grid (fun x => { x with written := [], flush := x.flush ++ q.1 })

/-- Step 4 of R72, and the end of the grid. A failed grid signals vector 0 (R74), a device-launched one too: only
the stop of the queue is left out of it (R75). A VF that is being reset signals nothing (R119). -/
def State.endGrid (s : State) (grid : Nat) (g : Grid) (failed : Bool) : State :=
  let reset := decide ((g.err.map (fun e => e.status)) = some 3) || (s.vf g.vf).resetting
  let s := if bitAt g.lrec.flags 2 && !reset then s.signalMsix g.vf g.lrec.vector else s
  let s := if failed && !reset then s.signalMsix g.vf 0 else s
  let s := if !reset && (g.stopsQueue || (!g.fromRing && g.err.isSome)) then s.signalMsix g.vf 0 else s
  let s := ({ s with grids := FMap.erase s.grids grid }).schedule (.switchIn (s.vf g.vf).part)
  if (s.vf g.vf).resetting then s.schedule (.vfResetComplete g.vf) else s

/-- GRID_COMPLETION (R72): the record, then the signal, then the vectors, each once, and each after the writes before it have
been performed. -/
def execGridCompletion (grid : Nat) (s : State) : Host.Outcome State Fault Refusal :=
  match FMap.find s.grids grid with
  | none => .next s
  | some g =>
    let w := s.whoVf g.vf
    if g.stage = 0 then .next (if s.gridDone grid g then (s.modGrid grid (fun x => x.close s.tick)).schedule (.gridCompletion grid) else s)
    else if !g.written.isEmpty then .next (s.flushGrid grid g)
    else if !g.flush.isEmpty then .next s
    else if g.stage = 1 then
      let far := if g.lrec.crec = 0 then [] else unitPackage w g.lrec.crec s
      match s.writeCompletion w g with
      | (.error (.assist x), s) => .next (s.unitAssist w x (.gridCompletion grid))
      | (.error _, s) => .next ((s.modGrid grid (fun x => { x with stage := 2, stepFailed := true })).schedule (.gridCompletion grid))
      | (.ok _, s) => .next ((s.modGrid grid (fun x => { x with stage := 2, written := far })).schedule (.gridCompletion grid))
    else if (s.vf g.vf).resetting then .next (s.endGrid grid g false)
    else match s.signalCompletion w g with
      | (.error (.stop (.assist x)), s) => .next (s.unitAssist w x (.gridCompletion grid))
      | (.error _, s) => .next (s.endGrid grid g true)
      | (.ok _, s) => .next (s.endGrid grid g g.stepFailed)

/-! The device launch queue (R75). -/

/-- The completion record of a device-launched record whose wait read failed, at a tick (R75). -/
def State.failDlqRecord (s : State) (vf : Nat) (r : PendingRec) (code tick : Nat) : Except XStop Unit × State :=
  if r.lrec.type ≠ 0 ∧ r.lrec.crec ≠ 0 then unitWrite (s.whoVf vf) r.lrec.crec (completionBytes r.lrec 1 code 0 tick 0 0 0 0) s
  else (.ok (), s)

/-- Its vectors (R75). -/
def State.failDlq (s : State) (vf : Nat) (r : PendingRec) : State :=
  let s := if r.lrec.type ≠ 0 ∧ bitAt r.lrec.flags 2 then s.signalMsix vf r.lrec.vector else s
  s.signalMsix vf 0

/-- Take the head off the device launch queue; the VF may have lost its work (R148). -/
def State.popDlq (s : State) (vf : Nat) : State :=
  ((s.modVf vf (fun v => { v with dlq := v.dlq.drop 1 })).schedule (.dlqRecordStart vf)).schedule (.switchIn (s.vf vf).part)

/-- The head of the device launch queue whose wait read has failed: its record is written, once, and the queue goes on (R75). -/
def State.dropDlqHead (s : State) (vf : Nat) (r : PendingRec) (code tick : Nat) : State :=
  match s.failDlqRecord vf r code tick with
  | (.error (.assist x), s) =>
    (s.modVf vf (fun v => { v with dlq := { r with failed := some (code, tick), line := none } :: v.dlq.drop 1 })).unitAssist (s.whoVf vf) x (.dlqRecordStart vf)
  | (_, s) => (s.failDlq vf r).popDlq vf

/-- Step 5 for a record of the device launch queue; a NOP only frees its entry. -/
def State.startDlq (s : State) (vf : Nat) (r : PendingRec) : State :=
  match r.hdr with
  | some h => (s.startGrid vf false r.lrec h).popDlq vf
  | none => s.popDlq vf

/-- DLQ_RECORD_START (R75): steps 3 and 5 on the copies that LNCH kept. -/
def execDlqRecordStart (vf : Nat) (s : State) : Host.Outcome State Fault Refusal :=
  match (s.vf vf).dlq with
  | [] => .next s
  | r :: rest =>
    if !bitAt r.lrec.flags 0 then .next (s.startDlq vf r)
    else match r.failed with
    | some (code, tick) => .next (s.dropDlqHead vf r code tick)
    | none =>
      match readWobj (s.whoVf vf) r.lrec.wobj s with
      | (.failed k, s) => .next (s.dropDlqHead vf r k s.tick)
      | (.assist x, s) => .next (s.unitAssist (s.whoVf vf) x (.dlqRecordStart vf))
      | (.value x line, s) =>
        if r.lrec.wval ≤ x then .next (s.startDlq vf r)
        else .next (s.modVf vf (fun v => { v with dlq := r.waitOn line s.tick :: rest }))

/-- What LNCH reads and checks (R75, R428): the status word, and the copies where it is 0. -/
def lnchRead (gid va : Nat) (s : State) : Except AssistNeed (Nat × Option PendingRec) × State :=
  match coreRead gid va 64 s with
  | (.error (.assist x), s) => (.error x, s)
  | (.error (.fault _), s) => (.ok (3, none), s)
  | (.ok (_, true), s) => (.ok (3, none), s)
  | (.ok (b, false), s) =>
    match recFail b with
    | some o => (.ok (o * 2 ^ 16 + 1, none), s)
    | none =>
      let r := launchRec b
      if r.type = 0 then (.ok (0, some ⟨r, none, none, 0, false, none⟩), s)
      else match coreRead gid r.header 128 s with
        | (.error (.assist x), s) => (.error x, s)
        | (.error (.fault _), s) => (.ok (3, none), s)
        | (.ok (_, true), s) => (.ok (3, none), s)
        | (.ok (h, false), s) =>
          match hdrFail h with
          | some o => (.ok (o * 2 ^ 16 + 2, none), s)
          | none => (.ok (0, some ⟨r, some (launchHdr h), none, 0, false, none⟩), s)

/-- The requests of those reads (R106). -/
def lnchRequests (gid va : Nat) (s : State) : List Nat :=
  match coreRead gid va 64 s with
  | (.ok (b, false), s) =>
    coreRequests gid ((va, 64) :: (if (recFail b).isSome ∨ (launchRec b).type = 0 then [] else [((launchRec b).header, 128)])) s
  | _ => []

/-- LNCH once the queue has room and the group's writes are released (R428). -/
def lnchRun (d a : BitVec 8) (s : State) (c : Ctx) : Done :=
  let va := (c.regs.read64 c.xi c.lane a).toNat
  let vf := s.vfOf c.gid
  chargeSectors c (lnchRequests c.gid va s) (fun s =>
    match lnchRead c.gid va s with
    | (.error x, s) => assistWait c x s
    | (.ok (st, some r), s) =>
      let first := (s.vf vf).dlq.isEmpty
      let s := s.modVf vf (fun v => { v with dlq := v.dlq ++ [r] })
      Done.seq (if first then s.schedule (.dlqRecordStart vf) else s) (c.put32 d (BitVec.ofNat 32 st))
    | (.ok (st, none), s) => Done.seq s (c.put32 d (BitVec.ofNat 32 st))) s

/-- LNCH of the lanes outside transactions (R428). -/
def lnchBody (d a : BitVec 8) (s : State) (c : Ctx) : Done :=
  let va := (c.regs.read64 c.xi c.lane a).toNat
  if va % 64 ≠ 0 then .fault s c (.at fMisaligned c.split.mask va)
  else if 256 ≤ (s.vf (s.vfOf c.gid)).dlq.length then .stay s c .launchRoom
  else withRelease (lnchRun d a) s c

/-- LNCH (R428). -/
def execLnch (d a : BitVec 8) : State → Host.Outcome State Fault Refusal :=
  issue (.lnch d a) false (fun s c =>
    if !(dst32Ok c.allot d && src64Ok c.allot false a) then Done.early s c fIllegalReg
    else if c.accWait (touchesAcc 1 d || touchesAcc 2 a) then .stay s c .gridOps
    else txIllegal 0x65 c.split.mask (closing 4 (lnchBody d a)) s c)

/-! Host-service calls (R76, R77, R429). -/

/-- The lowest free slot. -/
def Vf.freeCall (v : Vf) : Option Nat := (List.range 256).find? (fun k => (FMap.find v.calls k).isNone)

/-- The 64 bytes of a request (R76). -/
def callBytes (service caller : Nat) (args : List Nat) : List Byte :=
  bytesLE 2 service ++ bytesLE 2 0 ++ bytesLE 4 caller ++ (args.map (bytesLE 8)).flatten ++ bytesLE 16 0

/-- The caller field (R76). -/
def State.callerField (s : State) (gid : Nat) : Nat :=
  slotOf gid + coreOf gid % 9 * 2 ^ 6 + clusterOf (coreOf gid) % 64 * 2 ^ 10 + field (s.part (s.partOf gid)).pindex 0 6 * 2 ^ 16

/-- The end of a call with results (R429): status to D, results to the block, in every thread. -/
def callResults (d a : BitVec 8) (b : List Byte) (c : Ctx) : Ctx :=
  let words := (List.range 10).map (fun i => BitVec.ofNat 32 (leField b (8 + 4 * i) 4))
  let c := { c with regs := (threadsOf c.split.mask).foldl (fun r t => r.writeRunList t a 2 words) c.regs }
  c.put32 d (BitVec.ofNat 32 (leField b 2 2))

/-- The device reads the status and results of a returned call, frees the slot and resumes (R77 step 4). -/
def callFinish (vf slot : Nat) (d a : BitVec 8) (s : State) (c : Ctx) : Done :=
  match unitReadWords (s.whoOf c.gid) ((s.vf vf).hsbase + 64 * slot) 8 s with
  | (.error (.assist x), s) => .stay (s.unitAssist (s.whoOf c.gid) x (.hcallResume vf slot)) c (.call slot)
  | (.error (.fault _), s) => Done.seq ((s.modVf vf (fun v => { v with calls := FMap.erase v.calls slot })).acquire (coreOf c.gid) 8) (c.put32 d 0xFFFE#32)
  | (.ok (b, bad), s) =>
    let s := s.modVf vf (fun v => { v with calls := FMap.erase v.calls slot })
    let st := leField b 2 2
    let s := s.acquire (coreOf c.gid) 8
    if bad then Done.seq s (c.put32 d 0xFFFE#32)
    else if 0xFFFE ≤ st then Done.seq s (c.put32 d (BitVec.ofNat 32 st))
    else Done.seq s (callResults d a b c)

/-- The slot that an HCALL has taken and written, but not yet posted: its writes have not been performed everywhere (R77). -/
def Vf.takenCall (v : Vf) (gid entry : Nat) : Option Nat :=
  (v.calls.find? (fun q => decide (q.2.gid = gid ∧ q.2.entry = entry) && !q.2.pending && !q.2.returned)).map (fun q => q.1)

/-- The slot is posted: its pending bit is set, and vector 1 is signalled (R77). -/
def postCall (slot : Nat) (s : State) (c : Ctx) : Done :=
  let vf := s.vfOf c.gid
  let s := s.modVf vf (fun v => match FMap.find v.calls slot with
    | some x => { v with calls := FMap.insert v.calls slot { x with pending := true } }
    | none => v)
  .stay (s.signalMsix vf 1) c (.call slot)

/-- HCALL once the group's writes are released (R77, R429). -/
def hcallRun (d a : BitVec 8) (s : State) (c : Ctx) : Done :=
  let vf := s.vfOf c.gid
  let v := s.vf vf
  match c.split.wait with
  | .call slot =>
    match FMap.find v.calls slot with
    | some x => if x.returned then callFinish vf slot d a s c else .stay s c (.call slot)
    | none => Done.seq s (c.put32 d 0xFFFF#32)
  | _ =>
    match v.takenCall c.gid c.entry with
    | some slot => postCall slot s c
    | none =>
    if v.hsbase = 0 then Done.seq s (c.put32 d 0xFFFE#32)
    else match v.freeCall with
      | none => .stay s c .callSlot
      | some slot =>
        let w := fun (k : Nat) => (c.regs.readRun c.lane a k).toNat
        let b := callBytes (field (w 0) 0 16) (s.callerField c.gid) ((List.range 5).map (fun i => w (2 + 2 * i) + 2 ^ 32 * w (3 + 2 * i)))
        let far := unitPackage (s.whoOf c.gid) (v.hsbase + 64 * slot) s
        match unitWrite (s.whoOf c.gid) (v.hsbase + 64 * slot) b s with
        | (.error (.assist x), s) => assistWait c x s
        | (.error (.fault _), s) => Done.seq s (c.put32 d 0xFFFE#32)
        | (.ok _, s) =>
          let s := s.modVf vf (fun v => { v with calls := FMap.insert v.calls slot ⟨c.gid, c.entry, false, false, a.toNat, d.toNat⟩ })
          withRelease (postCall slot) (far.foldl (fun (s : State) pkg => s.modGroup c.gid (fun g => g.noteRemoteWrite pkg)) s) c

/-- HCALL (R429). -/
def execHcall (d a : BitVec 8) : State → Host.Outcome State Fault Refusal :=
  issue (.hcall d a) false (fun s c =>
    if !(dst32Ok c.allot d && block12Ok c.allot a) then Done.early s c fIllegalReg
    else if c.accWait (touchesAcc 1 d || touchesAcc 12 a) then .stay s c .gridOps
    else txIllegal 0x66 c.split.mask (closing 4 (withRelease (hcallRun d a))) s c)

/-- HSDONE_WRITE (R77): a slot whose pending bit is clear, or a value above 255, is ignored. -/
def execHsdoneWrite (vf slot : Nat) (s : State) : Host.Outcome State Fault Refusal :=
  match FMap.find (s.vf vf).calls slot with
  | none => .next s
  | some x =>
    if slot < 256 ∧ x.pending then
      .next ((s.modVf vf (fun v => { v with calls := FMap.insert v.calls slot { x with pending := false, returned := true } })).schedule (.hcallResume vf slot))
    else .next s

/-- A group of the VF, resident or saved, waits for the answer in a slot. -/
def State.callWaits (s : State) (vf slot gid : Nat) : Bool :=
  let waits := fun (g : Group) => g.splits.any (fun sp => decide (sp.wait = .call slot))
  ((FMap.find s.groups gid).map (fun g => decide (s.vfOf gid = vf) && waits g)).getD false ||
    ((FMap.find s.savedArea (savedKey vf gid)).map waits).getD false

/-- HCALL_RESUME (R77 step 4): a group that is not running, or is switched out, takes the answer when it runs again. Where the
caller has been halted, the slot is freed. -/
def execHcallResume (vf slot : Nat) (s : State) : Host.Outcome State Fault Refusal :=
  match FMap.find (s.vf vf).calls slot with
  | none => .next s
  | some x =>
    if x.returned ∧ s.callWaits vf slot x.gid = false then .next (s.modVf vf (fun v => { v with calls := FMap.erase v.calls slot }))
    else match FMap.find s.groups x.gid, s.ctxOf (some (.split x.gid x.entry)) with
    | some g, some c =>
      if x.returned ∧ s.vfOf x.gid = vf ∧ g.status = .running ∧ c.split.wait = .call slot then
        finish c 0#32 (callFinish vf slot (BitVec.ofNat 8 x.dst) (BitVec.ofNat 8 x.reg) s c)
      else .next s
    | _, _ => .next s

end Sys2Proof.Machine
end

