-- ==== Sys2Proof/Machine/Tx.lean ====
section
/-! DEFINITION. Transactions: TXO, TXC, TXD, TXS (R219 to R227, R430), the Sluice's turn (R218, R224),
the fallback lock (R226), and host transactions with their accesses at home (R229 to R235). -/

namespace Sys2Proof.Machine

/-! Device transactions. -/

/-- A lane that has no depth and does not run irrevocably: its TXO is outermost (R226). -/
def TxLane.outer (x : TxLane) : Bool := decide (x.depth = 0) && !x.irrev

/-- A lane opens its transaction (R219): `res` numbers the TXO whose split entry is reserved. -/
def TxLane.openAt (x : TxLane) (pc : BitVec 64) (res : Nat) : TxLane :=
  { x with depth := 1, irrev := false, txoPc := pc, home := none, rlines := [], rlog := [], wbuf := [], torn := false, res := res }

/-- A number that no reservation of the group has. -/
def Group.newRes (g : Group) : Nat := g.tx.foldl (fun n q => max n q.2.res) 0 + 1

/-- TXO in a lane that is open or irrevocable already (R219, R227). -/
def TxLane.deeper (x : TxLane) : TxLane :=
  if x.depth < 8 then { x with depth := x.depth + 1 }
  else if x.irrev then { x with code := xNest, detail := 1 }
  else x

/-- Lanes for which the next TXO would be the ninth (R219). -/
def Group.nestLanes (g : Group) (m : BitVec 64) : BitVec 64 :=
  maskOf ((threadsOf m).filter (fun t => decide (8 ≤ (g.lane t).depth) && !(g.lane t).irrev))

/-- Change the lanes of a mask. -/
def Group.mapLanes (g : Group) (m : BitVec 64) (f : TxLane → TxLane) : Group := (threadsOf m).foldl (fun g t => g.setLane t (f (g.lane t))) g

/-- The end of a TXO for a split: lanes that stay at TXO form a split of their own (R226), the others go
on, and those at depth 9 abort. -/
def txoEnd (stay nest : BitVec 64) (s : State) (c : Ctx) : Done :=
  let m := c.split.mask
  let rest : Split := { c.split with mask := stay, wait := .txLock, retry := none, poisonAct := false, issued := none }
  let s := s.modGroup c.gid (fun g => g.noteIssue c.entry false)
  let s := s.putCtx ({ c with split := { c.split with mask := m &&& ~~~stay } }.advance (c.split.pc + 4#64))
  let s := if stay = 0#64 then s else s.modGroup c.gid (fun g => g.placeSplit c.entry rest)
  .next (s.abortLanes c.gid (abortsOf nest xNest 0))

/-- A lane asks for its partition's fallback lock (R226), once. -/
def State.askLock (s : State) (p gid t : Nat) : State :=
  if (s.part p).lockQueue.contains (gid, t) then s
  else (s.modPart p (fun x => { x with lockQueue := x.lockQueue ++ [(gid, t)] })).schedule (.fallbackLockGrant p)

/-- TXO with `out0` its outermost lanes: the lock's path, or opening (R219, R226). A lane that has asked for the lock waits
for its grant, whatever TXLIM has become, and the lane that it is granted to runs. A lane that runs under the lock never
waits for it (R227): the outermost lanes that share its split wait in a split of their own. -/
def txoBody (s : State) (c : Ctx) : Done :=
  match FMap.find s.groups c.gid with
  | none => .next s
  | some g =>
    let m := c.split.mask
    let p := s.partOf c.gid
    let held := (s.part p).lockHolder
    let lanes := fun (f : TxLane → Bool) => maskOf ((threadsOf m).filter (fun t => f (g.lane t)))
    let out0 := lanes TxLane.outer
    let asked := maskOf (((s.part p).lockQueue.filter (fun q => decide (q.1 = c.gid))).map (fun q => q.2)) &&& out0
    let want := lanes (fun x => x.outer && decide (g.txlim % 256 ≤ x.retries)) ||| asked
    let nest := g.nestLanes m
    let deep := m &&& ~~~out0
    let t := match held with
      | some (k, t) => if k = c.gid ∧ out0.getLsbD t then t else lowest (if asked = 0#64 then want else asked)
      | none => lowest (if asked = 0#64 then want else asked)
    let nested := fun (s : State) => s.modGroup c.gid (fun g => g.mapLanes deep TxLane.deeper)
    let full := decide (g.splitRoom = 0)
    if out0.getLsbD t ∧ held = some (c.gid, t) then
      let stay := out0 &&& ~~~bitOf t
      if stay ≠ 0#64 ∧ full then .fault s c (.plain fSplitOverflow m)
      else
        let s := (nested s).modGroup c.gid (fun g => g.mapLanes (bitOf t) (fun x => { x.openAt c.split.pc 0 with irrev := true }))
        txoEnd stay nest (s.dropL1 (coreOf c.gid)) c
    else if held.isSome ∧ deep ≠ 0#64 ∧ out0 ≠ 0#64 then
      if full then .fault s c (.plain fSplitOverflow m)
      else txoEnd out0 nest (nested (if want = 0#64 then s else s.askLock p c.gid t)) c
    else if want ≠ 0#64 then .stay (s.askLock p c.gid t) c .txLock
    else if out0 = 0#64 then txoEnd 0#64 nest (nested s) c
    else if held.isSome then .stay s c .txLock
    else if full then .fault s c (.plain fSplitOverflow m)
    else txoEnd 0#64 nest ((nested s).modGroup c.gid (fun x => x.mapLanes out0 (fun y => y.openAt c.split.pc g.newRes))) c

/-- TXO (R219, R226, R430). -/
def execTxo : State → Host.Outcome State Fault Refusal := issue .txo false (closing 3 txoBody)

/-- Lanes of a mask that run under the lock at their last TXC (R227). -/
def Group.lockEnds (g : Group) (m : BitVec 64) : BitVec 64 := maskOf ((threadsOf m).filter (fun t => (g.lane t).irrev && decide ((g.lane t).depth ≤ 1)))

/-- TXC in the lanes that hold no ticket: the depth falls, and the lock's holder ends at 0 (R227, R430). -/
def State.txcOthers (s : State) (gid : Nat) (m : BitVec 64) : State :=
  match FMap.find s.groups gid with
  | none => s
  | some g =>
    let ends := g.lockEnds m
    let s := s.modGroup gid (fun g => g.mapLanes (m &&& ~~~ends) (fun x => { x with depth := x.depth - 1 }))
    s.releaseLockOf gid ends

/-- The lanes of a mask at their outermost TXC. -/
def Group.commitLanes (g : Group) (m : BitVec 64) : BitVec 64 := maskOf ((threadsOf m).filter (fun t => decide ((g.lane t).depth = 1) && !(g.lane t).irrev))

/-- The lanes that fail a turn, as one number: those of a conflict, and those that met poison (R224). -/
def turnCode (l : List LaneAbort) : Nat :=
  let of := fun (code : Nat) => (maskOf ((l.filter (fun a => decide (a.code = code))).map (fun a => a.thread))).toNat
  of xConflict + 2 ^ 64 * of xFault

/-- The aborts that such a number stands for. -/
def turnAborts (v : Nat) : List LaneAbort := abortsOf (BitVec.ofNat 64 (v % 2 ^ 64)) xConflict 0 ++ abortsOf (BitVec.ofNat 64 (v / 2 ^ 64)) xFault fUncorrectable

/-- The end of a turn for its split (R225): the lanes that failed leave for their TXO, and the others go on. -/
def State.endTurn (s : State) (gid e v : Nat) : State :=
  match s.ctxOf (some (.split gid e)) with
  | none => s
  | some c =>
    let l := turnAborts v
    ((s.txcOthers gid (c.split.mask &&& ~~~abortMask l)).completeEntry gid e (fun c => c)).abortLanes gid l

/-- TXC: outermost lanes request a ticket, and the split waits for its turn (R218, R224). A commit and the release of
the lock are releases of the lanes' earlier writes (R246, R259, R267). -/
def txcBody (s : State) (c : Ctx) : Done :=
  match FMap.find s.groups c.gid with
  | none => .next s
  | some g =>
    let s := s.closeRegionOf c.gid 3
    let m := c.split.mask
    let lanes := g.commitLanes m
    match c.split.wait with
    | .answered v => .next (s.endTurn c.gid c.entry v)
    | _ =>
      if lanes ≠ 0#64 then withRelease (fun s c =>
        .stay (({ s with tickets := s.tickets ++ [Ticket.group c.gid c.entry lanes] }).schedule .sluiceTurn) c .ticket) s c
      else if g.lockEnds m ≠ 0#64 then withRelease (fun s c => Done.seq (s.txcOthers c.gid m) c) s c
      else Done.seq (s.txcOthers c.gid m) c

/-- TXC (R430). -/
def execTxc : State → Host.Outcome State Fault Refusal := issue .txc false txcBody

/-- TXD once what the lock's holder wrote is released (R430). -/
def txdDrop (b : BitVec 8) (s : State) (c : Ctx) : Done :=
  match FMap.find s.groups c.gid with
  | none => .next s
  | some g =>
    let m := c.split.mask
    let drops := (threadsOf (g.openLanes m)).map (fun t => (⟨t, xDrop, (c.regs.read32 c.xi t b).toNat % 256⟩ : LaneAbort))
    let s := s.modGroup c.gid (fun g => g.noteIssue c.entry false)
    let s := s.putCtx (c.advance (c.split.pc + 4#64))
    let s := s.releaseLockOf c.gid (maskOf ((threadsOf m).filter (fun t => (g.lane t).irrev)))
    .next (s.abortLanes c.gid drops)

/-- TXD (R430): open lanes abort with their own code, and a lane that holds the lock ends under R227, with a release
(R267). -/
def txdBody (b : BitVec 8) (s : State) (c : Ctx) : Done :=
  match FMap.find s.groups c.gid with
  | none => .next s
  | some g =>
    let s := s.closeRegionOf c.gid 3
    if (threadsOf c.split.mask).any (fun t => (g.lane t).irrev) then withRelease (txdDrop b) s c else txdDrop b s c

/-- TXD (R430). -/
def execTxd (b : BitVec 8) : State → Host.Outcome State Fault Refusal :=
  issue (.txd b) false (fun s c =>
    if !src32Ok c.allot true b then Done.early s c fIllegalReg
    else if c.accWait (touchesAcc 1 b) then .stay s c .gridOps
    else txdBody b s c)

/-- TXS (R430): each thread's status word. -/
def execTxs (d : BitVec 8) : State → Host.Outcome State Fault Refusal :=
  issue (.txs d) false (fun s c =>
    if !dst32Ok c.allot d then Done.early s c fIllegalReg
    else if c.accWait (touchesAcc 1 d) then .stay s c .gridOps
    else match FMap.find s.groups c.gid with
      | none => .next s
      | some g => Done.seq (s.closeRegionOf c.gid 3) { c with regs := (threadsOf c.split.mask).foldl (fun r t => r.write32 t d (g.lane t).word) c.regs })

/-! The turn. -/

/-- The offset of a physical byte of this package. -/
def State.ownByte (s : State) (pa : Nat) : Option Nat := if pkgOf pa = s.boot.pkg then some (offOf pa) else none

/-- The validation of a lane whose home is another package (R201, R224): what its bytes have become there, and whether they are
poisoned, are free values (log 17), but that lower lanes of the turn have written some of them. -/
def State.validateFar (s : State) (t : Nat) (x : TxLane) (below : FMap Byte) : Option LaneAbort × State :=
  if x.rlog.isEmpty then (if x.torn then some ⟨t, xConflict, 0⟩ else none, s)
  else
    let q := s.freeWord
    let known := fun (b : Nat × Byte) => FMap.find below b.1
    (if q.1.getLsbD 1 then some ⟨t, xFault, fUncorrectable⟩
      else if x.torn || x.rlog.any (fun b => ((known b).map (fun v => decide (v ≠ b.2))).getD (q.1.getLsbD 0)) then some ⟨t, xConflict, 0⟩
      else none, q.2)

/-- How a lane's validation ends (R224): its abort, or none. `below` holds what lower lanes of the turn have written in other
packages. -/
def State.validate (s : State) (t : Nat) (x : TxLane) (below : FMap Byte) : Option LaneAbort × State :=
  if (x.home.getD s.boot.pkg) ≠ s.boot.pkg then s.validateFar t x below
  else if x.rlog.any (fun b => s.poisoned (offOf b.1) 1) then (some ⟨t, xFault, fUncorrectable⟩, s)
  else if x.torn || x.rlog.any (fun b => decide (s.byteAt (offOf b.1) ≠ b.2)) then (some ⟨t, xConflict, 0⟩, s)
  else (none, s)

/-- The passing lane's writes are performed (R224). -/
def State.performWrites (s : State) (gid : Nat) (x : TxLane) : State :=
  x.wbuf.foldl (fun s b =>
    match s.ownByte b.1 with
    | some off => (s.writeHome (some gid) (s.partOf gid) off [b.2]).updateL1 (coreOf gid) off [b.2]
    | none => (s.postWrite gid b.1 [b.2] false).updatePeer (coreOf gid) b.1 [b.2]) s

/-- A lane after a commit (R225, R236). -/
def TxLane.committed (x : TxLane) : TxLane :=
  { x with depth := 0, retries := 0, code := 0, detail := 0, home := none, rlines := [], rlog := [], wbuf := [], torn := false, res := 0 }

/-- Validate and commit the lanes of a turn in ascending thread index (R224): the failing lanes. -/
def turnLanes (gid : Nat) : List Nat → FMap Byte → State → List LaneAbort × State
  | [], _, s => ([], s)
  | t :: ts, below, s =>
    let x := s.laneOf gid t
    match s.validate t x below with
    | (some a, s) =>
      let r := turnLanes gid ts below s
      (a :: r.1, r.2)
    | (none, s) =>
      let s := (s.performWrites gid x).clearPoison (x.wbuf.filterMap (fun b => (s.ownByte b.1).map (fun o => (o, 1))))
      turnLanes gid ts (x.wbuf.foldl (fun m b => FMap.insert m b.1 b.2) below) (s.modLane gid t TxLane.committed)

/-- A turn meets host transactions with its write set (R234). -/
def State.turnHosts (s : State) (gid : Nat) (lanes : BitVec 64) : State :=
  let lines := ((threadsOf lanes).map (fun t => (s.laneOf gid t).wbuf.filterMap (fun b => (s.ownByte b.1).map (fun o => o / 64)))).flatten.eraseDups
  lines.foldl (fun s l => s.checkHost (l * 64)) s

/-- The turn of a group's split (R224, R225). A commit acquires: the core drops its L1 (R266). The lanes of a frozen group that
fail abort now; its split keeps its place, and goes on when the group runs again (R183). -/
def State.groupTurn (s : State) (gid e : Nat) (lanes : BitVec 64) : State :=
  match FMap.find s.groups gid, s.ctxOf (some (.split gid e)) with
  | some g, some c =>
    if c.split.wait ≠ .ticket then s
    else
      let r := turnLanes gid (threadsOf lanes) [] (s.turnHosts gid lanes)
      let s := if r.1.length < (threadsOf lanes).length then r.2.dropL1 (coreOf gid) else r.2
      if g.status = .running then s.endTurn gid e (turnCode r.1)
      else (s.modGroup gid (fun g => { g with table := FMap.insert g.table e { c.split with wait := .answered 0 } })).abortLanes gid r.1
  | _, _ => s

/-- The copies of a line after a host access to granule k (R215, R216). -/
def DirEntry.hostAccess (d : DirEntry) (k : Nat) (write : Bool) : DirEntry :=
  if write then ⟨FMap.insert d.host k .m, []⟩
  else match FMap.find d.host k with
    | some _ => d
    | none => ⟨FMap.insert d.host k (if d.peers.isEmpty then .e else .s), FMap.mapVals (fun _ x => x.afterRead) d.peers⟩

/-- The host chiplet's copy after its access (R216). -/
def State.hostCopy (s : State) (off : Nat) (write : Bool) : State :=
  let d := FMap.getD s.ms.dir DirEntry.empty (off / 256)
  let s := if write then s.tellPeers (off / 256) d else s
  { s with ms := { s.ms with dir := FMap.setD s.ms.dir DirEntry.empty (off / 256) (d.hostAccess (off / 64 % 4) write) } }

/-- The turn of a hart (R230): its granules are committed at one point. -/
def State.hartTurn (s : State) (h : Nat) : State :=
  let x := s.hart h
  if x.depth = 0 ∨ x.ticket = false then s
  else
    let s := s.setHart h { x with depth := 0, recX := [], recF := [], buf := [], rsig := [], wsig := [], slices := [], ticket := false, home := none, pc := x.pc + 4#64 }
    let s := x.buf.foldl (fun s b => (s.writeHome none (s.stripe b.1) b.1 [b.2]).hostCopy b.1 true) s
    s.clearPoison (x.buf.map (fun b => (b.1, 1)))

/-- SLUICE_TURN (R218): the lowest ticket's turn. -/
def execSluiceTurn (s : State) : Host.Outcome State Fault Refusal :=
  match s.tickets with
  | [] => .next s
  | .group gid e lanes :: r => .next ({ s with tickets := r }.groupTurn gid e lanes)
  | .hart h :: r => .next ({ s with tickets := r }.hartTurn h)

/-- Every open lane of a partition's groups aborts with FALLBACK, and every open host transaction
(R226 step 1). -/
def State.fallbackAborts (s : State) (p : Nat) : State :=
  let s := (FMap.keys s.groups).foldl (fun s gid =>
    match FMap.find s.groups gid with
    | none => s
    | some g => if s.partOf gid = p then s.abortLanes gid (abortsOf (g.openLanes (~~~0#64)) xFallback 0) else s) s
  s.openHarts.foldl (fun s h => s.abortHart h xFallback 0) s

/-- A lock whose holder is gone: markers go to the packages that the holder had written, and the lock is released once they are
answered (R227, R259, R267). -/
def State.endGhost (s : State) (part : Nat) : State :=
  let p := s.part part
  if !p.lockOwed.isEmpty then
    let q := s.sendMarkers p.lockVf (lockSender part) p.lockOwed
    q.2.modPart part (fun x => { x with lockOwed := [], lockFlush := x.lockFlush ++ q.1 })
  else if p.lockFlush.isEmpty then s.releaseLock part
  else s

/-- FALLBACK_LOCK_GRANT (R226): to the oldest request, when the lock is free; its TXO runs again. -/
def execFallbackLockGrant (part : Nat) (s : State) : Host.Outcome State Fault Refusal :=
  let p := s.part part
  match p.lockHolder, p.lockQueue with
  | some (k, _), _ => .next (if k = lockGhost then s.endGhost part else s)
  | none, (gid, t) :: r =>
    let s := (s.setPart part { p with lockHolder := some (gid, t), lockQueue := r }).fallbackAborts part
    .next (s.modGroup gid (fun g => { g with table := FMap.mapVals (fun _ sp => if sp.wait = .txLock ∧ sp.mask.getLsbD t then { sp with wait := .none } else sp) g.table }))
  | none, [] => .next s

/-! Host transactions. -/

/-- The hart that executes a host word. -/
def State.hartCtx (s : State) : Option Nat :=
  match s.turn.cur with
  | some (.hart h) => some h
  | _ => none

/-- Issue a host word. -/
def issueHart (f : Nat → State → State) (s : State) : Host.Outcome State Fault Refusal :=
  match s.hartCtx with
  | some h => .next (f h s)
  | none => .fault .noIssuer

/-- The hart goes on after the word. -/
def State.hartNext (s : State) (h : Nat) : State := s.modHart h (fun x => { x with pc := x.pc + 4#64 })

/-- An RV64 exception of a hart: an open transaction aborts with INTERRUPT 1 (R231); what the host core
does then is RV64's (log 12). -/
def State.hostException (s : State) (h : Nat) (m : OutMsg) : State := (s.abortHart h xInterrupt 1).send m

/-- TX_OPEN (R226, R230): it waits while a fallback lock of the package is held. -/
def execTxOpen (d : BitVec 5) : State → Host.Outcome State Fault Refusal :=
  issueHart (fun h s =>
    let x := s.hart h
    if x.depth = 0 then
      if s.parts.any (fun q => q.2.lockHolder.isSome) then s
      else
        let y := { x with depth := 1, recX := x.x, recF := x.f, rd := d.toNat, resume := x.pc + 4#64, openTick := s.tick, pc := x.pc + 4#64,
                          buf := [], rsig := [], wsig := [], slices := [], ticket := false, home := none }
        s.setHart h (y.setX d.toNat 0#64)
    else if x.depth < 8 then s.setHart h ({ x with depth := x.depth + 1, pc := x.pc + 4#64 }.setX d.toNat 0#64)
    else s.abortHart h xNest 0)

/-- TX_CLOSE (R230). -/
def execTxClose : State → Host.Outcome State Fault Refusal :=
  issueHart (fun h s =>
    let x := s.hart h
    if x.depth = 0 then s.hostException h (.hostIllegal h)
    else if x.depth = 1 then
      if x.ticket then s
      else ({ s.setHart h { x with ticket := true } with tickets := s.tickets ++ [Ticket.hart h] }).schedule .sluiceTurn
    else s.setHart h { x with depth := x.depth - 1, pc := x.pc + 4#64 })

/-- A hart's integer register (R230). -/
def Hart.getX (h : Hart) (n : Nat) : BitVec 64 := if n = 0 then 0#64 else FMap.getD h.x 0#64 n

/-- TX_DROP (R230). -/
def execTxDrop (r : BitVec 5) : State → Host.Outcome State Fault Refusal :=
  issueHart (fun h s =>
    let x := s.hart h
    if x.depth = 0 then s.hartNext h else s.abortHart h xDrop ((x.getX r.toNat).toNat % 256))

/-- HOST_TX_INTERRUPT (R231). -/
def execHostTxInterrupt (h : Nat) (exception : Bool) (s : State) : Host.Outcome State Fault Refusal :=
  .next (s.abortHart h xInterrupt (if exception then 1 else 0))

/-- HOST_TX_ILLEGAL (R231). -/
def execHostTxIllegal (h : Nat) (s : State) : Host.Outcome State Fault Refusal := .next (s.abortHart h xIllegal 0)

/-- PRIVATE_CACHE_EVICTION (R231): a transaction of at most 256 written granules never loses one. -/
def execPrivateCacheEviction (h granule : Nat) (s : State) : Host.Outcome State Fault Refusal :=
  let x := s.hart h
  if x.wsig.contains granule ∧ 256 < x.wsig.length then .next (s.abortHart h xCapacity 0) else .next s

/-! Requests at a home slice. -/

/-- Stripes that no host access enters (R93): guard, free, retired and scrubbing. -/
def closedStripe (v : Nat) : Bool := decide (v = 0xFE ∨ v = 0xFF ∨ v = 0xFC ∨ v = 0xFB)

/-- A hart takes a signature pair at a home slice (R232): false where all 16 are taken. -/
def State.takePair (s : State) (h sl : Nat) : Bool × State :=
  let x := s.hart h
  if x.slices.contains sl then (true, s)
  else if 16 ≤ (s.openHarts.filter (fun k => (s.hart k).slices.contains sl)).length then (false, s)
  else (true, s.setHart h { x with slices := sl :: x.slices })

/-- Another transaction's signature reports a hit for a granule (R232, R234): a read meets write
signatures, a write meets both. -/
def State.sigHit (s : State) (k g sl : Nat) (write : Bool) : Bool × State :=
  let x := s.hart k
  let q := { s with turn := { s.turn with freeCount := s.turn.freeCount + 1 } }
  (x.wsig.contains g || (write && x.rsig.contains g) || (x.slices.contains sl && Config.falseHit s.turn.freeCount), q)

/-- A transactional access of hart h meets the others' signatures (R234): the younger aborts. -/
def hostClash (h g sl : Nat) (write : Bool) : List Nat → State → Bool × State
  | [], s => (true, s)
  | k :: r, s =>
    let q := s.sigHit k g sl write
    if k = h ∨ q.1 = false then hostClash h g sl write r q.2
    else
      let a := (q.2.hart h).openTick
      let b := (q.2.hart k).openTick
      if b < a ∨ (b = a ∧ k < h) then (false, q.2.abortHart h xConflict 0)
      else hostClash h g sl write r (q.2.abortHart k xConflict 0)

/-- A transactional access of a hart at its home (R217, R231 to R234): it takes the coherence actions of R216 (R233), and a
read is answered with the hart's own bytes in place of the home's. -/
def State.hostTx (s : State) (h : Nat) (write : Bool) (off : Nat) (b : List Byte) : State :=
  let sl := sliceOf off
  match s.takePair h sl with
  | (false, s) => s.abortHart h xCapacity 1
  | (true, s) =>
    match hostClash h (off / 64) sl write s.openHarts s with
    | (false, s) => s
    | (true, s) =>
      if write then
        let put := (b.mapIdx (fun i v => (off + i, v)))
        let s := s.modHart h (fun x => { x with wsig := if x.wsig.contains (off / 64) then x.wsig else off / 64 :: x.wsig,
                                                buf := put.foldl (fun m q => FMap.insert m q.1 q.2) x.buf })
        s.hostCopy off true
      else if s.poisoned off b.length then s.hostException h (.hostFault h off)
      else
        let data := s.bytesAt off b.length
        let own := (s.hart h).buf
        let s := s.modHart h (fun x => { x with rsig := if x.rsig.contains (off / 64) then x.rsig else off / 64 :: x.rsig })
        (s.hostCopy off false).send (.hostData (some h) (data.mapIdx (fun i x => (FMap.find own (off + i)).getD x)))

/-- A transactional access of hart h goes to a package (R235): false where the transaction belongs to another one,
and it aborts. -/
def State.hostHome (s : State) (h pkg : Nat) : Bool × State :=
  match (s.hart h).home with
  | none => (true, s.modHart h (fun x => { x with home := some pkg }))
  | some k => if k = pkg then (true, s) else (false, s.abortHart h xRemote 0)

/-- An access fault of a request: a hart takes an RV64 access fault; another agent is answered with it. -/
def State.accessFault (s : State) (hart : Option Nat) (pa : Nat) : State :=
  match hart with
  | some h => s.hostException h (.hostFault h pa)
  | none => s.send (.accessFault pa)

end Sys2Proof.Machine
end

