-- ==== Sys2Proof/Machine/Weir.lean ====
section
/-! DEFINITION. Weirs: WSIG, WTRY, WWAIT and WQRY (R431, R432), the home's checks and order (R110 to
R114), refills (R112), and the weir commands (R109, R115, R116). -/

namespace Sys2Proof.Machine

/-! The instructions. -/

/-- Kinds of weir operations: 0 WSIG, 1 WTRY, 2 WWAIT, 3 WQRY. Post an operation to its home. -/
def weirPost (word : Word) (kind : Nat) (a : BitVec 8) (value : Nat) (s : State) (c : Ctx) : Done :=
  let h := field (c.regs.read32 c.xi c.lane a).toNat 0 16
  .stay (s.schedule (.weirRequest c.gid c.entry kind h value)) c (.weir word)

/-- A weir instruction of the lanes outside transactions: it completes with the home's answer, or goes
to its home. A signal is a release (R113). -/
def weirBody (i : Instr) (kind : Nat) (a : BitVec 8) (value : Ctx → Nat) (put : Nat → Ctx → Ctx) (s : State) (c : Ctx) : Done :=
  match c.split.wait with
  | .answered v => Done.seq (if kind = 2 then s.acquire (coreOf c.gid) 8 else s) (put v c)
  | .weir w => .stay s c (.weir w)
  | _ =>
    let post := weirPost ((encode i).getD 0#32) kind a (value c)
    closing 3 (fun s c => if kind < 2 then withRelease post s c else post s c) s c

/-- The pair B of thread l. -/
def pairB (b : BitVec 8) (c : Ctx) : Nat := (c.regs.read64 c.xi c.lane b).toNat

/-- WSIG (R431). -/
def execWsig (a b : BitVec 8) : State → Host.Outcome State Fault Refusal :=
  issue (.wsig a b) false (fun s c =>
    if !(src32Ok c.allot false a && src64Ok c.allot true b) then Done.early s c fIllegalReg
    else if c.accWait (touchesAcc 1 a || touchesAcc 2 b) then .stay s c .gridOps
    else txIllegal 0x6B c.split.mask (weirBody (.wsig a b) 0 a (pairB b) (fun _ c => c)) s c)

/-- WTRY (R431). -/
def execWtry (d a b : BitVec 8) : State → Host.Outcome State Fault Refusal :=
  issue (.wtry d a b) false (fun s c =>
    if !(dst32Ok c.allot d && src32Ok c.allot false a && src64Ok c.allot true b) then Done.early s c fIllegalReg
    else if c.accWait (touchesAcc 1 d || touchesAcc 1 a || touchesAcc 2 b) then .stay s c .gridOps
    else txIllegal 0x6C c.split.mask (weirBody (.wtry d a b) 1 a (pairB b) (fun v c => c.put32 d (BitVec.ofNat 32 v))) s c)

/-- WWAIT (R431). -/
def execWwait (d a b : BitVec 8) : State → Host.Outcome State Fault Refusal :=
  issue (.wwait d a b) false (fun s c =>
    if !(dst64Ok c.allot d && src32Ok c.allot false a && src64Ok c.allot true b) then Done.early s c fIllegalReg
    else if c.accWait (touchesAcc 2 d || touchesAcc 1 a || touchesAcc 2 b) then .stay s c .gridOps
    else txIllegal 0x6D c.split.mask (weirBody (.wwait d a b) 2 a (pairB b) (fun v c => c.put64 d (BitVec.ofNat 64 v))) s c)

/-- WQRY (R431). -/
def execWqry (d a : BitVec 8) : State → Host.Outcome State Fault Refusal :=
  issue (.wqry d a) false (fun s c =>
    if !(dst64Ok c.allot d && src32Ok c.allot false a) then Done.early s c fIllegalReg
    else if c.accWait (touchesAcc 2 d || touchesAcc 1 a) then .stay s c .gridOps
    else txIllegal 0x6E c.split.mask (weirBody (.wqry d a) 3 a (fun _ => 0) (fun v c => c.put64 d (BitVec.ofNat 64 v))) s c)

/-! The home. -/

/-- The split waits for a weir's answer. -/
def Wait.isWeir (w : Wait) : Bool :=
  match w with
  | .weir _ => true
  | _ => false

/-- Set the wait of a split that waits at a weir. -/
def State.setWeirWait (s : State) (o : WeirOp) (w : Wait) : State :=
  s.modGroup o.gid (fun g => match FMap.find g.table o.entry with
    | some sp => if sp.wait.isWeir then { g.undemote with table := FMap.insert g.table o.entry { sp with wait := w } } else g
    | none => g)

/-- The home answers an operation: of this package's group, or of another package's (log 17). -/
def State.answerWeir (s : State) (o : WeirOp) (v : Nat) : State :=
  match o.src with
  | some q => s.send (.weirAnswer q 0 v)
  | none => s.setWeirWait o (.answered v)

/-- A weir operation faults (R111, R432): a group that is not running issues it again later. -/
def State.weirFault (s : State) (o : WeirOp) (r : BitVec 64 → FaultReq) : State :=
  match FMap.find s.groups o.gid with
  | none => s
  | some g =>
    match FMap.find g.table o.entry with
    | none => s
    | some sp =>
      match sp.wait with
      | .weir w =>
        if g.status = .running then s.faultEntry o.gid o.entry w (fun c => r c.split.mask)
        else s.setWeirWait o .none
      | _ => s

/-- Whole tokens of 16.16 (R109). -/
def oneToken : Nat := 0x10000

/-- Waits that the count has reached complete in the order of their registration (R112). -/
def State.wakeWaiters (s : State) (key : Nat) : State :=
  match FMap.find s.weirs key with
  | none => s
  | some w =>
    let now := w.waiters.filter (fun o => decide (o.value ≤ w.count))
    let s := { s with weirs := FMap.insert s.weirs key { w with waiters := w.waiters.filter (fun o => !decide (o.value ≤ w.count)) } }
    now.foldl (fun s o => s.answerWeir o w.count) s

/-- A signal performs (R112): token, count, waits. -/
def State.weirSignal (s : State) (key : Nat) (w : Weir) (o : WeirOp) : State :=
  let w := { w with tokens := if w.burst ≠ 0 then w.tokens - oneToken else w.tokens, count := (w.count + o.value) % 2 ^ 64 }
  ({ s with weirs := FMap.insert s.weirs key w }.answerWeir o 0).wakeWaiters key

/-- An operation at an open weir, in weir order (R112). -/
def State.weirPerform (s : State) (key : Nat) (w : Weir) (o : WeirOp) : State :=
  match o.kind with
  | 0 =>
    if w.burst ≠ 0 ∧ (w.tokens < oneToken ∨ w.rateOps ≠ []) then { s with weirs := FMap.insert s.weirs key { w with rateOps := w.rateOps ++ [o] } }
    else s.weirSignal key w o
  | 1 => if w.burst ≠ 0 ∧ w.tokens < oneToken then s.answerWeir o 1 else s.weirSignal key w o
  | 2 => if o.value ≤ w.count then s.answerWeir o w.count else { s with weirs := FMap.insert s.weirs key { w with waiters := w.waiters ++ [o] } }
  | _ => s.answerWeir o w.count

/-- The right that an operation needs (R111 step 3), as its bit in an access list entry (R109). -/
def weirRight (kind : Nat) : Nat := if kind < 2 then 16 else if kind = 2 then 17 else 18

/-- The access list grants an operation to a PPID. -/
def Weir.grants (w : Weir) (ppid kind : Nat) : Bool := w.acl.any (fun a => decide (a % 2 ^ 16 = ppid) && bitAt a (weirRight kind))

/-- What a handle names (R110): the descriptor's physical address, or none for WEIR_INVALID, or what the lookup waits for:
the hypervisor's answer for a poisoned sector (R213), or a path to the package that holds the table (R31; log 17). -/
def State.weirEntry (s : State) (p vf die h : Nat) : Except AssistNeed (Option Nat) × State :=
  let part := s.part p
  let ok := fun (e : Nat) => if bitAt e 63 && decide (field e 52 11 = 0 ∧ field e 0 6 = 0) then some (field e 6 46 * 2 ^ 6) else none
  if part.wtcnt ≤ h then (.ok none, s)
  else
    let key := (p * 4 + die) * 2 ^ 16 + h
    match FMap.find s.wtCache key with
    | some e => (.ok (ok e), s)
    | none =>
      let pa := part.wtbase + 8 * h
      let keep := fun (s : State) (e : Nat) => { s with wtCache := FMap.insert s.wtCache key e }
      if pa < 2 ^ 51 ∧ pkgOf pa ≠ s.boot.pkg ∧ offOf pa < tierEnd ∧ s.routed p (pkgOf pa) = true then
        (if s.pathDead p (pkgOf pa) then (.ok none, s)
        else if !s.pathUp p (pkgOf pa) then (.error (.path (pkgOf pa)), s)
        else
          let q := (s.sendRemote vf 0 pa 8 [] false).farRead 8
          if q.1.poison || q.1.refused then (.ok none, q.2) else (.ok (ok (ofBytesLE q.1.bytes)), keep q.2 (ofBytesLE q.1.bytes)))
      else
      match s.hyperOff pa 8 with
      | none => (.ok none, s)
      | some off =>
        match s.toPost p off 8 with
        | some sec => (.error (.contain sec), s)
        | none =>
        if s.poisoned off 8 then (.ok none, s)
        else (.ok (ok (s.wordAt off 8)), keep (s.noteRead off 8) (s.wordAt off 8))

/-- The tracked copies of a descriptor's line after a weir unit has read it (R216). -/
def State.noteDescriptor (s : State) (pa : Nat) : State :=
  match s.hyperOff pa 64 with
  | some off => s.noteRead off 64
  | none => s

/-- The lookup of R111. -/
inductive WeirFind where
  | invalid
  | denied
  | unrouted (pa : Nat)
  /-- the weir's home is another package; so many lookups are left -/
  | remote (pa tries : Nat)
  /-- a poisoned sector to post (R213), or a path to wait for (R31) -/
  | need (x : AssistNeed)
  | at (key : Nat) (w : Weir)
  deriving DecidableEq, Repr

/-- The descriptor's state byte says closed and moved (R109, R111 step 2). -/
def State.movedAway (s : State) (pa : Nat) : Bool :=
  match s.hyperOff pa 64 with
  | some off => !s.poisoned (off + 0x14) 1 && decide (s.wordAt (off + 0x14) 1 = 0x83)
  | none => false

/-- Steps 1 to 3 of R111, with `n` lookups left. -/
def findWeir (p vf die h kind : Nat) : Nat → State → WeirFind × State
  | 0, s => (.invalid, s)
  | n + 1, s =>
    match s.weirEntry p vf die h with
    | (.error x, s) => (.need x, s)
    | (.ok none, s) => (.invalid, s)
    | (.ok (some pa), s) =>
      if pkgOf pa ≠ s.boot.pkg ∨ 2 ^ 51 ≤ pa then (if s.routed p (pkgOf pa) ∧ pa < 2 ^ 51 then (.remote pa n, s) else (.unrouted pa, s))
      else match FMap.find s.weirs pa with
        | some w => (if w.grants (s.part p).ppid kind then .at pa w else .denied, s)
        | none =>
          match s.hyperOff pa 64 with
          | none => (.invalid, s)
          | some off =>
            match s.toPost p off 64 with
            | some sec => (.need (.contain sec), s)
            | none => if s.movedAway pa then findWeir p vf die h kind n (s.noteRead off 64) else (.invalid, s.noteRead off 64)

/-- Step 4 of R111: an operation whose checks have passed performs, or is held while the weir is not open. -/
def State.weirAt (s : State) (key : Nat) (w : Weir) (o : WeirOp) : State :=
  if w.state = 0 then s.weirPerform key w o else { s with weirs := FMap.insert s.weirs key { w with heldOps := w.heldOps ++ [o] } }

/-- The MILLRACE kind of a weir operation. -/
def weirKind : Nat := 32

/-- An operation goes to the home of its weir in another package, with so many lookups left (R111); without a path it
waits, and ends under R31. -/
def State.weirRemote (s : State) (p : Nat) (o : WeirOp) (pa tries : Nat) : State :=
  if s.pathDead p (pkgOf pa) then s.weirFault o (fun m => { FaultReq.at fUncorrectable m 0 with pathFail := true })
  else if !s.pathUp p (pkgOf pa) then s.holdEvent (.weirRequest o.gid o.entry o.kind o.handle o.value)
  else
    let q := s.fresh
    let op : RemoteOp := ⟨q.1, .weir o.kind o.handle o.value tries, [⟨0#64, 0, 0, pa, 8, false⟩], [], [], 0#32, o.entry⟩
    (q.2.sendRemote (s.vfOf o.gid) (weirKind + o.kind) pa 8 (bytesLE 8 o.value ++ bytesLE 8 q.1) false).modGroup o.gid
      (fun g => { g with links := { g.links with remote := g.links.remote ++ [op] } })

/-- An operation of a group of this package from step 1 of R111 on, with `n` lookups left. -/
def State.weirFrom (s : State) (n : Nat) (o : WeirOp) : State :=
  let p := s.partOf o.gid
  match findWeir p (s.vfOf o.gid) (dieOf (coreOf o.gid)) o.handle o.kind n s with
  | (.invalid, s) => s.weirFault o (fun m => .at fWeirInvalid m o.handle)
  | (.denied, s) => s.weirFault o (fun m => .at fWeirDenied m o.handle)
  | (.unrouted pa, s) => s.weirFault o (fun m => { FaultReq.at fTranslation m pa with physical := true })
  | (.remote pa tries, s) => s.weirRemote p o pa tries
  | (.need x, s) => s.postNeed (s.whoOf o.gid) x 3 0 0 (.weirRequest o.gid o.entry o.kind o.handle o.value)
  | (.at key w, s) => s.weirAt key w o

/-- WEIR_REQUEST (R110 to R112). -/
def execWeirRequest (gid entry kind handle value : Nat) (s : State) : Host.Outcome State Fault Refusal :=
  match FMap.find s.groups gid with
  | none => .next s
  | some g =>
    if !(((FMap.find g.table entry).map (fun sp => sp.wait.isWeir)).getD false) then .next s
    else .next (s.weirFrom 2 ⟨gid, entry, kind, handle, value, (s.part (s.partOf gid)).ppid, none⟩)

/-- An operation of another package at the descriptor that it names (R111 steps 2 to 4). -/
def State.weirArrives (s : State) (pa : Nat) (o : WeirOp) : State :=
  match o.src with
  | none => s
  | some q =>
    match FMap.find s.weirs pa with
    | some w => if w.grants o.ppid o.kind then s.weirAt pa w o else s.send (.weirAnswer q 2 0)
    | none => (s.noteDescriptor pa).send (.weirAnswer q (if s.movedAway pa then 3 else 1) 0)

/-- The home in another package has answered an operation: 0 done, 1 WEIR_INVALID, 2 WEIR_DENIED, 3 the descriptor is
closed and moved, and the handle is looked up again (R111). -/
def State.weirAnswered (s : State) (o : WeirOp) (tries result v : Nat) : State :=
  match result with
  | 0 => s.setWeirWait o (.answered v)
  | 2 => s.weirFault o (fun m => .at fWeirDenied m o.handle)
  | 3 => s.weirFrom tries o
  | _ => s.weirFault o (fun m => .at fWeirInvalid m o.handle)

/-- A held or registered operation of a weir that closes goes back to step 2 of R111, at the closed descriptor: moved away,
its handle is looked up again, once. -/
def State.closedOp (s : State) (moved : Bool) (o : WeirOp) : State :=
  match o.src with
  | some q => s.send (.weirAnswer q (if moved then 3 else 1) 0)
  | none => if moved then s.weirFrom 1 o else s.weirFault o (fun m => .at fWeirInvalid m o.handle)

/-- The operations of a group at weirs of other packages are withdrawn (R114): the homes are told. Where an increment had
been performed before that, which is a free value, the group has its answer. -/
def State.withdrawRemote (s : State) (gid : Nat) : State :=
  match FMap.find s.groups gid with
  | none => s
  | some g =>
    let isOp := fun (op : RemoteOp) => match op.kind with
      | .weir _ _ _ _ => true
      | _ => false
    let s := s.modGroup gid (fun g => { g with links := { g.links with remote := g.links.remote.filter (fun op => !isOp op) } })
    (g.links.remote.filter isOp).foldl (fun s op =>
      let s := op.reqs.foldl (fun s q => s.send (.weirWithdraw (pkgOf q.pa) op.id (s.sender (s.vfOf gid)))) s
      let q := s.freeWord
      let v := q.2.freeWord
      match op.kind with
      | .weir k h n _ => if q.1.getLsbD 0 then v.2.setWeirWait ⟨gid, op.entry, k, h, n, 0, none⟩ (.answered (if k = 2 then max n v.1.toNat else if k = 1 then v.1.toNat % 2 else v.1.toNat)) else q.2
      | _ => q.2) s

/-- An operation of another package is withdrawn there (R114). -/
def State.withdrawFrom (s : State) (pkg id : Nat) : State :=
  let keep := fun (o : WeirOp) => (o.src.map (fun q => decide (q.pkg ≠ pkg ∨ q.id ≠ id))).getD true
  { s with weirs := FMap.mapVals (fun _ w => { w with heldOps := w.heldOps.filter keep, rateOps := w.rateOps.filter keep, waiters := w.waiters.filter keep }) s.weirs }

/-- Signals held for a token perform in arrival order as far as tokens reach (R112). -/
def drainWeir (key : Nat) : Nat → State → State
  | 0, s => s
  | n + 1, s =>
    match FMap.find s.weirs key with
    | none => s
    | some w =>
      match w.rateOps with
      | [] => s
      | o :: r =>
        if w.burst ≠ 0 ∧ w.tokens < oneToken then s
        else drainWeir key n (s.weirSignal key { w with rateOps := r } o)

/-- One refill of a weir (R112). -/
def State.refillWeir (s : State) (key : Nat) : State :=
  match FMap.find s.weirs key with
  | none => s
  | some w =>
    if w.state ≠ 0 then s
    else
      let w := if w.burst ≠ 0 then { w with tokens := min (w.tokens + w.refill) (w.burst * oneToken) } else w
      drainWeir key (w.rateOps.length + 1) { s with weirs := FMap.insert s.weirs key w }

/-- WEIR_REFILL (R112): at every 700th tick. -/
def execWeirRefill (s : State) : Host.Outcome State Fault Refusal :=
  if s.tick % 700 = 0 then .next ((FMap.keys s.weirs).foldl (fun s k => s.refillWeir k) s) else .next s

/-! The weir commands. -/

/-- A command of the configuration port finishes (R86). -/
def State.finishCfg (s : State) (code result : Nat) : State := { s with cfg := { s.cfg with busy := false, last := code, result := result } }

/-- The fields of a descriptor (R109). -/
def weirOf (b : List Byte) : Weir :=
  let n := min 8 (leField b 0x15 1)
  { count := leField b 0 8, tokens := leField b 8 4, refill := leField b 0xC 4, burst := leField b 0x10 2, home := leField b 0x12 2, state := 0,
    acl := (List.range n).map (fun i => leField b (0x20 + 4 * i) 4), commons := leField b 0x18 4, heldOps := [], rateOps := [], waiters := [] }

/-- The format of a descriptor is correct (R109). -/
def weirFormatOk (b : List Byte) : Bool :=
  let n := leField b 0x15 1
  let commons := leField b 0x18 4
  decide (leField b 0x12 2 / 2 ^ 9 = 0 ∧ leField b 0x14 1 / 4 % 32 = 0 ∧ n ≤ 8 ∧ leField b 0x16 2 = 0 ∧ leField b 0x1C 4 = 0) &&
    decide (commons = 0xFFFF ∨ commons < 2 ^ 15) && (List.range (min 8 n)).all (fun i => decide (leField b (0x20 + 4 * i) 4 < 2 ^ 19))

/-- The descriptor's bytes, where its stripe is the hypervisor's (R116 step 1). -/
def State.descriptor (s : State) (pa : Nat) : Option (Nat × List Byte) := (s.hyperOff pa 64).map (fun off => (off, s.bytesAt off 64))

/-- Run a weir command on an aligned descriptor in hypervisor memory; R116 gives no result for another, and it finishes
with 2 before any check (log 63). -/
def weirCommand (code : Nat) (f : Nat → Nat → List Byte → State → Nat × State) (s : State) : Host.Outcome State Fault Refusal :=
  if !s.cfg.busy then .next s
  else if s.cfg.arg0 % 64 ≠ 0 then .next (s.finishCfg code 2)
  else match s.descriptor s.cfg.arg0 with
    | none => .next (s.finishCfg code 1)
    | some (off, b) =>
      let r := f s.cfg.arg0 off b (s.noteRead off 64)
      .next (r.2.finishCfg code r.1)

/-- Count and tokens go to the descriptor in memory (R116). -/
def State.storeWeir (s : State) (off : Nat) (w : Weir) : State :=
  ({ s with ms := { s.ms with mem := putBytes s.ms.mem off (bytesLE 8 w.count ++ bytesLE 4 w.tokens) } }).noteWrite none off 12

/-- The state byte of the descriptor in memory. -/
def State.storeWeirState (s : State) (off v : Nat) : State :=
  ({ s with ms := { s.ms with mem := putBytes s.ms.mem (off + 0x14) (bytesLE 1 v) } }).noteWrite none (off + 0x14) 1

/-- A weir's list is registered with the commons that it names, or withdrawn from it (R115): a message goes to a commons of
another package. -/
def State.tellCommons (s : State) (commons pa : Nat) (acl : List Nat) : State :=
  if commons = 0xFFFF ∨ commons / 64 = s.boot.pkg then s else s.send (.commons (commons / 64) (commons % 64) pa acl)

/-- WOPEN (R116). -/
def execWopen : State → Host.Outcome State Fault Refusal :=
  weirCommand 0x10 (fun pa off b s =>
    let st := leField b 0x14 1
    let w := weirOf b
    if s.poisoned off 64 then (2, s)
    else if (FMap.find s.weirs pa).isSome ∨ (st ≠ 0 ∧ st ≠ 3) then (3, s)
    else if !weirFormatOk b then (2, s)
    else if w.home ≠ s.boot.pkg then (4, s)
    else if 4096 ≤ s.weirs.length then (5, s)
    else (0, { (s.storeWeirState off 0).tellCommons w.commons pa w.acl with weirs := FMap.insert s.weirs pa w }))

/-- WQUIESCE (R116). -/
def execWquiesce : State → Host.Outcome State Fault Refusal :=
  weirCommand 0x11 (fun pa _ _ s => match FMap.find s.weirs pa with
    | some w => if w.state = 0 then (0, { s with weirs := FMap.insert s.weirs pa { w with state := 1 } }) else (3, s)
    | none => (3, s))

/-- WEXPORT (R116). -/
def execWexport : State → Host.Outcome State Fault Refusal :=
  weirCommand 0x12 (fun pa off _ s => match FMap.find s.weirs pa with
    | some w => if w.state = 1 then (0, { (s.storeWeir off w).storeWeirState off 2 with weirs := FMap.insert s.weirs pa { w with state := 2 } }) else (3, s)
    | none => (3, s))

/-- WCLOSE (R116). -/
def execWclose : State → Host.Outcome State Fault Refusal :=
  weirCommand 0x13 (fun pa off _ s => match FMap.find s.weirs pa with
    | some w =>
      let s := if w.state = 2 then s.storeWeirState off 0x83 else (s.storeWeir off w).storeWeirState off 3
      let s := ({ s with weirs := FMap.erase s.weirs pa }).tellCommons w.commons pa []
      (0, (w.heldOps ++ w.rateOps ++ w.waiters).foldl (fun s o => s.closedOp (decide (w.state = 2)) o) s)
    | none => (3, s))

/-- WRELOAD (R116): the access list, the commons and the rate come from memory again. -/
def execWreload : State → Host.Outcome State Fault Refusal :=
  weirCommand 0x14 (fun pa off b s =>
    if s.poisoned off 64 then (2, s)
    else match FMap.find s.weirs pa with
      | some w =>
        if 2 ≤ w.state then (3, s)
        else if !weirFormatOk b then (2, s)
        else
          let n := weirOf b
          let tokens := if n.burst ≠ 0 then min w.tokens (n.burst * oneToken) else w.tokens
          (0, { (s.tellCommons w.commons pa []).tellCommons n.commons pa n.acl with weirs := FMap.insert s.weirs pa { w with refill := n.refill, burst := n.burst, acl := n.acl, commons := n.commons, tokens := tokens } })
      | none => (3, s))

/-- WTINV_WRITE (R110): the partition's cached weir table entries go. -/
def execWtinvWrite (part : Nat) (s : State) : Host.Outcome State Fault Refusal :=
  .next { s with wtCache := FMap.filterKV (fun k _ => decide (k / 2 ^ 18 ≠ part)) s.wtCache }

end Sys2Proof.Machine
end

