-- ==== Sys2Proof/Machine/Grid.lean ====
section
/-! DEFINITION. The grid instructions, opcodes 0x70 to 0x77, and GRID_OP_COMPLETE: R171 to R176,
R433 to R453. -/

namespace Sys2Proof.Machine

/-! Cells. -/

/-- The cell that an operation issued now reads (R172): the newest outstanding result, else the register. -/
def Group.cell (g : Group) (i j : Nat) : Word :=
  (g.gridOps.reverse.findSome? (fun op => FMap.find op.cells (i * 64 + j))).getD (g.regs.getV (64 + j) i)

/-- Results for a list of cells in order, with one draw each under SR (R288). -/
def cellList (draw : Bool) (f : Nat → Nat → Nat → Word) : List (Nat × Nat) → Word → FMap Word × Word
  | [], seed => ([], seed)
  | (i, j) :: r, seed =>
    let x := if draw then srdraw seed else seed
    let q := cellList draw f r x
    ((i * 64 + j, f i j (if draw then x.toNat else 0)) :: q.1, q.2)

/-- The cells of a set of rows and a set of columns, by row and then column (R288). -/
def cellsOf (rows cols : List Nat) : List (Nat × Nat) := (rows.map (fun i => cols.map (fun j => (i, j)))).flatten

/-- Write an operation's cells into the accumulators (R171). -/
def Regs.writeCells (r : Regs) (cells : FMap Word) : Regs :=
  cells.foldl (fun r q => r.setV (64 + q.1 % 64) (q.1 / 64) q.2) r

/-- The groups of a group's quadrant with an outstanding operation: when the last of them ends. -/
def State.gridFree (s : State) (gid : Nat) : Nat :=
  (s.groups.filter (fun q => decide (hidOf q.1 = hidOf gid))).foldl (fun n q => q.2.gridOps.foldl (fun n op => max n op.due) n) 0

/-- Issue a grid operation (R39, R173, R446): `lead` free ticks of operand read, then G free ticks on the grid. -/
def State.pushGridOp (s : State) (gid lead g : Nat) (isGmm : Bool) (cells : FMap Word) : State :=
  let due := max (s.freeNow (hidOf gid) + lead) (s.gridFree gid) + g
  let s := s.modGroup gid (fun x => { x with gridOps := x.gridOps ++ [⟨g, due, isGmm, cells⟩] })
  s.modCore (coreOf gid) (fun c => { c with gridOrder := c.gridOrder ++ [gid] })

/-- A trapped group's operations have all completed: it takes its place in the queue for the handler
context (R182 step 3). -/
def State.operationDone (s : State) (gid : Nat) : State :=
  match FMap.find s.groups gid with
  | none => s
  | some g =>
    if g.status = .trapped ∧ g.gridOps.isEmpty ∧ g.links.remote.isEmpty then
      (s.queueTrap gid).schedule (.handlerEntry (hidOf gid))
    else s

/-- GRID_OP_COMPLETE: the quadrant's oldest operation ends in its time, and its cells are written
(R172 to R174, R446). -/
def execGridOpComplete (gid : Nat) (s : State) : Host.Outcome State Fault Refusal :=
  match FMap.find s.groups gid with
  | none => .next s
  | some g => match g.gridOps with
    | [] => .next s
    | op :: r =>
      let head := (s.core (coreOf gid)).gridOrder.find? (fun k => decide (hidOf k = hidOf gid))
      if head ≠ some gid ∨ s.freeNow (hidOf gid) < op.due then .next s
      else
        let s := s.setGroup gid { g with regs := g.regs.writeCells op.cells, gridOps := r, lastG := if op.isGmm then op.phase else g.lastG }
        let s := s.modGroup gid (fun x => x.noteChange (decide (x.regs ≠ g.regs)))
        let s := s.modCore (coreOf gid) (fun c => { c with gridOrder := c.gridOrder.erase gid })
        .next (if g.status = .exited then s.releaseBlock g.ident.block else s.operationDone gid)

/-! Shared checks. -/

/-- GRID_STATE for every thread of the split (R441, R448, R449). -/
def gridState (s : State) (c : Ctx) : Done := .fault s c (.plain fGridState c.split.mask)

/-- The tile counter is full (R398). -/
def tileFull (g : Group) : Bool := decide (255 ≤ g.gridOps.length)

/-- Issue an instruction of the group itself: its group is at hand. -/
def withGroup (f : Group → State → Ctx → Done) (s : State) (c : Ctx) : Done :=
  match FMap.find s.groups c.gid with
  | none => .next s
  | some g => f g s c

/-- Issue a grid operation whose step 5 begins with GRID_STATE, once the counter has room. -/
def inGrid (f : Group → State → Ctx → Done) : State → Ctx → Done :=
  withGroup (fun g s c =>
    if !g.grid then gridState s c
    else if tileFull g then .stay s c (.counter 3 254)
    else f g s c)

/-! ENTG, EXTG, GSTAT. -/

/-- ENTG (R436). -/
def execEntg : State → Host.Outcome State Fault Refusal :=
  issue .entg false (withGroup (fun g s c =>
    if g.ident.allot ≠ 128 ∨ g.grid then gridState s c
    else Done.seq (s.modGroup c.gid (fun x => { x with grid := true })) c))

/-- EXTG (R437). -/
def execExtg : State → Host.Outcome State Fault Refusal :=
  issue .extg false (withGroup (fun g s c =>
    if !g.grid then gridState s c
    else if !g.gridOps.isEmpty then .stay s c .gridOps
    else Done.seq (s.modGroup c.gid (fun x => { x with grid := false })) c))

/-- GSTAT (R452): in every thread of the active mask. -/
def execGstat (d : BitVec 8) : State → Host.Outcome State Fault Refusal :=
  issue (.gstat d) false (withGroup (fun g s c =>
    if !dst32Ok c.allot d then Done.early s c fIllegalReg
    else if c.accWait (touchesAcc 1 d) then .stay s c .gridOps
    else Done.seq s (c.put32 d g.gstatWord)))

/-! GMM and GOUT. -/

/-- A register operand of GMM (R439): a quad below v64. -/
def gmmRegOk (allot : Nat) (b : BitVec 8) : Bool :=
  match specOf b with
  | .v n => decide (n % 4 = 0 ∧ n + 3 ≤ 63 ∧ n + 3 < allot)
  | _ => false

/-- The octet rule of R439 for bf16. -/
def octetRule (fmt : Nat) (b : BitVec 8) : Bool :=
  if fmt = 2 then (match specOf b with
    | .v n => decide (n % 8 = 0 ∧ n + 7 ≤ 63)
    | _ => false)
  else true

/-- A register operand of GOUT (R447): a 32-bit vn below v64. -/
def goutRegOk (allot : Nat) (b : BitVec 8) : Bool :=
  match specOf b with
  | .v n => decide (n < 64 ∧ n < allot)
  | _ => false

/-- What R440 allows for ida. -/
def idaOk (t : TensorEnt) : Bool := decide ((t.fmt = 2 ∨ t.fmt = 3 ∨ t.fmt = 4) ∧ t.sbase = 0)

/-- What R440 allows for idb. -/
def idbOk (t : TensorEnt) : Bool :=
  idaOk t || decide ((t.fmt = 11 ∨ t.fmt = 13) ∧ t.sbase ≠ 0 ∧ t.sgrp = 16)

/-- ida and idb (R440). -/
def Ctx.ida (c : Ctx) : Nat := field c.extv.toNat 12 12
def Ctx.idb (c : Ctx) : Nat := field c.extv.toNat 0 12

/-- Step 3 of R441: the formats of both identifiers. The octet rule is GMM's alone (R447). -/
def gridIds (c : Ctx) (octets : Bool) (a b : BitVec 8) (s : State) : Except IdStop (Nat × Nat) × State :=
  match tensorOf c.gid c.ida s with
  | (.error x, s) => (.error x, s)
  | (.ok x, s) =>
    if !idaOk x then (.error (.fault (.virt fTensorId c.ida)), s)
    else match tensorOf c.gid c.idb s with
      | (.error e, s) => (.error e, s)
      | (.ok y, s) =>
        if !idbOk y then (.error (.fault (.virt fTensorId c.idb)), s)
        else if octets && !octetRule x.fmt a then (.error (.fault (.virt fTensorId c.ida)), s)
        else if octets && !octetRule y.fmt b then (.error (.fault (.virt fTensorId c.idb)), s)
        else (.ok (x.fmt, y.fmt), s)

/-- The code of element k of a GMM operand of thread t (R439). -/
def gmmCode (r : Regs) (fmt t : Nat) (b : BitVec 8) (k : Nat) : Nat :=
  let w := fmtBits fmt
  match fmt with
  | 2 => field (r.readRun t b (k / 2)).toNat (16 * (k % 2)) 16
  | 3 => field (r.readRun t b (k / 4)).toNat (8 * (k % 4)) 8
  | 4 => field (r.readRun t b (k / 4)).toNat (8 * (k % 4)) 8
  | _ => field (r.readRun t b (k / 8)).toNat (4 * (k % 8)) w

/-- The scale of a GMM operand of thread t (R439). -/
def gmmScale (r : Regs) (fmt t : Nat) (b : BitVec 8) : Nat :=
  if fmt = 11 ∨ fmt = 13 then field (r.readRun t b 2).toNat 0 8 else 127

/-- The 16 elements of thread t's operand, widened (R298, R439). -/
def gmmElems (r : Regs) (fmt t : Nat) (b : BitVec 8) : List FVal :=
  (List.range 16).map (fun k => widen fmt (gmmScale r fmt t b) (gmmCode r fmt t b k))

/-- A supplied column: its number, its elements and its bitmap (R442). -/
structure GridCol where
  j : Nat
  vals : List FVal
  bits : Nat
  deriving DecidableEq, Repr

/-- The column that thread t supplies (R442). -/
def gmmCol (r : Regs) (sparse : Bool) (fmt t : Nat) (b : BitVec 8) : GridCol :=
  ⟨t, gmmElems r fmt t b, if sparse then field (r.getO 7 t).toNat 16 16 else 0xFFFF⟩

/-- The 16 products of one cell (R442): +0 where a bitmap bit is 0. -/
def gmmProducts (a : List FVal) (am : Nat) (col : GridCol) : List FVal :=
  (List.range 16).map (fun k =>
    if bitAt am k && bitAt col.bits k then dotProduct (a.getD k (.zero false)) (col.vals.getD k (.zero false)) else .zero false)

/-- One accumulation step of a cell (R299, R442, R443). -/
def gridStep (mode : Word) (zeroFirst : Bool) (old : Word) (d : Nat) (p : List FVal) : Word :=
  BitVec.ofNat 32 (fdot (modeRnd mode) (modeDaz mode) (modeFtz mode) d (if zeroFirst then 0x80000000 else old.toNat) p)

/-- The rounding mode is SR (R288). -/
def Ctx.modeSr (c : Ctx) : Bool := decide (modeRndCode c.regs.mode = 5)

/-- The cells of a group's GMM and the seed after it (R442). -/
def gmmCells (g : Group) (c : Ctx) (sparse zeroFirst : Bool) (fa : Nat) (a : BitVec 8) (cols : List GridCol) : FMap Word × Word :=
  let rows := threadsOf c.exec
  let av := rows.map (fun i => (i, gmmElems c.regs fa i a, if sparse then field (c.regs.getO 7 i).toNat 0 16 else 0xFFFF))
  let f := fun i j d =>
    match av.find? (fun q => decide (q.1 = i)), cols.find? (fun q => decide (q.j = j)) with
    | some x, some col => gridStep c.regs.mode zeroFirst (g.cell i j) d (gmmProducts x.2.1 x.2.2 col)
    | _, _ => 0#32
  cellList c.modeSr f (cellsOf rows (cols.map (fun q => q.j))) c.seed

/-- The products that a sparse GMM forms for its written cells (R446). -/
def gmmFormed (c : Ctx) (cols : List GridCol) : Nat :=
  ((threadsOf c.exec).map (fun i =>
    (cols.map (fun col => countOnes 16 (field (c.regs.getO 7 i).toNat 0 16 &&& col.bits))).foldl (fun x y => x + y) 0)).foldl (fun x y => x + y) 0

/-- G of a GMM (R446): `formed` is the number of products of a sparse one. -/
def gmmPhase (sparse : Bool) (fa fb formed : Nat) : Nat :=
  let d := if fa = 2 ∨ fb = 2 then 16 else 8
  if sparse then max (d / 4) ((d * formed + 65535) / 65536) else d

/-- A fault or an answer to wait for while identifiers are read. -/
def idStop (c : Ctx) (x : IdStop) (s : State) : Done :=
  match x with
  | .assist y => assistWait c y s
  | .fault f => .fault s c (sharedFault c f)

/-- Step 3 of R441 for the issuing group: the reads of both entries go into the fabric (R106). -/
def withIds (octets : Bool) (a b : BitVec 8) (k : Nat × Nat → State → Done) (s : State) (c : Ctx) : Done :=
  chargeSectors c (entryRequests c.gid [c.ida, c.idb] s) (fun s =>
    match gridIds c octets a b s with
    | (.error x, s) => idStop c x s
    | (.ok f, s) => k f s) s

/-- A GMM of one group (R441, R442). -/
def gmmBody (sparse z : Bool) (a b : BitVec 8) (g : Group) (s : State) (c : Ctx) : Done :=
  withIds true a b (fun f s =>
    let cols := (threadsOf c.split.mask).map (fun t => gmmCol c.regs sparse f.2 t b)
    let q := gmmCells g c sparse z f.1 a cols
    Done.seq (s.pushGridOp c.gid 4 (gmmPhase sparse f.1 f.2 (gmmFormed c cols)) true q.1) { c with seed := q.2 }) s c

/-- Issue a GMM: its specifiers, its guard's wait, then the checks of R441. -/
def gmm (i : Instr) (sparse z : Bool) (a b : BitVec 8) : State → Host.Outcome State Fault Refusal :=
  issue i false (fun s c =>
    if !(gmmRegOk c.allot a && gmmRegOk c.allot b) then Done.early s c fIllegalReg
    else if c.mustWait false then .stay s c .gridOps
    else inGrid (gmmBody sparse z a b) s c)

/-- GMM (R442). -/
def execGmm (z : Bool) (a b : BitVec 8) : State → Host.Outcome State Fault Refusal := gmm (.gmm z a b) false z a b
/-- Sparse GMM (R444). -/
def execGmmSparse (z : Bool) (a b : BitVec 8) : State → Host.Outcome State Fault Refusal := gmm (.gmmSparse z a b) true z a b

/-- A partner that stands at a linked GMM: its group, entry and fields. -/
structure LinkedAt where
  gid : Nat
  entry : Nat
  g : Group
  c : Ctx
  d : Nat
  a : BitVec 8
  b : BitVec 8
  deriving DecidableEq, Repr

/-- Where a member of a lock set stands at a linked GMM (R130). -/
def State.linkedAt (s : State) (gid : Nat) : Option LinkedAt :=
  match FMap.find s.groups gid with
  | none => none
  | some g =>
    if g.status ≠ .running then none
    else g.table.findSome? (fun q => match q.2.wait with
      | .linked d a b => some ⟨gid, q.1, g, groupCtx g gid q.1 q.2, d, BitVec.ofNat 8 a, BitVec.ofNat 8 b⟩
      | _ => none)

/-- A member of the group's lock set has exited or been halted (R130). -/
def State.linkedGone (s : State) (gid : Nat) : Bool :=
  decide ((s.lockSet gid).length < 4) || (s.lockSet gid).any (fun k => match FMap.find s.groups k with
    | some g => decide (g.status = .exited)
    | none => true)

/-- Each member's formats, or the first member whose identifiers stop it. -/
def linkedIds : List LinkedAt → State → Except (LinkedAt × IdStop) (List (LinkedAt × Nat × Nat)) × State
  | [], s => (.ok [], s)
  | m :: r, s =>
    match gridIds m.c true m.a m.b s with
    | (.error x, s) => (.error (m, x), s)
    | (.ok f, s) => match linkedIds r s with
      | (.error x, s) => (.error x, s)
      | (.ok l, s) => (.ok ((m, f) :: l), s)

/-- The columns that a member supplies to a linked GMM (R445). -/
def linkedCols (sparse : Bool) (q : LinkedAt × Nat × Nat) : List GridCol :=
  let m := q.1.g.ident.grpix % 4
  ((List.range 16).map (fun i => 16 * m + i)).filterMap (fun t =>
    if q.1.c.split.mask.getLsbD t then some (gmmCol q.1.c.regs sparse q.2.2 t q.1.b) else none)

/-- One member's own part of a linked GMM (R445): its split has issued (R140), and goes on. -/
def linkedPart (sparse : Bool) (cols : List GridCol) (phase : LinkedAt × Nat × Nat → Nat) (s : State) (q : LinkedAt × Nat × Nat) : State :=
  let m := q.1
  let r := gmmCells m.g m.c sparse (bitAt m.d 2) q.2.1 m.a cols
  let s := s.pushGridOp m.gid 4 (phase q) true r.1
  (s.retire m.c { m.c with seed := r.2 } (m.c.split.pc + 4#64)).modGroup m.gid (fun g => g.noteIssue m.entry false)

/-- G of each member of a linked GMM (R446): a dense one's follows its own identifiers, a sparse one's is the largest of the
four. -/
def linkedPhase (sparse : Bool) (cols : List GridCol) (l : List (LinkedAt × Nat × Nat)) (q : LinkedAt × Nat × Nat) : Nat :=
  if sparse then l.foldl (fun n x => max n (gmmPhase true x.2.1 x.2.2 (gmmFormed x.1.c cols))) 0 else gmmPhase false q.2.1 q.2.2 0

/-- The linked GMM of four members that all stand at it (R445). -/
def linkedRun (sparse : Bool) (l : List (LinkedAt × Nat × Nat)) (s : State) : State :=
  let cols := ((List.range 4).map (fun m => (l.filter (fun q => decide (q.1.g.ident.grpix % 4 = m))).map (linkedCols sparse))).flatten.flatten
  l.foldl (linkedPart sparse cols (linkedPhase sparse cols l)) s

/-- The linked GMM with these fields of D. -/
def linkedInstr (d : Nat) (a b : BitVec 8) : Instr :=
  if bitAt d 0 then .gmmLinkedSparse (bitAt d 2) a b else .gmmLinked (bitAt d 2) a b

/-- What happens when a member stands at a linked GMM, its wait already noted (R130, R441, R445): with all four there, a
member that has left grid mode faults. -/
def linkedMeet (gid : Nat) (s : State) : State :=
  let l := (s.lockSet gid).filterMap s.linkedAt
  if l.length < 4 then s
  else match l.find? (fun m => !m.g.grid) with
  | some m => s.raise m.c m.c ((encode (linkedInstr m.d m.a m.b)).getD 0#32) (.plain fGridState m.c.split.mask)
  | none =>
    let same := l.all (fun m => l.all (fun n => decide (m.d = n.d ∧ m.c.idb = n.c.idb)))
    if !same then
      l.foldl (fun s m => s.raise m.c m.c ((encode (linkedInstr m.d m.a m.b)).getD 0#32) (.plain fLinkPartner m.c.split.mask)) s
    else match linkedIds l s with
      | (.error (m, x), s) =>
        let w := (encode (linkedInstr m.d m.a m.b)).getD 0#32
        match idStop m.c x s with
        | .stay s c y => s.stay m.c c y
        | .fault s c r => s.raise m.c c w r
        | .retire s _ _ => s
        | .next s => s
      | (.ok q, s) => linkedRun (match l.head? with
        | some m => bitAt m.d 0
        | none => false) q s

/-- A linked GMM: the checks of R441, then the meeting of the four members. -/
def gmmLinkedBody (d : Nat) (a b : BitVec 8) (g : Group) (s : State) (c : Ctx) : Done :=
  if !g.ident.lk4 then .fault s c (.plain fLinkPartner c.split.mask)
  else withIds true a b (fun _ s =>
    if s.linkedGone c.gid then .fault s c (.plain fLinkPartner c.split.mask)
    else .next (linkedMeet c.gid (s.stay c c (.linked d a.toNat b.toNat)))) s c

/-- Issue a linked GMM. -/
def gmmLinked (i : Instr) (d : Nat) (a b : BitVec 8) : State → Host.Outcome State Fault Refusal :=
  issue i false (fun s c =>
    if !(gmmRegOk c.allot a && gmmRegOk c.allot b) then Done.early s c fIllegalReg
    else if c.mustWait false then .stay s c .gridOps
    else inGrid (gmmLinkedBody d a b) s c)

/-- Linked GMM (R445). -/
def execGmmLinked (z : Bool) (a b : BitVec 8) : State → Host.Outcome State Fault Refusal :=
  gmmLinked (.gmmLinked z a b) (if z then 6 else 2) a b
/-- Linked sparse GMM (R445). -/
def execGmmLinkedSparse (z : Bool) (a b : BitVec 8) : State → Host.Outcome State Fault Refusal :=
  gmmLinked (.gmmLinkedSparse z a b) (if z then 7 else 3) a b

/-- A GOUT operand of thread t, widened (R298, R447). -/
def goutElem (r : Regs) (fmt t : Nat) (b : BitVec 8) : FVal :=
  let x := (r.read32 0#64 t b).toNat
  match fmt with
  | 2 => widen fmt 127 (field x 0 16)
  | 3 => widen fmt 127 (field x 0 8)
  | 4 => widen fmt 127 (field x 0 8)
  | _ => widen fmt (field x 8 8) (field x 0 (fmtBits fmt))

/-- GOUT's update (R447). -/
def goutBody (z : Bool) (a b : BitVec 8) (g : Group) (s : State) (c : Ctx) : Done :=
  withIds false a b (fun x s =>
    let f := fun i j d => gridStep c.regs.mode z (g.cell i j) d [dotProduct (goutElem c.regs x.1 i a) (goutElem c.regs x.2 j b)]
    let q := cellList c.modeSr f (cellsOf (threadsOf c.exec) (threadsOf c.split.mask)) c.seed
    Done.seq (s.pushGridOp c.gid 4 1 false q.1) { c with seed := q.2 }) s c

/-- GOUT (R447). -/
def execGout (z : Bool) (a b : BitVec 8) : State → Host.Outcome State Fault Refusal :=
  issue (.gout z a b) false (fun s c =>
    if !(goutRegOk c.allot a && goutRegOk c.allot b) then Done.early s c fIllegalReg
    else if c.mustWait false then .stay s c .gridOps
    else inGrid (goutBody z a b) s c)

/-- GZRO (R448). -/
def execGzro : State → Host.Outcome State Fault Refusal :=
  issue .gzro false (fun s c =>
    if c.mustWait false then .stay s c .gridOps
    else inGrid (fun _ s c =>
      Done.seq (s.pushGridOp c.gid 1 1 false (cellList false (fun _ _ _ => 0#32) (cellsOf (threadsOf c.exec) (List.range 64)) c.seed).1) c) s c)

/-! The epilogue family. -/

/-- The exact product of three f32 values, rounded once (R449). -/
def fProduct3 (env : FEnv) (d x y z : Nat) : Nat :=
  let r := fun c => dazRead env.F env.daz c
  match firstNan env.F [x, y, z] with
  | some c => c
  | none => match mulVal (decodeFloat env.F (r x)) (decodeFloat env.F (r y)) with
    | none => 0x7FC00000
    | some p => env.product d p (decodeFloat env.F (r z))

/-- The fsum of three f32 values in order (R374, R449). -/
def fSum3 (env : FEnv) (d x y z : Nat) : Nat := fSum env d ([x, y, z].map (dazRead env.F env.daz))

/-- GBIAS and GSCL (R449). -/
def epilogue (i : Instr) (f : FEnv → Nat → Nat → Nat → Nat → Nat) (d a : BitVec 8) : State → Host.Outcome State Fault Refusal :=
  issue i false (fun s c =>
    if !(src32Ok c.allot false d && src32Ok c.allot false a) then Done.early s c fIllegalReg
    else if c.mustWait (touchesAcc 1 d || touchesAcc 1 a) then .stay s c .gridOps
    else inGrid (fun g s c =>
      let env := floatEnv c.regs.mode fmtF32
      let cell := fun i j x => BitVec.ofNat 32 (f env x (g.cell i j).toNat (c.regs.read32 c.xi i d).toNat (c.regs.read32 c.xi j a).toNat)
      let q := cellList c.modeSr cell (cellsOf (threadsOf c.exec) (threadsOf c.split.mask)) c.seed
      Done.seq (s.pushGridOp c.gid 4 1 false q.1) { c with seed := q.2 }) s c)

/-- GBIAS (R449). -/
def execGbias (d a : BitVec 8) : State → Host.Outcome State Fault Refusal := epilogue (.gbias d a) fSum3 d a
/-- GSCL (R449). -/
def execGscl (d a : BitVec 8) : State → Host.Outcome State Fault Refusal := epilogue (.gscl d a) fProduct3 d a

/-- The formats of GPACK (R450). -/
def gpackFormats : List Nat := [1, 2, 3, 4, 7, 8, 9, 10]

/-- GPACK (R450): it works in both modes, and writes no latch. -/
def execGpack (d a : BitVec 8) : State → Host.Outcome State Fault Refusal :=
  issue (.gpack d a) false (fun s c =>
    let fmt := field c.extv.toNat 0 4
    if !(gpackFormats.contains fmt && decide (field c.extv.toNat 4 20 = 0)) then Done.early s c fIllegalOp
    else if !(dst32Ok c.allot d && src32Ok c.allot false a) then Done.early s c fIllegalReg
    else if c.mustWait true then .stay s c .gridOps
    else
      let w := fmtBits fmt
      let per := 32 / w
      let col := field (c.regs.read32 c.xi c.lane a).toNat 0 6 / per * per
      if c.allot < 64 + col + per then Done.early s c fIllegalReg
      else
        let rs := threadResults (cvDraws c fmt per) (fun t ds =>
          packElems w ((List.range per).map (fun e =>
            convertTo c.regs.cvmode (modeRnd c.regs.mode) (ds.getD e 0) fmt (decodeFloat fmtF32 (c.regs.getV (64 + col + e) t).toNat)))) (threadsOf c.exec) c.seed
        Done.seq s { c with regs := rs.1.foldl (fun r q => r.write32 q.1 d (lo32 q.2)) c.regs, seed := rs.2 })

/-! Tile panels. -/

/-- Bytes per thread of a panel by its size code (R433): 0 where the code is not allowed. -/
def panelSize (c : Ctx) : Nat :=
  match c.extv.toNat with
  | 0 => 16
  | 1 => 32
  | 2 => 8
  | _ => 0

/-- D of a panel (R451): a pair, a quad or an octet. -/
def panelOk (allot size : Nat) (dest : Bool) (d : BitVec 8) : Bool :=
  if size = 32 then octetOk allot d else dataOk allot size dest d

/-- Where each thread's bytes lie (R451): MISALIGNED for every thread, or POOL_RANGE, or the tile. In a transaction the
access is to the Pool whatever else holds, and aborts (R221). -/
def panelReach (size tile o : Nat) (acc : Access) : Reached :=
  let off := o + size * acc.t
  (acc, if acc.tx then .pool (.ti off) else if o % size ≠ 0 then .fault (.virt fMisaligned (poolBase + tileOff + off))
    else if tile < off + size then .fault (.virt fPoolRange (poolBase + tileOff + off))
    else .pool (.ti off))

/-- A thread's address in a panel, in the Pool window (R451). -/
def Ctx.panelAddress (c : Ctx) (size : Nat) (a : BitVec 8) (t : Nat) : Nat := poolBase + tileOff + (c.regs.read32 c.xi c.lane a).toNat + size * t

/-- The accesses of a panel instruction. -/
def panelPlan (c : Ctx) (size : Nat) (a : BitVec 8) (s : State) : List Reached :=
  let tile := match s.blockOf c.gid with
    | some b => b.tiSize
    | none => 0
  (accessPlan c false (c.txLanes s)).map (panelReach size tile (c.regs.read32 c.xi c.lane a).toNat)

/-- Issue a panel instruction: its size, its operands, its wait, then its accesses. -/
def panel (i : Instr) (dest : Bool) (d a : BitVec 8) (body : Nat → State → Ctx → Done) : State → Host.Outcome State Fault Refusal :=
  issue i false (fun s c =>
    let size := panelSize c
    if size = 0 then Done.early s c fIllegalOp
    else if !(panelOk c.allot size dest d && src32Ok c.allot false a) then Done.early s c fIllegalReg
    else if c.mustWait (touchesAcc (size / 4) d || touchesAcc 1 a) then .stay s c .gridOps
    else body size s c)

/-- Write the bytes of a panel to a thread's registers (R377, R451). -/
def Regs.writePanel (r : Regs) (size : Nat) (d : BitVec 8) (t v : Nat) : Regs :=
  if size = 8 then r.write64 t d (BitVec.ofNat 64 v)
  else r.writeRunList t d 0 ((List.range (size / 4)).map (fun k => BitVec.ofNat 32 (field v (32 * k) 32)))

/-- The bytes of a panel in a thread's registers (R377, R451). -/
def Ctx.panelBytes (c : Ctx) (size : Nat) (d : BitVec 8) (t : Nat) : List Byte :=
  if size = 8 then bytesLE 8 (c.regs.read64 c.xi t d).toNat
  else ((List.range (size / 4)).map (fun k => bytesLE 4 (c.regs.readRun t d k).toNat)).flatten

/-- GSTP (R451): one Pool write per executing thread. -/
def execGstp (d a : BitVec 8) : State → Host.Outcome State Fault Refusal :=
  panel (.gstp d a) false d a (fun size s c =>
    memDone c (c.txLanes s) (.load d.toNat false) ((encode (.gstp d a)).getD 0#32)
      ((panelPlan c size a s).foldl (storeOne c 0x76 size 0 (c.panelBytes size d)) ⟨s, c.regs, [], [], [], []⟩))

/-- GLDP (R451): one Pool read per executing thread. -/
def execGldp (d a : BitVec 8) : State → Host.Outcome State Fault Refusal :=
  panel (.gldp d a) true d a (fun size s c =>
    memDone c (c.txLanes s) (.load d.toNat false) ((encode (.gldp d a)).getD 0#32)
      ((panelPlan c size a s).foldl (loadOne c 0x76 size [] (c.panelAddress size a) (fun v r t => r.writePanel size d t v)) ⟨s, c.regs, [], [], [], []⟩))

end Sys2Proof.Machine
end

