-- ==== Sys2Proof/Machine/Ready.lean ====
section
/-! DEFINITION. Readiness: which splits and groups may issue, and which group a quadrant chooses (R130,
R136, R137, R139, R140, R142, R144, R469). -/

namespace Sys2Proof.Machine

/-- All four members of a group's lock set stand at a linked GMM (R130), or one of them is gone. -/
def State.linkedReady (s : State) (gid : Nat) : Bool :=
  s.linkedGone gid || decide (((s.lockSet gid).filterMap s.linkedAt).length = 4)

/-- The wait of a split at entry e is over, so its instruction can be issued again (R136). The waits that an event
clears answer false. -/
def State.waitOver (s : State) (gid e : Nat) (g : Group) (w : Wait) : Bool :=
  match w with
  | .none => true
  | .join => false
  | .bar _ _ _ => false
  | .barg _ => false
  | .counter cls n => decide (s.waitCounter gid g cls ≤ n)
  | .batch n => !s.batchPending gid n
  | .bow _ _ _ => false
  | .engineRoom => s.engineRoomFor gid
  | .launchRoom => decide ((s.vf (s.vfOf gid)).dlq.length < 256)
  | .callSlot => (s.vf (s.vfOf gid)).freeCall.isSome
  | .call slot => ((FMap.find (s.vf (s.vfOf gid)).calls slot).map (fun x => x.returned)).getD false
  | .ncwt c n => decide (n ≤ ((s.vf (s.vfOf gid)).counter c).2)
  | .txLock => false
  | .ticket => false
  | .weir _ => false
  | .answered _ => true
  | .sleep _ => false
  | .gridOps => g.gridOps.isEmpty
  | .linked _ _ _ => s.linkedReady gid
  | .remote _ => false
  | .flush => false
  | .unreached _ => true
  | .tokens _ n => s.mayGoOut (s.vfOf gid) (dieOf (coreOf gid)) n (gid, e)
  | .path pkg => s.pathUp (s.partOf gid) pkg || s.pathDead (s.partOf gid) pkg
  | .assist slot => decide (64 ≤ slot) && (s.part (s.partOf gid)).freeAssist.isSome

/-- The partition's switch holds the groups of the outgoing VF (R149). -/
def State.switching (s : State) (gid : Nat) : Bool :=
  match (s.part (s.partOf gid)).switch with
  | some w => !w.restoring
  | none => false

/-- The group may issue as far as its own state, its core and a switch in progress go (R45, R136,
R149, R469). -/
def State.mayIssue (s : State) (gid : Nat) (g : Group) : Bool :=
  decide (g.status = .running) && g.yieldDue.isNone && !s.switching gid && !(s.core (coreOf gid)).lost

/-- The youngest table split at JOIN (R142). -/
def youngestAtJoin (t : FMap Split) : Option (Nat × Split) :=
  (t.filter (fun q => decide (q.2.wait = .join))).foldl (fun b q =>
    match b with
    | none => some q
    | some x => if x.2.born < q.2.born then some q else some x) none

/-- With every table split at JOIN, the youngest of them is exchanged with the top of the stack (R142). -/
def Group.exchange (g : Group) : Group :=
  match g.stack with
  | [] => g
  | sp :: r =>
    if g.table.all (fun q => decide (q.2.wait = .join)) then
      match youngestAtJoin g.table with
      | some (e, y) => { g with table := FMap.insert g.table e sp, stack := y :: r }
      | none => g
    else g

/-- The split of a group that issues next: the first ready one in table order after the split that
last issued (R140). -/
def State.readySplit (s : State) (gid : Nat) (g : Group) : Option Nat :=
  ((List.range 16).map (fun i => (g.lastSplit + 1 + i) % 16)).find? (fun e =>
    match FMap.find g.table e with
    | some sp => s.waitOver gid e g sp.wait
    | none => false)

/-- The group is ready (R136); a demoted one counts as ready here. -/
def State.groupReady (s : State) (gid : Nat) (g : Group) : Bool := s.mayIssue gid g && (s.readySplit gid g).isSome

/-- How long a ready group has been ready, in free ticks of its quadrant (R39, R137). -/
def State.readyFor (s : State) (gid : Nat) (g : Group) : Nat := s.freeNow (hidOf gid) - g.readySince.getD (s.freeNow (hidOf gid))

/-- The free ticks after which a ready group is urgent (R137); a demoted one is early enough to issue within 4,096 although
the 15 others of its quadrant may be urgent as well (R144; log 64). -/
def Group.urgentAfter (g : Group) : Nat := if g.spin.demoted then 4064 else 512

/-- The class of a ready group in its quadrant's choice (R137, R144): urgent, any other, demoted. -/
def State.issueClass (s : State) (gid : Nat) (g : Group) : Nat :=
  if g.urgentAfter ≤ s.readyFor gid g then 0 else if g.spin.demoted then 2 else 1

/-- A quadrant has an urgent group (R137). -/
def State.urgent (s : State) (hid : Nat) : Bool :=
  s.groups.any (fun q => decide (hidOf q.1 = hid) && s.groupReady q.1 q.2 && decide (s.issueClass q.1 q.2 = 0))

/-- One group goes before another: class, age, slot (R137). -/
def State.goesFirst (s : State) (a b : Nat × Group) : Bool :=
  let x := s.issueClass a.1 a.2
  let y := s.issueClass b.1 b.2
  decide (x < y) || (decide (x = y) && (decide (a.2.ident.age < b.2.ident.age) || (decide (a.2.ident.age = b.2.ident.age) && decide (a.1 < b.1))))

/-- The group that a quadrant chooses (R137). -/
def State.chooseGroup (s : State) (hid : Nat) : Option (Nat × Group) :=
  (s.groups.filter (fun q => decide (hidOf q.1 = hid) && s.groupReady q.1 q.2)).foldl (fun b q =>
    match b with
    | none => some q
    | some x => if s.goesFirst q x then some q else some x) none

/-- The other groups of a group's quadrant that are ready (R469). -/
def State.readyOthers (s : State) (gid : Nat) : List Nat :=
  (s.groups.filter (fun q => decide (q.1 ≠ gid ∧ hidOf q.1 = hidOf gid) && s.groupReady q.1 q.2)).map (fun q => q.1)

end Sys2Proof.Machine
end

