-- ==== Sys2Proof/Machine/System.lean ====
section
/-! DEFINITION. The system, trap and single-lane instructions, opcodes 0x78 to 0x7F, with HANDLER_ENTRY,
SLP_WAKE and YLD_EXPIRE: R182 to R185, R320, R321, R454 to R472. -/

namespace Sys2Proof.Machine

/-! Traps raised on purpose. -/

/-- A trap kind: every thread of the split, resume PC after the instruction (R461). -/
def trapReq (c : Ctx) (code user : Nat) : FaultReq := { FaultReq.plain code c.split.mask with trapKind := true, user := user }

/-- TRAP (R461). -/
def execTrap (i : BitVec 24) : State → Host.Outcome State Fault Refusal :=
  issue (.trap i) false (fun s c => .fault s c (trapReq c fUserTrap i.toNat))

/-- DBRK (R461). -/
def execDbrk : State → Host.Outcome State Fault Refusal :=
  issue .dbrk false (fun s c => .fault s c (trapReq c fBreakpoint 0))

/-! Status registers. -/

/-- The fields of a group's block and place that status registers show (R71, R464). -/
def State.placeReg (s : State) (gid : Nat) (g : Group) (n : Nat) : Word :=
  let core := coreOf gid
  let lin := match s.blockOf gid with
    | some b => b.linear
    | none => 0
  let dims := match s.gridOf gid with
    | some gr => (gr.hdr.gx, gr.hdr.gy)
    | none => (1, 1)
  BitVec.ofNat 32 (match n with
    | 0x05 => g.ident.grpix
    | 0x06 => lin % dims.1
    | 0x07 => lin / dims.1 % dims.2
    | 0x08 => lin / dims.1 / dims.2
    | 0x09 => g.ident.role
    | 0x0A => core % 9
    | 0x0B => clusterOf core
    | 0x0C => dieOf core
    | _ => s.partOf gid)

/-- The split whose mask ACTLO and ACTHI show: the issuing one, or the trapped one (R184, R320). -/
def actMask (c : Ctx) (g : Group) : BitVec 64 :=
  if c.single then
    match g.fault with
    | some f => match FMap.find g.table f.entry with
      | some sp => sp.mask
      | none => 0#64
    | none => 0#64
  else c.split.mask

/-- The lane whose status word thread t reads (R236): the lowest thread of the record's mask in the
handler. -/
def statusLane (c : Ctx) (g : Group) (t : Nat) : Nat :=
  if c.single then (match g.fault with
    | some f => lowest f.mask
    | none => 0) else t

/-- A status register as thread t reads it (R320, R463, R464); CLKLO and CLKHI aside. -/
def State.statusReg (s : State) (c : Ctx) (g : Group) (n t : Nat) : Word :=
  match n with
  | 0x00 => 64#32
  | 0x01 => if c.single then g.regs.mode else c.regs.mode
  | 0x02 => if c.single then g.regs.cvmode else c.regs.cvmode
  | 0x03 => lo32 (actMask c g)
  | 0x04 => hi32 (actMask c g)
  | 0x10 => BitVec.ofNat 32 g.batch
  | 0x11 => (g.lane (statusLane c g t)).word
  | 0x12 => BitVec.ofNat 32 g.txlim
  | 0x13 => c.seed
  | 0x14 => BitVec.ofNat 32 g.stklim
  | 0x15 => g.tvec
  | 0x16 => g.fp.word
  | 0x17 => g.gstate c.gid c.single
  | 0x18 => g.splitsWord
  | 0x19 => 0xFFFFFFC0#32
  | n => s.placeReg c.gid g n

/-- An SRD of CLKLO captures the tick count; CLKHI reads the capture, or captures (R463). -/
def State.captureClock (s : State) (gid n : Nat) (g : Group) : Word × State :=
  let now := BitVec.ofNat 64 s.tick
  if n = 0x0E then (lo32 now, s.modGroup gid (fun g => { g with clock := some now }))
  else match g.clock with
    | some x => (hi32 x, s)
    | none => (hi32 now, s.modGroup gid (fun g => { g with clock := some now }))

/-- SRD (R320, R321, R462). -/
def execSrd (d : BitVec 8) (i : BitVec 16) : State → Host.Outcome State Fault Refusal :=
  issue (.srd d i) true (withGroup (fun g s c =>
    let n := i.toNat
    if 0x1A ≤ n then Done.early s c fIllegalOp
    else if !dst32Ok c.allot d then Done.early s c fIllegalReg
    else if c.accWait (touchesAcc 1 d) then .stay s c .gridOps
    else if n = 0x0E ∨ n = 0x0F then
      let q := s.captureClock c.gid n g
      Done.seq q.2 (c.put32 d q.1)
    else Done.seq s { c with regs := (threadsOf c.split.mask).foldl (fun r t => r.write32 t d (s.statusReg c g n t)) c.regs }))

/-- Registers that an SWR may write (R320): TVEC in single-lane mode only. -/
def swrAllowed (single : Bool) (n : Nat) : Bool :=
  decide (n = 0x01 ∨ n = 0x02 ∨ n = 0x12 ∨ n = 0x13 ∨ n = 0x14) || (single && decide (n = 0x15))

/-- The checks of R313 and R315 on a value for MODE or CVMODE; `allot` is the group's. -/
def swrCheck (allot n : Nat) (x : Word) : Option Nat :=
  if n = 0x01 then
    let v := x.setWidth 24
    if !modeValueOk v then some fIllegalOp else if !modeGuardOk allot v then some fIllegalReg else none
  else if n = 0x02 then (if cvmodeOk x then none else some fIllegalOp)
  else none

/-- Change the group's own registers: those of the issuing context, or of the trapped group (R184). -/
def setModes (c : Ctx) (f : Regs → Regs) (s : State) : State × Ctx :=
  if c.single then (s.modGroup c.gid (fun g => { g with regs := f g.regs }), c) else (s, { c with regs := f c.regs })

/-- Write a status register (R462, R464, R287). -/
def swrWrite (n : Nat) (x : Word) (s : State) (c : Ctx) : Done :=
  match n with
  | 0x01 => let q := setModes c (fun r => { r with mode := (x.setWidth 24).setWidth 32 }) s; Done.seq q.1 q.2
  | 0x02 => let q := setModes c (fun r => { r with cvmode := x }) s; Done.seq q.1 q.2
  | 0x12 => Done.seq (s.modGroup c.gid (fun g => { g with txlim := x.toNat % 2 ^ 8 })) c
  | 0x13 => Done.seq s { c with seed := if x = 0#32 then 1#32 else x }
  | 0x14 => Done.seq (s.modGroup c.gid (fun g => { g with stklim := x.toNat % 2 ^ 17 })) c
  | _ => Done.seq (s.modGroup c.gid (fun g => { g with tvec := x &&& 0xFFFFFFFC#32 })) c

/-- SWR (R320, R321, R462). -/
def execSwr (d : BitVec 8) (i : BitVec 16) : State → Host.Outcome State Fault Refusal :=
  issue (.swr d i) true (withGroup (fun g s c =>
    let n := i.toNat
    if 0x1A ≤ n then Done.early s c fIllegalOp
    else if !src32Ok c.allot false d then Done.early s c fIllegalReg
    else if !swrAllowed c.single n then Done.early s c fPriv
    else if c.accWait (touchesAcc 1 d) then .stay s c .gridOps
    else
      let x := c.regs.read32 c.xi c.lane d
      match swrCheck g.ident.allot n x with
      | some k => Done.early s c k
      | none => swrWrite n x s c))

/-! The handler's entry. -/

/-- The trap region offset of a slot's record (R170). -/
def recordOff (slot : Nat) : Nat := 256 * slot

/-- The fault record (R457). -/
def recordBytes (slot : Nat) (f : FaultInfo) (txst tick : Nat) : List Byte :=
  let bit := fun (b : Bool) (n : Nat) => if b then 2 ^ n else 0
  let flags := bit f.trapKind 0 + bit f.engine.isSome 1 + bit f.fetch 2 + bit f.stage2 3 + bit f.physical 4 + bit f.pathFail 5 + bit f.pfx.pl 6 + bit f.pfx.ph 7
  bytesLE 1 f.code ++ bytesLE 1 flags ++ bytesLE 1 slot ++ bytesLE 1 0 ++ bytesLE 4 f.word.toNat ++
    bytesLE 8 f.pc.toNat ++ bytesLE 8 (if f.trapKind then f.pc + 4#64 else f.pc).toNat ++ bytesLE 8 f.mask.toNat ++ bytesLE 8 f.addr.toNat ++
    bytesLE 4 f.pfx.lo.toNat ++ bytesLE 4 f.pfx.hi.toNat ++ bytesLE 8 (if f.engine.isSome then f.cpos else 0) ++
    bytesLE 8 (if f.engine.isSome then f.spos else 0) ++ bytesLE 8 f.seq ++ bytesLE 4 f.user ++ bytesLE 4 txst ++ bytesLE 8 tick ++
    List.replicate 168 0#8

/-- Write bytes of a core's trap region (R168). -/
def Core.putTrap (c : Core) (o : Nat) (b : List Byte) : Core :=
  { c with trap := (b.mapIdx (fun i v => (o + i, v))).foldl (fun m q => FMap.setD m 0#8 q.1 q.2) c.trap }

/-- Bytes of a core's trap region. -/
def Core.getTrap (c : Core) (o n : Nat) : List Byte := (List.range n).map (fun i => FMap.getD c.trap 0#8 (o + i))

/-- A handler context at its start (R456). -/
def handlerStart (gid : Nat) (f : FaultInfo) (pc : BitVec 64) : Handler :=
  let slot := slotOf gid
  let record := poolBase + trapOff + recordOff slot
  let top := poolBase + 0x3FC000 + 0x1000 * (slot / 16 + 1)
  let r : Regs := ⟨[], [], [], 0#32, cvmodeReset⟩
  let r := r.write64 0 0#8 (BitVec.ofNat 64 record)
  let r := r.write64 0 2#8 (BitVec.ofNat 64 top)
  let r := (r.setV 4 0 (BitVec.ofNat 32 f.code)).setV 5 0 (BitVec.ofNat 32 slot)
  { gid := gid, regs := r, pc := pc, pfx := .clear, repl := [], skip := 0#64, wait := .none }

/-- Start a group's handler, its record written; with TVEC = 0 halt it instead (R182). -/
def State.startHandler (s : State) (hid gid : Nat) (g : Group) (f : FaultInfo) : State :=
  let code := match s.gridOf gid with
    | some gr => gr.hdr.code
    | none => 0
  let s := s.modCore (coreOf gid) (fun c => { c.putTrap (recordOff (slotOf gid)) (recordBytes (slotOf gid) f (g.lane (lowest f.mask)).word.toNat s.tick) with
    trapQueue := c.trapQueue.filter (fun k => decide (k ≠ gid)) })
  if g.tvec &&& 0xFFFFFFFC#32 = 0#32 then
    ((s.reportError gid 1 f.code f.pc).haltGroup gid).schedule (.handlerEntry hid)
  else
    let s := s.modGroup gid (fun g => { g with status := .handler })
    { s with handlers := FMap.insert s.handlers hid (handlerStart gid f (BitVec.ofNat 64 (code + (g.tvec &&& 0xFFFFFFFC#32).toNat))) }

/-- A trapped group's operations are complete, and its partition does not switch it out (R149, R182). -/
def State.trapReady (s : State) (gid : Nat) : Bool :=
  !s.switching gid && (match FMap.find s.groups gid with
    | some g => decide (g.status = .trapped) && g.gridOps.isEmpty && g.links.remote.isEmpty
    | none => false)

/-- The first trapped group of a quadrant, in the order in which their operations were complete (R182). -/
def State.nextTrapped (s : State) (hid : Nat) : Option Nat := (s.core (hid / 4)).trapQueue.find? (fun k => decide (hidOf k = hid) && s.trapReady k)

/-- Handler entry is a release of the group's writes to other packages (R246, R259): the markers go out first. -/
def State.releaseTrapped (s : State) (gid : Nat) (g : Group) : State :=
  let q := s.sendMarkers (s.vfOf gid) gid g.links.written
  q.2.modGroup gid (fun g => { g with links := g.links.marked q.1 })

/-- HANDLER_ENTRY (R182): a free context goes to the first trapped group of its quadrant. One that became ready at this
very tick waits for the next, since a lower slot may yet tie with it. -/
def execHandlerEntry (hid : Nat) (s : State) : Host.Outcome State Fault Refusal :=
  if (FMap.find s.handlers hid).isSome then .next s
  else
    match s.nextTrapped hid with
    | none => .next s
    | some gid =>
      match FMap.find s.groups gid with
      | none => .next s
      | some g =>
        match g.fault with
        | none => .next s
        | some f =>
          if s.tick ≤ g.trapTick then .next s
          else if !g.links.written.isEmpty then .next (s.releaseTrapped gid g)
          else if !g.links.flush.isEmpty then .next s
          else .next (s.startHandler hid gid g f)

/-! The handler's instructions. -/

/-- Issue a privileged instruction: `ok` is step 3, and outside single-lane mode step 4 raises PRIV
(R319, R454). -/
def privileged (i : Instr) (ok : Group → Ctx → Bool) (f : Nat → Handler → Group → State → Ctx → Done) : State → Host.Outcome State Fault Refusal :=
  issue i true (withGroup (fun g s c =>
    if !ok g c then Done.early s c fIllegalReg
    else match c.who with
      | .handler hid => match FMap.find s.handlers hid with
        | some h => f hid h g s c
        | none => .next s
      | _ => Done.early s c fPriv))

/-- A trapped register that LRD and LWR name (R465). -/
def trappedRegOk (allot : Nat) (a : BitVec 8) : Bool :=
  match specOf a with
  | .v n => decide (n < allot)
  | .o _ => true
  | .l _ => true
  | _ => false

/-- The thread that LRD and LWR name (R465). -/
def Ctx.trappedThread (c : Ctx) (b : BitVec 8) : Nat := field (c.regs.read32 c.xi c.lane b).toNat 0 6

/-- LRD (R465). -/
def execLrd (d a b : BitVec 8) : State → Host.Outcome State Fault Refusal :=
  privileged (.lrd d a b) (fun g c => dst32Ok c.allot d && trappedRegOk g.ident.allot a && src32Ok c.allot false b)
    (fun _ _ g s c => Done.seq s (c.put32 d (g.regs.read32 0#64 (c.trappedThread b) a)))

/-- Write a register of the trapped group; a latch is set alone (R465). -/
def Regs.writeTrapped (r : Regs) (t : Nat) (a : BitVec 8) (x : Word) : Regs :=
  match specOf a with
  | .l n => r.setL n t x
  | _ => r.write32 t a x

/-- LWR (R465). -/
def execLwr (d a b : BitVec 8) : State → Host.Outcome State Fault Refusal :=
  privileged (.lwr d a b) (fun g c => src32Ok c.allot false d && trappedRegOk g.ident.allot a && src32Ok c.allot false b)
    (fun _ _ _ s c =>
      Done.seq (s.modGroup c.gid (fun g => { g with regs := g.regs.writeTrapped (c.trappedThread b) a (c.regs.read32 c.xi c.lane d) })) c)

/-- The mask of the record, as the core keeps it (R460). -/
def Group.faultMask (g : Group) : BitVec 64 :=
  match g.fault with
  | some f => f.mask
  | none => 0#64

/-- What a faulting instruction is, as RETT treats it (R466, R467). -/
inductive RettKind where
  | load (size : Nat) (signed : Bool) (d : BitVec 8)
  | store
  | atomic (size : Nat) (d : BitVec 8)
  | bow (d : BitVec 8)
  | whole
  deriving DecidableEq, Repr

/-- The kind of a faulting word under the MODE that it issued under (R466). -/
def rettKind (f : FaultInfo) : RettKind :=
  let w := f.word.toNat
  let op := field w 24 7
  let d := BitVec.ofNat 8 (field w 16 8)
  let et := modeEtype f.mode
  if f.fetch then .whole
  else if 0x48 ≤ op ∧ op ≤ 0x4C then .load (2 ^ (op - 0x48)) (loadSigned (2 ^ (op - 0x48)) et) d
  else if 0x4D ≤ op ∧ op ≤ 0x51 then .store
  else if op = 0x52 then .load (if etypeWide et then 8 else 4) false d
  else if op = 0x53 then .atomic (atSize et) d
  else if op = 0x5C then .bow d
  else .whole

/-- Replacements apply to the fault (R466): that of a load, an LDC, an AT or a BOW. -/
def FaultInfo.replaceable (f : FaultInfo) : Bool :=
  match f.engine, rettKind f with
  | none, .load _ _ _ | none, .atomic _ _ | none, .bow _ => true
  | _, _ => false

/-- A handler's replacements with those of a mask set (R466). -/
def Handler.replace (h : Handler) (m : BitVec 64) (x : BitVec 128) : Handler :=
  { h with repl := (threadsOf m).foldl (fun r t => FMap.insert r t x) h.repl, skip := h.skip &&& ~~~m }

/-- A handler's skips with those of a mask set (R466). -/
def Handler.skipThreads (h : Handler) (m : BitVec 64) : Handler :=
  { h with repl := FMap.filterKV (fun t _ => !m.getLsbD t) h.repl, skip := h.skip ||| m }

/-- Put a handler context back. -/
def State.setHandler (s : State) (hid : Nat) (h : Handler) : State := { s with handlers := FMap.insert s.handlers hid h }

/-- The 16 bytes of a quad of thread t (R377). -/
def Regs.readQuad (r : Regs) (t : Nat) (b : BitVec 8) : BitVec 128 :=
  ((r.readRun t b 3 ++ r.readRun t b 2) ++ (r.readRun t b 1 ++ r.readRun t b 0) : BitVec 128)

/-- ERPL (R466): it has no effect but on a load, an LDC, an AT or a BOW. -/
def execErpl (a b : BitVec 8) : State → Host.Outcome State Fault Refusal :=
  privileged (.erpl a b) (fun _ c => src64Ok c.allot false a && quadOk c.allot b)
    (fun hid h g s c =>
      let m := c.regs.read64 c.xi c.lane a &&& g.faultMask
      Done.seq (if (g.fault.map FaultInfo.replaceable).getD false then s.setHandler hid (h.replace m (c.regs.readQuad c.lane b)) else s) c)

/-- FSKIP of every faulting thread (R466). -/
def execFskipAll : State → Host.Outcome State Fault Refusal :=
  privileged .fskipAll (fun _ _ => true) (fun hid h g s c => Done.seq (s.setHandler hid (h.skipThreads g.faultMask)) c)

/-- FSKIP of the faulting threads of a mask (R466). -/
def execFskipMask (a : BitVec 8) : State → Host.Outcome State Fault Refusal :=
  privileged (.fskipMask a) (fun _ c => src64Ok c.allot false a)
    (fun hid h g s c => Done.seq (s.setHandler hid (h.skipThreads (c.regs.read64 c.xi c.lane a &&& g.faultMask))) c)

/-- HALT (R468). -/
def execHalt : State → Host.Outcome State Fault Refusal :=
  privileged .halt (fun _ _ => true) (fun _ _ g s c =>
    match g.fault with
    | some f => .next ((s.reportError c.gid 1 f.code f.pc).haltGroup c.gid)
    | none => .next (s.haltGroup c.gid))

/-! RETT (R467). -/

/-- What a replaced thread's destination receives (R466). -/
def deliver (k : RettKind) (mask : BitVec 64) (repl : FMap (BitVec 128)) (r : Regs) : Regs :=
  let low := fun (x : BitVec 128) (n : Nat) => x.toNat % 2 ^ (8 * n)
  match k with
  | .load size signed d => repl.foldl (fun r q => r.writeLoaded size signed d q.1 (low q.2 size)) r
  | .atomic size d => repl.foldl (fun r q => r.writeOld size d q.1 (low q.2 size)) r
  | .bow d => match repl with
    | q :: _ => (threadsOf mask).foldl (fun r t => r.write64 t d (BitVec.ofNat 64 (low q.2 8))) r
    | [] => r
  | _ => r

/-- The threads that RETT re-executes (R467): BOW is one event. -/
def reexecuted (k : RettKind) (mask skip : BitVec 64) (repl : FMap (BitVec 128)) : BitVec 64 :=
  let replaced := maskOf (FMap.keys repl)
  match k with
  | .store => mask &&& ~~~skip
  | .bow _ => if replaced ||| skip = 0#64 then mask else 0#64
  | _ => mask &&& ~~~replaced &&& ~~~skip

/-- The trapped split as RETT leaves it, with the registers that replacements wrote (R467). The threads that it re-executes
take the place of those that executed, under the MODE of the issue (R313, R382). -/
def Group.rettSplit (g : Group) (f : FaultInfo) (h : Handler) (rpc : BitVec 64) : Group :=
  let next := f.pc + 4#64
  let k := rettKind f
  let again := fun (m : Option (BitVec 64)) (sp : Split) => { sp with retry := m, poisonAct := f.poison, issued := m.map (fun x => ⟨f.mode, x⟩) }
  if rpc ≠ f.pc then g.resumeSplit f.entry (fun sp => sp.goto rpc)
  else if f.engine.isSome then g
  else if k = .whole then
    (if h.skip ≠ 0#64 then g.resumeSplit f.entry (fun sp => sp.goto next) else g.resumeSplit f.entry (again none))
  else
    let rt := reexecuted k f.mask h.skip h.repl &&& ~~~f.txAborted
    let g := { g with regs := deliver k f.mask h.repl g.regs }
    if rt = 0#64 then g.resumeSplit f.entry (fun sp => sp.goto next) else g.resumeSplit f.entry (again (some rt))

/-- The command of an engine fault restarts, or is cancelled where a thread is skipped (R426); a handler
that redirects the group leaves it to restart. -/
def State.rettEngine (s : State) (gid : Nat) (f : FaultInfo) (h : Handler) (rpc : BitVec 64) : State :=
  match f.engine with
  | none => s
  | some id => if h.skip ≠ 0#64 ∧ rpc = f.pc then s.cancelCommand (coreOf gid) id else s.restartCommand (coreOf gid) id

/-- Answers that reached a group while it was frozen are taken. -/
def State.resumeWaits (s : State) (gid : Nat) : State :=
  match FMap.find s.groups gid with
  | none => s
  | some g => g.table.foldl (fun s q => match q.2.wait with
    | .bow _ _ _ => s.schedule (.bowReread gid q.1)
    | .sleep _ => s.schedule (.slpWake gid q.1)
    | .call slot => s.schedule (.hcallResume (s.vfOf gid) slot)
    | _ => s) s

/-- The end of an activation (R467, R484): single-lane mode ends, the context passes on, the split resumes,
and the lanes that the fault aborted return to their TXO. -/
def State.rett (s : State) (hid gid : Nat) (g : Group) (h : Handler) (f : FaultInfo) : State :=
  let rpc := BitVec.ofNat 64 (ofBytesLE ((s.core (coreOf gid)).getTrap (recordOff (slotOf gid) + 0x10) 8))
  let s := s.setGroup gid (g.rettSplit f h rpc)
  let s := (s.leaveHandler hid gid).rettEngine gid f h rpc
  let s := if f.txAborted = 0#64 then s else s.modGroup gid (fun g => g.eject f.txAborted)
  (s.resumeWaits gid).takeEngFault gid

/-- RETT once the handler's writes to other packages are released. -/
def rettBody (hid : Nat) (h : Handler) (s : State) (c : Ctx) : Done :=
  match FMap.find s.groups c.gid with
  | none => .next s
  | some g =>
    match g.fault with
    | some f => .next (s.rett hid c.gid g h f)
    | none => .next (s.leaveHandler hid c.gid)

/-- RETT (R467): a release (R246, R259). -/
def execRett : State → Host.Outcome State Fault Refusal :=
  privileged .rett (fun _ _ => true) (fun hid h _ s c => withRelease (rettBody hid h) s c)

/-! Waiting. -/

/-- YLD (R469): the other ready groups of the quadrant issue first, within 64 of its free ticks. -/
def execYld : State → Host.Outcome State Fault Refusal :=
  issue .yld false (fun s c =>
    let l := s.readyOthers c.gid
    Done.seq (if l.isEmpty then s else s.modGroup c.gid (fun g => { g with yieldSet := l, yieldDue := some (s.freeNow (hidOf c.gid) + 64) })) c)

/-- YLD_EXPIRE (R469). -/
def execYldExpire (gid : Nat) (s : State) : Host.Outcome State Fault Refusal :=
  match FMap.find s.groups gid with
  | none => .next s
  | some g =>
    let due := match g.yieldDue with
      | some t => g.yieldSet.isEmpty || decide (t ≤ s.freeNow (hidOf gid))
      | none => false
    .next (if due then s.setGroup gid { g with yieldSet := [], yieldDue := none } else s)

/-- BOW_REREAD (R404): a waiting BOW of a group that runs reads its barrier object again. -/
def execBowReread (gid entry : Nat) (s : State) : Host.Outcome State Fault Refusal :=
  match FMap.find s.groups gid, s.ctxOf (some (.split gid entry)) with
  | some g, some c =>
    match c.split.wait with
    | .bow _ _ w =>
      if g.status = .running ∧ s.switching gid = false then
        finish c w (bowBody w (w.extractLsb' 16 8) (w.extractLsb' 8 8) (w.extractLsb' 0 8) s c)
      else .next s
    | _ => .next s
  | _, _ => .next s

/-- SLP (R469): a = 0 does not wait. -/
def execSlp (a : BitVec 8) : State → Host.Outcome State Fault Refusal :=
  issue (.slp a) false (fun s c =>
    if !src32Ok c.allot false a then Done.early s c fIllegalReg
    else if c.accWait (touchesAcc 1 a) then .stay s c .gridOps
    else
      let n := (c.regs.read32 c.xi c.lane a).toNat
      if n = 0 then Done.seq s c else .stay s c (.sleep (s.tick + n)))

/-- SLP_WAKE (R469): a frozen group's split goes on when the group runs again (R183). -/
def execSlpWake (gid entry : Nat) (s : State) : Host.Outcome State Fault Refusal :=
  match FMap.find s.groups gid, s.ctxOf (some (.split gid entry)) with
  | some g, some c => match c.split.wait with
    | .sleep t => .next (if g.status = .running ∧ t ≤ s.tick then s.retire c c (c.split.pc + 4#64) else s)
    | _ => .next s
  | _, _ => .next s

/-! Flashback points. -/

/-- A point is refused (R470): the group is diverged, or a thread has an open transaction or the lock. -/
def Group.pointRefused (g : Group) : Bool :=
  decide (1 < g.liveSplits) || g.tx.any (fun q => decide (q.2.depth ≠ 0) || q.2.irrev)

/-- What FPT records at its point (R470). -/
def Group.recordPoint (g : Group) (c : Ctx) (live : BitVec 128) : FpState :=
  let rec_ := if c.extv = 0#24 then none else some (c.split.pc + 4#64 * sext64 c.extv)
  { g.fp with valid := true, isOpen := true, cause := 0, count := (g.fp.count + 1) % 2 ^ 24, point := c.split.pc + 4#64, recipePc := rec_,
              live := live &&& (if 128 ≤ g.ident.allot then ~~~0#128 else (BitVec.twoPow 128 g.ident.allot - 1#128)),
              mask := c.split.mask, mode := c.regs.mode, cvmode := c.regs.cvmode, srseed := c.seed, batch := g.batch,
              barG := g.barG, bargG := g.bargG, filter := 0#512 }

/-- FPT (R470). -/
def execFpt (a : BitVec 8) : State → Host.Outcome State Fault Refusal :=
  issue (.fpt a) false (withGroup (fun g s c =>
    if !quadOk c.allot a then Done.early s c fIllegalReg
    else if c.accWait (touchesAcc 4 a) then .stay s c .gridOps
    else if g.pointRefused then
      Done.seq (s.modGroup c.gid (fun g => { g with fp := { g.fp with valid := true, isOpen := false, cause := 6 } })) c
    else
      Done.seq (s.modGroup c.gid (fun g => { g with fp := g.recordPoint c (c.regs.readQuad c.lane a), fpgrid := g.grid })) c))

/-- FPRET (R472): a recipe ends at the recorded point. -/
def execFpret : State → Host.Outcome State Fault Refusal :=
  issue .fpret false (withGroup (fun g s c =>
    if !g.fp.recipe then Done.early s c fPriv
    else
      let s := s.modGroup c.gid (fun g => { g with grid := g.fpgrid, fp := { g.fp with recipe := false } })
      .retire s { c with seed := g.fp.srseed, regs := { c.regs with mode := g.fp.mode, cvmode := g.fp.cvmode } } g.fp.point))

end Sys2Proof.Machine
end

