-- ==== Sys2Proof/Machine/Place.lean ====
section
/-! DEFINITION. Placement: Delta's batches, the die dispatchers, block placement and group entry (R71,
R121 to R134, R166, R167). Only this package's dies take part (log 17). -/

namespace Sys2Proof.Machine

/-! Cores and credit. -/

/-- The VF that holds a local index of a partition. -/
def State.vfByIndex (s : State) (p l : Nat) : Option Nat :=
  (s.vfs.find? (fun q => q.2.assigned && decide (q.2.part = p ∧ q.2.index = l))).map (fun q => q.1)

/-- The VF that runs in a partition, if one holds its clusters (R134, R146). -/
def State.runningVf (s : State) (p : Nat) : Option Nat :=
  if (s.part p).active && (s.part p).switch.isNone then s.vfByIndex p (s.part p).running else none

/-- The logical core map word of a cluster (R41). -/
def State.mapWord (s : State) (cl : Nat) : Nat := FMap.getD s.boot.coreMap 0 cl
/-- The number of present logical cores of a cluster (R41). -/
def State.mapCount (s : State) (cl : Nat) : Nat := if bitAt (s.mapWord cl) 63 then field (s.mapWord cl) 36 4 else 0

/-- A logical core is present (R41). -/
def State.corePresent (s : State) (core : Nat) : Bool :=
  let w := s.mapWord (clusterOf core)
  bitAt w 63 && decide (field w (4 * (core % 9)) 4 ≠ 0xF) && !(s.core core).lost

/-- The partition's clusters on a die. -/
def State.dieClusters (s : State) (p die : Nat) : List Nat := (s.part p).clusters.filter (fun c => decide (c / 16 = die))

/-- The present logical cores of a cluster, in order. -/
def State.clusterCores (s : State) (cl : Nat) : List Nat := ((List.range 9).map (fun k => cl * 9 + k)).filter s.corePresent

/-- The present cores of a partition on a die, in order (R126). -/
def State.dieCores (s : State) (p die : Nat) : List Nat := ((s.dieClusters p die).map s.clusterCores).flatten

/-- The free slots of a quadrant. -/
def State.freeSlots (s : State) (hid : Nat) : List Nat :=
  ((List.range 16).map (fun i => hid / 4 * 64 + hid % 4 * 16 + i)).filter (fun g => (FMap.find s.groups g).isNone)

/-- The free group slots of a core. -/
def State.coreFree (s : State) (core : Nat) : Nat := ((List.range 4).map (fun q => (s.freeSlots (core * 4 + q)).length)).foldl (fun a b => a + b) 0

/-- The Pool units of the resident blocks of a core (R124). -/
def State.usedUnits (s : State) (core : Nat) : Nat :=
  (s.blocks.filter (fun q => decide (q.2.core = core) && !q.2.saved)).foldl (fun n q => n + q.2.units) 0

/-- Groups of a block of `n` that fall to a quadrant with first quadrant q0 (R125). -/
def groupsIn (n q0 q : Nat) : Nat := ((List.range n).filter (fun g => decide ((q0 + g) % 4 = q))).length

/-- A block that a switch has saved from the core belongs to the VF that runs now: its slots and units wait for it (R156). -/
def State.restorePending (s : State) (core : Nat) : Bool :=
  s.blocks.any (fun q => q.2.saved && decide (q.2.core = core) && (match FMap.find s.grids q.2.grid with
    | some g => decide (s.runningVf (s.vf g.vf).part = some g.vf)
    | none => false))

/-- The first quadrant with which a core admits a block (R124, R125), if it admits one (R43). -/
def State.admits (s : State) (core : Nat) (h : LaunchHdr) : Option Nat :=
  let c := s.core core
  if c.scan || c.lost || s.restorePending core || decide (640 < 8 + s.usedUnits core + h.units) then none
  else ((List.range 4).map (fun i => (c.qnext + i) % 4)).find? (fun q0 =>
    (List.range 4).all (fun q => decide (groupsIn h.groups q0 q ≤ (s.freeSlots (core * 4 + q)).length)))

/-- A batch belongs to a VF. -/
def State.batchOf (s : State) (vf : Nat) (b : Batch) : Bool :=
  match FMap.find s.grids b.grid with
  | some g => decide (g.vf = vf)
  | none => false

/-- The key of a die queue. -/
def dieKey (p die : Nat) : Nat := p * 4 + die

/-- The batches of a die queue. -/
def State.dieQueue (s : State) (p die : Nat) : List Batch := FMap.getD s.place.dieQueues [] (dieKey p die)

/-- Change a die queue. -/
def State.setDieQueue (s : State) (p die : Nat) (l : List Batch) : State :=
  { s with place := { s.place with dieQueues := FMap.setD s.place.dieQueues [] (dieKey p die) l } }

/-- A die's credit (R132): free slots less the groups of the running VF's batches queued to it. -/
def State.credit (s : State) (p die vf : Nat) : Nat :=
  (((s.dieCores p die).map s.coreFree).foldl (fun a b => a + b) 0) - ((s.dieQueue p die).filter (s.batchOf vf)).foldl (fun n b => n + b.groups) 0

/-- Some cluster of a list has room for a gang, as far as its count goes (R127). -/
def State.gangFits (s : State) (l : List Nat) (gang : Nat) : Bool := l.any (fun cl => decide (gang ≤ s.mapCount cl))

/-- A grid ends with status PLACEMENT (R127). -/
def State.placementError (s : State) (grid : Nat) : State := s.schedule (.contextErrorReport grid 4 0 0 0 0)

/-! Delta. -/

/-- The first grid of a VF with blocks that are not cut (R131). -/
def State.nextGrid (s : State) (vf : Nat) : Option (Nat × Grid) :=
  s.grids.find? (fun q => decide (q.2.vf = vf ∧ q.2.nextBlock < q.2.hdr.total) && q.2.err.isNone)

/-- The next batch of a grid (R131). -/
def cutBatch (k : Nat) (g : Grid) : Batch :=
  let gang := max 1 g.hdr.gang
  let per := max 1 (g.hdr.groups * gang)
  let n := min (max 1 (64 / per)) ((g.hdr.total - g.nextBlock) / gang)
  ⟨k, g.nextBlock, n * gang, n * per⟩

/-- The batch that Delta gives out next: returned ones first (R127, R131). -/
def State.nextBatch (s : State) (vf : Nat) : Option (Batch × Bool) :=
  match s.place.delta.find? (s.batchOf vf) with
  | some b => some (b, true)
  | none => (s.nextGrid vf).map (fun q => (cutBatch q.1 q.2, false))

/-- The gang of a batch's grid. -/
def State.gangOf (s : State) (b : Batch) : Nat :=
  match FMap.find s.grids b.grid with
  | some g => max 1 g.hdr.gang
  | none => 1

/-- The die that receives a batch (R132): the first after the last recipient with clusters and credit. -/
def State.chooseDie (s : State) (p vf : Nat) (b : Batch) : Option Nat :=
  let last := FMap.getD s.place.lastDie 3 p
  ((List.range 4).map (fun i => (last + 1 + i) % 4)).find? (fun d =>
    s.gangFits (s.dieClusters p d) (s.gangOf b) && decide (b.groups ≤ s.credit p d vf))

/-- DELTA_BATCH_HANDOUT (R127, R131, R132, R134). The dies see the queue that has grown: an idle one may steal from it
(R133). -/
def execDeltaBatchHandout (part : Nat) (s : State) : Host.Outcome State Fault Refusal :=
  match s.runningVf part with
  | none => .next (s.schedule (.switchIn part))
  | some vf =>
    match s.nextBatch vf with
    | none => .next s
    | some (b, returned) =>
      if !s.gangFits (s.part part).clusters (s.gangOf b) then .next (s.placementError b.grid)
      else match s.chooseDie part vf b with
        | none => .next s
        | some d =>
          let s := if returned then { s with place := { s.place with delta := s.place.delta.erase b } }
            else s.modGrid b.grid (fun g => { g with nextBlock := g.nextBlock + b.blocks })
          let s := s.setDieQueue part d (s.dieQueue part d ++ [b])
          let s := { s with place := { s.place with lastDie := FMap.setD s.place.lastDie 3 part d } }
          .next (s.wakePlacement part)

/-! Group entry (R71). -/

/-- The role of block-local group g, and its number in the role (R71). -/
def roleAt : List RoleEnt → Nat → Nat → Nat × RoleEnt × Nat
  | [], r, g => (r, ⟨0, 16, 1, 1⟩, g)
  | e :: l, r, g => if g < e.groups then (r, e, g) else roleAt l (r + 1) (g - e.groups)

/-- The split stack depth of a block's groups (R167). -/
def LaunchHdr.depth (h : LaunchHdr) : Nat :=
  min 64 ((h.regUnits * 4096 - (h.roles.map (fun r => r.groups * r.regs * 256)).foldl (fun a b => a + b) 0) / (16 * max 1 h.groups))

/-- SRSEED at entry (R71). -/
def entrySeed (seed index : Nat) : Word :=
  let x := BitVec.ofNat 32 seed ^^^ BitVec.ofNat 32 (index * 0x9E3779B9)
  if x = 0#32 then 1#32 else x

/-- The registers at entry: the parameter block in v0:v1 and the stack top in v2:v3 of every thread. -/
def entryRegs (param : Nat) (top : Nat → Nat) : Regs :=
  (List.range 64).foldl (fun r t => (r.write64 t 0#8 (BitVec.ofNat 64 param)).write64 t 2#8 (BitVec.ofNat 64 (top t)))
    ⟨[], [], [], 0#32, cvmodeReset⟩

/-- A group at entry (R71): one split of all threads at code + role.entry. -/
def entryGroup (blockId age : Nat) (h : LaunchHdr) (linear g slot : Nat) (tvec : Word) : Group :=
  let q := roleAt h.roles 0 g
  let top := fun t => if h.ssize = 0 then 0 else h.stack + (slot * 64 + t + 1) * h.ssize
  { status := .running
    ident := ⟨blockId, q.1, q.2.2, g, q.2.1.regs, h.depth, decide (q.2.1.lock = 4), age⟩
    regs := entryRegs h.param top
    table := [(0, ⟨~~~0#64, BitVec.ofNat 64 (h.code + q.2.1.entry), none, .clear, .none, none, false, 0, none⟩)]
    stack := [], births := 1, lastSplit := 0, parents := []
    srseed := entrySeed h.seed (linear * h.groups + g)
    txlim := 8, stklim := h.ssize / 16, tvec := tvec, grid := false, fpgrid := false, batch := 0, clock := none, fp := .empty
    guards := [], barG := [], bargG := [], tx := [], gridOps := [], lastG := 0, fault := none, savedFull := false, engFaults := []
    spin := .clear, links := ⟨[], [], [], []⟩, yieldDue := none, yieldSet := [], readySince := none, trapTick := 0, ejectDue := 0#64 }

/-- The TVEC word of a grid on a core (R464): read through the constant cache; 0 where the read fails.
The answer of a hypervisor is waited for. -/
def State.entryTvec (s : State) (core grid : Nat) (g : Grid) : Except AssistNeed Word × State :=
  let word := fun (n : Nat) => BitVec.ofNat 32 n &&& 0xFFFFFFFC#32
  if g.hdr.csize = 0 then (.ok 0#32, s)
  else match FMap.find (s.core core).cc (grid * 1024) with
  | some d => (.ok (word (field d.toNat 0 32)), s)
  | none =>
    let p := (s.vf g.vf).part
    match resolveOnce ⟨p, g.vf, some core, dieOf core, s.turn.cur⟩ g.hdr.cbank 1 s with
    | (.error (.assist x), s) => (.error x, s)
    | (.error (.fault _), s) => (.ok 0#32, s)
    | (.ok (.remote pa, _), s) =>
      let q := (s.sendRemote g.vf 0 pa 4 [] false).farRead 4
      (.ok (if q.1.refused || q.1.poison then 0#32 else word (ofBytesLE q.1.bytes)), q.2)
    | (.ok (.own off, _), s) =>
      match s.toPost p off 64 with
      | some sec => (.error (.contain sec), s)
      | none => match s.constRead core grid p 0 off 0 4 with
      | (some b, s) => (.ok (word (ofBytesLE b)), s)
      | (none, s) => (.ok 0#32, s)

/-- The slots of a block's groups (R125): block-local group g in quadrant (q0 + g) mod 4, lowest first. -/
def State.blockSlots (s : State) (core q0 n : Nat) : List Nat :=
  ((List.range n).foldl (fun (acc : List Nat) g =>
    match (s.freeSlots (core * 4 + (q0 + g) % 4)).find? (fun k => !acc.contains k) with
    | some k => acc ++ [k]
    | none => acc) [])

/-- The resident slot s of R71. -/
def State.residentSlot (s : State) (p gid : Nat) : Nat :=
  ((s.part p).clusterIndex (clusterOf (coreOf gid)) * 9 + coreOf gid % 9) * 64 + slotOf gid

/-- Place one block on a core that admits it (R123, R125): what was written before its grid started is seen (R263). -/
def State.placeBlock (s : State) (core q0 gridId linear : Nat) (g : Grid) (tvec : Word) : State :=
  let h := g.hdr
  let p := (s.vf g.vf).part
  let q := s.fresh
  let s := q.2
  let gids := s.blockSlots core q0 h.groups
  let b : Block :=
    { grid := gridId, linear := linear, core := core, q0 := q0, gids := gids, scSize := 4096 * h.scUnits, tiSize := 4096 * h.tiUnits,
      units := h.units, sc := [], ti := [], poison := [], barP := [], barMask := [], saved := false, queue := [] }
  let s := { s with blocks := FMap.insert s.blocks q.1 b }
  let s := (gids.mapIdx (fun i k => (i, k))).foldl (fun s x =>
    s.setGroup x.2 (entryGroup q.1 s.tick h linear x.1 (s.residentSlot p x.2) tvec)) s
  let s := s.modCore core (fun c => { c with qnext := (q0 + h.groups) % 4, l1 := [], l1From := s.turn.nextId })
  s.modGrid gridId (fun x => { x with tstart := some (x.tstart.getD s.tick) })

/-! The die dispatchers. -/

/-- The core at the pointer of a die dispatcher (R126): a core that has left gives way to the next. -/
def State.diePointer (s : State) (p die : Nat) : Option Nat :=
  let cores := s.dieCores p die
  let at_ := FMap.getD s.place.diePtr (((s.dieClusters p die).headD 0) * 9) (dieKey p die)
  match cores.find? (fun c => decide (at_ ≤ c)) with
  | some c => some c
  | none => cores.head?

/-- The pointers of a partition after its clusters or their cores have changed (R126): a die that has got its first
cluster starts at it, and one whose core has gone moves on. -/
def State.settlePointers (s : State) (p : Nat) : State :=
  (List.range 4).foldl (fun (s : State) d =>
    let m := s.place.diePtr
    let m := if (s.dieClusters p d).isEmpty then FMap.erase m (dieKey p d)
      else match s.diePointer p d with
        | some c => FMap.insert m (dieKey p d) c
        | none => m
    { s with place := { s.place with diePtr := m } }) s

/-- The map word of a cluster has changed, or a core is lost: the pointers of the partition that holds it move, and its
held batches are checked again (R126, R127, R132). -/
def State.coresChanged (s : State) (cl : Nat) : State :=
  (s.parts.filter (fun q => bitAt q.2.pclus cl)).foldl (fun (s : State) q => (s.settlePointers q.1).wakePlacement q.1) s

/-- A list of cores from the pointer on, wrapping round. -/
def rotateFrom (l : List Nat) (x : Nat) : List Nat := l.filter (fun c => decide (x ≤ c)) ++ l.filter (fun c => decide (c < x))

/-- The cores for the next gang of a grid on a die (R126). -/
def State.chooseCores (s : State) (p die : Nat) (h : LaunchHdr) : Option (List Nat) :=
  match s.diePointer p die with
  | none => none
  | some ptr =>
    let gang := max 1 h.gang
    if gang = 1 then ((rotateFrom (s.dieCores p die) ptr).find? (fun c => (s.admits c h).isSome)).map (fun c => [c])
    else (rotateFrom (s.dieClusters p die) (clusterOf ptr)).findSome? (fun cl =>
      let ok := (s.clusterCores cl).filter (fun c => (s.admits c h).isSome)
      if gang ≤ ok.length then some (ok.take gang) else none)

/-- Data word 1 of a placement request (R128): cluster and cores. -/
def proposalWord (cores : List Nat) : Nat :=
  clusterOf (cores.headD 0) + (List.range 9).foldl (fun n i => n + (match cores[i]? with
    | some c => c % 9
    | none => 0xF) * 2 ^ (4 * i + 6)) 0

/-- The cores that a proposal word names for a gang. -/
def proposalCores (gang w : Nat) : List Nat := (List.range gang).map (fun i => field w 0 6 * 9 + field w (4 * i + 6) 4)

/-- The batches of a die queue after the gang at the head of a VF's batches is placed. -/
def takeGang (gang per : Nat) (test : Batch → Bool) : List Batch → List Batch
  | [] => []
  | b :: l =>
    if test b then
      (if b.blocks ≤ gang then l else ⟨b.grid, b.first + gang, b.blocks - gang, b.groups - per⟩ :: l)
    else b :: takeGang gang per test l

/-- The pointer moves past a core (R126). -/
def State.movePointer (s : State) (p die core : Nat) : State :=
  let l := rotateFrom (s.dieCores p die) (core + 1)
  { s with place := { s.place with diePtr := FMap.insert s.place.diePtr (dieKey p die) (l.headD core) } }

/-- Each core's TVEC word, or an answer to wait for. -/
def entryTvecs (grid : Nat) (g : Grid) : List Nat → State → Except AssistNeed (List (Nat × Word)) × State
  | [], s => (.ok [], s)
  | c :: r, s =>
    match s.entryTvec c grid g with
    | (.error x, s) => (.error x, s)
    | (.ok w, s) => match entryTvecs grid g r s with
      | (.error x, s) => (.error x, s)
      | (.ok l, s) => (.ok ((c, w) :: l), s)

/-- Where the cores chosen for a VF's gang on a die are kept (R128). -/
def chosenKey (p die vf : Nat) : Nat := vf * 256 + dieKey p die

/-- Place the gang at the head of a die queue on the chosen cores: a hypervisor's choice stands while a TVEC word is
waited for (R128). -/
def State.placeGang (s : State) (p die vf : Nat) (b : Batch) (g : Grid) (cores : List Nat) : State :=
  let keep := if s.assistOn p 1 then FMap.insert s.place.chosen (chosenKey p die vf) (b.grid, b.first, cores) else s.place.chosen
  match entryTvecs b.grid g cores s with
  | (.error x, s) => ({ s with place := { s.place with chosen := keep } }).unitAssist (s.whoVf vf) x (.blockPlacement die p)
  | (.ok l, s) =>
    let gang := max 1 g.hdr.gang
    let s := (l.mapIdx (fun i q => (i, q))).foldl (fun s x =>
      match s.admits x.2.1 g.hdr with
      | some q0 => s.placeBlock x.2.1 q0 b.grid (b.first + x.1) g x.2.2
      | none => s) s
    let s := s.setDieQueue p die (takeGang gang (g.hdr.groups * gang) (s.batchOf vf) (s.dieQueue p die))
    let s := { s with place := { s.place with chosen := FMap.erase s.place.chosen (chosenKey p die vf) } }
    (s.movePointer p die (cores.getLastD 0)).schedule (.blockPlacement die p)

/-- A placement request of a die dispatcher that waits for its answer (R128). -/
def State.placePending (s : State) (p die : Nat) : Bool := (s.part p).assist.any (fun q => decide (q.2.fn = 1 ∧ q.2.entry = die))

/-- The cores that an answer has chosen for a gang, if they still admit it (R128). -/
def State.chosenCores (s : State) (p die vf : Nat) (b : Batch) (h : LaunchHdr) : Option (List Nat) :=
  match FMap.find s.place.chosen (chosenKey p die vf) with
  | some (grid, first, cores) =>
    if grid = b.grid ∧ first = b.first ∧ cores ≠ [] ∧ cores.all (fun c => s.corePresent c && (s.admits c h).isSome) = true then some cores else none
  | none => none

/-- The other dies of a partition after a die, in the order of R132. -/
def State.otherDies (s : State) (p die : Nat) : List Nat :=
  ((List.range 3).map (fun i => (die + 1 + i) % 4)).filter (fun d => !(s.dieClusters p d).isEmpty)

/-- The batch that an idle die of a partition can steal, and from which die (R133): each victim's last batch, where it is
not at the head, fits the free slots, and is one that the requester's clusters can hold at all (log 72). -/
def State.stealable (s : State) (p die vf : Nat) : Option (Nat × Batch) :=
  let free := ((s.dieCores p die).map s.coreFree).foldl (fun a b => a + b) 0
  if (s.dieQueue p die).any (s.batchOf vf) ∨ free = 0 then none
  else (s.otherDies p die).findSome? (fun d =>
    let l := (s.dieQueue p d).filter (s.batchOf vf)
    match l.getLast? with
    | some b => if 2 ≤ l.length ∧ b.groups ≤ free ∧ s.gangFits (s.dieClusters p die) (s.gangOf b) = true then some (d, b) else none
    | none => none)

/-- BLOCK_PLACEMENT (R123 to R128, R133): the gang at the head of a die queue. -/
def execBlockPlacement (die part : Nat) (s : State) : Host.Outcome State Fault Refusal :=
  match s.runningVf part with
  | none => .next s
  | some vf =>
    if s.placePending part die then .next s
    else match (s.dieQueue part die).find? (s.batchOf vf) with
      | none =>
        .next (if (s.stealable part die vf).isSome then s.schedule (.stealRequest die part) else s)
      | some b => match FMap.find s.grids b.grid with
        | none => .next s
        | some g =>
          let gang := max 1 g.hdr.gang
          if !s.gangFits (s.part part).clusters gang then .next (s.placementError b.grid)
          else if !s.gangFits (s.dieClusters part die) gang then .next (s.schedule (.batchReturn die part))
          else match s.chosenCores part die vf b g.hdr, s.chooseCores part die g.hdr with
            | some cores, _ => .next (s.placeGang part die vf b g cores)
            | none, none => .next s
            | none, some cores =>
              if s.assistOn part 1 then
                let s := { s with place := { s.place with chosen := FMap.insert s.place.chosen (chosenKey part die vf) (b.grid, b.first, []) } }
                let r : AssistReq := ⟨1, 0, [b.first % 2 ^ 32 + vf % 2 ^ 10 * 2 ^ 32 + gang * 2 ^ 48, proposalWord cores], 0, die, some (.blockPlacement die part)⟩
                .next (s.postOrHold part r (.blockPlacement die part))
              else .next (s.placeGang part die vf b g cores)

/-- The cores of an answer can be used (R128). -/
def State.answerFits (s : State) (p die gang : Nat) (h : LaunchHdr) (cores : List Nat) : Bool :=
  let cl := clusterOf (cores.headD 0)
  decide (cores.length = gang) && cores.all (fun c => decide (clusterOf c = cl)) && (s.dieClusters p die).contains cl &&
    cores.all (fun c => s.corePresent c && (s.admits c h).isSome) && decide (cores.eraseDups = cores)

/-- Apply the answer to a placement request (R128), whose gang `place.chosen` notes, with no cores yet, for the VF that data
word 0 names: the cores are those of the answer, or the proposal. The gang is placed where it is still at the head; where its VF does not run
now, its choice is kept, and one whose grid is gone is dropped. -/
def State.answerPlacement (s : State) (p die status word0 word1 word2 : Nat) : State :=
  let vf := field word0 32 10
  let s := match FMap.find s.place.chosen (chosenKey p die vf) with
    | none => s
    | some (grid, first, _) => match FMap.find s.grids grid with
      | none => { s with place := { s.place with chosen := FMap.erase s.place.chosen (chosenKey p die vf) } }
      | some g =>
        let gang := max 1 g.hdr.gang
        let own := (List.range gang).all (fun i => decide (field word2 (4 * i + 6) 4 ≤ 8))
        let alt := proposalCores gang word2
        let use := if status = 1 ∧ own ∧ s.answerFits p die gang g.hdr alt then alt else proposalCores gang word1
        { s with place := { s.place with chosen := FMap.insert s.place.chosen (chosenKey p die vf) (grid, first, use) } }
  s.schedule (.blockPlacement die p)

/-- BATCH_RETURN (R127): a batch that no cluster of the die can place goes back to Delta, and the queue's next batch is at
its head. Of several returned batches the last comes first (log 72). -/
def execBatchReturn (die part : Nat) (s : State) : Host.Outcome State Fault Refusal :=
  match s.runningVf part with
  | none => .next s
  | some vf => match (s.dieQueue part die).find? (s.batchOf vf) with
    | none => .next s
    | some b =>
      if s.gangFits (s.dieClusters part die) (s.gangOf b) then .next s
      else
        let s := s.setDieQueue part die ((s.dieQueue part die).erase b)
        .next (({ s with place := { s.place with delta := b :: s.place.delta } }).wakePlacement part)

/-- STEAL_REQUEST (R133): an idle die takes the last batch of the next die that gives one up. -/
def execStealRequest (die part : Nat) (s : State) : Host.Outcome State Fault Refusal :=
  match s.runningVf part with
  | none => .next s
  | some vf =>
    match s.stealable part die vf with
    | none => .next s
    | some (d, b) =>
      let s := s.setDieQueue part d ((s.dieQueue part d).reverse.erase b).reverse
      .next ((s.setDieQueue part die (s.dieQueue part die ++ [b])).schedule (.blockPlacement die part))

/-! Group events of the scheduler. -/

/-- SPLIT_EXCHANGE (R142). -/
def execSplitExchange (gid : Nat) (s : State) : Host.Outcome State Fault Refusal := .next (s.modGroup gid (fun g => g.exchange))

/-- The watch set of a group is empty (R144): it is while its first pass runs. -/
def SpinState.watchesNone (x : SpinState) : Bool := x.watch.isEmpty || !x.passDone

/-- DEMOTION_TIMEOUT (R144): with an empty watch set, demotion ends 1,024 free ticks after it began; the whole detector is
then clear (log 64). -/
def execDemotionTimeout (gid : Nat) (s : State) : Host.Outcome State Fault Refusal :=
  match FMap.find s.groups gid with
  | none => .next s
  | some g =>
    if g.spin.demoted && g.spin.watchesNone && decide (1024 ≤ s.freeNow (hidOf gid) - g.spin.since) then
      .next (s.setGroup gid { g with spin := .clear })
    else .next s

end Sys2Proof.Machine
end

