-- ==== Sys2Proof/Machine/Switch.lean ====
section
/-! DEFINITION. Switch ticks and flashback preemption (R146 to R157, R228, R406, R471), and the save
area's images (R473 to R475, log 19, log 56). -/

namespace Sys2Proof.Machine

/-! The switch table. -/

/-- A range of memory lies wholly in the hypervisor's stripes (R147). -/
def State.areaOwned (s : State) (pa n : Nat) : Bool :=
  let off := offOf pa
  decide (pa < 2 ^ 51 ∧ pkgOf pa = s.boot.pkg ∧ off + n ≤ tierEnd) &&
    (List.range (n / 2 ^ 23 + 2)).all (fun i => decide (s.stripe (min (off + i * 2 ^ 23) (off + n - 1)) = 0xFD))

/-- Cores of a partition's clusters on this package: C of R147. -/
def Partition.coreCount (p : Partition) : Nat := 9 * p.clusters.length

/-- The save area of a local VF index (R147): its base and its size in bytes, if the entry is valid. -/
def State.saveArea (s : State) (p l : Nat) : Option (Nat × Nat) :=
  let x := s.part p
  let at_ := x.stbase * 4096 + 16 * l
  if x.stbase = 0 then none
  else match s.hyperOff at_ 16 with
    | none => none
    | some off =>
      let w0 := s.wordAt off 8
      let w1 := s.wordAt (off + 8) 8
      let base := field w0 12 40 * 4096
      if bitAt w0 0 ∧ field w0 1 11 = 0 ∧ field w0 52 12 = 0 ∧ w1 < 2 ^ 32 ∧ x.coreCount * 656 ≤ w1 ∧ s.areaOwned base (w1 * 4096) then
        some (base, w1 * 4096)
      else none

/-- The switch unit's read of the entry is refused (R93). -/
def State.entryRefused (s : State) (p l : Nat) : Bool :=
  decide ((s.part p).stbase ≠ 0) && (s.hyperOff ((s.part p).stbase * 4096 + 16 * l) 16).isNone

/-- A group of a block has not exited. -/
def State.blockLive (s : State) (vf : Nat) (b : Block) : Bool :=
  b.gids.any (fun k => ((if b.saved then FMap.find s.savedArea (savedKey vf k) else FMap.find s.groups k).map (fun g => decide (g.status ≠ .exited))).getD false)

/-- A started grid has groups that have not exited (R148): of blocks on cores or in the save area, or not yet placed. -/
def State.gridLive (s : State) (k : Nat) (g : Grid) : Bool :=
  decide (g.nextBlock < g.hdr.total) || s.place.delta.any (fun b => decide (b.grid = k)) ||
    s.place.dieQueues.any (fun q => q.2.any (fun b => decide (b.grid = k))) || s.blocks.any (fun q => decide (q.2.grid = k) && s.blockLive g.vf q.2)

/-- A VF has work (R148). -/
def State.hasWork (s : State) (vf : Nat) : Bool :=
  let v := s.vf vf
  s.grids.any (fun q => decide (q.2.vf = vf) && s.gridLive q.1 q.2) || (v.en && !v.stopped && decide (v.lqhead ≠ v.lqtail)) || !v.dlq.isEmpty

/-- The next VF with work after a local index, in ascending order and wrapping round (R148): its index.
The index itself is tried last. -/
def State.nextWork (s : State) (p l : Nat) : Option Nat :=
  ((List.range 256).map (fun i => (l + 1 + i) % 256)).find? (fun k =>
    match s.vfByIndex p k with
    | some vf => s.hasWork vf && !(s.vf vf).resetting
    | none => false)

/-! Saving. -/

/-- The groups of a VF on a die. -/
def State.dieGroups (s : State) (vf die : Nat) : List Nat :=
  (s.groups.filter (fun q => decide (dieOf (coreOf q.1) = die ∧ s.vfOf q.1 = vf))).map (fun q => q.1)

/-- No operation of the group is outstanding, its writes to other packages are performed (R269), and it runs no handler
(R150, R157). -/
def Group.quiet (g : Group) : Bool :=
  decide (g.status ≠ .handler) && g.gridOps.isEmpty && g.links.remote.isEmpty && g.links.flush.isEmpty && g.links.written.isEmpty

/-- The group's writes to other packages are still to be flushed before its die is quiet (R269). -/
def Group.flushDue (g : Group) : Bool := decide (g.status ≠ .handler) && !g.links.written.isEmpty

/-- Every group of a VF on a die can be rewound or saved. -/
def State.dieQuiet (s : State) (vf die : Nat) : Bool :=
  (s.dieGroups vf die).all (fun k => match FMap.find s.groups k with
    | some g => g.quiet
    | none => true)

/-- A die of a switch has something to do: markers to send, or, when all is quiet, its save (R149, R269). -/
def State.dieActs (s : State) (vf die : Nat) : Bool :=
  s.dieQuiet vf die || (s.dieGroups vf die).any (fun k => ((FMap.find s.groups k).map (fun g => g.flushDue)).getD false)

/-- The groups of a VF on a die send markers for their writes to other packages (R269). -/
def State.flushDie (s : State) (vf die : Nat) : State :=
  (s.dieGroups vf die).foldl (fun s k => match FMap.find s.groups k with
    | some g => if g.flushDue then s.releaseTrapped k g else s
    | none => s) s

/-- What a wait becomes in a full save (R157, R404, R406, R469): a JOIN, a deadline, a call and a weir's
answer are kept; every other waiting instruction is not issued. -/
def Wait.saved (w : Wait) : Wait :=
  match w with
  | .join => .join
  | .sleep t => .sleep t
  | .call k => .call k
  | .answered v => .answered v
  | _ => .none

/-- A split as a full save leaves it: an instruction that waits after its issue is issued anew, but for the threads and under
the MODE of a re-execution (R157, R382). -/
def Split.saved (sp : Split) : Split := { sp with wait := sp.wait.saved, issued := if sp.retry.isSome then sp.issued else none }

/-- A group saved in full (R157). -/
def Group.saveFull (g : Group) : Group :=
  let keep := Split.saved
  { g with status := .saved, savedFull := true, table := FMap.mapVals (fun _ sp => keep sp) g.table, stack := g.stack.map keep,
           spin := .clear, clock := none, yieldDue := none, yieldSet := [], readySince := none }

/-- The main-file registers of a live mask (R155). -/
def liveRegs (v : FMap Word) (live : BitVec 128) : FMap Word := FMap.filterKV (fun k _ => live.getLsbD (k / 64)) v

/-- A rewound group (R155, R156, R470, R471), as it starts on switch-in. -/
def Group.rewind (g : Group) : Group :=
  let f := g.fp
  let sp : Split := ⟨f.mask, f.recipePc.getD f.point, none, .clear, .none, none, false, 0, none⟩
  { g with status := .saved, savedFull := false, regs := ⟨liveRegs g.regs.v f.live, [], [], f.mode, f.cvmode⟩, srseed := f.srseed, grid := g.fpgrid,
           table := [(0, sp)], stack := [], births := 1, parents := [], lastSplit := 0, batch := f.batch, barG := f.barG, bargG := f.bargG,
           fp := { f with recipe := f.recipePc.isSome, filter := 0#512 },
           spin := .clear, clock := none, yieldDue := none, yieldSet := [], readySince := none }

/-- The group's region is open (R153): a trapped group is saved in full (R150), and so is a lock set with a member that has
exited, whatever its region (log 73). -/
def Group.rewindable (g : Group) : Bool := g.fp.isOpen && decide (g.status = .running)

/-- A group is rewound (R153): with lock = 4, only if every member's region is open. -/
def State.rewinds (s : State) (gid : Nat) : Bool :=
  (s.lockSet gid).all (fun k => match FMap.find s.groups k with
    | some g => g.rewindable
    | none => true)

/-- A group as a switch tick saves it; one that has exited stays so. -/
def State.savedForm (s : State) (gid : Nat) (g : Group) : Group :=
  if g.status = .exited then g else if s.rewinds gid then g.rewind else g.saveFull

/-! The images of the save area. -/

/-- The status word of a slot block (R473). -/
def Group.slotStatus (g : Group) : Nat :=
  let call := g.table.findSome? (fun q => match q.2.wait with
    | .call k => some k
    | _ => none)
  1 + (if g.savedFull then 2 else 0) + (if g.fault.isSome then 4 else 0) + (match call with
    | some k => 8 + k % 256 * 256
    | none => 0)

/-- One split entry (R474). -/
def splitImage (x : Option Split) : List Byte :=
  match x with
  | none => List.replicate 32 0#8
  | some sp =>
    let rec_ := match sp.drec with
      | some r => r
      | none => 0x7F
    bytesLE 8 sp.mask.toNat ++ bytesLE 8 (field sp.pc.toNat 2 46 + rec_ * 2 ^ 46 + (if sp.wait = .join then 2 ^ 53 else 0)) ++
      bytesLE 8 (sp.pfx.lo.toNat + (if sp.pfx.pl then 2 ^ 31 else 0) + sp.pfx.hi.toNat * 2 ^ 32 + (if sp.pfx.ph then 2 ^ 63 else 0)) ++ bytesLE 8 1

/-- The guard slots, two bits each (R473). -/
def Group.guardWord (g : Group) : Nat := (List.range 8).foldl (fun n k => n + FMap.getD g.guards 0 k % 4 * 4 ^ k) 0

/-- Sixteen counts of 32 bits. -/
def countsImage (m : FMap Nat) : List Byte := ((List.range 16).map (fun k => bytesLE 4 (FMap.getD m 0 k))).flatten

/-- The slot block of a group (R473): `first` marks block-local group 0, with the block's phase counts. -/
def slotImage (gid : Nat) (g : Group) (first : Bool) (barP bargP : FMap Nat) : List Byte :=
  let sp := (g.table.head?).map (fun q => q.2)
  let pc := match sp with
    | some x => if g.savedFull then x.pc else g.fp.point
    | none => 0#64
  let due := (g.table.findSome? (fun q => match q.2.wait with
    | .sleep t => some t
    | _ => none)).getD 0
  let w := fun (x : Word) => bytesLE 4 x.toNat
  bytesLE 8 pc.toNat ++ bytesLE 4 g.slotStatus ++ w g.regs.mode ++ w g.regs.cvmode ++ w (g.gstate gid false) ++ w g.srseed ++ bytesLE 4 g.txlim ++
    bytesLE 4 g.stklim ++ w g.tvec ++ w g.fp.word ++ bytesLE 4 g.batch ++ w g.splitsWord ++ bytesLE 4 g.guardWord ++
    bytesLE 8 g.fp.point.toNat ++ bytesLE 8 (g.fp.recipePc.getD 0#64).toNat ++ w g.fp.srseed ++ bytesLE 4 g.fp.batch ++ w g.fp.mode ++ w g.fp.cvmode ++
    bytesLE 16 g.fp.live.toNat ++ bytesLE 8 due ++ bytesLE 8 g.fp.mask.toNat ++ bytesLE 8 0 ++
    countsImage (if first then barP else []) ++ countsImage (if first then bargP else []) ++
    (List.range 128).map (fun i => match FMap.find g.parents i with
      | none => 0xFF#8
      | some none => 0x7F#8
      | some (some p) => BitVec.ofNat 8 p) ++ List.replicate 128 0#8 ++
    ((List.range 16).map (fun e => splitImage (FMap.find g.table e))).flatten

/-- The slot extension of a group (R475). -/
def slotExtension (g : Group) : List Byte :=
  ((List.range 64).map (fun t => ((List.range 8).map (fun n => bytesLE 4 (g.regs.getO n t).toNat)).flatten)).flatten ++
    ((List.range 64).map (fun t => bytesLE 4 (g.regs.getL 0 t).toNat ++ bytesLE 4 (g.regs.getL 1 t).toNat)).flatten ++
    ((List.range 64).map (fun t => bytesLE 4 (g.lane t).word.toNat)).flatten ++
    countsImage g.barG ++ countsImage g.bargG ++ countsImage g.fp.barG ++ countsImage g.fp.bargG

/-- One entry of the engine queue's image (R475). -/
def commandImage (q : EngCmd) : List Byte :=
  let w := if q.sub = 5 then q.words.take 6 ++ [lo32 (BitVec.ofNat 64 q.tc), hi32 (BitVec.ofNat 64 q.tc)] else q.words
  let head := q.sub + (match q.guard with
    | some n => n * 2 ^ 8 + 2 ^ 11
    | none => 0) + (if q.started then 2 ^ 12 else 0) + slotOf q.gid * 2 ^ 16
  (w.map (fun x => bytesLE 4 x.toNat)).flatten ++ bytesLE 4 head ++ bytesLE 4 (q.batch.getD 0) ++ bytesLE 4 q.cvmode.toNat ++ bytesLE 4 q.version ++
    bytesLE 8 q.base ++ bytesLE 8 (if q.sub = 5 then q.k else q.cpos)

/-- The k of R147: where a core's state lies in the area. -/
def State.saveIndex (s : State) (p core : Nat) : Nat :=
  ((s.part p).clusters.filter (fun c => decide (c < clusterOf core))).length * 9 + core % 9

/-- The offsets of a core's slot blocks and of its extension in the area (R473, R475). -/
def slotAt (k slot : Nat) : Nat := (k * 2624 + 2560 + slot) * 1024
def extAt (count k : Nat) : Nat := (count * 2624 + k * 200) * 1024

/-- Write bytes of the area up to its end. -/
def State.writeArea (s : State) (area : Nat × Nat) (o : Nat) (b : List Byte) : State :=
  let b := b.take (area.2 - o)
  if b.isEmpty then s else s.pokeHyper (area.1 + o) b

/-- Empty a range of the area (log 56): what is not written then reads 0, and its poison is gone. A write of the switch
unit. -/
def State.clearArea (s : State) (area : Nat × Nat) (o n : Nat) : State :=
  let lo := offOf area.1 + o
  let hi := lo + min n (area.2 - o)
  let out := fun (k unit : Nat) => decide (k * unit < lo ∨ hi ≤ k * unit)
  ({ s with ms := { s.ms with mem := FMap.filterKV (fun k _ => out k 1) s.ms.mem, poison := FMap.filterKV (fun k _ => out k 32) s.ms.poison,
                              known := FMap.filterKV (fun k _ => out k 32) s.ms.known } } : State).noteRange lo (hi - lo)

/-- Write single bytes of the area. -/
def State.writeSparse (s : State) (area : Nat × Nat) (o : Nat) (l : List (Nat × Byte)) : State :=
  l.foldl (fun s q => s.writeArea area (o + q.1) [q.2]) s

/-- The blocks of a VF on a core. -/
def State.vfBlocks (s : State) (vf core : Nat) : List (Nat × Block) :=
  s.blocks.filter (fun q => decide (q.2.core = core) && (match FMap.find s.grids q.2.grid with
    | some g => decide (g.vf = vf)
    | none => false))

/-- The unit at which the image of a block's regions begins: after the trap region and the VF's earlier blocks on
the core (log 56). -/
def State.unitBase (s : State) (vf bk core : Nat) : Nat :=
  ((s.vfBlocks vf core).filter (fun q => decide (q.1 < bk))).foldl (fun n q => n + q.2.units) 8

/-- The bytes of a block's register region that are not 0 by themselves (R167): the groups' main files, register n
of thread t at 256 n + 4 t (log 56), then their split stacks (R474). -/
def registerImage (forms : List (Nat × Group)) : List (Nat × Byte) :=
  let files := forms.foldl (fun (x : Nat × List (Nat × Byte)) (q : Nat × Group) =>
    (x.1 + q.2.ident.allot * 256,
     x.2 ++ (q.2.regs.v.map (fun (c : Nat × Word) =>
       (bytesLE 4 c.2.toNat).mapIdx (fun i b => (x.1 + 256 * (c.1 / 64) + 4 * (c.1 % 64) + i, b)))).flatten)) (0, [])
  (forms.foldl (fun (x : Nat × List (Nat × Byte)) (q : Nat × Group) =>
    (x.1 + q.2.ident.depth * 16,
     x.2 ++ ((q.2.stack.map (fun sp => (splitImage (some sp)).take 16)).flatten).mapIdx (fun i b => (x.1 + i, b)))) files).2

/-- Write the Pool image of a block (R149, R473); poisoned sectors stay so (R209). -/
def State.writePool (s : State) (area : Nat × Nat) (k u0 : Nat) (b : Block) (forms : List (Nat × Group)) : State :=
  let at_ := fun (u : Nat) => k * 2624 * 1024 + u * 4096
  let sc := at_ (u0 + (b.units - b.scSize / 4096 - b.tiSize / 4096))
  let ti := at_ (u0 + (b.units - b.tiSize / 4096))
  let s := ((s.writeSparse area (at_ u0) (registerImage forms)).writeSparse area sc b.sc).writeSparse area ti b.ti
  b.poison.foldl (fun s q => if q.2 then
      s.setPoison ((offOf area.1 + (if q.1 < 2 ^ 20 then sc + q.1 * 32 else ti + (q.1 - 2 ^ 20) * 32)) / 32) true else s) s

/-- An entry of the queue's image that holds no command (R475). -/
def unusedCommand : List Byte := List.replicate 32 0#8 ++ bytesLE 4 0xFF ++ List.replicate 28 0#8

/-- Commands in the order of their acceptance. -/
def insertCmd (q : EngCmd) : List EngCmd → List EngCmd
  | [] => [q]
  | x :: r => if q.id ≤ x.id then q :: x :: r else x :: insertCmd q r

def sortCmds (l : List EngCmd) : List EngCmd := l.foldr insertCmd []

/-- The saved commands of a VF on a core, in queue order (R475). -/
def State.savedQueue (s : State) (vf core : Nat) : List EngCmd :=
  sortCmds (((s.vfBlocks vf core).filter (fun q => q.2.saved)).map (fun q => q.2.queue)).flatten

/-- Write the image of a core's engine queue (R475). -/
def State.writeQueue (s : State) (p vf : Nat) (area : Nat × Nat) (core : Nat) : State :=
  let e := extAt (s.part p).coreCount (s.saveIndex p core) + 192 * 1024
  let cmds := s.savedQueue vf core
  (List.range 64).foldl (fun (s : State) i => s.writeArea area (e + 64 * i) (match cmds[i]? with
    | some q => commandImage q
    | none => unusedCommand)) s

/-- Write a run of bytes of the area up to its end. -/
def State.fillArea (s : State) (area : Nat × Nat) (o : Nat) (b : List Byte) : State :=
  let b := b.take (area.2 - o)
  match s.hyperOff (area.1 + o) b.length with
  | some off => if b.isEmpty then s else { s with ms := { s.ms with mem := spliceBytes s.ms.mem off b } }
  | none => s

/-- The saved blocks of a VF. -/
def State.savedBlocks (s : State) (vf : Nat) : List (Nat × Block) :=
  s.blocks.filter (fun q => q.2.saved && (match FMap.find s.grids q.2.grid with
    | some g => decide (g.vf = vf)
    | none => false))

/-- The cores of a die whose areas a save writes: one whose saved blocks are not loaded again yet keeps its area as it
stands. -/
def State.savingCores (s : State) (p vf die : Nat) : List Nat :=
  (s.dieCores p die).filter (fun c => !(s.savedBlocks vf).any (fun q => decide (q.2.core = c)))

/-- The area of a core before its images are written: the trap region's units hold unpredictable values (R473). -/
def State.openArea (s : State) (p : Nat) (area : Nat × Nat) (core : Nat) : State :=
  let k := s.saveIndex p core
  let s := (s.clearArea area (k * 2624 * 1024) (2624 * 1024)).clearArea area (extAt (s.part p).coreCount k) (200 * 1024)
  let q := s.freeBytes 32768
  q.2.fillArea area (k * 2624 * 1024) q.1

/-- Write a group's images. -/
def State.writeImages (s : State) (p : Nat) (area : Nat × Nat) (gid : Nat) (g : Group) (b : Block) : State :=
  let k := s.saveIndex p (coreOf gid)
  let barg := match FMap.find s.grids b.grid with
    | some gr => (List.range 16).foldl (fun m i => FMap.setD m 0 i (FMap.getD gr.bargP 0 (b.linear / max 1 gr.hdr.gang * 16 + i))) []
    | none => []
  let s := s.writeArea area (slotAt k (slotOf gid)) (slotImage gid g (decide (g.ident.local_ = 0)) b.barP barg)
  let e := extAt (s.part p).coreCount k
  let s := s.writeArea area (e + slotOf gid * 3072) (slotExtension g)
  s.writeArea area (e + 196 * 1024 + 64 * slotOf gid) (bytesLE 64 g.fp.filter.toNat)

/-- Save one block (R150, R153, R157): its groups leave their slots, its engine commands the queue. A group that holds the
fallback lock keeps it (R228). -/
def State.saveBlock (s : State) (p vf : Nat) (area : Nat × Nat) (bk : Nat) : State :=
  match FMap.find s.blocks bk with
  | none => s
  | some b =>
    let forms := b.gids.filterMap (fun k => (FMap.find s.groups k).map (fun g => (k, s.savedForm k g)))
    let mine := fun (q : EngCmd) => b.gids.contains q.gid
    let cmds := (s.core b.core).queue.filter mine
    let s := forms.foldl (fun (s : State) (q : Nat × Group) => s.writeImages p area q.1 q.2 b) s
    let reopen := fun (q : EngCmd) => match forms.find? (fun x => decide (x.1 = q.gid)) with
      | some x => if !x.2.savedFull && (match q.batch with
          | some n => !batchUpTo x.2.batch n
          | none => false) then { q with batch := none } else q
      | none => q
    let k := s.saveIndex p b.core
    let cmds := cmds.map reopen
    let s := s.writePool area k (s.unitBase vf bk b.core) b forms
    let s := { s with savedArea := forms.foldl (fun m (q : Nat × Group) => FMap.insert m (savedKey vf q.1) q.2) s.savedArea,
                      groups := FMap.filterKV (fun g _ => !b.gids.contains g) s.groups }
    let s := s.modCore b.core (fun c => { c with queue := c.queue.filter (fun q => !mine q), trapQueue := c.trapQueue.filter (fun g => !b.gids.contains g) })
    let s := s.modBlock bk (fun x => { x with saved := true, queue := cmds, barMask := [] })
    let s := s.modVf vf (fun v => { v with tokenQ := FMap.filterKV (fun _ l => !l.isEmpty) (FMap.mapVals (fun _ l => l.filter (fun x => !b.gids.contains x.1)) v.tokenQ) })
    let s := b.gids.foldl (fun (s : State) g => s.renameHolder p g (savedHolder vf g)) s
    let last := (s.blocks.map (fun q => q.2)).all (fun x => !(decide (x.core = b.core ∧ x.grid = b.grid) && !x.saved))
    if last then s.modCore b.core (fun c => { c with cc := FMap.filterKV (fun k _ => decide (k / 1024 ≠ b.grid)) c.cc }) else s

/-! The tick. -/

/-- Phase 0 (R149, R150): transactions of the outgoing VF abort, and its weir operations are withdrawn, here and at homes
in other packages (R114). What waits for the fallback lock is issued again. -/
def State.beginSwitch (s : State) (p incoming : Nat) : State :=
  match s.runningVf p with
  | none => s
  | some vf =>
    let mine := (s.groups.filter (fun q => decide (s.vfOf q.1 = vf))).map (fun q => q.1)
    let s := mine.foldl (fun (s : State) (k : Nat) =>
      let open_ := match FMap.find s.groups k with
        | some g => g.openLanes (~~~0#64)
        | none => 0#64
      let s := s.abortLanes k (abortsOf open_ xPreempt 0)
      let s := (s.withdrawGroup k).withdrawRemote k
      let clear := fun (sp : Split) => if sp.wait.isWeir || decide (sp.wait = .txLock) then { sp with wait := .none } else sp
      s.modGroup k (fun g => { g with table := FMap.mapVals (fun _ sp => clear sp) g.table })) s
    let s := s.modPart p (fun x => { x with switch := some ⟨s.tick, incoming, [], false, false⟩ })
    (List.range 4).foldl (fun s d => s.schedule (.switchDone p d)) s

/-- The tick finds a switch to make (R148): the incoming local index. -/
def State.tickTarget (s : State) (p : Nat) : Option Nat :=
  let x := s.part p
  if !x.active || x.switch.isSome || (s.saveArea p x.running).isNone then none
  else match s.nextWork p x.running with
    | some l => if l = x.running then none else some l
    | none => none

/-- Every resident or saved block of a VF on a list of dies has a context that the switch unit cannot save or load: the
context error of R93. -/
def State.reportContexts (s : State) (vf : Nat) (dies : List Nat) : State :=
  (s.blocks.filter (fun q => dies.contains (dieOf q.2.core) && (match FMap.find s.grids q.2.grid with
    | some g => decide (g.vf = vf)
    | none => false))).foldl (fun s q => s.schedule (.contextErrorReport q.2.grid 1 fPermission q.2.core (slotOf (q.2.gids.headD 0)) 0)) s

/-- A tick that would act meets a table that the switch unit may not read (R93). -/
def State.tickRefused (s : State) (p : Nat) : Bool :=
  (s.part p).active && (s.part p).switch.isNone && s.entryRefused p (s.part p).running && (match s.nextWork p (s.part p).running with
    | some l => decide (l ≠ (s.part p).running)
    | none => false)

/-- SWITCH_TICK (R148, R152). -/
def execSwitchTick (part : Nat) (s : State) : Host.Outcome State Fault Refusal :=
  let x := s.part part
  if x.tickHeld = false ∧ (x.period = 0 ∨ s.tick % (x.period * 70000) ≠ 0) then .next s
  else if s.tickRefused part then .next (match s.runningVf part with
    | some vf => s.reportContexts vf (List.range 4)
    | none => s)
  else match s.tickTarget part with
    | none => .next s
    | some l =>
      if s.assistOn part 4 then
        if x.assist.any (fun q => decide (q.2.fn = 4)) then .next s
        else
          let q := s.postAssist part ⟨4, 0, [x.running, l], 0, 0, none⟩
          .next (q.2.modPart part (fun y => { y with tickHeld := q.1.isNone }))
      else .next (s.beginSwitch part l)

/-- The answer to a posted tick (R152): one that names the VF that runs already changes nothing (log 73). -/
def State.answerSwitch (s : State) (p status word2 : Nat) : State :=
  let l := word2 % 256
  let ok := match s.vfByIndex p l with
    | some vf => s.hasWork vf && (s.saveArea p l).isSome
    | none => false
  if decide (status = 0 ∧ l ≠ (s.part p).running) && ok && (s.part p).active && (s.part p).switch.isNone && (s.saveArea p (s.part p).running).isSome then s.beginSwitch p l else s

/-- The VF that a switch in progress takes out. -/
def State.outgoing (s : State) (p : Nat) : Option Nat := s.vfByIndex p (s.part p).running

/-- Every die has sent done: the tick commits (R149, R151). -/
def State.commitSwitch (s : State) (p : Nat) (w : Switch) : State :=
  if (s.partDies p).all (fun d => w.doneDies.contains d) then
    (s.modPart p (fun x => { x with misses := 0, running := w.incoming, switch := some { w with restoring := true } })).schedule (.switchIn p)
  else s

/-- A die sends done. -/
def State.dieDone (s : State) (p die : Nat) (w : Switch) : State :=
  let w := { w with doneDies := die :: w.doneDies }
  (s.modPart p (fun x => { x with switch := some w })).commitSwitch p w

/-- SWITCH_DONE (R149, R150): a die whose groups are quiet rewinds or saves them and sends done; one that is not sends the
flush markers that are due (R269). Contexts that it may not write get the context error of R93, which halts them. -/
def execSwitchDone (part die : Nat) (s : State) : Host.Outcome State Fault Refusal :=
  match (s.part part).switch, s.outgoing part with
  | some w, some vf =>
    if w.restoring || w.doneDies.contains die then .next s
    else if !s.dieQuiet vf die then .next (s.flushDie vf die)
    else
      let bks := (s.blocks.filter (fun q => !q.2.saved && decide (dieOf q.2.core = die) && (match FMap.find s.grids q.2.grid with
        | some g => decide (g.vf = vf)
        | none => false))).map (fun q => q.1)
      match s.saveArea part (s.part part).running, bks with
      | none, _ :: _ => .next (s.reportContexts vf [die])
      | none, [] => .next (s.dieDone part die w)
      | some area, _ =>
        let cores := s.savingCores part vf die
        let s := cores.foldl (fun s c => s.openArea part area c) s
        let s := bks.foldl (fun s b => s.saveBlock part vf area b) s
        let s := cores.foldl (fun s c => s.writeQueue part vf area c) s
        .next (s.dieDone part die w)
  | _, _ => .next s

/-! Restoring. -/

/-- A saved group runs again (R156): one whose trap is to be raised again traps. -/
def State.wakeSaved (s : State) (gid : Nat) (g : Group) : State :=
  if g.status = .exited then s.setGroup gid g
  else
    let s := s.setGroup gid { g with status := .running }
    match g.fault with
    | some f => s.trapGroup gid f
    | none => (s.resumeWaits gid).takeEngFault gid

/-- A sector lies in the area of a core or in its extension. -/
def State.inCoreArea (s : State) (p core : Nat) (area : Nat × Nat) (sec : Nat) : Bool :=
  let k := s.saveIndex p core
  let lo := (offOf area.1 + k * 2624 * 1024) / 32
  let ext := (offOf area.1 + extAt (s.part p).coreCount k) / 32
  decide (sec < (offOf area.1 + area.2) / 32) && decide (lo ≤ sec ∧ sec < lo + 2624 * 32 ∨ ext ≤ sec ∧ sec < ext + 200 * 32)

/-- Poison in the area of a core (R212). -/
def State.areaPoisoned (s : State) (p core : Nat) (area : Nat × Nat) : Bool :=
  s.ms.poison.any (fun q => q.2 && s.inCoreArea p core area q.1)

/-- The first sector of a core's area whose poison the hypervisor has to answer before a restore (R212, R213). -/
def State.areaToPost (s : State) (p core : Nat) (area : Nat × Nat) : Option Nat :=
  if s.assistOn p 3 then
    (s.ms.poison.find? (fun q => q.2 && s.inCoreArea p core area q.1 && !FMap.getD s.ms.known false q.1)).map (fun q => q.1)
  else none

/-- The first such sector of a VF's saved blocks. -/
def State.restoreToPost (s : State) (p vf : Nat) : Option Nat :=
  match s.saveArea p (s.vf vf).index with
  | none => none
  | some a => s.blocks.findSome? (fun q =>
      match FMap.find s.grids q.2.grid with
      | some g => if q.2.saved ∧ g.vf = vf then s.areaToPost p q.2.core a else none
      | none => none)

/-- The commands whose entries of the image lie beyond the end of the area (R475). -/
def State.lostCommands (s : State) (p vf : Nat) (area : Option (Nat × Nat)) (core : Nat) : List Nat :=
  match area with
  | none => []
  | some a => ((s.savedQueue vf core).drop ((a.2 - (extAt (s.part p).coreCount (s.saveIndex p core) + 192 * 1024)) / 64)).map (fun q => q.id)

/-! Loading. -/

/-- What the area holds of a range, by offset in the range: beyond its end it reads as at group entry, which is 0 (R475). -/
def State.areaCells (s : State) (area : Nat × Nat) (o n : Nat) : FMap Byte :=
  let lo := offOf area.1 + o
  let hi := offOf area.1 + min (o + n) area.2
  (FMap.filterKV (fun k _ => decide (lo ≤ k ∧ k < hi)) s.ms.mem).map (fun q => (q.1 - lo, q.2))

/-- A little-endian number of an image. -/
def imageNum (m : FMap Byte) (o n : Nat) : Nat := ofBytesLE ((List.range n).map (fun i => FMap.getD m 0#8 (o + i)))

/-- The words of an image that are not 0. -/
def imageWords (m : FMap Byte) : FMap Word :=
  m.foldr (fun q r =>
    let x : Word := BitVec.shiftLeft (q.2.setWidth 32) (8 * (q.1 % 4))
    match r with
    | (k, w) :: r' => if k = q.1 / 4 then (k, w ||| x) :: r' else (q.1 / 4, x) :: (k, w) :: r'
    | [] => [(q.1 / 4, x)]) []

/-- Sixteen counts of an image. -/
def imageCounts (m : FMap Byte) (o : Nat) : FMap Nat := (List.range 16).foldl (fun r i => FMap.setD r 0 i (imageNum m (o + 4 * i) 4)) []

/-- A split as its words 0 to 2 give it (R474); `old` holds what no image shows. -/
def imageSplit (m : FMap Byte) (o : Nat) (pfx : Bool) (old : Option Split) : Split :=
  let w1 := imageNum m (o + 8) 8
  let w2 := if pfx then imageNum m (o + 16) 8 else 0
  let keep := (old.map (fun x => x.wait)).getD .none
  { mask := BitVec.ofNat 64 (imageNum m o 8), pc := BitVec.ofNat 64 (field w1 0 46 * 4),
    drec := if field w1 46 7 = 0x7F then none else some (field w1 46 7),
    pfx := ⟨bitAt w2 31, BitVec.ofNat 24 w2, bitAt w2 63, BitVec.ofNat 24 (w2 / 2 ^ 32)⟩,
    wait := if bitAt w1 53 then .join else if keep = .join then .none else keep,
    retry := (old.map (fun x => x.retry)).getD none, poisonAct := (old.map (fun x => x.poisonAct)).getD false, born := (old.map (fun x => x.born)).getD 0,
    issued := (old.map (fun x => x.issued)).getD none }

/-- The split table of a slot block (R473, R474). -/
def imageTable (m : FMap Byte) (old : FMap Split) : FMap Split :=
  (List.range 16).filterMap (fun e => if imageNum m (0x200 + 32 * e + 24) 1 % 2 = 1 then some (e, imageSplit m (0x200 + 32 * e) true (FMap.find old e)) else none)

/-- The splits of a table with the deadline of `SLP` that the slot block holds, which is that of the first split that
sleeps (R469, R473). -/
def loadDeadline (t : Nat) : FMap Split → FMap Split
  | [] => []
  | (e, sp) :: r => match sp.wait with
    | .sleep _ => (e, { sp with wait := .sleep t }) :: r
    | _ => (e, sp) :: loadDeadline t r

/-- A saved group with the state of its slot block (R473). -/
def Group.loadSlot (g : Group) (m : FMap Byte) : Group :=
  let w := fun (o : Nat) => BitVec.ofNat 32 (imageNum m o 4)
  let fp := w 0x28
  let state := w 0x14
  { g with
    regs := { g.regs with mode := w 0x0C, cvmode := w 0x10 }
    grid := state.getLsbD 31, fpgrid := state.getLsbD 29, srseed := w 0x18, txlim := imageNum m 0x1C 4 % 2 ^ 8, stklim := imageNum m 0x20 4 % 2 ^ 17
    tvec := w 0x24, batch := imageNum m 0x2C 4
    guards := (List.range 8).foldl (fun r k => FMap.setD r 0 k (field (imageNum m 0x34 4) (2 * k) 2)) []
    fp := { g.fp with
      valid := fp.getLsbD 31, isOpen := fp.getLsbD 30, recipe := fp.getLsbD 29, cause := field fp.toNat 24 4, count := field fp.toNat 0 24
      point := BitVec.ofNat 64 (imageNum m 0x38 8)
      recipePc := if imageNum m 0x40 8 = 0 then none else some (BitVec.ofNat 64 (imageNum m 0x40 8))
      srseed := w 0x48, batch := imageNum m 0x4C 4, mode := w 0x50, cvmode := w 0x54
      live := BitVec.ofNat 128 (imageNum m 0x58 16), mask := BitVec.ofNat 64 (imageNum m 0x70 8) }
    parents := (List.range 128).filterMap (fun i => match imageNum m (0x100 + i) 1 with
      | 0xFF => none
      | 0x7F => some (i, none)
      | p => some (i, some p))
    table := loadDeadline (imageNum m 0x68 8) (imageTable m g.table) }

/-- A saved group with the state of its slot extension and its filter (R475). -/
def Group.loadExtension (g : Group) (m : FMap Byte) (filter : Nat) : Group :=
  let o := (imageWords (m.takeWhile (fun q => decide (q.1 < 0x800)))).foldl (fun r q => FMap.setD r 0#32 (q.1 % 8 * 64 + q.1 / 8) q.2) []
  let l := (List.range 128).foldl (fun r i => FMap.setD r 0#32 (i % 2 * 64 + i / 2) (BitVec.ofNat 32 (imageNum m (0x800 + 4 * i) 4))) []
  let tx := (List.range 64).foldl (fun r t =>
    let x := imageNum m (0xA00 + 4 * t) 4
    FMap.setD r TxLane.empty t { FMap.getD g.tx TxLane.empty t with retries := field x 16 8, detail := field x 8 8, code := field x 0 8 }) []
  { g with regs := { g.regs with o := o, l := l }, tx := tx, barG := imageCounts m 0xB00, bargG := imageCounts m 0xB40,
           fp := { g.fp with barG := imageCounts m 0xB80, bargG := imageCounts m 0xBC0, filter := BitVec.ofNat 512 filter } }

/-- A saved group with its main file and its split stack, as the register region's image gives them (R167, R474). -/
def Group.loadFile (g : Group) (file stack : FMap Byte) (depth : Nat) : Group :=
  { g with regs := { g.regs with v := imageWords file },
           stack := (List.range depth).map (fun i => imageSplit stack (16 * i) false g.stack[i]?) }

/-- The groups of a block as the area's images give them: their files lie one after another from `file`, and their split
stacks from `stack` on. -/
def State.loadGroups (s : State) (p : Nat) (area : Nat × Nat) : Nat → Nat → List (Nat × Group) → List (Nat × Group)
  | _, _, [] => []
  | file, stack, (gid, g) :: r =>
    let k := s.saveIndex p (coreOf gid)
    let slot := s.areaCells area (slotAt k (slotOf gid)) 1024
    let e := extAt (s.part p).coreCount k
    let x := s.areaCells area (e + slotOf gid * 3072) 3072
    let filter := imageNum (s.areaCells area (e + 196 * 1024 + 64 * slotOf gid) 64) 0 64
    let g' := if g.status = .exited then g else
      ((g.loadSlot slot).loadExtension x filter).loadFile (s.areaCells area file (g.ident.allot * 256)) (s.areaCells area stack (g.ident.depth * 16))
        (field (imageNum slot 0x30 4) 16 7)
    (gid, g') :: s.loadGroups p area (file + g.ident.allot * 256) (stack + g.ident.depth * 16) r

/-- A block's scratchpad, tile store and barrier counts from the area (R149, R473). -/
def Block.load (b : Block) (sc ti slot : FMap Byte) : Block := { b with sc := sc, ti := ti, barP := imageCounts slot 0x80 }

/-- A command from its entry of the queue's image (R475). -/
def EngCmd.load (q : EngCmd) (m : FMap Byte) : EngCmd :=
  let w := (List.range 8).map (fun i => BitVec.ofNat 32 (imageNum m (4 * i) 4))
  let q := { q with cvmode := BitVec.ofNat 32 (imageNum m 0x28 4), version := imageNum m 0x2C 4, base := imageNum m 0x30 8,
                    batch := q.batch.map (fun _ => imageNum m 0x24 4) }
  if q.sub = 5 then { q with words := w.take 6 ++ q.words.drop 6, tc := imageNum m 0x18 8, k := imageNum m 0x38 8 }
  else { q with words := w, cpos := imageNum m 0x38 8 }

/-- A saved block as the area gives it: with its groups, and its barrier counts of the gang. -/
structure LoadedBlock where
  bk : Nat
  block : Block
  groups : List (Nat × Group)
  bargs : FMap Nat
  deriving DecidableEq, Repr

/-- The saved groups of a block. -/
def State.savedGroups (s : State) (vf : Nat) (b : Block) : List (Nat × Group) :=
  b.gids.filterMap (fun k => (FMap.find s.savedArea (savedKey vf k)).map (fun g => (k, g)))

/-- Load one block of a VF from the area (R149, R473 to R475): its Pool regions, its groups and its commands, but for
those whose entries are lost. -/
def State.loadBlock (s : State) (p vf : Nat) (area : Nat × Nat) (lost : List Nat) (bk : Nat) (b : Block) : LoadedBlock :=
  let groups := s.savedGroups vf b
  let k := s.saveIndex p b.core
  let at_ := fun (u : Nat) => k * 2624 * 1024 + (s.unitBase vf bk b.core + u) * 4096
  let regUnits := b.units - b.scSize / 4096 - b.tiSize / 4096
  let files := groups.foldl (fun n q => n + q.2.ident.allot * 256) 0
  let all := s.savedQueue vf b.core
  let entry := fun (q : EngCmd) => extAt (s.part p).coreCount k + 192 * 1024 + 64 * (all.takeWhile (fun x => decide (x.id ≠ q.id))).length
  let slot0 := s.areaCells area (slotAt k (slotOf (b.gids.headD 0))) 1024
  { bk := bk
    block := { b.load (s.areaCells area (at_ regUnits) b.scSize) (s.areaCells area (at_ (b.units - b.tiSize / 4096)) b.tiSize) slot0 with
      queue := b.queue.map (fun q => if lost.contains q.id then q else q.load (s.areaCells area (entry q) 64)) }
    groups := s.loadGroups p area (at_ 0) (at_ 0 + files) groups
    bargs := imageCounts slot0 0xC0 }

/-- A saved block is given up (R93, R156): its grid gets the error, and its groups end now. -/
def State.dropBlock (s : State) (p vf bk : Nat) (b : Block) (status detail : Nat) : State :=
  let s := (s.modGrid b.grid (fun g => { g with tend := s.tick })).releaseSavedLock p vf (fun k => (b.gids.map (savedHolder vf)).contains k)
  let s := { s with blocks := FMap.erase s.blocks bk, savedArea := FMap.filterKV (fun k _ => !(b.gids.map (savedKey vf)).contains k) s.savedArea }
  s.schedule (.contextErrorReport b.grid status detail b.core (if status = 2 then 0 else slotOf (b.gids.headD 0)) 0)

/-- A restored block's groups and commands go on (R156, R181): the commands of `lost` are cancelled (R475). -/
def State.wakeBlock (s : State) (p vf : Nat) (lost : List Nat) (bk : Nat) (b : Block) (groups : List (Nat × Group)) : State :=
  let s := { s with savedArea := FMap.filterKV (fun k _ => !(b.gids.map (savedKey vf)).contains k) s.savedArea,
                    blocks := FMap.insert s.blocks bk { b with saved := false, queue := [] } }
  let s := s.modCore b.core (fun c => { c with queue := sortCmds (c.queue ++ b.queue) })
  let s := b.gids.foldl (fun (s : State) g => s.renameHolder p (savedHolder vf g) g) s
  let s := groups.foldl (fun s q => s.wakeSaved q.1 q.2) s
  let s := (b.queue.filter (fun q => lost.contains q.id)).foldl (fun s q => s.cancelCommand b.core q.id) s
  (b.queue.filter (fun q => !lost.contains q.id)).foldl (fun s q =>
    if q.started then (if q.stopped then s else s.restartCommand b.core q.id)
    else if q.held then s else s.schedule (serveEvent b.core q.id q.sub q.words)) s

/-- Restore one loaded block of a VF (R149, R156); poison in the area is the context error of R212. -/
def State.restoreBlock (s : State) (p vf : Nat) (bad : Bool) (lost : List Nat) (x : LoadedBlock) : State :=
  let b := x.block
  let s := s.modGrid b.grid (fun g => { g with bargP := (List.range 16).foldl (fun m i =>
    FMap.setD m 0 (b.linear / max 1 g.hdr.gang * 16 + i) (FMap.getD x.bargs 0 i)) g.bargP })
  let s := s.wakeBlock p vf lost x.bk b x.groups
  if bad then s.schedule (.contextErrorReport b.grid 1 fUncorrectable b.core (slotOf (b.gids.headD 0)) 0) else s

/-- The switch unit reads the area of a core: what is tracked of its lines is told (R216). -/
def State.noteAreaRead (s : State) (p core : Nat) (area : Nat × Nat) : State :=
  let read := s.ms.dir.filter (fun q => s.inCoreArea p core area (q.1 * 8))
  read.foldl (fun s q => s.noteReadLine (q.1 * 256) 256 q.1) s

/-- Restore the saved blocks of a VF on a core, which all load before the first goes on: blocks whose core is absent, or
whose area the switch unit may not read, are given up (R93, R156). -/
def State.restoreCore (s : State) (p vf : Nat) (area : Option (Nat × Nat)) (core : Nat) : State :=
  let saved := (s.savedBlocks vf).filter (fun q => decide (q.2.core = core))
  if !s.corePresent core then saved.foldl (fun s q => s.dropBlock p vf q.1 q.2 2 0) s
  else match area with
  | none => saved.foldl (fun s q => s.dropBlock p vf q.1 q.2 1 fPermission) s
  | some a =>
    let lost := s.lostCommands p vf area core
    let bad := s.areaPoisoned p core a
    let loaded := saved.map (fun q => s.loadBlock p vf a lost q.1 q.2)
    loaded.foldl (fun s x => s.restoreBlock p vf bad lost x) (s.noteAreaRead p core a)

/-- The saved blocks of a VF on a core can be loaded: no scan holds it (R43), and no ended block's commands hold their
slots (R123). -/
def State.canLoad (s : State) (vf core : Nat) : Bool :=
  !s.corePresent core || (!(s.core core).scan &&
    (s.savedBlocks vf).all (fun q => decide (q.2.core ≠ core) || q.2.gids.all (fun k => (FMap.find s.groups k).isNone)))

/-- The groups of the VF's grids in error are halted (R45, R74). -/
def State.haltErrors (s : State) (vf : Nat) : State :=
  s.grids.foldl (fun s q => if q.2.vf = vf ∧ q.2.err.isSome then s.haltGrid q.1 else s) s

/-- Restore the saved blocks of a VF, core by core, where they can be loaded; the groups of a grid in error are then halted. -/
def State.restoreVf (s : State) (p vf : Nat) : State :=
  let area := s.saveArea p (s.vf vf).index
  let cores := (((s.savedBlocks vf).map (fun q => q.2.core)).eraseDups).filter (s.canLoad vf)
  (cores.foldl (fun (s : State) core => s.restoreCore p vf area core) s).haltErrors vf

/-- An aborted tick (R151): every saved group goes on from the state in which it was saved, and its Pool was never cleared.
Blocks of a core that is lost meanwhile are given up, those of one that is being scanned are loaded when it is over, and the
groups of a grid that has failed meanwhile are halted (R43, R45, R74, R156). -/
def State.resumeSaved (s : State) (p vf : Nat) : State :=
  (((s.savedBlocks vf).filter (fun q => s.canLoad vf q.2.core)).foldl (fun (s : State) q =>
    if s.corePresent q.2.core then s.wakeBlock p vf [] q.1 q.2 (s.savedGroups vf q.2) else s.dropBlock p vf q.1 q.2 2 0) s).haltErrors vf

/-- SWITCH_DEADLINE (R151). -/
def execSwitchDeadline (part : Nat) (s : State) : Host.Outcome State Fault Refusal :=
  match (s.part part).switch with
  | none => .next s
  | some w =>
    if w.restoring || w.forced || decide (s.tick < w.since + 28000) then .next s
    else if 2 ≤ (s.part part).misses then .next (s.modPart part (fun x => { x with switch := some { w with forced := true } }))
    else
      let s := s.modPart part (fun x => { x with switch := none, misses := x.misses + 1 })
      match s.runningVf part with
      | some vf => .next (((s.resumeSaved part vf).retryEngines).wakePlacement part)
      | none => .next s

/-- SWITCH_IN (R148, R149, R156): the restore after a commit, or a VF with work where none runs. Blocks of the running VF
that could not be loaded before are loaded when they can be. -/
def execSwitchIn (part : Nat) (s : State) : Host.Outcome State Fault Refusal :=
  let x := s.part part
  let enter := fun (l : Nat) (s : State) =>
    let s' := s.modPart part (fun y => { y with active := true, running := l, switch := none })
    match s.vfByIndex part l with
    | some vf =>
      match s.restoreToPost part vf with
      | some sec =>
        if x.assist.any (fun q => decide (q.2.resume = some (.switchIn part))) then s
        else s.postOrHold part (s.containRequest vf sec 3 0 0 (some (.switchIn part))) (.switchIn part)
      | none => ((s'.restoreVf part vf).retryEngines).wakePlacement part
    | none => s'
  match x.switch with
  | some w => .next (if w.restoring then enter w.incoming s else s)
  | none =>
    let busy := match s.runningVf part with
      | some vf => s.hasWork vf
      | none => false
    if busy then .next (match s.runningVf part with
      | some vf => if ((s.savedBlocks vf).filter (fun q => s.canLoad vf q.2.core)).isEmpty then s else enter x.running s
      | none => s)
    else match s.nextWork part x.running with
      | some l => .next (enter l s)
      | none => .next s

end Sys2Proof.Machine
end

