-- ==== Sys2Proof/Machine/Registers.lean ====
section
/-! DEFINITION. Register and management space (R51 to R60, R78, R84 to R92, R95, R101, R105, R106,
R146), the events that its registers start, and VF reset (R119). -/

namespace Sys2Proof.Machine

/-! The layout (R51). -/

/-- VF windows. -/
def vfSpace : Nat := 0x3F000000000
/-- Partition control windows. -/
def partSpace : Nat := 0x3F010000000
/-- Package control. -/
def pkgSpace : Nat := 0x3F020000000
/-- Management firmware space. -/
def mgmtSpace : Nat := 0x3F800000000

/-- What an offset of the space names. -/
inductive RegPlace where
  | vf (n r : Nat)
  | part (p r : Nat)
  | pkg (r : Nat)
  | mgmt (r : Nat)
  | reserved
  deriving DecidableEq, Repr

/-- Decode an offset (R51). -/
def regPlace (off : Nat) : RegPlace :=
  if mgmtSpace ≤ off then .mgmt (off - mgmtSpace)
  else if pkgSpace ≤ off ∧ off < pkgSpace + 0x100000 then .pkg (off - pkgSpace)
  else if partSpace ≤ off ∧ off < partSpace + 0x400000 then .part ((off - partSpace) / 0x10000) (off % 0x10000)
  else if vfSpace ≤ off ∧ off < vfSpace + 0x4000000 then .vf ((off - vfSpace) / 0x10000) (off % 0x10000)
  else .reserved

/-! Reading. -/

/-- A word of an MSI-X table (R54, R55). -/
def msixWord (m : FMap MsixVec) (o : Nat) : Nat :=
  let v := FMap.getD m MsixVec.reset (o / 16)
  if o % 16 < 8 then v.addr else v.data + v.ctrl * 2 ^ 32

/-- A register of a stage of translation (R95). -/
def Stage.reg (x : Stage) (r : Nat) : Nat :=
  if r = 0 then x.rtab else if r = 8 then x.rcnt else if r = 0x10 then x.ptroot
  else if r = 0x20 then (if x.busy then 1 else 0) else 0

/-- A ring's grid of a VF is running (R60). -/
def State.ringBusy (s : State) (vf : Nat) : Bool := s.grids.any (fun q => decide (q.2.vf = vf) && q.2.fromRing)

/-- LQSTAT.idle (R60, R119 step 9). -/
def State.lqIdle (s : State) (vf : Nat) : Bool :=
  let v := s.vf vf
  decide (v.lqhead = v.lqtail) && !s.ringBusy vf && !v.resetting

/-- LQSTAT (R60). -/
def State.lqstat (s : State) (vf : Nat) : Nat :=
  let v := s.vf vf
  v.lqdetail * 2 ^ 16 + v.lqerr * 2 ^ 8 + (if v.stopped then 2 else 0) + (if s.lqIdle vf then 1 else 0)

/-- HSPENDi (R55): the pending bits of 64 slots. -/
def Vf.hspend (v : Vf) (i : Nat) : Nat :=
  (List.range 64).foldl (fun n k => if ((FMap.find v.calls (64 * i + k)).map (fun x => x.pending)).getD false then n + 2 ^ k else n) 0

/-- An aligned word of a VF window (R55 to R60, R95). -/
def State.vfReg (s : State) (n r : Nat) : Nat :=
  let v := s.vf n
  if 0x1000 ≤ r ∧ r < 0x1400 then msixWord v.msix (r - 0x1000)
  else if 0x2000 ≤ r ∧ r < 0x2028 then v.stage1.reg (r - 0x2000)
  else if 0x50 ≤ r ∧ r < 0x70 then v.hspend ((r - 0x50) / 8)
  else if r = 0 then v.gen * 2 ^ 32 + v.part * 2 ^ 16 + n
  else if r = 0x8 then (if v.en then 1 else 0)
  else if r = 0x10 then v.lqbase
  else if r = 0x18 then v.lgsize
  else if r = 0x20 then v.lqtail
  else if r = 0x28 then v.lqhead
  else if r = 0x30 then s.lqstat n
  else if r = 0x40 then v.hsbase
  else if r = 0x80 then v.tidbase
  else if r = 0x1800 then v.msixPend
  else 0

/-- The bandwidth entry of a local index (R105). -/
def Partition.bandwidth (x : Partition) (l : Nat) : Bandwidth := FMap.getD x.bw ⟨0, 0, false⟩ l

/-- The pending bits of the assist table (R80). -/
def Partition.assistPending (x : Partition) : Nat := x.assist.foldl (fun n q => n + 2 ^ q.1) 0

/-- An aligned word of a partition control window (R78, R80, R84, R86, R95, R105, R146). -/
def State.partReg (s : State) (p r : Nat) : Nat :=
  let x := s.part p
  if 0x4000 ≤ r ∧ r < 0x5000 then
    (let b := x.bandwidth ((r - 0x4000) / 16)
     if r % 16 < 8 then b.burst * 2 ^ 32 + b.rate else if b.en then 1 else 0)
  else if 0x40 ≤ r ∧ r < 0x80 then field x.routes (8 * (r - 0x40)) 64
  else if 0x200 ≤ r ∧ r < 0x228 then x.stage2.reg (r - 0x200)
  else if r = 0 then (if x.live then 2 ^ 63 else 0) + x.pindex * 2 ^ 24 + x.ppid
  else if r = 0x8 then x.pclus
  else if r = 0x10 then x.pstatOff * 2 ^ 16 + x.pstatReason
  else if r = 0x18 then x.l2q
  else if r = 0x20 then x.mrports
  else if r = 0x28 then x.estLimit * 2 ^ 16 + x.estPorts
  else if r = 0x100 then x.funcctl
  else if r = 0x108 then x.assistBase
  else if r = 0x118 then x.period * 2 ^ 52 + x.stbase * 2 ^ 12 + (if x.active then 2 ^ 11 else 0) + x.misses * 2 ^ 8 + x.running
  else if r = 0x120 then x.assistPending
  else if r = 0x300 then x.wtbase
  else if r = 0x308 then x.wtcnt
  else if r = 0x8000 then s.cfg.arg0
  else if r = 0x8008 then s.cfg.arg1
  else if r = 0x8018 then (if s.cfg.busy then 2 ^ 63 else 0) + s.cfg.last * 2 ^ 8 + s.cfg.result
  else 0

/-- Eight entries of a stripe table (R89). -/
def stripeWord (m : FMap Nat) (k : Nat) : Nat := (List.range 8).foldl (fun n i => n + FMap.getD m 0xFF (k + i) * 2 ^ (8 * i)) 0

/-- An aligned word of package control (R41, R51, R54, R89). -/
def State.pkgReg (s : State) (r : Nat) : Nat :=
  if 0x1000 ≤ r ∧ r < 0x1200 then s.mapWord ((r - 0x1000) / 8)
  else if 0x2000 ≤ r ∧ r < 0x2400 then msixWord s.boot.pfMsix (r - 0x2000)
  else if r = 0x2400 then s.boot.pfPend
  else if 0x40000 ≤ r ∧ r < 0x60000 then stripeWord s.ms.fast (r - 0x40000)
  else if 0x80000 ≤ r ∧ r < 0xC0000 then stripeWord s.ms.cap (r - 0x80000)
  else 0

/-- An aligned word of the space as it reads (R51, R52). -/
def State.regWord (s : State) (off : Nat) : Nat :=
  match regPlace off with
  | .vf n r => s.vfReg n r
  | .part p r => s.partReg p r
  | .pkg r => s.pkgReg r
  | .mgmt _ => 0
  | .reserved => 0

/-- Harts of the management firmware (R26); agents from 64 on are the PCIe ports. -/
def isMgmt (agent : Nat) : Bool := decide (agent = 62 ∨ agent = 63)

/-- An access has a size and an alignment that the space accepts (R52). -/
def regAligned (off size : Nat) : Bool := decide ((size = 4 ∨ size = 8) ∧ off % size = 0)

/-- The presentation of an agent (R53, R54): 0 the host chiplet, 1 and 2 the PCIe ports. -/
def presentation (agent : Nat) : Nat := if agent < 64 then 0 else agent - 63

/-- An agent sees what has this presentation (R53, R54): a PCIe port only where it is an endpoint (R36). Harts of the
package see every window, as far as their page tables let them (R52). -/
def State.sees (s : State) (agent presented : Nat) : Bool :=
  decide (agent < 64) || (s.endpoint (agent - 64) && decide (presentation agent = presented))

/-- The presentation of what an offset names: that of its VF, or the physical function's. -/
def State.presentedAt (s : State) (off : Nat) : Nat :=
  match regPlace off with
  | .vf n _ => (s.vf n).presented
  | _ => s.pfPresentation

/-- What a host read of the space answers; none for an RV64 access fault, or where a PCIe port sees nothing there (R51 to
R54). -/
def State.readRegister (s : State) (agent off size : Nat) : Option Nat :=
  if (mgmtSpace ≤ off ∧ isMgmt agent = false) ∨ s.sees agent (s.presentedAt off) = false then none
  else if regAligned off size then some (field (s.regWord (off / 8 * 8)) (8 * (off % 8)) (8 * size))
  else some 0

/-! Writing. -/

/-- The word that a write leaves of a register that reads `old` (R52). -/
def mergeWord (old off size val : Nat) : Nat :=
  if size = 8 then val % 2 ^ 64
  else if off % 8 = 0 then old / 2 ^ 32 * 2 ^ 32 + val % 2 ^ 32
  else val % 2 ^ 32 * 2 ^ 32 + old % 2 ^ 32

/-- A word of an MSI-X table is written: bit 0 of the control is its mask (R54). -/
def setMsix (m : FMap MsixVec) (o v : Nat) : FMap MsixVec :=
  let x := FMap.getD m MsixVec.reset (o / 16)
  FMap.setD m MsixVec.reset (o / 16) (if o % 16 < 8 then { x with addr := v / 4 * 4 } else { x with data := v % 2 ^ 32, ctrl := v / 2 ^ 32 % 2 })

/-- A VF's vector is written; a pending message of a vector that is unmasked is sent (R54). -/
def State.writeVfMsix (s : State) (vf o v : Nat) : State :=
  let s := s.modVf vf (fun x => { x with msix := setMsix x.msix o v })
  let x := s.vf vf
  let m := FMap.getD x.msix MsixVec.reset (o / 16)
  if bitAt x.msixPend (o / 16) && decide (m.ctrl = 0) then
    (s.setVf vf { x with msixPend := x.msixPend - 2 ^ (o / 16) }).msixMessage x.presented (some vf) (o / 16) m
  else s

/-- A vector of the physical function is written (R54). -/
def State.writePfMsix (s : State) (o v : Nat) : State :=
  let s := { s with boot := { s.boot with pfMsix := setMsix s.boot.pfMsix o v } }
  let m := FMap.getD s.boot.pfMsix MsixVec.reset (o / 16)
  if bitAt s.boot.pfPend (o / 16) && decide (m.ctrl = 0) then
    ({ s with boot := { s.boot with pfPend := s.boot.pfPend - 2 ^ (o / 16) } } : State).msixMessage s.pfPresentation none (o / 16) m
  else s

/-- A register of a stage is written (R56, R95). -/
def Stage.setReg (x : Stage) (r v : Nat) : Stage :=
  if r = 0 then { x with rtab := v / 64 * 64 }
  else if r = 8 then { x with rcnt := v % 2 ^ 17 }
  else if r = 0x10 then { x with ptroot := v / 4096 * 4096 }
  else x

/-- VFCTL is written (R58). Of several bits, vreset suppresses the others, and qreset comes before en (log 60). -/
def State.writeVfctl (s : State) (n v : Nat) : State :=
  if bitAt v 2 then s.schedule (.vreset n)
  else
    let s := if bitAt v 1 then s.schedule (.qreset n) else s
    s.schedule (.vfctlEn n (bitAt v 0))

/-- A write to a VF window (R55 to R60, R77, R95, R101, R119 step 1): `low` says that the low half of the
word is written. -/
def State.writeVfReg (s : State) (n r v : Nat) (low : Bool) : State :=
  if (s.vf n).resetting then s
  else if 0x1000 ≤ r ∧ r < 0x1400 then s.writeVfMsix n (r - 0x1000) v
  else if r = 0x2018 then (if low && bitAt v 0 then s.schedule (.stageInvalidate false n) else s)
  else if 0x2000 ≤ r ∧ r < 0x2028 then s.modVf n (fun x => { x with stage1 := x.stage1.setReg (r - 0x2000) v })
  else if r = 0x8 then (if low then s.writeVfctl n v else s)
  else if r = 0x10 then s.modVf n (fun x => { x with lqbase := v })
  else if r = 0x18 then s.modVf n (fun x => { x with lgsize := v % 2 ^ 5 })
  else if r = 0x20 then (if low then s.schedule (.lqtailWrite n (BitVec.ofNat 64 v)) else s)
  else if r = 0x40 then s.modVf n (fun x => { x with hsbase := v / 4096 * 4096 })
  else if r = 0x48 then (if low then s.schedule (.hsdoneWrite n v) else s)
  else if r = 0x80 then s.modVf n (fun x => { x with tidbase := v })
  else s

/-- The reservoir's capacity (R105): every enabled entry counts, whether or not a VF holds its index (log 62). -/
def Partition.reservoirCap (x : Partition) : Nat := (x.bw.filter (fun q => q.2.en)).foldl (fun n q => n + q.2.size) 0

/-- Full buckets of a VF on every die (R105), or none where its entry is not enabled. -/
def State.fillBuckets (s : State) (vf : Nat) : State :=
  let b := s.bandwidth vf
  let rest := FMap.filterKV (fun k _ => decide (k / 4 ≠ vf)) s.buckets
  { s with buckets := if b.en then (List.range 4).foldl (fun m d => FMap.insert m (bucketKey vf d) b.size) rest else rest }

/-- A drop of the capacity clips the reservoirs (R105). -/
def State.clipReservoirs (s : State) (p : Nat) : State :=
  let cap := (s.part p).reservoirCap
  { s with reservoirs := (List.range 4).foldl (fun m d => FMap.setD m 0 (reservoirKey p d) (min (FMap.getD m 0 (reservoirKey p d)) cap)) s.reservoirs }

/-- A word of the bandwidth table is written (R105): the bucket is filled when en goes to 1. -/
def State.writeBandwidth (s : State) (p o v : Nat) : State :=
  let l := o / 16
  let b := (s.part p).bandwidth l
  let b' := if o % 16 < 8 then { b with burst := v / 2 ^ 32, rate := v % 2 ^ 32 } else { b with en := bitAt v 0 }
  let s := s.modPart p (fun x => { x with bw := FMap.setD x.bw ⟨0, 0, false⟩ l b' })
  let s := if b'.en && !b.en then (match s.vfByIndex p l with
    | some vf => s.fillBuckets vf
    | none => s) else s
  s.clipReservoirs p

/-- The command of a CFGCMD write (R87). -/
def cfgCommand (code arg0 : Nat) : Option Instr :=
  match code with
  | 0x01 => some .setstripe
  | 0x08 => some (if bitAt arg0 63 then .unassignvf else .assignvf)
  | 0x10 => some .wopen
  | 0x11 => some .wquiesce
  | 0x12 => some .wexport
  | 0x13 => some .wclose
  | 0x14 => some .wreload
  | _ => none

/-- CFGCMD is written (R86, R87). -/
def State.writeCfgcmd (s : State) (v : Nat) : State :=
  if s.cfg.busy then s
  else
    let code := v % 256
    match cfgCommand code s.cfg.arg0 with
    | some i => ({ s with cfg := { s.cfg with busy := true } }).schedule i
    | none => s.finishCfg code 2

/-- The packages for which a partition notes that no path leads there: those that the switch routes list, and one that
stands for all the others. -/
def State.routeKeys (s : State) : List Nat := 512 :: FMap.keys s.boot.switchRoutes

/-- Some partition's ports, or the switch routes, have changed (R31, R107): a package that has lost its last path counts from
now, and where a path is back, what waits for one goes on. -/
def State.portsChanged (s0 s : State) : State :=
  let since := fun (p k : Nat) => if s0.pathUp p k then s.tick else FMap.getD (s0.part p).downSince 0 (s0.routeKey k)
  let down := fun (p : Nat) => (s.routeKeys.filter (fun k => !s.pathUp p k)).foldl (fun m k => FMap.setD m 0 k (since p k)) []
  let back := (FMap.keys s.parts).any (fun p => s.routeKeys.any (fun k => !s0.pathUp p k && s.pathUp p k))
  let s := (FMap.keys s.parts).foldl (fun (s : State) p => s.modPart p (fun x => { x with downSince := down p })) s
  if back then (s.releaseHeld).retryEngines else s

/-- FUNCCTL is written (R78, R79): a change of retx applies to packets first sent from now on. -/
def Partition.setFunctions (x : Partition) (v tick : Nat) : Partition :=
  { x with funcctl := v % 32, retxLog := if bitAt x.funcctl 2 = bitAt v 2 then x.retxLog else x.retxLog ++ [tick] }

/-- `contain` is turned on for a partition (R213): what is poisoned already in its stripes and in those that it shares has
been detected, and is not posted (log 52). -/
def State.knowPoison (s : State) (p : Nat) : State :=
  let meets := fun (k : Nat) => decide (s.stripe (32 * k) = p ∨ 64 ≤ s.stripe (32 * k))
  { s with ms := { s.ms with known := s.ms.poison.foldl (fun m q => if q.2 && meets q.1 then FMap.insert m q.1 true else m) s.ms.known } }

/-- A write to FUNCCTL (R78, R79, R213). -/
def State.writeFunctions (s : State) (p v : Nat) : State :=
  (if bitAt v 3 && !bitAt (s.part p).funcctl 3 then s.knowPoison p else s).modPart p (fun x => x.setFunctions v s.tick)

/-- Registers of a partition control window that only store (R56, R78, R80, R84, R146). -/
def Partition.store (x : Partition) (r v : Nat) : Partition :=
  if r = 0 then { x with live := bitAt v 63, pindex := field v 24 6, ppid := field v 0 16 }
  else if r = 0x108 then { x with assistBase := v / 4096 * 4096 }
  else if r = 0x118 then { x with period := field v 52 12, stbase := field v 12 40 }
  else if r = 0x300 then { x with wtbase := v / 4096 * 4096 }
  else if r = 0x308 then { x with wtcnt := v % 2 ^ 17 }
  else if 0x40 ≤ r ∧ r < 0x80 then { x with routes := x.routes - field x.routes (8 * (r - 0x40)) 64 * 2 ^ (8 * (r - 0x40)) + v * 2 ^ (8 * (r - 0x40)) }
  else if 0x200 ≤ r ∧ r < 0x228 then { x with stage2 := x.stage2.setReg (r - 0x200) v }
  else x

/-- A write to a partition control window. -/
def State.writePartReg (s : State) (p r v : Nat) (low : Bool) : State :=
  if 0x4000 ≤ r ∧ r < 0x5000 then s.writeBandwidth p (r - 0x4000) v
  else if r = 0x8 then s.schedule (.pclusWrite p (BitVec.ofNat 64 v))
  else if r = 0x18 then s.schedule (.l2qWrite p (BitVec.ofNat 64 v))
  else if r = 0x20 then s.schedule (.mrportsWrite p (BitVec.ofNat 64 v))
  else if r = 0x28 then s.schedule (.estpWrite p (BitVec.ofNat 64 v))
  else if r = 0x100 then s.writeFunctions p v
  else if r = 0x110 then (if low then s.schedule (.assistDone p v) else s)
  else if r = 0x218 then (if low && bitAt v 0 then s.schedule (.stageInvalidate true p) else s)
  else if r = 0x310 then (if low && bitAt v 0 then s.schedule (.wtinvWrite p) else s)
  else if r = 0x8000 then (if s.cfg.busy then s else { s with cfg := { s.cfg with arg0 := v } })
  else if r = 0x8008 then (if s.cfg.busy then s else { s with cfg := { s.cfg with arg1 := v } })
  else if r = 0x8010 then (if low then s.writeCfgcmd v else s)
  else s.modPart p (fun x => x.store r v)

/-! Physical allocation tables. -/

/-- An entry value that names a trust domain (R90). -/
def trustDomain (v : Nat) : Bool := decide (v < 128 ∨ v = 0xFD)

/-- A stripe's bytes (R89): its first offset. -/
def stripeBase (tier : Bool) (k : Nat) : Nat := if tier then capBase + k * 2 ^ 23 else k * 2 ^ 23

/-- The table of a tier. -/
def MemSys.stripes (m : MemSys) (tier : Bool) : FMap Nat := if tier then m.cap else m.fast

/-- Replace the table of a tier. -/
def State.setStripes (s : State) (tier : Bool) (t : FMap Nat) : State :=
  if tier then { s with ms := { s.ms with cap := t } } else { s with ms := { s.ms with fast := t } }

/-- Write back, invalidate and zero a range of bytes that starts and ends on lines (R92 steps 1 and 2,
R209). -/
def State.wipe (s : State) (lo n : Nat) : State :=
  let out := fun (k unit : Nat) => !decide (lo ≤ k * unit ∧ k * unit < lo + n)
  let s := { s with cores := FMap.mapVals (fun _ (c : Core) => { c with l1 := FMap.filterKV (fun k _ => out k 32) c.l1 }) s.cores }
  ({ s with ms := { s.ms with mem := FMap.filterKV (fun k _ => out k 1) s.ms.mem, poison := FMap.filterKV (fun k _ => out k 32) s.ms.poison,
                              known := FMap.filterKV (fun k _ => out k 32) s.ms.known, l2 := s.ms.l2.filter (fun x => out x.line 256) } } : State).noteRange lo n

/-- Give stripes a value. -/
def setRange (t : FMap Nat) (l : List Nat) (v : Nat) : FMap Nat := l.foldl (fun t k => FMap.setD t 0xFF k v) t

/-- Neighbouring entries that name trust domains are equal (R91). -/
def adjacentOk : FMap Nat → Bool
  | [] => true
  | (k, v) :: r =>
    (match r with
      | (j, w) :: _ => !(decide (j = k + 1) && trustDomain v && trustDomain w) || decide (v = w)
      | [] => true) && adjacentOk r

/-- Management retires a stripe (R23, R90): one that leaves a trust domain is scrubbed first (R92). -/
def State.retireStripe (s : State) (tier : Bool) (k : Nat) : State :=
  let old := FMap.getD (s.ms.stripes tier) 0xFF k
  let s := if trustDomain old then s.wipe (stripeBase tier k) (2 ^ 23) else s
  s.setStripes tier (FMap.setD (s.ms.stripes tier) 0xFF k 0xFC)

/-- Management writes entries of a stripe table: the bytes 0xFC of the write retire their stripes. -/
def State.writeStripes (s : State) (tier : Bool) (k size v : Nat) : State :=
  (List.range size).foldl (fun s i => if field v (8 * i) 8 = 0xFC then s.retireStripe tier (k + i) else s) s

/-- A logical core map word is written (R41): its reserved bits keep nothing (R6). -/
def State.writeMapWord (s : State) (cl word : Nat) : State :=
  ({ s with boot := { s.boot with coreMap := FMap.setD s.boot.coreMap 0 cl (field word 0 40 + field word 63 1 * 2 ^ 63) } } : State).coresChanged cl

/-- A write to package control by management (R41, R51, R89). -/
def State.writePkgReg (s : State) (r size v word : Nat) : State :=
  if 0x1000 ≤ r ∧ r < 0x1200 then s.writeMapWord ((r - 0x1000) / 8) word
  else if 0x40000 ≤ r ∧ r < 0x60000 then s.writeStripes false (r - 0x40000) size v
  else if 0x80000 ≤ r ∧ r < 0xC0000 then s.writeStripes true (r - 0x80000) size v
  else s

/-! Management firmware space. Its layout is the model's own (log 67): the manual names no register there. -/

/-- A connection is set up for a VF (R108, R120, R417): on a port that its partition owns, within the limit. -/
def State.openConn (s : State) (vf handle port gen : Nat) : State :=
  let p := (s.vf vf).part
  let x := s.part p
  if (s.vf vf).assigned && bitAt x.estPorts port && decide (x.liveConns < x.estLimit) && (FMap.find (s.vf vf).conns handle).isNone then
    (s.modVf vf (fun v => { v with conns := FMap.insert v.conns handle (port, gen) })).modPart p (fun x => { x with liveConns := x.liveConns + 1 })
  else s

/-- Management writes a word of its space: the presentation of VF r / 8 and, at 0x2000, of the physical function (R53,
R54); eight words with the pod's packages (R19); a row for the stored repair list (R22); an Estuary connection (R108); and
a partition's clusters on its packages of lower and higher index (R71); and, from 0x5000 on, the ports that the pod's switch
routes connect to each package (R107). -/
def State.writeMgmt (s : State) (r v : Nat) : State :=
  if r < 0x2000 then (if v < 3 then s.modVf (r / 8) (fun x => { x with presented := v }) else s)
  else if r = 0x2000 then (if v < 3 then { s with boot := { s.boot with pfPresented := v } } else s)
  else if 0x2040 ≤ r ∧ r < 0x2080 then { s with boot := { s.boot with pod := setField s.boot.pod (8 * (r - 0x2040)) 64 v } }
  else if r = 0x3000 then (if s.boot.repairList.contains v then s else { s with boot := { s.boot with repairList := s.boot.repairList ++ [v] } })
  else if r = 0x3008 then s.openConn (field v 0 10) (field v 16 16) (field v 32 3) (field v 48 16)
  else if 0x4000 ≤ r ∧ r < 0x4200 then s.modPart ((r - 0x4000) / 8) (fun x => { x with clusBelow := field v 0 32, clusAbove := field v 32 32 })
  else if 0x5000 ≤ r ∧ r < 0x6000 then
    s.portsChanged { s with boot := { s.boot with switchRoutes := FMap.insert s.boot.switchRoutes ((r - 0x5000) / 8) (field v 0 32) } }
  else s

/-- REGISTER_WRITE (R46, R51, R52). -/
def execRegisterWrite (agent off size : Nat) (val : BitVec 64) (s : State) : Host.Outcome State Fault Refusal :=
  let v := mergeWord (s.regWord (off / 8 * 8)) off size val.toNat
  let low := decide (size = 8 ∨ off % 8 = 0)
  if !s.power then .next s
  else if mgmtSpace ≤ off ∧ isMgmt agent = false then .next (if agent < 64 then s.accessFault (some agent) (s.paOf off) else s)
  else if !regAligned off size then .next s
  else match regPlace off with
    | .vf n r => .next (if s.sees agent (s.vf n).presented then s.writeVfReg n (r / 8 * 8) v low else s)
    | .part p r => .next (if s.sees agent s.pfPresentation then s.writePartReg p (r / 8 * 8) v low else s)
    | .pkg r =>
      if 0x2000 ≤ r ∧ r < 0x2400 then .next (if s.sees agent s.pfPresentation then s.writePfMsix (r / 8 * 8 - 0x2000) v else s)
      else .next (if isMgmt agent then (if 0x1000 ≤ r ∧ r < 0x1200 then s.writePkgReg (r / 8 * 8) 8 v v else s.writePkgReg r size val.toNat v) else s)
    | .mgmt r => .next (s.writeMgmt (r / 8 * 8) v)
    | .reserved => .next s

/-! Ownership (R85). -/

/-- A refused write (R84, R85). -/
def State.refuse (s : State) (p off reason : Nat) : State := s.modPart p (fun x => { x with pstatOff := off, pstatReason := reason })

/-- Another partition owns one of these units. -/
def State.ownedElsewhere (s : State) (p : Nat) (f : Partition → Nat) (bits : Nat) : Bool :=
  s.parts.any (fun q => decide (q.1 ≠ p ∧ f q.2 &&& bits ≠ 0))

/-- A cluster holds a block, or a proposal names it (R85). -/
def State.clusterHeld (s : State) (p c : Nat) : Bool :=
  s.blocks.any (fun q => !q.2.saved && decide (clusterOf q.2.core = c)) ||
    (s.part p).assist.any (fun q => decide (q.2.fn = 1 ∧ field (q.2.data.getD 1 0) 0 6 = c)) ||
    s.place.chosen.any (fun q => decide (q.1 % 256 / 4 = p) && q.2.2.2.any (fun k => decide (clusterOf k = c)))

/-- A VF of the partition has saved state (R85). -/
def State.hasSaved (s : State) (p : Nat) : Bool :=
  s.blocks.any (fun q => q.2.saved && (match FMap.find s.grids q.2.grid with
    | some g => decide ((s.vf g.vf).part = p)
    | none => false))

/-- PCLUS_WRITE (R85). -/
def execPclusWrite (part : Nat) (val : BitVec 64) (s : State) : Host.Outcome State Fault Refusal :=
  let old := (s.part part).pclus
  let v := val.toNat
  let gone := (List.range 64).filter (fun c => bitAt old c && !bitAt v c)
  if s.ownedElsewhere part (fun x => x.pclus) v then .next (s.refuse part 0x8 1)
  else if gone.any (s.clusterHeld part) then .next (s.refuse part 0x8 2)
  else if v ≠ old ∧ s.hasSaved part then .next (s.refuse part 0x8 5)
  else
    let s := (s.modPart part (fun x => { x with pclus := v })).settlePointers part
    .next ((s.wakePlacement part).schedule (.switchIn part))

/-- Lines that each slice can grant (R24, R85). -/
def State.usableLines (s : State) : Nat := 4096 - 256 * (s.boot.l2Ways.foldl (fun n q => max n q.2) 0)

/-- The lines of a partition beyond its quota in a slice, least recently used first (R103). -/
def State.excessLines (s : State) (p slice : Nat) : List L2Line :=
  (s.ms.l2.filter (fun x => decide (x.part = p ∧ x.slice = slice))).drop (s.part p).l2q

/-- Reclaim the lines that a lowered quota no longer covers (R103). -/
def State.reclaim (s : State) (p : Nat) : State :=
  let out := ((List.range 256).map (s.excessLines p)).flatten
  let s := { s with ms := { s.ms with l2 := s.ms.l2.filter (fun x => !out.contains x) } }
  out.foldl (fun s x => s.dropLine x.line) s

/-- L2Q_WRITE (R85, R103): the reason is that of the first case that applies. -/
def execL2qWrite (part : Nat) (val : BitVec 64) (s : State) : Host.Outcome State Fault Refusal :=
  let v := field val.toNat 0 13
  let others := (s.parts.filter (fun q => decide (q.1 ≠ part))).foldl (fun n q => n + q.2.l2q) 0
  if s.usableLines < others + v then .next (s.refuse part 0x18 3)
  else if 4096 < v then .next (s.refuse part 0x18 4)
  else .next ((s.modPart part (fun x => { x with l2q := v })).reclaim part)

/-- MRPORTS_WRITE (R31, R85). -/
def execMrportsWrite (part : Nat) (val : BitVec 64) (s : State) : Host.Outcome State Fault Refusal :=
  let v := field val.toNat 0 32
  if s.ownedElsewhere part (fun x => x.mrports) v then .next (s.refuse part 0x20 1)
  else .next (s.portsChanged (s.modPart part (fun x => { x with mrports := v })))

/-- ESTP_WRITE (R85): connections that stand beyond a lowered limit stay (log 75). -/
def execEstpWrite (part : Nat) (val : BitVec 64) (s : State) : Host.Outcome State Fault Refusal :=
  let v := field val.toNat 0 8
  if s.ownedElsewhere part (fun x => x.estPorts) v then .next (s.refuse part 0x28 1)
  else .next (s.modPart part (fun x => { x with estPorts := v, estLimit := field val.toNat 16 16 }))

/-! Invalidation of a stage (R101). -/

/-- Change a stage. -/
def State.modStage (s : State) (stage2 : Bool) (n : Nat) (f : Stage → Stage) : State :=
  if stage2 then s.modPart n (fun x => { x with stage2 := f x.stage2 }) else s.modVf n (fun x => { x with stage1 := f x.stage1 })

/-- A stage's registers. -/
def State.stage (s : State) (stage2 : Bool) (n : Nat) : Stage := if stage2 then (s.part n).stage2 else (s.vf n).stage1

/-- The groups whose accesses use a stage. -/
def State.stageGroups (s : State) (stage2 : Bool) (n : Nat) : List (Nat × Group) :=
  s.groups.filter (fun q => decide (if stage2 then s.partOf q.1 = n else s.vfOf q.1 = n))

/-- A VF's accesses use a stage. -/
def State.usesStage (s : State) (stage2 : Bool) (n vf : Nat) : Bool := decide (if stage2 then (s.vf vf).part = n else vf = n)

/-- The grids of a stage's VFs. -/
def State.stageGrids (s : State) (stage2 : Bool) (n : Nat) : List (Nat × Grid) := s.grids.filter (fun q => s.usesStage stage2 n q.2.vf)

/-- The engine commands of a stage's VFs, with their VFs. -/
def State.stageCommands (s : State) (stage2 : Bool) (n : Nat) : List (Nat × EngCmd) := s.vfCommands.filter (fun q => s.usesStage stage2 n q.1)

/-- An operation at another package used an entry of a stage: one of a weir did not (R111). -/
def RemoteOp.translated (r : RemoteOp) : Bool :=
  match r.kind with
  | .weir _ _ _ _ => false
  | _ => true

/-- Writes to other packages that used an entry of the stage, after which no flush marker has been sent (R101). -/
def State.stageWrites (s : State) (stage2 : Bool) (n : Nat) : Bool :=
  (s.stageGroups stage2 n).any (fun q => !q.2.links.written.isEmpty) || (s.stageGrids stage2 n).any (fun q => !q.2.written.isEmpty) ||
    (s.stageCommands stage2 n).any (fun q => !q.2.wroteTo.isEmpty)

/-- An access that used an entry of the stage may not have been performed (R101): an operation at another package, or a
write there that no flush marker has answered for, be it of a group, or of a grid, an engine command, a lock's late holder
or a tier move. -/
def State.stageInFlight (s : State) (stage2 : Bool) (n : Nat) : Bool :=
  s.stageWrites stage2 n || (s.stageGroups stage2 n).any (fun q => q.2.links.remote.any RemoteOp.translated || !q.2.links.flush.isEmpty) ||
    (s.stageGrids stage2 n).any (fun q => !q.2.flush.isEmpty) || (s.stageCommands stage2 n).any (fun q => !q.2.marks.isEmpty) ||
    s.parts.any (fun q => s.usesStage stage2 n q.2.lockVf && !(q.2.lockOwed.isEmpty && q.2.lockFlush.isEmpty)) ||
    s.moves.any (fun m => s.usesStage stage2 n m.vf && !(m.flush.isEmpty && (m.written.getD []).isEmpty))

/-- Markers for the writes to other packages that an invalidation waits for (R101). -/
def State.flushStage (s : State) (stage2 : Bool) (n : Nat) : State :=
  let s := (s.stageGroups stage2 n).foldl (fun s q => if q.2.links.written.isEmpty then s else s.releaseTrapped q.1 q.2) s
  let s := (s.stageGrids stage2 n).foldl (fun s q => if q.2.written.isEmpty then s else s.flushGrid q.1 q.2) s
  (s.stageCommands stage2 n).foldl (fun s q => if q.2.wroteTo.isEmpty then s else s.flushCommand q.1 q.2) s

/-- STAGE_INVALIDATE (R101). -/
def execStageInvalidate (stage2 : Bool) (n : Nat) (s : State) : Host.Outcome State Fault Refusal :=
  if (s.stage stage2 n).busy then .next s
  else .next ((s.modStage stage2 n (fun x => { x with busy := true })).schedule (.invalidationDone stage2 n))

/-- The registers in force become those written (R95). -/
def Stage.take (x : Stage) : Stage := { x with busy := false, inRtab := x.rtab, inRcnt := x.rcnt, inPtroot := x.ptroot }

/-- INVALIDATION_DONE (R95, R101): once no access that used an entry is in flight. A stage-2 invalidation drops what comes
from any stage 1 of the partition as well. -/
def execInvalidationDone (stage2 : Bool) (n : Nat) (s : State) : Host.Outcome State Fault Refusal :=
  if (s.stage stage2 n).busy && s.stageInFlight stage2 n then .next (s.flushStage stage2 n)
  else if (s.stage stage2 n).busy then
    let drop := fun (r : CachedRange) => if stage2 then decide (r.part = n) else decide (r.vf = some n)
    .next ((s.dropRanges drop).modStage stage2 n Stage.take)
  else .next s

/-! The configuration port (R87 to R92). -/

/-- SETSTRIPE (R87, R90 to R92). -/
def execSetstripe (s : State) : Host.Outcome State Fault Refusal :=
  if !s.cfg.busy then .next s
  else
    let a := s.cfg.arg0
    let tier := bitAt a 63
    let count := field a 20 18
    let first := field a 0 18
    let v := field s.cfg.arg1 0 8
    let t := s.ms.stripes tier
    let l := (List.range count).map (fun i => first + i)
    let old := fun (k : Nat) => FMap.getD t 0xFF k
    if count = 0 ∨ (if tier then 262144 else 131072) < first + count ∨ (0x80 ≤ v ∧ v ≤ 0xFA) then .next (s.finishCfg 1 2)
    else if v = 0xFB ∨ v = 0xFC ∨ l.any (fun k => decide (old k = 0xFB ∨ old k = 0xFC)) ∨ adjacentOk (setRange t l v) = false then .next (s.finishCfg 1 1)
    else
      let leaving := l.filter (fun k => trustDomain (old k) && decide (old k ≠ v))
      let t := setRange t l v
      if leaving.isEmpty then .next ((s.setStripes tier t).finishCfg 1 0)
      else
        let s := s.setStripes tier (setRange t leaving 0xFB)
        .next (({ s with cfg := { s.cfg with scrub := some (tier, first, count, v) } }).schedule .stripeScrubDone)

/-- STRIPE_SCRUB_DONE (R92). -/
def execStripeScrubDone (s : State) : Host.Outcome State Fault Refusal :=
  match s.cfg.scrub with
  | none => .next s
  | some (tier, first, count, v) =>
    let l := ((List.range count).map (fun i => first + i)).filter (fun k => decide (FMap.getD (s.ms.stripes tier) 0xFF k = 0xFB))
    let s := l.foldl (fun s k => s.wipe (stripeBase tier k) (2 ^ 23)) s
    let s := s.setStripes tier (setRange (s.ms.stripes tier) l v)
    .next ({ s with cfg := { s.cfg with scrub := none } }.finishCfg 1 0)

/-- ASSIGNVF (R88): where the entry of its index is enabled, the VF starts with full buckets (log 62). -/
def execAssignvf (s : State) : Host.Outcome State Fault Refusal :=
  if !s.cfg.busy then .next s
  else
    let a := s.cfg.arg0
    let vf := field a 0 10
    let p := field a 16 6
    let l := field a 32 8
    let v := s.vf vf
    if v.en ∨ s.lqIdle vf = false ∨ v.assigned ∨ (s.vfByIndex p l).isSome then .next (s.finishCfg 8 3)
    else .next (((s.setVf vf { v with assigned := true, part := p, index := l }).fillBuckets vf).finishCfg 8 0)

/-- UNASSIGNVF (R88): the VF is reset first. -/
def execUnassignvf (s : State) : Host.Outcome State Fault Refusal :=
  if !s.cfg.busy then .next s
  else
    let vf := field s.cfg.arg0 0 10
    if !(s.vf vf).assigned then .next (s.finishCfg 8 3)
    else
      let s := { s with cfg := { s.cfg with unassign := some vf } }
      .next (if (s.vf vf).resetting then s else s.schedule (.vreset vf))

/-! VF reset (R119). -/

/-- Steps 1 and 2. -/
def State.resetQueue (s : State) (vf : Nat) : State :=
  s.modVf vf (fun v => { v with resetting := true, resetAt := s.tick, gen := (v.gen + 1) % 2 ^ 16, lqhead := v.lqtail, dlq := [], starting := none })

/-- Every grid of the VF ends with RESET (R74, R119 step 4): groups in the save area end now (R73). -/
def State.resetGrids (s : State) (vf : Nat) : State :=
  let live := (s.blocks.filter (fun q => q.2.saved && s.blockLive vf q.2)).map (fun q => q.2.grid)
  let ended := fun (k : Nat) (g : Grid) =>
    if g.vf = vf then { g with err := some ⟨3, 0, 0, 0, 0, 0⟩, stopsQueue := false, nextBlock := g.hdr.total, tend := if live.contains k then s.tick else g.tend } else g
  let mine := fun (k : Nat) => ((FMap.find s.grids k).map (fun g => decide (g.vf = vf))).getD false
  let keep := fun (b : Batch) => !mine b.grid
  { s with grids := FMap.mapVals ended s.grids,
           place := { s.place with delta := s.place.delta.filter keep, dieQueues := FMap.mapVals (fun _ (l : List Batch) => l.filter keep) s.place.dieQueues },
           blocks := FMap.filterKV (fun _ b => !(b.saved && mine b.grid)) s.blocks,
           savedArea := FMap.filterKV (fun k _ => decide (k / 2 ^ 16 ≠ vf)) s.savedArea }

/-- Step 3: engine commands go, weir operations are withdrawn (R114), and every group is halted; a switched-out one gives
up the fallback lock (R227, R238). -/
def State.resetGroups (s : State) (vf : Nat) : State :=
  let gids := (s.groups.filter (fun q => decide (s.vfOf q.1 = vf))).map (fun q => q.1)
  let s := s.cores.foldl (fun (s : State) k => (k.2.queue.filter (fun q => gids.contains q.gid)).foldl (fun s q => s.removeCommand k.1 q.id) s) s
  let s := s.releaseSavedLock (s.vf vf).part vf (fun k => decide (savedHolder vf 0 ≤ k ∧ k < savedHolder (vf + 1) 0))
  gids.foldl (fun s k => (s.withdrawRemote k).haltGroup k) s

/-- Step 5: the other participants of the VF's collectives end with PEER_RESET; its own are dropped. -/
def State.resetPeers (s : State) (vf : Nat) : State :=
  let peers := s.colls.filter (fun c => decide (c.vf ≠ vf) && c.ranks.any (fun x => decide (field x 0 9 = s.boot.pkg ∧ field x 16 10 = vf)))
  let s := peers.foldl (fun s c => s.endColl c 1) s
  { s with colls := s.colls.filter (fun c => decide (c.vf ≠ vf)) }

/-- Steps 6 and 7, and the tier moves of the VF (R201). -/
def State.resetLinks (s : State) (vf : Nat) : State :=
  let v := s.vf vf
  let s := s.modPart v.part (fun x => { x with liveConns := x.liveConns - v.conns.length })
  let s := v.conns.foldl (fun s q => s.send (.teardown vf q.1 q.2.2)) (s.setVf vf { v with calls := [], conns := [] })
  { s with works := s.works.filter (fun w => decide (w.vf ≠ vf)), moves := s.moves.filter (fun m => decide (m.vf ≠ vf)) }

/-- VRESET (R119 steps 1 to 7). -/
def execVreset (vf : Nat) (s : State) : Host.Outcome State Fault Refusal :=
  if (s.vf vf).resetting then .next s
  else
    let s := ((((s.resetQueue vf).resetGrids vf).resetGroups vf).resetPeers vf).resetLinks vf
    let grids := (s.grids.filter (fun q => decide (q.2.vf = vf))).map (fun q => q.1)
    .next ((grids.foldl (fun s k => s.schedule (.gridCompletion k)) s).schedule (.vfResetComplete vf))

/-- What a reset leaves of a VF (R57, R88, R119 step 8, R419). -/
def Vf.afterReset (v : Vf) : Vf :=
  { Vf.reset with assigned := v.assigned, part := v.part, index := v.index, gen := v.gen, presented := v.presented, msix := v.msix }

/-- The VF is removed from its partition (R88). -/
def State.removeVf (s : State) (vf : Nat) : State :=
  let v := s.vf vf
  let s := s.modPart v.part (fun x => if x.active ∧ x.running = v.index then { x with active := false } else x)
  let s := s.setVf vf { v with assigned := false, part := 0, index := 0 }
  { s with buckets := FMap.filterKV (fun k _ => decide (k / 4 ≠ vf)) s.buckets }

/-- The ticks of the 5 ms within which a VF's reset is over (R119). -/
def resetTicks : Nat := 3500000

/-- At the end of a reset's time nothing of the VF waits for another package any more: its grids complete (R119, log 78). -/
def State.hurryGrids (s : State) (vf : Nat) : State :=
  let mine := s.grids.filter (fun q => decide (q.2.vf = vf))
  let s := mine.foldl (fun (s : State) q => (s.modGrid q.1 (fun g => { g with written := [], flush := [] })).schedule (.gridCompletion q.1)) s
  s.schedule (.vfResetComplete vf)

/-- Grids of a VF are gone, with whatever is left of their blocks. -/
def State.eraseGrids (s : State) (vf : Nat) : State :=
  let mine := fun (k : Nat) => ((FMap.find s.grids k).map (fun g => decide (g.vf = vf))).getD false
  let gids := ((s.blocks.filter (fun q => mine q.2.grid)).map (fun q => q.2.gids)).flatten
  { s with grids := FMap.filterKV (fun _ g => decide (g.vf ≠ vf)) s.grids, blocks := FMap.filterKV (fun _ b => !mine b.grid) s.blocks,
           groups := FMap.filterKV (fun k _ => !gids.contains k) s.groups }

/-- VF_RESET_COMPLETE (R119 steps 8 and 9, R88): once the VF's grids have completed, and at the latest 5 ms after the reset
began. -/
def execVfResetComplete (vf : Nat) (s : State) : Host.Outcome State Fault Refusal :=
  let v := s.vf vf
  let late := decide (v.resetAt + resetTicks ≤ s.tick)
  let mine := s.grids.filter (fun q => decide (q.2.vf = vf))
  if !v.resetting || (!mine.isEmpty && !late) then .next s
  else if mine.any (fun q => !(q.2.written.isEmpty && q.2.flush.isEmpty)) then .next (s.hurryGrids vf)
  else
    let s := ((s.eraseGrids vf).dropRanges (fun r => decide (r.vf = some vf))).setVf vf v.afterReset
    let s := if s.cfg.unassign = some vf then ({ s.removeVf vf with cfg := { s.cfg with unassign := none } }).finishCfg 8 0 else s
    .next (s.schedule (.switchIn v.part))

/-- The host cores' RV64 time counter (R38): the tick count. -/
def State.hostTime (s : State) : BitVec 64 := BitVec.ofNat 64 s.tick

/-! Bandwidth (R106). -/

/-- One refill of a VF's bucket on a die; the overflow goes to the reservoir. -/
def State.refillBucket (s : State) (vf die : Nat) : State :=
  let b := s.bandwidth vf
  let p := (s.vf vf).part
  let t := s.tokens vf die + b.rate
  let k := reservoirKey p die
  let res := FMap.getD s.reservoirs 0 k
  { s with buckets := FMap.insert s.buckets (bucketKey vf die) (min t b.size),
           reservoirs := FMap.setD s.reservoirs 0 k (min (res + (t - b.size)) (s.part p).reservoirCap) }

/-- BANDWIDTH_REFILL (R106): at every 700th tick. -/
def execBandwidthRefill (s : State) : Host.Outcome State Fault Refusal :=
  if s.tick % 700 ≠ 0 then .next s
  else
    let vfs := (s.vfs.filter (fun q => q.2.assigned && (s.bandwidth q.1).en)).map (fun q => q.1)
    let s := vfs.foldl (fun s vf => (List.range 4).foldl (fun s d => s.refillBucket vf d) s) s
    .next s.retryEngines

end Sys2Proof.Machine
end

