-- ==== Sys2Proof/Machine/Home.lean ====
section
/-! DEFINITION. Requests at a home slice from outside the cores: the host chiplet's and PCIe's (R16 to R21, R28, R31,
R51 to R54, R93, R209 to R217, R229 to R235). -/

namespace Sys2Proof.Machine

/-! Kinds of request (log 67): 0 a read, 1 a write, 1024 the detection of an uncorrectable error in a Pool, 1025 an error
in memory that has not been detected, others an atomic as `atKind` numbers it. -/

/-- The detection of an uncorrectable error in a Pool. -/
def poolErrorKind : Nat := 1024

/-- An error that a controller cannot correct arises in a sector of memory, and no access has met it yet: the first one
that reads memory there detects it (R209, R213). -/
def memoryErrorKind : Nat := 1025

/-- The bytes that a request reaches: a read and a write have as many as their data, an atomic those of its etype. -/
def homeSize (kind : Nat) (bytes : List Byte) : Nat := if kind < 2 then bytes.length else atSize (kind / 16)

/-- The host hart of a request: agents from 64 on are the PCIe ports. -/
def hartOf (agent : Option Nat) : Option Nat := agent.filter (fun h => decide (h < 64))

/-- A controller cannot correct the data of these sectors (R21, R209): they are poisoned. -/
def State.markPoison (s : State) (secs : List Nat) : State := secs.foldl (fun s k => s.setPoison k true) s

/-- A request of the home slice ends with data for its agent. -/
def State.giveHost (s : State) (agent : Option Nat) (data : List Byte) : State := s.send (.hostData agent data)

/-- The copy that the host chiplet gets by its access (R216); another agent is not tracked. -/
def State.trackHost (s : State) (agent : Option Nat) (p off n : Nat) (write : Bool) : State :=
  if (hartOf agent).isSome then s.hostCopy off write else if write then s else s.readHome p off n

/-- A request that is no transaction's, at an own offset (R93, R210, R212, R216, R234, R254): an atomic is one event. -/
def State.homeAccess (s : State) (agent : Option Nat) (kind pa off : Nat) (bytes : List Byte) : State :=
  let n := homeSize kind bytes
  let p := s.stripe off
  if kind = 1 then (((s.writeHome none p off bytes).clearPoison [(off, n)])).trackHost agent p off n true
  else if s.poisoned off n then s.accessFault (hartOf agent) pa
  else if kind = 0 then (s.trackHost agent p off n false).giveHost agent (s.bytesAt off n)
  else ((s.writeHome none p off (bytesLE n (homeResult kind bytes (s.wordAt off n)))).trackHost agent p off n true).giveHost agent (s.bytesAt off n)

/-- A request of an open transaction of hart h, at an own offset (R217, R231 to R235): an atomic reads and writes. -/
def State.homeTx (s : State) (h kind off : Nat) (bytes : List Byte) : State :=
  let n := homeSize kind bytes
  if kind < 2 then s.hostTx h (decide (kind = 1)) off bytes
  else
    let own := (s.hart h).buf
    let old := ofBytesLE ((s.bytesAt off n).mapIdx (fun i x => (FMap.find own (off + i)).getD x))
    let s := s.hostTx h false off (List.replicate n 0#8)
    if (s.hart h).depth = 0 then s else s.hostTx h true off (bytesLE n (homeResult kind bytes old))

/-- A request to register and management space (R51 to R54, R231): a transaction aborts with ILLEGAL. -/
def State.homeRegister (s : State) (agent : Option Nat) (tx : Bool) (kind pa : Nat) (bytes : List Byte) : State :=
  let who := agent.getD 64
  let n := homeSize kind bytes
  match hartOf agent, tx with
  | some h, true => s.abortHart h xIllegal 0
  | _, _ =>
    if kind = 1 then s.schedule (.registerWrite who (offOf pa) n (BitVec.ofNat 64 (ofBytesLE bytes)))
    else match s.readRegister who (offOf pa) n with
      | some v => s.giveHost agent (bytesLE n v)
      | none => if (hartOf agent).isSome then s.accessFault agent pa else s

/-- How long a request to another package has waited for a path (R31). -/
def State.hostWait (s : State) (agent : Option Nat) (pa : Nat) : Option Nat :=
  (s.turn.hostWaits.find? (fun q => decide (q.1 = agent ∧ q.2.1 = pa))).map (fun q => q.2.2)

/-- It waits no longer. -/
def State.endHostWait (s : State) (agent : Option Nat) (pa : Nat) : State :=
  { s with turn := { s.turn with hostWaits := s.turn.hostWaits.filter (fun q => decide (q.1 ≠ agent ∨ q.2.1 ≠ pa)) } }

/-- A request to another package: an access fault where the package is not in the pod (R19), or the offset is reserved (R17),
or where no path has led there for 100 µs (R31), a transaction's too; a transaction's first access fixes its home (R235). The
other package answers (log 17). -/
def State.homeRemote (s : State) (agent : Option Nat) (tx : Bool) (kind pa : Nat) (bytes : List Byte) (again : Instr) : State :=
  let n := homeSize kind bytes
  let open_ := (hartOf agent).map (fun h => decide ((s.hart h).depth ≠ 0))
  if !bitAt s.boot.pod (pkgOf pa) ∨ (tierEnd ≤ offOf pa ∧ offOf pa < regBase) then s.accessFault (hartOf agent) pa
  else if tx && decide (open_ = some false) then s.endHostWait agent pa
  else if s.boot.portsUp &&& s.portsTo (pkgOf pa) = 0 then
    match s.hostWait agent pa with
    | some t => if t + pathTicks ≤ s.tick then (s.endHostWait agent pa).accessFault (hartOf agent) pa else s.holdEvent again
    | none => ({ s with turn := { s.turn with hostWaits := s.turn.hostWaits ++ [(agent, pa, s.tick)] } } : State).holdEvent again
  else
    let s := s.endHostWait agent pa
    match hartOf agent, tx with
    | some h, true => (s.hostHome h (pkgOf pa)).2
    | _, _ =>
      let s := s.send (.millrace kind (pkgOf pa) (offOf pa) n bytes false ⟨0, 0, 0⟩)
      let q := s.farRead n
      if q.1.refused && decide (offOf pa < tierEnd) then q.2.accessFault (hartOf agent) pa
      else if kind = 1 then q.2
      else if q.1.poison then q.2.accessFault (hartOf agent) pa else q.2.giveHost agent q.1.bytes

/-- Where the apertures of the VFs begin, in the numbering of `homeRequest` (log 67). -/
def apertureBase : Nat := 2 ^ 53
/-- Where the Pools of the blocks begin, in the same numbering. -/
def poolsBase : Nat := 2 ^ 60

/-- A request of a PCIe port to BAR2 of a VF that is presented to it (R53): the VF's own device access. -/
def State.homeAperture (s : State) (agent : Option Nat) (kind pa : Nat) (bytes : List Byte) (again : Instr) : State :=
  let vf := (pa - apertureBase) / 2 ^ 40
  let va := (pa - apertureBase) % 2 ^ 40
  let v := s.vf vf
  let w := s.whoVf vf
  if !(v.assigned && decide (v.presented ≠ 0) && s.sees (agent.getD 64) v.presented) || decide (1 < kind) then s
  else if kind = 1 then
    match unitWrite w va bytes s with
    | (.error (.assist x), s) => s.unitAssist w x again
    | (.error (.fault _), s) => s.accessFault none pa
    | (.ok _, s) => s
  else match unitRead w va bytes.length s with
    | (.error (.assist x), s) => s.unitAssist w x again
    | (.error (.fault _), s) => s.accessFault none pa
    | (.ok (b, bad), s) => if bad then s.accessFault none pa else s.giveHost agent b

/-- PCIe port 0's boot register window, in the same numbering (log 67). -/
def bootWindow : Nat := 2 ^ 54

/-- A read of the boot register window by PCIe port 0 (R50): its first byte is the status, and the spec names no other. -/
def State.homeBootWindow (s : State) (agent : Option Nat) (kind pa n : Nat) : State :=
  if agent ≠ some 64 ∨ kind ≠ 0 then s
  else
    let q := s.freeBytes n
    q.2.giveHost agent (q.1.mapIdx (fun i x => if pa + i = bootWindow then BitVec.ofNat 8 s.boot.status else x))

/-- An uncorrectable error in a block's Pool (R209): the sector is poisoned. -/
def State.poisonPool (s : State) (bk wo : Nat) : State :=
  match FMap.find s.blocks bk with
  | none => s
  | some b => match poolLoc b wo 1 false with
    | .ok l => s.modBlock bk (fun x => { x with poison := FMap.setD x.poison false l.sector true })
    | .error _ => s

/-- An error arises in a sector of memory of which the L2 has no valid copy. -/
def State.latentError (s : State) (pa : Nat) : State :=
  let off := offOf pa
  if pkgOf pa = s.boot.pkg ∧ off < tierEnd ∧ s.l2Valid (off / 32) = false then s.markPoison [off / 32] else s

/-- A request to an own offset in a tier. An uncorrectable error poisons what a read meets, and of a write's sectors those
that are filled from memory first (R21, R194, R209); a first detection under contain = 1 is posted (R213). -/
def State.homeOwn (s : State) (agent : Option Nat) (tx : Bool) (kind pa : Nat) (bytes : List Byte) (uncorrectable : Bool) : State :=
  let off := offOf pa
  let n := homeSize kind bytes
  let v := s.stripe off
  let fills := (partSectors off n).filter (fun k => !s.l2Valid k)
  let met := if kind = 1 then fills else spanUnits 32 off n
  let s := if uncorrectable then s.markPoison met else s
  match met.findSome? (fun k => s.toPost v (32 * k) 32) with
  | some sec =>
    let i : Instr := .homeRequest agent tx kind pa bytes false
    s.postOrHold v (s.containRequest 0 sec (if agent.isSome then 2 else 3) 0 0 (some i)) i
  | none =>
    match hartOf agent, tx with
    | some h, true =>
      if (s.hart h).depth = 0 then s
      else
        let q := s.hostHome h (pkgOf pa)
        if q.1 then q.2.homeTx h kind off bytes else q.2
    | _, _ => s.homeAccess agent kind pa off bytes

/-- HOME_REQUEST (R16 to R19, R51 to R54, R93, R209 to R217, R229 to R235): a request of the host chiplet or of another
agent outside the cores reaches its home. Nothing answers while the package has no power (R46). -/
def execHomeRequest (agent : Option Nat) (tx : Bool) (kind pa : Nat) (bytes : List (BitVec 8)) (uncorrectable : Bool) (s : State) :
    Host.Outcome State Fault Refusal :=
  let off := offOf pa
  let n := homeSize kind bytes
  let again : Instr := .homeRequest agent tx kind pa bytes uncorrectable
  if !s.power then .next s
  else if kind = poolErrorKind then .next (if poolsBase ≤ pa then s.poisonPool ((pa - poolsBase) / poolSize) ((pa - poolsBase) % poolSize) else s)
  else if kind = memoryErrorKind then .next (s.latentError pa)
  else if n = 0 ∨ 64 < n ∨ pa / 64 ≠ (pa + n - 1) / 64 then .next s
  else if bootWindow ≤ pa then .next (s.homeBootWindow agent kind pa n)
  else if apertureBase ≤ pa then .next (s.homeAperture agent kind pa bytes again)
  else if 2 ^ 51 ≤ pa then .next (s.accessFault (hartOf agent) pa)
  else if regBase ≤ off ∧ (tx ∨ pkgOf pa = s.boot.pkg) then .next (s.homeRegister agent tx kind pa bytes)
  else if pkgOf pa ≠ s.boot.pkg then .next (s.homeRemote agent tx kind pa bytes again)
  else if tierEnd ≤ off ∨ closedStripe (s.stripe off) then .next (s.accessFault (hartOf agent) pa)
  else .next (s.homeOwn agent tx kind pa bytes uncorrectable)

end Sys2Proof.Machine
end

