-- ==== Sys2Proof/Machine/Response.lean ====
section
/-! DEFINITION. What comes from other packages: the answers of loads, atomics, BOWs and weir operations (R93, R111, R210,
R378, R388, R404), flush answers (R259, R260), path failures (R30, R31), packets (R28, R29, R32 to R35, R93, R120, R215)
and tier moves (R198 to R201). -/

namespace Sys2Proof.Machine

/-! Answers. -/

/-- An outstanding operation of a group. -/
def State.remoteOp (s : State) (gid id : Nat) : Option RemoteOp :=
  match FMap.find s.groups gid with
  | some g => g.links.remote.find? (fun r => decide (r.id = id))
  | none => none

/-- An operation is no longer outstanding. -/
def State.dropRemote (s : State) (gid id : Nat) : State :=
  s.modGroup gid (fun g => { g.undemote with links := { g.links with remote := g.links.remote.filter (fun r => decide (r.id ≠ id)) } })

/-- Contribute the lanes of a fault to the mask of a trapped group, and have their split execute again
for them (R182, R382). -/
def State.joinTrap (s : State) (c : Ctx) (m : BitVec 64) : State :=
  let s := s.putCtx { c with split := { c.split with wait := .none, retry := some m, issued := some ⟨c.regs.mode, m⟩ } }
  s.modGroup c.gid (fun g => { g with fault := g.fault.map (fun f => { f with mask := f.mask ||| m }) })

/-- The end of an instruction whose last answer has arrived (R381). -/
def State.endRemote (s : State) (c0 c : Ctx) (word : Word) (bad : List (Nat × XFault)) (aborts : List LaneAbort) : State :=
  let frozen := match FMap.find s.groups c.gid with
    | some g => !c.single && decide (g.status ≠ .running)
    | none => false
  let s :=
    if bad.isEmpty && aborts.isEmpty then s.retire c0 c (c.split.pc + 4#64)
    else
      let r := memFault (c.txLanes s) bad aborts
      if frozen && decide (r.mask ≠ 0#64) then (s.joinTrap c r.mask).abortLanes c.gid r.aborts
      else s.raise c0 c word r
  s.operationDone c.gid

/-- The lanes of an access that are still the split's. -/
def RemoteReq.live (q : RemoteReq) (c : Ctx) : BitVec 64 := q.targets &&& c.split.mask

/-- The access is transactional: constant loads never are (R220, R384). -/
def RemoteReq.isTx (q : RemoteReq) (c : Ctx) (word : Word) (s : State) : Bool :=
  decide (field word.toNat 24 7 ≠ 0x52 ∧ c.txLanes s &&& q.live c ≠ 0#64)

/-- The value of an access as its lane sees it (R220): a transactional one reads its own writes. -/
def remoteValue (c : Ctx) (tx : Bool) (q : RemoteReq) (v : Nat) (s : State) : Nat × State :=
  if tx then
    let t := lowest (q.live c)
    let r := txReadBytes (s.laneOf c.gid t) q.pa (bytesLE q.size v)
    (ofBytesLE r.1, s.modLane c.gid t (fun _ => r.2))
  else (v % 2 ^ (8 * q.size), s)

/-- The threads of an answer that its home has refused, and those that meet poison. -/
structure AnswerFaults where
  poison : BitVec 64
  refused : BitVec 64

/-- The marks of an instruction's answers, which its home gives for sectors and for stripes: accesses to one sector meet one
poison, and those to one stripe are refused together (R93, R188, R209). -/
def AnswerFaults.spread (f : AnswerFaults) (reqs : List RemoteReq) : AnswerFaults :=
  let grow := fun (m : BitVec 64) (unit : Nat) => reqs.foldl (fun acc q =>
    if reqs.any (fun x => decide (x.pa / unit = q.pa / unit) && decide (x.targets &&& m ≠ 0#64)) then acc ||| q.targets else acc) m
  ⟨grow f.poison 32, grow f.refused (2 ^ 23)⟩

/-- The answers of a load's accesses, all of which read one copy of a sector (R188): a byte that two of them name is the one
of the first. -/
def sameCopy : FMap Byte → List (RemoteReq × BitVec 128) → List (RemoteReq × BitVec 128)
  | _, [] => []
  | m, (q, v) :: r =>
    let b := (bytesLE q.size v.toNat).mapIdx (fun i x => (FMap.find m (q.pa + i)).getD x)
    (q, BitVec.ofNat 128 (ofBytesLE b)) :: sameCopy ((b.mapIdx (fun i x => (q.pa + i, x))).foldl (fun m x => FMap.insert m x.1 x.2) m) r

/-- The fault of an answered access for the threads `ts`, if it has one: refused by the home's stripe tables (R93), or
poisoned (R210). -/
def RemoteReq.fault (q : RemoteReq) (f : AnswerFaults) (ts : BitVec 64) : Option XFault :=
  if ts &&& f.refused ≠ 0#64 then some (.phys fPermission q.pa)
  else if ts &&& f.poison ≠ 0#64 then some (.virt fUncorrectable q.va)
  else none

/-- The threads of an access fault. -/
def MemAcc.failAnswer (m : MemAcc) (f : XFault) (ts : BitVec 64) : MemAcc := { m with bad := m.bad ++ (threadsOf ts).map (fun t => (t, f)) }

/-- A cached copy of a sector of a peer's memory (R29, R190): the bytes of the answer, and the others as its home sent
them, which are free values (log 17). The peer's line enters the L2 as far as the quota goes. -/
def State.keepPeer (s : State) (c : Ctx) (q : RemoteReq) (v : Nat) : State :=
  let sec := peerKey q.pa / 32
  let core := coreOf c.gid
  let t := s.touchL2 (s.partOf c.gid) (peerKey q.pa) q.size false
  if !t.1 then t.2
  else match FMap.find (t.2.core core).l1 sec with
    | some d => t.2.fillL1 core sec (mergeSector d (q.pa % 32) (bytesLE q.size v))
    | none =>
      let b := t.2.freeBytes 32
      b.2.fillL1 core sec (mergeSector (BitVec.ofNat 256 (ofBytesLE b.1)) (q.pa % 32) (bytesLE q.size v))

/-- A cached line of a constant bank in another package (R192): the bytes of the answer, and the others as its home sent
them (log 17). -/
def State.keepConst (s : State) (c : Ctx) (q : RemoteReq) (v : Nat) : State :=
  match s.blockOf c.gid, s.gridOf c.gid with
  | some b, some gr =>
    let core := coreOf c.gid
    let key := b.grid * 1024 + (q.va - gr.hdr.cbank) / 64
    let put := fun (d : Nat) => BitVec.ofNat 512 (setField d (8 * (q.pa % 64)) (8 * q.size) v)
    match FMap.find (s.core core).cc key with
    | some d => s.modCore core (fun k => { k with cc := FMap.insert k.cc key (put d.toNat) })
    | none =>
      let f := s.freeBytes 64
      f.2.modCore core (fun k => { k with cc := ccInsert k.cc (Config.pick f.2.turn.freeCount) key (put (ofBytesLE f.1)) })
  | _, _ => s

/-- What the answer of a load, by its number, leaves in the core's caches: only memory of the node is kept (R29). -/
def State.keepAnswer (s : State) (c : Ctx) (id : Nat) (word : Word) (q : RemoteReq) (v : Nat) : State :=
  if !s.isPeer (pkgOf q.pa) then s
  else if field word.toNat 24 7 = 0x52 then s.keepConst c q v
  else if q.keep && s.keepsPeer (coreOf c.gid) id q.pa then s.keepPeer c q v
  else s

/-- One access of a load is answered (R378, R210). -/
def loadAnswer (c : Ctx) (id : Nat) (word : Word) (d : BitVec 8) (signed : Bool) (f : AnswerFaults) (m : MemAcc) (x : RemoteReq × BitVec 128) : MemAcc :=
  let q := x.1
  let ts := q.live c
  if ts = 0#64 then m
  else match q.fault f ts with
    | some e => m.failAnswer e ts
    | none =>
      let r := remoteValue c (q.isTx c word m.s) q x.2.toNat m.s
      { m with s := r.2.keepAnswer c id word q r.1, regs := writeTargets (fun r' t => r'.writeLoaded q.size signed d t r.1) ts m.regs }

/-- One access of an atomic is answered (R388 to R390): a transactional one writes its buffer now. -/
def atomicAnswer (c : Ctx) (e : AtEnv) (word : Word) (d : BitVec 8) (f : AnswerFaults) (m : MemAcc) (x : RemoteReq × BitVec 128) : MemAcc :=
  let q := x.1
  let ts := q.live c
  if ts = 0#64 then m
  else match q.fault f ts with
    | some e => m.failAnswer e ts
    | none =>
      let tx := q.isTx c word m.s
      let a : Access := ⟨q.data, q.targets, tx⟩
      let r := remoteValue c tx q x.2.toNat m.s
      let s := if tx then r.2.modLane c.gid (lowest ts) (fun l => l.writeBytes q.pa (bytesLE q.size (e.result a r.1))) else r.2
      { m with s := s, regs := writeTargets (fun r' t => r'.writeOld q.size d t (e.answer a r.1 t)) ts m.regs }

/-- The aborts of lanes that are still the split's. -/
def liveAborts (c : Ctx) (l : List LaneAbort) : List LaneAbort := l.filter (fun x => c.split.mask.getLsbD x.thread)

/-- The faults of lanes that are still the split's. -/
def liveBad (c : Ctx) (l : List (Nat × XFault)) : List (Nat × XFault) := l.filter (fun x => c.split.mask.getLsbD x.1)

/-- The instruction that waits for an operation's answer. -/
def State.waiter (s : State) (gid : Nat) (op : RemoteOp) : Option Ctx :=
  match s.ctxOf (some (issuerAt gid op.entry)) with
  | some c => if c.split.wait = .remote op.id then some c else none
  | none => none

/-- The answer of a BOW's read (R404). -/
def bowAnswer (op : RemoteOp) (d : BitVec 8) (v x : Nat) (f : AnswerFaults) (s : State) (c : Ctx) : State :=
  let q := op.reqs.headD ⟨0#64, 0, 0, 0, 8, false⟩
  match q.fault f c.split.mask with
  | some e => s.endRemote c c op.word ((threadsOf c.split.mask).map (fun t => (t, e))) []
  | none =>
  if v ≤ x then
    let s := s.acquire (coreOf c.gid) 8
    (s.retire c (c.put64 d (BitVec.ofNat 64 x)) (c.split.pc + 4#64)).operationDone c.gid
  else (s.putCtx { c with split := { c.split with wait := .bow (2 ^ 50 + q.pa / 256) (s.tick + 1400) op.word } }).operationDone c.gid

/-- What an answer says of a weir operation (R111): 0 done, 1 WEIR_INVALID, 2 WEIR_DENIED, 3 closed and moved. -/
def AnswerFaults.weirResult (f : AnswerFaults) : Nat := if f.refused ≠ 0#64 then 2 else min 3 (if f.poison = 2#64 then 3 else f.poison.toNat)

/-- LOAD_RESPONSE (R93, R111, R210, R378, R404): the data of every access of the instruction, the threads that meet poison,
and those that the home refuses. For a weir operation a refusal is WEIR_DENIED, and `poison` 1 and 2 say WEIR_INVALID and
that the descriptor is closed and moved. -/
def execLoadResponse (gid id : Nat) (data : List (BitVec 128)) (marks : AnswerMarks) (s : State) : Host.Outcome State Fault Refusal :=
  let f : AnswerFaults := ⟨marks.poison, marks.refused⟩
  match s.remoteOp gid id with
  | none => .next s
  | some op =>
    if data.length ≠ op.reqs.length then .next s
    else match op.kind, s.waiter gid op with
      | .weir kind handle value tries, _ =>
        let o : WeirOp := ⟨gid, op.entry, kind, handle, value, (s.part (s.partOf gid)).ppid, none⟩
        .next (((s.dropRemote gid id).weirAnswered o tries f.weirResult ((data.headD 0#128).toNat % 2 ^ 64)).operationDone gid)
      | .load dst signed, some c =>
        let s := s.dropRemote gid id
        let m := (sameCopy [] (op.reqs.zip data)).foldl (loadAnswer c id op.word (BitVec.ofNat 8 dst) signed (f.spread op.reqs)) ⟨s, c.regs, [], [], [], []⟩
        .next (m.s.endRemote c { c with regs := m.regs } op.word (liveBad c op.bad ++ m.bad) (liveAborts c op.aborts))
      | .bow dst v, some c =>
        .next (bowAnswer op (BitVec.ofNat 8 dst) v ((data.headD 0#128).toNat % 2 ^ 64) f (s.dropRemote gid id) c)
      | .atomic _ _ _ _, _ => .next s
      | _, none => .next ((s.dropRemote gid id).operationDone gid)

/-- The acquire half of an atomic of threads outside transactions (R191, R391). -/
def State.acquireAnswer (s : State) (c : Ctx) : State :=
  if c.split.mask &&& ~~~(c.txLanes s) ≠ 0#64 ∧ 3 ≤ c.atScope ∧ c.atOrder % 2 = 1 then s.dropL1 (coreOf c.gid) else s

/-- ATOMIC_RESPONSE (R93, R210, R388): the old values that the home returns. -/
def execAtomicResponse (gid id : Nat) (data : List (BitVec 128)) (marks : AnswerMarks) (s : State) : Host.Outcome State Fault Refusal :=
  match s.remoteOp gid id with
  | none => .next s
  | some op =>
    if data.length ≠ op.reqs.length then .next s
    else match op.kind, s.waiter gid op with
      | .atomic dst code et draws, some c =>
        let s := s.dropRemote gid id
        let d := BitVec.ofNat 8 dst
        let size := atSize et
        let e : AtEnv := { op := atOpOf code, et := et, mode := c.regs.mode, shared := bitAt op.word.toNat 31, x := c.atX size d, nv := c.atNew size d,
                           ds := fun t => (FMap.find draws t).getD [] }
        let m := (op.reqs.zip data).foldl (atomicAnswer c e op.word d ((⟨marks.poison, marks.refused⟩ : AnswerFaults).spread op.reqs)) ⟨s, c.regs, [], [], [], []⟩
        .next ((m.s.acquireAnswer c).endRemote c { c with regs := m.regs } op.word (liveBad c op.bad ++ m.bad) (liveAborts c op.aborts))
      | .atomic _ _ _ _, none => .next ((s.dropRemote gid id).operationDone gid)
      | _, _ => .next s

/-! Flushes and paths. -/

/-- The issuers of a group whose instruction waits for flush answers. -/
def State.flushWaiters (s : State) (gid : Nat) : List Nat :=
  match FMap.find s.groups gid with
  | some g => (g.table.filter (fun q => decide (q.2.wait = .flush))).map (fun q => q.1) ++
      (if ((FMap.find s.handlers (hidOf gid)).map (fun h => decide (h.gid = gid ∧ h.wait = .flush))).getD false then [16] else [])
  | none => []

/-- Every marker of a group is answered: its release takes effect (R259), or its handler can start (R182). -/
def State.flushOver (s : State) (gid : Nat) : State :=
  match FMap.find s.groups gid with
  | some g =>
    if !g.links.flush.isEmpty then s
    else
      let s := (s.flushWaiters gid).foldl (fun s e => s.reissueEntry gid e) s
      if g.status = .trapped then s.schedule (.handlerEntry (hidOf gid)) else s
  | none => s

/-- Markers of a group are no longer waited for. -/
def State.endMarkers (s : State) (gid : Nat) (done : Nat × Nat → Bool) : State :=
  s.modGroup gid (fun g => { g with links := { g.links with flush := g.links.flush.filter (fun q => !done q), stores := g.links.stores.filter (fun q => !done q.2) } })

/-- Markers of a lock whose holder is gone: when all are answered, the lock is released (R227, R259). -/
def State.endLockMarkers (s : State) (p : Nat) (done : Nat × Nat → Bool) : State :=
  (s.modPart p (fun x => { x with lockFlush := x.lockFlush.filter (fun q => !done q) })).schedule (.fallbackLockGrant p)

/-- Markers of a tier move are no longer waited for (R199, R246). -/
def State.endMoveMarkers (s : State) (move : Nat) (done : Nat × Nat → Bool) : State :=
  ({ s with moves := s.moves.map (fun (m : TierMove) => if m.id = move then { m with flush := m.flush.filter (fun q => !done q) } else m) }).schedule .tierMoveComplete

/-- Markers of a grid are no longer waited for (R72). -/
def State.endGridMarkers (s : State) (grid : Nat) (done : Nat × Nat → Bool) : State :=
  let s := s.modGrid grid (fun g => { g with flush := g.flush.filter (fun q => !done q) })
  s.schedule (.gridCompletion grid)

/-- Markers of a sender that is no group are no longer waited for. -/
def State.endUnitMarkers (s : State) (sender : Nat) (done : Nat × Nat → Bool) : State :=
  let k := sender - gridSender 0
  match k % 4 with
  | 0 => s.endGridMarkers (k / 4) done
  | 1 => s.endLockMarkers (k / 4) done
  | 2 => s.endMoveMarkers (k / 4) done
  | _ => s.endEngineMarkers (k / 4) done

/-- FLUSH_ANSWER (R120, R259): only the marker with this number is answered, and an answer to a VF's groups that carries a
stale generation is dropped. -/
def execFlushAnswer (gid : Nat) (marker : Marker) (s : State) : Host.Outcome State Fault Refusal :=
  let done := fun (q : Nat × Nat) => decide (q = (marker.pkg, marker.id))
  if gridSender 0 ≤ gid then .next (s.endUnitMarkers gid done)
  else if marker.gen ≠ (s.vf marker.vf).gen then .next s
  else .next ((s.endMarkers gid done).flushOver gid)

/-- FLUSH_MARKER (R46, R120, R259): what the sender wrote earlier has been performed here when its marker arrives; the answer
carries the generation of the sender's VF. -/
def execFlushMarker (marker : Marker) (s : State) : Host.Outcome State Fault Refusal :=
  .next (if s.power then s.send (.flushAnswer marker) else s)

/-- An operation that has an access to a package that cannot be reached: every requesting lane faults (R31). -/
def State.timeoutOp (s : State) (gid pkg : Nat) (op : RemoteOp) : State :=
  let p := s.partOf gid
  match op.kind, s.waiter gid op with
  | .weir kind handle value _, _ =>
    let x := s.pathFault p (pkg * 2 ^ 42) handle
    ((s.dropRemote gid op.id).weirFault ⟨gid, op.entry, kind, handle, value, 0, none⟩
      (fun m => { FaultReq.at x.code m x.addr with physical := x.physical, pathFail := x.pathFail })).operationDone gid
  | _, none => (s.dropRemote gid op.id).operationDone gid
  | _, some c =>
    let f := fun (q : RemoteReq) => (threadsOf (q.live c)).map (fun t => (t, s.pathFault p q.pa q.va))
    (s.dropRemote gid op.id).endRemote c c op.word (liveBad c op.bad ++ (op.reqs.map f).flatten) (liveAborts c op.aborts)

/-- A waiting instruction is given a wait. -/
def State.setWait (s : State) (gid e : Nat) (w : Wait) : State :=
  match s.ctxOf (some (issuerAt gid e)) with
  | some c => s.putCtx { c with split := { c.split with wait := w } }
  | none => s

/-- A release whose marker cannot reach a package counts as performed, and its threads take the fault of
R31 or R19 when it issues again (R260). -/
def State.timeoutFlush (s : State) (gid pkg : Nat) : State :=
  match FMap.find s.groups gid with
  | none => s
  | some g =>
    let done := fun (q : Nat × Nat) => decide (q.1 = pkg)
    if !g.links.flush.any done then s
    else
      let es := s.flushWaiters gid
      es.foldl (fun s e => s.setWait gid e (.unreached pkg)) ((s.endMarkers gid done).flushOver gid)

/-- MILLRACE_PATH_TIMEOUT (R31, R260): what waits for an answer of a package that cannot be reached ends, and what waits for
a path at all is tried again, and ends. -/
def execMillracePathTimeout (pkg : Nat) (s : State) : Host.Outcome State Fault Refusal :=
  let lost := (FMap.keys s.groups).filter (fun k => s.unreachable (s.partOf k) pkg)
  let s := lost.foldl (fun (s : State) (gid : Nat) =>
    let ops : List RemoteOp := match FMap.find s.groups gid with
      | some g => g.links.remote.filter (fun (r : RemoteOp) => r.reqs.any (fun q => decide (pkgOf q.pa = pkg)))
      | none => []
    (ops.foldl (fun (s : State) (op : RemoteOp) => s.timeoutOp gid pkg op) s).timeoutFlush gid pkg) s
  let grids := (s.grids.filter (fun q => s.unreachable (s.vf q.2.vf).part pkg && q.2.flush.any (fun x => decide (x.1 = pkg)))).map (fun q => q.1)
  let lost := fun (q : Nat × Nat) => decide (q.1 = pkg)
  let s := grids.foldl (fun s k => s.endGridMarkers k lost) s
  let locks := (s.parts.filter (fun q => s.unreachable q.1 pkg && q.2.lockFlush.any lost)).map (fun q => q.1)
  let s := locks.foldl (fun s p => s.endLockMarkers p lost) s
  let moves := (s.moves.filter (fun m => s.unreachable m.part pkg && m.flush.any lost)).map (fun m => m.id)
  let s := moves.foldl (fun s k => s.endMoveMarkers k lost) s
  let cmds := (s.vfCommands.filter (fun q => s.unreachable (s.vf q.1).part pkg && q.2.marks.any lost)).map (fun q => q.2.id)
  .next (cmds.foldl (fun s k => s.endEngineMarkers k lost) s).releaseHeld

/-- Packages that a group waits for. -/
def Group.pendingPkgs (g : Group) : List Nat :=
  ((g.links.remote.map (fun r => r.reqs.map (fun q => pkgOf q.pa))).flatten ++ g.links.flush.map (fun q => q.1)).eraseDups

/-- Every package for which a group, a grid, a lock, a tier move or an engine command of a partition waits. -/
def State.pendingPkgs (s : State) (p : Nat) : List Nat :=
  (((s.groups.filter (fun q => decide (s.partOf q.1 = p))).map (fun q => q.2.pendingPkgs)).flatten ++
    ((s.grids.filter (fun q => decide ((s.vf q.2.vf).part = p))).map (fun q => q.2.flush.map (fun x => x.1))).flatten ++
    (s.part p).lockFlush.map (fun x => x.1) ++ ((s.moves.filter (fun m => decide (m.part = p))).map (fun m => m.flush.map (fun x => x.1))).flatten ++
    ((s.vfCommands.filter (fun q => decide ((s.vf q.1).part = p))).map (fun q => q.2.marks.map (fun x => x.1))).flatten).eraseDups

/-- The markers that are waited for are sent again on the paths that are left (R30). -/
def State.resendMarkers (s : State) : State :=
  let again := fun (p vf sender : Nat) (l : List (Nat × Nat)) (s : State) =>
    l.foldl (fun s x => if s.pathUp p x.1 then s.send (.flushMarker x.1 sender x.2 (s.sender vf)) else s) s
  let s := s.groups.foldl (fun s q => again (s.partOf q.1) (s.vfOf q.1) q.1 q.2.links.flush s) s
  let s := s.grids.foldl (fun s q => again (s.vf q.2.vf).part q.2.vf (gridSender q.1) q.2.flush s) s
  let s := s.parts.foldl (fun s q => again q.1 q.2.lockVf (lockSender q.1) q.2.lockFlush s) s
  let s := s.moves.foldl (fun s m => again m.part m.vf (moveSender m.id) m.flush s) s
  s.vfCommands.foldl (fun s q => again (s.vf q.1).part q.1 (engineSender q.2.id) q.2.marks s) s

/-- MILLRACE_PORT_FAILURE (R30, R46): the port leaves the spray set; what was outstanding on it is sent on the
others, and where none is left it times out 100 µs later (R31). -/
def execMillracePortFailure (port : Nat) (s : State) : Host.Outcome State Fault Refusal :=
  if !(s.power && decide (port < 32) && bitAt s.boot.portsUp port) then .next s
  else .next (s.portsChanged { s with boot := { s.boot with portsUp := s.boot.portsUp - 2 ^ port } }).resendMarkers

/-! Packets from other packages. -/

/-- The local partition that carries a PPID (R82, R93). -/
def State.partOfPpid (s : State) (ppid : Nat) : Option Nat :=
  (s.parts.find? (fun q => q.2.live && decide (q.2.ppid = ppid))).map (fun q => q.1)

/-- A request of another package's partition is admitted at an offset (R93, R115). -/
def State.admitPpid (s : State) (ppid off : Nat) : Bool :=
  let v := s.stripe off
  decide (off < tierEnd) && (if v < 64 then decide (s.partOfPpid ppid = some v) else decide (v < 128) && s.commonsAdmits (v - 64) ppid)

/-- The sender is answered. -/
def State.answerPacket (s : State) (src : Nat) (to_ : Sender) (refused : Bool) (data : List Byte) (poison : Bool) : State :=
  s.send (.millraceAnswer src refused data poison to_)

/-- A peer's L2 has read a line (R215, R216): it has a copy then, and its own copy stays as it is; every other is one that
another agent has read. -/
def DirEntry.peerRead (d : DirEntry) (slot : Nat) (granules : List Nat) : DirEntry :=
  let r := d.deviceRead granules
  match FMap.find d.peers slot with
  | some x => ⟨r.host, FMap.insert r.peers slot x⟩
  | none => ⟨r.host, FMap.insert r.peers slot (if d.host.isEmpty && d.peers.isEmpty then .e else .s)⟩

/-- A peer reads `n` bytes: the tracked copies of every line that it meets (R215, R216). -/
def State.peerCopy (s : State) (src off n : Nat) : State :=
  (spanUnits 256 off n).foldl (fun s line =>
    let gs := ((spanUnits 64 off n).filter (fun g => decide (g / 4 = line) && !s.hostWrites g)).map (fun g => g % 4)
    let d := FMap.getD s.ms.dir DirEntry.empty line
    { s with ms := { s.ms with dir := FMap.insert s.ms.dir line (d.peerRead (nodeSlot src) gs) } }) s

/-- A request of another package that is admitted here (R28, R29, R209, R216, R234, R254): a read, a write, or an atomic,
which is one event. -/
def State.servePacket (s : State) (src : Nat) (to_ : Sender) (kind p off : Nat) (bytes : List Byte) (poison : Bool) : State :=
  if kind = 0 then
    let n := bytes.length
    let t := if s.isPeer src then ((s.peerCopy src off n).touchL2 p off n false).2 else s.readHome p off n
    t.answerPacket src to_ false (s.bytesAt off n) (s.poisoned off n)
  else if kind = 1 then
    let s := (s.writeHome none p off bytes).clearPoison [(off, bytes.length)]
    if poison then s.markPoison (spanUnits 32 off bytes.length) else s
  else
    let n := if kind = scatterKind then fmtBits (imageNat bytes 0 1) / 8 else atSize (kind / 16)
    let old := s.wordAt off n
    let new := if kind = scatterKind then scatterResult bytes old else homeResult kind bytes old
    if s.poisoned off n then (if kind = scatterKind then s else s.answerPacket src to_ false [] true)
    else
      let t := s.writeHome none p off (bytesLE n new)
      if kind = scatterKind then (if poison then t.markPoison (spanUnits 32 off n) else t) else t.answerPacket src to_ false (bytesLE n old) false

/-- The bytes that a request reaches. -/
def packetSize (kind : Nat) (bytes : List Byte) : Nat :=
  if kind < 2 then bytes.length else if kind = scatterKind then max 1 (fmtBits (imageNat bytes 0 1) / 8) else atSize (kind / 16)

/-- Lists that commons of this package have from weirs of other packages (R115): a list replaces the weir's last one, and
an empty list withdraws it. -/
def State.registerList (s : State) (src commons weir : Nat) (acl : List Nat) : State :=
  let rest := s.ms.guests.filter (fun q => !decide (q.1 = src ∧ q.2.1 = weir))
  { s with ms := { s.ms with guests := if acl.isEmpty then rest else rest ++ [(src, weir, commons, acl)] } }

/-- A message between the units of two packages: a weir operation (R111), its withdrawal (R114), a list for a commons
(R115), the end of a cached copy of a peer's line (R215). -/
def State.unitPacket (s : State) (src kind : Nat) (from_ : Sender) (pa : Nat) (bytes : List Byte) : State :=
  if kind = invalidateKind then
    let line := peerKey pa / 256
    (({ s with ms := { s.ms with l2 := s.ms.l2.filter (fun x => decide (x.line ≠ line)) } } : State).dropLine line).spoilPeer pa
  else if kind = 48 then s.withdrawFrom src (imageNat bytes 0 8)
  else if kind = 49 then
    s.registerList src (offOf pa % 64) (imageNat bytes 0 8) ((List.range ((bytes.length - 8) / 4)).map (fun i => imageNat bytes (8 + 4 * i) 4))
  else s.weirArrives pa ⟨0, 0, kind - weirKind, 0, imageNat bytes 0 8, from_.ppid, some ⟨src, imageNat bytes 8 8, from_⟩⟩

/-- MILLRACE_PACKET_RX (R19, R28, R29, R46, R93, R111, R115, R120, R209, R213, R216): a packet to a VF that carries a stale
generation is dropped; a request that is admitted is performed at its home here, and any other is refused. The answer carries
the asking VF and the generation that it had. -/
def execMillracePacketRx (vf gen ppid : Nat) (req : PeerRequest) (pa : Nat) (body : PacketBody) (s : State) : Host.Outcome State Fault Refusal :=
  let src := req.src
  let kind := req.kind
  let bytes := body.bytes
  let off := offOf pa
  let n := packetSize kind bytes
  let to_ : Sender := ⟨ppid, req.vf, req.gen⟩
  if !s.power ∨ gen ≠ (s.vf vf).gen then .next s
  else if kind = invalidateKind then .next (if pkgOf pa = src ∧ s.isPeer src = true then s.unitPacket src kind to_ pa bytes else s)
  else if pkgOf pa ≠ s.boot.pkg ∨ 2 ^ 51 ≤ pa then .next s
  else if (weirKind ≤ kind ∧ kind < weirKind + 4) ∨ kind = 48 ∨ kind = 49 then .next (s.unitPacket src kind to_ pa bytes)
  else if n = 0 ∨ off / 4096 ≠ (off + n - 1) / 4096 then .next s
  else if s.admitPpid ppid off = false then .next (s.answerPacket src to_ true [] false)
  else
    let p := (s.partOfPpid ppid).getD 0
    match (if kind = 1 then s.fillPost p off n else s.toPost p off n) with
    | some sec =>
      let i : Instr := .millracePacketRx vf gen ppid req pa body
      .next (s.postOrHold p (s.containRequest vf sec (if kind = scatterKind then 1 else 0) 0 0 (some i)) i)
    | none => .next (s.servePacket src to_ kind p off bytes body.poison)

/-! Estuary. -/

/-- The receiver's side of a connection's ordered packets: they begin at 0, and a handle that is set up again goes on from
where it was (log 75). -/
def Vf.rodState (v : Vf) (conn : Nat) : RodState := FMap.getD v.rod ⟨0, []⟩ conn

/-- A packet of a connection has been dealt with: in ordered delivery the next one's turn has come, and one that was held
for it is performed (R32, R35). -/
def State.rodNext (s : State) (vf gen conn mode seq : Nat) : State :=
  if mode = 0 then s
  else
    let r := (s.vf vf).rodState conn
    let s := s.modVf vf (fun v => { v with rod := FMap.setD v.rod ⟨0, []⟩ conn ⟨seq + 1, r.held.filter (fun h => decide (seq + 1 < h.seq))⟩ })
    match r.held.find? (fun h => decide (h.seq = seq + 1)) with
    | some h => s.schedule (.estuaryPacketRx vf gen ⟨conn, h.seq, mode, h.read⟩ h.va h.bytes h.counter)
    | none => s

/-- The generation of a connection's peer (R120). -/
def State.peerGen (s : State) (vf conn : Nat) : Nat := (FMap.getD (s.vf vf).conns (0, 0) conn).2

/-- A peer's read of `n` bytes (R417, R418): the bytes go out, and a poisoned sector does not (R209). -/
def State.estuaryRead (s : State) (vf conn seq va n : Nat) (again : Instr) (rest : State → State) : State :=
  let refuse := fun (st : Nat) (s : State) => rest (s.send (.nack vf conn (s.peerGen vf conn) st))
  if meetsPool va n then refuse 2 s
  else match unitReadRange (s.whoVf vf) va n s with
    | (.error (.assist x), s) => s.unitAssist (s.whoVf vf) x again
    | (.error (.fault _), s) => refuse 2 s
    | (.ok (_, true), s) => refuse 7 s
    | (.ok (b, false), s) => rest (s.send (.estuaryData vf conn (s.peerGen vf conn) seq b))

/-- ESTUARY_PACKET_RX (R32, R33, R35, R46, R120, R417, R418): a write's payload is performed, then the named counter; a
read's bytes are sent. Under ROD a packet before whose turn others are missing is held, and one that has been performed is
dropped; under RUD a second copy is performed again (log 75). -/
def execEstuaryPacketRx (vf gen : Nat) (head : EstuaryHead) (va : Nat) (bytes : List (BitVec 8)) (counter : Option Nat) (s : State) :
    Host.Outcome State Fault Refusal :=
  let conn := head.conn
  let seq := head.seq
  let mode := head.mode
  let i : Instr := .estuaryPacketRx vf gen head va bytes counter
  let r := (s.vf vf).rodState conn
  let refuse := fun (s : State) => (s.send (.nack vf conn (s.peerGen vf conn) 2)).rodNext vf gen conn mode seq
  if !s.power ∨ gen ≠ (s.vf vf).gen ∨ (s.vf vf).assigned = false then .next s
  else if 1 < mode then .next (s.send (.negAck vf conn (s.peerGen vf conn)))
  else if mode = 1 ∧ seq < r.next then .next s
  else if mode = 1 ∧ r.next < seq then
    .next (if r.held.any (fun h => decide (h.seq = seq)) then s
      else s.modVf vf (fun v => { v with rod := FMap.setD v.rod ⟨0, []⟩ conn { r with held := r.held ++ [⟨seq, va, bytes, counter, head.read⟩] } }))
  else match head.read with
  | some n => .next (s.estuaryRead vf conn seq va n i (fun s => s.rodNext vf gen conn mode seq))
  | none =>
  if meetsPool va bytes.length then .next (refuse s)
  else match unitWriteRange (s.whoVf vf) va false bytes s with
    | (.error (.assist x), s) => .next (s.unitAssist (s.whoVf vf) x i)
    | (.error (.fault _), s) => .next (refuse s)
    | (.ok _, s) => .next ((match counter with
      | some k => s.countUp vf k 0
      | none => s).rodNext vf gen conn mode seq)

/-- FUNCCTL.retx as it stood when a packet was first sent (R35, R79), with a usable assist table. -/
def State.retxPosted (s : State) (p first : Nat) : Bool :=
  let x := s.part p
  (bitAt x.funcctl 2 ^^ decide ((x.retxLog.filter (fun t => decide (first < t))).length % 2 = 1)) && decide (x.assistBase ≠ 0) && (s.hyperOff x.assistBase 4096).isSome

/-- ESTUARY_RETX_TIMEOUT (R34, R35, R46, R79): a packet of a work request is sent again, or posted where FUNCCTL.retx was 1
when it was first sent. A negative acknowledgement of a stale generation is dropped (R120). -/
def execEstuaryRetxTimeout (conn vf port seq : Nat) (packet : RetxPacket) (nak : Bool) (s : State) : Host.Outcome State Fault Refusal :=
  let p := (s.vf vf).part
  if !s.power ∨ (nak = true ∧ packet.gen ≠ (s.vf vf).gen) then .next s
  else if s.retxPosted p packet.first then
    let r : AssistReq := ⟨2, if nak then 1 else 0, [conn % 2 ^ 16 + vf % 2 ^ 10 * 2 ^ 16 + port % 8 * 2 ^ 32, seq, packet.sent], 0, packet.work, none⟩
    .next (s.postOrHold p r (.estuaryRetxTimeout conn vf port seq packet nak))
  else .next (s.send (.resend vf conn (s.peerGen vf conn) port seq))

/-! Tier moves. -/

/-- A move whose entry has been read: the entry's range, its first word, the package of its copies, where they lie there,
and their length (R97, R199). -/
structure MovePlan where
  range : CachedRange
  w0 : Nat
  pkg : Nat
  fast : Nat
  cap : Nat
  len : Nat

/-- The entry of a move: what the hypervisor has to answer first, or none where the tier unit meets no tier entry (R93). -/
def State.moveEntry (s : State) (m : TierMove) : Except AssistNeed (Option MovePlan) × State :=
  match lookup2 (s.whoVf m.vf) m.ipa 1 s with
  | (.ok r, s) =>
    match r.tierAt with
    | none => (.ok none, s)
    | some e =>
      let rd := readTable2 m.part m.vf
      match rd e s with
      | (.ok w0, s) => match rd (e + 8) s with
        | (.ok w1, s) => match rd (e + 16) s with
          | (.ok w2, s) =>
            let tgt := field w2 16 36 * 2 ^ 16
            (.ok (some ⟨r, w0, pkgOf tgt, offOf tgt, capBase + field w1 47 17 * 2 ^ 24, field w1 16 31 * 2 ^ 16⟩), s)
          | (.error (.assist x), s) => (.error x, s)
          | (.error (.fault _), s) => (.ok none, s)
        | (.error (.assist x), s) => (.error x, s)
        | (.error (.fault _), s) => (.ok none, s)
      | (.error (.assist x), s) => (.error x, s)
      | (.error (.fault _), s) => (.ok none, s)
  | (.error (.assist x), s) => (.error x, s)
  | (.error (.fault _), s) => (.ok none, s)

/-- A range of offsets lies in the partition's stripes (R199). -/
def State.rangeOwned (s : State) (p off n : Nat) : Bool :=
  (List.range ((off + n - 1) / 2 ^ 23 + 1 - off / 2 ^ 23)).all (fun i => decide (s.stripe ((off / 2 ^ 23 + i) * 2 ^ 23) = p))

/-- Copy one sector with its poison (R199 step 2, R209); L1 copies of the destination go (R195). -/
def State.copySector (s : State) (p src dst : Nat) : State :=
  let bad := FMap.getD s.ms.poison false (src / 32)
  ((s.writeHome none p dst (s.bytesAt src 32)).dropLine (dst / 256)).setPoison (dst / 32) bad

/-- After status 1 the owned sectors of the other copy hold unpredictable values (R199). -/
def State.spoilSector (s : State) (p dst : Nat) : State :=
  if s.stripe dst = p then
    let q := s.freeBytes 32
    (q.2.writeHome none p dst q.1).dropLine (dst / 256)
  else s

/-- A group's transaction that touched either copy of a flipped range of a package does not validate (R201). -/
def State.tearLanes (s : State) (pkg lo hi n : Nat) : State :=
  let hit := fun (pa : Nat) => decide (pkgOf pa = pkg) && (decide (lo ≤ offOf pa ∧ offOf pa < lo + n) || decide (hi ≤ offOf pa ∧ offOf pa < hi + n))
  let tear := fun (x : TxLane) => if x.isOpen && (x.rlines.any (fun l => hit (l * 64)) || x.wbuf.any (fun b => hit b.1)) then { x with torn := true } else x
  { s with groups := FMap.mapVals (fun _ (g : Group) => { g with tx := FMap.mapVals (fun _ (x : TxLane) => tear x) g.tx }) s.groups }

/-- Copies of a line of another package's memory leave every L1 of this one, and none comes back by an answer that is under
way (R195, R200, R215). -/
def State.dropFar (s : State) (pa : Nat) : State := (s.dropLine (peerKey pa / 256)).spoilPeer pa

/-- Copy one sector between two places of another package, over Millrace (R199, R200, R209). -/
def State.copyFar (s : State) (vf pkg src dst : Nat) : State :=
  let q := (s.sendRemote vf 0 (pkg * 2 ^ 42 + src) 32 [] false).farRead 32
  (q.2.sendRemote vf 1 (pkg * 2 ^ 42 + dst) 32 q.1.bytes q.1.poison).dropFar (pkg * 2 ^ 42 + dst)

/-- Step 3 of a move (R199): cur flips in the entry, and what is cached of it goes. -/
def State.flipRange (s : State) (m : TierMove) (x : MovePlan) : State :=
  let e := x.range.tierAt.getD 0
  let b := bytesLE 8 (if bitAt x.w0 5 then x.w0 - 32 else x.w0 + 32)
  let s := if pkgOf e = s.boot.pkg then s.pokeHyper e b else s.sendRemote m.vf 1 e 8 b false
  (s.dropRanges (fun r => decide (r.part = m.part ∧ r.tierAt = x.range.tierAt))).tearLanes x.pkg x.fast x.cap x.len

/-- Steps 1 to 3 of a move (R199): its status, or what the hypervisor has to answer first (R102, R213). Whether another
package that holds both copies refuses them is a free value (log 17). -/
def State.moveRange (s : State) (m : TierMove) : Except AssistNeed Nat × State :=
  match s.moveEntry m with
  | (.error x, s) => (.error x, s)
  | (.ok none, s) => (.ok 1, s)
  | (.ok (some x), s) =>
    let cur := if bitAt x.w0 5 then 1 else 0
    let src := if cur = 1 then x.cap else x.fast
    let dst := if cur = 1 then x.fast else x.cap
    let secs := List.range (x.len / 32)
    if cur = m.target then (.ok 0, s)
    else if x.pkg ≠ s.boot.pkg then
      let q := s.freeWord
      if q.1.getLsbD 0 then (.ok 1, q.2)
      else (.ok 0, (secs.foldl (fun s i => s.copyFar m.vf x.pkg (src + 32 * i) (dst + 32 * i)) q.2).flipRange m x)
    else if s.rangeOwned m.part src x.len && s.rangeOwned m.part dst x.len then
      match s.toPost m.part src x.len with
      | some sec => (.error (.contain sec), s)
      | none => (.ok 0, (secs.foldl (fun s i => s.copySector m.part (src + 32 * i) (dst + 32 * i)) s).flipRange m x)
    else (.ok 1, secs.foldl (fun s i => s.spoilSector m.part (dst + 32 * i)) s)

/-- The packages that a move's steps 3 and 4 have written (R97, R199): the entry's, if it flipped, and that of the status. -/
def State.moveWrote (s : State) (m : TierMove) : List Nat :=
  let far := fun (r : Except XStop (Place × Nat)) => match r with
    | .ok (.remote pa, _) => [pkgOf pa]
    | _ => []
  let entry := match (lookup2 (s.whoVf m.vf) m.ipa 1 s).1 with
    | .ok r => ((r.tierAt.map (fun e => if pkgOf e = s.boot.pkg then [] else [pkgOf e])).getD []) ++ (if pkgOf r.target = s.boot.pkg then [] else [pkgOf r.target])
    | _ => []
  (entry ++ far (resolve (s.whoVf m.vf) (m.bobj + 8) 2 s).1).eraseDups

/-- Step 4 of a move whose status is written (R199, R246): the signal is a release, and waits until what the move has written
in other packages is performed there. -/
def State.moveSignal (s : State) (m : TierMove) (rest : List TierMove) : State :=
  let done := fun (s : State) => ({ s with moves := rest }).schedule .tierMoveComplete
  match m.written with
  | some (p :: l) =>
    let q := s.sendMarkers m.vf (moveSender m.id) (p :: l)
    { q.2 with moves := { m with written := some [], flush := q.1 } :: rest }
  | _ =>
    if !m.flush.isEmpty then s
    else match unitSignal (s.whoVf m.vf) m.bobj 1 s with
      | (.error (.stop (.assist x)), s) => s.unitAssist (s.whoVf m.vf) x .tierMoveComplete
      | (_, s) => done s

/-- TIER_MOVE_COMPLETE (R199): the oldest move runs to its end, status and signal; one that waits for the hypervisor's answer
holds the later ones. -/
def execTierMoveComplete (s : State) : Host.Outcome State Fault Refusal :=
  match s.moves with
  | [] => .next s
  | m :: rest =>
    let w := s.whoVf m.vf
    if m.written.isSome then .next (s.moveSignal m rest)
    else match ((match m.status with
      | some k => (.ok k, s)
      | none => s.moveRange m) : Except AssistNeed Nat × State) with
    | (.error x, s) => .next (s.unitAssist w x .tierMoveComplete)
    | (.ok status, s) =>
      let s := { s with moves := { m with status := some status } :: rest }
      match unitWrite w (m.bobj + 8) (bytesLE 8 status) s with
      | (.error (.assist x), s) => .next (s.unitAssist w x .tierMoveComplete)
      | (.error (.fault _), s) => .next (({ s with moves := rest }).schedule .tierMoveComplete)
      | (.ok _, s) => .next
        (let m' : TierMove := { m with status := some status, written := some (s.moveWrote m) }
        ({ s with moves := m' :: rest } : State).moveSignal m' rest)

end Sys2Proof.Machine
end

