-- ==== Sys2Proof/Machine/Assist.lean ====
section
/-! DEFINITION. The hypervisor's answers to requests of the assist table (R35, R80, R102, R128, R152,
R213). -/

namespace Sys2Proof.Machine

/-- The 64 bytes of a slot as the hypervisor leaves them (R80): none where the table is not usable. -/
def State.assistSlot (s : State) (p slot : Nat) : Option (List Byte) :=
  (s.hyperOff ((s.part p).assistBase + 64 * slot) 64).map (fun off => s.bytesAt off 64)

/-- Data word i of a slot. -/
def slotWord (b : List Byte) (i : Nat) : Nat := leField b (8 + 8 * i) 8

/-- Who waits for a walk's answer: a unit's event, or the split or handler of a group's entry. -/
def AssistReq.asker (r : AssistReq) : Issuer :=
  match r.resume with
  | some i => .unit i
  | none => issuerAt r.gid r.entry

/-- What a walk's answer gives (R102): the range to install, or a denial for its asker where the answer is one, or is
malformed, or does not cover the address. -/
def walkAnswer (p : Nat) (r : AssistReq) (b : List Byte) (entryAt : Nat) : Except Denial CachedRange :=
  let input := r.data.getD 0 0
  let w1 := r.data.getD 1 0
  let vf := if bitAt w1 8 then none else some (field w1 16 10)
  let deny := fun (k : Nat) => (Except.error ⟨p, vf, input, k, some r.asker⟩ : Except Denial CachedRange)
  match leField b 2 2 with
  | 0 =>
    let e := rangeEntry p vf entryAt (slotWord b 2) (slotWord b 3) (slotWord b 4)
    match e.2.2 with
    | some c => if bitAt (slotWord b 2) 0 ∧ e.1 ≤ input ∧ input < e.2.1 then .ok c else deny fTranslation
    | none => deny fTranslation
  | 2 => deny fPermission
  | _ => deny fTranslation

/-- The die whose range cache a request's answer enters: that of the group's core, or die 0 for a unit, which
posts with group 0 (log 10). -/
def AssistReq.die (r : AssistReq) : Nat := dieOf (coreOf r.gid)

/-- Every VF of a partition is reset (R213). -/
def State.resetPart (s : State) (p : Nat) : State :=
  (s.vfs.filter (fun q => q.2.assigned && decide (q.2.part = p))).foldl (fun s q => s.schedule (.vreset q.1)) s

/-- The answer of R213: the sector is known, and the reach of the error. -/
def State.answerContain (s : State) (p status : Nat) (r : AssistReq) : State :=
  let s := { s with ms := { s.ms with known := FMap.insert s.ms.known (offOf (r.data.getD 0 0) / 32) true } }
  if status = 1 then s.schedule (.vreset (field (r.data.getD 1 0) 16 10)) else if status = 2 then s.resetPart p else s

/-- The answer of R35: status 1 ends the work request of the packet, which the request's entry names. -/
def State.answerRetx (s : State) (status : Nat) (r : AssistReq) : State :=
  let w0 := r.data.getD 0 0
  let conn := field w0 0 16
  let vf := field w0 16 10
  let mine := s.works.filter (fun w => decide (w.vf = vf ∧ w.conn = conn))
  let fail := fun (s : State) (w : NetWork) => s.schedule (.estuaryWorkComplete w.id 2 [])
  if status = 1 then (mine.filter (fun w => decide (w.id = r.entry))).foldl fail s
  else if status = 2 then
    let s := mine.foldl fail s
    let gen := s.peerGen vf conn
    let s := if ((FMap.find (s.vf vf).conns conn).isSome) then
        (s.modVf vf (fun v => { v with conns := FMap.erase v.conns conn })).modPart (s.vf vf).part (fun x => { x with liveConns := x.liveConns - 1 })
      else s
    s.send (.teardown vf conn gen)
  else s.send (.resend vf conn (s.peerGen vf conn) (field w0 32 3) (r.data.getD 1 0))

/-- A tier move whose access a hypervisor has dropped ends there: the later moves go on (R199, R213). -/
def State.dropMove (s : State) (i : Instr) : State := if i = .tierMoveComplete then ({ s with moves := s.moves.tail }).schedule i else s

/-- A restore goes on after its VF's reset has been asked for (R213). -/
def keepsOn : Instr → Bool
  | .switchIn _ => true
  | _ => false

/-- The split or handler that posted a request goes on; a unit's event goes on unless its access is dropped. -/
def State.resumeAssist (s : State) (slot : Nat) (r : AssistReq) (dropped : Bool) : State :=
  match r.resume with
  | some i => if dropped && !keepsOn i then s.dropMove i else s.schedule i
  | none =>
    match s.ctxOf (some (issuerAt r.gid r.entry)) with
    | some c => if c.split.wait = .assist slot then s.reissueEntry r.gid r.entry else s
    | none => s

/-- A slot has freed: events and ticks that were held for one go on (R80). -/
def State.slotFreed (s : State) : State :=
  let s := s.releaseHeld
  (s.parts.filter (fun q => q.2.tickHeld)).foldl (fun s q => s.schedule (.switchTick q.1)) s

/-- The effect of an answer: `b` holds the slot's bytes. -/
def State.applyAnswer (s : State) (p slot : Nat) (r : AssistReq) (b : List Byte) : State :=
  let status := leField b 2 2
  match r.fn with
  | 0 =>
    (match walkAnswer p r b ((s.part p).assistBase + 64 * slot + 24) with
      | .ok c => s.keepRange ⟨p, 0, none, r.die, none⟩ c
      | .error d => { s with ms := { s.ms with denials := d :: s.ms.denials } }).resumeAssist slot r false
  | 1 => s.answerPlacement p r.entry status (r.data.getD 0 0) (r.data.getD 1 0) (slotWord b 2)
  | 2 => s.answerRetx status r
  | 3 => (s.answerContain p status r).resumeAssist slot r (decide (status = 1 ∨ status = 2))
  | _ => s.answerSwitch p status (slotWord b 2)

/-- A request whose table can no longer be read is handled as in hardware mode (R93). -/
def State.hardwareAnswer (s : State) (p slot : Nat) (r : AssistReq) : State :=
  match r.fn with
  | 1 => s.answerPlacement p r.entry 0 (r.data.getD 0 0) (r.data.getD 1 0) 0
  | 2 => s.answerRetx 0 r
  | 3 => (s.answerContain p 0 r).resumeAssist slot r false
  | 4 => s
  | _ => s.resumeAssist slot r false

/-- ASSIST_DONE (R80): a clear slot, or a value above 63, is ignored. -/
def execAssistDone (part slot : Nat) (s : State) : Host.Outcome State Fault Refusal :=
  match FMap.find (s.part part).assist slot with
  | none => .next s
  | some r =>
    if 64 ≤ slot then .next s
    else
      let b := s.assistSlot part slot
      let s := s.modPart part (fun x => { x with assist := FMap.erase x.assist slot })
      let s := match b with
        | some b => s.applyAnswer part slot r b
        | none => s.hardwareAnswer part slot r
      .next s.slotFreed

end Sys2Proof.Machine
end

