-- ==== Sys2Proof/Machine/Boot.lean ====
section
/-! DEFINITION. Power, boot, repair, heat and spare cores (R21 to R24, R37 to R50). -/

namespace Sys2Proof.Machine

/-! Power. -/

/-- What survives without power: fuses, the stored repair list, and the package's place in its pod. -/
def Boot.cold (b : Boot) : Boot :=
  { State.reset.boot with fusedSvn := b.fusedSvn, fuses := b.fuses, repairList := b.repairList, pkg := b.pkg, pod := b.pod }

/-- The package as power finds it, or leaves it (R46, R50): free values go on from where they were. -/
def State.cold (s : State) (power : Bool) : State :=
  { State.reset with power := power, boot := s.boot.cold, turn := { State.reset.turn with freeCount := s.turn.freeCount } }

/-- POWER_GOOD (R38, R46, R50): the boot ROM starts with status 0x00. -/
def execPowerGood (s : State) : Host.Outcome State Fault Refusal := .next (if s.power then s else s.cold true)

/-- POWER_OFF (R46, R50): every context is lost. -/
def execPowerOff (s : State) : Host.Outcome State Fault Refusal := .next (if s.power then (s.cold false).send (.powerOff false) else s)

/-- Where nothing in the package responds without power (R46), an event from outside leaves it as it is. -/
def State.whenOn (s t : State) : Host.Outcome State Fault Refusal := .next (if s.power then t else s)

/-! The firmware image (R47 to R50). -/

/-- The header's fields keep the rules of R48 but for blen. DESIGN CHOICE (log 66): a key whose first byte is not 0x04 counts
among them, so it ends with status 0x10; R50 names no status for it. -/
def headerOk (b : List Byte) : Bool :=
  decide (leField b 0 4 = 0x57465843 ∧ leField b 4 2 = 1 ∧ leField b 6 2 / 8 = 0 ∧ leField b 0xC 4 = 0 ∧ leField b 0x18 8 = 0 ∧
    leField b 0x50 1 = 4 ∧ leField b 0xB1 15 = 0 ∧ leField b 0x120 224 = 0)

/-- The body's length keeps its rule, and the body is there (R48, R50). -/
def lengthOk (b : List Byte) : Bool :=
  let n := leField b 0x10 8
  decide (n % 4096 = 0 ∧ 4096 ≤ n ∧ n ≤ 2 ^ 26 ∧ 512 + n ≤ b.length)

/-- A big-endian number (digests and fuses). -/
def ofBytesBE (b : List Byte) : Nat := b.foldl (fun n x => n * 256 + x.toNat) 0

/-- The status with which the boot ROM ends the authentication of an image (R49, R50): 0x02 accepts it. DESIGN CHOICE (log
66): where several checks fail, the first of 0x10, 0x11, 0x12, 0x13, 0x14, 0x15 is reported. -/
def imageStatus (boot : Boot) (b : List Byte) : Nat :=
  let key := (b.drop 0x50).take 97
  let body := (b.drop 512).take (leField b 0x10 8)
  if !headerOk b then 0x10
  else if !lengthOk b then 0x11
  else if !boot.fuses.any (fun f => decide (f.digest = Config.sha384 key) && !f.revoked) then 0x12
  else if !Config.ecdsaP384 key (Config.sha384 (b.take 0xC0)) ((b.drop 0xC0).take 96) then 0x13
  else if Config.sha384 body ≠ ofBytesBE ((b.drop 0x20).take 48) then 0x14
  else if leField b 8 4 < boot.fusedSvn then 0x15
  else 0x02

/-- What an accepted image sets (R36, R48, R49). -/
def Boot.accept (boot : Boot) (b : List Byte) : Boot :=
  let flags := leField b 6 2
  { boot with status := 0x02, portRoot := flags % 4, fusedSvn := if bitAt flags 2 then max boot.fusedSvn (leField b 8 4) else boot.fusedSvn }

/-- The boot ROM reports a status (R50). -/
def State.setStatus (s : State) (st : Nat) : State := ({ s with boot := { s.boot with status := st } } : State).send (.status st)

/-- IMAGE_OFFER (R47 to R50): the ROM that waits takes the image into its one slot. DESIGN CHOICE (log 66): an image offered
while the slot is full, or at status 0x02 or 0x20, is ignored without an answer. -/
def execImageOffer (bytes : List (BitVec 8)) (s : State) : Host.Outcome State Fault Refusal :=
  s.whenOn (
    if s.boot.status = 0x03 then s.send (.status 0x03)
    else if s.boot.status ≠ 0 then s
    else ({ s with boot := { s.boot with image := bytes } } : State).setStatus 0x01)

/-- The boot ROM authenticates an image, or has rejected one (R50). -/
def Boot.romDue (b : Boot) : Bool := decide (b.status = 0x01 ∨ (0x10 ≤ b.status ∧ b.status ≤ 0x15))

/-- What the boot ROM does next by itself (R49, R50): the verdict on the image in its slot, or, after a rejection, the image
is discarded and the ROM waits again. -/
def State.romStep (s : State) : State :=
  if s.boot.status = 0x01 then
    let st := imageStatus s.boot s.boot.image
    (if st = 0x02 then { s with boot := { s.boot.accept s.boot.image with image := [] } } else s).setStatus st
  else ({ s with boot := { s.boot with image := [] } } : State).setStatus 0

/-- The logical core map word of a cluster from its passing physical cores (R41, R42). -/
def mapWordOf (passing : List Nat) (cl : Nat) : Nat :=
  let l := ((List.range 10).filter (fun k => passing.contains (cl * 10 + k))).take 9
  2 ^ 63 + l.length * 2 ^ 36 + (List.range 9).foldl (fun n k => n + (l.getD k 0xF) * 2 ^ (4 * k)) 0

/-- A cluster's spare is not available: it failed the scan, or stands in for another core (R13, R44). -/
def spareGone (passing : List Nat) (cl : Nat) : Bool := !(List.range 10).all (fun k => passing.contains (cl * 10 + k))

/-- SELF_TEST_COMPLETE (R14, R22, R25, R41, R42, R50): `passing` lists the physical cores, cluster * 10 +
k, that pass the boot scan. DESIGN CHOICE (log 59): the rows on the stored list are replaced for good, and the list is then
empty; only management adds rows to it, by the register of log 67. -/
def execSelfTestComplete (linksOk : Bool) (passing : List Nat) (s : State) : Host.Outcome State Fault Refusal :=
  if s.boot.status ≠ 0x02 then .next s
  else if !linksOk then .next (s.setStatus 0x20)
  else
    let boot := { s.boot with
      repairList := []
      bootScan := some s.tick
      coreMap := (List.range 64).foldl (fun m c => FMap.setD m 0 c (mapWordOf passing c)) []
      spareUsed := (List.range 64).foldl (fun m c => FMap.setD m false c (spareGone passing c)) [] }
    .next (({ s with boot := boot } : State).setStatus 0x03)

/-! Repair. -/

/-- ROW_REPAIR_IN_SERVICE (R22, R23): the row's contents are copied, and no access observes the swap; a row whose repair
resources are exhausted is reported to management, and nothing is retired. -/
def execRowRepairInService (row : RepairRow) (s : State) : Host.Outcome State Fault Refusal :=
  s.whenOn (
    if row.exhausted then s.send (.rowExhausted row.row)
    else if s.boot.softRepaired.contains row.row then s else { s with boot := { s.boot with softRepaired := row.row :: s.boot.softRepaired } })

/-- The lines that a slice with fewer ways keeps in each set, most recently used first (R24, R103). -/
def keepWays (slice ways : Nat) : List L2Line → List L2Line → List L2Line
  | _, [] => []
  | seen, x :: r =>
    if x.slice = slice then
      (if (seen.filter (fun y => decide (y.set = x.set))).length < ways then x :: keepWays slice ways (x :: seen) r else keepWays slice ways seen r)
    else x :: keepWays slice ways seen r

/-- L2_WAY_FAILURE (R24): the spare way first, then a way is disabled. DESIGN CHOICE (log 59): a third and every later
failure of a slice disables one more way. -/
def execL2WayFailure (slice : Nat) (s : State) : Host.Outcome State Fault Refusal :=
  if !s.power then .next s
  else if !FMap.getD s.boot.l2Spare false slice then .next { s with boot := { s.boot with l2Spare := FMap.setD s.boot.l2Spare false slice true } }
  else
    let n := FMap.getD s.boot.l2Ways 0 slice + 1
    let keep := keepWays slice (16 - n) [] s.ms.l2
    let gone := s.ms.l2.filter (fun x => !keep.contains x)
    let s := { s with boot := { s.boot with l2Ways := FMap.setD s.boot.l2Ways 0 slice n }, ms := { s.ms with l2 := keep } }
    .next (gone.foldl (fun s x => s.dropLine x.line) s)

/-! Power and heat (R39, R40). -/

/-- POWER_CAP_EXCEEDED (R39). -/
def execPowerCapExceeded (s : State) : Host.Outcome State Fault Refusal :=
  s.whenOn { s with boot := { s.boot with throttle := min 15 (s.boot.throttle + 1) } }

/-- A millisecond in ticks (R37). -/
def msTicks : Nat := 700000

/-- THROTTLE_STEP_DOWN (R39): one level per millisecond. -/
def execThrottleStepDown (s : State) : Host.Outcome State Fault Refusal :=
  s.whenOn (
    if s.boot.throttleAt.any (fun t => decide (s.tick < t + msTicks)) then s
    else { s with boot := { s.boot with throttle := s.boot.throttle - 1, throttleAt := some s.tick } })

/-- THERMAL_THROTTLE (R40). -/
def execThermalThrottle (s : State) : Host.Outcome State Fault Refusal := s.whenOn { s with boot := { s.boot with thermal := true } }

/-- THERMAL_RECOVER (R40). -/
def execThermalRecover (s : State) : Host.Outcome State Fault Refusal := s.whenOn { s with boot := { s.boot with thermal := false } }

/-- THERMAL_SHUTDOWN (R40). -/
def execThermalShutdown (s : State) : Host.Outcome State Fault Refusal := .next (if s.power then (s.cold false).send (.powerOff true) else s)

/-! Spare cores (R41 to R45). -/

/-- A scan lasts 3 ms, and an hour passes between two scans of a core (R43). -/
def scanTicks : Nat := 2100000
def scanInterval : Nat := 2520000000000

/-- The core holds no resident block (R43). -/
def State.coreEmpty (s : State) (core : Nat) : Bool := s.blocks.all (fun q => q.2.saved || decide (q.2.core ≠ core))

/-- The last scan of a core, in service or at boot, was less than an hour ago (R43). -/
def State.scannedLately (s : State) (core : Nat) : Bool :=
  [(s.core core).scanTick, s.boot.bootScan].any (fun x => x.any (fun t => decide (s.tick < t + scanInterval)))

/-- IN_FIELD_SCAN (R43): from now on no block is placed on the core; the scan runs once it is empty. -/
def execInFieldScan (core : Nat) (s : State) : Host.Outcome State Fault Refusal :=
  let c := s.core core
  if c.scan || !s.corePresent core || s.scannedLately core then .next s
  else .next (s.setCore core (if s.coreEmpty core then { c with scan := true, scanTick := some s.tick, scanFrom := some s.tick } else { c with scan := true, scanFrom := none }))

/-- The scans of the cores that have become empty begin (R43): the hour until the next counts from here. -/
def State.startScans (s : State) : State :=
  { s with cores := FMap.mapVals (fun k (c : Core) =>
      if c.scan && c.scanFrom.isNone && s.coreEmpty k then { c with scanTick := some s.tick, scanFrom := some s.tick } else c) s.cores }

/-- A core that failed leaves the map (R42, R44): the spare takes its number, or its field reads 0xF. -/
def State.loseCore (s : State) (core : Nat) : State :=
  let cl := clusterOf core
  let k := core % 9
  let w := s.mapWord cl
  let cut := w - field w (4 * k) 4 * 2 ^ (4 * k)
  if !FMap.getD s.boot.spareUsed false cl then
    { s with boot := { s.boot with coreMap := FMap.insert s.boot.coreMap cl (cut + 9 * 2 ^ (4 * k)), spareUsed := FMap.setD s.boot.spareUsed false cl true } }
  else
    let s := { s with boot := { s.boot with coreMap := FMap.insert s.boot.coreMap cl (cut + 0xF * 2 ^ (4 * k) - 2 ^ 36) } }
    s.modCore core (fun c => { c with lost := true })

/-- The partition of a core looks at it again: its pointers, its held batches, and blocks that wait to be restored
(R43, R126, R132, R156). -/
def State.coreBack (s : State) (core : Nat) : State :=
  let cl := clusterOf core
  (s.parts.filter (fun q => bitAt q.2.pclus cl)).foldl (fun s q => s.schedule (.switchIn q.1)) (s.coresChanged cl)

/-- SCAN_COMPLETE (R43, R44): the scan has run on the empty core for 3 ms, which is when it ends. The spare that takes a failed core's number
is another core, whose last scan was the boot scan. -/
def execScanComplete (core : Nat) (pass : Bool) (s : State) : Host.Outcome State Fault Refusal :=
  let c := s.core core
  if !c.scan || !c.scanFrom.any (fun t => decide (t + scanTicks = s.tick)) then .next s
  else if pass then .next ((s.setCore core { c with scan := false, scanFrom := none }).coreBack core)
  else .next (((s.setCore core { c with scan := false, scanFrom := none, scanTick := none }).loseCore core).coreBack core)

/-- CORE_LOST (R45, R74, R212): the core stops, each grid with a block on it ends, and the core leaves the
map. -/
def execCoreLost (core : Nat) (s : State) : Host.Outcome State Fault Refusal :=
  if !s.corePresent core then .next s
  else
    let blks := (s.blocks.filter (fun q => !q.2.saved && decide (q.2.core = core))).map (fun q => q.2)
    let gids := (blks.map (fun b => b.gids)).flatten
    let s := s.send (.coreLost core)
    let s := blks.foldl (fun s b => s.schedule (.contextErrorReport b.grid 2 0 core 0 0)) s
    let s := s.modCore core (fun c => { c with queue := [], gridOrder := [] })
    let s := gids.foldl (fun (s : State) k => s.modGroup k (fun g => { g with gridOps := [] })) s
    let s := gids.foldl (fun s k => s.haltGroup k) s
    let s := { s with handlers := FMap.filterKV (fun h _ => decide (h / 4 ≠ core)) s.handlers }
    .next (((s.setCore core Core.empty).loseCore core).coreBack core)

end Sys2Proof.Machine
end

