-- ==== Sys2Proof/Machine/Control.lean ====
section
/-! DEFINITION. The control instructions, opcodes 0x00 to 0x0B: R308 to R315, R330 to R341, and
the branch's part in the spin detector (R143, R144). -/

namespace Sys2Proof.Machine

/-- The spin detector at a taken BRA or BRC at `p` (R143, R144): a branch of 1 to 64 words back that
ends a body without a register change counts; four such bodies demote the group. `now` counts free ticks. -/
def SpinState.taken (x : SpinState) (p target : BitVec 64) (now : Nat) : SpinState :=
  let back := decide (target.toNat < p.toNat ∧ p.toNat - target.toNat ≤ 256)
  if !back then { x with branch := none, count := 0, changed := false, watching := false }
  else if x.branch = some p ∧ x.changed = false then
    if x.demoted then { x with watching := false, passDone := true }
    else if 4 ≤ x.count + 1 then { x with count := x.count + 1, demoted := true, watching := true, passDone := false, watch := [], since := now }
    else { x with count := x.count + 1 }
  else { x with branch := some p, count := 0, changed := false, watching := false }

/-- Note a taken branch of a group; a handler's branches are not watched. -/
def State.noteTaken (s : State) (c : Ctx) (target : BitVec 64) : State :=
  if c.single then s
  else s.modGroup c.gid (fun g => { g with spin := g.spin.taken c.split.pc target (s.freeNow (hidOf c.gid)) })

/-- The target of a signed word offset (R303). -/
def Ctx.target {w : Nat} (c : Ctx) (i : BitVec w) : BitVec 64 := c.split.pc + 4#64 * sext64 i

/-- The split goes on with another prefix state; a prefix touches nothing else (R309). -/
def setPrefixState (f : PfxState → Option PfxState) (s : State) (c : Ctx) : Done :=
  match f c.split.pfx with
  | none => Done.early s c fIllegalOp
  | some p =>
    let s := s.putCtx { c with split := { c.split with pc := c.split.pc + 4#64, pfx := p, retry := none, poisonAct := false, issued := none } }
    .next (if c.single then s else s.modGroup c.gid (fun g => g.noteIssue c.entry false))

/-- NOP (R330). -/
def execNop : State → Host.Outcome State Fault Refusal :=
  issue .nop true (fun s c => Done.seq s c)

/-- EXT (R309). -/
def execExt (i : BitVec 24) : State → Host.Outcome State Fault Refusal :=
  issue (.ext i) true (setPrefixState (fun p => if p.pl then none else some { p with pl := true, lo := i }))

/-- EXTH (R309). -/
def execExth (i : BitVec 24) : State → Host.Outcome State Fault Refusal :=
  issue (.exth i) true (setPrefixState (fun p => if p.ph then none else some { p with ph := true, hi := i }))

/-- SETM (R313). -/
def execSetm (i : BitVec 24) : State → Host.Outcome State Fault Refusal :=
  issue (.setm i) true (fun s c =>
    if !modeValueOk i then Done.early s c fIllegalOp
    else if !modeGuardOk c.allot i then Done.early s c fIllegalReg
    else Done.seq s { c with regs := { c.regs with mode := i.setWidth 32 } })

/-- SETCV (R315): the value comes from the lowest thread of the active mask. -/
def execSetcv (b : BitVec 8) : State → Host.Outcome State Fault Refusal :=
  issue (.setcv b) true (fun s c =>
    if !src32Ok c.allot true b then Done.early s c fIllegalReg
    else if c.accBusy && touchesAcc 1 b then .stay s c .gridOps
    else
      let x := c.regs.read32 c.xi c.lane b
      if !cvmodeOk x then Done.early s c fIllegalOp
      else Done.seq s { c with regs := { c.regs with cvmode := x } })

/-- BRA (R334). -/
def execBra (i : BitVec 24) : State → Host.Outcome State Fault Refusal :=
  issue (.bra i) true (fun s c => .retire (s.noteTaken c (c.target i)) c (c.target i))

/-- A BRC that divides its split (R335, R336): the taken threads form a new split, beside those that TXO has reserved
(R178, R219). -/
def divide (s : State) (c : Ctx) (taken : BitVec 64) (target : BitVec 64) : Done :=
  match FMap.find s.groups c.gid with
  | none => .next s
  | some g =>
    if g.splitRoom = 0 then .fault s c (.plain fSplitOverflow c.split.mask)
    else
      let dv := g.newRecord
      let stays : Split := ⟨c.split.mask &&& ~~~taken, c.split.pc + 4#64, some dv, .clear, .none, none, false, c.split.born, none⟩
      let goes : Split := ⟨taken, target, some dv, .clear, .none, none, false, 0, none⟩
      let g := { g with parents := FMap.insert g.parents dv c.split.drec, table := FMap.insert g.table c.entry stays }
      let g := (g.placeSplit c.entry goes).noteIssue c.entry false
      .next ((s.setGroup c.gid g).noteTaken c target)

/-- BRC (R335): uniform, it follows the lowest thread; else the threads whose condition is not zero
take the branch. -/
def execBrc (u : Bool) (d : BitVec 8) (i : BitVec 16) : State → Host.Outcome State Fault Refusal :=
  issue (.brc u d i) true (fun s c =>
    let target := c.target i
    if !src32Ok c.allot false d then Done.early s c fIllegalReg
    else if c.accBusy && touchesAcc 1 d then .stay s c .gridOps
    else
      let tk := maskOf ((threadsOf c.split.mask).filter (fun t => c.regs.read32 c.xi t d != 0#32))
      let all := if u then c.regs.read32 c.xi c.lane d != 0#32 else decide (tk = c.split.mask)
      let none := if u then c.regs.read32 c.xi c.lane d == 0#32 else decide (tk = 0#64)
      if all then .retire (s.noteTaken c target) c target
      else if none then Done.seq s c
      else divide s c tk target)

/-- JOIN (R337): a split with no record goes on; another waits, and the chains are looked at. -/
def execJoin : State → Host.Outcome State Fault Refusal :=
  issue .join true (fun s c =>
    if c.split.drec.isNone then Done.seq s c
    else
      let s := s.putCtx { c with split := { c.split with wait := .join, pfx := .clear, retry := none, poisonAct := false, issued := none } }
      .next (s.modGroup c.gid (fun g => (g.noteIssue c.entry false).rejoin.pruneRecords)))

/-- The checks of JMPI and CALLI on their target (R339): the target, or the fault, whose address is the misaligned target (R459). -/
def Ctx.jumpTarget (c : Ctx) (a : BitVec 8) : Except FaultReq (BitVec 64) :=
  let tgt := c.regs.read64 c.xi c.lane a
  let bad := maskOf ((threadsOf c.split.mask).filter (fun t => c.regs.read64 c.xi t a != tgt))
  if bad ≠ 0#64 then .error (.plain fNonuniform bad)
  else if tgt.toNat % 4 ≠ 0 then .error { FaultReq.plain fMisaligned c.split.mask with addr := tgt }
  else .ok tgt

/-- A jump whose target is not uniform (R339): where every lane that disagrees has an open transaction, they abort, and the
rest of the split jumps, once its target is checked (R222); else the instruction faults. -/
def jumpFault (a : BitVec 8) (r : FaultReq) (k : State → Ctx → BitVec 64 → Done) (s : State) (c : Ctx) : Done :=
  match FMap.find s.groups c.gid with
  | none => .fault s c r
  | some g =>
    let rest := c.split.mask &&& ~~~r.mask
    if !c.single ∧ r.code = fNonuniform ∧ r.mask &&& ~~~g.openLanes r.mask = 0#64 ∧ rest ≠ 0#64 then
      match (s.abortLanes c.gid (abortsOf r.mask xFault r.code)).ctx with
      | some c' => match c'.jumpTarget a with
        | .ok tgt => k (s.abortLanes c.gid (abortsOf r.mask xFault r.code)) c' tgt
        | .error r' => .fault (s.abortLanes c.gid (abortsOf r.mask xFault r.code)) c' r'
      | none => .fault s c r
    else .fault s c r

/-- JMPI (R339). -/
def execJmpi (a : BitVec 8) : State → Host.Outcome State Fault Refusal :=
  issue (.jmpi a) true (fun s c =>
    if !src64Ok c.allot false a then Done.early s c fIllegalReg
    else if c.accBusy && touchesAcc 2 a then .stay s c .gridOps
    else match c.jumpTarget a with
      | .ok tgt => .retire s c tgt
      | .error r => jumpFault a r (fun s c tgt => .retire s c tgt) s c)

/-- Write the link pair of every thread of the mask (R340). -/
def Ctx.link (c : Ctx) (d : BitVec 8) : Ctx :=
  { c with regs := (threadsOf c.split.mask).foldl (fun r t => r.write64 t d (c.split.pc + 4#64)) c.regs }

/-- CALL (R340). -/
def execCall (d : BitVec 8) (i : BitVec 16) : State → Host.Outcome State Fault Refusal :=
  issue (.call d i) true (fun s c =>
    if !dst64Ok c.allot d then Done.early s c fIllegalReg
    else if c.accBusy && touchesAcc 2 d then .stay s c .gridOps
    else .retire s (c.link d) (c.target i))

/-- CALLI (R340): the target is read before the link is written. -/
def execCalli (d a : BitVec 8) : State → Host.Outcome State Fault Refusal :=
  issue (.calli d a) true (fun s c =>
    if !(dst64Ok c.allot d && src64Ok c.allot false a) then Done.early s c fIllegalReg
    else if c.accBusy && (touchesAcc 2 d || touchesAcc 2 a) then .stay s c .gridOps
    else match c.jumpTarget a with
      | .ok tgt => .retire s (c.link d) tgt
      | .error r => jumpFault a r (fun s c tgt => .retire s (c.link d) tgt) s c)

/-- The issuing split ends (R338): the others may merge, and a group with no split left has exited. -/
def exitSplit (s : State) (c : Ctx) : Done :=
  let s := s.releaseLockOf c.gid c.split.mask
  let s := s.modGroup c.gid (fun g =>
    (({ g with table := FMap.erase g.table c.entry }).noteIssue c.entry false).rejoin.pruneRecords)
  match FMap.find s.groups c.gid with
  | none => .next s
  | some g =>
    if g.splits.isEmpty then
      .next ((s.modGroup c.gid (fun g => { g with status := .exited, parents := [], tx := [] })).afterExit c.gid)
    else .next (s.evalBarriers c.gid)

/-- A lane of the mask holds its partition's fallback lock (R227). -/
def State.lockHeldIn (s : State) (gid : Nat) (m : BitVec 64) : Bool :=
  match (s.part (s.partOf gid)).lockHolder with
  | some (k, t) => decide (k = gid) && m.getLsbD t
  | none => false

/-- EXIT (R338): ends every thread of the mask, guarded or not; lanes in transactions abort (R221). Of the lane that holds
the fallback lock it is a TXD, which is a release (R259, R267). -/
def execExit : State → Host.Outcome State Fault Refusal :=
  issue .exit false (fun s c => txIllegal 0x0B c.split.mask (fun s c =>
    if s.lockHeldIn c.gid c.split.mask then withRelease exitSplit s c else exitSplit s c) s c)

end Sys2Proof.Machine
end

