-- ==== Sys2Proof/Machine/Bounded.lean ====
section
/-! DEFINITION. The bounded functions of R364. The result is an uninterpreted encoding held to the
bound that the spec sets; the exact cases are met exactly (log 14). Reals are integers in units of
2 to the -320. -/

namespace Sys2Proof.Machine

/-- The functions of R364, numbered by their FUN sub-code. -/
inductive BFn where
  | rsq
  | ex2
  | lg2
  | sin
  | cos
  | tanh
  deriving DecidableEq, Repr

/-- The FUN sub-code (R360). -/
def BFn.code : BFn → Nat
  | .rsq => 9
  | .ex2 => 11
  | .lg2 => 12
  | .sin => 13
  | .cos => 14
  | .tanh => 15

/-- Fraction bits of the fixed-point reals. -/
def fixBits : Nat := 320

/-- One, in fixed point. -/
def fixOne : Int := (2 ^ 320 : Nat)

/-- The natural logarithm of 2, in fixed point. -/
def fixLn2 : Int := 1480553391661173448385607439722553250922680800745876974795605978609098082859138712941075737848984

/-- Pi, in fixed point. -/
def fixPi : Int := 6710401180212168915155840974220003240804194089427148950727106424351713218671805380099500388914039

/-- More than the error of every approximation below. -/
def fixSlack : Int := (2 ^ 60 : Nat)

def fixMul (x y : Int) : Int := x * y / fixOne
def fixDiv (x y : Int) : Int := if y = 0 then 0 else x * fixOne / y

/-- A finite value in fixed point. -/
def fixOf (x : FVal) : Int :=
  match x with
  | .fin s m e =>
    let k := e + 320
    let v : Int := if 0 ≤ k then ((m * 2 ^ k.toNat : Nat) : Int) else ((m / 2 ^ (-k).toNat : Nat) : Int)
    if s then -v else v
  | _ => 0

/-- The exponential series: the sum of t^k / k! from term k on. -/
def expTerms : Nat → Nat → Int → Int → Int
  | 0, _, _, _ => 0
  | n + 1, k, t, term => term + expTerms n (k + 1) t (fixMul term t / (k : Int))

/-- 2 to the f, for f in [0, 1). -/
def fixExp2Frac (f : Int) : Int := expTerms 90 1 (fixMul f fixLn2) fixOne

/-- 2 to the x, in fixed point; 0 where it lies below every unit. -/
def fixExp2 (x : Int) : Int :=
  let i := x / fixOne
  let v := fixExp2Frac (x % fixOne)
  if 0 ≤ i then v * (2 ^ i.toNat : Nat) else v / (2 ^ (-i).toNat : Nat)

/-- The series of atanh: the sum of z^(2k+1) / (2k+1) from k on. -/
def atanhTerms : Nat → Nat → Int → Int → Int
  | 0, _, _, _ => 0
  | n + 1, k, z2, pow => pow / (2 * (k : Int) + 1) + atanhTerms n (k + 1) z2 (fixMul pow z2)

/-- log2 of m times 2 to the e. -/
def fixLog2 (m : Nat) (e : Int) : Int :=
  let l := Nat.log2 m
  let v : Int := fixDiv (m : Int) ((2 ^ l : Nat) : Int)
  let z := fixDiv (v - fixOne) (v + fixOne)
  (e + l) * fixOne + fixDiv (2 * atanhTerms 110 0 (fixMul z z) z) fixLn2

/-- The alternating series of sine (from term 1) and cosine (from term 0). -/
def trigTerms : Nat → Nat → Int → Int → Int
  | 0, _, _, _ => 0
  | n + 1, k, x2, term =>
    term + trigTerms n (k + 2) x2 (-(fixMul term x2 / (((k : Int) + 1) * ((k : Int) + 2))))

/-- Sine and cosine of 2 pi r, for r in [0, 1). -/
def fixSinTurn (r : Int) : Int := let x := 2 * fixMul fixPi r; trigTerms 110 1 (fixMul x x) x
def fixCosTurn (r : Int) : Int := let x := 2 * fixMul fixPi r; trigTerms 110 0 (fixMul x x) fixOne

/-- The hyperbolic tangent of x, for x at least 0. -/
def fixTanh (x : Int) : Int :=
  let t := fixExp2 (-(fixDiv (2 * x) fixLn2))
  fixDiv (fixOne - t) (fixOne + t)

/-- One over the square root of m times 2 to the e. -/
def fixRsqrt (m : Nat) (e : Int) : Int :=
  let e2 := if e % 2 = 0 then e else e - 1
  let m2 := if e % 2 = 0 then m else 2 * m
  let r : Int := (isqrt ((2 ^ 1280 : Nat) / m2) : Nat)
  let k := -320 - e2 / 2
  if 0 ≤ k then r * (2 ^ k.toNat : Nat) else r / (2 ^ (-k).toNat : Nat)

/-- The ulp of R364 at a real, in fixed point: the quantum of R285. -/
def fixUlp (F : FloatFmt) (v : Int) : Int :=
  let a := v.natAbs - (2 ^ 60 : Nat)
  let l : Int := if a = 0 then -400 else (Nat.log2 a : Int) - 320
  ((2 ^ (quantumExp F l + 320).toNat : Nat) : Int)

/-- A real rounded to nearest in a format. -/
def fixRound (F : FloatFmt) (v : Int) : Nat :=
  if v = 0 then 0 else roundMag F .rne false (decide (v < 0)) 0 ⟨v.natAbs, 1, -320⟩

/-- A result within the bound: the free encoding if it keeps the bound, else the nearest one. -/
def boundedPick (F : FloatFmt) (cand : Nat) (v bound : Int) (unitMax : Bool) : Nat :=
  let c := cand % 2 ^ F.width
  let ok : Bool :=
    match decodeFloat F c with
    | .zero _ => decide ((v.natAbs : Int) + fixSlack ≤ bound)
    | .fin s m e =>
      let y := fixOf (.fin s m e)
      decide (((y - v).natAbs : Int) + fixSlack ≤ bound) && (!unitMax || decide ((y.natAbs : Int) ≤ fixOne))
    | _ => false
  if ok then c else fixRound F v

/-- The absolute error that FSIN, FCOS and FLG2 on [0.5, 2] allow (R364). -/
def absBound (F : FloatFmt) : Int :=
  if F.mbits = 23 then (2 ^ (320 - 22) : Nat) else if F.mbits = 10 then (2 ^ (320 - 11) : Nat) else (2 ^ (320 - 8) : Nat)

/-- The format code of an element type (R272, R275). -/
def floatFmtCode (F : FloatFmt) : Nat := if F.mbits = 23 then 0 else if F.mbits = 10 then 1 else 2

/-- The encoding of 1.0. -/
def oneCode (F : FloatFmt) : Nat := F.bias * 2 ^ F.mbits

/-- An integral value as an encoding. -/
def intCode (F : FloatFmt) (x : Int) : Nat :=
  if x = 0 then 0 else roundMag F .rne false (decide (x < 0)) 0 ⟨x.natAbs, 1, 0⟩

/-- One element of a bounded function (R364). -/
def boundedFn (fn : BFn) (env : FEnv) (a0 : Nat) : Nat :=
  let F := env.F
  let a := dazRead F env.daz a0
  let cand := Config.boundedFn fn.code (floatFmtCode F) a env.daz env.ftz
  let f32 : Bool := decide (F.mbits = 23)
  let r : Nat :=
    match decodeFloat F a, fn with
    | .nan _ _, _ => quietCode F a
    | .zero s, .rsq => withSign F s F.infCode
    | .inf false, .rsq => 0
    | .inf true, .rsq => F.nanCode
    | .fin true _ _, .rsq => F.nanCode
    | .fin false m e, .rsq =>
      let l := Nat.log2 m
      if m = 2 ^ l ∧ (e + l) % 2 = 0 then roundMag F .rne false false 0 ⟨1, 1, -((e + l) / 2)⟩
      else let v := fixRsqrt m e
           boundedPick F cand v (fixUlp F v) false
    | .zero _, .ex2 => oneCode F
    | .inf true, .ex2 => 0
    | .inf false, .ex2 => F.infCode
    | .fin s m e, .ex2 =>
      let big : Bool := decide (12 ≤ e + Nat.log2 m)
      if big then (if s then 0 else F.infCode)
      else
        let x := fixOf (.fin s m e)
        if x % fixOne = 0 then
          let i := x / fixOne
          if i < 1 - (F.bias : Int) - F.mbits then 0 else roundMag F .rne false false 0 ⟨1, 1, i⟩
        else let v := fixExp2 x
             boundedPick F cand v ((if f32 then 2 else 1) * fixUlp F v) false
    | .zero _, .lg2 => withSign F true F.infCode
    | .inf false, .lg2 => F.infCode
    | .inf true, .lg2 => F.nanCode
    | .fin true _ _, .lg2 => F.nanCode
    | .fin false m e, .lg2 =>
      let l := Nat.log2 m
      if m = 2 ^ l then intCode F (e + l)
      else
        let v := fixLog2 m e
        let x := fixOf (.fin false m e)
        let u := (if f32 then 2 else 1) * fixUlp F v
        let near : Bool := decide (fixOne ≤ 2 * x ∧ x ≤ 2 * fixOne)
        boundedPick F cand v (if near then (if f32 then absBound F else max u (absBound F)) else u) false
    | .zero s, .sin => withSign F s 0
    | .inf _, .sin => F.nanCode
    | .fin s m e, .sin =>
      let r := fixOf (.fin s m e) % fixOne
      if 2 * r % fixOne = 0 then 0
      else if 4 * r % fixOne = 0 then (if 2 * r < fixOne then oneCode F else withSign F true (oneCode F))
      else let v := fixSinTurn r
           boundedPick F cand v (if f32 then absBound F else max (fixUlp F v) (absBound F)) false
    | .zero _, .cos => oneCode F
    | .inf _, .cos => F.nanCode
    | .fin s m e, .cos =>
      let r := fixOf (.fin s m e) % fixOne
      if r = 0 then oneCode F
      else if 2 * r % fixOne = 0 then withSign F true (oneCode F)
      else if 4 * r % fixOne = 0 then 0
      else let v := fixCosTurn r
           boundedPick F cand v (if f32 then absBound F else max (fixUlp F v) (absBound F)) false
    | .zero s, .tanh => withSign F s 0
    | .inf s, .tanh => withSign F s (oneCode F)
    | .fin s m e, .tanh =>
      let x := fixOf (.fin false m e)
      let v := if 64 * fixOne ≤ x then fixOne - 1 else fixTanh x
      boundedPick F cand (if s then -v else v) ((if f32 then 2 else 1) * fixUlp F v) true
  ftzWrite F env.ftz r

end Sys2Proof.Machine
end

