-- ==== Sys2Proof/Machine/Float.lean ====
section
/-! DEFINITION. The float instructions, opcodes 0x30 to 0x3F: R353 to R364. -/

namespace Sys2Proof.Machine

/-- A float instruction (R354) on one element of a, b and the old d. `rounds` says whether it takes
a draw for each element under SR (R355). -/
def vFloat (u rounds : Bool) (ops : List Opnd) (d a b : BitVec 8) (f : FEnv → Nat → Nat → Nat → Nat → Nat)
    (s : State) (c : Ctx) : Done :=
  let et := c.etype
  match etypeFloat et with
  | none => Done.early s c fIllegalOp
  | some F =>
    vIssue true ops false d
      (fun c =>
        let env := floatEnv c.regs.mode F
        c.compute u (if rounds then modeDraws c (etypeCount et) else 0) (fun t ds =>
          elemMap et ds (fun r x y z => f env r x y z) (c.img false t a) (c.img false t b) (c.img false t d))) s c

/-- d, a and b. -/
def vFloat2 (u rounds : Bool) (d a b : BitVec 8) (f : FEnv → Nat → Nat → Nat → Nat → Nat) : State → Ctx → Done :=
  vFloat u rounds (opsDAB false d a b) d a b f

/-- d and a. -/
def vFloat1 (u rounds : Bool) (d a : BitVec 8) (f : FEnv → Nat → Nat → Nat) : State → Ctx → Done :=
  vFloat u rounds (opsDA false d a) d a 0xF0#8 (fun env r x _ _ => f env r x)

/-- A comparison's element (R359). -/
def elemFCmp (k : FCmp) (env : FEnv) (x y : Nat) : Nat := if fCmp k env x y then 2 ^ env.F.width - 1 else 0

/-- FCPYS's element (R358). -/
def elemCpys (env : FEnv) (x y : Nat) : Nat := x % env.F.signBit + signOf env.F y

/-- FADD (R356). -/
def execFadd (u : Bool) (d a b : BitVec 8) : State → Host.Outcome State Fault Refusal :=
  issue (.fadd u d a b) true (vFloat2 u true d a b (fun env r x y _ => fAdd env r x y))

/-- FSUB (R356). -/
def execFsub (u : Bool) (d a b : BitVec 8) : State → Host.Outcome State Fault Refusal :=
  issue (.fsub u d a b) true (vFloat2 u true d a b (fun env r x y _ => fSub env r x y))

/-- FMUL (R356). -/
def execFmul (u : Bool) (d a b : BitVec 8) : State → Host.Outcome State Fault Refusal :=
  issue (.fmul u d a b) true (vFloat2 u true d a b (fun env r x y _ => fMul env r x y))

/-- FMA (R357). -/
def execFma (u : Bool) (d a b : BitVec 8) : State → Host.Outcome State Fault Refusal :=
  issue (.fma u d a b) true (vFloat2 u true d a b (fun env r x y z => fMulAdd false env r x y z))

/-- FNMA (R357). -/
def execFnma (u : Bool) (d a b : BitVec 8) : State → Host.Outcome State Fault Refusal :=
  issue (.fnma u d a b) true (vFloat2 u true d a b (fun env r x y z => fMulAdd true env r x y z))

/-- FMIN (R358). -/
def execFmin (u : Bool) (d a b : BitVec 8) : State → Host.Outcome State Fault Refusal :=
  issue (.fmin u d a b) true (vFloat2 u false d a b (fun env _ x y _ => fMinMax false env x y))

/-- FMAX (R358). -/
def execFmax (u : Bool) (d a b : BitVec 8) : State → Host.Outcome State Fault Refusal :=
  issue (.fmax u d a b) true (vFloat2 u false d a b (fun env _ x y _ => fMinMax true env x y))

/-- FCPYS (R358). -/
def execFcpys (u : Bool) (d a b : BitVec 8) : State → Host.Outcome State Fault Refusal :=
  issue (.fcpys u d a b) true (vFloat2 u false d a b (fun env _ x y _ => elemCpys env x y))

/-- FSCL (R356): b is a signed integer of the element width. -/
def execFscl (u : Bool) (d a b : BitVec 8) : State → Host.Outcome State Fault Refusal :=
  issue (.fscl u d a b) true (vFloat2 u true d a b (fun env r x y _ => fScl env r x (toSigned env.F.width y)))

/-- FDIV (R356). -/
def execFdiv (u : Bool) (d a b : BitVec 8) : State → Host.Outcome State Fault Refusal :=
  issue (.fdiv u d a b) true (vFloat2 u true d a b (fun env r x y _ => fDiv env r x y))

/-- FSEQ (R359). -/
def execFseq (u : Bool) (d a b : BitVec 8) : State → Host.Outcome State Fault Refusal :=
  issue (.fseq u d a b) true (vFloat2 u false d a b (fun env _ x y _ => elemFCmp .eq env x y))

/-- FSNE (R359). -/
def execFsne (u : Bool) (d a b : BitVec 8) : State → Host.Outcome State Fault Refusal :=
  issue (.fsne u d a b) true (vFloat2 u false d a b (fun env _ x y _ => elemFCmp .ne env x y))

/-- FSLT (R359). -/
def execFslt (u : Bool) (d a b : BitVec 8) : State → Host.Outcome State Fault Refusal :=
  issue (.fslt u d a b) true (vFloat2 u false d a b (fun env _ x y _ => elemFCmp .lt env x y))

/-- FSLE (R359). -/
def execFsle (u : Bool) (d a b : BitVec 8) : State → Host.Outcome State Fault Refusal :=
  issue (.fsle u d a b) true (vFloat2 u false d a b (fun env _ x y _ => elemFCmp .le env x y))

/-- FSUN (R359). -/
def execFsun (u : Bool) (d a b : BitVec 8) : State → Host.Outcome State Fault Refusal :=
  issue (.fsun u d a b) true (vFloat2 u false d a b (fun env _ x y _ => elemFCmp .un env x y))

/-- FABS (R361). -/
def execFabs (u : Bool) (d a : BitVec 8) : State → Host.Outcome State Fault Refusal :=
  issue (.fabs u d a) true (vFloat1 u false d a (fun env _ x => x % env.F.signBit))

/-- FNEG (R361). -/
def execFneg (u : Bool) (d a : BitVec 8) : State → Host.Outcome State Fault Refusal :=
  issue (.fneg u d a) true (vFloat1 u false d a (fun env _ x => (x + env.F.signBit) % 2 ^ env.F.width))

/-- FCLASS (R361). -/
def execFclass (u : Bool) (d a : BitVec 8) : State → Host.Outcome State Fault Refusal :=
  issue (.fclass u d a) true (vFloat1 u false d a (fun env _ x => fClass env.F x))

/-- FRND (R362). -/
def execFrnd (u : Bool) (d a : BitVec 8) : State → Host.Outcome State Fault Refusal :=
  issue (.frnd u d a) true (vFloat1 u true d a fRnd)

/-- FEXPO (R362). -/
def execFexpo (u : Bool) (d a : BitVec 8) : State → Host.Outcome State Fault Refusal :=
  issue (.fexpo u d a) true (vFloat1 u false d a (fun env _ x => fExpo env x))

/-- FRCP (R363). -/
def execFrcp (u : Bool) (d a : BitVec 8) : State → Host.Outcome State Fault Refusal :=
  issue (.frcp u d a) true (vFloat1 u true d a fRcp)

/-- FRSQ (R364). -/
def execFrsq (u : Bool) (d a : BitVec 8) : State → Host.Outcome State Fault Refusal :=
  issue (.frsq u d a) true (vFloat1 u false d a (fun env _ x => boundedFn .rsq env x))

/-- FSQRT (R363). -/
def execFsqrt (u : Bool) (d a : BitVec 8) : State → Host.Outcome State Fault Refusal :=
  issue (.fsqrt u d a) true (vFloat1 u true d a fSqrt)

/-- FEX2 (R364). -/
def execFex2 (u : Bool) (d a : BitVec 8) : State → Host.Outcome State Fault Refusal :=
  issue (.fex2 u d a) true (vFloat1 u false d a (fun env _ x => boundedFn .ex2 env x))

/-- FLG2 (R364). -/
def execFlg2 (u : Bool) (d a : BitVec 8) : State → Host.Outcome State Fault Refusal :=
  issue (.flg2 u d a) true (vFloat1 u false d a (fun env _ x => boundedFn .lg2 env x))

/-- FSIN (R364). -/
def execFsin (u : Bool) (d a : BitVec 8) : State → Host.Outcome State Fault Refusal :=
  issue (.fsin u d a) true (vFloat1 u false d a (fun env _ x => boundedFn .sin env x))

/-- FCOS (R364). -/
def execFcos (u : Bool) (d a : BitVec 8) : State → Host.Outcome State Fault Refusal :=
  issue (.fcos u d a) true (vFloat1 u false d a (fun env _ x => boundedFn .cos env x))

/-- FTANH (R364). -/
def execFtanh (u : Bool) (d a : BitVec 8) : State → Host.Outcome State Fault Refusal :=
  issue (.ftanh u d a) true (vFloat1 u false d a (fun env _ x => boundedFn .tanh env x))

end Sys2Proof.Machine
end

