-- ==== Sys2Proof/Machine/Integer.lean ====
section
/-! DEFINITION. The integer and address instructions, opcodes 0x10 to 0x2F: R342 to R352. -/

namespace Sys2Proof.Machine

/-- The etypes of the typed class (R342). -/
def typedOk (et : Nat) : Bool := decide (et ≤ 5 ∨ et = 9 ∨ et = 10)

/-- An element read as an integer of its type (R272, R344). -/
def intElem (signed : Bool) (w x : Nat) : Int := if signed then toSigned w x else (x : Int)

/-- All ones in an element. -/
def ones (w : Nat) : Nat := 2 ^ w - 1

/-- A typed instruction (R342, R344): `f` computes an element from isat, signedness, width and the
elements of a, b and the old d. -/
def vTyped (u : Bool) (d a b : BitVec 8) (f : Bool → Bool → Nat → Nat → Nat → Nat → Nat) (s : State) (c : Ctx) : Done :=
  let et := c.etype
  let p := etypeWide et
  vIssue (typedOk et) (opsDAB p d a b) p d
    (fun c => c.compute u 0 (fun t _ =>
      elemMap et [] (fun _ x y z => f (modeIsat c.regs.mode) (etypeSigned et) (etypeWidth et) x y z)
        (c.img p t a) (c.img p t b) (c.img p t d))) s c

/-- A typed instruction of one source (R352). -/
def vTyped1 (u : Bool) (d a : BitVec 8) (f : Bool → Bool → Nat → Nat → Nat) (s : State) (c : Ctx) : Done :=
  let et := c.etype
  let p := etypeWide et
  vIssue (typedOk et) (opsDA p d a) p d
    (fun c => c.compute u 0 (fun t _ =>
      elemMap et [] (fun _ x _ _ => f (modeIsat c.regs.mode) (etypeSigned et) (etypeWidth et) x)
        (c.img p t a) 0#64 0#64)) s c

/-- A width-following instruction (R342, R348): 64 bits under etype 9 and 10, else 32. -/
def vWidth (u : Bool) (d a b : BitVec 8) (f : DWord → DWord → DWord) (s : State) (c : Ctx) : Done :=
  let p := etypeWide c.etype
  vIssue true (opsDAB p d a b) p d
    (fun c => c.compute u 0 (fun t _ => f (c.img p t a) (c.img p t b))) s c

/-- A width-following instruction of one source (R352). -/
def vWidth1 (u : Bool) (d a : BitVec 8) (f : DWord → DWord) (s : State) (c : Ctx) : Done :=
  let p := etypeWide c.etype
  vIssue true (opsDA p d a) p d (fun c => c.compute u 0 (fun t _ => f (c.img p t a))) s c

/-- An instruction of fixed widths (R349, R351): the widths of d, a and b. -/
def vFixed (u pd pa pb : Bool) (d a b : BitVec 8) (f : Nat → DWord → DWord → DWord → DWord) (s : State) (c : Ctx) : Done :=
  vIssue true [⟨.dst, pd, d⟩, ⟨.src, pa, a⟩, ⟨.srcXi, pb, b⟩] pd d
    (fun c => c.compute u 0 (fun t _ => f c.etype (c.img pa t a) (c.img pb t b) (c.img pd t d))) s c

/-- A constant-loading instruction (R350). -/
def vConst (u : Bool) (d : BitVec 8) (f : DWord → DWord) (s : State) (c : Ctx) : Done :=
  vIssue true [⟨.dst, false, d⟩] false d (fun c => c.compute u 0 (fun t _ => f (c.img false t d))) s c

/-! Elements. -/

/-- An exact integer operation, narrowed by fixi (R344). -/
def intArith (op : Int → Int → Int → Int) (isat signed : Bool) (w x y z : Nat) : Nat :=
  ofSigned w (fixInt isat signed w (op (intElem signed w x) (intElem signed w y) (intElem signed w z)))

/-- IMULH: the high half of the product (R344). -/
def elemMulh (signed : Bool) (w x y : Nat) : Nat :=
  ofSigned w (intElem signed w x * intElem signed w y / (2 ^ w : Nat))

/-- IDIV (R345). -/
def elemDiv (isat signed : Bool) (w x y : Nat) : Nat :=
  if y = 0 then ones w
  else ofSigned w (fixInt isat signed w (Int.tdiv (intElem signed w x) (intElem signed w y)))

/-- The smaller or the larger element (R344). -/
def elemMin (takeMax signed : Bool) (w x y : Nat) : Nat :=
  let less := decide (intElem signed w x < intElem signed w y)
  if less != takeMax then x else y

/-- SHL (R346). -/
def elemShl (w x n : Nat) : Nat := if n < w then x * 2 ^ n % 2 ^ w else 0
/-- SHR (R346). -/
def elemShr (w x n : Nat) : Nat := if n < w then x / 2 ^ n else 0
/-- SAR (R346). -/
def elemSar (w x n : Nat) : Nat := ofSigned w (toSigned w x / (2 ^ min n w : Nat))

/-- All ones where a comparison holds, else 0 (R347). -/
def elemCmp (op : Int → Int → Bool) (signed : Bool) (w x y : Nat) : Nat :=
  if op (intElem signed w x) (intElem signed w y) then ones w else 0

/-- The field length of BFX and BFI: min(len, 32 - pos) (R349). -/
def fieldLen (y : DWord) : Nat := min (field y.toNat 8 6) (32 - field y.toNat 0 5)

/-- BFX (R349). -/
def bfxOf (et : Nat) (x y : DWord) : DWord :=
  let n := fieldLen y
  let f := field x.toNat (field y.toNat 0 5) n
  if n = 0 then 0#64 else BitVec.ofNat 64 (if etypeSigned et then ofSigned 32 (toSigned n f) else f)

/-- BFI (R349). -/
def bfiOf (x y z : DWord) : DWord :=
  let n := fieldLen y
  if n = 0 then z else BitVec.ofNat 64 (setField z.toNat (field y.toNat 0 5) n x.toNat)

/-- Result byte k of PRMB (R349). -/
def prmbByte (x y : DWord) (k : Nat) : Nat :=
  let sel := field y.toNat (4 * k) 4
  let v := field x.toNat (8 * (sel % 8)) 8
  if sel < 8 then v else if 128 ≤ v then 0xFF else 0

/-- PRMB (R349). -/
def prmbOf (x y : DWord) : DWord := packElems 8 ((List.range 4).map (prmbByte x y))

/-- ADCMP (R351). -/
def adcmpOf (x y : DWord) : DWord :=
  if x.toNat < y.toNat then 0xFFFFFFFF#64 else if x = y then 0#64 else 1#64

/-- CLZ (R352). -/
def elemClz (w x : Nat) : Nat := if x = 0 then w else w - 1 - Nat.log2 x

/-! The instructions. -/

/-- IADD (R344). -/
def execIadd (u : Bool) (d a b : BitVec 8) : State → Host.Outcome State Fault Refusal :=
  issue (.iadd u d a b) true (vTyped u d a b (fun i g w => intArith (fun x y _ => x + y) i g w))

/-- ISUB (R344). -/
def execIsub (u : Bool) (d a b : BitVec 8) : State → Host.Outcome State Fault Refusal :=
  issue (.isub u d a b) true (vTyped u d a b (fun i g w => intArith (fun x y _ => x - y) i g w))

/-- IMUL (R344). -/
def execImul (u : Bool) (d a b : BitVec 8) : State → Host.Outcome State Fault Refusal :=
  issue (.imul u d a b) true (vTyped u d a b (fun i g w => intArith (fun x y _ => x * y) i g w))

/-- IMULH (R344). -/
def execImulh (u : Bool) (d a b : BitVec 8) : State → Host.Outcome State Fault Refusal :=
  issue (.imulh u d a b) true (vTyped u d a b (fun _ g w x y _ => elemMulh g w x y))

/-- IMAD (R344). -/
def execImad (u : Bool) (d a b : BitVec 8) : State → Host.Outcome State Fault Refusal :=
  issue (.imad u d a b) true (vTyped u d a b (fun i g w => intArith (fun x y z => x * y + z) i g w))

/-- IDIV (R345). -/
def execIdiv (u : Bool) (d a b : BitVec 8) : State → Host.Outcome State Fault Refusal :=
  issue (.idiv u d a b) true (vTyped u d a b (fun i g w x y _ => elemDiv i g w x y))

/-- IMIN (R344). -/
def execImin (u : Bool) (d a b : BitVec 8) : State → Host.Outcome State Fault Refusal :=
  issue (.imin u d a b) true (vTyped u d a b (fun _ g w x y _ => elemMin false g w x y))

/-- IMAX (R344). -/
def execImax (u : Bool) (d a b : BitVec 8) : State → Host.Outcome State Fault Refusal :=
  issue (.imax u d a b) true (vTyped u d a b (fun _ g w x y _ => elemMin true g w x y))

/-- AND (R348). -/
def execAnd (u : Bool) (d a b : BitVec 8) : State → Host.Outcome State Fault Refusal :=
  issue (.and u d a b) true (vWidth u d a b (fun x y => x &&& y))

/-- OR (R348). -/
def execOr (u : Bool) (d a b : BitVec 8) : State → Host.Outcome State Fault Refusal :=
  issue (.or u d a b) true (vWidth u d a b (fun x y => x ||| y))

/-- XOR (R348). -/
def execXor (u : Bool) (d a b : BitVec 8) : State → Host.Outcome State Fault Refusal :=
  issue (.xor u d a b) true (vWidth u d a b (fun x y => x ^^^ y))

/-- ANDN (R348). -/
def execAndn (u : Bool) (d a b : BitVec 8) : State → Host.Outcome State Fault Refusal :=
  issue (.andn u d a b) true (vWidth u d a b (fun x y => x &&& ~~~y))

/-- SHL (R346). -/
def execShl (u : Bool) (d a b : BitVec 8) : State → Host.Outcome State Fault Refusal :=
  issue (.shl u d a b) true (vTyped u d a b (fun _ _ w x y _ => elemShl w x y))

/-- SHR (R346). -/
def execShr (u : Bool) (d a b : BitVec 8) : State → Host.Outcome State Fault Refusal :=
  issue (.shr u d a b) true (vTyped u d a b (fun _ _ w x y _ => elemShr w x y))

/-- SAR (R346). -/
def execSar (u : Bool) (d a b : BitVec 8) : State → Host.Outcome State Fault Refusal :=
  issue (.sar u d a b) true (vTyped u d a b (fun _ _ w x y _ => elemSar w x y))

/-- FSHL (R349). -/
def execFshl (u : Bool) (d a b : BitVec 8) : State → Host.Outcome State Fault Refusal :=
  issue (.fshl u d a b) true (vFixed u false true false d a b (fun _ x y _ => zext64 (hi32 (x <<< field y.toNat 0 5))))

/-- BFX (R349). -/
def execBfx (u : Bool) (d a b : BitVec 8) : State → Host.Outcome State Fault Refusal :=
  issue (.bfx u d a b) true (vFixed u false false false d a b (fun et x y _ => bfxOf et x y))

/-- BFI (R349). -/
def execBfi (u : Bool) (d a b : BitVec 8) : State → Host.Outcome State Fault Refusal :=
  issue (.bfi u d a b) true (vFixed u false false false d a b (fun _ x y z => bfiOf x y z))

/-- PRMB (R349). -/
def execPrmb (u : Bool) (d a b : BitVec 8) : State → Host.Outcome State Fault Refusal :=
  issue (.prmb u d a b) true (vFixed u false true false d a b (fun _ x y _ => prmbOf x y))

/-- SEL (R347): accepts every etype. -/
def execSel (u : Bool) (d a b : BitVec 8) : State → Host.Outcome State Fault Refusal :=
  issue (.sel u d a b) true (fun s c =>
    let et := c.etype
    let p := etypeWide et
    vIssue true (opsDAB p d a b) p d
      (fun c => c.compute u 0 (fun t _ =>
        elemMap et [] (fun _ x y z => if z = 0 then y else x) (c.img p t a) (c.img p t b) (c.img p t d))) s c)

/-- ISEQ (R347). -/
def execIseq (u : Bool) (d a b : BitVec 8) : State → Host.Outcome State Fault Refusal :=
  issue (.iseq u d a b) true (vTyped u d a b (fun _ g w x y _ => elemCmp (fun x y => decide (x = y)) g w x y))

/-- ISNE (R347). -/
def execIsne (u : Bool) (d a b : BitVec 8) : State → Host.Outcome State Fault Refusal :=
  issue (.isne u d a b) true (vTyped u d a b (fun _ g w x y _ => elemCmp (fun x y => decide (x ≠ y)) g w x y))

/-- ISLT (R347). -/
def execIslt (u : Bool) (d a b : BitVec 8) : State → Host.Outcome State Fault Refusal :=
  issue (.islt u d a b) true (vTyped u d a b (fun _ g w x y _ => elemCmp (fun x y => decide (x < y)) g w x y))

/-- ISLE (R347). -/
def execIsle (u : Bool) (d a b : BitVec 8) : State → Host.Outcome State Fault Refusal :=
  issue (.isle u d a b) true (vTyped u d a b (fun _ g w x y _ => elemCmp (fun x y => decide (x ≤ y)) g w x y))

/-- LIMM (R350). -/
def execLimm (u : Bool) (d : BitVec 8) (i : BitVec 16) : State → Host.Outcome State Fault Refusal :=
  issue (.limm u d i) true (vConst u d (fun _ => zext64 (i.signExtend 32)))

/-- LIMMH (R350): keeps the low half of the old d. -/
def execLimmh (u : Bool) (d : BitVec 8) (i : BitVec 16) : State → Host.Outcome State Fault Refusal :=
  issue (.limmh u d i) true (vConst u d (fun z => zext64 (i ++ z.extractLsb' 0 16)))

/-- IADD64 (R351). -/
def execIadd64 (u : Bool) (d a b : BitVec 8) : State → Host.Outcome State Fault Refusal :=
  issue (.iadd64 u d a b) true (vFixed u true true true d a b (fun _ x y _ => x + y))

/-- ISUB64 (R351). -/
def execIsub64 (u : Bool) (d a b : BitVec 8) : State → Host.Outcome State Fault Refusal :=
  issue (.isub64 u d a b) true (vFixed u true true true d a b (fun _ x y _ => x - y))

/-- MOV (R352). -/
def execMov (u : Bool) (d a : BitVec 8) : State → Host.Outcome State Fault Refusal :=
  issue (.mov u d a) true (vWidth1 u d a (fun x => x))

/-- NOT (R352). -/
def execNot (u : Bool) (d a : BitVec 8) : State → Host.Outcome State Fault Refusal :=
  issue (.not u d a) true (vWidth1 u d a (fun x => ~~~x))

/-- INEG (R352). -/
def execIneg (u : Bool) (d a : BitVec 8) : State → Host.Outcome State Fault Refusal :=
  issue (.ineg u d a) true (vTyped1 u d a (fun i g w x => intArith (fun x _ _ => -x) i g w x 0 0))

/-- IABS (R352): an unsigned element is its own value. -/
def execIabs (u : Bool) (d a : BitVec 8) : State → Host.Outcome State Fault Refusal :=
  issue (.iabs u d a) true (vTyped1 u d a (fun i g w x => intArith (fun x _ _ => (x.natAbs : Int)) i g w x 0 0))

/-- CLZ (R352). -/
def execClz (u : Bool) (d a : BitVec 8) : State → Host.Outcome State Fault Refusal :=
  issue (.clz u d a) true (vTyped1 u d a (fun _ _ w x => elemClz w x))

/-- FFS (R352). -/
def execFfs (u : Bool) (d a : BitVec 8) : State → Host.Outcome State Fault Refusal :=
  issue (.ffs u d a) true (vTyped1 u d a (fun _ _ w x => lowestSet w x))

/-- POPC (R352). -/
def execPopc (u : Bool) (d a : BitVec 8) : State → Host.Outcome State Fault Refusal :=
  issue (.popc u d a) true (vTyped1 u d a (fun _ _ w x => countOnes w x))

/-- BREV (R352). -/
def execBrev (u : Bool) (d a : BitVec 8) : State → Host.Outcome State Fault Refusal :=
  issue (.brev u d a) true (vTyped1 u d a (fun _ _ w x => reverseBits w x))

/-- ADA (R351). -/
def execAda (u : Bool) (d a b : BitVec 8) : State → Host.Outcome State Fault Refusal :=
  issue (.ada u d a b) true (vFixed u true true false d a b (fun _ x y _ => x + sext64 (lo32 y)))

/-- ADAX (R351): the step is 8 bytes under etype 9 and 10, else 4. -/
def execAdax (u : Bool) (d a b : BitVec 8) : State → Host.Outcome State Fault Refusal :=
  issue (.adax u d a b) true (vFixed u true true false d a b (fun et x y _ => x + sext64 (lo32 y) * (if etypeWide et then 8#64 else 4#64)))

/-- ADCMP (R351). -/
def execAdcmp (u : Bool) (d a b : BitVec 8) : State → Host.Outcome State Fault Refusal :=
  issue (.adcmp u d a b) true (vFixed u false true true d a b (fun _ x y _ => adcmpOf x y))

end Sys2Proof.Machine
end

