-- ==== Sys2Proof/Machine/Lanes.lean ====
section
/-! DEFINITION. The cross-lane instructions, opcodes 0x43 to 0x47: R369 to R375. -/

namespace Sys2Proof.Machine

/-- What source thread s yields (R369): its own register if it is in the mask, else the fill. -/
def Ctx.fetchLane (c : Ctx) (wide : Bool) (a : BitVec 8) (s : Nat) : DWord :=
  if s < 64 ∧ c.mask.getLsbD s then c.img wide s a else if wide then c.xi else zext64 (lo32 c.xi)

/-- A shuffle (R370): `src` gives the source thread from t and b, or none. -/
def vShuffle (u : Bool) (d a b : BitVec 8) (src : Nat → Nat → Option Nat) (s : State) (c : Ctx) : Done :=
  let p := etypeWide c.etype
  vIssue true [⟨.dst, p, d⟩, ⟨.src, p, a⟩, ⟨.src, false, b⟩] p d
    (fun c => c.compute u 0 (fun t _ => c.fetchLane p a ((src t (c.regs.read32 c.xi t b).toNat).getD 64))) s c

/-- The values x of R374: a thread's elements, as read under daz for a float type. -/
def Ctx.laneElems (c : Ctx) (et : Nat) (a : BitVec 8) : List (List Nat) :=
  (List.range 64).map (fun s =>
    (elems (etypeWidth et) (etypeCount et) (c.fetchLane (etypeWide et) a s)).map (fun x =>
      match etypeFloat et with
      | some F => dazRead F (modeDaz c.regs.mode) x
      | none => x))

/-- The sum of R374 in one element: fsum, or the exact sum narrowed by fixi. -/
def laneSum (mode : Word) (et d : Nat) (l : List Nat) : Nat :=
  match etypeFloat et with
  | some F => fSum (floatEnv mode F) d l
  | none =>
    let w := etypeWidth et
    ofSigned w (fixInt (modeIsat mode) (etypeSigned et) w ((l.map (intElem (etypeSigned et) w)).foldl (fun x y => x + y) 0))

/-- Element i of every thread of a list. -/
def column (xs : List (List Nat)) (i : Nat) : List Nat := xs.map (fun x => x.getD i 0)

/-- Element-wise sum of a list of threads' elements, with one draw per element. -/
def laneSumAll (mode : Word) (et : Nat) (ds : List Nat) (xs : List (List Nat)) : List Nat :=
  (List.range (etypeCount et)).map (fun i => laneSum mode et (ds.getD i 0) (column xs i))

/-- Draws per element of R374: one under SR for a float type. -/
def laneDraws (c : Ctx) (et n : Nat) : Nat := if (etypeFloat et).isSome then modeDraws c n else 0

/-- `n` draws, or none. -/
def drawsOf (n : Nat) (seed : Word) : List Nat × Word := if n = 0 then ([], seed) else srdraws n seed

/-- The pairs of step j of the butterfly, in ascending lower thread (R374). -/
def stepPairs (j : Nat) : List Nat := (List.range 64).filter (fun s => !bitAt s j)

/-- Replace the value of one thread. -/
def setLaneElems (y : List (List Nat)) (s : Nat) (v : List Nat) : List (List Nat) := y.set s v

/-- One step of RSTEP: each pair's sum goes to both threads (R374). No intermediate sum is read anew under daz, as in the
pseudocode (log 77). -/
def rstepRound (mode : Word) (et k j : Nat) : List Nat → List (List Nat) × Word → List (List Nat) × Word
  | [], y => y
  | s :: r, (y, seed) =>
    let ds := drawsOf k seed
    let v := laneSumAll mode et ds.1 [y.getD s [], y.getD (s + 2 ^ j) []]
    rstepRound mode et k j r (setLaneElems (setLaneElems y s v) (s + 2 ^ j) v, ds.2)

/-- RSTEP: steps j = 0 to 5 (R374). -/
def rstepAll (mode : Word) (et k : Nat) (y : List (List Nat)) (seed : Word) : List (List Nat) × Word :=
  (List.range 6).foldl (fun acc j => rstepRound mode et k j (stepPairs j) acc) (y, seed)

/-- Give each listed thread its own result. -/
def spread (exec : BitVec 64) (f : Nat → DWord) : List (Nat × DWord) := (threadsOf exec).map (fun t => (t, f t))

/-- A reduction of R374: with no executing thread there is no effect. `run` gives each thread's
elements and the seed after its draws. -/
def vReduce (u : Bool) (d a : BitVec 8) (run : Ctx → Nat → (Nat → List Nat) × Word) (s : State) (c : Ctx) : Done :=
  let et := c.etype
  let p := etypeWide et
  vIssue true (opsDA p d a) p d
    (fun c =>
      if c.exec = 0#64 then ([], c.seed)
      else
        let r := run c et
        (spread c.exec (fun t => packElems (etypeWidth et) (r.1 (if u then c.lane else t))), r.2)) s c

/-- The prefixes of PSCAN for a list of threads, with their draws in order (R374). -/
def scanThreads (mode : Word) (et k : Nat) (xs : List (List Nat)) : List Nat → Word → List (Nat × List Nat) × Word
  | [], seed => ([], seed)
  | t :: ts, seed =>
    let ds := drawsOf k seed
    let r := scanThreads mode et k xs ts ds.2
    ((t, laneSumAll mode et ds.1 (xs.take (t + 1))) :: r.1, r.2)

/-- A vote of R373 over the whole 32-bit registers of the mask: every thread of E receives it. -/
def vVote (u wide : Bool) (d a : BitVec 8) (f : Ctx → DWord) (s : State) (c : Ctx) : Done :=
  vIssue true [⟨.dst, wide, d⟩, ⟨.src, false, a⟩] wide d (fun c => c.compute u 0 (fun _ _ => f c)) s c

/-- Thread s of the mask holds a non-zero a. -/
def Ctx.nonzero (c : Ctx) (a : BitVec 8) (s : Nat) : Bool := c.regs.read32 c.xi s a != 0#32

def allOnes32 : DWord := 0xFFFFFFFF#64

/-! The instructions: none lies in the privileged subset (R455). -/

/-- SHFL (R370). -/
def execShfl (u : Bool) (d a b : BitVec 8) : State → Host.Outcome State Fault Refusal :=
  issue (.shfl u d a b) false (vShuffle u d a b (fun _ b => some b))

/-- SHFLX (R370). -/
def execShflx (u : Bool) (d a b : BitVec 8) : State → Host.Outcome State Fault Refusal :=
  issue (.shflx u d a b) false (vShuffle u d a b (fun t b => some (t ^^^ b)))

/-- SHFLUP (R370). -/
def execShflup (u : Bool) (d a b : BitVec 8) : State → Host.Outcome State Fault Refusal :=
  issue (.shflup u d a b) false (vShuffle u d a b (fun t b => if t < b then none else some (t - b)))

/-- SHFLDN (R370). -/
def execShfldn (u : Bool) (d a b : BitVec 8) : State → Host.Outcome State Fault Refusal :=
  issue (.shfldn u d a b) false (vShuffle u d a b (fun t b => some (t + b)))

/-- RED (R374): one draw per element. -/
def execRed (u : Bool) (d a : BitVec 8) : State → Host.Outcome State Fault Refusal :=
  issue (.red u d a) false (vReduce u d a (fun c et =>
    let ds := drawsOf (laneDraws c et (etypeCount et)) c.seed
    let v := laneSumAll c.regs.mode et ds.1 (c.laneElems et a)
    (fun _ => v, ds.2)))

/-- RSTEP (R374): one draw per pair and element. -/
def execRstep (u : Bool) (d a : BitVec 8) : State → Host.Outcome State Fault Refusal :=
  issue (.rstep u d a) false (vReduce u d a (fun c et =>
    let r := rstepAll c.regs.mode et (laneDraws c et (etypeCount et)) (c.laneElems et a) c.seed
    (fun t => r.1.getD t [], r.2)))

/-- VANY (R373). -/
def execVany (u : Bool) (d a : BitVec 8) : State → Host.Outcome State Fault Refusal :=
  issue (.vany u d a) false (vVote u false d a (fun c => if (threadsOf c.mask).any (c.nonzero a) then allOnes32 else 0#64))

/-- VALL (R373). -/
def execVall (u : Bool) (d a : BitVec 8) : State → Host.Outcome State Fault Refusal :=
  issue (.vall u d a) false (vVote u false d a (fun c => if (threadsOf c.mask).all (c.nonzero a) then allOnes32 else 0#64))

/-- BLT (R373): a 64-bit result. -/
def execBlt (u : Bool) (d a : BitVec 8) : State → Host.Outcome State Fault Refusal :=
  issue (.blt u d a) false (vVote u true d a (fun c => maskOf ((threadsOf c.mask).filter (c.nonzero a))))

/-- ELECT (R373): the A field is not read (R372); the uniform form gives each thread what the lowest thread of the mask gets (R371). -/
def execElect (u : Bool) (d a : BitVec 8) : State → Host.Outcome State Fault Refusal :=
  issue (.elect u d a) false (fun s c =>
    vIssue true [⟨.dst, false, d⟩] false d
      (fun c => c.compute u 0 (fun t _ => if c.exec.getLsbD t && decide (t = lowest c.exec) then allOnes32 else 0#64)) s c)

/-- PSCAN (R374): one draw per executing thread and element; the uniform form takes only those of the lowest thread (R288). -/
def execPscan (u : Bool) (d a : BitVec 8) : State → Host.Outcome State Fault Refusal :=
  issue (.pscan u d a) false (vReduce u d a (fun c et =>
    let k := laneDraws c et (etypeCount et)
    let r := scanThreads c.regs.mode et k (c.laneElems et a) (if u then [c.lane] else threadsOf c.exec) c.seed
    (fun t => (FMap.find r.1 t).getD [], r.2)))

/-- BCAST (R373): the index is the old 32-bit d of the lowest thread. -/
def execBcast (u : Bool) (d a : BitVec 8) : State → Host.Outcome State Fault Refusal :=
  issue (.bcast u d a) false (fun s c =>
    let p := etypeWide c.etype
    vIssue true (opsDA p d a) p d
      (fun c => c.compute u 0 (fun _ _ => c.fetchLane p a (if p then (c.regs.read64 c.xi c.lane d).toNat else (c.regs.read32 c.xi c.lane d).toNat))) s c)

end Sys2Proof.Machine
end

