-- ==== Sys2Proof/Machine/Sched.lean ====
section
/-! DEFINITION. What moves next: the passage of time and the events that it brings (log 2, log 3), the
choice of a quadrant, a group and a split (R137, R140, log 4), the fetch of a word (R211, R270,
R341), and the placing of one word for the next step (log 16). -/

namespace Sys2Proof.Machine

/-! Time. -/

/-- The next multiple of a period after a tick. -/
def nextMultiple (n tick : Nat) : Nat := (tick / n + 1) * n

/-- Deadlines of one split. -/
def splitDeadlines (gid : Nat) (q : Nat × Split) : List (Nat × Instr) :=
  match q.2.wait with
  | .sleep t => [(t, .slpWake gid q.1)]
  | .bow _ t _ => [(t, .bowReread gid q.1)]
  | _ => []

/-- The earliest tick at which a quadrant may have counted n free ticks (R39): no sooner than if every tick until then
were free. -/
def State.freeBy (s : State) (hid n : Nat) : Nat := s.tick + max 1 (n - s.freeNow hid)

/-- Deadlines of one group (R137, R142 to R144, R182, R404, R446, R469). -/
def State.groupDeadlines (s : State) (gid : Nat) (g : Group) : List (Nat × Instr) :=
  g.gridOps.map (fun o => (s.freeBy (hidOf gid) o.due, Instr.gridOpComplete gid)) ++ (g.table.map (splitDeadlines gid)).flatten ++
    (match g.yieldDue with
      | some t => [(s.freeBy (hidOf gid) t, Instr.yldExpire gid)]
      | none => []) ++
    (match g.readySince with
      | some t => [(s.freeBy (hidOf gid) (t + g.urgentAfter), Instr.demotionTimeout gid)]
      | none => []) ++
    (if g.spin.demoted && g.spin.watchesNone then [(s.freeBy (hidOf gid) (g.spin.since + 1024), Instr.demotionTimeout gid)] else []) ++
    (if g.status = .trapped ∧ g.trapTick = s.tick then [(s.tick + 1, Instr.handlerEntry (hidOf gid))] else [])

/-- The packages to which no path of a partition leads: those that something waits for, and those of which the switch
routes say so, with one that stands for all the others (R31). -/
def State.pathsWaited (s : State) (p : Nat) : List Nat :=
  ((s.boot.pkg :: FMap.keys s.boot.switchRoutes ++ s.pendingPkgs p).filter (fun k => !s.pathUp p k)).eraseDups

/-- Deadlines of one partition (R31, R148, R151): without a path, 100 µs after the last one went. -/
def State.partDeadlines (s : State) (p : Nat) (x : Partition) : List (Nat × Instr) :=
  (match x.switch with
    | some w => if w.restoring || w.forced then [] else [(w.since + 28000, Instr.switchDeadline p)]
    | none => []) ++
    (if x.active && decide (x.period ≠ 0 ∧ x.stbase ≠ 0) then [(nextMultiple (x.period * 70000) s.tick, Instr.switchTick p)] else []) ++
    (if x.live then (s.pathsWaited p).map (fun k => (FMap.getD x.downSince 0 (s.routeKey k) + pathTicks, Instr.millracePathTimeout k)) else [])

/-- Deadlines of one VF's queues (R67, R75) and of its reset (R119). -/
def vfDeadlines (vf : Nat) (v : Vf) : List (Nat × Instr) :=
  (match v.starting with
    | some r => if r.line.isSome then [(r.due, Instr.wobjReread vf)] else []
    | none => []) ++
    (match v.dlq with
      | r :: _ => if r.line.isSome then [(r.due, Instr.dlqRecordStart vf)] else []
      | [] => []) ++
    (if v.resetting then [(v.resetAt + resetTicks, Instr.vfResetComplete vf)] else [])

/-- The end of a core's scan (R43): whether the core passes is a free value (log 49). -/
def State.scanDeadlines (s : State) (core : Nat) (c : Core) : List (Nat × Instr) :=
  match c.scan, c.scanFrom with
  | true, some t => [(t + scanTicks, Instr.scanComplete core ((Config.freeWord s.turn.freeCount).getLsbD (core % 64)))]
  | _, _ => []

/-- Some VF's bandwidth is limited (R106). -/
def State.limited (s : State) : Bool := s.parts.any (fun q => q.2.bw.any (fun b => b.2.en))

/-- Every event that the tick counter brings, with its tick. -/
def State.deadlines (s : State) : List (Nat × Instr) :=
  (s.groups.map (fun q => s.groupDeadlines q.1 q.2)).flatten ++ (s.parts.map (fun q => s.partDeadlines q.1 q.2)).flatten ++
    (s.vfs.map (fun q => vfDeadlines q.1 q.2)).flatten ++ (s.cores.map (fun q => s.scanDeadlines q.1 q.2)).flatten ++
    s.turn.hostWaits.map (fun q => (q.2.2 + pathTicks, Instr.millracePathTimeout s.boot.pkg)) ++
    (if s.limited then [(nextMultiple 700 s.tick, Instr.bandwidthRefill)] else []) ++
    (if s.weirs.isEmpty then [] else [(nextMultiple 700 s.tick, Instr.weirRefill)])

/-- The least of a list of ticks after one. -/
def nextTick (t : Nat) (l : List (Nat × Instr)) : Option Nat :=
  l.foldl (fun b q => if t < q.1 then (match b with
    | some x => some (min x q.1)
    | none => some q.1) else b) none

/-- A group stands with every table split at JOIN and a split on its stack (R142). -/
def Group.exchangeDue (g : Group) : Bool :=
  decide (g.status = .running) && !g.stack.isEmpty && !g.table.isEmpty && g.table.all (fun q => decide (q.2.wait = .join))

/-- The quadrants with a handler or a group, in rising order. -/
def State.quadrants (s : State) : List Nat :=
  FMap.keys ((FMap.keys s.handlers ++ (FMap.keys s.groups).map hidOf).foldl (fun (m : FMap Unit) k => FMap.insert m k ()) [])

/-- A quadrant's handler context has something to do for a trapped group (R182): an entry, or its markers (R259). -/
def State.entryDue (s : State) (hid : Nat) : Bool :=
  (FMap.find s.handlers hid).isNone && (match s.nextTrapped hid with
    | some gid => match FMap.find s.groups gid with
      | some g => g.fault.isSome && decide (g.trapTick < s.tick) && (!g.links.written.isEmpty || g.links.flush.isEmpty)
      | none => false
    | none => false)

/-- An invalidation has something to do (R101): it ends, or it sends markers. -/
def State.stageActs (s : State) (stage2 : Bool) (n : Nat) : Bool :=
  (s.stage stage2 n).busy && (!s.stageInFlight stage2 n || s.stageWrites stage2 n)

/-- Events whose condition holds now: exchanges (R142), yields that all others have answered (R469), handler entries (R182),
invalidations (R101), dies that have become quiet in a switch (R149). -/
def State.readyEvents (s : State) : List Instr :=
  (s.groups.filter (fun q => q.2.exchangeDue)).map (fun q => Instr.splitExchange q.1) ++
    (s.groups.filter (fun q => q.2.yieldDue.isSome && q.2.yieldSet.isEmpty)).map (fun q => Instr.yldExpire q.1) ++
    (s.quadrants.filter s.entryDue).map Instr.handlerEntry ++
    (s.vfs.filter (fun q => s.stageActs false q.1)).map (fun q => Instr.invalidationDone false q.1) ++
    (s.parts.filter (fun q => s.stageActs true q.1)).map (fun q => Instr.invalidationDone true q.1) ++
    (s.parts.map (fun q => match q.2.switch, s.outgoing q.1 with
      | some w, some vf => if w.restoring then [] else
          ((s.partDies q.1).filter (fun d => !w.doneDies.contains d && s.dieActs vf d)).map (fun d => Instr.switchDone q.1 d)
      | _, _ => [])).flatten

/-- Since when each group has been ready, in free ticks (R137). -/
def State.noteReady (s : State) : State :=
  { s with groups := FMap.mapVals (fun gid (g : Group) =>
      if s.groupReady gid g then { g with readySince := some (g.readySince.getD (s.freeNow (hidOf gid))) } else { g with readySince := none }) s.groups }

/-! The choice of an issuer. -/

/-- The handler of a context can issue: it goes first in its quadrant (R137, R184). -/
def State.handlerReady (s : State) (hid : Nat) : Bool :=
  match FMap.find s.handlers hid with
  | some h => match FMap.find s.groups h.gid with
    | some g => s.waitOver h.gid 16 g h.wait
    | none => false
  | none => false

/-- What a quadrant issues (R137, R140). -/
def State.issuerOf (s : State) (hid : Nat) : Option Issuer :=
  if s.handlerReady hid then some (.handler hid)
  else match s.chooseGroup hid with
    | some q => (s.readySplit q.1 q.2).map (fun e => .split q.1 e)
    | none => none

/-- A quadrant's scheduler may issue at this tick (R39, R137): throttling leaves the tick free, and it has not issued in it. -/
def State.quadFree (s : State) (hid : Nat) : Bool :=
  decide (FMap.find s.turn.issuedAt hid ≠ some s.tick) && !emptyTick hid s.throttleLevel s.tick

/-- The issuer whose turn it is: quadrants take turns (log 4), and each issues at most once in a tick (R137). -/
def State.nextIssuer (s : State) : Option (Nat × Issuer) :=
  (rotateFrom s.quadrants (s.turn.rotor + 1)).findSome? (fun hid => if s.quadFree hid then (s.issuerOf hid).map (fun w => (hid, w)) else none)

/-- Something could issue, at this tick or a later one. -/
def State.anyReady (s : State) : Bool := s.quadrants.any (fun hid => (s.issuerOf hid).isSome)

/-- The empty ticks that quadrants count up to a tick (R39). -/
def State.emptiedUntil (s : State) (t : Nat) : FMap Nat :=
  if s.throttleLevel = 0 then s.turn.emptied
  else s.quadrants.foldl (fun m hid =>
    FMap.setD m 0 hid (FMap.getD m 0 hid + (emptyBelow hid s.throttleLevel t - emptyBelow hid s.throttleLevel s.tick))) s.turn.emptied

/-- How far time goes: a free number of ticks (log 2), up to the next deadline at most, and at least one tick where nothing
can happen in this one; where nothing can issue and no event's condition holds, to the deadline at once. An urgent group
issues at the first free tick of its quadrant (R137, R139, R144). -/
def State.nextTime (s : State) : Nat :=
  let n := if s.quadrants.any (fun hid => s.quadFree hid && s.urgent hid) then 0 else Config.elapsed s.turn.freeCount
  let free := s.tick + (if s.nextIssuer.isSome || !s.readyEvents.isEmpty then n else max 1 n)
  match nextTick s.tick s.deadlines with
  | none => free
  | some d => if s.anyReady || !s.readyEvents.isEmpty then min free d else d

/-- Time passes. -/
def State.advance (s : State) : State :=
  let s := s.noteReady.startScans
  let t := s.nextTime
  let due := (s.deadlines.filter (fun q => decide (s.tick < q.1 ∧ q.1 = t))).map (fun q => q.2)
  let turn := { s.turn with ticked := true, freeCount := s.turn.freeCount + 1, agenda := s.readyEvents ++ due, emptied := s.emptiedUntil t }
  { s with tick := t, turn := turn }

/-- A group issues: it is no longer one that a yield waits for (R469), and its time of being ready ends
(R137). -/
def State.noteTurn (s : State) (gid : Nat) : State :=
  let s := s.modGroup gid (fun g => { g with readySince := none })
  { s with groups := FMap.mapVals (fun k (g : Group) => if hidOf k = hidOf gid ∧ g.yieldSet.contains gid then { g with yieldSet := g.yieldSet.filter (fun x => decide (x ≠ gid)) } else g) s.groups }

/-- An issuer takes its turn. -/
def State.startIssue (s : State) (hid : Nat) (w : Issuer) : State :=
  let s := { s with turn := { s.turn with cur := some w, ticked := false, rotor := hid, issuedAt := FMap.insert s.turn.issuedAt hid s.tick } }
  match w with
  | .split gid _ => s.noteTurn gid
  | _ => s

/-! Fetch. -/

/-- What stands at the pc of an issuer. -/
inductive Fetched where
  | word (w : Word)
  | fault (r : FaultReq)
  | wait (x : AssistNeed)
  deriving DecidableEq, Repr

/-- A fetch fault (R341, R459): every thread of the split is in the mask, and the address is the target, but that a fault in
reading a translation table has the address that R482 gives. -/
def fetchFault (pc : Nat) (m : BitVec 64) (f : XFault) : FaultReq :=
  { FaultReq.plain f.code m with addr := BitVec.ofNat 64 (if f.table then f.addr else pc), stage2 := f.stage2, physical := f.table && f.physical,
                                 pathFail := f.pathFail, fetch := true, poison := decide (f.code = fUncorrectable) && !f.pathFail }

/-- Fetch the word at a pc (R98 to R100, R169, R211, R270, R341); another package answers for its own words (log 17). -/
def State.fetch (s : State) (c : Ctx) : Fetched × State :=
  let pc := c.split.pc.toNat
  let w := s.whoOf c.gid
  let bad := fun (f : XFault) (s : State) => (Fetched.fault (fetchFault pc c.split.mask f), s.dropDenials w)
  if 2 ^ 48 ≤ pc ∨ inPool pc then bad (.virt fTranslation pc) s
  else if pc % 4 ≠ 0 then bad (.virt fMisaligned pc) s
  else match resolve w pc 4 s with
    | (.error (.fault f), s) => bad f s
    | (.error (.assist x), s) => (.wait x, s)
    | (.ok (.own off, _), s) =>
      match s.toPost w.part off 4 with
      | some sec => (.wait (.contain sec), s)
      | none => if s.poisoned off 4 then bad (.virt fUncorrectable pc) s else (.word (BitVec.ofNat 32 (s.wordAt off 4)), s.readHome w.part off 4)
    | (.ok (.remote pa, _), s) =>
      let q := (s.sendRemote w.vf 0 pa 4 [] false).farRead 4
      if q.1.refused then bad (.phys fPermission pa) q.2
      else if q.1.poison then bad (.virt fUncorrectable pc) q.2
      else (.word (BitVec.ofNat 32 (ofBytesLE q.1.bytes)), q.2)

/-- What a step does. -/
inductive Pick where
  | run (i : Instr) (s : State)
  /-- the word at the pc is no instruction -/
  | illegal (w : Word) (s : State)
  | done (s : State)
  | outside (w : Word)
  deriving DecidableEq, Repr

/-- The instruction at the pc of the issuer whose turn it is. -/
def State.pickWord (s : State) : Pick :=
  match s.ctx with
  | none => .done s
  | some c =>
    match s.fetch c with
    | (.fault r, s) => .done (s.raise c c 0#32 r)
    | (.wait x, s) =>
      let q := s.waitNeed c.gid c.entry x
      .done (q.2.holdCtx c q.1)
    | (.word w, s) =>
      match decodeDevice c.extv w with
      | .ok i => .run i s
      | .error .reservedOpcode => .run (.reservedOpcode w) s
      | .error .reservedSub => .run (.reservedOpcode w) s
      | .error .reservedAt => .run (.reservedOpcode w) s
      | .error _ => .illegal w s

/-- The word by which a hart reads RV64's `time` into rd: CSRRS of CSR 0xC01 with x0 (R38; PRESUMED, log 68). -/
def isReadTime (w : Word) : Bool := decide (w &&& 0xFFFFF07F#32 = 0xC0102073#32)

/-- A hart reads `time` (R38). -/
def State.readTime (s : State) (h : Nat) (w : Word) : State := (s.modHart h (fun x => x.setX (w.extractLsb' 7 5).toNat s.hostTime)).hartNext h

/-- The host hart that has the turn fetches at its physical pc (log 12): a word of R229, an illegal word of
their major opcode, a read of `time` (R38), or another word of RV64. -/
def State.pickHost (s : State) (h : Nat) : Pick :=
  let pc := (s.hart h).pc.toNat
  let off := offOf pc
  let s := { s with turn := { s.turn with cur := some (.hart h), hostTurn := none } }
  if 2 ^ 51 ≤ pc ∨ pkgOf pc ≠ s.boot.pkg ∨ tierEnd < off + 4 ∨ closedStripe (s.stripe off) ∨ s.poisoned off 4 then .done (s.accessFault (some h) pc)
  else
    let w := BitVec.ofNat 32 (s.wordAt off 4)
    let s := s.hostCopy off false
    match decodeHost w with
    | some i => .run i s
    | none => if w.extractLsb' 0 7 = 0x0B#7 then .done (s.hostException h (.hostIllegal h))
      else if isReadTime w then .done (s.readTime h w)
      else .outside w

/-- What moves next: the boot ROM, the events that are due, the host hart that has the turn, time, or an issue. -/
def State.pick (s : State) : Pick :=
  if !s.power then .run .powerGood s
  else if s.boot.romDue then .done s.romStep
  else match s.turn.agenda with
    | i :: r => .run i { s with turn := { s.turn with cur := some (.unit i), agenda := r } }
    | [] => match s.turn.hostTurn with
      | some h => s.pickHost h
      | none =>
        if s.turn.ticked then
          match s.nextIssuer with
          | some q => (s.startIssue q.1 q.2).pickWord
          | none => .done { s with turn := { s.turn with ticked := false } }
        else .done s.advance

/-! One word for the next step. -/

/-- The reserved word of an opcode, a sub-code or an atomic operation (R318). -/
def execReservedOpcode (w : BitVec 32) (s : State) : Host.Outcome State Fault Refusal := raiseIllegalWord w s

/-- Where a placed word stands: an offset in stripe 0, which is its device virtual address as well. -/
def placeAt : Nat := 0x10000

/-- The header of the grid that a placed word belongs to. -/
def placeHdr : LaunchHdr :=
  { nroles := 1, gang := 1, pool := 8, gx := 1, gy := 1, gz := 1, code := placeAt, cbank := 0, csize := 0, seed := 0, param := 0, stack := 0, ssize := 0,
    roles := [⟨0, 128, 1, 1⟩] }

/-- The grid of a placed word. -/
def placeGrid : Grid := ⟨0, false, ⟨1, 0, 0, 0, 0, 0, 0, 0, 0, 0⟩, placeHdr, 0, 1, 0, some 0, 0, none, false, false, [], [], [], 0, false⟩

/-- The block of a placed word. -/
def placeBlk : Block :=
  { grid := 0, linear := 0, core := 0, q0 := 0, gids := [0], scSize := 0, tiSize := 0, units := 8, sc := [], ti := [], poison := [], barP := [],
    barMask := [], saved := false, queue := [] }

/-- The group of a placed word: all 64 threads in one split at the word. -/
def placeGroup : Group :=
  { status := .running, ident := ⟨0, 0, 0, 0, 128, 0, false, 0⟩, regs := ⟨[], [], [], 0#32, cvmodeReset⟩
    table := [(0, ⟨~~~0#64, BitVec.ofNat 64 placeAt, none, .clear, .none, none, false, 0, none⟩)]
    stack := [], births := 1, lastSplit := 0, parents := [], srseed := 1#32
    txlim := 8, stklim := 0, tvec := 0#32, grid := false, fpgrid := false, batch := 0, clock := none, fp := .empty
    guards := [], barG := [], bargG := [], tx := [], gridOps := [], lastG := 0, fault := none, savedFull := false, engFaults := []
    spin := .clear, links := ⟨[], [], [], []⟩, yieldDue := none, yieldSet := [], readySince := none, trapTick := 0, ejectDue := 0#64 }

/-- A state that issues the word at `placeAt` next: VF 0 of partition 0 owns stripe 0 and runs one group,
and core 0 holds the two range entries that map all of its addresses (log 16). -/
def State.placeDevice (s : State) (w : Word) : State :=
  let maps : List CachedRange := [⟨0, some 0, 0, 2 ^ 40, 0, 7, 0, none⟩, ⟨0, none, 0, 2 ^ 40, s.boot.pkg * 2 ^ 42, 7, 0, none⟩]
  let s := { s with
    power := true
    turn := { s.turn with agenda := [], hostTurn := none, ticked := true, issuedAt := [] }
    boot := { s.boot with status := 3, throttle := 0, thermal := false }
    groups := [(0, placeGroup)], handlers := [], blocks := [(0, placeBlk)], grids := [(0, placeGrid)]
    ms := { s.ms with mem := putBytes s.ms.mem placeAt (bytesOfWord w), fast := FMap.insert s.ms.fast 0 0 } }
  let s := s.modVf 0 (fun v => { v with assigned := true, part := 0, index := 0 })
  let s := s.modPart 0 (fun p => { p with live := true, active := true, running := 0, switch := none })
  s.modCore 0 (fun c => { c with tlb := maps, lost := false, queue := [], trapQueue := [] })

/-- A state whose host hart 0 has the turn at the word. -/
def State.placeHost (s : State) (w : Word) : State :=
  let s := { s with
    power := true
    turn := { s.turn with agenda := [], hostTurn := some 0 }
    boot := { s.boot with status := 3 }
    ms := { s.ms with mem := putBytes s.ms.mem placeAt (bytesOfWord w), fast := FMap.insert s.ms.fast 0 0 } }
  s.modHart 0 (fun h => { h with pc := BitVec.ofNat 64 (s.boot.pkg * 2 ^ 42 + placeAt) })

end Sys2Proof.Machine
end

