-- ==== Sys2Proof/Machine/Dispatch.lean ====
section
/-! DEFINITION. The dispatch of one instruction to its meaning: one arm for each constructor. -/

namespace Sys2Proof.Machine

/-- The meaning of one instruction in one state (R9: one step). -/
def exec (i : Instr) (s : State) : Host.Outcome State Fault Refusal :=
  match i with
  | .powerGood => Sys2Proof.Machine.execPowerGood s
  | .imageOffer bytes => Sys2Proof.Machine.execImageOffer bytes s
  | .selfTestComplete linksOk passing => Sys2Proof.Machine.execSelfTestComplete linksOk passing s
  | .rowRepairInService row => Sys2Proof.Machine.execRowRepairInService row s
  | .l2WayFailure slice => Sys2Proof.Machine.execL2WayFailure slice s
  | .powerCapExceeded => Sys2Proof.Machine.execPowerCapExceeded s
  | .throttleStepDown => Sys2Proof.Machine.execThrottleStepDown s
  | .thermalThrottle => Sys2Proof.Machine.execThermalThrottle s
  | .thermalRecover => Sys2Proof.Machine.execThermalRecover s
  | .thermalShutdown => Sys2Proof.Machine.execThermalShutdown s
  | .millracePortFailure port => Sys2Proof.Machine.execMillracePortFailure port s
  | .millracePathTimeout pkg => Sys2Proof.Machine.execMillracePathTimeout pkg s
  | .millracePacketRx vf gen ppid req pa body => Sys2Proof.Machine.execMillracePacketRx vf gen ppid req pa body s
  | .flushMarker marker => Sys2Proof.Machine.execFlushMarker marker s
  | .flushAnswer gid marker => Sys2Proof.Machine.execFlushAnswer gid marker s
  | .estuaryPacketRx vf gen head va bytes counter => Sys2Proof.Machine.execEstuaryPacketRx vf gen head va bytes counter s
  | .estuaryRetxTimeout conn vf port seq packet nak => Sys2Proof.Machine.execEstuaryRetxTimeout conn vf port seq packet nak s
  | .estuaryWorkComplete id status bytes => Sys2Proof.Machine.execEstuaryWorkComplete id status bytes s
  | .assistDone part slot => Sys2Proof.Machine.execAssistDone part slot s
  | .registerWrite agent off size val => Sys2Proof.Machine.execRegisterWrite agent off size val s
  | .lqtailWrite vf val => Sys2Proof.Machine.execLqtailWrite vf val s
  | .vfctlEn vf en => Sys2Proof.Machine.execVfctlEn vf en s
  | .qreset vf => Sys2Proof.Machine.execQreset vf s
  | .vreset vf => Sys2Proof.Machine.execVreset vf s
  | .hsdoneWrite vf slot => Sys2Proof.Machine.execHsdoneWrite vf slot s
  | .hcallResume vf slot => Sys2Proof.Machine.execHcallResume vf slot s
  | .recordStart vf => Sys2Proof.Machine.execRecordStart vf s
  | .recordWaitSatisfied vf => Sys2Proof.Machine.execRecordWaitSatisfied vf s
  | .wobjReread vf => Sys2Proof.Machine.execWobjReread vf s
  | .dlqRecordStart vf => Sys2Proof.Machine.execDlqRecordStart vf s
  | .contextErrorReport grid status detail core slot pc => Sys2Proof.Machine.execContextErrorReport grid status detail core slot pc s
  | .gridCompletion grid => Sys2Proof.Machine.execGridCompletion grid s
  | .pclusWrite part val => Sys2Proof.Machine.execPclusWrite part val s
  | .l2qWrite part val => Sys2Proof.Machine.execL2qWrite part val s
  | .mrportsWrite part val => Sys2Proof.Machine.execMrportsWrite part val s
  | .estpWrite part val => Sys2Proof.Machine.execEstpWrite part val s
  | .wtinvWrite part => Sys2Proof.Machine.execWtinvWrite part s
  | .stageInvalidate stage2 n => Sys2Proof.Machine.execStageInvalidate stage2 n s
  | .invalidationDone stage2 n => Sys2Proof.Machine.execInvalidationDone stage2 n s
  | .setstripe => Sys2Proof.Machine.execSetstripe s
  | .stripeScrubDone => Sys2Proof.Machine.execStripeScrubDone s
  | .assignvf => Sys2Proof.Machine.execAssignvf s
  | .unassignvf => Sys2Proof.Machine.execUnassignvf s
  | .wopen => Sys2Proof.Machine.execWopen s
  | .wquiesce => Sys2Proof.Machine.execWquiesce s
  | .wexport => Sys2Proof.Machine.execWexport s
  | .wclose => Sys2Proof.Machine.execWclose s
  | .wreload => Sys2Proof.Machine.execWreload s
  | .bandwidthRefill => Sys2Proof.Machine.execBandwidthRefill s
  | .weirRequest gid entry kind handle value => Sys2Proof.Machine.execWeirRequest gid entry kind handle value s
  | .weirRefill => Sys2Proof.Machine.execWeirRefill s
  | .deltaBatchHandout part => Sys2Proof.Machine.execDeltaBatchHandout part s
  | .batchReturn die part => Sys2Proof.Machine.execBatchReturn die part s
  | .blockPlacement die part => Sys2Proof.Machine.execBlockPlacement die part s
  | .stealRequest die part => Sys2Proof.Machine.execStealRequest die part s
  | .splitExchange gid => Sys2Proof.Machine.execSplitExchange gid s
  | .demotionTimeout gid => Sys2Proof.Machine.execDemotionTimeout gid s
  | .switchTick part => Sys2Proof.Machine.execSwitchTick part s
  | .switchDone part die => Sys2Proof.Machine.execSwitchDone part die s
  | .switchDeadline part => Sys2Proof.Machine.execSwitchDeadline part s
  | .switchIn part => Sys2Proof.Machine.execSwitchIn part s
  | .inFieldScan core => Sys2Proof.Machine.execInFieldScan core s
  | .scanComplete core pass => Sys2Proof.Machine.execScanComplete core pass s
  | .coreLost core => Sys2Proof.Machine.execCoreLost core s
  | .handlerEntry hid => Sys2Proof.Machine.execHandlerEntry hid s
  | .loadResponse gid id data marks => Sys2Proof.Machine.execLoadResponse gid id data marks s
  | .atomicResponse gid id data marks => Sys2Proof.Machine.execAtomicResponse gid id data marks s
  | .homeRequest hart tx kind pa bytes uncorrectable => Sys2Proof.Machine.execHomeRequest hart tx kind pa bytes uncorrectable s
  | .gridOpComplete gid => Sys2Proof.Machine.execGridOpComplete gid s
  | .engineCommandStart core gather => Sys2Proof.Machine.execEngineCommandStart core gather s
  | .engineCommandComplete core id => Sys2Proof.Machine.execEngineCommandComplete core id s
  | .engineFault core id => Sys2Proof.Machine.execEngineFault core id s
  | .chainEntryStart core id => Sys2Proof.Machine.execChainEntryStart core id s
  | .collComplete id status bytes => Sys2Proof.Machine.execCollComplete id status bytes s
  | .tierMoveComplete => Sys2Proof.Machine.execTierMoveComplete s
  | .sluiceTurn => Sys2Proof.Machine.execSluiceTurn s
  | .fallbackLockGrant part => Sys2Proof.Machine.execFallbackLockGrant part s
  | .hostTxInterrupt h exception => Sys2Proof.Machine.execHostTxInterrupt h exception s
  | .bowReread gid entry => Sys2Proof.Machine.execBowReread gid entry s
  | .slpWake gid entry => Sys2Proof.Machine.execSlpWake gid entry s
  | .yldExpire gid => Sys2Proof.Machine.execYldExpire gid s
  | .txOpen d => Sys2Proof.Machine.execTxOpen d s
  | .txClose => Sys2Proof.Machine.execTxClose s
  | .txDrop fld => Sys2Proof.Machine.execTxDrop fld s
  | .nop => Sys2Proof.Machine.execNop s
  | .ext fld => Sys2Proof.Machine.execExt fld s
  | .exth fld => Sys2Proof.Machine.execExth fld s
  | .setm fld => Sys2Proof.Machine.execSetm fld s
  | .setcv b => Sys2Proof.Machine.execSetcv b s
  | .bra fld => Sys2Proof.Machine.execBra fld s
  | .brc u d fld => Sys2Proof.Machine.execBrc u d fld s
  | .join => Sys2Proof.Machine.execJoin s
  | .jmpi a => Sys2Proof.Machine.execJmpi a s
  | .call d fld => Sys2Proof.Machine.execCall d fld s
  | .calli d a => Sys2Proof.Machine.execCalli d a s
  | .exit => Sys2Proof.Machine.execExit s
  | .iadd u d a b => Sys2Proof.Machine.execIadd u d a b s
  | .isub u d a b => Sys2Proof.Machine.execIsub u d a b s
  | .imul u d a b => Sys2Proof.Machine.execImul u d a b s
  | .imulh u d a b => Sys2Proof.Machine.execImulh u d a b s
  | .imad u d a b => Sys2Proof.Machine.execImad u d a b s
  | .idiv u d a b => Sys2Proof.Machine.execIdiv u d a b s
  | .imin u d a b => Sys2Proof.Machine.execImin u d a b s
  | .imax u d a b => Sys2Proof.Machine.execImax u d a b s
  | .and u d a b => Sys2Proof.Machine.execAnd u d a b s
  | .or u d a b => Sys2Proof.Machine.execOr u d a b s
  | .xor u d a b => Sys2Proof.Machine.execXor u d a b s
  | .andn u d a b => Sys2Proof.Machine.execAndn u d a b s
  | .shl u d a b => Sys2Proof.Machine.execShl u d a b s
  | .shr u d a b => Sys2Proof.Machine.execShr u d a b s
  | .sar u d a b => Sys2Proof.Machine.execSar u d a b s
  | .fshl u d a b => Sys2Proof.Machine.execFshl u d a b s
  | .bfx u d a b => Sys2Proof.Machine.execBfx u d a b s
  | .bfi u d a b => Sys2Proof.Machine.execBfi u d a b s
  | .prmb u d a b => Sys2Proof.Machine.execPrmb u d a b s
  | .sel u d a b => Sys2Proof.Machine.execSel u d a b s
  | .iseq u d a b => Sys2Proof.Machine.execIseq u d a b s
  | .isne u d a b => Sys2Proof.Machine.execIsne u d a b s
  | .islt u d a b => Sys2Proof.Machine.execIslt u d a b s
  | .isle u d a b => Sys2Proof.Machine.execIsle u d a b s
  | .limm u d fld => Sys2Proof.Machine.execLimm u d fld s
  | .limmh u d fld => Sys2Proof.Machine.execLimmh u d fld s
  | .iadd64 u d a b => Sys2Proof.Machine.execIadd64 u d a b s
  | .isub64 u d a b => Sys2Proof.Machine.execIsub64 u d a b s
  | .mov u d a => Sys2Proof.Machine.execMov u d a s
  | .not u d a => Sys2Proof.Machine.execNot u d a s
  | .ineg u d a => Sys2Proof.Machine.execIneg u d a s
  | .iabs u d a => Sys2Proof.Machine.execIabs u d a s
  | .clz u d a => Sys2Proof.Machine.execClz u d a s
  | .ffs u d a => Sys2Proof.Machine.execFfs u d a s
  | .popc u d a => Sys2Proof.Machine.execPopc u d a s
  | .brev u d a => Sys2Proof.Machine.execBrev u d a s
  | .ada u d a b => Sys2Proof.Machine.execAda u d a b s
  | .adax u d a b => Sys2Proof.Machine.execAdax u d a b s
  | .adcmp u d a b => Sys2Proof.Machine.execAdcmp u d a b s
  | .fadd u d a b => Sys2Proof.Machine.execFadd u d a b s
  | .fsub u d a b => Sys2Proof.Machine.execFsub u d a b s
  | .fmul u d a b => Sys2Proof.Machine.execFmul u d a b s
  | .fma u d a b => Sys2Proof.Machine.execFma u d a b s
  | .fnma u d a b => Sys2Proof.Machine.execFnma u d a b s
  | .fmin u d a b => Sys2Proof.Machine.execFmin u d a b s
  | .fmax u d a b => Sys2Proof.Machine.execFmax u d a b s
  | .fcpys u d a b => Sys2Proof.Machine.execFcpys u d a b s
  | .fscl u d a b => Sys2Proof.Machine.execFscl u d a b s
  | .fdiv u d a b => Sys2Proof.Machine.execFdiv u d a b s
  | .fseq u d a b => Sys2Proof.Machine.execFseq u d a b s
  | .fsne u d a b => Sys2Proof.Machine.execFsne u d a b s
  | .fslt u d a b => Sys2Proof.Machine.execFslt u d a b s
  | .fsle u d a b => Sys2Proof.Machine.execFsle u d a b s
  | .fsun u d a b => Sys2Proof.Machine.execFsun u d a b s
  | .fabs u d a => Sys2Proof.Machine.execFabs u d a s
  | .fneg u d a => Sys2Proof.Machine.execFneg u d a s
  | .fclass u d a => Sys2Proof.Machine.execFclass u d a s
  | .frnd u d a => Sys2Proof.Machine.execFrnd u d a s
  | .fexpo u d a => Sys2Proof.Machine.execFexpo u d a s
  | .frcp u d a => Sys2Proof.Machine.execFrcp u d a s
  | .frsq u d a => Sys2Proof.Machine.execFrsq u d a s
  | .fsqrt u d a => Sys2Proof.Machine.execFsqrt u d a s
  | .fex2 u d a => Sys2Proof.Machine.execFex2 u d a s
  | .flg2 u d a => Sys2Proof.Machine.execFlg2 u d a s
  | .fsin u d a => Sys2Proof.Machine.execFsin u d a s
  | .fcos u d a => Sys2Proof.Machine.execFcos u d a s
  | .ftanh u d a => Sys2Proof.Machine.execFtanh u d a s
  | .cvtf u d a f => Sys2Proof.Machine.execCvtf u d a f s
  | .cvti u d a f => Sys2Proof.Machine.execCvti u d a f s
  | .cvif u d a f => Sys2Proof.Machine.execCvif u d a f s
  | .cvii u d a f => Sys2Proof.Machine.execCvii u d a f s
  | .unpk u d a f => Sys2Proof.Machine.execUnpk u d a f s
  | .mxq u d a f => Sys2Proof.Machine.execMxq u d a f s
  | .mxsc u d a f => Sys2Proof.Machine.execMxsc u d a f s
  | .pack2 u d a b => Sys2Proof.Machine.execPack2 u d a b s
  | .pack4 u d a b => Sys2Proof.Machine.execPack4 u d a b s
  | .shfl u d a b => Sys2Proof.Machine.execShfl u d a b s
  | .shflx u d a b => Sys2Proof.Machine.execShflx u d a b s
  | .shflup u d a b => Sys2Proof.Machine.execShflup u d a b s
  | .shfldn u d a b => Sys2Proof.Machine.execShfldn u d a b s
  | .red u d a => Sys2Proof.Machine.execRed u d a s
  | .rstep u d a => Sys2Proof.Machine.execRstep u d a s
  | .vany u d a => Sys2Proof.Machine.execVany u d a s
  | .vall u d a => Sys2Proof.Machine.execVall u d a s
  | .blt u d a => Sys2Proof.Machine.execBlt u d a s
  | .elect u d a => Sys2Proof.Machine.execElect u d a s
  | .pscan u d a => Sys2Proof.Machine.execPscan u d a s
  | .bcast u d a => Sys2Proof.Machine.execBcast u d a s
  | .ldb u d a b => Sys2Proof.Machine.execLdb u d a b s
  | .ldh u d a b => Sys2Proof.Machine.execLdh u d a b s
  | .ldw u d a b => Sys2Proof.Machine.execLdw u d a b s
  | .ldd u d a b => Sys2Proof.Machine.execLdd u d a b s
  | .ldq u d a b => Sys2Proof.Machine.execLdq u d a b s
  | .stb u d a b => Sys2Proof.Machine.execStb u d a b s
  | .sth u d a b => Sys2Proof.Machine.execSth u d a b s
  | .stw u d a b => Sys2Proof.Machine.execStw u d a b s
  | .std u d a b => Sys2Proof.Machine.execStd u d a b s
  | .stq u d a b => Sys2Proof.Machine.execStq u d a b s
  | .ldc u d b => Sys2Proof.Machine.execLdc u d b s
  | .atAdd u d a b => Sys2Proof.Machine.execAtAdd u d a b s
  | .atMin u d a b => Sys2Proof.Machine.execAtMin u d a b s
  | .atMax u d a b => Sys2Proof.Machine.execAtMax u d a b s
  | .atAnd u d a b => Sys2Proof.Machine.execAtAnd u d a b s
  | .atOr u d a b => Sys2Proof.Machine.execAtOr u d a b s
  | .atXor u d a b => Sys2Proof.Machine.execAtXor u d a b s
  | .atXch u d a b => Sys2Proof.Machine.execAtXch u d a b s
  | .atCas u d a b => Sys2Proof.Machine.execAtCas u d a b s
  | .atInc u d a b => Sys2Proof.Machine.execAtInc u d a b s
  | .atAgg u d a b => Sys2Proof.Machine.execAtAgg u d a b s
  | .atFadd u d a b => Sys2Proof.Machine.execAtFadd u d a b s
  | .fence o fld => Sys2Proof.Machine.execFence o fld s
  | .bar r fld => Sys2Proof.Machine.execBar r fld s
  | .barg fld => Sys2Proof.Machine.execBarg fld s
  | .waitc n c => Sys2Proof.Machine.execWaitc n c s
  | .seal d => Sys2Proof.Machine.execSeal d s
  | .waitb b => Sys2Proof.Machine.execWaitb b s
  | .pft a b => Sys2Proof.Machine.execPft a b s
  | .evt a b => Sys2Proof.Machine.execEvt a b s
  | .bow d a b => Sys2Proof.Machine.execBow d a b s
  | .cinv => Sys2Proof.Machine.execCinv s
  | .cinvRange a b => Sys2Proof.Machine.execCinvRange a b s
  | .cpy g fld a => Sys2Proof.Machine.execCpy g fld a s
  | .gthr g fld a => Sys2Proof.Machine.execGthr g fld a s
  | .gbag g fld a => Sys2Proof.Machine.execGbag g fld a s
  | .sctr g fld a => Sys2Proof.Machine.execSctr g fld a s
  | .coll g fld a => Sys2Proof.Machine.execColl g fld a s
  | .chain g fld a => Sys2Proof.Machine.execChain g fld a s
  | .npost g fld a => Sys2Proof.Machine.execNpost g fld a s
  | .ctail e b => Sys2Proof.Machine.execCtail e b s
  | .gres fld b => Sys2Proof.Machine.execGres fld b s
  | .gresClear fld => Sys2Proof.Machine.execGresClear fld s
  | .ncwt d a b => Sys2Proof.Machine.execNcwt d a b s
  | .tswap d a b => Sys2Proof.Machine.execTswap d a b s
  | .lnch d a => Sys2Proof.Machine.execLnch d a s
  | .hcall d a => Sys2Proof.Machine.execHcall d a s
  | .txo => Sys2Proof.Machine.execTxo s
  | .txc => Sys2Proof.Machine.execTxc s
  | .txd b => Sys2Proof.Machine.execTxd b s
  | .txs d => Sys2Proof.Machine.execTxs d s
  | .wsig a b => Sys2Proof.Machine.execWsig a b s
  | .wtry d a b => Sys2Proof.Machine.execWtry d a b s
  | .wwait d a b => Sys2Proof.Machine.execWwait d a b s
  | .wqry d a => Sys2Proof.Machine.execWqry d a s
  | .entg => Sys2Proof.Machine.execEntg s
  | .extg => Sys2Proof.Machine.execExtg s
  | .gmm z a b => Sys2Proof.Machine.execGmm z a b s
  | .gmmSparse z a b => Sys2Proof.Machine.execGmmSparse z a b s
  | .gmmLinked z a b => Sys2Proof.Machine.execGmmLinked z a b s
  | .gmmLinkedSparse z a b => Sys2Proof.Machine.execGmmLinkedSparse z a b s
  | .gout z a b => Sys2Proof.Machine.execGout z a b s
  | .gzro => Sys2Proof.Machine.execGzro s
  | .gbias d a => Sys2Proof.Machine.execGbias d a s
  | .gscl d a => Sys2Proof.Machine.execGscl d a s
  | .gpack d a => Sys2Proof.Machine.execGpack d a s
  | .gstp d a => Sys2Proof.Machine.execGstp d a s
  | .gldp d a => Sys2Proof.Machine.execGldp d a s
  | .gstat d => Sys2Proof.Machine.execGstat d s
  | .trap fld => Sys2Proof.Machine.execTrap fld s
  | .srd d fld => Sys2Proof.Machine.execSrd d fld s
  | .swr d fld => Sys2Proof.Machine.execSwr d fld s
  | .rett => Sys2Proof.Machine.execRett s
  | .fpret => Sys2Proof.Machine.execFpret s
  | .yld => Sys2Proof.Machine.execYld s
  | .halt => Sys2Proof.Machine.execHalt s
  | .dbrk => Sys2Proof.Machine.execDbrk s
  | .fskipAll => Sys2Proof.Machine.execFskipAll s
  | .fskipMask a => Sys2Proof.Machine.execFskipMask a s
  | .slp a => Sys2Proof.Machine.execSlp a s
  | .lrd d a b => Sys2Proof.Machine.execLrd d a b s
  | .lwr d a b => Sys2Proof.Machine.execLwr d a b s
  | .erpl a b => Sys2Proof.Machine.execErpl a b s
  | .fpt a => Sys2Proof.Machine.execFpt a s
  | .powerOff => Sys2Proof.Machine.execPowerOff s
  | .vfResetComplete vf => Sys2Proof.Machine.execVfResetComplete vf s
  | .collAccept core id => Sys2Proof.Machine.execCollAccept core id s
  | .npostAccept core id => Sys2Proof.Machine.execNpostAccept core id s
  | .privateCacheEviction h granule => Sys2Proof.Machine.execPrivateCacheEviction h granule s
  | .hostTxIllegal h => Sys2Proof.Machine.execHostTxIllegal h s
  | .reservedOpcode w => Sys2Proof.Machine.execReservedOpcode w s

end Sys2Proof.Machine
end

