-- ==== Sys2Proof/Machine/Step.lean ====
section
/-! DEFINITION. One step of the package (R9): the next event, host word, passage of time or device
instruction, and the placing of a word for it. -/

namespace Sys2Proof.Machine

/-- One step. -/
def step (s : State) : Host.Outcome State Fault Refusal :=
  match s.pick with
  | .run i s => exec i s
  | .illegal w s => raiseIllegalWord w s
  | .done s => .next s
  | .outside w => .refused (.hostWordOutsideSpec w)

/-- The state with an instruction's bits placed where the next step fetches: a host word at hart 0's pc,
any other word at the pc of a group (log 16). -/
def State.withFetchWord (s : State) (nbits w : Nat) : State :=
  let v : Word := BitVec.ofNat 32 (w % 2 ^ nbits)
  match decodeHost v with
  | some _ => s.placeHost v
  | none => s.placeDevice v

end Sys2Proof.Machine
end

