-- ==== Sys2Proof/Safety.lean ====
section
/-! DEFINITION. What claims call a good state and a good step, and the words that claims are stated in:
the memory's canonical form, the registers and the pc of an issuer, and the register writes of R162. -/

namespace Sys2Proof.Machine

/-- Memory is in its canonical form: addresses strictly rising, and no entry equal to 0, which an
unlisted address reads as (log 5). -/
def Memory.wf (m : List Host.Cell) : Bool := FMap.wf 0#8 m

/-- A step answers a next state. -/
def Completes (o : Host.Outcome State Fault Refusal) : Prop := ∃ t, o = .next t

end Sys2Proof.Machine

namespace Sys2Proof.Claims

open Sys2Proof.Machine

/-- The registers that an issuer's instructions name. -/
def regsOf (s : State) (w : Issuer) : Option Regs :=
  match w with
  | .split gid _ => (FMap.find s.groups gid).map (fun g => g.regs)
  | .handler hid => (FMap.find s.handlers hid).map (fun h => h.regs)
  | .hart _ => none
  | .unit _ => none

/-- The pc of an issuer. -/
def pcOf (s : State) (w : Issuer) : Option (BitVec 64) :=
  match w with
  | .split gid e => (FMap.find s.groups gid).bind (fun g => (FMap.find g.table e).map (fun sp => sp.pc))
  | .handler hid => (FMap.find s.handlers hid).map (fun h => h.pc)
  | .hart h => some (s.hart h).pc
  | .unit _ => none

/-- What a split of a group waits for. -/
def waitOf (s : State) (gid e : Nat) : Option Wait := (FMap.find s.groups gid).bind (fun g => (FMap.find g.table e).map (fun sp => sp.wait))

/-- A property of the group with an identifier, which is there. -/
def OfGroup (s : State) (gid : Nat) (P : Group → Prop) : Prop := ∃ g, FMap.find s.groups gid = some g ∧ P g

/-- The context `c` issues, its operand fields are valid, and no grid operation has to end first
(R319 step 3, R172). -/
def Issues (s : State) (c : Ctx) (ops : List Opnd) : Prop :=
  s.ctx = some c ∧ ops.all (fun o => o.ok c.allot) = true ∧ c.mustWait (ops.any Opnd.touches) = false

/-- The instruction completes: the issuer goes on after it with these registers and this seed, and
nothing else of the state has changed. -/
def Retires (i : Instr) (s : State) (c : Ctx) (regs : Regs) (seed : Word) (npc : BitVec 64) : Prop :=
  exec i s = .next (s.retire c { c with regs := regs, seed := seed } npc)

/-- What register n of the main file holds in a thread after a result x is written to specifier d (R161,
R163): the low half to the named register, the high half of a 64-bit one to the next. -/
def mainAfter (wide : Bool) (d : BitVec 8) (x : DWord) (n : Nat) (old : Word) : Word :=
  match specOf d with
  | .v k => if n = k then lo32 x else if wide = true ∧ n = k + 1 then hi32 x else old
  | _ => old

/-- The same for a register of the operand file. -/
def operandAfter (wide : Bool) (d : BitVec 8) (x : DWord) (n : Nat) (old : Word) : Word :=
  match specOf d with
  | .o k => if n = k then lo32 x else if wide = true ∧ n = k + 1 then hi32 x else old
  | _ => old

/-- The registers r' are r after each thread t of `exec` has written its result f t to d, with the latches
moved where `latch` (R162), and nothing else. -/
def Wrote (r : Regs) (exec : BitVec 64) (wide latch : Bool) (d : BitVec 8) (f : Nat → DWord) (r' : Regs) : Prop :=
  (∀ t n, t < 64 → r'.getV n t = if exec.getLsbD t then mainAfter wide d (f t) n (r.getV n t) else r.getV n t) ∧
  (∀ t n, t < 64 → r'.getO n t = if exec.getLsbD t then operandAfter wide d (f t) n (r.getO n t) else r.getO n t) ∧
  (∀ t, t < 64 → r'.getL 0 t = if exec.getLsbD t && latch then lo32 (f t) else r.getL 0 t) ∧
  (∀ t, t < 64 → r'.getL 1 t = if exec.getLsbD t && latch then (if wide then hi32 (f t) else r.getL 0 t) else r.getL 1 t) ∧
  r'.mode = r.mode ∧ r'.cvmode = r.cvmode

/-- The instruction completes with a result for each executing thread: destination and latches are
written, the rest of the registers and of the state are as before (R162). -/
def Yields (i : Instr) (s : State) (c : Ctx) (wide : Bool) (d : BitVec 8) (f : Nat → DWord) : Prop :=
  ∃ r, Wrote c.regs c.exec wide true d f r ∧ Retires i s c r c.seed (c.split.pc + 4#64)

/-- The thread whose sources a thread's result comes from: the lowest of the mask in the uniform form
(R160). -/
def source (c : Ctx) (u : Bool) (t : Nat) : Nat := if u then c.lane else t

/-- An exact integer held in an element of w bits (R274): clamped under isat, and modulo 2^w. -/
def narrow (isat signed : Bool) (w : Nat) (v : Int) : Nat := ((if isat then clampInt signed w v else v) % (2 ^ w : Nat)).toNat

/-- Thread t's result of a typed instruction whose element function is g (R273, R342). -/
def typedResult (c : Ctx) (u : Bool) (d a b : BitVec 8) (g : Nat → Nat → Nat → Nat) (t : Nat) : DWord :=
  let p := etypeWide c.etype
  let k := source c u t
  elemMap c.etype [] (fun _ x y z => g x y z) (c.img p k a) (c.img p k b) (c.img p k d)

/-- Thread t's result of a float instruction whose element function is g (R354); no draw is taken. -/
def floatResult (c : Ctx) (u : Bool) (d a b : BitVec 8) (g : Nat → Nat → Nat → Nat) (t : Nat) : DWord :=
  let k := source c u t
  elemMap c.etype [] (fun _ x y z => g x y z) (c.img false k a) (c.img false k b) (c.img false k d)

/-- The group of a split whose instruction can run: it has no lane in a transaction, and neither a wait nor
a retry stands. -/
def Plain (s : State) (c : Ctx) : Prop :=
  s.ctx = some c ∧ c.single = false ∧ c.split.wait = .none ∧ OfGroup s c.gid (fun g => g.openLanes (~~~0#64) = 0#64)

/-- Apart from the issuer's group and handler, the state t is s: every other group, memory, every unit and
every queue are as before. -/
def OnlyIssuer (s : State) (c : Ctx) (t : State) : Prop :=
  { t with groups := s.groups, handlers := s.handlers } = s ∧
  (∀ k, k ≠ c.gid → FMap.find t.groups k = FMap.find s.groups k) ∧
  (∀ h, c.who ≠ .handler h → FMap.find t.handlers h = FMap.find s.handlers h)

/-- The registers that the issuer of c has once its split is sp: under the MODE that an instruction in flight keeps
(R313), else under the MODE of its group. -/
def settled (c : Ctx) (regs : Regs) (sp : Split) : Regs :=
  { regs with mode := (sp.issued.map (fun i => i.mode)).getD (c.keepMode.getD regs.mode) }

/-- In t the issuer of c has these registers, this seed and this split. -/
def Holds (t : State) (c : Ctx) (regs : Regs) (seed : Word) (sp : Split) : Prop :=
  ∃ c', t.ctxOf (some c.who) = some c' ∧ c'.regs = settled c regs sp ∧ c'.seed = seed ∧ c'.split = sp

/-- The issuer goes on at `npc`: its prefix state is clear and it waits for nothing (R310). -/
def GoesOn (t : State) (c : Ctx) (regs : Regs) (seed : Word) (npc : BitVec 64) : Prop := Holds t c regs seed (c.advance npc).split

/-- The issuer waits, its pc and its prefix state as they were. -/
def WaitsFor (t : State) (c : Ctx) (w : Wait) : Prop := Holds t c c.regs c.seed { c.split with wait := w }

/-- The instruction completes: the issuer has these registers, this seed and this split, and nothing else
of the state has changed but what its group notes of the issue. -/
def Goes (i : Instr) (s : State) (c : Ctx) (regs : Regs) (seed : Word) (sp : Split) : Prop :=
  ∃ t, exec i s = .next t ∧ OnlyIssuer s c t ∧ Holds t c regs seed sp

/-- The instruction takes the exception of a fault code for the threads of a mask (R182, R459). -/
def Raises (i : Instr) (s : State) (c : Ctx) (code : Nat) (mask addr : BitVec 64) : Prop :=
  ∃ r, r.code = code ∧ r.mask = mask ∧ r.addr = addr ∧ exec i s = .next (s.raise c c ((encode i).getD 0#32) r)

/-- The group is trapped with this fault, and queues for its quadrant's handler context (R182). -/
def Trapped (t : State) (gid : Nat) (P : FaultInfo → Prop) : Prop :=
  OfGroup t gid (fun g => g.status = .trapped ∧ ∃ f, g.fault = some f ∧ P f) ∧ gid ∈ (t.core (coreOf gid)).trapQueue

/-- The threads of a group's splits. -/
def liveMask (g : Group) : BitVec 64 := g.splits.foldl (fun m sp => m ||| sp.mask) 0#64

/-- Every byte of memory, of the Pool and of the trap regions is the same, and so is all poison. -/
def KeepsMemory (s t : State) : Prop :=
  t.ms.mem = s.ms.mem ∧ t.ms.poison = s.ms.poison ∧ t.blocks = s.blocks ∧ ∀ k, (t.core k).trap = (s.core k).trap

/-- The instructions that the handler does not run (R455). -/
def notInHandler (i : Instr) : Bool :=
  match i with
  | .exit | .shfl _ _ _ _ | .shflx _ _ _ _ | .shflup _ _ _ _ | .shfldn _ _ _ _ | .red _ _ _ | .rstep _ _ _ | .vany _ _ _ | .vall _ _ _
  | .blt _ _ _ | .elect _ _ _ | .pscan _ _ _ | .bcast _ _ _ => true
  | .bar _ _ | .barg _ | .waitc _ _ | .seal _ | .waitb _ | .pft _ _ | .evt _ _ | .bow _ _ _ | .cinv | .cinvRange _ _ => true
  | .cpy _ _ _ | .gthr _ _ _ | .gbag _ _ _ | .sctr _ _ _ | .coll _ _ _ | .chain _ _ _ | .npost _ _ _ | .ctail _ _ | .gres _ _ | .gresClear _
  | .ncwt _ _ _ | .tswap _ _ _ | .lnch _ _ | .hcall _ _ => true
  | .txo | .txc | .txd _ | .txs _ | .wsig _ _ | .wtry _ _ _ | .wwait _ _ _ | .wqry _ _ => true
  | .entg | .extg | .gmm _ _ _ | .gmmSparse _ _ _ | .gmmLinked _ _ _ | .gmmLinkedSparse _ _ _ | .gout _ _ _ | .gzro | .gbias _ _ | .gscl _ _
  | .gpack _ _ | .gstp _ _ | .gldp _ _ | .gstat _ => true
  | .trap _ | .fpt _ | .fpret | .yld | .dbrk | .slp _ => true
  | _ => false

/-- What register n of a file holds after the words l are written to specifier d and those that follow it
(R163, R378): `main` names the file. -/
def runAfter (main : Bool) (d : BitVec 8) (l : List Word) (n : Nat) (old : Word) : Word :=
  match specOf d with
  | .v k => if main = true ∧ k ≤ n ∧ n < k + l.length then l.getD (n - k) 0#32 else old
  | .o k => if main = false ∧ k ≤ n ∧ n < k + l.length then l.getD (n - k) 0#32 else old
  | _ => old

/-- The registers r' are r after each executing thread t has received the words f t at d; the latches stay
(R162). -/
def Received (r : Regs) (exec : BitVec 64) (d : BitVec 8) (f : Nat → List Word) (r' : Regs) : Prop :=
  (∀ t n, t < 64 → r'.getV n t = if exec.getLsbD t then runAfter true d (f t) n (r.getV n t) else r.getV n t) ∧
  (∀ t n, t < 64 → r'.getO n t = if exec.getLsbD t then runAfter false d (f t) n (r.getO n t) else r.getO n t) ∧
  r'.l = r.l ∧ r'.mode = r.mode ∧ r'.cvmode = r.cvmode

/-- The words that a load of `size` bytes gives (R376 to R378). -/
def loadedWords (size : Nat) (signed : Bool) (v : Nat) : List Word :=
  if size = 8 then [BitVec.ofNat 32 v, BitVec.ofNat 32 (v / 2 ^ 32)]
  else if size = 16 then (List.range 4).map (fun i => BitVec.ofNat 32 (v / 2 ^ (32 * i)))
  else [if signed then BitVec.ofInt 32 (toSigned (8 * size) v) else BitVec.ofNat 32 v]

/-- The executing threads' accesses go to these places, found without a table read (R379). -/
def Reaches (s : State) (c : Ctx) (u : Bool) (size : Nat) (k : AccKind) (addr : Nat → Nat) (pl : Nat → Reach) : Prop :=
  ∀ t, c.exec.getLsbD t = true → s.reach c (source c u t) (addr (source c u t)) size k = (.ok (pl (source c u t)), s)

/-- Nothing holds a memory instruction back: its group pays no tokens (R106), and poison is not posted (R213). -/
def Calm (s : State) (c : Ctx) : Prop := s.ctx = some c ∧ (s.bandwidth (s.vfOf c.gid)).en = false ∧ s.assistOn (s.partOf c.gid) 3 = false

/-- Nor is a lane of it in a transaction. -/
def Unhindered (s : State) (c : Ctx) : Prop := Calm s c ∧ c.txLanes s = 0#64

/-- What a place holds; none where it is poisoned or no place of this package. -/
def valueAt (s : State) (c : Ctx) (size : Nat) (r : Reach) : Option Nat :=
  match r with
  | .pool l => if s.poolPoisoned (c.block s) l then none else some (ofBytesLE (s.poolBytes (c.block s) (coreOf c.gid) l size))
  | .own off _ => if s.poisoned off size ∨ off % size ≠ 0 then none else some (s.wordAt off size)
  | _ => none

/-- An L1 holds no poisoned sector. -/
def L1Clean (s : State) (core : Nat) : Prop := ∀ sec, FMap.getD s.ms.poison false sec = true → FMap.find (s.core core).l1 sec = none

/-- Every sector that a core's L1 holds is what memory holds. -/
def L1Coherent (s : State) (core : Nat) : Prop := ∀ sec d, FMap.find (s.core core).l1 sec = some d → d = s.sectorAt sec

/-- The byte memories that an access can reach in this package: the tiers, the block's scratchpad and tile
store, and the core's trap region (R17, R168). -/
inductive Region where
  | tiers
  | scratch
  | tile
  | trap
  deriving DecidableEq, Repr

/-- The bytes of a region, as the issuer of c sees it. -/
def regionMem (s : State) (c : Ctx) (R : Region) : FMap Byte :=
  match R with
  | .tiers => s.ms.mem
  | .scratch => ((FMap.find s.blocks (c.block s)).map (fun b => b.sc)).getD []
  | .tile => ((FMap.find s.blocks (c.block s)).map (fun b => b.ti)).getD []
  | .trap => (s.core (coreOf c.gid)).trap

/-- The offset of a place in a region. -/
def inRegion (R : Region) (r : Reach) : Option Nat :=
  match R, r with
  | .tiers, .own off _ => some off
  | .scratch, .pool (.sc o) => some o
  | .tile, .pool (.ti o) => some o
  | .trap, .pool (.trap o) => some o
  | _, _ => none

/-- Every region that the issuer of c does not see is the same: the other blocks' Pool bytes, the other
cores' trap regions. -/
def KeepsOtherPools (s t : State) (c : Ctx) : Prop :=
  (∀ k, k ≠ c.block s → FMap.find t.blocks k = FMap.find s.blocks k) ∧ (∀ k, k ≠ coreOf c.gid → (t.core k).trap = (s.core k).trap)

/-- The registers and the splits of every other group are the same. -/
def KeepsOtherGroups (s t : State) (gid : Nat) : Prop :=
  ∀ k, k ≠ gid → (FMap.find t.groups k).map (fun g => (g.regs, g.table, g.stack, g.fault)) = (FMap.find s.groups k).map (fun g => (g.regs, g.table, g.stack, g.fault))

/-- A number in a byte memory (R2). -/
def readMem (m : FMap Byte) (off size : Nat) : Nat := ofBytesLE ((List.range size).map (fun i => FMap.getD m 0#8 (off + i)))

/-- The atomics of a list of accesses and offsets, in its order: the memory after them, and the lane of each access with
the old value that it met (R388). One of a lane in a transaction reads the lane's own bytes over memory's, and leaves memory
as it is (R220). -/
def rmw (s : State) (c : Ctx) (size : Nat) (f : Nat → Nat → Nat) : List (Access × Nat) → FMap Byte → FMap Byte × List (Nat × Nat)
  | [], m => (m, [])
  | (a, off) :: r, m =>
    let own := fun (i : Nat) => if a.tx then FMap.find (s.laneOf c.gid a.lane).wbuf (s.paOf off + i) else none
    let old := ofBytesLE ((List.range size).map (fun i => (own i).getD (FMap.getD m 0#8 (off + i))))
    let q := rmw s c size f r (if a.tx then m else putBytes m off (bytesLE size (f a.t old)))
    (q.1, (a.lane, old) :: q.2)

/-! How the threads of a memory instruction end. -/

/-- A thread's access is performed, faults (R379 to R381), or aborts its transaction with ILLEGAL (R221). -/
inductive Ends where
  | done
  | fault (f : XFault)
  | illegal
  deriving DecidableEq, Repr

/-- A lane has written every byte of an access itself (R220). -/
def ownsAll (s : State) (c : Ctx) (k off size : Nat) : Bool :=
  (List.range size).all (fun i => (FMap.find (s.laneOf c.gid k).wbuf (s.paOf off + i)).isSome)

/-- How the access of thread k ends, whose thread of address j goes to a place: an access of a lane in a transaction aborts in
the Pool window (R221), and one that reads memory or the Pool meets poison (R210), except in bytes that a lane has written. -/
def endOf (s : State) (c : Ctx) (reads : Bool) (size addr : Nat) (r : Reach) (k : Nat) : Ends :=
  let tx := (c.txLanes s).getLsbD k
  match r with
  | .fault f => if tx && inPool f.addr && !f.stage2 && !f.physical then .illegal else .fault f
  | .pool l => if tx then .illegal else if reads && s.poolPoisoned (c.block s) l then .fault (.virt fUncorrectable addr) else .done
  | .own off _ => if reads && s.poisoned off size && !(tx && ownsAll s c k off size) then .fault (.virt fUncorrectable addr) else .done
  | .remote _ _ => .done

/-- The value that thread k reads: a lane in a transaction reads its own bytes over memory's (R220). -/
def readOf (s : State) (c : Ctx) (size : Nat) (r : Reach) (k : Nat) : Nat :=
  match r with
  | .pool l => ofBytesLE (s.poolBytes (c.block s) (coreOf c.gid) l size)
  | .own off _ =>
    let own := fun (i : Nat) => if (c.txLanes s).getLsbD k then FMap.find (s.laneOf c.gid k).wbuf (s.paOf off + i) else none
    ofBytesLE ((List.range size).map (fun i => (own i).getD (s.byteAt (off + i))))
  | _ => 0

/-- The executing threads' accesses go to places of this package, and every lane in a transaction belongs to it and has room for
what it reads and writes, at most `lines` lines (R220, R235). -/
def Placed (s : State) (c : Ctx) (u : Bool) (size lines : Nat) (pl : Nat → Reach) : Prop :=
  (∀ k, c.exec.getLsbD k = true → match pl (source c u k) with
    | .remote _ _ => False
    | .own off _ => off % size = 0 ∧ ((c.txLanes s).getLsbD k = true → (s.laneOf c.gid k).home = none ∨ (s.laneOf c.gid k).home = some (pkgOf (s.paOf off)))
    | _ => True) ∧
  (c.txLanes s = 0#64 ∨ ∀ g, FMap.find s.groups c.gid = some g → g.footprint + 64 * lines ≤ 512 ∧ s.coreFootprint (coreOf c.gid) + 64 * lines ≤ 2048)

/-- The instruction raises the exception of its faulting threads (R381): they are the mask, of which the lowest gives the code
and the address; a faulting lane in a transaction aborts with the fault's code instead (R222), and one that may not do this
there with ILLEGAL (R221). P says what the other threads m have done before. -/
def Faults (i : Instr) (s : State) (c : Ctx) (op : Nat) (ends : Nat → Ends) (P : State → Regs → BitVec 64 → Prop) : Prop :=
  ∃ t r req m, exec i s = .next (t.raise c { c with regs := r } ((encode i).getD 0#32) req) ∧
    (∀ k, k < 64 → (req.mask.getLsbD k = true ↔ c.exec.getLsbD k = true ∧ (c.txLanes s).getLsbD k = false ∧ ∃ f, ends k = .fault f)) ∧
    (∀ f, req.mask ≠ 0#64 → ends (lowest req.mask) = .fault f → req.code = f.code ∧ req.addr = BitVec.ofNat 64 f.addr) ∧
    (∀ a, a ∈ req.aborts ↔ ∃ k, (c.txLanes s).getLsbD k = true ∧ (ends k = .illegal ∧ a = ⟨k, xIllegal, op⟩ ∨ ∃ f, ends k = .fault f ∧ a = ⟨k, xFault, f.code⟩)) ∧
    (∀ k, k < 64 → (m.getLsbD k = true ↔ c.exec.getLsbD k = true ∧ ends k = .done)) ∧ P t r m

/-- What one access of a thread reaches (R168, R379, R380): the checks in their order, and the fault of the first that fails. -/
def ReachRules (s : State) (c : Ctx) (t a size : Nat) (k : AccKind) (g : Group) (b : Block) : Prop :=
  let r := s.reach c t a size k
  let faults := fun (code : Nat) => r = (.ok (.fault (.virt code a)), s)
  let wo := a - poolBase
  (a % size ≠ 0 → faults fMisaligned) ∧ (a % size = 0 → 2 ^ 48 ≤ a → faults fTranslation) ∧
  (a % size = 0 → inPool a = true → 1 ≤ size →
    (wo + size ≤ b.scSize → r = (.ok (.pool (.sc wo)), s)) ∧
    (b.scSize < wo + size → tileOff ≤ wo → wo + size ≤ tileOff + min b.tiSize tileMax → r = (.ok (.pool (.ti (wo - tileOff))), s)) ∧
    (b.scSize < wo + size → tileOff + min b.tiSize tileMax < wo + size → trapOff ≤ wo →
      if c.single = true ∧ k ≠ .atomic then r = (.ok (.pool (.trap (wo - trapOff))), s) else faults fPermission) ∧
    (b.scSize < wo + size → wo < tileOff ∨ tileOff + min b.tiSize tileMax < wo + size → wo < trapOff → faults fPoolRange)) ∧
  (a % size = 0 → a < 2 ^ 48 → inPool a = false →
    (c.single = false → k ≠ .load → s.stackFault c.gid t g.stklim a size = true → faults fStackLimit) ∧
    (k = .load ∨ s.stackFault c.gid t g.stklim a size = false →
      (∀ f s1, resolve (s.whoOf c.gid) a k.need s = (.error (.fault f), s1) → r = (.ok (.fault f), s1)) ∧
      (∀ off pol s1, resolve (s.whoOf c.gid) a k.need s = (.ok (.own off, pol), s1) → r = (.ok (.own off pol), s1))))

/-- A commit turn of lanes of this package in ascending order (R224): a lane passes where every byte that it has read is what
memory holds, and its writes are performed then; the memory after the turn, and the lanes that pass. -/
def commits (lane : Nat → TxLane) : List Nat → FMap Byte → FMap Byte × List Nat
  | [], m => (m, [])
  | t :: ts, m =>
    let x := lane t
    if x.torn || x.rlog.any (fun b => decide (FMap.getD m 0#8 (offOf b.1) ≠ b.2)) then commits lane ts m
    else
      let q := commits lane ts (x.wbuf.foldl (fun m b => putBytes m (offOf b.1) [b.2]) m)
      (q.1, t :: q.2)

/-- A lane that has ended with an abort of this code: its writes are discarded (R225, R236). -/
def Aborted (x : TxLane) (code detail retries : Nat) : Prop := x.depth = 0 ∧ x.code = code ∧ x.detail = detail ∧ x.retries = retries ∧ x.wbuf = []

/-- No lane of the issuer's group is in a transaction. -/
def NoneOpen (s : State) (c : Ctx) : Prop := ∀ g, FMap.find s.groups c.gid = some g → g.openLanes (~~~0#64) = 0#64

/-- A split of a group issues, and no lane of the group is in a transaction. -/
def GroupIssues (s : State) (c : Ctx) : Prop := s.ctx = some c ∧ c.single = false ∧ NoneOpen s c

/-- The issuer's group has written to no other package since its last flush (R259). -/
def NothingToFlush (s : State) (c : Ctx) : Prop :=
  (∀ p, c.split.wait ≠ .unreached p) ∧ ∀ g, FMap.find s.groups c.gid = some g → g.links.written = [] ∧ g.links.flush = []

/-- The group pays no tokens for what it sends into the fabric, and no request of its VF is held (R106). -/
def NoTokens (s : State) (c : Ctx) : Prop := (s.bandwidth (s.vfOf c.gid)).en = false ∧ (s.vf (s.vfOf c.gid)).tokenQ = []

/-- The memory system is the same, but for denials of the hypervisor that a faulting access has not used (R102). -/
def KeepsMs (s t : State) : Prop := { t.ms with denials := s.ms.denials } = s.ms

/-- The L1 of every core but one is the same. -/
def KeepsOtherL1 (s t : State) (core : Nat) : Prop := ∀ k, k ≠ core → (t.core k).l1 = (s.core k).l1

/-- A split that a barrier releases: it goes on after its word (R396). -/
def released (sp : Split) : Split := { sp with wait := .none, pc := sp.pc + 4#64, pfx := .clear, retry := none, poisonAct := false, issued := none }

/-- Between s and t the package has read its tables and its memory, and nothing more: memory, groups,
queues and VFs are as before. -/
def ReadsOnly (s t : State) : Prop :=
  KeepsMemory s t ∧ t.groups = s.groups ∧ t.handlers = s.handlers ∧ t.vfs = s.vfs ∧ t.grids = s.grids ∧ t.harts = s.harts ∧
  (t.turn.cur = s.turn.cur ∧ t.turn.nextId = s.turn.nextId) ∧ ∀ k, (t.core k).queue = (s.core k).queue

end Sys2Proof.Claims
end

