-- ==== Sys2Proof/Certificates/Slice0/Obligations.lean ====
section
/-! DEFINITION. The statements for the provers, from the spec's numbered rules. -/

section

open Sys2Proof Sys2Proof.Machine Sys2Proof.Claims

/-- R342, R344 to R347: the typed integer instructions of two sources complete, each element the exact
result narrowed by R274 (wrapping, or clamped under MODE.isat). -/
def Obligations.TypedIntegerResults : Prop :=
  ∀ (s : State) (c : Ctx) (u : Bool) (d a b : BitVec 8), typedOk c.etype = true → Issues s c (opsDAB (etypeWide c.etype) d a b) →
    let p := etypeWide c.etype
    let w := etypeWidth c.etype
    let v := intElem (etypeSigned c.etype) w
    let fix := narrow (modeIsat c.regs.mode) (etypeSigned c.etype) w
    let wrap := narrow false (etypeSigned c.etype) w
    let all := 2 ^ w - 1
    let yields := fun (i : Instr) (g : Nat → Nat → Nat → Nat) => Yields i s c p d (typedResult c u d a b g)
    yields (.iadd u d a b) (fun x y _ => fix (v x + v y)) ∧ yields (.isub u d a b) (fun x y _ => fix (v x - v y)) ∧
    yields (.imul u d a b) (fun x y _ => fix (v x * v y)) ∧ yields (.imad u d a b) (fun x y z => fix (v x * v y + v z)) ∧
    yields (.imulh u d a b) (fun x y _ => wrap (v x * v y / (2 ^ w : Nat))) ∧
    yields (.idiv u d a b) (fun x y _ => if y = 0 then all else fix (Int.tdiv (v x) (v y))) ∧
    yields (.imin u d a b) (fun x y _ => if v x ≤ v y then x else y) ∧ yields (.imax u d a b) (fun x y _ => if v x ≤ v y then y else x) ∧
    yields (.shl u d a b) (fun x n _ => if n < w then x * 2 ^ n % 2 ^ w else 0) ∧ yields (.shr u d a b) (fun x n _ => if n < w then x / 2 ^ n else 0) ∧
    yields (.sar u d a b) (fun x n _ => wrap (toSigned w x / (2 ^ min n w : Nat))) ∧
    yields (.iseq u d a b) (fun x y _ => if v x = v y then all else 0) ∧ yields (.isne u d a b) (fun x y _ => if v x = v y then 0 else all) ∧
    yields (.islt u d a b) (fun x y _ => if v x < v y then all else 0) ∧ yields (.isle u d a b) (fun x y _ => if v x ≤ v y then all else 0)

/-- R352: the typed integer instructions of one source complete. -/
def Obligations.UnaryIntegerResults : Prop :=
  ∀ (s : State) (c : Ctx) (u : Bool) (d a : BitVec 8), typedOk c.etype = true → Issues s c (opsDA (etypeWide c.etype) d a) →
    let p := etypeWide c.etype
    let w := etypeWidth c.etype
    let v := intElem (etypeSigned c.etype) w
    let fix := narrow (modeIsat c.regs.mode) (etypeSigned c.etype) w
    let yields := fun (i : Instr) (g : Nat → Nat) =>
      Yields i s c p d (fun t => elemMap c.etype [] (fun _ x _ _ => g x) (c.img p (source c u t) a) 0#64 0#64)
    yields (.ineg u d a) (fun x => fix (-(v x))) ∧ yields (.iabs u d a) (fun x => fix (if v x < 0 then -(v x) else v x)) ∧
    yields (.clz u d a) (fun x => if x = 0 then w else w - 1 - Nat.log2 x) ∧ yields (.ffs u d a) (fun x => lowestSet w x) ∧
    yields (.popc u d a) (fun x => countOnes w x) ∧ yields (.brev u d a) (fun x => reverseBits w x)

/-- R347, R348, R352: SEL and the width-following instructions complete. -/
def Obligations.WidthFollowingResults : Prop :=
  ∀ (s : State) (c : Ctx) (u : Bool) (d a b : BitVec 8), Issues s c (opsDAB (etypeWide c.etype) d a b) →
    let p := etypeWide c.etype
    let two := fun (g : DWord → DWord → DWord) (t : Nat) => g (c.img p (source c u t) a) (c.img p (source c u t) b)
    Yields (.and u d a b) s c p d (two (fun x y => x &&& y)) ∧ Yields (.or u d a b) s c p d (two (fun x y => x ||| y)) ∧
    Yields (.xor u d a b) s c p d (two (fun x y => x ^^^ y)) ∧ Yields (.andn u d a b) s c p d (two (fun x y => x &&& ~~~y)) ∧
    Yields (.mov u d a) s c p d (fun t => c.img p (source c u t) a) ∧ Yields (.not u d a) s c p d (fun t => ~~~(c.img p (source c u t) a)) ∧
    Yields (.sel u d a b) s c p d (typedResult c u d a b (fun x y z => if z = 0 then y else x))

/-- R349 to R351: the instructions of fixed widths complete, each under its own operand widths. -/
def Obligations.FixedWidthResults : Prop :=
  ∀ (s : State) (c : Ctx) (u : Bool) (d a b : BitVec 8) (i : BitVec 16),
    let k := source c u
    let ops := fun (pd pa pb : Bool) => ([⟨.dst, pd, d⟩, ⟨.src, pa, a⟩, ⟨.srcXi, pb, b⟩] : List Opnd)
    let A := fun (t : Nat) => c.regs.read64 c.xi (k t) a
    let B := fun (t : Nat) => c.regs.read32 c.xi (k t) b
    (Issues s c (ops false true false) →
      Yields (.fshl u d a b) s c false d (fun t => zext64 (hi32 (A t <<< ((B t).toNat % 32)))) ∧
      Yields (.prmb u d a b) s c false d (fun t => prmbOf (A t) (zext64 (B t)))) ∧
    (Issues s c (ops false false false) →
      Yields (.bfx u d a b) s c false d (fun t => bfxOf c.etype (c.img false (k t) a) (zext64 (B t))) ∧
      Yields (.bfi u d a b) s c false d (fun t => bfiOf (c.img false (k t) a) (zext64 (B t)) (c.img false (k t) d))) ∧
    (Issues s c (ops true true true) →
      Yields (.iadd64 u d a b) s c true d (fun t => A t + c.regs.read64 c.xi (k t) b) ∧
      Yields (.isub64 u d a b) s c true d (fun t => A t - c.regs.read64 c.xi (k t) b)) ∧
    (Issues s c (ops true true false) →
      Yields (.ada u d a b) s c true d (fun t => A t + (B t).signExtend 64) ∧
      Yields (.adax u d a b) s c true d (fun t => A t + (B t).signExtend 64 * (if etypeWide c.etype then 8#64 else 4#64))) ∧
    (Issues s c (ops false true true) →
      Yields (.adcmp u d a b) s c false d (fun t =>
        let y := c.regs.read64 c.xi (k t) b
        if (A t).toNat < y.toNat then 0xFFFFFFFF#64 else if A t = y then 0#64 else 1#64)) ∧
    (Issues s c [⟨.dst, false, d⟩] →
      Yields (.limm u d i) s c false d (fun _ => zext64 (i.signExtend 32)) ∧
      Yields (.limmh u d i) s c false d (fun t => zext64 (i ++ (c.regs.read32 c.xi (k t) d).extractLsb' 0 16)))

/-- R356 to R359: the float instructions of two sources complete; where MODE rounds without draws each
element is the rule's function of the sources, with daz and ftz of MODE. -/
def Obligations.FloatTwoSourceResults : Prop :=
  ∀ (s : State) (c : Ctx) (u : Bool) (d a b : BitVec 8) (F : FloatFmt), etypeFloat c.etype = some F → Issues s c (opsDAB false d a b) →
    modeRndCode c.regs.mode ≠ 5 →
    let e := floatEnv c.regs.mode F
    let yields := fun (i : Instr) (g : Nat → Nat → Nat → Nat) => Yields i s c false d (floatResult c u d a b g)
    let cmp := fun (k : FCmp) (x y _z : Nat) => if fCmp k e x y then 2 ^ F.width - 1 else 0
    yields (.fadd u d a b) (fun x y _ => fAdd e 0 x y) ∧ yields (.fsub u d a b) (fun x y _ => fSub e 0 x y) ∧
    yields (.fmul u d a b) (fun x y _ => fMul e 0 x y) ∧ yields (.fma u d a b) (fun x y z => fMulAdd false e 0 x y z) ∧
    yields (.fnma u d a b) (fun x y z => fMulAdd true e 0 x y z) ∧ yields (.fscl u d a b) (fun x y _ => fScl e 0 x (toSigned F.width y)) ∧
    yields (.fdiv u d a b) (fun x y _ => fDiv e 0 x y) ∧ yields (.fmin u d a b) (fun x y _ => fMinMax false e x y) ∧
    yields (.fmax u d a b) (fun x y _ => fMinMax true e x y) ∧ yields (.fcpys u d a b) (fun x y _ => x % F.signBit + signOf F y) ∧
    yields (.fseq u d a b) (cmp .eq) ∧ yields (.fsne u d a b) (cmp .ne) ∧ yields (.fslt u d a b) (cmp .lt) ∧
    yields (.fsle u d a b) (cmp .le) ∧ yields (.fsun u d a b) (cmp .un)

/-- R361 to R364: the float instructions of one source complete; the bounded functions of R364 give what
the model's uninterpreted function, held to its bound, gives (log 14). -/
def Obligations.FloatOneSourceResults : Prop :=
  ∀ (s : State) (c : Ctx) (u : Bool) (d a : BitVec 8) (F : FloatFmt), etypeFloat c.etype = some F → Issues s c (opsDA false d a) →
    modeRndCode c.regs.mode ≠ 5 →
    let e := floatEnv c.regs.mode F
    let yields := fun (i : Instr) (g : Nat → Nat) =>
      Yields i s c false d (fun t => elemMap c.etype [] (fun _ x _ _ => g x) (c.img false (source c u t) a) 0#64 0#64)
    yields (.fabs u d a) (fun x => x % F.signBit) ∧ yields (.fneg u d a) (fun x => (x + F.signBit) % 2 ^ F.width) ∧
    yields (.fclass u d a) (fun x => fClass F x) ∧ yields (.frnd u d a) (fun x => fRnd e 0 x) ∧ yields (.fexpo u d a) (fun x => fExpo e x) ∧
    yields (.frcp u d a) (fun x => fRcp e 0 x) ∧ yields (.fsqrt u d a) (fun x => fSqrt e 0 x) ∧
    yields (.frsq u d a) (fun x => boundedFn .rsq e x) ∧ yields (.fex2 u d a) (fun x => boundedFn .ex2 e x) ∧
    yields (.flg2 u d a) (fun x => boundedFn .lg2 e x) ∧ yields (.fsin u d a) (fun x => boundedFn .sin e x) ∧
    yields (.fcos u d a) (fun x => boundedFn .cos e x) ∧ yields (.ftanh u d a) (fun x => boundedFn .tanh e x)

/-- R287, R288, R355: under stochastic rounding each executing thread takes one draw per element, in ascending
order, and the uniform form one set in all; SRSEED ends as the last draw. -/
def Obligations.StochasticRoundingDraws : Prop :=
  ∀ (s : State) (c : Ctx) (u : Bool) (d a b : BitVec 8), (etypeFloat c.etype).isSome = true → Issues s c (opsDAB false d a b) →
    modeRndCode c.regs.mode = 5 →
    let n := etypeCount c.etype
    let draws := if u then (if c.exec = 0#64 then 0 else n) else n * (threadsOf c.exec).length
    let completes := fun (i : Instr) => ∃ r, Retires i s c r (Nat.repeat srdraw draws c.seed) (c.split.pc + 4#64)
    completes (.fadd u d a b) ∧ completes (.fsub u d a b) ∧ completes (.fmul u d a b) ∧ completes (.fma u d a b) ∧
    completes (.fnma u d a b) ∧ completes (.fscl u d a b) ∧ completes (.fdiv u d a b)

/-- R365 to R368: the conversions complete; where no destination format rounds stochastically each result is
the rule's function of the thread's source. -/
def Obligations.ConversionResults : Prop :=
  ∀ (s : State) (c : Ctx) (u : Bool) (d a b : BitVec 8) (f : BitVec 4),
    let n := f.toNat
    let k := source c u
    let x := fun (t : Nat) => c.img false (k t) a
    (Issues s c (opsDA false d a) → cvDraws c n 1 = 0 →
      (cvtfFormats.contains n = true → Yields (.cvtf u d a f) s c false d (fun t => c.convert n 0 (asF32 (x t)))) ∧
      (cvtiFormats.contains n = true → Yields (.cvti u d a f) s c false d (fun t => c.convert n 0 (asF32 (x t)))) ∧
      (cvifFormats.contains n = true → etypeWide c.etype = false → Yields (.cvif u d a f) s c false d (fun t => c.convert n 0 (asInt c.etype (x t)))) ∧
      (mxFormats.contains n = true → Yields (.mxq u d a f) s c false d (fun t =>
        BitVec.ofNat 64 (mxQuant c.regs.cvmode 0 n (mxScale n (c.mxOf u a (k t))) ((c.mxOf u a (k t)).getD (if u then 0 else t % 32) (.zero false)))))) ∧
    (Issues s c (opsDA false d a) →
      (cvtiFormats.contains n = true → etypeWide c.etype = false → Yields (.cvii u d a f) s c false d (fun t => c.convert n 0 (asInt c.etype (x t)))) ∧
      (unpkFormats.contains n = true → Yields (.unpk u d a f) s c false d (fun t => unpkOf n (x t))) ∧
      (mxFormats.contains n = true → Yields (.mxsc u d a f) s c false d (fun t => BitVec.ofNat 64 (mxScale n (c.mxOf u a (k t)))))) ∧
    (Issues s c (opsDAB false d a b) → c.etype = 2 ∨ c.etype = 3 ∨ c.etype = 7 ∨ c.etype = 8 →
      let fmt := if c.etype = 2 then 7 else if c.etype = 3 then 8 else if c.etype = 7 then 1 else 2
      c.etype ≤ 5 ∨ cvDraws c fmt 2 = 0 →
      Yields (.pack2 u d a b) s c false d (fun t =>
        packElems 16 [convertTo c.regs.cvmode (modeRnd c.regs.mode) 0 fmt (packSrc c.etype (c.regs.read32 c.xi (k t) a).toNat),
          convertTo c.regs.cvmode (modeRnd c.regs.mode) 0 fmt (packSrc c.etype (c.regs.read32 c.xi (k t) b).toNat)])) ∧
    (Issues s c [⟨.dst, false, d⟩, ⟨.src, true, a⟩, ⟨.srcXi, true, b⟩] → c.etype = 4 ∨ c.etype = 5 ∨ c.etype = 6 ∨ c.etype = 7 →
      let fmt := if c.etype = 4 then 9 else if c.etype = 5 then 10 else if c.etype = 6 then 3 else 4
      c.etype ≤ 5 ∨ cvDraws c fmt 4 = 0 →
      Yields (.pack4 u d a b) s c false d (fun t =>
        let A := c.regs.read64 c.xi (k t) a
        let B := c.regs.read64 c.xi (k t) b
        packElems 8 ([lo32 A, hi32 A, lo32 B, hi32 B].map (fun v => convertTo c.regs.cvmode (modeRnd c.regs.mode) 0 fmt (packSrc c.etype v.toNat)))))

/-- R369 to R371: the shuffles and BCAST give each executing thread the register of its source thread, and
the extension immediate where that thread is out of range or outside the mask. -/
def Obligations.ShuffleResults : Prop :=
  ∀ (s : State) (c : Ctx) (u : Bool) (d a b : BitVec 8), c.single = false →
    let p := etypeWide c.etype
    let k := source c u
    let B := fun (t : Nat) => (c.regs.read32 c.xi (k t) b).toNat
    let fetch := fun (j : Nat) => if j < 64 ∧ c.mask.getLsbD j = true then c.img p j a else if p then c.xi else zext64 (lo32 c.xi)
    (Issues s c [⟨.dst, p, d⟩, ⟨.src, p, a⟩, ⟨.src, false, b⟩] →
      Yields (.shfl u d a b) s c p d (fun t => fetch (B t)) ∧ Yields (.shflx u d a b) s c p d (fun t => fetch (k t ^^^ B t)) ∧
      Yields (.shflup u d a b) s c p d (fun t => fetch (if k t < B t then 64 else k t - B t)) ∧ Yields (.shfldn u d a b) s c p d (fun t => fetch (k t + B t))) ∧
    (Issues s c (opsDA p d a) →
      Yields (.bcast u d a) s c p d (fun _ => fetch (if p then (c.regs.read64 c.xi c.lane d).toNat else (c.regs.read32 c.xi c.lane d).toNat)))

/-- R371 to R373: the votes look at every thread of the active mask, and ELECT picks the lowest executing
thread. -/
def Obligations.VoteResults : Prop :=
  ∀ (s : State) (c : Ctx) (u : Bool) (d a : BitVec 8), c.single = false →
    let nz := fun (t : Nat) => c.regs.read32 c.xi t a ≠ 0#32
    (Issues s c [⟨.dst, false, d⟩, ⟨.src, false, a⟩] →
      (∃ f, Yields (.vany u d a) s c false d f ∧ ∀ t, (f t = 0xFFFFFFFF#64 ∨ f t = 0#64) ∧ (f t = 0xFFFFFFFF#64 ↔ ∃ j < 64, c.mask.getLsbD j = true ∧ nz j)) ∧
      (∃ f, Yields (.vall u d a) s c false d f ∧ ∀ t, (f t = 0xFFFFFFFF#64 ∨ f t = 0#64) ∧ (f t = 0xFFFFFFFF#64 ↔ ∀ j < 64, c.mask.getLsbD j = true → nz j))) ∧
    (Issues s c [⟨.dst, true, d⟩, ⟨.src, false, a⟩] →
      ∃ m, Yields (.blt u d a) s c true d (fun _ => m) ∧ ∀ j < 64, (m.getLsbD j = true ↔ c.mask.getLsbD j = true ∧ nz j)) ∧
    (Issues s c [⟨.dst, false, d⟩] →
      Yields (.elect u d a) s c false d (fun t => if c.exec.getLsbD (source c u t) = true ∧ source c u t = lowest c.exec then 0xFFFFFFFF#64 else 0#64))

/-- R374, R375: the reductions complete: RED gives every executing thread the sum over the 64 thread values,
PSCAN thread t the sum over the threads up to t, RSTEP the value after six butterfly steps. -/
def Obligations.ReductionResults : Prop :=
  ∀ (s : State) (c : Ctx) (u : Bool) (d a : BitVec 8), c.single = false → Issues s c (opsDA (etypeWide c.etype) d a) → c.exec ≠ 0#64 →
    laneDraws c c.etype (etypeCount c.etype) = 0 →
    let p := etypeWide c.etype
    let w := etypeWidth c.etype
    let x := c.laneElems c.etype a
    let sum := fun (l : List (List Nat)) => packElems w (laneSumAll c.regs.mode c.etype [] l)
    Yields (.red u d a) s c p d (fun _ => sum x) ∧
    (u = false → Yields (.pscan u d a) s c p d (fun t => sum (x.take (t + 1)))) ∧
    (u = true → Yields (.pscan u d a) s c p d (fun _ => sum (x.take (c.lane + 1)))) ∧
    Yields (.rstep u d a) s c p d (fun t => packElems w ((rstepAll c.regs.mode c.etype 0 x c.seed).1.getD (source c u t) []))


/-- R310, R319: what a retiring instruction leaves: its own group or handler goes on with the new registers,
seed and pc, prefix state clear; the rest of its group is as before but for the note of the issue (R140,
R143), and everything else of the state is as before. An instruction that had issued and waited leaves its group's MODE
and its last split to issue as they are (R140, R313). -/
def Obligations.RetireFrame : Prop :=
  ∀ (s : State) (c : Ctx) (regs : Regs) (seed : Word) (npc : BitVec 64), s.ctx = some c →
    let t := s.retire c { c with regs := regs, seed := seed } npc
    OnlyIssuer s c t ∧ GoesOn t c regs seed npc ∧
    (∀ gid e, c.who = .split gid e → ∃ g spin, FMap.find s.groups gid = some g ∧
      let r : Regs := { regs with mode := c.keepMode.getD regs.mode }
      let last := if c.split.issued = none then e else g.lastSplit
      FMap.find t.groups gid = some { g with regs := r, srseed := seed, table := FMap.insert g.table e (c.advance npc).split, lastSplit := last, spin := spin }) ∧
    (∀ hid, c.who = .handler hid → ∃ g h, FMap.find s.groups c.gid = some g ∧ FMap.find s.handlers hid = some h ∧
      FMap.find t.groups c.gid = some { g with srseed := seed } ∧
      FMap.find t.handlers hid = some { h with regs := regs, pc := npc, pfx := .clear, wait := .none })

/-- R303, R309, R313, R315, R330, R334, R339, R340: the control instructions that move one pc; and R335, R336: BRC
completes in every state whose condition register may be read, in the uniform form, in single-lane mode, and
wherever the group has room for one more split beside those reserved by transactions (log 57). -/
def Obligations.ControlResults : Prop :=
  ∀ (s : State) (c : Ctx), s.ctx = some c →
    let pc := c.split.pc
    let jump := fun (a : BitVec 8) => src64Ok c.allot false a = true ∧ (c.accBusy && touchesAcc 2 a) = false ∧
      (∀ t, c.split.mask.getLsbD t = true → c.regs.read64 c.xi t a = c.regs.read64 c.xi c.lane a) ∧ (c.regs.read64 c.xi c.lane a).toNat % 4 = 0
    let linkOk := fun (d : BitVec 8) => dst64Ok c.allot d = true ∧ (c.accBusy && touchesAcc 2 d) = false
    let linked := fun (d : BitVec 8) (r : Regs) => Wrote c.regs c.split.mask true false d (fun _ => pc + 4#64) r
    let prefixed := fun (p : PfxState) => { c.split with pc := pc + 4#64, pfx := p, retry := none, poisonAct := false, issued := none }
    Goes .nop s c c.regs c.seed (c.advance (pc + 4#64)).split ∧
    (∀ i, c.split.pfx.pl = false → Goes (.ext i) s c c.regs c.seed (prefixed { c.split.pfx with pl := true, lo := i })) ∧
    (∀ i, c.split.pfx.ph = false → Goes (.exth i) s c c.regs c.seed (prefixed { c.split.pfx with ph := true, hi := i })) ∧
    (∀ i, c.split.pfx.pl = true → Raises (.ext i) s c fIllegalOp c.split.mask 0#64) ∧
    (∀ i, c.split.pfx.ph = true → Raises (.exth i) s c fIllegalOp c.split.mask 0#64) ∧
    (∀ i, modeValueOk i = true → modeGuardOk c.allot i = true → Retires (.setm i) s c { c.regs with mode := i.setWidth 32 } c.seed (pc + 4#64)) ∧
    (∀ b, src32Ok c.allot true b = true → (c.accBusy && touchesAcc 1 b) = false → cvmodeOk (c.regs.read32 c.xi c.lane b) = true →
      Retires (.setcv b) s c { c.regs with cvmode := c.regs.read32 c.xi c.lane b } c.seed (pc + 4#64)) ∧
    (∀ i, Goes (.bra i) s c c.regs c.seed (c.advance (pc + 4#64 * i.signExtend 64)).split) ∧
    (∀ a, jump a → Retires (.jmpi a) s c c.regs c.seed (c.regs.read64 c.xi c.lane a)) ∧
    (∀ d i, linkOk d → ∃ r, linked d r ∧ Retires (.call d i) s c r c.seed (pc + 4#64 * i.signExtend 64)) ∧
    (∀ d a, linkOk d → jump a → ∃ r, linked d r ∧ Retires (.calli d a) s c r c.seed (c.regs.read64 c.xi c.lane a)) ∧
    (∀ u d i, src32Ok c.allot false d = true → (c.accBusy && touchesAcc 1 d) = false →
      (u = true ∨ c.single = true ∨ ∃ g, FMap.find s.groups c.gid = some g ∧ g.splitRoom ≠ 0) →
      ∃ t, exec (.brc u d i) s = .next t ∧ OnlyIssuer s c t ∧ regsOf t c.who = regsOf s c.who ∧
        (pcOf t c.who = some (pc + 4#64 * i.signExtend 64) ∨ pcOf t c.who = some (pc + 4#64)))

/-- R335, R336: BRC: uniform, it follows its lowest thread; else the split follows where every thread agrees;
where they differ the taken threads leave in a new split, both halves under one new divergence record; a
group with no room for it faults SPLIT_OVERFLOW. That entries reserved by transactions take from the room is the
model's reading (log 57). -/
def Obligations.BranchOutcomes : Prop :=
  ∀ (s : State) (c : Ctx) (u : Bool) (d : BitVec 8) (i : BitVec 16), s.ctx = some c → src32Ok c.allot false d = true →
    (c.accBusy && touchesAcc 1 d) = false →
    let target := c.split.pc + 4#64 * i.signExtend 64
    let takes := fun (t : Nat) => c.regs.read32 c.xi t d ≠ 0#32
    let member := fun (t : Nat) => t < 64 ∧ c.split.mask.getLsbD t = true
    let next := fun (pc : BitVec 64) => Goes (.brc u d i) s c c.regs c.seed (c.advance pc).split
    (u = true → takes c.lane → next target) ∧ (u = true → ¬ takes c.lane → next (c.split.pc + 4#64)) ∧
    (u = false → (∀ t, member t → takes t) → next target) ∧
    (u = false → (∃ t, member t) → (∀ t, member t → ¬ takes t) → next (c.split.pc + 4#64)) ∧
    (u = false → c.single = false → (∃ t, member t ∧ takes t) → (∃ t, member t ∧ ¬ takes t) → ∀ g, FMap.find s.groups c.gid = some g →
      (g.splitRoom = 0 → Raises (.brc u d i) s c fSplitOverflow c.split.mask 0#64) ∧
      (g.splitRoom ≠ 0 → ∃ t g' stays goes dv, exec (.brc u d i) s = .next t ∧ OnlyIssuer s c t ∧
        FMap.find t.groups c.gid = some g' ∧ FMap.find g'.table c.entry = some stays ∧ goes ∈ g'.splits ∧ g'.regs = g.regs ∧
        stays.pc = c.split.pc + 4#64 ∧ goes.pc = target ∧ goes.pfx = .clear ∧ stays.drec = some dv ∧ goes.drec = some dv ∧ FMap.find g'.parents dv = some c.split.drec ∧
        (∀ k, k < 64 → (goes.mask.getLsbD k = true ↔ c.split.mask.getLsbD k = true ∧ takes k)) ∧
        (∀ k, k < 64 → (stays.mask.getLsbD k = true ↔ c.split.mask.getLsbD k = true ∧ ¬ takes k))))

/-- R337, R338: JOIN with no record goes on; with one it waits, and the waiting chains are looked at. EXIT
ends the threads of its split: with other splits left its group goes on without them, and with none the
group has exited. -/
def Obligations.JoinAndExit : Prop :=
  ∀ (s : State) (c : Ctx), s.ctx = some c →
    (c.split.drec = none → Goes .join s c c.regs c.seed (c.advance (c.split.pc + 4#64)).split) ∧
    (c.split.drec ≠ none → ∀ g, FMap.find s.groups c.gid = some g → c.single = false →
      let sp := { c.split with wait := .join, pfx := .clear, retry := none, poisonAct := false, issued := none }
      let g1 : Group := ({ g with table := FMap.insert g.table c.entry sp }).noteIssue c.entry false
      ∃ t, exec .join s = .next t ∧ OnlyIssuer s c t ∧ FMap.find t.groups c.gid = some g1.rejoin.pruneRecords) ∧
    (∀ g, Plain s c → (s.part (s.partOf c.gid)).lockHolder = none → FMap.find s.groups c.gid = some g →
      let g1 := (({ g with table := FMap.erase g.table c.entry }).noteIssue c.entry false).rejoin.pruneRecords
      (g1.splits ≠ [] → exec .exit s = .next ((s.setGroup c.gid g1).evalBarriers c.gid)) ∧
      (g1.splits = [] → exec .exit s = .next ((s.setGroup c.gid { g1 with status := .exited, parents := [], tx := [] }).afterExit c.gid)))

/-- R332, R337: re-evaluating JOIN loses no thread and adds none: the splits of the group hold the same threads
before and after. -/
def Obligations.RejoinKeepsThreads : Prop :=
  ∀ (g : Group), FMap.rising 0 g.table = true → liveMask g.rejoin.pruneRecords = liveMask g

/-- R186, R190, R210, R220 to R222, R376 to R381: the loads: each executing thread receives the bytes at its address, a lane
in a transaction its own bytes over memory's, and memory, the Pool and every other group are as before. Where every
thread's access can be performed the instruction completes; else the faulting threads raise its exception, and the others
have received their data. The checks of an access are made in the order of R379. -/
def Obligations.LoadResults : Prop :=
  (∀ (s : State) (c : Ctx) (t a size : Nat) (k : AccKind) (g : Group) (b : Block), FMap.find s.groups c.gid = some g → s.blockOf c.gid = some b →
    ReachRules s c t a size k g b) ∧
  (∀ (s : State) (c : Ctx) (u : Bool) (d a b : BitVec 8) (pl : Nat → Reach),
    Calm s c → L1Coherent s (coreOf c.gid) → L1Clean s (coreOf c.gid) → addrOk c.allot a b = true →
    let loads := fun (i : Instr) (op size : Nat) =>
      let addr := fun (t : Nat) => (c.regs.read64 c.xi c.lane a + zext64 (c.regs.read32 c.xi t b) * BitVec.ofNat 64 size + c.extv.signExtend 64).toNat
      let ends := fun (k : Nat) => endOf s c true size (addr (source c u k)) (pl (source c u k)) k
      let did := fun (t : State) (r : Regs) (m : BitVec 64) => KeepsMemory s t ∧ KeepsOtherGroups s t c.gid ∧
        Received c.regs m d (fun k => loadedWords size (decide (size ≤ 2) && etypeSigned c.etype) (readOf s c size (pl (source c u k)) k)) r ∧
        ∀ k off pol, m.getLsbD k = true → (c.txLanes s).getLsbD k = true → pl (source c u k) = .own off pol →
          (t.laneOf c.gid k).wbuf = (s.laneOf c.gid k).wbuf ∧ (t.laneOf c.gid k).depth = (s.laneOf c.gid k).depth ∧ s.paOf off / 64 ∈ (t.laneOf c.gid k).rlines
      dataOk c.allot size true d = true → c.mustWait (touchesAcc (dataRegs size) d || touchesAcc 2 a || touchesAcc 1 b) = false →
      Reaches s c u size .load addr pl → Placed s c u size 1 pl →
      ((∀ k, c.exec.getLsbD k = true → ends k = .done) → ∃ t r, exec i s = .next t ∧ GoesOn t c r c.seed (c.split.pc + 4#64) ∧ did t r c.exec) ∧
      ((∃ k, c.exec.getLsbD k = true ∧ ends k ≠ .done) → Faults i s c op ends did)
    loads (.ldb u d a b) 0x48 1 ∧ loads (.ldh u d a b) 0x49 2 ∧ loads (.ldw u d a b) 0x4A 4 ∧ loads (.ldd u d a b) 0x4B 8 ∧ loads (.ldq u d a b) 0x4C 16)

/-- R384: LDC completes: outside the bank a thread receives 0, inside it the bank's bytes, from the constant
cache where it holds the line. -/
def Obligations.ConstantLoadResults : Prop :=
  ∀ (s : State) (c : Ctx) (u : Bool) (d b : BitVec 8) (blk : Block) (gr : Grid) (home : Nat → Nat), Unhindered s c →
    s.blockOf c.gid = some blk → FMap.find s.grids blk.grid = some gr →
    let size : Nat := if etypeWide c.etype then 8 else 4
    let o := fun (t : Nat) => (((c.regs.read32 c.xi t b).toNat : Int) * size + c.extv.toInt)
    let outside := fun (t : Nat) => o t < 0 ∨ (gr.hdr.csize : Int) < o t + size
    dataOk c.allot size true d = true → src32Ok c.allot false b = true → c.mustWait (touchesAcc (dataRegs size) d || touchesAcc 1 b) = false →
    (∀ t, c.exec.getLsbD t = true → o (source c u t) % size = 0) →
    (∀ t, c.exec.getLsbD t = true → ¬ outside (source c u t) →
      let line := (o (source c u t)).toNat / 64
      match FMap.find (s.core (coreOf c.gid)).cc (blk.grid * 1024 + line) with
      | some x => x = BitVec.ofNat 512 (s.wordAt (home line) 64)
      | none => s.poisoned (home line) 64 = false ∧ ∃ pol, resolve (s.whoOf c.gid) (gr.hdr.cbank + line * 64) 1 s = (.ok (.own (home line), pol), s)) →
    ∃ t r, exec (.ldc u d b) s = .next t ∧ GoesOn t c r c.seed (c.split.pc + 4#64) ∧ KeepsMemory s t ∧ KeepsOtherGroups s t c.gid ∧
      Received c.regs c.exec d (fun t =>
        let x := o (source c u t)
        loadedWords size false (if x < 0 ∨ (gr.hdr.csize : Int) < x + size then 0 else s.wordAt (home (x.toNat / 64) + x.toNat % 64) size)) r

/-- R188, R194, R209, R220 to R222, R376 to R381: the stores: in ascending thread index each executing thread's bytes
stand at its address, every other byte is as before, no register changes, and a sector loses its poison only
where all of it is written. A lane in a transaction keeps its bytes in its own buffer. Where every thread's access can be
performed the instruction completes; else the faulting threads raise its exception, and the others have written. -/
def Obligations.StoreResults : Prop :=
  ∀ (s : State) (c : Ctx) (u : Bool) (d a b : BitVec 8) (pl : Nat → Reach), Calm s c → addrOk c.allot a b = true →
    let stores := fun (i : Instr) (op size : Nat) (data : Nat → List Byte) =>
      let addr := fun (t : Nat) => (c.regs.read64 c.xi c.lane a + zext64 (c.regs.read32 c.xi t b) * BitVec.ofNat 64 size + c.extv.signExtend 64).toNat
      let ends := fun (k : Nat) => endOf s c false size (addr (source c u k)) (pl (source c u k)) k
      let plan := (accessPlan c u (c.txLanes s)).filter (fun q => !q.tx)
      let did := fun (t : State) (r : Regs) (m : BitVec 64) => r = c.regs ∧ KeepsOtherGroups s t c.gid ∧ KeepsOtherPools s t c ∧
        (∀ R, regionMem t c R = plan.foldl (fun m q => match inRegion R (pl q.t) with
          | some off => putBytes m off (data q.t)
          | none => m) (regionMem s c R)) ∧
        (∀ sec, FMap.getD t.ms.poison false sec = true → FMap.getD s.ms.poison false sec = true) ∧
        (∀ sec, sec < 2 ^ 57 → FMap.getD s.ms.poison false sec = true → FMap.getD t.ms.poison false sec = false → ∀ i, i < 32 →
          ∃ q ∈ plan, ∃ off, inRegion .tiers (pl q.t) = some off ∧ off ≤ sec * 32 + i ∧ sec * 32 + i < off + size) ∧
        ∀ k off pol, m.getLsbD k = true → (c.txLanes s).getLsbD k = true → pl (source c u k) = .own off pol →
          (t.laneOf c.gid k).wbuf = ((s.laneOf c.gid k).writeBytes (s.paOf off) (data (source c u k))).wbuf ∧ (t.laneOf c.gid k).depth = (s.laneOf c.gid k).depth
      dataOk c.allot size false d = true → c.mustWait (touchesAcc (dataRegs size) d || touchesAcc 2 a || touchesAcc 1 b) = false →
      Reaches s c u size .store addr pl → Placed s c u size 1 pl →
      ((∀ k, c.exec.getLsbD k = true → ends k = .done) → ∃ t, exec i s = .next t ∧ GoesOn t c c.regs c.seed (c.split.pc + 4#64) ∧ did t c.regs c.exec) ∧
      ((∃ k, c.exec.getLsbD k = true ∧ ends k ≠ .done) → Faults i s c op ends did)
    stores (.stb u d a b) 0x4D 1 (fun t => bytesLE 1 (c.regs.read32 c.xi t d).toNat) ∧
    stores (.sth u d a b) 0x4E 2 (fun t => bytesLE 2 (c.regs.read32 c.xi t d).toNat) ∧
    stores (.stw u d a b) 0x4F 4 (fun t => bytesLE 4 (c.regs.read32 c.xi t d).toNat) ∧
    stores (.std u d a b) 0x50 8 (fun t => bytesLE 8 (c.regs.read64 c.xi t d).toNat) ∧
    stores (.stq u d a b) 0x51 16 (fun t => ((List.range 4).map (fun i => bytesLE 4 (c.regs.readRun t d i).toNat)).flatten)

/-- R210, R220 to R222, R379 to R381, R385 to R392: an atomic of the executing threads reads and writes each place once for
each access, in the order of the accesses, and each thread receives the old value of its access; a lane in a transaction
reads and writes through its own buffer. Where every thread's access can be performed the instruction completes; else the
faulting threads raise its exception, and the others are performed. -/
def Obligations.AtomicResults : Prop :=
  ∀ (s : State) (c : Ctx) (u : Bool) (d a b : BitVec 8) (pl : Nat → Reach) (R : Region), Calm s c → addrOk c.allot a b = true →
    c.atScope < 10 → (∀ p, c.split.wait ≠ .unreached p) → (∀ g, FMap.find s.groups c.gid = some g → g.links.written = [] ∧ g.links.flush = []) →
    let et := c.etype
    let size := atSize et
    let w := 8 * size
    let key := fun (v : Nat) => if etypeSigned et then toSigned w v else (v : Int)
    let addr := fun (t : Nat) => (c.regs.read64 c.xi c.lane a + zext64 (c.regs.read32 c.xi t b) * BitVec.ofNat 64 size + (c.extv.extractLsb' 0 14).signExtend 64).toNat
    let tx := c.txLanes s
    let ends := fun (k : Nat) => endOf s c true size (addr (source c u k)) (pl (source c u k)) k
    Reaches s c u size .atomic addr pl → Placed s c u size 2 pl →
    (∀ k, c.exec.getLsbD k = true → ends k = .done → (inRegion R (pl (source c u k))).isSome = true) →
    let x := fun (t : Nat) => if size = 8 then (c.regs.read64 c.xi t d).toNat else (c.regs.read32 c.xi t d).toNat
    let nv := fun (t : Nat) => if size = 8 then (pairOf (c.regs.readRun t d 3) (c.regs.readRun t d 2)).toNat else (c.regs.readRun t d 1).toNat
    let does := fun (i : Instr) (op : AtOp) (f : Nat → Nat → Nat → Nat) =>
      op.etOk et = true → atDataOk op c.allot size d = true → c.mustWait (touchesAcc (atRegs op size) d || touchesAcc 2 a || touchesAcc 1 b) = false →
      let l := (accessPlan c u tx).filterMap (fun q => if ends q.lane = .done then (inRegion R (pl q.t)).map (fun off => (q, off)) else none)
      let q := rmw s c size (fun t old => f old (x t) (nv t)) l (regionMem s c R)
      let old := fun (k : Nat) => ((q.2.find? (fun p => decide (p.1 = if u = true ∧ tx.getLsbD k = false then lowest (c.exec &&& ~~~tx) else k))).map (fun p => p.2)).getD 0
      let did := fun (t : State) (r : Regs) (m : BitVec 64) => KeepsOtherGroups s t c.gid ∧ KeepsOtherPools s t c ∧
        regionMem t c R = q.1 ∧ (∀ R', R' ≠ R → regionMem t c R' = regionMem s c R') ∧ t.ms.poison = s.ms.poison ∧
        Received c.regs m d (fun k => loadedWords size false (old k)) r ∧
        ∀ k off pol, m.getLsbD k = true → tx.getLsbD k = true → pl (source c u k) = .own off pol →
          (t.laneOf c.gid k).wbuf = ((s.laneOf c.gid k).writeBytes (s.paOf off) (bytesLE size (f (old k) (x (source c u k)) (nv (source c u k))))).wbuf ∧
          (t.laneOf c.gid k).depth = (s.laneOf c.gid k).depth ∧ s.paOf off / 64 ∈ (t.laneOf c.gid k).rlines
      ((∀ k, c.exec.getLsbD k = true → ends k = .done) → ∃ t r, exec i s = .next t ∧ GoesOn t c r c.seed (c.split.pc + 4#64) ∧ did t r c.exec) ∧
      ((∃ k, c.exec.getLsbD k = true ∧ ends k ≠ .done) → Faults i s c 0x53 ends did)
    does (.atAdd u d a b) .add (fun old x _ => (old + x) % 2 ^ w) ∧
    does (.atMin u d a b) .min (fun old x _ => if key old ≤ key x then old else x) ∧
    does (.atMax u d a b) .max (fun old x _ => if key x ≤ key old then old else x) ∧
    does (.atAnd u d a b) .and (fun old x _ => old &&& x) ∧
    does (.atOr u d a b) .or (fun old x _ => old ||| x) ∧
    does (.atXor u d a b) .xor (fun old x _ => old ^^^ x) ∧
    does (.atXch u d a b) .xch (fun _ x _ => x) ∧
    does (.atCas u d a b) .cas (fun old x n => if old = x then n else old) ∧
    does (.atInc u d a b) .inc (fun old x _ => if x ≤ old then 0 else old + 1) ∧
    (u = true → does (.atAgg u d a b) .agg (fun old x _ => (old + x) % 2 ^ w)) ∧
    (∀ F, etypeFloat et = some F → modeRndCode c.regs.mode ≠ 5 → does (.atFadd u d a b) .fadd (fun old x _ =>
      (elemMap et [] (fun _ p q _ => fAdd (floatEnv c.regs.mode F) 0 p q) (BitVec.ofNat 64 old) (BitVec.ofNat 64 x) 0#64).toNat))

/-- R390: a vector agg whose threads all name one address adds the sum of their values once; each thread receives
the old value and the values of the executing threads below it. -/
def Obligations.AggregatedAtomicResult : Prop :=
  ∀ (s : State) (c : Ctx) (d a b : BitVec 8) (p : Reach) (R : Region) (off : Nat), Unhindered s c → addrOk c.allot a b = true →
    c.atScope < 10 → (∀ p, c.split.wait ≠ .unreached p) → (∀ g, FMap.find s.groups c.gid = some g → g.links.written = [] ∧ g.links.flush = []) →
    let size := atSize c.etype
    let w := 8 * size
    let addr := c.address a b size (sext64 (c.extv.extractLsb' 0 14))
    (∀ k, c.exec.getLsbD k = true → addr k = addr (lowest c.exec)) →
    Reaches s c false size .atomic addr (fun _ => p) → inRegion R p = some off →
    (valueAt s c size p).isSome = true → c.exec ≠ 0#64 → AtOp.etOk .agg c.etype = true → atDataOk .agg c.allot size d = true →
    c.mustWait (touchesAcc (size / 4) d || touchesAcc 2 a || touchesAcc 1 b) = false →
    let x := fun (t : Nat) => if size = 8 then (c.regs.read64 c.xi t d).toNat else (c.regs.read32 c.xi t d).toNat
    let total := fun (ts : List Nat) => (ts.map x).sum
    let old := readMem (regionMem s c R) off size
    ∃ t r, exec (.atAgg false d a b) s = .next t ∧ GoesOn t c r c.seed (c.split.pc + 4#64) ∧
      regionMem t c R = putBytes (regionMem s c R) off (bytesLE size ((old + total (threadsOf c.exec)) % 2 ^ w)) ∧
      (∀ R', R' ≠ R → regionMem t c R' = regionMem s c R') ∧
      Received c.regs c.exec d (fun t => loadedWords size false ((old + total ((threadsOf c.exec).filter (fun k => decide (k < t)))) % 2 ^ w)) r

/-- R191, R394, R405: FENCE completes; as an acquire at cluster scope or wider it drops the core's L1, and CINV
always does; CINV_RANGE drops the sectors of a mapped range and keeps the others. Memory stays. That the SCOPE fault's mask is the
whole active mask is the model's choice (log 26). -/
def Obligations.FenceAndInvalidateResults : Prop :=
  ∀ (s : State) (c : Ctx), s.ctx = some c → NoneOpen s c →
    let core := coreOf c.gid
    let drops := fun (i : Instr) (all : Prop) => ∃ t, exec i s = .next t ∧ GoesOn t c c.regs c.seed (c.split.pc + 4#64) ∧ KeepsMemory s t ∧
      KeepsOtherL1 s t core ∧ (all → (t.core core).l1 = []) ∧ (¬ all → (t.core core).l1 = (s.core core).l1)
    (∀ (o : BitVec 3) (sc : BitVec 4), NothingToFlush s c → 1 ≤ o.toNat → o.toNat ≤ 4 → sc.toNat < 10 → c.split.mask ≠ 0#64 →
      drops (.fence o sc) (o.toNat ≠ 2 ∧ 3 ≤ sc.toNat)) ∧
    (∀ (o : BitVec 3) (sc : BitVec 4), o = 0#3 ∨ 5 ≤ o.toNat → Raises (.fence o sc) s c fIllegalOp c.split.mask 0#64) ∧
    (∀ (o : BitVec 3) (sc : BitVec 4), 1 ≤ o.toNat → o.toNat ≤ 4 → 10 ≤ sc.toNat → Raises (.fence o sc) s c fScope c.split.mask 0#64) ∧
    (c.single = false → drops .cinv True) ∧
    (∀ a b, c.single = false → src64Ok c.allot false a = true → src32Ok c.allot false b = true → (c.accBusy && (touchesAcc 2 a || touchesAcc 1 b)) = false →
      let va := (c.regs.read64 c.xi c.lane a).toNat
      let n := (c.regs.read32 c.xi c.lane b).toNat
      (n = 0 → drops (.cinvRange a b) False) ∧
      (∀ pa run, 0 < n → va + n ≤ 2 ^ 48 → n ≤ run → pkgOf pa = s.boot.pkg → mappedRun (s.whoOf c.gid) va s = (.ok (some (pa, run)), s) →
        ∃ t, exec (.cinvRange a b) s = .next t ∧ GoesOn t c c.regs c.seed (c.split.pc + 4#64) ∧ KeepsMemory s t ∧ KeepsOtherL1 s t core ∧
          ∀ sec, FMap.find (t.core core).l1 sec =
            if offOf pa / 32 ≤ sec ∧ sec ≤ (offOf pa + n - 1) / 32 then none else FMap.find (s.core core).l1 sec))

/-- R398, R399, R401: WAITC goes on once its counter is at most n and waits before; SEAL numbers the batch of the
unsealed commands and hands out the number; WAITB goes on once no command of a batch up to n is left: n is fixed when it
first issues. -/
def Obligations.CounterAndBatchResults : Prop :=
  ∀ (s : State) (c : Ctx) (g : Group), GroupIssues s c → FMap.find s.groups c.gid = some g →
    (∀ n cls : BitVec 8, cls.toNat < 5 →
      let x := s.waitCounter c.gid g cls.toNat
      (x ≤ n.toNat → Goes (.waitc n cls) s c c.regs c.seed (c.advance (c.split.pc + 4#64)).split) ∧
      (n.toNat < x → cls ≠ 1#8 → Goes (.waitc n cls) s c c.regs c.seed { c.split with wait := .counter cls.toNat n.toNat })) ∧
    (∀ d, dst32Ok c.allot d = true → (c.accBusy && touchesAcc 1 d) = false →
      let n := (g.batch + 1) % 2 ^ 32
      ∃ t r, exec (.seal d) s = .next t ∧ GoesOn t c r c.seed (c.split.pc + 4#64) ∧ KeepsMemory s t ∧ KeepsOtherGroups s t c.gid ∧
        Received c.regs c.split.mask d (fun _ => [BitVec.ofNat 32 n]) r ∧ OfGroup t c.gid (fun g => g.batch = n) ∧
        (t.core (coreOf c.gid)).queue = (s.core (coreOf c.gid)).queue.map (fun q =>
          if q.gid = c.gid ∧ q.sub ≤ 3 ∧ q.batch = none then { q with batch := some n } else q)) ∧
    (∀ b, src32Ok c.allot true b = true → (c.accBusy && touchesAcc 1 b) = false →
      let n := (c.regs.read32 c.xi c.lane b).toNat
      let m := match c.split.wait with
        | .batch k => k
        | _ => if batchUpTo g.batch n then n else g.batch
      (s.batchPending c.gid m = false → Goes (.waitb b) s c c.regs c.seed (c.advance (c.split.pc + 4#64)).split) ∧
      (s.batchPending c.gid m = true → Goes (.waitb b) s c c.regs c.seed { c.split with wait := .batch m }))

/-- R395 to R397: a group whose count of a barrier is behind passes it at once and counts; else its split waits, and
the phase is looked at. A role outside the mask, or another mask in the same phase, faults ILLEGAL_OP. A split that was
released while its group was frozen (R183) goes on when it issues again. -/
def Obligations.BarrierResults : Prop :=
  ∀ (s : State) (c : Ctx) (g : Group) (b : Block) (r i : BitVec 4), GroupIssues s c → NothingToFlush s c → FMap.find s.groups c.gid = some g →
    FMap.find s.blocks g.ident.block = some b →
    let id := i.toNat
    let goesOn := fun (x : Instr) => ∃ t, exec x s = .next t ∧ GoesOn t c c.regs c.seed (c.split.pc + 4#64) ∧ OnlyIssuer s c t
    let bar := fun (x : Instr) (id mask : Nat) (drop : Prop) =>
      (c.split.wait = .answered 0 → goesOn x) ∧ (c.split.wait ≠ .answered 0 →
      (g.inRoles mask = false → Raises x s c fIllegalOp c.split.mask 0#64) ∧
      (g.inRoles mask = true → FMap.getD g.barG 0 id = FMap.getD b.barP 0 id → b.otherMask id mask = true →
        Raises x s c fIllegalOp c.split.mask 0#64) ∧
      (g.inRoles mask = true → FMap.getD g.barG 0 id ≠ FMap.getD b.barP 0 id →
        ∃ t, exec x s = .next t ∧ GoesOn t c c.regs c.seed (c.split.pc + 4#64) ∧ KeepsMemory s t ∧ KeepsOtherGroups s t c.gid ∧
          OfGroup t c.gid (fun g' => FMap.getD g'.barG 0 id = (FMap.getD g.barG 0 id + 1) % 2 ^ 32) ∧ (drop → (t.core (coreOf c.gid)).l1 = [])) ∧
      (g.inRoles mask = true → FMap.getD g.barG 0 id = FMap.getD b.barP 0 id → b.otherMask id mask = false →
        ∃ t, exec x s = .next (t.evalBar g.ident.block id) ∧ (∃ cluster, WaitsFor t c (.bar id mask cluster)) ∧ KeepsOtherGroups s t c.gid ∧
          FMap.find t.blocks g.ident.block = some { b with barMask := FMap.insert b.barMask id mask }))
    bar (.bar r i) id r.toNat False ∧
    (∀ gr, FMap.find s.grids b.grid = some gr →
      (gr.hdr.gang = 1 → bar (.barg i) id 0 True) ∧
      (gr.hdr.gang ≠ 1 → c.split.wait = .answered 0 → goesOn (.barg i)) ∧
      (gr.hdr.gang ≠ 1 → c.split.wait ≠ .answered 0 →
        let ix := b.linear / gr.hdr.gang
        (FMap.getD g.bargG 0 id ≠ FMap.getD gr.bargP 0 (ix * 16 + id) →
          ∃ t, exec (.barg i) s = .next t ∧ GoesOn t c c.regs c.seed (c.split.pc + 4#64) ∧ (t.core (coreOf c.gid)).l1 = [] ∧
            OfGroup t c.gid (fun g' => FMap.getD g'.bargG 0 id = (FMap.getD g.bargG 0 id + 1) % 2 ^ 32)) ∧
        (FMap.getD g.bargG 0 id = FMap.getD gr.bargP 0 (ix * 16 + id) →
          ∃ t, exec (.barg i) s = .next (t.evalBarg b.grid ix id) ∧ WaitsFor t c (.barg id) ∧ OnlyIssuer s c t)))

/-- R396: a phase of a block barrier completes when every participating group that is left has arrived: its
number goes up by one, and every split of those groups goes on, a frozen group's once it runs again (R183); before
that nothing moves. -/
def Obligations.BarrierPhaseCompletes : Prop :=
  ∀ (s : State) (bk id mask : Nat) (b : Block), FMap.find s.blocks bk = some b → FMap.find b.barMask id = some mask →
    let t := s.evalBar bk id
    let p := (FMap.getD b.barP 0 id + 1) % 2 ^ 32
    let leaves := fun (g : Group) (sp : Split) => if g.status = .running then released sp else { sp with wait := .answered 0 }
    ((∃ k ∈ b.gids, ∃ g, FMap.find s.groups k = some g ∧ g.inRoles mask = true ∧ g.splits ≠ [] ∧ g.arrivedBar id = false) → t = s) ∧
    ((∃ k ∈ b.gids, ∃ g, FMap.find s.groups k = some g ∧ g.inRoles mask = true ∧ g.arrivedBar id = true) →
      (∀ k ∈ b.gids, ∀ g, FMap.find s.groups k = some g → g.inRoles mask = true → g.splits = [] ∨ g.arrivedBar id = true) →
      (∃ b', FMap.find t.blocks bk = some b' ∧ FMap.getD b'.barP 0 id = p ∧ FMap.find b'.barMask id = none ∧ b'.sc = b.sc ∧ b'.ti = b.ti) ∧
      ∀ k ∈ b.gids, ∀ g, FMap.find s.groups k = some g → g.inRoles mask = true → g.arrivedBar id = true →
        OfGroup t k (fun g' => g'.regs = g.regs ∧ FMap.getD g'.barG 0 id = p ∧ g'.table = g.table.map (fun q => (q.1, leaves g q.2)) ∧ g'.stack = g.stack.map (leaves g)))

/-- R198, R403, R404: PFT and EVT start a tier move of the address's range; BOW hands out the barrier object's
value once it is at least v, dropping the L1, and waits on its line before. -/
def Obligations.TierMoveAndObjectWaitResults : Prop :=
  ∀ (s : State) (c : Ctx) (d a b : BitVec 8), GroupIssues s c →
    let va := (c.regs.read64 c.xi c.lane a).toNat
    let vb := (c.regs.read64 c.xi c.lane b).toNat
    let moves := fun (i : Instr) (target : Nat) => ∀ ipa, src64Ok c.allot false a = true → src64Ok c.allot false b = true →
      (c.accBusy && (touchesAcc 2 a || touchesAcc 2 b)) = false → moveChecks c va vb s = (.ok ipa, s) →
      ∃ t, exec i s = .next t ∧ GoesOn t c c.regs c.seed (c.split.pc + 4#64) ∧ KeepsMemory s t ∧ KeepsOtherGroups s t c.gid ∧
        t.moves = s.moves ++ [⟨s.partOf c.gid, s.vfOf c.gid, ipa, target, vb, s.turn.nextId, none, none, []⟩]
    moves (.pft a b) 0 ∧ moves (.evt a b) 1 ∧
    (∀ off pol, dst64Ok c.allot d = true → src64Ok c.allot false a = true → src64Ok c.allot true b = true →
      (c.accBusy && (touchesAcc 2 d || touchesAcc 2 a || touchesAcc 2 b)) = false → va % 8 = 0 → inPool va = false →
      s.reach c c.lane va 8 .load = (.ok (.own off pol), s) → s.assistOn (s.partOf c.gid) 3 = false → (s.bandwidth (s.vfOf c.gid)).en = false →
      s.poisoned off 8 = false →
      let x := s.wordAt off 8
      (vb ≤ x → ∃ t r, exec (.bow d a b) s = .next t ∧ GoesOn t c r c.seed (c.split.pc + 4#64) ∧ KeepsMemory s t ∧ (t.core (coreOf c.gid)).l1 = [] ∧
        Received c.regs c.split.mask d (fun _ => [BitVec.ofNat 32 x, BitVec.ofNat 32 (x / 2 ^ 32)]) r) ∧
      (x < vb → ∃ t word, exec (.bow d a b) s = .next t ∧ WaitsFor t c (.bow (off / 256) (s.tick + 1400) word) ∧ KeepsMemory s t))



/-- R180, R408 to R423, R427: an ENQ whose checks pass appends its command to the core's queue, held where its guard
slot is open, and leaves it out where the slot is false; with no room it waits. The read of an embedding table's entry
is an acquire (R191, R427), and NPOST is a release (R246), which has nothing to send here. -/
def Obligations.EnqueueResults : Prop :=
  ∀ (s s2 : State) (c : Ctx) (g : Group) (guarded : Bool) (n : BitVec 3) (a : BitVec 8) (info : EnqInfo), GroupIssues s c → NoTokens s c → FMap.find s.groups c.gid = some g →
    octetOk c.allot a = true → (c.accBusy && touchesAcc 8 a) = false →
    let core := coreOf c.gid
    let w := (List.range 8).map (fun k => c.regs.readRun c.lane a k)
    let slot := if guarded then FMap.getD g.guards 0 n.toNat else 1
    let enqueues := fun (i : Instr) (sub : Nat) =>
      enqCheck false c.gid sub w (s.closeRegionOf c.gid 2) = (.ok info, s2) → ReadsOnly (s.closeRegionOf c.gid 2) s2 →
      (s.engineRoomFor c.gid = false → ∃ t, exec i s = .next t ∧ WaitsFor t c .engineRoom ∧ KeepsMemory s t) ∧
      (s.engineRoomFor c.gid = true → ∃ t, exec i s = .next t ∧ GoesOn t c c.regs c.seed (c.split.pc + 4#64) ∧ KeepsMemory s t ∧ KeepsOtherGroups s t c.gid ∧
        (1 ≤ sub → sub ≤ 3 → (t.core core).l1 = []) ∧
        (slot = 2 → (t.core core).queue = (s.core core).queue) ∧
        (slot ≠ 2 → ∃ q, (t.core core).queue = (s.core core).queue ++ [q] ∧ q.id = s.turn.nextId ∧ q.gid = c.gid ∧ q.sub = sub ∧ q.words = w ∧
          q.held = decide (slot = 0) ∧ q.started = false ∧ q.batch = none ∧ q.cvmode = c.regs.cvmode ∧ q.version = info.version ∧ q.base = info.base))
    enqueues (.cpy guarded n a) 0 ∧ enqueues (.gthr guarded n a) 1 ∧ enqueues (.gbag guarded n a) 2 ∧ enqueues (.sctr guarded n a) 3 ∧
    enqueues (.coll guarded n a) 4 ∧ enqueues (.chain guarded n a) 5 ∧ (NothingToFlush s c → enqueues (.npost guarded n a) 6)

/-- R181, R420, R422, R423, R427: the other engine instructions complete. -/
def Obligations.EngineControlResults : Prop :=
  ∀ (s : State) (c : Ctx) (g : Group) (d a b : BitVec 8) (n : BitVec 3), GroupIssues s c → FMap.find s.groups c.gid = some g → g.status = .running →
    let core := coreOf c.gid
    let on := fun (t : State) (r : Regs) => GoesOn t c r c.seed (c.split.pc + 4#64) ∧ t.ms = s.ms
    let A := (c.regs.read32 c.xi c.lane a).toNat
    let B := (c.regs.read64 c.xi c.lane b).toNat
    (∀ e : Bool, src64Ok c.allot true b = true → (c.accBusy && touchesAcc 2 b) = false →
      let mine := (s.core core).queue.filter (fun q => decide (q.gid = c.gid ∧ q.sub = 5 ∧ engineOf q.sub q.words = (if e then 1 else 0)))
      ∃ t, exec (.ctail e b) s = .next t ∧ on t c.regs ∧ (t.core core).queue = (s.core core).queue.map (fun x =>
        match mine.getLast? with
        | some q => if x.id = q.id ∧ (B + 2 ^ 64 - q.tc) % 2 ^ 64 < 2 ^ 63 then { x with tc := B } else x
        | none => x)) ∧
    (src32Ok c.allot true b = true → (c.accBusy && touchesAcc 1 b) = false →
      let v := if c.regs.read32 c.xi c.lane b = 0#32 then 2 else 1
      let mine := fun (q : EngCmd) => decide (q.gid = c.gid ∧ q.guard = some n.toNat) && q.held
      ∃ t, exec (.gres n b) s = .next t ∧ on t c.regs ∧ OfGroup t c.gid (fun g => FMap.getD g.guards 0 n.toNat = v) ∧
        (t.core core).queue = if FMap.getD g.guards 0 n.toNat ≠ 0 then (s.core core).queue
          else if v = 1 then (s.core core).queue.map (fun q => if mine q then { q with held := false } else q)
          else (s.core core).queue.filter (fun q => !mine q)) ∧
    (∃ t, exec (.gresClear n) s = .next t ∧ on t c.regs ∧ OfGroup t c.gid (fun g => FMap.getD g.guards 0 n.toNat = 0) ∧ (t.core core).queue = (s.core core).queue) ∧
    (dst64Ok c.allot d = true → src32Ok c.allot false a = true → src64Ok c.allot true b = true →
      (c.accBusy && (touchesAcc 2 d || touchesAcc 1 a || touchesAcc 2 b)) = false →
      let x := (s.vf (s.vfOf c.gid)).counter (A % 256)
      (B ≤ x.2 → ∃ t r, exec (.ncwt d a b) s = .next t ∧ on t r ∧ (t.core core).l1 = [] ∧
        Received c.regs c.split.mask d (fun _ => [BitVec.ofNat 32 x.2, BitVec.ofNat 32 ((x.1 * 2 ^ 56 + x.2) / 2 ^ 32)]) r) ∧
      (x.2 < B → ∃ t, exec (.ncwt d a b) s = .next t ∧ WaitsFor t c (.ncwt (A % 256) B) ∧ t.ms = s.ms)) ∧
    (∀ s2 s3 s4 tab off pol, dst32Ok c.allot d = true → src64Ok c.allot false a = true → src32Ok c.allot true b = true →
      (c.accBusy && (touchesAcc 1 d || touchesAcc 2 a || touchesAcc 1 b)) = false → NothingToFlush s c → NoTokens s c →
      let id := (c.regs.read32 c.xi c.lane d).toNat
      let table := match s.gridOf c.gid with
        | some gr => gr.tid
        | none => 0
      id < 4096 → tableOf c.gid id (s.closeRegionOf c.gid 2) = (.ok tab, s2) → ReadsOnly (s.closeRegionOf c.gid 2) s2 →
      (c.regs.read64 c.xi c.lane a).toNat % 64 = 0 → tableOf c.gid id s2 = (.ok tab, s3) → ReadsOnly s2 s3 →
      coreReach c.gid (table + 64 * id) 16 2 s3 = (.ok (.own off pol), s4) → ReadsOnly s3 s4 →
      ∃ t r, exec (.tswap d a b) s = .next t ∧ GoesOn t c r c.seed (c.split.pc + 4#64) ∧
        t.ms.mem = putBytes s.ms.mem off (bytesLE 8 (c.regs.read64 c.xi c.lane a).toNat ++ bytesLE 4 (c.regs.read32 c.xi c.lane b).toNat ++ bytesLE 4 0) ∧
        Received c.regs c.split.mask d (fun _ => [BitVec.ofNat 32 tab.version]) r)

/-- R75, R77, R428, R429: LNCH hands out the status and, where it is 0, queues the record; HCALL posts its call in
the lowest free slot and waits, and completes with the status and the results once it has returned. -/
def Obligations.LaunchAndCallResults : Prop :=
  ∀ (s s2 : State) (c : Ctx) (d a : BitVec 8), GroupIssues s c → NothingToFlush s c → NoTokens s c →
    let vf := s.vfOf c.gid
    let who := (s.closeRegionOf c.gid 4).whoOf c.gid
    let va := (c.regs.read64 c.xi c.lane a).toNat
    let callOk := dst32Ok c.allot d = true ∧ block12Ok c.allot a = true ∧ (c.accBusy && (touchesAcc 1 d || touchesAcc 12 a)) = false
    (∀ st r, dst32Ok c.allot d = true → src64Ok c.allot false a = true → (c.accBusy && (touchesAcc 1 d || touchesAcc 2 a)) = false → va % 64 = 0 →
      (s.vf vf).dlq.length < 256 → lnchRead c.gid va (s.closeRegionOf c.gid 4) = (.ok (st, r), s2) → ReadsOnly (s.closeRegionOf c.gid 4) s2 →
      ∃ t regs, exec (.lnch d a) s = .next t ∧ GoesOn t c regs c.seed (c.split.pc + 4#64) ∧ KeepsMemory s t ∧
        Received c.regs c.split.mask d (fun _ => [BitVec.ofNat 32 st]) regs ∧ (t.vf vf).dlq = (s.vf vf).dlq ++ r.toList) ∧
    (∀ slot off pol, callOk → (∀ k, c.split.wait ≠ .call k) → (s.vf vf).takenCall c.gid c.entry = none → (s.vf vf).hsbase ≠ 0 → (s.vf vf).freeCall = some slot →
      resolve who ((s.vf vf).hsbase + 64 * slot) 2 (s.closeRegionOf c.gid 4) = (.ok (.own off, pol), s2) →
      ReadsOnly (s.closeRegionOf c.gid 4) s2 →
      ∃ t, exec (.hcall d a) s = .next t ∧ WaitsFor t c (.call slot) ∧ FMap.find (t.vf vf).calls slot = some ⟨c.gid, c.entry, true, false, a.toNat, d.toNat⟩ ∧
        t.ms.mem = putBytes s.ms.mem off (callBytes (field (c.regs.readRun c.lane a 0).toNat 0 16) (s.callerField c.gid) ((List.range 5).map (fun i =>
          (c.regs.readRun c.lane a (2 + 2 * i)).toNat + 2 ^ 32 * (c.regs.readRun c.lane a (3 + 2 * i)).toNat)))) ∧
    (∀ slot x b, callOk → c.split.wait = .call slot → FMap.find (s.vf vf).calls slot = some x → x.returned = true →
      unitReadWords who ((s.vf vf).hsbase + 64 * slot) 8 (s.closeRegionOf c.gid 4) = (.ok (b, false), s2) →
      ReadsOnly (s.closeRegionOf c.gid 4) s2 → leField b 2 2 < 0xFFFE →
      ∃ t, exec (.hcall d a) s = .next t ∧ GoesOn t c (callResults d a b c).regs c.seed (c.split.pc + 4#64) ∧ KeepsMemory s t ∧
        FMap.find (t.vf vf).calls slot = none ∧ (t.core (coreOf c.gid)).l1 = [])

/-- R218, R219, R226, R227, R430: the transaction instructions complete: TXO opens or nests, TXC closes an inner
level or waits for its ticket's turn, TXD aborts open lanes with its code, TXS hands out the status word. The number of
a reservation is the model's (log 57). -/
def Obligations.TransactionResults : Prop :=
  ∀ (s : State) (c : Ctx) (g : Group) (d b : BitVec 8), s.ctx = some c → c.single = false → FMap.find s.groups c.gid = some g →
    c.split.mask ≠ 0#64 → (s.part (s.partOf c.gid)).lockHolder = none →
    let member := fun (t : Nat) => t < 64 ∧ c.split.mask.getLsbD t = true
    let on := fun (t : State) (r : Regs) => GoesOn t c r c.seed (c.split.pc + 4#64) ∧ t.ms = s.ms
    let queued := fun (k : Nat) => (c.gid, k) ∈ (s.part (s.partOf c.gid)).lockQueue
    let lanes := fun (t : State) (f : TxLane → TxLane) => OfGroup t c.gid (fun g' =>
      (∀ k, member k → g'.lane k = f (g.lane k)) ∧ (∀ k, k < 64 → ¬ member k → g'.lane k = g.lane k))
    let opened := fun (x : TxLane) =>
      { x with depth := 1, txoPc := c.split.pc, home := none, rlines := [], rlog := [], wbuf := [], torn := false, res := g.newRes }
    ((∀ k, member k → (g.lane k).depth = 0 ∧ (g.lane k).irrev = false ∧ (g.lane k).retries < g.txlim % 256 ∧ ¬ queued k) → g.splitRoom ≠ 0 →
      ∃ t, exec .txo s = .next t ∧ on t c.regs ∧ lanes t opened) ∧
    ((∀ k, member k → 1 ≤ (g.lane k).depth ∧ (g.lane k).depth < 8) → ∃ t, exec .txo s = .next t ∧ on t c.regs ∧ lanes t (fun x => { x with depth := x.depth + 1 })) ∧
    ((∃ k, member k ∧ (g.lane k).depth = 0 ∧ (g.lane k).irrev = false ∧ g.txlim % 256 ≤ (g.lane k).retries) →
      ∃ t, exec .txo s = .next t ∧ WaitsFor t c .txLock ∧ t.ms = s.ms ∧ ∃ k, member k ∧ (c.gid, k) ∈ (t.part (s.partOf c.gid)).lockQueue) ∧
    ((∀ k, member k → (g.lane k).depth ≠ 1 ∧ (g.lane k).irrev = false) → (∀ v, c.split.wait ≠ .answered v) → ∃ t, exec .txc s = .next t ∧ on t c.regs ∧ lanes t (fun x => { x with depth := x.depth - 1 })) ∧
    ((∃ k, member k ∧ (g.lane k).depth = 1 ∧ (g.lane k).irrev = false) → (∀ v, c.split.wait ≠ .answered v) → NothingToFlush s c →
      ∃ t m, exec .txc s = .next t ∧ WaitsFor t c .ticket ∧ t.ms = s.ms ∧ t.tickets = s.tickets ++ [.group c.gid c.entry m] ∧
        ∀ k, k < 64 → (m.getLsbD k = true ↔ member k ∧ (g.lane k).depth = 1 ∧ (g.lane k).irrev = false)) ∧
    (src32Ok c.allot true b = true → (c.accBusy && touchesAcc 1 b) = false → NothingToFlush s c → g.openLanes c.split.mask = 0#64 →
      ∃ t, exec (.txd b) s = .next t ∧ on t c.regs ∧ lanes t (fun x => x)) ∧
    (src32Ok c.allot true b = true → (c.accBusy && touchesAcc 1 b) = false → NothingToFlush s c → g.openLanes c.split.mask ≠ 0#64 →
      ∃ t, exec (.txd b) s = .next t ∧ KeepsMs s t ∧ OfGroup t c.gid (fun g' => g'.regs = g.regs ∧ ∀ k, k < 64 → (g.openLanes c.split.mask).getLsbD k = true →
        (g'.lane k).depth = 0 ∧ (g'.lane k).code = xDrop ∧ (g'.lane k).detail = (c.regs.read32 c.xi k b).toNat % 256 ∧ (g'.lane k).retries = min 255 ((g.lane k).retries + 1) ∧
        (g'.lane k).wbuf = [])) ∧
    (dst32Ok c.allot d = true → (c.accBusy && touchesAcc 1 d) = false →
      ∃ t r, exec (.txs d) s = .next t ∧ on t r ∧ Received c.regs c.split.mask d (fun k => [(g.lane k).word]) r)

/-- R110, R113, R183, R431: a weir instruction posts its operation to the weir's home and waits, and completes with
the answer: WTRY's outcome, the count for WWAIT and WQRY; WWAIT is an acquire. -/
def Obligations.WeirInstructionResults : Prop :=
  ∀ (s : State) (c : Ctx) (d a b : BitVec 8), GroupIssues s c →
    let h := (c.regs.read32 c.xi c.lane a).toNat % 65536
    let n := (c.regs.read64 c.xi c.lane b).toNat
    let posts := fun (i : Instr) (kind value : Nat) => (∀ v, c.split.wait ≠ .answered v) → (∀ w, c.split.wait ≠ .weir w) → (kind < 2 → NothingToFlush s c) →
      ∃ t word, exec i s = .next t ∧ WaitsFor t c (.weir word) ∧ t.ms = s.ms ∧ t.turn.agenda = s.turn.agenda ++ [.weirRequest c.gid c.entry kind h value]
    let ends := fun (i : Instr) (words : Nat → List Word) (drop : Prop) => ∀ v, c.split.wait = .answered v →
      ∃ t r, exec i s = .next t ∧ GoesOn t c r c.seed (c.split.pc + 4#64) ∧ t.ms = s.ms ∧ Received c.regs c.split.mask d (fun _ => words v) r ∧
        (drop → (t.core (coreOf c.gid)).l1 = [])
    let pair := fun (v : Nat) => [BitVec.ofNat 32 v, BitVec.ofNat 32 (v / 2 ^ 32)]
    (src32Ok c.allot false a = true → src64Ok c.allot true b = true → (c.accBusy && (touchesAcc 1 a || touchesAcc 2 b)) = false →
      posts (.wsig a b) 0 n ∧ (∀ v, c.split.wait = .answered v → Goes (.wsig a b) s c c.regs c.seed (c.advance (c.split.pc + 4#64)).split)) ∧
    (dst32Ok c.allot d = true → src32Ok c.allot false a = true → src64Ok c.allot true b = true → (c.accBusy && (touchesAcc 1 d || touchesAcc 1 a || touchesAcc 2 b)) = false →
      posts (.wtry d a b) 1 n ∧ ends (.wtry d a b) (fun v => [BitVec.ofNat 32 v]) False) ∧
    (dst64Ok c.allot d = true → src32Ok c.allot false a = true → src64Ok c.allot true b = true → (c.accBusy && (touchesAcc 2 d || touchesAcc 1 a || touchesAcc 2 b)) = false →
      posts (.wwait d a b) 2 n ∧ ends (.wwait d a b) pair True) ∧
    (dst64Ok c.allot d = true → src32Ok c.allot false a = true → (c.accBusy && (touchesAcc 2 d || touchesAcc 1 a)) = false →
      posts (.wqry d a) 3 0 ∧ ends (.wqry d a) pair False)

/-- R226, R230: the host words: tx.open saves the registers and opens, or goes one level deeper; tx.close leaves a
level or takes a ticket; tx.drop ends the transaction with its code. -/
def Obligations.HostTransactionResults : Prop :=
  ∀ (s : State) (h : Nat) (d r : BitVec 5), s.turn.cur = some (.hart h) →
    let x := s.hart h
    let other := fun (t : State) => (∀ k, k ≠ h → t.hart k = s.hart k) ∧ t.ms = s.ms ∧ t.groups = s.groups
    let value := fun (k : BitVec 5) (y : Hart) => y.getX k.toNat
    (x.depth = 0 → (∀ q ∈ s.parts, q.2.lockHolder = none) →
      ∃ t, exec (.txOpen d) s = .next t ∧ other t ∧ (t.hart h).depth = 1 ∧ (t.hart h).pc = x.pc + 4#64 ∧ (t.hart h).recX = x.x ∧ (t.hart h).recF = x.f ∧
        (t.hart h).resume = x.pc + 4#64 ∧ (t.hart h).rd = d.toNat ∧ (t.hart h).buf = [] ∧ value d (t.hart h) = 0#64 ∧ (∀ k, k ≠ d → value k (t.hart h) = value k x)) ∧
    (1 ≤ x.depth → x.depth < 8 → ∃ t, exec (.txOpen d) s = .next t ∧ other t ∧ (t.hart h).depth = x.depth + 1 ∧ (t.hart h).pc = x.pc + 4#64 ∧ value d (t.hart h) = 0#64) ∧
    (2 ≤ x.depth → ∃ t, exec .txClose s = .next t ∧ other t ∧ t.hart h = { x with depth := x.depth - 1, pc := x.pc + 4#64 }) ∧
    (x.depth = 1 → x.ticket = false → ∃ t, exec .txClose s = .next t ∧ other t ∧ t.hart h = { x with ticket := true } ∧ t.tickets = s.tickets ++ [.hart h]) ∧
    (x.depth = 0 → ∃ t, exec (.txDrop r) s = .next t ∧ other t ∧ t.hart h = { x with pc := x.pc + 4#64 }) ∧
    (x.depth ≠ 0 → ∃ t, exec (.txDrop r) s = .next t ∧ other t ∧ (t.hart h).depth = 0 ∧ (t.hart h).pc = x.resume ∧ (t.hart h).buf = [] ∧
      (x.rd ≠ 0 → FMap.getD (t.hart h).x 0#64 x.rd = BitVec.ofNat 64 ((value r x).toNat % 256 * 256 + xDrop)) ∧ (∀ k, k ≠ x.rd → FMap.getD (t.hart h).x 0#64 k = FMap.getD x.recX 0#64 k))

/-- R433, R436, R437, R452: ENTG and EXTG enter and leave grid mode, or fault GRID_STATE; GSTAT hands out the
grid's state. -/
def Obligations.GridModeResults : Prop :=
  ∀ (s : State) (c : Ctx) (g : Group) (d : BitVec 8), s.ctx = some c → c.single = false → FMap.find s.groups c.gid = some g →
    let sets := fun (i : Instr) (v : Bool) => ∃ t, exec i s = .next t ∧ GoesOn t c c.regs c.seed (c.split.pc + 4#64) ∧ OnlyIssuer s c t ∧
      OfGroup t c.gid (fun g' => g'.grid = v ∧ g'.gridOps = g.gridOps)
    (g.ident.allot = 128 → g.grid = false → sets .entg true) ∧ (g.ident.allot ≠ 128 ∨ g.grid = true → Raises .entg s c fGridState c.split.mask 0#64) ∧
    (g.grid = true → g.gridOps = [] → sets .extg false) ∧ (g.grid = false → Raises .extg s c fGridState c.split.mask 0#64) ∧
    (g.grid = true → g.gridOps ≠ [] → Goes .extg s c c.regs c.seed { c.split with wait := .gridOps }) ∧
    (dst32Ok c.allot d = true → (c.accBusy && touchesAcc 1 d) = false → ∃ r, Received c.regs c.split.mask d (fun _ => [g.gstatWord]) r ∧
      Retires (.gstat d) s c r c.seed (c.split.pc + 4#64))

/-- R172, R298, R299, R442 to R444, R447 to R449: where MODE rounds without draws, a grid operation adds its results
to what the group's accumulators read as from then on: row i of the executing threads, column j of the active
ones (GZRO: every column); the other cells and everything outside the group stay. -/
def Obligations.GridOperationResults : Prop :=
  ∀ (s s2 : State) (c : Ctx) (g : Group) (z : Bool) (d a b : BitVec 8) (fa fb : Nat), s.ctx = some c → c.single = false →
    FMap.find s.groups c.gid = some g → g.grid = true → g.gridOps.length < 255 → modeRndCode c.regs.mode ≠ 5 →
    let active := fun (j : Nat) => c.split.mask.getLsbD j = true
    let does := fun (i : Instr) (s2 : State) (cols : Nat → Prop) (isGmm : Bool) (phase : Nat) (f : Nat → Nat → Word) =>
      ∃ t, exec i s = .next t ∧ GoesOn t c c.regs c.seed (c.split.pc + 4#64) ∧ KeepsMemory s t ∧ (∀ k, k ≠ c.gid → FMap.find t.groups k = FMap.find s2.groups k) ∧
        OfGroup t c.gid (fun g' => (∃ op, g'.gridOps = g.gridOps ++ [op] ∧ op.isGmm = isGmm ∧ op.phase = phase) ∧
          ∀ i j, i < 64 → j < 64 → (c.exec.getLsbD i = true ∧ cols j → g'.cell i j = f i j) ∧ (¬ (c.exec.getLsbD i = true ∧ cols j) → g'.cell i j = g.cell i j))
    let bits := fun (i : Nat) => (c.regs.getO 7 i).toNat % 65536
    let colBits := fun (j : Nat) => (c.regs.getO 7 j).toNat / 65536 % 65536
    let product := fun (i j k : Nat) => dotProduct ((gmmElems c.regs fa i a).getD k (.zero false)) ((gmmElems c.regs fb j b).getD k (.zero false))
    let step := fun (i j : Nat) (p : List FVal) => gridStep c.regs.mode z (g.cell i j) 0 p
    let wide := if fa = 2 ∨ fb = 2 then 16 else 8
    (NoTokens s c → gmmRegOk c.allot a = true → gmmRegOk c.allot b = true → c.mustWait false = false → gridIds c true a b s = (.ok (fa, fb), s2) → ReadsOnly s s2 →
      does (.gmm z a b) s2 active true wide (fun i j => step i j ((List.range 16).map (product i j))) ∧
      ∃ phase, does (.gmmSparse z a b) s2 active true phase (fun i j => step i j ((List.range 16).map (fun k =>
        if bitAt (bits i) k ∧ bitAt (colBits j) k then product i j k else .zero false)))) ∧
    (NoTokens s c → goutRegOk c.allot a = true → goutRegOk c.allot b = true → c.mustWait false = false → gridIds c false a b s = (.ok (fa, fb), s2) → ReadsOnly s s2 →
      does (.gout z a b) s2 active false 1 (fun i j => step i j [dotProduct (goutElem c.regs fa i a) (goutElem c.regs fb j b)])) ∧
    (c.mustWait false = false → does .gzro s (fun _ => True) false 1 (fun _ _ => 0#32)) ∧
    (src32Ok c.allot false d = true → src32Ok c.allot false a = true → c.mustWait (touchesAcc 1 d || touchesAcc 1 a) = false →
      let e := floatEnv c.regs.mode fmtF32
      let x := fun (i j : Nat) => (g.cell i j).toNat
      let row := fun (i : Nat) => (c.regs.read32 c.xi i d).toNat
      let col := fun (j : Nat) => (c.regs.read32 c.xi j a).toNat
      does (.gbias d a) s active false 1 (fun i j => BitVec.ofNat 32 (fSum e 0 ([x i j, row i, col j].map (dazRead fmtF32 e.daz)))) ∧
      does (.gscl d a) s active false 1 (fun i j => BitVec.ofNat 32 (fProduct3 e 0 (x i j) (row i) (col j))))

/-- R130, R441, R445, R446: a linked GMM waits at its instruction until its three partners stand there, and then every
one of the four goes on with its own operation: row i of its executing threads, with its own A; of the 64 columns, the
member m of the lock set supplies columns 16m to 16m+15, from the B of its own active threads of those numbers; every
other cell stays. Outside a lock set of four it faults LINK_PARTNER, and with a member that has left grid mode that
member faults GRID_STATE. The cells are stated for modes that round without draws. -/
def Obligations.LinkedGridResults : Prop :=
  ∀ (s s2 : State) (c : Ctx) (g : Group) (z : Bool) (a b : BitVec 8) (f : Nat × Nat), s.ctx = some c → c.single = false →
    FMap.find s.groups c.gid = some g → g.grid = true → g.gridOps.length < 255 → gmmRegOk c.allot a = true → gmmRegOk c.allot b = true → c.mustWait false = false →
    NoTokens s c →
    let rowBits := fun (m : LinkedAt) (i : Nat) => (m.c.regs.getO 7 i).toNat % 65536
    let colBits := fun (n : LinkedAt) (j : Nat) => (n.c.regs.getO 7 j).toNat / 65536 % 65536
    let product := fun (sparse : Bool) (m n : LinkedAt × Nat × Nat) (i j k : Nat) =>
      if sparse = false ∨ bitAt (rowBits m.1 i) k && bitAt (colBits n.1 j) k then
        dotProduct ((gmmElems m.1.c.regs m.2.1 i m.1.a).getD k (.zero false)) ((gmmElems n.1.c.regs n.2.2 j n.1.b).getD k (.zero false))
      else .zero false
    let writes := fun (m n : LinkedAt × Nat × Nat) (i j : Nat) => m.1.c.exec.getLsbD i = true ∧ n.1.c.split.mask.getLsbD j = true
    let linked := fun (i : Instr) (sparse : Bool) (D : Nat) =>
      (g.ident.lk4 = false → Raises i s c fLinkPartner c.split.mask 0#64) ∧
      (g.ident.lk4 = true → gridIds c true a b s = (.ok f, s2) → ReadsOnly s s2 → s2.linkedGone c.gid = false →
        let s3 := s2.stay c c (.linked D a.toNat b.toNat)
        let l := (s3.lockSet c.gid).filterMap s3.linkedAt
        (l.length < 4 → exec i s = .next s3 ∧ WaitsFor s3 c (.linked D a.toNat b.toNat)) ∧
        (∀ m, 4 ≤ l.length → l.find? (fun m => !m.g.grid) = some m → ∃ r, r.code = fGridState ∧ r.mask = m.c.split.mask ∧
          exec i s = .next (s3.raise m.c m.c ((encode (linkedInstr m.d m.a m.b)).getD 0#32) r)) ∧
        (∀ q s4, 4 ≤ l.length → (∀ m ∈ l, m.g.grid = true) → (∀ m ∈ l, ∀ n ∈ l, m.d = n.d ∧ m.c.idb = n.c.idb) → (∀ m ∈ l, bitAt m.d 0 = sparse) →
          linkedIds l s3 = (.ok q, s4) → s4.groups = s3.groups → (l.map (fun m => m.gid)).Nodup →
          ∃ t, exec i s = .next t ∧ ∀ m ∈ q, OfGroup t m.1.gid (fun g' =>
            (∃ op, g'.gridOps = m.1.g.gridOps ++ [op] ∧ op.isGmm = true ∧ (sparse = false → op.phase = if m.2.1 = 2 ∨ m.2.2 = 2 then 16 else 8)) ∧
            (∃ sp, FMap.find g'.table m.1.entry = some sp ∧ sp.pc = m.1.c.split.pc + 4#64 ∧ sp.wait = .none) ∧
            ((l.map (fun m => m.g.ident.grpix % 4)).Nodup → modeRndCode m.1.c.regs.mode ≠ 5 →
              ∀ n ∈ q, ∀ i j, i < 64 → j < 64 → n.1.g.ident.grpix % 4 = j / 16 →
                (writes m n i j → g'.cell i j = gridStep m.1.c.regs.mode (bitAt m.1.d 2) (m.1.g.cell i j) 0 ((List.range 16).map (product sparse m n i j))) ∧
                (¬ writes m n i j → g'.cell i j = m.1.g.cell i j)))))
    linked (.gmmLinked z a b) false (if z then 6 else 2) ∧ linked (.gmmLinkedSparse z a b) true (if z then 7 else 3)

/-- R39, R172 to R174, R446: a grid operation that is its quadrant's oldest ends at its tick, counted in the quadrant's
free ticks: its cells are written to the
accumulators, and nothing else of the registers changes. -/
def Obligations.GridOperationCompletes : Prop :=
  ∀ (s : State) (gid : Nat) (g : Group) (op : GridOp) (r : List GridOp), FMap.find s.groups gid = some g → g.gridOps = op :: r → g.status = .running →
    (s.core (coreOf gid)).gridOrder.find? (fun k => decide (hidOf k = hidOf gid)) = some gid → op.due ≤ s.freeNow (hidOf gid) →
    ∃ t, exec (.gridOpComplete gid) s = .next t ∧ KeepsMemory s t ∧ (∀ k, k ≠ gid → FMap.find t.groups k = FMap.find s.groups k) ∧
      OfGroup t gid (fun g' => g' = { g with regs := g'.regs, gridOps := r, lastG := g'.lastG, spin := g'.spin } ∧ g'.regs.o = g.regs.o ∧ g'.regs.l = g.regs.l ∧ g'.regs.mode = g.regs.mode ∧
        g'.regs.cvmode = g.regs.cvmode ∧ (op.isGmm = true → g'.lastG = op.phase) ∧ (op.isGmm = false → g'.lastG = g.lastG) ∧
        (∀ n k, n < 64 → k < 64 → g'.regs.getV n k = g.regs.getV n k) ∧
        (FMap.rising 0 op.cells = true → (∀ q ∈ op.cells, q.1 < 4096) → ∀ i j, i < 64 → j < 64 → g'.regs.getV (64 + j) i = (FMap.find op.cells (i * 64 + j)).getD (g.regs.getV (64 + j) i)))

/-- R450: GPACK packs cells of its column group into each executing thread's D, by the format of EXTV; no latch. -/
def Obligations.GridPackResults : Prop :=
  ∀ (s : State) (c : Ctx) (d a : BitVec 8), s.ctx = some c → c.single = false → c.extv.toNat < 16 → gpackFormats.contains c.extv.toNat = true →
    let fmt := c.extv.toNat
    let w := fmtBits fmt
    let per := 32 / w
    let col := (c.regs.read32 c.xi c.lane a).toNat % 64 / per * per
    dst32Ok c.allot d = true → src32Ok c.allot false a = true → c.mustWait true = false → 64 + col + per ≤ c.allot → cvDraws c fmt per = 0 →
    ∃ r, Retires (.gpack d a) s c r c.seed (c.split.pc + 4#64) ∧ Received c.regs c.exec d (fun t => [lo32 (packElems w ((List.range per).map (fun e =>
      convertTo c.regs.cvmode (modeRnd c.regs.mode) 0 fmt (decodeFloat fmtF32 (c.regs.getV (64 + col + e) t).toNat))))]) r

/-- R433, R451: the tile panels complete: thread t's bytes stand at offset + size * t of the tile store. -/
def Obligations.TilePanelResults : Prop :=
  ∀ (s : State) (c : Ctx) (d a : BitVec 8) (blk : Block), s.ctx = some c → c.single = false → c.txLanes s = 0#64 → s.blockOf c.gid = some blk → c.extv.toNat < 3 →
    let size := if c.extv.toNat = 0 then 16 else if c.extv.toNat = 1 then 32 else 8
    let o := (c.regs.read32 c.xi c.lane a).toNat
    src32Ok c.allot false a = true → c.mustWait (touchesAcc (size / 4) d || touchesAcc 1 a) = false → o % size = 0 →
    (∀ t, c.exec.getLsbD t = true → o + size * t + size ≤ blk.tiSize) →
    (panelOk c.allot size false d = true →
      ∃ t, exec (.gstp d a) s = .next t ∧ GoesOn t c c.regs c.seed (c.split.pc + 4#64) ∧ KeepsOtherGroups s t c.gid ∧ KeepsOtherPools s t c ∧
        (∀ R, R ≠ .tile → regionMem t c R = regionMem s c R) ∧
        regionMem t c .tile = (threadsOf c.exec).foldl (fun m k => putBytes m (o + size * k)
          (if size = 8 then bytesLE 8 (c.regs.read64 c.xi k d).toNat else ((List.range (size / 4)).map (fun i => bytesLE 4 (c.regs.readRun k d i).toNat)).flatten)) (regionMem s c .tile)) ∧
    (panelOk c.allot size true d = true → (∀ t, c.exec.getLsbD t = true → s.poolPoisoned (c.block s) (.ti (o + size * t)) = false) →
      ∃ t r, exec (.gldp d a) s = .next t ∧ GoesOn t c r c.seed (c.split.pc + 4#64) ∧ KeepsMemory s t ∧ KeepsOtherGroups s t c.gid ∧
        Received c.regs c.exec d (fun t => (List.range (size / 4)).map (fun i => BitVec.ofNat 32 (readMem (regionMem s c .tile) (o + size * t) size / 2 ^ (32 * i)))) r)

/-- R182, R222, R457, R459, R484: an instruction of a group that raises a fault for threads outside transactions traps
its group: the fault is kept with its code, mask, address and pc, the group joins its quadrant's queue, and its
registers, its other splits, memory and the other groups are as the instruction left them. R185: a fault in
single-lane mode halts the group, reported with detail 0x11. -/
def Obligations.TakingAnException : Prop :=
  (∀ (s : State) (c : Ctx) (word : BitVec 32) (r : FaultReq), s.ctx = some c → c.single = false →
    (∀ g, FMap.find s.groups c.gid = some g → g.openLanes r.mask = 0#64) → r.mask ≠ 0#64 → r.aborts = [] → ¬ (c.split.poisonAct = true ∧ r.poison = true) →
    let t := s.raise c c word r
    KeepsMemory s t ∧ (∀ k, k ≠ c.gid → FMap.find t.groups k = FMap.find s.groups k) ∧ t.handlers = s.handlers ∧
    Holds t c c.regs c.seed { c.split with wait := .none, poisonAct := false } ∧ t.turn.agenda = s.turn.agenda ++ [.handlerEntry (hidOf c.gid)] ∧
    Trapped t c.gid (fun f => f.code = r.code ∧ f.mask = r.mask ∧ f.addr = r.addr ∧ f.pc = c.split.pc ∧ f.word = word ∧ f.pfx = c.split.pfx ∧
      f.trapKind = r.trapKind ∧ f.engine = none ∧ f.user = r.user ∧ f.entry = c.entry ∧ f.mode = c.regs.mode)) ∧
  (∀ (s : State) (c : Ctx) (word : BitVec 32) (r : FaultReq), s.ctx = some c → c.single = true →
    let t := s.raise c c word r
    t = (s.reportError c.gid 1 0x11 c.split.pc).haltGroup c.gid ∧ t.ms.mem = s.ms.mem ∧ ∀ g, FMap.find t.groups c.gid = some g → g.status = .exited)

/-- R170, R182, R184, R456, R457: the first ready group of a quadrant takes its free handler context: its record
stands in the trap region, and the handler starts at the code base plus TVEC with the record's address, its stack,
the code and the slot in its registers. With TVEC 0 the group is halted instead. Handler entry is a release (R246): what
the group wrote to other packages is flushed first. That a group enters in a later tick than it trapped in is the model's
reading (log 69). -/
def Obligations.HandlerEntryResults : Prop :=
  ∀ (s : State) (hid gid : Nat) (g : Group) (f : FaultInfo) (gr : Grid), FMap.find s.handlers hid = none → s.gridOf gid = some gr →
    s.nextTrapped hid = some gid → FMap.find s.groups gid = some g → g.fault = some f → g.trapTick < s.tick →
    (g.links.written ≠ [] → exec (.handlerEntry hid) s = .next (s.releaseTrapped gid g)) ∧ (g.links.written = [] → g.links.flush = [] →
    let slot := slotOf gid
    let record := recordBytes slot f (g.lane (lowest f.mask)).word.toNat s.tick
    let base := 0xFFFFFFC00000 + 0x3F8000
    (g.tvec &&& 0xFFFFFFFC#32 ≠ 0#32 → ∃ t h, exec (.handlerEntry hid) s = .next t ∧ FMap.find t.handlers hid = some h ∧ OfGroup t gid (fun g' => g' = { g with status := .handler }) ∧
      t.ms = s.ms ∧ (∀ i, i < 256 → FMap.getD (t.core (coreOf gid)).trap 0#8 (256 * slot + i) = record.getD i 0#8) ∧
      h.gid = gid ∧ h.pc = BitVec.ofNat 64 (gr.hdr.code + (g.tvec &&& 0xFFFFFFFC#32).toNat) ∧ h.pfx = .clear ∧ h.wait = .none ∧ h.repl = [] ∧ h.skip = 0#64 ∧
      h.regs.mode = 0#32 ∧ pairOf (h.regs.getV 1 0) (h.regs.getV 0 0) = BitVec.ofNat 64 (base + 256 * slot) ∧
      pairOf (h.regs.getV 3 0) (h.regs.getV 2 0) = BitVec.ofNat 64 (0xFFFFFFC00000 + 0x3FC000 + 0x1000 * (slot / 16 + 1)) ∧
      h.regs.getV 4 0 = BitVec.ofNat 32 f.code ∧ h.regs.getV 5 0 = BitVec.ofNat 32 slot) ∧
    (g.tvec &&& 0xFFFFFFFC#32 = 0#32 → g.status = .trapped → ∃ t, exec (.handlerEntry hid) s = .next t ∧ KeepsMs s t ∧ ∀ g', FMap.find t.groups gid = some g' → g'.status = .exited))

/-- R185, R454, R455, R461: TRAP and DBRK trap their group for every thread of the split, to resume after them; the
single-lane instructions outside single-lane mode fault PRIV; an instruction that single-lane mode does not allow halts the
group there, with detail 0x11. -/
def Obligations.TrapInstructionResults : Prop :=
  (∀ (s : State) (c : Ctx) (i : Instr), s.ctx = some c → c.single = true → notInHandler i = true →
    exec i s = .next ((s.reportError c.gid 1 0x11 c.split.pc).haltGroup c.gid)) ∧
  (∀ (s : State) (c : Ctx) (d a b : BitVec 8) (n : BitVec 24), s.ctx = some c → NoneOpen s c → c.single = false → c.split.mask ≠ 0#64 →
    let traps := fun (i : Instr) (P : FaultInfo → Prop) => ∃ t, exec i s = .next t ∧ KeepsMemory s t ∧ (∀ k, k ≠ c.gid → FMap.find t.groups k = FMap.find s.groups k) ∧
      Holds t c c.regs c.seed { c.split with wait := .none, poisonAct := false, issued := none } ∧ Trapped t c.gid (fun f => f.mask = c.split.mask ∧ f.pc = c.split.pc ∧ P f)
    let priv := fun (i : Instr) => traps i (fun f => f.code = fPriv ∧ f.trapKind = false)
    traps (.trap n) (fun f => f.code = fUserTrap ∧ f.trapKind = true ∧ f.user = n.toNat) ∧ traps .dbrk (fun f => f.code = fBreakpoint ∧ f.trapKind = true) ∧
    priv .rett ∧ priv .halt ∧ priv .fskipAll ∧ (src64Ok c.allot false a = true → priv (.fskipMask a)) ∧ (src64Ok c.allot false a = true → quadOk c.allot b = true → priv (.erpl a b)) ∧
    (∀ g, FMap.find s.groups c.gid = some g → trappedRegOk g.ident.allot a = true → src32Ok c.allot false b = true →
      (dst32Ok c.allot d = true → priv (.lrd d a b)) ∧ (src32Ok c.allot false d = true → priv (.lwr d a b))))

/-- R320, R321, R462 to R464, R287: SRD hands out a status register in every thread of the mask, and SWR writes the
ones that may be written; a value that SETM or SETCV would refuse is refused alike, and SRSEED never holds 0. That
STKLIM is kept as 17 raw bits is the model's choice (log 37). -/
def Obligations.StatusRegisterResults : Prop :=
  ∀ (s : State) (c : Ctx) (g : Group) (d : BitVec 8) (n : BitVec 16), s.ctx = some c → FMap.find s.groups c.gid = some g → c.single = false →
    let reads := fun (f : Nat → Word) => ∃ t r, exec (.srd d n) s = .next t ∧ GoesOn t c r c.seed (c.split.pc + 4#64) ∧ OnlyIssuer s c t ∧ Received c.regs c.split.mask d (fun k => [f k]) r
    let x := c.regs.read32 c.xi c.lane d
    let writes := fun (P : Group → Prop) => ∃ t, exec (.swr d n) s = .next t ∧ OnlyIssuer s c t ∧ pcOf t c.who = some (c.split.pc + 4#64) ∧
      OfGroup t c.gid (fun g' => P g' ∧ g'.regs.v = g.regs.v ∧ g'.regs.o = g.regs.o ∧ g'.regs.l = g.regs.l)
    (dst32Ok c.allot d = true → (c.accBusy && touchesAcc 1 d) = false →
      (n = 0x00#16 → reads (fun _ => 64#32)) ∧ (n = 0x01#16 → reads (fun _ => c.regs.mode)) ∧ (n = 0x02#16 → reads (fun _ => g.regs.cvmode)) ∧
      (n = 0x03#16 → reads (fun _ => lo32 c.split.mask)) ∧ (n = 0x04#16 → reads (fun _ => hi32 c.split.mask)) ∧ (n = 0x05#16 → reads (fun _ => BitVec.ofNat 32 g.ident.grpix)) ∧
      (n = 0x09#16 → reads (fun _ => BitVec.ofNat 32 g.ident.role)) ∧ (n = 0x0A#16 → reads (fun _ => BitVec.ofNat 32 (coreOf c.gid % 9))) ∧
      (n = 0x0B#16 → reads (fun _ => BitVec.ofNat 32 (clusterOf (coreOf c.gid)))) ∧ (n = 0x0C#16 → reads (fun _ => BitVec.ofNat 32 (dieOf (coreOf c.gid)))) ∧
      (n = 0x0E#16 → reads (fun _ => BitVec.ofNat 32 s.tick)) ∧ (n = 0x0F#16 → reads (fun _ => hi32 (g.clock.getD (BitVec.ofNat 64 s.tick)))) ∧
      (n = 0x10#16 → reads (fun _ => BitVec.ofNat 32 g.batch)) ∧ (n = 0x11#16 → reads (fun k => (g.lane k).word)) ∧ (n = 0x12#16 → reads (fun _ => BitVec.ofNat 32 g.txlim)) ∧
      (n = 0x13#16 → reads (fun _ => g.srseed)) ∧ (n = 0x14#16 → reads (fun _ => BitVec.ofNat 32 g.stklim)) ∧ (n = 0x15#16 → reads (fun _ => g.tvec)) ∧
      (n = 0x19#16 → reads (fun _ => 0xFFFFFFC0#32)) ∧ (n.toNat < 0x1A → ∃ f, reads f)) ∧
    (0x1A ≤ n.toNat → Raises (.srd d n) s c fIllegalOp c.split.mask 0#64 ∧ Raises (.swr d n) s c fIllegalOp c.split.mask 0#64) ∧
    (src32Ok c.allot false d = true → n.toNat < 0x1A → swrAllowed false n.toNat = false → Raises (.swr d n) s c fPriv c.split.mask 0#64) ∧
    (src32Ok c.allot false d = true → (c.accBusy && touchesAcc 1 d) = false →
      (n = 0x01#16 → c.split.issued = none → modeValueOk (x.setWidth 24) = true → modeGuardOk g.ident.allot (x.setWidth 24) = true → writes (fun g' => g'.regs.mode = x &&& 0xFFFFFF#32)) ∧
      (n = 0x01#16 → modeValueOk (x.setWidth 24) = false → Raises (.swr d n) s c fIllegalOp c.split.mask 0#64) ∧
      (n = 0x02#16 → cvmodeOk x = true → writes (fun g' => g'.regs.cvmode = x)) ∧ (n = 0x02#16 → cvmodeOk x = false → Raises (.swr d n) s c fIllegalOp c.split.mask 0#64) ∧
      (n = 0x12#16 → writes (fun g' => g'.txlim = x.toNat % 256)) ∧ (n = 0x13#16 → writes (fun g' => g'.srseed = if x = 0#32 then 1#32 else x)) ∧
      (n = 0x14#16 → writes (fun g' => g'.stklim = x.toNat % 2 ^ 17)))

/-- R184, R460, R465, R466, R468: the handler's instructions: LRD and LWR reach the trapped group's registers, ERPL
and FSKIP set replacements and skips of the record's threads, HALT ends the group. ERPL has no effect on a fault that no
replacement can answer. -/
def Obligations.HandlerInstructionResults : Prop :=
  ∀ (s : State) (c : Ctx) (g : Group) (h : Handler) (hid : Nat) (d a b : BitVec 8), s.ctx = some c → c.who = .handler hid →
    FMap.find s.groups c.gid = some g → FMap.find s.handlers hid = some h →
    let k := (c.regs.read32 c.xi c.lane b).toNat % 64
    let fm := (g.fault.map (fun f => f.mask)).getD 0#64
    let sets := fun (i : Instr) (P : Handler → Prop) => ∃ t h', exec i s = .next t ∧ FMap.find t.handlers hid = some h' ∧ P h' ∧ h'.regs = h.regs ∧ h'.pc = h.pc + 4#64 ∧
      h'.gid = h.gid ∧ t.ms = s.ms ∧ ∀ k, FMap.find t.groups k = FMap.find s.groups k
    let m := c.regs.read64 c.xi c.lane a &&& fm
    let quad := ((c.regs.readRun c.lane b 3 ++ c.regs.readRun c.lane b 2) ++ (c.regs.readRun c.lane b 1 ++ c.regs.readRun c.lane b 0) : BitVec 128)
    let skips := fun (i : Instr) (m : BitVec 64) => sets i (fun h' => h'.skip = h.skip ||| m ∧ ∀ t, t < 64 → FMap.find h'.repl t = if m.getLsbD t then none else FMap.find h.repl t)
    (dst32Ok c.allot d = true → trappedRegOk g.ident.allot a = true → src32Ok c.allot false b = true → ∃ r, Received c.regs 1#64 d (fun _ => [g.regs.read32 0#64 k a]) r ∧
      Retires (.lrd d a b) s c r c.seed (c.split.pc + 4#64)) ∧
    (src32Ok c.allot false d = true → trappedRegOk g.ident.allot a = true → src32Ok c.allot false b = true →
      ∃ t, exec (.lwr d a b) s = .next t ∧ pcOf t c.who = some (c.split.pc + 4#64) ∧ t.ms = s.ms ∧ OfGroup t c.gid (fun g' => g' = { g with regs := g'.regs } ∧
        g'.regs.read32 0#64 k a = c.regs.read32 c.xi c.lane d ∧ ∀ x t, t < 64 → t ≠ k ∨ specOf x ≠ specOf a → g'.regs.read32 0#64 t x = g.regs.read32 0#64 t x)) ∧
    (src64Ok c.allot false a = true → quadOk c.allot b = true → (g.fault.map FaultInfo.replaceable).getD false = true →
      sets (.erpl a b) (fun h' => h'.skip = h.skip &&& ~~~m ∧ ∀ t, t < 64 → FMap.find h'.repl t = if m.getLsbD t then some quad else FMap.find h.repl t)) ∧
    (src64Ok c.allot false a = true → quadOk c.allot b = true → (g.fault.map FaultInfo.replaceable).getD false = false →
      Retires (.erpl a b) s c c.regs c.seed (c.split.pc + 4#64)) ∧
    skips .fskipAll fm ∧ (src64Ok c.allot false a = true → skips (.fskipMask a) m) ∧
    (∃ t, exec .halt s = .next t ∧ t.ms.mem = s.ms.mem ∧ ∀ g', FMap.find t.groups c.gid = some g' → g'.status = .exited)

/-- R184, R466, R467: RETT ends single-lane mode: the handler context is free and the group runs again; it goes on at
the record's resume pc where the handler changed it, else re-executes the faulting threads that are neither
replaced nor skipped, replaced loads receive their values, and with none left it goes on after the instruction. The command
of an engine fault restarts, or is cancelled with code 2 where a thread is skipped (R426). That the prefix state is clear at a
resume pc that the handler changed is the model's choice (log 35). -/
def Obligations.ReturnFromException : Prop :=
  ∀ (s : State) (c : Ctx) (g : Group) (h : Handler) (hid : Nat) (f : FaultInfo) (sp : Split), s.ctx = some c → c.who = .handler hid →
    FMap.find s.groups c.gid = some g → FMap.find s.handlers hid = some h → g.fault = some f → FMap.find g.table f.entry = some sp →
    f.txAborted = 0#64 → g.engFaults = [] → g.ejectDue = 0#64 → NothingToFlush s c →
    let rpc := BitVec.ofNat 64 (ofBytesLE ((List.range 8).map (fun i => FMap.getD (s.core (coreOf c.gid)).trap 0#8 (256 * slotOf c.gid + 0x10 + i))))
    let goes := fun (P : Group → Split → Prop) => ∃ t, exec .rett s = .next t ∧ KeepsMs s t ∧ FMap.find t.handlers hid = none ∧
      (∀ k, k ≠ c.gid → FMap.find t.groups k = FMap.find s.groups k) ∧
      OfGroup t c.gid (fun g' => g'.status = .running ∧ g'.fault = none ∧ ∃ sp', FMap.find g'.table f.entry = some sp' ∧ sp'.mask = sp.mask ∧ sp'.wait = .none ∧ P g' sp')
    let again := reexecuted (rettKind f) f.mask h.skip h.repl
    (rpc ≠ f.pc → goes (fun g' sp' => sp'.pc = rpc ∧ sp'.pfx = .clear ∧ sp'.retry = none ∧ g'.regs = g.regs)) ∧
    (rpc = f.pc → f.engine = none → rettKind f = .whole → h.skip = 0#64 → goes (fun g' sp' => sp'.pc = sp.pc ∧ sp'.pfx = sp.pfx ∧ sp'.retry = none ∧ g'.regs = g.regs)) ∧
    (rpc = f.pc → f.engine = none → rettKind f = .whole → h.skip ≠ 0#64 → goes (fun g' sp' => sp'.pc = f.pc + 4#64 ∧ sp'.pfx = .clear ∧ g'.regs = g.regs)) ∧
    (rpc = f.pc → f.engine = none → rettKind f ≠ .whole → again ≠ 0#64 → goes (fun g' sp' => sp'.pc = sp.pc ∧ sp'.pfx = sp.pfx ∧ sp'.retry = some again ∧
      sp'.issued = some ⟨f.mode, again⟩ ∧ g'.regs = deliver (rettKind f) f.mask h.repl g.regs)) ∧
    (rpc = f.pc → f.engine = none → rettKind f ≠ .whole → again = 0#64 → goes (fun g' sp' => sp'.pc = f.pc + 4#64 ∧ sp'.pfx = .clear ∧ g'.regs = deliver (rettKind f) f.mask h.repl g.regs)) ∧
    (∀ id q, f.engine = some id → s.command (coreOf c.gid) id = some q → ∃ t, exec .rett s = .next t ∧ KeepsMs s t ∧ FMap.find t.handlers hid = none ∧
      (rpc = f.pc → OfGroup t c.gid (fun g' => g'.status = .running ∧ g'.fault = none ∧ g'.table = g.table ∧ g'.regs = g.regs)) ∧
      t.command (coreOf c.gid) id = some (if h.skip ≠ 0#64 ∧ rpc = f.pc then { q with started := true, held := false, stopped := false, ended := some 2, posted := false }
        else { q with stopped := false }))

/-- R469 to R472: YLD lets the other ready groups of its quadrant go first; SLP waits its ticks; FPT records its point
or refuses one; FPRET returns from a recipe to the recorded point. -/
def Obligations.WaitAndPointResults : Prop :=
  ∀ (s : State) (c : Ctx) (g : Group) (a : BitVec 8), s.ctx = some c → c.single = false → FMap.find s.groups c.gid = some g →
    let on := fun (i : Instr) (P : Group → Prop) => ∃ t, exec i s = .next t ∧ GoesOn t c c.regs c.seed (c.split.pc + 4#64) ∧ OnlyIssuer s c t ∧ OfGroup t c.gid P
    let n := (c.regs.read32 c.xi c.lane a).toNat
    let next := c.split.pc + 4#64
    (s.readyOthers c.gid = [] → on .yld (fun g' => g'.yieldDue = g.yieldDue)) ∧
    (s.readyOthers c.gid ≠ [] → on .yld (fun g' => g'.yieldSet = s.readyOthers c.gid ∧ g'.yieldDue = some (s.freeNow (hidOf c.gid) + 64))) ∧
    (src32Ok c.allot false a = true → (c.accBusy && touchesAcc 1 a) = false → n = 0 → Goes (.slp a) s c c.regs c.seed (c.advance next).split) ∧
    (src32Ok c.allot false a = true → (c.accBusy && touchesAcc 1 a) = false → n ≠ 0 → Goes (.slp a) s c c.regs c.seed { c.split with wait := .sleep (s.tick + n) }) ∧
    (quadOk c.allot a = true → (c.accBusy && touchesAcc 4 a) = false →
      (1 < g.liveSplits → on (.fpt a) (fun g' => g'.fp.valid = true ∧ g'.fp.isOpen = false ∧ g'.fp.cause = 6 ∧ g'.fp.point = g.fp.point)) ∧
      (g.liveSplits ≤ 1 → (∀ q ∈ g.tx, q.2.depth = 0 ∧ q.2.irrev = false) → on (.fpt a) (fun g' => g'.fp.valid = true ∧ g'.fp.isOpen = true ∧ g'.fp.cause = 0 ∧
        g'.fp.count = (g.fp.count + 1) % 2 ^ 24 ∧ g'.fp.point = next ∧ g'.fp.mask = c.split.mask ∧ g'.fp.mode = g.regs.mode ∧ g'.fp.cvmode = g.regs.cvmode ∧
        g'.fp.srseed = g.srseed ∧ g'.fp.batch = g.batch ∧ g'.fp.filter = 0#512 ∧ g'.fpgrid = g.grid ∧
        g'.fp.recipePc = if c.extv = 0#24 then none else some (c.split.pc + 4#64 * c.extv.signExtend 64)))) ∧
    (g.fp.recipe = true → ∃ t, exec .fpret s = .next t ∧ OnlyIssuer s c t ∧ GoesOn t c { c.regs with mode := g.fp.mode, cvmode := g.fp.cvmode } g.fp.srseed g.fp.point ∧
      OfGroup t c.gid (fun g' => g'.grid = g.fpgrid ∧ g'.fp.recipe = false)) ∧
    (g.fp.recipe = false → Raises .fpret s c fPriv c.split.mask 0#64)

section

/-- POWER_GOOD, POWER_OFF, IMAGE_OFFER, what the boot ROM does with the image, SELF_TEST_COMPLETE,
ROW_REPAIR_IN_SERVICE, L2_WAY_FAILURE, the heat events (R22 to R24, R38 to R42, R46 to R50), IN_FIELD_SCAN,
SCAN_COMPLETE and CORE_LOST (R43 to R45): a core under scan takes no block, and its scan lasts from when it is empty; a
core that fails gives its number to the cluster's spare. The board controller's and the boot ROM's parts are
events of the model (log 3); what survives without power is log 7; the image slot and the order of its checks are
log 66; the stored repair list and later way failures are log 59; one level of throttling for each exceeded cap is
log 48; a scan that is counted from when its core is empty, and the hour from there, are log 49; that the spare is the
core of number 9 in the map is log 50. -/
def Obligations.PowerAndRepairEvents : Prop :=
  (∀ s : State, s.power = false → ∃ t, exec .powerGood s = .next t ∧ t.power = true ∧ t.boot.status = 0 ∧ t.groups = [] ∧ t.handlers = [] ∧
    t.ms = State.reset.ms ∧ t.vfs = [] ∧ t.parts = [] ∧ t.boot.fuses = s.boot.fuses ∧ t.boot.fusedSvn = s.boot.fusedSvn) ∧
  (∀ s : State, s.power = true → ∃ t, exec .powerOff s = .next t ∧ t.power = false ∧ t.groups = [] ∧ t.ms = State.reset.ms ∧
    t.boot.fuses = s.boot.fuses ∧ t.turn.outbox = [.powerOff false]) ∧
  (∀ s : State, s.power = true → ∃ t, exec .thermalShutdown s = .next t ∧ t.power = false ∧ t.groups = [] ∧ t.ms = State.reset.ms ∧
    t.boot.fuses = s.boot.fuses ∧ t.turn.outbox = [.powerOff true]) ∧
  (∀ (s : State) b, s.power = true →
    (s.boot.status = 0 → ∃ t, exec (.imageOffer b) s = .next t ∧ t.turn.outbox = s.turn.outbox ++ [.status 1] ∧ t.boot = { s.boot with status := 1, image := b }) ∧
    (s.boot.status = 3 → exec (.imageOffer b) s = .next (s.send (.status 3)))) ∧
  (∀ s : State, s.boot.status = 1 →
    let st := imageStatus s.boot s.boot.image
    s.romStep.turn.outbox = s.turn.outbox ++ [.status st] ∧ s.romStep.boot.status = st ∧ (st ≠ 2 → s.romStep.boot = { s.boot with status := st }) ∧
    (st = 2 → s.romStep.boot.portRoot = leField s.boot.image 6 2 % 4 ∧
      s.romStep.boot.fusedSvn = if bitAt (leField s.boot.image 6 2) 2 then max s.boot.fusedSvn (leField s.boot.image 8 4) else s.boot.fusedSvn)) ∧
  (∀ s : State, 0x10 ≤ s.boot.status → s.boot.status ≤ 0x15 → s.romStep.turn.outbox = s.turn.outbox ++ [.status 0] ∧
    s.romStep.boot = { s.boot with status := 0, image := [] }) ∧
  (∀ (s : State) p, s.boot.status = 2 →
    (∃ t, exec (.selfTestComplete true p) s = .next t ∧ t.boot.status = 3 ∧ t.boot.repairList = [] ∧ t.boot.bootScan = some s.tick ∧
      ∀ cl, cl < 64 → t.mapWord cl = mapWordOf p cl) ∧
    (∃ t, exec (.selfTestComplete false p) s = .next t ∧ t.boot = { s.boot with status := 0x20 })) ∧
  (∀ (s : State) row, s.power = true → exec (.rowRepairInService ⟨row, true⟩) s = .next (s.send (.rowExhausted row)) ∧
    (s.boot.softRepaired.contains row = false →
      exec (.rowRepairInService ⟨row, false⟩) s = .next { s with boot := { s.boot with softRepaired := row :: s.boot.softRepaired } })) ∧
  (∀ (s : State) sl, s.power = true → FMap.getD s.boot.l2Spare false sl = false →
    ∃ t, exec (.l2WayFailure sl) s = .next t ∧ FMap.getD t.boot.l2Spare false sl = true ∧ t.boot.l2Ways = s.boot.l2Ways ∧ t.ms = s.ms) ∧
  (∀ (s : State) sl, s.power = true → FMap.getD s.boot.l2Spare false sl = true →
    ∃ t, exec (.l2WayFailure sl) s = .next t ∧ FMap.getD t.boot.l2Ways 0 sl = FMap.getD s.boot.l2Ways 0 sl + 1 ∧ t.ms.mem = s.ms.mem) ∧
  (∀ s : State, s.power = true → exec .powerCapExceeded s = .next { s with boot := { s.boot with throttle := min 15 (s.boot.throttle + 1) } }) ∧
  (∀ s : State, s.power = true →
    ((∀ t, s.boot.throttleAt = some t → t + 700000 ≤ s.tick) →
      exec .throttleStepDown s = .next { s with boot := { s.boot with throttle := s.boot.throttle - 1, throttleAt := some s.tick } }) ∧
    (∀ t, s.boot.throttleAt = some t → s.tick < t + 700000 → exec .throttleStepDown s = .next s)) ∧
  (∀ s : State, s.power = true → exec .thermalThrottle s = .next { s with boot := { s.boot with thermal := true } } ∧
    exec .thermalRecover s = .next { s with boot := { s.boot with thermal := false } }) ∧
  (∀ (s : State) k, (s.core k).scan = false → s.corePresent k = true → s.scannedLately k = false →
    ∃ t, exec (.inFieldScan k) s = .next t ∧
      t.core k = (if s.coreEmpty k then { s.core k with scan := true, scanTick := some s.tick, scanFrom := some s.tick }
        else { s.core k with scan := true, scanFrom := none }) ∧
      (∀ j, j ≠ k → t.core j = s.core j) ∧ ∀ h, t.admits k h = none) ∧
  (∀ (s : State) k c, FMap.find s.cores k = some c → c.scan = true → c.scanFrom = none → s.coreEmpty k = true →
    s.startScans.core k = { c with scanTick := some s.tick, scanFrom := some s.tick }) ∧
  (∀ (s : State) k t0, (s.core k).scan = true → (s.core k).scanFrom = some t0 → t0 + scanTicks = s.tick →
    (∃ t, exec (.scanComplete k true) s = .next t ∧ (t.core k).scan = false ∧ t.boot = s.boot) ∧
    (FMap.getD s.boot.spareUsed false (clusterOf k) = false → ∃ t, exec (.scanComplete k false) s = .next t ∧ (t.core k).scan = false ∧
      t.mapWord (clusterOf k) = s.mapWord (clusterOf k) - field (s.mapWord (clusterOf k)) (4 * (k % 9)) 4 * 2 ^ (4 * (k % 9)) + 9 * 2 ^ (4 * (k % 9)) ∧
      FMap.getD t.boot.spareUsed false (clusterOf k) = true)) ∧
  (∀ (s : State) k, s.corePresent k = true → ∃ t, exec (.coreLost k) s = .next t ∧
    (t.core k).queue = [] ∧ (t.core k).l1 = [] ∧ ∀ h, h / 4 = k → FMap.find t.handlers h = none)

end

section

/-- LQTAIL_WRITE, VFCTL_EN, QRESET, RECORD_START, WOBJ_REREAD and RECORD_WAIT_SATISFIED (R58 to R67): the
launch queue from the tail's write to the grid that its record starts; while en = 0 no record goes on. The size that
checks a tail write while en = 0 is log 60. -/
def Obligations.LaunchQueueEvents : Prop :=
  (∀ (s : State) vf (val : BitVec 64), (s.vf vf).resetting = false →
    let v := s.vf vf
    let n := val.toNat % 2 ^ 32
    let lg := if v.en then v.inLgsize else v.lgsize
    ((n + 2 ^ 32 - v.lqtail) % 2 ^ 32 ≤ (v.lqhead + 2 ^ lg + 2 ^ 32 - v.lqtail) % 2 ^ 32 →
      exec (.lqtailWrite vf val) s = .next (((s.setVf vf { v with lqtail := n }).schedule (.recordStart vf)).schedule (.switchIn v.part))) ∧
    ((v.lqhead + 2 ^ lg + 2 ^ 32 - v.lqtail) % 2 ^ 32 < (n + 2 ^ 32 - v.lqtail) % 2 ^ 32 →
      exec (.lqtailWrite vf val) s = .next (s.stopQueue vf 2 0 true))) ∧
  (∀ (s : State) vf, (s.vf vf).resetting = false → (s.vf vf).en = false → 4 ≤ (s.vf vf).lgsize → (s.vf vf).lgsize ≤ 16 → (s.vf vf).lqbase % 4096 = 0 →
    exec (.vfctlEn vf true) s = .next (((s.setVf vf { s.vf vf with en := true, inLqbase := (s.vf vf).lqbase, inLgsize := (s.vf vf).lgsize, starting := none }).schedule
      (.recordStart vf)).schedule (.switchIn (s.vf vf).part))) ∧
  (∀ (s : State) vf, (s.vf vf).resetting = false → exec (.vfctlEn vf false) s =
    .next ((s.setVf vf { s.vf vf with en := false }).schedule (.switchIn (s.vf vf).part))) ∧
  (∀ (s : State) vf, (s.vf vf).resetting = false → (s.vf vf).stopped = true →
    exec (.qreset vf) s = .next ((s.setVf vf { s.vf vf with lqhead := (s.vf vf).lqtail, stopped := false, lqerr := 0, lqdetail := 0, starting := none }).schedule
      (.switchIn (s.vf vf).part))) ∧
  (∀ (s s1 : State) vf b, (s.vf vf).mayStart = true →
    unitReadWords (s.whoVf vf) ((s.vf vf).inLqbase + 64 * ((s.vf vf).lqhead % 2 ^ (s.vf vf).inLgsize)) 8 s = (.ok (b, false), s1) →
    (recFail b = none → exec (.recordStart vf) s = .next ((s1.modVf vf (fun v => { v with starting := some ⟨launchRec b, none, none, 0, !bitAt (launchRec b).flags 0, none⟩ })).schedule
      (if bitAt (launchRec b).flags 0 then .wobjReread vf else .recordWaitSatisfied vf))) ∧
    (∀ o, recFail b = some o → exec (.recordStart vf) s = .next (s1.stopQueue vf 3 o true))) ∧
  (∀ (s s1 : State) vf r x line, (s.vf vf).starting = some r → r.ok = false → (s.vf vf).mayGoOn = true → readWobj (s.whoVf vf) r.lrec.wobj s = (.value x line, s1) →
    (r.lrec.wval ≤ x → exec (.wobjReread vf) s =
      .next ((s1.modVf vf (fun v => { v with starting := some { r with ok := true, line := none } })).schedule (.recordWaitSatisfied vf))) ∧
    (x < r.lrec.wval → exec (.wobjReread vf) s =
      .next (s1.modVf vf (fun v => { v with starting := some { r with line := some line, due := s1.tick + 1400 } })))) ∧
  (∀ (s : State) vf r, (s.vf vf).starting = some r → r.ok = true → (s.vf vf).mayGoOn = true → r.lrec.type = 0 → exec (.recordWaitSatisfied vf) s = .next (s.advanceHead vf)) ∧
  (∀ (s s1 : State) vf r b, (s.vf vf).starting = some r → r.ok = true → (s.vf vf).mayGoOn = true → r.lrec.type ≠ 0 →
    unitReadWords (s.whoVf vf) r.lrec.header 16 s = (.ok (b, false), s1) →
    (hdrFail b = none → exec (.recordWaitSatisfied vf) s = .next ((s1.startGrid vf true r.lrec (launchHdr b)).advanceHead vf)) ∧
    (∀ o, hdrFail b = some o → exec (.recordWaitSatisfied vf) s = .next (s1.stopQueue vf 4 o true))) ∧
  (∀ (s : State) vf r, (s.vf vf).starting = some r → (s.vf vf).mayGoOn = false →
    exec (.wobjReread vf) s = .next s ∧ exec (.recordWaitSatisfied vf) s = .next s) ∧
  (∀ (s : State) vf, ((s.advanceHead vf).vf vf).lqhead = ((s.vf vf).lqhead + 1) % 2 ^ 32) ∧
  (∀ (s : State) vf err det m, (s.vf vf).stopped = false → ((s.stopQueue vf err det m).vf vf).stopped = true ∧
    ((s.stopQueue vf err det m).vf vf).lqerr = err ∧ ((s.stopQueue vf err det m).vf vf).lqdetail = det)

/-- CONTEXT_ERROR_REPORT, GRID_COMPLETION, DLQ_RECORD_START, HSDONE_WRITE and HCALL_RESUME (R72 to R77). A grid's end
goes through its steps one after another: its last write first, then its record, then its signal, each once the writes
before it have been performed. -/
def Obligations.CompletionAndCallEvents : Prop :=
  (∀ (s : State) k g st det core slot pc, FMap.find s.grids k = some g → g.err = none → g.stage < 2 →
    let e : GridErr := ⟨st, if st = 1 then det else 0, if st = 1 ∨ st = 2 then s.clusterField (s.vf g.vf).part core else 0, if st = 1 ∨ st = 2 then core % 9 else 0, slot, pc⟩
    let stops := g.fromRing && !(s.vf g.vf).stopped && decide (st ≠ 3)
    let s1 := s.modGrid k (fun g => { g with err := some e, stopsQueue := stops })
    exec (.contextErrorReport k st det core slot pc) s = .next ((if stops then s1.stopQueue g.vf 6 0 false else s1).haltGrid k)) ∧
  (∀ (s : State) k g g0 st det core slot pc, FMap.find s.grids k = some g → g.err = some g0 ∨ 2 ≤ g.stage →
    exec (.contextErrorReport k st det core slot pc) s = .next s) ∧
  (∀ (s : State) k g, FMap.find s.grids k = some g → g.stage = 0 →
    (s.gridDone k g = false → exec (.gridCompletion k) s = .next s) ∧
    (s.gridDone k g = true → ∃ t, exec (.gridCompletion k) s = .next t ∧ t.turn.agenda = s.turn.agenda ++ [.gridCompletion k] ∧ t.ms = s.ms ∧
      (FMap.rising 0 s.grids = true → FMap.find t.grids k = some { g with stage := 1, tend := if g.tstart.isSome then g.tend else s.tick }))) ∧
  (∀ (s : State) k g, FMap.find s.grids k = some g → g.stage ≠ 0 → g.written ≠ [] → exec (.gridCompletion k) s = .next (s.flushGrid k g)) ∧
  (∀ (s : State) k g, FMap.find s.grids k = some g → g.stage ≠ 0 → g.written = [] → g.flush ≠ [] → exec (.gridCompletion k) s = .next s) ∧
  (∀ (s s1 : State) k g, FMap.find s.grids k = some g → g.stage = 1 → g.written = [] → g.flush = [] → g.lrec.crec ≠ 0 →
    let e := g.err.getD ⟨0, 0, 0, 0, 0, 0⟩
    unitWrite (s.whoVf g.vf) g.lrec.crec (completionBytes g.lrec e.status e.detail (g.tstart.getD 0) g.tend e.cluster e.core e.slot e.pc) s = (.ok (), s1) →
    exec (.gridCompletion k) s = .next ((s1.modGrid k (fun x => { x with stage := 2, written := unitPackage (s.whoVf g.vf) g.lrec.crec s })).schedule (.gridCompletion k))) ∧
  (∀ (s s1 : State) k g, FMap.find s.grids k = some g → g.stage = 2 → g.written = [] → g.flush = [] → (s.vf g.vf).resetting = false → bitAt g.lrec.flags 1 = true → g.err = none →
    unitSignal (s.whoVf g.vf) g.lrec.sobj g.lrec.sinc s = (.ok (), s1) → exec (.gridCompletion k) s = .next (s1.endGrid k g g.stepFailed)) ∧
  (∀ (s : State) k g, FMap.find s.grids k = some g → g.stage = 2 → g.written = [] → g.flush = [] → (s.vf g.vf).resetting = false → bitAt g.lrec.flags 1 = false ∨ g.err ≠ none →
    exec (.gridCompletion k) s = .next (s.endGrid k g g.stepFailed)) ∧
  (∀ (s : State) k g failed, (s.endGrid k g failed).grids = FMap.erase s.grids k ∧ (s.endGrid k g failed).ms = s.ms) ∧
  (∀ (s : State) k g, g.lrec.flags = 0 → g.stopsQueue = false → g.fromRing = true ∨ g.err = none → (s.vf g.vf).resetting = false →
    s.endGrid k g false = ({ s with grids := FMap.erase s.grids k }).schedule (.switchIn (s.vf g.vf).part)) ∧
  (∀ (s : State) vf r rest h, (s.vf vf).dlq = r :: rest → bitAt r.lrec.flags 0 = false → r.hdr = some h →
    exec (.dlqRecordStart vf) s = .next ((s.startGrid vf false r.lrec h).popDlq vf)) ∧
  (∀ (s : State) vf, ((s.popDlq vf).vf vf).dlq = (s.vf vf).dlq.drop 1) ∧
  (∀ (s : State) vf slot x, FMap.find (s.vf vf).calls slot = some x → slot < 256 → x.pending = true →
    exec (.hsdoneWrite vf slot) s =
      .next ((s.modVf vf (fun v => { v with calls := FMap.insert v.calls slot { x with pending := false, returned := true } })).schedule (.hcallResume vf slot))) ∧
  (∀ (s s1 : State) vf slot x g c b, FMap.find (s.vf vf).calls slot = some x → x.returned = true → FMap.find s.groups x.gid = some g → g.status = .running →
    s.vfOf x.gid = vf → s.ctxOf (some (.split x.gid x.entry)) = some c → c.split.wait = .call slot →
    unitReadWords (s.whoOf x.gid) ((s.vf vf).hsbase + 64 * slot) 8 s = (.ok (b, false), s1) → leField b 2 2 < 0xFFFE →
    exec (.hcallResume vf slot) s =
      .next (((s1.modVf vf (fun v => { v with calls := FMap.erase v.calls slot })).dropL1 (coreOf c.gid)).retire c
        (callResults (BitVec.ofNat 8 x.dst) (BitVec.ofNat 8 x.reg) b c) (c.split.pc + 4#64)))

end

section

/-- PCLUS_WRITE, L2Q_WRITE, MRPORTS_WRITE, ESTP_WRITE, WTINV_WRITE, STAGE_INVALIDATE, INVALIDATION_DONE and
REGISTER_WRITE (R51 to R60, R84, R85, R95, R101, R110): a change of ownership that would overlap another
partition's, or take a cluster in use, is refused with its reason; an invalidation takes the registers as
written and drops every cached range of the stage, once no access that used one is in flight. -/
def Obligations.OwnershipAndRegisterEvents : Prop :=
  (∀ (s : State) p (v : BitVec 64), s.ownedElsewhere p (fun x => x.pclus) v.toNat = true → exec (.pclusWrite p v) s = .next (s.refuse p 0x8 1)) ∧
  (∀ (s : State) p (v : BitVec 64), s.ownedElsewhere p (fun x => x.pclus) v.toNat = false →
    let gone := (List.range 64).filter (fun c => bitAt (s.part p).pclus c && !bitAt v.toNat c)
    (gone.any (s.clusterHeld p) = true → exec (.pclusWrite p v) s = .next (s.refuse p 0x8 2)) ∧
    (gone.any (s.clusterHeld p) = false → v.toNat ≠ (s.part p).pclus → s.hasSaved p = true → exec (.pclusWrite p v) s = .next (s.refuse p 0x8 5)) ∧
    (gone.any (s.clusterHeld p) = false → s.hasSaved p = false → ∃ t, exec (.pclusWrite p v) s = .next t ∧
      t.part p = { s.part p with pclus := v.toNat } ∧ (∀ q, q ≠ p → t.part q = s.part q) ∧ t.ms = s.ms ∧ t.groups = s.groups ∧ t.blocks = s.blocks)) ∧
  (∀ (s : State) p (v : BitVec 64),
    let n := v.toNat % 2 ^ 13
    let others := (s.parts.filter (fun q => decide (q.1 ≠ p))).foldl (fun m q => m + q.2.l2q) 0
    (s.usableLines < others + n → exec (.l2qWrite p v) s = .next (s.refuse p 0x18 3)) ∧
    (others + n ≤ s.usableLines → n ≤ 4096 → ∃ t, exec (.l2qWrite p v) s = .next t ∧ t.part p = { s.part p with l2q := n } ∧
      (∀ q, q ≠ p → t.part q = s.part q) ∧ t.ms.mem = s.ms.mem)) ∧
  (∀ (s : State) p (v : BitVec 64),
    (s.ownedElsewhere p (fun x => x.mrports) (v.toNat % 2 ^ 32) = true → exec (.mrportsWrite p v) s = .next (s.refuse p 0x20 1)) ∧
    (s.ownedElsewhere p (fun x => x.mrports) (v.toNat % 2 ^ 32) = false →
      exec (.mrportsWrite p v) s = .next (s.portsChanged (s.modPart p (fun x => { x with mrports := v.toNat % 2 ^ 32 }))))) ∧
  (∀ (s : State) p (v : BitVec 64),
    (s.ownedElsewhere p (fun x => x.estPorts) (v.toNat % 2 ^ 8) = true → exec (.estpWrite p v) s = .next (s.refuse p 0x28 1)) ∧
    (s.ownedElsewhere p (fun x => x.estPorts) (v.toNat % 2 ^ 8) = false →
      exec (.estpWrite p v) s = .next (s.modPart p (fun x => { x with estPorts := v.toNat % 2 ^ 8, estLimit := v.toNat / 2 ^ 16 % 2 ^ 16 })))) ∧
  (∀ (s : State) p, ∃ t, exec (.wtinvWrite p) s = .next t ∧ { t with wtCache := s.wtCache } = s ∧
    ∀ d h, d < 4 → h < 2 ^ 16 → FMap.find t.wtCache ((p * 4 + d) * 2 ^ 16 + h) = none) ∧
  (∀ (s : State) stage2 n, (s.stage stage2 n).busy = false → exec (.stageInvalidate stage2 n) s =
    .next ((s.modStage stage2 n (fun x => { x with busy := true })).schedule (.invalidationDone stage2 n))) ∧
  (∀ (s : State) stage2 n, (s.stage stage2 n).busy = true → s.stageInFlight stage2 n = true →
    exec (.invalidationDone stage2 n) s = .next (s.flushStage stage2 n)) ∧
  (∀ (s : State) stage2 n, (s.stage stage2 n).busy = true → s.stageInFlight stage2 n = false → ∃ t, exec (.invalidationDone stage2 n) s = .next t ∧
    t.stage stage2 n = { s.stage stage2 n with busy := false, inRtab := (s.stage stage2 n).rtab, inRcnt := (s.stage stage2 n).rcnt, inPtroot := (s.stage stage2 n).ptroot } ∧
    t.ms.mem = s.ms.mem ∧ ∀ k r, r ∈ (t.core k).tlb → ¬ (if stage2 then r.part = n else r.vf = some n)) ∧
  (∀ (s : State) agent off size (val : BitVec 64), s.power = true → (mgmtSpace ≤ off → isMgmt agent = true) → regAligned off size = true →
    let v := mergeWord (s.regWord (off / 8 * 8)) off size val.toNat
    let low := decide (size = 8 ∨ off % 8 = 0)
    (∀ n r, regPlace off = .vf n r → s.sees agent (s.vf n).presented = true → exec (.registerWrite agent off size val) s = .next (s.writeVfReg n (r / 8 * 8) v low)) ∧
    (∀ n r, regPlace off = .vf n r → s.sees agent (s.vf n).presented = false → exec (.registerWrite agent off size val) s = .next s) ∧
    (∀ p r, regPlace off = .part p r → s.sees agent s.pfPresentation = true → exec (.registerWrite agent off size val) s = .next (s.writePartReg p (r / 8 * 8) v low)) ∧
    (regPlace off = .reserved → exec (.registerWrite agent off size val) s = .next s))

/-- SETSTRIPE, STRIPE_SCRUB_DONE, ASSIGNVF, UNASSIGNVF, VRESET, VF_RESET_COMPLETE and the weir commands (R86 to
R92, R109, R116, R119). The order of SETSTRIPE's results is log 42, the buckets that ASSIGNVF fills are log 62, WOPEN's
check of the used entries of the list alone is log 34, and what a reset does with grids that are left when its 5 ms are over
is log 78. -/
def Obligations.ConfigurationCommandEvents : Prop :=
  (∀ s : State, s.cfg.busy = true →
    let tier := bitAt s.cfg.arg0 63
    let count := field s.cfg.arg0 20 18
    let first := field s.cfg.arg0 0 18
    let v := field s.cfg.arg1 0 8
    let l := (List.range count).map (fun i => first + i)
    let old := fun (k : Nat) => FMap.getD (s.ms.stripes tier) 0xFF k
    let legal := count ≠ 0 ∧ first + count ≤ (if tier then 262144 else 131072) ∧ ¬ (0x80 ≤ v ∧ v ≤ 0xFA)
    let allowed := v ≠ 0xFB ∧ v ≠ 0xFC ∧ (∀ k, k ∈ l → old k ≠ 0xFB ∧ old k ≠ 0xFC) ∧ adjacentOk (setRange (s.ms.stripes tier) l v) = true
    (¬ legal → exec .setstripe s = .next (s.finishCfg 1 2)) ∧ (legal → ¬ allowed → exec .setstripe s = .next (s.finishCfg 1 1)) ∧
    (legal → allowed → (∀ k, k ∈ l → trustDomain (old k) = true → old k = v) →
      exec .setstripe s = .next ((s.setStripes tier (setRange (s.ms.stripes tier) l v)).finishCfg 1 0)) ∧
    (legal → allowed → (∃ k, k ∈ l ∧ trustDomain (old k) = true ∧ old k ≠ v) → ∃ t, exec .setstripe s = .next t ∧ t.cfg.busy = true ∧ t.ms.mem = s.ms.mem ∧
      ∀ k, k ∈ l → trustDomain (old k) = true → old k ≠ v → FMap.getD (t.ms.stripes tier) 0xFF k = 0xFB)) ∧
  (∀ (s : State) tier first count v, s.cfg.scrub = some (tier, first, count, v) → ∃ t, exec .stripeScrubDone s = .next t ∧
    t.cfg.busy = false ∧ t.cfg.last = 1 ∧ t.cfg.result = 0 ∧ t.cfg.scrub = none ∧
    ∀ k, first ≤ k → k < first + count → FMap.getD (s.ms.stripes tier) 0xFF k = 0xFB →
      FMap.getD (t.ms.stripes tier) 0xFF k = v ∧ ∀ i, i < 2 ^ 23 → FMap.getD t.ms.mem 0#8 (stripeBase tier k + i) = 0#8) ∧
  (∀ s : State, s.cfg.busy = true →
    let vf := field s.cfg.arg0 0 10
    let p := field s.cfg.arg0 16 6
    let l := field s.cfg.arg0 32 8
    ((s.vf vf).en = true ∨ s.lqIdle vf = false ∨ (s.vf vf).assigned = true ∨ (s.vfByIndex p l).isSome = true → exec .assignvf s = .next (s.finishCfg 8 3)) ∧
    ((s.vf vf).en = false → s.lqIdle vf = true → (s.vf vf).assigned = false → s.vfByIndex p l = none →
      exec .assignvf s = .next (((s.setVf vf { s.vf vf with assigned := true, part := p, index := l }).fillBuckets vf).finishCfg 8 0)) ∧
    ((s.vf vf).assigned = false → exec .unassignvf s = .next (s.finishCfg 8 3)) ∧
    ((s.vf vf).assigned = true → (s.vf vf).resetting = false →
      exec .unassignvf s = .next (({ s with cfg := { s.cfg with unassign := some vf } }).schedule (.vreset vf)))) ∧
  (∀ (s : State) vf, (s.vf vf).resetting = false → ∃ t, exec (.vreset vf) s = .next t ∧
    (t.vf vf).resetting = true ∧ (t.vf vf).gen = ((s.vf vf).gen + 1) % 2 ^ 16 ∧ (t.vf vf).lqhead = (s.vf vf).lqtail ∧ (t.vf vf).dlq = [] ∧
    (t.vf vf).calls = [] ∧ (t.vf vf).conns = []) ∧
  (∀ (s : State) vf, (s.vf vf).resetting = true → s.grids.any (fun q => decide (q.2.vf = vf)) = true → s.tick < (s.vf vf).resetAt + 3500000 →
    exec (.vfResetComplete vf) s = .next s) ∧
  (∀ (s : State) vf, (s.vf vf).resetting = true → (s.vf vf).resetAt + 3500000 ≤ s.tick → (∀ q ∈ s.grids, q.2.vf = vf → q.2.written = [] ∧ q.2.flush = []) →
    ∃ t, exec (.vfResetComplete vf) s = .next t ∧ (t.vf vf).resetting = false ∧ ∀ q ∈ t.grids, q.2.vf ≠ vf) ∧
  (∀ (s : State) vf, (s.vf vf).resetting = true → s.grids.any (fun q => decide (q.2.vf = vf)) = false →
    (s.cfg.unassign ≠ some vf → ∃ t, exec (.vfResetComplete vf) s = .next t ∧ t.vf vf = (s.vf vf).afterReset ∧ t.ms.mem = s.ms.mem ∧ t.cfg = s.cfg) ∧
    (s.cfg.unassign = some vf → ∃ t, exec (.vfResetComplete vf) s = .next t ∧ (t.vf vf).assigned = false ∧ (t.vf vf).resetting = false ∧
      t.cfg.busy = false ∧ t.cfg.last = 8 ∧ t.cfg.result = 0 ∧ t.ms.mem = s.ms.mem)) ∧
  (∀ (s0 : State) off b, s0.cfg.busy = true → s0.cfg.arg0 % 64 = 0 → s0.descriptor s0.cfg.arg0 = some (off, b) →
    let s := s0.noteRead off 64
    let pa := s0.cfg.arg0
    let n := weirOf b
    (FMap.find s.weirs pa = none → s.poisoned off 64 = false → field (leField b 0x14 1) 0 2 = 0 ∨ field (leField b 0x14 1) 0 2 = 3 → bitAt (leField b 0x14 1) 7 = false →
      weirFormatOk b = true → n.home = s.boot.pkg → s.weirs.length < 4096 →
      exec .wopen s0 = .next (({ (s.storeWeirState off 0).tellCommons n.commons pa n.acl with weirs := FMap.insert s.weirs pa n }).finishCfg 0x10 0)) ∧
    (∀ w, FMap.find s.weirs pa = some w →
      let stored := if w.state = 2 then s.storeWeirState off 0x83 else (s.storeWeir off w).storeWeirState off 3
      (w.state = 0 → exec .wquiesce s0 = .next (({ s with weirs := FMap.insert s.weirs pa { w with state := 1 } }).finishCfg 0x11 0)) ∧
      (w.state = 1 → exec .wexport s0 = .next (({ (s.storeWeir off w).storeWeirState off 2 with weirs := FMap.insert s.weirs pa { w with state := 2 } }).finishCfg 0x12 0)) ∧
      exec .wclose s0 = .next (((w.heldOps ++ w.rateOps ++ w.waiters).foldl (fun (s : State) o => s.closedOp (decide (w.state = 2)) o)
        (({ stored with weirs := FMap.erase stored.weirs pa }).tellCommons w.commons pa [])).finishCfg 0x13 0) ∧
      (w.state < 2 → s.poisoned off 64 = false → weirFormatOk b = true →
        let tokens := if n.burst ≠ 0 then min w.tokens (n.burst * 0x10000) else w.tokens
        let w' : Weir := { w with refill := n.refill, burst := n.burst, acl := n.acl, commons := n.commons, tokens := tokens }
        exec .wreload s0 = .next (({ (s.tellCommons w.commons pa []).tellCommons n.commons pa n.acl with weirs := FMap.insert s.weirs pa w' }).finishCfg 0x14 0))))

end

section

/-- DELTA_BATCH_HANDOUT, BLOCK_PLACEMENT, BATCH_RETURN, STEAL_REQUEST, SPLIT_EXCHANGE, DEMOTION_TIMEOUT (R71, R123
to R134, R142, R144) and the switch of a partition's VF (R148 to R152, R156): SWITCH_TICK, SWITCH_DONE,
SWITCH_DEADLINE, SWITCH_IN. A die that is quiet saves the blocks of the outgoing VF that it holds, and keeps every other
block and group. The order of returned batches, and that a die steals no gang batch that its clusters cannot hold, are log
72; that a demotion that ends by time clears the count and the branch of R143 is log 64. -/
def Obligations.PlacementAndSwitchEvents : Prop :=
  let leaves := fun (s : State) (vf d : Nat) (b : Block) => b.saved = false ∧ dieOf b.core = d ∧ ∃ g, FMap.find s.grids b.grid = some g ∧ g.vf = vf
  (∀ (s : State) p vf b returned d, s.runningVf p = some vf → s.nextBatch vf = some (b, returned) → s.gangFits (s.part p).clusters (s.gangOf b) = true →
    s.chooseDie p vf b = some d → ∃ t, exec (.deltaBatchHandout p) s = .next t ∧ t.dieQueue p d = s.dieQueue p d ++ [b] ∧
      (∀ e, dieKey p e ≠ dieKey p d → t.dieQueue p e = s.dieQueue p e) ∧ t.groups = s.groups ∧ t.blocks = s.blocks ∧ t.ms = s.ms ∧
      (returned = true → t.place.delta = s.place.delta.erase b ∧ t.grids = s.grids) ∧
      (returned = false → t.place.delta = s.place.delta ∧ (FMap.find t.grids b.grid).map (fun g => g.nextBlock) = (FMap.find s.grids b.grid).map (fun g => g.nextBlock + b.blocks))) ∧
  (∀ (s : State) d p vf b g cores, s.runningVf p = some vf → s.placePending p d = false → (s.dieQueue p d).find? (s.batchOf vf) = some b →
    FMap.find s.grids b.grid = some g → s.gangFits (s.part p).clusters (max 1 g.hdr.gang) = true → s.gangFits (s.dieClusters p d) (max 1 g.hdr.gang) = true →
    (s.chosenCores p d vf b g.hdr = some cores → exec (.blockPlacement d p) s = .next (s.placeGang p d vf b g cores)) ∧
    (s.chosenCores p d vf b g.hdr = none → s.chooseCores p d g.hdr = some cores → s.assistOn p 1 = false →
      exec (.blockPlacement d p) s = .next (s.placeGang p d vf b g cores))) ∧
  (∀ (s : State) core q0 k lin (g : Grid) tv gid, s.blockSlots core q0 g.hdr.groups = [gid] →
    FMap.find (s.placeBlock core q0 k lin g tv).groups gid = some (entryGroup s.turn.nextId s.tick g.hdr lin 0 (s.residentSlot (s.vf g.vf).part gid) tv)) ∧
  (∀ (s : State) d p vf b, s.runningVf p = some vf → (s.dieQueue p d).find? (s.batchOf vf) = some b → s.gangFits (s.dieClusters p d) (s.gangOf b) = false →
    ∃ t, exec (.batchReturn d p) s = .next t ∧ t.dieQueue p d = (s.dieQueue p d).erase b ∧ t.place.delta = b :: s.place.delta ∧
      t.turn.agenda = (s.wakePlacement p).turn.agenda ∧ t.groups = s.groups ∧ t.ms = s.ms) ∧
  (∀ (s : State) d p vf v b, s.runningVf p = some vf → (s.dieQueue p d).any (s.batchOf vf) = false → ((s.dieCores p d).map s.coreFree).sum ≠ 0 →
    (s.otherDies p d).findSome? (fun e => match ((s.dieQueue p e).filter (s.batchOf vf)).getLast? with
      | some x => if 2 ≤ ((s.dieQueue p e).filter (s.batchOf vf)).length ∧ x.groups ≤ ((s.dieCores p d).map s.coreFree).sum ∧
          s.gangFits (s.dieClusters p d) (s.gangOf x) = true then some (e, x) else none
      | none => none) = some (v, b) →
    ∃ t, exec (.stealRequest d p) s = .next t ∧ t.dieQueue p d = s.dieQueue p d ++ [b] ∧ (dieKey p v ≠ dieKey p d → t.dieQueue p v = ((s.dieQueue p v).reverse.erase b).reverse) ∧
      t.groups = s.groups ∧ t.ms = s.ms) ∧
  (∀ (s : State) gid g sp r e y, FMap.find s.groups gid = some g → g.stack = sp :: r → g.table.all (fun q => decide (q.2.wait = .join)) = true →
    youngestAtJoin g.table = some (e, y) → exec (.splitExchange gid) s = .next (s.setGroup gid { g with table := FMap.insert g.table e sp, stack := y :: r })) ∧
  (∀ (s : State) gid g, FMap.find s.groups gid = some g → g.spin.demoted = true → g.spin.watchesNone = true → 1024 ≤ s.freeNow (hidOf gid) - g.spin.since →
    exec (.demotionTimeout gid) s = .next (s.setGroup gid { g with spin := .clear })) ∧
  (∀ (s : State) p l, (s.part p).tickHeld = true ∨ ((s.part p).period ≠ 0 ∧ s.tick % ((s.part p).period * 70000) = 0) → s.tickTarget p = some l →
    s.tickRefused p = false → s.assistOn p 4 = false → exec (.switchTick p) s = .next (s.beginSwitch p l)) ∧
  (∀ (s : State) p d w vf, (s.part p).switch = some w → s.outgoing p = some vf → w.restoring = false → d ∉ w.doneDies →
    (s.dieQuiet vf d = false → exec (.switchDone p d) s = .next (s.flushDie vf d)) ∧
    (s.dieQuiet vf d = true → (∀ q ∈ s.blocks, ¬ leaves s vf d q.2) → s.saveArea p (s.part p).running = none →
      exec (.switchDone p d) s = .next (s.dieDone p d w)) ∧
    (s.dieQuiet vf d = true → (∃ q ∈ s.blocks, leaves s vf d q.2) → s.saveArea p (s.part p).running = none →
      exec (.switchDone p d) s = .next (s.reportContexts vf [d])) ∧
    (∀ area, s.dieQuiet vf d = true → s.saveArea p (s.part p).running = some area → FMap.rising 0 s.blocks = true →
      let x := (s.dieDone p d w).part p
      ∃ t, exec (.switchDone p d) s = .next t ∧ (t.part p).running = x.running ∧ (t.part p).misses = x.misses ∧ (t.part p).switch = x.switch ∧ t.grids = s.grids ∧
        (∀ k b, FMap.find s.blocks k = some b → leaves s vf d b → (∃ b', FMap.find t.blocks k = some b' ∧ b'.saved = true ∧ b'.gids = b.gids ∧ b'.barP = b.barP) ∧
          ∀ j ∈ b.gids, FMap.find t.groups j = none ∧ ((FMap.find s.groups j).isSome = true → (FMap.find t.savedArea (savedKey vf j)).isSome = true)) ∧
        (∀ k b, FMap.find s.blocks k = some b → ¬ leaves s vf d b → FMap.find t.blocks k = some b) ∧
        (∀ j, (∀ q ∈ s.blocks, leaves s vf d q.2 → j ∉ q.2.gids) → FMap.find t.groups j = FMap.find s.groups j)) ∧
    (d ∈ s.partDies p → (∃ e, e ∈ s.partDies p ∧ e ≠ d ∧ e ∉ w.doneDies) →
      s.dieDone p d w = s.modPart p (fun x => { x with switch := some { w with doneDies := d :: w.doneDies } })) ∧
    (d ∈ s.partDies p → (∀ e, e ∈ s.partDies p → e = d ∨ e ∈ w.doneDies) →
      let t := s.dieDone p d w
      (t.part p).running = w.incoming ∧ (t.part p).misses = 0 ∧ (t.part p).switch = some { w with doneDies := d :: w.doneDies, restoring := true } ∧
      t.turn.agenda = s.turn.agenda ++ [.switchIn p])) ∧
  (∀ (s : State) p w, (s.part p).switch = some w → w.restoring = false → w.forced = false → w.since + 28000 ≤ s.tick →
    (2 ≤ (s.part p).misses → exec (.switchDeadline p) s = .next (s.modPart p (fun x => { x with switch := some { w with forced := true } }))) ∧
    (∀ vf, (s.part p).misses < 2 → (s.modPart p (fun x => { x with switch := none, misses := x.misses + 1 })).runningVf p = some vf →
      exec (.switchDeadline p) s = .next ((((s.modPart p (fun x => { x with switch := none, misses := x.misses + 1 })).resumeSaved p vf).retryEngines).wakePlacement p))) ∧
  (∀ (s : State) p w vf, (s.part p).switch = some w → w.restoring = true →
    let s1 := s.modPart p (fun y => { y with active := true, running := w.incoming, switch := none })
    s.vfByIndex p w.incoming = some vf → s.restoreToPost p vf = none → exec (.switchIn p) s = .next (((s1.restoreVf p vf).retryEngines).wakePlacement p))

end

section

/-- MILLRACE_PORT_FAILURE, MILLRACE_PATH_TIMEOUT, MILLRACE_PACKET_RX, FLUSH_MARKER, FLUSH_ANSWER, the Estuary's
packets, the answers of loads and atomics, and HOME_REQUEST with the ends of a host transaction (R30 to R35, R46, R79,
R93, R120, R209 to R217, R230, R231, R259, R260, R378, R388, R417, R418). How the kinds of requests are numbered is
log 67. -/
def Obligations.LinkAndResponseEvents : Prop :=
  (∀ (s : State) k, s.power = true → k < 32 → bitAt s.boot.portsUp k = true → ∃ t, exec (.millracePortFailure k) s = .next t ∧
    t.boot = { s.boot with portsUp := s.boot.portsUp - 2 ^ k } ∧ t.groups = s.groups ∧ t.ms = s.ms) ∧
  (∀ (s : State) pkg gid g, FMap.find s.groups gid = some g → s.unreachable (s.partOf gid) pkg = true → (∃ id, (pkg, id) ∈ g.links.flush) →
    (∀ q ∈ s.groups, s.unreachable (s.partOf q.1) pkg = true → ∀ op ∈ q.2.links.remote, ∀ r ∈ op.reqs, pkgOf r.pa ≠ pkg) →
    ∃ t, exec (.millracePathTimeout pkg) s = .next t ∧ OfGroup t gid (fun g' => g'.links.flush = g.links.flush.filter (fun q => decide (q.1 ≠ pkg)) ∧
      ∀ e sp, e < 16 → FMap.find g.table e = some sp → sp.wait = .flush → ∃ sp', FMap.find g'.table e = some sp' ∧ sp'.wait = .unreached pkg)) ∧
  (∀ (s : State) pkg gid g op c, (FMap.keys s.groups).filter (fun k => s.unreachable (s.partOf k) pkg) = [gid] → FMap.find s.groups gid = some g →
    g.status = .running → g.openLanes (~~~0#64) = 0#64 → g.links.flush = [] → g.links.remote = [op] → op.reqs.any (fun q => decide (pkgOf q.pa = pkg)) = true →
    (∀ k h v n, op.kind ≠ .weir k h v n) → op.bad = [] → op.aborts = [] → s.waiter gid op = some c → c.single = false →
    let m := op.reqs.foldl (fun m q => m ||| q.live c) 0#64
    m ≠ 0#64 → ∃ t, exec (.millracePathTimeout pkg) s = .next t ∧
      Trapped t gid (fun f => f.mask = m ∧ f.pc = c.split.pc ∧ (f.code = fUncorrectable ∨ f.code = fTranslation))) ∧
  (∀ (s : State) src vf rvf rgen ppid pa bytes, s.power = true → bytes ≠ [] → pkgOf pa = s.boot.pkg → pa < 2 ^ 51 →
    offOf pa / 4096 = (offOf pa + bytes.length - 1) / 4096 →
    let gen := (s.vf vf).gen
    let req := fun (kind : Nat) => (⟨src, kind, rvf, rgen⟩ : PeerRequest)
    let quiet := s.assistOn ((s.partOfPpid ppid).getD 0) 3 = false
    (∀ bad, s.admitPpid ppid (offOf pa) = true → quiet →
      ∃ t, exec (.millracePacketRx vf gen ppid (req 1) pa ⟨bytes, bad⟩) s = .next t ∧ t.ms.mem = putBytes s.ms.mem (offOf pa) bytes) ∧
    (∀ bad, s.admitPpid ppid (offOf pa) = true → quiet →
      ∃ t, exec (.millracePacketRx vf gen ppid (req 0) pa ⟨bytes, bad⟩) s = .next t ∧ t.ms.mem = s.ms.mem ∧
        t.turn.outbox.getLast? = some (.millraceAnswer src false (s.bytesAt (offOf pa) bytes.length) (s.poisoned (offOf pa) bytes.length) ⟨ppid, rvf, rgen⟩)) ∧
    (∀ bad kind, kind < 2 → s.admitPpid ppid (offOf pa) = false →
      exec (.millracePacketRx vf gen ppid (req kind) pa ⟨bytes, bad⟩) s = .next (s.send (.millraceAnswer src true [] false ⟨ppid, rvf, rgen⟩))) ∧
    (∀ g' kind bad, g' ≠ gen → exec (.millracePacketRx vf g' ppid (req kind) pa ⟨bytes, bad⟩) s = .next s)) ∧
  (∀ (s : State) m, s.power = true → exec (.flushMarker m) s = .next (s.send (.flushAnswer m))) ∧
  (∀ (s : State) gid pkg id vf gen g, gid < 2 ^ 30 → FMap.find s.groups gid = some g →
    let rest := g.links.flush.filter (fun q => decide (q ≠ (pkg, id)))
    (gen ≠ (s.vf vf).gen → exec (.flushAnswer gid ⟨pkg, id, vf, gen⟩) s = .next s) ∧
    (gen = (s.vf vf).gen → rest ≠ [] → exec (.flushAnswer gid ⟨pkg, id, vf, gen⟩) s =
      .next (s.setGroup gid { g with links := { g.links with flush := rest, stores := g.links.stores.filter (fun q => decide (q.2 ≠ (pkg, id))) } })) ∧
    (gen = (s.vf vf).gen → rest = [] → ∀ e sp, e < 16 → FMap.find g.table e = some sp → sp.wait = .flush →
      ∃ t, exec (.flushAnswer gid ⟨pkg, id, vf, gen⟩) s = .next t ∧ OfGroup t gid (fun g' => g'.links.flush = [] ∧ FMap.find g'.table e = some { sp with wait := .none }))) ∧
  (∀ (s : State) vf conn seq va bytes counter, s.power = true → (s.vf vf).assigned = true →
    let gen := (s.vf vf).gen
    let peer := s.peerGen vf conn
    let rod := (s.vf vf).rodState conn
    let head := fun (mode : Nat) (read : Option Nat) => (⟨conn, seq, mode, read⟩ : EstuaryHead)
    let rx := fun (h : EstuaryHead) => exec (.estuaryPacketRx vf gen h va bytes counter) s
    (∀ mode read, 1 < mode → rx (head mode read) = .next (s.send (.negAck vf conn peer))) ∧
    (∀ mode, mode = 0 ∨ mode = 1 ∧ seq = rod.next →
      (meetsPool va bytes.length = true → rx (head mode none) = .next ((s.send (.nack vf conn peer 2)).rodNext vf gen conn mode seq)) ∧
      (∀ s1 k, meetsPool va bytes.length = false → unitWriteRange (s.whoVf vf) va false bytes s = (.ok (), s1) → counter = some k →
        rx (head mode none) = .next ((s1.countUp vf k 0).rodNext vf gen conn mode seq)) ∧
      (∀ n, meetsPool va n = true → rx (head mode (some n)) = .next ((s.send (.nack vf conn peer 2)).rodNext vf gen conn mode seq)) ∧
      (∀ n s1 b bad, meetsPool va n = false → unitReadRange (s.whoVf vf) va n s = (.ok (b, bad), s1) → s1.vfs = s.vfs →
        rx (head mode (some n)) = .next ((s1.send (if bad then .nack vf conn peer 7 else .estuaryData vf conn peer seq b)).rodNext vf gen conn mode seq))) ∧
    (∀ read, seq < rod.next → rx (head 1 read) = .next s) ∧
    (∀ read, rod.next < seq → rod.held.any (fun h => decide (h.seq = seq)) = false →
      ∃ t, rx (head 1 read) = .next t ∧ t.ms = s.ms ∧ (t.vf vf).rodState conn = { rod with held := rod.held ++ [⟨seq, va, bytes, counter, read⟩] }) ∧
    (∀ g' mode read, g' ≠ gen → exec (.estuaryPacketRx vf g' (head mode read) va bytes counter) s = .next s)) ∧
  (∀ (s : State) conn vf port seq sent work first gen nak, s.power = true →
    (nak = true → gen ≠ (s.vf vf).gen → exec (.estuaryRetxTimeout conn vf port seq ⟨sent, work, first, gen⟩ nak) s = .next s) ∧
    (nak = false ∨ gen = (s.vf vf).gen → s.retxPosted (s.vf vf).part first = false →
      exec (.estuaryRetxTimeout conn vf port seq ⟨sent, work, first, gen⟩ nak) s = .next (s.send (.resend vf conn (s.peerGen vf conn) port seq)))) ∧
  (∀ (s : State) gid id op dst sg c data poison refused, s.remoteOp gid id = some op → data.length = op.reqs.length → op.kind = .load dst sg → s.waiter gid op = some c →
    let marks := (⟨poison, refused⟩ : AnswerFaults).spread op.reqs
    let m := (sameCopy [] (op.reqs.zip data)).foldl (loadAnswer c id op.word (BitVec.ofNat 8 dst) sg marks) ⟨s.dropRemote gid id, c.regs, [], [], [], []⟩
    liveBad c op.bad ++ m.bad = [] → liveAborts c op.aborts = [] →
    exec (.loadResponse gid id data ⟨poison, refused⟩) s = .next ((m.s.retire c { c with regs := m.regs } (c.split.pc + 4#64)).operationDone c.gid)) ∧
  (∀ (s : State) gid id op dst code et draws c data poison refused, s.remoteOp gid id = some op → data.length = op.reqs.length → op.kind = .atomic dst code et draws →
    s.waiter gid op = some c →
    let e : AtEnv := { op := atOpOf code, et := et, mode := c.regs.mode, shared := bitAt op.word.toNat 31, x := c.atX (atSize et) (BitVec.ofNat 8 dst),
                       nv := c.atNew (atSize et) (BitVec.ofNat 8 dst), ds := fun t => (FMap.find draws t).getD [] }
    let marks := (⟨poison, refused⟩ : AnswerFaults).spread op.reqs
    let m := (op.reqs.zip data).foldl (atomicAnswer c e op.word (BitVec.ofNat 8 dst) marks) ⟨s.dropRemote gid id, c.regs, [], [], [], []⟩
    liveBad c op.bad ++ m.bad = [] → liveAborts c op.aborts = [] →
    exec (.atomicResponse gid id data ⟨poison, refused⟩) s =
      .next (((m.s.acquireAnswer c).retire c { c with regs := m.regs } (c.split.pc + 4#64)).operationDone c.gid)) ∧
  (∀ (s : State) agent pa bytes, s.power = true → bytes ≠ [] → bytes.length ≤ 64 → pa / 64 = (pa + bytes.length - 1) / 64 → pa < 2 ^ 51 → pkgOf pa = s.boot.pkg → offOf pa < regBase →
    offOf pa < tierEnd → s.assistOn (s.stripe (offOf pa)) 3 = false →
    (closedStripe (s.stripe (offOf pa)) = true → ∀ kind u, kind < 2 → exec (.homeRequest agent false kind pa bytes u) s = .next (s.accessFault (hartOf agent) pa)) ∧
    (closedStripe (s.stripe (offOf pa)) = false → ∀ u, ∃ t, exec (.homeRequest agent false 1 pa bytes u) s = .next t ∧ t.ms.mem = putBytes s.ms.mem (offOf pa) bytes) ∧
    (closedStripe (s.stripe (offOf pa)) = false → s.poisoned (offOf pa) bytes.length = false → ∃ t, exec (.homeRequest agent false 0 pa bytes false) s = .next t ∧ t.ms.mem = s.ms.mem ∧
      t.groups = s.groups ∧ t.harts = s.harts ∧ t.turn.outbox.getLast? = some (.hostData agent (s.bytesAt (offOf pa) bytes.length)))) ∧
  (∀ (s : State) h, (s.hart h).depth ≠ 0 → ∀ (i : Instr) (code detail : Nat),
    i = .hostTxInterrupt h false ∧ code = 10 ∧ detail = 0 ∨ i = .hostTxInterrupt h true ∧ code = 10 ∧ detail = 1 ∨ i = .hostTxIllegal h ∧ code = 4 ∧ detail = 0 ∨
      (∃ k, i = .privateCacheEviction h k ∧ k ∈ (s.hart h).wsig ∧ 256 < (s.hart h).wsig.length) ∧ code = 2 ∧ detail = 0 →
    ∃ t, exec i s = .next t ∧ t.hart h = (s.hart h).abort code detail ∧ (t.hart h).depth = 0 ∧ (t.hart h).pc = (s.hart h).resume ∧
      t.tickets = s.tickets.filter (fun x => decide (x ≠ .hart h)) ∧ t.ms = s.ms)

end

section

/-- The events of the engines, of collectives, of Estuary's work and of tier moves (R180, R199, R246, R410, R416 to R421,
R424, R425). A command's end is a chain of releases: its writes, its status, its signal, each once those before it have been
performed. How a command pauses and goes on is the model's (log 21), and so is what a chain's entry reads (log 65); that a move
whose range has no tier entry ends with status 1 is log 46. -/
def Obligations.EngineAndUnitEvents : Prop :=
  (∀ (s : State) core gather q, (List.range 64).findSome? (fun i =>
      let gid := core * 64 + (FMap.getD (s.core core).served 63 (if gather then 1 else 0) + 1 + i) % 64
      if s.streamsStop gid then none else startable (s.core core).queue gid (if gather then 1 else 0)) = some q →
    ∃ t, exec (.engineCommandStart core gather) s = .next t ∧ t.ms = s.ms ∧ t.groups = s.groups ∧
      (∀ x, x ∈ (t.core core).queue ↔ ∃ y, y ∈ (s.core core).queue ∧ x = if y.id = q.id then { y with started := true } else y) ∧
      t.turn.agenda = s.turn.agenda ++ [if q.sub = 5 then .chainEntryStart core q.id else .engineCommandComplete core q.id]) ∧
  (∀ (s : State) core id q, s.command core id = some q → q.started = true → q.stopped = false → s.streamsStop q.gid = false → q.sub ≠ 5 →
    let r := runStream ⟨q.gid, id, q.sub, q.words, ⟨q.cvmode, q.mode⟩, q.base, q.ent1, q.ent2, q.wrote, q.far, q.taint⟩ q.cpos s
    let q1 : EngCmd := { q with cpos := r.c, spos := r.c, oor := q.oor + r.oor, wrote := r.wrote, far := r.far, wroteTo := (q.wroteTo ++ r.wroteTo).eraseDups,
                                ended := if r.stop.isNone then some 0 else none }
    (∀ code, q.ended = some code → exec (.engineCommandComplete core id) s = .next (s.finishCommand q code)) ∧
    (q.ended = none → r.stop = none → exec (.engineCommandComplete core id) s = .next ((r.s.modCommand core id (fun _ => q1)).finishCommand q1 0)) ∧
    (∀ f, q.ended = none → r.stop = some (.fault f) →
      exec (.engineCommandComplete core id) s = .next ((r.s.modCommand core id (fun _ => q1)).stopCommand q1 r.c r.total f))) ∧
  (∀ (s s1 : State) q code, q.sub ≠ 5 →
    let b := pairAt q.words 4
    let done := fun (x : EngCmd) => { x with words := (x.words.set 4 0#32).set 5 0#32, posted := false }
    (q.wroteTo ≠ [] → s.finishCommand q code = s.flushCommand (s.vfOf q.gid) q) ∧
    (q.wroteTo = [] → q.marks ≠ [] → s.finishCommand q code = s) ∧
    (q.wroteTo = [] → q.marks = [] → b = 0 → s.finishCommand q code = (s.removeCommand (coreOf q.gid) q.id).afterCommand q.gid) ∧
    (∀ l, q.wroteTo = [] → q.marks = [] → b ≠ 0 → q.posted = false → engStore q (b + 8) (statusWord q.version q.oor code) s = (.ok l, s1) →
      s.finishCommand q code = (s1.modCommand (coreOf q.gid) q.id (fun x => { x with posted := true, wroteTo := l })).schedule (.engineCommandComplete (coreOf q.gid) q.id)) ∧
    (q.wroteTo = [] → q.marks = [] → b ≠ 0 → q.posted = true → engCount q b s = (.ok (), s1) →
      s.finishCommand q code = ((s1.modCommand (coreOf q.gid) q.id done).removeCommand (coreOf q.gid) q.id).afterCommand q.gid)) ∧
  (∀ (s : State) core id q g f e sp r, s.command core id = some q → FMap.find s.groups q.gid = some g → g.status = .running → g.engFaults = f :: r → g.nextEntry = some (e, sp) →
    exec (.engineFault core id) s = .next ((s.setGroup q.gid { g with engFaults := r }).trapGroup q.gid { f with pc := sp.pc, pfx := sp.pfx, entry := e })) ∧
  (∀ (s s0 s1 s2 : State) core id q b p i, s.command core id = some q → q.sub = 5 → q.started = true → q.stopped = false → s.streamsStop q.gid = false → q.runningEntry = false → q.k < q.tc →
    engRequest q (chainSectors q s) s = (true, s0) → coreRead q.gid q.entryAddr 64 s0 = (.ok (b, p), s1) → chainEntryOk (engineOf 5 q.words) b = none →
    let w := (List.range 8).map (fun k => BitVec.ofNat 32 (leField b (4 * k) 4))
    enqCheck true q.gid (leField b 0x20 1) w s1 = (.ok i, s2) →
    exec (.chainEntryStart core id) s = .next ((s2.modCommand core id (fun x => { x with
      entrySub := leField b 0x20 1, entryWords := w, nextAddr := leField b 0x28 8, runningEntry := true, version := i.version, base := i.base, ent1 := i.ent1, ent2 := i.ent2,
      cpos := 0, spos := 0, oor := 0, ended := none, posted := false, wrote := [], far := [], taint := p || i.taint })).schedule (.engineCommandComplete core id))) ∧
  (∀ (s : State) core id q, s.command core id = some q → s.streamsStop q.gid = true → exec (.engineCommandComplete core id) s = .next s ∧
    exec (.chainEntryStart core id) s = .next s) ∧
  (∀ (s s1 : State) core id q, s.command core id = some q → q.sub = 4 → q.held = false → firstOfKind (s.core core).queue q = true →
    ∀ f, unitReadWords (s.whoVf (s.vfOf q.gid)) (pairAt q.words 6) 2 s = (.error (.fault f), s1) →
    exec (.collAccept core id) s = .next ((((s1.removeCommand core id).afterCommand q.gid).serveNext q.gid 4).countUp (s.vfOf q.gid) (field (wordOf q.words 0) 24 8) 5)) ∧
  (∀ (s s1 s2 : State) core id q h b, s.command core id = some q → q.sub = 4 → q.held = false → firstOfKind (s.core core).queue q = true →
    let w0 := wordOf q.words 0
    let n := leField h 0 4
    let ranks := (List.range n).map (fun i => leField b (8 * i) 8)
    let c : Collective := ⟨q.id, s.vfOf q.gid, field w0 0 4, field w0 4 4, field w0 8 12, field w0 24 8, wordOf q.words 1, pairAt q.words 2, pairAt q.words 4, ranks, leField h 4 4, leField h 8 4, none, none⟩
    unitReadWords (s.whoVf (s.vfOf q.gid)) (pairAt q.words 6) 2 s = (.ok (h, false), s1) →
    meetsPool (pairAt q.words 6) (16 + 8 * min n 4096) = false → meetsPool c.src (c.sizes n).1 = false → meetsPool c.dst (c.sizes n).2 = false →
    2 ≤ n → n ≤ 4096 → leField h 4 4 < n → leField h 12 4 = 0 →
    unitReadWords (s1.whoVf (s.vfOf q.gid)) (pairAt q.words 6 + 16) n s1 = (.ok (b, false), s2) → ranks.all partWordOk = true →
    exec (.collAccept core id) s = .next ((((({ s2 with colls := s2.colls ++ [c] }).removeCommand core id).afterCommand q.gid).serveNext q.gid 4).schedule (.collComplete id 0 []))) ∧
  (∀ (s : State) id c st bytes, s.colls.find? (fun c => decide (c.id = id)) = some c → c.ended = none → s.stalePart c = true → exec (.collComplete id st bytes) s = .next (s.endColl c 1)) ∧
  (∀ (s : State) id c st bytes, s.colls.find? (fun c => decide (c.id = id)) = some c → c.ended = none → s.stalePart c = false → s.allLocal c = true →
    let ps := (List.range c.ranks.length).map (fun i => s.partner c i)
    ps.all Option.isSome = true → (ps.filterMap (fun x => x)).all (collsAgree c) = true →
    ∀ s1, probeColls true (ps.filterMap (fun x => x)) s = (none, s1) → exec (.collComplete id st bytes) s = .next (s1.performColl (ps.filterMap (fun x => x)))) ∧
  (∀ (s : State) id c st bytes, s.colls.find? (fun c => decide (c.id = id)) = some c → c.ended = none → s.stalePart c = false → s.allLocal c = false →
    (st ≠ 0 → st ≠ 7 → exec (.collComplete id st bytes) s = .next (s.endColl c st)) ∧
    (∀ s1 b w n, st = 0 ∨ st = 7 → c.part = none → w = s.whoVf c.vf → n = (if c.readsSource then (c.sizes c.ranks.length).1 else 0) →
      unitProbe w 1 c.src n s = (none, s1) → (readFlagged w (sectorPieces (n / 32 + 2) c.src n) s1).1 = .ok b →
      ∃ t, exec (.collComplete id st bytes) s = .next t ∧ t.turn.outbox.getLast? = some (.collPart c.vf c.tag c.own (some b)))) ∧
  (∀ (s : State) core id q st, s.command core id = some q → q.sub = 6 → q.held = false → firstOfKind (s.core core).queue q = true → s.npostRefusal (s.vfOf q.gid) q.words = some st →
    exec (.npostAccept core id) s = .next ((((s.removeCommand core id).afterCommand q.gid).serveNext q.gid 6).countUp (s.vfOf q.gid) (field (wordOf q.words 0) 24 8) st)) ∧
  (∀ (s : State) core id q, s.command core id = some q → q.sub = 6 → q.held = false → firstOfKind (s.core core).queue q = true → s.npostRefusal (s.vfOf q.gid) q.words = none →
    let op := field (wordOf q.words 0) 0 4
    let work : NetWork := ⟨q.id, s.vfOf q.gid, op, field (wordOf q.words 0) 24 8, wordOf q.words 1, pairAt q.words 2, pairAt q.words 4, field (wordOf q.words 6) 0 16,
      if bitAt (wordOf q.words 0) 16 then some (field (wordOf q.words 0) 8 8) else none, field (wordOf q.words 0) 4 4⟩
    let gen := (FMap.getD (s.vf work.vf).conns (0, 0) work.conn).2
    let posts := fun (b : List Byte) (s : State) =>
      State.send { (((s.removeCommand core id).afterCommand q.gid).serveNext q.gid 6) with works := s.works ++ [work] } (.estuary gen work b)
    (op = 1 → exec (.npostAccept core id) s = .next (posts [] s)) ∧
    (∀ s1 b, op ≠ 1 → unitReadRange (s.whoVf work.vf) work.laddr work.len s = (.ok (b, false), s1) → exec (.npostAccept core id) s = .next (posts b s1))) ∧
  (∀ (s : State) id st bytes w, s.works.find? (fun w => decide (w.id = id)) = some w →
    let done := fun (s : State) => ({ s with works := s.works.filter (fun x => decide (x.id ≠ id)) } : State)
    (st ≠ 0 ∨ w.op ≠ 1 → exec (.estuaryWorkComplete id st bytes) s = .next ((done s).countUp w.vf w.counter (st % 256))) ∧
    (∀ s1, st = 0 → w.op = 1 → unitWriteRange (s.whoVf w.vf) w.laddr false (bytes.take w.len) s = (.ok (), s1) →
      exec (.estuaryWorkComplete id st bytes) s = .next ((done s1).countUp w.vf w.counter 0)) ∧
    (∀ s1 f, st = 0 → w.op = 1 → unitWriteRange (s.whoVf w.vf) w.laddr false (bytes.take w.len) s = (.error (.fault f), s1) →
      exec (.estuaryWorkComplete id st bytes) s = .next ((done s1).countUp w.vf w.counter 5))) ∧
  (∀ (s s0 s1 : State) m rest st, s.moves = m :: rest → m.written = none → m.status = none → s.moveRange m = (.ok st, s0) →
    unitWrite (s.whoVf m.vf) (m.bobj + 8) (bytesLE 8 st) { s0 with moves := { m with status := some st } :: rest } = (.ok (), s1) →
    let m1 : TierMove := { m with status := some st, written := some (s1.moveWrote m) }
    exec .tierMoveComplete s = .next (State.moveSignal { s1 with moves := m1 :: rest } m1 rest)) ∧
  (∀ (s : State) m rest p l, s.moves = m :: rest → m.written = some (p :: l) → ∃ t, exec .tierMoveComplete s = .next t ∧ t.ms = s.ms ∧
    t.moves = { m with written := some [], flush := (s.sendMarkers m.vf (moveSender m.id) (p :: l)).1 } :: rest) ∧
  (∀ (s s1 : State) m rest, s.moves = m :: rest → m.written = some [] →
    (m.flush ≠ [] → exec .tierMoveComplete s = .next s) ∧
    (m.flush = [] → unitSignal (s.whoVf m.vf) m.bobj 1 s = (.ok (), s1) → exec .tierMoveComplete s = .next (({ s1 with moves := rest }).schedule .tierMoveComplete))) ∧
  (∀ (s : State) m, (s.moveEntry m).1 = .ok none → (s.moveRange m).1 = .ok 1) ∧
  (∀ (s s1 : State) m x, s.moveEntry m = (.ok (some x), s1) → (if bitAt x.w0 5 then 1 else 0) = m.target → s.moveRange m = (.ok 0, s1))

/-- SLP_WAKE, YLD_EXPIRE, BOW_REREAD (R404, R469), BANDWIDTH_REFILL (R106), WEIR_REQUEST and WEIR_REFILL (R110 to
R112), ASSIST_DONE (R80), SLUICE_TURN and FALLBACK_LOCK_GRANT (R218, R224 to R226, R230), and a reserved word (R318). A
group's turn validates its lanes in ascending order against memory, performs the writes of those that pass, and aborts the
others with CONFLICT; the grant of the lock aborts every open transaction of the partition and of the hosts. -/
def Obligations.SchedulerAndHomeEvents : Prop :=
  (∀ (s : State) gid e g c d, FMap.find s.groups gid = some g → s.ctxOf (some (.split gid e)) = some c → c.split.wait = .sleep d →
    (g.status = .running → d ≤ s.tick → exec (.slpWake gid e) s = .next (s.retire c c (c.split.pc + 4#64))) ∧
    (g.status ≠ .running → exec (.slpWake gid e) s = .next s)) ∧
  (∀ (s : State) gid g d, FMap.find s.groups gid = some g → g.yieldDue = some d → g.yieldSet = [] ∨ d ≤ s.freeNow (hidOf gid) →
    exec (.yldExpire gid) s = .next (s.setGroup gid { g with yieldSet := [], yieldDue := none })) ∧
  (∀ (s s1 : State) gid e g c line due w off pol, FMap.find s.groups gid = some g → g.status = .running → s.switching gid = false →
    s.ctxOf (some (.split gid e)) = some c → c.split.wait = .bow line due w →
    let va := (c.regs.read64 c.xi c.lane (w.extractLsb' 8 8)).toNat
    let v := (c.regs.read64 c.xi c.lane (w.extractLsb' 0 8)).toNat
    va % 8 = 0 → inPool va = false → s.reach c c.lane va 8 .load = (.ok (.own off pol), s1) → containWait c 8 [.own off pol] s1 = none → s1.poisoned off 8 = false →
    (s1.wordAt off 8 < v → exec (.bowReread gid e) s = .next ((s1.noteRead off 8).stay c c (.bow (off / 256) (s1.tick + 1400) w))) ∧
    (v ≤ s1.wordAt off 8 → exec (.bowReread gid e) s = .next ((((s1.noteRead off 8).dropL1 (coreOf c.gid)).dropDenials ((s1.noteRead off 8).whoOf c.gid)).retire c
      (c.put64 (w.extractLsb' 16 8) (BitVec.ofNat 64 (s1.wordAt off 8))) (c.split.pc + 4#64)))) ∧
  (∀ s : State, s.tick % 700 = 0 → exec .bandwidthRefill s =
    .next (((s.vfs.filter (fun q => q.2.assigned && (s.bandwidth q.1).en)).map (fun q => q.1)).foldl
      (fun s vf => (List.range 4).foldl (fun s d => s.refillBucket vf d) s) s).retryEngines) ∧
  (∀ (s : State) vf d, (s.refillBucket vf d).tokens vf d = min (s.tokens vf d + (s.bandwidth vf).rate) (s.bandwidth vf).size) ∧
  (∀ (s s1 : State) gid e k h v g sp key w, FMap.find s.groups gid = some g → FMap.find g.table e = some sp → sp.wait.isWeir = true →
    findWeir (s.partOf gid) (s.vfOf gid) (dieOf (coreOf gid)) h k 2 s = (.at key w, s1) →
    let o : WeirOp := ⟨gid, e, k, h, v, (s.part (s.partOf gid)).ppid, none⟩
    (w.state = 0 → exec (.weirRequest gid e k h v) s = .next (s1.weirPerform key w o)) ∧
    (w.state ≠ 0 → exec (.weirRequest gid e k h v) s = .next { s1 with weirs := FMap.insert s1.weirs key { w with heldOps := w.heldOps ++ [o] } })) ∧
  (∀ (s : State) key w o, (FMap.find (s.weirSignal key w o).weirs key).map (fun x => (x.count, x.tokens)) =
    some ((w.count + o.value) % 2 ^ 64, if w.burst ≠ 0 then w.tokens - 0x10000 else w.tokens)) ∧
  (∀ s : State, s.tick % 700 = 0 → exec .weirRefill s = .next ((FMap.keys s.weirs).foldl (fun s k => s.refillWeir k) s)) ∧
  (∀ (s : State) key w, FMap.find s.weirs key = some w → w.state = 0 → w.rateOps = [] → w.burst ≠ 0 →
    s.refillWeir key = { s with weirs := FMap.insert s.weirs key { w with tokens := min (w.tokens + w.refill) (w.burst * 0x10000) } }) ∧
  (∀ (s : State) p slot r b, FMap.find (s.part p).assist slot = some r → slot < 64 → s.assistSlot p slot = some b →
    exec (.assistDone p slot) s = .next (((s.modPart p (fun x => { x with assist := FMap.erase x.assist slot })).applyAnswer p slot r b).slotFreed)) ∧
  (∀ (s : State) gid e lanes r, s.tickets = .group gid e lanes :: r → exec .sluiceTurn s = .next (({ s with tickets := r }).groupTurn gid e lanes)) ∧
  (∀ (s : State) gid e g sp (lanes : BitVec 64), FMap.find s.groups gid = some g → FMap.find g.table e = some sp → sp.wait = .ticket → g.status = .running →
    (∀ k, k < 64 → lanes.getLsbD k = true → sp.mask.getLsbD k = true ∧ (g.lane k).depth = 1 ∧ (g.lane k).home.getD s.boot.pkg = s.boot.pkg ∧
      (∀ b ∈ (g.lane k).wbuf, pkgOf b.1 = s.boot.pkg)) → (∀ k, k < 64 → sp.mask.getLsbD k = true → (g.lane k).irrev = false) →
    let clean := ∀ k, lanes.getLsbD k = true → ∀ b ∈ (g.lane k).rlog, s.poisoned (offOf b.1) 1 = false
    let q := commits g.lane (threadsOf lanes) s.ms.mem
    let t := s.groupTurn gid e lanes
    let fails := fun (k code detail : Nat) => OfGroup t gid (fun g' => Aborted (g'.lane k) code detail (min 255 ((g.lane k).retries + 1)))
    (clean → t.ms.mem = q.1 ∧ (q.2 ≠ [] → (t.core (coreOf gid)).l1 = []) ∧
      (∀ k, k < 64 → lanes.getLsbD k = true → (k ∈ q.2 → OfGroup t gid (fun g' => Aborted (g'.lane k) 0 0 0)) ∧ (k ∉ q.2 → fails k xConflict 0)) ∧
      (q.2 = threadsOf lanes → pcOf t (.split gid e) = some (sp.pc + 4#64) ∧ waitOf t gid e = some .none)) ∧
    (∀ k, threadsOf lanes = [k] → (∃ b ∈ (g.lane k).rlog, s.poisoned (offOf b.1) 1 = true) → t.ms.mem = s.ms.mem ∧ fails k xFault fUncorrectable)) ∧
  (∀ (s : State) h r, s.tickets = .hart h :: r → (s.hart h).depth ≠ 0 → (s.hart h).ticket = true → ∃ t, exec .sluiceTurn s = .next t ∧
    (t.hart h).depth = 0 ∧ (t.hart h).pc = (s.hart h).pc + 4#64 ∧ (t.hart h).x = (s.hart h).x ∧
    t.ms.mem = (s.hart h).buf.foldl (fun m b => putBytes m b.1 [b.2]) s.ms.mem) ∧
  (∀ (s : State) p gid t r, (s.part p).lockHolder = none → (s.part p).lockQueue = (gid, t) :: r → ∃ t', exec (.fallbackLockGrant p) s = .next t' ∧
    (t'.part p).lockHolder = some (gid, t) ∧ (t'.part p).lockQueue = r ∧ KeepsMs s t' ∧ (∀ h, (t'.hart h).depth = 0) ∧
    ∀ j g, FMap.find s.groups j = some g → s.partOf j = p → ∀ k, k < 64 → (g.openLanes (~~~0#64)).getLsbD k = true →
      OfGroup t' j (fun g' => Aborted (g'.lane k) xFallback 0 (g.lane k).retries)) ∧
  (∀ (s : State) c w, s.ctx = some c → exec (.reservedOpcode w) s = .next (s.raise c c w (.plain 0x01 c.split.mask)))

end

section

/-- R229, R302 to R304, R307, R316 to R318, R365, R385: words written out from the tables are the instructions that
they stand for, and words that the tables do not allow are none. -/
def Obligations.DecodeKnownWords : Prop :=
  decodeDevice 0#24 0x10050607#32 = .ok (.iadd false 5#8 6#8 7#8) ∧ decodeDevice 0#24 0x90050607#32 = .ok (.iadd true 5#8 6#8 7#8) ∧
  decodeDevice 0#24 0x01ABCDEF#32 = .ok (.ext 0xABCDEF#24) ∧ decodeDevice 0#24 0x0612FFFE#32 = .ok (.brc false 0x12#8 0xFFFE#16) ∧
  decodeDevice 0#24 0x2C040506#32 = .ok (.popc false 4#8 5#8) ∧ decodeDevice 0#24 0x3F04050A#32 = .ok (.fsqrt false 4#8 5#8) ∧
  decodeDevice 0#24 0x40040513#32 = .error .fieldValue ∧ decodeDevice 0#24 0x40040515#32 = .ok (.cvti false 4#8 5#8 5#4) ∧
  decodeDevice 0#24 0x47040506#32 = .ok (.pscan false 4#8 5#8) ∧ decodeDevice 0#24 0x4A080A0C#32 = .ok (.ldw false 8#8 10#8 12#8) ∧
  decodeDevice 0x700000#24 0x53080A0C#32 = .ok (.atCas false 8#8 10#8 12#8) ∧ decodeDevice 0xB00000#24 0x53080A0C#32 = .error .reservedAt ∧
  decodeDevice 0#24 0x60000801#32 = .ok (.gthr false 0#3 8#8) ∧ decodeDevice 0#24 0x6E040500#32 = .ok (.wqry 4#8 5#8) ∧
  decodeDevice 0#24 0x70000000#32 = .ok .entg ∧ decodeDevice 0#24 0x7800002A#32 = .ok (.trap 42#24) ∧ decodeDevice 0#24 0x79040001#32 = .ok (.srd 4#8 1#16) ∧
  decodeDevice 0#24 0x7B000000#32 = .ok .rett ∧ decodeDevice 0#24 0x07000001#32 = .error .zeroField ∧ decodeDevice 0#24 0x80000000#32 = .error .uniformMark ∧
  decodeDevice 0#24 0x0C000000#32 = .error .reservedOpcode ∧ decodeDevice 0#24 0x2C040508#32 = .error .reservedSub ∧
  decodeHost 0x0000028B#32 = some (.txOpen 5#5) ∧ decodeHost 0x0000100B#32 = some .txClose ∧ decodeHost 0x0002A00B#32 = some (.txDrop 5#5)

/-- R302 to R304, R307, R316, R317, R229: the word of every well-formed instruction, with every operand at every value
that the encoding admits, decodes to that instruction; and a word that decodes to an instruction is its word, so
that each word has one meaning. -/
def Obligations.DecodeOfEncode : Prop :=
  (∀ (i : Instr) (w : BitVec 32), i.wellFormed = true → encode i = some w →
    if (fieldsOfInstr i).isSome then decodeDevice (selectExtv i) w = .ok i else decodeHost w = some i) ∧
  (∀ (extv : BitVec 24) (w : BitVec 32) (i : Instr), decodeDevice extv w = .ok i → encode i = some w ∧ i.wellFormed = true) ∧
  (∀ (w : BitVec 32) (i : Instr), decodeHost w = some i → encode i = some w)

/-- R9, R46, R211, R229, R270, R318, R319, R341: a step of a powered package takes the boot ROM on where it has an image to look
at; else it runs the first event that is due; else the host word of the hart that has the turn; else, once time has passed, the instruction that the word at the pc of
the issuer decodes to; a word that is no instruction raises ILLEGAL_OP; and a step of a package without power is
POWER_GOOD. The model's own choices here: time passes between issues (log 2), events that are due go before an issue (log 3),
a hart has its turn by an event (log 4) and its pc is a physical address (log 12), a step without power is POWER_GOOD (log 7),
the boot ROM goes on by itself (log 66). -/
def Obligations.StepRunsDecodedInstruction : Prop :=
  (∀ s : State, s.power = false → step s = exec .powerGood s) ∧
  (∀ s : State, s.power = true → s.boot.romDue = true → step s = .next s.romStep) ∧
  (∀ (s : State) i r, s.power = true → s.boot.romDue = false → s.turn.agenda = i :: r → step s = exec i { s with turn := { s.turn with cur := some (.unit i), agenda := r } }) ∧
  (∀ s : State, s.power = true → s.boot.romDue = false → s.turn.agenda = [] → s.turn.hostTurn = none → s.turn.ticked = false → step s = .next s.advance) ∧
  (∀ (s s1 : State) hid who c w, s.power = true → s.boot.romDue = false → s.turn.agenda = [] → s.turn.hostTurn = none → s.turn.ticked = true → s.nextIssuer = some (hid, who) →
    (s.startIssue hid who).ctx = some c → (s.startIssue hid who).fetch c = (.word w, s1) →
    (∀ i, decodeDevice c.extv w = .ok i → step s = exec i s1) ∧
    (∀ e, decodeDevice c.extv w = .error e → (e = .reservedOpcode ∨ e = .reservedSub ∨ e = .reservedAt → step s = exec (.reservedOpcode w) s1) ∧
      (e = .uniformMark ∨ e = .zeroField ∨ e = .fieldValue → step s = raiseIllegalWord w s1))) ∧
  (∀ (s : State) hid who c r s1, s.power = true → s.boot.romDue = false → s.turn.agenda = [] → s.turn.hostTurn = none → s.turn.ticked = true → s.nextIssuer = some (hid, who) →
    (s.startIssue hid who).ctx = some c → (s.startIssue hid who).fetch c = (.fault r, s1) → step s = .next (s1.raise c c 0#32 r)) ∧
  (∀ (s s1 : State) (c : Ctx) off pol, c.split.pc.toNat < 2 ^ 48 → inPool c.split.pc.toNat = false → c.split.pc.toNat % 4 = 0 →
    resolve (s.whoOf c.gid) c.split.pc.toNat 4 s = (.ok (.own off, pol), s1) → s1.toPost (s.whoOf c.gid).part off 4 = none → s1.poisoned off 4 = false →
    s.fetch c = (.word (BitVec.ofNat 32 (s1.wordAt off 4)), s1.readHome (s.whoOf c.gid).part off 4)) ∧
  (∀ (s : State) (c : Ctx), c.split.pc.toNat < 2 ^ 48 → inPool c.split.pc.toNat = false → c.split.pc.toNat % 4 ≠ 0 →
    ∃ s1, s.fetch c = (.fault { FaultReq.plain 0x03 c.split.mask with addr := c.split.pc, fetch := true }, s1)) ∧
  (∀ (s : State) h, s.power = true → s.boot.romDue = false → s.turn.agenda = [] → s.turn.hostTurn = some h →
    let pc := (s.hart h).pc.toNat
    let off := offOf pc
    pc < 2 ^ 51 → pkgOf pc = s.boot.pkg → off + 4 ≤ tierEnd → closedStripe (s.stripe off) = false → s.poisoned off 4 = false →
    ∀ i, decodeHost (BitVec.ofNat 32 (s.wordAt off 4)) = some i →
      step s = exec i (({ s with turn := { s.turn with cur := some (.hart h), hostTurn := none } } : State).hostCopy off false))

/-- R9: every instruction answers a next state: a device instruction wherever a split or a handler issues, a host word
wherever a hart does, an event in every state. -/
def Obligations.EveryInstructionAnswers : Prop :=
  (∀ (i : Instr) (s : State), (fieldsOfInstr i).isSome = true → s.ctx.isSome = true → Completes (exec i s)) ∧
  (∀ (i : Instr) (s : State) h, (fieldsOfInstr i).isSome = false → i.isEvent = false → s.turn.cur = some (.hart h) → Completes (exec i s)) ∧
  (∀ (i : Instr) (s : State), i.isEvent = true → (∀ w, i ≠ .reservedOpcode w) → Completes (exec i s))

/-- R46, R50, R57, R60, R84, R86, R89, R209: the package right after POWER_GOOD. Values that no rule gives are the
model's: the stripe table's 0xFF is log 6's, the others are log 7's. -/
def Obligations.ResetState : Prop :=
  let s := State.reset
  s.power = true ∧ s.boot.status = 0 ∧ s.groups = [] ∧ s.handlers = [] ∧ s.blocks = [] ∧ s.grids = [] ∧ Memory.wf s.ms.mem = true ∧
  (∀ off, s.ms.poison = [] ∧ s.poisoned off 32 = false) ∧ (∀ off, off < tierEnd → s.stripe off = 0xFF) ∧
  (∀ n, (s.vf n).assigned = false ∧ (s.vf n).en = false ∧ (s.vf n).stopped = false ∧ (s.vf n).lqtail = 0 ∧ (s.vf n).lqhead = 0 ∧ (s.vf n).gen = 0) ∧
  (∀ p, (s.part p).live = false ∧ (s.part p).pclus = 0 ∧ (s.part p).l2q = 0 ∧ (s.part p).period = 10) ∧ s.cfg.busy = false ∧
  (∀ k, s.corePresent k = false)

/-- R2, R17: every step keeps memory in its canonical form: addresses strictly rising, no entry equal to what an
unlisted address reads as (log 5). -/
def Obligations.StepKeepsMemoryCanonical : Prop :=
  ∀ (s t : State), Memory.wf s.ms.mem = true → step s = .next t → Memory.wf t.ms.mem = true

end
end
end

