-- ==== Sys2Proof/Laws/FMap.lean ====
section
/-! SUPPORT. Sparse maps: read after write, and that every operation keeps the canonical form. -/

namespace Sys2Proof.Machine

variable {α : Type}

@[simp] theorem FMap.find_nil (k : Nat) : FMap.find ([] : FMap α) k = none := rfl

@[simp] theorem FMap.find_insert_same (m : FMap α) (k : Nat) (v : α) : FMap.find (FMap.insert m k v) k = some v := by
  induction m with
  | nil => simp [FMap.insert, FMap.find]
  | cons q r ih =>
    obtain ⟨j, w⟩ := q
    simp only [FMap.insert]
    split
    · simp [FMap.find]
    · split
      · simp [FMap.find]
      · rename_i h1 h2
        simp [FMap.find, Ne.symm h2, ih]

theorem FMap.find_insert_other (m : FMap α) {k j : Nat} (h : k ≠ j) (v : α) : FMap.find (FMap.insert m k v) j = FMap.find m j := by
  induction m with
  | nil => simp [FMap.insert, FMap.find, h]
  | cons q r ih =>
    obtain ⟨i, w⟩ := q
    simp only [FMap.insert]
    split
    · simp [FMap.find, h]
    · split
      · rename_i h1 h2
        subst h2
        simp [FMap.find, h]
      · simp [FMap.find, ih]

@[simp] theorem FMap.find_erase_same (m : FMap α) (k : Nat) : FMap.find (FMap.erase m k) k = none := by
  induction m with
  | nil => rfl
  | cons q r ih =>
    obtain ⟨i, w⟩ := q
    simp only [FMap.erase]
    split
    · exact ih
    · rename_i h
      simp [FMap.find, h, ih]

theorem FMap.find_erase_other (m : FMap α) {k j : Nat} (h : k ≠ j) : FMap.find (FMap.erase m k) j = FMap.find m j := by
  induction m with
  | nil => rfl
  | cons q r ih =>
    obtain ⟨i, w⟩ := q
    simp only [FMap.erase]
    split
    · rename_i h1
      subst h1
      simp [FMap.find, h, ih]
    · simp [FMap.find, ih]

/-- A read after a write to the same key gives the value written. -/
@[simp] theorem FMap.getD_setD_same [DecidableEq α] (m : FMap α) (d : α) (k : Nat) (v : α) : FMap.getD (FMap.setD m d k v) d k = v := by
  unfold FMap.getD FMap.setD
  split
  · rename_i h
    simp [h]
  · simp

/-- A write leaves every other key alone. -/
theorem FMap.getD_setD_other [DecidableEq α] (m : FMap α) (d : α) {k j : Nat} (h : k ≠ j) (v : α) :
    FMap.getD (FMap.setD m d k v) d j = FMap.getD m d j := by
  unfold FMap.getD FMap.setD
  split
  · rw [FMap.find_erase_other m h]
  · rw [FMap.find_insert_other m h]

theorem FMap.getD_setD [DecidableEq α] (m : FMap α) (d : α) (k j : Nat) (v : α) :
    FMap.getD (FMap.setD m d k v) d j = if k = j then v else FMap.getD m d j := by
  split
  · rename_i h
    subst h
    simp
  · rename_i h
    exact FMap.getD_setD_other m d h v

theorem FMap.rising_mono (m : FMap α) {a b : Nat} (h : a ≤ b) (hm : FMap.rising b m = true) : FMap.rising a m = true := by
  cases m with
  | nil => rfl
  | cons q r =>
    obtain ⟨i, w⟩ := q
    simp only [FMap.rising, Bool.and_eq_true, decide_eq_true_eq] at *
    exact ⟨by omega, hm.2⟩

theorem FMap.rising_insert (m : FMap α) (lo k : Nat) (v : α) (hk : lo ≤ k) (hm : FMap.rising lo m = true) :
    FMap.rising lo (FMap.insert m k v) = true := by
  induction m generalizing lo with
  | nil => simp [FMap.insert, FMap.rising, hk]
  | cons q r ih =>
    obtain ⟨i, w⟩ := q
    simp only [FMap.rising, Bool.and_eq_true, decide_eq_true_eq] at hm
    simp only [FMap.insert]
    split
    · rename_i h
      simp only [FMap.rising, Bool.and_eq_true, decide_eq_true_eq]
      exact ⟨hk, by omega, hm.2⟩
    · split
      · rename_i h1 h2
        subst h2
        simp only [FMap.rising, Bool.and_eq_true, decide_eq_true_eq]
        exact ⟨hk, hm.2⟩
      · rename_i h1 h2
        simp only [FMap.rising, Bool.and_eq_true, decide_eq_true_eq]
        exact ⟨hm.1, ih (i + 1) (by omega) hm.2⟩

theorem FMap.rising_filter (m : FMap α) (lo : Nat) (f : Nat × α → Bool) (hm : FMap.rising lo m = true) :
    FMap.rising lo (m.filter f) = true := by
  induction m generalizing lo with
  | nil => rfl
  | cons q r ih =>
    obtain ⟨i, w⟩ := q
    simp only [FMap.rising, Bool.and_eq_true, decide_eq_true_eq] at hm
    rw [List.filter_cons]
    split
    · simp only [FMap.rising, Bool.and_eq_true, decide_eq_true_eq]
      exact ⟨hm.1, ih (i + 1) hm.2⟩
    · exact ih lo (FMap.rising_mono r (by omega) hm.2)

theorem FMap.erase_eq_filter (m : FMap α) (k : Nat) : FMap.erase m k = m.filter (fun q => decide (q.1 ≠ k)) := by
  induction m with
  | nil => rfl
  | cons q r ih =>
    obtain ⟨i, w⟩ := q
    simp only [FMap.erase, List.filter_cons, ih]
    by_cases h : i = k <;> simp [h]

theorem FMap.mem_insert (m : FMap α) (k : Nat) (v : α) (q : Nat × α) (h : q ∈ FMap.insert m k v) : q = (k, v) ∨ q ∈ m := by
  induction m with
  | nil => simpa [FMap.insert] using h
  | cons p r ih =>
    obtain ⟨i, w⟩ := p
    simp only [FMap.insert] at h
    split at h
    · simpa using h
    · split at h
      · rcases List.mem_cons.1 h with h | h
        · exact .inl h
        · exact .inr (List.mem_cons_of_mem _ h)
      · rcases List.mem_cons.1 h with h | h
        · exact .inr (by simp [h])
        · rcases ih h with h | h
          · exact .inl h
          · exact .inr (List.mem_cons_of_mem _ h)

/-- A write keeps the canonical form. -/
theorem FMap.wf_setD [DecidableEq α] (m : FMap α) (d : α) (k : Nat) (v : α) (hm : FMap.wf d m = true) : FMap.wf d (FMap.setD m d k v) = true := by
  simp only [FMap.wf, Bool.and_eq_true, List.all_eq_true, decide_eq_true_eq] at *
  unfold FMap.setD
  split
  · rw [FMap.erase_eq_filter]
    exact ⟨FMap.rising_filter m 0 _ hm.1, fun q hq => hm.2 q (List.mem_filter.1 hq).1⟩
  · rename_i hv
    refine ⟨FMap.rising_insert m 0 k v (Nat.zero_le _) hm.1, fun q hq => ?_⟩
    rcases FMap.mem_insert m k v q hq with h | h
    · rw [h]; exact hv
    · exact hm.2 q h

/-- Keeping a part of the entries keeps the canonical form. -/
theorem FMap.wf_filterKV [DecidableEq α] (m : FMap α) (d : α) (f : Nat → α → Bool) (hm : FMap.wf d m = true) : FMap.wf d (FMap.filterKV f m) = true := by
  simp only [FMap.wf, Bool.and_eq_true, List.all_eq_true, decide_eq_true_eq, FMap.filterKV] at *
  exact ⟨FMap.rising_filter m 0 _ hm.1, fun q hq => hm.2 q (List.mem_filter.1 hq).1⟩

end Sys2Proof.Machine
end

