-- ==== Sys2Proof/Laws/State.lean ====
section
/-! SUPPORT. One lemma per field and per update of State: what each shared update leaves as it is. -/

namespace Sys2Proof.Machine

@[simp] theorem State.setCore_power (s : State) (k : Nat) (c : Core) : (s.setCore k c).power = s.power := rfl
@[simp] theorem State.setCore_tick (s : State) (k : Nat) (c : Core) : (s.setCore k c).tick = s.tick := rfl
@[simp] theorem State.setCore_turn (s : State) (k : Nat) (c : Core) : (s.setCore k c).turn = s.turn := rfl
@[simp] theorem State.setCore_groups (s : State) (k : Nat) (c : Core) : (s.setCore k c).groups = s.groups := rfl
@[simp] theorem State.setCore_handlers (s : State) (k : Nat) (c : Core) : (s.setCore k c).handlers = s.handlers := rfl
@[simp] theorem State.setCore_blocks (s : State) (k : Nat) (c : Core) : (s.setCore k c).blocks = s.blocks := rfl
@[simp] theorem State.setCore_grids (s : State) (k : Nat) (c : Core) : (s.setCore k c).grids = s.grids := rfl
@[simp] theorem State.setCore_vfs (s : State) (k : Nat) (c : Core) : (s.setCore k c).vfs = s.vfs := rfl
@[simp] theorem State.setCore_parts (s : State) (k : Nat) (c : Core) : (s.setCore k c).parts = s.parts := rfl
@[simp] theorem State.setCore_ms (s : State) (k : Nat) (c : Core) : (s.setCore k c).ms = s.ms := rfl
@[simp] theorem State.setCore_boot (s : State) (k : Nat) (c : Core) : (s.setCore k c).boot = s.boot := rfl
@[simp] theorem State.setCore_cfg (s : State) (k : Nat) (c : Core) : (s.setCore k c).cfg = s.cfg := rfl
@[simp] theorem State.setCore_place (s : State) (k : Nat) (c : Core) : (s.setCore k c).place = s.place := rfl
@[simp] theorem State.setCore_buckets (s : State) (k : Nat) (c : Core) : (s.setCore k c).buckets = s.buckets := rfl
@[simp] theorem State.setCore_reservoirs (s : State) (k : Nat) (c : Core) : (s.setCore k c).reservoirs = s.reservoirs := rfl
@[simp] theorem State.setCore_weirs (s : State) (k : Nat) (c : Core) : (s.setCore k c).weirs = s.weirs := rfl
@[simp] theorem State.setCore_wtCache (s : State) (k : Nat) (c : Core) : (s.setCore k c).wtCache = s.wtCache := rfl
@[simp] theorem State.setCore_tickets (s : State) (k : Nat) (c : Core) : (s.setCore k c).tickets = s.tickets := rfl
@[simp] theorem State.setCore_moves (s : State) (k : Nat) (c : Core) : (s.setCore k c).moves = s.moves := rfl
@[simp] theorem State.setCore_colls (s : State) (k : Nat) (c : Core) : (s.setCore k c).colls = s.colls := rfl
@[simp] theorem State.setCore_works (s : State) (k : Nat) (c : Core) : (s.setCore k c).works = s.works := rfl
@[simp] theorem State.setCore_harts (s : State) (k : Nat) (c : Core) : (s.setCore k c).harts = s.harts := rfl
@[simp] theorem State.setCore_savedArea (s : State) (k : Nat) (c : Core) : (s.setCore k c).savedArea = s.savedArea := rfl

@[simp] theorem State.modCore_power (s : State) (k : Nat) (f : Core → Core) : (s.modCore k f).power = s.power := rfl
@[simp] theorem State.modCore_tick (s : State) (k : Nat) (f : Core → Core) : (s.modCore k f).tick = s.tick := rfl
@[simp] theorem State.modCore_turn (s : State) (k : Nat) (f : Core → Core) : (s.modCore k f).turn = s.turn := rfl
@[simp] theorem State.modCore_groups (s : State) (k : Nat) (f : Core → Core) : (s.modCore k f).groups = s.groups := rfl
@[simp] theorem State.modCore_handlers (s : State) (k : Nat) (f : Core → Core) : (s.modCore k f).handlers = s.handlers := rfl
@[simp] theorem State.modCore_blocks (s : State) (k : Nat) (f : Core → Core) : (s.modCore k f).blocks = s.blocks := rfl
@[simp] theorem State.modCore_grids (s : State) (k : Nat) (f : Core → Core) : (s.modCore k f).grids = s.grids := rfl
@[simp] theorem State.modCore_vfs (s : State) (k : Nat) (f : Core → Core) : (s.modCore k f).vfs = s.vfs := rfl
@[simp] theorem State.modCore_parts (s : State) (k : Nat) (f : Core → Core) : (s.modCore k f).parts = s.parts := rfl
@[simp] theorem State.modCore_ms (s : State) (k : Nat) (f : Core → Core) : (s.modCore k f).ms = s.ms := rfl
@[simp] theorem State.modCore_boot (s : State) (k : Nat) (f : Core → Core) : (s.modCore k f).boot = s.boot := rfl
@[simp] theorem State.modCore_cfg (s : State) (k : Nat) (f : Core → Core) : (s.modCore k f).cfg = s.cfg := rfl
@[simp] theorem State.modCore_place (s : State) (k : Nat) (f : Core → Core) : (s.modCore k f).place = s.place := rfl
@[simp] theorem State.modCore_buckets (s : State) (k : Nat) (f : Core → Core) : (s.modCore k f).buckets = s.buckets := rfl
@[simp] theorem State.modCore_reservoirs (s : State) (k : Nat) (f : Core → Core) : (s.modCore k f).reservoirs = s.reservoirs := rfl
@[simp] theorem State.modCore_weirs (s : State) (k : Nat) (f : Core → Core) : (s.modCore k f).weirs = s.weirs := rfl
@[simp] theorem State.modCore_wtCache (s : State) (k : Nat) (f : Core → Core) : (s.modCore k f).wtCache = s.wtCache := rfl
@[simp] theorem State.modCore_tickets (s : State) (k : Nat) (f : Core → Core) : (s.modCore k f).tickets = s.tickets := rfl
@[simp] theorem State.modCore_moves (s : State) (k : Nat) (f : Core → Core) : (s.modCore k f).moves = s.moves := rfl
@[simp] theorem State.modCore_colls (s : State) (k : Nat) (f : Core → Core) : (s.modCore k f).colls = s.colls := rfl
@[simp] theorem State.modCore_works (s : State) (k : Nat) (f : Core → Core) : (s.modCore k f).works = s.works := rfl
@[simp] theorem State.modCore_harts (s : State) (k : Nat) (f : Core → Core) : (s.modCore k f).harts = s.harts := rfl
@[simp] theorem State.modCore_savedArea (s : State) (k : Nat) (f : Core → Core) : (s.modCore k f).savedArea = s.savedArea := rfl

@[simp] theorem State.setVf_power (s : State) (k : Nat) (c : Vf) : (s.setVf k c).power = s.power := rfl
@[simp] theorem State.setVf_tick (s : State) (k : Nat) (c : Vf) : (s.setVf k c).tick = s.tick := rfl
@[simp] theorem State.setVf_turn (s : State) (k : Nat) (c : Vf) : (s.setVf k c).turn = s.turn := rfl
@[simp] theorem State.setVf_groups (s : State) (k : Nat) (c : Vf) : (s.setVf k c).groups = s.groups := rfl
@[simp] theorem State.setVf_handlers (s : State) (k : Nat) (c : Vf) : (s.setVf k c).handlers = s.handlers := rfl
@[simp] theorem State.setVf_cores (s : State) (k : Nat) (c : Vf) : (s.setVf k c).cores = s.cores := rfl
@[simp] theorem State.setVf_blocks (s : State) (k : Nat) (c : Vf) : (s.setVf k c).blocks = s.blocks := rfl
@[simp] theorem State.setVf_grids (s : State) (k : Nat) (c : Vf) : (s.setVf k c).grids = s.grids := rfl
@[simp] theorem State.setVf_parts (s : State) (k : Nat) (c : Vf) : (s.setVf k c).parts = s.parts := rfl
@[simp] theorem State.setVf_ms (s : State) (k : Nat) (c : Vf) : (s.setVf k c).ms = s.ms := rfl
@[simp] theorem State.setVf_boot (s : State) (k : Nat) (c : Vf) : (s.setVf k c).boot = s.boot := rfl
@[simp] theorem State.setVf_cfg (s : State) (k : Nat) (c : Vf) : (s.setVf k c).cfg = s.cfg := rfl
@[simp] theorem State.setVf_place (s : State) (k : Nat) (c : Vf) : (s.setVf k c).place = s.place := rfl
@[simp] theorem State.setVf_buckets (s : State) (k : Nat) (c : Vf) : (s.setVf k c).buckets = s.buckets := rfl
@[simp] theorem State.setVf_reservoirs (s : State) (k : Nat) (c : Vf) : (s.setVf k c).reservoirs = s.reservoirs := rfl
@[simp] theorem State.setVf_weirs (s : State) (k : Nat) (c : Vf) : (s.setVf k c).weirs = s.weirs := rfl
@[simp] theorem State.setVf_wtCache (s : State) (k : Nat) (c : Vf) : (s.setVf k c).wtCache = s.wtCache := rfl
@[simp] theorem State.setVf_tickets (s : State) (k : Nat) (c : Vf) : (s.setVf k c).tickets = s.tickets := rfl
@[simp] theorem State.setVf_moves (s : State) (k : Nat) (c : Vf) : (s.setVf k c).moves = s.moves := rfl
@[simp] theorem State.setVf_colls (s : State) (k : Nat) (c : Vf) : (s.setVf k c).colls = s.colls := rfl
@[simp] theorem State.setVf_works (s : State) (k : Nat) (c : Vf) : (s.setVf k c).works = s.works := rfl
@[simp] theorem State.setVf_harts (s : State) (k : Nat) (c : Vf) : (s.setVf k c).harts = s.harts := rfl
@[simp] theorem State.setVf_savedArea (s : State) (k : Nat) (c : Vf) : (s.setVf k c).savedArea = s.savedArea := rfl

@[simp] theorem State.modVf_power (s : State) (k : Nat) (f : Vf → Vf) : (s.modVf k f).power = s.power := rfl
@[simp] theorem State.modVf_tick (s : State) (k : Nat) (f : Vf → Vf) : (s.modVf k f).tick = s.tick := rfl
@[simp] theorem State.modVf_turn (s : State) (k : Nat) (f : Vf → Vf) : (s.modVf k f).turn = s.turn := rfl
@[simp] theorem State.modVf_groups (s : State) (k : Nat) (f : Vf → Vf) : (s.modVf k f).groups = s.groups := rfl
@[simp] theorem State.modVf_handlers (s : State) (k : Nat) (f : Vf → Vf) : (s.modVf k f).handlers = s.handlers := rfl
@[simp] theorem State.modVf_cores (s : State) (k : Nat) (f : Vf → Vf) : (s.modVf k f).cores = s.cores := rfl
@[simp] theorem State.modVf_blocks (s : State) (k : Nat) (f : Vf → Vf) : (s.modVf k f).blocks = s.blocks := rfl
@[simp] theorem State.modVf_grids (s : State) (k : Nat) (f : Vf → Vf) : (s.modVf k f).grids = s.grids := rfl
@[simp] theorem State.modVf_parts (s : State) (k : Nat) (f : Vf → Vf) : (s.modVf k f).parts = s.parts := rfl
@[simp] theorem State.modVf_ms (s : State) (k : Nat) (f : Vf → Vf) : (s.modVf k f).ms = s.ms := rfl
@[simp] theorem State.modVf_boot (s : State) (k : Nat) (f : Vf → Vf) : (s.modVf k f).boot = s.boot := rfl
@[simp] theorem State.modVf_cfg (s : State) (k : Nat) (f : Vf → Vf) : (s.modVf k f).cfg = s.cfg := rfl
@[simp] theorem State.modVf_place (s : State) (k : Nat) (f : Vf → Vf) : (s.modVf k f).place = s.place := rfl
@[simp] theorem State.modVf_buckets (s : State) (k : Nat) (f : Vf → Vf) : (s.modVf k f).buckets = s.buckets := rfl
@[simp] theorem State.modVf_reservoirs (s : State) (k : Nat) (f : Vf → Vf) : (s.modVf k f).reservoirs = s.reservoirs := rfl
@[simp] theorem State.modVf_weirs (s : State) (k : Nat) (f : Vf → Vf) : (s.modVf k f).weirs = s.weirs := rfl
@[simp] theorem State.modVf_wtCache (s : State) (k : Nat) (f : Vf → Vf) : (s.modVf k f).wtCache = s.wtCache := rfl
@[simp] theorem State.modVf_tickets (s : State) (k : Nat) (f : Vf → Vf) : (s.modVf k f).tickets = s.tickets := rfl
@[simp] theorem State.modVf_moves (s : State) (k : Nat) (f : Vf → Vf) : (s.modVf k f).moves = s.moves := rfl
@[simp] theorem State.modVf_colls (s : State) (k : Nat) (f : Vf → Vf) : (s.modVf k f).colls = s.colls := rfl
@[simp] theorem State.modVf_works (s : State) (k : Nat) (f : Vf → Vf) : (s.modVf k f).works = s.works := rfl
@[simp] theorem State.modVf_harts (s : State) (k : Nat) (f : Vf → Vf) : (s.modVf k f).harts = s.harts := rfl
@[simp] theorem State.modVf_savedArea (s : State) (k : Nat) (f : Vf → Vf) : (s.modVf k f).savedArea = s.savedArea := rfl

@[simp] theorem State.setPart_power (s : State) (k : Nat) (c : Partition) : (s.setPart k c).power = s.power := rfl
@[simp] theorem State.setPart_tick (s : State) (k : Nat) (c : Partition) : (s.setPart k c).tick = s.tick := rfl
@[simp] theorem State.setPart_turn (s : State) (k : Nat) (c : Partition) : (s.setPart k c).turn = s.turn := rfl
@[simp] theorem State.setPart_groups (s : State) (k : Nat) (c : Partition) : (s.setPart k c).groups = s.groups := rfl
@[simp] theorem State.setPart_handlers (s : State) (k : Nat) (c : Partition) : (s.setPart k c).handlers = s.handlers := rfl
@[simp] theorem State.setPart_cores (s : State) (k : Nat) (c : Partition) : (s.setPart k c).cores = s.cores := rfl
@[simp] theorem State.setPart_blocks (s : State) (k : Nat) (c : Partition) : (s.setPart k c).blocks = s.blocks := rfl
@[simp] theorem State.setPart_grids (s : State) (k : Nat) (c : Partition) : (s.setPart k c).grids = s.grids := rfl
@[simp] theorem State.setPart_vfs (s : State) (k : Nat) (c : Partition) : (s.setPart k c).vfs = s.vfs := rfl
@[simp] theorem State.setPart_ms (s : State) (k : Nat) (c : Partition) : (s.setPart k c).ms = s.ms := rfl
@[simp] theorem State.setPart_boot (s : State) (k : Nat) (c : Partition) : (s.setPart k c).boot = s.boot := rfl
@[simp] theorem State.setPart_cfg (s : State) (k : Nat) (c : Partition) : (s.setPart k c).cfg = s.cfg := rfl
@[simp] theorem State.setPart_place (s : State) (k : Nat) (c : Partition) : (s.setPart k c).place = s.place := rfl
@[simp] theorem State.setPart_buckets (s : State) (k : Nat) (c : Partition) : (s.setPart k c).buckets = s.buckets := rfl
@[simp] theorem State.setPart_reservoirs (s : State) (k : Nat) (c : Partition) : (s.setPart k c).reservoirs = s.reservoirs := rfl
@[simp] theorem State.setPart_weirs (s : State) (k : Nat) (c : Partition) : (s.setPart k c).weirs = s.weirs := rfl
@[simp] theorem State.setPart_wtCache (s : State) (k : Nat) (c : Partition) : (s.setPart k c).wtCache = s.wtCache := rfl
@[simp] theorem State.setPart_tickets (s : State) (k : Nat) (c : Partition) : (s.setPart k c).tickets = s.tickets := rfl
@[simp] theorem State.setPart_moves (s : State) (k : Nat) (c : Partition) : (s.setPart k c).moves = s.moves := rfl
@[simp] theorem State.setPart_colls (s : State) (k : Nat) (c : Partition) : (s.setPart k c).colls = s.colls := rfl
@[simp] theorem State.setPart_works (s : State) (k : Nat) (c : Partition) : (s.setPart k c).works = s.works := rfl
@[simp] theorem State.setPart_harts (s : State) (k : Nat) (c : Partition) : (s.setPart k c).harts = s.harts := rfl
@[simp] theorem State.setPart_savedArea (s : State) (k : Nat) (c : Partition) : (s.setPart k c).savedArea = s.savedArea := rfl

@[simp] theorem State.modPart_power (s : State) (k : Nat) (f : Partition → Partition) : (s.modPart k f).power = s.power := rfl
@[simp] theorem State.modPart_tick (s : State) (k : Nat) (f : Partition → Partition) : (s.modPart k f).tick = s.tick := rfl
@[simp] theorem State.modPart_turn (s : State) (k : Nat) (f : Partition → Partition) : (s.modPart k f).turn = s.turn := rfl
@[simp] theorem State.modPart_groups (s : State) (k : Nat) (f : Partition → Partition) : (s.modPart k f).groups = s.groups := rfl
@[simp] theorem State.modPart_handlers (s : State) (k : Nat) (f : Partition → Partition) : (s.modPart k f).handlers = s.handlers := rfl
@[simp] theorem State.modPart_cores (s : State) (k : Nat) (f : Partition → Partition) : (s.modPart k f).cores = s.cores := rfl
@[simp] theorem State.modPart_blocks (s : State) (k : Nat) (f : Partition → Partition) : (s.modPart k f).blocks = s.blocks := rfl
@[simp] theorem State.modPart_grids (s : State) (k : Nat) (f : Partition → Partition) : (s.modPart k f).grids = s.grids := rfl
@[simp] theorem State.modPart_vfs (s : State) (k : Nat) (f : Partition → Partition) : (s.modPart k f).vfs = s.vfs := rfl
@[simp] theorem State.modPart_ms (s : State) (k : Nat) (f : Partition → Partition) : (s.modPart k f).ms = s.ms := rfl
@[simp] theorem State.modPart_boot (s : State) (k : Nat) (f : Partition → Partition) : (s.modPart k f).boot = s.boot := rfl
@[simp] theorem State.modPart_cfg (s : State) (k : Nat) (f : Partition → Partition) : (s.modPart k f).cfg = s.cfg := rfl
@[simp] theorem State.modPart_place (s : State) (k : Nat) (f : Partition → Partition) : (s.modPart k f).place = s.place := rfl
@[simp] theorem State.modPart_buckets (s : State) (k : Nat) (f : Partition → Partition) : (s.modPart k f).buckets = s.buckets := rfl
@[simp] theorem State.modPart_reservoirs (s : State) (k : Nat) (f : Partition → Partition) : (s.modPart k f).reservoirs = s.reservoirs := rfl
@[simp] theorem State.modPart_weirs (s : State) (k : Nat) (f : Partition → Partition) : (s.modPart k f).weirs = s.weirs := rfl
@[simp] theorem State.modPart_wtCache (s : State) (k : Nat) (f : Partition → Partition) : (s.modPart k f).wtCache = s.wtCache := rfl
@[simp] theorem State.modPart_tickets (s : State) (k : Nat) (f : Partition → Partition) : (s.modPart k f).tickets = s.tickets := rfl
@[simp] theorem State.modPart_moves (s : State) (k : Nat) (f : Partition → Partition) : (s.modPart k f).moves = s.moves := rfl
@[simp] theorem State.modPart_colls (s : State) (k : Nat) (f : Partition → Partition) : (s.modPart k f).colls = s.colls := rfl
@[simp] theorem State.modPart_works (s : State) (k : Nat) (f : Partition → Partition) : (s.modPart k f).works = s.works := rfl
@[simp] theorem State.modPart_harts (s : State) (k : Nat) (f : Partition → Partition) : (s.modPart k f).harts = s.harts := rfl
@[simp] theorem State.modPart_savedArea (s : State) (k : Nat) (f : Partition → Partition) : (s.modPart k f).savedArea = s.savedArea := rfl

@[simp] theorem State.setHart_power (s : State) (k : Nat) (c : Hart) : (s.setHart k c).power = s.power := rfl
@[simp] theorem State.setHart_tick (s : State) (k : Nat) (c : Hart) : (s.setHart k c).tick = s.tick := rfl
@[simp] theorem State.setHart_turn (s : State) (k : Nat) (c : Hart) : (s.setHart k c).turn = s.turn := rfl
@[simp] theorem State.setHart_groups (s : State) (k : Nat) (c : Hart) : (s.setHart k c).groups = s.groups := rfl
@[simp] theorem State.setHart_handlers (s : State) (k : Nat) (c : Hart) : (s.setHart k c).handlers = s.handlers := rfl
@[simp] theorem State.setHart_cores (s : State) (k : Nat) (c : Hart) : (s.setHart k c).cores = s.cores := rfl
@[simp] theorem State.setHart_blocks (s : State) (k : Nat) (c : Hart) : (s.setHart k c).blocks = s.blocks := rfl
@[simp] theorem State.setHart_grids (s : State) (k : Nat) (c : Hart) : (s.setHart k c).grids = s.grids := rfl
@[simp] theorem State.setHart_vfs (s : State) (k : Nat) (c : Hart) : (s.setHart k c).vfs = s.vfs := rfl
@[simp] theorem State.setHart_parts (s : State) (k : Nat) (c : Hart) : (s.setHart k c).parts = s.parts := rfl
@[simp] theorem State.setHart_ms (s : State) (k : Nat) (c : Hart) : (s.setHart k c).ms = s.ms := rfl
@[simp] theorem State.setHart_boot (s : State) (k : Nat) (c : Hart) : (s.setHart k c).boot = s.boot := rfl
@[simp] theorem State.setHart_cfg (s : State) (k : Nat) (c : Hart) : (s.setHart k c).cfg = s.cfg := rfl
@[simp] theorem State.setHart_place (s : State) (k : Nat) (c : Hart) : (s.setHart k c).place = s.place := rfl
@[simp] theorem State.setHart_buckets (s : State) (k : Nat) (c : Hart) : (s.setHart k c).buckets = s.buckets := rfl
@[simp] theorem State.setHart_reservoirs (s : State) (k : Nat) (c : Hart) : (s.setHart k c).reservoirs = s.reservoirs := rfl
@[simp] theorem State.setHart_weirs (s : State) (k : Nat) (c : Hart) : (s.setHart k c).weirs = s.weirs := rfl
@[simp] theorem State.setHart_wtCache (s : State) (k : Nat) (c : Hart) : (s.setHart k c).wtCache = s.wtCache := rfl
@[simp] theorem State.setHart_tickets (s : State) (k : Nat) (c : Hart) : (s.setHart k c).tickets = s.tickets := rfl
@[simp] theorem State.setHart_moves (s : State) (k : Nat) (c : Hart) : (s.setHart k c).moves = s.moves := rfl
@[simp] theorem State.setHart_colls (s : State) (k : Nat) (c : Hart) : (s.setHart k c).colls = s.colls := rfl
@[simp] theorem State.setHart_works (s : State) (k : Nat) (c : Hart) : (s.setHart k c).works = s.works := rfl
@[simp] theorem State.setHart_savedArea (s : State) (k : Nat) (c : Hart) : (s.setHart k c).savedArea = s.savedArea := rfl

@[simp] theorem State.modHart_power (s : State) (k : Nat) (f : Hart → Hart) : (s.modHart k f).power = s.power := rfl
@[simp] theorem State.modHart_tick (s : State) (k : Nat) (f : Hart → Hart) : (s.modHart k f).tick = s.tick := rfl
@[simp] theorem State.modHart_turn (s : State) (k : Nat) (f : Hart → Hart) : (s.modHart k f).turn = s.turn := rfl
@[simp] theorem State.modHart_groups (s : State) (k : Nat) (f : Hart → Hart) : (s.modHart k f).groups = s.groups := rfl
@[simp] theorem State.modHart_handlers (s : State) (k : Nat) (f : Hart → Hart) : (s.modHart k f).handlers = s.handlers := rfl
@[simp] theorem State.modHart_cores (s : State) (k : Nat) (f : Hart → Hart) : (s.modHart k f).cores = s.cores := rfl
@[simp] theorem State.modHart_blocks (s : State) (k : Nat) (f : Hart → Hart) : (s.modHart k f).blocks = s.blocks := rfl
@[simp] theorem State.modHart_grids (s : State) (k : Nat) (f : Hart → Hart) : (s.modHart k f).grids = s.grids := rfl
@[simp] theorem State.modHart_vfs (s : State) (k : Nat) (f : Hart → Hart) : (s.modHart k f).vfs = s.vfs := rfl
@[simp] theorem State.modHart_parts (s : State) (k : Nat) (f : Hart → Hart) : (s.modHart k f).parts = s.parts := rfl
@[simp] theorem State.modHart_ms (s : State) (k : Nat) (f : Hart → Hart) : (s.modHart k f).ms = s.ms := rfl
@[simp] theorem State.modHart_boot (s : State) (k : Nat) (f : Hart → Hart) : (s.modHart k f).boot = s.boot := rfl
@[simp] theorem State.modHart_cfg (s : State) (k : Nat) (f : Hart → Hart) : (s.modHart k f).cfg = s.cfg := rfl
@[simp] theorem State.modHart_place (s : State) (k : Nat) (f : Hart → Hart) : (s.modHart k f).place = s.place := rfl
@[simp] theorem State.modHart_buckets (s : State) (k : Nat) (f : Hart → Hart) : (s.modHart k f).buckets = s.buckets := rfl
@[simp] theorem State.modHart_reservoirs (s : State) (k : Nat) (f : Hart → Hart) : (s.modHart k f).reservoirs = s.reservoirs := rfl
@[simp] theorem State.modHart_weirs (s : State) (k : Nat) (f : Hart → Hart) : (s.modHart k f).weirs = s.weirs := rfl
@[simp] theorem State.modHart_wtCache (s : State) (k : Nat) (f : Hart → Hart) : (s.modHart k f).wtCache = s.wtCache := rfl
@[simp] theorem State.modHart_tickets (s : State) (k : Nat) (f : Hart → Hart) : (s.modHart k f).tickets = s.tickets := rfl
@[simp] theorem State.modHart_moves (s : State) (k : Nat) (f : Hart → Hart) : (s.modHart k f).moves = s.moves := rfl
@[simp] theorem State.modHart_colls (s : State) (k : Nat) (f : Hart → Hart) : (s.modHart k f).colls = s.colls := rfl
@[simp] theorem State.modHart_works (s : State) (k : Nat) (f : Hart → Hart) : (s.modHart k f).works = s.works := rfl
@[simp] theorem State.modHart_savedArea (s : State) (k : Nat) (f : Hart → Hart) : (s.modHart k f).savedArea = s.savedArea := rfl

@[simp] theorem State.setGroup_power (s : State) (k : Nat) (c : Group) : (s.setGroup k c).power = s.power := rfl
@[simp] theorem State.setGroup_tick (s : State) (k : Nat) (c : Group) : (s.setGroup k c).tick = s.tick := rfl
@[simp] theorem State.setGroup_turn (s : State) (k : Nat) (c : Group) : (s.setGroup k c).turn = s.turn := rfl
@[simp] theorem State.setGroup_handlers (s : State) (k : Nat) (c : Group) : (s.setGroup k c).handlers = s.handlers := rfl
@[simp] theorem State.setGroup_cores (s : State) (k : Nat) (c : Group) : (s.setGroup k c).cores = s.cores := rfl
@[simp] theorem State.setGroup_blocks (s : State) (k : Nat) (c : Group) : (s.setGroup k c).blocks = s.blocks := rfl
@[simp] theorem State.setGroup_grids (s : State) (k : Nat) (c : Group) : (s.setGroup k c).grids = s.grids := rfl
@[simp] theorem State.setGroup_vfs (s : State) (k : Nat) (c : Group) : (s.setGroup k c).vfs = s.vfs := rfl
@[simp] theorem State.setGroup_parts (s : State) (k : Nat) (c : Group) : (s.setGroup k c).parts = s.parts := rfl
@[simp] theorem State.setGroup_ms (s : State) (k : Nat) (c : Group) : (s.setGroup k c).ms = s.ms := rfl
@[simp] theorem State.setGroup_boot (s : State) (k : Nat) (c : Group) : (s.setGroup k c).boot = s.boot := rfl
@[simp] theorem State.setGroup_cfg (s : State) (k : Nat) (c : Group) : (s.setGroup k c).cfg = s.cfg := rfl
@[simp] theorem State.setGroup_place (s : State) (k : Nat) (c : Group) : (s.setGroup k c).place = s.place := rfl
@[simp] theorem State.setGroup_buckets (s : State) (k : Nat) (c : Group) : (s.setGroup k c).buckets = s.buckets := rfl
@[simp] theorem State.setGroup_reservoirs (s : State) (k : Nat) (c : Group) : (s.setGroup k c).reservoirs = s.reservoirs := rfl
@[simp] theorem State.setGroup_weirs (s : State) (k : Nat) (c : Group) : (s.setGroup k c).weirs = s.weirs := rfl
@[simp] theorem State.setGroup_wtCache (s : State) (k : Nat) (c : Group) : (s.setGroup k c).wtCache = s.wtCache := rfl
@[simp] theorem State.setGroup_tickets (s : State) (k : Nat) (c : Group) : (s.setGroup k c).tickets = s.tickets := rfl
@[simp] theorem State.setGroup_moves (s : State) (k : Nat) (c : Group) : (s.setGroup k c).moves = s.moves := rfl
@[simp] theorem State.setGroup_colls (s : State) (k : Nat) (c : Group) : (s.setGroup k c).colls = s.colls := rfl
@[simp] theorem State.setGroup_works (s : State) (k : Nat) (c : Group) : (s.setGroup k c).works = s.works := rfl
@[simp] theorem State.setGroup_harts (s : State) (k : Nat) (c : Group) : (s.setGroup k c).harts = s.harts := rfl
@[simp] theorem State.setGroup_savedArea (s : State) (k : Nat) (c : Group) : (s.setGroup k c).savedArea = s.savedArea := rfl

@[simp] theorem State.modGroup_power (s : State) (k : Nat) (f : Group → Group) : (s.modGroup k f).power = s.power := by unfold State.modGroup; split <;> rfl
@[simp] theorem State.modGroup_tick (s : State) (k : Nat) (f : Group → Group) : (s.modGroup k f).tick = s.tick := by unfold State.modGroup; split <;> rfl
@[simp] theorem State.modGroup_turn (s : State) (k : Nat) (f : Group → Group) : (s.modGroup k f).turn = s.turn := by unfold State.modGroup; split <;> rfl
@[simp] theorem State.modGroup_handlers (s : State) (k : Nat) (f : Group → Group) : (s.modGroup k f).handlers = s.handlers := by unfold State.modGroup; split <;> rfl
@[simp] theorem State.modGroup_cores (s : State) (k : Nat) (f : Group → Group) : (s.modGroup k f).cores = s.cores := by unfold State.modGroup; split <;> rfl
@[simp] theorem State.modGroup_blocks (s : State) (k : Nat) (f : Group → Group) : (s.modGroup k f).blocks = s.blocks := by unfold State.modGroup; split <;> rfl
@[simp] theorem State.modGroup_grids (s : State) (k : Nat) (f : Group → Group) : (s.modGroup k f).grids = s.grids := by unfold State.modGroup; split <;> rfl
@[simp] theorem State.modGroup_vfs (s : State) (k : Nat) (f : Group → Group) : (s.modGroup k f).vfs = s.vfs := by unfold State.modGroup; split <;> rfl
@[simp] theorem State.modGroup_parts (s : State) (k : Nat) (f : Group → Group) : (s.modGroup k f).parts = s.parts := by unfold State.modGroup; split <;> rfl
@[simp] theorem State.modGroup_ms (s : State) (k : Nat) (f : Group → Group) : (s.modGroup k f).ms = s.ms := by unfold State.modGroup; split <;> rfl
@[simp] theorem State.modGroup_boot (s : State) (k : Nat) (f : Group → Group) : (s.modGroup k f).boot = s.boot := by unfold State.modGroup; split <;> rfl
@[simp] theorem State.modGroup_cfg (s : State) (k : Nat) (f : Group → Group) : (s.modGroup k f).cfg = s.cfg := by unfold State.modGroup; split <;> rfl
@[simp] theorem State.modGroup_place (s : State) (k : Nat) (f : Group → Group) : (s.modGroup k f).place = s.place := by unfold State.modGroup; split <;> rfl
@[simp] theorem State.modGroup_buckets (s : State) (k : Nat) (f : Group → Group) : (s.modGroup k f).buckets = s.buckets := by unfold State.modGroup; split <;> rfl
@[simp] theorem State.modGroup_reservoirs (s : State) (k : Nat) (f : Group → Group) : (s.modGroup k f).reservoirs = s.reservoirs := by unfold State.modGroup; split <;> rfl
@[simp] theorem State.modGroup_weirs (s : State) (k : Nat) (f : Group → Group) : (s.modGroup k f).weirs = s.weirs := by unfold State.modGroup; split <;> rfl
@[simp] theorem State.modGroup_wtCache (s : State) (k : Nat) (f : Group → Group) : (s.modGroup k f).wtCache = s.wtCache := by unfold State.modGroup; split <;> rfl
@[simp] theorem State.modGroup_tickets (s : State) (k : Nat) (f : Group → Group) : (s.modGroup k f).tickets = s.tickets := by unfold State.modGroup; split <;> rfl
@[simp] theorem State.modGroup_moves (s : State) (k : Nat) (f : Group → Group) : (s.modGroup k f).moves = s.moves := by unfold State.modGroup; split <;> rfl
@[simp] theorem State.modGroup_colls (s : State) (k : Nat) (f : Group → Group) : (s.modGroup k f).colls = s.colls := by unfold State.modGroup; split <;> rfl
@[simp] theorem State.modGroup_works (s : State) (k : Nat) (f : Group → Group) : (s.modGroup k f).works = s.works := by unfold State.modGroup; split <;> rfl
@[simp] theorem State.modGroup_harts (s : State) (k : Nat) (f : Group → Group) : (s.modGroup k f).harts = s.harts := by unfold State.modGroup; split <;> rfl
@[simp] theorem State.modGroup_savedArea (s : State) (k : Nat) (f : Group → Group) : (s.modGroup k f).savedArea = s.savedArea := by unfold State.modGroup; split <;> rfl

@[simp] theorem State.modBlock_power (s : State) (k : Nat) (f : Block → Block) : (s.modBlock k f).power = s.power := by unfold State.modBlock; split <;> rfl
@[simp] theorem State.modBlock_tick (s : State) (k : Nat) (f : Block → Block) : (s.modBlock k f).tick = s.tick := by unfold State.modBlock; split <;> rfl
@[simp] theorem State.modBlock_turn (s : State) (k : Nat) (f : Block → Block) : (s.modBlock k f).turn = s.turn := by unfold State.modBlock; split <;> rfl
@[simp] theorem State.modBlock_groups (s : State) (k : Nat) (f : Block → Block) : (s.modBlock k f).groups = s.groups := by unfold State.modBlock; split <;> rfl
@[simp] theorem State.modBlock_handlers (s : State) (k : Nat) (f : Block → Block) : (s.modBlock k f).handlers = s.handlers := by unfold State.modBlock; split <;> rfl
@[simp] theorem State.modBlock_cores (s : State) (k : Nat) (f : Block → Block) : (s.modBlock k f).cores = s.cores := by unfold State.modBlock; split <;> rfl
@[simp] theorem State.modBlock_grids (s : State) (k : Nat) (f : Block → Block) : (s.modBlock k f).grids = s.grids := by unfold State.modBlock; split <;> rfl
@[simp] theorem State.modBlock_vfs (s : State) (k : Nat) (f : Block → Block) : (s.modBlock k f).vfs = s.vfs := by unfold State.modBlock; split <;> rfl
@[simp] theorem State.modBlock_parts (s : State) (k : Nat) (f : Block → Block) : (s.modBlock k f).parts = s.parts := by unfold State.modBlock; split <;> rfl
@[simp] theorem State.modBlock_ms (s : State) (k : Nat) (f : Block → Block) : (s.modBlock k f).ms = s.ms := by unfold State.modBlock; split <;> rfl
@[simp] theorem State.modBlock_boot (s : State) (k : Nat) (f : Block → Block) : (s.modBlock k f).boot = s.boot := by unfold State.modBlock; split <;> rfl
@[simp] theorem State.modBlock_cfg (s : State) (k : Nat) (f : Block → Block) : (s.modBlock k f).cfg = s.cfg := by unfold State.modBlock; split <;> rfl
@[simp] theorem State.modBlock_place (s : State) (k : Nat) (f : Block → Block) : (s.modBlock k f).place = s.place := by unfold State.modBlock; split <;> rfl
@[simp] theorem State.modBlock_buckets (s : State) (k : Nat) (f : Block → Block) : (s.modBlock k f).buckets = s.buckets := by unfold State.modBlock; split <;> rfl
@[simp] theorem State.modBlock_reservoirs (s : State) (k : Nat) (f : Block → Block) : (s.modBlock k f).reservoirs = s.reservoirs := by unfold State.modBlock; split <;> rfl
@[simp] theorem State.modBlock_weirs (s : State) (k : Nat) (f : Block → Block) : (s.modBlock k f).weirs = s.weirs := by unfold State.modBlock; split <;> rfl
@[simp] theorem State.modBlock_wtCache (s : State) (k : Nat) (f : Block → Block) : (s.modBlock k f).wtCache = s.wtCache := by unfold State.modBlock; split <;> rfl
@[simp] theorem State.modBlock_tickets (s : State) (k : Nat) (f : Block → Block) : (s.modBlock k f).tickets = s.tickets := by unfold State.modBlock; split <;> rfl
@[simp] theorem State.modBlock_moves (s : State) (k : Nat) (f : Block → Block) : (s.modBlock k f).moves = s.moves := by unfold State.modBlock; split <;> rfl
@[simp] theorem State.modBlock_colls (s : State) (k : Nat) (f : Block → Block) : (s.modBlock k f).colls = s.colls := by unfold State.modBlock; split <;> rfl
@[simp] theorem State.modBlock_works (s : State) (k : Nat) (f : Block → Block) : (s.modBlock k f).works = s.works := by unfold State.modBlock; split <;> rfl
@[simp] theorem State.modBlock_harts (s : State) (k : Nat) (f : Block → Block) : (s.modBlock k f).harts = s.harts := by unfold State.modBlock; split <;> rfl
@[simp] theorem State.modBlock_savedArea (s : State) (k : Nat) (f : Block → Block) : (s.modBlock k f).savedArea = s.savedArea := by unfold State.modBlock; split <;> rfl

@[simp] theorem State.modGrid_power (s : State) (k : Nat) (f : Grid → Grid) : (s.modGrid k f).power = s.power := by unfold State.modGrid; split <;> rfl
@[simp] theorem State.modGrid_tick (s : State) (k : Nat) (f : Grid → Grid) : (s.modGrid k f).tick = s.tick := by unfold State.modGrid; split <;> rfl
@[simp] theorem State.modGrid_turn (s : State) (k : Nat) (f : Grid → Grid) : (s.modGrid k f).turn = s.turn := by unfold State.modGrid; split <;> rfl
@[simp] theorem State.modGrid_groups (s : State) (k : Nat) (f : Grid → Grid) : (s.modGrid k f).groups = s.groups := by unfold State.modGrid; split <;> rfl
@[simp] theorem State.modGrid_handlers (s : State) (k : Nat) (f : Grid → Grid) : (s.modGrid k f).handlers = s.handlers := by unfold State.modGrid; split <;> rfl
@[simp] theorem State.modGrid_cores (s : State) (k : Nat) (f : Grid → Grid) : (s.modGrid k f).cores = s.cores := by unfold State.modGrid; split <;> rfl
@[simp] theorem State.modGrid_blocks (s : State) (k : Nat) (f : Grid → Grid) : (s.modGrid k f).blocks = s.blocks := by unfold State.modGrid; split <;> rfl
@[simp] theorem State.modGrid_vfs (s : State) (k : Nat) (f : Grid → Grid) : (s.modGrid k f).vfs = s.vfs := by unfold State.modGrid; split <;> rfl
@[simp] theorem State.modGrid_parts (s : State) (k : Nat) (f : Grid → Grid) : (s.modGrid k f).parts = s.parts := by unfold State.modGrid; split <;> rfl
@[simp] theorem State.modGrid_ms (s : State) (k : Nat) (f : Grid → Grid) : (s.modGrid k f).ms = s.ms := by unfold State.modGrid; split <;> rfl
@[simp] theorem State.modGrid_boot (s : State) (k : Nat) (f : Grid → Grid) : (s.modGrid k f).boot = s.boot := by unfold State.modGrid; split <;> rfl
@[simp] theorem State.modGrid_cfg (s : State) (k : Nat) (f : Grid → Grid) : (s.modGrid k f).cfg = s.cfg := by unfold State.modGrid; split <;> rfl
@[simp] theorem State.modGrid_place (s : State) (k : Nat) (f : Grid → Grid) : (s.modGrid k f).place = s.place := by unfold State.modGrid; split <;> rfl
@[simp] theorem State.modGrid_buckets (s : State) (k : Nat) (f : Grid → Grid) : (s.modGrid k f).buckets = s.buckets := by unfold State.modGrid; split <;> rfl
@[simp] theorem State.modGrid_reservoirs (s : State) (k : Nat) (f : Grid → Grid) : (s.modGrid k f).reservoirs = s.reservoirs := by unfold State.modGrid; split <;> rfl
@[simp] theorem State.modGrid_weirs (s : State) (k : Nat) (f : Grid → Grid) : (s.modGrid k f).weirs = s.weirs := by unfold State.modGrid; split <;> rfl
@[simp] theorem State.modGrid_wtCache (s : State) (k : Nat) (f : Grid → Grid) : (s.modGrid k f).wtCache = s.wtCache := by unfold State.modGrid; split <;> rfl
@[simp] theorem State.modGrid_tickets (s : State) (k : Nat) (f : Grid → Grid) : (s.modGrid k f).tickets = s.tickets := by unfold State.modGrid; split <;> rfl
@[simp] theorem State.modGrid_moves (s : State) (k : Nat) (f : Grid → Grid) : (s.modGrid k f).moves = s.moves := by unfold State.modGrid; split <;> rfl
@[simp] theorem State.modGrid_colls (s : State) (k : Nat) (f : Grid → Grid) : (s.modGrid k f).colls = s.colls := by unfold State.modGrid; split <;> rfl
@[simp] theorem State.modGrid_works (s : State) (k : Nat) (f : Grid → Grid) : (s.modGrid k f).works = s.works := by unfold State.modGrid; split <;> rfl
@[simp] theorem State.modGrid_harts (s : State) (k : Nat) (f : Grid → Grid) : (s.modGrid k f).harts = s.harts := by unfold State.modGrid; split <;> rfl
@[simp] theorem State.modGrid_savedArea (s : State) (k : Nat) (f : Grid → Grid) : (s.modGrid k f).savedArea = s.savedArea := by unfold State.modGrid; split <;> rfl

@[simp] theorem State.schedule_power (s : State) (i : Instr) : (s.schedule i).power = s.power := rfl
@[simp] theorem State.schedule_tick (s : State) (i : Instr) : (s.schedule i).tick = s.tick := rfl
@[simp] theorem State.schedule_groups (s : State) (i : Instr) : (s.schedule i).groups = s.groups := rfl
@[simp] theorem State.schedule_handlers (s : State) (i : Instr) : (s.schedule i).handlers = s.handlers := rfl
@[simp] theorem State.schedule_cores (s : State) (i : Instr) : (s.schedule i).cores = s.cores := rfl
@[simp] theorem State.schedule_blocks (s : State) (i : Instr) : (s.schedule i).blocks = s.blocks := rfl
@[simp] theorem State.schedule_grids (s : State) (i : Instr) : (s.schedule i).grids = s.grids := rfl
@[simp] theorem State.schedule_vfs (s : State) (i : Instr) : (s.schedule i).vfs = s.vfs := rfl
@[simp] theorem State.schedule_parts (s : State) (i : Instr) : (s.schedule i).parts = s.parts := rfl
@[simp] theorem State.schedule_ms (s : State) (i : Instr) : (s.schedule i).ms = s.ms := rfl
@[simp] theorem State.schedule_boot (s : State) (i : Instr) : (s.schedule i).boot = s.boot := rfl
@[simp] theorem State.schedule_cfg (s : State) (i : Instr) : (s.schedule i).cfg = s.cfg := rfl
@[simp] theorem State.schedule_place (s : State) (i : Instr) : (s.schedule i).place = s.place := rfl
@[simp] theorem State.schedule_buckets (s : State) (i : Instr) : (s.schedule i).buckets = s.buckets := rfl
@[simp] theorem State.schedule_reservoirs (s : State) (i : Instr) : (s.schedule i).reservoirs = s.reservoirs := rfl
@[simp] theorem State.schedule_weirs (s : State) (i : Instr) : (s.schedule i).weirs = s.weirs := rfl
@[simp] theorem State.schedule_wtCache (s : State) (i : Instr) : (s.schedule i).wtCache = s.wtCache := rfl
@[simp] theorem State.schedule_tickets (s : State) (i : Instr) : (s.schedule i).tickets = s.tickets := rfl
@[simp] theorem State.schedule_moves (s : State) (i : Instr) : (s.schedule i).moves = s.moves := rfl
@[simp] theorem State.schedule_colls (s : State) (i : Instr) : (s.schedule i).colls = s.colls := rfl
@[simp] theorem State.schedule_works (s : State) (i : Instr) : (s.schedule i).works = s.works := rfl
@[simp] theorem State.schedule_harts (s : State) (i : Instr) : (s.schedule i).harts = s.harts := rfl
@[simp] theorem State.schedule_savedArea (s : State) (i : Instr) : (s.schedule i).savedArea = s.savedArea := rfl

@[simp] theorem State.send_power (s : State) (m : OutMsg) : (s.send m).power = s.power := rfl
@[simp] theorem State.send_tick (s : State) (m : OutMsg) : (s.send m).tick = s.tick := rfl
@[simp] theorem State.send_groups (s : State) (m : OutMsg) : (s.send m).groups = s.groups := rfl
@[simp] theorem State.send_handlers (s : State) (m : OutMsg) : (s.send m).handlers = s.handlers := rfl
@[simp] theorem State.send_cores (s : State) (m : OutMsg) : (s.send m).cores = s.cores := rfl
@[simp] theorem State.send_blocks (s : State) (m : OutMsg) : (s.send m).blocks = s.blocks := rfl
@[simp] theorem State.send_grids (s : State) (m : OutMsg) : (s.send m).grids = s.grids := rfl
@[simp] theorem State.send_vfs (s : State) (m : OutMsg) : (s.send m).vfs = s.vfs := rfl
@[simp] theorem State.send_parts (s : State) (m : OutMsg) : (s.send m).parts = s.parts := rfl
@[simp] theorem State.send_ms (s : State) (m : OutMsg) : (s.send m).ms = s.ms := rfl
@[simp] theorem State.send_boot (s : State) (m : OutMsg) : (s.send m).boot = s.boot := rfl
@[simp] theorem State.send_cfg (s : State) (m : OutMsg) : (s.send m).cfg = s.cfg := rfl
@[simp] theorem State.send_place (s : State) (m : OutMsg) : (s.send m).place = s.place := rfl
@[simp] theorem State.send_buckets (s : State) (m : OutMsg) : (s.send m).buckets = s.buckets := rfl
@[simp] theorem State.send_reservoirs (s : State) (m : OutMsg) : (s.send m).reservoirs = s.reservoirs := rfl
@[simp] theorem State.send_weirs (s : State) (m : OutMsg) : (s.send m).weirs = s.weirs := rfl
@[simp] theorem State.send_wtCache (s : State) (m : OutMsg) : (s.send m).wtCache = s.wtCache := rfl
@[simp] theorem State.send_tickets (s : State) (m : OutMsg) : (s.send m).tickets = s.tickets := rfl
@[simp] theorem State.send_moves (s : State) (m : OutMsg) : (s.send m).moves = s.moves := rfl
@[simp] theorem State.send_colls (s : State) (m : OutMsg) : (s.send m).colls = s.colls := rfl
@[simp] theorem State.send_works (s : State) (m : OutMsg) : (s.send m).works = s.works := rfl
@[simp] theorem State.send_harts (s : State) (m : OutMsg) : (s.send m).harts = s.harts := rfl
@[simp] theorem State.send_savedArea (s : State) (m : OutMsg) : (s.send m).savedArea = s.savedArea := rfl

@[simp] theorem State.dropL1_power (s : State) (k : Nat) : (s.dropL1 k).power = s.power := rfl
@[simp] theorem State.dropL1_tick (s : State) (k : Nat) : (s.dropL1 k).tick = s.tick := rfl
@[simp] theorem State.dropL1_turn (s : State) (k : Nat) : (s.dropL1 k).turn = s.turn := rfl
@[simp] theorem State.dropL1_groups (s : State) (k : Nat) : (s.dropL1 k).groups = s.groups := rfl
@[simp] theorem State.dropL1_handlers (s : State) (k : Nat) : (s.dropL1 k).handlers = s.handlers := rfl
@[simp] theorem State.dropL1_blocks (s : State) (k : Nat) : (s.dropL1 k).blocks = s.blocks := rfl
@[simp] theorem State.dropL1_grids (s : State) (k : Nat) : (s.dropL1 k).grids = s.grids := rfl
@[simp] theorem State.dropL1_vfs (s : State) (k : Nat) : (s.dropL1 k).vfs = s.vfs := rfl
@[simp] theorem State.dropL1_parts (s : State) (k : Nat) : (s.dropL1 k).parts = s.parts := rfl
@[simp] theorem State.dropL1_ms (s : State) (k : Nat) : (s.dropL1 k).ms = s.ms := rfl
@[simp] theorem State.dropL1_boot (s : State) (k : Nat) : (s.dropL1 k).boot = s.boot := rfl
@[simp] theorem State.dropL1_cfg (s : State) (k : Nat) : (s.dropL1 k).cfg = s.cfg := rfl
@[simp] theorem State.dropL1_place (s : State) (k : Nat) : (s.dropL1 k).place = s.place := rfl
@[simp] theorem State.dropL1_buckets (s : State) (k : Nat) : (s.dropL1 k).buckets = s.buckets := rfl
@[simp] theorem State.dropL1_reservoirs (s : State) (k : Nat) : (s.dropL1 k).reservoirs = s.reservoirs := rfl
@[simp] theorem State.dropL1_weirs (s : State) (k : Nat) : (s.dropL1 k).weirs = s.weirs := rfl
@[simp] theorem State.dropL1_wtCache (s : State) (k : Nat) : (s.dropL1 k).wtCache = s.wtCache := rfl
@[simp] theorem State.dropL1_tickets (s : State) (k : Nat) : (s.dropL1 k).tickets = s.tickets := rfl
@[simp] theorem State.dropL1_moves (s : State) (k : Nat) : (s.dropL1 k).moves = s.moves := rfl
@[simp] theorem State.dropL1_colls (s : State) (k : Nat) : (s.dropL1 k).colls = s.colls := rfl
@[simp] theorem State.dropL1_works (s : State) (k : Nat) : (s.dropL1 k).works = s.works := rfl
@[simp] theorem State.dropL1_harts (s : State) (k : Nat) : (s.dropL1 k).harts = s.harts := rfl
@[simp] theorem State.dropL1_savedArea (s : State) (k : Nat) : (s.dropL1 k).savedArea = s.savedArea := rfl

@[simp] theorem State.putCtx_power (s : State) (c : Ctx) : (s.putCtx c).power = s.power := by unfold State.putCtx; dsimp only; split <;> first | (simp; done) | (split <;> simp)
@[simp] theorem State.putCtx_tick (s : State) (c : Ctx) : (s.putCtx c).tick = s.tick := by unfold State.putCtx; dsimp only; split <;> first | (simp; done) | (split <;> simp)
@[simp] theorem State.putCtx_turn (s : State) (c : Ctx) : (s.putCtx c).turn = s.turn := by unfold State.putCtx; dsimp only; split <;> first | (simp; done) | (split <;> simp)
@[simp] theorem State.putCtx_cores (s : State) (c : Ctx) : (s.putCtx c).cores = s.cores := by unfold State.putCtx; dsimp only; split <;> first | (simp; done) | (split <;> simp)
@[simp] theorem State.putCtx_blocks (s : State) (c : Ctx) : (s.putCtx c).blocks = s.blocks := by unfold State.putCtx; dsimp only; split <;> first | (simp; done) | (split <;> simp)
@[simp] theorem State.putCtx_grids (s : State) (c : Ctx) : (s.putCtx c).grids = s.grids := by unfold State.putCtx; dsimp only; split <;> first | (simp; done) | (split <;> simp)
@[simp] theorem State.putCtx_vfs (s : State) (c : Ctx) : (s.putCtx c).vfs = s.vfs := by unfold State.putCtx; dsimp only; split <;> first | (simp; done) | (split <;> simp)
@[simp] theorem State.putCtx_parts (s : State) (c : Ctx) : (s.putCtx c).parts = s.parts := by unfold State.putCtx; dsimp only; split <;> first | (simp; done) | (split <;> simp)
@[simp] theorem State.putCtx_ms (s : State) (c : Ctx) : (s.putCtx c).ms = s.ms := by unfold State.putCtx; dsimp only; split <;> first | (simp; done) | (split <;> simp)
@[simp] theorem State.putCtx_boot (s : State) (c : Ctx) : (s.putCtx c).boot = s.boot := by unfold State.putCtx; dsimp only; split <;> first | (simp; done) | (split <;> simp)
@[simp] theorem State.putCtx_cfg (s : State) (c : Ctx) : (s.putCtx c).cfg = s.cfg := by unfold State.putCtx; dsimp only; split <;> first | (simp; done) | (split <;> simp)
@[simp] theorem State.putCtx_place (s : State) (c : Ctx) : (s.putCtx c).place = s.place := by unfold State.putCtx; dsimp only; split <;> first | (simp; done) | (split <;> simp)
@[simp] theorem State.putCtx_buckets (s : State) (c : Ctx) : (s.putCtx c).buckets = s.buckets := by unfold State.putCtx; dsimp only; split <;> first | (simp; done) | (split <;> simp)
@[simp] theorem State.putCtx_reservoirs (s : State) (c : Ctx) : (s.putCtx c).reservoirs = s.reservoirs := by unfold State.putCtx; dsimp only; split <;> first | (simp; done) | (split <;> simp)
@[simp] theorem State.putCtx_weirs (s : State) (c : Ctx) : (s.putCtx c).weirs = s.weirs := by unfold State.putCtx; dsimp only; split <;> first | (simp; done) | (split <;> simp)
@[simp] theorem State.putCtx_wtCache (s : State) (c : Ctx) : (s.putCtx c).wtCache = s.wtCache := by unfold State.putCtx; dsimp only; split <;> first | (simp; done) | (split <;> simp)
@[simp] theorem State.putCtx_tickets (s : State) (c : Ctx) : (s.putCtx c).tickets = s.tickets := by unfold State.putCtx; dsimp only; split <;> first | (simp; done) | (split <;> simp)
@[simp] theorem State.putCtx_moves (s : State) (c : Ctx) : (s.putCtx c).moves = s.moves := by unfold State.putCtx; dsimp only; split <;> first | (simp; done) | (split <;> simp)
@[simp] theorem State.putCtx_colls (s : State) (c : Ctx) : (s.putCtx c).colls = s.colls := by unfold State.putCtx; dsimp only; split <;> first | (simp; done) | (split <;> simp)
@[simp] theorem State.putCtx_works (s : State) (c : Ctx) : (s.putCtx c).works = s.works := by unfold State.putCtx; dsimp only; split <;> first | (simp; done) | (split <;> simp)
@[simp] theorem State.putCtx_harts (s : State) (c : Ctx) : (s.putCtx c).harts = s.harts := by unfold State.putCtx; dsimp only; split <;> first | (simp; done) | (split <;> simp)
@[simp] theorem State.putCtx_savedArea (s : State) (c : Ctx) : (s.putCtx c).savedArea = s.savedArea := by unfold State.putCtx; dsimp only; split <;> first | (simp; done) | (split <;> simp)

@[simp] theorem State.noteEnd_power (s : State) (c0 c : Ctx) : (s.noteEnd c0 c).power = s.power := by unfold State.noteEnd; split <;> first | rfl | (split <;> simp)
@[simp] theorem State.noteEnd_tick (s : State) (c0 c : Ctx) : (s.noteEnd c0 c).tick = s.tick := by unfold State.noteEnd; split <;> first | rfl | (split <;> simp)
@[simp] theorem State.noteEnd_turn (s : State) (c0 c : Ctx) : (s.noteEnd c0 c).turn = s.turn := by unfold State.noteEnd; split <;> first | rfl | (split <;> simp)
@[simp] theorem State.noteEnd_cores (s : State) (c0 c : Ctx) : (s.noteEnd c0 c).cores = s.cores := by unfold State.noteEnd; split <;> first | rfl | (split <;> simp)
@[simp] theorem State.noteEnd_blocks (s : State) (c0 c : Ctx) : (s.noteEnd c0 c).blocks = s.blocks := by unfold State.noteEnd; split <;> first | rfl | (split <;> simp)
@[simp] theorem State.noteEnd_grids (s : State) (c0 c : Ctx) : (s.noteEnd c0 c).grids = s.grids := by unfold State.noteEnd; split <;> first | rfl | (split <;> simp)
@[simp] theorem State.noteEnd_vfs (s : State) (c0 c : Ctx) : (s.noteEnd c0 c).vfs = s.vfs := by unfold State.noteEnd; split <;> first | rfl | (split <;> simp)
@[simp] theorem State.noteEnd_parts (s : State) (c0 c : Ctx) : (s.noteEnd c0 c).parts = s.parts := by unfold State.noteEnd; split <;> first | rfl | (split <;> simp)
@[simp] theorem State.noteEnd_ms (s : State) (c0 c : Ctx) : (s.noteEnd c0 c).ms = s.ms := by unfold State.noteEnd; split <;> first | rfl | (split <;> simp)
@[simp] theorem State.noteEnd_boot (s : State) (c0 c : Ctx) : (s.noteEnd c0 c).boot = s.boot := by unfold State.noteEnd; split <;> first | rfl | (split <;> simp)
@[simp] theorem State.noteEnd_cfg (s : State) (c0 c : Ctx) : (s.noteEnd c0 c).cfg = s.cfg := by unfold State.noteEnd; split <;> first | rfl | (split <;> simp)
@[simp] theorem State.noteEnd_place (s : State) (c0 c : Ctx) : (s.noteEnd c0 c).place = s.place := by unfold State.noteEnd; split <;> first | rfl | (split <;> simp)
@[simp] theorem State.noteEnd_buckets (s : State) (c0 c : Ctx) : (s.noteEnd c0 c).buckets = s.buckets := by unfold State.noteEnd; split <;> first | rfl | (split <;> simp)
@[simp] theorem State.noteEnd_reservoirs (s : State) (c0 c : Ctx) : (s.noteEnd c0 c).reservoirs = s.reservoirs := by unfold State.noteEnd; split <;> first | rfl | (split <;> simp)
@[simp] theorem State.noteEnd_weirs (s : State) (c0 c : Ctx) : (s.noteEnd c0 c).weirs = s.weirs := by unfold State.noteEnd; split <;> first | rfl | (split <;> simp)
@[simp] theorem State.noteEnd_wtCache (s : State) (c0 c : Ctx) : (s.noteEnd c0 c).wtCache = s.wtCache := by unfold State.noteEnd; split <;> first | rfl | (split <;> simp)
@[simp] theorem State.noteEnd_tickets (s : State) (c0 c : Ctx) : (s.noteEnd c0 c).tickets = s.tickets := by unfold State.noteEnd; split <;> first | rfl | (split <;> simp)
@[simp] theorem State.noteEnd_moves (s : State) (c0 c : Ctx) : (s.noteEnd c0 c).moves = s.moves := by unfold State.noteEnd; split <;> first | rfl | (split <;> simp)
@[simp] theorem State.noteEnd_colls (s : State) (c0 c : Ctx) : (s.noteEnd c0 c).colls = s.colls := by unfold State.noteEnd; split <;> first | rfl | (split <;> simp)
@[simp] theorem State.noteEnd_works (s : State) (c0 c : Ctx) : (s.noteEnd c0 c).works = s.works := by unfold State.noteEnd; split <;> first | rfl | (split <;> simp)
@[simp] theorem State.noteEnd_harts (s : State) (c0 c : Ctx) : (s.noteEnd c0 c).harts = s.harts := by unfold State.noteEnd; split <;> first | rfl | (split <;> simp)
@[simp] theorem State.noteEnd_savedArea (s : State) (c0 c : Ctx) : (s.noteEnd c0 c).savedArea = s.savedArea := by unfold State.noteEnd; split <;> first | rfl | (split <;> simp)

@[simp] theorem State.retire_power (s : State) (c0 c : Ctx) (npc : BitVec 64) : (s.retire c0 c npc).power = s.power := by simp [State.retire]
@[simp] theorem State.retire_tick (s : State) (c0 c : Ctx) (npc : BitVec 64) : (s.retire c0 c npc).tick = s.tick := by simp [State.retire]
@[simp] theorem State.retire_turn (s : State) (c0 c : Ctx) (npc : BitVec 64) : (s.retire c0 c npc).turn = s.turn := by simp [State.retire]
@[simp] theorem State.retire_cores (s : State) (c0 c : Ctx) (npc : BitVec 64) : (s.retire c0 c npc).cores = s.cores := by simp [State.retire]
@[simp] theorem State.retire_blocks (s : State) (c0 c : Ctx) (npc : BitVec 64) : (s.retire c0 c npc).blocks = s.blocks := by simp [State.retire]
@[simp] theorem State.retire_grids (s : State) (c0 c : Ctx) (npc : BitVec 64) : (s.retire c0 c npc).grids = s.grids := by simp [State.retire]
@[simp] theorem State.retire_vfs (s : State) (c0 c : Ctx) (npc : BitVec 64) : (s.retire c0 c npc).vfs = s.vfs := by simp [State.retire]
@[simp] theorem State.retire_parts (s : State) (c0 c : Ctx) (npc : BitVec 64) : (s.retire c0 c npc).parts = s.parts := by simp [State.retire]
@[simp] theorem State.retire_ms (s : State) (c0 c : Ctx) (npc : BitVec 64) : (s.retire c0 c npc).ms = s.ms := by simp [State.retire]
@[simp] theorem State.retire_boot (s : State) (c0 c : Ctx) (npc : BitVec 64) : (s.retire c0 c npc).boot = s.boot := by simp [State.retire]
@[simp] theorem State.retire_cfg (s : State) (c0 c : Ctx) (npc : BitVec 64) : (s.retire c0 c npc).cfg = s.cfg := by simp [State.retire]
@[simp] theorem State.retire_place (s : State) (c0 c : Ctx) (npc : BitVec 64) : (s.retire c0 c npc).place = s.place := by simp [State.retire]
@[simp] theorem State.retire_buckets (s : State) (c0 c : Ctx) (npc : BitVec 64) : (s.retire c0 c npc).buckets = s.buckets := by simp [State.retire]
@[simp] theorem State.retire_reservoirs (s : State) (c0 c : Ctx) (npc : BitVec 64) : (s.retire c0 c npc).reservoirs = s.reservoirs := by simp [State.retire]
@[simp] theorem State.retire_weirs (s : State) (c0 c : Ctx) (npc : BitVec 64) : (s.retire c0 c npc).weirs = s.weirs := by simp [State.retire]
@[simp] theorem State.retire_wtCache (s : State) (c0 c : Ctx) (npc : BitVec 64) : (s.retire c0 c npc).wtCache = s.wtCache := by simp [State.retire]
@[simp] theorem State.retire_tickets (s : State) (c0 c : Ctx) (npc : BitVec 64) : (s.retire c0 c npc).tickets = s.tickets := by simp [State.retire]
@[simp] theorem State.retire_moves (s : State) (c0 c : Ctx) (npc : BitVec 64) : (s.retire c0 c npc).moves = s.moves := by simp [State.retire]
@[simp] theorem State.retire_colls (s : State) (c0 c : Ctx) (npc : BitVec 64) : (s.retire c0 c npc).colls = s.colls := by simp [State.retire]
@[simp] theorem State.retire_works (s : State) (c0 c : Ctx) (npc : BitVec 64) : (s.retire c0 c npc).works = s.works := by simp [State.retire]
@[simp] theorem State.retire_harts (s : State) (c0 c : Ctx) (npc : BitVec 64) : (s.retire c0 c npc).harts = s.harts := by simp [State.retire]
@[simp] theorem State.retire_savedArea (s : State) (c0 c : Ctx) (npc : BitVec 64) : (s.retire c0 c npc).savedArea = s.savedArea := by simp [State.retire]

@[simp] theorem State.stay_power (s : State) (c0 c : Ctx) (w : Wait) : (s.stay c0 c w).power = s.power := by unfold State.stay State.holdCtx; split <;> simp
@[simp] theorem State.stay_tick (s : State) (c0 c : Ctx) (w : Wait) : (s.stay c0 c w).tick = s.tick := by unfold State.stay State.holdCtx; split <;> simp
@[simp] theorem State.stay_turn (s : State) (c0 c : Ctx) (w : Wait) : (s.stay c0 c w).turn = s.turn := by unfold State.stay State.holdCtx; split <;> simp
@[simp] theorem State.stay_cores (s : State) (c0 c : Ctx) (w : Wait) : (s.stay c0 c w).cores = s.cores := by unfold State.stay State.holdCtx; split <;> simp
@[simp] theorem State.stay_blocks (s : State) (c0 c : Ctx) (w : Wait) : (s.stay c0 c w).blocks = s.blocks := by unfold State.stay State.holdCtx; split <;> simp
@[simp] theorem State.stay_grids (s : State) (c0 c : Ctx) (w : Wait) : (s.stay c0 c w).grids = s.grids := by unfold State.stay State.holdCtx; split <;> simp
@[simp] theorem State.stay_vfs (s : State) (c0 c : Ctx) (w : Wait) : (s.stay c0 c w).vfs = s.vfs := by unfold State.stay State.holdCtx; split <;> simp
@[simp] theorem State.stay_parts (s : State) (c0 c : Ctx) (w : Wait) : (s.stay c0 c w).parts = s.parts := by unfold State.stay State.holdCtx; split <;> simp
@[simp] theorem State.stay_ms (s : State) (c0 c : Ctx) (w : Wait) : (s.stay c0 c w).ms = s.ms := by unfold State.stay State.holdCtx; split <;> simp
@[simp] theorem State.stay_boot (s : State) (c0 c : Ctx) (w : Wait) : (s.stay c0 c w).boot = s.boot := by unfold State.stay State.holdCtx; split <;> simp
@[simp] theorem State.stay_cfg (s : State) (c0 c : Ctx) (w : Wait) : (s.stay c0 c w).cfg = s.cfg := by unfold State.stay State.holdCtx; split <;> simp
@[simp] theorem State.stay_place (s : State) (c0 c : Ctx) (w : Wait) : (s.stay c0 c w).place = s.place := by unfold State.stay State.holdCtx; split <;> simp
@[simp] theorem State.stay_buckets (s : State) (c0 c : Ctx) (w : Wait) : (s.stay c0 c w).buckets = s.buckets := by unfold State.stay State.holdCtx; split <;> simp
@[simp] theorem State.stay_reservoirs (s : State) (c0 c : Ctx) (w : Wait) : (s.stay c0 c w).reservoirs = s.reservoirs := by unfold State.stay State.holdCtx; split <;> simp
@[simp] theorem State.stay_weirs (s : State) (c0 c : Ctx) (w : Wait) : (s.stay c0 c w).weirs = s.weirs := by unfold State.stay State.holdCtx; split <;> simp
@[simp] theorem State.stay_wtCache (s : State) (c0 c : Ctx) (w : Wait) : (s.stay c0 c w).wtCache = s.wtCache := by unfold State.stay State.holdCtx; split <;> simp
@[simp] theorem State.stay_tickets (s : State) (c0 c : Ctx) (w : Wait) : (s.stay c0 c w).tickets = s.tickets := by unfold State.stay State.holdCtx; split <;> simp
@[simp] theorem State.stay_moves (s : State) (c0 c : Ctx) (w : Wait) : (s.stay c0 c w).moves = s.moves := by unfold State.stay State.holdCtx; split <;> simp
@[simp] theorem State.stay_colls (s : State) (c0 c : Ctx) (w : Wait) : (s.stay c0 c w).colls = s.colls := by unfold State.stay State.holdCtx; split <;> simp
@[simp] theorem State.stay_works (s : State) (c0 c : Ctx) (w : Wait) : (s.stay c0 c w).works = s.works := by unfold State.stay State.holdCtx; split <;> simp
@[simp] theorem State.stay_harts (s : State) (c0 c : Ctx) (w : Wait) : (s.stay c0 c w).harts = s.harts := by unfold State.stay State.holdCtx; split <;> simp
@[simp] theorem State.stay_savedArea (s : State) (c0 c : Ctx) (w : Wait) : (s.stay c0 c w).savedArea = s.savedArea := by unfold State.stay State.holdCtx; split <;> simp

end Sys2Proof.Machine
end

