-- ==== Sys2Proof/Laws/Frame.lean ====
section
/-! SUPPORT. What the shared operations leave alone: memory and all that guards it stays as it is through
retiring, waiting, taking an exception, halting and the barriers. -/

namespace Sys2Proof.Machine

/-- What one step of a fold keeps, the fold keeps. -/
theorem foldl_keep {α β : Type} {γ : Type} (P : α → γ) (f : α → β → α) (h : ∀ s b, P (f s b) = P s) (l : List β) (s : α) :
    P (l.foldl f s) = P s := by
  induction l generalizing s with
  | nil => rfl
  | cons b r ih => simp [ih, h]

@[simp] theorem State.freeWord_ms (s : State) : s.freeWord.2.ms = s.ms := rfl
@[simp] theorem State.fresh_ms (s : State) : s.fresh.2.ms = s.ms := rfl
@[simp] theorem State.msixMessage_ms (s : State) (p : Nat) (vf : Option Nat) (vec : Nat) (m : MsixVec) : (s.msixMessage p vf vec m).ms = s.ms := by
  unfold State.msixMessage; simp only; split <;> rfl
@[simp] theorem State.signalMsix_ms (s : State) (vf vec : Nat) : (s.signalMsix vf vec).ms = s.ms := by
  unfold State.signalMsix; simp only; split <;> simp [State.setVf]
@[simp] theorem State.signalPf_ms (s : State) (vec : Nat) : (s.signalPf vec).ms = s.ms := by unfold State.signalPf; simp only; split <;> simp
/-- Memory and what guards it, without a hypervisor's denials that wait for the access that they answer (R102). -/
def MemSys.settled (m : MemSys) : MemSys := { m with denials := [] }

/-- What leaves all of it alone leaves this alone. -/
theorem settled_of_ms {s t : State} (h : t.ms = s.ms) : t.ms.settled = s.ms.settled := by rw [h]

@[simp] theorem State.forgetDenials_settled (s : State) (f : Option Issuer → Bool) : (s.forgetDenials f).ms.settled = s.ms.settled := by
  unfold State.forgetDenials; split <;> rfl
@[simp] theorem State.forgetEntries_settled (s : State) (gid : Nat) (l : List Nat) : (s.forgetEntries gid l).ms.settled = s.ms.settled := by
  simp [State.forgetEntries]
@[simp] theorem State.abortLanes_settled (s : State) (gid : Nat) (l : List LaneAbort) : (s.abortLanes gid l).ms.settled = s.ms.settled := by
  unfold State.abortLanes; split <;> simp
@[simp] theorem State.releaseLock_ms (s : State) (p : Nat) : (s.releaseLock p).ms = s.ms := rfl
@[simp] theorem State.releaseLockAfter_ms (s : State) (p vf : Nat) (l : List Nat) : (s.releaseLockAfter p vf l).ms = s.ms := by
  unfold State.releaseLockAfter; split <;> simp
@[simp] theorem State.releaseLockHalted_ms (s : State) (gid : Nat) : (s.releaseLockHalted gid).ms = s.ms := by
  unfold State.releaseLockHalted
  split
  · split <;> simp
  · rfl
@[simp] theorem State.releaseLockOf_ms (s : State) (gid : Nat) (m : BitVec 64) : (s.releaseLockOf gid m).ms = s.ms := by
  unfold State.releaseLockOf; simp only; split
  · split <;> simp
  · rfl
@[simp] theorem State.evalBar_ms (s : State) (b id : Nat) : (s.evalBar b id).ms = s.ms := by
  unfold State.evalBar
  split
  · rfl
  · split
    · rfl
    · simp only
      split
      · split
        · rw [State.dropL1_ms, foldl_keep (fun x : State => x.ms)] <;> simp
        · rw [foldl_keep (fun x : State => x.ms)] <;> simp
      · rfl
@[simp] theorem State.evalBarg_ms (s : State) (g x id : Nat) : (s.evalBarg g x id).ms = s.ms := by
  unfold State.evalBarg
  split
  · rfl
  · simp only
    split
    · rw [foldl_keep (fun x : State => x.ms) _ (by simp), foldl_keep (fun x : State => x.ms) _ (by simp)]; simp
    · rfl
@[simp] theorem State.evalBarriers_ms (s : State) (gid : Nat) : (s.evalBarriers gid).ms = s.ms := by
  unfold State.evalBarriers
  split
  · rfl
  · simp only
    split
    · split
      · rw [foldl_keep (fun x : State => x.ms) _ (by simp)]
      · rw [foldl_keep (fun x : State => x.ms) _ (by simp), foldl_keep (fun x : State => x.ms) _ (by simp)]
    · rw [foldl_keep (fun x : State => x.ms) _ (by simp)]
@[simp] theorem State.wakeLinked_ms (s : State) (gid : Nat) : (s.wakeLinked gid).ms = s.ms := by
  unfold State.wakeLinked; rw [foldl_keep (fun x : State => x.ms) _ (by simp)]
@[simp] theorem State.releaseBlock_ms (s : State) (b : Nat) : (s.releaseBlock b).ms = s.ms := by
  unfold State.releaseBlock
  split
  · rfl
  · split
    · simp only; split <;> simp
    · split <;> rfl
@[simp] theorem State.afterExit_ms (s : State) (gid : Nat) : (s.afterExit gid).ms = s.ms := by
  unfold State.afterExit; simp only; split <;> simp
@[simp] theorem State.withdrawGroup_ms (s : State) (gid : Nat) : (s.withdrawGroup gid).ms = s.ms := rfl
@[simp] theorem State.freeHandler_settled (s : State) (h : Nat) : (s.freeHandler h).ms.settled = s.ms.settled := by
  simp only [State.freeHandler, State.schedule_ms, State.forgetDenials_settled]
@[simp] theorem State.haltGroup_settled (s : State) (gid : Nat) : (s.haltGroup gid).ms.settled = s.ms.settled := by
  unfold State.haltGroup
  split
  · rfl
  · split
    · rfl
    · simp only
      rw [State.afterExit_ms]
      split
      · split <;> simp
      · simp
@[simp] theorem State.reportError_ms (s : State) (gid st det : Nat) (pc : BitVec 64) : (s.reportError gid st det pc).ms = s.ms := by
  unfold State.reportError; split <;> rfl
@[simp] theorem State.queueTrap_ms (s : State) (gid : Nat) : (s.queueTrap gid).ms = s.ms := by
  unfold State.queueTrap; simp
@[simp] theorem State.trapGroup_ms (s : State) (gid : Nat) (f : FaultInfo) : (s.trapGroup gid f).ms = s.ms := by
  unfold State.trapGroup; simp
@[simp] theorem State.doubleFault_settled (s : State) (gid : Nat) (pc : BitVec 64) : (s.doubleFault gid pc).ms.settled = s.ms.settled := by
  unfold State.doubleFault; simp
@[simp] theorem State.passRest_ms (s : State) (c : Ctx) (m : BitVec 64) : (s.passRest c m).ms = s.ms := by
  unfold State.passRest; split <;> simp
@[simp] theorem State.abortInPlace_ms (s : State) (gid : Nat) (r : FaultReq) : (s.abortInPlace gid r).1.ms = s.ms := by
  unfold State.abortInPlace; split
  · split <;> simp
  · rfl
/-- Taking an exception leaves memory as it is (R182). -/
@[simp] theorem State.raise_settled (s : State) (c0 c : Ctx) (w : BitVec 32) (r : FaultReq) : (s.raise c0 c w r).ms.settled = s.ms.settled := by
  unfold State.raise
  split
  · simp
  · simp only
    split
    · simp
    · split
      · simp
      · split <;> simp
@[simp] theorem State.leaveHandler_settled (s : State) (h gid : Nat) : (s.leaveHandler h gid).ms.settled = s.ms.settled := by
  unfold State.leaveHandler; simp
/-- The state that an issue ends in, and what it has of the state that its effect left. -/
theorem finish_settled (c0 : Ctx) (w : BitVec 32) (d : Done) : ∃ t, finish c0 w d = .next t ∧
    t.ms.settled = (match d with | .retire s _ _ => s | .stay s _ _ => s | .fault s _ _ => s | .next s => s).ms.settled := by
  cases d <;> exact ⟨_, rfl, by simp⟩

end Sys2Proof.Machine
end

