-- ==== Sys2Proof/Laws/Memory.lean ====
section
/-! SUPPORT. Memory: reading after a write, what a write leaves alone, and that every operation that changes
memory keeps its canonical form. -/

namespace Sys2Proof.Machine

/-! Bytes. -/

/-- A byte after a list of bytes is written from an offset on: of the list, or as before. -/
theorem getD_putBytes (m : FMap Byte) (off : Nat) (b : List Byte) (a : Nat) :
    FMap.getD (putBytes m off b) 0#8 a = if off ≤ a ∧ a < off + b.length then b.getD (a - off) 0#8 else FMap.getD m 0#8 a := by
  induction b generalizing m off with
  | nil => rw [putBytes, if_neg (by simp only [List.length_nil]; omega)]
  | cons x r ih =>
    rw [putBytes, ih]
    by_cases h : a = off
    · subst h
      rw [FMap.getD_setD_same, if_neg (by omega), if_pos (by simp)]
      simp
    · rw [FMap.getD_setD_other _ _ (Ne.symm h)]
      by_cases h2 : off + 1 ≤ a ∧ a < off + 1 + r.length
      · have h3 : off ≤ a ∧ a < off + (x :: r).length := by simp; omega
        rw [if_pos h2, if_pos h3]
        obtain ⟨k, hk⟩ : ∃ k, a - off = k + 1 := ⟨a - off - 1, by omega⟩
        rw [hk, show a - (off + 1) = k by omega]; rfl
      · have h3 : ¬ (off ≤ a ∧ a < off + (x :: r).length) := by simp; omega
        rw [if_neg h2, if_neg h3]

/-- Writing bytes keeps the canonical form. -/
theorem Memory.wf_putBytes (m : List Host.Cell) (off : Nat) (b : List Byte) (h : Memory.wf m = true) : Memory.wf (putBytes m off b) = true := by
  induction b generalizing m off with
  | nil => exact h
  | cons x r ih => exact ih _ _ (FMap.wf_setD m 0#8 off x h)

/-- Removing cells keeps the canonical form. -/
theorem Memory.wf_filterKV (m : List Host.Cell) (f : Nat → Byte → Bool) (h : Memory.wf m = true) : Memory.wf (FMap.filterKV f m) = true :=
  FMap.wf_filterKV m 0#8 f h

/-- Memory after reset is canonical: it lists nothing. -/
theorem Memory.wf_reset : Memory.wf State.reset.ms.mem = true := rfl

/-! What the home's bookkeeping leaves alone. -/

theorem State.touchLine_mem (s : State) (p line bits : Nat) (w : Bool) : (s.touchLine p line bits w).2.ms.mem = s.ms.mem := by
  unfold State.touchLine
  simp only
  split
  · rfl
  · split
    · rfl
    · split
      · rfl
      · split <;> rfl

theorem State.touchL2_mem (s : State) (p key n : Nat) (w : Bool) : (s.touchL2 p key n w).2.ms.mem = s.ms.mem := by
  unfold State.touchL2
  exact foldl_keep (fun x : Bool × State => x.2.ms.mem) _ (by intro r line; simp only [State.touchLine_mem]) _ (false, s)

theorem State.noteReadLine_mem (s : State) (off n line : Nat) : (s.noteReadLine off n line).ms.mem = s.ms.mem := by
  unfold State.noteReadLine; split <;> rfl

theorem State.noteRead_mem (s : State) (off n : Nat) : (s.noteRead off n).ms.mem = s.ms.mem := by
  unfold State.noteRead; exact foldl_keep (fun x : State => x.ms.mem) _ (fun s l => s.noteReadLine_mem off n l) _ s

/-- A read at home leaves memory as it is. -/
theorem State.readHome_mem (s : State) (p off n : Nat) : (s.readHome p off n).ms.mem = s.ms.mem := by
  unfold State.readHome; rw [State.touchL2_mem, State.noteRead_mem]

theorem State.clearPoison_mem (s : State) (l : List (Nat × Nat)) : (s.clearPoison l).ms.mem = s.ms.mem := rfl

theorem State.setPoison_mem (s : State) (sec : Nat) (b : Bool) : (s.setPoison sec b).ms.mem = s.ms.mem := rfl

@[simp] theorem State.abortHart_ms (s : State) (k code detail : Nat) : (s.abortHart k code detail).ms = s.ms := by
  unfold State.abortHart; split <;> rfl

@[simp] theorem State.checkHost_ms (s : State) (off : Nat) : (s.checkHost off).ms = s.ms := by
  unfold State.checkHost
  rw [foldl_keep (fun x : State => x.ms)]
  intro s b
  simp only
  split
  · rw [State.abortHart_ms]
  · rfl

@[simp] theorem State.wakeWatch_ms (s : State) (w : Option Nat) (k : Nat) : (s.wakeWatch w k).ms = s.ms := rfl

@[simp] theorem State.wakeBow_ms (s : State) (l : Nat) : (s.wakeBow l).ms = s.ms := by
  unfold State.wakeBow
  rw [foldl_keep (fun x : State => x.ms)]
  intro s b
  rw [foldl_keep (fun x : State => x.ms)]
  intro s b
  split
  · split <;> rfl
  · rfl

@[simp] theorem State.wakeQueues_ms (s : State) (l : Nat) : (s.wakeQueues l).ms = s.ms := by
  unfold State.wakeQueues
  rw [foldl_keep (fun x : State => x.ms)]
  intro s b
  simp only
  split <;> split <;> rfl

@[simp] theorem State.tellPeers_ms (s : State) (l : Nat) (d : DirEntry) : (s.tellPeers l d).ms = s.ms := by
  unfold State.tellPeers
  rw [foldl_keep (fun x : State => x.ms)]
  intro s q; rfl

@[simp] theorem State.dropCopies_mem (s : State) (off n l : Nat) : (s.dropCopies off n l).ms.mem = s.ms.mem := by
  unfold State.dropCopies
  split
  · rfl
  · simp

theorem State.noteWrite_mem (s : State) (w : Option Nat) (off n : Nat) : (s.noteWrite w off n).ms.mem = s.ms.mem := by
  unfold State.noteWrite
  simp only
  refine (foldl_keep (fun x : State => x.ms.mem) _ (by intro s b; simp) _ _).trans ?_
  refine (foldl_keep (fun x : State => x.ms.mem) _ (by intro s b; simp) _ _).trans ?_
  have h : ∀ s : State, ((spanUnits 256 off n).foldl (fun s l => s.dropCopies off n l) s).ms.mem = s.ms.mem :=
    fun s => foldl_keep (fun x : State => x.ms.mem) _ (by intro s b; simp) _ s
  split
  · exact h s
  · exact (foldl_keep (fun x : State => x.ms.mem) _ (by intro s b; simp) _ _).trans (h s)

theorem State.noteRange_mem (s : State) (lo n : Nat) : (s.noteRange lo n).ms.mem = s.ms.mem := by
  unfold State.noteRange
  simp only
  refine (foldl_keep (fun x : State => x.ms.mem) _ (by intro s b; simp) _ _).trans ?_
  refine (foldl_keep (fun x : State => x.ms.mem) _ (fun s q => ?_) _ _).trans ?_
  · refine (foldl_keep (fun x : State => x.ms.mem) _ (fun s e => ?_) _ _).trans ?_
    · split
      · split <;> rfl
      · rfl
    · exact foldl_keep (fun x : State => x.ms.mem) _ (by intro s b; simp) _ _
  refine (foldl_keep (fun x : State => x.ms.mem) _ (fun s k => ?_) _ _).trans ?_
  · split
    · rw [State.abortHart_ms]
    · rfl
  exact foldl_keep (fun x : State => x.ms.mem) _ (by intro s b; simp) _ s

/-- Two runs of rising keys with a bound between them rise together. -/
theorem FMap.rising_append {α : Type} (l r : FMap α) (lo c : Nat) (hl : FMap.rising lo l = true) (hc : lo ≤ c)
    (hk : ∀ q ∈ l, q.1 < c) (hr : FMap.rising c r = true) : FMap.rising lo (l ++ r) = true := by
  induction l generalizing lo with
  | nil => exact FMap.rising_mono r hc hr
  | cons q l ih =>
    simp only [FMap.rising, Bool.and_eq_true, decide_eq_true_eq, List.cons_append] at *
    exact ⟨hl.1, ih _ hl.2 (hk q (List.mem_cons_self ..)) fun p hp => hk p (List.mem_cons_of_mem _ hp)⟩

/-- Keys above a bound rise from the bound on. -/
theorem FMap.rising_above {α : Type} (l : FMap α) (lo c : Nat) (hl : FMap.rising lo l = true) (hk : ∀ q ∈ l, c ≤ q.1) :
    FMap.rising c l = true := by
  cases l with
  | nil => rfl
  | cons q l =>
    simp only [FMap.rising, Bool.and_eq_true, decide_eq_true_eq] at *
    exact ⟨hk q (List.mem_cons_self ..), hl.2⟩

/-- The entries of a run of bytes rise from its first address on. -/
theorem rising_run (a : Nat) (b : List Byte) : FMap.rising a (b.mapIdx (fun i x => (a + i, x))) = true := by
  induction b generalizing a with
  | nil => rfl
  | cons x r ih =>
    rw [List.mapIdx_cons]
    simp only [FMap.rising, Nat.add_zero, Nat.le_refl, decide_true, Bool.true_and]
    have := ih (a + 1)
    simpa [Nat.add_assoc, Nat.add_comm 1] using this

/-- Splicing a run of bytes into memory keeps the canonical form. -/
theorem Memory.wf_spliceBytes (m : FMap Byte) (a : Nat) (b : List Byte) (h : Memory.wf m = true) : Memory.wf (spliceBytes m a b) = true := by
  unfold Memory.wf FMap.wf spliceBytes at *
  simp only [Bool.and_eq_true, List.all_eq_true, List.all_append, decide_eq_true_eq, FMap.filterKV] at *
  have hlow := FMap.rising_filter m 0 (fun p => decide (p.1 < a)) h.1
  have hrun := FMap.rising_filter _ a (fun q : Nat × Byte => decide (q.2 ≠ 0#8)) (rising_run a b)
  have hhigh : FMap.rising (a + b.length) (m.filter (fun p => decide (a + b.length ≤ p.1))) = true :=
    FMap.rising_above _ 0 _ (FMap.rising_filter m 0 _ h.1) (by simp)
  refine ⟨?_, ⟨fun q hq => h.2 q (List.mem_filter.1 hq).1, fun q hq => by simpa using (List.mem_filter.1 hq).2⟩,
    fun q hq => h.2 q (List.mem_filter.1 hq).1⟩
  rw [List.append_assoc]
  refine FMap.rising_append _ _ 0 a hlow (Nat.zero_le _) (by simp) (FMap.rising_append _ _ a (a + b.length) hrun (by omega) ?_ hhigh)
  intro q hq
  obtain ⟨i, hi, rfl⟩ := List.mem_mapIdx.1 (List.mem_filter.1 hq).1
  simp only; omega

/-! The operations that change memory. -/

/-- A write at home puts its bytes and nothing else. -/
theorem State.writeHome_mem (s : State) (w : Option Nat) (p off : Nat) (b : List Byte) : (s.writeHome w p off b).ms.mem = putBytes s.ms.mem off b := by
  unfold State.writeHome
  simp only [State.noteWrite_mem, State.touchL2_mem]

theorem State.wf_writeHome (s : State) (w : Option Nat) (p off : Nat) (b : List Byte) (h : Memory.wf s.ms.mem = true) :
    Memory.wf (s.writeHome w p off b).ms.mem = true := by
  rw [State.writeHome_mem]; exact Memory.wf_putBytes _ _ _ h

theorem State.wf_pokeHyper (s : State) (pa : Nat) (b : List Byte) (h : Memory.wf s.ms.mem = true) : Memory.wf (s.pokeHyper pa b).ms.mem = true := by
  unfold State.pokeHyper
  split
  · rw [State.noteWrite_mem]; exact Memory.wf_putBytes _ _ _ h
  · exact h

theorem State.wf_wipe (s : State) (lo n : Nat) (h : Memory.wf s.ms.mem = true) : Memory.wf (s.wipe lo n).ms.mem = true := by
  have e : (s.wipe lo n).ms.mem = FMap.filterKV (fun k _ => !decide (lo ≤ k * 1 ∧ k * 1 < lo + n)) s.ms.mem := by
    unfold State.wipe; rw [State.noteRange_mem]
  rw [e]
  exact Memory.wf_filterKV _ _ h

theorem State.wf_storeWeir (s : State) (off : Nat) (w : Weir) (h : Memory.wf s.ms.mem = true) : Memory.wf (s.storeWeir off w).ms.mem = true := by
  unfold State.storeWeir; rw [State.noteWrite_mem]; exact Memory.wf_putBytes _ _ _ h

theorem State.wf_storeWeirState (s : State) (off v : Nat) (h : Memory.wf s.ms.mem = true) : Memory.wf (s.storeWeirState off v).ms.mem = true := by
  unfold State.storeWeirState; rw [State.noteWrite_mem]; exact Memory.wf_putBytes _ _ _ h

theorem State.wf_cold (s : State) (p : Bool) : Memory.wf (s.cold p).ms.mem = true := rfl

/-- A write in the Pool leaves the tiers alone. -/
theorem State.poolWrite_ms (s : State) (w : Option Nat) (bk core : Nat) (l : PoolLoc) (b : List Byte) : (s.poolWrite w bk core l b).ms = s.ms := by
  unfold State.poolWrite; cases l <;> simp

/-- A fold of memory writes keeps the canonical form where each of them does. -/
theorem foldl_wf {β : Type} (f : State → β → State) (h : ∀ s b, Memory.wf s.ms.mem = true → Memory.wf (f s b).ms.mem = true) (l : List β) (s : State)
    (hs : Memory.wf s.ms.mem = true) : Memory.wf (l.foldl f s).ms.mem = true := by
  induction l generalizing s with
  | nil => exact hs
  | cons b r ih => exact ih _ (h s b hs)

end Sys2Proof.Machine
end

