-- ==== Sys2Proof/Laws/PerInstr.lean ====
section
/-! SUPPORT. The per-instruction family Encoding: an instruction has a word exactly when it is no
event of the opcode table (R302, R9). -/

/-- The instruction has a word unless it is an event. -/
def Sys2Proof.Laws.Encoding.Statement (i : Sys2Proof.Instr) : Prop :=
  (Sys2Proof.encode i).isNone = i.isEvent

theorem Sys2Proof.Laws.Encoding.powerGood : Sys2Proof.Laws.Encoding.Statement (.powerGood) := rfl
theorem Sys2Proof.Laws.Encoding.imageOffer (bytes : List (BitVec 8)) : Sys2Proof.Laws.Encoding.Statement (.imageOffer bytes) := rfl
theorem Sys2Proof.Laws.Encoding.selfTestComplete (linksOk : Bool) (passing : List Nat) : Sys2Proof.Laws.Encoding.Statement (.selfTestComplete linksOk passing) := rfl
theorem Sys2Proof.Laws.Encoding.rowRepairInService (row : RepairRow) : Sys2Proof.Laws.Encoding.Statement (.rowRepairInService row) := rfl
theorem Sys2Proof.Laws.Encoding.l2WayFailure (slice : Nat) : Sys2Proof.Laws.Encoding.Statement (.l2WayFailure slice) := rfl
theorem Sys2Proof.Laws.Encoding.powerCapExceeded : Sys2Proof.Laws.Encoding.Statement (.powerCapExceeded) := rfl
theorem Sys2Proof.Laws.Encoding.throttleStepDown : Sys2Proof.Laws.Encoding.Statement (.throttleStepDown) := rfl
theorem Sys2Proof.Laws.Encoding.thermalThrottle : Sys2Proof.Laws.Encoding.Statement (.thermalThrottle) := rfl
theorem Sys2Proof.Laws.Encoding.thermalRecover : Sys2Proof.Laws.Encoding.Statement (.thermalRecover) := rfl
theorem Sys2Proof.Laws.Encoding.thermalShutdown : Sys2Proof.Laws.Encoding.Statement (.thermalShutdown) := rfl
theorem Sys2Proof.Laws.Encoding.millracePortFailure (port : Nat) : Sys2Proof.Laws.Encoding.Statement (.millracePortFailure port) := rfl
theorem Sys2Proof.Laws.Encoding.millracePathTimeout (pkg : Nat) : Sys2Proof.Laws.Encoding.Statement (.millracePathTimeout pkg) := rfl
theorem Sys2Proof.Laws.Encoding.millracePacketRx (vf : Nat) (gen : Nat) (ppid : Nat) (req : PeerRequest) (pa : Nat) (body : PacketBody) : Sys2Proof.Laws.Encoding.Statement (.millracePacketRx vf gen ppid req pa body) := rfl
theorem Sys2Proof.Laws.Encoding.flushMarker (marker : Marker) : Sys2Proof.Laws.Encoding.Statement (.flushMarker marker) := rfl
theorem Sys2Proof.Laws.Encoding.flushAnswer (gid : Nat) (marker : Marker) : Sys2Proof.Laws.Encoding.Statement (.flushAnswer gid marker) := rfl
theorem Sys2Proof.Laws.Encoding.estuaryPacketRx (vf : Nat) (gen : Nat) (head : EstuaryHead) (va : Nat) (bytes : List (BitVec 8)) (counter : Option Nat) : Sys2Proof.Laws.Encoding.Statement (.estuaryPacketRx vf gen head va bytes counter) := rfl
theorem Sys2Proof.Laws.Encoding.estuaryRetxTimeout (conn : Nat) (vf : Nat) (port : Nat) (seq : Nat) (packet : RetxPacket) (nak : Bool) : Sys2Proof.Laws.Encoding.Statement (.estuaryRetxTimeout conn vf port seq packet nak) := rfl
theorem Sys2Proof.Laws.Encoding.estuaryWorkComplete (id : Nat) (status : Nat) (bytes : List (BitVec 8)) : Sys2Proof.Laws.Encoding.Statement (.estuaryWorkComplete id status bytes) := rfl
theorem Sys2Proof.Laws.Encoding.assistDone (part : Nat) (slot : Nat) : Sys2Proof.Laws.Encoding.Statement (.assistDone part slot) := rfl
theorem Sys2Proof.Laws.Encoding.registerWrite (agent : Nat) (off : Nat) (size : Nat) (val : BitVec 64) : Sys2Proof.Laws.Encoding.Statement (.registerWrite agent off size val) := rfl
theorem Sys2Proof.Laws.Encoding.lqtailWrite (vf : Nat) (val : BitVec 64) : Sys2Proof.Laws.Encoding.Statement (.lqtailWrite vf val) := rfl
theorem Sys2Proof.Laws.Encoding.vfctlEn (vf : Nat) (en : Bool) : Sys2Proof.Laws.Encoding.Statement (.vfctlEn vf en) := rfl
theorem Sys2Proof.Laws.Encoding.qreset (vf : Nat) : Sys2Proof.Laws.Encoding.Statement (.qreset vf) := rfl
theorem Sys2Proof.Laws.Encoding.vreset (vf : Nat) : Sys2Proof.Laws.Encoding.Statement (.vreset vf) := rfl
theorem Sys2Proof.Laws.Encoding.hsdoneWrite (vf : Nat) (slot : Nat) : Sys2Proof.Laws.Encoding.Statement (.hsdoneWrite vf slot) := rfl
theorem Sys2Proof.Laws.Encoding.hcallResume (vf : Nat) (slot : Nat) : Sys2Proof.Laws.Encoding.Statement (.hcallResume vf slot) := rfl
theorem Sys2Proof.Laws.Encoding.recordStart (vf : Nat) : Sys2Proof.Laws.Encoding.Statement (.recordStart vf) := rfl
theorem Sys2Proof.Laws.Encoding.recordWaitSatisfied (vf : Nat) : Sys2Proof.Laws.Encoding.Statement (.recordWaitSatisfied vf) := rfl
theorem Sys2Proof.Laws.Encoding.wobjReread (vf : Nat) : Sys2Proof.Laws.Encoding.Statement (.wobjReread vf) := rfl
theorem Sys2Proof.Laws.Encoding.dlqRecordStart (vf : Nat) : Sys2Proof.Laws.Encoding.Statement (.dlqRecordStart vf) := rfl
theorem Sys2Proof.Laws.Encoding.contextErrorReport (grid : Nat) (status : Nat) (detail : Nat) (core : Nat) (slot : Nat) (pc : Nat) : Sys2Proof.Laws.Encoding.Statement (.contextErrorReport grid status detail core slot pc) := rfl
theorem Sys2Proof.Laws.Encoding.gridCompletion (grid : Nat) : Sys2Proof.Laws.Encoding.Statement (.gridCompletion grid) := rfl
theorem Sys2Proof.Laws.Encoding.pclusWrite (part : Nat) (val : BitVec 64) : Sys2Proof.Laws.Encoding.Statement (.pclusWrite part val) := rfl
theorem Sys2Proof.Laws.Encoding.l2qWrite (part : Nat) (val : BitVec 64) : Sys2Proof.Laws.Encoding.Statement (.l2qWrite part val) := rfl
theorem Sys2Proof.Laws.Encoding.mrportsWrite (part : Nat) (val : BitVec 64) : Sys2Proof.Laws.Encoding.Statement (.mrportsWrite part val) := rfl
theorem Sys2Proof.Laws.Encoding.estpWrite (part : Nat) (val : BitVec 64) : Sys2Proof.Laws.Encoding.Statement (.estpWrite part val) := rfl
theorem Sys2Proof.Laws.Encoding.wtinvWrite (part : Nat) : Sys2Proof.Laws.Encoding.Statement (.wtinvWrite part) := rfl
theorem Sys2Proof.Laws.Encoding.stageInvalidate (stage2 : Bool) (n : Nat) : Sys2Proof.Laws.Encoding.Statement (.stageInvalidate stage2 n) := rfl
theorem Sys2Proof.Laws.Encoding.invalidationDone (stage2 : Bool) (n : Nat) : Sys2Proof.Laws.Encoding.Statement (.invalidationDone stage2 n) := rfl
theorem Sys2Proof.Laws.Encoding.setstripe : Sys2Proof.Laws.Encoding.Statement (.setstripe) := rfl
theorem Sys2Proof.Laws.Encoding.stripeScrubDone : Sys2Proof.Laws.Encoding.Statement (.stripeScrubDone) := rfl
theorem Sys2Proof.Laws.Encoding.assignvf : Sys2Proof.Laws.Encoding.Statement (.assignvf) := rfl
theorem Sys2Proof.Laws.Encoding.unassignvf : Sys2Proof.Laws.Encoding.Statement (.unassignvf) := rfl
theorem Sys2Proof.Laws.Encoding.wopen : Sys2Proof.Laws.Encoding.Statement (.wopen) := rfl
theorem Sys2Proof.Laws.Encoding.wquiesce : Sys2Proof.Laws.Encoding.Statement (.wquiesce) := rfl
theorem Sys2Proof.Laws.Encoding.wexport : Sys2Proof.Laws.Encoding.Statement (.wexport) := rfl
theorem Sys2Proof.Laws.Encoding.wclose : Sys2Proof.Laws.Encoding.Statement (.wclose) := rfl
theorem Sys2Proof.Laws.Encoding.wreload : Sys2Proof.Laws.Encoding.Statement (.wreload) := rfl
theorem Sys2Proof.Laws.Encoding.bandwidthRefill : Sys2Proof.Laws.Encoding.Statement (.bandwidthRefill) := rfl
theorem Sys2Proof.Laws.Encoding.weirRequest (gid : Nat) (entry : Nat) (kind : Nat) (handle : Nat) (value : Nat) : Sys2Proof.Laws.Encoding.Statement (.weirRequest gid entry kind handle value) := rfl
theorem Sys2Proof.Laws.Encoding.weirRefill : Sys2Proof.Laws.Encoding.Statement (.weirRefill) := rfl
theorem Sys2Proof.Laws.Encoding.deltaBatchHandout (part : Nat) : Sys2Proof.Laws.Encoding.Statement (.deltaBatchHandout part) := rfl
theorem Sys2Proof.Laws.Encoding.batchReturn (die : Nat) (part : Nat) : Sys2Proof.Laws.Encoding.Statement (.batchReturn die part) := rfl
theorem Sys2Proof.Laws.Encoding.blockPlacement (die : Nat) (part : Nat) : Sys2Proof.Laws.Encoding.Statement (.blockPlacement die part) := rfl
theorem Sys2Proof.Laws.Encoding.stealRequest (die : Nat) (part : Nat) : Sys2Proof.Laws.Encoding.Statement (.stealRequest die part) := rfl
theorem Sys2Proof.Laws.Encoding.splitExchange (gid : Nat) : Sys2Proof.Laws.Encoding.Statement (.splitExchange gid) := rfl
theorem Sys2Proof.Laws.Encoding.demotionTimeout (gid : Nat) : Sys2Proof.Laws.Encoding.Statement (.demotionTimeout gid) := rfl
theorem Sys2Proof.Laws.Encoding.switchTick (part : Nat) : Sys2Proof.Laws.Encoding.Statement (.switchTick part) := rfl
theorem Sys2Proof.Laws.Encoding.switchDone (part : Nat) (die : Nat) : Sys2Proof.Laws.Encoding.Statement (.switchDone part die) := rfl
theorem Sys2Proof.Laws.Encoding.switchDeadline (part : Nat) : Sys2Proof.Laws.Encoding.Statement (.switchDeadline part) := rfl
theorem Sys2Proof.Laws.Encoding.switchIn (part : Nat) : Sys2Proof.Laws.Encoding.Statement (.switchIn part) := rfl
theorem Sys2Proof.Laws.Encoding.inFieldScan (core : Nat) : Sys2Proof.Laws.Encoding.Statement (.inFieldScan core) := rfl
theorem Sys2Proof.Laws.Encoding.scanComplete (core : Nat) (pass : Bool) : Sys2Proof.Laws.Encoding.Statement (.scanComplete core pass) := rfl
theorem Sys2Proof.Laws.Encoding.coreLost (core : Nat) : Sys2Proof.Laws.Encoding.Statement (.coreLost core) := rfl
theorem Sys2Proof.Laws.Encoding.handlerEntry (hid : Nat) : Sys2Proof.Laws.Encoding.Statement (.handlerEntry hid) := rfl
theorem Sys2Proof.Laws.Encoding.loadResponse (gid : Nat) (id : Nat) (data : List (BitVec 128)) (marks : AnswerMarks) : Sys2Proof.Laws.Encoding.Statement (.loadResponse gid id data marks) := rfl
theorem Sys2Proof.Laws.Encoding.atomicResponse (gid : Nat) (id : Nat) (data : List (BitVec 128)) (marks : AnswerMarks) : Sys2Proof.Laws.Encoding.Statement (.atomicResponse gid id data marks) := rfl
theorem Sys2Proof.Laws.Encoding.homeRequest (hart : Option Nat) (tx : Bool) (kind : Nat) (pa : Nat) (bytes : List (BitVec 8)) (uncorrectable : Bool) : Sys2Proof.Laws.Encoding.Statement (.homeRequest hart tx kind pa bytes uncorrectable) := rfl
theorem Sys2Proof.Laws.Encoding.gridOpComplete (gid : Nat) : Sys2Proof.Laws.Encoding.Statement (.gridOpComplete gid) := rfl
theorem Sys2Proof.Laws.Encoding.engineCommandStart (core : Nat) (gather : Bool) : Sys2Proof.Laws.Encoding.Statement (.engineCommandStart core gather) := rfl
theorem Sys2Proof.Laws.Encoding.engineCommandComplete (core : Nat) (id : Nat) : Sys2Proof.Laws.Encoding.Statement (.engineCommandComplete core id) := rfl
theorem Sys2Proof.Laws.Encoding.engineFault (core : Nat) (id : Nat) : Sys2Proof.Laws.Encoding.Statement (.engineFault core id) := rfl
theorem Sys2Proof.Laws.Encoding.chainEntryStart (core : Nat) (id : Nat) : Sys2Proof.Laws.Encoding.Statement (.chainEntryStart core id) := rfl
theorem Sys2Proof.Laws.Encoding.collComplete (id : Nat) (status : Nat) (bytes : List (BitVec 8)) : Sys2Proof.Laws.Encoding.Statement (.collComplete id status bytes) := rfl
theorem Sys2Proof.Laws.Encoding.tierMoveComplete : Sys2Proof.Laws.Encoding.Statement (.tierMoveComplete) := rfl
theorem Sys2Proof.Laws.Encoding.sluiceTurn : Sys2Proof.Laws.Encoding.Statement (.sluiceTurn) := rfl
theorem Sys2Proof.Laws.Encoding.fallbackLockGrant (part : Nat) : Sys2Proof.Laws.Encoding.Statement (.fallbackLockGrant part) := rfl
theorem Sys2Proof.Laws.Encoding.hostTxInterrupt (h : Nat) (exception : Bool) : Sys2Proof.Laws.Encoding.Statement (.hostTxInterrupt h exception) := rfl
theorem Sys2Proof.Laws.Encoding.bowReread (gid : Nat) (entry : Nat) : Sys2Proof.Laws.Encoding.Statement (.bowReread gid entry) := rfl
theorem Sys2Proof.Laws.Encoding.slpWake (gid : Nat) (entry : Nat) : Sys2Proof.Laws.Encoding.Statement (.slpWake gid entry) := rfl
theorem Sys2Proof.Laws.Encoding.yldExpire (gid : Nat) : Sys2Proof.Laws.Encoding.Statement (.yldExpire gid) := rfl
theorem Sys2Proof.Laws.Encoding.txOpen (d : BitVec 5) : Sys2Proof.Laws.Encoding.Statement (.txOpen d) := rfl
theorem Sys2Proof.Laws.Encoding.txClose : Sys2Proof.Laws.Encoding.Statement (.txClose) := rfl
theorem Sys2Proof.Laws.Encoding.txDrop (s : BitVec 5) : Sys2Proof.Laws.Encoding.Statement (.txDrop s) := rfl
theorem Sys2Proof.Laws.Encoding.nop : Sys2Proof.Laws.Encoding.Statement (.nop) := rfl
theorem Sys2Proof.Laws.Encoding.ext (i : BitVec 24) : Sys2Proof.Laws.Encoding.Statement (.ext i) := rfl
theorem Sys2Proof.Laws.Encoding.exth (i : BitVec 24) : Sys2Proof.Laws.Encoding.Statement (.exth i) := rfl
theorem Sys2Proof.Laws.Encoding.setm (i : BitVec 24) : Sys2Proof.Laws.Encoding.Statement (.setm i) := rfl
theorem Sys2Proof.Laws.Encoding.setcv (b : BitVec 8) : Sys2Proof.Laws.Encoding.Statement (.setcv b) := rfl
theorem Sys2Proof.Laws.Encoding.bra (i : BitVec 24) : Sys2Proof.Laws.Encoding.Statement (.bra i) := rfl
theorem Sys2Proof.Laws.Encoding.brc (u : Bool) (d : BitVec 8) (i : BitVec 16) : Sys2Proof.Laws.Encoding.Statement (.brc u d i) := rfl
theorem Sys2Proof.Laws.Encoding.join : Sys2Proof.Laws.Encoding.Statement (.join) := rfl
theorem Sys2Proof.Laws.Encoding.jmpi (a : BitVec 8) : Sys2Proof.Laws.Encoding.Statement (.jmpi a) := rfl
theorem Sys2Proof.Laws.Encoding.call (d : BitVec 8) (i : BitVec 16) : Sys2Proof.Laws.Encoding.Statement (.call d i) := rfl
theorem Sys2Proof.Laws.Encoding.calli (d : BitVec 8) (a : BitVec 8) : Sys2Proof.Laws.Encoding.Statement (.calli d a) := rfl
theorem Sys2Proof.Laws.Encoding.exit : Sys2Proof.Laws.Encoding.Statement (.exit) := rfl
theorem Sys2Proof.Laws.Encoding.iadd (u : Bool) (d : BitVec 8) (a : BitVec 8) (b : BitVec 8) : Sys2Proof.Laws.Encoding.Statement (.iadd u d a b) := rfl
theorem Sys2Proof.Laws.Encoding.isub (u : Bool) (d : BitVec 8) (a : BitVec 8) (b : BitVec 8) : Sys2Proof.Laws.Encoding.Statement (.isub u d a b) := rfl
theorem Sys2Proof.Laws.Encoding.imul (u : Bool) (d : BitVec 8) (a : BitVec 8) (b : BitVec 8) : Sys2Proof.Laws.Encoding.Statement (.imul u d a b) := rfl
theorem Sys2Proof.Laws.Encoding.imulh (u : Bool) (d : BitVec 8) (a : BitVec 8) (b : BitVec 8) : Sys2Proof.Laws.Encoding.Statement (.imulh u d a b) := rfl
theorem Sys2Proof.Laws.Encoding.imad (u : Bool) (d : BitVec 8) (a : BitVec 8) (b : BitVec 8) : Sys2Proof.Laws.Encoding.Statement (.imad u d a b) := rfl
theorem Sys2Proof.Laws.Encoding.idiv (u : Bool) (d : BitVec 8) (a : BitVec 8) (b : BitVec 8) : Sys2Proof.Laws.Encoding.Statement (.idiv u d a b) := rfl
theorem Sys2Proof.Laws.Encoding.imin (u : Bool) (d : BitVec 8) (a : BitVec 8) (b : BitVec 8) : Sys2Proof.Laws.Encoding.Statement (.imin u d a b) := rfl
theorem Sys2Proof.Laws.Encoding.imax (u : Bool) (d : BitVec 8) (a : BitVec 8) (b : BitVec 8) : Sys2Proof.Laws.Encoding.Statement (.imax u d a b) := rfl
theorem Sys2Proof.Laws.Encoding.and (u : Bool) (d : BitVec 8) (a : BitVec 8) (b : BitVec 8) : Sys2Proof.Laws.Encoding.Statement (.and u d a b) := rfl
theorem Sys2Proof.Laws.Encoding.or (u : Bool) (d : BitVec 8) (a : BitVec 8) (b : BitVec 8) : Sys2Proof.Laws.Encoding.Statement (.or u d a b) := rfl
theorem Sys2Proof.Laws.Encoding.xor (u : Bool) (d : BitVec 8) (a : BitVec 8) (b : BitVec 8) : Sys2Proof.Laws.Encoding.Statement (.xor u d a b) := rfl
theorem Sys2Proof.Laws.Encoding.andn (u : Bool) (d : BitVec 8) (a : BitVec 8) (b : BitVec 8) : Sys2Proof.Laws.Encoding.Statement (.andn u d a b) := rfl
theorem Sys2Proof.Laws.Encoding.shl (u : Bool) (d : BitVec 8) (a : BitVec 8) (b : BitVec 8) : Sys2Proof.Laws.Encoding.Statement (.shl u d a b) := rfl
theorem Sys2Proof.Laws.Encoding.shr (u : Bool) (d : BitVec 8) (a : BitVec 8) (b : BitVec 8) : Sys2Proof.Laws.Encoding.Statement (.shr u d a b) := rfl
theorem Sys2Proof.Laws.Encoding.sar (u : Bool) (d : BitVec 8) (a : BitVec 8) (b : BitVec 8) : Sys2Proof.Laws.Encoding.Statement (.sar u d a b) := rfl
theorem Sys2Proof.Laws.Encoding.fshl (u : Bool) (d : BitVec 8) (a : BitVec 8) (b : BitVec 8) : Sys2Proof.Laws.Encoding.Statement (.fshl u d a b) := rfl
theorem Sys2Proof.Laws.Encoding.bfx (u : Bool) (d : BitVec 8) (a : BitVec 8) (b : BitVec 8) : Sys2Proof.Laws.Encoding.Statement (.bfx u d a b) := rfl
theorem Sys2Proof.Laws.Encoding.bfi (u : Bool) (d : BitVec 8) (a : BitVec 8) (b : BitVec 8) : Sys2Proof.Laws.Encoding.Statement (.bfi u d a b) := rfl
theorem Sys2Proof.Laws.Encoding.prmb (u : Bool) (d : BitVec 8) (a : BitVec 8) (b : BitVec 8) : Sys2Proof.Laws.Encoding.Statement (.prmb u d a b) := rfl
theorem Sys2Proof.Laws.Encoding.sel (u : Bool) (d : BitVec 8) (a : BitVec 8) (b : BitVec 8) : Sys2Proof.Laws.Encoding.Statement (.sel u d a b) := rfl
theorem Sys2Proof.Laws.Encoding.iseq (u : Bool) (d : BitVec 8) (a : BitVec 8) (b : BitVec 8) : Sys2Proof.Laws.Encoding.Statement (.iseq u d a b) := rfl
theorem Sys2Proof.Laws.Encoding.isne (u : Bool) (d : BitVec 8) (a : BitVec 8) (b : BitVec 8) : Sys2Proof.Laws.Encoding.Statement (.isne u d a b) := rfl
theorem Sys2Proof.Laws.Encoding.islt (u : Bool) (d : BitVec 8) (a : BitVec 8) (b : BitVec 8) : Sys2Proof.Laws.Encoding.Statement (.islt u d a b) := rfl
theorem Sys2Proof.Laws.Encoding.isle (u : Bool) (d : BitVec 8) (a : BitVec 8) (b : BitVec 8) : Sys2Proof.Laws.Encoding.Statement (.isle u d a b) := rfl
theorem Sys2Proof.Laws.Encoding.limm (u : Bool) (d : BitVec 8) (i : BitVec 16) : Sys2Proof.Laws.Encoding.Statement (.limm u d i) := rfl
theorem Sys2Proof.Laws.Encoding.limmh (u : Bool) (d : BitVec 8) (i : BitVec 16) : Sys2Proof.Laws.Encoding.Statement (.limmh u d i) := rfl
theorem Sys2Proof.Laws.Encoding.iadd64 (u : Bool) (d : BitVec 8) (a : BitVec 8) (b : BitVec 8) : Sys2Proof.Laws.Encoding.Statement (.iadd64 u d a b) := rfl
theorem Sys2Proof.Laws.Encoding.isub64 (u : Bool) (d : BitVec 8) (a : BitVec 8) (b : BitVec 8) : Sys2Proof.Laws.Encoding.Statement (.isub64 u d a b) := rfl
theorem Sys2Proof.Laws.Encoding.mov (u : Bool) (d : BitVec 8) (a : BitVec 8) : Sys2Proof.Laws.Encoding.Statement (.mov u d a) := rfl
theorem Sys2Proof.Laws.Encoding.not (u : Bool) (d : BitVec 8) (a : BitVec 8) : Sys2Proof.Laws.Encoding.Statement (.not u d a) := rfl
theorem Sys2Proof.Laws.Encoding.ineg (u : Bool) (d : BitVec 8) (a : BitVec 8) : Sys2Proof.Laws.Encoding.Statement (.ineg u d a) := rfl
theorem Sys2Proof.Laws.Encoding.iabs (u : Bool) (d : BitVec 8) (a : BitVec 8) : Sys2Proof.Laws.Encoding.Statement (.iabs u d a) := rfl
theorem Sys2Proof.Laws.Encoding.clz (u : Bool) (d : BitVec 8) (a : BitVec 8) : Sys2Proof.Laws.Encoding.Statement (.clz u d a) := rfl
theorem Sys2Proof.Laws.Encoding.ffs (u : Bool) (d : BitVec 8) (a : BitVec 8) : Sys2Proof.Laws.Encoding.Statement (.ffs u d a) := rfl
theorem Sys2Proof.Laws.Encoding.popc (u : Bool) (d : BitVec 8) (a : BitVec 8) : Sys2Proof.Laws.Encoding.Statement (.popc u d a) := rfl
theorem Sys2Proof.Laws.Encoding.brev (u : Bool) (d : BitVec 8) (a : BitVec 8) : Sys2Proof.Laws.Encoding.Statement (.brev u d a) := rfl
theorem Sys2Proof.Laws.Encoding.ada (u : Bool) (d : BitVec 8) (a : BitVec 8) (b : BitVec 8) : Sys2Proof.Laws.Encoding.Statement (.ada u d a b) := rfl
theorem Sys2Proof.Laws.Encoding.adax (u : Bool) (d : BitVec 8) (a : BitVec 8) (b : BitVec 8) : Sys2Proof.Laws.Encoding.Statement (.adax u d a b) := rfl
theorem Sys2Proof.Laws.Encoding.adcmp (u : Bool) (d : BitVec 8) (a : BitVec 8) (b : BitVec 8) : Sys2Proof.Laws.Encoding.Statement (.adcmp u d a b) := rfl
theorem Sys2Proof.Laws.Encoding.fadd (u : Bool) (d : BitVec 8) (a : BitVec 8) (b : BitVec 8) : Sys2Proof.Laws.Encoding.Statement (.fadd u d a b) := rfl
theorem Sys2Proof.Laws.Encoding.fsub (u : Bool) (d : BitVec 8) (a : BitVec 8) (b : BitVec 8) : Sys2Proof.Laws.Encoding.Statement (.fsub u d a b) := rfl
theorem Sys2Proof.Laws.Encoding.fmul (u : Bool) (d : BitVec 8) (a : BitVec 8) (b : BitVec 8) : Sys2Proof.Laws.Encoding.Statement (.fmul u d a b) := rfl
theorem Sys2Proof.Laws.Encoding.fma (u : Bool) (d : BitVec 8) (a : BitVec 8) (b : BitVec 8) : Sys2Proof.Laws.Encoding.Statement (.fma u d a b) := rfl
theorem Sys2Proof.Laws.Encoding.fnma (u : Bool) (d : BitVec 8) (a : BitVec 8) (b : BitVec 8) : Sys2Proof.Laws.Encoding.Statement (.fnma u d a b) := rfl
theorem Sys2Proof.Laws.Encoding.fmin (u : Bool) (d : BitVec 8) (a : BitVec 8) (b : BitVec 8) : Sys2Proof.Laws.Encoding.Statement (.fmin u d a b) := rfl
theorem Sys2Proof.Laws.Encoding.fmax (u : Bool) (d : BitVec 8) (a : BitVec 8) (b : BitVec 8) : Sys2Proof.Laws.Encoding.Statement (.fmax u d a b) := rfl
theorem Sys2Proof.Laws.Encoding.fcpys (u : Bool) (d : BitVec 8) (a : BitVec 8) (b : BitVec 8) : Sys2Proof.Laws.Encoding.Statement (.fcpys u d a b) := rfl
theorem Sys2Proof.Laws.Encoding.fscl (u : Bool) (d : BitVec 8) (a : BitVec 8) (b : BitVec 8) : Sys2Proof.Laws.Encoding.Statement (.fscl u d a b) := rfl
theorem Sys2Proof.Laws.Encoding.fdiv (u : Bool) (d : BitVec 8) (a : BitVec 8) (b : BitVec 8) : Sys2Proof.Laws.Encoding.Statement (.fdiv u d a b) := rfl
theorem Sys2Proof.Laws.Encoding.fseq (u : Bool) (d : BitVec 8) (a : BitVec 8) (b : BitVec 8) : Sys2Proof.Laws.Encoding.Statement (.fseq u d a b) := rfl
theorem Sys2Proof.Laws.Encoding.fsne (u : Bool) (d : BitVec 8) (a : BitVec 8) (b : BitVec 8) : Sys2Proof.Laws.Encoding.Statement (.fsne u d a b) := rfl
theorem Sys2Proof.Laws.Encoding.fslt (u : Bool) (d : BitVec 8) (a : BitVec 8) (b : BitVec 8) : Sys2Proof.Laws.Encoding.Statement (.fslt u d a b) := rfl
theorem Sys2Proof.Laws.Encoding.fsle (u : Bool) (d : BitVec 8) (a : BitVec 8) (b : BitVec 8) : Sys2Proof.Laws.Encoding.Statement (.fsle u d a b) := rfl
theorem Sys2Proof.Laws.Encoding.fsun (u : Bool) (d : BitVec 8) (a : BitVec 8) (b : BitVec 8) : Sys2Proof.Laws.Encoding.Statement (.fsun u d a b) := rfl
theorem Sys2Proof.Laws.Encoding.fabs (u : Bool) (d : BitVec 8) (a : BitVec 8) : Sys2Proof.Laws.Encoding.Statement (.fabs u d a) := rfl
theorem Sys2Proof.Laws.Encoding.fneg (u : Bool) (d : BitVec 8) (a : BitVec 8) : Sys2Proof.Laws.Encoding.Statement (.fneg u d a) := rfl
theorem Sys2Proof.Laws.Encoding.fclass (u : Bool) (d : BitVec 8) (a : BitVec 8) : Sys2Proof.Laws.Encoding.Statement (.fclass u d a) := rfl
theorem Sys2Proof.Laws.Encoding.frnd (u : Bool) (d : BitVec 8) (a : BitVec 8) : Sys2Proof.Laws.Encoding.Statement (.frnd u d a) := rfl
theorem Sys2Proof.Laws.Encoding.fexpo (u : Bool) (d : BitVec 8) (a : BitVec 8) : Sys2Proof.Laws.Encoding.Statement (.fexpo u d a) := rfl
theorem Sys2Proof.Laws.Encoding.frcp (u : Bool) (d : BitVec 8) (a : BitVec 8) : Sys2Proof.Laws.Encoding.Statement (.frcp u d a) := rfl
theorem Sys2Proof.Laws.Encoding.frsq (u : Bool) (d : BitVec 8) (a : BitVec 8) : Sys2Proof.Laws.Encoding.Statement (.frsq u d a) := rfl
theorem Sys2Proof.Laws.Encoding.fsqrt (u : Bool) (d : BitVec 8) (a : BitVec 8) : Sys2Proof.Laws.Encoding.Statement (.fsqrt u d a) := rfl
theorem Sys2Proof.Laws.Encoding.fex2 (u : Bool) (d : BitVec 8) (a : BitVec 8) : Sys2Proof.Laws.Encoding.Statement (.fex2 u d a) := rfl
theorem Sys2Proof.Laws.Encoding.flg2 (u : Bool) (d : BitVec 8) (a : BitVec 8) : Sys2Proof.Laws.Encoding.Statement (.flg2 u d a) := rfl
theorem Sys2Proof.Laws.Encoding.fsin (u : Bool) (d : BitVec 8) (a : BitVec 8) : Sys2Proof.Laws.Encoding.Statement (.fsin u d a) := rfl
theorem Sys2Proof.Laws.Encoding.fcos (u : Bool) (d : BitVec 8) (a : BitVec 8) : Sys2Proof.Laws.Encoding.Statement (.fcos u d a) := rfl
theorem Sys2Proof.Laws.Encoding.ftanh (u : Bool) (d : BitVec 8) (a : BitVec 8) : Sys2Proof.Laws.Encoding.Statement (.ftanh u d a) := rfl
theorem Sys2Proof.Laws.Encoding.cvtf (u : Bool) (d : BitVec 8) (a : BitVec 8) (f : BitVec 4) : Sys2Proof.Laws.Encoding.Statement (.cvtf u d a f) := rfl
theorem Sys2Proof.Laws.Encoding.cvti (u : Bool) (d : BitVec 8) (a : BitVec 8) (f : BitVec 4) : Sys2Proof.Laws.Encoding.Statement (.cvti u d a f) := rfl
theorem Sys2Proof.Laws.Encoding.cvif (u : Bool) (d : BitVec 8) (a : BitVec 8) (f : BitVec 4) : Sys2Proof.Laws.Encoding.Statement (.cvif u d a f) := rfl
theorem Sys2Proof.Laws.Encoding.cvii (u : Bool) (d : BitVec 8) (a : BitVec 8) (f : BitVec 4) : Sys2Proof.Laws.Encoding.Statement (.cvii u d a f) := rfl
theorem Sys2Proof.Laws.Encoding.unpk (u : Bool) (d : BitVec 8) (a : BitVec 8) (f : BitVec 4) : Sys2Proof.Laws.Encoding.Statement (.unpk u d a f) := rfl
theorem Sys2Proof.Laws.Encoding.mxq (u : Bool) (d : BitVec 8) (a : BitVec 8) (f : BitVec 4) : Sys2Proof.Laws.Encoding.Statement (.mxq u d a f) := rfl
theorem Sys2Proof.Laws.Encoding.mxsc (u : Bool) (d : BitVec 8) (a : BitVec 8) (f : BitVec 4) : Sys2Proof.Laws.Encoding.Statement (.mxsc u d a f) := rfl
theorem Sys2Proof.Laws.Encoding.pack2 (u : Bool) (d : BitVec 8) (a : BitVec 8) (b : BitVec 8) : Sys2Proof.Laws.Encoding.Statement (.pack2 u d a b) := rfl
theorem Sys2Proof.Laws.Encoding.pack4 (u : Bool) (d : BitVec 8) (a : BitVec 8) (b : BitVec 8) : Sys2Proof.Laws.Encoding.Statement (.pack4 u d a b) := rfl
theorem Sys2Proof.Laws.Encoding.shfl (u : Bool) (d : BitVec 8) (a : BitVec 8) (b : BitVec 8) : Sys2Proof.Laws.Encoding.Statement (.shfl u d a b) := rfl
theorem Sys2Proof.Laws.Encoding.shflx (u : Bool) (d : BitVec 8) (a : BitVec 8) (b : BitVec 8) : Sys2Proof.Laws.Encoding.Statement (.shflx u d a b) := rfl
theorem Sys2Proof.Laws.Encoding.shflup (u : Bool) (d : BitVec 8) (a : BitVec 8) (b : BitVec 8) : Sys2Proof.Laws.Encoding.Statement (.shflup u d a b) := rfl
theorem Sys2Proof.Laws.Encoding.shfldn (u : Bool) (d : BitVec 8) (a : BitVec 8) (b : BitVec 8) : Sys2Proof.Laws.Encoding.Statement (.shfldn u d a b) := rfl
theorem Sys2Proof.Laws.Encoding.red (u : Bool) (d : BitVec 8) (a : BitVec 8) : Sys2Proof.Laws.Encoding.Statement (.red u d a) := rfl
theorem Sys2Proof.Laws.Encoding.rstep (u : Bool) (d : BitVec 8) (a : BitVec 8) : Sys2Proof.Laws.Encoding.Statement (.rstep u d a) := rfl
theorem Sys2Proof.Laws.Encoding.vany (u : Bool) (d : BitVec 8) (a : BitVec 8) : Sys2Proof.Laws.Encoding.Statement (.vany u d a) := rfl
theorem Sys2Proof.Laws.Encoding.vall (u : Bool) (d : BitVec 8) (a : BitVec 8) : Sys2Proof.Laws.Encoding.Statement (.vall u d a) := rfl
theorem Sys2Proof.Laws.Encoding.blt (u : Bool) (d : BitVec 8) (a : BitVec 8) : Sys2Proof.Laws.Encoding.Statement (.blt u d a) := rfl
theorem Sys2Proof.Laws.Encoding.elect (u : Bool) (d : BitVec 8) (a : BitVec 8) : Sys2Proof.Laws.Encoding.Statement (.elect u d a) := rfl
theorem Sys2Proof.Laws.Encoding.pscan (u : Bool) (d : BitVec 8) (a : BitVec 8) : Sys2Proof.Laws.Encoding.Statement (.pscan u d a) := rfl
theorem Sys2Proof.Laws.Encoding.bcast (u : Bool) (d : BitVec 8) (a : BitVec 8) : Sys2Proof.Laws.Encoding.Statement (.bcast u d a) := rfl
theorem Sys2Proof.Laws.Encoding.ldb (u : Bool) (d : BitVec 8) (a : BitVec 8) (b : BitVec 8) : Sys2Proof.Laws.Encoding.Statement (.ldb u d a b) := rfl
theorem Sys2Proof.Laws.Encoding.ldh (u : Bool) (d : BitVec 8) (a : BitVec 8) (b : BitVec 8) : Sys2Proof.Laws.Encoding.Statement (.ldh u d a b) := rfl
theorem Sys2Proof.Laws.Encoding.ldw (u : Bool) (d : BitVec 8) (a : BitVec 8) (b : BitVec 8) : Sys2Proof.Laws.Encoding.Statement (.ldw u d a b) := rfl
theorem Sys2Proof.Laws.Encoding.ldd (u : Bool) (d : BitVec 8) (a : BitVec 8) (b : BitVec 8) : Sys2Proof.Laws.Encoding.Statement (.ldd u d a b) := rfl
theorem Sys2Proof.Laws.Encoding.ldq (u : Bool) (d : BitVec 8) (a : BitVec 8) (b : BitVec 8) : Sys2Proof.Laws.Encoding.Statement (.ldq u d a b) := rfl
theorem Sys2Proof.Laws.Encoding.stb (u : Bool) (d : BitVec 8) (a : BitVec 8) (b : BitVec 8) : Sys2Proof.Laws.Encoding.Statement (.stb u d a b) := rfl
theorem Sys2Proof.Laws.Encoding.sth (u : Bool) (d : BitVec 8) (a : BitVec 8) (b : BitVec 8) : Sys2Proof.Laws.Encoding.Statement (.sth u d a b) := rfl
theorem Sys2Proof.Laws.Encoding.stw (u : Bool) (d : BitVec 8) (a : BitVec 8) (b : BitVec 8) : Sys2Proof.Laws.Encoding.Statement (.stw u d a b) := rfl
theorem Sys2Proof.Laws.Encoding.std (u : Bool) (d : BitVec 8) (a : BitVec 8) (b : BitVec 8) : Sys2Proof.Laws.Encoding.Statement (.std u d a b) := rfl
theorem Sys2Proof.Laws.Encoding.stq (u : Bool) (d : BitVec 8) (a : BitVec 8) (b : BitVec 8) : Sys2Proof.Laws.Encoding.Statement (.stq u d a b) := rfl
theorem Sys2Proof.Laws.Encoding.ldc (u : Bool) (d : BitVec 8) (b : BitVec 8) : Sys2Proof.Laws.Encoding.Statement (.ldc u d b) := rfl
theorem Sys2Proof.Laws.Encoding.atAdd (u : Bool) (d : BitVec 8) (a : BitVec 8) (b : BitVec 8) : Sys2Proof.Laws.Encoding.Statement (.atAdd u d a b) := rfl
theorem Sys2Proof.Laws.Encoding.atMin (u : Bool) (d : BitVec 8) (a : BitVec 8) (b : BitVec 8) : Sys2Proof.Laws.Encoding.Statement (.atMin u d a b) := rfl
theorem Sys2Proof.Laws.Encoding.atMax (u : Bool) (d : BitVec 8) (a : BitVec 8) (b : BitVec 8) : Sys2Proof.Laws.Encoding.Statement (.atMax u d a b) := rfl
theorem Sys2Proof.Laws.Encoding.atAnd (u : Bool) (d : BitVec 8) (a : BitVec 8) (b : BitVec 8) : Sys2Proof.Laws.Encoding.Statement (.atAnd u d a b) := rfl
theorem Sys2Proof.Laws.Encoding.atOr (u : Bool) (d : BitVec 8) (a : BitVec 8) (b : BitVec 8) : Sys2Proof.Laws.Encoding.Statement (.atOr u d a b) := rfl
theorem Sys2Proof.Laws.Encoding.atXor (u : Bool) (d : BitVec 8) (a : BitVec 8) (b : BitVec 8) : Sys2Proof.Laws.Encoding.Statement (.atXor u d a b) := rfl
theorem Sys2Proof.Laws.Encoding.atXch (u : Bool) (d : BitVec 8) (a : BitVec 8) (b : BitVec 8) : Sys2Proof.Laws.Encoding.Statement (.atXch u d a b) := rfl
theorem Sys2Proof.Laws.Encoding.atCas (u : Bool) (d : BitVec 8) (a : BitVec 8) (b : BitVec 8) : Sys2Proof.Laws.Encoding.Statement (.atCas u d a b) := rfl
theorem Sys2Proof.Laws.Encoding.atInc (u : Bool) (d : BitVec 8) (a : BitVec 8) (b : BitVec 8) : Sys2Proof.Laws.Encoding.Statement (.atInc u d a b) := rfl
theorem Sys2Proof.Laws.Encoding.atAgg (u : Bool) (d : BitVec 8) (a : BitVec 8) (b : BitVec 8) : Sys2Proof.Laws.Encoding.Statement (.atAgg u d a b) := rfl
theorem Sys2Proof.Laws.Encoding.atFadd (u : Bool) (d : BitVec 8) (a : BitVec 8) (b : BitVec 8) : Sys2Proof.Laws.Encoding.Statement (.atFadd u d a b) := rfl
theorem Sys2Proof.Laws.Encoding.fence (o : BitVec 3) (s : BitVec 4) : Sys2Proof.Laws.Encoding.Statement (.fence o s) := rfl
theorem Sys2Proof.Laws.Encoding.bar (r : BitVec 4) (i : BitVec 4) : Sys2Proof.Laws.Encoding.Statement (.bar r i) := rfl
theorem Sys2Proof.Laws.Encoding.barg (i : BitVec 4) : Sys2Proof.Laws.Encoding.Statement (.barg i) := rfl
theorem Sys2Proof.Laws.Encoding.waitc (n : BitVec 8) (c : BitVec 8) : Sys2Proof.Laws.Encoding.Statement (.waitc n c) := rfl
theorem Sys2Proof.Laws.Encoding.seal (d : BitVec 8) : Sys2Proof.Laws.Encoding.Statement (.seal d) := rfl
theorem Sys2Proof.Laws.Encoding.waitb (b : BitVec 8) : Sys2Proof.Laws.Encoding.Statement (.waitb b) := rfl
theorem Sys2Proof.Laws.Encoding.pft (a : BitVec 8) (b : BitVec 8) : Sys2Proof.Laws.Encoding.Statement (.pft a b) := rfl
theorem Sys2Proof.Laws.Encoding.evt (a : BitVec 8) (b : BitVec 8) : Sys2Proof.Laws.Encoding.Statement (.evt a b) := rfl
theorem Sys2Proof.Laws.Encoding.bow (d : BitVec 8) (a : BitVec 8) (b : BitVec 8) : Sys2Proof.Laws.Encoding.Statement (.bow d a b) := rfl
theorem Sys2Proof.Laws.Encoding.cinv : Sys2Proof.Laws.Encoding.Statement (.cinv) := rfl
theorem Sys2Proof.Laws.Encoding.cinvRange (a : BitVec 8) (b : BitVec 8) : Sys2Proof.Laws.Encoding.Statement (.cinvRange a b) := rfl
theorem Sys2Proof.Laws.Encoding.cpy (g : Bool) (s : BitVec 3) (a : BitVec 8) : Sys2Proof.Laws.Encoding.Statement (.cpy g s a) := rfl
theorem Sys2Proof.Laws.Encoding.gthr (g : Bool) (s : BitVec 3) (a : BitVec 8) : Sys2Proof.Laws.Encoding.Statement (.gthr g s a) := rfl
theorem Sys2Proof.Laws.Encoding.gbag (g : Bool) (s : BitVec 3) (a : BitVec 8) : Sys2Proof.Laws.Encoding.Statement (.gbag g s a) := rfl
theorem Sys2Proof.Laws.Encoding.sctr (g : Bool) (s : BitVec 3) (a : BitVec 8) : Sys2Proof.Laws.Encoding.Statement (.sctr g s a) := rfl
theorem Sys2Proof.Laws.Encoding.coll (g : Bool) (s : BitVec 3) (a : BitVec 8) : Sys2Proof.Laws.Encoding.Statement (.coll g s a) := rfl
theorem Sys2Proof.Laws.Encoding.chain (g : Bool) (s : BitVec 3) (a : BitVec 8) : Sys2Proof.Laws.Encoding.Statement (.chain g s a) := rfl
theorem Sys2Proof.Laws.Encoding.npost (g : Bool) (s : BitVec 3) (a : BitVec 8) : Sys2Proof.Laws.Encoding.Statement (.npost g s a) := rfl
theorem Sys2Proof.Laws.Encoding.ctail (e : Bool) (b : BitVec 8) : Sys2Proof.Laws.Encoding.Statement (.ctail e b) := rfl
theorem Sys2Proof.Laws.Encoding.gres (s : BitVec 3) (b : BitVec 8) : Sys2Proof.Laws.Encoding.Statement (.gres s b) := rfl
theorem Sys2Proof.Laws.Encoding.gresClear (s : BitVec 3) : Sys2Proof.Laws.Encoding.Statement (.gresClear s) := rfl
theorem Sys2Proof.Laws.Encoding.ncwt (d : BitVec 8) (a : BitVec 8) (b : BitVec 8) : Sys2Proof.Laws.Encoding.Statement (.ncwt d a b) := rfl
theorem Sys2Proof.Laws.Encoding.tswap (d : BitVec 8) (a : BitVec 8) (b : BitVec 8) : Sys2Proof.Laws.Encoding.Statement (.tswap d a b) := rfl
theorem Sys2Proof.Laws.Encoding.lnch (d : BitVec 8) (a : BitVec 8) : Sys2Proof.Laws.Encoding.Statement (.lnch d a) := rfl
theorem Sys2Proof.Laws.Encoding.hcall (d : BitVec 8) (a : BitVec 8) : Sys2Proof.Laws.Encoding.Statement (.hcall d a) := rfl
theorem Sys2Proof.Laws.Encoding.txo : Sys2Proof.Laws.Encoding.Statement (.txo) := rfl
theorem Sys2Proof.Laws.Encoding.txc : Sys2Proof.Laws.Encoding.Statement (.txc) := rfl
theorem Sys2Proof.Laws.Encoding.txd (b : BitVec 8) : Sys2Proof.Laws.Encoding.Statement (.txd b) := rfl
theorem Sys2Proof.Laws.Encoding.txs (d : BitVec 8) : Sys2Proof.Laws.Encoding.Statement (.txs d) := rfl
theorem Sys2Proof.Laws.Encoding.wsig (a : BitVec 8) (b : BitVec 8) : Sys2Proof.Laws.Encoding.Statement (.wsig a b) := rfl
theorem Sys2Proof.Laws.Encoding.wtry (d : BitVec 8) (a : BitVec 8) (b : BitVec 8) : Sys2Proof.Laws.Encoding.Statement (.wtry d a b) := rfl
theorem Sys2Proof.Laws.Encoding.wwait (d : BitVec 8) (a : BitVec 8) (b : BitVec 8) : Sys2Proof.Laws.Encoding.Statement (.wwait d a b) := rfl
theorem Sys2Proof.Laws.Encoding.wqry (d : BitVec 8) (a : BitVec 8) : Sys2Proof.Laws.Encoding.Statement (.wqry d a) := rfl
theorem Sys2Proof.Laws.Encoding.entg : Sys2Proof.Laws.Encoding.Statement (.entg) := rfl
theorem Sys2Proof.Laws.Encoding.extg : Sys2Proof.Laws.Encoding.Statement (.extg) := rfl
theorem Sys2Proof.Laws.Encoding.gmm (z : Bool) (a : BitVec 8) (b : BitVec 8) : Sys2Proof.Laws.Encoding.Statement (.gmm z a b) := rfl
theorem Sys2Proof.Laws.Encoding.gmmSparse (z : Bool) (a : BitVec 8) (b : BitVec 8) : Sys2Proof.Laws.Encoding.Statement (.gmmSparse z a b) := rfl
theorem Sys2Proof.Laws.Encoding.gmmLinked (z : Bool) (a : BitVec 8) (b : BitVec 8) : Sys2Proof.Laws.Encoding.Statement (.gmmLinked z a b) := rfl
theorem Sys2Proof.Laws.Encoding.gmmLinkedSparse (z : Bool) (a : BitVec 8) (b : BitVec 8) : Sys2Proof.Laws.Encoding.Statement (.gmmLinkedSparse z a b) := rfl
theorem Sys2Proof.Laws.Encoding.gout (z : Bool) (a : BitVec 8) (b : BitVec 8) : Sys2Proof.Laws.Encoding.Statement (.gout z a b) := rfl
theorem Sys2Proof.Laws.Encoding.gzro : Sys2Proof.Laws.Encoding.Statement (.gzro) := rfl
theorem Sys2Proof.Laws.Encoding.gbias (d : BitVec 8) (a : BitVec 8) : Sys2Proof.Laws.Encoding.Statement (.gbias d a) := rfl
theorem Sys2Proof.Laws.Encoding.gscl (d : BitVec 8) (a : BitVec 8) : Sys2Proof.Laws.Encoding.Statement (.gscl d a) := rfl
theorem Sys2Proof.Laws.Encoding.gpack (d : BitVec 8) (a : BitVec 8) : Sys2Proof.Laws.Encoding.Statement (.gpack d a) := rfl
theorem Sys2Proof.Laws.Encoding.gstp (d : BitVec 8) (a : BitVec 8) : Sys2Proof.Laws.Encoding.Statement (.gstp d a) := rfl
theorem Sys2Proof.Laws.Encoding.gldp (d : BitVec 8) (a : BitVec 8) : Sys2Proof.Laws.Encoding.Statement (.gldp d a) := rfl
theorem Sys2Proof.Laws.Encoding.gstat (d : BitVec 8) : Sys2Proof.Laws.Encoding.Statement (.gstat d) := rfl
theorem Sys2Proof.Laws.Encoding.trap (i : BitVec 24) : Sys2Proof.Laws.Encoding.Statement (.trap i) := rfl
theorem Sys2Proof.Laws.Encoding.srd (d : BitVec 8) (i : BitVec 16) : Sys2Proof.Laws.Encoding.Statement (.srd d i) := rfl
theorem Sys2Proof.Laws.Encoding.swr (d : BitVec 8) (i : BitVec 16) : Sys2Proof.Laws.Encoding.Statement (.swr d i) := rfl
theorem Sys2Proof.Laws.Encoding.rett : Sys2Proof.Laws.Encoding.Statement (.rett) := rfl
theorem Sys2Proof.Laws.Encoding.fpret : Sys2Proof.Laws.Encoding.Statement (.fpret) := rfl
theorem Sys2Proof.Laws.Encoding.yld : Sys2Proof.Laws.Encoding.Statement (.yld) := rfl
theorem Sys2Proof.Laws.Encoding.halt : Sys2Proof.Laws.Encoding.Statement (.halt) := rfl
theorem Sys2Proof.Laws.Encoding.dbrk : Sys2Proof.Laws.Encoding.Statement (.dbrk) := rfl
theorem Sys2Proof.Laws.Encoding.fskipAll : Sys2Proof.Laws.Encoding.Statement (.fskipAll) := rfl
theorem Sys2Proof.Laws.Encoding.fskipMask (a : BitVec 8) : Sys2Proof.Laws.Encoding.Statement (.fskipMask a) := rfl
theorem Sys2Proof.Laws.Encoding.slp (a : BitVec 8) : Sys2Proof.Laws.Encoding.Statement (.slp a) := rfl
theorem Sys2Proof.Laws.Encoding.lrd (d : BitVec 8) (a : BitVec 8) (b : BitVec 8) : Sys2Proof.Laws.Encoding.Statement (.lrd d a b) := rfl
theorem Sys2Proof.Laws.Encoding.lwr (d : BitVec 8) (a : BitVec 8) (b : BitVec 8) : Sys2Proof.Laws.Encoding.Statement (.lwr d a b) := rfl
theorem Sys2Proof.Laws.Encoding.erpl (a : BitVec 8) (b : BitVec 8) : Sys2Proof.Laws.Encoding.Statement (.erpl a b) := rfl
theorem Sys2Proof.Laws.Encoding.fpt (a : BitVec 8) : Sys2Proof.Laws.Encoding.Statement (.fpt a) := rfl
theorem Sys2Proof.Laws.Encoding.powerOff : Sys2Proof.Laws.Encoding.Statement (.powerOff) := rfl
theorem Sys2Proof.Laws.Encoding.vfResetComplete (vf : Nat) : Sys2Proof.Laws.Encoding.Statement (.vfResetComplete vf) := rfl
theorem Sys2Proof.Laws.Encoding.collAccept (core : Nat) (id : Nat) : Sys2Proof.Laws.Encoding.Statement (.collAccept core id) := rfl
theorem Sys2Proof.Laws.Encoding.npostAccept (core : Nat) (id : Nat) : Sys2Proof.Laws.Encoding.Statement (.npostAccept core id) := rfl
theorem Sys2Proof.Laws.Encoding.privateCacheEviction (h : Nat) (granule : Nat) : Sys2Proof.Laws.Encoding.Statement (.privateCacheEviction h granule) := rfl
theorem Sys2Proof.Laws.Encoding.hostTxIllegal (h : Nat) : Sys2Proof.Laws.Encoding.Statement (.hostTxIllegal h) := rfl
theorem Sys2Proof.Laws.Encoding.reservedOpcode (w : BitVec 32) : Sys2Proof.Laws.Encoding.Statement (.reservedOpcode w) := rfl
end

