-- ==== Sys2Proof/Laws/Registers.lean ====
section
/-! SUPPORT. Register files: read after write, and what a list of latching results leaves. -/

namespace Sys2Proof.Machine

@[simp] theorem Regs.setV_o (r : Regs) (n t : Nat) (x : Word) : (r.setV n t x).o = r.o := rfl
@[simp] theorem Regs.setV_l (r : Regs) (n t : Nat) (x : Word) : (r.setV n t x).l = r.l := rfl
@[simp] theorem Regs.setV_mode (r : Regs) (n t : Nat) (x : Word) : (r.setV n t x).mode = r.mode := rfl
@[simp] theorem Regs.setV_cvmode (r : Regs) (n t : Nat) (x : Word) : (r.setV n t x).cvmode = r.cvmode := rfl
@[simp] theorem Regs.setO_v (r : Regs) (n t : Nat) (x : Word) : (r.setO n t x).v = r.v := rfl
@[simp] theorem Regs.setO_l (r : Regs) (n t : Nat) (x : Word) : (r.setO n t x).l = r.l := rfl
@[simp] theorem Regs.setO_mode (r : Regs) (n t : Nat) (x : Word) : (r.setO n t x).mode = r.mode := rfl
@[simp] theorem Regs.setO_cvmode (r : Regs) (n t : Nat) (x : Word) : (r.setO n t x).cvmode = r.cvmode := rfl
@[simp] theorem Regs.setL_v (r : Regs) (n t : Nat) (x : Word) : (r.setL n t x).v = r.v := rfl
@[simp] theorem Regs.setL_o (r : Regs) (n t : Nat) (x : Word) : (r.setL n t x).o = r.o := rfl
@[simp] theorem Regs.setL_mode (r : Regs) (n t : Nat) (x : Word) : (r.setL n t x).mode = r.mode := rfl
@[simp] theorem Regs.setL_cvmode (r : Regs) (n t : Nat) (x : Word) : (r.setL n t x).cvmode = r.cvmode := rfl

/-- A register of the main file after a write of one. -/
theorem Regs.getV_setV (r : Regs) {n m t u : Nat} (ht : t < 64) (hu : u < 64) (x : Word) :
    (r.setV n t x).getV m u = if m = n ∧ u = t then x else r.getV m u := by
  unfold Regs.getV Regs.setV
  simp only [FMap.getD_setD]
  by_cases h : m = n ∧ u = t
  · simp [h.1, h.2]
  · have : ¬ n * 64 + t = m * 64 + u := by omega
    simp [h, this]

/-- A register of the operand file after a write of one. -/
theorem Regs.getO_setO (r : Regs) {n m t u : Nat} (ht : t < 64) (hu : u < 64) (x : Word) :
    (r.setO n t x).getO m u = if m = n ∧ u = t then x else r.getO m u := by
  unfold Regs.getO Regs.setO
  simp only [FMap.getD_setD]
  by_cases h : m = n ∧ u = t
  · simp [h.1, h.2]
  · have : ¬ n * 64 + t = m * 64 + u := by omega
    simp [h, this]

/-- A latch after a write of one. -/
theorem Regs.getL_setL (r : Regs) {n m t u : Nat} (ht : t < 64) (hu : u < 64) (x : Word) :
    (r.setL n t x).getL m u = if m = n ∧ u = t then x else r.getL m u := by
  unfold Regs.getL Regs.setL
  simp only [FMap.getD_setD]
  by_cases h : m = n ∧ u = t
  · simp [h.1, h.2]
  · have : ¬ n * 64 + t = m * 64 + u := by omega
    simp [h, this]

@[simp] theorem Regs.getV_setO (r : Regs) (n m t u : Nat) (x : Word) : (r.setO n t x).getV m u = r.getV m u := rfl
@[simp] theorem Regs.getV_setL (r : Regs) (n m t u : Nat) (x : Word) : (r.setL n t x).getV m u = r.getV m u := rfl
@[simp] theorem Regs.getO_setV (r : Regs) (n m t u : Nat) (x : Word) : (r.setV n t x).getO m u = r.getO m u := rfl
@[simp] theorem Regs.getO_setL (r : Regs) (n m t u : Nat) (x : Word) : (r.setL n t x).getO m u = r.getO m u := rfl
@[simp] theorem Regs.getL_setV (r : Regs) (n m t u : Nat) (x : Word) : (r.setV n t x).getL m u = r.getL m u := rfl
@[simp] theorem Regs.getL_setO (r : Regs) (n m t u : Nat) (x : Word) : (r.setO n t x).getL m u = r.getL m u := rfl

/-- What `Claims.Wrote` says of a list of threads in place of a mask. -/
def WroteList (r : Regs) (ts : List Nat) (wide : Bool) (d : BitVec 8) (f : Nat → DWord) (r' : Regs) : Prop :=
  (∀ t n, t < 64 → r'.getV n t = if t ∈ ts then Claims.mainAfter wide d (f t) n (r.getV n t) else r.getV n t) ∧
  (∀ t n, t < 64 → r'.getO n t = if t ∈ ts then Claims.operandAfter wide d (f t) n (r.getO n t) else r.getO n t) ∧
  (∀ t, t < 64 → r'.getL 0 t = if t ∈ ts then lo32 (f t) else r.getL 0 t) ∧
  (∀ t, t < 64 → r'.getL 1 t = if t ∈ ts then (if wide then hi32 (f t) else r.getL 0 t) else r.getL 1 t) ∧
  r'.mode = r.mode ∧ r'.cvmode = r.cvmode

/-- One latching write, for one thread (R162). -/
theorem Regs.writeLatch_wrote (r : Regs) (wide : Bool) (d : BitVec 8) {t : Nat} (ht : t < 64) (f : Nat → DWord) :
    WroteList r [t] wide d f (r.writeLatch wide t d (f t)) := by
  refine ⟨?_, ?_, ?_, ?_, ?_⟩
  · intro u n hu
    unfold Regs.writeLatch Regs.latch32 Regs.latch64 Regs.write32 Regs.write64 Claims.mainAfter
    by_cases e : u = t
    · subst e
      cases wide <;> cases h : specOf d <;> simp [Regs.getV_setV, hu]
      rename_i k
      by_cases h1 : n = k <;> by_cases h2 : n = k + 1 <;> simp [h1, h2]
    · cases wide <;> cases h : specOf d <;> simp [e, Regs.getV_setV, ht, hu]
  · intro u n hu
    unfold Regs.writeLatch Regs.latch32 Regs.latch64 Regs.write32 Regs.write64 Claims.operandAfter
    by_cases e : u = t
    · subst e
      cases wide <;> cases h : specOf d <;> simp [Regs.getO_setO, hu]
      rename_i k
      by_cases h1 : n = k <;> by_cases h2 : n = k + 1 <;> simp [h1, h2]
    · cases wide <;> cases h : specOf d <;> simp [e, Regs.getO_setO, ht, hu]
  · intro u hu
    unfold Regs.writeLatch Regs.latch32 Regs.latch64 Regs.write32 Regs.write64
    cases wide <;> cases h : specOf d <;> by_cases e : u = t <;> simp [e, Regs.getL_setL, ht, hu]
  · intro u hu
    unfold Regs.writeLatch Regs.latch32 Regs.latch64 Regs.write32 Regs.write64
    cases wide <;> cases h : specOf d <;> by_cases e : u = t <;> simp [e, Regs.getL_setL, ht, hu]
  · unfold Regs.writeLatch Regs.latch32 Regs.latch64 Regs.write32 Regs.write64
    cases wide <;> cases specOf d <;> simp

/-- A list of latching writes to different threads (R162). -/
theorem writeResults_wroteList (wide : Bool) (d : BitVec 8) (f : Nat → DWord) (ts : List Nat) (h64 : ∀ t ∈ ts, t < 64) (hn : ts.Nodup) (r : Regs) :
    WroteList r ts wide d f (writeResults wide d (ts.map (fun t => (t, f t))) r) := by
  induction ts generalizing r with
  | nil => simp [WroteList, writeResults]
  | cons t ts ih =>
    have ht : t < 64 := h64 t (by simp)
    obtain ⟨hnt, hn⟩ := List.nodup_cons.1 hn
    have h1 := Regs.writeLatch_wrote r wide d ht f
    have h2 := ih (fun u hu => h64 u (by simp [hu])) hn (r.writeLatch wide t d (f t))
    have he : writeResults wide d ((t :: ts).map (fun t => (t, f t))) r = writeResults wide d (ts.map (fun t => (t, f t))) (r.writeLatch wide t d (f t)) := rfl
    rw [he]
    obtain ⟨a1, a2, a3, a4, a5, a6⟩ := h1
    obtain ⟨b1, b2, b3, b4, b5, b6⟩ := h2
    refine ⟨?_, ?_, ?_, ?_, b5.trans a5, b6.trans a6⟩
    · intro u n hu
      rw [b1 u n hu, a1 u n hu]
      by_cases e : u = t
      · subst e; simp [hnt]
      · simp [e]
    · intro u n hu
      rw [b2 u n hu, a2 u n hu]
      by_cases e : u = t
      · subst e; simp [hnt]
      · simp [e]
    · intro u hu
      rw [b3 u hu, a3 u hu]
      by_cases e : u = t
      · subst e; simp [hnt]
      · simp [e]
    · intro u hu
      rw [b4 u hu, a4 u hu, a3 u hu]
      by_cases e : u = t
      · subst e; simp [hnt]
      · simp [e]

theorem threadsOf_nodup (m : BitVec 64) : (threadsOf m).Nodup := List.Pairwise.filter _ List.nodup_range

theorem mem_threadsOf (m : BitVec 64) (t : Nat) : t ∈ threadsOf m ↔ t < 64 ∧ m.getLsbD t = true := by simp [threadsOf]

/-- The results of every thread of a mask, written (R162). -/
theorem writeResults_wrote (wide : Bool) (d : BitVec 8) (f : Nat → DWord) (m : BitVec 64) (r : Regs) :
    Claims.Wrote r m wide true d f (writeResults wide d ((threadsOf m).map (fun t => (t, f t))) r) := by
  have h := writeResults_wroteList wide d f (threadsOf m) (fun t ht => ((mem_threadsOf m t).1 ht).1) (threadsOf_nodup m) r
  obtain ⟨a1, a2, a3, a4, a5⟩ := h
  refine ⟨?_, ?_, ?_, ?_, a5⟩
  · intro t n ht
    rw [a1 t n ht]
    simp [mem_threadsOf, ht]
  · intro t n ht
    rw [a2 t n ht]
    simp [mem_threadsOf, ht]
  · intro t ht
    rw [a3 t ht]
    simp [mem_threadsOf, ht]
  · intro t ht
    rw [a4 t ht]
    simp [mem_threadsOf, ht]

/-- Without draws each thread's result is its own, and the seed stays (R288). -/
theorem threadResults_zero (f : Nat → List Nat → DWord) (ts : List Nat) (seed : Word) :
    threadResults 0 f ts seed = (ts.map (fun t => (t, f t [])), seed) := by
  induction ts with
  | nil => rfl
  | cons t ts ih => simp [threadResults, ih]

/-- A computation that takes no draw: every executing thread's result, and the seed as it was. -/
theorem Ctx.compute_zero (c : Ctx) (u : Bool) (f : Nat → List Nat → DWord) :
    c.compute u 0 f = ((threadsOf c.exec).map (fun t => (t, f (Claims.source c u t) [])), c.seed) := by
  unfold Ctx.compute Claims.source sameResult
  cases u
  · simp [threadResults_zero]
  · by_cases h : c.exec = 0#64
    · simp [h, threadsOf]
    · simp [h, srdraws]

/-- Issuing an instruction in a context that is at hand. -/
theorem issue_of_ctx {i : Instr} {single : Bool} {f : State → Ctx → Done} {s : State} {c : Ctx} (h : s.ctx = some c)
    (hs : c.single = true → single = true) : issue i single f s = finish c ((encode i).getD 0#32) (f s c) := by
  unfold issue
  rw [h]
  cases hc : c.single
  · simp [hc]
  · simp [hc, hs hc]

/-- A register instruction whose checks pass retires with its results (R319, R162). -/
theorem vIssue_ok {etOk : Bool} {ops : List Opnd} {wide : Bool} {d : BitVec 8} {run : Ctx → List (Nat × DWord) × Word} {s : State} {c : Ctx}
    (he : etOk = true) (h : Claims.Issues s c ops) :
    vIssue etOk ops wide d run s c = Done.seq s { c with regs := writeResults wide d (run c).1 c.regs, seed := (run c).2 } := by
  obtain ⟨_, h2, h3⟩ := h
  unfold vIssue
  simp [he, h2, h3]

/-- A register instruction without draws yields its results. -/
theorem yields_of_vIssue {i : Instr} {single : Bool} {f : State → Ctx → Done} {s : State} {c : Ctx} {ops : List Opnd} {etOk wide : Bool} {d : BitVec 8}
    {u : Bool} {g : Nat → List Nat → DWord} {h : Nat → DWord}
    (hx : exec i s = issue i single f s)
    (hf : f s c = vIssue etOk ops wide d (fun c => c.compute u 0 g) s c)
    (he : etOk = true) (hi : Claims.Issues s c ops) (hs : c.single = true → single = true)
    (hg : ∀ t, g (Claims.source c u t) [] = h t) : Claims.Yields i s c wide d h := by
  refine ⟨writeResults wide d ((threadsOf c.exec).map (fun t => (t, h t))) c.regs, writeResults_wrote wide d h c.exec c.regs, ?_⟩
  unfold Claims.Retires
  rw [hx, issue_of_ctx hi.1 hs, hf, vIssue_ok he hi, Ctx.compute_zero]
  simp [finish, Done.seq, hg]

end Sys2Proof.Machine
end

