-- ==== Sys2Proof/Tests/Slice0.lean ====
section
/-! SUPPORT. Tests of one step each, and for every statement with hypotheses a concrete state that meets
them. -/

set_option Elab.async false
set_option maxRecDepth 20000

namespace Sys2Proof.Tests

open Sys2Proof Sys2Proof.Machine Sys2Proof.Claims

/-- The package that issues a NOP-sized placed word, with the maps in the range cache of die 0 as well,
where the units look. -/
def base : State :=
  let s := State.reset.placeDevice 0#32
  { s with ms := { s.ms with rcache := [(0, (s.core 0).tlb)] } }

/-- The package with the groups given, split 0 of group 0 issuing. -/
def issuing (s : State) : State := { s with turn := { s.turn with cur := some (.split 0 0) } }

/-- The placed group, changed, issuing. -/
def withGroup (f : Group → Group) : State := issuing { base with groups := [(0, f placeGroup)] }

/-- The context that issues. -/
def ctx (s : State) : Ctx :=
  (s.ctx).getD ⟨.hart 0, 0, 0, false, ⟨[], [], [], 0#32, 0#32⟩, 0#32, 0, ⟨0#64, 0#64, none, .clear, .none, none, false, 0, none⟩, 0#64, 0#64, false, none⟩

/-- The placed split. -/
def sp0 : Split := ⟨~~~0#64, 0x10000#64, none, .clear, .none, none, false, 0, none⟩

def onSplit (f : Split → Split) (g : Group) : Group := { g with table := [(0, f sp0)] }

/-- MODE with an element type and a rounding code (R312). -/
def modeOf (et rnd : Nat) : Word := BitVec.ofNat 32 (et * 2 ^ 10 + rnd * 2 ^ 14)

/-- The placed group under a MODE and a CVMODE. -/
def inMode (et rnd : Nat) (cv : Word) : State := withGroup (fun g => { g with regs := { g.regs with mode := modeOf et rnd, cvmode := cv } })

/-- Register n of thread t of the main file. -/
def setReg (n t : Nat) (v : Word) (g : Group) : Group := { g with regs := { g.regs with v := FMap.insert g.regs.v (n * 64 + t) v } }

/-- Threads 0 and 63 only. -/
def bothEnds : BitVec 64 := 0x8000000000000001#64

theorem of_lt_64 {m : BitVec 64} {P : Nat → Prop} (h : ∀ t, t < 64 → P t) : ∀ t, m.getLsbD t = true → P t :=
  fun t ht => h t (BitVec.lt_of_getLsbD ht)

theorem of_both_ends {P : Nat → Prop} (h0 : P 0) (h1 : P 63) : ∀ t, bothEnds.getLsbD t = true → P t := by
  intro t ht
  have h : ∀ t, t < 64 → bothEnds.getLsbD t = true → t = 0 ∨ t = 63 := by decide
  obtain rfl | rfl := h t (BitVec.lt_of_getLsbD ht) ht
  · exact h0
  · exact h1

theorem of_member {m : BitVec 64} {P : Nat → Prop} (h : ∀ t, t < 64 → m.getLsbD t = true → P t) : ∀ t, t < 64 ∧ m.getLsbD t = true → P t :=
  fun t ht => h t ht.1 ht.2

/-- A handler of group 0 in single-lane mode, issuing. -/
def handling (f : Group → Group) (k : Handler → Handler) : State :=
  { base with groups := [(0, f { placeGroup with status := .handler })], turn := { base.turn with cur := some (.handler 0) },
              handlers := [(0, k ⟨0, ⟨[], [], [], 0#32, 0x88888800#32⟩, 0x10000#64, .clear, [], 0#64, .none⟩)] }

/-! Words written out from the encodings of R302 to R304, R316, R317, R365, R385 and R229: each is the
instruction that it stands for. -/

theorem test_decode_control : ∀ q ∈ ([
    (0#24, 0x00000000#32, .nop), (0#24, 0x018ABCDE#32, (.ext 9092318#24)), (0#24, 0x028ABCDE#32, (.exth 9092318#24)),
    (0#24, 0x038ABCDE#32, (.setm 9092318#24)), (0#24, 0x040000F1#32, (.setcv 241#8)), (0#24, 0x058ABCDE#32, (.bra 9092318#24)),
    (0#24, 0x86848001#32, (.brc true 132#8 32769#16)), (0#24, 0x07000000#32, .join), (0#24, 0x08007F00#32, (.jmpi 127#8)),
    (0#24, 0x09848001#32, (.call 132#8 32769#16)), (0#24, 0x0A847F00#32, (.calli 132#8 127#8)), (0#24, 0x0B000000#32, .exit)
  ] : List (BitVec 24 × BitVec 32 × Instr)), (decodeDevice q.1 q.2.1).toOption = some q.2.2 := by decide

theorem test_decode_integer : ∀ q ∈ ([
    (0#24, 0x90847FF1#32, (.iadd true 132#8 127#8 241#8)), (0#24, 0x91847FF1#32, (.isub true 132#8 127#8 241#8)), (0#24, 0x92847FF1#32, (.imul true 132#8 127#8 241#8)),
    (0#24, 0x93847FF1#32, (.imulh true 132#8 127#8 241#8)), (0#24, 0x94847FF1#32, (.imad true 132#8 127#8 241#8)), (0#24, 0x95847FF1#32, (.idiv true 132#8 127#8 241#8)),
    (0#24, 0x96847FF1#32, (.imin true 132#8 127#8 241#8)), (0#24, 0x97847FF1#32, (.imax true 132#8 127#8 241#8)), (0#24, 0x98847FF1#32, (.and true 132#8 127#8 241#8)),
    (0#24, 0x99847FF1#32, (.or true 132#8 127#8 241#8)), (0#24, 0x9A847FF1#32, (.xor true 132#8 127#8 241#8)), (0#24, 0x9B847FF1#32, (.andn true 132#8 127#8 241#8)),
    (0#24, 0x9C847FF1#32, (.shl true 132#8 127#8 241#8)), (0#24, 0x9D847FF1#32, (.shr true 132#8 127#8 241#8)), (0#24, 0x9E847FF1#32, (.sar true 132#8 127#8 241#8)),
    (0#24, 0x9F847FF1#32, (.fshl true 132#8 127#8 241#8))
  ] : List (BitVec 24 × BitVec 32 × Instr)), (decodeDevice q.1 q.2.1).toOption = some q.2.2 := by decide

theorem test_decode_integer_more : ∀ q ∈ ([
    (0#24, 0xA0847FF1#32, (.bfx true 132#8 127#8 241#8)), (0#24, 0xA1847FF1#32, (.bfi true 132#8 127#8 241#8)), (0#24, 0xA2847FF1#32, (.prmb true 132#8 127#8 241#8)),
    (0#24, 0xA3847FF1#32, (.sel true 132#8 127#8 241#8)), (0#24, 0xA4847FF1#32, (.iseq true 132#8 127#8 241#8)), (0#24, 0xA5847FF1#32, (.isne true 132#8 127#8 241#8)),
    (0#24, 0xA6847FF1#32, (.islt true 132#8 127#8 241#8)), (0#24, 0xA7847FF1#32, (.isle true 132#8 127#8 241#8)), (0#24, 0xA8848001#32, (.limm true 132#8 32769#16)),
    (0#24, 0xA9848001#32, (.limmh true 132#8 32769#16)), (0#24, 0xAA847FF1#32, (.iadd64 true 132#8 127#8 241#8)), (0#24, 0xAB847FF1#32, (.isub64 true 132#8 127#8 241#8)),
    (0#24, 0xAC847F00#32, (.mov true 132#8 127#8)), (0#24, 0xAC847F01#32, (.not true 132#8 127#8)), (0#24, 0xAC847F02#32, (.ineg true 132#8 127#8)),
    (0#24, 0xAC847F03#32, (.iabs true 132#8 127#8)), (0#24, 0xAC847F04#32, (.clz true 132#8 127#8)), (0#24, 0xAC847F05#32, (.ffs true 132#8 127#8)),
    (0#24, 0xAC847F06#32, (.popc true 132#8 127#8)), (0#24, 0xAC847F07#32, (.brev true 132#8 127#8)), (0#24, 0xAD847FF1#32, (.ada true 132#8 127#8 241#8)),
    (0#24, 0xAE847FF1#32, (.adax true 132#8 127#8 241#8)), (0#24, 0xAF847FF1#32, (.adcmp true 132#8 127#8 241#8))
  ] : List (BitVec 24 × BitVec 32 × Instr)), (decodeDevice q.1 q.2.1).toOption = some q.2.2 := by decide

theorem test_decode_float : ∀ q ∈ ([
    (0#24, 0xB0847FF1#32, (.fadd true 132#8 127#8 241#8)), (0#24, 0xB1847FF1#32, (.fsub true 132#8 127#8 241#8)), (0#24, 0xB2847FF1#32, (.fmul true 132#8 127#8 241#8)),
    (0#24, 0xB3847FF1#32, (.fma true 132#8 127#8 241#8)), (0#24, 0xB4847FF1#32, (.fnma true 132#8 127#8 241#8)), (0#24, 0xB5847FF1#32, (.fmin true 132#8 127#8 241#8)),
    (0#24, 0xB6847FF1#32, (.fmax true 132#8 127#8 241#8)), (0#24, 0xB7847FF1#32, (.fcpys true 132#8 127#8 241#8)), (0#24, 0xB8847FF1#32, (.fscl true 132#8 127#8 241#8)),
    (0#24, 0xB9847FF1#32, (.fdiv true 132#8 127#8 241#8)), (0#24, 0xBA847FF1#32, (.fseq true 132#8 127#8 241#8)), (0#24, 0xBB847FF1#32, (.fsne true 132#8 127#8 241#8)),
    (0#24, 0xBC847FF1#32, (.fslt true 132#8 127#8 241#8)), (0#24, 0xBD847FF1#32, (.fsle true 132#8 127#8 241#8)), (0#24, 0xBE847FF1#32, (.fsun true 132#8 127#8 241#8)),
    (0#24, 0xBF847F00#32, (.fabs true 132#8 127#8)), (0#24, 0xBF847F01#32, (.fneg true 132#8 127#8)), (0#24, 0xBF847F02#32, (.fclass true 132#8 127#8)),
    (0#24, 0xBF847F03#32, (.frnd true 132#8 127#8)), (0#24, 0xBF847F04#32, (.fexpo true 132#8 127#8)), (0#24, 0xBF847F08#32, (.frcp true 132#8 127#8)),
    (0#24, 0xBF847F09#32, (.frsq true 132#8 127#8)), (0#24, 0xBF847F0A#32, (.fsqrt true 132#8 127#8)), (0#24, 0xBF847F0B#32, (.fex2 true 132#8 127#8)),
    (0#24, 0xBF847F0C#32, (.flg2 true 132#8 127#8)), (0#24, 0xBF847F0D#32, (.fsin true 132#8 127#8)), (0#24, 0xBF847F0E#32, (.fcos true 132#8 127#8)),
    (0#24, 0xBF847F0F#32, (.ftanh true 132#8 127#8))
  ] : List (BitVec 24 × BitVec 32 × Instr)), (decodeDevice q.1 q.2.1).toOption = some q.2.2 := by decide

theorem test_decode_convert_memory : ∀ q ∈ ([
    (0#24, 0xC0847F04#32, (.cvtf true 132#8 127#8 4#4)), (0#24, 0xC0847F1D#32, (.cvti true 132#8 127#8 13#4)), (0#24, 0xC0847F2E#32, (.cvif true 132#8 127#8 14#4)),
    (0#24, 0xC0847F3D#32, (.cvii true 132#8 127#8 13#4)), (0#24, 0xC0847F4E#32, (.unpk true 132#8 127#8 14#4)), (0#24, 0xC0847F53#32, (.mxq true 132#8 127#8 3#4)),
    (0#24, 0xC0847F64#32, (.mxsc true 132#8 127#8 4#4)), (0#24, 0xC1847FF1#32, (.pack2 true 132#8 127#8 241#8)), (0#24, 0xC2847FF1#32, (.pack4 true 132#8 127#8 241#8)),
    (0#24, 0xC3847FF1#32, (.shfl true 132#8 127#8 241#8)), (0#24, 0xC4847FF1#32, (.shflx true 132#8 127#8 241#8)), (0#24, 0xC5847FF1#32, (.shflup true 132#8 127#8 241#8)),
    (0#24, 0xC6847FF1#32, (.shfldn true 132#8 127#8 241#8)), (0#24, 0xC7847F00#32, (.red true 132#8 127#8)), (0#24, 0xC7847F01#32, (.rstep true 132#8 127#8)),
    (0#24, 0xC7847F02#32, (.vany true 132#8 127#8)), (0#24, 0xC7847F03#32, (.vall true 132#8 127#8)), (0#24, 0xC7847F04#32, (.blt true 132#8 127#8)),
    (0#24, 0xC7847F05#32, (.elect true 132#8 127#8)), (0#24, 0xC7847F06#32, (.pscan true 132#8 127#8)), (0#24, 0xC7847F07#32, (.bcast true 132#8 127#8)),
    (0#24, 0xC8847FF1#32, (.ldb true 132#8 127#8 241#8)), (0#24, 0xC9847FF1#32, (.ldh true 132#8 127#8 241#8)), (0#24, 0xCA847FF1#32, (.ldw true 132#8 127#8 241#8)),
    (0#24, 0xCB847FF1#32, (.ldd true 132#8 127#8 241#8)), (0#24, 0xCC847FF1#32, (.ldq true 132#8 127#8 241#8)), (0#24, 0xCD847FF1#32, (.stb true 132#8 127#8 241#8)),
    (0#24, 0xCE847FF1#32, (.sth true 132#8 127#8 241#8)), (0#24, 0xCF847FF1#32, (.stw true 132#8 127#8 241#8))
  ] : List (BitVec 24 × BitVec 32 × Instr)), (decodeDevice q.1 q.2.1).toOption = some q.2.2 := by decide

theorem test_decode_memory_sync : ∀ q ∈ ([
    (0#24, 0xD0847FF1#32, (.std true 132#8 127#8 241#8)), (0#24, 0xD1847FF1#32, (.stq true 132#8 127#8 241#8)), (0#24, 0xD28400F1#32, (.ldc true 132#8 241#8)),
    (0x000000#24, 0xD3847FF1#32, (.atAdd true 132#8 127#8 241#8)), (0x100000#24, 0xD3847FF1#32, (.atMin true 132#8 127#8 241#8)), (0x200000#24, 0xD3847FF1#32, (.atMax true 132#8 127#8 241#8)),
    (0x300000#24, 0xD3847FF1#32, (.atAnd true 132#8 127#8 241#8)), (0x400000#24, 0xD3847FF1#32, (.atOr true 132#8 127#8 241#8)), (0x500000#24, 0xD3847FF1#32, (.atXor true 132#8 127#8 241#8)),
    (0x600000#24, 0xD3847FF1#32, (.atXch true 132#8 127#8 241#8)), (0x700000#24, 0xD3847FF1#32, (.atCas true 132#8 127#8 241#8)), (0x800000#24, 0xD3847FF1#32, (.atInc true 132#8 127#8 241#8)),
    (0x900000#24, 0xD3847FF1#32, (.atAgg true 132#8 127#8 241#8)), (0xA00000#24, 0xD3847FF1#32, (.atFadd true 132#8 127#8 241#8)), (0#24, 0x54000049#32, (.fence 4#3 9#4)),
    (0#24, 0x5500009E#32, (.bar 9#4 14#4)), (0#24, 0x56000001#32, (.barg 1#4)), (0#24, 0x57A50004#32, (.waitc 165#8 4#8)),
    (0#24, 0x58840000#32, (.seal 132#8)), (0#24, 0x590000F1#32, (.waitb 241#8)), (0#24, 0x5A007FF1#32, (.pft 127#8 241#8)),
    (0#24, 0x5B007FF1#32, (.evt 127#8 241#8)), (0#24, 0x5C847FF1#32, (.bow 132#8 127#8 241#8)), (0#24, 0x5D000000#32, .cinv),
    (0#24, 0x5D017FF1#32, (.cinvRange 127#8 241#8))
  ] : List (BitVec 24 × BitVec 32 × Instr)), (decodeDevice q.1 q.2.1).toOption = some q.2.2 := by decide

theorem test_decode_units : ∀ q ∈ ([
    (0#24, 0x60857F00#32, (.cpy true 5#3 127#8)), (0#24, 0x60857F01#32, (.gthr true 5#3 127#8)), (0#24, 0x60857F02#32, (.gbag true 5#3 127#8)),
    (0#24, 0x60857F03#32, (.sctr true 5#3 127#8)), (0#24, 0x60857F04#32, (.coll true 5#3 127#8)), (0#24, 0x60857F05#32, (.chain true 5#3 127#8)),
    (0#24, 0x60857F06#32, (.npost true 5#3 127#8)), (0#24, 0x610100F1#32, (.ctail true 241#8)), (0#24, 0x620500F1#32, (.gres 5#3 241#8)),
    (0#24, 0x620D0000#32, (.gresClear 5#3)), (0#24, 0x63847FF1#32, (.ncwt 132#8 127#8 241#8)), (0#24, 0x64847FF1#32, (.tswap 132#8 127#8 241#8)),
    (0#24, 0x65847F00#32, (.lnch 132#8 127#8)), (0#24, 0x66847F00#32, (.hcall 132#8 127#8)), (0#24, 0x67000000#32, .txo),
    (0#24, 0x68000000#32, .txc), (0#24, 0x690000F1#32, (.txd 241#8)), (0#24, 0x6A840000#32, (.txs 132#8)),
    (0#24, 0x6B007FF1#32, (.wsig 127#8 241#8)), (0#24, 0x6C847FF1#32, (.wtry 132#8 127#8 241#8)), (0#24, 0x6D847FF1#32, (.wwait 132#8 127#8 241#8)),
    (0#24, 0x6E847F00#32, (.wqry 132#8 127#8))
  ] : List (BitVec 24 × BitVec 32 × Instr)), (decodeDevice q.1 q.2.1).toOption = some q.2.2 := by decide

theorem test_decode_grid_system : ∀ q ∈ ([
    (0#24, 0x70000000#32, .entg), (0#24, 0x71000000#32, .extg), (0#24, 0x72047FF1#32, (.gmm true 127#8 241#8)),
    (0#24, 0x72057FF1#32, (.gmmSparse true 127#8 241#8)), (0#24, 0x72067FF1#32, (.gmmLinked true 127#8 241#8)), (0#24, 0x72077FF1#32, (.gmmLinkedSparse true 127#8 241#8)),
    (0#24, 0x73047FF1#32, (.gout true 127#8 241#8)), (0#24, 0x74000000#32, .gzro), (0#24, 0x75847F00#32, (.gbias 132#8 127#8)),
    (0#24, 0x75847F01#32, (.gscl 132#8 127#8)), (0#24, 0x75847F02#32, (.gpack 132#8 127#8)), (0#24, 0x76847F00#32, (.gstp 132#8 127#8)),
    (0#24, 0x76847F01#32, (.gldp 132#8 127#8)), (0#24, 0x77840000#32, (.gstat 132#8)), (0#24, 0x788ABCDE#32, (.trap 9092318#24)),
    (0#24, 0x79840019#32, (.srd 132#8 25#16)), (0#24, 0x7A840019#32, (.swr 132#8 25#16)), (0#24, 0x7B000000#32, .rett),
    (0#24, 0x7B000001#32, .fpret), (0#24, 0x7B000002#32, .yld), (0#24, 0x7B000003#32, .halt),
    (0#24, 0x7B000004#32, .dbrk), (0#24, 0x7B010005#32, .fskipAll), (0#24, 0x7B007F05#32, (.fskipMask 127#8)),
    (0#24, 0x7B007F06#32, (.slp 127#8)), (0#24, 0x7C847FF1#32, (.lrd 132#8 127#8 241#8)), (0#24, 0x7D847FF1#32, (.lwr 132#8 127#8 241#8)),
    (0#24, 0x7E007FF1#32, (.erpl 127#8 241#8)), (0#24, 0x7F007F00#32, (.fpt 127#8))
  ] : List (BitVec 24 × BitVec 32 × Instr)), (decodeDevice q.1 q.2.1).toOption = some q.2.2 := by decide

theorem test_decode_host : decodeHost 0x00000A8B#32 = some (.txOpen 21#5) ∧ decodeHost 0x0000100B#32 = some .txClose ∧ decodeHost 0x000AA00B#32 = some (.txDrop 21#5) := by decide

/-! Words that the checks on fields refuse (R365, R393, R394, R398, R321). -/

theorem test_wellformed_refused :
    Instr.wellFormed (.cvtf false 1#8 1#8 0#4) = false ∧ Instr.wellFormed (.cvti false 1#8 1#8 4#4) = false ∧ Instr.wellFormed (.cvif false 1#8 1#8 5#4) = false ∧
    Instr.wellFormed (.cvii false 1#8 1#8 14#4) = false ∧ Instr.wellFormed (.unpk false 1#8 1#8 5#4) = false ∧ Instr.wellFormed (.mxq false 1#8 1#8 2#4) = false ∧
    Instr.wellFormed (.mxsc false 1#8 1#8 5#4) = false ∧ Instr.wellFormed (.fence 0#3 0#4) = false ∧ Instr.wellFormed (.fence 5#3 0#4) = false ∧
    Instr.wellFormed (.waitc 0#8 5#8) = false ∧ Instr.wellFormed (.srd 1#8 0x1A#16) = false ∧ Instr.wellFormed (.swr 1#8 0x1A#16) = false ∧
    Instr.wellFormed (.cpy false 1#3 16#8) = false ∧ Instr.wellFormed (.gthr false 2#3 16#8) = false ∧ Instr.wellFormed (.gbag false 3#3 16#8) = false ∧
    Instr.wellFormed (.sctr false 4#3 16#8) = false ∧ Instr.wellFormed (.coll false 5#3 16#8) = false ∧ Instr.wellFormed (.chain false 6#3 16#8) = false ∧
    Instr.wellFormed (.npost false 7#3 16#8) = false := by decide

/-! The manual's own examples of encodings. -/

theorem test_decode_examples :
    decodeDevice 0#24 (0#1 ++ 0x10#7 ++ 1#8 ++ 2#8 ++ 3#8) = .ok (.iadd false 1#8 2#8 3#8) ∧ decodeDevice 0#24 (0#1 ++ 0x14#7 ++ 5#8 ++ 6#8 ++ 7#8) = .ok (.imad false 5#8 6#8 7#8) ∧
    decodeDevice 0#24 0x2803FFFE#32 = .ok (.limm false 3#8 0xFFFE#16) ∧ decodeDevice 0#24 0x2C020104#32 = .ok (.clz false 2#8 1#8) ∧
    decodeDevice 0#24 0xBF040302#32 = .ok (.fclass true 4#8 3#8) ∧ decodeDevice 0#24 0x40020119#32 = .ok (.cvti false 2#8 1#8 9#4) ∧
    decodeDevice 0#24 0x40020143#32 = .ok (.unpk false 2#8 1#8 3#4) ∧
    decodeDevice 0#24 0x44050102#32 = .ok (.shflx false 5#8 1#8 2#8) :=
  ⟨rfl, rfl, rfl, rfl, rfl, rfl, rfl, rfl⟩

theorem test_decode_more_examples :
    decodeDevice 0x088010#24 0x53040A0C#32 = .ok (.atAdd false 4#8 10#8 12#8) ∧ decodeDevice 0x75C000#24 0x53080203#32 = .ok (.atCas false 8#8 2#8 3#8) ∧
    decodeDevice 0#24 0x54000044#32 = .ok (.fence 4#3 4#4) ∧ decodeDevice 0#24 0x55000031#32 = .ok (.bar 3#4 1#4) ∧ decodeDevice 0#24 0x57020001#32 = .ok (.waitc 2#8 1#8) ∧
    decodeDevice 0#24 0x60828001#32 = .ok (.gthr true 2#3 0x80#8) ∧ decodeDevice 0#24 0x61010006#32 = .ok (.ctail true 6#8) ∧ decodeDevice 0#24 0x620B0000#32 = .ok (.gresClear 3#3) ∧
    decodeDevice 0#24 0x7B000004#32 = .ok .dbrk ∧ decodeDevice 0#24 0x7F000C00#32 = .ok (.fpt 0x0C#8) ∧ decodeDevice 0#24 0x47060104#32 = .ok (.blt false 6#8 1#8) :=
  ⟨rfl, rfl, rfl, rfl, rfl, rfl, rfl, rfl, rfl, rfl, rfl⟩

/-! The manual's examples of results: thread 0 alone, its D in v8, A in v4 and v5, B in v6 and v7. -/

/-- Thread 0 with these registers under a MODE and a CVMODE. -/
def alone (mode cv : Word) (d a a1 b b1 : Word) : State :=
  let v := [(4 * 64, a), (5 * 64, a1), (6 * 64, b), (7 * 64, b1), (8 * 64, d)]
  withGroup (fun g => onSplit (fun x => { x with mask := 1#64 }) { g with regs := { g.regs with mode := mode, cvmode := cv, v := v } })

/-- Thread 0's v8 after one instruction that completes. -/
def result (i : Instr) (s : State) : Option Word :=
  match exec i s with
  | .next t => match FMap.find t.groups 0 with
    | some g => if g.status = .running then some (g.regs.getV 8 0) else none
    | none => none
  | _ => none

/-- Its result of a two-source instruction. -/
def of2 (i : Bool → BitVec 8 → BitVec 8 → BitVec 8 → Instr) (mode : Word) (a b : Word) : Option Word := result (i false 8#8 4#8 6#8) (alone mode 0x88888800#32 0#32 a 0#32 b 0#32)

/-- Its result of a one-source instruction. -/
def of1 (i : Bool → BitVec 8 → BitVec 8 → Instr) (mode : Word) (a : Word) : Option Word := result (i false 8#8 4#8) (alone mode 0x88888800#32 0#32 a 0#32 0#32 0#32)

/-- MODE.isat (R312). -/
def isat : Word := 0x80000#32

theorem test_integer_examples :
    of2 .idiv (modeOf 0 0) 7#32 0xFFFFFFFE#32 = some 0xFFFFFFFD#32 ∧ of2 .idiv (modeOf 1 0) 5#32 0#32 = some 0xFFFFFFFF#32 ∧
    of2 .idiv (modeOf 0 0) 0x80000000#32 0xFFFFFFFF#32 = some 0x80000000#32 ∧ of2 .idiv (modeOf 0 0 + isat) 0x80000000#32 0xFFFFFFFF#32 = some 0x7FFFFFFF#32 ∧
    of2 .iadd (modeOf 4 0 + isat) 0x7F800102#32 0x01FF0101#32 = some 0x7F800203#32 ∧ of2 .iadd (modeOf 4 0) 0x7F800102#32 0x01FF0101#32 = some 0x807F0203#32 ∧
    of2 .imulh (modeOf 1 0) 0xFFFFFFFF#32 0xFFFFFFFF#32 = some 0xFFFFFFFE#32 ∧ of2 .imulh (modeOf 0 0) 0xFFFFFFFF#32 0xFFFFFFFF#32 = some 0#32 ∧
    of2 .sar (modeOf 0 0) 0x80000000#32 40#32 = some 0xFFFFFFFF#32 ∧ of2 .shr (modeOf 0 0) 0x80000000#32 40#32 = some 0#32 := by
  refine ⟨?_, ?_, ?_, ?_, ?_, ?_, ?_, ?_, ?_, ?_⟩ <;> decide +kernel

theorem test_bit_examples :
    of1 .clz (modeOf 0 0) 0#32 = some 32#32 ∧ of1 .clz (modeOf 5 0) 0x000100FF#32 = some 0x08070800#32 ∧ of1 .ffs (modeOf 0 0) 0x100#32 = some 8#32 ∧
    of1 .popc (modeOf 3 0) 0xFFFF0003#32 = some 0x00100002#32 ∧ of1 .ineg (modeOf 0 0) 0x80000000#32 = some 0x80000000#32 ∧
    of2 .bfx (modeOf 0 0) 0xF00#32 0x408#32 = some 0xFFFFFFFF#32 ∧ of2 .bfx (modeOf 1 0) 0xF00#32 0x408#32 = some 0xF#32 ∧
    result (.fshl false 8#8 4#8 6#8) (alone 0#32 0#32 0#32 0x87654321#32 0x12345678#32 8#32 0#32) = some 0x34567887#32 ∧
    result (.prmb false 8#8 4#8 6#8) (alone 0#32 0#32 0#32 0x44332211#32 0x88776655#32 0xF0E7#32 0#32) = some 0xFF110088#32 ∧
    of2 .iadd (modeOf 6 0) 0#32 0#32 = none := by
  refine ⟨?_, ?_, ?_, ?_, ?_, ?_, ?_, ?_, ?_, ?_⟩ <;> decide +kernel

theorem test_float_examples :
    of2 .fadd (modeOf 6 0) 0x3F800000#32 0x33800000#32 = some 0x3F800000#32 ∧ of2 .fadd (modeOf 6 2) 0x3F800000#32 0x33800000#32 = some 0x3F800001#32 ∧
    of2 .fsub (modeOf 6 3) 0x40400000#32 0x40400000#32 = some 0x80000000#32 ∧ of2 .fmul (modeOf 6 0) 0x7F800000#32 0#32 = some 0x7FC00000#32 ∧
    of2 .fadd (modeOf 6 0) 0x7F800001#32 0xFFC00002#32 = some 0x7FC00001#32 ∧ of2 .fdiv (modeOf 6 0) 0x3F800000#32 0x80000000#32 = some 0xFF800000#32 ∧
    result (.fma false 8#8 4#8 6#8) (alone (modeOf 6 0) 0#32 0xBF800000#32 0x3F800800#32 0#32 0x3F800800#32 0#32) = some 0x3A000400#32 ∧
    of2 .fmin (modeOf 6 0) 0#32 0x80000000#32 = some 0x80000000#32 ∧ of2 .fmax (modeOf 6 0) 0x3F800000#32 0x7FC00000#32 = some 0x7FC00000#32 ∧
    of2 .fscl (modeOf 6 0) 0x3F800000#32 0xFFFFFF6B#32 = some 1#32 ∧ of2 .fscl (modeOf 6 0 + 0x40000#32) 0x3F800000#32 0xFFFFFF6B#32 = some 0#32 := by
  refine ⟨?_, ?_, ?_, ?_, ?_, ?_, ?_, ?_, ?_, ?_, ?_⟩ <;> decide +kernel

theorem test_float_unary_examples :
    of2 .fseq (modeOf 6 0) 0#32 0x80000000#32 = some 0xFFFFFFFF#32 ∧ of2 .fsne (modeOf 6 0) 0x7FC00000#32 0x7FC00000#32 = some 0xFFFFFFFF#32 ∧
    of2 .fslt (modeOf 6 0) 0x7FC00000#32 0x3F800000#32 = some 0#32 ∧ of2 .fadd (modeOf 7 2) 0x3C007BFF#32 0x3C003C00#32 = some 0x40007C00#32 ∧
    of1 .frnd (modeOf 6 0) 0x40200000#32 = some 0x40000000#32 ∧ of1 .frnd (modeOf 6 4) 0x40200000#32 = some 0x40400000#32 ∧ of1 .frnd (modeOf 6 0) 0xBE800000#32 = some 0x80000000#32 ∧
    of1 .fexpo (modeOf 6 0) 1#32 = some 0xFFFFFF6B#32 ∧ of1 .fexpo (modeOf 6 0 + 0x20000#32) 1#32 = some 0x80000000#32 ∧ of1 .fclass (modeOf 6 0) 1#32 = some 0x20#32 := by
  refine ⟨?_, ?_, ?_, ?_, ?_, ?_, ?_, ?_, ?_, ?_⟩ <;> decide +kernel

/-- Its result of a conversion under a CVMODE. -/
def ofCv (i : Bool → BitVec 8 → BitVec 8 → BitVec 4 → Instr) (f : BitVec 4) (et : Nat) (cv a : Word) : Option Word :=
  result (i false 8#8 4#8 f) (alone (modeOf et 0) cv 0#32 a 0#32 0#32 0#32)

theorem test_conversion_examples :
    ofCv .cvtf 3#4 0 0x88888800#32 0x43960000#32 = some 0x79#32 ∧ ofCv .cvtf 3#4 0 0x88888800#32 0x447A0000#32 = some 0x7E#32 ∧ ofCv .cvtf 3#4 0 0x88888000#32 0x447A0000#32 = some 0x7F#32 ∧
    ofCv .cvtf 1#4 0 0x88888800#32 0x7F800001#32 = some 0x7C01#32 ∧ ofCv .unpk 3#4 0 0x88888800#32 0x7F#32 = some 0x7FF00000#32 ∧ ofCv .cvtf 14#4 0 0x88888800#32 0x40400000#32 = some 0x80#32 ∧
    ofCv .cvti 9#4 0 0x88088800#32 0x43488000#32 = some 0xFFFFFFC8#32 ∧ ofCv .cvti 5#4 0 0x88888800#32 0x7FC00000#32 = some 0#32 ∧
    ofCv .cvii 10#4 0 0x88888800#32 0xFFFFFFFB#32 = some 0#32 ∧ ofCv .cvif 1#4 1 0x88888800#32 0xFFFFFFFF#32 = some 0x7C00#32 ∧
    result (.pack2 false 8#8 4#8 6#8) (alone (modeOf 8 0) 0x88888800#32 0#32 0x3F800000#32 0#32 0x3F808000#32 0#32) = some 0x3F803F80#32 ∧
    result (.pack4 false 8#8 4#8 6#8) (alone (modeOf 6 0) 0x88888800#32 0#32 0x3F800000#32 0xC0000000#32 0x3F000000#32 0x7FC00000#32) = some 0x7F30C038#32 := by
  refine ⟨?_, ?_, ?_, ?_, ?_, ?_, ?_, ?_, ?_, ?_, ?_, ?_⟩ <;> decide +kernel

/-- Threads 0 to 47, each with its index in v4. -/
def gathered : State :=
  let v := (List.range 64).map (fun t => (4 * 64 + t, BitVec.ofNat 32 t))
  withGroup (fun g => onSplit (fun x => { x with mask := 0x0000FFFFFFFFFFFF#64 }) { g with regs := { g.regs with v := v } })

theorem test_reduction_example : result (.red false 8#8 4#8) gathered = some 1128#32 := by decide +kernel

theorem test_atomic_example :
    let v := [(4 * 64, 0x20000#32)] ++ ([2#32, 0#32, 1#32, 0#32, 3#32, 0#32, 0#32, 1#32].mapIdx (fun t x => (8 * 64 + t, x)))
    let s := withGroup (fun g => onSplit (fun x => { x with mask := 0xFF#64, pfx := ⟨true, 0x900000#24, false, 0#24⟩ }) { g with regs := { g.regs with mode := modeOf 1 0, v := v } })
    let s := { s with ms := { s.ms with mem := putBytes s.ms.mem 0x20000 [10#8] } }
    (match exec (.atAgg false 8#8 4#8 0xF0#8) s with
      | .next t => match FMap.find t.groups 0 with
        | some g => decide ((List.range 8).map (g.regs.getV 8) = [10#32, 12#32, 12#32, 13#32, 13#32, 16#32, 16#32, 16#32]) && decide (t.wordAt 0x20000 4 = 17)
        | none => false
      | _ => false) = true := by decide +kernel

theorem test_draws : (srdraw 1#32, srdraw (srdraw 1#32)) = (0x00042021#32, 0x04080601#32) := by decide +kernel

theorem test_load_little_endian :
    let s := withGroup (fun g => onSplit (fun x => { x with mask := 1#64 }) (setReg 4 0 0x20000#32 g))
    let s := { s with ms := { s.ms with mem := putBytes s.ms.mem 0x20000 [1#8, 2#8, 3#8, 0x84#8] } }
    result (.ldw false 8#8 4#8 0xF0#8) s = some 0x84030201#32 ∧ result (.ldb false 8#8 4#8 0xF0#8) s = some 1#32 := by
  refine ⟨by decide +kernel, by decide +kernel⟩

theorem test_misaligned_store_traps :
    let s := withGroup (fun g => onSplit (fun x => { x with mask := 1#64 }) (setReg 4 0 0x20001#32 g))
    (match exec (.stw false 8#8 4#8 0xF0#8) s with
      | .next t => match FMap.find t.groups 0 with
        | some g => decide (g.status = .trapped ∧ g.fault.map (fun f => (f.code, f.addr, f.mask)) = some (3, 0x20001#64, 1#64) ∧ t.ms.mem = s.ms.mem)
        | none => false
      | _ => false) = true := by decide +kernel

/-- A placed word is the next instruction: its split stands after it, and its result is written. -/
theorem test_placed_word_runs :
    (match step (State.reset.withFetchWord 32 0x28081234) with
      | .next t => match FMap.find t.groups 0 with
        | some g => decide (g.regs.getV 8 63 = 0x1234#32 ∧ (g.table.map (fun q => q.2.pc)) = [0x10004#64])
        | none => false
      | _ => false) = true := by decide +kernel

/-! The witnesses. -/

theorem wit_TypedIntegerResults :
    (typedOk (ctx (inMode 0 0 0#32)).etype = true ∧ Issues (inMode 0 0 0#32) (ctx (inMode 0 0 0#32)) (opsDAB false 0x7F#8 0x87#8 0xFF#8)) ∧
    (typedOk (ctx (inMode 10 0 0#32)).etype = true ∧ Issues (inMode 10 0 0#32) (ctx (inMode 10 0 0#32)) (opsDAB true 0x7E#8 0x86#8 0xFF#8)) :=
  ⟨⟨rfl, rfl, rfl, rfl⟩, rfl, rfl, rfl, rfl⟩

theorem wit_UnaryIntegerResults :
    (typedOk (ctx (inMode 5 0 0#32)).etype = true ∧ Issues (inMode 5 0 0#32) (ctx (inMode 5 0 0#32)) (opsDA false 0xF0#8 0xF1#8)) ∧
    (typedOk (ctx (inMode 9 0 0#32)).etype = true ∧ Issues (inMode 9 0 0#32) (ctx (inMode 9 0 0#32)) (opsDA true 0x7E#8 0x90#8)) :=
  ⟨⟨rfl, rfl, rfl, rfl⟩, rfl, rfl, rfl, rfl⟩

theorem wit_WidthFollowingResults :
    Issues (inMode 10 0 0#32) (ctx (inMode 10 0 0#32)) (opsDAB (etypeWide (ctx (inMode 10 0 0#32)).etype) 0x86#8 0x7E#8 0xFF#8) ∧
    Issues (inMode 6 0 0#32) (ctx (inMode 6 0 0#32)) (opsDAB (etypeWide (ctx (inMode 6 0 0#32)).etype) 0x7F#8 0x91#8 0xFF#8) :=
  ⟨⟨rfl, rfl, rfl⟩, rfl, rfl, rfl⟩

theorem wit_FixedWidthResults :
    let s := inMode 0 0 0#32
    let c := ctx s
    let ops := fun (pd pa pb : Bool) (d a b : BitVec 8) => ([⟨.dst, pd, d⟩, ⟨.src, pa, a⟩, ⟨.srcXi, pb, b⟩] : List Opnd)
    Issues s c (ops false true false 0x7F#8 0x7E#8 0xFF#8) ∧ Issues s c (ops false false false 0x7F#8 0x7F#8 0x7F#8) ∧
    Issues s c (ops true true true 0x7E#8 0x90#8 0x7E#8) ∧ Issues s c (ops true true false 0x86#8 0x86#8 0x87#8) ∧
    Issues s c (ops false true true 0x87#8 0xF1#8 0xF0#8) ∧ Issues s c [⟨.dst, false, 0x7F#8⟩] :=
  ⟨⟨rfl, rfl, rfl⟩, ⟨rfl, rfl, rfl⟩, ⟨rfl, rfl, rfl⟩, ⟨rfl, rfl, rfl⟩, ⟨rfl, rfl, rfl⟩, rfl, rfl, rfl⟩

theorem wit_FloatTwoSourceResults :
    let s := inMode 8 4 0#32
    etypeFloat (ctx s).etype = some fmtBf16 ∧ Issues s (ctx s) (opsDAB false 0x7F#8 0x00#8 0xFF#8) ∧ modeRndCode (ctx s).regs.mode ≠ 5 :=
  ⟨rfl, ⟨rfl, rfl, rfl⟩, by decide⟩

theorem wit_FloatOneSourceResults :
    let s := inMode 6 0 0#32
    etypeFloat (ctx s).etype = some fmtF32 ∧ Issues s (ctx s) (opsDA false 0x7F#8 0x91#8) ∧ modeRndCode (ctx s).regs.mode ≠ 5 :=
  ⟨rfl, ⟨rfl, rfl, rfl⟩, by decide⟩

theorem wit_StochasticRoundingDraws :
    let s := inMode 7 5 0#32
    (etypeFloat (ctx s).etype).isSome = true ∧ Issues s (ctx s) (opsDAB false 0x7F#8 0x87#8 0xFF#8) ∧ modeRndCode (ctx s).regs.mode = 5 :=
  ⟨rfl, ⟨rfl, rfl, rfl⟩, rfl⟩

theorem wit_ConversionResults :
    let s := inMode 6 0 0x88888800#32
    let c := ctx s
    (Issues s c (opsDA false 0x7F#8 0x7F#8) ∧ (∀ n, n ∈ [0, 1, 2, 3, 4, 9, 10] → cvDraws c n 1 = 0) ∧ cvtfFormats.contains 1 = true ∧ cvtiFormats.contains 7 = true ∧
      (∃ n, n < 16 ∧ cvifFormats.contains n = true ∧ cvDraws c n 1 = 0) ∧ (∃ n, n < 16 ∧ mxFormats.contains n = true ∧ cvDraws c n 1 = 0) ∧ etypeWide c.etype = false ∧
      (∃ n, n < 16 ∧ unpkFormats.contains n = true)) ∧
    (∀ et, et ∈ [2, 3, 7, 8] → let s := inMode et 0 0x88888800#32
      Issues s (ctx s) (opsDAB false 0x7F#8 0x00#8 0xFF#8) ∧ (ctx s).etype = et ∧ (et ≤ 5 ∨ cvDraws (ctx s) (if et = 7 then 1 else 2) 2 = 0)) ∧
    (∀ et, et ∈ [4, 5, 6, 7] → let s := inMode et 0 0x88888800#32
      Issues s (ctx s) [⟨.dst, false, 0x7F#8⟩, ⟨.src, true, 0x7E#8⟩, ⟨.srcXi, true, 0xFF#8⟩] ∧ (ctx s).etype = et ∧ (et ≤ 5 ∨ cvDraws (ctx s) (if et = 6 then 3 else 4) 4 = 0)) := by
  refine ⟨⟨⟨rfl, rfl, rfl⟩, by decide, rfl, rfl, ⟨14, by decide, by decide, rfl⟩, ⟨3, by decide, by decide, rfl⟩, rfl, ⟨7, by decide, rfl⟩⟩, ?_, ?_⟩ <;>
  · intro et h
    simp only [List.mem_cons, List.mem_nil_iff, or_false] at h
    obtain rfl | rfl | rfl | rfl := h <;> exact ⟨⟨rfl, rfl, rfl⟩, rfl, by decide⟩

theorem wit_ShuffleResults :
    let s := inMode 9 0 0#32
    let c := ctx s
    c.single = false ∧ Issues s c [⟨.dst, true, 0x7E#8⟩, ⟨.src, true, 0x90#8⟩, ⟨.src, false, 0x7F#8⟩] ∧ Issues s c (opsDA true 0x7E#8 0x86#8) :=
  ⟨rfl, ⟨rfl, rfl, rfl⟩, rfl, rfl, rfl⟩

theorem wit_VoteResults :
    let s := inMode 0 0 0#32
    let c := ctx s
    c.single = false ∧ Issues s c [⟨.dst, false, 0x7F#8⟩, ⟨.src, false, 0xF1#8⟩] ∧ Issues s c [⟨.dst, true, 0x7E#8⟩, ⟨.src, false, 0x7F#8⟩] ∧
    Issues s c [⟨.dst, false, 0xF0#8⟩] :=
  ⟨rfl, ⟨rfl, rfl, rfl⟩, ⟨rfl, rfl, rfl⟩, rfl, rfl, rfl⟩

theorem wit_ReductionResults :
    let s := inMode 6 0 0#32
    let c := ctx s
    c.single = false ∧ Issues s c (opsDA (etypeWide c.etype) 0x7F#8 0x7F#8) ∧ c.exec ≠ 0#64 ∧ laneDraws c c.etype (etypeCount c.etype) = 0 :=
  ⟨rfl, ⟨rfl, rfl, rfl⟩, by decide, rfl⟩

theorem wit_RetireFrame :
    (let s := withGroup id
     s.ctx = some (ctx s) ∧ (ctx s).who = .split 0 0) ∧ (let s := handling id id
     s.ctx = some (ctx s) ∧ (ctx s).who = .handler 0) :=
  ⟨⟨rfl, rfl⟩, rfl, rfl⟩

/-- Group 0 with a prefix state. -/
def prefixed (p : PfxState) : State := withGroup (onSplit (fun x => { x with mask := bothEnds, pfx := p }))

theorem wit_ControlResults_prefix :
    (let s := prefixed .clear
     s.ctx = some (ctx s) ∧ (ctx s).split.pfx.pl = false ∧ (ctx s).split.pfx.ph = false) ∧
    (let s := prefixed ⟨true, 0#24, true, 0#24⟩
     s.ctx = some (ctx s) ∧ (ctx s).split.pfx.pl = true ∧ (ctx s).split.pfx.ph = true) := ⟨⟨rfl, rfl, rfl⟩, rfl, rfl, rfl⟩

theorem wit_ControlResults_mode :
    modeValueOk 0x0FFFFF#24 = false ∧ modeValueOk 0x0F6900#24 = true ∧ modeGuardOk 128 0x0F6900#24 = true ∧ modeGuardOk 128 0x00017F#24 = true ∧
    modeGuardOk 128 0x000187#24 = true ∧ modeGuardOk 128 0x000188#24 = false := by decide

theorem wit_ControlResults_cvmode :
    let c := ctx (prefixed .clear)
    src32Ok c.allot true 0x7F#8 = true ∧ (c.accBusy && touchesAcc 1 0x7F#8) = false ∧ c.regs.read32 0#64 0 0x7F#8 = 0#32 ∧ cvmodeOk 0#32 = true :=
  ⟨rfl, rfl, rfl, rfl⟩

theorem wit_ControlResults_jump :
    let c := ctx (prefixed .clear)
    src64Ok c.allot false 0x7E#8 = true ∧ (c.accBusy && touchesAcc 2 0x7E#8) = false ∧ c.split.mask = bothEnds ∧ c.lane = 0 ∧ c.xi = 0#64 ∧
    dst64Ok c.allot 0x86#8 = true ∧ (c.accBusy && touchesAcc 2 0x86#8) = false :=
  ⟨rfl, rfl, rfl, rfl, rfl, by decide, by decide⟩

theorem wit_ControlResults_agree (t : Nat) (h : bothEnds.getLsbD t = true) :
    (ctx (prefixed .clear)).regs.read64 0#64 t 0x7E#8 = (ctx (prefixed .clear)).regs.read64 0#64 0 0x7E#8 :=
  of_both_ends (P := fun t => (ctx (prefixed .clear)).regs.read64 0#64 t 0x7E#8 = (ctx (prefixed .clear)).regs.read64 0#64 0 0x7E#8) rfl rfl t h

theorem wit_ControlResults_target : (ctx (prefixed .clear)).regs.read64 0#64 0 0x7E#8 = 0#64 := by decide

/-- Group 0 whose register 0 is not 0 in the threads of `taken`, with `n` splits in all. -/
def branching (taken : List Nat) (n : Nat) : State :=
  withGroup (fun g =>
    let g := { g with table := (List.range n).map (fun i => (i, { sp0 with mask := if i = 0 then bothEnds else 0#64 })) }
    taken.foldl (fun g t => setReg 0 t 1#32 g) g)

/-- The three forms in which BRC completes: uniform (no premise), single-lane, and with room for one more split. -/
theorem wit_ControlResults_branch :
    (let c := ctx (branching [0] 15)
     (branching [0] 15).ctx = some c ∧ src32Ok c.allot false 0#8 = true ∧ (c.accBusy && touchesAcc 1 0#8) = false ∧ c.single = false ∧
     ∃ g, FMap.find (branching [0] 15).groups c.gid = some g ∧ g.splitRoom ≠ 0) ∧
    (let s := handling id id
     s.ctx = some (ctx s) ∧ (ctx s).single = true ∧ src32Ok (ctx s).allot false 0#8 = true ∧ ((ctx s).accBusy && touchesAcc 1 0#8) = false) :=
  ⟨⟨rfl, rfl, by decide, rfl, _, rfl, by decide⟩, rfl, rfl, by decide, by decide⟩

theorem wit_BranchOutcomes :
    (∀ taken, taken ∈ [[], [0], [0, 63]] → let s := branching taken 1
      s.ctx = some (ctx s) ∧ src32Ok (ctx s).allot false 0#8 = true ∧ ((ctx s).accBusy && touchesAcc 1 0#8) = false ∧ (ctx s).single = false ∧ (ctx s).lane = 0) ∧
    (let c := ctx (branching [0, 63] 1)
     ∀ t, t < 64 ∧ c.split.mask.getLsbD t = true → c.regs.read32 c.xi t 0#8 ≠ 0#32) ∧
    (let c := ctx (branching [] 1)
     (∃ t, t < 64 ∧ c.split.mask.getLsbD t = true) ∧ ∀ t, t < 64 ∧ c.split.mask.getLsbD t = true → ¬ c.regs.read32 c.xi t 0#8 ≠ 0#32) ∧
    (let s := branching [0] 15
     (∃ t, t < 64 ∧ (ctx s).split.mask.getLsbD t = true ∧ (ctx s).regs.read32 (ctx s).xi t 0#8 ≠ 0#32) ∧
     (∃ t, t < 64 ∧ (ctx s).split.mask.getLsbD t = true ∧ ¬ (ctx s).regs.read32 (ctx s).xi t 0#8 ≠ 0#32) ∧
     ∃ g, FMap.find s.groups 0 = some g ∧ g.splitRoom = 1) ∧
    (let s := branching [0] 16
     s.ctx = some (ctx s) ∧ ∃ g, FMap.find s.groups 0 = some g ∧ g.splitRoom = 0) ∧
    (let s := withGroup (fun g => { g with tx := [(0, { TxLane.empty with depth := 1, res := 1 })] })
     ∃ g, FMap.find s.groups 0 = some g ∧ g.liveSplits = 1 ∧ g.reserved = 1 ∧ g.splitRoom = 14) := by
  refine ⟨?_, of_member (by decide), ⟨⟨0, by decide⟩, of_member (by decide)⟩, ⟨⟨0, by decide⟩, ⟨63, by decide⟩, _, rfl, by decide⟩, ⟨rfl, _, rfl, by decide⟩, _, rfl, by decide, by decide, by decide⟩
  intro taken h
  simp only [List.mem_cons, List.mem_nil_iff, or_false] at h
  obtain rfl | rfl | rfl := h <;> exact ⟨rfl, rfl, rfl, rfl, rfl⟩

theorem wit_JoinAndExit :
    let s := withGroup (onSplit (fun x => { x with drec := some 0 }))
    let p := withGroup id
    s.ctx = some (ctx s) ∧ (ctx s).split.drec ≠ none ∧ (ctx s).single = false ∧ (FMap.find s.groups 0).isSome = true ∧
    Plain p (ctx p) ∧ (ctx p).split.drec = none ∧ (p.part (p.partOf 0)).lockHolder = none ∧
    (∃ g, FMap.find p.groups 0 = some g ∧ (({ g with table := FMap.erase g.table 0 }).noteIssue 0 false).rejoin.pruneRecords.splits = []) ∧
    (∃ g, FMap.find (branching [] 2).groups 0 = some g ∧ (({ g with table := FMap.erase g.table 0 }).noteIssue 0 false).rejoin.pruneRecords.splits ≠ []) :=
  ⟨rfl, by decide, rfl, rfl, ⟨rfl, rfl, rfl, _, rfl, rfl⟩, rfl, rfl, ⟨_, rfl, by decide⟩, _, rfl, by decide⟩

theorem wit_RejoinKeepsThreads : FMap.rising 0 (onSplit (fun x => { x with drec := some 0, wait := .join }) placeGroup).table = true := rfl

/-- Threads 0 and 63 of group 0, their addresses base + 64 * t from v2, v3 and v4. -/
def reaching (et size : Nat) : State :=
  withGroup (fun g => onSplit (fun x => { x with mask := bothEnds }) (setReg 2 0 0x20000#32 (setReg 4 63 (BitVec.ofNat 32 (64 * 63 / size))
    { g with regs := { g.regs with mode := modeOf et 0 } })))

theorem unhindered_reaching : Unhindered (reaching 0 1) (ctx (reaching 0 1)) ∧ Unhindered (reaching 0 16) (ctx (reaching 0 16)) :=
  ⟨⟨⟨rfl, by decide, rfl⟩, rfl⟩, ⟨rfl, by decide, rfl⟩, rfl⟩

theorem l1Coherent_reaching (et size : Nat) : L1Coherent (reaching et size) 0 := by
  intro sec d h
  have h1 : FMap.find ((reaching et size).core 0).l1 sec = none := rfl
  rw [h1] at h
  cases h

theorem l1Clean_reaching (et size : Nat) : L1Clean (reaching et size) 0 := by
  intro sec h
  rfl

/-- The places of `reaching`. -/
def places (t : Nat) : Reach := .own (0x20000 + 64 * t) 0

/-- The address of an access with index size `size` (R377). -/
def addrAt (c : Ctx) (size t : Nat) : Nat :=
  (c.regs.read64 c.xi c.lane 2#8 + zext64 (c.regs.read32 c.xi t 4#8) * BitVec.ofNat 64 size + c.extv.signExtend 64).toNat

/-- `reaching`, whose address of thread 0 is the first of a block's 64 bytes of scratchpad and whose others lie behind them,
with lane 0 in a transaction where `tx`. -/
def intoPool (et size : Nat) (tx : Bool) : State :=
  let s := withGroup (fun g => onSplit (fun x => { x with mask := bothEnds }) (setReg 2 0 0xFFC00000#32 (setReg 3 0 0xFFFF#32 (setReg 4 63 (BitVec.ofNat 32 (64 * 63 / size))
    { g with regs := { g.regs with mode := modeOf et 0 }, tx := if tx then [(0, { TxLane.empty with depth := 1 })] else [] }))))
  { s with blocks := [(0, { placeBlk with scSize := 64 })] }

/-- Its places. -/
def poolPlaces (t : Nat) : Reach := if t = 0 then .pool (.sc 0) else .fault (.virt fPoolRange (poolBase + 64 * t))

/-- `reaching` with lane 0 in a transaction that has written the byte of address 0x20000. -/
def opened (et size : Nat) : State :=
  let s := reaching et size
  { s with groups := FMap.mapVals (fun _ g => { g with tx := [(0, { TxLane.empty with depth := 1, home := some 0, wbuf := [(0x20000, 9#8)] })] }) s.groups }

theorem placed_reaching (et size lines : Nat) (h0 : (ctx (reaching et size)).txLanes (reaching et size) = 0#64) : Placed (reaching et size) (ctx (reaching et size)) false size lines places ↔
    ∀ k, (ctx (reaching et size)).exec.getLsbD k = true → (0x20000 + 64 * k) % size = 0 := by
  refine ⟨fun h k hk => (h.1 k hk).1, fun h => ⟨fun k hk => ⟨h k hk, fun ht => ?_⟩, .inl h0⟩⟩
  simp [h0] at ht

theorem wit_LoadResults_byte :
    let s := reaching 0 1
    let c := ctx s
    Calm s c ∧ Placed s c false 1 1 places ∧ addrOk c.allot 2#8 4#8 = true ∧ dataOk c.allot 1 true 0x7F#8 = true ∧ c.mustWait (touchesAcc (dataRegs 1) 0x7F#8 || touchesAcc 2 2#8 || touchesAcc 1 4#8) = false ∧
    Reaches s c false 1 .load (addrAt c 1) places ∧ (∀ t, c.exec.getLsbD t = true → endOf s c true 1 (addrAt c 1 t) (places t) t = .done) :=
  ⟨⟨rfl, by decide, rfl⟩, (placed_reaching 0 1 1 rfl).2 (of_both_ends rfl rfl), rfl, rfl, rfl, of_both_ends rfl rfl, of_both_ends rfl rfl⟩

theorem wit_LoadResults_quad :
    let s := reaching 0 16
    let c := ctx s
    addrOk c.allot 2#8 4#8 = true ∧ dataOk c.allot 16 true 0x7C#8 = true ∧ c.mustWait (touchesAcc (dataRegs 16) 0x7C#8 || touchesAcc 2 2#8 || touchesAcc 1 4#8) = false ∧
    Placed s c false 16 1 places ∧
    Reaches s c false 16 .load (addrAt c 16) places ∧ (∀ t, c.exec.getLsbD t = true → endOf s c true 16 (addrAt c 16 t) (places t) t = .done) :=
  ⟨rfl, rfl, rfl, (placed_reaching 0 16 1 rfl).2 (of_both_ends rfl rfl), of_both_ends rfl rfl, of_both_ends rfl rfl⟩

theorem wit_LoadResults_faults :
    (let s := intoPool 0 1 false
     let c := ctx s
     Calm s c ∧ L1Clean s 0 ∧ Reaches s c false 1 .load (addrAt c 1) poolPlaces ∧ Placed s c false 1 1 poolPlaces ∧ endOf s c true 1 (addrAt c 1 0) (poolPlaces 0) 0 = .done ∧
     endOf s c true 1 (addrAt c 1 63) (poolPlaces 63) 63 = .fault (.virt fPoolRange (poolBase + 64 * 63))) ∧
    (let s := intoPool 0 1 true
     let c := ctx s
     Calm s c ∧ Reaches s c false 1 .load (addrAt c 1) poolPlaces ∧ Placed s c false 1 1 poolPlaces ∧ endOf s c true 1 (addrAt c 1 0) (poolPlaces 0) 0 = .illegal) :=
  ⟨⟨⟨rfl, by decide, rfl⟩, fun _ _ => rfl, of_both_ends rfl rfl, ⟨of_both_ends trivial trivial, .inl rfl⟩, rfl, rfl⟩,
    ⟨rfl, by decide, rfl⟩, of_both_ends rfl rfl, ⟨of_both_ends trivial trivial, .inr (by intro g h; cases h; decide)⟩, rfl⟩

theorem wit_LoadResults_open :
    let s := opened 0 1
    let c := ctx s
    Calm s c ∧ L1Coherent s 0 ∧ L1Clean s 0 ∧ Reaches s c false 1 .load (addrAt c 1) places ∧ Placed s c false 1 1 places ∧
    (∀ t, c.exec.getLsbD t = true → endOf s c true 1 (addrAt c 1 t) (places t) t = .done) ∧ (c.txLanes s).getLsbD 0 = true ∧ readOf s c 1 (places 0) 0 = 9 :=
  ⟨⟨rfl, by decide, rfl⟩, l1Coherent_reaching 0 1, fun _ _ => rfl, of_both_ends rfl rfl, ⟨of_both_ends ⟨rfl, fun _ => .inr rfl⟩ ⟨rfl, fun _ => .inl rfl⟩, .inr (by intro g h; cases h; decide)⟩,
    of_both_ends rfl rfl, rfl, by decide⟩

theorem wit_LoadResults_checks : (FMap.find (intoPool 0 1 false).groups 0).isSome = true ∧
    (intoPool 0 1 false).blockOf 0 = some { placeBlk with scSize := 64 } ∧ 3 % 2 ≠ 0 ∧ inPool (poolBase + 63) = true ∧ inPool 0x20000 = false ∧
    (intoPool 0 1 false).stackFault 0 0 0 0x20000 1 = false := by decide

/-- Thread 0 reads the last word of a bank of 64 bytes, thread 63 the word after it. -/
def constants : State :=
  let s := withGroup (fun g => onSplit (fun x => { x with mask := bothEnds }) (setReg 4 0 15#32 (setReg 4 63 16#32 g)))
  { s with grids := [(0, { placeGrid with hdr := { placeHdr with cbank := 0x30000, csize := 64 } })] }

theorem wit_ConstantLoadResults :
    let s := constants
    let c := ctx s
    Unhindered s c ∧ s.blockOf c.gid = some placeBlk ∧ FMap.find s.grids 0 = some { placeGrid with hdr := { placeHdr with cbank := 0x30000, csize := 64 } } ∧
    dataOk c.allot 4 true 0x7F#8 = true ∧ src32Ok c.allot false 4#8 = true ∧ c.mustWait (touchesAcc (dataRegs 4) 0x7F#8 || touchesAcc 1 4#8) = false ∧
    (∀ t, c.exec.getLsbD t = true → (((c.regs.read32 c.xi t 4#8).toNat : Int) * (4 : Nat) + c.extv.toInt) % (4 : Nat) = 0) ∧
    ((((c.regs.read32 c.xi 0 4#8).toNat : Int) * (4 : Nat) + c.extv.toInt) = 60 ∧ (((c.regs.read32 c.xi 63 4#8).toNat : Int) * (4 : Nat) + c.extv.toInt) = 64) ∧
    FMap.find (s.core (coreOf c.gid)).cc 0 = none ∧ s.poisoned 0x30000 64 = false ∧ resolve (s.whoOf c.gid) 0x30000 1 s = (.ok (.own 0x30000, 0), s) :=
  ⟨⟨⟨rfl, by decide, rfl⟩, rfl⟩, rfl, rfl, rfl, rfl, rfl, of_both_ends (by decide) (by decide), by decide, rfl, rfl, rfl⟩

theorem wit_StoreResults :
    let s := reaching 0 16
    let c := ctx s
    Calm s c ∧ addrOk c.allot 2#8 4#8 = true ∧ dataOk c.allot 16 false 0x7C#8 = true ∧
    c.mustWait (touchesAcc (dataRegs 16) 0x7C#8 || touchesAcc 2 2#8 || touchesAcc 1 4#8) = false ∧ Reaches s c false 16 .store (addrAt c 16) places ∧ Placed s c false 16 1 places ∧
    (∀ t, c.exec.getLsbD t = true → endOf s c false 16 (addrAt c 16 t) (places t) t = .done) :=
  ⟨unhindered_reaching.2.1, rfl, rfl, rfl, of_both_ends rfl rfl, (placed_reaching 0 16 1 rfl).2 (of_both_ends rfl rfl), of_both_ends rfl rfl⟩

theorem wit_StoreResults_faults :
    (let s := intoPool 0 16 false
     let c := ctx s
     Calm s c ∧ Reaches s c false 16 .store (addrAt c 16) poolPlaces ∧ Placed s c false 16 1 poolPlaces ∧ endOf s c false 16 (addrAt c 16 0) (poolPlaces 0) 0 = .done ∧
     endOf s c false 16 (addrAt c 16 63) (poolPlaces 63) 63 = .fault (.virt fPoolRange (poolBase + 64 * 63))) ∧
    (let s := intoPool 0 16 true
     let c := ctx s
     Reaches s c false 16 .store (addrAt c 16) poolPlaces ∧ Placed s c false 16 1 poolPlaces ∧ endOf s c false 16 (addrAt c 16 0) (poolPlaces 0) 0 = .illegal) ∧
    (let s := opened 0 16
     let c := ctx s
     Calm s c ∧ Reaches s c false 16 .store (addrAt c 16) places ∧ Placed s c false 16 1 places ∧ (∀ t, c.exec.getLsbD t = true → endOf s c false 16 (addrAt c 16 t) (places t) t = .done)) :=
  ⟨⟨⟨rfl, by decide, rfl⟩, of_both_ends rfl rfl, ⟨of_both_ends trivial trivial, .inl rfl⟩, rfl, rfl⟩,
    ⟨of_both_ends rfl rfl, ⟨of_both_ends trivial trivial, .inr (by intro g h; cases h; decide)⟩, rfl⟩,
    ⟨rfl, by decide, rfl⟩, of_both_ends rfl rfl, ⟨of_both_ends ⟨rfl, fun _ => .inr rfl⟩ ⟨rfl, fun _ => .inl rfl⟩, .inr (by intro g h; cases h; decide)⟩, of_both_ends rfl rfl⟩

theorem nothingToFlush_reaching : ∀ et size, (ctx (reaching et size)).split.wait = .none ∧ ∀ g, FMap.find (reaching et size).groups 0 = some g → g.links.written = [] ∧ g.links.flush = [] := by
  intro et size
  refine ⟨rfl, ?_⟩
  intro g h
  cases h
  exact ⟨rfl, rfl⟩

theorem wit_AtomicResults :
    let s := reaching 0 4
    let c := ctx s
    Calm s c ∧ addrOk c.allot 2#8 4#8 = true ∧ c.atScope < 10 ∧ Reaches s c false (atSize c.etype) .atomic (addrAt c 4) places ∧ Placed s c false 4 2 places ∧
    (∀ t, c.exec.getLsbD t = true → (inRegion .tiers (places t)).isSome = true ∧ endOf s c true 4 (addrAt c 4 t) (places t) t = .done) ∧ atSize c.etype = 4 :=
  ⟨⟨rfl, by decide, rfl⟩, rfl, by decide, of_both_ends rfl rfl, (placed_reaching 0 4 2 rfl).2 (of_both_ends rfl rfl), of_both_ends ⟨rfl, rfl⟩ ⟨rfl, rfl⟩, rfl⟩

theorem wit_AtomicResults_faults :
    (let s := intoPool 0 4 false
     let c := ctx s
     Calm s c ∧ Reaches s c false 4 .atomic (addrAt c 4) poolPlaces ∧ Placed s c false 4 2 poolPlaces ∧ endOf s c true 4 (addrAt c 4 0) (poolPlaces 0) 0 = .done ∧
     (∀ t, c.exec.getLsbD t = true → endOf s c true 4 (addrAt c 4 t) (poolPlaces t) t = .done → (inRegion .scratch (poolPlaces t)).isSome = true) ∧
     endOf s c true 4 (addrAt c 4 63) (poolPlaces 63) 63 = .fault (.virt fPoolRange (poolBase + 64 * 63)) ∧ ∀ g, FMap.find s.groups 0 = some g → g.links.written = [] ∧ g.links.flush = []) ∧
    (let s := opened 0 4
     let c := ctx s
     Calm s c ∧ Reaches s c false 4 .atomic (addrAt c 4) places ∧ Placed s c false 4 2 places ∧ (∀ t, c.exec.getLsbD t = true → endOf s c true 4 (addrAt c 4 t) (places t) t = .done)) :=
  ⟨⟨⟨rfl, by decide, rfl⟩, of_both_ends rfl rfl, ⟨of_both_ends trivial trivial, .inl rfl⟩, rfl, of_both_ends (fun _ => rfl) (by decide), rfl, by intro g h; cases h; exact ⟨rfl, rfl⟩⟩,
    ⟨rfl, by decide, rfl⟩, of_both_ends rfl rfl, ⟨of_both_ends ⟨rfl, fun _ => .inr rfl⟩ ⟨rfl, fun _ => .inl rfl⟩, .inr (by intro g h; cases h; decide)⟩, of_both_ends rfl rfl⟩

theorem wit_AtomicResults_cas :
    let c := ctx (reaching 0 4)
    AtOp.etOk .cas c.etype = true ∧ atDataOk .cas c.allot 4 0x7E#8 = true ∧ c.mustWait (touchesAcc (atRegs .cas 4) 0x7E#8 || touchesAcc 2 2#8 || touchesAcc 1 4#8) = false :=
  by decide

theorem wit_AtomicResults_fadd :
    etypeFloat (ctx (reaching 6 4)).etype = some fmtF32 ∧ modeRndCode (ctx (reaching 6 4)).regs.mode ≠ 5 ∧ AtOp.etOk .fadd (ctx (reaching 6 4)).etype = true ∧
    AtOp.etOk .add (ctx (reaching 10 4)).etype = true ∧ AtOp.etOk .min (ctx (reaching 0 4)).etype = true ∧ AtOp.etOk .inc (ctx (reaching 1 4)).etype = true := by decide

/-- Both threads at one place. -/
def meeting : State := withGroup (fun g => onSplit (fun x => { x with mask := bothEnds }) (setReg 2 0 0x20000#32 g))

theorem wit_AggregatedAtomicResult :
    let s := meeting
    let c := ctx s
    Unhindered s c ∧ addrOk c.allot 2#8 4#8 = true ∧ c.atScope < 10 ∧
    Reaches s c false (atSize c.etype) .atomic (c.address 2#8 4#8 (atSize c.etype) (sext64 (c.extv.extractLsb' 0 14))) (fun _ => .own 0x20000 0) ∧
    inRegion .tiers (.own 0x20000 0) = some 0x20000 ∧ (valueAt s c 4 (.own 0x20000 0)).isSome = true ∧ c.exec ≠ 0#64 ∧ atSize c.etype = 4 :=
  ⟨⟨⟨rfl, by decide, rfl⟩, rfl⟩, rfl, by decide, of_both_ends rfl rfl, rfl, rfl, by decide, rfl⟩

theorem wit_AggregatedAtomicResult_data :
    let c := ctx meeting
    AtOp.etOk .agg c.etype = true ∧
    atDataOk .agg c.allot (atSize c.etype) 0x7F#8 = true ∧ c.mustWait (touchesAcc (atSize c.etype / 4) 0x7F#8 || touchesAcc 2 2#8 || touchesAcc 1 4#8) = false :=
  by decide

theorem noneOpen_base : NoneOpen (withGroup id) (ctx (withGroup id)) := by
  intro g h
  cases h
  rfl

theorem nothingToFlush_base : NothingToFlush (withGroup id) (ctx (withGroup id)) := by
  refine ⟨fun p => (nofun : Wait.none ≠ Wait.unreached p), ?_⟩
  intro g h
  cases h
  exact ⟨rfl, rfl⟩

theorem nothingToFlush_answered : NothingToFlush (withGroup (onSplit (fun x => { x with wait := .answered 0 }))) (ctx (withGroup (onSplit (fun x => { x with wait := .answered 0 })))) := by
  refine ⟨fun p => (nofun : Wait.answered 0 ≠ Wait.unreached p), ?_⟩
  intro g h
  cases h
  exact ⟨rfl, rfl⟩

/-- A range of 32 bytes at 0x20000 in v2, its length in v4. -/
def ranged (n : Word) : State := withGroup (fun g => setReg 2 0 0x20000#32 (setReg 4 0 n g))

theorem wit_FenceAndInvalidateResults :
    (withGroup id).ctx = some (ctx (withGroup id)) ∧ (ctx (withGroup id)).split.mask ≠ 0#64 ∧ (ctx (withGroup id)).single = false ∧
    (let s := ranged 32#32
     let c := ctx s
     s.ctx = some c ∧ src64Ok c.allot false 2#8 = true ∧ src32Ok c.allot false 4#8 = true ∧ (c.accBusy && (touchesAcc 2 2#8 || touchesAcc 1 4#8)) = false ∧
     (c.regs.read32 c.xi c.lane 4#8).toNat = 32 ∧ pkgOf 0x20000 = s.boot.pkg ∧ mappedRun (s.whoOf c.gid) 0x20000 s = (.ok (some (0x20000, 2 ^ 40 - 0x20000)), s)) ∧
    ((ctx (ranged 0#32)).regs.read32 0#64 0 4#8).toNat = 0 :=
  ⟨rfl, by decide, rfl, ⟨rfl, rfl, rfl, rfl, by decide, rfl, rfl⟩, by decide⟩

/-- A queued command of group 0. -/
def command (sub : Nat) (words : List Word) : EngCmd :=
  { id := 5, gid := 0, sub := sub, words := words, guard := none, held := false, started := false, batch := none, cvmode := 0#32, version := 0, base := 0,
    cpos := 0, spos := 0, oor := 0, tc := 0, k := 0, entryAddr := 0, entrySub := 0, entryWords := [], nextAddr := 0, runningEntry := false, seqWritten := 0,
    stopped := false, enqWord := 0#32, mask := 0#64, wrote := [], far := [], wroteTo := [], marks := [], ended := none, posted := false, taint := false, mode := 0#32, ent1 := [], ent2 := [] }

/-- A state with these commands in the queue of core 0. -/
def queued (s : State) (l : List EngCmd) : State := s.modCore 0 (fun c => { c with queue := l })

theorem wit_CounterAndBatchResults :
    (let s := withGroup id
     GroupIssues s (ctx s) ∧ s.waitCounter 0 placeGroup 4 ≤ (0#8).toNat ∧ s.batchPending 0 0 = false) ∧
    (let g : Group := { placeGroup with gridOps := [⟨8, 0, true, []⟩] }
     let s := withGroup (fun _ => g)
     GroupIssues s (ctx s) ∧ FMap.find s.groups 0 = some g ∧ (0#8).toNat < s.waitCounter 0 g 3) ∧
    (let s := queued (withGroup id) [{ command 0 [] with batch := some 0 }]
     GroupIssues s (ctx s) ∧ src32Ok (ctx s).allot true 0xFF#8 = true ∧ ((ctx s).accBusy && touchesAcc 1 0xFF#8) = false ∧ s.batchPending 0 0 = true) ∧
    (dst32Ok (ctx (withGroup id)).allot 0x7F#8 = true ∧ ((ctx (withGroup id)).accBusy && touchesAcc 1 0x7F#8) = false) := by
  refine ⟨⟨⟨rfl, rfl, noneOpen_base⟩, by decide, rfl⟩, ⟨⟨rfl, rfl, ?_⟩, rfl, by decide⟩, ⟨⟨rfl, rfl, ?_⟩, rfl, rfl, rfl⟩, rfl, rfl⟩ <;>
  · intro g h
    cases h
    rfl

theorem wit_BarrierResults :
    (GroupIssues (withGroup id) (ctx (withGroup id)) ∧ NothingToFlush (withGroup id) (ctx (withGroup id)) ∧ FMap.find (withGroup id).blocks 0 = some placeBlk) ∧
    placeGroup.inRoles 2 = false ∧ placeGroup.inRoles 1 = true ∧ placeBlk.otherMask 15 1 = false ∧ ({ placeBlk with barMask := [(15, 0)] } : Block).otherMask 15 1 = true ∧
    FMap.getD placeGroup.barG 0 15 = FMap.getD placeBlk.barP 0 15 ∧ FMap.getD placeGroup.barG 0 15 ≠ FMap.getD ({ placeBlk with barP := [(15, 1)] } : Block).barP 0 15 ∧
    (FMap.find (withGroup id).grids placeBlk.grid = some placeGrid ∧ placeGrid.hdr.gang = 1) ∧
    (let s := withGroup (onSplit (fun x => { x with wait := .answered 0 }))
     (ctx s).split.wait = .answered 0 ∧ (ctx (withGroup id)).split.wait ≠ .answered 0 ∧ NothingToFlush s (ctx s)) ∧
    (let gr : Grid := { placeGrid with hdr := { placeHdr with gang := 2 } }
     gr.hdr.gang ≠ 1 ∧ FMap.getD placeGroup.bargG 0 15 = FMap.getD gr.bargP 0 (0 * 16 + 15) ∧ FMap.getD placeGroup.bargG 0 15 ≠ FMap.getD ({ gr with bargP := [(15, 1)] } : Grid).bargP 0 (0 * 16 + 15)) :=
  ⟨⟨⟨rfl, rfl, noneOpen_base⟩, nothingToFlush_base, rfl⟩, by decide, by decide, by decide, by decide, rfl, by decide, ⟨rfl, rfl⟩, ⟨rfl, by decide, nothingToFlush_answered⟩, by decide, rfl, by decide⟩

theorem wit_BarrierPhaseCompletes :
    let b : Block := { placeBlk with barMask := [(15, 1)] }
    let wait : Split → Split := fun x => { x with wait := .bar 15 1 false }
    (∃ k ∈ b.gids, ∃ g, FMap.find (withGroup id).groups k = some g ∧ g.inRoles 1 = true ∧ g.splits ≠ [] ∧ g.arrivedBar 15 = false) ∧
    (∃ k ∈ b.gids, ∃ g, FMap.find (withGroup (onSplit wait)).groups k = some g ∧ g.inRoles 1 = true ∧ g.arrivedBar 15 = true) ∧
    (∃ g, FMap.find (withGroup (fun g => { onSplit wait g with status := .trapped })).groups 0 = some g ∧ g.inRoles 1 = true ∧ g.arrivedBar 15 = true ∧ g.status ≠ .running) ∧
    (∀ k ∈ b.gids, ∀ g, FMap.find (withGroup (onSplit wait)).groups k = some g → g.inRoles 1 = true → g.splits = [] ∨ g.arrivedBar 15 = true) := by
  refine ⟨⟨0, by decide, _, rfl, by decide⟩, ⟨0, by decide, _, rfl, by decide⟩, ⟨_, rfl, by decide, by decide, by decide⟩, ?_⟩
  intro k hk g h _
  cases List.mem_singleton.mp hk
  cases h
  exact .inr rfl

/-- A state whose one stage-2 range is a tier range with its entry at 0x40000; v2 names 0x20000, v4 an object at 0x50000. -/
def tiered : State :=
  (ranged 0x50000#32).modCore 0 (fun c => { c with tlb := c.tlb.map (fun r => if r.vf = none then { r with tierAt := some 0x40000 } else r) })

theorem wit_TierMoveAndObjectWaitResults_move :
    let s := tiered
    let c := ctx s
    GroupIssues s c ∧ src64Ok c.allot false 2#8 = true ∧ src64Ok c.allot false 4#8 = true ∧ (c.accBusy && (touchesAcc 2 2#8 || touchesAcc 2 4#8)) = false ∧
    moveChecks c 0x20000 0x50000 s = (.ok 0x20000, s) ∧ (c.regs.read64 c.xi c.lane 4#8).toNat = 0x50000 := by
  refine ⟨⟨rfl, rfl, ?_⟩, rfl, rfl, rfl, rfl, by decide⟩
  intro g h
  cases h
  rfl

theorem wit_TierMoveAndObjectWaitResults_object :
    let s := ranged 1#32
    let c := ctx s
    GroupIssues s c ∧ dst64Ok c.allot 0x7E#8 = true ∧ src64Ok c.allot false 2#8 = true ∧ src64Ok c.allot true 4#8 = true ∧
    (c.accBusy && (touchesAcc 2 0x7E#8 || touchesAcc 2 2#8 || touchesAcc 2 4#8)) = false ∧ inPool 0x20000 = false ∧ s.reach c c.lane 0x20000 8 .load = (.ok (.own 0x20000 0), s) ∧
    s.assistOn (s.partOf c.gid) 3 = false ∧ s.poisoned 0x20000 8 = false ∧ s.wordAt 0x20000 8 < (c.regs.read64 c.xi c.lane 4#8).toNat ∧
    ((ctx (ranged 0#32)).regs.read64 0#64 0 4#8).toNat ≤ (ranged 0#32).wordAt 0x20000 8 := by
  refine ⟨⟨rfl, rfl, ?_⟩, rfl, rfl, rfl, rfl, rfl, rfl, rfl, rfl, by decide, by decide⟩
  intro g h
  cases h
  rfl

/-- What `ReadsOnly` says, without a quantifier. -/
theorem readsOnly_of {s t : State} (h : t.ms.mem = s.ms.mem ∧ t.ms.poison = s.ms.poison ∧ t.blocks = s.blocks ∧ t.cores = s.cores ∧ t.groups = s.groups ∧
    t.handlers = s.handlers ∧ t.vfs = s.vfs ∧ t.grids = s.grids ∧ t.harts = s.harts ∧ t.turn.cur = s.turn.cur ∧ t.turn.nextId = s.turn.nextId) : ReadsOnly s t := by
  obtain ⟨hm, hp, hb, hc, hg, hh, hv, hr, ht, h1, h2⟩ := h
  have core : ∀ k, t.core k = s.core k := fun k => by simp only [State.core, hc]
  exact ⟨⟨hm, hp, hb, fun k => by rw [core]⟩, hg, hh, hv, hr, ht, ⟨h1, h2⟩, fun k => by rw [core]⟩

theorem readsOnly_self (s : State) : ReadsOnly s s := ⟨⟨rfl, rfl, rfl, fun _ => rfl⟩, rfl, rfl, rfl, rfl, rfl, ⟨rfl, rfl⟩, fun _ => rfl⟩

/-- 64 bytes of a tensor entry: bf16, one dimension of 16 elements at 0x40000 (R203). -/
def tensorBytes (fmt : Nat) : List Byte := bytesLE 8 0x40000 ++ bytesLE 8 0 ++ bytesLE 4 (2 ^ 31 + fmt * 2 ^ 24) ++ bytesLE 4 16 ++ bytesLE 40 0

/-- 64 bytes of an embedding table entry of one row of 16 f32 (R206). -/
def tableBytes : List Byte := bytesLE 8 0x40000 ++ bytesLE 8 7 ++ bytesLE 4 (2 ^ 31 + 2 ^ 29) ++ bytesLE 4 16 ++ bytesLE 8 1 ++ bytesLE 32 0

/-- The state with an identifier table at 0x30000 whose entry 0 is these bytes. -/
def identified (s : State) (b : List Byte) : State :=
  { s with grids := [(0, { placeGrid with tid := 0x30000 })], ms := { s.ms with mem := putBytes s.ms.mem 0x30000 b } }

/-- The words of the octet at v8. -/
def octet (s : State) : List Word := (List.range 8).map (fun k => (ctx s).regs.readRun (ctx s).lane 8#8 k)

/-- Word 1 of the octet is 1: one element, one byte. -/
def enqueuing : State := withGroup (setReg 9 0 1#32)

theorem groupIssues_enqueuing : GroupIssues enqueuing (ctx enqueuing) := by
  refine ⟨rfl, rfl, ?_⟩
  intro g h
  cases h
  rfl

theorem wit_EnqueueResults :
    (octetOk (ctx enqueuing).allot 8#8 = true ∧ octetOk (ctx enqueuing).allot 0x78#8 = true ∧ ((ctx enqueuing).accBusy && touchesAcc 8 8#8) = false) ∧
    (∀ sub, sub ∈ [4, 6] → enqCheck false 0 sub (octet enqueuing) (enqueuing.closeRegionOf 0 2) = (.ok .none, enqueuing.closeRegionOf 0 2)) ∧
    (let s := withGroup id
     enqCheck false 0 5 (octet s) (s.closeRegionOf 0 2) = (.ok .none, s.closeRegionOf 0 2)) ∧
    (let s := identified (withGroup id) (tensorBytes 2)
     (enqCheck false 0 0 (octet s) (s.closeRegionOf 0 2)).1.toOption = some ⟨0, 0, tensorBytes 2, tensorBytes 2, false⟩ ∧ ReadsOnly (s.closeRegionOf 0 2) (enqCheck false 0 0 (octet s) (s.closeRegionOf 0 2)).2) ∧
    enqueuing.engineRoomFor 0 = true ∧ (queued enqueuing (List.replicate 7 (command 4 []))).engineRoomFor 0 = true ∧
    (queued enqueuing (List.replicate 8 (command 4 []))).engineRoomFor 0 = false := by
  refine ⟨⟨rfl, rfl, rfl⟩, ?_, rfl, ⟨by decide +kernel, readsOnly_of (by decide +kernel)⟩, by decide, by decide, by decide⟩
  intro sub h
  simp only [List.mem_cons, List.mem_nil_iff, or_false] at h
  obtain rfl | rfl := h <;> rfl

theorem wit_EngineControlResults :
    (FMap.find enqueuing.groups 0 = some (setReg 9 0 1#32 placeGroup) ∧ (setReg 9 0 1#32 placeGroup).status = .running) ∧
    (src64Ok 128 true 0xFF#8 = true ∧ src32Ok 128 true 0xFF#8 = true ∧ dst64Ok 128 0x7E#8 = true ∧ dst32Ok 128 0x7F#8 = true ∧ src64Ok 128 false 2#8 = true ∧ src32Ok 128 false 9#8 = true) ∧
    ((ctx enqueuing).allot = 128 ∧ (ctx enqueuing).accBusy = false) ∧
    (((ctx enqueuing).regs.read64 0#64 0 0xF0#8).toNat ≤ ((enqueuing.vf 0).counter 0).2 ∧ ((enqueuing.vf 0).counter 0).2 < ((ctx enqueuing).regs.read64 1#64 0 0xFF#8).toNat) := by
  exact ⟨⟨rfl, rfl⟩, by decide, ⟨rfl, rfl⟩, by decide⟩

theorem wit_EngineControlResults_swap :
    let s := identified (withGroup id) tableBytes
    let s1 := s.closeRegionOf 0 2
    (tableOf 0 0 s1).1.toOption = some ⟨0x40000, 7, 0, 0, 16, 1, 0, 0, 0, 0⟩ ∧ ReadsOnly s1 (tableOf 0 0 s1).2 ∧
    (coreReach 0 0x30000 16 2 (tableOf 0 0 s1).2).1.toOption = some (.own 0x30000 0) ∧ ReadsOnly (tableOf 0 0 s1).2 (coreReach 0 0x30000 16 2 (tableOf 0 0 s1).2).2 := by
  refine ⟨by decide +kernel, readsOnly_of (by decide +kernel), by decide +kernel, readsOnly_of (by decide +kernel)⟩

theorem wit_LaunchAndCallResults_launch :
    let s := ranged 0#32
    dst32Ok 128 0x7F#8 = true ∧ src64Ok 128 false 2#8 = true ∧ (s.vf 0).dlq.length < 256 ∧ (lnchRead 0 0x20000 (s.closeRegionOf 0 4)).1.toOption.isSome = true ∧
    ReadsOnly (s.closeRegionOf 0 4) (lnchRead 0 0x20000 (s.closeRegionOf 0 4)).2 := by
  refine ⟨rfl, rfl, by decide, by decide +kernel, readsOnly_of (by decide +kernel)⟩

/-- VF 0 has its call slots at 0x50000. -/
def calling (f : Split → Split) (calls : FMap CallSlot) : State :=
  (withGroup (onSplit f)).modVf 0 (fun v => { v with hsbase := 0x50000, calls := calls })

theorem wit_LaunchAndCallResults_call :
    let s := calling id []
    dst32Ok 128 0x7F#8 = true ∧ block12Ok 128 0x74#8 = true ∧ (ctx s).split.wait = .none ∧ (s.vf 0).hsbase ≠ 0 ∧ (s.vf 0).freeCall = some 0 ∧
    (calling id [(0, ⟨0, 1, true, false, 0, 0⟩)]).vf 0 ≠ s.vf 0 ∧
    resolve ((s.closeRegionOf 0 4).whoVf 0) 0x50000 2 (s.closeRegionOf 0 4) = (.ok (.own 0x50000, 0), s.closeRegionOf 0 4) := by
  refine ⟨rfl, by decide, rfl, by decide, rfl, by decide, rfl⟩

theorem wit_LaunchAndCallResults_return :
    let s := calling (fun x => { x with wait := .call 0 }) [(0, ⟨0, 0, false, true, 0, 0⟩)]
    s.ctx = some (ctx s) ∧ (ctx s).split.wait = .call 0 ∧ FMap.find (s.vf 0).calls 0 = some ⟨0, 0, false, true, 0, 0⟩ ∧
    (match (unitReadWords ((s.closeRegionOf 0 4).whoVf 0) 0x50000 8 (s.closeRegionOf 0 4)).1 with
      | .ok q => !q.2 && decide (leField q.1 2 2 < 0xFFFE)
      | .error _ => false) = true ∧
    ReadsOnly (s.closeRegionOf 0 4) (unitReadWords ((s.closeRegionOf 0 4).whoVf 0) 0x50000 8 (s.closeRegionOf 0 4)).2 := by
  refine ⟨rfl, rfl, rfl, by decide +kernel, readsOnly_of (by decide +kernel)⟩

/-- Lanes 0 and 63 of group 0, in the transaction state given. -/
def lanes (x : TxLane) : State := withGroup (fun g => onSplit (fun y => { y with mask := bothEnds }) { g with tx := [(0, x), (63, x)] })

theorem wit_TransactionResults_open :
    (let s := lanes { TxLane.empty with retries := 7 }
     s.ctx = some (ctx s) ∧ (ctx s).single = false ∧ (ctx s).split.mask ≠ 0#64 ∧ (s.part (s.partOf 0)).lockHolder = none ∧
     (∃ g, FMap.find s.groups 0 = some g ∧ g.splitRoom ≠ 0 ∧ ∀ k, k < 64 → bothEnds.getLsbD k = true → (g.lane k).depth = 0 ∧ (g.lane k).irrev = false ∧ (g.lane k).retries < g.txlim % 256)) ∧
    (∃ g, FMap.find (lanes { TxLane.empty with retries := 8 }).groups 0 = some g ∧ (g.lane 63).depth = 0 ∧ (g.lane 63).irrev = false ∧ g.txlim % 256 ≤ (g.lane 63).retries) ∧
    (∃ g, FMap.find (lanes { TxLane.empty with depth := 7 }).groups 0 = some g ∧ ∀ k, k < 64 → bothEnds.getLsbD k = true → 1 ≤ (g.lane k).depth ∧ (g.lane k).depth < 8) :=
  ⟨⟨rfl, rfl, by decide, rfl, _, rfl, by decide, by decide⟩, ⟨_, rfl, by decide⟩, _, rfl, by decide⟩

theorem wit_TransactionResults_close :
    (∃ g, FMap.find (lanes { TxLane.empty with depth := 2 }).groups 0 = some g ∧ ∀ k, k < 64 → bothEnds.getLsbD k = true → (g.lane k).depth ≠ 1 ∧ (g.lane k).irrev = false) ∧
    (∃ g, FMap.find (lanes { TxLane.empty with depth := 1 }).groups 0 = some g ∧ (g.lane 63).depth = 1 ∧ (g.lane 63).irrev = false) ∧
    (∃ g, FMap.find (lanes .empty).groups 0 = some g ∧ g.openLanes bothEnds = 0#64) ∧
    (∃ g, FMap.find (lanes { TxLane.empty with depth := 1 }).groups 0 = some g ∧ g.openLanes bothEnds ≠ 0#64) :=
  ⟨⟨_, rfl, by decide⟩, ⟨_, rfl, by decide⟩, ⟨_, rfl, rfl⟩, _, rfl, by decide⟩

theorem wit_TransactionResults_flush :
    NothingToFlush (lanes { TxLane.empty with depth := 1 }) (ctx (lanes { TxLane.empty with depth := 1 })) ∧
    ∀ v, (ctx (lanes { TxLane.empty with depth := 1 })).split.wait ≠ .answered v := by
  refine ⟨⟨fun p => (nofun : Wait.none ≠ Wait.unreached p), ?_⟩, fun v => (nofun : Wait.none ≠ Wait.answered v)⟩
  intro g h
  cases h
  exact ⟨rfl, rfl⟩

theorem wit_WeirInstructionResults :
    (src32Ok 128 false 0x7F#8 = true ∧ src64Ok 128 true 0xFF#8 = true ∧ dst32Ok 128 0x7F#8 = true ∧ dst64Ok 128 0x7E#8 = true) ∧
    (ctx (withGroup id)).split.wait = .none ∧ (let s := withGroup (onSplit (fun x => { x with wait := .answered 3 }))
      s.ctx = some (ctx s) ∧ (ctx s).split.wait = .answered 3) := ⟨by decide, rfl, rfl, rfl⟩

/-- Hart 1 has the turn. -/
def hart (f : Hart → Hart) : State := let s := base.modHart 1 f
  { s with turn := { s.turn with cur := some (.hart 1) } }

theorem wit_HostTransactionResults :
    (hart id).turn.cur = some (.hart 1) ∧ ((hart id).hart 1).depth = 0 ∧ (∀ q ∈ (hart id).parts, q.2.lockHolder = none) ∧
    (∀ d, d ∈ [1, 2, 7] → (((hart (fun h => { h with depth := d })).hart 1).depth = d)) ∧ ((hart (fun h => { h with depth := 1 })).hart 1).ticket = false := by
  decide

/-- The placed group in grid mode or out of it. -/
def gridded (f : Group → Group) : State := withGroup (fun g => f { g with grid := true })

theorem wit_GridModeResults :
    (let s := withGroup id
     s.ctx = some (ctx s) ∧ (ctx s).single = false ∧ (∃ g, FMap.find s.groups 0 = some g ∧ g.ident.allot = 128 ∧ g.grid = false)) ∧
    (∃ g, FMap.find (gridded id).groups 0 = some g ∧ g.grid = true ∧ g.gridOps = []) ∧
    (∃ g, FMap.find (gridded (fun g => { g with gridOps := [⟨8, 0, true, []⟩] })).groups 0 = some g ∧ g.grid = true ∧ g.gridOps ≠ []) ∧
    (∃ g, FMap.find (withGroup (fun g => { g with ident := { g.ident with allot := 96 } })).groups 0 = some g ∧ (g.ident.allot ≠ 128 ∨ g.grid = true)) ∧
    dst32Ok 128 0x7F#8 = true :=
  ⟨⟨rfl, rfl, _, rfl, rfl, rfl⟩, ⟨_, rfl, rfl, rfl⟩, ⟨_, rfl, rfl, by decide⟩, ⟨_, rfl, .inl (by decide)⟩, by decide⟩

/-- Grid mode with an identifier table whose entry 0 is a tensor of this format, and `n` operations standing. -/
def multiplying (fmt n : Nat) : State := identified (gridded (fun g => { g with gridOps := List.replicate n ⟨8, 0, true, []⟩ })) (tensorBytes fmt)

theorem wit_GridOperationResults_gmm :
    let s := multiplying 2 0
    let c := ctx s
    s.ctx = some c ∧ c.single = false ∧ modeRndCode c.regs.mode ≠ 5 ∧ gmmRegOk c.allot 0x38#8 = true ∧ gmmRegOk c.allot 0x3C#8 = true ∧ c.mustWait false = false ∧
    (gridIds c true 0x38#8 0x38#8 s).1.toOption = some (2, 2) ∧ ReadsOnly s (gridIds c true 0x38#8 0x38#8 s).2 := by
  refine ⟨rfl, rfl, by decide, rfl, rfl, rfl, by decide +kernel, readsOnly_of (by decide +kernel)⟩

theorem wit_GridOperationResults_octets :
    let s := multiplying 3 0
    (gridIds (ctx s) true 0x3C#8 0x3C#8 s).1.toOption = some (3, 3) ∧ (gridIds (ctx (multiplying 2 0)) true 0x3C#8 0x38#8 (multiplying 2 0)).1 = .error (.fault (.virt fTensorId (ctx (multiplying 2 0)).ida)) := ⟨rfl, rfl⟩

theorem wit_GridOperationResults_others :
    let s := multiplying 4 0
    let c := ctx s
    goutRegOk c.allot 0x3F#8 = true ∧ (gridIds c false 0x3F#8 0x3F#8 s).1.toOption = some (4, 4) ∧ ReadsOnly s (gridIds c false 0x3F#8 0x3F#8 s).2 ∧
    src32Ok c.allot false 0x7F#8 = true ∧ c.mustWait (touchesAcc 1 0x3F#8) = false ∧
    ∃ g, FMap.find (multiplying 4 254).groups 0 = some g ∧ g.grid = true ∧ g.gridOps.length < 255 := by
  refine ⟨rfl, rfl, readsOnly_of (by decide +kernel), rfl, rfl, _, rfl, rfl, by decide⟩

theorem noTokens_multiplying : NoTokens (multiplying 2 0) (ctx (multiplying 2 0)) ∧ NoTokens (withGroup id) (ctx (withGroup id)) := ⟨⟨by decide, rfl⟩, by decide, rfl⟩

/-- Four groups of a lock set in grid mode: those of `standing` already wait at a linked GMM of v0 and v4. -/
def partners (standing : List Nat) : State :=
  let member := fun (k : Nat) => (k, ({ placeGroup with
    ident := { placeGroup.ident with grpix := k, lk4 := true }, grid := true
    table := [(0, { sp0 with wait := if standing.contains k then .linked 2 0 4 else .none })] } : Group))
  let s := identified (withGroup id) (tensorBytes 3)
  { s with groups := [member 0, member 1, member 2, member 3], blocks := [(0, { placeBlk with gids := [0, 1, 2, 3] })] }

theorem wit_LinkedGridResults :
    let s := partners [1, 2, 3]
    let c := ctx s
    s.ctx = some c ∧ c.single = false ∧ gmmRegOk c.allot 0#8 = true ∧ gmmRegOk c.allot 4#8 = true ∧ c.mustWait false = false ∧
    (∃ g, FMap.find s.groups 0 = some g ∧ g.grid = true ∧ g.gridOps.length < 255 ∧ g.ident.lk4 = true) ∧
    (gridIds c true 0#8 4#8 s).1.toOption = some (3, 3) ∧ ReadsOnly s (gridIds c true 0#8 4#8 s).2 ∧ (gridIds c true 0#8 4#8 s).2.linkedGone 0 = false := by
  refine ⟨rfl, rfl, rfl, rfl, rfl, ⟨_, rfl, rfl, by decide, rfl⟩, rfl, readsOnly_of (by decide +kernel), rfl⟩

theorem wit_LinkedGridResults_four :
    let s := partners [0, 1, 2, 3]
    let l := (s.lockSet 0).filterMap s.linkedAt
    4 ≤ l.length ∧ (∀ m ∈ l, ∀ n ∈ l, m.d = n.d ∧ m.c.idb = n.c.idb) ∧ (∀ m ∈ l, bitAt m.d 0 = false) ∧ (l.map (fun m => m.gid)).Nodup ∧
    ((linkedIds l s).1.toOption.map (fun q => q.length)) = some 4 ∧ (linkedIds l s).2.groups = s.groups ∧
    (((partners [1, 2]).lockSet 0).filterMap (partners [1, 2]).linkedAt).length < 4 := by
  refine ⟨by decide, by decide, by decide, by decide, rfl, rfl, by decide⟩

theorem wit_LinkedGridResults_cells :
    let s := partners [0, 1, 2, 3]
    let l := (s.lockSet 0).filterMap s.linkedAt
    NoTokens s (ctx s) ∧ (∀ m ∈ l, m.g.grid = true) ∧ (l.map (fun m => m.g.ident.grpix % 4)).Nodup ∧ (∀ m ∈ l, modeRndCode m.c.regs.mode ≠ 5) ∧
    (∃ n ∈ l, n.g.ident.grpix % 4 = 63 / 16 ∧ n.c.split.mask.getLsbD 63 = true) ∧ (∃ m ∈ l, m.c.exec.getLsbD 63 = true) := by
  refine ⟨⟨by decide, rfl⟩, by decide, by decide, by decide, ⟨_, .tail _ (.tail _ (.tail _ (.head _))), rfl, by decide⟩, _, .head _, by decide⟩

theorem wit_LinkedGridResults_left :
    let s : State := { partners [0, 1, 2, 3] with groups := FMap.mapVals (fun k (g : Group) => if k = 2 then { g with grid := false } else g) (partners [0, 1, 2, 3]).groups }
    let l := (s.lockSet 0).filterMap s.linkedAt
    4 ≤ l.length ∧ (l.find? (fun m => !m.g.grid)).map (fun m => m.gid) = some 2 := by decide

theorem wit_LinkedGridResults_alone : ∃ g, FMap.find (gridded id).groups 0 = some g ∧ g.ident.lk4 = false := ⟨_, rfl, rfl⟩

theorem wit_GridOperationCompletes :
    let op : GridOp := ⟨8, 0, true, [(0, 1#32), (4095, 2#32)]⟩
    let s := { (withGroup (fun g => { g with grid := true, gridOps := [op] })).modCore 0 (fun c => { c with gridOrder := [0] }) with tick := 8 }
    (∃ g, FMap.find s.groups 0 = some g ∧ g.gridOps = op :: [] ∧ g.status = .running) ∧
    (s.core (coreOf 0)).gridOrder.find? (fun k => decide (hidOf k = hidOf 0)) = some 0 ∧ op.due ≤ s.freeNow (hidOf 0) ∧ FMap.rising 0 op.cells = true ∧ (∀ q ∈ op.cells, q.1 < 4096) := by
  refine ⟨⟨_, rfl, rfl, rfl⟩, by decide, by decide, by decide, by decide⟩

/-- EXTV of split 0. -/
def extended (x : BitVec 24) : State := withGroup (onSplit (fun y => { y with pfx := ⟨true, x, false, 0#24⟩ }))

theorem wit_GridPackResults :
    let s := extended 10#24
    let c := ctx s
    s.ctx = some c ∧ c.single = false ∧ c.extv.toNat < 16 ∧ gpackFormats.contains c.extv.toNat = true ∧ dst32Ok c.allot 0x7F#8 = true ∧ src32Ok c.allot false 0xF0#8 = true ∧
    c.mustWait true = false ∧ 64 + (c.regs.read32 c.xi c.lane 0xF0#8).toNat % 64 / (32 / fmtBits 10) * (32 / fmtBits 10) + 32 / fmtBits 10 ≤ c.allot ∧ cvDraws c 10 (32 / fmtBits 10) = 0 := by
  refine ⟨rfl, rfl, by decide, by decide, by decide, by decide, by decide, by decide, by decide⟩

/-- The placed block with a tile store that the last thread of each panel just reaches; v2 holds 0. -/
def panelled (x : BitVec 24) (size : Nat) : State := { extended x with blocks := [(0, { placeBlk with tiSize := 64 * size })] }

theorem wit_TilePanelResults :
    (∀ q, q ∈ [(0#24, 16), (1#24, 32), (2#24, 8)] →
      let s := panelled q.1 q.2
      let c := ctx s
      s.ctx = some c ∧ c.single = false ∧ s.blockOf c.gid = some { placeBlk with tiSize := 64 * q.2 } ∧ c.extv.toNat < 3 ∧
      src32Ok c.allot false 2#8 = true ∧ c.mustWait (touchesAcc (q.2 / 4) 8#8 || touchesAcc 1 2#8) = false ∧ (c.regs.read32 0#64 0 2#8).toNat = 0 ∧
      panelOk c.allot q.2 false 8#8 = true ∧ panelOk c.allot q.2 true 8#8 = true ∧ s.poolPoisoned (c.block s) (.ti (q.2 * 63)) = false) ∧
    (∀ t, t < 64 → 0 + 16 * t + 16 ≤ 64 * 16 ∧ 0 + 32 * t + 32 ≤ 64 * 32 ∧ 0 + 8 * t + 8 ≤ 64 * 8) ∧ (ctx (panelled 1#24 32)).txLanes (panelled 1#24 32) = 0#64 := by
  refine ⟨?_, by omega, rfl⟩
  intro q h
  simp only [List.mem_cons, List.mem_nil_iff, or_false] at h
  obtain rfl | rfl | rfl := h <;> exact ⟨rfl, rfl, rfl, by decide, rfl, rfl, by decide, rfl, rfl, rfl⟩

/-- A kept fault of threads 0 and 63. -/
def fault (word : BitVec 32) (mask : BitVec 64) : FaultInfo :=
  { code := 4, mask := mask, pc := 0x10000#64, word := word, addr := 0x20000#64, trapKind := false, engine := none, fetch := false, stage2 := false, physical := false,
    pathFail := false, poison := false, pfx := .clear, cpos := 0, spos := 0, seq := 0, user := 0, entry := 0, txAborted := 0#64, mode := 0#32 }

theorem wit_TakingAnException :
    (let s := withGroup id
     s.ctx = some (ctx s) ∧ (ctx s).single = false ∧ (∀ g, FMap.find s.groups (ctx s).gid = some g → g.openLanes (FaultReq.plain 4 bothEnds).mask = 0#64) ∧
     (FaultReq.plain 4 bothEnds).mask ≠ 0#64 ∧ (FaultReq.plain 4 bothEnds).aborts = [] ∧ ¬ ((ctx s).split.poisonAct = true ∧ (FaultReq.plain 4 bothEnds).poison = true)) ∧
    (let s := handling id id
     s.ctx = some (ctx s) ∧ (ctx s).single = true) := by
  refine ⟨⟨rfl, rfl, ?_, by decide, rfl, by decide⟩, rfl, rfl⟩
  intro g h
  cases h
  rfl

/-- Group 0 trapped, first in its quadrant's queue. -/
def trapped (tvec : Word) : State :=
  ({ base with tick := 1, groups := [(0, { placeGroup with status := .trapped, tvec := tvec, fault := some (fault 0x4A060204#32 bothEnds) })] }).modCore 0 (fun c => { c with trapQueue := [0] })

theorem wit_HandlerEntryResults :
    let s := trapped 0x40#32
    (∃ g, FMap.find s.groups 0 = some g ∧ g.trapTick < s.tick ∧ g.links.written = [] ∧ g.links.flush = []) ∧
    FMap.find s.handlers 0 = none ∧ s.gridOf 0 = some placeGrid ∧
    s.nextTrapped 0 = some 0 ∧
    (let s := ({ trapped 0x40#32 with groups := [(0, { placeGroup with status := .trapped, fault := some (fault 0x4A060204#32 bothEnds), links := ⟨[], [9], [], []⟩ })] } : State)
     s.nextTrapped 0 = some 0 ∧ ∃ g, FMap.find s.groups 0 = some g ∧ g.trapTick < s.tick ∧ g.links.written ≠ []) ∧
    (∃ g, FMap.find s.groups 0 = some g ∧ g.fault = some (fault 0x4A060204#32 bothEnds) ∧ g.tvec &&& 0xFFFFFFFC#32 ≠ 0#32) ∧
    (∃ g, FMap.find (trapped 3#32).groups 0 = some g ∧ g.status = .trapped ∧ g.tvec &&& 0xFFFFFFFC#32 = 0#32) :=
  ⟨⟨_, rfl, by decide, rfl, rfl⟩, rfl, rfl, by decide, ⟨by decide, _, rfl, by decide, by decide⟩, ⟨_, rfl, rfl, by decide⟩, _, rfl, rfl, by decide⟩

theorem wit_TrapInstructionResults :
    let s := withGroup id
    (s.ctx = some (ctx s) ∧ NoneOpen s (ctx s) ∧ (ctx s).single = false ∧ (ctx s).split.mask ≠ 0#64) ∧
    src64Ok 128 false 0x7E#8 = true ∧ quadOk 128 0x7C#8 = true ∧ trappedRegOk 128 0x91#8 = true ∧ src32Ok 128 false 0xF1#8 = true ∧ dst32Ok 128 0x7F#8 = true :=
  ⟨⟨rfl, noneOpen_base, rfl, by decide⟩, by decide⟩

theorem wit_StatusRegisterResults :
    (let s := withGroup id
     s.ctx = some (ctx s) ∧ FMap.find s.groups (ctx s).gid = some placeGroup ∧ (ctx s).single = false) ∧
    (dst32Ok 128 0x7F#8 = true ∧ src32Ok 128 false 0x7F#8 = true) ∧ (0x19#16).toNat < 0x1A ∧ 0x1A ≤ (0x1A#16).toNat ∧ swrAllowed false 0x00 = false ∧ swrAllowed false 0x19 = false ∧
    (modeValueOk ((0x100#32).setWidth 24) = true ∧ modeGuardOk 128 ((0x100#32).setWidth 24) = true ∧ modeValueOk ((0x100000#32).setWidth 24) = false) ∧
    (cvmodeOk 0x55555555#32 = true ∧ cvmodeOk 0x00000006#32 = false) := by
  refine ⟨⟨rfl, rfl, rfl⟩, ?_⟩
  decide

theorem wit_HandlerInstructionResults :
    let s := handling id id
    (s.ctx = some (ctx s) ∧ (ctx s).who = .handler 0 ∧ (ctx s).gid = 0 ∧ (FMap.find s.groups 0).isSome = true ∧ (FMap.find s.handlers 0).isSome = true) ∧
    (ctx s).allot = 32 ∧ dst32Ok 32 0x1F#8 = true ∧ src32Ok 32 false 0x1F#8 = true ∧ trappedRegOk 128 0x7F#8 = true ∧ src64Ok 32 false 0x1E#8 = true ∧ quadOk 32 0x1C#8 = true :=
  ⟨⟨rfl, rfl, rfl, rfl, rfl⟩, rfl, by decide⟩

/-- A handler of a group whose threads faulted at a word, with what it did and the record's resume pc. -/
def returning (word : BitVec 32) (rpc : Nat) (repl : FMap (BitVec 128)) (skip : BitVec 64) : State :=
  let s := handling (fun g => { g with fault := some (fault word bothEnds) }) (fun h => { h with repl := repl, skip := skip })
  s.modCore 0 (fun c => c.putTrap 0x10 (bytesLE 8 rpc))

/-- The resume pc that the record holds. -/
def resumeOf (s : State) : Nat := ofBytesLE ((List.range 8).map (fun i => FMap.getD (s.core 0).trap 0#8 (256 * slotOf 0 + 0x10 + i)))

theorem wit_ReturnFromException :
    (let s := returning 0x4A060204#32 0x10000 [] 0#64
     s.ctx = some (ctx s) ∧ (ctx s).who = .handler 0 ∧ (∃ g, FMap.find s.groups 0 = some g ∧ g.fault = some (fault 0x4A060204#32 bothEnds) ∧ FMap.find g.table 0 = some sp0 ∧ g.engFaults = []) ∧
     (FMap.find s.handlers 0).isSome = true) ∧
    ((ctx (returning 0x4A060204#32 0x10000 [] 0#64)).split.wait = .none ∧ ∀ g, FMap.find (returning 0x4A060204#32 0x10000 [] 0#64).groups 0 = some g → g.links.written = [] ∧ g.links.flush = []) ∧
    resumeOf (returning 0x4A060204#32 0x10004 [] 0#64) = 0x10004 ∧ resumeOf (returning 0x4A060204#32 0x10000 [] 0#64) = 0x10000 ∧
    (rettKind (fault 0x10050607#32 bothEnds) = .whole ∧ rettKind (fault 0x4A060204#32 bothEnds) = .load 4 false 6#8) ∧
    reexecuted (.load 4 false 6#8) bothEnds 1#64 [] ≠ 0#64 ∧ reexecuted (.load 4 false 6#8) bothEnds 1#64 [(63, 0#128)] = 0#64 :=
  ⟨⟨rfl, rfl, ⟨_, rfl, rfl, rfl, rfl⟩, rfl⟩, ⟨rfl, fun _ h => by cases h; exact ⟨rfl, rfl⟩⟩, by decide, by decide, by decide, by decide, by decide⟩

theorem wit_WaitAndPointResults :
    (let s := withGroup id
     s.ctx = some (ctx s) ∧ (ctx s).single = false ∧ FMap.find s.groups (ctx s).gid = some placeGroup ∧ s.readyOthers 0 = [] ∧ placeGroup.liveSplits ≤ 1 ∧
     (∀ q ∈ placeGroup.tx, q.2.depth = 0 ∧ q.2.irrev = false) ∧ placeGroup.fp.recipe = false) ∧
    ({ withGroup id with groups := [(0, placeGroup), (16, placeGroup)] } : State).readyOthers 0 = [] ∧
    (src32Ok 128 false 0xF0#8 = true ∧ src32Ok 128 false 0x7F#8 = true ∧ quadOk 128 0x7C#8 = true) ∧
    ((ctx (ranged 0#32)).regs.read32 0#64 0 4#8).toNat = 0 ∧ ((ctx (ranged 1#32)).regs.read32 0#64 0 4#8).toNat ≠ 0 ∧
    (∃ g, FMap.find (branching [] 2).groups 0 = some g ∧ 1 < g.liveSplits) ∧
    (∃ g, FMap.find (withGroup (fun g => { g with fp := { g.fp with recipe := true } })).groups 0 = some g ∧ g.fp.recipe = true) :=
  ⟨⟨rfl, rfl, rfl, rfl, by decide, by decide, rfl⟩, by decide, by decide, by decide, by decide, ⟨_, rfl, by decide⟩, _, rfl, rfl⟩

theorem wit_WaitAndPointResults_others :
    ({ withGroup id with groups := [(0, placeGroup), (15, placeGroup)] } : State).readyOthers 0 = [15] := by decide

/-- Core 0 is the physical core 0 of cluster 0 and present. -/
def cored (f : Core → Core) : State :=
  ({ base with boot := { base.boot with status := 3, coreMap := [(0, 0x8000009876543210)] } }).modCore 0 f

/-- The boot ROM at this status, with an image in its slot. -/
def booting (status : Nat) (image : List Byte) : State := { base with boot := { base.boot with status := status, image := image } }

theorem wit_PowerAndRepairEvents :
    (({ base with power := false } : State).power = false ∧ base.power = true ∧ (booting 0 []).boot.status = 0 ∧ (booting 3 []).boot.status = 3 ∧ (booting 2 []).boot.status = 2) ∧
    ((booting 1 []).boot.status = 1 ∧ imageStatus (booting 1 []).boot (booting 1 []).boot.image ≠ 2) ∧ (0x10 ≤ (booting 0x15 []).boot.status ∧ (booting 0x15 []).boot.status ≤ 0x15) ∧
    (base.boot.softRepaired.contains 3 = false ∧ FMap.getD base.boot.l2Spare false 3 = false) ∧
    ((∀ t, base.boot.throttleAt = some t → t + 700000 ≤ base.tick) ∧ ({ base.boot with throttleAt := some 1 } : Boot).throttleAt = some 1 ∧ base.tick < 1 + 700000) := by
  refine ⟨by decide, by decide, by decide, by decide, ?_, by decide⟩
  intro t h
  cases h

theorem wit_PowerAndRepairEvents_spare : FMap.getD ({ base.boot with l2Spare := [(3, true)] } : Boot).l2Spare false 3 = true := rfl

theorem wit_PowerAndRepairEvents_scan :
    ((cored id).core 0).scan = false ∧ (cored id).corePresent 0 = true ∧ (cored id).scannedLately 0 = false ∧
    (let s := { cored (fun c => { c with scan := true, scanFrom := some 1 }) with tick := 1 + scanTicks, blocks := [], groups := [] }
     (s.core 0).scan = true ∧ (s.core 0).scanFrom = some 1 ∧ 1 + scanTicks ≤ s.tick ∧ FMap.getD s.boot.spareUsed false (clusterOf 0) = false) := by
  refine ⟨rfl, by decide, rfl, rfl, rfl, by decide, rfl⟩

/-- VF 0, changed. -/
def vf0 (f : Vf → Vf) : State := base.modVf 0 f

/-- An enabled queue with one record to start. -/
def launching : State := vf0 (fun v => { v with en := true, inLqbase := 0x60000, inLgsize := 4, lqtail := 1 })

theorem wit_LaunchQueueEvents_tail :
    let room := fun (v : Vf) (n : Nat) => decide ((n + 2 ^ 32 - v.lqtail) % 2 ^ 32 ≤ (v.lqhead + 2 ^ (if v.en then v.inLgsize else v.lgsize) + 2 ^ 32 - v.lqtail) % 2 ^ 32)
    (launching.vf 0).resetting = false ∧ room (launching.vf 0) 16 = true ∧ room (launching.vf 0) 17 = false := by decide

theorem wit_LaunchQueueEvents_enable :
    (let v := (vf0 (fun v => { v with lgsize := 4 })).vf 0
     v.resetting = false ∧ v.en = false ∧ 4 ≤ v.lgsize ∧ v.lgsize ≤ 16 ∧ v.lqbase % 4096 = 0) ∧ ((vf0 (fun v => { v with stopped := true })).vf 0).stopped = true ∧
    (launching.vf 0).mayStart = true := by decide

theorem wit_LaunchQueueEvents_record :
    (match (unitReadWords (launching.whoVf 0) ((launching.vf 0).inLqbase + 64 * ((launching.vf 0).lqhead % 2 ^ (launching.vf 0).inLgsize)) 8 launching).1 with
      | .ok q => !q.2 && decide (recFail q.1 = none)
      | .error _ => false) = true ∧
    (match (unitReadWords (base.whoVf 0) 0x10000 8 { base with ms := { base.ms with mem := [(0x60000, 9#8)] } }).1 with
      | .ok q => !q.2
      | .error _ => false) = true ∧
    (recFail (bytesLE 64 9)).isSome = true := by
  refine ⟨by decide +kernel, by decide +kernel, by decide +kernel⟩

/-- A record of type 1 that stands at the head. -/
def standing (ok : Bool) (type wval : Nat) : State :=
  vf0 (fun v => { v with en := true, starting := some ⟨⟨type, 1, 0, 0, 0x60000, 0x50000, wval, 0, 0, 0⟩, none, none, 0, ok, none⟩ })

theorem wit_LaunchQueueEvents_goesOn :
    ((standing true 0 0).vf 0).mayGoOn = true ∧ (((standing true 0 0).modVf 0 (fun v => { v with en := false })).vf 0).mayGoOn = false ∧
    (((standing true 0 0).modVf 0 (fun v => { v with en := false })).vf 0).starting ≠ none := by decide

theorem wit_LaunchQueueEvents_wait :
    (match (readWobj ((standing false 1 0).whoVf 0) 0x50000 (standing false 1 0)).1 with
      | .value x _ => decide (0 ≤ x ∧ x < 1)
      | _ => false) = true ∧
    (∃ r, ((standing false 1 1).vf 0).starting = some r ∧ r.ok = false ∧ r.lrec.wval = 1) ∧ (∃ r, ((standing true 0 0).vf 0).starting = some r ∧ r.ok = true ∧ r.lrec.type = 0) ∧
    (∃ r, ((standing true 1 0).vf 0).starting = some r ∧ r.ok = true ∧ r.lrec.type ≠ 0) ∧
    (match (unitReadWords ((standing true 1 0).whoVf 0) 0x60000 16 (standing true 1 0)).1 with
      | .ok q => !q.2 && (hdrFail q.1).isSome
      | .error _ => false) = true ∧ ((standing true 1 0).vf 0).stopped = false := by
  refine ⟨by decide +kernel, ⟨_, rfl, rfl, rfl⟩, ⟨_, rfl, rfl, rfl⟩, ⟨_, rfl, rfl, by decide⟩, by decide +kernel, rfl⟩

/-- A launch header that no rule stops: one role of one group with 16 registers (R68). -/
def goodHeader : List Byte :=
  bytesLE 2 1 ++ bytesLE 1 1 ++ bytesLE 1 1 ++ bytesLE 4 1 ++ bytesLE 4 1 ++ bytesLE 2 1 ++ bytesLE 2 1 ++ bytesLE 48 0 ++
  bytesLE 4 0 ++ bytesLE 1 16 ++ bytesLE 1 1 ++ bytesLE 1 1 ++ bytesLE 57 0

theorem wit_LaunchQueueEvents_header : goodHeader.length = 128 ∧ hdrFail goodHeader = none := by decide +kernel

/-- A grid whose blocks have all ended. -/
def ending (f : LaunchRec → LaunchRec) (err : Option GridErr) : State :=
  { base with groups := [], blocks := [], grids := [(0, { placeGrid with lrec := f placeGrid.lrec, err := err, ended := 1 })] }

theorem wit_CompletionAndCallEvents_error :
    (∃ g, FMap.find (ending id none).grids 0 = some g ∧ g.err = none) ∧ (∃ g, FMap.find (ending id (some ⟨1, 0, 0, 0, 0, 0⟩)).grids 0 = some g ∧ g.err = some ⟨1, 0, 0, 0, 0, 0⟩) :=
  ⟨⟨_, rfl, rfl⟩, _, rfl, rfl⟩

theorem wit_CompletionAndCallEvents_end :
    (let s := ending id none
     ∃ g, FMap.find s.grids 0 = some g ∧ s.gridDone 0 g = true ∧ g.written = [] ∧ g.flush = [] ∧ g.lrec.crec = 0 ∧ g.lrec.flags = 0 ∧ g.stopsQueue = false ∧ g.err = none ∧
       (s.vf g.vf).resetting = false) ∧
    (let s := { ending id none with grids := [(0, { placeGrid with ended := 1, written := [9] })] }
     ∃ g, FMap.find s.grids 0 = some g ∧ s.gridDone 0 g = true ∧ g.written ≠ []) ∧
    (let s := ending (fun r => { r with crec := 0x50000, flags := 4 }) none
     ∃ g, FMap.find s.grids 0 = some g ∧ s.gridDone 0 g = true ∧ g.written = [] ∧ g.flush = [] ∧ g.lrec.crec ≠ 0 ∧ g.lrec.flags = 4 ∧ g.err = none ∧ g.stopsQueue = false) := by
  refine ⟨⟨_, rfl, by decide, rfl, rfl, rfl, rfl, rfl, rfl, rfl⟩, ⟨_, rfl, by decide, by decide⟩, _, rfl, by decide, rfl, rfl, by decide, rfl, rfl, rfl⟩

theorem wit_CompletionAndCallEvents_device :
    (let s := vf0 (fun v => { v with dlq := [⟨⟨0, 0, 0, 0, 0, 0, 0, 0, 0, 0⟩, some placeHdr, none, 0, false, none⟩] })
     ∃ r rest h, (s.vf 0).dlq = r :: rest ∧ bitAt r.lrec.flags 0 = false ∧ r.hdr = some h) ∧
    (let s := calling id [(255, ⟨0, 0, true, false, 0, 0⟩)]
     ∃ x, FMap.find (s.vf 0).calls 255 = some x ∧ x.pending = true) := ⟨⟨_, _, _, rfl, rfl, rfl⟩, _, rfl, rfl⟩

theorem wit_CompletionAndCallEvents_resume :
    let s := calling (fun x => { x with wait := .call 0 }) [(0, ⟨0, 0, false, true, 0, 0⟩)]
    (∃ x g c, FMap.find (s.vf 0).calls 0 = some x ∧ x.returned = true ∧ FMap.find s.groups x.gid = some g ∧ g.status = .running ∧
      s.vfOf x.gid = 0 ∧ s.ctxOf (some (.split x.gid x.entry)) = some c ∧ c.split.wait = .call 0) ∧
    (match (unitReadWords (s.whoVf 0) ((s.vf 0).hsbase + 64 * 0) 8 s).1 with
      | .ok q => !q.2 && decide (leField q.1 2 2 < 0xFFFE)
      | .error _ => false) = true := by
  refine ⟨⟨_, _, _, rfl, rfl, rfl, rfl, rfl, rfl, rfl⟩, by decide +kernel⟩

/-- Partitions 1 and 2: 1 owns cluster 3 and port 3. -/
def owned : State := (base.modPart 1 (fun p => { p with live := true, pclus := 8, mrports := 8, estPorts := 8, l2q := 64 })).modPart 2 (fun p => { p with live := true })

theorem wit_OwnershipAndRegisterEvents :
    (owned.ownedElsewhere 2 (fun x => x.pclus) 8 = true ∧ owned.ownedElsewhere 2 (fun x => x.pclus) 4 = false ∧ owned.ownedElsewhere 1 (fun x => x.pclus) 0 = false) ∧
    (((List.range 64).filter (fun c => bitAt (owned.part 1).pclus c && !bitAt 0 c)).any (owned.clusterHeld 1) = false ∧ owned.hasSaved 1 = false) ∧
    (owned.ownedElsewhere 2 (fun x => x.mrports) 8 = true ∧ owned.ownedElsewhere 2 (fun x => x.mrports) 16 = false ∧ owned.ownedElsewhere 2 (fun x => x.estPorts) 8 = true ∧
      owned.ownedElsewhere 2 (fun x => x.estPorts) 16 = false) ∧
    (let others := fun (p : Nat) => (owned.parts.filter (fun q => decide (q.1 ≠ p))).foldl (fun m q => m + q.2.l2q) 0
     owned.usableLines < others 2 + 4096 ∧ others 2 + 1 ≤ owned.usableLines ∧ 1 ≤ 4096) := by
  decide

/-- Cluster 3 of partition 1 holds a block. -/
theorem wit_OwnershipAndRegisterEvents_held :
    let s := { owned with blocks := [(0, { placeBlk with core := 27 })] }
    ((List.range 64).filter (fun c => bitAt (s.part 1).pclus c && !bitAt 0 c)).any (s.clusterHeld 1) = true := by decide

theorem wit_OwnershipAndRegisterEvents_stage :
    (base.stage false 0).busy = false ∧ ((base.modStage true 5 (fun x => { x with busy := true })).stage true 5).busy = true ∧ base.power = true ∧ regAligned 0 8 = true ∧
    base.stageInFlight false 0 = false ∧ base.sees 62 (base.vf 0).presented = true ∧ base.sees 64 (base.vf 0).presented = false ∧ base.sees 64 ((base.modVf 0 (fun v => { v with presented := 1 })).vf 0).presented = true := by decide

/-- A group of VF 0 with a load in flight outside the package. -/
theorem wit_OwnershipAndRegisterEvents_inFlight :
    (withGroup (fun g => { g with links := ⟨[⟨4, .load 6 false, [⟨1#64, 0, 0, 2 ^ 42, 4, false⟩], [], [], 0x4A060204#32, 0⟩], [], [], []⟩ })).stageInFlight false 0 = true := by decide

/-- The configuration port is busy with a SETSTRIPE of `count` stripes from `first` to `v`, stripe 0 a partition's. -/
def striping (first count v : Nat) : State :=
  { base with cfg := { base.cfg with busy := true, arg0 := first + count * 2 ^ 20, arg1 := v } }

/-- What SETSTRIPE looks at. -/
def legalStripes (s : State) : Bool :=
  decide (field s.cfg.arg0 20 18 ≠ 0 ∧ field s.cfg.arg0 0 18 + field s.cfg.arg0 20 18 ≤ 131072 ∧ ¬ (0x80 ≤ field s.cfg.arg1 0 8 ∧ field s.cfg.arg1 0 8 ≤ 0xFA))

theorem wit_ConfigurationCommandEvents_stripe :
    (legalStripes (striping 0 0 5) = false ∧ legalStripes (striping 131071 1 5) = true ∧ legalStripes (striping 131071 2 5) = false ∧ legalStripes (striping 5 1 0x7F) = true ∧
      legalStripes (striping 5 1 0x80) = false ∧ legalStripes (striping 5 1 0xFA) = false ∧ legalStripes (striping 5 1 0xFB) = true) ∧
    ((striping 5 1 5).cfg.busy = true ∧ FMap.getD (base.ms.stripes false) 0xFF 5 = 0xFF ∧ trustDomain 0xFF = false ∧ trustDomain 0x7F = true ∧ trustDomain 0xFD = true) ∧
    (adjacentOk (setRange (base.ms.stripes false) [5] 5) = true ∧ adjacentOk (setRange (base.ms.stripes false) [1] 5) = false) ∧
    (adjacentOk (setRange (base.ms.stripes false) [0] 5) = true ∧ trustDomain (FMap.getD (base.ms.stripes false) 0xFF 0) = true ∧ FMap.getD (base.ms.stripes false) 0xFF 0 ≠ 5) := by
  decide

theorem wit_ConfigurationCommandEvents_scrub :
    ({ base with cfg := { base.cfg with scrub := some (false, 3, 2, 5) } } : State).cfg.scrub = some (false, 3, 2, 5) := rfl

/-- ASSIGNVF or UNASSIGNVF of a VF to partition 1 as its index 2. -/
def assigning (vf : Nat) : State := { base with cfg := { base.cfg with busy := true, arg0 := vf + 1 * 2 ^ 16 + 2 * 2 ^ 32 } }

theorem wit_ConfigurationCommandEvents_vf :
    ((assigning 0).cfg.busy = true ∧ ((assigning 0).vf 0).assigned = true ∧ ((assigning 0).vf 0).resetting = false) ∧
    (((assigning 1023).vf 1023).en = false ∧ (assigning 1023).lqIdle 1023 = true ∧ ((assigning 1023).vf 1023).assigned = false ∧ (assigning 1023).vfByIndex 1 2 = none) := by
  decide

theorem wit_ConfigurationCommandEvents_reset :
    let s := { base with vfs := [(0, { Vf.reset with assigned := true, resetting := true })], grids := [] }
    (s.vf 0).resetting = true ∧ s.grids.any (fun q => decide (q.2.vf = 0)) = false ∧ s.cfg.unassign ≠ some 0 ∧
    ({ s with cfg := { s.cfg with unassign := some 0 } } : State).cfg.unassign = some 0 := by decide

/-- The hypervisor owns stripe 1, and a weir command names a descriptor in it. -/
def weirs (b : List Byte) (l : FMap Weir) : State :=
  { base with ms := { base.ms with fast := [(0, 0), (1, 0xFD)], mem := putBytes [] 0x800000 b }, cfg := { base.cfg with busy := true, arg0 := 0x800000 }, weirs := l }

theorem wit_ConfigurationCommandEvents_open :
    let s := weirs (bytesLE 64 (3 * 2 ^ 160 + 0xFFFF * 2 ^ 192)) []
    let b := s.bytesAt 0x800000 64
    s.cfg.arg0 % 64 = 0 ∧ s.descriptor s.cfg.arg0 = some (0x800000, b) ∧ FMap.find s.weirs s.cfg.arg0 = none ∧ s.poisoned 0x800000 64 = false ∧
    field (leField b 0x14 1) 0 2 = 3 ∧ bitAt (leField b 0x14 1) 7 = false ∧ weirFormatOk b = true ∧ (weirOf b).home = s.boot.pkg ∧ s.weirs.length < 4096 := by
  decide +kernel

/-- A weir that nothing has used. -/
def still (state : Nat) : Weir := ⟨0, 0, 0, 0, 0, state, [], 0xFFFF, [], [], []⟩

theorem wit_ConfigurationCommandEvents_weir :
    (∀ k, k ∈ [0, 1, 2] → ∃ w, FMap.find (weirs [] [(0x800000, still k)]).weirs 0x800000 = some w ∧ w.state = k) ∧ (0 < 2 ∧ ¬ 2 < 2) := by
  refine ⟨?_, by decide⟩
  intro k h
  simp only [List.mem_cons, List.mem_nil_iff, or_false] at h
  obtain rfl | rfl | rfl := h <;> exact ⟨_, rfl, rfl⟩

/-- Partition 0 runs VF 0 on clusters 0 and 16 with one core each; a grid of four blocks is to be cut, with these queues. -/
def placing (next : Nat) (delta : List Batch) (queues : FMap (List Batch)) : State :=
  let s := base.modPart 0 (fun p => { p with pclus := 1 + 2 ^ 16 })
  { s with groups := [], blocks := [], boot := { s.boot with coreMap := [(0, 0x8000001FFFFFFFF0), (16, 0x8000001FFFFFFFF0)] }
           grids := [(0, { placeGrid with nextBlock := next, hdr := { placeHdr with gx := 4 } })], place := { s.place with delta := delta, dieQueues := queues } }

/-- A batch of one block. -/
def oneBlock (first : Nat) : Batch := ⟨0, first, 1, 1⟩

theorem wit_PlacementAndSwitchEvents_cut :
    let s := placing 0 [] []
    s.runningVf 0 = some 0 ∧ (s.nextBatch 0).isSome = true ∧ (∃ b, s.nextBatch 0 = some (b, false) ∧ s.gangFits (s.part 0).clusters (s.gangOf b) = true ∧ (s.chooseDie 0 0 b).isSome = true) ∧
    (placing 4 [oneBlock 0] []).nextBatch 0 = some (oneBlock 0, true) :=
  ⟨rfl, by decide, ⟨_, rfl, by decide, by decide⟩, by decide⟩

theorem wit_PlacementAndSwitchEvents_place :
    let s := placing 4 [] [(0, [oneBlock 0])]
    s.runningVf 0 = some 0 ∧ s.placePending 0 0 = false ∧ (s.dieQueue 0 0).find? (s.batchOf 0) = some (oneBlock 0) ∧ (FMap.find s.grids 0).isSome = true ∧
    s.gangFits (s.part 0).clusters 1 = true ∧ s.gangFits (s.dieClusters 0 0) 1 = true ∧ s.chosenCores 0 0 0 (oneBlock 0) placeHdr = none ∧ s.chooseCores 0 0 placeHdr = some [0] ∧
    ({ s with place := { s.place with chosen := [(chosenKey 0 0 0, (0, 0, [0]))] } } : State).chosenCores 0 0 0 (oneBlock 0) placeHdr = some [0] ∧ s.assistOn 0 1 = false ∧
    s.blockSlots 0 0 placeHdr.groups = [0] := by decide

theorem wit_PlacementAndSwitchEvents_return :
    let s := placing 4 [] [(2, [oneBlock 0])]
    s.runningVf 0 = some 0 ∧ (s.dieQueue 0 2).find? (s.batchOf 0) = some (oneBlock 0) ∧ s.gangFits (s.dieClusters 0 2) (s.gangOf (oneBlock 0)) = false := by decide

theorem wit_PlacementAndSwitchEvents_steal :
    let s := placing 4 [] [(1, [oneBlock 0, oneBlock 1])]
    s.runningVf 0 = some 0 ∧ (s.dieQueue 0 0).any (s.batchOf 0) = false ∧ ((s.dieCores 0 0).map s.coreFree).sum ≠ 0 ∧
    (s.otherDies 0 0).findSome? (fun e => match ((s.dieQueue 0 e).filter (s.batchOf 0)).getLast? with
      | some x => if 2 ≤ ((s.dieQueue 0 e).filter (s.batchOf 0)).length ∧ x.groups ≤ ((s.dieCores 0 0).map s.coreFree).sum ∧ s.gangFits (s.dieClusters 0 0) (s.gangOf x) = true then some (e, x) else none
      | none => none) = some (1, oneBlock 1) ∧ dieKey 0 1 ≠ dieKey 0 0 := by decide

theorem wit_PlacementAndSwitchEvents_splits :
    (let g : Group := { onSplit (fun x => { x with wait := .join }) placeGroup with stack := [sp0] }
     g.table.all (fun q => decide (q.2.wait = .join)) = true ∧ (youngestAtJoin g.table).isSome = true) ∧
    (let s := { withGroup (fun g => { g with spin := { g.spin with demoted := true } }) with tick := 1024 }
     1024 ≤ s.freeNow (hidOf 0) - 0 ∧ (∃ g, FMap.find s.groups 0 = some g ∧ g.spin.demoted = true ∧ g.spin.watchesNone = true)) := by
  exact ⟨by decide, by decide, _, rfl, rfl, rfl⟩

/-- VF 1 is index 1 of partition 0 and has work; index 0 runs; the slot table and the areas
stand in the hypervisor's stripes 1 to 8. -/
def switching (w : Option Switch) (misses : Nat) : State :=
  let s := base.modPart 0 (fun p => { p with pclus := 1 + 2 ^ 16, stbase := 0x800, switch := w, misses := misses, period := 10 })
  let s := s.modVf 1 (fun v => { v with assigned := true, part := 0, index := 1 })
  let entry := bytesLE 8 (1 + 0x1000 * 2 ^ 12) ++ bytesLE 8 (18 * 656)
  { s with tick := 700000, groups := [], blocks := [], boot := { s.boot with coreMap := [] }
           grids := [(1, { placeGrid with vf := 1, nextBlock := 0 })]
           ms := { s.ms with fast := (0, 0) :: (List.range 8).map (fun k => (k + 1, 0xFD)), mem := putBytes [] 0x800000 (entry ++ entry) } }

theorem wit_PlacementAndSwitchEvents_tick :
    let s := switching none 0
    (s.part 0).period ≠ 0 ∧ s.tick % ((s.part 0).period * 70000) = 0 ∧ s.assistOn 0 4 = false ∧ s.tickRefused 0 = false ∧ (s.saveArea 0 0).isSome = true ∧ s.tickTarget 0 = some 1 := by
  decide +kernel

/-- A switch under way to index 1. -/
def under (done : List Nat) (restoring : Bool) (since : Nat) : Switch := ⟨since, 1, done, false, restoring⟩

theorem wit_PlacementAndSwitchEvents_done :
    (let s := switching (some (under [] false 0)) 0
     s.outgoing 0 = some 0 ∧ s.dieQuiet 0 0 = true ∧ (s.saveArea 0 (s.part 0).running).isSome = true ∧ s.blocks = [] ∧ s.partDies 0 = [0, 1]) ∧
    ((under [] false 0).restoring = false ∧ 0 ∉ (under [] false 0).doneDies ∧ 1 ∉ (under [] false 0).doneDies ∧ 1 ∈ (under [1] false 0).doneDies) ∧
    (let s := switching (some (under [] false (700000 - 28000))) 2
     (under [] false (700000 - 28000)).since + 28000 ≤ s.tick ∧ 2 ≤ (s.part 0).misses ∧ ((switching (some (under [] false 0)) 1).part 0).misses < 2) ∧
    (let s := switching (some (under [0, 1] true 0)) 0
     (s.modPart 0 (fun y => { y with active := true, running := 1, switch := none })).vfByIndex 0 1 = some 1 ∧ s.vfByIndex 0 1 = some 1 ∧ s.restoreToPost 0 1 = none) ∧
    (let s := switching (some (under [] false (700000 - 28000))) 1
     (s.modPart 0 (fun x => { x with switch := none, misses := x.misses + 1 })).runningVf 0 = some 0 ∧ s.outgoing 0 = some 0) ∧
    (base.saveArea 0 0 = none ∧ (withGroup id).dieQuiet 0 0 = true ∧ 0 ∈ (placing 0 [] []).partDies 0) := by
  decide +kernel

/-- A group that has written to package 9 and waits for its flush. -/
def flushing (l : List (Nat × Nat)) : State := withGroup (fun g => { onSplit (fun x => { x with wait := .flush }) g with links := ⟨[], [], l, []⟩ })

theorem wit_LinkAndResponseEvents_paths :
    (bitAt ({ base.boot with portsUp := 2 ^ 31 } : Boot).portsUp 31 = true) ∧ (flushing [(9, 5)]).unreachable ((flushing [(9, 5)]).partOf 0) 9 = true ∧
    (∃ g, (flushing [(9, 5)]).groups = [(0, g)] ∧ g.links.remote = [] ∧ (9, 5) ∈ g.links.flush ∧ g.links.flush.filter (fun q => decide (q ≠ (9, 5))) = []) ∧
    (∃ g, FMap.find (flushing [(9, 5), (8, 6)]).groups 0 = some g ∧ g.links.flush.filter (fun q => decide (q ≠ (9, 5))) ≠ []) := by
  refine ⟨by decide, by decide +kernel, ⟨_, rfl, rfl, by decide, by decide⟩, _, rfl, by decide⟩

theorem wit_LinkAndResponseEvents_packets :
    let b : List Byte := List.replicate 32 1#8
    (base.power = true ∧ b ≠ [] ∧ offOf 0x20FE0 / 4096 = (offOf 0x20FE0 + b.length - 1) / 4096 ∧ pkgOf 0x20FE0 = base.boot.pkg ∧ base.admitPpid 0 (offOf 0x20FE0) = true ∧
      base.admitPpid 0 (offOf 0x800000) = false ∧ base.assistOn ((base.partOfPpid 0).getD 0) 3 = false ∧ 0xFFFF ≠ (base.vf 0).gen) ∧
    ((base.vf 0).assigned = true ∧ meetsPool 0x20000 32 = false ∧ meetsPool 0xFFFFFFC00000 1 = true ∧ (unitWriteRange (base.whoVf 0) 0x20000 false b base).1.toOption = some ()) ∧
    (0 = ((base.vf 0).rodState 7).next ∧ ((base.vf 0).rodState 7).next < 1 ∧ ((base.vf 0).rodState 7).held = [] ∧
      0 < ((base.modVf 0 (fun v => { v with rod := [(7, ⟨1, []⟩)] })).vf 0 |>.rodState 7).next) ∧
    base.retxPosted (base.vf 0).part 0 = false := by decide +kernel

/-- A load of 4 bytes of thread 0 that waits for another package. -/
def loading (k : RemoteKind) : State :=
  withGroup (fun g => { onSplit (fun x => { x with mask := 1#64, wait := .remote 4 }) g with links := ⟨[⟨4, k, [⟨1#64, 0, 0, 2 ^ 42, 4, false⟩], [], [], 0x4A060204#32, 0⟩], [], [], []⟩ })

theorem wit_LinkAndResponseEvents_answers :
    (∃ op, (loading (.load 6 false)).remoteOp 0 4 = some op ∧ [7].length = op.reqs.length ∧ op.kind = .load 6 false ∧ ((loading (.load 6 false)).waiter 0 op).isSome = true ∧
      liveBad (ctx (loading (.load 6 false))) op.bad = [] ∧ liveAborts (ctx (loading (.load 6 false))) op.aborts = []) ∧
    (∃ op, (loading (.atomic 6 0 0 [])).remoteOp 0 4 = some op ∧ op.kind = .atomic 6 0 0 [] ∧ ((loading (.atomic 6 0 0 [])).waiter 0 op).isSome = true) :=
  ⟨⟨_, rfl, rfl, rfl, rfl, rfl, rfl⟩, _, rfl, rfl, rfl⟩

theorem wit_LinkAndResponseEvents_home :
    let b : List Byte := List.replicate 64 1#8
    (b ≠ [] ∧ b.length ≤ 64 ∧ 0x20000 / 64 = (0x20000 + b.length - 1) / 64 ∧ pkgOf 0x20000 = base.boot.pkg ∧ offOf 0x20000 < regBase ∧ offOf 0x20000 < tierEnd ∧
      base.power = true ∧ 0x20000 < 2 ^ 51 ∧ base.assistOn (base.stripe (offOf 0x20000)) 3 = false ∧ base.assistOn (base.stripe (offOf 0x800000)) 3 = false ∧
      closedStripe (base.stripe (offOf 0x20000)) = false ∧ base.poisoned 0x20000 64 = false ∧ closedStripe (base.stripe (offOf 0x800000)) = true) ∧
    ((hart (fun h => { h with depth := 1, wsig := List.range 257 })).hart 1).depth ≠ 0 := by decide +kernel

/-- A switch under way stops the streams of its partition. -/
theorem wit_EngineAndUnitEvents_stopped : (base.modPart 0 (fun p => { p with switch := some ⟨0, 1, [], false, false⟩ })).streamsStop 0 = true := by decide

theorem wit_EngineAndUnitEvents_fault :
    let s := withGroup (fun g => { g with engFaults := [fault 0x60000801#32 1#64] })
    let s := queued s [command 1 []]
    ∃ g, s.command 0 5 = some (command 1 []) ∧ FMap.find s.groups (command 1 []).gid = some g ∧ g.status = .running ∧ g.engFaults = fault 0x60000801#32 1#64 :: [] ∧
      g.nextEntry.isSome = true := ⟨_, rfl, rfl, rfl, rfl, rfl⟩

/-- The bytes of a participant list of two VFs, this one the first. -/
def twoRanks : List Byte := bytesLE 4 2 ++ bytesLE 4 0 ++ bytesLE 4 5 ++ bytesLE 4 0 ++ bytesLE 8 0 ++ bytesLE 8 (2 ^ 16)

theorem wit_EngineAndUnitEvents_list :
    let q := command 4 [0x01000000#32, 1#32, 0x20000#32, 0#32, 0x30000#32, 0#32, 0x40000#32, 0#32]
    let s := queued (withGroup id) [q]
    let s := { s with ms := { s.ms with mem := putBytes s.ms.mem 0x40000 twoRanks } }
    (s.command 0 5 = some q ∧ q.held = false ∧ firstOfKind (s.core 0).queue q = true) ∧
    (match (unitReadWords (s.whoVf 0) (pairAt q.words 6) 2 s).1, (unitReadWords (s.whoVf 0) (pairAt q.words 6 + 16) 2 s).1 with
      | .ok (h, false), .ok (b, false) => decide (leField h 0 4 = 2 ∧ leField h 4 4 = 0 ∧ leField h 12 4 = 0) && ((List.range 2).map (fun i => leField b (8 * i) 8)).all partWordOk
      | _, _ => false) = true ∧
    (match (unitReadWords (s.whoVf 1) (pairAt q.words 6) 2 s).1 with
      | .error (.fault _) => true
      | _ => false) = true := by
  refine ⟨⟨rfl, rfl, by decide⟩, by decide +kernel, by decide +kernel⟩

theorem wit_EngineAndUnitEvents_engine :
    (let s := queued base [command 0 []]
     (List.range 64).findSome? (fun i =>
       let gid := 0 * 64 + (FMap.getD (s.core 0).served 63 0 + 1 + i) % 64
       if s.streamsStop gid then none else startable (s.core 0).queue gid 0) = some (command 0 [])) ∧
    (let s := queued base [{ command 5 [] with started := true, tc := 1, entryAddr := 0x30000 }]
     ∃ q, s.command 0 5 = some q ∧ q.sub = 5 ∧ q.started = true ∧ q.stopped = false ∧ q.runningEntry = false ∧ q.k < q.tc ∧ chainEntryOk (engineOf 5 q.words) (List.replicate 64 0#8) = none) := by
  refine ⟨by decide, _, rfl, rfl, rfl, rfl, rfl, by decide, by decide⟩

/-- A started CPY of one element between two entries of the table. -/
def copying : State :=
  let s := queued (identified (withGroup id) (tensorBytes 2)) [{ command 0 ((List.range 8).map (fun _ => 0#32)) with started := true, ent1 := tensorBytes 2, ent2 := tensorBytes 2 }]
  { s with ms := { s.ms with rcache := base.ms.rcache } }

theorem wit_EngineAndUnitEvents_copy :
    (∃ q, copying.command 0 5 = some q ∧ q.started = true ∧ q.stopped = false ∧ q.sub ≠ 5 ∧ copying.streamsStop q.gid = false ∧
      (runStream ⟨q.gid, 5, q.sub, q.words, ⟨q.cvmode, q.mode⟩, q.base, q.ent1, q.ent2, q.wrote, q.far, q.taint⟩ q.cpos copying).stop = none ∧ q.ended = none) :=
  ⟨_, rfl, rfl, rfl, by decide, rfl, by decide +kernel, rfl⟩

/-- A command with a completion object at 0x50000. -/
def finishing (f : EngCmd → EngCmd) : EngCmd := f (command 0 ((List.range 8).map (fun i => if i = 4 then 0x50000#32 else 0#32)))

theorem wit_EngineAndUnitEvents_finish :
    let s := fun (f : EngCmd → EngCmd) => queued (withGroup id) [finishing f]
    (finishing id).sub ≠ 5 ∧ (finishing (fun x => { x with wroteTo := [9] })).wroteTo ≠ [] ∧ (finishing (fun x => { x with marks := [(9, 5)] })).marks ≠ [] ∧
    pairAt (command 0 ((List.range 8).map (fun _ => 0#32))).words 4 = 0 ∧ pairAt (finishing id).words 4 = 0x50000 ∧
    (match (engStore (finishing id) 0x50008 (statusWord 0 0 0) (s id)).1 with
      | .ok l => decide (l = [])
      | .error _ => false) = true ∧
    (engCount (finishing (fun x => { x with posted := true })) 0x50000 (s (fun x => { x with posted := true }))).1.toOption = some () := by decide +kernel

/-- A chain that has entries, the first one of zeros. -/
def chained : EngCmd := { command 5 ((List.range 8).map (fun _ => 0#32)) with started := true, tc := 1, entryAddr := 0x30000 }

theorem wit_EngineAndUnitEvents_chain :
    let s := identified (queued (withGroup id) [chained]) []
    (s.command 0 5 = some chained ∧ s.streamsStop 0 = false) ∧ (engRequest chained (chainSectors chained s) s).1 = true ∧
    (match (coreRead 0 0x30000 64 (engRequest chained (chainSectors chained s) s).2).1 with
      | .ok q => decide (q = (List.replicate 64 0#8, false)) && decide (chainEntryOk (engineOf 5 chained.words) q.1 = none)
      | .error _ => false) = true ∧
    (let s := identified (queued (withGroup id) [chained]) (tensorBytes 2)
     (enqCheck true 0 0 ((List.range 8).map (fun _ => 0#32)) s).1.toOption.isSome = true) := by decide +kernel
theorem wit_EngineAndUnitEvents_units :
    (let q := command 4 [0#32, 1#32, 0#32, 0#32, 0#32, 0#32, 0#32, 0#32]
     let s := queued base [q]
     s.command 0 5 = some q ∧ firstOfKind (s.core 0).queue q = true) ∧
    (let q := command 6 [1#32, 8#32, 0x20000#32, 0#32, 0#32, 0#32, 3#32, 0#32]
     let s := (queued base [q]).modVf 0 (fun v => { v with conns := [(3, (2, 1))] })
     s.command 0 5 = some q ∧ firstOfKind (s.core 0).queue q = true ∧ s.npostRefusal 0 q.words = some 4 ∧ (s.modPart 0 (fun p => { p with estPorts := 4 })).npostRefusal 0 q.words = none ∧
     field (wordOf q.words 0) 0 4 = 1) := by decide

/-- Two VFs of this package in one collective. -/
def gathering (tag gen : Nat) : Collective := ⟨1, 0, 0, 0, 0, 0, 1, 0x20000, 0x30000, [0 + gen * 2 ^ 32, 0 + 1 * 2 ^ 16], 0, tag, none, none⟩

theorem wit_EngineAndUnitEvents_collective :
    let s := { base with colls := [gathering 5 0, { gathering 5 0 with id := 2, vf := 1, own := 1 }] }
    s.colls.find? (fun c => decide (c.id = 1)) = some (gathering 5 0) ∧ (gathering 5 0).ended = none ∧ s.stalePart (gathering 5 0) = false ∧ s.allLocal (gathering 5 0) = true ∧
    ((List.range 2).map (fun i => s.partner (gathering 5 0) i)).all Option.isSome = true ∧ s.stalePart (gathering 5 1) = true := by
  decide

theorem wit_EngineAndUnitEvents_probe :
    let c : Collective := { gathering 5 0 with ranks := [0, 0] }
    let s := { base with colls := [c, { c with id := 2, own := 1 }] }
    (((List.range 2).map (fun i => s.partner c i)).filterMap (fun x => x)).all (collsAgree c) = true ∧
    (probeColls true (((List.range 2).map (fun i => s.partner c i)).filterMap (fun x => x)) s).1 = none := by
  decide +kernel

/-- A tier move of a range whose entry stands in the hypervisor's stripe 1. -/
def moving (w0 : Nat) : State :=
  let s := base
  { s with moves := [⟨0, 0, 0x20000, 0, 0x50000, 1, none, none, []⟩]
           ms := { s.ms with fast := [(0, 0), (1, 0xFD)], mem := putBytes [] 0x800000 (bytesLE 8 w0 ++ bytesLE 16 0)
                             rcache := [(0, [⟨0, some 0, 0, 2 ^ 40, 0, 7, 0, none⟩, ⟨0, none, 0, 2 ^ 40, 0, 7, 0, some 0x800000⟩])] } }

theorem wit_EngineAndUnitEvents_move :
    (∃ m, (moving 0).moves = m :: [] ∧ m.written = none ∧ m.status = none) ∧ (match ((moving 0).moveEntry ⟨0, 0, 0x20000, 0, 0x50000, 1, none, none, []⟩).1 with
      | .ok (some x) => decide (x.w0 = 0)
      | _ => false) = true ∧
    (if bitAt 0 5 then 1 else 0) = 0 ∧ (base.moveEntry ⟨0, 0, 0x20000, 0, 0x50000, 1, none, none, []⟩).1 = .ok none := ⟨⟨_, rfl, rfl, rfl⟩, by decide +kernel, rfl, rfl⟩

theorem wit_SchedulerAndHomeEvents_waits :
    (let s := withGroup (onSplit (fun x => { x with wait := .sleep 0 }))
     ∃ c, s.ctxOf (some (.split 0 0)) = some c ∧ c.split.wait = .sleep 0 ∧ c.gid = 0 ∧ 0 ≤ s.tick) ∧
    placeGroup.status = .running ∧ GStatus.handler ≠ .running ∧
    (∃ g, FMap.find (withGroup (fun g => { g with yieldDue := some 64, yieldSet := [] })).groups 0 = some g ∧ g.yieldDue = some 64 ∧ (g.yieldSet = [] ∨ 64 ≤ base.tick)) ∧
    (({ base with tick := 1400 } : State).tick % 700 = 0) ∧ (let s := base.modPart 0 (fun p => { p with lockQueue := [(0, 63)] })
      (s.part 0).lockHolder = none ∧ (s.part 0).lockQueue = (0, 63) :: []) :=
  ⟨⟨_, rfl, rfl, rfl, by decide⟩, rfl, by decide, ⟨_, rfl, rfl, .inl rfl⟩, by decide, rfl, rfl⟩

/-- Split 0 waits at a BOW of v2 for the value of v4. -/
def watching (v : Word) : State := withGroup (fun g => onSplit (fun x => { x with wait := .bow 0 0 0x5C040204#32 }) (setReg 2 0 0x20000#32 (setReg 4 0 v g)))

theorem wit_SchedulerAndHomeEvents_object :
    let s := watching 1#32
    (∃ g c, FMap.find s.groups 0 = some g ∧ g.status = .running ∧ s.switching 0 = false ∧ s.ctxOf (some (.split 0 0)) = some c ∧ c.split.wait = .bow 0 0 0x5C040204#32 ∧
      s.reach c c.lane 0x20000 8 .load = (.ok (.own 0x20000 0), s) ∧ containWait c 8 [.own 0x20000 0] s = none) ∧
    inPool 0x20000 = false ∧ s.poisoned 0x20000 8 = false ∧ s.wordAt 0x20000 8 < ((ctx s).regs.read64 0#64 0 4#8).toNat ∧
    ((ctx (watching 0#32)).regs.read64 0#64 0 4#8).toNat ≤ (watching 0#32).wordAt 0x20000 8 :=
  ⟨⟨_, _, rfl, rfl, rfl, rfl, rfl, rfl, rfl⟩, rfl, rfl, by decide, by decide⟩

/-- A weir of partition 0 by handle 0, its table in the hypervisor's stripe 1. -/
def weired (state : Nat) : State :=
  let s := withGroup (onSplit (fun x => { x with wait := .weir 0x6B000000#32 }))
  let s := s.modPart 0 (fun p => { p with wtbase := 0x801000, wtcnt := 1 })
  { s with weirs := [(0x800000, { still state with acl := [0x70000] })]
           ms := { s.ms with fast := [(0, 0), (1, 0xFD)], mem := putBytes [] 0x801000 (bytesLE 8 0x800001) } }

theorem wit_SchedulerAndHomeEvents_weir :
    (∃ g sp, FMap.find (weired 0).groups 0 = some g ∧ FMap.find g.table 0 = some sp ∧ sp.wait.isWeir = true) ∧
    (still 0).state = 0 ∧ (still 1).state ≠ 0 ∧ (still 0).rateOps = [] ∧ ({ still 0 with burst := 1 } : Weir).burst ≠ 0 := ⟨⟨_, _, rfl, rfl, rfl⟩, rfl, by decide, rfl, by decide⟩

theorem wit_SchedulerAndHomeEvents_tickets :
    (let s := { base with tickets := [.group 0 0 1#64] }
     s.tickets = .group 0 0 1#64 :: []) ∧
    (let s := { hart (fun h => { h with depth := 1, ticket := true }) with tickets := [.hart 1] }
     s.tickets = .hart 1 :: [] ∧ (s.hart 1).depth ≠ 0 ∧ (s.hart 1).ticket = true) := ⟨rfl, rfl, by decide, rfl⟩

theorem wit_SchedulerAndHomeEvents_assist :
    let s := (weired 0).modPart 0 (fun p => { p with assistBase := 0x802000, assist := [(63, ⟨0, 0, [], 0, 0, none⟩)] })
    (FMap.find (s.part 0).assist 63).isSome = true ∧ (s.assistSlot 0 63).isSome = true := by decide +kernel

/-- The package issues the word next. -/
def placed (w : Word) : State := State.reset.placeDevice w

theorem wit_StepRunsDecodedInstruction_rom : (booting 1 []).power = true ∧ (booting 1 []).boot.romDue = true ∧ (placed 0x10050607#32).boot.romDue = false := by decide

theorem wit_StepRunsDecodedInstruction_device :
    let s := placed 0x10050607#32
    s.power = true ∧ s.turn.agenda = [] ∧ s.turn.hostTurn = none ∧ s.turn.ticked = true ∧ s.nextIssuer = some (0, .split 0 0) ∧
    (∃ c, (s.startIssue 0 (.split 0 0)).ctx = some c ∧ ((s.startIssue 0 (.split 0 0)).fetch c).1 = .word 0x10050607#32 ∧
      decodeDevice c.extv 0x10050607#32 = .ok (.iadd false 5#8 6#8 7#8) ∧ decodeDevice c.extv 0x0C000000#32 = .error .reservedOpcode ∧ decodeDevice c.extv 0x80000000#32 = .error .uniformMark) :=
  ⟨rfl, rfl, rfl, rfl, by decide +kernel, _, rfl, rfl, rfl, rfl, rfl⟩

theorem wit_StepRunsDecodedInstruction_fetch :
    let s := issuing (placed 0x10050607#32)
    let c := ctx s
    c.split.pc.toNat < 2 ^ 48 ∧ inPool c.split.pc.toNat = false ∧ c.split.pc.toNat % 4 = 0 ∧ resolve (s.whoOf c.gid) 0x10000 4 s = (.ok (.own 0x10000, 0), s) ∧
    s.toPost (s.whoOf c.gid).part 0x10000 4 = none ∧ s.poisoned 0x10000 4 = false ∧ s.wordAt 0x10000 4 = 0x10050607 := by
  refine ⟨by decide, by decide, by decide, rfl, rfl, rfl, by decide +kernel⟩

theorem wit_StepRunsDecodedInstruction_others :
    ({ base with power := false } : State).power = false ∧ ({ base with turn := { base.turn with agenda := [.powerOff] } } : State).turn.agenda = .powerOff :: [] ∧
    ({ base with turn := { base.turn with ticked := false } } : State).turn.ticked = false ∧
    (let s := State.reset.placeHost 0x0000100B#32
     s.power = true ∧ s.turn.agenda = [] ∧ s.turn.hostTurn = some 0 ∧ (s.hart 0).pc.toNat < 2 ^ 51 ∧ pkgOf (s.hart 0).pc.toNat = s.boot.pkg ∧ offOf (s.hart 0).pc.toNat + 4 ≤ tierEnd ∧
     closedStripe (s.stripe (offOf (s.hart 0).pc.toNat)) = false ∧ s.poisoned (offOf (s.hart 0).pc.toNat) 4 = false ∧
     decodeHost (BitVec.ofNat 32 (s.wordAt (offOf (s.hart 0).pc.toNat) 4)) = some .txClose) := by decide +kernel

theorem wit_EveryInstructionAnswers :
    ((fieldsOfInstr (.iadd false 5#8 6#8 7#8)).isSome = true ∧ (withGroup id).ctx.isSome = true) ∧
    ((fieldsOfInstr .txClose).isSome = false ∧ Instr.txClose.isEvent = false ∧ (hart id).turn.cur = some (.hart 1)) ∧ Instr.powerGood.isEvent = true := by
  decide

theorem wit_DecodeOfEncode :
    (Instr.wellFormed (.cvtf true 0xFF#8 0xFF#8 4#4) = true ∧ (encode (.cvtf true 0xFF#8 0xFF#8 4#4)).isSome = true) ∧
    (Instr.wellFormed (.txOpen 31#5) = true ∧ (encode (.txOpen 31#5)).isSome = true) ∧ (decodeDevice 0#24 0x10050607#32).toOption.isSome = true := by
  decide

theorem wit_StepKeepsMemoryCanonical : Memory.wf (placed 0x10050607#32).ms.mem = true ∧ ∃ t, step (placed 0x10050607#32) = .next t :=
  ⟨by decide +kernel, _, rfl⟩

/-! Witnesses of the clauses on halts, ends, resets, links and turns. -/

theorem wit_TrapInstructionResults_single :
    let s := handling id id
    s.ctx = some (ctx s) ∧ (ctx s).single = true ∧ notInHandler .exit = true ∧ notInHandler .rett = false := ⟨rfl, rfl, rfl, rfl⟩

theorem wit_StatusRegisterResults_first : (ctx (withGroup id)).split.issued = none ∧ (0x01#16).toNat < 0x1A := by decide

theorem wit_HandlerInstructionResults_replaced :
    (∃ g, FMap.find (returning 0x4A060204#32 0x10000 [] 0#64).groups 0 = some g ∧ (g.fault.map FaultInfo.replaceable).getD false = true) ∧
    (∃ g, FMap.find (returning 0x4F060204#32 0x10000 [] 0#64).groups 0 = some g ∧ (g.fault.map FaultInfo.replaceable).getD false = false) := ⟨⟨_, rfl, by decide⟩, _, rfl, by decide⟩

/-- A handler that has the fault of command 5 of its group. -/
def engineReturning (skip : BitVec 64) : State :=
  let s := handling (fun g => { g with fault := some { fault 0x60000801#32 1#64 with engine := some 5 } }) (fun h => { h with skip := skip })
  queued (s.modCore 0 (fun c => c.putTrap 0x10 (bytesLE 8 0x10000))) [{ command 1 [] with started := true, stopped := true }]

theorem wit_ReturnFromException_engine :
    let s := engineReturning 1#64
    (∃ g, FMap.find s.groups 0 = some g ∧ g.ejectDue = 0#64 ∧ g.engFaults = [] ∧ (g.fault.map (fun f => f.engine)) = some (some 5) ∧ (g.fault.map (fun f => f.txAborted)) = some 0#64) ∧
    (s.command (coreOf 0) 5).isSome = true ∧ resumeOf s = 0x10000 ∧ NothingToFlush s (ctx s) := by
  refine ⟨⟨_, rfl, rfl, rfl, rfl, rfl⟩, rfl, by decide, fun p => (nofun : Wait.none ≠ Wait.unreached p), ?_⟩
  intro g h
  cases h
  exact ⟨rfl, rfl⟩

theorem wit_PowerAndRepairEvents_begin :
    let s := cored (fun c => { c with scan := true, scanFrom := none })
    (∃ c, FMap.find s.cores 0 = some c ∧ c.scan = true ∧ c.scanFrom = none) ∧ ({ s with blocks := [], groups := [] } : State).coreEmpty 0 = true := ⟨⟨_, rfl, rfl, rfl⟩, by decide⟩

/-- The grid of `ending` at a stage of its end. -/
def atStage (n : Nat) (f : LaunchRec → LaunchRec) : State :=
  { ending f none with grids := [(0, { placeGrid with lrec := f placeGrid.lrec, ended := 1, stage := n, tstart := some 1 })] }

theorem wit_CompletionAndCallEvents_stages :
    (let s := atStage 1 (fun r => { r with crec := 0x50000 })
     ∃ g, FMap.find s.grids 0 = some g ∧ g.stage = 1 ∧ g.written = [] ∧ g.flush = [] ∧ g.lrec.crec ≠ 0 ∧
       (unitWrite (s.whoVf g.vf) g.lrec.crec (completionBytes g.lrec 0 0 1 g.tend 0 0 0 0) s).1.toOption = some ()) ∧
    (let s := atStage 2 (fun r => { r with flags := 2, sobj := 0x50000, sinc := 1 })
     ∃ g, FMap.find s.grids 0 = some g ∧ g.stage = 2 ∧ (s.vf g.vf).resetting = false ∧ bitAt g.lrec.flags 1 = true ∧ g.err = none ∧
       (unitSignal (s.whoVf g.vf) g.lrec.sobj g.lrec.sinc s).1.toOption = some ()) ∧
    (let s := { atStage 1 id with grids := [(0, { placeGrid with ended := 1, stage := 1, flush := [(9, 5)] })] }
     ∃ g, FMap.find s.grids 0 = some g ∧ g.stage ≠ 0 ∧ g.written = [] ∧ g.flush ≠ []) ∧
    (∃ g, FMap.find (atStage 2 id).grids 0 = some g ∧ bitAt g.lrec.flags 1 = false ∧ 2 ≤ g.stage) ∧
    (∃ g, FMap.find base.grids 0 = some g ∧ g.stage = 0 ∧ base.gridDone 0 g = false) := by
  refine ⟨⟨_, rfl, rfl, rfl, rfl, by decide, by decide +kernel⟩, ⟨_, rfl, rfl, rfl, rfl, rfl, by decide +kernel⟩, ⟨_, rfl, by decide, rfl, by decide⟩, ⟨_, rfl, rfl, by decide⟩,
    _, rfl, rfl, by decide⟩

theorem wit_ConfigurationCommandEvents_late :
    (let s := { base with tick := 3500000, vfs := [(0, { Vf.reset with assigned := true, resetting := true })] }
     (s.vf 0).resetting = true ∧ s.grids.any (fun q => decide (q.2.vf = 0)) = true ∧ (s.vf 0).resetAt + 3500000 ≤ s.tick ∧
     ∀ q ∈ s.grids, q.2.vf = 0 → q.2.written = [] ∧ q.2.flush = []) ∧
    (let s := { base with tick := 3499999, vfs := [(0, { Vf.reset with assigned := true, resetting := true })] }
     s.tick < (s.vf 0).resetAt + 3500000) := by decide

/-- A switch under way whose outgoing VF has a block on die 0. -/
def leaving (area : Bool) : State :=
  let s := withGroup id
  let s := if area then { s with ms := (switching (some (under [] false 0)) 0).ms } else s
  s.modPart 0 (fun p => { p with pclus := 1 + 2 ^ 16, stbase := if area then 0x800 else 0, switch := some (under [] false 0), period := 10 })

theorem wit_PlacementAndSwitchEvents_leaves :
    let leaves := fun (s : State) (b : Block) => b.saved = false ∧ dieOf b.core = 0 ∧ ∃ g, FMap.find s.grids b.grid = some g ∧ g.vf = 0
    (let s := leaving true
     s.outgoing 0 = some 0 ∧ s.dieQuiet 0 0 = true ∧ (s.saveArea 0 (s.part 0).running).isSome = true ∧ FMap.rising 0 s.blocks = true ∧ ∃ b, FMap.find s.blocks 0 = some b ∧ leaves s b ∧ b.gids = [0]) ∧
    (let s := leaving false
     s.saveArea 0 (s.part 0).running = none ∧ s.dieQuiet 0 0 = true ∧ ∃ b, FMap.find s.blocks 0 = some b ∧ leaves s b) :=
  ⟨⟨rfl, by decide, by decide +kernel, rfl, _, rfl, ⟨rfl, rfl, _, rfl, rfl⟩, rfl⟩, rfl, by decide, _, rfl, rfl, rfl, _, rfl, rfl⟩

/-- A load of 4 bytes of thread 0 that waits for package 9. -/
def stranded : State :=
  withGroup (fun g => { onSplit (fun x => { x with mask := 1#64, wait := .remote 4 }) g with links := ⟨[⟨4, .load 6 false, [⟨1#64, 0, 0, 9 * 2 ^ 42, 4, false⟩], [], [], 0x4A060204#32, 0⟩], [], [], []⟩ })

theorem wit_LinkAndResponseEvents_timeout :
    (let s := stranded
     (FMap.keys s.groups).filter (fun k => s.unreachable (s.partOf k) 9) = [0] ∧ ∃ g op c, FMap.find s.groups 0 = some g ∧ g.status = .running ∧ g.openLanes (~~~0#64) = 0#64 ∧ g.links.flush = [] ∧
       g.links.remote = [op] ∧ op.reqs.any (fun q => decide (pkgOf q.pa = 9)) = true ∧ op.kind = .load 6 false ∧ op.bad = [] ∧ op.aborts = [] ∧ s.waiter 0 op = some c ∧ c.single = false ∧
       op.reqs.foldl (fun m q => m ||| q.live c) 0#64 ≠ 0#64) ∧
    (let s := flushing [(9, 5), (8, 6)]
     s.unreachable (s.partOf 0) 9 = true ∧ ∃ g, FMap.find s.groups 0 = some g ∧ (9, 5) ∈ g.links.flush ∧ g.links.remote = []) :=
  ⟨⟨by decide +kernel, _, _, _, rfl, rfl, by decide, rfl, rfl, by decide, rfl, rfl, rfl, rfl, rfl, by decide⟩, by decide +kernel, _, rfl, by decide, rfl⟩

theorem wit_LinkAndResponseEvents_reads :
    (base.vf 0).gen = 0 ∧ ¬ (1 : Nat) = (base.vf 0).gen ∧ meetsPool 0x20000 8 = false ∧ meetsPool 0xFFFFFFC00000 1 = true ∧
    (match unitReadRange (base.whoVf 0) 0x20000 8 base with
      | (.ok (b, bad), s1) => decide (b = List.replicate 8 0#8 ∧ bad = false ∧ s1.vfs = base.vfs)
      | _ => false) = true ∧
    (((base.vf 0).rodState 7).next < 5 ∧ ((base.vf 0).rodState 7).held.any (fun h => decide (h.seq = 5)) = false) ∧ base.retxPosted (base.vf 0).part 0 = false := by decide +kernel

theorem wit_EngineAndUnitEvents_far :
    (let c : Collective := { gathering 5 0 with ranks := [0, 9 + 1 * 2 ^ 16] }
     let s : State := { base with colls := [c] }
     c.part = none ∧ s.colls.find? (fun c => decide (c.id = 1)) = some c ∧ c.ended = none ∧ s.allLocal c = false ∧ s.stalePart c = false ∧
     unitProbe (s.whoVf 0) 1 c.src 1 s = (none, s) ∧ ((readFlagged (s.whoVf 0) (sectorPieces 2 c.src 1) s).1.toOption.map (fun b => b.length)) = some 1) := by
  refine ⟨rfl, rfl, rfl, by decide, by decide, by decide +kernel, by decide +kernel⟩

theorem wit_EngineAndUnitEvents_work :
    (let w : NetWork := ⟨3, 0, 1, 6, 8, 0x20000, 0, 3, none, 0⟩
     let s := { base with works := [w] }
     s.works.find? (fun w => decide (w.id = 3)) = some w ∧ w.op = 1 ∧ (unitWriteRange (s.whoVf 0) w.laddr false ((List.replicate 8 1#8).take w.len) s).1.toOption = some () ∧
     (match (unitWriteRange (s.whoVf 1) w.laddr false ((List.replicate 8 1#8).take w.len) s).1 with
       | .error (.fault _) => true
       | _ => false) = true) ∧
    (match (unitReadRange (base.whoVf 0) 0x20000 8 base).1 with
      | .ok q => !q.2
      | .error _ => false) = true := by decide +kernel

theorem wit_EngineAndUnitEvents_moves :
    (let s := moving 0
     ∃ m, s.moves = m :: [] ∧ (s.moveRange m).1.toOption = some 0 ∧
       (unitWrite (s.whoVf m.vf) (m.bobj + 8) (bytesLE 8 0) { (s.moveRange m).2 with moves := [{ m with status := some 0 }] }).1.toOption = some ()) ∧
    (let s := { moving 0 with moves := [⟨0, 0, 0x20000, 0, 0x50000, 1, some 0, some [9], []⟩] }
     ∃ m, s.moves = m :: [] ∧ m.written = some (9 :: [])) ∧
    (let s := { moving 0 with moves := [⟨0, 0, 0x20000, 0, 0x50000, 1, some 0, some [], []⟩] }
     ∃ m, s.moves = m :: [] ∧ m.written = some [] ∧ m.flush = [] ∧ (unitSignal (s.whoVf m.vf) m.bobj 1 s).1.toOption = some ()) ∧
    (let s := { moving 0 with moves := [⟨0, 0, 0x20000, 0, 0x50000, 1, some 0, some [], [(9, 5)]⟩] }
     ∃ m, s.moves = m :: [] ∧ m.written = some [] ∧ m.flush ≠ []) :=
  ⟨⟨_, rfl, by decide +kernel, by decide +kernel⟩, ⟨_, rfl, rfl⟩, ⟨_, rfl, rfl, rfl, by decide +kernel⟩, _, rfl, rfl, by decide⟩

/-- Lanes 0 and 63 wait for their turn: lane 63 has read a byte of 0x20000 that is not 0, lane 0 has written 9 at 0x20040. -/
def closing (read : Byte) : State :=
  withGroup (fun g => { onSplit (fun x => { x with mask := bothEnds, wait := .ticket }) g with
    tx := [(0, { TxLane.empty with depth := 1, home := some 0, wbuf := [(0x20040, 9#8)] }), (63, { TxLane.empty with depth := 1, home := some 0, rlog := [(0x20000, read)] })] })

theorem wit_SchedulerAndHomeEvents_turn :
    let s := closing 1#8
    (∃ g sp, FMap.find s.groups 0 = some g ∧ FMap.find g.table 0 = some sp ∧ sp.wait = .ticket ∧ g.status = .running ∧
      (∀ k, k < 64 → bothEnds.getLsbD k = true → sp.mask.getLsbD k = true ∧ (g.lane k).depth = 1 ∧ (g.lane k).home.getD s.boot.pkg = s.boot.pkg ∧
        (∀ b ∈ (g.lane k).wbuf, pkgOf b.1 = s.boot.pkg)) ∧ (∀ k, k < 64 → sp.mask.getLsbD k = true → (g.lane k).irrev = false) ∧
      (commits g.lane (threadsOf bothEnds) s.ms.mem).2 = [0]) ∧
    (∃ g, FMap.find (closing 0#8).groups 0 = some g ∧ (commits g.lane (threadsOf bothEnds) (closing 0#8).ms.mem).2 = threadsOf bothEnds) ∧
    (let s := { closing 0#8 with ms := { (closing 0#8).ms with poison := [(0x20000 / 32, true)] } }
     threadsOf (1#64 <<< 63) = [63] ∧ ∃ g, FMap.find s.groups 0 = some g ∧ ∃ b ∈ (g.lane 63).rlog, s.poisoned (offOf b.1) 1 = true) := by
  refine ⟨⟨_, _, rfl, rfl, rfl, rfl, by decide, by decide, by decide⟩, ⟨_, rfl, by decide⟩, by decide, _, rfl, (0x20000, 0#8), by decide, by decide⟩

theorem wit_SchedulerAndHomeEvents_grant :
    let s := (closing 1#8).modPart 0 (fun p => { p with lockQueue := [(0, 5)] })
    (s.part 0).lockHolder = none ∧ (s.part 0).lockQueue = (0, 5) :: [] ∧ s.partOf 0 = 0 ∧ ∃ g, FMap.find s.groups 0 = some g ∧ (g.openLanes (~~~0#64)).getLsbD 63 = true := ⟨rfl, rfl, rfl, _, rfl, by decide⟩

theorem wit_StepRunsDecodedInstruction_misaligned :
    let s := withGroup (onSplit (fun x => { x with pc := 0x10002#64 }))
    (ctx s).split.pc.toNat < 2 ^ 48 ∧ inPool (ctx s).split.pc.toNat = false ∧ (ctx s).split.pc.toNat % 4 ≠ 0 := by decide

theorem wit_StepRunsDecodedInstruction_fault :
    let s := { placed 0x10050607#32 with groups := [(0, { placeGroup with table := [(0, { sp0 with pc := 0x10002#64 })] })] }
    s.nextIssuer = some (0, .split 0 0) ∧ ∃ c, (s.startIssue 0 (.split 0 0)).ctx = some c ∧ (match ((s.startIssue 0 (.split 0 0)).fetch c).1 with
      | .fault r => decide (r.code = 0x03)
      | _ => false) = true := ⟨by decide +kernel, _, rfl, by decide +kernel⟩

end Sys2Proof.Tests
end

