-- ==== Sys2Proof/Proofs/IntegerResults.lean ====
section
/-! SUPPORT. The integer instructions of chapter 11: each element function of the model against the
exact result that R344 to R347 name, and the two statements on instructions of two sources. -/

namespace Sys2Proof.Machine

open Sys2Proof.Claims

/-! Elements (R272 to R274). -/

theorem field_lt (x lo w : Nat) : field x lo w < 2 ^ w := Nat.mod_lt _ (Nat.two_pow_pos w)

/-- Reading as two's complement keeps a number modulo 2^w (R273). -/
theorem toSigned_emod (w x : Nat) : toSigned w x % (2 ^ w : Nat) = (x % 2 ^ w : Nat) := by
  unfold toSigned
  split
  · rw [← Int.natCast_emod, Nat.mod_mod]
  · rw [Int.sub_emod_right, ← Int.natCast_emod, Nat.mod_mod]

/-- So does reading as an element of either signedness (R272). -/
theorem intElem_emod (signed : Bool) (w x : Nat) : intElem signed w x % (2 ^ w : Nat) = (x % 2 ^ w : Nat) := by
  cases signed
  · rfl
  · exact toSigned_emod w x

/-- Two elements of one value are the same element. -/
theorem intElem_injective {signed : Bool} {w x y : Nat} (hx : x < 2 ^ w) (hy : y < 2 ^ w)
    (h : intElem signed w x = intElem signed w y) : x = y := by
  have hm : ((x % 2 ^ w : Nat) : Int) = (y % 2 ^ w : Nat) := by rw [← intElem_emod signed, h, intElem_emod]
  rwa [Nat.mod_eq_of_lt hx, Nat.mod_eq_of_lt hy, Int.natCast_inj] at hm

/-- The image of a wrapped integer is the integer modulo 2^w (R274). -/
theorem ofSigned_wrapInt (signed : Bool) (w : Nat) (x : Int) : ofSigned w (wrapInt signed w x) = ofSigned w x := by
  have hw : wrapInt signed w x = intElem signed w (ofSigned w x) := rfl
  have hpos : (0 : Int) < (2 ^ w : Nat) := Int.natCast_pos.2 (Nat.two_pow_pos w)
  have hlt : ofSigned w x < 2 ^ w := (Int.toNat_lt (Int.emod_nonneg x (Int.ne_of_gt hpos))).2 (Int.emod_lt_of_pos x hpos)
  rw [hw, ofSigned, intElem_emod, Nat.mod_eq_of_lt hlt, Int.toNat_natCast]

/-- The element that holds fixi of an exact integer is the integer narrowed (R274, R301). -/
theorem ofSigned_fixInt (isat signed : Bool) (w : Nat) (x : Int) :
    ofSigned w (fixInt isat signed w x) = narrow isat signed w x := by
  cases isat
  · exact ofSigned_wrapInt signed w x
  · rfl

/-- The exact integer operations of R344 narrow their result. -/
theorem intArith_eq_narrow (op : Int → Int → Int → Int) (isat signed : Bool) (w x y z : Nat) :
    intArith op isat signed w x y z = narrow isat signed w (op (intElem signed w x) (intElem signed w y) (intElem signed w z)) :=
  ofSigned_fixInt isat signed w _

/-- IDIV gives all ones for a zero divisor, else the narrowed quotient (R345). -/
theorem elemDiv_eq_narrow (isat signed : Bool) (w x y : Nat) :
    elemDiv isat signed w x y =
      if y = 0 then 2 ^ w - 1 else narrow isat signed w (Int.tdiv (intElem signed w x) (intElem signed w y)) := by
  rw [elemDiv, ofSigned_fixInt]
  rfl

/-- IMIN and IMAX choose by the order of the values; where the values are equal so are the elements (R344). -/
theorem elemMin_eq_ite (takeMax : Bool) {signed : Bool} {w x y : Nat} (hx : x < 2 ^ w) (hy : y < 2 ^ w) :
    elemMin takeMax signed w x y =
      if intElem signed w x ≤ intElem signed w y then bif takeMax then y else x else bif takeMax then x else y := by
  rcases Int.lt_trichotomy (intElem signed w x) (intElem signed w y) with hlt | heq | hgt
  · cases takeMax <;> simp [elemMin, hlt, Int.le_of_lt hlt]
  · simp [elemMin, intElem_injective hx hy heq]
  · cases takeMax <;> simp [elemMin, Int.not_le.2 hgt, Int.not_lt.2 (Int.le_of_lt hgt)]

/-- A comparison gives all ones where its relation holds between the values (R347). -/
theorem elemCmp_decide (R : Int → Int → Prop) [DecidableRel R] (signed : Bool) (w x y : Nat) :
    elemCmp (fun v v' => decide (R v v')) signed w x y = if R (intElem signed w x) (intElem signed w y) then 2 ^ w - 1 else 0 := by
  simp [elemCmp, ones]

/-- An element-wise computation without draws depends on its function at elements alone (R273). -/
theorem elemMap_congr {et : Nat} {f g : Nat → Nat → Nat → Nat → Nat}
    (h : ∀ x y z, x < 2 ^ etypeWidth et → y < 2 ^ etypeWidth et → f 0 x y z = g 0 x y z) (a b d : DWord) :
    elemMap et [] f a b d = elemMap et [] g a b d := by
  simp only [elemMap]
  congr 1
  exact List.map_congr_left fun i _ => h _ _ _ (field_lt ..) (field_lt ..)

/-! Instructions by class (R342). -/

/-- An operation that need not wait need not wait where it touches no accumulator register (R172). -/
theorem mustWait_false {c : Ctx} {touch : Bool} (h : c.mustWait touch = false) : c.mustWait false = false := by
  cases touch with
  | false => exact h
  | true =>
    rw [Ctx.mustWait, Bool.true_or, Bool.and_true] at h
    rw [Ctx.mustWait, h, Bool.false_and]

/-- Valid operands d, a, b leave d, a valid. -/
theorem issues_opsDA {s : State} {c : Ctx} {p : Bool} {d a b : BitVec 8} (h : Issues s c (opsDAB p d a b)) :
    Issues s c (opsDA p d a) := by
  obtain ⟨hctx, hok, hwait⟩ := h
  have hsub : ∀ o ∈ opsDA p d a, o ∈ opsDAB p d a b := fun o ho => List.mem_append_left [(⟨.srcXi, p, b⟩ : Opnd)] ho
  refine ⟨hctx, List.all_eq_true.2 fun o ho => List.all_eq_true.1 hok o (hsub o ho), ?_⟩
  cases hany : (opsDA p d a).any Opnd.touches with
  | false => exact mustWait_false hwait
  | true =>
    obtain ⟨o, ho, htouches⟩ := List.any_eq_true.1 hany
    rwa [List.any_eq_true.2 ⟨o, hsub o ho, htouches⟩] at hwait

/-- A register instruction without draws yields what its computation gives in the issuing context, whatever it
would give in another one. -/
theorem yields_of_run {i : Instr} {m : State → Ctx → Done} {s : State} {c : Ctx} {ops : List Opnd} {u etOk wide : Bool} {d : BitVec 8}
    {run : Ctx → List (Nat × DWord) × Word} {g : Nat → List Nat → DWord} {h : Nat → DWord}
    (hx : exec i s = issue i true m s) (hm : m s c = vIssue etOk ops wide d run s c) (hrun : run c = c.compute u 0 g)
    (het : etOk = true) (hi : Issues s c ops) (hg : ∀ t, g (source c u t) [] = h t) : Yields i s c wide d h := by
  have hcongr : vIssue etOk ops wide d run s c = vIssue etOk ops wide d (fun c' => c'.compute u 0 g) s c := by
    simp only [vIssue, hrun]
  exact yields_of_vIssue hx (hm.trans hcongr) het hi (fun _ => rfl) hg

/-- An element-wise instruction of two sources yields g, where its function is g on elements (R273). -/
theorem yields_of_elemMap {i : Instr} {m : State → Ctx → Done} {s : State} {c : Ctx} {u etOk : Bool} {d a b : BitVec 8}
    {f : Ctx → Nat → Nat → Nat → Nat} {g : Nat → Nat → Nat → Nat}
    (hx : exec i s = issue i true m s)
    (hm : m s c = vIssue etOk (opsDAB (etypeWide c.etype) d a b) (etypeWide c.etype) d (fun c' => c'.compute u 0 (fun t _ =>
      elemMap c.etype [] (fun _ => f c')
        (c'.img (etypeWide c.etype) t a) (c'.img (etypeWide c.etype) t b) (c'.img (etypeWide c.etype) t d))) s c)
    (het : etOk = true) (hi : Issues s c (opsDAB (etypeWide c.etype) d a b))
    (hfg : ∀ x y z, x < 2 ^ etypeWidth c.etype → y < 2 ^ etypeWidth c.etype → f c x y z = g x y z) :
    Yields i s c (etypeWide c.etype) d (typedResult c u d a b g) :=
  yields_of_run hx hm rfl het hi fun _ => elemMap_congr (f := fun _ => f c) (g := fun _ => g) hfg _ _ _

/-- A typed instruction of two sources yields g, where its element function is g on elements (R344). -/
theorem yields_of_vTyped {i : Instr} {s : State} {c : Ctx} {u : Bool} {d a b : BitVec 8}
    {f : Bool → Bool → Nat → Nat → Nat → Nat → Nat} {g : Nat → Nat → Nat → Nat}
    (hx : exec i s = issue i true (vTyped u d a b f) s) (het : typedOk c.etype = true)
    (hi : Issues s c (opsDAB (etypeWide c.etype) d a b))
    (hfg : ∀ x y z, x < 2 ^ etypeWidth c.etype → y < 2 ^ etypeWidth c.etype →
      f (modeIsat c.regs.mode) (etypeSigned c.etype) (etypeWidth c.etype) x y z = g x y z) :
    Yields i s c (etypeWide c.etype) d (typedResult c u d a b g) :=
  yields_of_elemMap (f := fun c' => f (modeIsat c'.regs.mode) (etypeSigned c.etype) (etypeWidth c.etype)) hx rfl het hi hfg

/-- SEL takes each element by the old element of d, under every etype (R347). -/
theorem sel_yields {s : State} {c : Ctx} (u : Bool) {d a b : BitVec 8} (hi : Issues s c (opsDAB (etypeWide c.etype) d a b)) :
    Yields (.sel u d a b) s c (etypeWide c.etype) d (typedResult c u d a b (fun x y z => if z = 0 then y else x)) := by
  have hx : exec (.sel u d a b) s = execSel u d a b s := rfl
  exact yields_of_elemMap (f := fun _ x y z => if z = 0 then y else x) hx rfl rfl hi (fun _ _ _ _ _ => rfl)

/-- A width-following instruction of two sources yields its function of the whole images (R348). -/
theorem yields_of_vWidth {i : Instr} {s : State} {c : Ctx} {u : Bool} {d a b : BitVec 8} {f : DWord → DWord → DWord}
    (hx : exec i s = issue i true (vWidth u d a b f) s) (hi : Issues s c (opsDAB (etypeWide c.etype) d a b)) :
    Yields i s c (etypeWide c.etype) d
      (fun t => f (c.img (etypeWide c.etype) (source c u t) a) (c.img (etypeWide c.etype) (source c u t) b)) := by
  have hm : vWidth u d a b f s c = vIssue true (opsDAB (etypeWide c.etype) d a b) (etypeWide c.etype) d (fun c' => c'.compute u 0
      (fun t _ => f (c'.img (etypeWide c.etype) t a) (c'.img (etypeWide c.etype) t b))) s c := rfl
  exact yields_of_run hx hm rfl rfl hi fun _ => rfl

/-- A width-following instruction of one source yields its function of the whole image (R352). -/
theorem yields_of_vWidth1 {i : Instr} {s : State} {c : Ctx} {u : Bool} {d a : BitVec 8} {f : DWord → DWord}
    (hx : exec i s = issue i true (vWidth1 u d a f) s) (hi : Issues s c (opsDA (etypeWide c.etype) d a)) :
    Yields i s c (etypeWide c.etype) d (fun t => f (c.img (etypeWide c.etype) (source c u t) a)) := by
  have hm : vWidth1 u d a f s c = vIssue true (opsDA (etypeWide c.etype) d a) (etypeWide c.etype) d (fun c' => c'.compute u 0
      (fun t _ => f (c'.img (etypeWide c.etype) t a))) s c := rfl
  exact yields_of_run hx hm rfl rfl hi fun _ => rfl

end Sys2Proof.Machine

namespace Sys2Proof.Proofs

open Sys2Proof.Machine Sys2Proof.Claims

/-- Settles O1: the instructions share `vTyped`, and each element function is its rule's on elements. -/
theorem typedIntegerResults : Obligations.TypedIntegerResults := by
  unfold Obligations.TypedIntegerResults
  intro s c u d a b het hi
  refine ⟨?iadd, ?isub, ?imul, ?imad, ?imulh, ?idiv, ?imin, ?imax, ?shl, ?shr, ?sar, ?iseq, ?isne, ?islt, ?isle⟩
  case iadd => exact yields_of_vTyped rfl het hi fun x y z _ _ => intArith_eq_narrow (fun v v' _ => v + v') ..
  case isub => exact yields_of_vTyped rfl het hi fun x y z _ _ => intArith_eq_narrow (fun v v' _ => v - v') ..
  case imul => exact yields_of_vTyped rfl het hi fun x y z _ _ => intArith_eq_narrow (fun v v' _ => v * v') ..
  case imad => exact yields_of_vTyped rfl het hi fun x y z _ _ => intArith_eq_narrow (fun v v' v'' => v * v' + v'') ..
  case imulh => exact yields_of_vTyped rfl het hi fun x y _ _ _ => rfl
  case idiv => exact yields_of_vTyped rfl het hi fun x y _ _ _ => elemDiv_eq_narrow ..
  case imin => exact yields_of_vTyped rfl het hi fun x y _ hx hy => elemMin_eq_ite false hx hy
  case imax => exact yields_of_vTyped rfl het hi fun x y _ hx hy => elemMin_eq_ite true hx hy
  case shl => exact yields_of_vTyped rfl het hi fun x n _ _ _ => rfl
  case shr => exact yields_of_vTyped rfl het hi fun x n _ _ _ => rfl
  case sar => exact yields_of_vTyped rfl het hi fun x n _ _ _ => rfl
  case iseq => exact yields_of_vTyped rfl het hi fun x y _ _ _ => elemCmp_decide (· = ·) ..
  case isne => exact yields_of_vTyped rfl het hi fun x y _ _ _ => (elemCmp_decide (· ≠ ·) ..).trans (ite_not ..)
  case islt => exact yields_of_vTyped rfl het hi fun x y _ _ _ => elemCmp_decide (· < ·) ..
  case isle => exact yields_of_vTyped rfl het hi fun x y _ _ _ => elemCmp_decide (· ≤ ·) ..

/-- Settles O3: MOV and NOT issue on fewer operands, and the others on the very ones of the premise. -/
theorem widthFollowingResults : Obligations.WidthFollowingResults := by
  unfold Obligations.WidthFollowingResults
  intro s c u d a b hi
  have hi1 : Issues s c (opsDA (etypeWide c.etype) d a) := issues_opsDA hi
  refine ⟨?and, ?or, ?xor, ?andn, ?mov, ?not, sel_yields u hi⟩
  case and => exact yields_of_vWidth (f := fun x y => x &&& y) rfl hi
  case or => exact yields_of_vWidth (f := fun x y => x ||| y) rfl hi
  case xor => exact yields_of_vWidth (f := fun x y => x ^^^ y) rfl hi
  case andn => exact yields_of_vWidth (f := fun x y => x &&& ~~~y) rfl hi
  case mov => exact yields_of_vWidth1 (f := fun x => x) rfl hi1
  case not => exact yields_of_vWidth1 (f := fun x => ~~~x) rfl hi1

end Sys2Proof.Proofs
end

