-- ==== Sys2Proof/Proofs/GridMode.lean ====
section
/-! SUPPORT. Grid mode (R436, R437, R452): what a split's issue leaves of the state outside its group, what its
group holds then, and the statement on ENTG, EXTG and GSTAT. -/

namespace Sys2Proof.Machine

open Sys2Proof.Claims

/-! One word in every thread of a mask (R393). -/

/-- A run of one word is the register that the specifier names (R161). -/
theorem runAfter_singleton {main : Bool} {d : BitVec 8} {k : Nat} (hd : specOf d = if main then .v k else .o k)
    (x : Word) (n : Nat) (old : Word) : runAfter main d [x] n old = if n = k then x else old := by
  by_cases hn : n = k
  · cases main <;> simp [runAfter, hd, hn]
  · have hout : ¬ (k ≤ n ∧ n < k + [x].length) := by
      rw [List.length_singleton]
      omega
    cases main <;> simp only [runAfter, hd, hn, hout, if_true, if_false, and_false, Bool.false_eq_true]

/-- A 32-bit write, read back in the main file (R161). -/
theorem Regs.getV_write32 (r : Regs) (d : BitVec 8) (x : Word) {t u : Nat} (ht : t < 64) (hu : u < 64) (n : Nat) :
    (r.write32 t d x).getV n u = if u = t then runAfter true d [x] n (r.getV n u) else r.getV n u := by
  cases hd : specOf d with
  | v k =>
    rw [runAfter_singleton (main := true) hd]
    by_cases hn : n = k <;> simp [Regs.write32, Regs.getV_setV, hd, ht, hu, hn]
  | _ => simp [Regs.write32, runAfter, hd]

/-- The same in the operand file. -/
theorem Regs.getO_write32 (r : Regs) (d : BitVec 8) (x : Word) {t u : Nat} (ht : t < 64) (hu : u < 64) (n : Nat) :
    (r.write32 t d x).getO n u = if u = t then runAfter false d [x] n (r.getO n u) else r.getO n u := by
  cases hd : specOf d with
  | o k =>
    rw [runAfter_singleton (main := false) hd]
    by_cases hn : n = k <;> simp [Regs.write32, Regs.getO_setO, hd, ht, hu, hn]
  | _ => simp [Regs.write32, runAfter, hd]

/-- A 32-bit write that updates no latch leaves the latches and the modes. -/
theorem Regs.write32_rest (r : Regs) (t : Nat) (d : BitVec 8) (x : Word) :
    ((r.write32 t d x).l, (r.write32 t d x).mode, (r.write32 t d x).cvmode) = (r.l, r.mode, r.cvmode) := by
  unfold Regs.write32
  cases specOf d <;> rfl

/-- Writes for the threads of a mask, each of which changes what its own thread reads, change it once for each thread of the mask. -/
theorem foldl_threadsOf {β : Type} (get : Regs → β) (write : Regs → Nat → Regs) (after : β → β) {u : Nat} (hu : u < 64)
    (hget : ∀ r t, t < 64 → get (write r t) = if u = t then after (get r) else get r) (m : BitVec 64) (r : Regs) :
    get ((threadsOf m).foldl write r) = if m.getLsbD u then after (get r) else get r := by
  have hlist : ∀ ts : List Nat, ts.Nodup → (∀ t ∈ ts, t < 64) → ∀ r, get (ts.foldl write r) = if u ∈ ts then after (get r) else get r := by
    intro ts
    induction ts with
    | nil => simp
    | cons t ts ih =>
      intro hnodup h64 r
      obtain ⟨hnot, hnodup⟩ := List.nodup_cons.1 hnodup
      rw [List.foldl_cons, ih hnodup (fun k hk => h64 k (List.mem_cons_of_mem _ hk)), hget r t (h64 t List.mem_cons_self)]
      by_cases hut : u = t
      · simp [hut, hnot]
      · simp [hut]
  rw [hlist _ (threadsOf_nodup m) fun t ht => ((mem_threadsOf m t).1 ht).1]
  simp [mem_threadsOf, hu]

/-- Every thread of the mask receives the word, whatever the guard (R393). -/
theorem Ctx.put32_received (c : Ctx) (d : BitVec 8) (x : Word) :
    Received c.regs c.split.mask d (fun _ => [x]) (c.put32 d x).regs := by
  have hrest := foldl_keep (fun r : Regs => (r.l, r.mode, r.cvmode)) (fun r t => r.write32 t d x)
    (fun r t => r.write32_rest t d x) (threadsOf c.split.mask) c.regs
  simp only [Prod.mk.injEq] at hrest
  refine ⟨fun u n hu => ?main, fun u n hu => ?operand, hrest⟩
  case main =>
    exact foldl_threadsOf (fun r => r.getV n u) (fun r t => r.write32 t d x) (runAfter true d [x] n) hu
      (fun r t ht => r.getV_write32 d x ht hu n) c.split.mask c.regs
  case operand =>
    exact foldl_threadsOf (fun r => r.getO n u) (fun r t => r.write32 t d x) (runAfter false d [x] n) hu
      (fun r t ht => r.getO_write32 d x ht hu n) c.split.mask c.regs

/-! The end of a split's issue, as a change of its group alone. -/

theorem FMap.insert_insert {α : Type} (m : FMap α) (k : Nat) (x y : α) :
    FMap.insert (FMap.insert m k x) k y = FMap.insert m k y := by
  induction m with
  | nil => simp [FMap.insert]
  | cons q r ih =>
    obtain ⟨j, z⟩ := q
    simp only [FMap.insert]
    split
    · simp [FMap.insert]
    · split
      · simp [FMap.insert]
      · simp [FMap.insert, *]

@[simp] theorem State.setGroup_setGroup (s : State) (k : Nat) (g g' : Group) : (s.setGroup k g).setGroup k g' = s.setGroup k g' := by
  simp [State.setGroup, FMap.insert_insert]

@[simp] theorem State.find_setGroup (s : State) (k : Nat) (g : Group) : FMap.find (s.setGroup k g).groups k = some g :=
  FMap.find_insert_same s.groups k g

theorem State.modGroup_of_find {s : State} {k : Nat} {g : Group} (hg : FMap.find s.groups k = some g) (f : Group → Group) :
    s.modGroup k f = s.setGroup k (f g) := by
  rw [State.modGroup, hg]

/-- The group that holds what a context of its split at entry e says. -/
def Group.withCtx (g : Group) (e : Nat) (c : Ctx) : Group :=
  { g with regs := { c.regs with mode := c.keepMode.getD c.regs.mode }, srseed := c.seed, table := FMap.insert g.table e c.split }

/-- Writing a split's context back changes its group alone. -/
theorem State.putCtx_of_find {s : State} {c : Ctx} {k e : Nat} {g : Group} (hwho : c.who = .split k e)
    (hg : FMap.find s.groups k = some g) : s.putCtx c = s.setGroup k (g.withCtx e c) := by
  simp only [State.putCtx, hwho, State.modGroup_of_find hg]
  rfl

/-- The note of an instruction's end changes no more than the group's last split and its spin detector (R140, R143). -/
theorem State.noteEnd_of_find {s : State} (c0 : Ctx) {c : Ctx} {k e : Nat} {g : Group} (hwho : c.who = .split k e)
    (hg : FMap.find s.groups k = some g) :
    ∃ last spin, s.noteEnd c0 c = s.setGroup k { g with lastSplit := last, spin := spin } := by
  simp only [State.noteEnd, hwho, State.modGroup_of_find hg]
  split
  · exact ⟨_, _, rfl⟩
  · refine ⟨g.lastSplit, (g.noteChange (regsChanged c0.regs c.regs)).spin, congrArg (s.setGroup k) ?_⟩
    unfold Group.noteChange
    split <;> rfl

/-- A retirement of a split changes its group alone. -/
theorem State.retire_of_find {s : State} (c0 : Ctx) {c : Ctx} {k e : Nat} {g : Group} (hwho : c.who = .split k e)
    (hg : FMap.find s.groups k = some g) (npc : BitVec 64) :
    ∃ last spin, s.retire c0 c npc = s.setGroup k { g.withCtx e (c.advance npc) with lastSplit := last, spin := spin } := by
  have hadvance : (c.advance npc).who = .split k e := hwho
  obtain ⟨last, spin, hnote⟩ := State.noteEnd_of_find c0 hwho (State.find_setGroup s k (g.withCtx e (c.advance npc)))
  refine ⟨last, spin, ?_⟩
  rw [State.retire, State.putCtx_of_find hadvance hg, hnote, State.setGroup_setGroup]

/-- A context outside single-lane mode is of a split of its group. -/
theorem who_of_ctx {s : State} {c : Ctx} (hctx : s.ctx = some c) (hs : c.single = false) : c.who = .split c.gid c.entry := by
  unfold State.ctx State.ctxOf at hctx
  split at hctx
  case h_1 =>
    split at hctx
    · split at hctx <;> cases hctx
      rfl
    · cases hctx
  case h_2 =>
    have hhandler : c.single = true := by
      split at hctx
      · split at hctx <;> cases hctx
        rfl
      · cases hctx
    rw [hhandler] at hs
    cases hs
  case h_3 => cases hctx

/-- A change of the issuer's group leaves everything else. -/
theorem onlyIssuer_setGroup (s : State) (c : Ctx) (g : Group) : OnlyIssuer s c (s.setGroup c.gid g) :=
  ⟨rfl, fun _ hk => FMap.find_insert_other s.groups (Ne.symm hk) g, fun _ _ => rfl⟩

/-- A group that holds a context lets its split read it back. -/
theorem holds_setGroup (s : State) {c : Ctx} {k e : Nat} (hwho : c.who = .split k e) {g : Group} {regs : Regs} {seed : Word} {sp : Split}
    (hregs : g.regs = { regs with mode := c.keepMode.getD regs.mode }) (hseed : g.srseed = seed)
    (hsplit : FMap.find g.table e = some sp) : Holds (s.setGroup k g) c regs seed sp := by
  refine ⟨groupCtx g k e sp, ?_, ?_, hseed, rfl⟩
  · simp only [State.ctxOf, hwho, State.find_setGroup, hsplit]
  · simp only [groupCtx, settled, hregs]

/-- A retirement after a change of the group: the issuer goes on, and the group is in the mode that the change has left it in. -/
theorem goesOn_of_retire {s : State} {c : Ctx} (hwho : c.who = .split c.gid c.entry) (npc : BitVec 64) (g : Group) :
    let t := (s.setGroup c.gid g).retire c c npc
    GoesOn t c c.regs c.seed npc ∧ OnlyIssuer s c t ∧ OfGroup t c.gid (fun g' => g'.grid = g.grid ∧ g'.gridOps = g.gridOps) := by
  obtain ⟨last, spin, ht⟩ := State.retire_of_find c hwho (State.find_setGroup s c.gid g) npc
  simp only [ht, State.setGroup_setGroup]
  refine ⟨?_, onlyIssuer_setGroup .., _, State.find_setGroup .., rfl, rfl⟩
  exact holds_setGroup s hwho rfl rfl (FMap.find_insert_same ..)

/-- An issuer whose condition of issue is not met waits, and nothing else changes (R136). -/
theorem waits_of_unmet {s : State} {c : Ctx} {g : Group} {w : Wait} (hwho : c.who = .split c.gid c.entry)
    (hg : FMap.find s.groups c.gid = some g) (hw : w.unmet = true) :
    OnlyIssuer s c (s.stay c c w) ∧ Holds (s.stay c c w) c c.regs c.seed { c.split with wait := w } := by
  have ht : s.stay c c w = s.setGroup c.gid (g.withCtx c.entry { c with split := { c.split with wait := w } }) := by
    rw [State.stay, if_pos hw]
    exact State.putCtx_of_find hwho hg
  rw [ht]
  exact ⟨onlyIssuer_setGroup .., holds_setGroup s hwho rfl rfl (FMap.find_insert_same ..)⟩

/-! The instructions, case by case. -/

/-- An instruction of the group, issued with its context and its group at hand. -/
theorem exec_of_withGroup {i : Instr} {f : Group → State → Ctx → Done} {s : State} {c : Ctx} {g : Group}
    (hx : exec i s = issue i false (withGroup f) s) (hctx : s.ctx = some c) (hs : c.single = false)
    (hg : FMap.find s.groups c.gid = some g) : exec i s = finish c ((encode i).getD 0#32) (f g s c) := by
  rw [hx, issue_of_ctx hctx (by simp [hs]), withGroup, hg]

section

variable {s : State} {c : Ctx} {g : Group} (hctx : s.ctx = some c) (hs : c.single = false)
  (hg : FMap.find s.groups c.gid = some g)
include hctx hs hg

/-- ENTG's end (R436). -/
theorem exec_entg : exec .entg s = finish c ((encode .entg).getD 0#32)
    (if g.ident.allot ≠ 128 ∨ g.grid then gridState s c else Done.seq (s.modGroup c.gid (fun x => { x with grid := true })) c) := by
  have hx : exec .entg s = execEntg s := rfl
  exact exec_of_withGroup hx hctx hs hg

/-- EXTG's end (R437). -/
theorem exec_extg : exec .extg s = finish c ((encode .extg).getD 0#32)
    (if !g.grid then gridState s c else if !g.gridOps.isEmpty then .stay s c .gridOps
      else Done.seq (s.modGroup c.gid (fun x => { x with grid := false })) c) := by
  have hx : exec .extg s = execExtg s := rfl
  exact exec_of_withGroup hx hctx hs hg

/-- GSTAT's end (R452). -/
theorem exec_gstat (d : BitVec 8) : exec (.gstat d) s = finish c ((encode (.gstat d)).getD 0#32)
    (if !dst32Ok c.allot d then Done.early s c fIllegalReg else if c.accWait (touchesAcc 1 d) then .stay s c .gridOps
      else Done.seq s (c.put32 d g.gstatWord)) := by
  have hx : exec (.gstat d) s = execGstat d s := rfl
  exact exec_of_withGroup hx hctx hs hg

/-- An instruction that sets the group's mode and retires: the mode is set, and nothing of the issuer's registers changes. -/
theorem setsGrid_of_seq {i : Instr} {v : Bool}
    (hx : exec i s = finish c ((encode i).getD 0#32) (Done.seq (s.modGroup c.gid (fun x => { x with grid := v })) c)) :
    ∃ t, exec i s = .next t ∧ GoesOn t c c.regs c.seed (c.split.pc + 4#64) ∧ OnlyIssuer s c t ∧
      OfGroup t c.gid (fun g' => g'.grid = v ∧ g'.gridOps = g.gridOps) := by
  rw [State.modGroup_of_find hg] at hx
  exact ⟨_, hx, goesOn_of_retire (who_of_ctx hctx hs) (c.split.pc + 4#64) { g with grid := v }⟩

end

/-- The check of grid mode raises GRID_STATE for every thread of the split (R436, R437). -/
theorem raises_of_gridState {i : Instr} {s : State} {c : Ctx}
    (hx : exec i s = finish c ((encode i).getD 0#32) (gridState s c)) : Raises i s c fGridState c.split.mask 0#64 :=
  ⟨.plain fGridState c.split.mask, rfl, rfl, rfl, hx⟩

end Sys2Proof.Machine

namespace Sys2Proof.Proofs

open Sys2Proof.Machine Sys2Proof.Claims

/-- Settles O33: the clauses are the branches of `exec_entg`, `exec_extg` and `exec_gstat`. -/
theorem gridModeResults : Obligations.GridModeResults := by
  unfold Obligations.GridModeResults
  intro s c g d hctx hs hg
  have hentg := exec_entg hctx hs hg
  have hextg := exec_extg hctx hs hg
  have hgstat := exec_gstat hctx hs hg d
  refine ⟨?enters, ?entersFaults, ?leaves, ?leavesFaults, ?waits, ?status⟩
  case enters =>
    intro hallot hgrid
    exact setsGrid_of_seq hctx hs hg (by simpa [hallot, hgrid] using hentg)
  case entersFaults =>
    intro hbad
    exact raises_of_gridState (by rwa [if_pos hbad] at hentg)
  case leaves =>
    intro hgrid hops
    exact setsGrid_of_seq hctx hs hg (by simpa [hgrid, hops] using hextg)
  case leavesFaults =>
    intro hgrid
    exact raises_of_gridState (by simpa [hgrid] using hextg)
  case waits =>
    intro hgrid hops
    have hstay : exec .extg s = .next (s.stay c c .gridOps) := by simpa [hgrid, hops, finish] using hextg
    exact ⟨_, hstay, waits_of_unmet (who_of_ctx hctx hs) hg rfl⟩
  case status =>
    intro hdst hbusy
    have hwait : c.accWait (touchesAcc 1 d) = false := hbusy
    refine ⟨(c.put32 d g.gstatWord).regs, c.put32_received d g.gstatWord, ?_⟩
    rw [hdst, hwait] at hgstat
    exact hgstat

end Sys2Proof.Proofs
end

