-- ==== Sys2Proof/Proofs/Encoding.lean ====
section
/-! SUPPORT. The encoding (R302 to R304, R316, R317, R229): a word is its fields, an instruction's fields decode to it,
and fields that decode to an instruction are its fields. -/

namespace Sys2Proof

/-! Words and bytes from their parts (R302). -/

theorem eq_ofNat_of_toNat {w n : Nat} {x : BitVec w} (h : x.toNat = n) : x = BitVec.ofNat w n := by
  rw [← h, BitVec.ofNat_toNat, BitVec.setWidth_eq]

theorem extractLsb'_one {n : Nat} (x : BitVec n) (k : Nat) : x.extractLsb' k 1 = bit1 (x.getLsbD k) := by
  apply BitVec.eq_of_getLsbD_eq
  intro i hi
  obtain rfl : i = 0 := by omega
  simp [bit1]

theorem bit1_inj {p q : Bool} : bit1 p = bit1 q ↔ p = q := by
  cases p <;> cases q <;> decide

/-- A part of a part is a part. -/
theorem extractLsb'_extractLsb' {n : Nat} (x : BitVec n) {i j k m : Nat} (h : i + k ≤ m) :
    (x.extractLsb' j m).extractLsb' i k = x.extractLsb' (j + i) k := by
  apply BitVec.eq_of_getLsbD_eq
  intro t ht
  simp [ht, show i + t < m by omega, Nat.add_assoc]

/-- A vector is two parts put together exactly where its parts are those two. -/
theorem append_eq_iff (m n : Nat) (x : BitVec m) (y : BitVec n) (z : BitVec (m + n)) :
    x ++ y = z ↔ z.extractLsb' n m = x ∧ z.extractLsb' 0 n = y := by
  constructor
  · rintro rfl
    exact ⟨BitVec.extractLsb'_append_eq_left, BitVec.extractLsb'_append_eq_right⟩
  · rintro ⟨rfl, rfl⟩
    exact (BitVec.extractLsb'_append_extractLsb'_eq_extractLsb' (by omega)).trans BitVec.extractLsb'_eq_self

/-- The same of three parts. -/
theorem append_append_eq_iff (l m n : Nat) (x : BitVec l) (y : BitVec m) (z : BitVec n) (w : BitVec (l + m + n)) :
    x ++ y ++ z = w ↔ w.extractLsb' (n + m) l = x ∧ w.extractLsb' n m = y ∧ w.extractLsb' 0 n = z := by
  rw [append_eq_iff, eq_comm (a := w.extractLsb' n (l + m)), append_eq_iff, extractLsb'_extractLsb' _ (by omega),
    extractLsb'_extractLsb' _ (by omega), and_assoc, Nat.add_zero]

/-- The parts of a byte, a half word and three bytes, as the forms cut them (R302, R303). -/
theorem byte_eq_4_4 (x y : BitVec 4) (z : BitVec 8) : x ++ y = z ↔ z.extractLsb' 4 4 = x ∧ z.extractLsb' 0 4 = y := append_eq_iff 4 4 x y z
theorem byte_eq_5_3 (x : BitVec 5) (y : BitVec 3) (z : BitVec 8) : x ++ y = z ↔ z.extractLsb' 3 5 = x ∧ z.extractLsb' 0 3 = y := append_eq_iff 5 3 x y z
theorem byte_eq_7_1 (x : BitVec 7) (p : Bool) (z : BitVec 8) : x ++ bit1 p = z ↔ z.extractLsb' 1 7 = x ∧ z.getLsbD 0 = p :=
  (append_eq_iff 7 1 x (bit1 p) z).trans (by rw [extractLsb'_one, bit1_inj])
theorem byte_eq_1_3_4 (x : BitVec 1) (y : BitVec 3) (z : BitVec 4) (w : BitVec 8) :
    x ++ y ++ z = w ↔ w.extractLsb' 7 1 = x ∧ w.extractLsb' 4 3 = y ∧ w.extractLsb' 0 4 = z := append_append_eq_iff 1 3 4 x y z w
theorem byte_eq_1_4_3 (p : Bool) (y : BitVec 4) (z : BitVec 3) (w : BitVec 8) :
    bit1 p ++ y ++ z = w ↔ w.getLsbD 7 = p ∧ w.extractLsb' 3 4 = y ∧ w.extractLsb' 0 3 = z :=
  (append_append_eq_iff 1 4 3 (bit1 p) y z w).trans (by rw [extractLsb'_one, bit1_inj])
theorem byte_eq_5_1_2 (x : BitVec 5) (p : Bool) (z : BitVec 2) (w : BitVec 8) :
    x ++ bit1 p ++ z = w ↔ w.extractLsb' 3 5 = x ∧ w.getLsbD 2 = p ∧ w.extractLsb' 0 2 = z :=
  (append_append_eq_iff 5 1 2 x (bit1 p) z w).trans (by rw [extractLsb'_one, bit1_inj])
theorem half_eq_8_8 (x y : BitVec 8) (z : BitVec 16) : x ++ y = z ↔ z.extractLsb' 8 8 = x ∧ z.extractLsb' 0 8 = y := append_eq_iff 8 8 x y z
theorem triple_eq_8_8_8 (x y z : BitVec 8) (w : BitVec 24) :
    x ++ y ++ z = w ↔ w.extractLsb' 16 8 = x ∧ w.extractLsb' 8 8 = y ∧ w.extractLsb' 0 8 = z := append_append_eq_iff 8 8 8 x y z w

/-- A word's fields are some fields exactly where it is their word (R302). -/
theorem wordOfFields_eq_iff (f : WordFields) (w : BitVec 32) : wordOfFields f = w ↔ fieldsOfWord w = f := by
  obtain ⟨u, op, d, a, b⟩ := f
  have hlow := append_append_eq_iff 16 8 8 (bit1 u ++ op ++ d) a b w
  have hhigh := append_append_eq_iff 1 7 8 (bit1 u) op d (w.extractLsb' 16 16)
  rw [extractLsb'_extractLsb' _ (by omega), extractLsb'_extractLsb' _ (by omega),
    extractLsb'_extractLsb' _ (by omega), extractLsb'_one, bit1_inj] at hhigh
  rw [eq_comm (a := w.extractLsb' (8 + 8) 16), hhigh] at hlow
  simp only [fieldsOfWord, WordFields.mk.injEq, ← and_assoc] at hlow ⊢
  exact hlow

/-! The decoder on an instruction's own fields (R316, R317). -/

theorem decodeFields_conversion (extv : BitVec 24) (u : Bool) (d a : BitVec 8) (f : BitVec 4) :
    decodeFields extv ⟨u, 64#7, d, a, 0#4 ++ f⟩ = .ok (.cvtf u d a f) ∧ decodeFields extv ⟨u, 64#7, d, a, 1#4 ++ f⟩ = .ok (.cvti u d a f) ∧
    decodeFields extv ⟨u, 64#7, d, a, 2#4 ++ f⟩ = .ok (.cvif u d a f) ∧ decodeFields extv ⟨u, 64#7, d, a, 3#4 ++ f⟩ = .ok (.cvii u d a f) ∧
    decodeFields extv ⟨u, 64#7, d, a, 4#4 ++ f⟩ = .ok (.unpk u d a f) ∧ decodeFields extv ⟨u, 64#7, d, a, 5#4 ++ f⟩ = .ok (.mxq u d a f) ∧
    decodeFields extv ⟨u, 64#7, d, a, 6#4 ++ f⟩ = .ok (.mxsc u d a f) := by
  have parts := fun k : BitVec 4 => (byte_eq_4_4 k f (k ++ f)).1 rfl
  refine ⟨?_, ?_, ?_, ?_, ?_, ?_, ?_⟩ <;> simp only [decodeFields, parts, BitVec.toNat_ofNat, Nat.reducePow, Nat.reduceMod]

theorem decodeFields_matrix (extv : BitVec 24) (z : Bool) (a b : BitVec 8) :
    decodeFields extv ⟨false, 114#7, 0#5 ++ bit1 z ++ 0#2, a, b⟩ = .ok (.gmm z a b) ∧
    decodeFields extv ⟨false, 114#7, 0#5 ++ bit1 z ++ 1#2, a, b⟩ = .ok (.gmmSparse z a b) ∧
    decodeFields extv ⟨false, 114#7, 0#5 ++ bit1 z ++ 2#2, a, b⟩ = .ok (.gmmLinked z a b) ∧
    decodeFields extv ⟨false, 114#7, 0#5 ++ bit1 z ++ 3#2, a, b⟩ = .ok (.gmmLinkedSparse z a b) ∧
    decodeFields extv ⟨false, 115#7, 0#5 ++ bit1 z ++ 0#2, a, b⟩ = .ok (.gout z a b) := by
  have parts := fun k : BitVec 2 => (byte_eq_5_1_2 0#5 z k (0#5 ++ bit1 z ++ k)).1 rfl
  refine ⟨?_, ?_, ?_, ?_, ?_⟩ <;> simp only [decodeFields, parts, BitVec.reduceToNat, if_true, and_true]

theorem decodeFields_sync (extv : BitVec 24) (o : BitVec 3) (s i : BitVec 4) :
    decodeFields extv ⟨false, 84#7, 0#8, 0#8, 0#1 ++ o ++ s⟩ = .ok (.fence o s) ∧
    decodeFields extv ⟨false, 85#7, 0#8, 0#8, s ++ i⟩ = .ok (.bar s i) ∧
    decodeFields extv ⟨false, 86#7, 0#8, 0#8, 0#4 ++ i⟩ = .ok (.barg i) := by
  have parts := fun k : BitVec 4 => (byte_eq_4_4 k i (k ++ i)).1 rfl
  refine ⟨?_, ?_, ?_⟩ <;>
    simp only [decodeFields, parts, (byte_eq_1_3_4 0#1 o s _).1 rfl, BitVec.reduceToNat, if_true, and_true]

theorem decodeFields_engineControl (extv : BitVec 24) (e : Bool) (s : BitVec 3) (b : BitVec 8) :
    decodeFields extv ⟨false, 97#7, 0#7 ++ bit1 e, 0#8, b⟩ = .ok (.ctail e b) ∧
    decodeFields extv ⟨false, 98#7, 0#5 ++ s, 0#8, b⟩ = .ok (.gres s b) ∧
    decodeFields extv ⟨false, 98#7, 1#5 ++ s, 0#8, 0#8⟩ = .ok (.gresClear s) := by
  have parts := fun k : BitVec 5 => (byte_eq_5_3 k s (k ++ s)).1 rfl
  have hne : ¬ 0#5 = 1#5 := by decide
  refine ⟨?_, ?_, ?_⟩ <;>
    simp only [decodeFields, parts, (byte_eq_7_1 0#7 e _).1 rfl, BitVec.reduceToNat, if_true, and_true, hne, if_false]

/-- A guard word is decoded where its unused bits are 0 (R304, R409). -/
theorem ok_of_command (C : Bool → BitVec 3 → Instr) (g : Bool) (s : BitVec 3) :
    let d : BitVec 8 := bit1 g ++ 0#4 ++ s
    (if false = false then if d.extractLsb' 3 4 = 0#4 then Except.ok (C (d.getLsbD 7) (d.extractLsb' 0 3)) else .error .zeroField
      else .error DecodeError.uniformMark) = .ok (C g s) := by
  intro d
  obtain ⟨hg, hzero, hs⟩ := (byte_eq_1_4_3 g 0#4 s d).1 rfl
  rw [if_pos rfl, if_pos hzero, hg, hs]

/-- What has equal fields is the same instruction. -/
theorem ok_congr {α : Type} (C : α → Instr) {x y : α} (h : x = y) : (Except.ok (C x) : Except DecodeError Instr) = .ok (C y) := by rw [h]

/-- An instruction's fields decode to it (R316, R317). -/
theorem decodeFields_of_fieldsOfInstr {i : Instr} {f : WordFields} (h : fieldsOfInstr i = some f) : decodeFields (selectExtv i) f = .ok i := by
  cases i <;> first | (cases h; rfl) | cases h
  case ext i | exth i | setm i | bra i | trap i => exact ok_congr _ ((triple_eq_8_8_8 _ _ _ i).2 ⟨rfl, rfl, rfl⟩)
  case brc u d i | call d i | limm u d i | limmh u d i | srd d i | swr d i => exact ok_congr _ ((half_eq_8_8 _ _ i).2 ⟨rfl, rfl⟩)
  case atAdd | atMin | atMax | atAnd | atOr | atXor | atXch | atCas | atInc | atAgg | atFadd =>
    simp only [selectExtv, BitVec.reduceAppend]
    rfl
  case cvtf | cvti | cvif | cvii | unpk | mxq | mxsc => simp only [decodeFields_conversion]
  case gmm | gmmSparse | gmmLinked | gmmLinkedSparse | gout => simp only [decodeFields_matrix]
  case fence o s => exact (decodeFields_sync _ o s 0#4).1
  case bar r i => exact (decodeFields_sync _ 0#3 r i).2.1
  case barg i => exact (decodeFields_sync _ 0#3 0#4 i).2.2
  case ctail e b => exact (decodeFields_engineControl _ e 0#3 b).1
  case gres s b => exact (decodeFields_engineControl _ false s b).2.1
  case gresClear s => exact (decodeFields_engineControl _ false s 0#8).2.2
  case cpy g s a => exact ok_of_command (fun g s => .cpy g s a) g s
  case gthr g s a => exact ok_of_command (fun g s => .gthr g s a) g s
  case gbag g s a => exact ok_of_command (fun g s => .gbag g s a) g s
  case sctr g s a => exact ok_of_command (fun g s => .sctr g s a) g s
  case coll g s a => exact ok_of_command (fun g s => .coll g s a) g s
  case chain g s a => exact ok_of_command (fun g s => .chain g s a) g s
  case npost g s a => exact ok_of_command (fun g s => .npost g s a) g s

/-- Fields that decode to an instruction are its fields (R302, R316, R317). -/
theorem fieldsOfInstr_of_decodeFields {extv : BitVec 24} {f : WordFields} {i : Instr} (h : decodeFields extv f = .ok i) :
    fieldsOfInstr i = some f := by
  obtain ⟨u, op, d, a, b⟩ := f
  unfold decodeFields at h
  dsimp only at h
  split at h
  case h_122 => cases h
  all_goals rename_i hop
  all_goals obtain rfl := eq_ofNat_of_toNat hop
  all_goals clear hop
  all_goals repeat' split at h
  all_goals cases h
  all_goals try rfl
  all_goals try have hsub := eq_ofNat_of_toNat ‹_›
  all_goals simp_all [fieldsOfInstr, byte_eq_4_4, byte_eq_5_3, byte_eq_7_1, byte_eq_1_3_4, byte_eq_1_4_3, byte_eq_5_1_2,
    (half_eq_8_8 a b _).1 rfl, (triple_eq_8_8_8 d a b _).1 rfl, -BitVec.getLsbD_eq_getElem]

/-! The host's words (R229). -/

theorem word_eq_12_5_8_7 (x : BitVec 12) (s : BitVec 5) (y : BitVec 8) (z : BitVec 7) (w : BitVec 32) :
    x ++ s ++ y ++ z = w ↔ w.extractLsb' 20 12 = x ∧ w.extractLsb' 15 5 = s ∧ w.extractLsb' 7 8 = y ∧ w.extractLsb' 0 7 = z := by
  rw [append_append_eq_iff 17 8 7 (x ++ s) y z w, eq_comm (a := w.extractLsb' (7 + 8) 17), append_eq_iff 12 5,
    extractLsb'_extractLsb' _ (by omega), extractLsb'_extractLsb' _ (by omega), and_assoc]

theorem word_eq_20_5_7 (x : BitVec 20) (d : BitVec 5) (z : BitVec 7) (w : BitVec 32) :
    x ++ d ++ z = w ↔ w.extractLsb' 12 20 = x ∧ w.extractLsb' 7 5 = d ∧ w.extractLsb' 0 7 = z := append_append_eq_iff 20 5 7 x d z w

theorem decodeHost_txOpen (d : BitVec 5) : decodeHost (0#20 ++ d ++ 0x0B#7) = some (.txOpen d) := by
  obtain ⟨hzero, hd, hop⟩ := (word_eq_20_5_7 0#20 d 0x0B#7 _).1 rfl
  rw [decodeHost, if_pos hop, if_pos hzero, hd]

theorem decodeHost_txDrop (s : BitVec 5) : decodeHost (0#12 ++ s ++ 0b01000000#8 ++ 0x0B#7) = some (.txDrop s) := by
  obtain ⟨w, hw⟩ : ∃ w : BitVec 32, 0#12 ++ s ++ 0b01000000#8 ++ 0x0B#7 = w := ⟨_, rfl⟩
  obtain ⟨hzero, hs, hfun, hop⟩ := (word_eq_12_5_8_7 ..).1 hw
  have hbit : w.getLsbD 13 = true := by
    have h := congrArg (fun x : BitVec 8 => x.getLsbD 6) hfun
    simpa [-BitVec.getLsbD_eq_getElem] using h
  have hopen : ¬ w.extractLsb' 12 20 = 0#20 := by
    intro h
    have h := congrArg (fun x : BitVec 20 => x.getLsbD 1) h
    simp [-BitVec.getLsbD_eq_getElem, hbit] at h
  have hclose : ¬ w = 0x0000100B#32 := by
    rintro rfl
    exact absurd hbit (by decide)
  rw [hw, decodeHost, if_pos hop, if_neg hopen, if_neg hclose, if_pos ⟨hzero, hfun⟩, hs]

theorem encode_of_decodeHost {w : BitVec 32} {i : Instr} (h : decodeHost w = some i) : encode i = some w := by
  unfold decodeHost at h
  repeat' split at h
  all_goals cases h
  case isTrue.isTrue hop hzero => exact congrArg some ((word_eq_20_5_7 ..).2 ⟨hzero, rfl, hop⟩)
  case isTrue.isFalse.isTrue hop _ hw => exact congrArg some hw.symm
  case isTrue.isFalse.isFalse.isTrue hop _ _ hdrop => exact congrArg some ((word_eq_12_5_8_7 ..).2 ⟨hdrop.1, rfl, hdrop.2, hop⟩)

/-! Both directions. -/

/-- The word of an instruction with device fields is the word of its fields. -/
theorem encode_of_fieldsOfInstr {i : Instr} {f : WordFields} (h : fieldsOfInstr i = some f) : encode i = some (wordOfFields f) := by
  cases i <;> cases h <;> rfl

/-- A host instruction's word decodes to it. -/
theorem decodeHost_of_encode {i : Instr} {w : BitVec 32} (hf : fieldsOfInstr i = none) (h : encode i = some w) : decodeHost w = some i := by
  cases i with
  | txOpen d => cases h; exact decodeHost_txOpen d
  | txClose => cases h; rfl
  | txDrop s => cases h; exact decodeHost_txDrop s
  | _ => cases hf <;> cases h

/-- A well-formed instruction's word decodes to it. -/
theorem decode_of_encode {i : Instr} {w : BitVec 32} (hwf : i.wellFormed = true) (h : encode i = some w) :
    if (fieldsOfInstr i).isSome then decodeDevice (selectExtv i) w = .ok i else decodeHost w = some i := by
  cases hf : fieldsOfInstr i with
  | some f =>
    rw [encode_of_fieldsOfInstr hf, Option.some_inj, wordOfFields_eq_iff] at h
    simp [decodeDevice, h, decodeFields_of_fieldsOfInstr hf, hwf]
  | none => exact decodeHost_of_encode hf h

/-- A device word that decodes is the word of a well-formed instruction. -/
theorem encode_of_decodeDevice {extv : BitVec 24} {w : BitVec 32} {i : Instr} (h : decodeDevice extv w = .ok i) :
    encode i = some w ∧ i.wellFormed = true := by
  unfold decodeDevice at h
  split at h
  case h_1 => cases h
  case h_2 j hj =>
    split at h <;> cases h
    case isTrue hwf => exact ⟨by rw [encode_of_fieldsOfInstr (fieldsOfInstr_of_decodeFields hj), (wordOfFields_eq_iff ..).2 rfl], hwf⟩

end Sys2Proof

namespace Sys2Proof.Proofs

/-- Settles O56: an instruction is its fields (`decodeFields_of_fieldsOfInstr` and its converse), and its fields its word. -/
theorem decodeOfEncode : Obligations.DecodeOfEncode := by
  unfold Obligations.DecodeOfEncode
  exact ⟨fun _ _ => decode_of_encode, fun _ _ _ => encode_of_decodeDevice, fun _ _ => encode_of_decodeHost⟩

end Sys2Proof.Proofs
end

