-- ==== Sys2Proof/Proofs/VectorResults.lean ====
section
/-! SUPPORT. Register instructions of chapters 11 and 12 without draws: the integer and fixed-width forms (R349 to R352)
and the float forms (R354 to R364). -/

namespace Sys2Proof.Machine

open Sys2Proof.Claims

/-! Images of sources (R161, R163). -/

@[simp] theorem lo32_zext64 (x : Word) : lo32 (zext64 x) = x := by
  apply BitVec.eq_of_getLsbD_eq
  intro i hi
  simp [lo32, zext64, hi, show i < 64 by omega]

theorem Ctx.img_true (c : Ctx) (t : Nat) (b : BitVec 8) : c.img true t b = c.regs.read64 c.xi t b := rfl

theorem Ctx.img_false (c : Ctx) (t : Nat) (b : BitVec 8) : c.img false t b = zext64 (c.regs.read32 c.xi t b) := rfl

theorem field_zero_of_lt {x w : Nat} (h : x < 2 ^ w) : field x 0 w = x := by rw [field, Nat.pow_zero, Nat.div_one, Nat.mod_eq_of_lt h]

theorem field_zext64_low5 (x : Word) : field (zext64 x).toNat 0 5 = x.toNat % 32 := by
  simp [field, zext64, BitVec.toNat_setWidth]

theorem zext64_extractLsb'_low (x : Word) : (zext64 x).extractLsb' 0 16 = x.extractLsb' 0 16 := by
  apply BitVec.eq_of_getLsbD_eq
  intro i hi
  simp [zext64, hi, show i < 64 by omega]

/-! Instructions by class (R342). -/

/-- A register instruction whose checks pass retires with its results and its seed (R319, R162). -/
theorem retires_of_vIssue {i : Instr} {single : Bool} {m : State → Ctx → Done} {s : State} {c : Ctx} {ops : List Opnd} {etOk wide : Bool}
    {d : BitVec 8} {run : Ctx → List (Nat × DWord) × Word} (hx : exec i s = issue i single m s) (hm : m s c = vIssue etOk ops wide d run s c)
    (het : etOk = true) (hi : Issues s c ops) (hs : c.single = true → single = true) :
    Retires i s c (writeResults wide d (run c).1 c.regs) (run c).2 (c.split.pc + 4#64) := by
  rw [Retires, hx, issue_of_ctx hi.1 hs, hm, vIssue_ok het hi]
  rfl

/-- One that gives each executing thread its result and takes no draw yields them. -/
theorem yields_of_results {i : Instr} {single : Bool} {m : State → Ctx → Done} {s : State} {c : Ctx} {ops : List Opnd} {etOk wide : Bool}
    {d : BitVec 8} {run : Ctx → List (Nat × DWord) × Word} {h : Nat → DWord}
    (hx : exec i s = issue i single m s) (hm : m s c = vIssue etOk ops wide d run s c) (het : etOk = true) (hi : Issues s c ops)
    (hs : c.single = true → single = true) (hrun : run c = ((threadsOf c.exec).map (fun t => (t, h t)), c.seed)) : Yields i s c wide d h := by
  have hretires := retires_of_vIssue hx hm het hi hs
  rw [hrun] at hretires
  exact ⟨_, writeResults_wrote wide d h c.exec c.regs, hretires⟩

/-- A typed instruction of one source yields g, where its element function is g on elements (R352). -/
theorem yields_of_vTyped1 {i : Instr} {s : State} {c : Ctx} {u : Bool} {d a : BitVec 8} {f : Bool → Bool → Nat → Nat → Nat} {g : Nat → Nat}
    (hx : exec i s = issue i true (vTyped1 u d a f) s) (het : typedOk c.etype = true) (hi : Issues s c (opsDA (etypeWide c.etype) d a))
    (hfg : ∀ x, f (modeIsat c.regs.mode) (etypeSigned c.etype) (etypeWidth c.etype) x = g x) :
    Yields i s c (etypeWide c.etype) d
      (fun t => elemMap c.etype [] (fun _ x _ _ => g x) (c.img (etypeWide c.etype) (source c u t) a) 0#64 0#64) := by
  have hm : vTyped1 u d a f s c = vIssue (typedOk c.etype) (opsDA (etypeWide c.etype) d a) (etypeWide c.etype) d
      (fun c' => c'.compute u 0 (fun t _ => elemMap c.etype [] (fun _ x _ _ => f (modeIsat c'.regs.mode) (etypeSigned c.etype)
        (etypeWidth c.etype) x) (c'.img (etypeWide c.etype) t a) 0#64 0#64)) s c := rfl
  exact yields_of_run hx hm rfl het hi fun t => by simp only [hfg]

/-- An instruction of fixed widths yields its function of the images (R349, R351). -/
theorem yields_of_vFixed {i : Instr} {s : State} {c : Ctx} {u pd pa pb : Bool} {d a b : BitVec 8} {f : Nat → DWord → DWord → DWord → DWord}
    {h : Nat → DWord} (hx : exec i s = issue i true (vFixed u pd pa pb d a b f) s)
    (hi : Issues s c [⟨.dst, pd, d⟩, ⟨.src, pa, a⟩, ⟨.srcXi, pb, b⟩])
    (hf : ∀ t, f c.etype (c.img pa (source c u t) a) (c.img pb (source c u t) b) (c.img pd (source c u t) d) = h t) : Yields i s c pd d h :=
  yields_of_run (etOk := true) hx rfl rfl rfl hi hf

/-- A constant-loading instruction yields its function of the old register (R350). -/
theorem yields_of_vConst {i : Instr} {s : State} {c : Ctx} {u : Bool} {d : BitVec 8} {f : DWord → DWord} {h : Nat → DWord}
    (hx : exec i s = issue i true (vConst u d f) s) (hi : Issues s c [⟨.dst, false, d⟩])
    (hf : ∀ t, f (c.img false (source c u t) d) = h t) : Yields i s c false d h :=
  yields_of_run (etOk := true) hx rfl rfl rfl hi hf

/-- IABS's exact value (R352). -/
theorem natAbs_eq_ite (v : Int) : (v.natAbs : Int) = if v < 0 then -v else v := by
  split <;> omega

/-! Float instructions (R354, R355). -/

/-- Without stochastic rounding an instruction takes no draw (R355). -/
theorem modeDraws_zero {c : Ctx} (h : modeRndCode c.regs.mode ≠ 5) (n : Nat) : modeDraws c n = 0 := if_neg h

/-- A float instruction issues as a register instruction where its etype is a float type (R354). -/
theorem vFloat_of_format {c : Ctx} {F : FloatFmt} (hF : etypeFloat c.etype = some F) (u rounds : Bool) (ops : List Opnd) (d a b : BitVec 8)
    (f : FEnv → Nat → Nat → Nat → Nat → Nat) (s : State) :
    vFloat u rounds ops d a b f s c = vIssue true ops false d (fun c' =>
      c'.compute u (if rounds then modeDraws c' (etypeCount c.etype) else 0) (fun t ds =>
        elemMap c.etype ds (fun r x y z => f (floatEnv c'.regs.mode F) r x y z) (c'.img false t a) (c'.img false t b) (c'.img false t d))) s c := by
  rw [vFloat, hF]

section

variable {i : Instr} {s : State} {c : Ctx} {u rounds : Bool} {d a b : BitVec 8} {F : FloatFmt}
  (hF : etypeFloat c.etype = some F) (hrnd : modeRndCode c.regs.mode ≠ 5)
include hF hrnd

/-- A float instruction of two sources yields its function of the elements (R354). -/
theorem yields_of_vFloat2 {f : FEnv → Nat → Nat → Nat → Nat → Nat} (hx : exec i s = issue i true (vFloat2 u rounds d a b f) s)
    (hi : Issues s c (opsDAB false d a b)) :
    Yields i s c false d (floatResult c u d a b (fun x y z => f (floatEnv c.regs.mode F) 0 x y z)) := by
  have hdraws : (if rounds then modeDraws c (etypeCount c.etype) else 0) = 0 := by rw [modeDraws_zero hrnd, ite_self]
  exact yields_of_run hx (vFloat_of_format hF ..) (congrArg (fun n => c.compute u n _) hdraws) rfl hi fun _ => rfl

/-- A float instruction of one source yields its function of the element (R360). -/
theorem yields_of_vFloat1 {f : FEnv → Nat → Nat → Nat} (hx : exec i s = issue i true (vFloat1 u rounds d a f) s)
    (hi : Issues s c (opsDA false d a)) :
    Yields i s c false d
      (fun t => elemMap c.etype [] (fun _ x _ _ => f (floatEnv c.regs.mode F) 0 x) (c.img false (source c u t) a) 0#64 0#64) := by
  have hdraws : (if rounds then modeDraws c (etypeCount c.etype) else 0) = 0 := by rw [modeDraws_zero hrnd, ite_self]
  exact yields_of_run hx (vFloat_of_format hF ..) (congrArg (fun n => c.compute u n _) hdraws) rfl hi fun _ => rfl

end

end Sys2Proof.Machine

namespace Sys2Proof.Proofs

open Sys2Proof.Machine Sys2Proof.Claims

/-- Settles O2: the instructions share `vTyped1`, and each element function is its rule's. -/
theorem unaryIntegerResults : Obligations.UnaryIntegerResults := by
  unfold Obligations.UnaryIntegerResults
  intro s c u d a het hi
  refine ⟨?ineg, ?iabs, ?clz, ?ffs, ?popc, ?brev⟩
  case ineg => exact yields_of_vTyped1 rfl het hi fun x => intArith_eq_narrow (fun v _ _ => -v) ..
  case iabs =>
    refine yields_of_vTyped1 rfl het hi fun x => ?_
    rw [intArith_eq_narrow (fun v _ _ => (v.natAbs : Int)), natAbs_eq_ite]
  case clz => exact yields_of_vTyped1 rfl het hi fun x => rfl
  case ffs => exact yields_of_vTyped1 rfl het hi fun x => rfl
  case popc => exact yields_of_vTyped1 rfl het hi fun x => rfl
  case brev => exact yields_of_vTyped1 rfl het hi fun x => rfl

/-- Settles O4: the instructions share `vFixed` and `vConst`; what remains is how a 32-bit source stands in its image. -/
theorem fixedWidthResults : Obligations.FixedWidthResults := by
  unfold Obligations.FixedWidthResults
  intro s c u d a b i
  refine ⟨fun hi => ⟨?fshl, ?prmb⟩, fun hi => ⟨?bfx, ?bfi⟩, fun hi => ⟨?iadd64, ?isub64⟩, fun hi => ⟨?ada, ?adax⟩, fun hi => ?adcmp,
    fun hi => ⟨?limm, ?limmh⟩⟩
  case fshl => exact yields_of_vFixed rfl hi fun t => by simp only [Ctx.img_true, Ctx.img_false, field_zext64_low5]
  case prmb => exact yields_of_vFixed rfl hi fun t => rfl
  case bfx => exact yields_of_vFixed rfl hi fun t => rfl
  case bfi => exact yields_of_vFixed rfl hi fun t => rfl
  case iadd64 => exact yields_of_vFixed rfl hi fun t => rfl
  case isub64 => exact yields_of_vFixed rfl hi fun t => rfl
  case ada => exact yields_of_vFixed rfl hi fun t => by simp only [Ctx.img_true, Ctx.img_false, lo32_zext64, sext64]
  case adax => exact yields_of_vFixed rfl hi fun t => by simp only [Ctx.img_true, Ctx.img_false, lo32_zext64, sext64]
  case adcmp => exact yields_of_vFixed rfl hi fun t => rfl
  case limm => exact yields_of_vConst rfl hi fun t => rfl
  case limmh => exact yields_of_vConst rfl hi fun t => by rw [Ctx.img_false, zext64_extractLsb'_low]

/-- Settles O5: the instructions share `vFloat2`, which takes no draw under these roundings. -/
theorem floatTwoSourceResults : Obligations.FloatTwoSourceResults := by
  unfold Obligations.FloatTwoSourceResults
  intro s c u d a b F hF hi hrnd
  refine ⟨?fadd, ?fsub, ?fmul, ?fma, ?fnma, ?fscl, ?fdiv, ?fmin, ?fmax, ?fcpys, ?fseq, ?fsne, ?fslt, ?fsle, ?fsun⟩
  case fadd => exact yields_of_vFloat2 (rounds := true) (f := fun e r x y _ => fAdd e r x y) hF hrnd rfl hi
  case fsub => exact yields_of_vFloat2 (rounds := true) (f := fun e r x y _ => fSub e r x y) hF hrnd rfl hi
  case fmul => exact yields_of_vFloat2 (rounds := true) (f := fun e r x y _ => fMul e r x y) hF hrnd rfl hi
  case fma => exact yields_of_vFloat2 (rounds := true) (f := fun e r x y z => fMulAdd false e r x y z) hF hrnd rfl hi
  case fnma => exact yields_of_vFloat2 (rounds := true) (f := fun e r x y z => fMulAdd true e r x y z) hF hrnd rfl hi
  case fscl => exact yields_of_vFloat2 (rounds := true) (f := fun e r x y _ => fScl e r x (toSigned e.F.width y)) hF hrnd rfl hi
  case fdiv => exact yields_of_vFloat2 (rounds := true) (f := fun e r x y _ => fDiv e r x y) hF hrnd rfl hi
  case fmin => exact yields_of_vFloat2 (rounds := false) (f := fun e _ x y _ => fMinMax false e x y) hF hrnd rfl hi
  case fmax => exact yields_of_vFloat2 (rounds := false) (f := fun e _ x y _ => fMinMax true e x y) hF hrnd rfl hi
  case fcpys => exact yields_of_vFloat2 (rounds := false) (f := fun e _ x y _ => elemCpys e x y) hF hrnd rfl hi
  case fseq => exact yields_of_vFloat2 (rounds := false) (f := fun e _ x y _ => elemFCmp .eq e x y) hF hrnd rfl hi
  case fsne => exact yields_of_vFloat2 (rounds := false) (f := fun e _ x y _ => elemFCmp .ne e x y) hF hrnd rfl hi
  case fslt => exact yields_of_vFloat2 (rounds := false) (f := fun e _ x y _ => elemFCmp .lt e x y) hF hrnd rfl hi
  case fsle => exact yields_of_vFloat2 (rounds := false) (f := fun e _ x y _ => elemFCmp .le e x y) hF hrnd rfl hi
  case fsun => exact yields_of_vFloat2 (rounds := false) (f := fun e _ x y _ => elemFCmp .un e x y) hF hrnd rfl hi

/-- Settles O6: the instructions share `vFloat1`. -/
theorem floatOneSourceResults : Obligations.FloatOneSourceResults := by
  unfold Obligations.FloatOneSourceResults
  intro s c u d a F hF hi hrnd
  refine ⟨?fabs, ?fneg, ?fclass, ?frnd, ?fexpo, ?frcp, ?fsqrt, ?frsq, ?fex2, ?flg2, ?fsin, ?fcos, ?ftanh⟩
  case fabs => exact yields_of_vFloat1 (rounds := false) (f := fun e _ x => x % e.F.signBit) hF hrnd rfl hi
  case fneg => exact yields_of_vFloat1 (rounds := false) (f := fun e _ x => (x + e.F.signBit) % 2 ^ e.F.width) hF hrnd rfl hi
  case fclass => exact yields_of_vFloat1 (rounds := false) (f := fun e _ x => fClass e.F x) hF hrnd rfl hi
  case frnd => exact yields_of_vFloat1 (rounds := true) (f := fRnd) hF hrnd rfl hi
  case fexpo => exact yields_of_vFloat1 (rounds := false) (f := fun e _ x => fExpo e x) hF hrnd rfl hi
  case frcp => exact yields_of_vFloat1 (rounds := true) (f := fRcp) hF hrnd rfl hi
  case fsqrt => exact yields_of_vFloat1 (rounds := true) (f := fSqrt) hF hrnd rfl hi
  case frsq => exact yields_of_vFloat1 (rounds := false) (f := fun e _ x => boundedFn .rsq e x) hF hrnd rfl hi
  case fex2 => exact yields_of_vFloat1 (rounds := false) (f := fun e _ x => boundedFn .ex2 e x) hF hrnd rfl hi
  case flg2 => exact yields_of_vFloat1 (rounds := false) (f := fun e _ x => boundedFn .lg2 e x) hF hrnd rfl hi
  case fsin => exact yields_of_vFloat1 (rounds := false) (f := fun e _ x => boundedFn .sin e x) hF hrnd rfl hi
  case fcos => exact yields_of_vFloat1 (rounds := false) (f := fun e _ x => boundedFn .cos e x) hF hrnd rfl hi
  case ftanh => exact yields_of_vFloat1 (rounds := false) (f := fun e _ x => boundedFn .tanh e x) hF hrnd rfl hi

end Sys2Proof.Proofs
end

