-- ==== Sys2Proof/Proofs/StochasticRounding.lean ====
section
/-! SUPPORT. Draws (R287, R288, R355): how far an instruction that rounds stochastically moves the seed. -/

namespace Sys2Proof.Machine

open Sys2Proof.Claims

theorem repeat_succ {α : Type} (f : α → α) (n : Nat) (x : α) : Nat.repeat f (n + 1) x = Nat.repeat f n (f x) := by
  induction n with
  | zero => rfl
  | succ n ih => exact congrArg f ih

theorem repeat_add {α : Type} (f : α → α) (m n : Nat) (x : α) : Nat.repeat f (m + n) x = Nat.repeat f n (Nat.repeat f m x) := by
  induction n with
  | zero => rfl
  | succ n ih => exact congrArg f ih

/-- Draws move the seed once each (R287). -/
theorem srdraws_seed (n : Nat) (seed : Word) : (srdraws n seed).2 = Nat.repeat srdraw n seed := by
  induction n generalizing seed with
  | zero => rfl
  | succ n ih => rw [repeat_succ, ← ih]; rfl

/-- Each thread of a list takes its draws in its turn (R288). -/
theorem threadResults_seed (n : Nat) (f : Nat → List Nat → DWord) (ts : List Nat) (seed : Word) :
    (threadResults n f ts seed).2 = Nat.repeat srdraw (n * ts.length) seed := by
  induction ts generalizing seed with
  | nil => rfl
  | cons t ts ih =>
    have hdraws : (if n = 0 then ([], seed) else srdraws n seed).2 = Nat.repeat srdraw n seed := by
      split
      · next h => rw [h]; rfl
      · exact srdraws_seed n seed
    rw [threadResults, ih, hdraws, ← repeat_add, List.length_cons, Nat.mul_succ, Nat.add_comm]

/-- The seed after a computation with n draws for each thread: the uniform form takes one set in all (R160, R288). -/
theorem Ctx.compute_seed (c : Ctx) (u : Bool) (n : Nat) (f : Nat → List Nat → DWord) :
    (c.compute u n f).2 =
      Nat.repeat srdraw (if u then (if c.exec = 0#64 then 0 else n) else n * (threadsOf c.exec).length) c.seed := by
  cases u with
  | false => exact threadResults_seed ..
  | true =>
    by_cases h : c.exec = 0#64
    · simp [Ctx.compute, sameResult, h, Nat.repeat]
    · simp [Ctx.compute, sameResult, h, srdraws_seed]

/-- A rounding float instruction completes with one draw for each element (R355). -/
theorem draws_of_vFloat2 {i : Instr} {s : State} {c : Ctx} {u : Bool} {d a b : BitVec 8} {f : FEnv → Nat → Nat → Nat → Nat → Nat}
    (hx : exec i s = issue i true (vFloat2 u true d a b f) s) (hF : (etypeFloat c.etype).isSome = true) (hi : Issues s c (opsDAB false d a b))
    (hrnd : modeRndCode c.regs.mode = 5) :
    ∃ r, Retires i s c r (Nat.repeat srdraw (if u then (if c.exec = 0#64 then 0 else etypeCount c.etype)
      else etypeCount c.etype * (threadsOf c.exec).length) c.seed) (c.split.pc + 4#64) := by
  obtain ⟨F, hF⟩ := Option.isSome_iff_exists.1 hF
  have hdraws : modeDraws c (etypeCount c.etype) = etypeCount c.etype := if_pos hrnd
  have hretires := retires_of_vIssue hx (vFloat_of_format hF ..) rfl hi fun _ => rfl
  rw [Ctx.compute_seed, if_pos rfl, hdraws] at hretires
  exact ⟨_, hretires⟩

end Sys2Proof.Machine

namespace Sys2Proof.Proofs

open Sys2Proof.Machine Sys2Proof.Claims

/-- Settles O7: the instructions share `draws_of_vFloat2`. -/
theorem stochasticRoundingDraws : Obligations.StochasticRoundingDraws := by
  unfold Obligations.StochasticRoundingDraws
  intro s c u d a b hF hi hrnd
  refine ⟨?fadd, ?fsub, ?fmul, ?fma, ?fnma, ?fscl, ?fdiv⟩
  case fadd => exact draws_of_vFloat2 (f := fun e r x y _ => fAdd e r x y) rfl hF hi hrnd
  case fsub => exact draws_of_vFloat2 (f := fun e r x y _ => fSub e r x y) rfl hF hi hrnd
  case fmul => exact draws_of_vFloat2 (f := fun e r x y _ => fMul e r x y) rfl hF hi hrnd
  case fma => exact draws_of_vFloat2 (f := fun e r x y z => fMulAdd false e r x y z) rfl hF hi hrnd
  case fnma => exact draws_of_vFloat2 (f := fun e r x y z => fMulAdd true e r x y z) rfl hF hi hrnd
  case fscl => exact draws_of_vFloat2 (f := fun e r x y _ => fScl e r x (toSigned e.F.width y)) rfl hF hi hrnd
  case fdiv => exact draws_of_vFloat2 (f := fun e r x y _ => fDiv e r x y) rfl hF hi hrnd

end Sys2Proof.Proofs
end

