-- ==== Sys2Proof/Proofs/ConversionResults.lean ====
section
/-! SUPPORT. The conversions (R365 to R368) where no destination format rounds stochastically. -/

namespace Sys2Proof.Machine

open Sys2Proof.Claims

@[simp] theorem lo32_img_false (c : Ctx) (t : Nat) (b : BitVec 8) : lo32 (c.img false t b) = c.regs.read32 c.xi t b := lo32_zext64 _

/-! The formats of each kind (R365), as the model's checks put them. -/

theorem cvtf_ok {n : Nat} (h : cvtfFormats.contains n = true) : decide (n = 1 ∨ n = 2 ∨ n = 3 ∨ n = 4 ∨ n = 14) = true := by
  simpa [cvtfFormats] using h
theorem cvti_ok {n : Nat} (h : cvtiFormats.contains n = true) : decide (5 ≤ n ∧ n ≤ 13) = true := by
  simp [cvtiFormats] at h ⊢
  omega
theorem cvif_ok {n : Nat} (h : cvifFormats.contains n = true) : decide (n ≤ 4 ∨ n = 14) = true := by
  simp [cvifFormats] at h ⊢
  omega
theorem unpk_ok {n : Nat} (h : unpkFormats.contains n = true) : decide (1 ≤ n ∧ n ≤ 4 ∨ 7 ≤ n ∧ n ≤ 14) = true := by
  simp [unpkFormats] at h ⊢
  omega
theorem mx_ok {n : Nat} (h : mxFormats.contains n = true) : mxFmtOk n = true := by
  simpa [mxFormats, mxFmtOk] using h

/-- A conversion of one thread's value yields its function of the image (R366). -/
theorem yields_of_vConvert {i : Instr} {m : State → Ctx → Done} {s : State} {c : Ctx} {u ok draws : Bool} {d a : BitVec 8} {n : Nat}
    {f : Ctx → Nat → DWord → DWord} (hx : exec i s = issue i true m s) (hm : m s c = vConvert u ok draws d a n f s c) (hok : ok = true)
    (hi : Issues s c (opsDA false d a)) (hdraws : draws = true → cvDraws c n 1 = 0) :
    Yields i s c false d (fun t => f c 0 (c.img false (source c u t) a)) := by
  have hzero : (if draws then cvDraws c n 1 else 0) = 0 := by
    split
    · next h => exact hdraws h
    · rfl
  exact yields_of_run hx hm (congrArg (fun k => c.compute u k _) hzero) hok hi fun _ => rfl

theorem mapIdx_const {α β : Type} (f : α → β) (l : List α) : l.mapIdx (fun _ x => f x) = l.map f :=
  List.ext_getElem (by simp) (by simp)

/-- The source elements of a pack (R368). -/
def packSources (c : Ctx) (four : Bool) (a b : BitVec 8) (t : Nat) : List Nat :=
  let x := c.img four t a
  let y := c.img four t b
  if four then [(lo32 x).toNat, (hi32 x).toNat, (lo32 y).toNat, (hi32 y).toNat] else [(lo32 x).toNat, (lo32 y).toNat]

/-- A pack yields the conversions of its source elements, where its etype is one that packs (R368). -/
theorem yields_of_vPack {i : Instr} {s : State} {c : Ctx} {u four : Bool} {d a b : BitVec 8}
    (hx : exec i s = issue i true (vPack u four d a b) s) (hi : Issues s c [⟨.dst, false, d⟩, ⟨.src, four, a⟩, ⟨.srcXi, four, b⟩])
    (hok : packFmt four c.etype ≠ 15) (hdraws : c.etype ≤ 5 ∨ cvDraws c (packFmt four c.etype) (if four then 4 else 2) = 0) :
    Yields i s c false d (fun t => packElems (32 / if four then 4 else 2) ((packSources c four a b (source c u t)).map
      (fun v => convertTo c.regs.cvmode (modeRnd c.regs.mode) 0 (packFmt four c.etype) (packSrc c.etype v)))) := by
  have hzero : (if c.etype ≤ 5 then 0 else cvDraws c (packFmt four c.etype) (if four then 4 else 2)) = 0 := by
    split
    · rfl
    · next h => exact hdraws.resolve_left h
  have hm : vPack u four d a b s c = vIssue (decide (packFmt four c.etype ≠ 15)) [⟨.dst, false, d⟩, ⟨.src, four, a⟩, ⟨.srcXi, four, b⟩]
      false d (fun c' => c'.compute u (if c.etype ≤ 5 then 0 else cvDraws c' (packFmt four c.etype) (if four then 4 else 2)) (fun t ds =>
        packElems (32 / if four then 4 else 2) ((packSources c' four a b t).mapIdx (fun i v =>
          convertTo c'.regs.cvmode (modeRnd c'.regs.mode) (ds.getD i 0) (packFmt four c.etype) (packSrc c.etype v))))) s c := rfl
  refine yields_of_run hx hm (congrArg (fun k => c.compute u k _) hzero) (decide_eq_true hok) hi fun t => ?_
  simp only [List.getD_nil, mapIdx_const]

end Sys2Proof.Machine

namespace Sys2Proof.Proofs

open Sys2Proof.Machine Sys2Proof.Claims

/-- Settles O8: the kinds share `vConvert` and the packs `vPack`; MXQ and MXSC see a block of threads. -/
theorem conversionResults : Obligations.ConversionResults := by
  unfold Obligations.ConversionResults
  intro s c u d a b f
  refine ⟨fun hi hdraws => ⟨?cvtf, ?cvti, ?cvif, ?mxq⟩, fun hi => ⟨?cvii, ?unpk, ?mxsc⟩, fun hi het => ?pack2, fun hi het => ?pack4⟩
  case cvtf =>
    intro hok
    exact yields_of_vConvert (draws := true) (f := fun c r x => c.convert f.toNat r (asF32 x)) rfl rfl (cvtf_ok hok) hi fun _ => hdraws
  case cvti =>
    intro hok
    exact yields_of_vConvert (draws := true) (f := fun c r x => c.convert f.toNat r (asF32 x)) rfl rfl (cvti_ok hok) hi fun _ => hdraws
  case cvif =>
    intro hok hwide
    have hboth : (decide (f.toNat ≤ 4 ∨ f.toNat = 14) && !etypeWide c.etype) = true := by rw [cvif_ok hok, hwide]; rfl
    have hx : exec (.cvif u d a f) s = execCvif u d a f s := rfl
    exact yields_of_vConvert (draws := true) (f := fun c r x => c.convert f.toNat r (asInt c.etype x)) hx rfl hboth hi fun _ => hdraws
  case mxq =>
    intro hok
    refine yields_of_run rfl rfl (congrArg (fun k => c.compute u k _) hdraws) (mx_ok hok) hi fun t => ?_
    cases u <;> rfl
  case cvii =>
    intro hok hwide
    have hboth : (decide (5 ≤ f.toNat ∧ f.toNat ≤ 13) && !etypeWide c.etype) = true := by rw [cvti_ok hok, hwide]; rfl
    have hx : exec (.cvii u d a f) s = execCvii u d a f s := rfl
    exact yields_of_vConvert (n := f.toNat) (draws := false) (f := fun c _ x => c.convert f.toNat 0 (asInt c.etype x)) hx rfl hboth hi nofun
  case unpk =>
    intro hok
    exact yields_of_vConvert (draws := false) (f := fun _ _ x => unpkOf f.toNat x) rfl rfl (unpk_ok hok) hi nofun
  case mxsc =>
    intro hok
    exact yields_of_run rfl rfl rfl (mx_ok hok) hi fun t => rfl
  case pack2 =>
    intro n hdraws
    have hn : n = packFmt false c.etype := by rcases het with h | h | h | h <;> simp only [n, h] <;> rfl
    have hok : packFmt false c.etype ≠ 15 := by rcases het with h | h | h | h <;> rw [h] <;> decide
    have hsources : ∀ t, packSources c false a b t = [(c.regs.read32 c.xi t a).toNat, (c.regs.read32 c.xi t b).toNat] := fun t => by
      simp only [packSources, lo32_img_false, Bool.false_eq_true, if_false]
    rw [hn] at hdraws ⊢
    have hyields := yields_of_vPack (i := .pack2 u d a b) rfl hi hok hdraws
    simp only [hsources] at hyields
    exact hyields
  case pack4 =>
    intro n hdraws
    have hn : n = packFmt true c.etype := by rcases het with h | h | h | h <;> simp only [n, h] <;> rfl
    have hok : packFmt true c.etype ≠ 15 := by rcases het with h | h | h | h <;> rw [h] <;> decide
    have hsources : ∀ t, packSources c true a b t = [lo32 (c.regs.read64 c.xi t a), hi32 (c.regs.read64 c.xi t a),
        lo32 (c.regs.read64 c.xi t b), hi32 (c.regs.read64 c.xi t b)].map BitVec.toNat := fun t => rfl
    rw [hn] at hdraws ⊢
    have hyields := yields_of_vPack (i := .pack4 u d a b) rfl hi hok hdraws
    simp only [hsources, List.map_map] at hyields
    exact hyields

end Sys2Proof.Proofs
end

