-- ==== Sys2Proof/Proofs/Masks.lean ====
section
/-! SUPPORT. The masks of 64 threads: which threads `maskOf` holds, and the lowest thread. -/

namespace Sys2Proof.Machine

theorem getLsbD_foldl_twoPow (l : List Nat) (m : BitVec 64) (j : Nat) :
    (l.foldl (fun m t => m ||| BitVec.twoPow 64 t) m).getLsbD j = (m.getLsbD j || decide (j < 64 ∧ j ∈ l)) := by
  induction l generalizing m with
  | nil => simp
  | cons t ts ih =>
    rw [List.foldl_cons, ih, BitVec.getLsbD_or, BitVec.getLsbD_twoPow]
    by_cases h : j = t
    · subst h; cases m.getLsbD j <;> simp +contextual
    · simp [h, Ne.symm h]

/-- The threads of `maskOf l` are those of l. -/
@[simp] theorem getLsbD_maskOf (l : List Nat) (j : Nat) : (maskOf l).getLsbD j = decide (j < 64 ∧ j ∈ l) := by
  rw [maskOf, getLsbD_foldl_twoPow, BitVec.getLsbD_zero, Bool.false_or]

/-- A mask is that of its own threads. -/
theorem maskOf_threadsOf (m : BitVec 64) : maskOf (threadsOf m) = m := by
  apply BitVec.eq_of_getLsbD_eq
  intro j hj
  simp [-BitVec.getLsbD_eq_getElem, mem_threadsOf, hj]

/-- The threads of a mask for which p holds. -/
theorem getLsbD_maskOf_filter (m : BitVec 64) (p : Nat → Bool) {j : Nat} (hj : j < 64) :
    (maskOf ((threadsOf m).filter p)).getLsbD j = true ↔ m.getLsbD j = true ∧ p j = true := by
  simp [-BitVec.getLsbD_eq_getElem, mem_threadsOf, hj]

/-- No thread is left exactly in the empty mask. -/
theorem threadsOf_eq_nil (m : BitVec 64) : threadsOf m = [] ↔ m = 0#64 := by
  refine ⟨fun h => ?_, fun h => by subst h; rfl⟩
  rw [← maskOf_threadsOf m, h]; rfl

/-- The lowest thread of a mask that is not empty is in it. -/
theorem lowest_mem {m : BitVec 64} (h : m ≠ 0#64) : lowest m ∈ threadsOf m := by
  cases ht : threadsOf m with
  | nil => exact absurd ((threadsOf_eq_nil m).1 ht) h
  | cons t ts => simp [lowest, ht]

end Sys2Proof.Machine

end

