-- ==== Sys2Proof/Proofs/LaneResults.lean ====
section
/-! SUPPORT. The cross-lane instructions (R369 to R375): shuffles, votes and the reductions without draws. -/

namespace Sys2Proof.Machine

open Sys2Proof.Claims


section

variable {i : Instr} {s : State} {c : Ctx} {u wide : Bool} {d a b : BitVec 8} (hs : c.single = false)
include hs

/-- An instruction refused to handlers that computes without draws yields its results outside single-lane mode. -/
theorem yields_of_compute {m : State → Ctx → Done} {ops : List Opnd} {g : Ctx → Nat → List Nat → DWord} {h : Nat → DWord}
    (hx : exec i s = issue i false m s) (hi : Issues s c ops) (hm : m s c = vIssue true ops wide d (fun c => c.compute u 0 (g c)) s c)
    (hg : ∀ t, g c (source c u t) [] = h t) : Yields i s c wide d h := by
  refine yields_of_results hx hm rfl hi (fun h' => absurd h' (by simp [hs])) ?_
  simp only [Ctx.compute_zero, hg]

/-- A shuffle fetches each thread's source (R370). -/
theorem yields_of_vShuffle {src : Nat → Nat → Option Nat} (hx : exec i s = issue i false (vShuffle u d a b src) s)
    (hi : Issues s c [⟨.dst, etypeWide c.etype, d⟩, ⟨.src, etypeWide c.etype, a⟩, ⟨.src, false, b⟩]) :
    Yields i s c (etypeWide c.etype) d
      (fun t => c.fetchLane (etypeWide c.etype) a ((src (source c u t) (c.regs.read32 c.xi (source c u t) b).toNat).getD 64)) :=
  yields_of_compute (u := u) (g := fun c' t _ => c'.fetchLane (etypeWide c.etype) a ((src t (c'.regs.read32 c'.xi t b).toNat).getD 64))
    hs hx hi rfl (fun _ => rfl)

/-- A vote gives every thread its one value (R373). -/
theorem yields_of_vVote {f : Ctx → DWord} (hx : exec i s = issue i false (vVote u wide d a f) s)
    (hi : Issues s c [⟨.dst, wide, d⟩, ⟨.src, false, a⟩]) : Yields i s c wide d (fun _ => f c) :=
  yields_of_compute (m := vVote u wide d a f) (u := u) hs hx hi rfl (fun _ => rfl)

/-- A reduction that takes no draw gives the executing threads its elements (R374). -/
theorem yields_of_vReduce {run : Ctx → Nat → (Nat → List Nat) × Word} {h : Nat → DWord} (hx : exec i s = issue i false (vReduce u d a run) s)
    (hi : Issues s c (opsDA (etypeWide c.etype) d a)) (hexec : c.exec ≠ 0#64) (hseed : (run c c.etype).2 = c.seed)
    (hf : ∀ t, t ∈ threadsOf c.exec → packElems (etypeWidth c.etype) ((run c c.etype).1 (source c u t)) = h t) :
    Yields i s c (etypeWide c.etype) d h := by
  refine yields_of_results hx (by simp only [vReduce]; rfl) rfl hi (fun h' => absurd h' (by simp [hs])) ?_
  simp only [if_neg hexec, hseed, spread]
  exact congrArg (·, c.seed) (List.map_congr_left fun t ht => congrArg (Prod.mk t) (hf t ht))

end

/-- The prefixes of PSCAN without draws: each listed thread's sum, and the seed as it was. -/
theorem scanThreads_zero (mode : Word) (et : Nat) (xs : List (List Nat)) (ts : List Nat) (seed : Word) :
    scanThreads mode et 0 xs ts seed = (ts.map (fun t => (t, laneSumAll mode et [] (xs.take (t + 1)))), seed) := by
  induction ts with
  | nil => rfl
  | cons t ts ih => simp [scanThreads, drawsOf, ih]

/-- A thread finds its own entry in a list of threads with their values. -/
theorem find_map_pair {β : Type} (f : Nat → β) {t : Nat} {ts : List Nat} (h : t ∈ ts) :
    FMap.find (ts.map (fun t => (t, f t))) t = some (f t) := by
  induction ts with
  | nil => cases h
  | cons x xs ih =>
    by_cases hx : x = t
    · subst hx; simp [FMap.find]
    · simpa [FMap.find, hx] using ih ((List.mem_cons.1 h).resolve_left (Ne.symm hx))

/-- The butterfly of RSTEP without draws leaves the seed. -/
theorem rstepRound_zero_seed (mode : Word) (et j : Nat) (l : List Nat) (y : List (List Nat)) (seed : Word) :
    (rstepRound mode et 0 j l (y, seed)).2 = seed := by
  induction l generalizing y with
  | nil => rfl
  | cons t ts ih => exact ih _

theorem rstepAll_zero_seed (mode : Word) (et : Nat) (y : List (List Nat)) (seed : Word) : (rstepAll mode et 0 y seed).2 = seed := by
  have hrounds : ∀ (l : List Nat) (acc : List (List Nat) × Word),
      (l.foldl (fun acc j => rstepRound mode et 0 j (stepPairs j) acc) acc).2 = acc.2 := by
    intro l
    induction l with
    | nil => exact fun acc => rfl
    | cons j js ih => exact fun acc => (ih _).trans (rstepRound_zero_seed ..)
  exact hrounds _ _

end Sys2Proof.Machine

namespace Sys2Proof.Proofs

open Sys2Proof.Machine Sys2Proof.Claims

/-- Settles O9: the shuffles share `vShuffle`; each names its source thread, or 64 where there is none. -/
theorem shuffleResults : Obligations.ShuffleResults := by
  unfold Obligations.ShuffleResults
  intro s c u d a b hs
  refine ⟨fun hi => ⟨?shfl, ?shflx, ?shflup, ?shfldn⟩, fun hi => ?bcast⟩
  case shfl => exact yields_of_vShuffle (src := fun _ b => some b) hs rfl hi
  case shflx => exact yields_of_vShuffle (src := fun t b => some (t ^^^ b)) hs rfl hi
  case shflup =>
    have hyields := yields_of_vShuffle (i := .shflup u d a b) (src := fun t b => if t < b then none else some (t - b)) hs rfl hi
    simp only [apply_ite (fun o : Option Nat => o.getD 64), Option.getD_none, Option.getD_some] at hyields
    exact hyields
  case shfldn => exact yields_of_vShuffle (src := fun t b => some (t + b)) hs rfl hi
  case bcast =>
    have hx : exec (.bcast u d a) s = execBcast u d a s := rfl
    rw [execBcast] at hx
    exact yields_of_compute (u := u) (g := fun c' _ _ => c'.fetchLane (etypeWide c.etype) a
      (if etypeWide c.etype then (c'.regs.read64 c'.xi c'.lane d).toNat else (c'.regs.read32 c'.xi c'.lane d).toNat)) hs hx hi rfl fun t => rfl

/-- Settles O10: VANY, VALL and BLT share `vVote` over the threads of the active mask. -/
theorem voteResults : Obligations.VoteResults := by
  unfold Obligations.VoteResults
  intro s c u d a hs
  refine ⟨fun hi => ⟨⟨_, yields_of_vVote hs rfl hi, fun _ => ?vany⟩, ⟨_, yields_of_vVote hs rfl hi, fun _ => ?vall⟩⟩,
    fun hi => ⟨_, yields_of_vVote hs rfl hi, fun j hj => ?blt⟩, fun hi => ?elect⟩
  case vany =>
    have hany : (threadsOf c.mask).any (c.nonzero a) = true ↔ ∃ j < 64, c.mask.getLsbD j = true ∧ c.regs.read32 c.xi j a ≠ 0#32 := by
      simp [-BitVec.getLsbD_eq_getElem, mem_threadsOf, Ctx.nonzero, and_assoc]
    rw [← hany]
    cases (threadsOf c.mask).any (c.nonzero a) <;> simp [allOnes32]
  case vall =>
    have hall : (threadsOf c.mask).all (c.nonzero a) = true ↔ ∀ j < 64, c.mask.getLsbD j = true → c.regs.read32 c.xi j a ≠ 0#32 := by
      simp [-BitVec.getLsbD_eq_getElem, mem_threadsOf, Ctx.nonzero]
    rw [← hall]
    cases (threadsOf c.mask).all (c.nonzero a) <;> simp [allOnes32]
  case blt => rw [getLsbD_maskOf_filter _ _ hj]; simp [Ctx.nonzero]
  case elect => exact yields_of_compute (u := u) hs rfl hi rfl fun t => by simp only [allOnes32, Bool.and_eq_true, decide_eq_true_eq]

/-- Settles O11: the reductions share `vReduce`; without draws each sum is taken under the seed as it was. -/
theorem reductionResults : Obligations.ReductionResults := by
  unfold Obligations.ReductionResults
  intro s c u d a hs hi hexec hdraws
  refine ⟨?red, fun hu => ?pscan, fun hu => ?pscanUniform, ?rstep⟩
  case red =>
    refine yields_of_vReduce (u := u) hs rfl hi hexec ?_ fun t _ => ?_
    · simp only [hdraws, drawsOf, if_pos]
    · simp only [hdraws, drawsOf, if_pos]
  case pscan =>
    subst hu
    refine yields_of_vReduce (u := false) hs rfl hi hexec ?_ fun t ht => ?_
    · simp only [hdraws, scanThreads_zero]
    · simp only [hdraws, scanThreads_zero, source, Bool.false_eq_true, if_false, find_map_pair _ ht, Option.getD_some]
  case pscanUniform =>
    subst hu
    refine yields_of_vReduce (u := true) hs rfl hi hexec ?_ fun t _ => ?_
    · simp only [hdraws, scanThreads_zero]
    · simp only [hdraws, scanThreads_zero, source, if_true, find_map_pair _ (List.mem_singleton_self _), Option.getD_some]
  case rstep =>
    refine yields_of_vReduce (u := u) hs rfl hi hexec ?_ fun t _ => ?_
    · simp only [hdraws, rstepAll_zero_seed]
    · simp only [hdraws]

end Sys2Proof.Proofs
end

