-- ==== Sys2Proof/Proofs/Dispatch.lean ====
section
/-! SUPPORT. The dispatch by kind of instruction: a device instruction issues, a host word issues at a hart, an event has its
next state; and what decides which of them a step runs. -/

namespace Sys2Proof.Machine

open Sys2Proof.Claims

/-- Every device instruction is issued (R319). -/
theorem exec_device {i : Instr} (h : (fieldsOfInstr i).isSome = true) (s : State) : ∃ single m, exec i s = issue i single m s := by
  cases i <;> cases h <;> dsimp only [exec, execBow, execCpy, execGthr, execGbag, execSctr, execColl, execChain, execNpost, execGmm, execGbias,
    execGmmSparse, execGmmLinked, execGmmLinkedSparse, execGscl, execGstp, execGldp] <;> exact ⟨_, _, rfl⟩

/-- Every host word is issued by a hart (R229). -/
theorem exec_host {i : Instr} (hd : (fieldsOfInstr i).isSome = false) (he : i.isEvent = false) (s : State) : ∃ f, exec i s = issueHart f s := by
  cases i <;> cases hd <;> cases he <;> dsimp only [exec] <;> exact ⟨_, rfl⟩

theorem finish_completes (c : Ctx) (w : BitVec 32) (d : Done) : Completes (finish c w d) := by
  cases d <;> exact ⟨_, rfl⟩

/-- An issue answers wherever a context issues. -/
theorem issue_completes {s : State} {c : Ctx} (hc : s.ctx = some c) (i : Instr) (single : Bool) (m : State → Ctx → Done) :
    Completes (issue i single m s) := by
  simp only [issue, hc]
  by_cases hs : (c.single && !single) = true
  · rw [if_pos hs]; exact ⟨_, rfl⟩
  · rw [if_neg hs]; exact finish_completes ..

theorem issueHart_completes {s : State} {h : Nat} (hh : s.turn.cur = some (.hart h)) (f : Nat → State → State) : Completes (issueHart f s) := by
  have hctx : s.hartCtx = some h := by rw [State.hartCtx, hh]
  exact ⟨_, by rw [issueHart, hctx]⟩

/-- Once time has passed, what moves is the word at the pc of the chosen issuer (R137). -/
theorem State.pick_of_issuer {s : State} {hid : Nat} {who : Issuer} (hp : s.power = true) (hr : s.boot.romDue = false) (ha : s.turn.agenda = [])
    (hh : s.turn.hostTurn = none) (ht : s.turn.ticked = true) (hnext : s.nextIssuer = some (hid, who)) :
    s.pick = (s.startIssue hid who).pickWord := by
  simp [State.pick, hp, hr, ha, hh, ht, hnext]

/-- A hart with the turn fetches where nothing stands in its way (R229, log 12). -/
theorem State.pickHost_of_word {s : State} {h : Nat} {i : Instr} (hpc : (s.hart h).pc.toNat < 2 ^ 51)
    (hpkg : pkgOf (s.hart h).pc.toNat = s.boot.pkg) (htier : offOf (s.hart h).pc.toNat + 4 ≤ tierEnd)
    (hstripe : closedStripe (s.stripe (offOf (s.hart h).pc.toNat)) = false) (hpoison : s.poisoned (offOf (s.hart h).pc.toNat) 4 = false)
    (hi : decodeHost (BitVec.ofNat 32 (s.wordAt (offOf (s.hart h).pc.toNat) 4)) = some i) :
    s.pickHost h = .run i (({ s with turn := { s.turn with cur := some (.hart h), hostTurn := none } } : State).hostCopy
      (offOf (s.hart h).pc.toNat) false) := by
  have hfree : ¬ (2 ^ 51 ≤ (s.hart h).pc.toNat ∨ pkgOf (s.hart h).pc.toNat ≠ s.boot.pkg ∨ tierEnd < offOf (s.hart h).pc.toNat + 4 ∨
      closedStripe (s.stripe (offOf (s.hart h).pc.toNat)) = true ∨ s.poisoned (offOf (s.hart h).pc.toNat) 4 = true) := by
    simp only [hpkg, hstripe, hpoison, ne_eq, not_true_eq_false, Bool.false_eq_true, or_false, false_or, not_or]
    omega
  let s' : State := { s with turn := { s.turn with cur := some (.hart h), hostTurn := none } }
  have hword : s'.wordAt (offOf (s.hart h).pc.toNat) 4 = s.wordAt (offOf (s.hart h).pc.toNat) 4 := rfl
  exact (if_neg hfree).trans (by rw [hword, hi])

end Sys2Proof.Machine

namespace Sys2Proof.Proofs

open Sys2Proof.Machine Sys2Proof.Claims

/-- Settles O55: each word decodes by evaluation. -/
theorem decodeKnownWords : Obligations.DecodeKnownWords := by
  unfold Obligations.DecodeKnownWords
  and_intros <;> rfl

/-- Settles O59: every field that the rules name is evaluated at the reset state. -/
theorem resetState : Obligations.ResetState := by
  unfold Obligations.ResetState
  refine ⟨rfl, rfl, rfl, rfl, rfl, rfl, Memory.wf_reset, fun off => ⟨rfl, ?poison⟩, fun off _ => ?stripe, fun n => ⟨rfl, rfl, rfl, rfl, rfl, rfl⟩,
    fun p => ⟨rfl, rfl, rfl, rfl⟩, rfl, fun k => ?core⟩
  case poison => exact List.any_eq_false.2 fun i _ => Bool.false_ne_true
  case stripe => unfold State.stripe; split <;> rfl
  case core =>
    have hword : State.reset.mapWord (clusterOf k) = 0 := rfl
    simp [State.corePresent, hword, bitAt]

/-- Settles O57: each clause follows one branch of `State.pick`. -/
theorem stepRunsDecodedInstruction : Obligations.StepRunsDecodedInstruction := by
  unfold Obligations.StepRunsDecodedInstruction
  refine ⟨?unpowered, ?rom, ?agenda, ?time, ?word, ?fetchFault, ?fetch, ?misaligned, ?host⟩
  case unpowered => intro s hp; simp only [step, State.pick, hp, Bool.not_false, if_true]
  case rom => intro s hp hr; simp [step, State.pick, hp, hr]
  case agenda => intro s i r hp hr ha; simp [step, State.pick, hp, hr, ha]
  case time => intro s hp hr ha hh ht; simp [step, State.pick, hp, hr, ha, hh, ht]
  case word =>
    intro s s1 hid who c w hp hr ha hh ht hnext hctx hfetch
    have hpick := State.pick_of_issuer hp hr ha hh ht hnext
    refine ⟨fun i hi => ?_, fun e he => ⟨?_, ?_⟩⟩
    · rw [step, hpick]; simp only [State.pickWord, hctx, hfetch, hi]
    · rintro (rfl | rfl | rfl) <;> simp only [step, hpick, State.pickWord, hctx, hfetch, he]
    · rintro (rfl | rfl | rfl) <;> simp only [step, hpick, State.pickWord, hctx, hfetch, he]
  case fetchFault =>
    intro s hid who c r s1 hp hr ha hh ht hnext hctx hfetch
    rw [step, State.pick_of_issuer hp hr ha hh ht hnext]
    simp only [State.pickWord, hctx, hfetch]
  case fetch =>
    intro s s1 c off pol hpc hpool halign hresolve hpost hpoison
    have hin : ¬ (2 ^ 48 ≤ c.split.pc.toNat ∨ inPool c.split.pc.toNat = true) := by simp [hpool]; omega
    simp only [State.fetch, if_neg hin, halign, hresolve, hpost, hpoison]
    rfl
  case misaligned =>
    intro s c hpc hpool halign
    have hin : ¬ (2 ^ 48 ≤ c.split.pc.toNat ∨ inPool c.split.pc.toNat = true) := by simp [hpool]; omega
    refine ⟨s.dropDenials (s.whoOf c.gid), ?_⟩
    simp only [State.fetch, if_neg hin, if_pos halign]
    exact congrArg (fun x => (Fetched.fault { FaultReq.plain 0x03 c.split.mask with addr := x, fetch := true }, _)) (BitVec.ofNat_toNat ..)
  case host =>
    intro s h hp hr ha hh pc off hpc hpkg htier hstripe hpoison i hi
    have hpick : s.pick = s.pickHost h := by simp [State.pick, hp, hr, ha, hh]
    rw [step, hpick, State.pickHost_of_word hpc hpkg htier hstripe hpoison hi]

end Sys2Proof.Proofs
end

