-- ==== Sys2Proof/Proofs/Retirement.lean ====
section
/-! SUPPORT. The issuer's end of an instruction (R310, R319), for a split and for a handler: what a retirement, a wait and
a note of the issue leave. -/

namespace Sys2Proof.Machine

open Sys2Proof.Claims

/-- A context that issues is that of a split of a group, or of a handler (R184). -/
theorem ctx_cases {s : State} {c : Ctx} (hctx : s.ctx = some c) :
    (∃ gid e g sp, s.turn.cur = some (.split gid e) ∧ FMap.find s.groups gid = some g ∧ FMap.find g.table e = some sp ∧ c = groupCtx g gid e sp) ∨
    (∃ hid h g, s.turn.cur = some (.handler hid) ∧ FMap.find s.handlers hid = some h ∧ FMap.find s.groups h.gid = some g ∧ c = handlerCtx h hid g) := by
  unfold State.ctx State.ctxOf at hctx
  split at hctx
  case h_1 gid e hcur =>
    split at hctx
    · next g hg =>
      split at hctx
      · next sp hsp => exact .inl ⟨gid, e, g, sp, hcur, hg, hsp, (Option.some.inj hctx).symm⟩
      · cases hctx
    · cases hctx
  case h_2 hid hcur =>
    split at hctx
    · next h hh =>
      split at hctx
      · next g hg => exact .inr ⟨hid, h, g, hcur, hh, hg, (Option.some.inj hctx).symm⟩
      · cases hctx
    · cases hctx
  case h_3 => cases hctx

/-- The issuer's group is there. -/
theorem group_of_ctx {s : State} {c : Ctx} (hctx : s.ctx = some c) : ∃ g, FMap.find s.groups c.gid = some g := by
  obtain ⟨gid, e, g, sp, hcur, hg, hsp, rfl⟩ | ⟨hid, h, g, hcur, hh, hg, rfl⟩ := ctx_cases hctx
  · exact ⟨g, hg⟩
  · exact ⟨g, hg⟩

/-- Outside single-lane mode the issuer is a split that stands in its group's table. -/
theorem split_of_ctx {s : State} {c : Ctx} (hctx : s.ctx = some c) (hs : c.single = false) :
    ∃ g, FMap.find s.groups c.gid = some g ∧ FMap.find g.table c.entry = some c.split ∧ c = groupCtx g c.gid c.entry c.split ∧
      s.turn.cur = some (.split c.gid c.entry) := by
  obtain ⟨gid, e, g, sp, hcur, hg, hsp, rfl⟩ | ⟨hid, h, g, hcur, hh, hg, rfl⟩ := ctx_cases hctx
  · exact ⟨g, hg, hsp, rfl, hcur⟩
  · cases hs

/-- In single-lane mode it is a handler. -/
theorem handler_of_ctx {s : State} {c : Ctx} (hctx : s.ctx = some c) (hs : c.single = true) :
    ∃ hid h g, s.turn.cur = some (.handler hid) ∧ FMap.find s.handlers hid = some h ∧ FMap.find s.groups h.gid = some g ∧ c = handlerCtx h hid g := by
  obtain ⟨gid, e, g, sp, hcur, hg, hsp, rfl⟩ | ⟨hid, h, g, hcur, hh, hg, rfl⟩ := ctx_cases hctx
  · cases hs
  · exact ⟨hid, h, g, hcur, hh, hg, rfl⟩

theorem who_of_single {s : State} {c : Ctx} (hctx : s.ctx = some c) (hs : c.single = true) : ∃ hid, c.who = .handler hid := by
  obtain ⟨hid, h, g, hcur, hh, hg, rfl⟩ := handler_of_ctx hctx hs
  exact ⟨hid, rfl⟩

/-! A split. -/

/-- The end of a split's issue notes the split as the last one to issue, unless the instruction had issued before (R140, R313). -/
theorem State.noteEnd_of_ctx {s0 s : State} {c c' : Ctx} {g : Group} (hctx : s0.ctx = some c) (hs : c.single = false)
    (hturn : s.turn.cur = s0.turn.cur) (hwho : c'.who = c.who) (hg : FMap.find s.groups c.gid = some g) :
    ∃ spin, s.noteEnd c c' = s.setGroup c.gid { g with lastSplit := if c.split.issued = none then c.entry else g.lastSplit, spin := spin } := by
  obtain ⟨g0, hg0, hsp0, hc, hcur⟩ := split_of_ctx hctx hs
  have hw : c.who = .split c.gid c.entry := who_of_ctx hctx hs
  rw [hw] at hwho
  simp only [State.noteEnd, hwho, State.modGroup_of_find hg, hturn, hcur, decide_true, Bool.true_and]
  by_cases hi : c.split.issued = none
  · exact ⟨_, by simp only [hi, Option.isNone_none, if_true]; rfl⟩
  · refine ⟨(g.noteChange (regsChanged c.regs c'.regs)).spin, ?_⟩
    have hisome : c.split.issued.isNone = false := by simpa [Option.isSome_iff_ne_none] using hi
    simp only [hi, hisome, Bool.false_eq_true, if_false]
    unfold Group.noteChange
    split <;> rfl

/-- The group of a split that retires. -/
def Group.retired (g : Group) (c : Ctx) (regs : Regs) (seed : Word) (npc : BitVec 64) (spin : SpinState) : Group :=
  { g with regs := { regs with mode := c.keepMode.getD regs.mode }, srseed := seed, table := FMap.insert g.table c.entry (c.advance npc).split,
           lastSplit := if c.split.issued = none then c.entry else g.lastSplit, spin := spin }

/-- A split's retirement changes its group alone (R310). -/
theorem State.retire_of_split {s0 s : State} {c : Ctx} {g : Group} (hctx : s0.ctx = some c) (hs : c.single = false)
    (hturn : s.turn.cur = s0.turn.cur) (hg : FMap.find s.groups c.gid = some g) (regs : Regs) (seed : Word) (npc : BitVec 64) :
    ∃ spin, s.retire c { c with regs := regs, seed := seed } npc = s.setGroup c.gid (g.retired c regs seed npc spin) := by
  have hw : c.who = .split c.gid c.entry := who_of_ctx hctx hs
  have hput : s.putCtx (({ c with regs := regs, seed := seed } : Ctx).advance npc) =
      s.setGroup c.gid (g.withCtx c.entry (({ c with regs := regs, seed := seed } : Ctx).advance npc)) := State.putCtx_of_find hw hg
  obtain ⟨spin, hnote⟩ := State.noteEnd_of_ctx (c' := { c with regs := regs, seed := seed }) hctx hs
    (s := s.setGroup c.gid (g.withCtx c.entry (({ c with regs := regs, seed := seed } : Ctx).advance npc))) hturn rfl (State.find_setGroup ..)
  refine ⟨spin, ?_⟩
  rw [State.retire, hput, hnote, State.setGroup_setGroup]
  rfl

/-! A handler. -/

/-- What a handler's instruction writes back: the seed of its group, and its own registers, pc, prefix state and wait (R184). -/
def State.putHandler (s : State) (hid gid : Nat) (g : Group) (h : Handler) : State :=
  { s.setGroup gid g with handlers := FMap.insert s.handlers hid h }

theorem State.putCtx_of_handler {s : State} {c : Ctx} {hid : Nat} {h : Handler} {g : Group} (hwho : c.who = .handler hid)
    (hh : FMap.find s.handlers hid = some h) (hg : FMap.find s.groups c.gid = some g) :
    s.putCtx c = s.putHandler hid c.gid { g with srseed := c.seed }
      { h with regs := c.regs, pc := c.split.pc, pfx := c.split.pfx, wait := c.split.wait } := by
  have hfind : FMap.find (s.setGroup c.gid { g with srseed := c.seed }).handlers hid = some h := hh
  simp only [State.putCtx, hwho, State.modGroup_of_find hg, hfind]
  rfl

/-- A handler's retirement changes its context and its group's seed alone. -/
theorem State.retire_of_handler {s : State} {c c0 : Ctx} {h : Handler} {hid : Nat} {g g0 : Group} (hc : c = handlerCtx h hid g0)
    (hh : FMap.find s.handlers hid = some h) (hg : FMap.find s.groups h.gid = some g) (regs : Regs) (seed : Word) (npc : BitVec 64) :
    s.retire c0 { c with regs := regs, seed := seed } npc =
      s.putHandler hid h.gid { g with srseed := seed } { h with regs := regs, pc := npc, pfx := .clear, wait := .none } := by
  subst hc
  exact State.putCtx_of_handler (c := ({ handlerCtx h hid g0 with regs := regs, seed := seed } : Ctx).advance npc) rfl hh hg

theorem onlyIssuer_putHandler (s : State) {c : Ctx} {hid : Nat} (hwho : c.who = .handler hid) (g : Group) (h : Handler) :
    OnlyIssuer s c (s.putHandler hid c.gid g h) := by
  refine ⟨rfl, fun k hk => FMap.find_insert_other s.groups (Ne.symm hk) g, fun k hk => FMap.find_insert_other s.handlers (fun heq => hk ?_) h⟩
  rw [hwho, heq]

/-- A handler that holds a context lets itself read it back. -/
theorem holds_putHandler (s : State) {h : Handler} {hid : Nat} {g g' : Group} {h' : Handler} {regs : Regs} {seed : Word} {sp : Split}
    (hgid : h'.gid = h.gid) (hregs : h'.regs = regs) (hseed : g'.srseed = seed) (hsplit : sp = (handlerCtx h' hid g').split) :
    Holds (s.putHandler hid h.gid g' h') (handlerCtx h hid g) regs seed sp := by
  have hissued : sp.issued = none := by rw [hsplit]; rfl
  have hfind : FMap.find (s.putHandler hid h.gid g' h').handlers hid = some h' := FMap.find_insert_same ..
  have hgroup : FMap.find (s.putHandler hid h.gid g' h').groups h'.gid = some g' := by rw [hgid]; exact FMap.find_insert_same ..
  refine ⟨handlerCtx h' hid g', ?_, ?_, hseed, hsplit.symm⟩
  · simp only [State.ctxOf, handlerCtx, hfind, hgroup]
  · rw [settled, hissued]
    exact hregs

/-! Either. -/

/-- A retirement touches its issuer alone, which goes on after it (R310). -/
theorem retire_goes {s : State} {c : Ctx} (hctx : s.ctx = some c) (regs : Regs) (seed : Word) (npc : BitVec 64) :
    OnlyIssuer s c (s.retire c { c with regs := regs, seed := seed } npc) ∧
    GoesOn (s.retire c { c with regs := regs, seed := seed } npc) c regs seed npc := by
  obtain hs | hs := Bool.eq_false_or_eq_true c.single
  case inr =>
    obtain ⟨g, hg, hsp, hc, hcur⟩ := split_of_ctx hctx hs
    obtain ⟨spin, ht⟩ := State.retire_of_split hctx hs rfl hg regs seed npc
    rw [ht]
    exact ⟨onlyIssuer_setGroup .., holds_setGroup s (who_of_ctx hctx hs) rfl rfl (FMap.find_insert_same ..)⟩
  case inl =>
    obtain ⟨hid, h, g, hcur, hh, hg, hc⟩ := handler_of_ctx hctx hs
    rw [State.retire_of_handler hc hh hg, hc]
    exact ⟨onlyIssuer_putHandler (c := handlerCtx h hid g) s rfl _ _, holds_putHandler s rfl rfl rfl rfl⟩

end Sys2Proof.Machine

namespace Sys2Proof.Proofs

open Sys2Proof.Machine Sys2Proof.Claims

/-- Settles O12: `State.retire_of_split` and `State.retire_of_handler` give the state that a retirement leaves. -/
theorem retireFrame : Obligations.RetireFrame := by
  unfold Obligations.RetireFrame
  intro s c regs seed npc hctx
  obtain ⟨honly, hgoes⟩ := retire_goes hctx regs seed npc
  refine ⟨honly, hgoes, fun gid e hwho => ?split, fun hid hwho => ?handler⟩
  case split =>
    have hs : c.single = false := by
      refine Classical.byContradiction fun hs => ?_
      obtain ⟨hid, hhandler⟩ := who_of_single hctx (by simpa using hs)
      cases hwho.symm.trans hhandler
    obtain ⟨g, hg, hsp, hc, hcur⟩ := split_of_ctx hctx hs
    obtain ⟨spin, ht⟩ := State.retire_of_split hctx hs rfl hg regs seed npc
    obtain ⟨rfl, rfl⟩ : c.gid = gid ∧ c.entry = e := by simpa using (who_of_ctx hctx hs).symm.trans hwho
    exact ⟨g, spin, hg, by rw [ht, State.find_setGroup, Group.retired]⟩
  case handler =>
    have hs : c.single = true := by
      refine Classical.byContradiction fun hs => ?_
      cases hwho.symm.trans (who_of_ctx hctx (by simpa using hs))
    obtain ⟨hid', h, g, hcur, hh, hg, hc⟩ := handler_of_ctx hctx hs
    have hgid : c.gid = h.gid := by rw [hc]; rfl
    obtain rfl : hid' = hid := by simpa [hc, handlerCtx] using hwho
    rw [State.retire_of_handler hc hh hg, hgid]
    exact ⟨g, h, hg, hh, FMap.find_insert_same .., FMap.find_insert_same ..⟩

end Sys2Proof.Proofs
end

