-- ==== Sys2Proof/Proofs/ControlFlow.lean ====
section
/-! SUPPORT. The control instructions (chapter 11): prefixes, MODE, branches, jumps and calls, JOIN and EXIT. -/

namespace Sys2Proof.Machine

open Sys2Proof.Claims

/-! What an issuer's regsOf and pcOf say of the context that it holds. -/

theorem pcOf_of_holds {t : State} {c : Ctx} {regs : Regs} {seed : Word} {sp : Split} (h : Holds t c regs seed sp) : pcOf t c.who = some sp.pc := by
  obtain ⟨c', hctx, hregs, hseed, rfl⟩ := h
  unfold State.ctxOf at hctx
  split at hctx
  case h_1 gid e hwho =>
    rw [Option.some.inj hwho]
    split at hctx
    · next g hg =>
      split at hctx
      · next sp hsp =>
        obtain rfl := Option.some.inj hctx
        simp [pcOf, hg, hsp, groupCtx]
      · cases hctx
    · cases hctx
  case h_2 hid hwho =>
    rw [Option.some.inj hwho]
    split at hctx
    · next h hh =>
      split at hctx
      · obtain rfl := Option.some.inj hctx
        simp [pcOf, hh, handlerCtx]
      · cases hctx
    · cases hctx
  case h_3 => cases hctx

/-- The registers that an issuer without an instruction in flight names. -/
theorem regsOf_of_holds {t : State} {c : Ctx} {regs : Regs} {seed : Word} {sp : Split} (h : Holds t c regs seed sp) (hsp : sp.issued = none) :
    regsOf t c.who = some { regs with mode := c.keepMode.getD regs.mode } := by
  obtain ⟨c', hctx, hregs, hseed, rfl⟩ := h
  rw [settled, hsp] at hregs
  unfold State.ctxOf at hctx
  split at hctx
  case h_1 gid e hwho =>
    rw [Option.some.inj hwho]
    split at hctx
    · next g hg =>
      split at hctx
      · next sp _ =>
        obtain rfl := Option.some.inj hctx
        have hissued : sp.issued = none := hsp
        have hg' : (groupCtx g gid e sp).regs = g.regs := by rw [groupCtx, hissued]; rfl
        rw [hg'] at hregs
        simpa [regsOf, hg] using hregs
      · cases hctx
    · cases hctx
  case h_2 hid hwho =>
    rw [Option.some.inj hwho]
    split at hctx
    · next h hh =>
      split at hctx
      · obtain rfl := Option.some.inj hctx
        simpa [regsOf, hh, handlerCtx] using hregs
      · cases hctx
    · cases hctx
  case h_3 => cases hctx

/-- The registers of the issuer, as its context shows them (R313). -/
theorem regsOf_of_ctx {s : State} {c : Ctx} (hctx : s.ctx = some c) : regsOf s c.who = some { c.regs with mode := c.keepMode.getD c.regs.mode } := by
  obtain ⟨gid, e, g, sp, hcur, hg, hsp, rfl⟩ | ⟨hid, h, g, hcur, hh, hg, rfl⟩ := ctx_cases hctx
  · have hmode : (groupCtx g gid e sp).keepMode.getD (groupCtx g gid e sp).regs.mode = g.regs.mode := by
      cases hi : sp.issued <;> simp [groupCtx, hi]
    simp only [regsOf, groupCtx, hg, Option.map_some] at hmode ⊢
    rw [hmode]
  · simp [regsOf, handlerCtx, hh]

/-! Prefixes (R309). -/

/-- The split as a prefix leaves it. -/
def Split.prefixed (sp : Split) (p : PfxState) : Split := { sp with pc := sp.pc + 4#64, pfx := p, retry := none, poisonAct := false, issued := none }

/-- A prefix that its state admits goes on with the new prefix state and touches nothing else. -/
theorem goes_of_prefix {i : Instr} {f : PfxState → Option PfxState} {s : State} {c : Ctx} {p : PfxState}
    (hx : exec i s = issue i true (setPrefixState f) s) (hctx : s.ctx = some c) (hf : f c.split.pfx = some p) :
    Goes i s c c.regs c.seed (c.split.prefixed p) := by
  let c' : Ctx := { c with split := c.split.prefixed p }
  have hend : exec i s = .next (if c.single then s.putCtx c' else (s.putCtx c').modGroup c.gid (fun g => g.noteIssue c.entry false)) := by
    rw [hx, issue_of_ctx hctx (fun _ => rfl), setPrefixState, hf]
    rfl
  refine ⟨_, hend, ?_⟩
  obtain hs | hs := Bool.eq_false_or_eq_true c.single
  case inr =>
    obtain ⟨g, hg, hsp, hc, hcur⟩ := split_of_ctx hctx hs
    have hwho : c.who = .split c.gid c.entry := who_of_ctx hctx hs
    rw [if_neg (by simp [hs]), State.putCtx_of_find (c := c') hwho hg, State.modGroup_of_find (State.find_setGroup ..), State.setGroup_setGroup]
    exact ⟨onlyIssuer_setGroup .., holds_setGroup s hwho rfl rfl (FMap.find_insert_same ..)⟩
  case inl =>
    obtain ⟨hid, h, g, hcur, hh, hg, rfl⟩ := handler_of_ctx hctx hs
    rw [if_pos hs, State.putCtx_of_handler (c := c') (hid := hid) rfl hh hg]
    exact ⟨onlyIssuer_putHandler (c := handlerCtx h hid g) s rfl _ _, holds_putHandler s rfl rfl rfl rfl⟩

/-- A second prefix of a kind raises ILLEGAL_OP. -/
theorem raises_of_prefix {i : Instr} {f : PfxState → Option PfxState} {s : State} {c : Ctx}
    (hx : exec i s = issue i true (setPrefixState f) s) (hctx : s.ctx = some c) (hf : f c.split.pfx = none) :
    Raises i s c fIllegalOp c.split.mask 0#64 := by
  refine ⟨.plain fIllegalOp c.split.mask, rfl, rfl, rfl, ?_⟩
  rw [hx, issue_of_ctx hctx (fun _ => rfl), setPrefixState, hf]
  rfl

/-! Branches (R334, R335). -/

/-- An instruction that retires goes on. -/
theorem goes_of_retires {i : Instr} {s : State} {c : Ctx} {regs : Regs} {seed : Word} {npc : BitVec 64} (hctx : s.ctx = some c)
    (h : Retires i s c regs seed npc) : Goes i s c regs seed (c.advance npc).split :=
  ⟨_, h, retire_goes hctx regs seed npc⟩

/-- A taken branch is noted in its group's spin detector, and in nothing else (R143). -/
theorem State.noteTaken_of_find {s : State} {c : Ctx} {g : Group} (hs : c.single = false) (hg : FMap.find s.groups c.gid = some g)
    (target : BitVec 64) :
    s.noteTaken c target = s.setGroup c.gid { g with spin := g.spin.taken c.split.pc target (s.freeNow (hidOf c.gid)) } := by
  simp only [State.noteTaken, hs, Bool.false_eq_true, if_false, State.modGroup_of_find hg]

/-- A taken branch goes on at its target. -/
theorem goes_of_taken {i : Instr} {s : State} {c : Ctx} {target : BitVec 64} (hctx : s.ctx = some c)
    (hx : exec i s = .next ((s.noteTaken c target).retire c c target)) : Goes i s c c.regs c.seed (c.advance target).split := by
  obtain hs | hs := Bool.eq_false_or_eq_true c.single
  case inr =>
    obtain ⟨g, hg, hsp, hc, hcur⟩ := split_of_ctx hctx hs
    rw [State.noteTaken_of_find hs hg] at hx
    obtain ⟨hgoes, honly, _⟩ := goesOn_of_retire (s := s) (who_of_ctx hctx hs) target
      { g with spin := g.spin.taken c.split.pc target (s.freeNow (hidOf c.gid)) }
    exact ⟨_, hx, honly, hgoes⟩
  case inl =>
    rw [State.noteTaken, if_pos hs] at hx
    exact goes_of_retires hctx hx

theorem Ctx.target_eq {w : Nat} (c : Ctx) (i : BitVec w) : c.target i = c.split.pc + 4#64 * i.signExtend 64 := rfl

/-- BRA's end (R334). -/
theorem exec_bra {s : State} {c : Ctx} (hctx : s.ctx = some c) (i : BitVec 24) :
    exec (.bra i) s = .next ((s.noteTaken c (c.target i)).retire c c (c.target i)) := by
  have hx : exec (.bra i) s = execBra i s := rfl
  rw [hx, execBra, issue_of_ctx hctx (fun _ => rfl)]
  rfl

/-- An instruction that goes on with its registers as they were leaves what its issuer names, and stands at its new pc. -/
theorem branches_of_goes {i : Instr} {s : State} {c : Ctx} {sp : Split} {p q : BitVec 64} (hctx : s.ctx = some c)
    (h : Goes i s c c.regs c.seed sp) (hissued : sp.issued = none) (hpc : sp.pc = p ∨ sp.pc = q) :
    ∃ t, exec i s = .next t ∧ OnlyIssuer s c t ∧ regsOf t c.who = regsOf s c.who ∧ (pcOf t c.who = some p ∨ pcOf t c.who = some q) := by
  obtain ⟨t, hx, honly, hholds⟩ := h
  refine ⟨t, hx, honly, by rw [regsOf_of_holds hholds hissued, regsOf_of_ctx hctx], ?_⟩
  rw [pcOf_of_holds hholds]
  exact hpc.imp (congrArg some) (congrArg some)

/-- The threads of the split that take a branch (R335). -/
def Ctx.taking (c : Ctx) (d : BitVec 8) : BitVec 64 := maskOf ((threadsOf c.split.mask).filter (fun t => c.regs.read32 c.xi t d != 0#32))

theorem Ctx.getLsbD_taking (c : Ctx) (d : BitVec 8) {k : Nat} (hk : k < 64) :
    (c.taking d).getLsbD k = true ↔ c.split.mask.getLsbD k = true ∧ c.regs.read32 c.xi k d ≠ 0#32 := by
  rw [Ctx.taking, getLsbD_maskOf_filter _ _ hk, bne_iff_ne]

/-- The whole split takes the branch: by its lowest thread in the uniform form. -/
def Ctx.allTake (c : Ctx) (u : Bool) (d : BitVec 8) : Bool := if u then c.regs.read32 c.xi c.lane d != 0#32 else decide (c.taking d = c.split.mask)

/-- None of it does. -/
def Ctx.noneTake (c : Ctx) (u : Bool) (d : BitVec 8) : Bool := if u then c.regs.read32 c.xi c.lane d == 0#32 else decide (c.taking d = 0#64)

theorem Ctx.allTake_true (c : Ctx) (d : BitVec 8) : c.allTake true d = true ↔ c.regs.read32 c.xi c.lane d ≠ 0#32 := by simp [Ctx.allTake]

theorem Ctx.noneTake_true (c : Ctx) (d : BitVec 8) : c.noneTake true d = true ↔ c.regs.read32 c.xi c.lane d = 0#32 := by simp [Ctx.noneTake]

theorem Ctx.allTake_false (c : Ctx) (d : BitVec 8) : c.allTake false d = true ↔ c.taking d = c.split.mask := by simp [Ctx.allTake]

theorem Ctx.noneTake_false (c : Ctx) (d : BitVec 8) : c.noneTake false d = true ↔ c.taking d = 0#64 := by simp [Ctx.noneTake]

theorem Ctx.taking_eq_mask (c : Ctx) (d : BitVec 8) :
    c.taking d = c.split.mask ↔ ∀ t, t < 64 ∧ c.split.mask.getLsbD t = true → c.regs.read32 c.xi t d ≠ 0#32 := by
  refine ⟨fun h t ht => ?_, fun h => BitVec.eq_of_getLsbD_eq fun k hk => Bool.eq_iff_iff.2 ?_⟩
  · exact ((c.getLsbD_taking d ht.1).1 (by rw [h]; exact ht.2)).2
  · rw [c.getLsbD_taking d hk]
    exact ⟨fun hm => hm.1, fun hm => ⟨hm, h k ⟨hk, hm⟩⟩⟩

theorem Ctx.taking_eq_zero (c : Ctx) (d : BitVec 8) :
    c.taking d = 0#64 ↔ ∀ t, t < 64 ∧ c.split.mask.getLsbD t = true → ¬ c.regs.read32 c.xi t d ≠ 0#32 := by
  refine ⟨fun h t ht htakes => ?_, fun h => BitVec.eq_of_getLsbD_eq fun k hk => Bool.eq_iff_iff.2 ?_⟩
  · have hmem := (c.getLsbD_taking d ht.1).2 ⟨ht.2, htakes⟩
    rw [h, BitVec.getLsbD_zero] at hmem
    cases hmem
  · rw [c.getLsbD_taking d hk, BitVec.getLsbD_zero]
    exact ⟨fun hm => absurd hm.2 (h k ⟨hk, hm.1⟩), fun hm => by cases hm⟩

/-- BRC's end with a valid condition register (R335). -/
theorem exec_brc {s : State} {c : Ctx} (hctx : s.ctx = some c) (u : Bool) {d : BitVec 8} (i : BitVec 16)
    (hd : src32Ok c.allot false d = true) (hbusy : (c.accBusy && touchesAcc 1 d) = false) :
    exec (.brc u d i) s = finish c ((encode (.brc u d i)).getD 0#32)
      (if c.allTake u d then .retire (s.noteTaken c (c.target i)) c (c.target i)
      else if c.noneTake u d then Done.seq s c
      else divide s c (c.taking d) (c.target i)) := by
  have hx : exec (.brc u d i) s = execBrc u d i s := rfl
  rw [hx, execBrc, issue_of_ctx hctx (fun _ => rfl)]
  simp only [hd, hbusy, Bool.not_true, Bool.false_eq_true, if_false]
  rfl

theorem FMap.mem_of_find {α : Type} {m : FMap α} {k : Nat} {v : α} (h : FMap.find m k = some v) : (k, v) ∈ m := by
  induction m with
  | nil => cases h
  | cons q r ih =>
    obtain ⟨j, x⟩ := q
    by_cases hj : j = k
    · subst hj
      rw [FMap.find, if_pos rfl] at h
      rw [Option.some.inj h]
      exact List.mem_cons_self
    · rw [FMap.find, if_neg hj] at h
      exact List.mem_cons_of_mem _ (ih h)

/-- A free entry that a search finds holds no split. -/
theorem freeEntryFrom_free (t : FMap Split) (n e k : Nat) (h : freeEntryFrom t n e = some k) : FMap.find t k = none := by
  induction n generalizing e with
  | zero => cases h
  | succ n ih =>
    rw [freeEntryFrom] at h
    split at h
    · next hfree =>
      rw [← Option.some.inj h]
      simpa using hfree
    · exact ih _ h

/-- Placing a new split keeps the entries that hold one. -/
theorem Group.placeSplit_keeps (g : Group) (e0 e : Nat) (sp new : Split) (he : FMap.find g.table e = some sp) :
    FMap.find (g.placeSplit e0 new).table e = some sp := by
  unfold Group.placeSplit
  simp only
  split
  · next k hk =>
    have hne : k ≠ e := by
      rintro rfl
      rw [freeEntryFrom_free _ _ _ _ hk] at he
      cases he
    rw [FMap.find_insert_other _ hne]
    exact he
  · exact he

/-- The new split is one of the group's, in the table or on the stack (R336). -/
theorem Group.placeSplit_mem (g : Group) (e0 : Nat) (new : Split) : { new with born := g.births } ∈ (g.placeSplit e0 new).splits := by
  unfold Group.placeSplit Group.splits
  simp only
  split
  · refine List.mem_append_left _ (List.mem_map.2 ⟨(_, _), FMap.mem_of_find (FMap.find_insert_same ..), rfl⟩)
  · exact List.mem_append_right _ List.mem_cons_self

theorem Group.placeSplit_regs (g : Group) (e0 : Nat) (new : Split) : (g.placeSplit e0 new).regs = g.regs := by
  unfold Group.placeSplit
  simp only
  split <;> rfl

theorem Group.placeSplit_parents (g : Group) (e0 : Nat) (new : Split) : (g.placeSplit e0 new).parents = g.parents := by
  unfold Group.placeSplit
  simp only
  split <;> rfl

/-- The threads of a divided split that go on (R336). -/
def Group.staying (g : Group) (c : Ctx) (taken : BitVec 64) : Split :=
  ⟨c.split.mask &&& ~~~taken, c.split.pc + 4#64, some g.newRecord, .clear, .none, none, false, c.split.born, none⟩

/-- Those that leave for the target. -/
def Group.leaving (g : Group) (taken target : BitVec 64) (born : Nat) : Split :=
  ⟨taken, target, some g.newRecord, .clear, .none, none, false, born, none⟩

/-- The group after a BRC has divided a split. -/
def Group.divided (g : Group) (c : Ctx) (taken target : BitVec 64) : Group :=
  ({ g with parents := FMap.insert g.parents g.newRecord c.split.drec, table := FMap.insert g.table c.entry (g.staying c taken) }).placeSplit c.entry
    (g.leaving taken target 0)

theorem Group.divided_staying (g : Group) (c : Ctx) (taken target : BitVec 64) :
    FMap.find (g.divided c taken target).table c.entry = some (g.staying c taken) :=
  Group.placeSplit_keeps _ _ _ _ _ (FMap.find_insert_same ..)

theorem Group.divided_leaving (g : Group) (c : Ctx) (taken target : BitVec 64) :
    g.leaving taken target g.births ∈ (g.divided c taken target).splits :=
  Group.placeSplit_mem _ _ _

theorem Group.divided_regs (g : Group) (c : Ctx) (taken target : BitVec 64) : (g.divided c taken target).regs = g.regs :=
  Group.placeSplit_regs _ _ _

theorem Group.divided_parents (g : Group) (c : Ctx) (taken target : BitVec 64) :
    FMap.find (g.divided c taken target).parents g.newRecord = some c.split.drec := by
  rw [Group.divided, Group.placeSplit_parents]
  exact FMap.find_insert_same ..

/-- The threads that stay are those whose condition is zero. -/
theorem Group.getLsbD_staying (g : Group) (c : Ctx) (d : BitVec 8) {k : Nat} (hk : k < 64) :
    (g.staying c (c.taking d)).mask.getLsbD k = true ↔ c.split.mask.getLsbD k = true ∧ ¬ c.regs.read32 c.xi k d ≠ 0#32 := by
  have htaking := c.getLsbD_taking d hk
  rw [Group.staying, BitVec.getLsbD_and, BitVec.getLsbD_not, Bool.and_eq_true, Bool.and_eq_true, Bool.not_eq_true', ← Bool.not_eq_true, htaking]
  simp only [hk, decide_true, true_and]
  exact ⟨fun h => ⟨h.1, fun ht => h.2 ⟨h.1, ht⟩⟩, fun h => ⟨h.1, fun ht => h.2 ht.2⟩⟩

/-- Where the group has room, the split divides, and its group alone changes (R336). -/
theorem divide_of_room {s : State} {c : Ctx} {g : Group} (hs : c.single = false) (hg : FMap.find s.groups c.gid = some g) (hroom : g.splitRoom ≠ 0)
    (taken target : BitVec 64) :
    ∃ last spin, divide s c taken target = .next (s.setGroup c.gid { g.divided c taken target with lastSplit := last, spin := spin }) := by
  simp only [divide, hg, if_neg hroom]
  rw [State.noteTaken_of_find hs (State.find_setGroup ..), State.setGroup_setGroup]
  exact ⟨_, _, rfl⟩

/-- A handler's one thread agrees with itself: its branch never divides (R184). -/
theorem Ctx.taking_of_single {s : State} {c : Ctx} (hctx : s.ctx = some c) (hs : c.single = true) (d : BitVec 8) :
    c.taking d = c.split.mask ∨ c.taking d = 0#64 := by
  obtain ⟨hid, h, g, hcur, hh, hg, rfl⟩ := handler_of_ctx hctx hs
  have honly : ∀ t, t < 64 ∧ (handlerCtx h hid g).split.mask.getLsbD t = true → t = 0 := by
    rintro t ⟨ht, hmem⟩
    simpa [handlerCtx, -BitVec.getLsbD_eq_getElem, ht] using hmem
  by_cases hzero : (handlerCtx h hid g).regs.read32 (handlerCtx h hid g).xi 0 d = 0#32
  · exact .inr ((Ctx.taking_eq_zero ..).2 fun t ht => by rw [honly t ht]; exact Classical.not_not.2 hzero)
  · exact .inl ((Ctx.taking_eq_mask ..).2 fun t ht => by rw [honly t ht]; exact hzero)

/-! JOIN and EXIT (R337, R338). -/

/-- A group holds its split's context already. -/
theorem Group.withCtx_of_ctx {s : State} {c : Ctx} {g : Group} (hctx : s.ctx = some c) (hs : c.single = false)
    (hg : FMap.find s.groups c.gid = some g) (sp : Split) :
    g.withCtx c.entry { c with split := sp } = { g with table := FMap.insert g.table c.entry sp } := by
  obtain ⟨g0, hg0, hsp, hc, hcur⟩ := split_of_ctx hctx hs
  obtain rfl : g0 = g := Option.some.inj (hg0.symm.trans hg)
  rw [hc]
  cases hi : c.split.issued <;> simp [Group.withCtx, groupCtx, hi]

/-- Writing a split back under its own context changes its table entry alone. -/
theorem State.putCtx_split {s : State} {c : Ctx} {g : Group} (hctx : s.ctx = some c) (hs : c.single = false)
    (hg : FMap.find s.groups c.gid = some g) (sp : Split) :
    s.putCtx { c with split := sp } = s.setGroup c.gid { g with table := FMap.insert g.table c.entry sp } := by
  have hwho : c.who = .split c.gid c.entry := who_of_ctx hctx hs
  rw [State.putCtx_of_find (c := { c with split := sp }) hwho hg, Group.withCtx_of_ctx hctx hs hg]

theorem Group.getLsbD_openLanes (g : Group) (m : BitVec 64) {k : Nat} (hk : k < 64) :
    (g.openLanes m).getLsbD k = true ↔ m.getLsbD k = true ∧ (g.lane k).isOpen = true := getLsbD_maskOf_filter _ _ hk

theorem getLsbD_not_zero {k : Nat} (hk : k < 64) : (~~~0#64).getLsbD k = true := by
  rw [BitVec.getLsbD_not, BitVec.getLsbD_zero, Bool.not_false, Bool.and_true, decide_eq_true hk]

/-- The open lanes of a mask are open lanes of the whole group. -/
theorem Group.openLanes_sub {g : Group} {m : BitVec 64} (h : g.openLanes (~~~0#64) = 0#64) : g.openLanes m = 0#64 := by
  refine BitVec.eq_of_getLsbD_eq fun k hk => ?_
  rw [BitVec.getLsbD_zero, Bool.eq_false_iff, ne_eq, g.getLsbD_openLanes m hk]
  rintro ⟨-, hopen⟩
  have hmem := (g.getLsbD_openLanes _ hk).2 ⟨getLsbD_not_zero hk, hopen⟩
  rw [h, BitVec.getLsbD_zero] at hmem
  cases hmem

/-- Where no lane is in a transaction, an instruction that may not execute in one goes on (R221). -/
theorem txIllegal_of_none {s : State} {c : Ctx} (h : ∀ g, FMap.find s.groups c.gid = some g → g.openLanes (~~~0#64) = 0#64) (op : Nat)
    (m : BitVec 64) (k : State → Ctx → Done) : txIllegal op m k s c = k s c := by
  unfold txIllegal
  split
  · rfl
  · next g hg =>
    have hbad : (if c.single then 0#64 else g.openLanes (m &&& c.split.mask)) = 0#64 := by
      rw [Group.openLanes_sub (h g hg), ite_self]
    simp only [hbad, if_true]

/-! Jumps and calls (R339, R340). -/

/-- A target on which every thread of the split agrees, and which is aligned, passes (R339). -/
theorem Ctx.jumpTarget_ok {c : Ctx} {a : BitVec 8} (hsame : ∀ t, c.split.mask.getLsbD t = true → c.regs.read64 c.xi t a = c.regs.read64 c.xi c.lane a)
    (halign : (c.regs.read64 c.xi c.lane a).toNat % 4 = 0) : c.jumpTarget a = .ok (c.regs.read64 c.xi c.lane a) := by
  have hnone : (threadsOf c.split.mask).filter (fun t => c.regs.read64 c.xi t a != c.regs.read64 c.xi c.lane a) = [] := by
    refine List.filter_eq_nil_iff.2 fun t ht => ?_
    simp [hsame t ((mem_threadsOf _ _).1 ht).2]
  simp [Ctx.jumpTarget, hnone, maskOf, halign]

/-- One 64-bit write, read back in each file (R163). -/
theorem Regs.getV_write64 (r : Regs) (d : BitVec 8) (x : DWord) {t u : Nat} (ht : t < 64) (hu : u < 64) (n : Nat) :
    (r.write64 t d x).getV n u = if u = t then mainAfter true d x n (r.getV n u) else r.getV n u := by
  cases hd : specOf d with
  | v k =>
    by_cases hut : u = t
    · by_cases h1 : n = k <;> by_cases h2 : n = k + 1 <;> simp [Regs.write64, mainAfter, Regs.getV_setV, hd, ht, hut, h1, h2]
    · simp [Regs.write64, Regs.getV_setV, hd, ht, hu, hut]
  | _ => simp [Regs.write64, mainAfter, hd]

theorem Regs.getO_write64 (r : Regs) (d : BitVec 8) (x : DWord) {t u : Nat} (ht : t < 64) (hu : u < 64) (n : Nat) :
    (r.write64 t d x).getO n u = if u = t then operandAfter true d x n (r.getO n u) else r.getO n u := by
  cases hd : specOf d with
  | o k =>
    by_cases hut : u = t
    · by_cases h1 : n = k <;> by_cases h2 : n = k + 1 <;> simp [Regs.write64, operandAfter, Regs.getO_setO, hd, ht, hut, h1, h2]
    · simp [Regs.write64, Regs.getO_setO, hd, ht, hu, hut]
  | _ => simp [Regs.write64, operandAfter, hd]

theorem Regs.write64_rest (r : Regs) (t : Nat) (d : BitVec 8) (x : DWord) :
    ((r.write64 t d x).l, (r.write64 t d x).mode, (r.write64 t d x).cvmode) = (r.l, r.mode, r.cvmode) := by
  unfold Regs.write64
  cases specOf d <;> rfl

/-- Every thread of a mask writes its 64-bit value, and no latch moves (R163). -/
theorem wrote_foldl_write64 (r : Regs) (m : BitVec 64) (d : BitVec 8) (f : Nat → DWord) :
    Wrote r m true false d f ((threadsOf m).foldl (fun r t => r.write64 t d (f t)) r) := by
  have hrest := foldl_keep (fun r : Regs => (r.l, r.mode, r.cvmode)) (fun r t => r.write64 t d (f t)) (fun r t => r.write64_rest t d (f t)) (threadsOf m) r
  simp only [Prod.mk.injEq] at hrest
  obtain ⟨hl, hmode, hcvmode⟩ := hrest
  refine ⟨fun u n hu => ?main, fun u n hu => ?operand, fun u _ => ?low, fun u _ => ?high, hmode, hcvmode⟩
  case main =>
    refine foldl_threadsOf (fun r => r.getV n u) (fun r t => r.write64 t d (f t)) (mainAfter true d (f u) n) hu (fun r t ht => ?_) m r
    rw [r.getV_write64 d (f t) ht hu]
    split
    · next h => rw [h]
    · rfl
  case operand =>
    refine foldl_threadsOf (fun r => r.getO n u) (fun r t => r.write64 t d (f t)) (operandAfter true d (f u) n) hu (fun r t ht => ?_) m r
    rw [r.getO_write64 d (f t) ht hu]
    split
    · next h => rw [h]
    · rfl
  case low => simp only [Regs.getL, hl, Bool.and_false, Bool.false_eq_true, if_false]
  case high => simp only [Regs.getL, hl, Bool.and_false, Bool.false_eq_true, if_false]

end Sys2Proof.Machine

namespace Sys2Proof.Proofs

open Sys2Proof.Machine Sys2Proof.Claims

/-- Settles O14: the clauses are the branches of `exec_brc`; where threads differ, `Group.divided` is the group that is left. -/
theorem branchOutcomes : Obligations.BranchOutcomes := by
  unfold Obligations.BranchOutcomes
  intro s c u d i hctx hd hbusy target takes member next
  have hx := exec_brc hctx u i hd hbusy
  have htaking : ∀ k, k < 64 → ((c.taking d).getLsbD k = true ↔ c.split.mask.getLsbD k = true ∧ takes k) := fun k hk => c.getLsbD_taking d hk
  have hall : c.taking d = c.split.mask ↔ ∀ t, member t → takes t := c.taking_eq_mask d
  have hnone : c.taking d = 0#64 ↔ ∀ t, member t → ¬ takes t := c.taking_eq_zero d
  refine ⟨?uniformTaken, ?uniformNot, ?allTake, ?noneTake, ?differ⟩
  case uniformTaken =>
    intro hu ht
    refine goes_of_taken hctx (hx.trans ?_)
    rw [hu, if_pos ((c.allTake_true d).2 ht)]
    rfl
  case uniformNot =>
    intro hu ht
    have hzero : c.regs.read32 c.xi c.lane d = 0#32 := Classical.not_not.1 ht
    refine goes_of_retires hctx (hx.trans ?_)
    rw [hu, if_neg fun h => (c.allTake_true d).1 h hzero, if_pos ((c.noneTake_true d).2 hzero)]
    rfl
  case allTake =>
    intro hu ht
    refine goes_of_taken hctx (hx.trans ?_)
    rw [hu, if_pos ((c.allTake_false d).2 (hall.2 ht))]
    rfl
  case noneTake =>
    intro hu ⟨t, ht⟩ hnot
    have hne : c.taking d ≠ c.split.mask := fun h => hnot t ht (hall.1 h t ht)
    refine goes_of_retires hctx (hx.trans ?_)
    rw [hu, if_neg fun h => hne ((c.allTake_false d).1 h), if_pos ((c.noneTake_false d).2 (hnone.2 hnot))]
    rfl
  case differ =>
    intro hu hs ⟨t, ht, htakes⟩ ⟨t', ht', hnot⟩ g hg
    have hne : c.taking d ≠ c.split.mask := fun h => hnot (hall.1 h t' ht')
    have hnz : c.taking d ≠ 0#64 := fun h => hnone.1 h t ht htakes
    rw [hu, if_neg fun h => hne ((c.allTake_false d).1 h), if_neg fun h => hnz ((c.noneTake_false d).1 h)] at hx
    refine ⟨fun hroom => ⟨.plain fSplitOverflow c.split.mask, rfl, rfl, rfl, ?_⟩, fun hroom => ?_⟩
    · rw [hu, hx, divide, hg]
      simp only [if_pos hroom]
      rfl
    · obtain ⟨last, spin, hdivide⟩ := divide_of_room hs hg hroom (c.taking d) (c.target i)
      rw [hdivide] at hx
      exact ⟨_, { g.divided c (c.taking d) (c.target i) with lastSplit := last, spin := spin }, g.staying c (c.taking d),
        g.leaving (c.taking d) (c.target i) g.births, g.newRecord, by rw [hu]; exact hx, onlyIssuer_setGroup .., State.find_setGroup ..,
        g.divided_staying .., g.divided_leaving .., g.divided_regs .., rfl, rfl, rfl, rfl, rfl, g.divided_parents .., htaking,
        fun k hk => g.getLsbD_staying c d hk⟩

/-- Settles O13: each instruction's end under the checks that its clause names. -/
theorem controlResults : Obligations.ControlResults := by
  unfold Obligations.ControlResults
  intro s c hctx pc jump linkOk linked prefixed
  refine ⟨?nop, ?ext, ?exth, ?extTwice, ?exthTwice, ?setm, ?setcv, ?bra, ?jmpi, ?call, ?calli, ?brc⟩
  case nop =>
    refine goes_of_retires hctx (?_ : Retires .nop s c c.regs c.seed (pc + 4#64))
    rw [Retires, show exec .nop s = execNop s from rfl, execNop, issue_of_ctx hctx fun _ => rfl]
    rfl
  case ext => exact fun i hp => goes_of_prefix rfl hctx (by simp [hp])
  case exth => exact fun i hp => goes_of_prefix rfl hctx (by simp [hp])
  case extTwice => exact fun i hp => raises_of_prefix rfl hctx (by simp [hp])
  case exthTwice => exact fun i hp => raises_of_prefix rfl hctx (by simp [hp])
  case setm =>
    intro i hvalue hguard
    rw [Retires, show exec (.setm i) s = execSetm i s from rfl, execSetm, issue_of_ctx hctx fun _ => rfl]
    simp only [hvalue, hguard, Bool.not_true, Bool.false_eq_true, if_false]
    rfl
  case setcv =>
    intro b hb hbusy hvalue
    rw [Retires, show exec (.setcv b) s = execSetcv b s from rfl, execSetcv, issue_of_ctx hctx fun _ => rfl]
    simp only [hb, hbusy, hvalue, Bool.not_true, Bool.false_eq_true, if_false]
    rfl
  case bra => exact fun i => goes_of_taken hctx (exec_bra hctx i)
  case jmpi =>
    intro a ⟨ha, hbusy, hsame, halign⟩
    rw [Retires, show exec (.jmpi a) s = execJmpi a s from rfl, execJmpi, issue_of_ctx hctx fun _ => rfl]
    simp only [ha, hbusy, Ctx.jumpTarget_ok hsame halign, Bool.not_true, Bool.false_eq_true, if_false]
    rfl
  case call =>
    intro d i ⟨hd, hbusy⟩
    refine ⟨_, wrote_foldl_write64 c.regs c.split.mask d fun _ => pc + 4#64, ?_⟩
    rw [Retires, show exec (.call d i) s = execCall d i s from rfl, execCall, issue_of_ctx hctx fun _ => rfl]
    simp only [hd, hbusy, Bool.not_true, Bool.false_eq_true, if_false]
    rfl
  case calli =>
    intro d a ⟨hd, hbusyD⟩ ⟨ha, hbusyA, hsame, halign⟩
    have hbusy : (c.accBusy && (touchesAcc 2 d || touchesAcc 2 a)) = false := by rw [Bool.and_or_distrib_left, hbusyD, hbusyA]; rfl
    refine ⟨_, wrote_foldl_write64 c.regs c.split.mask d fun _ => pc + 4#64, ?_⟩
    rw [Retires, show exec (.calli d a) s = execCalli d a s from rfl, execCalli, issue_of_ctx hctx fun _ => rfl]
    simp only [hd, ha, hbusy, Ctx.jumpTarget_ok hsame halign, Bool.and_self, Bool.not_true, Bool.false_eq_true, if_false]
    rfl
  case brc =>
    intro u d i hd hbusy hroom
    have hx := exec_brc hctx u i hd hbusy
    split at hx
    · exact branches_of_goes hctx (goes_of_taken hctx hx) rfl (.inl rfl)
    · next hnotAll =>
      split at hx
      · exact branches_of_goes hctx (goes_of_retires hctx hx) rfl (.inr rfl)
      · next hnotNone =>
        have hu : u = false := by
          refine Bool.eq_false_iff.2 fun hu => ?_
          rw [hu, Ctx.allTake_true] at hnotAll
          rw [hu, Ctx.noneTake_true] at hnotNone
          exact hnotAll hnotNone
        rw [hu, Ctx.allTake_false] at hnotAll
        rw [hu, Ctx.noneTake_false] at hnotNone
        have hs : c.single = false := by
          exact Bool.eq_false_iff.2 fun hs => (Ctx.taking_of_single hctx hs d).elim hnotAll hnotNone
        obtain ⟨g, hg, hroom⟩ := (hroom.resolve_left (by simp [hu])).resolve_left (by simp [hs])
        obtain ⟨last, spin, hdivide⟩ := divide_of_room hs hg hroom (c.taking d) (c.target i)
        rw [hdivide] at hx
        have hwho := who_of_ctx hctx hs
        refine ⟨_, hx, onlyIssuer_setGroup .., ?_, .inr ?_⟩
        · simp only [hwho, regsOf, State.find_setGroup, hg, Option.map_some, Group.divided_regs]
        · simp only [hwho, pcOf, State.find_setGroup, Option.bind_some, Group.divided_staying, Option.map_some]
          rfl

/-- Settles O15: JOIN and EXIT change the issuing group alone, and then look at its waiting chains. -/
theorem joinAndExit : Obligations.JoinAndExit := by
  unfold Obligations.JoinAndExit
  intro s c hctx
  have hjoin : exec .join s = execJoin s := rfl
  refine ⟨?passes, ?waits, ?exits⟩
  case passes =>
    intro hrec
    refine goes_of_retires hctx (?_ : Retires .join s c c.regs c.seed (c.split.pc + 4#64))
    rw [Retires, hjoin, execJoin, issue_of_ctx hctx fun _ => rfl, hrec]
    rfl
  case waits =>
    intro hrec g hg hs sp g1
    have hsome : ¬ (c.split.drec.isNone = true) := by simpa [Option.isSome_iff_ne_none] using hrec
    rw [hjoin, execJoin, issue_of_ctx hctx fun _ => rfl]
    simp only [if_neg hsome]
    rw [State.putCtx_split hctx hs hg, State.modGroup_of_find (State.find_setGroup ..), State.setGroup_setGroup]
    exact ⟨_, rfl, onlyIssuer_setGroup .., State.find_setGroup ..⟩
  case exits =>
    intro g ⟨_, hs, _, hopen⟩ hlock hg g1
    have hnone : ∀ g', FMap.find s.groups c.gid = some g' → g'.openLanes (~~~0#64) = 0#64 := by
      obtain ⟨g', hg', hg'open⟩ := hopen
      intro g'' hg''
      rwa [Option.some.inj (hg''.symm.trans hg')]
    have hx : exec .exit s = finish c ((encode .exit).getD 0#32) (exitSplit s c) := by
      have hexit : exec .exit s = execExit s := rfl
      rw [hexit, execExit, issue_of_ctx hctx (by simp [hs]), txIllegal_of_none hnone]
      simp [State.lockHeldIn, hlock]
    have hstate : (s.releaseLockOf c.gid c.split.mask).modGroup c.gid (fun g =>
        (({ g with table := FMap.erase g.table c.entry }).noteIssue c.entry false).rejoin.pruneRecords) = s.setGroup c.gid g1 := by
      have hkept : s.releaseLockOf c.gid c.split.mask = s := by simp [State.releaseLockOf, hlock]
      rw [hkept, State.modGroup_of_find hg]
    simp only [exitSplit, hstate, State.find_setGroup] at hx
    refine ⟨fun hsplits => ?_, fun hsplits => ?_⟩
    · rw [hx, if_neg (by simpa using hsplits)]
      rfl
    · rw [hx, if_pos (by simpa using hsplits), State.modGroup_of_find (State.find_setGroup ..), State.setGroup_setGroup]
      rfl

end Sys2Proof.Proofs
end

