-- ==== Sys2Proof/Proofs/Rejoin.lean ====
section
/-! SUPPORT. JOIN re-evaluated (R337): no thread is lost and none added where splits merge and entries refill. -/

namespace Sys2Proof.Machine

open Sys2Proof.Claims

/-! Entries of rising maps. -/

theorem FMap.find_none_iff {α : Type} (m : FMap α) (k : Nat) : FMap.find m k = none ↔ ∀ q ∈ m, q.1 ≠ k := by
  induction m with
  | nil => simp
  | cons q r ih =>
    obtain ⟨j, x⟩ := q
    by_cases hj : j = k <;> simp [FMap.find, hj, ih]

/-- An insertion at a key that is not there adds its entry and keeps the others. -/
theorem FMap.mem_insert_free {α : Type} {m : FMap α} {k : Nat} (hk : ∀ q ∈ m, q.1 ≠ k) (v : α) (p : Nat × α) :
    p ∈ FMap.insert m k v ↔ p = (k, v) ∨ p ∈ m := by
  induction m with
  | nil => simp [FMap.insert]
  | cons q r ih =>
    obtain ⟨j, x⟩ := q
    have hj : k ≠ j := Ne.symm (hk (j, x) List.mem_cons_self)
    have ih := ih fun q hq => hk q (List.mem_cons_of_mem _ hq)
    by_cases hlt : k < j
    · simp [FMap.insert, hlt]
    · rw [FMap.insert, if_neg hlt, if_neg hj, List.mem_cons, ih, List.mem_cons]
      exact or_left_comm

theorem FMap.le_of_rising {α : Type} {m : FMap α} {lo : Nat} (h : FMap.rising lo m = true) : ∀ q ∈ m, lo ≤ q.1 := by
  induction m generalizing lo with
  | nil => simp
  | cons q r ih =>
    simp only [FMap.rising, Bool.and_eq_true, decide_eq_true_eq] at h
    intro p hp
    rcases List.mem_cons.1 hp with rfl | hp
    · exact h.1
    · have := ih h.2 p hp
      omega

/-- In a rising map a key has one entry. -/
theorem FMap.eq_of_mem_rising {α : Type} {m : FMap α} {lo : Nat} (h : FMap.rising lo m = true) {p q : Nat × α} (hp : p ∈ m) (hq : q ∈ m)
    (hkey : p.1 = q.1) : p = q := by
  induction m generalizing lo with
  | nil => cases hp
  | cons x r ih =>
    simp only [FMap.rising, Bool.and_eq_true, decide_eq_true_eq] at h
    have habove := FMap.le_of_rising h.2
    rcases List.mem_cons.1 hp with rfl | hpr <;> rcases List.mem_cons.1 hq with rfl | hqr
    · rfl
    · have := habove q hqr
      omega
    · have := habove p hpr
      omega
    · exact ih h.2 hpr hqr

/-! The threads of a group. -/

/-- Thread k is in some split of the group. -/
def Group.hasThread (g : Group) (k : Nat) : Prop := ∃ sp ∈ g.splits, sp.mask.getLsbD k = true

theorem getLsbD_foldl_mask (l : List Split) (m : BitVec 64) (k : Nat) :
    (l.foldl (fun m sp => m ||| sp.mask) m).getLsbD k = true ↔ m.getLsbD k = true ∨ ∃ sp ∈ l, sp.mask.getLsbD k = true := by
  induction l generalizing m with
  | nil => simp
  | cons sp l ih =>
    rw [List.foldl_cons, ih, BitVec.getLsbD_or, Bool.or_eq_true, or_assoc]
    simp

theorem getLsbD_liveMask (g : Group) (k : Nat) : (liveMask g).getLsbD k = true ↔ g.hasThread k := by
  rw [liveMask, getLsbD_foldl_mask]
  simp [Group.hasThread]

theorem liveMask_congr {g g' : Group} (h : ∀ k, g'.hasThread k ↔ g.hasThread k) : liveMask g' = liveMask g :=
  BitVec.eq_of_getLsbD_eq fun k _ => Bool.eq_iff_iff.2 (by rw [getLsbD_liveMask, getLsbD_liveMask, h])

theorem Group.mem_splits (g : Group) (sp : Split) : sp ∈ g.splits ↔ (∃ q ∈ g.table, q.2 = sp) ∨ sp ∈ g.stack := by
  simp [Group.splits]

/-- A step of a group's splits is safe: it keeps a rising table rising, and then the threads. -/
def Group.Safe (g g' : Group) : Prop := FMap.rising 0 g.table = true → FMap.rising 0 g'.table = true ∧ ∀ k, g'.hasThread k ↔ g.hasThread k

theorem Group.Safe.refl (g : Group) : g.Safe g := fun h => ⟨h, fun _ => Iff.rfl⟩

theorem Group.Safe.trans {g g' g'' : Group} (h : g.Safe g') (h' : g'.Safe g'') : g.Safe g'' := fun hr =>
  ⟨(h' (h hr).1).1, fun k => ((h' (h hr).1).2 k).trans ((h hr).2 k)⟩

/-! Refills (R142). -/

theorem refillFrom_safe (n : Nat) (g : Group) : g.Safe (refillFrom n g) := by
  induction n generalizing g with
  | zero => exact .refl g
  | succ n ih =>
    rw [refillFrom]
    split
    · exact .refl g
    · next sp r hstack =>
      split
      · next e he =>
        refine .trans (g' := { g with table := FMap.insert g.table e sp, stack := r }) (fun hr => ⟨FMap.rising_insert _ _ _ _ (Nat.zero_le _) hr, fun k => ?_⟩)
          (ih _)
        have hfree := (FMap.find_none_iff _ _).1 (freeEntryFrom_free _ _ _ _ he)
        have hmem : ∀ x, x ∈ ({ g with table := FMap.insert g.table e sp, stack := r } : Group).splits ↔ x ∈ g.splits := by
          intro x
          simp only [Group.mem_splits, FMap.mem_insert_free hfree, hstack, List.mem_cons]
          constructor
          · rintro (⟨q, rfl | hq, rfl⟩ | hx)
            · exact .inr (.inl rfl)
            · exact .inl ⟨q, hq, rfl⟩
            · exact .inr (.inr hx)
          · rintro (⟨q, hq, rfl⟩ | rfl | hx)
            · exact .inl ⟨q, .inr hq, rfl⟩
            · exact .inl ⟨(e, x), .inl rfl, rfl⟩
            · exact .inr hx
        simp only [Group.hasThread, hmem]
      · exact .refl g

theorem Group.refill_safe (g : Group) : g.Safe g.refill := refillFrom_safe 16 g

/-! Merges (R337). -/

/-- Splits of which some are replaced by one that holds their threads hold the same threads. -/
theorem hasThread_merged {g g' : Group} {inDv : Split → Bool} {m : Split}
    (hmask : m.mask = (g.splits.filter inDv).foldl (fun b x => b ||| x.mask) 0#64)
    (hsplits : ∀ x, x ∈ g'.splits ↔ x = m ∨ (x ∈ g.splits ∧ inDv x = false)) (k : Nat) : g'.hasThread k ↔ g.hasThread k := by
  have hm : m.mask.getLsbD k = true ↔ ∃ x ∈ g.splits, inDv x = true ∧ x.mask.getLsbD k = true := by
    rw [hmask, getLsbD_foldl_mask]
    simp [and_assoc]
  simp only [Group.hasThread, hsplits]
  constructor
  · rintro ⟨x, rfl | ⟨hx, -⟩, hk⟩
    · obtain ⟨y, hy, -, hyk⟩ := hm.1 hk
      exact ⟨y, hy, hyk⟩
    · exact ⟨x, hx, hk⟩
  · rintro ⟨x, hx, hk⟩
    cases hin : inDv x
    · exact ⟨x, .inr ⟨hx, hin⟩, hk⟩
    · exact ⟨m, .inl rfl, hm.2 ⟨x, hx, hin, hk⟩⟩

/-- The split that takes the threads of a record's splits. -/
def Group.mergedSplit (g : Group) (dv : Nat) (p : BitVec 64) : Split :=
  ⟨(g.splits.filter (fun x => (g.chain x.drec).contains dv)).foldl (fun m x => m ||| x.mask) 0#64, p + 4#64, (FMap.find g.parents dv).getD none,
    .clear, .none, none, false, g.births, none⟩

theorem Group.mergeAt_safe (g : Group) (dv : Nat) (p : BitVec 64) : g.Safe (g.mergeAt dv p) := by
  unfold Group.mergeAt
  simp only
  refine .trans (fun hr => ?_) (Group.refill_safe _)
  have hrest : FMap.rising 0 (g.table.filter (fun q => !(g.chain q.2.drec).contains dv)) = true := FMap.rising_filter _ _ _ hr
  split
  · next e l hmerged =>
    obtain ⟨q, hq, rfl⟩ := List.mem_map.1 (hmerged ▸ List.mem_cons_self : e ∈ List.map _ _)
    obtain ⟨hqt, hqin⟩ := List.mem_filter.1 hq
    have hfree : ∀ x ∈ g.table.filter (fun q => !(g.chain q.2.drec).contains dv), x.1 ≠ q.1 := by
      intro x hx heq
      obtain ⟨hxt, hxout⟩ := List.mem_filter.1 hx
      rw [FMap.eq_of_mem_rising hr hxt hqt heq, hqin] at hxout
      cases hxout
    refine ⟨FMap.rising_insert _ _ _ _ (Nat.zero_le _) hrest, hasThread_merged (inDv := fun x => (g.chain x.drec).contains dv) (m := g.mergedSplit dv p) rfl fun x => ?_⟩
    simp only [Group.mem_splits, FMap.mem_insert_free hfree, List.mem_filter]
    constructor
    · rintro (⟨y, rfl | ⟨hy, hout⟩, rfl⟩ | ⟨hx, hout⟩)
      · exact .inl rfl
      · exact .inr ⟨.inl ⟨y, hy, rfl⟩, by simpa using hout⟩
      · exact .inr ⟨.inr hx, by simpa using hout⟩
    · rintro (rfl | ⟨⟨y, hy, rfl⟩ | hx, hout⟩)
      · exact .inl ⟨_, .inl rfl, rfl⟩
      · exact .inl ⟨y, .inr ⟨hy, by simpa using hout⟩, rfl⟩
      · exact .inr ⟨hx, by simpa using hout⟩
  · refine ⟨hrest, hasThread_merged (inDv := fun x => (g.chain x.drec).contains dv) (m := g.mergedSplit dv p) rfl fun x => ?_⟩
    simp only [Group.mem_splits, List.mem_filter, List.mem_cons]
    constructor
    · rintro (⟨y, ⟨hy, hout⟩, rfl⟩ | rfl | ⟨hx, hout⟩)
      · exact .inr ⟨.inl ⟨y, hy, rfl⟩, by simpa using hout⟩
      · exact .inl rfl
      · exact .inr ⟨.inr hx, by simpa using hout⟩
    · rintro (rfl | ⟨⟨y, hy, rfl⟩ | hx, hout⟩)
      · exact .inr (.inl rfl)
      · exact .inl ⟨y, ⟨hy, by simpa using hout⟩, rfl⟩
      · exact .inr (.inr ⟨hx, by simpa using hout⟩)

theorem joinRounds_safe (n : Nat) (g : Group) : g.Safe (joinRounds n g) := by
  induction n generalizing g with
  | zero => exact .refl g
  | succ n ih =>
    rw [joinRounds]
    split
    · split
      · exact (g.mergeAt_safe _ _).trans (ih _)
      · exact .refl g
    · exact .refl g

theorem Group.rejoin_safe (g : Group) : g.Safe g.rejoin := g.refill_safe.trans (joinRounds_safe _ _)

end Sys2Proof.Machine

namespace Sys2Proof.Proofs

open Sys2Proof.Machine Sys2Proof.Claims

/-- Settles O16: refills and merges keep the threads of a rising table; dropping records touches no split. -/
theorem rejoinKeepsThreads : Obligations.RejoinKeepsThreads := by
  unfold Obligations.RejoinKeepsThreads
  intro g hr
  have hprune : liveMask g.rejoin.pruneRecords = liveMask g.rejoin := rfl
  rw [hprune]
  exact liveMask_congr (g.rejoin_safe hr).2

end Sys2Proof.Proofs
end

