-- ==== Sys2Proof/Proofs/IssueFrame.lean ====
section
/-! SUPPORT. The frame of an issue whose effect reaches beyond its issuer: what stands after the retirement or the wait of
a state that the effect has changed. -/

namespace Sys2Proof.Machine

open Sys2Proof.Claims

/-! Cores. -/

theorem State.core_modCore (s : State) (k j : Nat) (f : Core → Core) : (s.modCore k f).core j = if k = j then f (s.core k) else s.core j := by
  rw [State.core, State.modCore, State.setCore, FMap.getD_setD, State.core, State.core]

theorem State.core_dropL1 (s : State) (k j : Nat) :
    (s.dropL1 k).core j = if k = j then { s.core k with l1 := [], l1From := s.turn.nextId } else s.core j := s.core_modCore k j _

theorem State.core_of_cores {s t : State} (h : t.cores = s.cores) (k : Nat) : t.core k = s.core k := by rw [State.core, h, State.core]

/-! What is kept. -/

theorem keepsMemory_refl (s : State) : KeepsMemory s s := ⟨rfl, rfl, rfl, fun _ => rfl⟩

theorem keepsMemory_trans {s t u : State} (h : KeepsMemory s t) (h' : KeepsMemory t u) : KeepsMemory s u := by
  obtain ⟨hmem, hpoison, hblocks, htrap⟩ := h
  obtain ⟨hmem', hpoison', hblocks', htrap'⟩ := h'
  exact ⟨hmem'.trans hmem, hpoison'.trans hpoison, hblocks'.trans hblocks, fun k => (htrap' k).trans (htrap k)⟩

theorem keepsMemory_of_eq {s t : State} (hms : t.ms = s.ms) (hblocks : t.blocks = s.blocks) (hcores : t.cores = s.cores) : KeepsMemory s t :=
  ⟨by rw [hms], by rw [hms], hblocks, fun k => by rw [State.core_of_cores hcores]⟩

/-- A change of a core that is not one of its trap region keeps memory. -/
theorem keepsMemory_modCore (s : State) (k : Nat) {f : Core → Core} (hf : ∀ x, (f x).trap = x.trap) : KeepsMemory s (s.modCore k f) := by
  refine ⟨rfl, rfl, rfl, fun j => ?_⟩
  rw [State.core_modCore]
  split
  · next h => rw [hf, h]
  · rfl

theorem keepsMemory_dropL1 (s : State) (k : Nat) : KeepsMemory s (s.dropL1 k) := keepsMemory_modCore s k fun _ => rfl

@[simp] theorem State.forgetDenials_groups (s : State) (f : Option Issuer → Bool) : (s.forgetDenials f).groups = s.groups := by
  unfold State.forgetDenials; split <;> rfl

@[simp] theorem State.forgetDenials_handlers (s : State) (f : Option Issuer → Bool) : (s.forgetDenials f).handlers = s.handlers := by
  unfold State.forgetDenials; split <;> rfl

@[simp] theorem State.forgetDenials_cores (s : State) (f : Option Issuer → Bool) : (s.forgetDenials f).cores = s.cores := by
  unfold State.forgetDenials; split <;> rfl

theorem keepsMemory_forgetDenials (s : State) (f : Option Issuer → Bool) : KeepsMemory s (s.forgetDenials f) := by
  unfold State.forgetDenials
  split
  · exact keepsMemory_refl s
  · exact ⟨rfl, rfl, rfl, fun _ => rfl⟩

theorem keepsMemory_dropDenials (s : State) (w : XWho) : KeepsMemory s (s.dropDenials w) := keepsMemory_forgetDenials s _

@[simp] theorem State.dropDenials_groups (s : State) (w : XWho) : (s.dropDenials w).groups = s.groups := s.forgetDenials_groups _
@[simp] theorem State.dropDenials_handlers (s : State) (w : XWho) : (s.dropDenials w).handlers = s.handlers := s.forgetDenials_handlers _
@[simp] theorem State.dropDenials_cores (s : State) (w : XWho) : (s.dropDenials w).cores = s.cores := s.forgetDenials_cores _

theorem keepsOtherGroups_of_groups {s t : State} {gid : Nat} (h : ∀ k, k ≠ gid → FMap.find t.groups k = FMap.find s.groups k) :
    KeepsOtherGroups s t gid := fun k hk => by rw [h k hk]

/-! The issuer after the effect. -/

/-- The effect has left the issuer where it was: its group is there, and handlers are as before. -/
def KeepsIssuer (s s' : State) (c : Ctx) : Prop := (∃ g, FMap.find s'.groups c.gid = some g) ∧ s'.handlers = s.handlers

theorem keepsIssuer_of_groups {s s' : State} {c : Ctx} (hctx : s.ctx = some c) (hgroups : s'.groups = s.groups) (hhandlers : s'.handlers = s.handlers) :
    KeepsIssuer s s' c := by
  obtain ⟨g, hg⟩ := group_of_ctx hctx
  exact ⟨⟨g, by rw [hgroups, hg]⟩, hhandlers⟩

theorem keepsIssuer_setGroup (s : State) (c : Ctx) (g : Group) : KeepsIssuer s (s.setGroup c.gid g) c := ⟨⟨g, State.find_setGroup ..⟩, rfl⟩

/-- Writing a context back changes no group but its own. -/
theorem State.putCtx_other (s : State) {c : Ctx} (hwho : c.who = .split c.gid c.entry ∨ ∃ hid, c.who = .handler hid) {k : Nat} (hk : k ≠ c.gid) :
    FMap.find (s.putCtx c).groups k = FMap.find s.groups k := by
  have hmod : ∀ f, FMap.find (s.modGroup c.gid f).groups k = FMap.find s.groups k := by
    intro f
    unfold State.modGroup
    split
    · exact FMap.find_insert_other s.groups (Ne.symm hk) _
    · rfl
  rcases hwho with hwho | ⟨hid, hwho⟩
  · simp only [State.putCtx, hwho]
    exact hmod _
  · simp only [State.putCtx, hwho]
    split
    · exact hmod _
    · exact hmod _

theorem who_cases {s : State} {c : Ctx} (hctx : s.ctx = some c) : c.who = .split c.gid c.entry ∨ ∃ hid, c.who = .handler hid := by
  obtain hs | hs := Bool.eq_false_or_eq_true c.single
  · exact .inr (who_of_single hctx hs)
  · exact .inl (who_of_ctx hctx hs)

theorem State.noteEnd_other (s : State) (c0 : Ctx) {c : Ctx} (hwho : c.who = .split c.gid c.entry ∨ ∃ hid, c.who = .handler hid) {k : Nat} (hk : k ≠ c.gid) :
    FMap.find (s.noteEnd c0 c).groups k = FMap.find s.groups k := by
  have hmod : ∀ f, FMap.find (s.modGroup c.gid f).groups k = FMap.find s.groups k := by
    intro f
    unfold State.modGroup
    split
    · exact FMap.find_insert_other s.groups (Ne.symm hk) _
    · rfl
  rcases hwho with hwho | ⟨hid, hwho⟩
  · simp only [State.noteEnd, hwho]
    split
    · exact hmod _
    · exact hmod _
  · simp only [State.noteEnd, hwho]

section

variable {s : State} {c : Ctx} (hctx : s.ctx = some c) (s' : State) (regs : Regs) (seed : Word)
include hctx

theorem State.retire_other (npc : BitVec 64) {k : Nat} (hk : k ≠ c.gid) :
    FMap.find (s'.retire c { c with regs := regs, seed := seed } npc).groups k = FMap.find s'.groups k := by
  have hwho := who_cases hctx
  rw [State.retire, State.noteEnd_other _ _ (c := { c with regs := regs, seed := seed }) hwho hk,
    State.putCtx_other _ (c := ({ c with regs := regs, seed := seed } : Ctx).advance npc) hwho hk]

/-- After any effect that leaves the issuer there, the retirement lets it go on with its registers (R310). -/
theorem goesOn_retire (hkeeps : KeepsIssuer s s' c) (npc : BitVec 64) :
    GoesOn (s'.retire c { c with regs := regs, seed := seed } npc) c regs seed npc := by
  obtain ⟨⟨g', hg'⟩, hhandlers⟩ := hkeeps
  obtain hs | hs := Bool.eq_false_or_eq_true c.single
  case inr =>
    have hwho : c.who = .split c.gid c.entry := who_of_ctx hctx hs
    obtain ⟨last, spin, ht⟩ := State.retire_of_find c (c := { c with regs := regs, seed := seed }) hwho hg' npc
    rw [ht]
    exact holds_setGroup s' hwho rfl rfl (FMap.find_insert_same ..)
  case inl =>
    obtain ⟨hid, h, g, hcur, hh, hg, hc⟩ := handler_of_ctx hctx hs
    have hgid : c.gid = h.gid := by rw [hc]; rfl
    rw [State.retire_of_handler (g := g') hc (by rw [hhandlers, hh]) (by rw [← hgid, hg']), hc]
    exact holds_putHandler s' rfl rfl rfl rfl

theorem goesOn_retire_same (hkeeps : KeepsIssuer s s' c) (npc : BitVec 64) : GoesOn (s'.retire c c npc) c c.regs c.seed npc :=
  goesOn_retire hctx s' c.regs c.seed hkeeps npc

theorem keepsOtherGroups_retire (npc : BitVec 64) (h : ∀ k, k ≠ c.gid → FMap.find s'.groups k = FMap.find s.groups k) :
    KeepsOtherGroups s (s'.retire c { c with regs := regs, seed := seed } npc) c.gid :=
  keepsOtherGroups_of_groups fun k hk => (State.retire_other hctx s' regs seed npc hk).trans (h k hk)

/-- The group of a split that retires after an effect: but for its registers, seed, table, last split and spin, as the effect left it. -/
theorem ofGroup_retire (hs : c.single = false) {g' : Group} (hg' : FMap.find s'.groups c.gid = some g') (npc : BitVec 64) {P : Group → Prop}
    (hP : ∀ regs seed table last spin, P { g' with regs := regs, srseed := seed, table := table, lastSplit := last, spin := spin }) :
    OfGroup (s'.retire c { c with regs := regs, seed := seed } npc) c.gid P := by
  have hwho : c.who = .split c.gid c.entry := who_of_ctx hctx hs
  obtain ⟨last, spin, ht⟩ := State.retire_of_find c (c := { c with regs := regs, seed := seed }) hwho hg' npc
  rw [ht]
  exact ⟨_, State.find_setGroup .., hP _ _ _ _ _⟩

/-- A split that waits after an effect: its own context stands, with the wait. -/
theorem waitsFor_stay (hs : c.single = false) {g' : Group} (hg' : FMap.find s'.groups c.gid = some g') {w : Wait} (hw : w.inFlight = false) :
    WaitsFor (s'.stay c c w) c w := by
  have hwho : c.who = .split c.gid c.entry := who_of_ctx hctx hs
  unfold State.stay
  split
  · rw [State.holdCtx, State.putCtx_of_find (c := { c with split := { c.split with wait := w } }) hwho hg']
    exact holds_setGroup s' hwho rfl rfl (FMap.find_insert_same ..)
  · have hwaiting : c.waiting w = { c with split := { c.split with wait := w } } := by
      rw [Ctx.waiting, hw]
      rfl
    rw [hwaiting, State.putCtx_of_find (c := { c with split := { c.split with wait := w } }) hwho hg']
    obtain ⟨last, spin, ht⟩ := State.noteEnd_of_find c hwho (State.find_setGroup s' c.gid (g'.withCtx c.entry { c with split := { c.split with wait := w } }))
    rw [ht, State.setGroup_setGroup]
    exact holds_setGroup s' hwho rfl rfl (FMap.find_insert_same ..)

/-- A split's wait changes its group alone (R136, R313). -/
theorem stay_onlyIssuer (hs : c.single = false) {g : Group} (hg : FMap.find s.groups c.gid = some g) (w : Wait) : OnlyIssuer s c (s.stay c c w) := by
  have hwho : c.who = .split c.gid c.entry := who_of_ctx hctx hs
  unfold State.stay
  split
  · rw [State.holdCtx, State.putCtx_of_find (c := { c with split := { c.split with wait := w } }) hwho hg]
    exact onlyIssuer_setGroup ..
  · rw [State.putCtx_of_find (c := c.waiting w) hwho hg]
    obtain ⟨last, spin, ht⟩ := State.noteEnd_of_find c hwho (State.find_setGroup s c.gid (g.withCtx c.entry (c.waiting w)))
    rw [ht, State.setGroup_setGroup]
    exact onlyIssuer_setGroup ..

theorem State.stay_other (w : Wait) {k : Nat} (hk : k ≠ c.gid) : FMap.find (s'.stay c c w).groups k = FMap.find s'.groups k := by
  have hwho := who_cases hctx
  unfold State.stay
  split
  · exact State.putCtx_other _ (c := { c with split := { c.split with wait := w } }) hwho hk
  · rw [State.noteEnd_other _ _ hwho hk]
    exact State.putCtx_other _ (c := c.waiting w) hwho hk

end

theorem keepsMemory_retire (s : State) (c0 c : Ctx) (npc : BitVec 64) : KeepsMemory s (s.retire c0 c npc) :=
  keepsMemory_of_eq (State.retire_ms ..) (State.retire_blocks ..) (State.retire_cores ..)

theorem core_retire (s : State) (c0 c : Ctx) (npc : BitVec 64) (k : Nat) : (s.retire c0 c npc).core k = s.core k :=
  State.core_of_cores (State.retire_cores ..) k

theorem keepsMemory_stay (s : State) (c0 c : Ctx) (w : Wait) : KeepsMemory s (s.stay c0 c w) :=
  keepsMemory_of_eq (State.stay_ms ..) (State.stay_blocks ..) (State.stay_cores ..)

theorem core_stay (s : State) (c0 c : Ctx) (w : Wait) (k : Nat) : (s.stay c0 c w).core k = s.core k := State.core_of_cores (State.stay_cores ..) k

/-! Releases (R259). -/

/-- A group that has written to no other package releases at once. -/
theorem withReleaseOf_of_links {s : State} {c : Ctx} {g : Group} (hg : FMap.find s.groups c.gid = some g) (hwait : ∀ p, c.split.wait ≠ .unreached p)
    (hwritten : g.links.written = []) (hflush : g.links.flush = []) (m : BitVec 64) (k : State → Ctx → Done) : withReleaseOf m k s c = k s c := by
  unfold withReleaseOf
  rw [hg]
  cases hw : c.split.wait with
  | unreached p => exact absurd hw (hwait p)
  | _ => simp [hwritten, hflush]

/-- With nothing to flush a release goes on at once. -/
theorem withReleaseOf_of_nothing {s : State} {c : Ctx} (hctx : s.ctx = some c) (h : NothingToFlush s c) (m : BitVec 64) (k : State → Ctx → Done) :
    withReleaseOf m k s c = k s c := by
  obtain ⟨hwait, hlinks⟩ := h
  obtain ⟨g, hg⟩ := group_of_ctx hctx
  obtain ⟨hwritten, hflush⟩ := hlinks g hg
  exact withReleaseOf_of_links hg hwait hwritten hflush m k

theorem withRelease_of_nothing {s : State} {c : Ctx} (hctx : s.ctx = some c) (h : NothingToFlush s c) (k : State → Ctx → Done) :
    withRelease k s c = k s c := withReleaseOf_of_nothing hctx h _ k

end Sys2Proof.Machine
end

