-- ==== Sys2Proof/Proofs/SyncResults.lean ====
section
/-! SUPPORT. Fences, dropped sectors, counters and batches (R393 to R405) outside transactions. -/

namespace Sys2Proof.Machine

open Sys2Proof.Claims

/-- The issuer's end of an instruction with the run of its body, where single-lane mode may run it. -/
theorem exec_of_issue {i : Instr} {single : Bool} {m : State → Ctx → Done} {s : State} {c : Ctx} (hx : exec i s = issue i single m s)
    (hctx : s.ctx = some c) (hs : c.single = true → single = true) : exec i s = finish c ((encode i).getD 0#32) (m s c) := by
  rw [hx, issue_of_ctx hctx hs]

theorem exec_of_seq {i : Instr} {s s' : State} {c : Ctx} (hx : exec i s = finish c ((encode i).getD 0#32) (Done.seq s' c)) :
    exec i s = .next (s'.retire c c (c.split.pc + 4#64)) := hx

/-! The L1 (R191). -/

/-- A filter by key keeps the entries of the keys that pass. -/
theorem FMap.find_filterKV_key {α : Type} (m : FMap α) (p : Nat → Bool) (k : Nat) :
    FMap.find (FMap.filterKV (fun j _ => p j) m) k = if p k = true then FMap.find m k else none := by
  induction m with
  | nil => simp [FMap.filterKV]
  | cons q r ih =>
    obtain ⟨j, x⟩ := q
    by_cases hj : j = k
    · subst hj
      cases hp : p j
      · simpa [FMap.filterKV, hp] using ih
      · simp [FMap.filterKV, FMap.find, hp]
    · cases hp : p j
      · simpa [FMap.filterKV, FMap.find, hp, hj] using ih
      · simpa [FMap.filterKV, FMap.find, hp, hj] using ih

theorem core_acquire (s : State) (core scope k : Nat) :
    (s.acquire core scope).core k = if core = k ∧ 3 ≤ scope then { s.core core with l1 := [], l1From := s.turn.nextId } else s.core k := by
  unfold State.acquire
  by_cases h : 3 ≤ scope <;> simp [h, State.core_dropL1]

/-- An instruction that retires after it has dropped the L1 of its core, or not. -/
def DropsL1 (i : Instr) (s : State) (c : Ctx) (all : Prop) : Prop :=
  ∃ t, exec i s = .next t ∧ GoesOn t c c.regs c.seed (c.split.pc + 4#64) ∧ KeepsMemory s t ∧
    KeepsOtherL1 s t (coreOf c.gid) ∧ (all → (t.core (coreOf c.gid)).l1 = []) ∧ (¬ all → (t.core (coreOf c.gid)).l1 = (s.core (coreOf c.gid)).l1)

theorem dropsL1_of_dropL1 {i : Instr} {s : State} {c : Ctx} {all : Prop} (hctx : s.ctx = some c) (hall : all)
    (hx : exec i s = .next ((s.dropL1 (coreOf c.gid)).retire c c (c.split.pc + 4#64))) : DropsL1 i s c all := by
  have hkeeps : KeepsIssuer s (s.dropL1 (coreOf c.gid)) c := keepsIssuer_of_groups hctx rfl rfl
  refine ⟨_, hx, goesOn_retire_same hctx _ hkeeps _, keepsMemory_trans (keepsMemory_dropL1 ..) (keepsMemory_retire ..), fun k hk => ?_, fun _ => ?_, fun h => absurd hall h⟩
  · rw [core_retire, State.core_dropL1, if_neg (Ne.symm hk)]
  · rw [core_retire, State.core_dropL1, if_pos rfl]

/-- One that leaves every core as it was. -/
theorem dropsL1_of_keep {i : Instr} {s s' : State} {c : Ctx} {all : Prop} (hctx : s.ctx = some c) (hall : ¬ all)
    (hgroups : s'.groups = s.groups) (hhandlers : s'.handlers = s.handlers) (hcores : s'.cores = s.cores) (hkeeps : KeepsMemory s s')
    (hx : exec i s = .next (s'.retire c c (c.split.pc + 4#64))) : DropsL1 i s c all := by
  refine ⟨_, hx, goesOn_retire_same hctx _ (keepsIssuer_of_groups hctx hgroups hhandlers) _,
    keepsMemory_trans hkeeps (keepsMemory_retire ..), fun k _ => ?_, fun h => absurd h hall, fun _ => ?_⟩
  · rw [core_retire, State.core_of_cores hcores]
  · rw [core_retire, State.core_of_cores hcores]

/-- The fence of a split without open lanes (R394). -/
theorem fenceBody_of_none {s : State} {c : Ctx} (hctx : s.ctx = some c) (hnone : NoneOpen s c) (hflush : NothingToFlush s c)
    (hmask : c.split.mask ≠ 0#64) (order scope : Nat) :
    fenceBody order scope s c = Done.seq (if order ≠ 2 then s.acquire (coreOf c.gid) scope else s) c := by
  obtain ⟨g, hg⟩ := group_of_ctx hctx
  have hall : c.split.mask &&& ~~~(0#64) ≠ 0#64 := by rwa [BitVec.not_zero, BitVec.and_allOnes]
  simp only [fenceBody, hg, Group.openLanes_sub (hnone g hg), ite_self, if_neg hall, withRelease_of_nothing hctx hflush]

/-- FENCE's end (R394). -/
theorem exec_fence {s : State} {c : Ctx} (hctx : s.ctx = some c) (hnone : NoneOpen s c) (o : BitVec 3) (sc : BitVec 4) :
    exec (.fence o sc) s = finish c ((encode (.fence o sc)).getD 0#32)
      (if o.toNat = 0 ∨ 5 ≤ o.toNat then Done.early s c fIllegalOp
      else if 10 ≤ sc.toNat then .fault s c (.plain fScope c.split.mask)
      else fenceBody o.toNat sc.toNat s c) := by
  have hx : exec (.fence o sc) s = execFence o sc s := rfl
  rw [execFence] at hx
  rw [exec_of_issue hx hctx fun _ => rfl]
  simp only [txIllegal_of_none hnone, ite_self]

/-! Ranges (R405). -/

theorem cinvSpan_zero (w : XWho) (core k va : Nat) (s : State) : cinvSpan w core k va 0 s = (none, s) := by
  cases k <;> simp [cinvSpan]

/-- A range that one mapping holds is dropped in one run. -/
theorem cinvSpan_of_mapped {w : XWho} {core va n pa run k : Nat} {s : State} (hn : 0 < n) (hva : va + n ≤ 2 ^ 48) (hrun : n ≤ run)
    (hmap : mappedRun w va s = (.ok (some (pa, run)), s)) : cinvSpan w core (k + 1) va n s = (none, s.dropSpan core pa n) := by
  have hin : ¬ (n = 0 ∨ 2 ^ 48 ≤ va) := by omega
  have hm : min n (max 1 run) = n := by omega
  simp only [cinvSpan, if_neg hin, hmap, hm, Nat.sub_self, cinvSpan_zero]

theorem keepsMemory_dropSpan (s : State) (core pa n : Nat) : KeepsMemory s (s.dropSpan core pa n) := by
  unfold State.dropSpan
  exact keepsMemory_modCore s core fun _ => rfl

theorem core_dropSpan_other (s : State) {core k : Nat} (hk : k ≠ core) (pa n : Nat) : (s.dropSpan core pa n).core k = s.core k := by
  rw [State.dropSpan, State.core_modCore, if_neg (Ne.symm hk)]

/-- The sectors of a span of this package's memory leave the L1, and the others stay. -/
theorem find_l1_dropSpan (s : State) (core : Nat) {pa : Nat} (hown : pkgOf pa = s.boot.pkg) (n sec : Nat) :
    FMap.find ((s.dropSpan core pa n).core core).l1 sec =
      if offOf pa / 32 ≤ sec ∧ sec ≤ (offOf pa + n - 1) / 32 then none else FMap.find (s.core core).l1 sec := by
  rw [State.dropSpan, State.core_modCore, if_pos rfl]
  simp only [decide_eq_true hown, if_true, FMap.find_filterKV_key, Bool.not_eq_true', decide_eq_false_iff_not]
  exact ite_not ..

/-- CINV_RANGE's end (R405). -/
theorem exec_cinvRange {s : State} {c : Ctx} (hctx : s.ctx = some c) (hs : c.single = false) (hnone : NoneOpen s c) {a b : BitVec 8}
    (ha : src64Ok c.allot false a = true) (hb : src32Ok c.allot false b = true) (hbusy : (c.accBusy && (touchesAcc 2 a || touchesAcc 1 b)) = false)
    {s' : State} (hspan : cinvSpan (s.whoOf c.gid) (coreOf c.gid) (2 ^ 21) (c.regs.read64 c.xi c.lane a).toNat
      (c.regs.read32 c.xi c.lane b).toNat s = (none, s')) :
    exec (.cinvRange a b) s = .next ((s'.dropDenials (s'.whoOf c.gid)).retire c c (c.split.pc + 4#64)) := by
  have hx : exec (.cinvRange a b) s = execCinvRange a b s := rfl
  rw [execCinvRange] at hx
  rw [exec_of_issue hx hctx (by simp [hs])]
  simp only [ha, hb, Ctx.accWait, hbusy, txIllegal_of_none hnone, hspan, Bool.and_self, Bool.not_true, Bool.false_eq_true, if_false]
  rfl

/-! Counters and batches (R398 to R401). -/

/-- The batch number that a WAITB waits for: that of its first issue (R401). -/
def Group.batchBound (g : Group) (w : Wait) (n : Nat) : Nat :=
  match w with
  | .batch k => k
  | _ => if batchUpTo g.batch n then n else g.batch

section

variable {s : State} {c : Ctx} {g : Group} (hissues : GroupIssues s c) (hg : FMap.find s.groups c.gid = some g)
include hissues hg

/-- An instruction whose condition of issue is not met waits, and nothing else changes (R136). -/
theorem goes_of_unmet {i : Instr} {w : Wait} (hw : w.unmet = true) (hx : exec i s = .next (s.stay c c w)) :
    Goes i s c c.regs c.seed { c.split with wait := w } := by
  obtain ⟨hctx, hs, _⟩ := hissues
  exact ⟨_, hx, waits_of_unmet (who_of_ctx hctx hs) hg hw⟩

theorem exec_waitc (n cls : BitVec 8) (hcls : cls.toNat < 5) : exec (.waitc n cls) s = finish c ((encode (.waitc n cls)).getD 0#32)
    (if s.waitCounter c.gid g cls.toNat ≤ n.toNat then Done.seq s c
      else if cls.toNat = 1 then withRelease Done.seq s c else .stay s c (.counter cls.toNat n.toNat)) := by
  obtain ⟨hctx, hs, _⟩ := hissues
  have hx : exec (.waitc n cls) s = execWaitc n cls s := rfl
  rw [execWaitc] at hx
  rw [exec_of_issue hx hctx (by simp [hs])]
  simp only [if_neg (show ¬ 5 ≤ cls.toNat by omega), hg]

/-- The state after SEAL has numbered the group's unsealed commands (R399). -/
def State.sealed (s : State) (gid : Nat) (g : Group) (n : Nat) : State :=
  (s.setGroup gid { g with batch := n }).modCore (coreOf gid) (fun k =>
    { k with queue := k.queue.map (fun q => if q.unsealed gid then { q with batch := some n } else q) })

theorem exec_seal (d : BitVec 8) (hd : dst32Ok c.allot d = true) (hbusy : (c.accBusy && touchesAcc 1 d) = false) :
    exec (.seal d) s = .next ((s.sealed c.gid g ((g.batch + 1) % 2 ^ 32)).retire c
      (c.put32 d (BitVec.ofNat 32 ((g.batch + 1) % 2 ^ 32))) (c.split.pc + 4#64)) := by
  obtain ⟨hctx, hs, hnone⟩ := hissues
  have hx : exec (.seal d) s = execSeal d s := rfl
  rw [execSeal] at hx
  rw [exec_of_issue hx hctx (by simp [hs])]
  simp only [hd, Ctx.accWait, hbusy, txIllegal_of_none hnone, hg, Bool.not_true, Bool.false_eq_true, if_false, State.modGroup_of_find hg]
  rfl

theorem exec_waitb (b : BitVec 8) (hb : src32Ok c.allot true b = true) (hbusy : (c.accBusy && touchesAcc 1 b) = false) :
    exec (.waitb b) s = finish c ((encode (.waitb b)).getD 0#32)
      (if s.batchPending c.gid (g.batchBound c.split.wait (c.regs.read32 c.xi c.lane b).toNat) then
        .stay s c (.batch (g.batchBound c.split.wait (c.regs.read32 c.xi c.lane b).toNat))
      else Done.seq s c) := by
  obtain ⟨hctx, hs, hnone⟩ := hissues
  have hx : exec (.waitb b) s = execWaitb b s := rfl
  rw [execWaitb] at hx
  rw [exec_of_issue hx hctx (by simp [hs])]
  simp only [hb, Ctx.accWait, hbusy, txIllegal_of_none hnone, hg, Bool.not_true, Bool.false_eq_true, if_false]
  rfl

end

theorem unsealed_iff (q : EngCmd) (gid : Nat) : q.unsealed gid = true ↔ q.gid = gid ∧ q.sub ≤ 3 ∧ q.batch = none := by
  simp [EngCmd.unsealed, and_assoc]

end Sys2Proof.Machine

namespace Sys2Proof.Proofs

open Sys2Proof.Machine Sys2Proof.Claims

/-- Settles O22: the clauses are the branches of `exec_fence` and `exec_cinvRange`, and what is left of the L1. -/
theorem fenceAndInvalidateResults : Obligations.FenceAndInvalidateResults := by
  unfold Obligations.FenceAndInvalidateResults
  intro s c hctx hnone core drops
  refine ⟨?fence, ?order, ?scope, ?cinv, ?range⟩
  case fence =>
    intro o sc hflush hlow hhigh hsc hmask
    have hx := exec_fence hctx hnone o sc
    rw [if_neg (by omega), if_neg (by omega), fenceBody_of_none hctx hnone hflush hmask] at hx
    by_cases hacq : o.toNat ≠ 2 ∧ 3 ≤ sc.toNat
    · rw [if_pos hacq.1, State.acquire, if_pos hacq.2] at hx
      exact dropsL1_of_dropL1 hctx hacq hx
    · have hkeep : (if o.toNat ≠ 2 then s.acquire (coreOf c.gid) sc.toNat else s) = s := by
        split
        · next ho => rw [State.acquire, if_neg fun h => hacq ⟨ho, h⟩]
        · rfl
      rw [hkeep] at hx
      exact dropsL1_of_keep hctx hacq rfl rfl rfl (keepsMemory_refl s) hx
  case order =>
    intro o sc ho
    have hx := exec_fence hctx hnone o sc
    rw [if_pos (ho.imp (fun h => by rw [h]; rfl) id)] at hx
    exact ⟨_, rfl, rfl, rfl, hx⟩
  case scope =>
    intro o sc hlow hhigh hsc
    have hx := exec_fence hctx hnone o sc
    rw [if_neg (by omega), if_pos hsc] at hx
    exact ⟨_, rfl, rfl, rfl, hx⟩
  case cinv =>
    intro hs
    have hx : exec .cinv s = execCinv s := rfl
    rw [execCinv] at hx
    refine dropsL1_of_dropL1 hctx trivial ?_
    rw [exec_of_issue hx hctx (by simp [hs]), txIllegal_of_none hnone]
    rfl
  case range =>
    intro a b hs ha hb hbusy va n
    refine ⟨fun hn => ?_, fun pa run hn hva hrun hpkg hmap => ?_⟩
    · have hx := exec_cinvRange hctx hs hnone ha hb hbusy (s' := s) (by rw [show (c.regs.read32 c.xi c.lane b).toNat = 0 from hn]; exact cinvSpan_zero ..)
      exact dropsL1_of_keep hctx id (State.dropDenials_groups ..) (State.dropDenials_handlers ..) (State.dropDenials_cores ..) (keepsMemory_dropDenials ..) hx
    · obtain ⟨k, hk⟩ : ∃ k, 2 ^ 21 = k + 1 := ⟨2 ^ 21 - 1, rfl⟩
      have hx := exec_cinvRange hctx hs hnone ha hb hbusy (by rw [hk]; exact cinvSpan_of_mapped hn hva hrun hmap)
      have hkeeps : KeepsIssuer s ((s.dropSpan core pa n).dropDenials ((s.dropSpan core pa n).whoOf c.gid)) c :=
        keepsIssuer_of_groups hctx (State.dropDenials_groups ..) (State.dropDenials_handlers ..)
      have hcore : ∀ j, (((s.dropSpan core pa n).dropDenials ((s.dropSpan core pa n).whoOf c.gid)).retire c c (c.split.pc + 4#64)).core j =
          (s.dropSpan core pa n).core j := fun j => (core_retire ..).trans (State.core_of_cores (State.dropDenials_cores ..) j)
      refine ⟨_, hx, goesOn_retire_same hctx _ hkeeps _, ?_, fun j hj => ?_, fun sec => ?_⟩
      · exact keepsMemory_trans (keepsMemory_dropSpan s core pa n) (keepsMemory_trans (keepsMemory_dropDenials ..) (keepsMemory_retire ..))
      · rw [hcore, core_dropSpan_other s hj]
      · rw [hcore, find_l1_dropSpan s core hpkg]

/-- Settles O23: the clauses are the branches of `exec_waitc`, `exec_seal` and `exec_waitb`. -/
theorem counterAndBatchResults : Obligations.CounterAndBatchResults := by
  unfold Obligations.CounterAndBatchResults
  intro s c g hissues hg
  have hctx := hissues.1
  refine ⟨fun n cls hcls => ⟨fun hle => ?goes, fun hlt hstore => ?waits⟩, fun d hd hbusy => ?numbers, fun b hb hbusy => ⟨fun hdone => ?batchDone, fun hleft => ?batchLeft⟩⟩
  case goes =>
    have hx := exec_waitc hissues hg n cls hcls
    rw [if_pos hle] at hx
    exact goes_of_retires hctx hx
  case waits =>
    have hx := exec_waitc hissues hg n cls hcls
    rw [if_neg (by omega), if_neg fun h : cls.toNat = 1 => hstore (BitVec.eq_of_toNat_eq h)] at hx
    exact goes_of_unmet hissues hg rfl hx
  case numbers =>
    have hs := hissues.2.1
    let s' := s.sealed c.gid g ((g.batch + 1) % 2 ^ 32)
    have hg' : FMap.find s'.groups c.gid = some { g with batch := (g.batch + 1) % 2 ^ 32 } := State.find_setGroup ..
    have hkeeps : KeepsIssuer s s' c := ⟨⟨_, hg'⟩, rfl⟩
    have hmemory : KeepsMemory s s' := by
      refine keepsMemory_trans (keepsMemory_of_eq rfl rfl rfl : KeepsMemory s (s.setGroup c.gid { g with batch := (g.batch + 1) % 2 ^ 32 })) ?_
      exact keepsMemory_modCore _ _ fun _ => rfl
    refine ⟨_, (c.put32 d (BitVec.ofNat 32 ((g.batch + 1) % 2 ^ 32))).regs, exec_seal hissues hg d hd hbusy, goesOn_retire hctx s' _ c.seed hkeeps _,
      keepsMemory_trans hmemory (keepsMemory_retire ..), keepsOtherGroups_retire hctx s' _ c.seed _ fun k hk => ?_, c.put32_received d _,
      ofGroup_retire hctx s' _ c.seed hs hg' _ fun _ _ _ _ _ => rfl, ?_⟩
    · exact FMap.find_insert_other s.groups (Ne.symm hk) _
    · rw [core_retire, State.sealed, State.core_modCore, if_pos rfl]
      simp only [unsealed_iff]
      rfl
  case batchDone =>
    have hx := exec_waitb hissues hg b hb hbusy
    rw [show s.batchPending c.gid (g.batchBound c.split.wait (c.regs.read32 c.xi c.lane b).toNat) = false from hdone] at hx
    exact goes_of_retires hctx hx
  case batchLeft =>
    have hx := exec_waitb hissues hg b hb hbusy
    rw [show s.batchPending c.gid (g.batchBound c.split.wait (c.regs.read32 c.xi c.lane b).toNat) = true from hleft] at hx
    exact goes_of_unmet hissues hg rfl hx

end Sys2Proof.Proofs
end

