-- ==== Sys2Proof/Proofs/BarrierResults.lean ====
section
/-! SUPPORT. Block and gang barriers (R395 to R397): what a split meets at one, and how a phase of a block barrier completes. -/

namespace Sys2Proof.Machine

open Sys2Proof.Claims

/-- An instruction that retires at once. -/
theorem goesOn_of_seq {x : Instr} {s : State} {c : Ctx} (hctx : s.ctx = some c) (hx : exec x s = .next (s.retire c c (c.split.pc + 4#64))) :
    ∃ t, exec x s = .next t ∧ GoesOn t c c.regs c.seed (c.split.pc + 4#64) ∧ OnlyIssuer s c t := by
  obtain ⟨honly, hgoes⟩ := retire_goes hctx c.regs c.seed (c.split.pc + 4#64)
  exact ⟨_, hx, hgoes, honly⟩

section

variable {s : State} {c : Ctx} {g : Group} {b : Block} (hg : FMap.find s.groups c.gid = some g) (hb : FMap.find s.blocks g.ident.block = some b)
include hg hb

/-- What a split that a barrier does not pass on at once meets, branch by branch (R395 to R397). -/
theorem barBody_eq (id mask : Nat) (cluster : Bool) : barBody id mask cluster s c =
    if c.split.wait = .answered 0 then Done.seq s c
    else if !g.inRoles mask then .fault s c (.plain fIllegalOp c.split.mask)
    else if FMap.getD g.barG 0 id ≠ FMap.getD b.barP 0 id then
      let s' := s.setGroup c.gid { g with barG := FMap.setD g.barG 0 id ((FMap.getD g.barG 0 id + 1) % 2 ^ 32) }
      Done.seq (if cluster then s'.dropL1 (coreOf c.gid) else s') c
    else if b.otherMask id mask then .fault s c (.plain fIllegalOp c.split.mask)
    else .next ((({ s with blocks := FMap.insert s.blocks g.ident.block { b with barMask := FMap.insert b.barMask id mask } } : State).stay c c
      (.bar id mask cluster)).evalBar g.ident.block id) := by
  have hblock : s.blockOf c.gid = some b := by simp only [State.blockOf, hg, hb]
  have hmod : s.modBlock g.ident.block (fun b => { b with barMask := FMap.insert b.barMask id mask }) =
      { s with blocks := FMap.insert s.blocks g.ident.block { b with barMask := FMap.insert b.barMask id mask } } := by
    simp only [State.modBlock, hb]
  simp only [barBody, hg, hblock, hmod, State.modGroup_of_find hg]

/-- The clauses of a block barrier for an instruction that ends in its body. -/
theorem bar_clauses {x : Instr} (hctx : s.ctx = some c) (hs : c.single = false) {id mask : Nat} {cluster : Bool} {drop : Prop} (hdrop : drop → cluster = true)
    (hx : exec x s = finish c ((encode x).getD 0#32) (barBody id mask cluster s c)) :
    (c.split.wait = .answered 0 → ∃ t, exec x s = .next t ∧ GoesOn t c c.regs c.seed (c.split.pc + 4#64) ∧ OnlyIssuer s c t) ∧
    (c.split.wait ≠ .answered 0 →
      (g.inRoles mask = false → Raises x s c fIllegalOp c.split.mask 0#64) ∧
      (g.inRoles mask = true → FMap.getD g.barG 0 id = FMap.getD b.barP 0 id → b.otherMask id mask = true →
        Raises x s c fIllegalOp c.split.mask 0#64) ∧
      (g.inRoles mask = true → FMap.getD g.barG 0 id ≠ FMap.getD b.barP 0 id →
        ∃ t, exec x s = .next t ∧ GoesOn t c c.regs c.seed (c.split.pc + 4#64) ∧ KeepsMemory s t ∧ KeepsOtherGroups s t c.gid ∧
          OfGroup t c.gid (fun g' => FMap.getD g'.barG 0 id = (FMap.getD g.barG 0 id + 1) % 2 ^ 32) ∧ (drop → (t.core (coreOf c.gid)).l1 = [])) ∧
      (g.inRoles mask = true → FMap.getD g.barG 0 id = FMap.getD b.barP 0 id → b.otherMask id mask = false →
        ∃ t, exec x s = .next (t.evalBar g.ident.block id) ∧ (∃ cluster, WaitsFor t c (.bar id mask cluster)) ∧ KeepsOtherGroups s t c.gid ∧
          FMap.find t.blocks g.ident.block = some { b with barMask := FMap.insert b.barMask id mask })) := by
  rw [barBody_eq hg hb] at hx
  refine ⟨fun hwait => ?released, fun hwait => ⟨fun hrole => ?role, fun hrole hphase hother => ?other, fun hrole hphase => ?passes, fun hrole hphase hother => ?waits⟩⟩
  case released =>
    rw [if_pos hwait] at hx
    exact goesOn_of_seq hctx hx
  case role =>
    rw [if_neg hwait, hrole, if_pos (by decide)] at hx
    exact ⟨_, rfl, rfl, rfl, hx⟩
  case other =>
    rw [if_neg hwait, hrole, if_neg (by simp), if_neg (by simpa using hphase), if_pos hother] at hx
    exact ⟨_, rfl, rfl, rfl, hx⟩
  case passes =>
    let g' : Group := { g with barG := FMap.setD g.barG 0 id ((FMap.getD g.barG 0 id + 1) % 2 ^ 32) }
    let s' := if cluster then (s.setGroup c.gid g').dropL1 (coreOf c.gid) else s.setGroup c.gid g'
    rw [if_neg hwait, hrole, if_neg (by simp), if_pos hphase] at hx
    have hgroups : s'.groups = (s.setGroup c.gid g').groups := by dsimp only [s']; split <;> rfl
    have hg' : FMap.find s'.groups c.gid = some g' := by rw [hgroups, State.find_setGroup]
    have hkeeps : KeepsIssuer s s' c := ⟨⟨g', hg'⟩, by dsimp only [s']; split <;> rfl⟩
    have hmemory : KeepsMemory s s' := by
      have hset : KeepsMemory s (s.setGroup c.gid g') := keepsMemory_of_eq rfl rfl rfl
      dsimp only [s']
      split
      · exact keepsMemory_trans hset (keepsMemory_dropL1 ..)
      · exact hset
    refine ⟨_, hx, goesOn_retire_same hctx s' hkeeps _, keepsMemory_trans hmemory (keepsMemory_retire s' ..),
      keepsOtherGroups_retire hctx s' c.regs c.seed _ fun k hk => ?_,
      ofGroup_retire hctx s' c.regs c.seed hs hg' _ fun _ _ _ _ _ => FMap.getD_setD_same .., fun hd => ?_⟩
    · rw [hgroups]
      exact FMap.find_insert_other s.groups (Ne.symm hk) _
    · have hdropped : s' = (s.setGroup c.gid g').dropL1 (coreOf c.gid) := if_pos (hdrop hd)
      rw [show (if cluster = true then _ else _) = s' from rfl, core_retire, hdropped, State.core_dropL1, if_pos rfl]
  case waits =>
    rw [if_neg hwait, hrole, if_neg (by simp), if_neg (by simpa using hphase), hother, if_neg Bool.false_ne_true] at hx
    let s' : State := { s with blocks := FMap.insert s.blocks g.ident.block { b with barMask := FMap.insert b.barMask id mask } }
    have hstay : (s'.stay c c (.bar id mask cluster)).blocks = s'.blocks := State.stay_blocks ..
    refine ⟨_, hx, ⟨cluster, waitsFor_stay hctx s' hs hg rfl⟩, keepsOtherGroups_of_groups fun k hk => State.stay_other hctx s' _ hk, ?_⟩
    rw [hstay]
    exact FMap.find_insert_same ..

end

/-- BAR's end (R395). -/
theorem exec_bar {s : State} {c : Ctx} (hissues : GroupIssues s c) (hflush : NothingToFlush s c) (r i : BitVec 4) :
    exec (.bar r i) s = finish c ((encode (.bar r i)).getD 0#32) (barBody i.toNat r.toNat false s c) := by
  obtain ⟨hctx, hs, hnone⟩ := hissues
  have hx : exec (.bar r i) s = execBar r i s := rfl
  rw [execBar] at hx
  rw [exec_of_issue hx hctx (by simp [hs]), txIllegal_of_none hnone, withRelease_of_nothing hctx hflush]

/-- BARG's end. -/
theorem exec_barg {s : State} {c : Ctx} (hissues : GroupIssues s c) (hflush : NothingToFlush s c) (i : BitVec 4) :
    exec (.barg i) s = finish c ((encode (.barg i)).getD 0#32) (bargBody i.toNat s c) := by
  obtain ⟨hctx, hs, hnone⟩ := hissues
  have hx : exec (.barg i) s = execBarg i s := rfl
  rw [execBarg] at hx
  rw [exec_of_issue hx hctx (by simp [hs]), txIllegal_of_none hnone, withRelease_of_nothing hctx hflush]

/-- A gang barrier, branch by branch (R396). -/
theorem bargBody_eq {s : State} {c : Ctx} {g : Group} {b : Block} {gr : Grid} (hg : FMap.find s.groups c.gid = some g)
    (hb : FMap.find s.blocks g.ident.block = some b) (hgr : FMap.find s.grids b.grid = some gr) (id : Nat) : bargBody id s c =
    if gr.hdr.gang = 1 then barBody id 0 true s c
    else if c.split.wait = .answered 0 then Done.seq s c
    else if FMap.getD g.bargG 0 id ≠ FMap.getD gr.bargP 0 (b.linear / gr.hdr.gang * 16 + id) then
      Done.seq ((s.setGroup c.gid { g with bargG := FMap.setD g.bargG 0 id ((FMap.getD g.bargG 0 id + 1) % 2 ^ 32) }).dropL1 (coreOf c.gid)) c
    else .next ((s.stay c c (.barg id)).evalBarg b.grid (b.linear / gr.hdr.gang) id) := by
  have hblock : s.blockOf c.gid = some b := by simp only [State.blockOf, hg, hb]
  simp only [bargBody, hg, hblock, hgr, State.modGroup_of_find hg]

/-! A phase completes (R396). -/

theorem Group.arrivedBar_iff (g : Group) (id : Nat) : g.arrivedBar id = true ↔ g.splits ≠ [] ∧ ∀ sp ∈ g.splits, isBar id sp.wait = true := by
  have hmatch : (fun sp : Split => match sp.wait with
      | .bar i _ _ => decide (i = id)
      | _ => false) = fun sp => isBar id sp.wait := rfl
  have harrived : g.arrivedBar id = (!g.splits.isEmpty && g.splits.all (fun sp => isBar id sp.wait)) := congrArg (fun f => !g.splits.isEmpty && g.splits.all f) hmatch
  rw [harrived, Bool.and_eq_true, List.all_eq_true]
  simp

/-- A split as the end of the phase leaves it, in a group of this status (R183, R396). -/
def Split.afterPhase (sp : Split) (st : GStatus) : Split := if st = .running then released sp else { sp with wait := .answered 0 }

theorem isBar_afterPhase (id : Nat) (sp : Split) (st : GStatus) : isBar id (sp.afterPhase st).wait = false := by
  unfold Split.afterPhase
  split <;> rfl

/-- The group after a phase in which it had arrived. -/
def Group.afterPhase (g : Group) (id p : Nat) : Group := { g.releaseWait (isBar id) with barG := FMap.setD g.barG 0 id p }

/-- g' is a group of which every split of g has gone on after the phase. -/
def PhaseEnded (id p : Nat) (g g' : Group) : Prop :=
  g'.status = g.status ∧ g'.regs = g.regs ∧ FMap.getD g'.barG 0 id = p ∧ g'.table = g.table.map (fun q => (q.1, q.2.afterPhase g.status)) ∧
    g'.stack = g.stack.map (fun sp => sp.afterPhase g.status)

/-- What a phase's end makes of one split. -/
theorem Group.releaseWait_eq (g : Group) (test : Wait → Bool) : g.releaseWait test =
    { g with table := g.table.map (fun q => (q.1, if test q.2.wait then q.2.afterPhase g.status else q.2)),
             stack := g.stack.map (fun sp => if test sp.wait then sp.afterPhase g.status else sp) } := rfl

theorem phaseEnded_of_arrived {g : Group} {id : Nat} (p : Nat) (h : g.arrivedBar id = true) : PhaseEnded id p g (g.afterPhase id p) := by
  obtain ⟨-, hbar⟩ := (g.arrivedBar_iff id).1 h
  refine ⟨rfl, rfl, FMap.getD_setD_same .., ?_, ?_⟩
  · refine List.map_congr_left fun q hq => ?_
    exact congrArg (Prod.mk q.1) (if_pos (hbar q.2 (List.mem_append_left _ (List.mem_map.2 ⟨q, hq, rfl⟩))))
  · exact List.map_congr_left fun sp hsp => if_pos (hbar sp (List.mem_append_right _ hsp))

/-- A second look at the same group leaves it as the first has left it. -/
theorem phaseEnded_again {g g' : Group} {id p : Nat} (h : PhaseEnded id p g g') : PhaseEnded id p g (g'.afterPhase id p) := by
  obtain ⟨hstatus, hregs, -, htable, hstack⟩ := h
  refine ⟨hstatus, hregs, FMap.getD_setD_same .., ?_, ?_⟩
  · rw [Group.afterPhase, Group.releaseWait_eq, htable]
    simp [isBar_afterPhase]
  · rw [Group.afterPhase, Group.releaseWait_eq, hstack]
    simp [isBar_afterPhase]

/-- The phase's end for a list of groups: one of the list has gone on, another is as before. -/
theorem find_foldl_afterPhase {id p k : Nat} {g : Group} (harrived : g.arrivedBar id = true) (l : List (Nat × Group)) (s : State)
    {g' : Group} (hg' : FMap.find s.groups k = some g') (hstate : g' = g ∨ PhaseEnded id p g g') :
    ∃ g'', FMap.find (l.foldl (fun s q => s.modGroup q.1 (fun g => g.afterPhase id p)) s).groups k = some g'' ∧
      (PhaseEnded id p g g'' ∨ (g'' = g' ∧ ∀ q ∈ l, q.1 ≠ k)) := by
  induction l generalizing s g' with
  | nil => exact ⟨g', hg', .inr ⟨rfl, by simp⟩⟩
  | cons q l ih =>
    rw [List.foldl_cons]
    by_cases hq : q.1 = k
    · have hended : PhaseEnded id p g (g'.afterPhase id p) := by
        rcases hstate with rfl | h
        · exact phaseEnded_of_arrived p harrived
        · exact phaseEnded_again h
      have hfind : FMap.find (s.modGroup q.1 (fun g => g.afterPhase id p)).groups k = some (g'.afterPhase id p) := by
        rw [hq, State.modGroup_of_find hg', State.find_setGroup]
      obtain ⟨g'', hg'', h⟩ := ih _ hfind (.inr hended)
      exact ⟨g'', hg'', .inl (h.elim (fun h => h) fun h => by rw [h.1]; exact hended)⟩
    · have hfind : FMap.find (s.modGroup q.1 (fun g => g.afterPhase id p)).groups k = some g' := by
        unfold State.modGroup
        split
        · rw [State.setGroup, FMap.find_insert_other _ hq, hg']
        · exact hg'
      obtain ⟨g'', hg'', h⟩ := ih _ hfind hstate
      exact ⟨g'', hg'', h.imp (fun h => h) fun h => ⟨h.1, by simpa [hq] using h.2⟩⟩

/-- The participants of a phase (R395). -/
def State.participants (s : State) (b : Block) (mask : Nat) : List (Nat × Group) :=
  (b.gids.filterMap (fun k => (FMap.find s.groups k).map (fun g => (k, g)))).filter (fun q => q.2.inRoles mask)

theorem State.mem_participants (s : State) (b : Block) (mask : Nat) (q : Nat × Group) :
    q ∈ s.participants b mask ↔ q.1 ∈ b.gids ∧ FMap.find s.groups q.1 = some q.2 ∧ q.2.inRoles mask = true := by
  obtain ⟨k, g⟩ := q
  simp only [State.participants, List.mem_filter, List.mem_filterMap, Option.map_eq_some_iff, Prod.mk.injEq]
  constructor
  · rintro ⟨⟨j, hj, g', hg', rfl, rfl⟩, hrole⟩
    exact ⟨hj, hg', hrole⟩
  · rintro ⟨hk, hg, hrole⟩
    exact ⟨⟨k, hk, g, hg, rfl, rfl⟩, hrole⟩

/-- The state after the phase, before any L1 is dropped. -/
def State.phaseEnd (s : State) (bk id : Nat) (b : Block) (mask : Nat) : State :=
  let p := (FMap.getD b.barP 0 id + 1) % 2 ^ 32
  ((s.participants b mask).filter (fun q => q.2.arrivedBar id)).foldl (fun s q => s.modGroup q.1 (fun g => g.afterPhase id p))
    { s with blocks := FMap.insert s.blocks bk { b with barP := FMap.setD b.barP 0 id p, barMask := FMap.erase b.barMask id } }

/-- A look at a phase: nothing moves before the last arrival, and then the phase ends. -/
theorem evalBar_eq {s : State} {bk id mask : Nat} {b : Block} (hb : FMap.find s.blocks bk = some b) (hmask : FMap.find b.barMask id = some mask) :
    ∃ drop : Bool, s.evalBar bk id =
      if (s.participants b mask).all (fun q => q.2.splits.isEmpty || q.2.arrivedBar id) && (s.participants b mask).any (fun q => q.2.arrivedBar id) then
        (if drop then (s.phaseEnd bk id b mask).dropL1 b.core else s.phaseEnd bk id b mask)
      else s := by
  refine ⟨(s.participants b mask).any (fun q => q.2.splits.any (fun sp => isClusterBar id sp.wait)), ?_⟩
  simp only [State.evalBar, hb, hmask, State.modBlock]
  rfl

theorem phaseEnd_blocks (s : State) (bk id : Nat) (b : Block) (mask : Nat) : (s.phaseEnd bk id b mask).blocks =
    FMap.insert s.blocks bk { b with barP := FMap.setD b.barP 0 id ((FMap.getD b.barP 0 id + 1) % 2 ^ 32), barMask := FMap.erase b.barMask id } := by
  unfold State.phaseEnd
  exact foldl_keep (fun s : State => s.blocks) _ (fun s q => by simp) _ _

end Sys2Proof.Machine

namespace Sys2Proof.Proofs

open Sys2Proof.Machine Sys2Proof.Claims

/-- Settles O24: BAR, and BARG of a gang of one, end in `barBody`; a gang's barrier has the branches of `bargBody_eq`. -/
theorem barrierResults : Obligations.BarrierResults := by
  unfold Obligations.BarrierResults
  intro s c g b r i hissues hflush hg hb id goesOn bar
  have hbarg := exec_barg hissues hflush i
  refine ⟨?bar, fun gr hgr => ⟨fun hgang => ?alone, fun hgang hwait => ?released, fun hgang hwait => ⟨fun hphase => ?passes, fun hphase => ?waits⟩⟩⟩
  case bar => exact bar_clauses hg hb hissues.1 hissues.2.1 False.elim (exec_bar hissues hflush r i)
  all_goals rw [bargBody_eq hg hb hgr] at hbarg
  case alone =>
    rw [if_pos hgang] at hbarg
    exact bar_clauses hg hb hissues.1 hissues.2.1 (fun _ => rfl) hbarg
  case released =>
    rw [if_neg hgang, if_pos hwait] at hbarg
    exact goesOn_of_seq hissues.1 hbarg
  case passes =>
    rw [if_neg hgang, if_neg hwait, if_pos hphase] at hbarg
    obtain ⟨hctx, hs, -⟩ := hissues
    let g' : Group := { g with bargG := FMap.setD g.bargG 0 id ((FMap.getD g.bargG 0 id + 1) % 2 ^ 32) }
    let s' := (s.setGroup c.gid g').dropL1 (coreOf c.gid)
    have hg' : FMap.find s'.groups c.gid = some g' := State.find_setGroup ..
    refine ⟨_, hbarg, goesOn_retire_same hctx s' ⟨⟨g', hg'⟩, rfl⟩ _, ?_, ofGroup_retire hctx s' c.regs c.seed hs hg' _ fun _ _ _ _ _ => FMap.getD_setD_same ..⟩
    rw [core_retire, State.core_dropL1, if_pos rfl]
  case waits =>
    rw [if_neg hgang, if_neg hwait, if_neg (Classical.not_not.2 hphase)] at hbarg
    obtain ⟨hctx, hs, -⟩ := hissues
    refine ⟨_, hbarg, waitsFor_stay hctx s hs hg rfl, stay_onlyIssuer hctx hs hg _⟩

/-- Settles O25: `evalBar_eq` decides by the participants, and `find_foldl_afterPhase` gives what each arrived group becomes. -/
theorem barrierPhaseCompletes : Obligations.BarrierPhaseCompletes := by
  unfold Obligations.BarrierPhaseCompletes
  intro s bk id mask b hb hmask t p leaves
  obtain ⟨drop, ht⟩ := evalBar_eq hb hmask
  refine ⟨?before, ?after⟩
  case before =>
    rintro ⟨k, hk, g, hg, hrole, hsplits, hnot⟩
    have hmissing : (s.participants b mask).all (fun q => q.2.splits.isEmpty || q.2.arrivedBar id) = false := by
      refine List.all_eq_false.2 ⟨(k, g), (s.mem_participants b mask _).2 ⟨hk, hg, hrole⟩, ?_⟩
      simp [hnot, hsplits]
    refine ht.trans (if_neg ?_)
    rw [hmissing]
    simp
  case after =>
    rintro ⟨k, hk, g, hg, hrole, harrived⟩ hall
    have hevery : (s.participants b mask).all (fun q => q.2.splits.isEmpty || q.2.arrivedBar id) = true := by
      refine List.all_eq_true.2 fun q hq => ?_
      obtain ⟨hqk, hqg, hqrole⟩ := (s.mem_participants b mask q).1 hq
      rcases hall q.1 hqk q.2 hqg hqrole with h | h <;> simp [h]
    have hsome : (s.participants b mask).any (fun q => q.2.arrivedBar id) = true :=
      List.any_eq_true.2 ⟨(k, g), (s.mem_participants b mask _).2 ⟨hk, hg, hrole⟩, harrived⟩
    rw [hevery, hsome, Bool.and_self, if_pos rfl] at ht
    have hblocks : t.blocks = (s.phaseEnd bk id b mask).blocks := (congrArg State.blocks ht).trans (by split <;> simp)
    have hgroups : t.groups = (s.phaseEnd bk id b mask).groups := (congrArg State.groups ht).trans (by split <;> simp)
    have hblock := (congrArg (fun m => FMap.find m bk) (hblocks.trans (phaseEnd_blocks s bk id b mask))).trans (FMap.find_insert_same ..)
    refine ⟨⟨_, hblock, FMap.getD_setD_same .., FMap.find_erase_same .., rfl, rfl⟩, ?_⟩
    intro k hk g hg hrole harrived
    obtain ⟨g', hg', h⟩ := find_foldl_afterPhase (p := p) harrived ((s.participants b mask).filter (fun q => q.2.arrivedBar id))
      { s with blocks := FMap.insert s.blocks bk { b with barP := FMap.setD b.barP 0 id p, barMask := FMap.erase b.barMask id } } hg (.inl rfl)
    have hmem : (k, g) ∈ (s.participants b mask).filter (fun q => q.2.arrivedBar id) :=
      List.mem_filter.2 ⟨(s.mem_participants b mask _).2 ⟨hk, hg, hrole⟩, harrived⟩
    obtain ⟨-, hregs, hbar, htable, hstack⟩ := h.resolve_right fun h => h.2 _ hmem rfl
    exact ⟨g', by rw [hgroups]; exact hg', hregs, hbar, htable, hstack⟩

end Sys2Proof.Proofs
end

