-- ==== Sys2Proof/Proofs/TierMoves.lean ====
section
/-! SUPPORT. Tier moves and barrier objects (R198, R403, R404), and two frames that memory instructions share: tokens that are
not charged (R106), and the directory's note of a read (R216). -/

namespace Sys2Proof.Machine

open Sys2Proof.Claims

/-! Numbers in bytes (R2). -/

theorem ofBytesLE_lt (l : List Byte) : ofBytesLE l < 2 ^ (8 * l.length) := by
  induction l with
  | nil => simp [ofBytesLE]
  | cons b l ih =>
    have hb : b.toNat < 256 := b.isLt
    have hpow : 2 ^ (8 * (b :: l).length) = 256 * 2 ^ (8 * l.length) := by rw [List.length_cons, Nat.mul_add, Nat.pow_add, Nat.mul_comm]
    rw [hpow, ofBytesLE]
    omega

theorem State.wordAt_lt (s : State) (off n : Nat) : s.wordAt off n < 2 ^ (8 * n) := by
  have h := ofBytesLE_lt (s.bytesAt off n)
  rwa [State.bytesAt, List.length_map, List.length_range] at h

/-! A pair of words in every thread of a mask (R393). -/

theorem lo32_ofNat (x : Nat) : lo32 (BitVec.ofNat 64 x) = BitVec.ofNat 32 x := by
  apply BitVec.eq_of_toNat_eq
  simp [lo32]

theorem hi32_ofNat (x : Nat) : hi32 (BitVec.ofNat 64 x) = BitVec.ofNat 32 (x / 2 ^ 32) := by
  apply BitVec.eq_of_toNat_eq
  simp [hi32, Nat.shiftRight_eq_div_pow]
  omega

/-- A 64-bit write is a run of two words (R163). -/
theorem runAfter_pair (main : Bool) (d : BitVec 8) (x : DWord) (n : Nat) (old : Word) :
    runAfter main d [lo32 x, hi32 x] n old = if main then mainAfter true d x n old else operandAfter true d x n old := by
  have hrun : ∀ k, (if k ≤ n ∧ n < k + 2 then [lo32 x, hi32 x].getD (n - k) 0#32 else old) =
      if n = k then lo32 x else if n = k + 1 then hi32 x else old := by
    intro k
    by_cases h0 : n = k
    · simp [h0]
    · by_cases h1 : n = k + 1
      · simp [h1]
      · rw [if_neg h0, if_neg h1, if_neg (by omega)]
  cases main <;> cases hd : specOf d <;> simp [runAfter, mainAfter, operandAfter, hd]
  · exact hrun _
  · exact hrun _

theorem Ctx.put64_received (c : Ctx) (d : BitVec 8) (x : DWord) :
    Received c.regs c.split.mask d (fun _ => [lo32 x, hi32 x]) (c.put64 d x).regs := by
  obtain ⟨hmain, hoperand, hlow, hhigh, hmode, hcvmode⟩ := wrote_foldl_write64 c.regs c.split.mask d fun _ => x
  have hrest := foldl_keep (fun r : Regs => (r.l, r.mode, r.cvmode)) (fun r t => r.write64 t d x) (fun r t => r.write64_rest t d x)
    (threadsOf c.split.mask) c.regs
  simp only [Prod.mk.injEq] at hrest
  refine ⟨fun t n ht => ?_, fun t n ht => ?_, hrest⟩
  · rw [runAfter_pair]
    exact hmain t n ht
  · rw [runAfter_pair]
    exact hoperand t n ht

/-! Tokens (R106). -/

/-- The state with other VF windows. -/
def State.withVfs (s : State) (v : FMap Vf) : State := { s with vfs := v }

theorem State.leaveLine_eq (s : State) (vf die : Nat) (who : Nat × Nat) :
    ∃ v, s.leaveLine vf die who = s.withVfs v ∧ (s.withVfs v).bandwidth vf = s.bandwidth vf := by
  unfold State.leaveLine
  split
  · exact ⟨s.vfs, rfl, rfl⟩
  · refine ⟨_, rfl, ?_⟩
    have hvf : ∀ x, (s.setVf vf x).vf vf = x := fun x => FMap.getD_setD_same ..
    change (s.setVf vf _).bandwidth vf = s.bandwidth vf
    simp only [State.bandwidth, hvf]
    rfl

theorem spendAll_of_free {vf die : Nat} {who : Nat × Nat} (l : List Nat) (out : Nat) {s : State} (hfree : (s.bandwidth vf).en = false) :
    ∃ v, spendAll vf die who l out s = (none, s.withVfs v) := by
  induction l generalizing out s with
  | nil => exact ⟨s.vfs, rfl⟩
  | cons n l ih =>
    obtain ⟨v, hleave, hbandwidth⟩ := s.leaveLine_eq vf die who
    have hspend : s.spend vf die n who = (true, s.withVfs v) := by
      rw [State.spend, if_pos (.inl (by rw [hfree]; rfl)), hleave]
    obtain ⟨v', h⟩ := ih (out + 1) (s := s.withVfs v) (by rw [hbandwidth, hfree])
    refine ⟨v', ?_⟩
    rw [spendAll, hspend]
    exact h

/-- A group that pays no tokens is not held (R106). -/
theorem chargeSectors_of_free {s : State} {c : Ctx} (hfree : (s.bandwidth (s.vfOf c.gid)).en = false) (sizes : List Nat) (k : State → Done) :
    ∃ v, chargeSectors c sizes k s = k (s.withVfs v) := by
  obtain ⟨v, h⟩ := spendAll_of_free (die := dieOf (coreOf c.gid)) (who := (c.gid, c.entry))
    (sizes.drop (match c.split.wait with
      | .tokens n _ => n
      | _ => 0)) (match c.split.wait with
      | .tokens n _ => n
      | _ => 0) hfree
  refine ⟨v, ?_⟩
  unfold chargeSectors
  simp only
  split
  · next q s' hs' =>
    have := hs'.symm.trans h
    cases this
  · next s' hs' =>
    have := hs'.symm.trans h
    cases this
    rfl

/-! The directory (R216). -/

/-- The state with another directory. -/
def State.withDir (s : State) (d : FMap DirEntry) : State := { s with ms := { s.ms with dir := d } }

theorem State.noteReadLine_eq (s : State) (off n line : Nat) : ∃ d, s.noteReadLine off n line = s.withDir d := by
  unfold State.noteReadLine
  split
  · exact ⟨s.ms.dir, rfl⟩
  · exact ⟨_, rfl⟩

/-- A read at home is noted in the directory and nowhere else. -/
theorem State.noteRead_eq (s : State) (off n : Nat) : ∃ d, s.noteRead off n = s.withDir d := by
  have hfold : ∀ (l : List Nat) (s : State), ∃ d, l.foldl (fun s l => s.noteReadLine off n l) s = s.withDir d := by
    intro l
    induction l with
    | nil => exact fun s => ⟨s.ms.dir, rfl⟩
    | cons x l ih =>
      intro s
      obtain ⟨d, hd⟩ := s.noteReadLine_eq off n x
      obtain ⟨d', hd'⟩ := ih (s.withDir d)
      exact ⟨d', by rw [List.foldl_cons, hd, hd']; rfl⟩
  exact hfold _ s

theorem keepsMemory_withDir (s : State) (d : FMap DirEntry) : KeepsMemory s (s.withDir d) := ⟨rfl, rfl, rfl, fun _ => rfl⟩

theorem keepsMemory_withVfs (s : State) (v : FMap Vf) : KeepsMemory s (s.withVfs v) := ⟨rfl, rfl, rfl, fun _ => rfl⟩

/-- Poison that is not posted holds nothing (R213). -/
theorem State.toPost_of_off {s : State} {p : Nat} (h : s.assistOn p 3 = false) (off n : Nat) : s.toPost p off n = none := by
  rw [State.toPost, h]
  rfl

theorem containWait_own {s : State} {c : Ctx} (h : s.assistOn (s.partOf c.gid) 3 = false) (size off pol : Nat) :
    containWait c size [.own off pol] s = none := by
  simp [containWait, State.toPost_of_off h]

/-! Tier moves (R403). -/

/-- PFT and EVT share their end: a move is appended. -/
theorem move_of_checks {i : Instr} {op target : Nat} {a b : BitVec 8} {s : State} {c : Ctx} {ipa : Nat}
    (hx : exec i s = issue i false (vMove op target a b) s) (hissues : GroupIssues s c)
    (ha : src64Ok c.allot false a = true) (hb : src64Ok c.allot false b = true) (hbusy : (c.accBusy && (touchesAcc 2 a || touchesAcc 2 b)) = false)
    (hchecks : moveChecks c (c.regs.read64 c.xi c.lane a).toNat (c.regs.read64 c.xi c.lane b).toNat s = (.ok ipa, s)) :
    ∃ t, exec i s = .next t ∧ GoesOn t c c.regs c.seed (c.split.pc + 4#64) ∧ KeepsMemory s t ∧ KeepsOtherGroups s t c.gid ∧
      t.moves = s.moves ++ [⟨s.partOf c.gid, s.vfOf c.gid, ipa, target, (c.regs.read64 c.xi c.lane b).toNat, s.turn.nextId, none, none, []⟩] := by
  obtain ⟨hctx, hs, hnone⟩ := hissues
  let m : TierMove := ⟨s.partOf c.gid, s.vfOf c.gid, ipa, target, (c.regs.read64 c.xi c.lane b).toNat, s.turn.nextId, none, none, []⟩
  let s' : State := ({ s.fresh.2 with moves := s.moves ++ [m] } : State).schedule .tierMoveComplete
  have hend : exec i s = .next (s'.retire c c (c.split.pc + 4#64)) := by
    rw [exec_of_issue hx hctx (by simp [hs])]
    simp only [vMove, ha, hb, Ctx.accWait, hbusy, txIllegal_of_none hnone, moveBody, hchecks, Bool.and_self, Bool.not_true, Bool.false_eq_true, if_false]
    rfl
  exact ⟨_, hend, goesOn_retire_same hctx s' (keepsIssuer_of_groups hctx rfl rfl) _,
    keepsMemory_trans (keepsMemory_of_eq rfl rfl rfl : KeepsMemory s s') (keepsMemory_retire s' ..),
    keepsOtherGroups_retire hctx s' c.regs c.seed _ (fun _ _ => rfl), State.retire_moves ..⟩

/-! Barrier objects (R404). -/

/-- BOW's end with valid operands. -/
theorem exec_bow {s : State} {c : Ctx} (hissues : GroupIssues s c) {d a b : BitVec 8} (hd : dst64Ok c.allot d = true) (ha : src64Ok c.allot false a = true)
    (hb : src64Ok c.allot true b = true) (hbusy : (c.accBusy && (touchesAcc 2 d || touchesAcc 2 a || touchesAcc 2 b)) = false) :
    exec (.bow d a b) s = finish c ((encode (.bow d a b)).getD 0#32) (bowBody ((encode (.bow d a b)).getD 0#32) d a b s c) := by
  obtain ⟨hctx, hs, hnone⟩ := hissues
  have hx : exec (.bow d a b) s = execBow d a b s := rfl
  simp only [execBow] at hx
  rw [exec_of_issue hx hctx (by simp [hs])]
  simp only [hd, ha, hb, Ctx.accWait, hbusy, txIllegal_of_none hnone, Bool.and_self, Bool.not_true, Bool.false_eq_true, if_false]

/-- A readable object hands out its value or lets the split wait on its line (R404). -/
theorem bowBody_of_own {s : State} {c : Ctx} {word : BitVec 32} {d a b : BitVec 8} {off pol : Nat}
    (halign : (c.regs.read64 c.xi c.lane a).toNat % 8 = 0) (hpool : inPool (c.regs.read64 c.xi c.lane a).toNat = false)
    (hreach : s.reach c c.lane (c.regs.read64 c.xi c.lane a).toNat 8 .load = (.ok (.own off pol), s))
    (hassist : s.assistOn (s.partOf c.gid) 3 = false) (hfree : (s.bandwidth (s.vfOf c.gid)).en = false) (hclean : s.poisoned off 8 = false) :
    ∃ v dir, bowBody word d a b s c =
      if (c.regs.read64 c.xi c.lane b).toNat ≤ s.wordAt off 8 then bowDone d (s.wordAt off 8) ((s.withVfs v).withDir dir) c
      else .stay ((s.withVfs v).withDir dir) c (.bow (off / 256) (s.tick + 1400) word) := by
  obtain ⟨v, hcharge⟩ := chargeSectors_of_free hfree [1] (fun s' =>
    if s'.poisoned off 8 then Done.fault (s'.dropDenials (s'.whoOf c.gid)) c (sharedFault c (.virt fUncorrectable (c.regs.read64 c.xi c.lane a).toNat))
    else
      if (c.regs.read64 c.xi c.lane b).toNat ≤ s'.wordAt off 8 then bowDone d (s'.wordAt off 8) (s'.noteRead off 8) c
      else .stay (s'.noteRead off 8) c (.bow (off / 256) (s'.tick + 1400) word))
  obtain ⟨dir, hdir⟩ := (s.withVfs v).noteRead_eq off 8
  have hpoison : (s.withVfs v).poisoned off 8 = false := hclean
  refine ⟨v, dir, ?_⟩
  simp only [bowBody, halign, hpool, hreach, containWait_own hassist, ne_eq, not_true_eq_false, Bool.false_eq_true, if_false, Option.getD_none]
  refine hcharge.trans ?_
  simp only [hpoison, hdir, Bool.false_eq_true, if_false]
  rfl

end Sys2Proof.Machine

namespace Sys2Proof.Proofs

open Sys2Proof.Machine Sys2Proof.Claims

/-- Settles O26: PFT and EVT share `move_of_checks`; BOW has the two branches of `bowBody_of_own`. -/
theorem tierMoveAndObjectWaitResults : Obligations.TierMoveAndObjectWaitResults := by
  unfold Obligations.TierMoveAndObjectWaitResults
  intro s c d a b hissues va vb moves
  refine ⟨fun ipa ha hb hbusy hchecks => move_of_checks rfl hissues ha hb hbusy hchecks,
    fun ipa ha hb hbusy hchecks => move_of_checks rfl hissues ha hb hbusy hchecks, ?bow⟩
  case bow =>
    intro off pol hd ha hb hbusy halign hpool hreach hassist hfree hclean x
    have hx := exec_bow hissues hd ha hb hbusy
    obtain ⟨v, dir, hbody⟩ := bowBody_of_own (word := (encode (.bow d a b)).getD 0#32) (d := d) (b := b) halign hpool hreach hassist hfree hclean
    obtain ⟨hctx, hs, -⟩ := hissues
    let s1 := (s.withVfs v).withDir dir
    have hmemory : KeepsMemory s s1 := keepsMemory_trans (keepsMemory_withVfs s v) (keepsMemory_withDir _ dir)
    rw [hbody] at hx
    refine ⟨fun hle => ?_, fun hlt => ?_⟩
    · rw [if_pos hle] at hx
      let s2 := (s1.dropL1 (coreOf c.gid)).dropDenials ((s1.dropL1 (coreOf c.gid)).whoOf c.gid)
      have hkeeps : KeepsIssuer s s2 c := keepsIssuer_of_groups hctx (State.dropDenials_groups ..) (State.dropDenials_handlers ..)
      refine ⟨s2.retire c (c.put64 d (BitVec.ofNat 64 x)) (c.split.pc + 4#64), (c.put64 d (BitVec.ofNat 64 x)).regs, hx,
        goesOn_retire hctx s2 _ c.seed hkeeps _, ?_, ?_, ?_⟩
      · exact keepsMemory_trans (keepsMemory_trans hmemory (keepsMemory_trans (keepsMemory_dropL1 ..) (keepsMemory_dropDenials ..))) (keepsMemory_retire s2 ..)
      · rw [core_retire, State.core_of_cores (State.dropDenials_cores ..), State.core_dropL1, if_pos rfl]
      · have hreceived := c.put64_received d (BitVec.ofNat 64 x)
        rwa [lo32_ofNat, hi32_ofNat] at hreceived
    · rw [if_neg (by omega)] at hx
      obtain ⟨g, hg⟩ := group_of_ctx hctx
      exact ⟨_, _, hx, waitsFor_stay hctx s1 hs hg rfl, keepsMemory_trans hmemory (keepsMemory_stay s1 ..)⟩

end Sys2Proof.Proofs
end

