-- ==== Sys2Proof/Proofs/RegionFrame.lean ====
section
/-! SUPPORT. The frame of an instruction that closes its group's flashback region (R154) and reads memory (`ReadsOnly`) before
it takes effect. -/

namespace Sys2Proof.Machine

open Sys2Proof.Claims

/-! Who a group is. -/

theorem State.blockOf_setGroup {s : State} {k : Nat} {g g' : Group} (hg : FMap.find s.groups k = some g) (hident : g'.ident = g.ident) (j : Nat) :
    (s.setGroup k g').blockOf j = s.blockOf j := by
  unfold State.blockOf
  by_cases hj : k = j
  · subst hj
    simp only [State.find_setGroup, hg, State.setGroup_blocks, hident]
  · rw [show FMap.find (s.setGroup k g').groups j = FMap.find s.groups j from FMap.find_insert_other s.groups hj g', State.setGroup_blocks]

theorem State.gridOf_setGroup {s : State} {k : Nat} {g g' : Group} (hg : FMap.find s.groups k = some g) (hident : g'.ident = g.ident) (j : Nat) :
    (s.setGroup k g').gridOf j = s.gridOf j := by
  rw [State.gridOf, State.blockOf_setGroup hg hident, State.gridOf]
  rfl

theorem State.vfOf_setGroup {s : State} {k : Nat} {g g' : Group} (hg : FMap.find s.groups k = some g) (hident : g'.ident = g.ident) (j : Nat) :
    (s.setGroup k g').vfOf j = s.vfOf j := by
  rw [State.vfOf, State.gridOf_setGroup hg hident, State.vfOf]

theorem State.vfOf_of_eq {s t : State} (hgroups : t.groups = s.groups) (hblocks : t.blocks = s.blocks) (hgrids : t.grids = s.grids) (j : Nat) :
    t.vfOf j = s.vfOf j := by
  simp only [State.vfOf, State.gridOf, State.blockOf, hgroups, hblocks, hgrids]

/-! Closing a region. -/

/-- A closed region is all that differs. -/
theorem Group.closeRegion_eq (g : Group) (cause : Nat) : ∃ fp, g.closeRegion cause = { g with fp := fp } := by
  unfold Group.closeRegion
  split
  · exact ⟨_, rfl⟩
  · exact ⟨g.fp, rfl⟩

theorem Group.closeRegion_ident (g : Group) (cause : Nat) : (g.closeRegion cause).ident = g.ident := by
  obtain ⟨fp, h⟩ := g.closeRegion_eq cause
  rw [h]

theorem Group.closeRegion_links (g : Group) (cause : Nat) : (g.closeRegion cause).links = g.links := by
  obtain ⟨fp, h⟩ := g.closeRegion_eq cause
  rw [h]

theorem Group.closeRegion_guards (g : Group) (cause : Nat) : (g.closeRegion cause).guards = g.guards := by
  obtain ⟨fp, h⟩ := g.closeRegion_eq cause
  rw [h]

theorem State.closeRegionOf_eq {s : State} {gid : Nat} {g : Group} (hg : FMap.find s.groups gid = some g) (cause : Nat) :
    s.closeRegionOf gid cause = s.setGroup gid (g.closeRegion cause) := State.modGroup_of_find hg _

theorem State.find_closeRegionOf {s : State} {gid : Nat} {g : Group} (hg : FMap.find s.groups gid = some g) (cause : Nat) :
    FMap.find (s.closeRegionOf gid cause).groups gid = some (g.closeRegion cause) := by
  rw [State.closeRegionOf_eq hg, State.find_setGroup]

theorem State.find_closeRegionOf_other (s : State) {gid k : Nat} (hk : k ≠ gid) (cause : Nat) :
    FMap.find (s.closeRegionOf gid cause).groups k = FMap.find s.groups k := by
  unfold State.closeRegionOf State.modGroup
  split
  · exact FMap.find_insert_other s.groups (Ne.symm hk) _
  · rfl

theorem State.vfOf_closeRegionOf {s : State} {gid : Nat} {g : Group} (hg : FMap.find s.groups gid = some g) (cause j : Nat) :
    (s.closeRegionOf gid cause).vfOf j = s.vfOf j := by
  rw [State.closeRegionOf_eq hg, State.vfOf_setGroup hg (g.closeRegion_ident cause)]

@[simp] theorem State.closeRegionOf_ms (s : State) (gid cause : Nat) : (s.closeRegionOf gid cause).ms = s.ms := State.modGroup_ms ..
@[simp] theorem State.closeRegionOf_cores (s : State) (gid cause : Nat) : (s.closeRegionOf gid cause).cores = s.cores := State.modGroup_cores ..
@[simp] theorem State.closeRegionOf_blocks (s : State) (gid cause : Nat) : (s.closeRegionOf gid cause).blocks = s.blocks := State.modGroup_blocks ..
@[simp] theorem State.closeRegionOf_vfs (s : State) (gid cause : Nat) : (s.closeRegionOf gid cause).vfs = s.vfs := State.modGroup_vfs ..
@[simp] theorem State.closeRegionOf_handlers (s : State) (gid cause : Nat) : (s.closeRegionOf gid cause).handlers = s.handlers := State.modGroup_handlers ..
@[simp] theorem State.closeRegionOf_turn (s : State) (gid cause : Nat) : (s.closeRegionOf gid cause).turn = s.turn := State.modGroup_turn ..
@[simp] theorem State.closeRegionOf_grids (s : State) (gid cause : Nat) : (s.closeRegionOf gid cause).grids = s.grids := State.modGroup_grids ..

theorem State.core_closeRegionOf (s : State) (gid cause k : Nat) : (s.closeRegionOf gid cause).core k = s.core k :=
  State.core_of_cores (s.closeRegionOf_cores gid cause) k

theorem keepsMemory_closeRegionOf (s : State) (gid cause : Nat) : KeepsMemory s (s.closeRegionOf gid cause) :=
  keepsMemory_of_eq (s.closeRegionOf_ms ..) (s.closeRegionOf_blocks ..) (s.closeRegionOf_cores ..)

/-- An instruction that closes the region takes effect after it, unless it faults (R154). -/
theorem closing_of_effect {cause : Nat} {body : State → Ctx → Done} {s : State} {c : Ctx} {d : Done}
    (h : body (s.closeRegionOf c.gid cause) c = d) (hd : ∀ (s' : State) (c' : Ctx) (r : FaultReq), d ≠ .fault s' c' r) : closing cause body s c = d := by
  unfold closing
  rw [show s.modGroup c.gid (fun g => g.closeRegion cause) = s.closeRegionOf c.gid cause from rfl, h]
  split
  · exact absurd rfl (hd _ _ _)
  · rfl

/-! Tokens (R106). -/

/-- A group that pays no tokens, with no request held, goes on as it is. -/
theorem chargeSectors_of_none {s : State} {c : Ctx} (hfree : NoTokens s c) (sizes : List Nat) (k : State → Done) :
    chargeSectors c sizes k s = k s := by
  obtain ⟨hen, hline⟩ := hfree
  have hspend : ∀ die who n, s.spend (s.vfOf c.gid) die n who = (true, s) := by
    intro die who n
    rw [State.spend, if_pos (.inl (by rw [hen]; rfl)), State.leaveLine, hline]
    rfl
  have hall : ∀ die who l out, spendAll (s.vfOf c.gid) die who l out s = (none, s) := by
    intro die who l
    induction l with
    | nil => exact fun out => rfl
    | cons n l ih =>
      intro out
      rw [spendAll, hspend]
      exact ih (out + 1)
  simp only [chargeSectors, hall]

theorem noTokens_of_eq {s t : State} {c : Ctx} (hvf : t.vfOf c.gid = s.vfOf c.gid) (hvfs : t.vfs = s.vfs) (hparts : t.parts = s.parts)
    (h : NoTokens s c) : NoTokens t c := by
  simp only [NoTokens, State.bandwidth, State.vf, State.part, hvf, hvfs, hparts] at h ⊢
  exact h

theorem noTokens_closeRegionOf {s : State} {c : Ctx} {g : Group} (hg : FMap.find s.groups c.gid = some g) (h : NoTokens s c) (cause : Nat) :
    NoTokens (s.closeRegionOf c.gid cause) c := noTokens_of_eq (State.vfOf_closeRegionOf hg ..) (s.closeRegionOf_vfs ..) (State.modGroup_parts ..) h

/-! After a read (`ReadsOnly`). -/

theorem readsOnly_refl (s : State) : ReadsOnly s s := ⟨keepsMemory_refl s, rfl, rfl, rfl, rfl, rfl, ⟨rfl, rfl⟩, fun _ => rfl⟩

theorem readsOnly_trans {s t u : State} (h : ReadsOnly s t) (h' : ReadsOnly t u) : ReadsOnly s u := by
  obtain ⟨hmem, hgroups, hhandlers, hvfs, hgrids, hharts, ⟨hcur, hid⟩, hqueue⟩ := h
  obtain ⟨hmem', hgroups', hhandlers', hvfs', hgrids', hharts', ⟨hcur', hid'⟩, hqueue'⟩ := h'
  exact ⟨keepsMemory_trans hmem hmem', hgroups'.trans hgroups, hhandlers'.trans hhandlers, hvfs'.trans hvfs, hgrids'.trans hgrids,
    hharts'.trans hharts, ⟨hcur'.trans hcur, hid'.trans hid⟩, fun k => (hqueue' k).trans (hqueue k)⟩

theorem readsOnly_keepsMemory {s t : State} (h : ReadsOnly s t) : KeepsMemory s t := h.1

theorem readsOnly_groups {s t : State} (h : ReadsOnly s t) : t.groups = s.groups := h.2.1

theorem readsOnly_handlers {s t : State} (h : ReadsOnly s t) : t.handlers = s.handlers := h.2.2.1

theorem readsOnly_vfs {s t : State} (h : ReadsOnly s t) : t.vfs = s.vfs := h.2.2.2.1

theorem readsOnly_nextId {s t : State} (h : ReadsOnly s t) : t.turn.nextId = s.turn.nextId := h.2.2.2.2.2.2.1.2

theorem readsOnly_queue {s t : State} (h : ReadsOnly s t) (k : Nat) : (t.core k).queue = (s.core k).queue := h.2.2.2.2.2.2.2 k

theorem readsOnly_vfOf {s t : State} (h : ReadsOnly s t) (j : Nat) : t.vfOf j = s.vfOf j := by
  obtain ⟨⟨_, _, hblocks, _⟩, hgroups, _, _, hgrids, _⟩ := h
  exact State.vfOf_of_eq hgroups hblocks hgrids j

theorem readsOnly_gridOf {s t : State} (h : ReadsOnly s t) (j : Nat) : t.gridOf j = s.gridOf j := by
  obtain ⟨⟨_, _, hblocks, _⟩, hgroups, _, _, hgrids, _⟩ := h
  simp only [State.gridOf, State.blockOf, hgroups, hblocks, hgrids]

/-- What an instruction finds after it has closed its region and read memory: its group but for the region, and every other as before. -/
structure Closed (s t : State) (gid cause : Nat) : Prop where
  memory : KeepsMemory s t
  group : ∀ g, FMap.find s.groups gid = some g → FMap.find t.groups gid = some (g.closeRegion cause)
  others : ∀ k, k ≠ gid → FMap.find t.groups k = FMap.find s.groups k
  handlers : t.handlers = s.handlers
  vfs : t.vfs = s.vfs
  nextId : t.turn.nextId = s.turn.nextId
  queue : ∀ k, (t.core k).queue = (s.core k).queue

theorem closed_closeRegionOf (s : State) (gid cause : Nat) : Closed s (s.closeRegionOf gid cause) gid cause :=
  ⟨keepsMemory_closeRegionOf s gid cause, fun _ hg => State.find_closeRegionOf hg cause, fun _ hk => s.find_closeRegionOf_other hk cause,
    s.closeRegionOf_handlers .., s.closeRegionOf_vfs .., by rw [State.closeRegionOf_turn], fun k => by rw [State.core_closeRegionOf]⟩

theorem Closed.reads {s t u : State} {gid cause : Nat} (h : Closed s t gid cause) (hr : ReadsOnly t u) : Closed s u gid cause :=
  ⟨keepsMemory_trans h.memory (readsOnly_keepsMemory hr), fun g hg => by rw [readsOnly_groups hr, h.group g hg], fun k hk => by rw [readsOnly_groups hr, h.others k hk],
    (readsOnly_handlers hr).trans h.handlers, (readsOnly_vfs hr).trans h.vfs, (readsOnly_nextId hr).trans h.nextId, fun k => (readsOnly_queue hr k).trans (h.queue k)⟩

/-- The issuer is still there. -/
theorem Closed.keepsIssuer {s t : State} {c : Ctx} {cause : Nat} (h : Closed s t c.gid cause) (hctx : s.ctx = some c) : KeepsIssuer s t c := by
  obtain ⟨g, hg⟩ := group_of_ctx hctx
  exact ⟨⟨_, h.group g hg⟩, h.handlers⟩

/-- Closing the region leaves nothing to flush where there was nothing. -/
theorem Closed.withRelease {s t : State} {c : Ctx} {cause : Nat} (h : Closed s t c.gid cause) (hctx : s.ctx = some c) (hflush : NothingToFlush s c)
    (k : State → Ctx → Done) : withRelease k t c = k t c := by
  obtain ⟨hwait, hlinks⟩ := hflush
  obtain ⟨g, hg⟩ := group_of_ctx hctx
  obtain ⟨hwritten, hflush⟩ := hlinks g hg
  refine withReleaseOf_of_links (h.group g hg) hwait ?_ ?_ _ k
  · rw [Group.closeRegion_links, hwritten]
  · rw [Group.closeRegion_links, hflush]

end Sys2Proof.Machine
end

