-- ==== Sys2Proof/Proofs/EngineResults.lean ====
section
/-! SUPPORT. Enqueuing (R408, R409) and the control of engines (R181, R420 to R427), of a split outside transactions. -/

namespace Sys2Proof.Machine

open Sys2Proof.Claims

/-! Enqueuing. -/

/-- The state of a guard slot that a command is enqueued under (R181): 0 open, 1 true, 2 false; none is as true. -/
def Group.guardState (g : Group) : Option Nat → Nat
  | some n => FMap.getD g.guards 0 n
  | none => 1

/-- A command stands at the end of a core's queue. -/
def State.appendCommand (s : State) (core : Nat) (q : EngCmd) : State := s.modCore core (fun k => { k with queue := k.queue ++ [q] })

/-- A command that its guard does not leave out stands at the end of the queue. -/
def State.enqueued (s : State) (sub : Nat) (guard : Option Nat) (held : Bool) (word : Word) (w : List Word) (i : EnqInfo) (c : Ctx) : State :=
  (s.fresh.2.appendCommand (coreOf c.gid)
    (newCommand s.turn.nextId c.gid sub w guard held ⟨c.regs.cvmode, c.regs.mode⟩ i word c.split.mask)).schedule
    (serveEvent (coreOf c.gid) s.turn.nextId sub w)

theorem enqueue_eq {s : State} {c : Ctx} {g : Group} (hg : FMap.find s.groups c.gid = some g) (sub : Nat) (guard : Option Nat) (word : Word)
    (w : List Word) (i : EnqInfo) : enqueue sub guard word w i s c =
      Done.seq (if g.guardState guard = 2 then s else s.enqueued sub guard (decide (g.guardState guard = 0)) word w i c) c := by
  cases guard with
  | none => rfl
  | some n =>
    by_cases h : g.guardState (some n) = 2
    · rw [if_pos h]
      simp only [enqueue, hg]
      exact if_pos h
    · rw [if_neg h]
      simp only [enqueue, hg]
      exact if_neg h

theorem keepsMemory_enqueued (s : State) (sub : Nat) (guard : Option Nat) (held : Bool) (word : Word) (w : List Word) (i : EnqInfo) (c : Ctx) :
    KeepsMemory s (s.enqueued sub guard held word w i c) := by
  have hid : KeepsMemory s s.fresh.2 := keepsMemory_of_eq rfl rfl rfl
  have hqueue : ∀ q, KeepsMemory s.fresh.2 (s.fresh.2.appendCommand (coreOf c.gid) q) := fun _ => keepsMemory_modCore _ _ fun _ => rfl
  exact keepsMemory_trans (keepsMemory_trans hid (hqueue _)) (keepsMemory_of_eq rfl rfl rfl)

theorem core_enqueued (s : State) (sub : Nat) (guard : Option Nat) (held : Bool) (word : Word) (w : List Word) (i : EnqInfo) (c : Ctx) :
    (s.enqueued sub guard held word w i c).core (coreOf c.gid) = { s.core (coreOf c.gid) with queue := (s.core (coreOf c.gid)).queue ++
      [newCommand s.turn.nextId c.gid sub w guard held ⟨c.regs.cvmode, c.regs.mode⟩ i word c.split.mask] } := by
  have h : ∀ q, (s.fresh.2.appendCommand (coreOf c.gid) q).core (coreOf c.gid) =
      { s.core (coreOf c.gid) with queue := (s.core (coreOf c.gid)).queue ++ [q] } := fun q => by
    rw [State.appendCommand, State.core_modCore, if_pos rfl]
    rfl
  exact h _

/-- The effect of an ENQ on the L1: an embedding table's entry is read as an acquire (R427). -/
def State.enqAcquire (s : State) (sub : Nat) (gid : Nat) : State := if 1 ≤ sub ∧ sub ≤ 3 then s.dropL1 (coreOf gid) else s

theorem State.enqAcquire_groups (s : State) (sub gid : Nat) : (s.enqAcquire sub gid).groups = s.groups := by
  unfold State.enqAcquire; split <;> rfl

theorem State.enqAcquire_turn (s : State) (sub gid : Nat) : (s.enqAcquire sub gid).turn = s.turn := by
  unfold State.enqAcquire; split <;> rfl

theorem State.enqAcquire_handlers (s : State) (sub gid : Nat) : (s.enqAcquire sub gid).handlers = s.handlers := by
  unfold State.enqAcquire; split <;> rfl

theorem keepsMemory_enqAcquire (s : State) (sub gid : Nat) : KeepsMemory s (s.enqAcquire sub gid) := by
  unfold State.enqAcquire
  split
  · exact keepsMemory_dropL1 ..
  · exact keepsMemory_refl s

theorem queue_enqAcquire (s : State) (sub gid k : Nat) : ((s.enqAcquire sub gid).core k).queue = (s.core k).queue := by
  unfold State.enqAcquire
  split
  · rw [State.core_dropL1]
    split
    · next h => rw [h]
    · rfl
  · rfl

theorem l1_enqAcquire (s : State) {sub : Nat} (gid : Nat) (h : 1 ≤ sub ∧ sub ≤ 3) : ((s.enqAcquire sub gid).core (coreOf gid)).l1 = [] := by
  rw [State.enqAcquire, if_pos h, State.core_dropL1, if_pos rfl]

/-- The body of an ENQ whose checks pass: it waits for room, or enqueues (R408, R180). -/
theorem enqBody_of_checks {s s2 : State} {c : Ctx} {g : Group} {sub : Nat} {a : BitVec 8} {info : EnqInfo} (hctx : s.ctx = some c)
    (hg : FMap.find s.groups c.gid = some g) (hfree : NoTokens s c) (hflush : sub = 6 → NothingToFlush s c) (guard : Option Nat) (word : Word)
    (hcheck : enqCheck false c.gid sub ((List.range 8).map (fun k => c.regs.readRun c.lane a k)) (s.closeRegionOf c.gid 2) = (.ok info, s2))
    (hreads : ReadsOnly (s.closeRegionOf c.gid 2) s2) :
    enqBody sub guard word a (s.closeRegionOf c.gid 2) c =
      if s.engineRoomFor c.gid = false then .stay s2 c .engineRoom
      else enqueue sub guard word ((List.range 8).map (fun k => c.regs.readRun c.lane a k)) info (s2.enqAcquire sub c.gid) c := by
  have hclosed : Closed s s2 c.gid 2 := (closed_closeRegionOf s c.gid 2).reads hreads
  have hroom : s2.engineRoomFor c.gid = s.engineRoomFor c.gid := by
    rw [State.engineRoomFor, hclosed.queue, State.engineRoomFor]
  simp only [enqBody, chargeSectors_of_none (noTokens_closeRegionOf hg hfree 2), hcheck, hroom, Bool.not_eq_true']
  by_cases hsub : sub = 6
  · have hkeep : s2.enqAcquire sub c.gid = s2 := if_neg (by omega)
    rw [if_pos hsub, hclosed.withRelease hctx (hflush hsub), hkeep]
  · rw [if_neg hsub]
    rfl

/-- What an ENQ of kind `sub` does where its checks pass. -/
theorem enqueues_of_checks {i : Instr} {s s2 : State} {c : Ctx} {g : Group} {sub : Nat} {a : BitVec 8} {info : EnqInfo} {guarded : Bool} {n : BitVec 3}
    (hx : exec i s = enq i sub guarded n a s) (hissues : GroupIssues s c) (hfree : NoTokens s c) (hg : FMap.find s.groups c.gid = some g)
    (ha : octetOk c.allot a = true) (hbusy : (c.accBusy && touchesAcc 8 a) = false) (hflush : sub = 6 → NothingToFlush s c)
    (hcheck : enqCheck false c.gid sub ((List.range 8).map (fun k => c.regs.readRun c.lane a k)) (s.closeRegionOf c.gid 2) = (.ok info, s2))
    (hreads : ReadsOnly (s.closeRegionOf c.gid 2) s2) :
    let core := coreOf c.gid
    let w := (List.range 8).map (fun k => c.regs.readRun c.lane a k)
    let slot := if guarded then FMap.getD g.guards 0 n.toNat else 1
    (s.engineRoomFor c.gid = false → ∃ t, exec i s = .next t ∧ WaitsFor t c .engineRoom ∧ KeepsMemory s t) ∧
    (s.engineRoomFor c.gid = true → ∃ t, exec i s = .next t ∧ GoesOn t c c.regs c.seed (c.split.pc + 4#64) ∧ KeepsMemory s t ∧ KeepsOtherGroups s t c.gid ∧
      (1 ≤ sub → sub ≤ 3 → (t.core core).l1 = []) ∧
      (slot = 2 → (t.core core).queue = (s.core core).queue) ∧
      (slot ≠ 2 → ∃ q, (t.core core).queue = (s.core core).queue ++ [q] ∧ q.id = s.turn.nextId ∧ q.gid = c.gid ∧ q.sub = sub ∧ q.words = w ∧
        q.held = decide (slot = 0) ∧ q.started = false ∧ q.batch = none ∧ q.cvmode = c.regs.cvmode ∧ q.version = info.version ∧ q.base = info.base)) := by
  intro core w slot
  obtain ⟨hctx, hs, hnone⟩ := hissues
  have hclosed : Closed s s2 c.gid 2 := (closed_closeRegionOf s c.gid 2).reads hreads
  have hg2 := hclosed.group g hg
  have hbody := enqBody_of_checks hctx hg hfree hflush (if guarded then some n.toNat else none) ((encode i).getD 0#32) hcheck hreads
  have hend : exec i s = finish c ((encode i).getD 0#32)
      (closing 2 (enqBody sub (if guarded then some n.toNat else none) ((encode i).getD 0#32) a) s c) := by
    rw [exec_of_issue hx hctx (by simp [hs])]
    simp only [ha, Ctx.accWait, hbusy, txIllegal_of_none hnone, Bool.not_true, Bool.false_eq_true, if_false]
  refine ⟨fun hroom => ?_, fun hroom => ?_⟩
  · rw [if_pos hroom] at hbody
    rw [closing_of_effect hbody (by simp)] at hend
    exact ⟨_, hend, waitsFor_stay hctx s2 hs hg2 rfl, keepsMemory_trans hclosed.memory (keepsMemory_stay s2 ..)⟩
  · let s3 := s2.enqAcquire sub c.gid
    have hg3 : FMap.find s3.groups c.gid = some (g.closeRegion 2) := by rw [State.enqAcquire_groups, hg2]
    have hslot : (g.closeRegion 2).guardState (if guarded then some n.toNat else none) = slot := by
      cases guarded <;> simp [Group.guardState, Group.closeRegion_guards, slot]
    have hfits : ¬ s.engineRoomFor c.gid = false := by simp [hroom]
    rw [if_neg hfits, enqueue_eq hg3, hslot] at hbody
    rw [closing_of_effect hbody (by simp [Done.seq])] at hend
    let s4 := if slot = 2 then s3 else s3.enqueued sub (if guarded then some n.toNat else none) (decide (slot = 0)) ((encode i).getD 0#32) w info c
    have hgroups : s4.groups = s2.groups := by
      have h3 : s3.groups = s2.groups := State.enqAcquire_groups ..
      by_cases h : slot = 2 <;> simp only [s4, h, if_true, if_false] <;> exact h3
    have hhandlers : s4.handlers = s.handlers := by
      have h3 : s3.handlers = s.handlers := (State.enqAcquire_handlers ..).trans hclosed.handlers
      by_cases h : slot = 2 <;> simp only [s4, h, if_true, if_false] <;> exact h3
    have hmemory : KeepsMemory s s4 := by
      have h3 : KeepsMemory s s3 := keepsMemory_trans hclosed.memory (keepsMemory_enqAcquire ..)
      by_cases h : slot = 2
      · simpa only [s4, h, if_true] using h3
      · simp only [s4, h, if_false]
        exact keepsMemory_trans h3 (keepsMemory_enqueued ..)
    have hqueue : (s3.core core).queue = (s.core core).queue := (queue_enqAcquire ..).trans (hclosed.queue core)
    refine ⟨_, hend, goesOn_retire_same hctx s4 ⟨⟨_, by rw [hgroups, hg2]⟩, hhandlers⟩ _, keepsMemory_trans hmemory (keepsMemory_retire s4 ..),
      keepsOtherGroups_retire hctx s4 c.regs c.seed _ fun k hk => by rw [hgroups, hclosed.others k hk], fun hlow hhigh => ?_, fun h => ?_, fun h => ?_⟩
    · rw [core_retire]
      have hl1 : (s3.core core).l1 = [] := l1_enqAcquire s2 c.gid ⟨hlow, hhigh⟩
      by_cases h : slot = 2
      · rw [if_pos h]
        exact hl1
      · rw [if_neg h, core_enqueued]
        exact hl1
    · rw [core_retire, if_pos h]
      exact hqueue
    · rw [core_retire, if_neg h, core_enqueued]
      refine ⟨_, congrArg (· ++ _) hqueue, ?_, rfl, rfl, rfl, rfl, rfl, rfl, rfl, rfl, rfl⟩
      exact (congrArg Turn.nextId (State.enqAcquire_turn ..)).trans hclosed.nextId

end Sys2Proof.Machine

namespace Sys2Proof.Proofs

open Sys2Proof.Machine Sys2Proof.Claims

/-- Settles O27: every kind of command shares `enqueues_of_checks`; NPOST alone is a release (R246). -/
theorem enqueueResults : Obligations.EnqueueResults := by
  unfold Obligations.EnqueueResults
  intro s s2 c g guarded n a info hissues hfree hg ha hbusy core w slot enqueues
  have hrun : ∀ (i : Instr) (sub : Nat), exec i s = enq i sub guarded n a s → (sub = 6 → NothingToFlush s c) → enqueues i sub :=
    fun i sub hx hflush hcheck hreads => enqueues_of_checks hx hissues hfree hg ha hbusy hflush hcheck hreads
  exact ⟨hrun _ 0 rfl (by simp), hrun _ 1 rfl (by simp), hrun _ 2 rfl (by simp), hrun _ 3 rfl (by simp), hrun _ 4 rfl (by simp),
    hrun _ 5 rfl (by simp), fun hflush => hrun _ 6 rfl fun _ => hflush⟩

end Sys2Proof.Proofs
end

