-- ==== Sys2Proof/Proofs/Translation.lean ====
section
/-! SUPPORT. Translations and table reads change no byte of the tiers and no partition: they move caches, the
directory and what the package asks others (R98 to R102, R193). -/

namespace Sys2Proof.Machine

open Sys2Proof.Claims

/-- The bytes of the tiers and the partitions are the same. -/
structure Looks (s t : State) : Prop where
  mem : t.ms.mem = s.ms.mem
  parts : t.parts = s.parts

theorem Looks.refl (s : State) : Looks s s := ⟨rfl, rfl⟩

theorem Looks.trans {s t u : State} (h : Looks s t) (h' : Looks t u) : Looks s u := ⟨h'.mem.trans h.mem, h'.parts.trans h.parts⟩

/-- A function that answers from the state, and moves it no further than a look does. -/
def Looking {α : Type} (f : State → α × State) : Prop := ∀ s, Looks s (f s).2

theorem Looking.of_eq {α : Type} {f : State → α × State} (h : Looking f) {s t : State} {x : α} (hx : f s = (x, t)) : Looks s t := by
  have := h s
  rwa [hx] at this

/-! What other packages answer. -/

theorem looks_freeWord (s : State) : Looks s s.freeWord.2 := ⟨rfl, rfl⟩

theorem looking_freeBytes (n : Nat) : Looking (State.freeBytes n) := by
  induction n with
  | zero => exact fun s => Looks.refl s
  | succ n ih => exact fun s => (looks_freeWord s).trans (ih _)

theorem looks_farRead (s : State) (n : Nat) : Looks s (s.farRead n).2 := (looking_freeBytes n s).trans (looks_freeWord _)

theorem looks_send (s : State) (m : OutMsg) : Looks s (s.send m) := ⟨rfl, rfl⟩

theorem looks_noteRead (s : State) (off n : Nat) : Looks s (s.noteRead off n) := by
  obtain ⟨d, h⟩ := s.noteRead_eq off n
  rw [h]
  exact ⟨rfl, rfl⟩

theorem looks_touchLine (s : State) (p line bits : Nat) (write : Bool) : Looks s (s.touchLine p line bits write).2 := by
  refine ⟨s.touchLine_mem .., ?_⟩
  unfold State.touchLine
  simp only
  split
  · rfl
  · split
    · rfl
    · split
      · rfl
      · split <;> rfl

theorem looks_touchL2 (s : State) (p key n : Nat) (write : Bool) : Looks s (s.touchL2 p key n write).2 := by
  refine ⟨s.touchL2_mem .., ?_⟩
  unfold State.touchL2
  exact foldl_keep (fun r : Bool × State => r.2.parts) _ (fun r line => (looks_touchLine r.2 p line _ write).parts) _ (false, s)

theorem looks_readHome (s : State) (p off n : Nat) : Looks s (s.readHome p off n) := (looks_noteRead s off n).trans (looks_touchL2 ..)

theorem looks_forgetDenials (s : State) (f : Option Issuer → Bool) : Looks s (s.forgetDenials f) := by
  unfold State.forgetDenials
  split <;> exact ⟨rfl, rfl⟩

theorem looks_dropDenials (s : State) (w : XWho) : Looks s (s.dropDenials w) := looks_forgetDenials ..

theorem looks_keepRange (s : State) (w : XWho) (r : CachedRange) : Looks s (s.keepRange w r) := by
  unfold State.keepRange
  cases w.core <;> exact ⟨rfl, rfl⟩

/-! The search of one stage (R98, R99), over a table read that looks. -/

section

variable {rd : TableRead} (hrd : ∀ a, Looking (rd a))
include hrd

theorem looking_searchRanges (part : Nat) (vf : Option Nat) (a : Nat) (bad : XStop) (n e : Nat) : Looking (searchRanges rd part vf a bad n e) := by
  induction n generalizing e with
  | zero => exact fun s => Looks.refl s
  | succ n ih =>
    intro s
    have h0 := hrd e s
    rw [searchRanges]
    split
    · next hq => rwa [hq] at h0
    · next w0 s0 hq =>
      rw [hq] at h0
      split
      · exact h0.trans (ih _ s0)
      · have h1 := h0.trans (hrd (e + 8) s0)
        split
        · next hq => rwa [hq] at h1
        · next w1 s1 hq =>
          rw [hq] at h1
          have h2 := h1.trans (hrd (e + 16) s1)
          split
          · next hq => rwa [hq] at h2
          · next w2 s2 hq =>
            rw [hq] at h2
            dsimp only
            split
            · split
              · exact h2
              · exact h2
            · exact h2.trans (ih _ s2)

theorem looking_readGroup (n a : Nat) : Looking (readGroup rd n a) := by
  induction n generalizing a with
  | zero => exact fun s => Looks.refl s
  | succ n ih =>
    intro s
    have h0 := hrd a s
    rw [readGroup]
    split
    · next hq => rwa [hq] at h0
    · next e s0 hq =>
      rw [hq] at h0
      have h1 := h0.trans (ih (a + 8) s0)
      split
      · next hq => rwa [hq] at h1
      · next hq => rwa [hq] at h1

theorem looking_groupLeaf (part : Nat) (vf : Option Nat) (a tab idx e : Nat) : Looking (groupLeaf rd part vf a tab idx e) := by
  intro s
  have h0 := looking_readGroup hrd 8 (tab + idx / 8 * 64) s
  unfold groupLeaf
  dsimp only
  split
  · next hq => rwa [hq] at h0
  · next hq => rwa [hq] at h0
  · next l s0 hq =>
    rw [hq] at h0
    split
    · exact h0
    · split
      · exact h0.trans (looks_freeWord s0)
      · exact h0.trans (looks_freeWord s0)

theorem looking_walkFrom (part : Nat) (vf : Option Nat) (a l tab : Nat) : Looking (walkFrom rd part vf a l tab) := by
  induction l generalizing tab with
  | zero => exact fun s => Looks.refl s
  | succ l ih =>
    intro s
    have h0 := hrd (tab + 8 * field a (12 + 9 * l) 9) s
    rw [walkFrom]
    dsimp only
    split
    · next hq => rwa [hq] at h0
    · next e s0 hq =>
      rw [hq] at h0
      split
      · exact h0
      · split
        · split
          · exact h0
          · exact h0.trans (ih _ s0)
        · split
          · exact h0
          · split
            · split
              · exact h0.trans (looking_groupLeaf hrd part vf a tab _ e s0)
              · exact h0
            · exact h0

theorem looking_stageLookup (w : XWho) (vf : Option Nat) (regs : Stage) (fault : Nat → XFault) (a need : Nat) :
    Looking (stageLookup w vf regs rd fault a need) := by
  intro s
  unfold stageLookup
  dsimp only
  split
  · exact Looks.refl s
  · exact Looks.refl s
  · have h0 := looking_searchRanges hrd w.part vf a (.fault (fault fTranslation)) (min regs.inRcnt 65536) regs.inRtab s
    split
    · next hq => rwa [hq] at h0
    · next r s0 hq =>
      rw [hq] at h0
      exact h0.trans (looks_keepRange s0 w r)
    · next s0 hq =>
      rw [hq] at h0
      split
      · exact h0
      · split
        · exact h0
        · have h1 := h0.trans (looking_walkFrom hrd w.part vf a 4 regs.inPtroot s0)
          split
          · next hq => rwa [hq] at h1
          · next hq => rwa [hq] at h1
          · next r keep s1 hq =>
            rw [hq] at h1
            cases keep
            · exact h1
            · exact h1.trans (looks_keepRange s1 w r)

end

/-! The two stages. -/

theorem looking_remoteTable (p vf pa : Nat) (bad refused : XFault) : Looking (remoteTable p vf pa bad refused) := by
  intro s
  unfold remoteTable
  split
  · exact Looks.refl s
  · split
    · exact Looks.refl s
    · exact (looks_send s _).trans (looks_farRead _ 8)

theorem looking_readTable2 (p vf pa : Nat) : Looking (readTable2 p vf pa) := by
  intro s
  unfold readTable2
  split
  · exact looking_remoteTable p vf pa _ _ s
  · split
    · split
      · exact Looks.refl s
      · split
        · exact Looks.refl s
        · exact looks_noteRead ..
    · exact Looks.refl s

theorem looking_lookup2 (w : XWho) (ipa need : Nat) : Looking (lookup2 w ipa need) := by
  intro s
  unfold lookup2
  split
  · exact Looks.refl s
  · exact looking_stageLookup (looking_readTable2 w.part w.vf) w none _ _ ipa need s

theorem looking_readTable1 (w : XWho) (ia : Nat) : Looking (readTable1 w ia) := by
  intro s
  have h0 := looking_lookup2 w ia 1 s
  unfold readTable1
  split
  · next hq => rwa [hq] at h0
  · next hq => rwa [hq] at h0
  · next r s0 hq =>
    rw [hq] at h0
    split
    · exact h0
    · dsimp only
      split
      · split
        · exact h0
        · split
          · exact h0
          · exact h0.trans (looks_noteRead ..)
      · exact h0.trans (looking_remoteTable _ _ _ _ _ s0)
      · exact h0

theorem looking_lookup1 (w : XWho) (va need : Nat) : Looking (lookup1 w va need) :=
  fun s => looking_stageLookup (looking_readTable1 w) w _ _ _ va need s

theorem looking_translate (w : XWho) (va need : Nat) : Looking (translate w va need) := by
  intro s
  unfold translate
  split
  · exact Looks.refl s
  · have h0 := looking_lookup1 w va need s
    split
    · next hq => rwa [hq] at h0
    · next r1 s0 hq =>
      rw [hq] at h0
      split
      · exact h0
      · have h1 := h0.trans (looking_lookup2 w (r1.target + (va - r1.base)) need s0)
        dsimp only
        split
        · next hq => rwa [hq] at h1
        · next r2 s1 hq =>
          rw [hq] at h1
          split
          · exact h1
          · exact h1

theorem looking_resolve (w : XWho) (va need : Nat) : Looking (resolve w va need) := by
  intro s
  have h0 := looking_translate w va need s
  unfold resolve
  split
  · next hq => rwa [hq] at h0
  · next hq =>
    rw [hq] at h0
    split
    · exact h0
    · split
      · exact h0
      · split
        · exact h0
        · exact h0
    · exact h0

theorem looking_resolveOnce (w : XWho) (va need : Nat) : Looking (resolveOnce w va need) := by
  intro s
  have h0 := looking_resolve w va need s
  unfold resolveOnce
  split
  · next hq =>
    rw [hq] at h0
    exact h0.trans (looks_dropDenials ..)
  · exact h0

/-! A core's reads for a group. -/

/-- The Pool location of a core's access, as `coreReach` answers it. -/
def poolReach (q : Option Block) (va wo n : Nat) (s : State) : Except XStop Reach × State :=
  match q with
  | none => (.error (.fault (.virt fPermission va)), s)
  | some b => match poolLoc b wo n false with
    | .ok l => (.ok (.pool l), s)
    | .error k => (.error (.fault (.virt k va)), s)

theorem poolReach_state (q : Option Block) (va wo n : Nat) (s : State) : (poolReach q va wo n s).2 = s := by
  unfold poolReach
  split
  · rfl
  · split <;> rfl

theorem looking_coreReach (gid va n need : Nat) : Looking (coreReach gid va n need) := by
  intro s
  by_cases hpool : inPool va = true
  · have h : coreReach gid va n need s = poolReach (s.blockOf gid) va (va - poolBase) n s := if_pos hpool
    rw [h, poolReach_state]
    exact Looks.refl s
  · rw [coreReach, if_neg hpool]
    have h0 := looking_resolveOnce (s.whoOf gid) va need s
    split
    · next hq => rwa [hq] at h0
    · next hq => rwa [hq] at h0
    · next hq => rwa [hq] at h0

theorem looking_coreRead (gid va n : Nat) : Looking (coreRead gid va n) := by
  intro s
  have h0 := looking_coreReach gid va n 1 s
  unfold coreRead
  split
  · next hq => rwa [hq] at h0
  · next hq => rwa [hq] at h0
  · next hq =>
    rw [hq] at h0
    split
    · exact h0
    · exact h0.trans (looks_readHome ..)
  · next hq =>
    rw [hq] at h0
    exact (h0.trans (looks_send _ _)).trans (looks_farRead _ n)
  · next hq => rwa [hq] at h0

theorem looking_entryRead (gid i : Nat) : Looking (entryRead gid i) := by
  intro s
  unfold entryRead
  dsimp only
  split
  · exact Looks.refl s
  · have h0 := looking_coreRead gid (s.tableBase gid + 64 * i) 64 s
    split
    · next hq => rwa [hq] at h0
    · next hq => rwa [hq] at h0
    · next hq => rwa [hq] at h0

theorem looking_entryOf {α : Type} (parse : List Byte → Option α) (chain : Bool) (gid i : Nat) : Looking (entryOf parse chain gid i) := by
  intro s
  have h0 := looking_entryRead gid i s
  unfold entryOf
  split
  · next hq => rwa [hq] at h0
  · next hq =>
    rw [hq] at h0
    split
    · exact h0
    · split
      · exact h0
      · exact h0

theorem looking_tableOf (gid i : Nat) : Looking (tableOf gid i) := by
  intro s
  have h0 := looking_entryOf tableEnt false gid i s
  unfold tableOf
  split
  · next hq => rwa [hq] at h0
  · next hq => rwa [hq] at h0

end Sys2Proof.Machine
end

