-- ==== Sys2Proof/Proofs/WriteFrame.lean ====
section
/-! SUPPORT. What a write at home leaves as it is (R103, R144, R195, R215, R216, R234, R404): groups but for their spin
detectors, handlers, blocks, VFs, partitions, and of every core all but its L1. -/

namespace Sys2Proof.Machine

open Sys2Proof.Claims

/-- A group but for its spin detector. -/
def Group.still (g : Group) : Group := { g with spin := SpinState.clear }

/-- A write, or what follows it, has changed no group but for spin detectors, and of cores no more than L1s. -/
structure Wakes (s t : State) : Prop where
  groups : ∀ k, (FMap.find t.groups k).map Group.still = (FMap.find s.groups k).map Group.still
  handlers : t.handlers = s.handlers
  blocks : t.blocks = s.blocks
  grids : t.grids = s.grids
  vfs : t.vfs = s.vfs
  parts : t.parts = s.parts
  cores : ∀ k, { t.core k with l1 := [] } = { s.core k with l1 := [] }
  nextId : t.turn.nextId = s.turn.nextId
  cur : t.turn.cur = s.turn.cur

theorem Wakes.refl (s : State) : Wakes s s := ⟨fun _ => rfl, rfl, rfl, rfl, rfl, rfl, fun _ => rfl, rfl, rfl⟩

theorem Wakes.trans {s t u : State} (h : Wakes s t) (h' : Wakes t u) : Wakes s u :=
  ⟨fun k => (h'.groups k).trans (h.groups k), h'.handlers.trans h.handlers, h'.blocks.trans h.blocks, h'.grids.trans h.grids,
    h'.vfs.trans h.vfs, h'.parts.trans h.parts, fun k => (h'.cores k).trans (h.cores k), h'.nextId.trans h.nextId, h'.cur.trans h.cur⟩

theorem foldl_wakes {β : Type} {f : State → β → State} (h : ∀ s b, Wakes s (f s b)) (l : List β) (s : State) : Wakes s (l.foldl f s) := by
  induction l generalizing s with
  | nil => exact Wakes.refl s
  | cons b l ih => exact (h s b).trans (ih _)

/-- A step that leaves groups and cores, and the rest that a write leaves. -/
theorem wakes_of_eq {s t : State} (hgroups : t.groups = s.groups) (hhandlers : t.handlers = s.handlers) (hblocks : t.blocks = s.blocks)
    (hgrids : t.grids = s.grids) (hvfs : t.vfs = s.vfs) (hparts : t.parts = s.parts) (hcores : t.cores = s.cores)
    (hid : t.turn.nextId = s.turn.nextId) (hcur : t.turn.cur = s.turn.cur) : Wakes s t :=
  ⟨fun k => by rw [hgroups], hhandlers, hblocks, hgrids, hvfs, hparts, fun k => by rw [State.core_of_cores hcores], hid, hcur⟩

theorem wakes_send (s : State) (m : OutMsg) : Wakes s (s.send m) := wakes_of_eq rfl rfl rfl rfl rfl rfl rfl rfl rfl

theorem wakes_schedule (s : State) (i : Instr) : Wakes s (s.schedule i) := wakes_of_eq rfl rfl rfl rfl rfl rfl rfl rfl rfl

theorem FMap.find_mapVals {α β : Type} (f : Nat → α → β) (m : FMap α) (k : Nat) :
    FMap.find (FMap.mapVals f m) k = (FMap.find m k).map (f k) := by
  induction m with
  | nil => rfl
  | cons q m ih =>
    obtain ⟨j, x⟩ := q
    by_cases h : j = k
    · subst h
      simp [FMap.mapVals, FMap.find]
    · simpa [FMap.mapVals, FMap.find, h] using ih

/-! Tracked copies, host transactions and waits. -/

theorem wakes_dropCopies (s : State) (off n line : Nat) : Wakes s (s.dropCopies off n line) := by
  unfold State.dropCopies
  split
  · exact Wakes.refl s
  · next d _ =>
    have h : Wakes s (s.tellPeers line d) := foldl_wakes (fun s q => wakes_send s _) _ s
    exact h.trans (wakes_of_eq rfl rfl rfl rfl rfl rfl rfl rfl rfl)

theorem wakes_abortHart (s : State) (k code detail : Nat) : Wakes s (s.abortHart k code detail) := by
  unfold State.abortHart
  split
  · exact Wakes.refl s
  · exact wakes_of_eq rfl rfl rfl rfl rfl rfl rfl rfl rfl

theorem wakes_checkHost (s : State) (off : Nat) : Wakes s (s.checkHost off) := by
  refine foldl_wakes (fun s k => ?_) _ s
  dsimp only
  have h : ∀ n, Wakes s ({ s with turn := { s.turn with freeCount := n } } : State) := fun n => wakes_of_eq rfl rfl rfl rfl rfl rfl rfl rfl rfl
  split
  · exact (h _).trans (wakes_abortHart ..)
  · exact h _

theorem wakes_wakeWatch (s : State) (by_ : Option Nat) (key : Nat) : Wakes s (s.wakeWatch by_ key) := by
  refine ⟨fun k => ?_, rfl, rfl, rfl, rfl, rfl, fun _ => rfl, rfl, rfl⟩
  rw [State.wakeWatch, FMap.find_mapVals, Option.map_map]
  congr 1
  funext g
  rw [Function.comp_apply]
  split <;> rfl

theorem wakes_wakeBow (s : State) (line : Nat) : Wakes s (s.wakeBow line) := by
  refine foldl_wakes (fun s q => foldl_wakes (fun s e => ?_) _ s) _ s
  split
  · split
    · exact wakes_schedule ..
    · exact Wakes.refl s
  · exact Wakes.refl s

theorem wakes_wakeQueues (s : State) (line : Nat) : Wakes s (s.wakeQueues line) := by
  refine foldl_wakes (fun s q => ?_) _ s
  dsimp only
  have h : ∀ (b : Bool) (i : Instr) (s : State), Wakes s (if b then s.schedule i else s) := by
    intro b i s
    cases b
    · exact Wakes.refl s
    · exact wakes_schedule ..
  exact (h _ _ s).trans (h _ _ _)

theorem wakes_noteWrite (s : State) (by_ : Option Nat) (off n : Nat) : Wakes s (s.noteWrite by_ off n) := by
  unfold State.noteWrite
  dsimp only
  have hcopies : ∀ s : State, Wakes s ((spanUnits 256 off n).foldl (fun s l => s.dropCopies off n l) s) :=
    foldl_wakes (fun s l => wakes_dropCopies s off n l) _
  have hhosts : ∀ s : State, Wakes s (if s.harts.isEmpty then s else (spanUnits 64 off n).foldl (fun s g => s.checkHost (g * 64)) s) := by
    intro s
    split
    · exact Wakes.refl s
    · exact foldl_wakes (fun s g => wakes_checkHost s _) _ s
  have hwatch : ∀ s : State, Wakes s ((spanUnits 32 off n).foldl (fun s k => s.wakeWatch by_ k) s) :=
    foldl_wakes (fun s k => wakes_wakeWatch s by_ k) _
  have hwaits : ∀ s : State, Wakes s ((spanUnits 256 off n).foldl (fun s l => (s.wakeBow l).wakeQueues l) s) :=
    foldl_wakes (fun s l => (wakes_wakeBow s l).trans (wakes_wakeQueues _ l)) _
  exact (((hcopies s).trans (hhosts _)).trans (hwatch _)).trans (hwaits _)

/-! The L2. -/

theorem wakes_dropLine (s : State) (line : Nat) : Wakes s (s.dropLine line) := by
  refine ⟨fun _ => rfl, rfl, rfl, rfl, rfl, rfl, fun k => ?_, rfl, rfl⟩
  simp only [State.core, State.dropLine, FMap.getD, FMap.find_mapVals]
  cases FMap.find s.cores k <;> rfl

theorem wakes_touchLine (s : State) (p line bits : Nat) (write : Bool) : Wakes s (s.touchLine p line bits write).2 := by
  have h : ∀ l2, Wakes s ({ s with ms := { s.ms with l2 := l2 } } : State) := fun l2 => wakes_of_eq rfl rfl rfl rfl rfl rfl rfl rfl rfl
  unfold State.touchLine
  simp only
  split
  · exact h _
  · split
    · exact Wakes.refl s
    · split
      · exact h _
      · split
        · exact (h _).trans (wakes_dropLine ..)
        · exact Wakes.refl s

theorem wakes_touchL2 (s : State) (p key n : Nat) (write : Bool) : Wakes s (s.touchL2 p key n write).2 := by
  have hfold : ∀ (l : List Nat) (r : Bool × State), Wakes r.2
      (l.foldl (fun r line => r.2.touchLine p line (sectorBits line key n) write) r).2 := by
    intro l
    induction l with
    | nil => exact fun r => Wakes.refl r.2
    | cons x l ih => exact fun r => (wakes_touchLine r.2 p x _ write).trans (ih _)
  exact hfold _ (false, s)

theorem wakes_writeHome (s : State) (by_ : Option Nat) (p off : Nat) (b : List Byte) : Wakes s (s.writeHome by_ p off b) := by
  unfold State.writeHome
  dsimp only
  have hmem : ∀ (s : State) (m : FMap Byte), Wakes s ({ s with ms := { s.ms with mem := m } } : State) :=
    fun s m => wakes_of_eq rfl rfl rfl rfl rfl rfl rfl rfl rfl
  exact ((wakes_touchL2 ..).trans (hmem _ _)).trans (wakes_noteWrite ..)

theorem wakes_clearPoison (s : State) (l : List (Nat × Nat)) : Wakes s (s.clearPoison l) := wakes_of_eq rfl rfl rfl rfl rfl rfl rfl rfl rfl

theorem wakes_updateL1 (s : State) (core off : Nat) (b : List Byte) : Wakes s (s.updateL1 core off b) := by
  unfold State.updateL1
  dsimp only
  split
  · refine ⟨fun _ => rfl, rfl, rfl, rfl, rfl, rfl, fun k => ?_, rfl, rfl⟩
    rw [State.core_modCore]
    split
    · next h => rw [h]
    · rfl
  · exact Wakes.refl s

@[simp] theorem State.updateL1_ms (s : State) (core off : Nat) (b : List Byte) : (s.updateL1 core off b).ms = s.ms := by
  unfold State.updateL1
  dsimp only
  split <;> rfl

/-! What follows of it. -/

theorem Wakes.find {s t : State} (h : Wakes s t) {k : Nat} {g : Group} (hg : FMap.find s.groups k = some g) :
    ∃ spin, FMap.find t.groups k = some { g with spin := spin } := by
  have hk := h.groups k
  rw [hg, Option.map_some, Option.map_eq_some_iff] at hk
  obtain ⟨g', hg', hstill⟩ := hk
  refine ⟨g'.spin, hg'.trans (congrArg some ?_)⟩
  have hback : g' = { g'.still with spin := g'.spin } := rfl
  rw [hback, hstill]
  rfl

theorem Wakes.keepsIssuer {s t : State} {c : Ctx} (h : Wakes s t) (hkeeps : ∃ g, FMap.find s.groups c.gid = some g) {s0 : State}
    (hhandlers : s.handlers = s0.handlers) : KeepsIssuer s0 t c := by
  obtain ⟨g, hg⟩ := hkeeps
  obtain ⟨spin, hg'⟩ := h.find hg
  exact ⟨⟨_, hg'⟩, h.handlers.trans hhandlers⟩

end Sys2Proof.Machine
end

