-- ==== Sys2Proof/Proofs/EngineControl.lean ====
section
/-! SUPPORT. CTAIL, GRES, NCWT and TSWAP (R181, R420 to R427) of a split outside transactions. -/

namespace Sys2Proof.Machine

open Sys2Proof.Claims

/-- An instruction's end after an effect that keeps the issuer and the memory system: it goes on. -/
theorem goesOn_of_seq_keeping {i : Instr} {s s' : State} {c : Ctx} (hctx : s.ctx = some c) (hkeeps : KeepsIssuer s s' c) (hms : s'.ms = s.ms)
    (hx : exec i s = finish c ((encode i).getD 0#32) (Done.seq s' c)) :
    ∃ t, exec i s = .next t ∧ (GoesOn t c c.regs c.seed (c.split.pc + 4#64) ∧ t.ms = s.ms) ∧ t = s'.retire c c (c.split.pc + 4#64) :=
  ⟨_, hx, ⟨goesOn_retire_same hctx s' hkeeps _, (State.retire_ms ..).trans hms⟩, rfl⟩

/-! Queues. -/

theorem core_mapQueue (s : State) (core : Nat) (f : EngCmd → EngCmd) :
    (s.mapQueue core f).core core = { s.core core with queue := (s.core core).queue.map f } := by
  rw [State.mapQueue, State.core_modCore, if_pos rfl]

theorem State.core_schedule (s : State) (i : Instr) (k : Nat) : (s.schedule i).core k = s.core k := rfl

theorem queue_modCore (s : State) (core k : Nat) {f : Core → Core} (hf : ∀ x, (f x).queue = x.queue) :
    ((s.modCore core f).core k).queue = (s.core k).queue := by
  rw [State.core_modCore]
  split
  · next h => rw [hf, h]
  · rfl

/-- A command that CTAIL may raise the tail of, after it (R422). -/
def EngCmd.tailed (last : Option EngCmd) (n : Nat) (x : EngCmd) : EngCmd :=
  match last with
  | some q => if x.id = q.id ∧ (n + 2 ^ 64 - q.tc) % 2 ^ 64 < 2 ^ 63 then { x with tc := n } else x
  | none => x

theorem EngCmd.tailed_none (n : Nat) (x : EngCmd) : x.tailed none n = x := rfl

theorem EngCmd.tailed_some (q : EngCmd) (n : Nat) (x : EngCmd) :
    x.tailed (some q) n = if x.id = q.id ∧ (n + 2 ^ 64 - q.tc) % 2 ^ 64 < 2 ^ 63 then { x with tc := n } else x := rfl

/-- The group's last chain of an engine. -/
def State.lastChain (s : State) (gid : Nat) (e : Bool) : Option EngCmd :=
  ((s.core (coreOf gid)).queue.filter (fun q => decide (q.gid = gid ∧ q.sub = 5 ∧ engineOf q.sub q.words = (if e then 1 else 0)))).getLast?

/-- The state after CTAIL (R422). -/
def State.withTail (s : State) (gid : Nat) (e : Bool) (n : Nat) : State :=
  match s.lastChain gid e with
  | none => s
  | some q =>
    if (n + 2 ^ 64 - q.tc) % 2 ^ 64 < 2 ^ 63 then
      (s.mapQueue (coreOf gid) (fun x => if x.id = q.id then { x with tc := n } else x)).schedule (.chainEntryStart (coreOf gid) q.id)
    else s

theorem ctailBody_eq (e : Bool) (b : BitVec 8) (s : State) (c : Ctx) :
    ctailBody e b s c = Done.seq ((s.closeRegionOf c.gid 2).withTail c.gid e (c.regs.read64 c.xi c.lane b).toNat) c := by
  let s1 := s.closeRegionOf c.gid 2
  let n := (c.regs.read64 c.xi c.lane b).toNat
  have h : ctailBody e b s c = (match s1.lastChain c.gid e with
    | none => Done.seq s1 c
    | some q => if (n + 2 ^ 64 - q.tc) % 2 ^ 64 < 2 ^ 63 then
        Done.seq ((s1.mapQueue (coreOf c.gid) (fun x => if x.id = q.id then { x with tc := n } else x)).schedule (.chainEntryStart (coreOf c.gid) q.id)) c
      else Done.seq s1 c) := rfl
  rw [h, State.withTail]
  cases s1.lastChain c.gid e with
  | none => rfl
  | some q =>
    dsimp only
    split <;> rfl

theorem State.withTail_groups (s : State) (gid : Nat) (e : Bool) (n : Nat) : (s.withTail gid e n).groups = s.groups := by
  unfold State.withTail
  split
  · rfl
  · split <;> rfl

theorem State.withTail_handlers (s : State) (gid : Nat) (e : Bool) (n : Nat) : (s.withTail gid e n).handlers = s.handlers := by
  unfold State.withTail
  split
  · rfl
  · split <;> rfl

theorem State.withTail_ms (s : State) (gid : Nat) (e : Bool) (n : Nat) : (s.withTail gid e n).ms = s.ms := by
  unfold State.withTail
  split
  · rfl
  · split <;> rfl

theorem queue_withTail (s : State) (gid : Nat) (e : Bool) (n : Nat) :
    ((s.withTail gid e n).core (coreOf gid)).queue = (s.core (coreOf gid)).queue.map (EngCmd.tailed (s.lastChain gid e) n) := by
  unfold State.withTail
  cases s.lastChain gid e with
  | none => rw [show EngCmd.tailed none n = id from rfl, List.map_id]
  | some q =>
    dsimp only
    by_cases hlate : (n + 2 ^ 64 - q.tc) % 2 ^ 64 < 2 ^ 63
    · rw [if_pos hlate]
      refine (congrArg Core.queue (core_mapQueue s (coreOf gid) _)).trans (List.map_congr_left fun x _ => ?_)
      simp only [EngCmd.tailed_some, hlate, and_true]
    · rw [if_neg hlate]
      rw [show EngCmd.tailed (some q) n = id from funext fun x => by rw [EngCmd.tailed_some, if_neg fun h => hlate h.2]; rfl, List.map_id]

/-! Guard slots (R181). -/

theorem foldl_schedule_groups {β : Type} (f : β → Instr) (l : List β) (s : State) :
    (l.foldl (fun s q => s.schedule (f q)) s).groups = s.groups := foldl_keep (fun s : State => s.groups) (fun s q => s.schedule (f q)) (fun _ _ => rfl) l s

theorem foldl_schedule_handlers {β : Type} (f : β → Instr) (l : List β) (s : State) :
    (l.foldl (fun s q => s.schedule (f q)) s).handlers = s.handlers := foldl_keep (fun s : State => s.handlers) (fun s q => s.schedule (f q)) (fun _ _ => rfl) l s

theorem foldl_schedule_cores {β : Type} (f : β → Instr) (l : List β) (s : State) :
    (l.foldl (fun s q => s.schedule (f q)) s).cores = s.cores := foldl_keep (fun s : State => s.cores) (fun s q => s.schedule (f q)) (fun _ _ => rfl) l s

theorem foldl_schedule_ms {β : Type} (f : β → Instr) (l : List β) (s : State) :
    (l.foldl (fun s q => s.schedule (f q)) s).ms = s.ms := foldl_keep (fun s : State => s.ms) (fun s q => s.schedule (f q)) (fun _ _ => rfl) l s

/-- A block that is released has no running group; the rest of the queue stays (R123). -/
theorem releaseBlock_keeps {s : State} {gid : Nat} {g : Group} (hg : FMap.find s.groups gid = some g) (hrun : g.status = .running) (bk : Nat) :
    FMap.find (s.releaseBlock bk).groups gid = some g ∧ (s.releaseBlock bk).handlers = s.handlers ∧
      ∀ k, ((s.releaseBlock bk).core k).queue = (s.core k).queue := by
  unfold State.releaseBlock
  split
  · exact ⟨hg, rfl, fun _ => rfl⟩
  · next b _ =>
    split
    · next hended =>
      have hout : b.gids.contains gid = false := by
        rw [State.blockEnded, Bool.and_eq_true, List.all_eq_true] at hended
        refine Bool.eq_false_iff.2 fun hin => ?_
        have := hended.1 gid (by simpa using hin)
        rw [hg] at this
        simp [hrun] at this
      have hkept : FMap.find (FMap.filterKV (fun k _ => !b.gids.contains k) s.groups) gid = some g := by
        rw [FMap.find_filterKV_key s.groups (fun k => !b.gids.contains k), hout, Bool.not_false, if_pos rfl, hg]
      dsimp only
      split
      · refine ⟨(congrArg (FMap.find · gid) (State.modGrid_groups ..)).trans hkept, State.modGrid_handlers .., fun k => ?_⟩
        simp only [State.core_schedule]
        rw [queue_modCore]
        · exact congrArg Core.queue (State.core_of_cores (State.modGrid_cores ..) k)
        · exact fun _ => rfl
      · refine ⟨(congrArg (FMap.find · gid) (State.modGrid_groups ..)).trans hkept, State.modGrid_handlers .., fun k => ?_⟩
        exact congrArg Core.queue (State.core_of_cores (State.modGrid_cores ..) k)
    · split
      · exact ⟨hg, rfl, fun _ => rfl⟩
      · exact ⟨hg, rfl, fun _ => rfl⟩

/-- What resolving a guard slot leaves of its group, and makes of the queue (R181). -/
theorem resolveGuard_spec {s : State} {gid : Nat} {g : Group} (hg : FMap.find s.groups gid = some g) (hrun : g.status = .running) (n v : Nat) :
    let t := s.resolveGuard gid n v
    let mine := fun (q : EngCmd) => decide (q.gid = gid ∧ q.guard = some n) && q.held
    FMap.find t.groups gid = some { g with guards := FMap.setD g.guards 0 n v } ∧ t.handlers = s.handlers ∧ t.ms = s.ms ∧
      (t.core (coreOf gid)).queue = if FMap.getD g.guards 0 n ≠ 0 then (s.core (coreOf gid)).queue
        else if v = 1 then (s.core (coreOf gid)).queue.map (fun q => if mine q then { q with held := false } else q)
        else (s.core (coreOf gid)).queue.filter (fun q => !mine q) := by
  intro t mine
  let s1 := s.setGroup gid { g with guards := FMap.setD g.guards 0 n v }
  have hmod : s.modGroup gid (fun g => { g with guards := FMap.setD g.guards 0 n v }) = s1 := State.modGroup_of_find hg _
  have ht : t = if FMap.getD g.guards 0 n = 0 then
      if v = 1 then ((s.core (coreOf gid)).queue.filter mine).foldl (fun s q => s.schedule (serveEvent (coreOf gid) q.id q.sub q.words))
        (s1.mapQueue (coreOf gid) (fun q => if mine q then { q with held := false } else q))
      else (((s.core (coreOf gid)).queue.filter (fun q => decide (q.gid = gid) && !q.held && !q.started)).foldl
        (fun s q => s.schedule (serveEvent (coreOf gid) q.id q.sub q.words))
        (s1.modCore (coreOf gid) (fun k => { k with queue := k.queue.filter (fun q => !mine q) }))).afterCommand gid
      else s1 := by
    simp only [t, State.resolveGuard, hg, hmod]
    rfl
  have hg1 : FMap.find s1.groups gid = some { g with guards := FMap.setD g.guards 0 n v } := State.find_setGroup ..
  by_cases hopen : FMap.getD g.guards 0 n = 0
  case neg =>
    rw [if_neg hopen] at ht
    rw [ht, if_pos hopen]
    exact ⟨hg1, rfl, rfl, rfl⟩
  case pos =>
    rw [if_pos hopen] at ht
    rw [if_neg (Classical.not_not.2 hopen)]
    by_cases hv : v = 1
    · rw [if_pos hv] at ht
      rw [ht, if_pos hv, foldl_schedule_groups, foldl_schedule_handlers, foldl_schedule_ms, State.core_of_cores (foldl_schedule_cores ..), core_mapQueue]
      exact ⟨hg1, rfl, rfl, rfl⟩
    · rw [if_neg hv] at ht
      rw [ht, if_neg hv]
      let s2 := s1.modCore (coreOf gid) (fun k => { k with queue := k.queue.filter (fun q => !mine q) })
      let l := (s.core (coreOf gid)).queue.filter (fun q => decide (q.gid = gid) && !q.held && !q.started)
      let s3 := l.foldl (fun s q => s.schedule (serveEvent (coreOf gid) q.id q.sub q.words)) s2
      let s4 := (s3.schedule (.engineCommandStart (coreOf gid) false)).schedule (.engineCommandStart (coreOf gid) true)
      have hg4 : FMap.find s4.groups gid = some { g with guards := FMap.setD g.guards 0 n v } :=
        (congrArg (FMap.find · gid) (foldl_schedule_groups ..)).trans hg1
      have hqueue : (s4.core (coreOf gid)).queue = (s.core (coreOf gid)).queue.filter (fun q => !mine q) := by
        have h3 : s4.core (coreOf gid) = s2.core (coreOf gid) := State.core_of_cores (foldl_schedule_cores ..) _
        rw [h3]
        refine (congrArg Core.queue (State.core_modCore s1 (coreOf gid) (coreOf gid) _)).trans ?_
        rw [if_pos rfl]
        rfl
      have hend : s3.afterCommand gid = s4.releaseBlock (s3.blockKey gid) := rfl
      obtain ⟨hgroup, hhandlers, hqueues⟩ := releaseBlock_keeps hg4 hrun (s3.blockKey gid)
      rw [show l.foldl (fun s q => s.schedule (serveEvent (coreOf gid) q.id q.sub q.words)) s2 = s3 from rfl, hend]
      exact ⟨hgroup, hhandlers.trans (foldl_schedule_handlers ..), (State.releaseBlock_ms ..).trans (foldl_schedule_ms ..), (hqueues _).trans hqueue⟩

/-! The instructions, with valid operands. -/

section

variable {s : State} {c : Ctx} {g : Group} (hissues : GroupIssues s c) (hg : FMap.find s.groups c.gid = some g)
include hissues

theorem exec_ctail (e : Bool) {b : BitVec 8} (hb : src64Ok c.allot true b = true) (hbusy : (c.accBusy && touchesAcc 2 b) = false) :
    exec (.ctail e b) s = finish c ((encode (.ctail e b)).getD 0#32)
      (Done.seq ((s.closeRegionOf c.gid 2).withTail c.gid e (c.regs.read64 c.xi c.lane b).toNat) c) := by
  obtain ⟨hctx, hs, hnone⟩ := hissues
  have hx : exec (.ctail e b) s = execCtail e b s := rfl
  rw [execCtail] at hx
  rw [exec_of_issue hx hctx (by simp [hs])]
  simp only [hb, Ctx.accWait, hbusy, txIllegal_of_none hnone, ctailBody_eq, Bool.not_true, Bool.false_eq_true, if_false]

theorem exec_gres (n : BitVec 3) {b : BitVec 8} (hb : src32Ok c.allot true b = true) (hbusy : (c.accBusy && touchesAcc 1 b) = false) :
    exec (.gres n b) s = finish c ((encode (.gres n b)).getD 0#32)
      (Done.seq ((s.closeRegionOf c.gid 2).resolveGuard c.gid n.toNat (if c.regs.read32 c.xi c.lane b = 0#32 then 2 else 1)) c) := by
  obtain ⟨hctx, hs, hnone⟩ := hissues
  have hx : exec (.gres n b) s = execGres n b s := rfl
  rw [execGres] at hx
  rw [exec_of_issue hx hctx (by simp [hs])]
  simp only [hb, Ctx.accWait, hbusy, txIllegal_of_none hnone, Bool.not_true, Bool.false_eq_true, if_false]

theorem exec_gresClear (n : BitVec 3) : exec (.gresClear n) s = finish c ((encode (.gresClear n)).getD 0#32)
    (Done.seq ((s.closeRegionOf c.gid 2).modGroup c.gid (fun g => { g with guards := FMap.setD g.guards 0 n.toNat 0 })) c) := by
  obtain ⟨hctx, hs, hnone⟩ := hissues
  have hx : exec (.gresClear n) s = execGresClear n s := rfl
  rw [execGresClear] at hx
  rw [exec_of_issue hx hctx (by simp [hs])]
  simp only [txIllegal_of_none hnone]

theorem exec_ncwt {d a b : BitVec 8} (hd : dst64Ok c.allot d = true) (ha : src32Ok c.allot false a = true) (hb : src64Ok c.allot true b = true)
    (hbusy : (c.accBusy && (touchesAcc 2 d || touchesAcc 1 a || touchesAcc 2 b)) = false) :
    exec (.ncwt d a b) s = finish c ((encode (.ncwt d a b)).getD 0#32) (ncwtBody d a b s c) := by
  obtain ⟨hctx, hs, hnone⟩ := hissues
  have hx : exec (.ncwt d a b) s = execNcwt d a b s := rfl
  rw [execNcwt] at hx
  rw [exec_of_issue hx hctx (by simp [hs])]
  simp only [hd, ha, hb, Ctx.accWait, hbusy, txIllegal_of_none hnone, Bool.and_self, Bool.not_true, Bool.false_eq_true, if_false]

theorem exec_tswap {d a b : BitVec 8} (hd : dst32Ok c.allot d = true) (ha : src64Ok c.allot false a = true) (hb : src32Ok c.allot true b = true)
    (hbusy : (c.accBusy && (touchesAcc 1 d || touchesAcc 2 a || touchesAcc 1 b)) = false) :
    exec (.tswap d a b) s = finish c ((encode (.tswap d a b)).getD 0#32) (closing 2 (tswapBody d a b) s c) := by
  obtain ⟨hctx, hs, hnone⟩ := hissues
  have hx : exec (.tswap d a b) s = execTswap d a b s := rfl
  rw [execTswap] at hx
  rw [exec_of_issue hx hctx (by simp [hs])]
  simp only [hd, ha, hb, Ctx.accWait, hbusy, txIllegal_of_none hnone, Bool.and_self, Bool.not_true, Bool.false_eq_true, if_false]

end

/-! TSWAP (R427). -/

/-- The 16 bytes that TSWAP writes: the base, the version and four zeros. -/
def swapUnit (c : Ctx) (a b : BitVec 8) : List Byte :=
  bytesLE 8 (c.regs.read64 c.xi c.lane a).toNat ++ bytesLE 4 (c.regs.read32 c.xi c.lane b).toNat ++ bytesLE 4 0

theorem length_swapUnit (c : Ctx) (a b : BitVec 8) : (swapUnit c a b).length = 16 := by simp [swapUnit, bytesLE]

/-- The state after a core's write at home (R190, R209). -/
def State.coreWritten (s : State) (by_ : Option Nat) (gid off : Nat) (b : List Byte) : State :=
  ((s.writeHome by_ (s.partOf gid) off b).clearPoison [(off, b.length)]).updateL1 (coreOf gid) off b

theorem coreWritten_mem (s : State) (by_ : Option Nat) (gid off : Nat) (b : List Byte) :
    (s.coreWritten by_ gid off b).ms.mem = putBytes s.ms.mem off b := by
  rw [State.coreWritten, State.updateL1_ms, State.clearPoison_mem, State.writeHome_mem]

theorem wakes_coreWritten (s : State) (by_ : Option Nat) (gid off : Nat) (b : List Byte) : Wakes s (s.coreWritten by_ gid off b) :=
  ((wakes_writeHome ..).trans (wakes_clearPoison ..)).trans (wakes_updateL1 ..)

theorem coreWrite_of_own {by_ : Option Nat} {gid va off pol : Nat} {b : List Byte} {s s' : State}
    (hreach : coreReach gid va b.length 2 s = (.ok (.own off pol), s')) : coreWrite by_ gid va b s = (.ok (), s'.coreWritten by_ gid off b) := by
  rw [coreWrite, hreach]
  rfl

theorem tswapWrite_of_own {s s' : State} {c : Ctx} {d a b : BitVec 8} {id off pol : Nat} {old : TableEnt}
    (hid : field (c.regs.read32 c.xi c.lane d).toNat 0 12 = id)
    (hreach : coreReach c.gid (s.tableBase c.gid + 64 * id) 16 2 s = (.ok (.own off pol), s')) :
    tswapWrite d a b old s c = Done.seq (s'.coreWritten c.writer c.gid off (swapUnit c a b)) (c.put32 d (BitVec.ofNat 32 old.version)) := by
  have hwrite : coreWrite c.writer c.gid (s.tableBase c.gid + 64 * id) (swapUnit c a b) s = (.ok (), s'.coreWritten c.writer c.gid off (swapUnit c a b)) :=
    coreWrite_of_own (by rw [length_swapUnit]; exact hreach)
  unfold tswapWrite
  rw [swapUnit, State.tableBase] at hwrite
  cases hgrid : s.gridOf c.gid with
  | none =>
    rw [hgrid] at hwrite
    simp only [hid]
    rw [show coreWrite c.writer c.gid (0 + 64 * id) _ s = _ from hwrite]
    rfl
  | some gr =>
    rw [hgrid] at hwrite
    simp only [hid]
    rw [show coreWrite c.writer c.gid (gr.tid + 64 * id) _ s = _ from hwrite]
    rfl

/-- TSWAP of a valid entry writes its unit and hands out the old version. -/
theorem tswapBody_of_checks {s1 s2 s3 s4 : State} {c : Ctx} {d a b : BitVec 8} {id off pol : Nat} {tab : TableEnt}
    (hid : (c.regs.read32 c.xi c.lane d).toNat = id) (hlow : id < 4096) (htab : tableOf c.gid id s1 = (.ok tab, s2))
    (halign : (c.regs.read64 c.xi c.lane a).toNat % 64 = 0) (hrelease : ∀ k, withRelease k s2 c = k s2 c) (hfree : NoTokens s2 c)
    (htab' : tableOf c.gid id s2 = (.ok tab, s3)) (hreach : coreReach c.gid (s3.tableBase c.gid + 64 * id) 16 2 s3 = (.ok (.own off pol), s4)) :
    tswapBody d a b s1 c = Done.seq (s4.coreWritten c.writer c.gid off (swapUnit c a b)) (c.put32 d (BitVec.ofNat 32 tab.version)) := by
  have hhigh : field id 12 20 = 0 := by
    rw [field]
    omega
  have hfield : field id 0 12 = id := by
    rw [field]
    omega
  simp only [tswapBody, hid, hhigh, hfield, htab, halign, hrelease, chargeSectors_of_none hfree, htab', ne_eq, not_true_eq_false, if_false]
  exact tswapWrite_of_own (by rw [hid, hfield]) hreach

/-- What an instruction's waiting leaves (R136). -/
theorem ncwtBody_eq (d a b : BitVec 8) (s : State) (c : Ctx) : ncwtBody d a b s c =
    let k := (c.regs.read32 c.xi c.lane a).toNat % 256
    let n := (c.regs.read64 c.xi c.lane b).toNat
    let s1 := s.closeRegionOf c.gid 2
    let x := (s1.vf (s1.vfOf c.gid)).counter k
    if n ≤ x.2 then Done.seq (s1.dropL1 (coreOf c.gid)) (c.put64 d (BitVec.ofNat 64 (counterWord x))) else .stay s1 c (.ncwt k n) := by
  simp only [ncwtBody, field, Nat.pow_zero, Nat.div_one, State.acquire, show (3 : Nat) ≤ 8 by omega, if_true] <;> rfl

end Sys2Proof.Machine

namespace Sys2Proof.Proofs

open Sys2Proof.Machine Sys2Proof.Claims

/-- Settles O28: the clauses are the effects of `exec_ctail`, `exec_gres`, `exec_gresClear`, `ncwtBody_eq` and `tswapBody_of_checks`. -/
theorem engineControlResults : Obligations.EngineControlResults := by
  unfold Obligations.EngineControlResults
  intro s c g d a b n hissues hg hrun core on A B
  have hctx := hissues.1
  have hs := hissues.2.1
  let s1 := s.closeRegionOf c.gid 2
  have hg1 : FMap.find s1.groups c.gid = some (g.closeRegion 2) := State.find_closeRegionOf hg 2
  have hms1 : s1.ms = s.ms := State.closeRegionOf_ms ..
  have hcore1 : s1.core core = s.core core := State.core_closeRegionOf ..
  have hclosed : Closed s s1 c.gid 2 := closed_closeRegionOf s c.gid 2
  refine ⟨?ctail, ?gres, ?clear, ?ncwt, ?tswap⟩
  case ctail =>
    intro e hb hbusy mine
    have hkeeps : KeepsIssuer s (s1.withTail c.gid e B) c :=
      ⟨⟨_, by rw [State.withTail_groups, hg1]⟩, (State.withTail_handlers ..).trans hclosed.handlers⟩
    obtain ⟨t, hx, hon, ht⟩ := goesOn_of_seq_keeping hctx hkeeps ((State.withTail_ms ..).trans hms1) (exec_ctail hissues e hb hbusy)
    refine ⟨t, hx, hon, ?_⟩
    rw [ht, core_retire, queue_withTail, State.lastChain, hcore1]
    rfl
  case gres =>
    intro hb hbusy v mine
    obtain ⟨hgroup, hhandlers, hms, hqueue⟩ := resolveGuard_spec hg1 (show (g.closeRegion 2).status = .running by
      obtain ⟨fp, h⟩ := g.closeRegion_eq 2
      rw [h, hrun]) n.toNat v
    let s2 := s1.resolveGuard c.gid n.toNat v
    have hkeeps : KeepsIssuer s s2 c := ⟨⟨_, hgroup⟩, hhandlers.trans hclosed.handlers⟩
    obtain ⟨t, hx, hon, ht⟩ := goesOn_of_seq_keeping hctx hkeeps (hms.trans hms1) (exec_gres hissues n hb hbusy)
    refine ⟨t, hx, hon, ?_, ?_⟩
    · rw [ht]
      exact ofGroup_retire hctx s2 c.regs c.seed hs hgroup _ fun _ _ _ _ _ => FMap.getD_setD_same ..
    · rw [ht, core_retire]
      refine hqueue.trans ?_
      rw [Group.closeRegion_guards]
      simp only [core] at hcore1
      rw [hcore1]
  case clear =>
    let g2 : Group := { g.closeRegion 2 with guards := FMap.setD (g.closeRegion 2).guards 0 n.toNat 0 }
    have hmod : s1.modGroup c.gid (fun g => { g with guards := FMap.setD g.guards 0 n.toNat 0 }) = s1.setGroup c.gid g2 := State.modGroup_of_find hg1 _
    have hx := exec_gresClear hissues n
    rw [hmod] at hx
    have hkeeps : KeepsIssuer s (s1.setGroup c.gid g2) c := ⟨⟨g2, State.find_setGroup ..⟩, hclosed.handlers⟩
    obtain ⟨t, hx, hon, ht⟩ := goesOn_of_seq_keeping hctx hkeeps hms1 hx
    refine ⟨t, hx, hon, ?_, ?_⟩
    · rw [ht]
      have hopen : FMap.getD g2.guards 0 n.toNat = 0 := FMap.getD_setD_same (g.closeRegion 2).guards 0 n.toNat 0
      exact ofGroup_retire hctx _ c.regs c.seed hs (State.find_setGroup ..) _ fun _ _ _ _ _ => hopen
    · rw [ht, core_retire]
      exact congrArg Core.queue hcore1
  case ncwt =>
    intro hd ha hb hbusy x
    have hx := exec_ncwt hissues hd ha hb hbusy
    have hcounter : (s1.vf (s1.vfOf c.gid)).counter (A % 256) = x := by
      rw [State.vfOf_closeRegionOf hg, State.vf, State.closeRegionOf_vfs]
      rfl
    have hbody : ncwtBody d a b s c = if B ≤ x.2 then Done.seq (s1.dropL1 core) (c.put64 d (BitVec.ofNat 64 (counterWord x)))
        else .stay s1 c (.ncwt (A % 256) B) := by
      rw [ncwtBody_eq, ← hcounter]
    rw [hbody] at hx
    refine ⟨fun hle => ?_, fun hlt => ?_⟩
    · rw [if_pos hle] at hx
      let s2 := s1.dropL1 core
      have hkeeps : KeepsIssuer s s2 c := ⟨⟨_, hg1⟩, hclosed.handlers⟩
      refine ⟨s2.retire c (c.put64 d (BitVec.ofNat 64 (counterWord x))) (c.split.pc + 4#64), (c.put64 d (BitVec.ofNat 64 (counterWord x))).regs, hx,
        ⟨goesOn_retire hctx s2 _ c.seed hkeeps _, (State.retire_ms ..).trans hms1⟩, ?_, ?_⟩
      · rw [core_retire, State.core_dropL1, if_pos rfl]
      · have hlow : BitVec.ofNat 32 (counterWord x) = BitVec.ofNat 32 x.2 := by
          apply BitVec.eq_of_toNat_eq
          simp only [BitVec.toNat_ofNat, counterWord]
          omega
        have hreceived := c.put64_received d (BitVec.ofNat 64 (counterWord x))
        rwa [lo32_ofNat, hi32_ofNat, hlow] at hreceived
    · rw [if_neg (by omega)] at hx
      exact ⟨_, hx, waitsFor_stay hctx s1 hs hg1 rfl, (State.stay_ms ..).trans hms1⟩
  case tswap =>
    intro s2 s3 s4 tab off pol hd ha hb hbusy hflush hfree id table hid htab hr2 halign htab' hr3 hreach hr4
    have hclosed2 := hclosed.reads hr2
    have hfree2 : NoTokens s2 c := noTokens_of_eq ((readsOnly_vfOf hr2 _).trans (State.vfOf_closeRegionOf hg ..)) hclosed2.vfs
      (((looking_tableOf c.gid id).of_eq htab).parts.trans (State.modGroup_parts ..)) hfree
    have hgrid : s3.gridOf c.gid = s.gridOf c.gid := by
      rw [readsOnly_gridOf hr3, readsOnly_gridOf hr2, State.closeRegionOf_eq hg, State.gridOf_setGroup hg (g.closeRegion_ident 2)]
    have htable : s3.tableBase c.gid = table := by
      rw [State.tableBase, hgrid]
      cases hgr : s.gridOf c.gid with
      | none => simp only [table, hgr]; rfl
      | some gr => simp only [table, hgr]; rfl
    have hbody := tswapBody_of_checks (b := b) (d := d) (a := a) rfl hid htab halign (hclosed2.withRelease hctx hflush) hfree2 htab' (by rw [htable]; exact hreach)
    have hx := exec_tswap hissues hd ha hb hbusy
    rw [closing_of_effect hbody (by simp [Done.seq])] at hx
    have hclosed4 := (hclosed2.reads hr3).reads hr4
    let s5 := s4.coreWritten c.writer c.gid off (swapUnit c a b)
    have hkeeps : KeepsIssuer s s5 c := (wakes_coreWritten s4 ..).keepsIssuer ⟨_, hclosed4.group g hg⟩ hclosed4.handlers
    refine ⟨s5.retire c (c.put32 d (BitVec.ofNat 32 tab.version)) (c.split.pc + 4#64), (c.put32 d (BitVec.ofNat 32 tab.version)).regs, hx,
      goesOn_retire hctx s5 _ c.seed hkeeps _, ?_, c.put32_received d _⟩
    rw [State.retire_ms, coreWritten_mem, hclosed4.memory.1]
    rfl

end Sys2Proof.Proofs
end

