-- ==== Sys2Proof/Proofs/LaunchResults.lean ====
section
/-! SUPPORT. Device launches and host-service calls (R75, R77, R428, R429) of a split outside transactions. -/

namespace Sys2Proof.Machine

open Sys2Proof.Claims

/-! VFs. -/

theorem State.vf_modVf (s : State) (k : Nat) (f : Vf → Vf) : (s.modVf k f).vf k = f (s.vf k) := FMap.getD_setD_same ..

theorem State.vf_of_vfs {s t : State} (h : t.vfs = s.vfs) (k : Nat) : t.vf k = s.vf k := by rw [State.vf, h, State.vf]

theorem Wakes.vfOf {s t : State} (h : Wakes s t) (gid : Nat) : t.vfOf gid = s.vfOf gid := by
  have hgroup := h.groups gid
  have hident : ∀ g : Group, g.ident = g.still.ident := fun _ => rfl
  unfold State.vfOf State.gridOf State.blockOf
  rw [h.blocks, h.grids]
  cases hs : FMap.find s.groups gid with
  | none =>
    rw [hs, Option.map_none, Option.map_eq_none_iff] at hgroup
    rw [hgroup]
  | some g =>
    obtain ⟨spin, ht⟩ := h.find hs
    rw [ht]

theorem keepsMemory_modVf (s : State) (k : Nat) (f : Vf → Vf) : KeepsMemory s (s.modVf k f) := keepsMemory_of_eq rfl rfl rfl

theorem Closed.vfOf {s t : State} {c : Ctx} {cause : Nat} (h : ReadsOnly (s.closeRegionOf c.gid cause) t) (hctx : s.ctx = some c) :
    t.vfOf c.gid = s.vfOf c.gid := by
  obtain ⟨g, hg⟩ := group_of_ctx hctx
  rw [readsOnly_vfOf h, State.vfOf_closeRegionOf hg]

/-! LNCH (R428). -/

/-- A record stands at the end of a VF's device launch queue. -/
def State.queueRecord (s : State) (vf : Nat) (r : PendingRec) : State := s.modVf vf (fun v => { v with dlq := v.dlq ++ [r] })

/-- The state after a launch with these copies. -/
def State.launched (s : State) (vf : Nat) (r : Option PendingRec) : State :=
  match r with
  | some r => if (s.vf vf).dlq.isEmpty then (s.queueRecord vf r).schedule (.dlqRecordStart vf) else s.queueRecord vf r
  | none => s

theorem State.launched_keeps (s : State) (vf : Nat) (r : Option PendingRec) :
    (s.launched vf r).groups = s.groups ∧ (s.launched vf r).handlers = s.handlers ∧ KeepsMemory s (s.launched vf r) := by
  cases r with
  | none => exact ⟨rfl, rfl, keepsMemory_refl s⟩
  | some r =>
    have hmemory : KeepsMemory s (s.queueRecord vf r) := keepsMemory_modVf ..
    unfold State.launched
    dsimp only
    split
    · exact ⟨rfl, rfl, hmemory⟩
    · exact ⟨rfl, rfl, hmemory⟩

theorem State.launched_dlq (s : State) (vf : Nat) (r : Option PendingRec) : ((s.launched vf r).vf vf).dlq = (s.vf vf).dlq ++ r.toList := by
  cases r with
  | none => simp [State.launched]
  | some r =>
    have hdlq : ((s.queueRecord vf r).vf vf).dlq = (s.vf vf).dlq ++ [r] := congrArg Vf.dlq (s.vf_modVf ..)
    unfold State.launched
    dsimp only
    split
    · exact hdlq
    · exact hdlq

/-- The body of an LNCH that has room, with nothing to flush. -/
theorem lnchBody_of_read {s1 s2 : State} {c : Ctx} {d a : BitVec 8} {st vf : Nat} {r : Option PendingRec}
    (hvf : s1.vfOf c.gid = vf) (halign : (c.regs.read64 c.xi c.lane a).toNat % 64 = 0) (hroom : (s1.vf vf).dlq.length < 256)
    (hrelease : ∀ k, withRelease k s1 c = k s1 c) (hfree : NoTokens s1 c)
    (hread : lnchRead c.gid (c.regs.read64 c.xi c.lane a).toNat s1 = (.ok (st, r), s2)) :
    lnchBody d a s1 c = Done.seq (s2.launched vf r) (c.put32 d (BitVec.ofNat 32 st)) := by
  have hfits : ¬ 256 ≤ (s1.vf vf).dlq.length := by omega
  simp only [lnchBody, halign, hvf, hfits, hrelease, lnchRun, chargeSectors_of_none hfree, hread, ne_eq, not_true_eq_false, if_false]
  cases r with
  | none => rfl
  | some r => rfl

theorem exec_lnch {s : State} {c : Ctx} (hissues : GroupIssues s c) {d a : BitVec 8} (hd : dst32Ok c.allot d = true) (ha : src64Ok c.allot false a = true)
    (hbusy : (c.accBusy && (touchesAcc 1 d || touchesAcc 2 a)) = false) :
    exec (.lnch d a) s = finish c ((encode (.lnch d a)).getD 0#32) (closing 4 (lnchBody d a) s c) := by
  obtain ⟨hctx, hs, hnone⟩ := hissues
  have hx : exec (.lnch d a) s = execLnch d a s := rfl
  rw [execLnch] at hx
  rw [exec_of_issue hx hctx (by simp [hs])]
  simp only [hd, ha, Ctx.accWait, hbusy, txIllegal_of_none hnone, Bool.and_self, Bool.not_true, Bool.false_eq_true, if_false]

/-! HCALL (R77, R429). -/

theorem exec_hcall {s : State} {c : Ctx} (hissues : GroupIssues s c) {d a : BitVec 8} (hd : dst32Ok c.allot d = true) (ha : block12Ok c.allot a = true)
    (hbusy : (c.accBusy && (touchesAcc 1 d || touchesAcc 12 a)) = false) :
    exec (.hcall d a) s = finish c ((encode (.hcall d a)).getD 0#32) (closing 4 (withRelease (hcallRun d a)) s c) := by
  obtain ⟨hctx, hs, hnone⟩ := hissues
  have hx : exec (.hcall d a) s = execHcall d a s := rfl
  rw [execHcall] at hx
  rw [exec_of_issue hx hctx (by simp [hs])]
  simp only [hd, ha, Ctx.accWait, hbusy, txIllegal_of_none hnone, Bool.and_self, Bool.not_true, Bool.false_eq_true, if_false]

/-- The 64 bytes of the request that HCALL posts (R76). -/
def callRequest (s : State) (c : Ctx) (a : BitVec 8) : List Byte :=
  callBytes (field (c.regs.readRun c.lane a 0).toNat 0 16) (s.callerField c.gid) ((List.range 5).map (fun i =>
    (c.regs.readRun c.lane a (2 + 2 * i)).toNat + 2 ^ 32 * (c.regs.readRun c.lane a (3 + 2 * i)).toNat))

/-- A slot's call as HCALL notes it. -/
def noteCall (c : Ctx) (d a : BitVec 8) (pending : Bool) : CallSlot := ⟨c.gid, c.entry, pending, false, a.toNat, d.toNat⟩

/-- A VF with a call in a slot. -/
def Vf.withCall (v : Vf) (slot : Nat) (x : CallSlot) : Vf := { v with calls := FMap.insert v.calls slot x }

/-- A VF without a call in a slot. -/
def Vf.withoutCall (v : Vf) (slot : Nat) : Vf := { v with calls := FMap.erase v.calls slot }

theorem Vf.find_withCall (v : Vf) (slot : Nat) (x : CallSlot) : FMap.find (v.withCall slot x).calls slot = some x := FMap.find_insert_same ..

theorem resolveOnce_of_own {w : XWho} {va need off pol : Nat} {s s' : State} (h : resolve w va need s = (.ok (.own off, pol), s')) :
    resolveOnce w va need s = (.ok (.own off, pol), s') := by
  unfold resolveOnce
  rw [h]

theorem unitPackage_of_own {w : XWho} {va off pol : Nat} {s s' : State} (h : resolve w va 2 s = (.ok (.own off, pol), s')) : unitPackage w va s = [] := by
  unfold unitPackage
  rw [h]

/-- A unit's write at home. -/
def State.unitWritten (s : State) (w : XWho) (off : Nat) (b : List Byte) : State := (s.writeHome none w.part off b).clearPoison [(off, b.length)]

theorem unitWrite_of_own {w : XWho} {va off pol : Nat} {b : List Byte} {s s' : State} (h : resolve w va 2 s = (.ok (.own off, pol), s')) :
    unitWrite w va b s = (.ok (), s'.unitWritten w off b) := by
  unfold unitWrite
  rw [resolveOnce_of_own h]
  rfl

theorem wakes_unitWritten (s : State) (w : XWho) (off : Nat) (b : List Byte) : Wakes s (s.unitWritten w off b) :=
  (wakes_writeHome ..).trans (wakes_clearPoison ..)

theorem unitWritten_mem (s : State) (w : XWho) (off : Nat) (b : List Byte) : (s.unitWritten w off b).ms.mem = putBytes s.ms.mem off b := by
  rw [State.unitWritten, State.clearPoison_mem, State.writeHome_mem]

/-- Signalling a vector changes no call. -/
theorem calls_signalMsix (s : State) (vf vec k : Nat) : ((s.signalMsix vf vec).vf k).calls = (s.vf k).calls := by
  have hmessage : ∀ p m, (s.msixMessage p (some vf) vec m).vfs = s.vfs := by
    intro p m
    unfold State.msixMessage
    dsimp only
    split <;> rfl
  unfold State.signalMsix
  dsimp only
  split
  · rw [State.vf, State.setVf, FMap.getD_setD]
    split
    · next h => rw [h]
    · rfl
  · rw [State.vf_of_vfs (hmessage _ _)]

theorem groups_signalMsix (s : State) (vf vec : Nat) : (s.signalMsix vf vec).groups = s.groups := by
  unfold State.signalMsix State.msixMessage
  dsimp only
  split
  · rfl
  · split <;> rfl

/-- Posting a slot that holds a call. -/
theorem postCall_eq {s : State} {c : Ctx} {slot vf : Nat} {x : CallSlot} (hvf : s.vfOf c.gid = vf) (hx : FMap.find (s.vf vf).calls slot = some x) :
    postCall slot s c = .stay ((s.modVf vf (fun v => v.withCall slot { x with pending := true })).signalMsix vf 1) c (.call slot) := by
  unfold postCall
  rw [hvf]
  have h : s.modVf vf (fun v => match FMap.find v.calls slot with
      | some x => { v with calls := FMap.insert v.calls slot { x with pending := true } }
      | none => v) = s.modVf vf (fun v => v.withCall slot { x with pending := true }) := by
    unfold State.modVf
    dsimp only
    rw [hx]
    rfl
  exact congrArg (fun s : State => Done.stay (s.signalMsix vf 1) c (.call slot)) h

/-- HCALL with a free slot: the request is written and posted. -/
theorem hcallRun_of_free {s1 s2 : State} {c : Ctx} {d a : BitVec 8} {vf slot off pol : Nat} {g : Group} (hvf : s1.vfOf c.gid = vf)
    (hwait : ∀ k, c.split.wait ≠ .call k) (htaken : (s1.vf vf).takenCall c.gid c.entry = none) (hbase : (s1.vf vf).hsbase ≠ 0)
    (hfree : (s1.vf vf).freeCall = some slot) (hreach : resolve (s1.whoOf c.gid) ((s1.vf vf).hsbase + 64 * slot) 2 s1 = (.ok (.own off, pol), s2))
    (hg : FMap.find s2.groups c.gid = some g) (hunreached : ∀ p, c.split.wait ≠ .unreached p) (hwritten : g.links.written = []) (hflush : g.links.flush = [])
    (hvf2 : s2.vfOf c.gid = vf) :
    let s3 := (s2.unitWritten (s1.whoOf c.gid) off (callRequest s1 c a)).modVf vf (fun v => v.withCall slot (noteCall c d a false))
    hcallRun d a s1 c = .stay ((s3.modVf vf (fun v => v.withCall slot (noteCall c d a true))).signalMsix vf 1) c (.call slot) := by
  intro s3
  have hwrite : unitWrite (s1.whoOf c.gid) ((s1.vf vf).hsbase + 64 * slot) (callBytes (field (c.regs.readRun c.lane a 0).toNat 0 16) (s1.callerField c.gid)
      ((List.range 5).map (fun i => (c.regs.readRun c.lane a (2 + 2 * i)).toNat + 2 ^ 32 * (c.regs.readRun c.lane a (3 + 2 * i)).toNat))) s1 =
      (.ok (), s2.unitWritten (s1.whoOf c.gid) off (callRequest s1 c a)) := unitWrite_of_own (b := callRequest s1 c a) hreach
  have hwakes : Wakes s2 (s2.unitWritten (s1.whoOf c.gid) off (callRequest s1 c a)) := wakes_unitWritten ..
  obtain ⟨spin, hg3⟩ := hwakes.find hg
  have hg3 : FMap.find s3.groups c.gid = some { g with spin := spin } := hg3
  have hvf3 : s3.vfOf c.gid = vf := (hwakes.vfOf c.gid).trans hvf2
  have hcall : FMap.find (s3.vf vf).calls slot = some (noteCall c d a false) := by
    rw [State.vf_modVf, Vf.find_withCall]
  have hpost := (withReleaseOf_of_links (s := s3) hg3 hunreached hwritten hflush c.split.mask (postCall slot)).trans (postCall_eq hvf3 hcall)
  unfold hcallRun
  dsimp only
  split
  · next k hk => exact absurd hk (hwait k)
  · rw [hvf, htaken]
    dsimp only
    rw [if_neg hbase, hfree]
    dsimp only
    rw [unitPackage_of_own hreach]
    split
    · next hq => rw [hwrite] at hq; cases hq
    · next hq => rw [hwrite] at hq; cases hq
    · next hq =>
      rw [hwrite] at hq
      cases hq
      exact hpost

/-- HCALL whose call has returned with results. -/
theorem hcallRun_of_returned {s1 s2 : State} {c : Ctx} {d a : BitVec 8} {vf slot : Nat} {x : CallSlot} {b : List Byte} (hvf : s1.vfOf c.gid = vf)
    (hwait : c.split.wait = .call slot) (hcall : FMap.find (s1.vf vf).calls slot = some x) (hreturned : x.returned = true)
    (hread : unitReadWords (s1.whoOf c.gid) ((s1.vf vf).hsbase + 64 * slot) 8 s1 = (.ok (b, false), s2)) (hstatus : leField b 2 2 < 0xFFFE) :
    hcallRun d a s1 c = Done.seq ((s2.modVf vf (fun v => v.withoutCall slot)).dropL1 (coreOf c.gid)) (callResults d a b c) := by
  have hok : ¬ 0xFFFE ≤ leField b 2 2 := by omega
  simp only [hcallRun, hwait, hvf, hcall, hreturned, callFinish, hread, hok, Bool.false_eq_true, if_true, if_false]
  rfl

theorem callResults_regs (d a : BitVec 8) (b : List Byte) (c : Ctx) : callResults d a b c = { c with regs := (callResults d a b c).regs } := rfl

theorem Vf.find_withoutCall (v : Vf) (slot : Nat) : FMap.find (v.withoutCall slot).calls slot = none := FMap.find_erase_same ..

end Sys2Proof.Machine

namespace Sys2Proof.Proofs

open Sys2Proof.Machine Sys2Proof.Claims

/-- Settles O29: `lnchBody_of_read`, and HCALL's two turns, `hcallRun_of_free` and `hcallRun_of_returned`. -/
theorem launchAndCallResults : Obligations.LaunchAndCallResults := by
  unfold Obligations.LaunchAndCallResults
  intro s s2 c d a hissues hflush hfree vf who va callOk
  obtain ⟨hctx, hs, hnone⟩ := hissues
  have hissues : GroupIssues s c := ⟨hctx, hs, hnone⟩
  obtain ⟨g, hg⟩ := group_of_ctx hctx
  obtain ⟨hunreached, hlinks⟩ := hflush
  obtain ⟨hwritten, hmarks⟩ := hlinks g hg
  let s1 := s.closeRegionOf c.gid 4
  have hclosed : Closed s s1 c.gid 4 := closed_closeRegionOf s c.gid 4
  have hrelease : ∀ k, withRelease k s1 c = k s1 c := hclosed.withRelease hctx ⟨hunreached, hlinks⟩
  have hvf1 : s1.vfOf c.gid = vf := State.vfOf_closeRegionOf hg ..
  have hvfs1 : ∀ k, s1.vf k = s.vf k := State.vf_of_vfs hclosed.vfs
  refine ⟨?launch, ?call, ?returned⟩
  case launch =>
    intro st r hd ha hbusy halign hroom hread hreads
    have hclosed2 := hclosed.reads hreads
    have hbody : lnchBody d a s1 c = _ := lnchBody_of_read (d := d) hvf1 halign (by rw [hvfs1]; exact hroom) hrelease (noTokens_closeRegionOf hg hfree 4) hread
    have hx := exec_lnch hissues hd ha hbusy
    rw [closing_of_effect hbody (by simp [Done.seq])] at hx
    let s3 := s2.launched vf r
    obtain ⟨hgroups, hhandlers, hmemory⟩ := s2.launched_keeps vf r
    have hkeeps : KeepsIssuer s s3 c := ⟨⟨_, by rw [hgroups, hclosed2.group g hg]⟩, hhandlers.trans hclosed2.handlers⟩
    refine ⟨s3.retire c (c.put32 d (BitVec.ofNat 32 st)) (c.split.pc + 4#64), (c.put32 d (BitVec.ofNat 32 st)).regs, hx,
      goesOn_retire hctx s3 _ c.seed hkeeps _, ?_, c.put32_received d _, ?_⟩
    · exact keepsMemory_trans (keepsMemory_trans hclosed2.memory hmemory) (keepsMemory_retire s3 ..)
    · rw [State.vf_of_vfs (State.retire_vfs ..), s2.launched_dlq, State.vf_of_vfs hclosed2.vfs]
  case call =>
    intro slot off pol hok hwait htaken hbase hslot hreach hreads
    obtain ⟨hd, ha, hbusy⟩ := hok
    have hclosed2 := hclosed.reads hreads
    have hg2 := hclosed2.group g hg
    have hvf2 : s2.vfOf c.gid = vf := (readsOnly_vfOf hreads _).trans hvf1
    have hrun := hcallRun_of_free (d := d) (a := a) hvf1 hwait (by rw [hvfs1]; exact htaken) (by rw [hvfs1]; exact hbase) (by rw [hvfs1]; exact hslot)
      (by rw [hvfs1]; exact hreach) hg2 hunreached (by rw [Group.closeRegion_links, hwritten]) (by rw [Group.closeRegion_links, hmarks]) hvf2
    have hx := exec_hcall hissues hd ha hbusy
    rw [closing_of_effect ((hrelease _).trans hrun) (by simp)] at hx
    let s3 := (s2.unitWritten (s1.whoOf c.gid) off (callRequest s1 c a)).modVf vf (fun v => v.withCall slot (noteCall c d a false))
    let s4 := s3.modVf vf (fun v => v.withCall slot (noteCall c d a true))
    let s5 := s4.signalMsix vf 1
    have hrequest : callRequest s1 c a = callRequest s c a := by
      have hpart : s1.partOf c.gid = s.partOf c.gid := by rw [State.partOf, hvf1, hvfs1, State.partOf]
      have hparts : s1.part = s.part := funext fun p => congrArg (FMap.getD · Partition.reset p) (State.modGroup_parts ..)
      rw [callRequest, State.callerField, hpart, hparts]
      rfl
    obtain ⟨spin, hg3⟩ := (wakes_unitWritten s2 (s1.whoOf c.gid) off (callRequest s1 c a)).find hg2
    have hg5 : FMap.find s5.groups c.gid = _ := (congrArg (FMap.find · c.gid) (groups_signalMsix s4 vf 1)).trans hg3
    refine ⟨s5.stay c c (.call slot), hx, waitsFor_stay hctx s5 hs hg5 rfl, ?_, ?_⟩
    · rw [State.vf_of_vfs (State.stay_vfs ..), calls_signalMsix, State.vf_modVf, Vf.find_withCall]
      rfl
    · rw [State.stay_ms, State.signalMsix_ms]
      refine (unitWritten_mem ..).trans ?_
      rw [hclosed2.memory.1, hrequest]
      rfl
  case returned =>
    intro slot x b hok hwait hcall hreturned hread hreads hstatus
    obtain ⟨hd, ha, hbusy⟩ := hok
    have hclosed2 := hclosed.reads hreads
    have hrun := hcallRun_of_returned (d := d) (a := a) hvf1 hwait (by rw [hvfs1]; exact hcall) hreturned (by rw [hvfs1]; exact hread) hstatus
    have hx := exec_hcall hissues hd ha hbusy
    rw [closing_of_effect ((hrelease _).trans hrun) (by simp [Done.seq])] at hx
    let s3 := (s2.modVf vf (fun v => v.withoutCall slot)).dropL1 (coreOf c.gid)
    have hkeeps : KeepsIssuer s s3 c := ⟨⟨_, hclosed2.group g hg⟩, hclosed2.handlers⟩
    refine ⟨s3.retire c (callResults d a b c) (c.split.pc + 4#64), hx, goesOn_retire hctx s3 (callResults d a b c).regs c.seed hkeeps _, ?_, ?_, ?_⟩
    · have hdrop : KeepsMemory s2 s3 := keepsMemory_trans (keepsMemory_modVf s2 vf _) (keepsMemory_dropL1 ..)
      exact keepsMemory_trans (keepsMemory_trans hclosed2.memory hdrop) (keepsMemory_retire s3 ..)
    · rw [State.vf_of_vfs (State.retire_vfs ..)]
      exact (congrArg (fun v : Vf => FMap.find v.calls slot) (s2.vf_modVf vf fun v => v.withoutCall slot)).trans (Vf.find_withoutCall ..)
    · rw [core_retire, State.core_dropL1, if_pos rfl]

end Sys2Proof.Proofs
end

