-- ==== Sys2Proof/Proofs/TransactionResults.lean ====
section
/-! SUPPORT. TXO, TXC, TXD and TXS (R218 to R227, R430), lane by lane, while no one holds the fallback lock. -/

namespace Sys2Proof.Machine

open Sys2Proof.Claims

/-! Folds over the threads of a mask. -/

/-- Steps for the threads of a mask, each of which changes what its own thread reads, change it once for each thread of the mask. -/
theorem foldl_threads {σ β : Type} (get : σ → β) (step : σ → Nat → σ) (after : Nat → β → β) {u : Nat} (hu : u < 64)
    (hget : ∀ r t, t < 64 → get (step r t) = if u = t then after t (get r) else get r) (m : BitVec 64) (r : σ) :
    get ((threadsOf m).foldl step r) = if m.getLsbD u then after u (get r) else get r := by
  have hlist : ∀ ts : List Nat, ts.Nodup → (∀ t ∈ ts, t < 64) → ∀ r, get (ts.foldl step r) = if u ∈ ts then after u (get r) else get r := by
    intro ts
    induction ts with
    | nil => simp
    | cons t ts ih =>
      intro hnodup h64 r
      obtain ⟨hnot, hnodup⟩ := List.nodup_cons.1 hnodup
      rw [List.foldl_cons, ih hnodup (fun k hk => h64 k (List.mem_cons_of_mem _ hk)), hget r t (h64 t List.mem_cons_self)]
      by_cases hut : u = t
      · simp [hut, hnot]
      · simp [hut]
  rw [hlist _ (threadsOf_nodup m) fun t ht => ((mem_threadsOf m t).1 ht).1]
  simp [mem_threadsOf, hu]

/-- Each thread of the mask receives its own word (R393). -/
theorem received_words (r : Regs) (m : BitVec 64) (d : BitVec 8) (f : Nat → Word) :
    Received r m d (fun t => [f t]) ((threadsOf m).foldl (fun r t => r.write32 t d (f t)) r) := by
  have hrest := foldl_keep (fun r : Regs => (r.l, r.mode, r.cvmode)) (fun r t => r.write32 t d (f t))
    (fun r t => r.write32_rest t d (f t)) (threadsOf m) r
  simp only [Prod.mk.injEq] at hrest
  refine ⟨fun u n hu => ?main, fun u n hu => ?operand, hrest⟩
  case main =>
    exact foldl_threads (fun r => r.getV n u) _ (fun t => runAfter true d [f t] n) hu (fun r t ht => r.getV_write32 d (f t) ht hu n) m r
  case operand =>
    exact foldl_threads (fun r => r.getO n u) _ (fun t => runAfter false d [f t] n) hu (fun r t ht => r.getO_write32 d (f t) ht hu n) m r

/-! Lanes. -/

theorem Group.lane_setLane (g : Group) (t u : Nat) (x : TxLane) : (g.setLane t x).lane u = if u = t then x else g.lane u := by
  rw [Group.lane, Group.setLane, FMap.getD_setD]
  by_cases h : t = u
  · rw [if_pos h, if_pos h.symm]
  · rw [if_neg h, if_neg (Ne.symm h)]
    rfl

theorem Group.lane_mapLanes (g : Group) (m : BitVec 64) (f : TxLane → TxLane) {u : Nat} (hu : u < 64) :
    (g.mapLanes m f).lane u = if m.getLsbD u then f (g.lane u) else g.lane u := by
  refine foldl_threads (fun g : Group => g.lane u) _ (fun _ => f) hu (fun g t _ => ?_) m g
  rw [Group.lane_setLane]
  by_cases h : u = t
  · rw [if_pos h, if_pos h, h]
  · rw [if_neg h, if_neg h]

/-- Changing lanes changes nothing else of a group. -/
theorem Group.mapLanes_eq (g : Group) (m : BitVec 64) (f : TxLane → TxLane) : ∃ tx, g.mapLanes m f = { g with tx := tx } := by
  unfold Group.mapLanes
  generalize threadsOf m = l
  induction l generalizing g with
  | nil => exact ⟨g.tx, rfl⟩
  | cons t l ih =>
    obtain ⟨tx, h⟩ := ih (g.setLane t (f (g.lane t)))
    exact ⟨tx, h⟩

theorem Group.mapLanes_zero (g : Group) (f : TxLane → TxLane) : g.mapLanes 0#64 f = g := by
  rw [Group.mapLanes, (threadsOf_eq_nil 0#64).2 rfl]
  rfl

theorem and_not_zero (m : BitVec 64) : m &&& ~~~0#64 = m := by rw [BitVec.not_zero, BitVec.and_allOnes]

/-- The lanes of a mask that pass a test. -/
def Group.lanesOf (g : Group) (m : BitVec 64) (p : TxLane → Bool) : BitVec 64 := maskOf ((threadsOf m).filter (fun t => p (g.lane t)))

theorem Group.getLsbD_lanesOf (g : Group) (m : BitVec 64) (p : TxLane → Bool) {k : Nat} (hk : k < 64) :
    (g.lanesOf m p).getLsbD k = true ↔ m.getLsbD k = true ∧ p (g.lane k) = true := by
  exact getLsbD_maskOf_filter m _ hk

theorem Group.lanesOf_eq_zero {g : Group} {m : BitVec 64} {p : TxLane → Bool} (h : ∀ k, k < 64 → m.getLsbD k = true → p (g.lane k) = false) :
    g.lanesOf m p = 0#64 := by
  refine BitVec.eq_of_getLsbD_eq fun k hk => ?_
  rw [BitVec.getLsbD_zero, Bool.eq_false_iff]
  intro hin
  obtain ⟨hm, hp⟩ := (g.getLsbD_lanesOf m p hk).1 hin
  rw [h k hk hm] at hp
  cases hp

theorem Group.lanesOf_eq_mask {g : Group} {m : BitVec 64} {p : TxLane → Bool} (h : ∀ k, k < 64 → m.getLsbD k = true → p (g.lane k) = true) :
    g.lanesOf m p = m := by
  refine BitVec.eq_of_getLsbD_eq fun k hk => ?_
  rw [Bool.eq_iff_iff, g.getLsbD_lanesOf m p hk]
  exact ⟨fun hin => hin.1, fun hm => ⟨hm, h k hk hm⟩⟩

theorem Group.nestLanes_eq_zero {g : Group} {m : BitVec 64} (h : ∀ k, k < 64 → m.getLsbD k = true → (g.lane k).depth < 8) : g.nestLanes m = 0#64 :=
  Group.lanesOf_eq_zero (p := fun x => decide (8 ≤ x.depth) && !x.irrev) fun k hk hm => by
    rw [decide_eq_false (by have := h k hk hm; omega)]
    rfl

/-! TXO (R219, R226). -/

/-- The lanes of a split that have asked for the lock. -/
def State.askedLanes (s : State) (gid : Nat) (m : BitVec 64) : BitVec 64 :=
  maskOf (((s.part (s.partOf gid)).lockQueue.filter (fun q => decide (q.1 = gid))).map (fun q => q.2)) &&& m

theorem State.getLsbD_askedLanes (s : State) (gid : Nat) (m : BitVec 64) {k : Nat} (hk : k < 64) :
    (s.askedLanes gid m).getLsbD k = true ↔ (gid, k) ∈ (s.part (s.partOf gid)).lockQueue ∧ m.getLsbD k = true := by
  rw [State.askedLanes, BitVec.getLsbD_and, Bool.and_eq_true, getLsbD_maskOf, decide_eq_true_eq]
  refine and_congr_left fun _ => ⟨fun h => ?_, fun h => ⟨hk, ?_⟩⟩
  · obtain ⟨q, hq, hk⟩ := List.mem_map.1 h.2
    obtain ⟨hmem, hgid⟩ := List.mem_filter.1 hq
    rw [decide_eq_true_eq] at hgid
    rwa [show q = (gid, k) from Prod.ext hgid hk] at hmem
  · exact List.mem_map.2 ⟨(gid, k), List.mem_filter.2 ⟨h, by simp⟩, rfl⟩

/-- The lanes for which a split's TXO is outermost. -/
def Group.outerLanes (g : Group) (m : BitVec 64) : BitVec 64 := g.lanesOf m TxLane.outer

/-- The lanes whose TXO asks for the lock: their retries are used up, or they have asked before. -/
def State.lockLanes (s : State) (gid : Nat) (g : Group) (m : BitVec 64) : BitVec 64 :=
  g.lanesOf m (fun x => x.outer && decide (g.txlim % 256 ≤ x.retries)) ||| s.askedLanes gid (g.outerLanes m)

theorem State.member_of_lockLanes {s : State} {gid : Nat} {g : Group} {m : BitVec 64} {k : Nat} (hk : k < 64)
    (h : (s.lockLanes gid g m).getLsbD k = true ∨ (s.askedLanes gid (g.outerLanes m)).getLsbD k = true) : m.getLsbD k = true := by
  have hasked : (s.askedLanes gid (g.outerLanes m)).getLsbD k = true → m.getLsbD k = true := fun h =>
    ((Group.getLsbD_lanesOf g m _ hk).1 ((s.getLsbD_askedLanes gid _ hk).1 h).2).1
  rcases h with h | h
  · rw [State.lockLanes, BitVec.getLsbD_or, Bool.or_eq_true] at h
    exact h.elim (fun h => ((Group.getLsbD_lanesOf g m _ hk).1 h).1) hasked
  · exact hasked h

/-- The lane that TXO asks the lock for is one of the split. -/
theorem State.lockLane_mem {s : State} {gid : Nat} {g : Group} {m : BitVec 64} (h : s.lockLanes gid g m ≠ 0#64) :
    let asked := s.askedLanes gid (g.outerLanes m)
    let k := lowest (if asked = 0#64 then s.lockLanes gid g m else asked)
    k < 64 ∧ m.getLsbD k = true := by
  intro asked k
  have hpick : (if asked = 0#64 then s.lockLanes gid g m else asked) ≠ 0#64 := by
    split
    · exact h
    · assumption
  obtain ⟨hk, hin⟩ := (mem_threadsOf _ _).1 (lowest_mem hpick)
  refine ⟨hk, State.member_of_lockLanes (s := s) (gid := gid) (g := g) hk ?_⟩
  by_cases hz : asked = 0#64
  · rw [if_pos hz] at hin
    exact .inl (by simpa only [k, if_pos hz] using hin)
  · rw [if_neg hz] at hin
    exact .inr (by simpa only [k, if_neg hz] using hin)

theorem State.askLock_keeps (s : State) (p gid t : Nat) : (s.askLock p gid t).groups = s.groups ∧ (s.askLock p gid t).ms = s.ms := by
  unfold State.askLock
  split
  · exact ⟨rfl, rfl⟩
  · exact ⟨rfl, rfl⟩

theorem State.part_modPart (s : State) (p : Nat) (f : Partition → Partition) : (s.modPart p f).part p = f (s.part p) := FMap.getD_setD_same ..

theorem State.mem_askLock (s : State) (p gid t : Nat) : (gid, t) ∈ ((s.askLock p gid t).part p).lockQueue := by
  unfold State.askLock
  split
  · next h => simpa using h
  · have hqueue := congrArg Partition.lockQueue (s.part_modPart p fun x => { x with lockQueue := x.lockQueue ++ [(gid, t)] })
    exact (congrArg ((gid, t) ∈ ·) hqueue).mpr (by simp)

/-- TXO goes one level deeper in the lanes that are open. -/
def State.nested (s : State) (gid : Nat) (m : BitVec 64) : State := s.modGroup gid (fun g => g.mapLanes m TxLane.deeper)

/-- TXO while no one holds the lock. -/
theorem txoBody_of_free {s : State} {c : Ctx} {g : Group} (hg : FMap.find s.groups c.gid = some g)
    (hheld : (s.part (s.partOf c.gid)).lockHolder = none) : txoBody s c =
      let m := c.split.mask
      let out0 := g.outerLanes m
      let asked := s.askedLanes c.gid out0
      let want := s.lockLanes c.gid g m
      if want ≠ 0#64 then .stay (s.askLock (s.partOf c.gid) c.gid (lowest (if asked = 0#64 then want else asked))) c .txLock
      else if out0 = 0#64 then txoEnd 0#64 (g.nestLanes m) (s.nested c.gid (m &&& ~~~out0)) c
      else if g.splitRoom = 0 then .fault s c (.plain fSplitOverflow m)
      else txoEnd 0#64 (g.nestLanes m) ((s.nested c.gid (m &&& ~~~out0)).modGroup c.gid (fun x => x.mapLanes out0 (fun y => y.openAt c.split.pc g.newRes))) c := by
  simp only [txoBody, hg, hheld, reduceCtorEq, and_false, false_and, if_false, Option.isSome_none, Bool.false_eq_true, decide_eq_true_eq]
  rfl

/-- The end of a TXO after which every lane goes on, and none aborts. -/
theorem txoEnd_of_all {s : State} {c : Ctx} {g : Group} (hwho : c.who = .split c.gid c.entry) (hg : FMap.find s.groups c.gid = some g) :
    txoEnd 0#64 0#64 s c = .next (s.setGroup c.gid ((g.noteIssue c.entry false).withCtx c.entry (c.advance (c.split.pc + 4#64)))) := by
  have hnone : abortsOf 0#64 xNest 0 = [] := by rw [abortsOf, (threadsOf_eq_nil 0#64).2 rfl]; rfl
  have hput := State.putCtx_of_find (c := c.advance (c.split.pc + 4#64)) hwho (State.find_setGroup s c.gid (g.noteIssue c.entry false))
  rw [State.setGroup_setGroup] at hput
  unfold txoEnd
  dsimp only
  rw [hnone, and_not_zero, State.modGroup_of_find hg, if_pos rfl]
  exact congrArg Done.next hput

/-- What TXO leaves of a group that it has changed the lanes of. -/
theorem goesOn_of_txoEnd {s s1 : State} {c : Ctx} {g : Group} (hctx : s.ctx = some c) (hs : c.single = false)
    (hg : FMap.find s1.groups c.gid = some g) (hms : s1.ms = s.ms) (hx : exec .txo s = finish c ((encode .txo).getD 0#32) (txoEnd 0#64 0#64 s1 c)) :
    ∃ t, exec .txo s = .next t ∧ (GoesOn t c c.regs c.seed (c.split.pc + 4#64) ∧ t.ms = s.ms) ∧ OfGroup t c.gid (fun g' => g'.tx = g.tx) := by
  have hwho := who_of_ctx hctx hs
  rw [txoEnd_of_all hwho hg] at hx
  exact ⟨_, hx, ⟨holds_setGroup s1 hwho rfl rfl (FMap.find_insert_same ..), hms⟩, _, State.find_setGroup .., rfl⟩

theorem exec_txo {s : State} {c : Ctx} (hctx : s.ctx = some c) (hs : c.single = false) :
    exec .txo s = finish c ((encode .txo).getD 0#32) (closing 3 txoBody s c) := by
  have hx : exec .txo s = execTxo s := rfl
  rw [execTxo] at hx
  rw [exec_of_issue hx hctx (by simp [hs])]

/-! A group whose region is closed keeps its lanes (R154). -/

theorem Group.closeRegion_tx (g : Group) (cause : Nat) : (g.closeRegion cause).tx = g.tx := by
  obtain ⟨fp, h⟩ := g.closeRegion_eq cause
  rw [h]

theorem Group.lane_of_tx {g g' : Group} (h : g'.tx = g.tx) (k : Nat) : g'.lane k = g.lane k := by rw [Group.lane, h, Group.lane]

theorem Group.closeRegion_splitRoom (g : Group) (cause : Nat) : (g.closeRegion cause).splitRoom = g.splitRoom := by
  obtain ⟨fp, h⟩ := g.closeRegion_eq cause
  rw [h]
  rfl

theorem Group.closeRegion_newRes (g : Group) (cause : Nat) : (g.closeRegion cause).newRes = g.newRes := by
  rw [Group.newRes, g.closeRegion_tx, Group.newRes]

theorem Group.closeRegion_txlim (g : Group) (cause : Nat) : (g.closeRegion cause).txlim = g.txlim := by
  obtain ⟨fp, h⟩ := g.closeRegion_eq cause
  rw [h]

theorem State.partOf_closeRegionOf {s : State} {gid : Nat} {g : Group} (hg : FMap.find s.groups gid = some g) (cause j : Nat) :
    (s.closeRegionOf gid cause).partOf j = s.partOf j := by
  rw [State.partOf, State.vfOf_closeRegionOf hg, State.vf_of_vfs (s.closeRegionOf_vfs ..), State.partOf]

theorem State.part_closeRegionOf (s : State) (gid cause p : Nat) : (s.closeRegionOf gid cause).part p = s.part p :=
  congrArg (FMap.getD · Partition.reset p) (State.modGroup_parts ..)

/-- A lane that has not opened a transaction opens one (R219). -/
def TxLane.opened (x : TxLane) (pc : BitVec 64) (res : Nat) : TxLane :=
  { x with depth := 1, txoPc := pc, home := none, rlines := [], rlog := [], wbuf := [], torn := false, res := res }

theorem TxLane.openAt_eq {x : TxLane} (h : x.irrev = false) (pc : BitVec 64) (res : Nat) : x.openAt pc res = x.opened pc res := by
  rw [TxLane.openAt, TxLane.opened, ← h]

theorem TxLane.outer_iff (x : TxLane) : x.outer = true ↔ x.depth = 0 ∧ x.irrev = false := by simp [TxLane.outer]

theorem TxLane.not_outer {x : TxLane} (h : x.depth ≠ 0) : x.outer = false := by simp [TxLane.outer, h]

theorem TxLane.deeper_of_lt {x : TxLane} (h : x.depth < 8) : x.deeper = { x with depth := x.depth + 1 } := if_pos h

section

/-- The lanes of the issuer's split, each as `f` makes it of what it was. -/
def LanesAre (t : State) (c : Ctx) (g : Group) (f : TxLane → TxLane) : Prop := OfGroup t c.gid (fun g' =>
  (∀ k, k < 64 ∧ c.split.mask.getLsbD k = true → g'.lane k = f (g.lane k)) ∧
  (∀ k, k < 64 → ¬ (k < 64 ∧ c.split.mask.getLsbD k = true) → g'.lane k = g.lane k))

variable {s : State} {c : Ctx} {g : Group} (hctx : s.ctx = some c) (hs : c.single = false)
include hctx hs

/-- A TXO that changes the lanes of its split goes on. -/
theorem txo_goesOn {m : BitVec 64} {f f' : TxLane → TxLane} (hm : m = c.split.mask)
    (hbody : txoBody (s.closeRegionOf c.gid 3) c = txoEnd 0#64 0#64 (s.setGroup c.gid ((g.closeRegion 3).mapLanes m f)) c)
    (hf : ∀ k, k < 64 → c.split.mask.getLsbD k = true → f (g.lane k) = f' (g.lane k)) :
    ∃ t, exec .txo s = .next t ∧ (GoesOn t c c.regs c.seed (c.split.pc + 4#64) ∧ t.ms = s.ms) ∧ LanesAre t c g f' := by
  subst hm
  have hx := exec_txo hctx hs
  have hend := txoEnd_of_all (who_of_ctx hctx hs) (State.find_setGroup s c.gid ((g.closeRegion 3).mapLanes c.split.mask f))
  rw [closing_of_effect hbody (by rw [hend]; simp)] at hx
  obtain ⟨t, ht, hon, g', hg', htx⟩ := goesOn_of_txoEnd hctx hs (State.find_setGroup ..) rfl hx
  have hlane : ∀ k, k < 64 → g'.lane k = if c.split.mask.getLsbD k then f (g.lane k) else g.lane k := by
    intro k hk
    rw [Group.lane_of_tx htx, Group.lane_mapLanes _ _ _ hk, Group.lane_of_tx (g.closeRegion_tx 3)]
  refine ⟨t, ht, hon, g', hg', fun k hk => ?_, fun k hk hout => ?_⟩
  · rw [hlane k hk.1, if_pos hk.2, hf k hk.1 hk.2]
  · rw [hlane k hk, if_neg fun h => hout ⟨hk, h⟩]

/-- An instruction that changes the lanes of its split and retires. -/
theorem lanes_goesOn {i : Instr} {m : BitVec 64} {g1 : Group} {f f' : TxLane → TxLane} (hm : m = c.split.mask) (htx : g1.tx = g.tx)
    (hx : exec i s = finish c ((encode i).getD 0#32) (Done.seq (s.setGroup c.gid (g1.mapLanes m f)) c))
    (hf : ∀ k, k < 64 → c.split.mask.getLsbD k = true → f (g.lane k) = f' (g.lane k)) :
    ∃ t, exec i s = .next t ∧ (GoesOn t c c.regs c.seed (c.split.pc + 4#64) ∧ t.ms = s.ms) ∧ LanesAre t c g f' := by
  subst hm
  let s' := s.setGroup c.gid (g1.mapLanes c.split.mask f)
  have hkeeps : KeepsIssuer s s' c := keepsIssuer_setGroup ..
  have hlane : ∀ k, k < 64 → (g1.mapLanes c.split.mask f).lane k = if c.split.mask.getLsbD k then f (g.lane k) else g.lane k := by
    intro k hk
    rw [Group.lane_mapLanes _ _ _ hk, Group.lane_of_tx htx]
  refine ⟨_, hx, ⟨goesOn_retire_same hctx s' hkeeps _, State.retire_ms ..⟩,
    ofGroup_retire hctx s' c.regs c.seed hs (State.find_setGroup ..) _ fun _ _ _ _ _ => ⟨fun k hk => ?_, fun k hk hout => ?_⟩⟩
  · refine (hlane k hk.1).trans ?_
    rw [if_pos hk.2, hf k hk.1 hk.2]
  · refine (hlane k hk).trans ?_
    rw [if_neg fun h => hout ⟨hk, h⟩]

end

/-! TXC (R218, R224). -/

/-- Lanes that end at TXC under the lock. -/
theorem Group.lockEnds_eq_zero {g : Group} {m : BitVec 64} (h : ∀ k, k < 64 → m.getLsbD k = true → (g.lane k).irrev = false) : g.lockEnds m = 0#64 :=
  Group.lanesOf_eq_zero (p := fun x => x.irrev && decide (x.depth ≤ 1)) fun k hk hm => by
    rw [h k hk hm]
    rfl

theorem Group.commitLanes_eq_zero {g : Group} {m : BitVec 64} (h : ∀ k, k < 64 → m.getLsbD k = true → (g.lane k).depth ≠ 1) : g.commitLanes m = 0#64 :=
  Group.lanesOf_eq_zero (p := fun x => decide (x.depth = 1) && !x.irrev) fun k hk hm => by
    rw [decide_eq_false (h k hk hm)]
    rfl

theorem Group.getLsbD_commitLanes (g : Group) (m : BitVec 64) {k : Nat} (hk : k < 64) :
    (g.commitLanes m).getLsbD k = true ↔ m.getLsbD k = true ∧ (g.lane k).depth = 1 ∧ (g.lane k).irrev = false := by
  refine (g.getLsbD_lanesOf m (fun x => decide (x.depth = 1) && !x.irrev) hk).trans ?_
  simp

theorem State.releaseLockOf_of_free {s : State} {gid : Nat} (h : (s.part (s.partOf gid)).lockHolder = none) (m : BitVec 64) : s.releaseLockOf gid m = s := by
  unfold State.releaseLockOf
  dsimp only
  rw [h]

theorem State.partOf_setGroup {s : State} {k : Nat} {g g' : Group} (hg : FMap.find s.groups k = some g) (hident : g'.ident = g.ident) (j : Nat) :
    (s.setGroup k g').partOf j = s.partOf j := by
  rw [State.partOf, State.vfOf_setGroup hg hident, State.partOf]
  rfl

/-- One level less. -/
def TxLane.shallower (x : TxLane) : TxLane := { x with depth := x.depth - 1 }

theorem Group.mapLanes_ident (g : Group) (m : BitVec 64) (f : TxLane → TxLane) : (g.mapLanes m f).ident = g.ident := by
  obtain ⟨tx, h⟩ := g.mapLanes_eq m f
  rw [h]

/-- TXC in lanes that leave an inner level, while no one holds the lock. -/
theorem State.txcOthers_of_free {s : State} {gid : Nat} {g : Group} {m : BitVec 64} (hg : FMap.find s.groups gid = some g)
    (hheld : (s.part (s.partOf gid)).lockHolder = none) (hends : g.lockEnds m = 0#64) :
    s.txcOthers gid m = s.setGroup gid (g.mapLanes m TxLane.shallower) := by
  unfold State.txcOthers
  rw [hg]
  dsimp only
  rw [hends, and_not_zero, State.modGroup_of_find hg, State.releaseLockOf_of_free]
  · rfl
  · rw [State.partOf_setGroup hg (g.mapLanes_ident m _)]
    exact hheld

/-- TXC that no turn has answered (R218). -/
theorem txcBody_of_unanswered {s : State} {c : Ctx} {g : Group} (hg : FMap.find s.groups c.gid = some g) (hwait : ∀ v, c.split.wait ≠ .answered v) :
    txcBody s c =
      let s1 := s.closeRegionOf c.gid 3
      let m := c.split.mask
      let lanes := g.commitLanes m
      if lanes ≠ 0#64 then withRelease (fun s c =>
        .stay (({ s with tickets := s.tickets ++ [Ticket.group c.gid c.entry lanes] }).schedule .sluiceTurn) c .ticket) s1 c
      else if g.lockEnds m ≠ 0#64 then withRelease (fun s c => Done.seq (s.txcOthers c.gid m) c) s1 c
      else Done.seq (s1.txcOthers c.gid m) c := by
  simp only [txcBody, hg]

theorem exec_txc {s : State} {c : Ctx} (hctx : s.ctx = some c) (hs : c.single = false) :
    exec .txc s = finish c ((encode .txc).getD 0#32) (txcBody s c) := by
  have hx : exec .txc s = execTxc s := rfl
  rw [execTxc] at hx
  rw [exec_of_issue hx hctx (by simp [hs])]

/-! TXD (R430). -/

/-- Splits of a group move, and nothing else of it. -/
def Group.Resplit (g g' : Group) : Prop := g'.regs = g.regs ∧ g'.tx = g.tx

theorem Group.Resplit.trans {g g' g'' : Group} (h : g.Resplit g') (h' : g'.Resplit g'') : g.Resplit g'' := ⟨h'.1.trans h.1, h'.2.trans h.2⟩

theorem Group.placeSplit_resplit (g : Group) (e : Nat) (sp : Split) : g.Resplit (g.placeSplit e sp) := by
  unfold Group.placeSplit
  dsimp only
  split <;> exact ⟨rfl, rfl⟩

theorem refillFrom_resplit (n : Nat) (g : Group) : g.Resplit (refillFrom n g) := by
  induction n generalizing g with
  | zero => exact ⟨rfl, rfl⟩
  | succ n ih =>
    unfold refillFrom
    split
    · exact ⟨rfl, rfl⟩
    · split
      · exact ih _
      · exact ⟨rfl, rfl⟩

theorem Group.mergeAt_resplit (g : Group) (dv : Nat) (p : BitVec 64) : g.Resplit (g.mergeAt dv p) := by
  unfold Group.mergeAt Group.refill
  dsimp only
  refine Group.Resplit.trans ?_ (refillFrom_resplit 16 _)
  split <;> exact ⟨rfl, rfl⟩

theorem joinRounds_resplit (n : Nat) (g : Group) : g.Resplit (joinRounds n g) := by
  induction n generalizing g with
  | zero => exact ⟨rfl, rfl⟩
  | succ n ih =>
    unfold joinRounds
    split
    · split
      · exact (g.mergeAt_resplit ..).trans (ih _)
      · exact ⟨rfl, rfl⟩
    · exact ⟨rfl, rfl⟩

theorem Group.leave_resplit (g : Group) (m : BitVec 64) : g.Resplit (g.leave m) := by
  have hplace : ∀ (l : List Split) (g : Group), g.Resplit (l.foldl (fun g sp => g.placeSplit g.lastSplit sp) g) := by
    intro l
    induction l with
    | nil => exact fun g => ⟨rfl, rfl⟩
    | cons sp l ih => exact fun g => (g.placeSplit_resplit ..).trans (ih _)
  unfold Group.leave
  split
  · exact ⟨rfl, rfl⟩
  · unfold Group.eject Group.rejoin Group.refill
    dsimp only
    refine Group.Resplit.trans ?_ (Group.Resplit.trans (refillFrom_resplit 16 _) (joinRounds_resplit _ _))
    exact Group.Resplit.trans ⟨rfl, rfl⟩ (hplace _ _)

/-- The status of a lane after the aborts of a mask's threads. -/
theorem Group.lane_abortStatus (g : Group) (m : BitVec 64) (code : Nat) (detail : Nat → Nat) {u : Nat} (hu : u < 64) :
    (g.abortStatus ((threadsOf m).map (fun t => ⟨t, code, detail t⟩))).lane u =
      if m.getLsbD u then (g.lane u).abort code (detail u) else g.lane u := by
  rw [Group.abortStatus, List.foldl_map]
  refine foldl_threads (fun g : Group => g.lane u) _ (fun t x => x.abort code (detail t)) hu (fun g t _ => ?_) m g
  rw [Group.lane_setLane]
  by_cases h : u = t
  · rw [if_pos h, if_pos h, h]
  · rw [if_neg h, if_neg h]

theorem Group.abortStatus_regs (g : Group) (l : List LaneAbort) : (g.abortStatus l).regs = g.regs :=
  foldl_keep (fun g : Group => g.regs) (fun (g : Group) (a : LaneAbort) => g.setLane a.thread ((g.lane a.thread).abort a.code a.detail)) (fun _ _ => rfl) l g

/-- A lane of the mask keeps its reservation's note as the abort has left it. -/
theorem Group.lane_useReserved (g : Group) {m : BitVec 64} {t : Nat} (ht : m.getLsbD t = true) (used : List Nat) :
    (g.useReserved m used).lane t = g.lane t := by
  rw [Group.lane, Group.useReserved, FMap.getD, FMap.find_mapVals, ht, Group.lane, FMap.getD]
  cases FMap.find g.tx t <;> rfl

/-- The group after aborts of a mask's threads. -/
def Group.aborted (g : Group) (l : List LaneAbort) (dead : List Nat) : Group :=
  let used := ((l.map (fun a => (g.lane a.thread).res)).filter (fun k => decide (k ≠ 0))).eraseDups
  (((g.abortStatus l).useReserved (abortMask l) used).clearTickets dead).leave (abortMask l)

theorem State.abortLanes_of_find {s : State} {gid : Nat} {g : Group} (hg : FMap.find s.groups gid = some g) {l : List LaneAbort} (hl : l ≠ []) :
    FMap.find (s.abortLanes gid l).groups gid = some (g.aborted l (deadTickets gid (abortMask l) s.tickets)) := by
  have hempty : ¬ l.isEmpty = true := by simpa using hl
  rw [State.abortLanes, if_neg hempty]
  refine (congrArg (FMap.find · gid) (congrArg State.groups (State.modGroup_of_find ?_ _))).trans (FMap.find_insert_same ..)
  rw [State.forgetEntries, State.forgetDenials_groups, hg]

theorem Group.aborted_regs (g : Group) (l : List LaneAbort) (dead : List Nat) : (g.aborted l dead).regs = g.regs :=
  (Group.leave_resplit _ _).1.trans (g.abortStatus_regs l)

theorem abortMask_threads (m : BitVec 64) (code : Nat) (detail : Nat → Nat) : abortMask ((threadsOf m).map (fun t => ⟨t, code, detail t⟩)) = m := by
  rw [abortMask, List.map_map]
  exact (congrArg maskOf (List.map_id _)).trans (maskOf_threadsOf m)

theorem Group.lane_aborted (g : Group) (m : BitVec 64) (code : Nat) (detail : Nat → Nat) (dead : List Nat) {u : Nat} (hu : u < 64)
    (hm : m.getLsbD u = true) :
    (g.aborted ((threadsOf m).map (fun t => ⟨t, code, detail t⟩)) dead).lane u = (g.lane u).abort code (detail u) := by
  unfold Group.aborted
  dsimp only
  rw [Group.lane_of_tx (Group.leave_resplit _ _).2, abortMask_threads]
  refine (Group.lane_useReserved _ hm _).trans ?_
  rw [Group.lane_abortStatus _ _ _ _ hu, if_pos hm]

/-- The aborts of TXD: the open lanes of the split with their own code. -/
def Ctx.drops (c : Ctx) (g : Group) (b : BitVec 8) : List LaneAbort :=
  (threadsOf (g.openLanes c.split.mask)).map (fun t => ⟨t, xDrop, (c.regs.read32 c.xi t b).toNat % 256⟩)

theorem txdDrop_of_free {s : State} {c : Ctx} {g : Group} (hwho : c.who = .split c.gid c.entry) (hg : FMap.find s.groups c.gid = some g)
    (hheld : (s.part (s.partOf c.gid)).lockHolder = none) (b : BitVec 8) :
    txdDrop b s c = .next ((s.setGroup c.gid ((g.noteIssue c.entry false).withCtx c.entry (c.advance (c.split.pc + 4#64)))).abortLanes c.gid (c.drops g b)) := by
  have hput := State.putCtx_of_find (c := c.advance (c.split.pc + 4#64)) hwho (State.find_setGroup s c.gid (g.noteIssue c.entry false))
  rw [State.setGroup_setGroup] at hput
  unfold txdDrop
  rw [hg]
  dsimp only
  rw [State.modGroup_of_find hg, hput, State.releaseLockOf_of_free]
  · rfl
  · rw [State.partOf_setGroup hg (show ((g.noteIssue c.entry false).withCtx c.entry (c.advance (c.split.pc + 4#64))).ident = g.ident from rfl)]
    exact hheld

theorem keepsMs_abortLanes (s : State) (gid : Nat) (l : List LaneAbort) : KeepsMs s (s.abortLanes gid l) := by
  have h := congrArg (fun m : MemSys => { m with denials := s.ms.denials }) (s.abortLanes_settled gid l)
  exact h

/-- TXD with nothing to flush, while no one holds the lock. -/
theorem txdBody_of_free {s : State} {c : Ctx} {g : Group} (hctx : s.ctx = some c) (hs : c.single = false) (hg : FMap.find s.groups c.gid = some g)
    (hheld : (s.part (s.partOf c.gid)).lockHolder = none) (hflush : NothingToFlush s c) (b : BitVec 8) :
    txdBody b s c = .next ((s.setGroup c.gid (((g.closeRegion 3).noteIssue c.entry false).withCtx c.entry (c.advance (c.split.pc + 4#64)))).abortLanes
      c.gid (c.drops g b)) := by
  have hg1 : FMap.find (s.closeRegionOf c.gid 3).groups c.gid = some (g.closeRegion 3) := State.find_closeRegionOf hg 3
  have hheld1 : ((s.closeRegionOf c.gid 3).part ((s.closeRegionOf c.gid 3).partOf c.gid)).lockHolder = none := by
    rw [State.partOf_closeRegionOf hg, State.part_closeRegionOf, hheld]
  have hopen : (g.closeRegion 3).openLanes c.split.mask = g.openLanes c.split.mask := by
    simp only [Group.openLanes, Group.lane, g.closeRegion_tx]
  simp only [txdBody, hg, (closed_closeRegionOf s c.gid 3).withRelease hctx hflush, ite_self]
  rw [txdDrop_of_free (who_of_ctx hctx hs) hg1 hheld1, Ctx.drops, hopen, State.closeRegionOf_eq hg, State.setGroup_setGroup]
  rfl

theorem exec_txd {s : State} {c : Ctx} (hctx : s.ctx = some c) (hs : c.single = false) {b : BitVec 8} (hb : src32Ok c.allot true b = true)
    (hbusy : (c.accBusy && touchesAcc 1 b) = false) : exec (.txd b) s = finish c ((encode (.txd b)).getD 0#32) (txdBody b s c) := by
  have hx : exec (.txd b) s = execTxd b s := rfl
  rw [execTxd] at hx
  rw [exec_of_issue hx hctx (by simp [hs])]
  simp only [hb, Ctx.accWait, hbusy, Bool.not_true, Bool.false_eq_true, if_false]

theorem exec_txs {s : State} {c : Ctx} {g : Group} (hctx : s.ctx = some c) (hs : c.single = false) (hg : FMap.find s.groups c.gid = some g) {d : BitVec 8}
    (hd : dst32Ok c.allot d = true) (hbusy : (c.accBusy && touchesAcc 1 d) = false) : exec (.txs d) s = finish c ((encode (.txs d)).getD 0#32)
      (Done.seq (s.closeRegionOf c.gid 3) { c with regs := (threadsOf c.split.mask).foldl (fun r t => r.write32 t d (g.lane t).word) c.regs }) := by
  have hx : exec (.txs d) s = execTxs d s := rfl
  rw [execTxs] at hx
  rw [exec_of_issue hx hctx (by simp [hs])]
  simp only [hd, Ctx.accWait, hbusy, hg, Bool.not_true, Bool.false_eq_true, if_false]

end Sys2Proof.Machine

namespace Sys2Proof.Proofs

open Sys2Proof.Machine Sys2Proof.Claims

/-- Settles O30: TXO's clauses are the branches of `txoBody_of_free`, TXC's of `txcBody_of_unanswered`, and TXD's both ends of `txdBody_of_free`. -/
theorem transactionResults : Obligations.TransactionResults := by
  unfold Obligations.TransactionResults
  intro s c g d b hctx hs hg hmask hheld member on queued lanes opened
  let s1 := s.closeRegionOf c.gid 3
  let g1 := g.closeRegion 3
  have hg1 : FMap.find s1.groups c.gid = some g1 := State.find_closeRegionOf hg 3
  have hlane1 : ∀ k, g1.lane k = g.lane k := Group.lane_of_tx (g.closeRegion_tx 3)
  have hs1 : s1 = s.setGroup c.gid g1 := State.closeRegionOf_eq hg 3
  have hpart1 : s1.partOf c.gid = s.partOf c.gid := State.partOf_closeRegionOf hg ..
  have hheld1 : (s1.part (s1.partOf c.gid)).lockHolder = none := by rw [hpart1, State.part_closeRegionOf, hheld]
  have hbody1 := txoBody_of_free hg1 hheld1
  have hqueued1 : ∀ k, k < 64 → ∀ m : BitVec 64, (s1.askedLanes c.gid m).getLsbD k = true ↔ queued k ∧ m.getLsbD k = true := by
    intro k hk m
    rw [s1.getLsbD_askedLanes c.gid m hk, hpart1, State.part_closeRegionOf]
  refine ⟨?opens, ?nests, ?asks, ?leaves, ?ticket, ?dropNone, ?dropOpen, ?status⟩
  case opens =>
    intro hfresh hroom
    have hout : g1.outerLanes c.split.mask = c.split.mask := Group.lanesOf_eq_mask fun k hk hm => by
      rw [hlane1, TxLane.outer_iff]
      exact ⟨(hfresh k ⟨hk, hm⟩).1, (hfresh k ⟨hk, hm⟩).2.1⟩
    have hwant : s1.lockLanes c.gid g1 c.split.mask = 0#64 := by
      refine BitVec.eq_of_getLsbD_eq fun k hk => ?_
      rw [BitVec.getLsbD_zero, Bool.eq_false_iff, State.lockLanes, BitVec.getLsbD_or, ne_eq, Bool.or_eq_true, not_or]
      refine ⟨fun h => ?_, fun h => ?_⟩
      · obtain ⟨hm, hp⟩ := (Group.getLsbD_lanesOf _ _ _ hk).1 h
        obtain ⟨_, _, hretries, _⟩ := hfresh k ⟨hk, hm⟩
        rw [hlane1, g.closeRegion_txlim, Bool.and_eq_true, decide_eq_true_eq] at hp
        omega
      · obtain ⟨hq, hm⟩ := (hqueued1 k hk _).1 h
        rw [hout] at hm
        exact (hfresh k ⟨hk, hm⟩).2.2.2 hq
    have hnest : g1.nestLanes c.split.mask = 0#64 := Group.nestLanes_eq_zero fun k hk hm => by
      rw [hlane1, (hfresh k ⟨hk, hm⟩).1]
      omega
    have hroom1 : g1.splitRoom ≠ 0 := fun h => hroom ((g.closeRegion_splitRoom 3).symm.trans h)
    have hdeep : c.split.mask &&& ~~~c.split.mask = 0#64 := BitVec.and_not_self _
    simp only [hwant, hout, hnest, hdeep, hmask, hroom1, ne_eq, not_true_eq_false, if_false] at hbody1
    have hstate : (s1.nested c.gid 0#64).modGroup c.gid (fun x => x.mapLanes c.split.mask (fun y => y.openAt c.split.pc g1.newRes)) =
        s.setGroup c.gid (g1.mapLanes c.split.mask (fun y => y.openAt c.split.pc g1.newRes)) := by
      rw [State.nested, State.modGroup_of_find hg1, Group.mapLanes_zero, State.modGroup_of_find (State.find_setGroup ..), State.setGroup_setGroup, hs1,
        State.setGroup_setGroup]
    rw [hstate] at hbody1
    refine txo_goesOn hctx hs rfl hbody1 fun k hk hm => ?_
    rw [TxLane.openAt_eq (hfresh k ⟨hk, hm⟩).2.1, g.closeRegion_newRes]
    rfl
  case nests =>
    intro hdepth
    have hnotOuter : ∀ k, k < 64 → c.split.mask.getLsbD k = true → (g1.lane k).outer = false := fun k hk hm => by
      have := (hdepth k ⟨hk, hm⟩).1
      rw [hlane1]
      exact TxLane.not_outer (by omega)
    have hout : g1.outerLanes c.split.mask = 0#64 := Group.lanesOf_eq_zero hnotOuter
    have hwant : s1.lockLanes c.gid g1 c.split.mask = 0#64 := by
      rw [State.lockLanes, hout, State.askedLanes, BitVec.and_zero, BitVec.or_zero]
      exact Group.lanesOf_eq_zero fun k hk hm => by rw [hnotOuter k hk hm]; rfl
    have hnest : g1.nestLanes c.split.mask = 0#64 := Group.nestLanes_eq_zero fun k hk hm => by
      rw [hlane1]
      exact (hdepth k ⟨hk, hm⟩).2
    simp only [hwant, hout, hnest, and_not_zero, ne_eq, not_true_eq_false, if_false, if_true] at hbody1
    have hstate : s1.nested c.gid c.split.mask = s.setGroup c.gid (g1.mapLanes c.split.mask TxLane.deeper) := by
      rw [State.nested, State.modGroup_of_find hg1, hs1, State.setGroup_setGroup]
    rw [hstate] at hbody1
    exact txo_goesOn (f' := fun x => { x with depth := x.depth + 1 }) hctx hs rfl hbody1 fun k hk hm => TxLane.deeper_of_lt (hdepth k ⟨hk, hm⟩).2
  case asks =>
    intro hused
    obtain ⟨k0, ⟨hk0, hm0⟩, hdepth0, hirrev0, hretries0⟩ := hused
    let asked := s1.askedLanes c.gid (g1.outerLanes c.split.mask)
    let want := s1.lockLanes c.gid g1 c.split.mask
    have hwant : want ≠ 0#64 := by
      intro hzero
      have hin : (s1.lockLanes c.gid g1 c.split.mask).getLsbD k0 = true := by
        rw [State.lockLanes, BitVec.getLsbD_or, Bool.or_eq_true]
        refine .inl ((Group.getLsbD_lanesOf _ _ _ hk0).2 ⟨hm0, ?_⟩)
        rw [hlane1, g.closeRegion_txlim, (TxLane.outer_iff _).2 ⟨hdepth0, hirrev0⟩, decide_eq_true hretries0]
        rfl
      rw [show s1.lockLanes c.gid g1 c.split.mask = 0#64 from hzero, BitVec.getLsbD_zero] at hin
      cases hin
    rw [if_pos hwant] at hbody1
    have hx := exec_txo hctx hs
    rw [closing_of_effect hbody1 (by simp)] at hx
    let k := lowest (if asked = 0#64 then want else asked)
    let s2 := s1.askLock (s1.partOf c.gid) c.gid k
    obtain ⟨hgroups, hms⟩ := s1.askLock_keeps (s1.partOf c.gid) c.gid k
    have hqueue : (c.gid, k) ∈ (s2.part (s.partOf c.gid)).lockQueue := by
      rw [← hpart1]
      exact s1.mem_askLock (s1.partOf c.gid) c.gid k
    refine ⟨s2.stay c c .txLock, hx, waitsFor_stay hctx s2 hs ((congrArg (FMap.find · c.gid) hgroups).trans hg1) rfl,
      (State.stay_ms ..).trans (hms.trans (State.closeRegionOf_ms ..)), k, State.lockLane_mem hwant, ?_⟩
    rw [State.part, State.stay_parts]
    exact hqueue
  case leaves =>
    intro hdepth hwait
    have hcommit : g.commitLanes c.split.mask = 0#64 := Group.commitLanes_eq_zero fun k hk hm => (hdepth k ⟨hk, hm⟩).1
    have hends : g.lockEnds c.split.mask = 0#64 := Group.lockEnds_eq_zero fun k hk hm => (hdepth k ⟨hk, hm⟩).2
    have hends1 : g1.lockEnds c.split.mask = 0#64 := Group.lockEnds_eq_zero fun k hk hm => by rw [hlane1, (hdepth k ⟨hk, hm⟩).2]
    have hx := exec_txc hctx hs
    rw [txcBody_of_unanswered hg hwait] at hx
    simp only [hcommit, hends, ne_eq, not_true_eq_false, if_false] at hx
    rw [State.txcOthers_of_free hg1 hheld1 hends1, hs1, State.setGroup_setGroup] at hx
    exact lanes_goesOn hctx hs rfl (g.closeRegion_tx 3) hx fun _ _ _ => rfl
  case ticket =>
    intro hlast hwait hflush
    obtain ⟨k0, ⟨hk0, hm0⟩, hdepth0, hirrev0⟩ := hlast
    have hcommit : g.commitLanes c.split.mask ≠ 0#64 := by
      intro hzero
      have hin := (g.getLsbD_commitLanes c.split.mask hk0).2 ⟨hm0, hdepth0, hirrev0⟩
      rw [hzero, BitVec.getLsbD_zero] at hin
      cases hin
    have hx := exec_txc hctx hs
    rw [txcBody_of_unanswered hg hwait] at hx
    simp only [if_pos hcommit] at hx
    rw [(closed_closeRegionOf s c.gid 3).withRelease hctx hflush] at hx
    let s2 := ({ s1 with tickets := s1.tickets ++ [Ticket.group c.gid c.entry (g.commitLanes c.split.mask)] } : State).schedule .sluiceTurn
    refine ⟨s2.stay c c .ticket, g.commitLanes c.split.mask, hx, waitsFor_stay hctx s2 hs hg1 rfl, (State.stay_ms ..).trans (State.closeRegionOf_ms ..), ?_,
      fun k hk => (g.getLsbD_commitLanes c.split.mask hk).trans ⟨fun h => ⟨⟨hk, h.1⟩, h.2⟩, fun h => ⟨h.1.2, h.2⟩⟩⟩
    rw [State.stay_tickets]
    exact congrArg (· ++ _) (State.modGroup_tickets ..)
  case dropNone =>
    intro hb hbusy hflush hopen
    have hx := exec_txd hctx hs hb hbusy
    rw [txdBody_of_free hctx hs hg hheld hflush, Ctx.drops, hopen, (threadsOf_eq_nil 0#64).2 rfl] at hx
    let g2 := (g1.noteIssue c.entry false).withCtx c.entry (c.advance (c.split.pc + 4#64))
    have hlane2 : ∀ k, g2.lane k = g.lane k := hlane1
    exact ⟨s.setGroup c.gid g2, hx, ⟨holds_setGroup s (who_of_ctx hctx hs) rfl rfl (FMap.find_insert_same ..), rfl⟩, g2, State.find_setGroup ..,
      fun k _ => hlane2 k, fun k _ _ => hlane2 k⟩
  case dropOpen =>
    intro hb hbusy hflush hopen
    have hx := exec_txd hctx hs hb hbusy
    rw [txdBody_of_free hctx hs hg hheld hflush] at hx
    let g2 := (g1.noteIssue c.entry false).withCtx c.entry (c.advance (c.split.pc + 4#64))
    let s2 := s.setGroup c.gid g2
    have hregs : g2.regs = g.regs := by
      have h := regsOf_of_ctx hctx
      rw [who_of_ctx hctx hs, regsOf, hg] at h
      exact (Option.some.inj h).symm
    have hdrops : c.drops g b ≠ [] := fun h => hopen ((threadsOf_eq_nil _).1 (List.map_eq_nil_iff.1 h))
    have hfind := State.abortLanes_of_find (State.find_setGroup s c.gid g2) hdrops
    refine ⟨s2.abortLanes c.gid (c.drops g b), hx, keepsMs_abortLanes s2 c.gid (c.drops g b), _, hfind, (Group.aborted_regs ..).trans hregs, fun k hk hm => ?_⟩
    have hlane := Group.lane_aborted g2 (g.openLanes c.split.mask) xDrop (fun t => (c.regs.read32 c.xi t b).toNat % 256)
      (deadTickets c.gid (abortMask (c.drops g b)) s2.tickets) hk hm
    rw [show g2.lane k = g.lane k from hlane1 k] at hlane
    have hlane : (g2.aborted (c.drops g b) (deadTickets c.gid (abortMask (c.drops g b)) s2.tickets)).lane k = _ := hlane
    rw [hlane]
    exact ⟨rfl, rfl, rfl, rfl, rfl⟩
  case status =>
    intro hd hbusy
    have hx := exec_txs hctx hs hg hd hbusy
    let r := (threadsOf c.split.mask).foldl (fun r t => r.write32 t d (g.lane t).word) c.regs
    have hkeeps : KeepsIssuer s s1 c := (closed_closeRegionOf s c.gid 3).keepsIssuer hctx
    exact ⟨s1.retire c { c with regs := r } (c.split.pc + 4#64), r, hx, ⟨goesOn_retire hctx s1 r c.seed hkeeps _,
      (State.retire_ms ..).trans (State.closeRegionOf_ms ..)⟩, received_words c.regs c.split.mask d fun k => (g.lane k).word⟩

end Sys2Proof.Proofs
end

