-- ==== Sys2Proof/Proofs/WeirResults.lean ====
section
/-! SUPPORT. The weir instructions of a split outside transactions (R110, R113, R431), and the host words of transactions
(R226, R230). -/

namespace Sys2Proof.Machine

open Sys2Proof.Claims

/-! A weir instruction goes to its home, and completes with its answer. -/

theorem weirBody_of_answered {s : State} {c : Ctx} {v : Nat} (hwait : c.split.wait = .answered v) (i : Instr) (kind : Nat) (a : BitVec 8)
    (value : Ctx → Nat) (put : Nat → Ctx → Ctx) :
    weirBody i kind a value put s c = Done.seq (if kind = 2 then s.dropL1 (coreOf c.gid) else s) (put v c) := by
  rw [weirBody, hwait]
  rfl

theorem weirBody_of_new {s : State} {c : Ctx} (hctx : s.ctx = some c) (hanswered : ∀ v, c.split.wait ≠ .answered v) (hposted : ∀ w, c.split.wait ≠ .weir w)
    {kind : Nat} (hflush : kind < 2 → NothingToFlush s c) (i : Instr) (a : BitVec 8) (value : Ctx → Nat) (put : Nat → Ctx → Ctx) :
    weirBody i kind a value put s c =
      .stay ((s.closeRegionOf c.gid 3).schedule (.weirRequest c.gid c.entry kind ((c.regs.read32 c.xi c.lane a).toNat % 65536) (value c))) c
        (.weir ((encode i).getD 0#32)) := by
  have hpost : ∀ s c, weirPost ((encode i).getD 0#32) kind a (value c) s c =
      .stay (s.schedule (.weirRequest c.gid c.entry kind ((c.regs.read32 c.xi c.lane a).toNat % 65536) (value c))) c (.weir ((encode i).getD 0#32)) := by
    intro s c
    simp only [weirPost, field, Nat.pow_zero, Nat.div_one, Nat.reducePow]
  simp only [weirBody]
  refine closing_of_effect ?_ (by simp)
  by_cases hkind : kind < 2
  · simp only [if_pos hkind, (closed_closeRegionOf s c.gid 3).withRelease hctx (hflush hkind), hpost]
  · simp only [if_neg hkind, hpost]

section

variable {s : State} {c : Ctx} (hissues : GroupIssues s c)
include hissues

/-- A weir instruction that is posted waits for its home's answer. -/
theorem weir_posts {i : Instr} {kind : Nat} {a : BitVec 8} {value : Ctx → Nat} {put : Nat → Ctx → Ctx}
    (hx : exec i s = finish c ((encode i).getD 0#32) (weirBody i kind a value put s c)) (hanswered : ∀ v, c.split.wait ≠ .answered v)
    (hposted : ∀ w, c.split.wait ≠ .weir w) (hflush : kind < 2 → NothingToFlush s c) :
    ∃ t word, exec i s = .next t ∧ WaitsFor t c (.weir word) ∧ t.ms = s.ms ∧
      t.turn.agenda = s.turn.agenda ++ [.weirRequest c.gid c.entry kind ((c.regs.read32 c.xi c.lane a).toNat % 65536) (value c)] := by
  obtain ⟨hctx, hs, -⟩ := hissues
  obtain ⟨g, hg⟩ := group_of_ctx hctx
  rw [weirBody_of_new hctx hanswered hposted hflush] at hx
  let s' := (s.closeRegionOf c.gid 3).schedule (.weirRequest c.gid c.entry kind ((c.regs.read32 c.xi c.lane a).toNat % 65536) (value c))
  have hg' : FMap.find s'.groups c.gid = some (g.closeRegion 3) := State.find_closeRegionOf hg 3
  refine ⟨_, _, hx, waitsFor_stay hctx s' hs hg' rfl, (State.stay_ms ..).trans (State.closeRegionOf_ms ..), ?_⟩
  rw [State.stay_turn]
  exact congrArg (fun x : Turn => x.agenda ++ _) (State.closeRegionOf_turn ..)

/-- A weir instruction that is answered completes with the answer. -/
theorem weir_ends {i : Instr} {kind : Nat} {a d : BitVec 8} {value : Ctx → Nat} {put : Nat → Ctx → Ctx} {words : Nat → List Word}
    (hx : exec i s = finish c ((encode i).getD 0#32) (weirBody i kind a value put s c))
    (hput : ∀ v, put v c = { c with regs := (put v c).regs }) (hreceived : ∀ v, Received c.regs c.split.mask d (fun _ => words v) (put v c).regs) {v : Nat}
    (hwait : c.split.wait = .answered v) :
    ∃ t r, exec i s = .next t ∧ GoesOn t c r c.seed (c.split.pc + 4#64) ∧ t.ms = s.ms ∧ Received c.regs c.split.mask d (fun _ => words v) r ∧
      (kind = 2 → (t.core (coreOf c.gid)).l1 = []) := by
  obtain ⟨hctx, hs, -⟩ := hissues
  rw [weirBody_of_answered hwait, hput v] at hx
  let s' := if kind = 2 then s.dropL1 (coreOf c.gid) else s
  have hkept : s'.groups = s.groups ∧ s'.handlers = s.handlers ∧ s'.ms = s.ms := by
    dsimp only [s']
    split
    · exact ⟨rfl, rfl, rfl⟩
    · exact ⟨rfl, rfl, rfl⟩
  obtain ⟨hgroups, hhandlers, hms⟩ := hkept
  refine ⟨s'.retire c { c with regs := (put v c).regs } (c.split.pc + 4#64), (put v c).regs, hx,
    goesOn_retire hctx s' (put v c).regs c.seed (keepsIssuer_of_groups hctx hgroups hhandlers) _, (State.retire_ms ..).trans hms, hreceived v, fun hkind => ?_⟩
  rw [core_retire, show s' = s.dropL1 (coreOf c.gid) from if_pos hkind, State.core_dropL1, if_pos rfl]

theorem exec_wsig {a b : BitVec 8} (ha : src32Ok c.allot false a = true) (hb : src64Ok c.allot true b = true)
    (hbusy : (c.accBusy && (touchesAcc 1 a || touchesAcc 2 b)) = false) : exec (.wsig a b) s =
      finish c ((encode (.wsig a b)).getD 0#32) (weirBody (.wsig a b) 0 a (pairB b) (fun _ c => c) s c) := by
  obtain ⟨hctx, hs, hnone⟩ := hissues
  have hx : exec (.wsig a b) s = execWsig a b s := rfl
  rw [execWsig] at hx
  rw [exec_of_issue hx hctx (by simp [hs])]
  simp only [ha, hb, Ctx.accWait, hbusy, txIllegal_of_none hnone, Bool.and_self, Bool.not_true, Bool.false_eq_true, if_false]

theorem exec_wtry {d a b : BitVec 8} (hd : dst32Ok c.allot d = true) (ha : src32Ok c.allot false a = true) (hb : src64Ok c.allot true b = true)
    (hbusy : (c.accBusy && (touchesAcc 1 d || touchesAcc 1 a || touchesAcc 2 b)) = false) : exec (.wtry d a b) s =
      finish c ((encode (.wtry d a b)).getD 0#32) (weirBody (.wtry d a b) 1 a (pairB b) (fun v c => c.put32 d (BitVec.ofNat 32 v)) s c) := by
  obtain ⟨hctx, hs, hnone⟩ := hissues
  have hx : exec (.wtry d a b) s = execWtry d a b s := rfl
  rw [execWtry] at hx
  rw [exec_of_issue hx hctx (by simp [hs])]
  simp only [hd, ha, hb, Ctx.accWait, hbusy, txIllegal_of_none hnone, Bool.and_self, Bool.not_true, Bool.false_eq_true, if_false]

theorem exec_wwait {d a b : BitVec 8} (hd : dst64Ok c.allot d = true) (ha : src32Ok c.allot false a = true) (hb : src64Ok c.allot true b = true)
    (hbusy : (c.accBusy && (touchesAcc 2 d || touchesAcc 1 a || touchesAcc 2 b)) = false) : exec (.wwait d a b) s =
      finish c ((encode (.wwait d a b)).getD 0#32) (weirBody (.wwait d a b) 2 a (pairB b) (fun v c => c.put64 d (BitVec.ofNat 64 v)) s c) := by
  obtain ⟨hctx, hs, hnone⟩ := hissues
  have hx : exec (.wwait d a b) s = execWwait d a b s := rfl
  rw [execWwait] at hx
  rw [exec_of_issue hx hctx (by simp [hs])]
  simp only [hd, ha, hb, Ctx.accWait, hbusy, txIllegal_of_none hnone, Bool.and_self, Bool.not_true, Bool.false_eq_true, if_false]

theorem exec_wqry {d a : BitVec 8} (hd : dst64Ok c.allot d = true) (ha : src32Ok c.allot false a = true)
    (hbusy : (c.accBusy && (touchesAcc 2 d || touchesAcc 1 a)) = false) : exec (.wqry d a) s =
      finish c ((encode (.wqry d a)).getD 0#32) (weirBody (.wqry d a) 3 a (fun _ => 0) (fun v c => c.put64 d (BitVec.ofNat 64 v)) s c) := by
  obtain ⟨hctx, hs, hnone⟩ := hissues
  have hx : exec (.wqry d a) s = execWqry d a s := rfl
  rw [execWqry] at hx
  rw [exec_of_issue hx hctx (by simp [hs])]
  simp only [hd, ha, Ctx.accWait, hbusy, txIllegal_of_none hnone, Bool.and_self, Bool.not_true, Bool.false_eq_true, if_false]

end

/-- A count's pair in every thread of the mask. -/
theorem Ctx.put64_received_count (c : Ctx) (d : BitVec 8) (v : Nat) :
    Received c.regs c.split.mask d (fun _ => [BitVec.ofNat 32 v, BitVec.ofNat 32 (v / 2 ^ 32)]) (c.put64 d (BitVec.ofNat 64 v)).regs := by
  have h := c.put64_received d (BitVec.ofNat 64 v)
  rwa [lo32_ofNat, hi32_ofNat] at h

/-! Host words (R230). -/

theorem State.hart_setHart (s : State) (h k : Nat) (x : Hart) : (s.setHart h x).hart k = if h = k then x else s.hart k := by
  rw [State.hart, State.setHart, FMap.getD_setD]
  rfl

theorem Hart.getX_setX_same (x : Hart) (d : BitVec 5) : (x.setX d.toNat 0#64).getX d.toNat = 0#64 := by
  unfold Hart.getX Hart.setX
  by_cases h : d.toNat = 0
  · simp [h]
  · simp [h]

theorem Hart.getX_setX_other (x : Hart) {d k : BitVec 5} (h : k ≠ d) : (x.setX d.toNat 0#64).getX k.toNat = x.getX k.toNat := by
  have hne : d.toNat ≠ k.toNat := fun heq => h (BitVec.eq_of_toNat_eq heq).symm
  unfold Hart.getX Hart.setX
  by_cases hd : d.toNat = 0
  · simp [hd]
  · simp [hd, FMap.getD_setD_other _ _ hne]

/-- Writing a register changes no other field of a hart. -/
theorem Hart.setX_eq (x : Hart) (n : Nat) (v : BitVec 64) : ∃ r, x.setX n v = { x with x := r } := by
  unfold Hart.setX
  split
  · exact ⟨x.x, rfl⟩
  · exact ⟨_, rfl⟩

theorem exec_of_issueHart {i : Instr} {s : State} {h : Nat} {f : Nat → State → State} (hx : exec i s = issueHart f s) (hcur : s.turn.cur = some (.hart h)) :
    exec i s = .next (f h s) := by
  rw [hx, issueHart, State.hartCtx, hcur]

/-- A host word leaves the other harts, memory and groups (R230). -/
def KeepsOtherHarts (s t : State) (h : Nat) : Prop := (∀ k, k ≠ h → t.hart k = s.hart k) ∧ t.ms = s.ms ∧ t.groups = s.groups

theorem keepsOtherHarts_setHart (s : State) (h : Nat) (x : Hart) : KeepsOtherHarts s (s.setHart h x) h :=
  ⟨fun k hk => by rw [State.hart_setHart, if_neg (Ne.symm hk)], rfl, rfl⟩

theorem Hart.setX_x_same (x : Hart) {n : Nat} (hn : n ≠ 0) (v : BitVec 64) : FMap.getD (x.setX n v).x 0#64 n = v := by
  rw [Hart.setX, if_neg hn]
  exact FMap.getD_setD_same ..

theorem Hart.setX_x_other (x : Hart) {n k : Nat} (hk : k ≠ n) (v : BitVec 64) : FMap.getD (x.setX n v).x 0#64 k = FMap.getD x.x 0#64 k := by
  unfold Hart.setX
  split
  · rfl
  · exact FMap.getD_setD_other _ _ (Ne.symm hk) _

/-- A hart whose transaction has aborted: its registers are back, with the status in rd of the outermost tx.open (R230, R236). -/
theorem Hart.abort_spec (x : Hart) (code detail : Nat) :
    (x.abort code detail).depth = 0 ∧ (x.abort code detail).pc = x.resume ∧ (x.abort code detail).buf = [] ∧
      (x.rd ≠ 0 → FMap.getD (x.abort code detail).x 0#64 x.rd = BitVec.ofNat 64 (detail % 256 * 256 + code)) ∧
      ∀ k, k ≠ x.rd → FMap.getD (x.abort code detail).x 0#64 k = FMap.getD x.recX 0#64 k := by
  let y : Hart := { x with x := x.recX, f := x.recF, depth := 0, recX := [], recF := [], pc := x.resume, buf := [], rsig := [], wsig := [], slices := [],
                           ticket := false, home := none }
  have hy : x.abort code detail = y.setX x.rd (BitVec.ofNat 64 (detail % 256 * 256 + code)) := rfl
  have hstatus := fun hrd : x.rd ≠ 0 => y.setX_x_same hrd (BitVec.ofNat 64 (detail % 256 * 256 + code))
  have hregs := fun k (hk : k ≠ x.rd) => y.setX_x_other hk (BitVec.ofNat 64 (detail % 256 * 256 + code))
  obtain ⟨rx, hrest⟩ := y.setX_eq x.rd (BitVec.ofNat 64 (detail % 256 * 256 + code))
  rw [hy]
  refine ⟨?_, ?_, ?_, hstatus, hregs⟩ <;> rw [hrest]

theorem State.hart_abortHart {s : State} {h : Nat} (hdepth : (s.hart h).depth ≠ 0) (code detail : Nat) :
    (s.abortHart h code detail).hart h = (s.hart h).abort code detail ∧ KeepsOtherHarts s (s.abortHart h code detail) h := by
  rw [State.abortHart, if_neg hdepth]
  exact ⟨(s.hart_setHart h h _).trans (if_pos rfl), keepsOtherHarts_setHart ..⟩

end Sys2Proof.Machine

namespace Sys2Proof.Proofs

open Sys2Proof.Machine Sys2Proof.Claims

/-- Settles O31: each instruction's two turns are `weir_posts` and `weir_ends`. -/
theorem weirInstructionResults : Obligations.WeirInstructionResults := by
  unfold Obligations.WeirInstructionResults
  intro s c d a b hissues h n posts ends pair
  refine ⟨fun ha hb hbusy => ⟨?_, fun v hwait => ?_⟩, fun hd ha hb hbusy => ⟨?_, ?_⟩, fun hd ha hb hbusy => ⟨?_, ?_⟩, fun hd ha hbusy => ⟨?_, ?_⟩⟩
  · exact weir_posts hissues (exec_wsig hissues ha hb hbusy)
  · have hx := exec_wsig hissues ha hb hbusy
    rw [weirBody_of_answered hwait] at hx
    exact goes_of_retires hissues.1 hx
  · exact weir_posts hissues (exec_wtry hissues hd ha hb hbusy)
  · intro v hwait
    obtain ⟨t, r, hx, hon, hms, hreceived, -⟩ := weir_ends (words := fun v => [BitVec.ofNat 32 v]) hissues (exec_wtry hissues hd ha hb hbusy) (fun _ => rfl)
      (fun v => c.put32_received d _) hwait
    exact ⟨t, r, hx, hon, hms, hreceived, False.elim⟩
  · exact weir_posts hissues (exec_wwait hissues hd ha hb hbusy)
  · intro v hwait
    obtain ⟨t, r, hx, hon, hms, hreceived, hdrop⟩ := weir_ends (words := pair) hissues (exec_wwait hissues hd ha hb hbusy) (fun _ => rfl)
      (c.put64_received_count d) hwait
    exact ⟨t, r, hx, hon, hms, hreceived, fun _ => hdrop rfl⟩
  · exact weir_posts hissues (exec_wqry hissues hd ha hbusy)
  · intro v hwait
    obtain ⟨t, r, hx, hon, hms, hreceived, -⟩ := weir_ends (words := pair) hissues (exec_wqry hissues hd ha hbusy) (fun _ => rfl)
      (c.put64_received_count d) hwait
    exact ⟨t, r, hx, hon, hms, hreceived, False.elim⟩

/-- Settles O32: the clauses are the branches of the three host words. -/
theorem hostTransactionResults : Obligations.HostTransactionResults := by
  unfold Obligations.HostTransactionResults
  intro s h d r hcur x other value
  have hopen : exec (.txOpen d) s = execTxOpen d s := rfl
  rw [execTxOpen] at hopen
  have hopen := exec_of_issueHart hopen hcur
  have hclose : exec .txClose s = execTxClose s := rfl
  rw [execTxClose] at hclose
  have hclose := exec_of_issueHart hclose hcur
  have hdrop : exec (.txDrop r) s = execTxDrop r s := rfl
  rw [execTxDrop] at hdrop
  have hdrop := exec_of_issueHart hdrop hcur
  refine ⟨fun hdepth hfree => ?opens, fun hlow hhigh => ?nests, fun hdepth => ?leaves, fun hdepth hticket => ?ticket, fun hdepth => ?passes, fun hdepth => ?drops⟩
  case opens =>
    have hunlocked : ¬ (s.parts.any fun q => q.2.lockHolder.isSome) = true := by
      simp only [List.any_eq_true, not_exists, not_and]
      intro q hq
      simp [hfree q hq]
    let y : Hart := { x with depth := 1, recX := x.x, recF := x.f, rd := d.toNat, resume := x.pc + 4#64, openTick := s.tick, pc := x.pc + 4#64,
                             buf := [], rsig := [], wsig := [], slices := [], ticket := false, home := none }
    have ht : exec (.txOpen d) s = .next (s.setHart h (y.setX d.toNat 0#64)) := by
      rw [hopen]
      simp only [show (s.hart h).depth = 0 from hdepth, hunlocked, if_true, Bool.false_eq_true, if_false]
      rfl
    have hat : (s.setHart h (y.setX d.toNat 0#64)).hart h = y.setX d.toNat 0#64 := by rw [State.hart_setHart, if_pos rfl]
    obtain ⟨rx, hy⟩ := y.setX_eq d.toNat 0#64
    have hsame := Hart.getX_setX_same y d
    have hother := fun k (hk : k ≠ d) => Hart.getX_setX_other y hk
    refine ⟨_, ht, keepsOtherHarts_setHart .., ?_⟩
    rw [hat]
    refine ⟨?_, ?_, ?_, ?_, ?_, ?_, ?_, hsame, hother⟩ <;> rw [hy]
  case nests =>
    let y : Hart := { x with depth := x.depth + 1, pc := x.pc + 4#64 }
    have ht : exec (.txOpen d) s = .next (s.setHart h (y.setX d.toNat 0#64)) := by
      rw [hopen]
      simp only [show (s.hart h).depth ≠ 0 from fun hz => by rw [show x.depth = 0 from hz] at hlow; omega, show (s.hart h).depth < 8 from hhigh, if_true, if_false]
      rfl
    have hat : (s.setHart h (y.setX d.toNat 0#64)).hart h = y.setX d.toNat 0#64 := by rw [State.hart_setHart, if_pos rfl]
    obtain ⟨rx, hy⟩ := y.setX_eq d.toNat 0#64
    have hsame := Hart.getX_setX_same y d
    refine ⟨_, ht, keepsOtherHarts_setHart .., ?_⟩
    rw [hat]
    refine ⟨?_, ?_, hsame⟩ <;> rw [hy]
  case leaves =>
    have h0 : ¬ (s.hart h).depth = 0 := fun hz => by rw [show x.depth = 0 from hz] at hdepth; omega
    have h1 : ¬ (s.hart h).depth = 1 := fun hz => by rw [show x.depth = 1 from hz] at hdepth; omega
    simp only [if_neg h0, if_neg h1] at hclose
    exact ⟨_, hclose, keepsOtherHarts_setHart .., by rw [State.hart_setHart, if_pos rfl]⟩
  case ticket =>
    have h0 : ¬ (s.hart h).depth = 0 := fun hz => by rw [show x.depth = 0 from hz] at hdepth; omega
    have hnew : ¬ (s.hart h).ticket = true := by rw [show (s.hart h).ticket = false from hticket]; simp
    simp only [if_neg h0, if_pos (show (s.hart h).depth = 1 from hdepth), if_neg hnew] at hclose
    obtain ⟨hharts, hms, hgroups⟩ := keepsOtherHarts_setHart s h { x with ticket := true }
    refine ⟨_, hclose, ⟨hharts, hms, hgroups⟩, ?_, rfl⟩
    exact (s.hart_setHart h h { x with ticket := true }).trans (if_pos rfl)
  case passes =>
    simp only [if_pos (show (s.hart h).depth = 0 from hdepth)] at hdrop
    exact ⟨_, hdrop, keepsOtherHarts_setHart .., (s.hart_setHart h h _).trans (if_pos rfl)⟩
  case drops =>
    simp only [if_neg (show ¬ (s.hart h).depth = 0 from hdepth)] at hdrop
    let n := (x.getX r.toNat).toNat % 256
    obtain ⟨hat, hothers⟩ := State.hart_abortHart (show (s.hart h).depth ≠ 0 from hdepth) xDrop n
    obtain ⟨hended, hresumed, hbuf, hstatus, hregs⟩ := x.abort_spec xDrop n
    refine ⟨_, hdrop, hothers, ?_⟩
    rw [hat]
    refine ⟨hended, hresumed, hbuf, fun hrd => ?_, hregs⟩
    rw [hstatus hrd, Nat.mod_mod]

end Sys2Proof.Proofs
end

