-- ==== Sys2Proof/Proofs/GridResults.lean ====
section
/-! SUPPORT. The grid operations of one group (R172, R442 to R449): the cells of an operation, what the accumulators read as
while it stands, and the instructions that issue one. -/

namespace Sys2Proof.Machine

open Sys2Proof.Claims

/-! Cells. -/

/-- Without draws a list of cells holds the function's values, and the seed stays (R288). -/
theorem cellList_of_no_draw (f : Nat → Nat → Nat → Word) (l : List (Nat × Nat)) (seed : Word) :
    cellList false f l seed = (l.map (fun q => (q.1 * 64 + q.2, f q.1 q.2 0)), seed) := by
  induction l with
  | nil => rfl
  | cons q l ih => obtain ⟨i, j⟩ := q; simp [cellList, ih]

theorem mem_cellsOf (rows cols : List Nat) (i j : Nat) : (i, j) ∈ cellsOf rows cols ↔ i ∈ rows ∧ j ∈ cols := by
  rw [cellsOf, List.mem_flatten]
  constructor
  · rintro ⟨l, hl, hij⟩
    obtain ⟨a, ha, rfl⟩ := List.mem_map.1 hl
    obtain ⟨b, hb, he⟩ := List.mem_map.1 hij
    cases he
    exact ⟨ha, hb⟩
  · rintro ⟨hi, hj⟩
    exact ⟨_, List.mem_map.2 ⟨i, hi, rfl⟩, List.mem_map.2 ⟨j, hj, rfl⟩⟩

/-- A cell's number in an operation's list is its own: columns are below 64. -/
theorem find_cells (l : List (Nat × Nat)) (f : Nat → Nat → Word) (hl : ∀ q ∈ l, q.2 < 64) {i j : Nat} (hj : j < 64) :
    FMap.find (l.map (fun q => (q.1 * 64 + q.2, f q.1 q.2))) (i * 64 + j) = if (i, j) ∈ l then some (f i j) else none := by
  induction l with
  | nil => simp
  | cons q l ih =>
    obtain ⟨i', j'⟩ := q
    have hj' : j' < 64 := hl _ List.mem_cons_self
    have hkey : i' * 64 + j' = i * 64 + j ↔ i' = i ∧ j' = j := by omega
    simp only [List.map_cons, FMap.find, hkey, ih fun q hq => hl q (List.mem_cons_of_mem _ hq), List.mem_cons, Prod.mk.injEq]
    by_cases h : i' = i ∧ j' = j
    · obtain ⟨rfl, rfl⟩ := h
      simp
    · rw [if_neg h]
      refine ite_congr (propext ?_) (fun _ => rfl) (fun _ => rfl)
      constructor
      · exact .inr
      · rintro (⟨rfl, rfl⟩ | hq)
        · exact absurd ⟨rfl, rfl⟩ h
        · exact hq

/-- With a further operation outstanding, a cell reads as that operation's result, and as before where it has none (R172). -/
theorem Group.cell_push (g g' : Group) (op : GridOp) (hops : g'.gridOps = g.gridOps ++ [op]) (hv : g'.regs.v = g.regs.v) (i j : Nat) :
    g'.cell i j = (FMap.find op.cells (i * 64 + j)).getD (g.cell i j) := by
  have hreg : g'.regs.getV (64 + j) i = g.regs.getV (64 + j) i := by rw [Regs.getV, Regs.getV, hv]
  unfold Group.cell
  rw [hops, hreg, List.reverse_append, List.reverse_singleton, List.singleton_append, List.findSome?_cons]
  cases FMap.find op.cells (i * 64 + j) <;> rfl

/-! Issuing an operation. -/

/-- A group that changed in neither registers nor seed has them still after its split retires under its own context. -/
theorem ofGroup_retire_kept {s s' : State} {c : Ctx} {g g' : Group} (hctx : s.ctx = some c) (hs : c.single = false) (hg : FMap.find s.groups c.gid = some g)
    (hg' : FMap.find s'.groups c.gid = some g') (hregs : g'.regs = g.regs) (hseed : g'.srseed = g.srseed) (npc : BitVec 64) {P : Group → Prop}
    (hP : ∀ table last spin, P { g' with table := table, lastSplit := last, spin := spin }) : OfGroup (s'.retire c c npc) c.gid P := by
  obtain ⟨last, spin, ht⟩ := State.retire_of_find c (who_of_ctx hctx hs) hg' npc
  have hown : g.withCtx c.entry (c.advance npc) = { g with table := FMap.insert g.table c.entry (c.advance npc).split } := Group.withCtx_of_ctx hctx hs hg _
  have hregs' : (g'.withCtx c.entry (c.advance npc)).regs = g'.regs := (congrArg Group.regs hown).trans hregs.symm
  have hseed' : (g'.withCtx c.entry (c.advance npc)).srseed = g'.srseed := (congrArg Group.srseed hown).trans hseed.symm
  have hwith : g'.withCtx c.entry (c.advance npc) = { g' with table := FMap.insert g'.table c.entry (c.advance npc).split } := by
    calc g'.withCtx c.entry (c.advance npc)
        = { g' with regs := (g'.withCtx c.entry (c.advance npc)).regs, srseed := (g'.withCtx c.entry (c.advance npc)).srseed, table := FMap.insert g'.table c.entry (c.advance npc).split } := rfl
      _ = { g' with table := FMap.insert g'.table c.entry (c.advance npc).split } := by rw [hregs', hseed']
  rw [ht, hwith]
  exact ⟨_, State.find_setGroup .., hP _ _ _⟩

/-- What an instruction that issues a grid operation without draws leaves: the split goes on, one operation is appended, the
cells of the executing rows and of the columns read as its results, and nothing else is touched. -/
theorem gridOp_of_push {i : Instr} {s s2 : State} {c : Ctx} {g : Group} (hctx : s.ctx = some c) (hs : c.single = false)
    (hg : FMap.find s.groups c.gid = some g) (hreads : ReadsOnly s s2) {lead phase : Nat} {isGmm : Bool} {cols : List Nat} (hcols : ∀ j ∈ cols, j < 64)
    {f : Nat → Nat → Nat → Word} {seed : Word}
    (hx : exec i s = finish c ((encode i).getD 0#32) (Done.seq (s2.pushGridOp c.gid lead phase isGmm (cellList false f (cellsOf (threadsOf c.exec) cols) seed).1) c)) :
    ∃ t, exec i s = .next t ∧ GoesOn t c c.regs c.seed (c.split.pc + 4#64) ∧ KeepsMemory s t ∧
      (∀ k, k ≠ c.gid → FMap.find t.groups k = FMap.find s2.groups k) ∧
      OfGroup t c.gid (fun g' => (∃ op, g'.gridOps = g.gridOps ++ [op] ∧ op.isGmm = isGmm ∧ op.phase = phase) ∧
        ∀ i j, i < 64 → j < 64 → (c.exec.getLsbD i = true ∧ j ∈ cols → g'.cell i j = f i j 0) ∧
          (¬ (c.exec.getLsbD i = true ∧ j ∈ cols) → g'.cell i j = g.cell i j)) := by
  have hg2 : FMap.find s2.groups c.gid = some g := by rw [readsOnly_groups hreads, hg]
  rw [State.pushGridOp, State.modGroup_of_find hg2, cellList_of_no_draw] at hx
  generalize max (s2.freeNow (hidOf c.gid) + lead) (s2.gridFree c.gid) + phase = due at hx
  let op : GridOp := ⟨phase, due, isGmm, (cellsOf (threadsOf c.exec) cols).map (fun q => (q.1 * 64 + q.2, f q.1 q.2 0))⟩
  let s3 := s2.setGroup c.gid { g with gridOps := g.gridOps ++ [op] }
  let s' := s3.modCore (coreOf c.gid) (fun x => { x with gridOrder := x.gridOrder ++ [c.gid] })
  have hg' : FMap.find s'.groups c.gid = some { g with gridOps := g.gridOps ++ [op] } := State.find_setGroup ..
  have hkeeps : KeepsIssuer s s' c := ⟨⟨_, hg'⟩, (readsOnly_handlers hreads :)⟩
  have hmem : KeepsMemory s s' := keepsMemory_trans (readsOnly_keepsMemory hreads) (keepsMemory_modCore s3 _ fun _ => rfl)
  have hops : OfGroup (s'.retire c c (c.split.pc + 4#64)) c.gid (fun g' => g'.gridOps = g.gridOps ++ [op] ∧ g'.regs.v = g.regs.v) :=
    ofGroup_retire_kept hctx hs hg hg' rfl rfl _ fun _ _ _ => ⟨rfl, rfl⟩
  obtain ⟨g', hfind, hops, hv⟩ := hops
  refine ⟨_, hx, goesOn_retire_same hctx s' hkeeps _, keepsMemory_trans hmem (keepsMemory_retire ..), fun k hk => ?_, g', hfind, ⟨op, hops, rfl, rfl⟩, ?_⟩
  · rw [State.retire_other hctx s' c.regs c.seed _ hk]
    exact FMap.find_insert_other _ hk.symm _
  · intro i j hi hj
    have hin : (i, j) ∈ cellsOf (threadsOf c.exec) cols ↔ c.exec.getLsbD i = true ∧ j ∈ cols := by
      rw [mem_cellsOf, mem_threadsOf]
      simp only [hi, true_and]
    have hfound : FMap.find op.cells (i * 64 + j) = if (i, j) ∈ cellsOf (threadsOf c.exec) cols then some (f i j 0) else none :=
      find_cells _ (fun i j => f i j 0) (fun q hq => hcols _ ((mem_cellsOf _ _ _ _).1 hq).2) hj
    rw [Group.cell_push g g' op hops hv, hfound]
    exact ⟨fun h => by rw [if_pos (hin.2 h), Option.getD_some], fun h => by rw [if_neg fun hc => h (hin.1 hc), Option.getD_none]⟩

/-! The instructions. -/

theorem inGrid_of_group {s : State} {c : Ctx} {g : Group} (hg : FMap.find s.groups c.gid = some g) (hgrid : g.grid = true) (hroom : g.gridOps.length < 255)
    (f : Group → State → Ctx → Done) : inGrid f s c = f g s c := by
  have hfull : tileFull g = false := by simp [tileFull, hroom]
  simp only [inGrid, withGroup, hg, hgrid, hfull, Bool.not_true, Bool.false_eq_true, if_false]

theorem withIds_of_ids {s s2 : State} {c : Ctx} (hfree : NoTokens s c) {octets : Bool} {a b : BitVec 8} {f : Nat × Nat}
    (hids : gridIds c octets a b s = (.ok f, s2)) (k : Nat × Nat → State → Done) : withIds octets a b k s c = k f s2 := by
  rw [withIds, chargeSectors_of_none hfree, hids]

/-- In a list made from the numbers `l`, the entry whose key is one of them is that number's. -/
theorem find_of_key {β : Type} (x : Nat → β) (key : β → Nat) (hkey : ∀ i, key (x i) = i) {l : List Nat} {i : Nat} (h : i ∈ l) :
    (l.map x).find? (fun q => decide (key q = i)) = some (x i) := by
  induction l with
  | nil => cases h
  | cons k l ih =>
    by_cases hk : k = i
    · simp [hkey, hk]
    · simp [hkey, hk, ih ((List.mem_cons.1 h).resolve_left (Ne.symm hk))]

/-- The bits of a row of A, and of a column of B, of a GMM (R442, R444). -/
def gmmRowBits (sparse : Bool) (c : Ctx) (i : Nat) : Nat := if sparse then field (c.regs.getO 7 i).toNat 0 16 else 0xFFFF

/-- A cell of a group's own GMM (R442): the step of R299 over its products. -/
def gmmCell (g : Group) (c : Ctx) (sparse z : Bool) (fa fb : Nat) (a b : BitVec 8) (i j d : Nat) : Word :=
  gridStep c.regs.mode z (g.cell i j) d (gmmProducts (gmmElems c.regs fa i a) (gmmRowBits sparse c i) (gmmCol c.regs sparse fb j b))

theorem gmmCells_of_no_draw (g : Group) {c : Ctx} (hsr : modeRndCode c.regs.mode ≠ 5) (sparse z : Bool) (fa fb : Nat) (a b : BitVec 8) :
    gmmCells g c sparse z fa a ((threadsOf c.split.mask).map (fun t => gmmCol c.regs sparse fb t b)) =
      cellList false (gmmCell g c sparse z fa fb a b) (cellsOf (threadsOf c.exec) (threadsOf c.split.mask)) c.seed := by
  have hmode : c.modeSr = false := by simp [Ctx.modeSr, hsr]
  have hcols : ((threadsOf c.split.mask).map (fun t => gmmCol c.regs sparse fb t b)).map (fun q => q.j) = threadsOf c.split.mask := by
    rw [List.map_map]
    exact List.map_id _
  unfold gmmCells
  simp only [hmode, hcols, cellList_of_no_draw]
  congr 1
  refine List.map_congr_left fun q hq => ?_
  obtain ⟨i, j⟩ := q
  obtain ⟨hi, hj⟩ := (mem_cellsOf _ _ _ _).1 hq
  have hrow := find_of_key (fun i => (i, gmmElems c.regs fa i a, gmmRowBits sparse c i)) Prod.fst (fun _ => rfl) hi
  have hcol := find_of_key (fun t => gmmCol c.regs sparse fb t b) GridCol.j (fun _ => rfl) hj
  simp only [gmmRowBits] at hrow
  simp only [hrow, hcol, gmmCell, gmmRowBits]

theorem gmmBody_of_ids {s s2 : State} {c : Ctx} (hsr : modeRndCode c.regs.mode ≠ 5) (hfree : NoTokens s c) {a b : BitVec 8} {f : Nat × Nat}
    (hids : gridIds c true a b s = (.ok f, s2)) (sparse z : Bool) (g : Group) : gmmBody sparse z a b g s c =
      Done.seq (s2.pushGridOp c.gid 4 (gmmPhase sparse f.1 f.2 (gmmFormed c ((threadsOf c.split.mask).map (fun t => gmmCol c.regs sparse f.2 t b)))) true
        (cellList false (gmmCell g c sparse z f.1 f.2 a b) (cellsOf (threadsOf c.exec) (threadsOf c.split.mask)) c.seed).1) c := by
  rw [gmmBody, withIds_of_ids hfree hids]
  simp only [gmmCells_of_no_draw g hsr]
  rw [cellList_of_no_draw]

section

variable {s s2 : State} {c : Ctx} {g : Group} (hctx : s.ctx = some c) (hs : c.single = false) (hg : FMap.find s.groups c.gid = some g)
  (hgrid : g.grid = true) (hroom : g.gridOps.length < 255)
include hctx hs hg hgrid hroom

theorem exec_gmm_of_ids {i : Instr} {sparse z : Bool} {a b : BitVec 8} (hx : exec i s = gmm i sparse z a b s) (hsr : modeRndCode c.regs.mode ≠ 5)
    (hfree : NoTokens s c) (ha : gmmRegOk c.allot a = true) (hb : gmmRegOk c.allot b = true) (hwait : c.mustWait false = false) {f : Nat × Nat}
    (hids : gridIds c true a b s = (.ok f, s2)) : ∃ formed, exec i s = finish c ((encode i).getD 0#32)
      (Done.seq (s2.pushGridOp c.gid 4 (gmmPhase sparse f.1 f.2 formed) true
        (cellList false (gmmCell g c sparse z f.1 f.2 a b) (cellsOf (threadsOf c.exec) (threadsOf c.split.mask)) c.seed).1) c) := by
  rw [hx, gmm, issue_of_ctx hctx (by simp [hs])]
  simp only [ha, hb, hwait, Bool.and_self, Bool.not_true, Bool.false_eq_true, if_false]
  rw [inGrid_of_group hg hgrid hroom]
  exact ⟨_, congrArg (finish c _) (gmmBody_of_ids hsr hfree hids sparse z g)⟩

theorem exec_gout_of_ids {z : Bool} {a b : BitVec 8} (hsr : modeRndCode c.regs.mode ≠ 5) (hfree : NoTokens s c)
    (ha : goutRegOk c.allot a = true) (hb : goutRegOk c.allot b = true) (hwait : c.mustWait false = false) {f : Nat × Nat}
    (hids : gridIds c false a b s = (.ok f, s2)) : exec (.gout z a b) s = finish c ((encode (.gout z a b)).getD 0#32)
      (Done.seq (s2.pushGridOp c.gid 4 1 false (cellList false (fun i j d => gridStep c.regs.mode z (g.cell i j) d
        [dotProduct (goutElem c.regs f.1 i a) (goutElem c.regs f.2 j b)]) (cellsOf (threadsOf c.exec) (threadsOf c.split.mask)) c.seed).1) c) := by
  have hx : exec (.gout z a b) s = execGout z a b s := rfl
  have hmode : c.modeSr = false := by simp [Ctx.modeSr, hsr]
  rw [hx, execGout, issue_of_ctx hctx (by simp [hs])]
  simp only [ha, hb, hwait, Bool.and_self, Bool.not_true, Bool.false_eq_true, if_false]
  rw [inGrid_of_group hg hgrid hroom, goutBody, withIds_of_ids hfree hids]
  dsimp only
  rw [hmode, cellList_of_no_draw]

theorem exec_gzro_of_group (hwait : c.mustWait false = false) : exec .gzro s = finish c ((encode .gzro).getD 0#32)
    (Done.seq (s.pushGridOp c.gid 1 1 false (cellList false (fun _ _ _ => 0#32) (cellsOf (threadsOf c.exec) (List.range 64)) c.seed).1) c) := by
  have hx : exec .gzro s = execGzro s := rfl
  rw [hx, execGzro, issue_of_ctx hctx (by simp [hs])]
  simp only [hwait, Bool.false_eq_true, if_false]
  rw [inGrid_of_group hg hgrid hroom]

theorem exec_epilogue_of_group {i : Instr} {f : FEnv → Nat → Nat → Nat → Nat → Nat} {d a : BitVec 8} (hx : exec i s = epilogue i f d a s)
    (hsr : modeRndCode c.regs.mode ≠ 5) (hd : src32Ok c.allot false d = true) (ha : src32Ok c.allot false a = true)
    (hwait : c.mustWait (touchesAcc 1 d || touchesAcc 1 a) = false) : exec i s = finish c ((encode i).getD 0#32)
      (Done.seq (s.pushGridOp c.gid 4 1 false (cellList false (fun i j x => BitVec.ofNat 32
        (f (floatEnv c.regs.mode fmtF32) x (g.cell i j).toNat (c.regs.read32 c.xi i d).toNat (c.regs.read32 c.xi j a).toNat))
        (cellsOf (threadsOf c.exec) (threadsOf c.split.mask)) c.seed).1) c) := by
  have hmode : c.modeSr = false := by simp [Ctx.modeSr, hsr]
  rw [hx, epilogue, issue_of_ctx hctx (by simp [hs])]
  simp only [hd, ha, hwait, Bool.and_self, Bool.not_true, Bool.false_eq_true, if_false]
  rw [inGrid_of_group hg hgrid hroom, hmode, cellList_of_no_draw]

end

/-- The products of a dense GMM: every bit of both bitmaps is 1. -/
theorem gmmProducts_dense (x : List FVal) (r : Regs) (fb j : Nat) (b : BitVec 8) :
    gmmProducts x 0xFFFF (gmmCol r false fb j b) =
      (List.range 16).map (fun k => dotProduct (x.getD k (.zero false)) ((gmmElems r fb j b).getD k (.zero false))) := by
  refine List.map_congr_left fun k hk => ?_
  have hbit : bitAt 0xFFFF k = true := (by decide : ∀ k ∈ List.range 16, bitAt 0xFFFF k = true) k hk
  simp [gmmCol, hbit]

/-- The products of a sparse GMM: those whose row bit and column bit are set. -/
theorem gmmProducts_sparse (x : List FVal) (r : Regs) (m fb j : Nat) (b : BitVec 8) :
    gmmProducts x m (gmmCol r true fb j b) = (List.range 16).map (fun k =>
      if bitAt m k = true ∧ bitAt ((r.getO 7 j).toNat / 65536 % 65536) k = true then dotProduct (x.getD k (.zero false)) ((gmmElems r fb j b).getD k (.zero false))
      else .zero false) := by
  simp [gmmProducts, gmmCol, field]

theorem fSum3_f32 (mode : Word) (d x y z : Nat) : fSum3 (floatEnv mode fmtF32) d x y z =
    fSum (floatEnv mode fmtF32) d ([x, y, z].map (dazRead fmtF32 (floatEnv mode fmtF32).daz)) := by
  have hF : (floatEnv mode fmtF32).F = fmtF32 := rfl
  rw [fSum3, hF]

end Sys2Proof.Machine

namespace Sys2Proof.Proofs

open Sys2Proof.Machine Sys2Proof.Claims

/-- Settles O34: each instruction issues one operation (`gridOp_of_push`), whose cells are the function's values. -/
theorem gridOperationResults : Obligations.GridOperationResults := by
  unfold Obligations.GridOperationResults
  intro s s2 c g z d a b fa fb hctx hs hg hgrid hroom hsr active does bits colBits product step wide
  have hmask : ∀ j ∈ threadsOf c.split.mask, j < 64 := fun j hj => ((mem_threadsOf _ _).1 hj).1
  have hactive : ∀ j, j < 64 → (j ∈ threadsOf c.split.mask ↔ active j) := fun j hj => by simp [active, mem_threadsOf, hj]
  have hdoes : ∀ {i s2 cols isGmm phase lead f h} {P : Nat → Prop}, ReadsOnly s s2 → (∀ j ∈ cols, j < 64) → (∀ j, j < 64 → (j ∈ cols ↔ P j)) →
      exec i s = finish c ((encode i).getD 0#32) (Done.seq (s2.pushGridOp c.gid lead phase isGmm (cellList false h (cellsOf (threadsOf c.exec) cols) c.seed).1) c) →
      (∀ i j, h i j 0 = f i j) → does i s2 P isGmm phase f := by
    intro i s2 cols isGmm phase lead f h P hreads hlt hP hx hf
    obtain ⟨t, hx, hgoes, hmem, hother, g', hg', hop, hcells⟩ := gridOp_of_push hctx hs hg hreads hlt hx
    refine ⟨t, hx, hgoes, hmem, hother, g', hg', hop, fun i j hi hj => ?_⟩
    rw [← hP j hj, ← hf]
    exact hcells i j hi hj
  refine ⟨fun hfree ha hb hwait hids hreads => ?_, fun hfree ha hb hwait hids hreads => ?_, fun hwait => ?_, fun hd ha hwait => ⟨?_, ?_⟩⟩
  · constructor
    · obtain ⟨formed, hx⟩ := exec_gmm_of_ids hctx hs hg hgrid hroom (i := .gmm z a b) (sparse := false) rfl hsr hfree ha hb hwait hids
      refine hdoes hreads hmask hactive hx fun i j => ?_
      exact congrArg (gridStep c.regs.mode z (g.cell i j) 0) (gmmProducts_dense _ _ _ _ _)
    · obtain ⟨formed, hx⟩ := exec_gmm_of_ids hctx hs hg hgrid hroom (i := .gmmSparse z a b) (sparse := true) rfl hsr hfree ha hb hwait hids
      refine ⟨_, hdoes hreads hmask hactive hx fun i j => ?_⟩
      refine congrArg (gridStep c.regs.mode z (g.cell i j) 0) ((gmmProducts_sparse _ _ _ _ _ _).trans ?_)
      simp only [gmmRowBits, field, if_true, Nat.pow_zero, Nat.div_one, bits, colBits, product, Nat.reducePow]
  · exact hdoes hreads hmask hactive (exec_gout_of_ids hctx hs hg hgrid hroom hsr hfree ha hb hwait hids) fun _ _ => rfl
  · have hlt : ∀ j ∈ List.range 64, j < 64 := fun j hj => List.mem_range.1 hj
    have hall : ∀ j, j < 64 → (j ∈ List.range 64 ↔ True) := fun j hj => iff_true_intro (List.mem_range.2 hj)
    exact hdoes (readsOnly_refl s) hlt hall (exec_gzro_of_group hctx hs hg hgrid hroom hwait) fun _ _ => rfl
  · have hx : exec (.gbias d a) s = epilogue (.gbias d a) fSum3 d a s := rfl
    exact hdoes (readsOnly_refl s) hmask hactive (exec_epilogue_of_group hctx hs hg hgrid hroom hx hsr hd ha hwait) fun i j =>
      congrArg (BitVec.ofNat 32) (fSum3_f32 ..)
  · have hx : exec (.gscl d a) s = epilogue (.gscl d a) fProduct3 d a s := rfl
    exact hdoes (readsOnly_refl s) hmask hactive (exec_epilogue_of_group hctx hs hg hgrid hroom hx hsr hd ha hwait) fun _ _ => rfl

end Sys2Proof.Proofs
end

