-- ==== Sys2Proof/Proofs/GridEvents.lean ====
section
/-! SUPPORT. The end of a grid operation (R172 to R174), GPACK (R450). -/

namespace Sys2Proof.Machine

open Sys2Proof.Claims

/-! Writing cells to the accumulators. -/

theorem Regs.writeCells_cons (r : Regs) (q : Nat × Word) (cells : FMap Word) :
    r.writeCells (q :: cells) = (r.setV (64 + q.1 % 64) (q.1 / 64) q.2).writeCells cells := rfl

theorem Regs.writeCells_rest (r : Regs) (cells : FMap Word) :
    (r.writeCells cells).o = r.o ∧ (r.writeCells cells).l = r.l ∧ (r.writeCells cells).mode = r.mode ∧ (r.writeCells cells).cvmode = r.cvmode := by
  have h := foldl_keep (fun r : Regs => (r.o, r.l, r.mode, r.cvmode)) (fun r (q : Nat × Word) => r.setV (64 + q.1 % 64) (q.1 / 64) q.2) (fun _ _ => rfl) cells r
  simp only [Prod.mk.injEq] at h
  exact h

/-- The registers below the accumulators stay. -/
theorem Regs.getV_writeCells_low (r : Regs) (cells : FMap Word) {n t : Nat} (hn : n < 64) (ht : t < 64) : (r.writeCells cells).getV n t = r.getV n t := by
  refine foldl_keep (fun r : Regs => r.getV n t) (fun r (q : Nat × Word) => r.setV (64 + q.1 % 64) (q.1 / 64) q.2) (fun r q => ?_) cells r
  have hkey : ¬ (64 + q.1 % 64) * 64 + q.1 / 64 = n * 64 + t := by omega
  simp only [Regs.getV, Regs.setV, FMap.getD_setD, if_neg hkey]

/-- Each accumulator holds its cell, where the operation has one. -/
theorem Regs.getV_writeCells (cells : FMap Word) {lo : Nat} (hrising : FMap.rising lo cells = true) (hlt : ∀ q ∈ cells, q.1 < 4096) (r : Regs) {i j : Nat} (hi : i < 64)
    (hj : j < 64) : (r.writeCells cells).getV (64 + j) i = (FMap.find cells (i * 64 + j)).getD (r.getV (64 + j) i) := by
  induction cells generalizing lo r with
  | nil => rfl
  | cons q cells ih =>
    obtain ⟨k, x⟩ := q
    have hk : k < 4096 := hlt _ List.mem_cons_self
    obtain ⟨-, hrest⟩ : lo ≤ k ∧ FMap.rising (k + 1) cells = true := by simpa [FMap.rising] using hrising
    have hcell : 64 + j = 64 + k % 64 ∧ i = k / 64 ↔ k = i * 64 + j := by omega
    rw [Regs.writeCells_cons, ih hrest fun q hq => hlt q (List.mem_cons_of_mem _ hq), Regs.getV_setV _ (by dsimp only; omega) hi, FMap.find]
    by_cases heq : k = i * 64 + j
    · have hnone : FMap.find cells (i * 64 + j) = none := by
        refine (FMap.find_none_iff _ _).2 fun q hq => ?_
        have := FMap.le_of_rising hrest q hq
        omega
      rw [hnone, if_pos (hcell.2 heq), if_pos heq]
      rfl
    · rw [if_neg fun h => heq (hcell.1 h), if_neg heq]

/-- A note of a change touches the group's spin detector alone. -/
theorem Group.noteChange_eq (g : Group) (changed : Bool) : g.noteChange changed = { g with spin := (g.noteChange changed).spin } := by
  unfold Group.noteChange
  split <;> rfl

/-- The group after its first operation's cells are written. -/
def Group.opDone (g : Group) (op : GridOp) (r : List GridOp) : Group :=
  { g with regs := g.regs.writeCells op.cells, gridOps := r, lastG := if op.isGmm then op.phase else g.lastG }

theorem State.operationDone_of_running {s : State} {gid : Nat} {g : Group} (hg : FMap.find s.groups gid = some g) (hrun : g.status = .running) :
    s.operationDone gid = s := by
  unfold State.operationDone
  simp [hg, hrun]

theorem exec_gridOpComplete_of_due {s : State} {gid : Nat} {g : Group} {op : GridOp} {r : List GridOp} (hg : FMap.find s.groups gid = some g)
    (hops : g.gridOps = op :: r) (hrun : g.status = .running) (hhead : (s.core (coreOf gid)).gridOrder.find? (fun k => decide (hidOf k = hidOf gid)) = some gid)
    (hdue : op.due ≤ s.freeNow (hidOf gid)) : ∃ changed, exec (.gridOpComplete gid) s =
      .next ((s.setGroup gid ((g.opDone op r).noteChange changed)).modCore (coreOf gid) (fun c => { c with gridOrder := c.gridOrder.erase gid })) := by
  have hx : exec (.gridOpComplete gid) s = execGridOpComplete gid s := rfl
  have hgo : ¬ (some gid ≠ some gid ∨ s.freeNow (hidOf gid) < op.due) := by simp; omega
  have hlive : ¬ g.status = .exited := by simp [hrun]
  let g' := (g.opDone op r).noteChange (decide ((g.opDone op r).regs ≠ g.regs))
  have hrun' : g'.status = .running := by
    rw [show g' = { g.opDone op r with spin := g'.spin } from Group.noteChange_eq ..]
    exact hrun
  refine ⟨decide ((g.opDone op r).regs ≠ g.regs), ?_⟩
  rw [hx, execGridOpComplete, hg]
  dsimp only
  rw [hops]
  dsimp only
  rw [hhead, if_neg hgo, if_neg hlive, State.modGroup_of_find (State.find_setGroup ..), State.setGroup_setGroup]
  refine congrArg Host.Outcome.next (State.operationDone_of_running (g := g') ?_ hrun')
  exact State.find_setGroup ..

/-! GPACK. -/

/-- Where GPACK's operands are accepted and no draw is taken, each executing thread is written its packed cells (R450). -/
theorem exec_gpack_of_ctx {s : State} {c : Ctx} {d a : BitVec 8} (hctx : s.ctx = some c) (hs : c.single = false) (hfmt : c.extv.toNat < 16)
    (hok : gpackFormats.contains c.extv.toNat = true) (hd : dst32Ok c.allot d = true) (ha : src32Ok c.allot false a = true) (hwait : c.mustWait true = false)
    {per col : Nat} (hper : 32 / fmtBits c.extv.toNat = per) (hcol : (c.regs.read32 c.xi c.lane a).toNat % 64 / per * per = col)
    (hroom : 64 + col + per ≤ c.allot) (hdraws : cvDraws c c.extv.toNat per = 0) :
    exec (.gpack d a) s = finish c ((encode (.gpack d a)).getD 0#32) (Done.seq s { c with regs := (threadsOf c.exec).foldl (fun r t => r.write32 t d
      (lo32 (packElems (fmtBits c.extv.toNat) ((List.range per).map (fun e =>
        convertTo c.regs.cvmode (modeRnd c.regs.mode) 0 c.extv.toNat (decodeFloat fmtF32 (c.regs.getV (64 + col + e) t).toNat)))))) c.regs }) := by
  have hx : exec (.gpack d a) s = execGpack d a s := rfl
  have hlow : field c.extv.toNat 0 4 = c.extv.toNat := by simp [field]; omega
  have hhigh : field c.extv.toNat 4 20 = 0 := by simp [field]; omega
  have hlane : field (c.regs.read32 c.xi c.lane a).toNat 0 6 = (c.regs.read32 c.xi c.lane a).toNat % 64 := by simp [field]
  have hin : ¬ c.allot < 64 + col + per := by omega
  rw [hx, execGpack, issue_of_ctx hctx (by simp [hs])]
  simp only [hlow, hhigh, hok, hd, ha, hwait, hlane, hper, hcol, hin, hdraws, threadResults_zero, List.foldl_map, decide_true, Bool.and_self, Bool.not_true,
    Bool.false_eq_true, if_false, List.getD_nil]

end Sys2Proof.Machine

namespace Sys2Proof.Proofs

open Sys2Proof.Machine Sys2Proof.Claims

/-- Settles O36: the event's next state has the group `Group.opDone`, up to its spin detector. -/
theorem gridOperationCompletes : Obligations.GridOperationCompletes := by
  unfold Obligations.GridOperationCompletes
  intro s gid g op r hg hops hrun hhead hdue
  obtain ⟨changed, hx⟩ := exec_gridOpComplete_of_due hg hops hrun hhead hdue
  obtain ⟨ho, hl, hmode, hcvmode⟩ := g.regs.writeCells_rest op.cells
  refine ⟨_, hx, keepsMemory_modCore _ _ fun _ => rfl, fun k hk => FMap.find_insert_other _ hk.symm _, _, State.find_setGroup .., ?_⟩
  rw [Group.noteChange_eq]
  refine ⟨rfl, ho, hl, hmode, hcvmode, fun h => if_pos h, fun h => if_neg (by simp [h]), fun n k hn hk => g.regs.getV_writeCells_low op.cells hn hk, ?_⟩
  exact fun hrising hlt i j hi hj => Regs.getV_writeCells op.cells hrising hlt g.regs hi hj

/-- Settles O37: GPACK without draws writes each executing thread's packed cells (`exec_gpack_of_ctx`). -/
theorem gridPackResults : Obligations.GridPackResults := by
  unfold Obligations.GridPackResults
  intro s c d a hctx hs hfmt hok fmt w per col hd ha hwait hroom hdraws
  exact ⟨_, exec_gpack_of_ctx hctx hs hfmt hok hd ha hwait rfl rfl hroom hdraws, received_words ..⟩

end Sys2Proof.Proofs
end

