-- ==== Sys2Proof/Proofs/LinkedGrid.lean ====
section
/-! SUPPORT. The linked GMM (R130, R445): what each of the four members gets, and the columns that they supply. -/

namespace Sys2Proof.Machine

open Sys2Proof.Claims

/-! The members that stand at a linked GMM. -/

/-- A member's group and context are those of a split of the state. -/
def LinkedAt.Stands (s : State) (m : LinkedAt) : Prop := FMap.find s.groups m.gid = some m.g ∧ ∃ sp, m.c = groupCtx m.g m.gid m.entry sp

theorem State.linkedAt_stands {s : State} {gid : Nat} {m : LinkedAt} (h : s.linkedAt gid = some m) : m.Stands s := by
  unfold State.linkedAt at h
  split at h
  · cases h
  · next g hg =>
    split at h
    · cases h
    · obtain ⟨q, -, hq⟩ := List.exists_of_findSome?_eq_some h
      split at hq
      · cases hq
        exact ⟨hg, q.2, rfl⟩
      · cases hq

theorem linkedIds_members {l : List LinkedAt} {s s' : State} {q : List (LinkedAt × Nat × Nat)} (h : linkedIds l s = (.ok q, s')) : q.map Prod.fst = l := by
  induction l generalizing s q with
  | nil =>
    cases h
    rfl
  | cons m r ih =>
    unfold linkedIds at h
    split at h
    · cases h
    · split at h
      · cases h
      · next hr =>
        cases h
        rw [List.map_cons, ih hr]

/-! One member's part. -/

/-- The operation that a member issues (R445, R446). -/
def linkedOp (sparse : Bool) (cols : List GridCol) (phase due : Nat) (q : LinkedAt × Nat × Nat) : GridOp :=
  ⟨phase, due, true, (gmmCells q.1.g q.1.c sparse (bitAt q.1.d 2) q.2.1 q.1.a cols).1⟩

/-- What a member's group is after its part: the operation appended, the split after its instruction. -/
def LinkedDone (sparse : Bool) (cols : List GridCol) (phase : LinkedAt × Nat × Nat → Nat) (q : LinkedAt × Nat × Nat) (g' : Group) : Prop :=
  (∃ due, g'.gridOps = q.1.g.gridOps ++ [linkedOp sparse cols (phase q) due q]) ∧ g'.regs.v = q.1.g.regs.v ∧
  ∃ sp, FMap.find g'.table q.1.entry = some sp ∧ sp.pc = q.1.c.split.pc + 4#64 ∧ sp.wait = .none

section

variable (sparse : Bool) (cols : List GridCol) (phase : LinkedAt × Nat × Nat → Nat)

theorem linkedPart_spec {s : State} {q : LinkedAt × Nat × Nat} (h : q.1.Stands s) :
    (∃ g', FMap.find (linkedPart sparse cols phase s q).groups q.1.gid = some g' ∧ LinkedDone sparse cols phase q g') ∧
    ∀ k, k ≠ q.1.gid → FMap.find (linkedPart sparse cols phase s q).groups k = FMap.find s.groups k := by
  obtain ⟨hg, sp, hc⟩ := h
  have hwho : q.1.c.who = .split q.1.gid q.1.entry := by rw [hc]; rfl
  unfold linkedPart State.pushGridOp
  simp only [State.modGroup_of_find hg]
  generalize max (s.freeNow (hidOf q.1.gid) + 4) (s.gridFree q.1.gid) + phase q = due
  generalize hr : gmmCells q.1.g q.1.c sparse (bitAt q.1.d 2) q.2.1 q.1.a cols = r
  let g1 : Group := { q.1.g with gridOps := q.1.g.gridOps ++ [⟨phase q, due, true, r.1⟩] }
  let s1 := (s.setGroup q.1.gid g1).modCore (coreOf q.1.gid) (fun x => { x with gridOrder := x.gridOrder ++ [q.1.gid] })
  have hg1 : FMap.find s1.groups q.1.gid = some g1 := State.find_setGroup ..
  obtain ⟨last, spin, ht⟩ := State.retire_of_find q.1.c (c := { q.1.c with seed := r.2 }) hwho hg1 (q.1.c.split.pc + 4#64)
  rw [show (s.setGroup q.1.gid g1).modCore (coreOf q.1.gid) _ = s1 from rfl, ht, State.modGroup_of_find (State.find_setGroup ..), State.setGroup_setGroup]
  refine ⟨⟨_, State.find_setGroup .., ⟨due, ?_⟩, ?_, _, FMap.find_insert_same .., rfl, rfl⟩, fun k hk => ?_⟩
  · rw [linkedOp, hr]
    rfl
  · show q.1.c.regs.v = q.1.g.regs.v
    rw [hc]
    rfl
  · exact (FMap.find_insert_other _ hk.symm _).trans (FMap.find_insert_other _ hk.symm _)

theorem foldl_linkedPart {l : List (LinkedAt × Nat × Nat)} {s : State} (hdistinct : (l.map (fun q => q.1.gid)).Nodup) (hstand : ∀ q ∈ l, q.1.Stands s) :
    (∀ q ∈ l, ∃ g', FMap.find (l.foldl (linkedPart sparse cols phase) s).groups q.1.gid = some g' ∧ LinkedDone sparse cols phase q g') ∧
    ∀ k, k ∉ l.map (fun q => q.1.gid) → FMap.find (l.foldl (linkedPart sparse cols phase) s).groups k = FMap.find s.groups k := by
  induction l generalizing s with
  | nil => simp
  | cons x l ih =>
    obtain ⟨hfresh, hdistinct⟩ := List.nodup_cons.1 hdistinct
    obtain ⟨⟨g', hg', hdone⟩, hother⟩ := linkedPart_spec sparse cols phase (hstand x List.mem_cons_self)
    have hne : ∀ q ∈ l, q.1.gid ≠ x.1.gid := fun q hq he => hfresh (List.mem_map.2 ⟨q, hq, he⟩)
    have hstand' : ∀ q ∈ l, q.1.Stands (linkedPart sparse cols phase s x) := fun q hq => by
      obtain ⟨hfind, hsp⟩ := hstand q (List.mem_cons_of_mem _ hq)
      exact ⟨(hother _ (hne q hq)).trans hfind, hsp⟩
    obtain ⟨hdone', hother'⟩ := ih hdistinct hstand'
    rw [List.foldl_cons]
    refine ⟨fun q hq => ?_, fun k hk => ?_⟩
    · obtain rfl | hq := List.mem_cons.1 hq
      · exact ⟨g', (hother' _ hfresh).trans hg', hdone⟩
      · exact hdone' q hq
    · rw [List.map_cons, List.mem_cons, not_or] at hk
      exact (hother' k hk.2).trans (hother k hk.1)

end

/-! The columns. -/

/-- All the columns of a linked GMM (R445). -/
def allCols (sparse : Bool) (l : List (LinkedAt × Nat × Nat)) : List GridCol :=
  ((List.range 4).map (fun m => (l.filter (fun q => decide (q.1.g.ident.grpix % 4 = m))).map (linkedCols sparse))).flatten.flatten

theorem mem_linkedCols (sparse : Bool) (q : LinkedAt × Nat × Nat) (x : GridCol) : x ∈ linkedCols sparse q ↔
    ∃ t, t / 16 = q.1.g.ident.grpix % 4 ∧ q.1.c.split.mask.getLsbD t = true ∧ gmmCol q.1.c.regs sparse q.2.2 t q.1.b = x := by
  simp only [linkedCols, List.mem_filterMap, List.mem_map, List.mem_range, Option.ite_none_right_eq_some, Option.some.injEq]
  constructor
  · rintro ⟨t, ⟨i, hi, rfl⟩, hmask, hx⟩
    exact ⟨_, by omega, hmask, hx⟩
  · rintro ⟨t, ht, hmask, hx⟩
    exact ⟨t, ⟨t % 16, by omega, by omega⟩, hmask, hx⟩

theorem mem_allCols (sparse : Bool) (l : List (LinkedAt × Nat × Nat)) (x : GridCol) : x ∈ allCols sparse l ↔ ∃ q ∈ l, x ∈ linkedCols sparse q := by
  simp only [allCols, List.mem_flatten, List.mem_map, List.mem_range]
  constructor
  · rintro ⟨r, ⟨_, ⟨m, hm, rfl⟩, hr⟩, hx⟩
    obtain ⟨q, hq, rfl⟩ := List.mem_map.1 hr
    exact ⟨q, (List.mem_filter.1 hq).1, hx⟩
  · rintro ⟨q, hq, hx⟩
    refine ⟨_, ⟨_, ⟨q.1.g.ident.grpix % 4, Nat.mod_lt _ (by decide), rfl⟩, List.mem_map.2 ⟨q, List.mem_filter.2 ⟨hq, by simp⟩, rfl⟩⟩, hx⟩

theorem lt_of_mem_allCols {sparse : Bool} {l : List (LinkedAt × Nat × Nat)} {x : GridCol} (hx : x ∈ allCols sparse l) : x.j < 64 := by
  obtain ⟨q, -, hx⟩ := (mem_allCols ..).1 hx
  obtain ⟨t, ht, -, rfl⟩ := (mem_linkedCols ..).1 hx
  show t < 64
  omega

/-- Members of a list whose images are all different are told apart by their images. -/
theorem eq_of_nodup_map {α β : Type} {f : α → β} {l : List α} (h : (l.map f).Nodup) {x y : α} (hx : x ∈ l) (hy : y ∈ l) (he : f x = f y) : x = y := by
  induction l with
  | nil => cases hx
  | cons z l ih =>
    obtain ⟨hz, hl⟩ := List.nodup_cons.1 h
    rcases List.mem_cons.1 hx with hxz | hxl
    · rcases List.mem_cons.1 hy with hyz | hyl
      · rw [hxz, hyz]
      · exact absurd (List.mem_map.2 ⟨y, hyl, by rw [← he, hxz]⟩) hz
    · rcases List.mem_cons.1 hy with hyz | hyl
      · exact absurd (List.mem_map.2 ⟨x, hxl, by rw [he, hyz]⟩) hz
      · exact ih hl hxl hyl

/-- Where the members have different numbers in the lock set, a column comes from the member of its sixteen, from the thread of its number. -/
theorem eq_of_mem_allCols {sparse : Bool} {l : List (LinkedAt × Nat × Nat)} (hparts : (l.map (fun q => q.1.g.ident.grpix % 4)).Nodup) {n : LinkedAt × Nat × Nat} (hn : n ∈ l)
    {x : GridCol} (hx : x ∈ allCols sparse l) (hj : n.1.g.ident.grpix % 4 = x.j / 16) :
    n.1.c.split.mask.getLsbD x.j = true ∧ gmmCol n.1.c.regs sparse n.2.2 x.j n.1.b = x := by
  obtain ⟨q, hq, hx⟩ := (mem_allCols ..).1 hx
  obtain ⟨t, ht, hmask, rfl⟩ := (mem_linkedCols ..).1 hx
  obtain rfl : n = q := eq_of_nodup_map hparts hn hq (hj.trans ht)
  exact ⟨hmask, rfl⟩

theorem mem_allCols_of_mask {sparse : Bool} {l : List (LinkedAt × Nat × Nat)} {n : LinkedAt × Nat × Nat} (hn : n ∈ l) {j : Nat}
    (hj : n.1.g.ident.grpix % 4 = j / 16) (hmask : n.1.c.split.mask.getLsbD j = true) : gmmCol n.1.c.regs sparse n.2.2 j n.1.b ∈ allCols sparse l :=
  (mem_allCols ..).2 ⟨n, hn, (mem_linkedCols ..).2 ⟨j, hj.symm, hmask, rfl⟩⟩

/-! The cells. -/

/-- What a GMM writes to cell (i, j): the step of its row and its column (R442). -/
def gmmCellAt (g : Group) (c : Ctx) (sparse z : Bool) (fa : Nat) (a : BitVec 8) (cols : List GridCol) (i j : Nat) : Word :=
  match ((threadsOf c.exec).map (fun i => (i, gmmElems c.regs fa i a, gmmRowBits sparse c i))).find? (fun q => decide (q.1 = i)),
    cols.find? (fun q => decide (q.j = j)) with
  | some x, some col => gridStep c.regs.mode z (g.cell i j) 0 (gmmProducts x.2.1 x.2.2 col)
  | _, _ => 0#32

theorem gmmCells_eq (g : Group) {c : Ctx} (hsr : modeRndCode c.regs.mode ≠ 5) (sparse z : Bool) (fa : Nat) (a : BitVec 8) (cols : List GridCol) :
    (gmmCells g c sparse z fa a cols).1 =
      (cellsOf (threadsOf c.exec) (cols.map (fun q => q.j))).map (fun q => (q.1 * 64 + q.2, gmmCellAt g c sparse z fa a cols q.1 q.2)) := by
  have hmode : c.modeSr = false := by simp [Ctx.modeSr, hsr]
  unfold gmmCells
  simp only [hmode, cellList_of_no_draw]
  rfl

/-- A cell of an executing row and a supplied column (R442). -/
theorem find_gmmCells (g : Group) {c : Ctx} (hsr : modeRndCode c.regs.mode ≠ 5) (sparse z : Bool) (fa : Nat) (a : BitVec 8) {cols : List GridCol}
    (hlt : ∀ x ∈ cols, x.j < 64) {i j : Nat} (hi : i < 64) (hj : j < 64) {col : GridCol} (hcol : cols.find? (fun x => decide (x.j = j)) = some col)
    (hexec : c.exec.getLsbD i = true) : FMap.find (gmmCells g c sparse z fa a cols).1 (i * 64 + j) =
      some (gridStep c.regs.mode z (g.cell i j) 0 (gmmProducts (gmmElems c.regs fa i a) (gmmRowBits sparse c i) col)) := by
  have hrows : i ∈ threadsOf c.exec := (mem_threadsOf _ _).2 ⟨hi, hexec⟩
  have hin : (i, j) ∈ cellsOf (threadsOf c.exec) (cols.map (fun q => q.j)) :=
    (mem_cellsOf _ _ _ _).2 ⟨hrows, List.mem_map.2 ⟨col, List.mem_of_find?_eq_some hcol, by simpa using List.find?_some hcol⟩⟩
  have hrow := find_of_key (fun i => (i, gmmElems c.regs fa i a, gmmRowBits sparse c i)) Prod.fst (fun _ => rfl) hrows
  have hcells : ∀ q ∈ cellsOf (threadsOf c.exec) (cols.map (fun q => q.j)), q.2 < 64 := fun q hq => by
    obtain ⟨x, hx, he⟩ := List.mem_map.1 ((mem_cellsOf _ _ _ _).1 hq).2
    exact he ▸ hlt x hx
  rw [gmmCells_eq g hsr, find_cells _ _ hcells hj, if_pos hin, gmmCellAt, hrow, hcol]

theorem find_gmmCells_none (g : Group) {c : Ctx} (hsr : modeRndCode c.regs.mode ≠ 5) (sparse z : Bool) (fa : Nat) (a : BitVec 8) {cols : List GridCol}
    (hlt : ∀ x ∈ cols, x.j < 64) {i j : Nat} (hj : j < 64) (hout : ¬ (c.exec.getLsbD i = true ∧ ∃ x ∈ cols, x.j = j)) :
    FMap.find (gmmCells g c sparse z fa a cols).1 (i * 64 + j) = none := by
  have hin : (i, j) ∉ cellsOf (threadsOf c.exec) (cols.map (fun q => q.j)) := fun hmem => by
    obtain ⟨hrow, hcol⟩ := (mem_cellsOf _ _ _ _).1 hmem
    exact hout ⟨((mem_threadsOf _ _).1 hrow).2, by simpa using hcol⟩
  have hcells : ∀ q ∈ cellsOf (threadsOf c.exec) (cols.map (fun q => q.j)), q.2 < 64 := fun q hq => by
    obtain ⟨x, hx, he⟩ := List.mem_map.1 ((mem_cellsOf _ _ _ _).1 hq).2
    exact he ▸ hlt x hx
  rw [gmmCells_eq g hsr, find_cells _ _ hcells hj, if_neg hin]

/-- The products of a cell of a linked GMM. -/
def linkedProducts (sparse : Bool) (m n : LinkedAt × Nat × Nat) (i j : Nat) : List FVal :=
  gmmProducts (gmmElems m.1.c.regs m.2.1 i m.1.a) (gmmRowBits sparse m.1.c i) (gmmCol n.1.c.regs sparse n.2.2 j n.1.b)

/-- The cells of a member after its part: its own rows, and the columns of the member n of those columns. -/
theorem cell_of_linkedDone {sparse : Bool} {l : List (LinkedAt × Nat × Nat)} {phase : LinkedAt × Nat × Nat → Nat} {m n : LinkedAt × Nat × Nat} {g' : Group}
    (hdone : LinkedDone sparse (allCols sparse l) phase m g') (hparts : (l.map (fun q => q.1.g.ident.grpix % 4)).Nodup) (hsr : modeRndCode m.1.c.regs.mode ≠ 5)
    (hn : n ∈ l) {i j : Nat} (hi : i < 64) (hj : j < 64) (hpart : n.1.g.ident.grpix % 4 = j / 16) :
    (m.1.c.exec.getLsbD i = true ∧ n.1.c.split.mask.getLsbD j = true →
      g'.cell i j = gridStep m.1.c.regs.mode (bitAt m.1.d 2) (m.1.g.cell i j) 0 (linkedProducts sparse m n i j)) ∧
    (¬ (m.1.c.exec.getLsbD i = true ∧ n.1.c.split.mask.getLsbD j = true) → g'.cell i j = m.1.g.cell i j) := by
  obtain ⟨⟨due, hops⟩, hv, -⟩ := hdone
  have hlt : ∀ x ∈ allCols sparse l, x.j < 64 := fun x hx => lt_of_mem_allCols hx
  rw [Group.cell_push m.1.g g' _ hops hv, linkedOp]
  constructor
  · rintro ⟨hexec, hmask⟩
    have hcol : (allCols sparse l).find? (fun x => decide (x.j = j)) = some (gmmCol n.1.c.regs sparse n.2.2 j n.1.b) := by
      cases hfind : (allCols sparse l).find? (fun x => decide (x.j = j)) with
      | none => exact absurd (decide_eq_true rfl) (List.find?_eq_none.1 hfind _ (mem_allCols_of_mask hn hpart hmask))
      | some x =>
        obtain rfl : x.j = j := by simpa using List.find?_some hfind
        rw [(eq_of_mem_allCols hparts hn (List.mem_of_find?_eq_some hfind) hpart).2]
    rw [find_gmmCells _ hsr _ _ _ _ hlt hi hj hcol hexec]
    rfl
  · intro hnot
    rw [find_gmmCells_none _ hsr _ _ _ _ hlt hj]
    · rfl
    · rintro ⟨hexec, x, hx, rfl⟩
      exact hnot ⟨hexec, (eq_of_mem_allCols hparts hn hx hpart).1⟩

/-! The instruction. -/

section

variable {s s2 : State} {c : Ctx} {g : Group} (hctx : s.ctx = some c) (hs : c.single = false) (hg : FMap.find s.groups c.gid = some g)
  (hgrid : g.grid = true) (hroom : g.gridOps.length < 255) {a b : BitVec 8} (ha : gmmRegOk c.allot a = true) (hb : gmmRegOk c.allot b = true)
  (hwait : c.mustWait false = false)
include hctx hs hg hgrid hroom ha hb hwait

theorem exec_gmmLinked_of_group {i : Instr} {d : Nat} (hx : exec i s = gmmLinked i d a b s) :
    exec i s = finish c ((encode i).getD 0#32) (gmmLinkedBody d a b g s c) := by
  rw [hx, gmmLinked, issue_of_ctx hctx (by simp [hs])]
  simp only [ha, hb, hwait, Bool.and_self, Bool.not_true, Bool.false_eq_true, if_false]
  rw [inGrid_of_group hg hgrid hroom]

theorem exec_gmmLinked_meets {i : Instr} {d : Nat} (hx : exec i s = gmmLinked i d a b s) (hset : g.ident.lk4 = true) (hfree : NoTokens s c) {f : Nat × Nat}
    (hids : gridIds c true a b s = (.ok f, s2)) (hgone : s2.linkedGone c.gid = false) :
    exec i s = .next (linkedMeet c.gid (s2.stay c c (.linked d a.toNat b.toNat))) := by
  rw [exec_gmmLinked_of_group hctx hs hg hgrid hroom ha hb hwait hx, gmmLinkedBody, hset, withIds_of_ids hfree hids, hgone]
  rfl

end

/-- With fewer than four members there, nothing more happens (R130). -/
theorem linkedMeet_of_few {s : State} {gid : Nat} (h : ((s.lockSet gid).filterMap s.linkedAt).length < 4) : linkedMeet gid s = s := by
  unfold linkedMeet
  exact if_pos h

/-- A member that has left grid mode faults (R445). -/
theorem linkedMeet_of_left {s : State} {gid : Nat} (h : 4 ≤ ((s.lockSet gid).filterMap s.linkedAt).length) {m : LinkedAt}
    (hm : ((s.lockSet gid).filterMap s.linkedAt).find? (fun m => !m.g.grid) = some m) :
    linkedMeet gid s = s.raise m.c m.c ((encode (linkedInstr m.d m.a m.b)).getD 0#32) (.plain fGridState m.c.split.mask) := by
  unfold linkedMeet
  simp only [if_neg (Nat.not_lt.2 h), hm]

/-- With four members that agree, all four run (R445). -/
theorem linkedMeet_of_four {s s4 : State} {gid : Nat} {l : List LinkedAt} (hl : (s.lockSet gid).filterMap s.linkedAt = l) (h : 4 ≤ l.length)
    (hgrid : ∀ m ∈ l, m.g.grid = true) (hsame : ∀ m ∈ l, ∀ n ∈ l, m.d = n.d ∧ m.c.idb = n.c.idb) {sparse : Bool} (hsparse : ∀ m ∈ l, bitAt m.d 0 = sparse)
    {q : List (LinkedAt × Nat × Nat)} (hids : linkedIds l s = (.ok q, s4)) :
    linkedMeet gid s = q.foldl (linkedPart sparse (allCols sparse q) (linkedPhase sparse (allCols sparse q) q)) s4 := by
  have hnone : l.find? (fun m => !m.g.grid) = none := List.find?_eq_none.2 fun m hm => by simp [hgrid m hm]
  have hall : (l.all fun m => l.all fun n => decide (m.d = n.d ∧ m.c.idb = n.c.idb)) = true := by
    simpa only [List.all_eq_true, decide_eq_true_eq] using hsame
  unfold linkedMeet
  simp only [hl, if_neg (Nat.not_lt.2 h), hnone, hall, hids, Bool.not_true, Bool.false_eq_true, if_false]
  cases l with
  | nil => simp at h
  | cons m l => simp only [List.head?_cons, hsparse m List.mem_cons_self, linkedRun, allCols]

end Sys2Proof.Machine

namespace Sys2Proof.Proofs

open Sys2Proof.Machine Sys2Proof.Claims

/-- Settles O35: the body's branches are those of `linkedMeet`; the cells of the four are those of `foldl_linkedPart`. -/
theorem linkedGridResults : Obligations.LinkedGridResults := by
  unfold Obligations.LinkedGridResults
  intro s s2 c g z a b f hctx hs hg hgrid hroom ha hb hwait hfree rowBits colBits product writes linked
  have hproducts : ∀ (sparse : Bool) (m n : LinkedAt × Nat × Nat) (i j : Nat), linkedProducts sparse m n i j = (List.range 16).map (product sparse m n i j) := by
    intro sparse m n i j
    cases sparse with
    | false =>
      refine (gmmProducts_dense ..).trans (List.map_congr_left fun k _ => ?_)
      exact (if_pos (.inl rfl)).symm
    | true =>
      refine (gmmProducts_sparse ..).trans (List.map_congr_left fun k _ => ?_)
      simp only [gmmRowBits, field, if_true, Nat.pow_zero, Nat.div_one, Nat.reducePow, rowBits, colBits, product, Bool.true_eq_false, false_or, Bool.and_eq_true]
  have hlinked : ∀ {i : Instr} {sparse : Bool} {d : Nat}, exec i s = gmmLinked i d a b s → linked i sparse d := by
    intro i sparse d hx
    constructor
    · intro hset
      refine ⟨.plain fLinkPartner c.split.mask, rfl, rfl, rfl, ?_⟩
      rw [exec_gmmLinked_of_group hctx hs hg hgrid hroom ha hb hwait hx, gmmLinkedBody, hset]
      rfl
    intro hset hids hreads hgone s3 l
    have hmeets := exec_gmmLinked_meets hctx hs hg hgrid hroom ha hb hwait hx hset hfree hids hgone
    have hg2 : FMap.find s2.groups c.gid = some g := by rw [readsOnly_groups hreads, hg]
    refine ⟨fun hfew => ⟨?_, waitsFor_stay hctx s2 hs hg2 rfl⟩, fun m hfour hm => ⟨.plain fGridState m.c.split.mask, rfl, rfl, ?_⟩,
      fun q s4 hfour hall hsame hsparse hlids hs4 hdistinct => ?_⟩
    · rw [hmeets, linkedMeet_of_few hfew]
    · rw [hmeets, linkedMeet_of_left hfour hm]
    refine ⟨_, hmeets.trans (congrArg _ (linkedMeet_of_four rfl hfour hall hsame hsparse hlids)), fun m hm => ?_⟩
    have hq : q.map Prod.fst = l := linkedIds_members hlids
    have hgids : (q.map (fun q => q.1.gid)).Nodup := by
      rw [← hq, List.map_map] at hdistinct
      exact hdistinct
    have hstand : ∀ m ∈ q, m.1.Stands s4 := by
      intro m hm
      have hml : m.1 ∈ l := hq ▸ List.mem_map_of_mem hm
      obtain ⟨gid, -, hat⟩ := List.mem_filterMap.1 hml
      rw [LinkedAt.Stands, hs4]
      exact State.linkedAt_stands hat
    obtain ⟨g', hg', hdone⟩ := (foldl_linkedPart sparse (allCols sparse q) (linkedPhase sparse (allCols sparse q) q) hgids hstand).1 m hm
    obtain ⟨⟨due, hops⟩, hv, hsplit⟩ := id hdone
    refine ⟨g', hg', ⟨_, hops, rfl, ?_⟩, hsplit, ?_⟩
    · rintro rfl
      rfl
    · intro hparts hsr n hn i j hi hj hpart
      rw [← hq, List.map_map] at hparts
      rw [← hproducts]
      exact cell_of_linkedDone hdone hparts hsr hn hi hj hpart
  exact ⟨hlinked rfl, hlinked rfl⟩

end Sys2Proof.Proofs
end

