-- ==== Sys2Proof/Proofs/Exceptions.lean ====
section
/-! SUPPORT. Taking an exception (R182): the trapped group, its place in the queue, and what stays; the instructions that trap
on purpose and those that only a handler runs (R185, R454, R455, R461). -/

namespace Sys2Proof.Machine

open Sys2Proof.Claims

/-! The queue for handler contexts. -/

/-- The core of a group that has joined the queue for handler contexts. -/
def Core.queued (x : Core) (gid : Nat) (later : Nat → Bool) : Core :=
  { x with trapQueue := (x.trapQueue.filter (fun k => decide (k ≠ gid))).takeWhile (fun k => !later k) ++ gid ::
      (x.trapQueue.filter (fun k => decide (k ≠ gid))).dropWhile (fun k => !later k) }

theorem Core.mem_queued (x : Core) (gid : Nat) (later : Nat → Bool) : gid ∈ (x.queued gid later).trapQueue :=
  List.mem_append_right _ List.mem_cons_self

/-- The group with a fault, trapped at a tick. -/
def Group.trapped (g : Group) (f : FaultInfo) (tick : Nat) : Group := { g with status := .trapped, fault := some f, spin := .clear, trapTick := tick }

/-- Of those that joined at the same tick, the groups of the later slots stand behind. -/
def State.joinsLater (s : State) (gid k : Nat) : Bool :=
  decide (slotOf gid < slotOf k) && ((FMap.find s.groups k).map (fun g => decide (g.trapTick = s.tick))).getD false

theorem State.trapGroup_of_find {s : State} {gid : Nat} {g : Group} (hg : FMap.find s.groups gid = some g) (f : FaultInfo) :
    ∃ later, s.trapGroup gid f = ((s.setGroup gid (g.trapped f s.tick)).modCore (coreOf gid) (fun x => x.queued gid later)).schedule (.handlerEntry (hidOf gid)) := by
  refine ⟨(s.setGroup gid (g.trapped f s.tick)).joinsLater gid, ?_⟩
  rw [State.trapGroup, State.modGroup_of_find hg, State.queueTrap, State.modGroup_of_find (State.find_setGroup ..), State.setGroup_setGroup]
  rfl

/-! Taking the exception. -/

/-- The split as an exception leaves it: it waits for nothing, and its instruction is no longer in flight. -/
def Split.faulted (sp : Split) : Split := { sp with wait := .none, poisonAct := false, issued := none }

/-- The group of a split that takes an exception. -/
def Group.excepted (g : Group) (c : Ctx) (last : Nat) (f : FaultInfo) (tick : Nat) : Group :=
  Group.trapped { g with table := FMap.insert g.table c.entry c.split.faulted, lastSplit := last } f tick

theorem abortsOf_none (code detail : Nat) : abortsOf 0#64 code detail = [] := by
  rw [abortsOf, (threadsOf_eq_nil _).2 rfl]
  rfl

theorem State.abortInPlace_of_none {s : State} {gid : Nat} {g : Group} (hg : FMap.find s.groups gid = some g) {r : FaultReq} (hopen : g.openLanes r.mask = 0#64) :
    s.abortInPlace gid r = (s.setGroup gid g, 0#64) ∨ s.abortInPlace gid r = (s, 0#64) := by
  unfold State.abortInPlace
  split
  · left
    simp only [hg, State.modGroup_of_find hg, hopen, abortsOf_none]
    rfl
  · exact .inr rfl

/-- An exception for threads outside transactions traps the group of its split, and does no more (R182): the split's context
agrees with the group but for the split itself. -/
theorem State.raise_traps_own {s : State} {c : Ctx} {g : Group} (hwho : c.who = .split c.gid c.entry) (hs : c.single = false) (hg : FMap.find s.groups c.gid = some g)
    (hback : ∀ sp, g.withCtx c.entry { c with split := sp } = { g with table := FMap.insert g.table c.entry sp })
    (word : BitVec 32) {r : FaultReq} (hopen : g.openLanes r.mask = 0#64) (hmask : r.mask ≠ 0#64) (haborts : r.aborts = []) (hpoison : secondPoison c r = false) :
    ∃ last later, s.raise c c word r =
      ((s.setGroup c.gid (g.excepted c last (faultInfo c word r r.mask 0#64) s.tick)).modCore (coreOf c.gid) (fun x => x.queued c.gid later)).schedule
        (.handlerEntry (hidOf c.gid)) := by
  let g1 : Group := { g with table := FMap.insert g.table c.entry c.split.faulted }
  have hput : s.putCtx { c with split := { c.split with wait := .none, poisonAct := false, issued := none } } = s.setGroup c.gid g1 := by
    rw [State.putCtx_of_find (c := { c with split := { c.split with wait := .none, poisonAct := false, issued := none } }) hwho hg, hback]
    rfl
  have hfind : FMap.find (s.setGroup c.gid g1).groups c.gid = some g1 := State.find_setGroup ..
  obtain ⟨last, spin, hnote⟩ := State.noteEnd_of_find c hwho hfind
  let g2 : Group := { g1 with lastSplit := last, spin := spin }
  have hgone : faultAborts g1 r = 0#64 := by
    unfold faultAborts
    split
    · rfl
    · exact hopen
  have hrest : r.mask &&& ~~~0#64 = r.mask := by rw [BitVec.not_zero, BitVec.and_allOnes]
  have hfind2 : FMap.find (s.setGroup c.gid g2).groups c.gid = some g2 := State.find_setGroup ..
  have hplace : ∃ s2, s2 = s.setGroup c.gid g2 ∧ (s.setGroup c.gid g2).abortInPlace c.gid r = (s2, 0#64) := by
    obtain h | h := State.abortInPlace_of_none (r := r) hfind2 hopen
    · exact ⟨_, State.setGroup_setGroup .., h⟩
    · exact ⟨_, rfl, h⟩
  obtain ⟨s2, rfl, hplace⟩ := hplace
  obtain ⟨later, htrap⟩ := State.trapGroup_of_find hfind2 (faultInfo c word r r.mask 0#64)
  refine ⟨last, later, ?_⟩
  unfold State.raise
  rw [if_neg (by simp [hs]), hput]
  simp only [hfind, hgone, hrest, haborts, abortsOf_none, hnote, State.setGroup_setGroup, if_neg hmask, hpoison, List.append_nil]
  simp only [State.abortLanes, List.isEmpty_nil, if_true, Bool.false_eq_true, if_false]
  rw [hplace, htrap, State.setGroup_setGroup]
  rfl

/-- The exception of the issuing split. -/
theorem State.raise_traps {s : State} {c : Ctx} {g : Group} (hctx : s.ctx = some c) (hs : c.single = false) (hg : FMap.find s.groups c.gid = some g)
    (word : BitVec 32) {r : FaultReq} (hopen : g.openLanes r.mask = 0#64) (hmask : r.mask ≠ 0#64) (haborts : r.aborts = []) (hpoison : secondPoison c r = false) :
    ∃ last later, s.raise c c word r =
      ((s.setGroup c.gid (g.excepted c last (faultInfo c word r r.mask 0#64) s.tick)).modCore (coreOf c.gid) (fun x => x.queued c.gid later)).schedule
        (.handlerEntry (hidOf c.gid)) :=
  State.raise_traps_own (who_of_ctx hctx hs) hs hg (Group.withCtx_of_ctx hctx hs hg) word hopen hmask haborts hpoison

/-- What the trap leaves: memory and the other groups as they were, the split and its registers, the fault, the queue. -/
theorem traps_of_raise {s : State} {c : Ctx} {g : Group} (hctx : s.ctx = some c) (hs : c.single = false) (hg : FMap.find s.groups c.gid = some g)
    (word : BitVec 32) {r : FaultReq} (hopen : g.openLanes r.mask = 0#64) (hmask : r.mask ≠ 0#64) (haborts : r.aborts = []) (hpoison : secondPoison c r = false)
    {P : FaultInfo → Prop} (hP : P (faultInfo c word r r.mask 0#64)) :
    KeepsMemory s (s.raise c c word r) ∧ (∀ k, k ≠ c.gid → FMap.find (s.raise c c word r).groups k = FMap.find s.groups k) ∧
      Holds (s.raise c c word r) c c.regs c.seed c.split.faulted ∧ Trapped (s.raise c c word r) c.gid P := by
  obtain ⟨last, later, ht⟩ := State.raise_traps hctx hs hg word hopen hmask haborts hpoison
  have hregs : g.regs = { c.regs with mode := c.keepMode.getD c.regs.mode } ∧ g.srseed = c.seed := by
    have h := Group.withCtx_of_ctx hctx hs hg c.split
    exact ⟨(congrArg Group.regs h).symm, (congrArg Group.srseed h).symm⟩
  rw [ht]
  generalize hg' : g.excepted c last (faultInfo c word r r.mask 0#64) s.tick = g'
  have hsplit : FMap.find g'.table c.entry = some c.split.faulted := by
    rw [← hg']
    exact FMap.find_insert_same ..
  have hmem : KeepsMemory (s.setGroup c.gid g') ((s.setGroup c.gid g').modCore (coreOf c.gid) (fun x => x.queued c.gid later)) := keepsMemory_modCore _ _ fun _ => rfl
  refine ⟨hmem, fun k hk => FMap.find_insert_other _ hk.symm _, ?_, ⟨g', State.find_setGroup .., ?_⟩, ?_⟩
  · exact holds_setGroup s (who_of_ctx hctx hs) (by rw [← hg']; exact hregs.1) (by rw [← hg']; exact hregs.2) hsplit
  · rw [← hg']
    exact ⟨rfl, _, rfl, hP⟩
  · have hcore := State.core_modCore (s.setGroup c.gid g') (coreOf c.gid) (coreOf c.gid) (fun x => x.queued c.gid later)
    rw [if_pos rfl] at hcore
    exact (congrArg Core.trapQueue hcore) ▸ Core.mem_queued ..

/-! An instruction in flight. -/

/-- A split whose memory instruction has issued and waits for nothing more. -/
def inFlightSplit : Split := ⟨~~~0#64, BitVec.ofNat 64 placeAt, none, .clear, .none, none, false, 0, some ⟨1#32, ~~~0#64⟩⟩

/-- A group with one split whose memory instruction is in flight (R313), issuing. -/
def inFlightState : State :=
  { State.reset with groups := [(0, { placeGroup with table := [(0, inFlightSplit)] })], turn := { State.reset.turn with cur := some (.split 0 0) } }

def inFlightCtx : Ctx := groupCtx { placeGroup with table := [(0, inFlightSplit)] } 0 0 inFlightSplit

theorem raise_clears_issued : ((inFlightState.raise inFlightCtx inFlightCtx 0#32 (.plain fIllegalOp (~~~0#64))).ctxOf (some (.split 0 0))).map (fun c => c.split.issued) =
    some none := by decide

/-! Instructions that the handler does not run. -/

/-- An instruction outside R455 is issued for a split alone. -/
theorem exec_of_notInHandler {i : Instr} (h : notInHandler i = true) (s : State) : ∃ m, exec i s = issue i false m s := by
  cases i <;> cases h <;> dsimp only [exec, execBow, execCpy, execGthr, execGbag, execSctr, execColl, execChain, execNpost, execGmm, execGbias,
    execGmmSparse, execGmmLinked, execGmmLinkedSparse, execGscl, execGstp, execGldp] <;> exact ⟨_, rfl⟩

theorem State.raise_single {c : Ctx} (hs : c.single = true) (s : State) (word : BitVec 32) (r : FaultReq) :
    s.raise c c word r = (s.reportError c.gid 1 0x11 c.split.pc).haltGroup c.gid := by
  rw [State.raise, if_pos hs]
  rfl

/-! The instructions that only a handler runs, in a split. -/

section

variable {s : State} {c : Ctx} {g : Group} (hctx : s.ctx = some c) (hs : c.single = false) (hg : FMap.find s.groups c.gid = some g)
include hctx hs hg

theorem exec_privileged {i : Instr} {ok : Group → Ctx → Bool} {f : Nat → Handler → Group → State → Ctx → Done} (hx : exec i s = privileged i ok f s)
    (hok : ok g c = true) : exec i s = .next (s.raise c c ((encode i).getD 0#32) (.plain fPriv c.split.mask)) := by
  rw [hx, privileged, issue_of_ctx hctx (by simp [hs]), withGroup, hg]
  simp only [hok, who_of_ctx hctx hs, Bool.not_true, Bool.false_eq_true, if_false]
  rfl

end

end Sys2Proof.Machine

namespace Sys2Proof.Proofs

open Sys2Proof.Machine Sys2Proof.Claims

/-- Refutes O39: of a split whose instruction has issued (R313), the exception clears the note of the issue, where the statement
keeps every field of the split but its wait and its poison mark. -/
theorem not_takingAnException : ¬ Obligations.TakingAnException := by
  unfold Obligations.TakingAnException
  rintro ⟨h, -⟩
  obtain ⟨-, -, -, ⟨c', hc', -, -, hsplit⟩, -⟩ := h inFlightState inFlightCtx 0#32 (.plain fIllegalOp (~~~0#64)) rfl rfl (fun g hg => by cases hg; rfl)
    (by decide) rfl (by decide)
  have hnone := raise_clears_issued
  rw [show some (Issuer.split 0 0) = some inFlightCtx.who from rfl, hc', Option.map_some, hsplit] at hnone
  cases hnone

/-- Settles O41: the trap kinds and PRIV are raised for the whole split (`traps_of_raise`). -/
theorem trapInstructionResults : Obligations.TrapInstructionResults := by
  unfold Obligations.TrapInstructionResults
  refine ⟨fun s c i hctx hs hnot => ?_, ?_⟩
  · obtain ⟨m, hx⟩ := exec_of_notInHandler hnot s
    rw [hx, issue, hctx]
    simp only [hs, Bool.not_false, Bool.and_self, if_true]
    rw [State.raise_single hs]
  · intro s c d a b n hctx hnone hs hmask traps priv
    obtain ⟨g, hg⟩ := group_of_ctx hctx
    have hopen : g.openLanes c.split.mask = 0#64 := Group.openLanes_sub (hnone g hg)
    have hraise : ∀ {i : Instr} {r : FaultReq} {P : FaultInfo → Prop}, exec i s = .next (s.raise c c ((encode i).getD 0#32) r) → r.mask = c.split.mask → r.aborts = [] →
        r.poison = false → P (faultInfo c ((encode i).getD 0#32) r r.mask 0#64) → traps i P := by
      intro i r P hx hr haborts hpoison hP
      obtain ⟨hmem, hother, hholds, htrapped⟩ := traps_of_raise hctx hs hg ((encode i).getD 0#32) (r := r) (hr ▸ hopen) (hr ▸ hmask) haborts (by simp [secondPoison, hpoison])
        (P := fun f => f.mask = c.split.mask ∧ f.pc = c.split.pc ∧ P f) ⟨hr, rfl, hP⟩
      exact ⟨_, hx, hmem, hother, hholds, htrapped⟩
    have hpriv : ∀ {i : Instr}, exec i s = .next (s.raise c c ((encode i).getD 0#32) (.plain fPriv c.split.mask)) → priv i :=
      fun hx => hraise hx rfl rfl rfl ⟨rfl, rfl⟩
    have htrap : exec (.trap n) s = .next (s.raise c c ((encode (.trap n)).getD 0#32) (trapReq c fUserTrap n.toNat)) := by
      have hx : exec (.trap n) s = execTrap n s := rfl
      rw [hx, execTrap, issue_of_ctx hctx (by simp [hs])]
      rfl
    have hdbrk : exec .dbrk s = .next (s.raise c c ((encode .dbrk).getD 0#32) (trapReq c fBreakpoint 0)) := by
      have hx : exec .dbrk s = execDbrk s := rfl
      rw [hx, execDbrk, issue_of_ctx hctx (by simp [hs])]
      rfl
    refine ⟨hraise htrap rfl rfl rfl ⟨rfl, rfl, rfl⟩, hraise hdbrk rfl rfl rfl ⟨rfl, rfl⟩, hpriv (exec_privileged hctx hs hg rfl rfl), hpriv (exec_privileged hctx hs hg rfl rfl),
      hpriv (exec_privileged hctx hs hg rfl rfl), fun ha => hpriv (exec_privileged hctx hs hg rfl ha), fun ha hb => hpriv (exec_privileged hctx hs hg rfl (by simp [ha, hb])), ?_⟩
    intro g' hg' ha hb
    obtain rfl : g = g' := Option.some.inj (hg.symm.trans hg')
    exact ⟨fun hd => hpriv (exec_privileged hctx hs hg rfl (by simp [ha, hb, hd])), fun hd => hpriv (exec_privileged hctx hs hg rfl (by simp [ha, hb, hd]))⟩

end Sys2Proof.Proofs
end

