-- ==== Sys2Proof/Proofs/StatusResults.lean ====
section
/-! SUPPORT. SRD and SWR (R320, R321, R462 to R464) in a split, and the MODE that FPT records (R470). -/

namespace Sys2Proof.Machine

open Sys2Proof.Claims

/-- A split that retires after its group alone has changed: it goes on, nothing else has changed, and its group is known. -/
theorem retire_own {s s' : State} {c : Ctx} {g' : Group} (hctx : s.ctx = some c) (hs : c.single = false) (hset : ∀ x, s'.setGroup c.gid x = s.setGroup c.gid x)
    (hg' : FMap.find s'.groups c.gid = some g') (regs : Regs) (seed : Word) (npc : BitVec 64) :
    GoesOn (s'.retire c { c with regs := regs, seed := seed } npc) c regs seed npc ∧ OnlyIssuer s c (s'.retire c { c with regs := regs, seed := seed } npc) ∧
      ∃ table last spin, FMap.find (s'.retire c { c with regs := regs, seed := seed } npc).groups c.gid =
        some { g' with regs := { regs with mode := c.keepMode.getD regs.mode }, srseed := seed, table := table, lastSplit := last, spin := spin } := by
  have hwho := who_of_ctx hctx hs
  obtain ⟨last, spin, ht⟩ := State.retire_of_find c (c := { c with regs := regs, seed := seed }) hwho hg' npc
  rw [ht, hset]
  exact ⟨holds_setGroup s hwho rfl rfl (FMap.find_insert_same ..), onlyIssuer_setGroup .., _, last, spin, State.find_setGroup ..⟩

theorem setGroup_of_modGroup {s : State} {k : Nat} {g : Group} (hg : FMap.find s.groups k = some g) (f : Group → Group) (x : Group) :
    (s.modGroup k f).setGroup k x = s.setGroup k x := by
  rw [State.modGroup_of_find hg, State.setGroup_setGroup]

theorem find_modGroup_same {s : State} {k : Nat} {g : Group} (hg : FMap.find s.groups k = some g) (f : Group → Group) :
    FMap.find (s.modGroup k f).groups k = some (f g) := by
  rw [State.modGroup_of_find hg, State.find_setGroup]

/-! Status registers. -/

/-- SWR's end once its operand may be read: the value is refused, or written (R462). -/
def swrEnd (allot n : Nat) (x : Word) (s : State) (c : Ctx) : Done :=
  match swrCheck allot n x with
  | some k => Done.early s c k
  | none => swrWrite n x s c

theorem swrEnd_of_refused {allot n k : Nat} {x : Word} (h : swrCheck allot n x = some k) (s : State) (c : Ctx) : swrEnd allot n x s c = Done.early s c k := by
  simp only [swrEnd, h]

theorem swrEnd_of_accepted {allot n : Nat} {x : Word} (h : swrCheck allot n x = none) (s : State) (c : Ctx) : swrEnd allot n x s c = swrWrite n x s c := by
  simp only [swrEnd, h]

section

variable {s : State} {c : Ctx} {g : Group} (hctx : s.ctx = some c) (hs : c.single = false) (hg : FMap.find s.groups c.gid = some g)
include hctx hg

theorem exec_srd_of_group (d : BitVec 8) {n : BitVec 16} (hn : n.toNat < 0x1A) (hd : dst32Ok c.allot d = true) (hwait : c.accWait (touchesAcc 1 d) = false) :
    exec (.srd d n) s = finish c ((encode (.srd d n)).getD 0#32)
      (if n.toNat = 0x0E ∨ n.toNat = 0x0F then Done.seq (s.captureClock c.gid n.toNat g).2 (c.put32 d (s.captureClock c.gid n.toNat g).1)
       else Done.seq s { c with regs := (threadsOf c.split.mask).foldl (fun r t => r.write32 t d (s.statusReg c g n.toNat t)) c.regs }) := by
  have hx : exec (.srd d n) s = execSrd d n s := rfl
  have hlt : ¬ 0x1A ≤ n.toNat := by omega
  rw [hx, execSrd, issue_of_ctx hctx fun _ => rfl, withGroup, hg]
  simp only [hlt, hd, hwait, Bool.not_true, Bool.false_eq_true, if_false]

theorem exec_swr_of_group {d : BitVec 8} {n : BitVec 16} (hn : n.toNat < 0x1A) (hd : src32Ok c.allot false d = true) (hallowed : swrAllowed c.single n.toNat = true)
    (hwait : c.accWait (touchesAcc 1 d) = false) :
    exec (.swr d n) s = finish c ((encode (.swr d n)).getD 0#32) (swrEnd g.ident.allot n.toNat (c.regs.read32 c.xi c.lane d) s c) := by
  have hx : exec (.swr d n) s = execSwr d n s := rfl
  have hlt : ¬ 0x1A ≤ n.toNat := by omega
  rw [hx, execSwr, issue_of_ctx hctx fun _ => rfl, withGroup, hg]
  simp only [hlt, hd, hallowed, hwait, Bool.not_true, Bool.false_eq_true, if_false]
  rfl

theorem raises_of_no_register (d : BitVec 8) {n : BitVec 16} (hn : 0x1A ≤ n.toNat) :
    Raises (.srd d n) s c fIllegalOp c.split.mask 0#64 ∧ Raises (.swr d n) s c fIllegalOp c.split.mask 0#64 := by
  have hread : exec (.srd d n) s = execSrd d n s := rfl
  have hwrite : exec (.swr d n) s = execSwr d n s := rfl
  refine ⟨⟨.plain fIllegalOp c.split.mask, rfl, rfl, rfl, ?_⟩, .plain fIllegalOp c.split.mask, rfl, rfl, rfl, ?_⟩
  · rw [hread, execSrd, issue_of_ctx hctx fun _ => rfl, withGroup, hg]
    simp only [hn, if_true]
    rfl
  · rw [hwrite, execSwr, issue_of_ctx hctx fun _ => rfl, withGroup, hg]
    simp only [hn, if_true]
    rfl

theorem raises_of_not_writable {d : BitVec 8} {n : BitVec 16} (hn : n.toNat < 0x1A) (hd : src32Ok c.allot false d = true)
    (hallowed : swrAllowed c.single n.toNat = false) : Raises (.swr d n) s c fPriv c.split.mask 0#64 := by
  have hx : exec (.swr d n) s = execSwr d n s := rfl
  have hlt : ¬ 0x1A ≤ n.toNat := by omega
  refine ⟨.plain fPriv c.split.mask, rfl, rfl, rfl, ?_⟩
  rw [hx, execSwr, issue_of_ctx hctx fun _ => rfl, withGroup, hg]
  simp only [hlt, hd, hallowed, Bool.not_true, Bool.not_false, Bool.false_eq_true, if_false, if_true]
  rfl

end

theorem swrWrite_mode {c : Ctx} (hs : c.single = false) (x : Word) (s : State) :
    swrWrite 0x01 x s c = Done.seq s { c with regs := { c.regs with mode := (x.setWidth 24).setWidth 32 } } := by
  simp only [swrWrite, setModes, hs, Bool.false_eq_true, if_false]

theorem swrWrite_cvmode {c : Ctx} (hs : c.single = false) (x : Word) (s : State) :
    swrWrite 0x02 x s c = Done.seq s { c with regs := { c.regs with cvmode := x } } := by
  simp only [swrWrite, setModes, hs, Bool.false_eq_true, if_false]

/-- The captured tick count: nothing but the group's clock changes (R463). -/
theorem State.captureClock_spec {s : State} {gid : Nat} {g : Group} (hg : FMap.find s.groups gid = some g) (n : Nat) :
    ∃ clock, (∀ x, (s.captureClock gid n g).2.setGroup gid x = s.setGroup gid x) ∧ FMap.find (s.captureClock gid n g).2.groups gid = some { g with clock := clock } := by
  unfold State.captureClock
  dsimp only
  split
  · exact ⟨_, setGroup_of_modGroup hg _, find_modGroup_same hg _⟩
  · split
    · exact ⟨g.clock, fun _ => rfl, hg⟩
    · exact ⟨_, setGroup_of_modGroup hg _, find_modGroup_same hg _⟩

theorem State.captureClock_high (s : State) (gid : Nat) (g : Group) : (s.captureClock gid 0x0F g).1 = hi32 (g.clock.getD (BitVec.ofNat 64 s.tick)) := by
  unfold State.captureClock
  cases g.clock <;> rfl

/-- The registers that SRD shows of the issuing split are those of its group (R320). -/
theorem regs_of_split {s : State} {c : Ctx} {g : Group} (hctx : s.ctx = some c) (hs : c.single = false) (hg : FMap.find s.groups c.gid = some g) :
    c.regs.v = g.regs.v ∧ c.regs.o = g.regs.o ∧ c.regs.l = g.regs.l ∧ c.regs.cvmode = g.regs.cvmode ∧ c.seed = g.srseed ∧ c.allot = g.ident.allot ∧
      (c.split.issued = none → c.keepMode = none) ∧ c.keepMode.getD c.regs.mode = g.regs.mode := by
  obtain ⟨g0, hg0, hsp, hc, -⟩ := split_of_ctx hctx hs
  obtain rfl : g0 = g := Option.some.inj (hg0.symm.trans hg)
  rw [hc]
  refine ⟨rfl, rfl, rfl, rfl, rfl, rfl, fun h => ?_, ?_⟩
  · simp only [groupCtx] at h ⊢
    simp [h]
  · cases hi : c.split.issued <;> simp [groupCtx, hi]

/-! The recorded point. -/

/-- The MODE that group 0's point holds after an instruction. -/
def pointMode (o : Host.Outcome State Fault Refusal) : Option Word :=
  match o with
  | .next t => (FMap.find t.groups 0).map (fun g => g.fp.mode)
  | _ => none

theorem fpt_of_inFlight : pointMode (exec (.fpt 0#8) inFlightState) = some 1#32 := by decide

end Sys2Proof.Machine

namespace Sys2Proof.Proofs

open Sys2Proof.Machine Sys2Proof.Claims

/-- Settles O42: SRD writes `State.statusReg`, or the captured clock, to each thread of the mask; SWR writes its one register. -/
theorem statusRegisterResults : Obligations.StatusRegisterResults := by
  unfold Obligations.StatusRegisterResults
  intro s c g d n hctx hg hs reads x writes
  obtain ⟨hv, ho, hl, hcvmode, hseed, hallot, hkeep, hmode⟩ := regs_of_split hctx hs hg
  refine ⟨fun hd hwait => ?srd, fun hn => ⟨?_, ?_⟩, fun hd hn hallowed => ?_, fun hd hwait => ?swr⟩
  case srd =>
    have hreads : ∀ (m : Nat) (f : Nat → Word), n = BitVec.ofNat 16 m → m < 0x1A ∧ m ≠ 0x0E ∧ m ≠ 0x0F → (∀ t, s.statusReg c g m t = f t) → reads f := by
      rintro m f hnm ⟨hlt, he, hf⟩ hreg
      have hm : n.toNat = m := by rw [hnm, BitVec.toNat_ofNat]; omega
      have hx := exec_srd_of_group hctx hg d (n := n) (hm ▸ hlt) hd hwait
      rw [if_neg (by omega), hm, funext hreg] at hx
      obtain ⟨hgoes, honly, -⟩ := retire_own hctx hs (fun _ => rfl) hg ((threadsOf c.split.mask).foldl (fun r t => r.write32 t d (f t)) c.regs) c.seed (c.split.pc + 4#64)
      exact ⟨_, _, hx, hgoes, honly, received_words ..⟩
    have hclock : ∀ (m : Nat) (x : Word), n = BitVec.ofNat 16 m → m = 0x0E ∨ m = 0x0F → (s.captureClock c.gid m g).1 = x → reads (fun _ => x) := by
      rintro m x hnm hclk rfl
      have hm : n.toNat = m := by rw [hnm, BitVec.toNat_ofNat]; omega
      have hx := exec_srd_of_group hctx hg d (n := n) (by omega) hd hwait
      rw [if_pos (hm ▸ hclk), hm] at hx
      obtain ⟨clock, hset, hfind⟩ := State.captureClock_spec hg m
      obtain ⟨hgoes, honly, -⟩ := retire_own hctx hs hset hfind (c.put32 d (s.captureClock c.gid m g).1).regs c.seed (c.split.pc + 4#64)
      exact ⟨_, _, hx, hgoes, honly, Ctx.put32_received ..⟩
    have hsplit : ∀ t, statusLane c g t = t := fun t => by simp [statusLane, hs]
    refine ⟨fun h => hreads 0x00 _ h (by decide) fun _ => rfl, fun h => hreads 0x01 _ h (by decide) fun _ => if_neg (by simp [hs]),
      fun h => hreads 0x02 _ h (by decide) fun _ => (if_neg (by simp [hs])).trans hcvmode, fun h => hreads 0x03 _ h (by decide) fun _ => congrArg lo32 (if_neg (by simp [hs])),
      fun h => hreads 0x04 _ h (by decide) fun _ => congrArg hi32 (if_neg (by simp [hs])), fun h => hreads 0x05 _ h (by decide) fun _ => rfl,
      fun h => hreads 0x09 _ h (by decide) fun _ => rfl, fun h => hreads 0x0A _ h (by decide) fun _ => rfl, fun h => hreads 0x0B _ h (by decide) fun _ => rfl,
      fun h => hreads 0x0C _ h (by decide) fun _ => rfl, fun h => hclock 0x0E _ h (.inl rfl) (lo32_ofNat _), fun h => hclock 0x0F _ h (.inr rfl) (State.captureClock_high ..),
      fun h => hreads 0x10 _ h (by decide) fun _ => rfl, fun h => hreads 0x11 _ h (by decide) fun t => congrArg (fun k => (g.lane k).word) (hsplit t),
      fun h => hreads 0x12 _ h (by decide) fun _ => rfl, fun h => hreads 0x13 _ h (by decide) fun _ => hseed, fun h => hreads 0x14 _ h (by decide) fun _ => rfl,
      fun h => hreads 0x15 _ h (by decide) fun _ => rfl, fun h => hreads 0x19 _ h (by decide) fun _ => rfl, fun hlt => ?_⟩
    have hn : n = BitVec.ofNat 16 n.toNat := (BitVec.ofNat_toNat 16 n).symm
    by_cases hclk : n.toNat = 0x0E ∨ n.toNat = 0x0F
    · exact ⟨_, hclock _ _ hn hclk rfl⟩
    · exact ⟨_, hreads _ _ hn ⟨hlt, by omega, by omega⟩ fun _ => rfl⟩
  · exact (raises_of_no_register hctx hg d hn).1
  · exact (raises_of_no_register hctx hg d hn).2
  · exact raises_of_not_writable hctx hg hn hd (hs ▸ hallowed)
  case swr =>
    have hexec : ∀ m, n = BitVec.ofNat 16 m → m < 0x1A → swrAllowed false m = true → exec (.swr d n) s = finish c ((encode (.swr d n)).getD 0#32)
        (swrEnd g.ident.allot m x s c) := by
      intro m hnm hlt hallowed
      have hm : n.toNat = m := by rw [hnm, BitVec.toNat_ofNat]; omega
      have hx := exec_swr_of_group hctx hg (n := n) (hm ▸ hlt) hd (by rw [hs, hm, hallowed]) hwait
      rw [hm] at hx
      exact hx
    have hwrites : ∀ {s' : State} {g' : Group} {regs : Regs} {seed : Word} {P : Group → Prop},
        exec (.swr d n) s = finish c ((encode (.swr d n)).getD 0#32) (Done.seq s' { c with regs := regs, seed := seed }) →
        (∀ x, s'.setGroup c.gid x = s.setGroup c.gid x) →
        FMap.find s'.groups c.gid = some g' → regs.v = c.regs.v → regs.o = c.regs.o → regs.l = c.regs.l →
        (∀ table last spin, P { g' with regs := { regs with mode := c.keepMode.getD regs.mode }, srseed := seed, table := table, lastSplit := last, spin := spin }) → writes P := by
      intro s' g' regs seed P hx hset hg' hrv hro hrl hP
      obtain ⟨hgoes, honly, table, last, spin, hfind⟩ := retire_own hctx hs hset hg' regs seed (c.split.pc + 4#64)
      exact ⟨_, hx, honly, pcOf_of_holds hgoes, _, hfind, hP _ _ _, hrv.trans hv, hro.trans ho, hrl.trans hl⟩
    have hraises : ∀ m k, n = BitVec.ofNat 16 m → m < 0x1A → swrAllowed false m = true → swrCheck g.ident.allot m x = some k →
        Raises (.swr d n) s c k c.split.mask 0#64 := by
      intro m k hnm hlt hallowed hcheck
      have hx := hexec m hnm hlt hallowed
      rw [swrEnd_of_refused hcheck] at hx
      exact ⟨.plain k c.split.mask, rfl, rfl, rfl, hx⟩
    refine ⟨fun h hissued hok hguard => ?_, fun h hbad => ?_, fun h hok => ?_, fun h hbad => ?_, fun h => ?_, fun h => ?_, fun h => ?_⟩
    · have hx := hexec 0x01 h (by decide) rfl
      have hcheck : swrCheck g.ident.allot 0x01 x = none := by simp [swrCheck, hok, hguard]
      rw [swrEnd_of_accepted hcheck, swrWrite_mode hs] at hx
      have hmask : (x.setWidth 24).setWidth 32 = x &&& 0xFFFFFF#32 := by
        refine BitVec.eq_of_toNat_eq ?_
        rw [BitVec.toNat_setWidth, BitVec.toNat_setWidth, BitVec.toNat_and]
        have hlow : x.toNat &&& (0xFFFFFF#32).toNat = x.toNat % 2 ^ 24 := Nat.and_two_pow_sub_one_eq_mod x.toNat 24
        rw [hlow]
        omega
      refine hwrites hx (fun _ => rfl) hg rfl rfl rfl fun _ _ _ => ?_
      rw [hkeep hissued]
      exact hmask
    · exact hraises 0x01 _ h (by decide) rfl (by simp [swrCheck, hbad])
    · have hx := hexec 0x02 h (by decide) rfl
      have hcheck : swrCheck g.ident.allot 0x02 x = none := by simp [swrCheck, hok]
      rw [swrEnd_of_accepted hcheck, swrWrite_cvmode hs] at hx
      exact hwrites hx (fun _ => rfl) hg rfl rfl rfl fun _ _ _ => rfl
    · exact hraises 0x02 _ h (by decide) rfl (by simp [swrCheck, hbad])
    · exact hwrites (hexec 0x12 h (by decide) rfl) (setGroup_of_modGroup hg _) (find_modGroup_same hg _) rfl rfl rfl fun _ _ _ => rfl
    · exact hwrites (hexec 0x13 h (by decide) rfl) (fun _ => rfl) hg rfl rfl rfl fun _ _ _ => rfl
    · exact hwrites (hexec 0x14 h (by decide) rfl) (setGroup_of_modGroup hg _) (find_modGroup_same hg _) rfl rfl rfl fun _ _ _ => rfl

/-- Refutes O45: FPT records the MODE of its context, which for a split whose instruction has issued (R313) is the MODE of that
issue, where the statement asks for the MODE of the group. -/
theorem not_waitAndPointResults : ¬ Obligations.WaitAndPointResults := by
  unfold Obligations.WaitAndPointResults
  intro h
  obtain ⟨-, -, -, -, hfpt, -⟩ := h inFlightState inFlightCtx { placeGroup with table := [(0, inFlightSplit)] } 0#8 rfl rfl rfl
  obtain ⟨t, hx, -, -, g', hg', -, -, -, -, -, -, hmode, -⟩ := (hfpt (by decide) rfl).2 (by decide) (fun q hq => by cases hq)
  have hfind : FMap.find t.groups 0 = some g' := hg'
  have hrecorded := fpt_of_inFlight
  rw [hx, pointMode, hfind, Option.map_some, hmode] at hrecorded
  exact absurd hrecorded (by decide)

end Sys2Proof.Proofs
end

