-- ==== Sys2Proof/Proofs/HandlerResults.lean ====
section
/-! SUPPORT. Halting a group (R185, R468), the handler's entry (R182, R456, R457) and the handler's instructions (R465, R466, R468). -/

namespace Sys2Proof.Machine

open Sys2Proof.Claims

/-! The status of groups. -/

/-- Every group of t is one of s, with the same status. -/
def SameStatuses (s t : State) : Prop := ∀ k g', FMap.find t.groups k = some g' → ∃ g, FMap.find s.groups k = some g ∧ g'.status = g.status

theorem sameStatuses_of_groups {s t : State} (h : t.groups = s.groups) : SameStatuses s t := fun k g' hg' => ⟨g', by rw [← h, hg'], rfl⟩

theorem SameStatuses.trans {s t u : State} (h : SameStatuses s t) (h' : SameStatuses t u) : SameStatuses s u := by
  intro k g' hg'
  obtain ⟨g1, hg1, hs1⟩ := h' k g' hg'
  obtain ⟨g, hg, hs⟩ := h k g1 hg1
  exact ⟨g, hg, hs1.trans hs⟩

theorem sameStatuses_modGroup (s : State) (k : Nat) {f : Group → Group} (hf : ∀ g, (f g).status = g.status) : SameStatuses s (s.modGroup k f) := by
  intro j g' hg'
  unfold State.modGroup at hg'
  split at hg'
  · next g hg =>
    by_cases hj : k = j
    · subst hj
      rw [State.find_setGroup] at hg'
      cases hg'
      exact ⟨g, hg, hf g⟩
    · exact ⟨g', by rw [← hg']; exact (FMap.find_insert_other _ hj _).symm, rfl⟩
  · exact ⟨g', hg', rfl⟩

theorem sameStatuses_foldl {β : Type} {f : State → β → State} (h : ∀ s b, SameStatuses s (f s b)) (l : List β) (s : State) : SameStatuses s (l.foldl f s) := by
  induction l generalizing s with
  | nil => exact sameStatuses_of_groups rfl
  | cons b l ih => exact (h s b).trans (ih _)

/-- A barrier's phase, completed: blocks and cores may change, and splits of the groups listed go on. -/
theorem sameStatuses_phase {s s' : State} (h : s'.groups = s.groups) (l : List (Nat × Group)) (f : Group → Group) (hf : ∀ g, (f g).status = g.status) :
    SameStatuses s (l.foldl (fun s q => s.modGroup q.1 f) s') :=
  (sameStatuses_of_groups h).trans (sameStatuses_foldl (fun s q => sameStatuses_modGroup s q.1 hf) l s')

theorem sameStatuses_evalBar (s : State) (b id : Nat) : SameStatuses s (s.evalBar b id) := by
  unfold State.evalBar
  split
  · exact sameStatuses_of_groups rfl
  split
  · exact sameStatuses_of_groups rfl
  dsimp only
  split
  · split
    · refine SameStatuses.trans (sameStatuses_phase (State.modBlock_groups ..) _ _ ?_) (sameStatuses_of_groups (State.dropL1_groups ..))
      exact fun _ => rfl
    · refine sameStatuses_phase (State.modBlock_groups ..) _ _ ?_
      exact fun _ => rfl
  · exact sameStatuses_of_groups rfl

theorem sameStatuses_evalBarg (s : State) (grid x id : Nat) : SameStatuses s (s.evalBarg grid x id) := by
  unfold State.evalBarg
  split
  · exact sameStatuses_of_groups rfl
  dsimp only
  split
  · refine SameStatuses.trans (sameStatuses_phase (State.modGrid_groups ..) _ _ ?_) (sameStatuses_foldl (fun s b => ?_) _ _)
    · exact fun _ => rfl
    · exact sameStatuses_of_groups (State.dropL1_groups ..)
  · exact sameStatuses_of_groups rfl

theorem sameStatuses_evalBarriers (s : State) (gid : Nat) : SameStatuses s (s.evalBarriers gid) := by
  unfold State.evalBarriers
  split
  · exact sameStatuses_of_groups rfl
  dsimp only
  have hblock := fun bk => sameStatuses_foldl (fun s id => sameStatuses_evalBar s bk id) (List.range 16) s
  split
  · split
    · exact hblock _
    · exact (hblock _).trans (sameStatuses_foldl (fun s id => sameStatuses_evalBarg s _ _ id) _ _)
  · exact hblock _

theorem sameStatuses_wakeLinked (s : State) (gid : Nat) : SameStatuses s (s.wakeLinked gid) := by
  refine sameStatuses_foldl (fun s k => sameStatuses_modGroup s k ?_) _ _
  exact fun _ => rfl

theorem sameStatuses_releaseBlock (s : State) (bk : Nat) : SameStatuses s (s.releaseBlock bk) := by
  unfold State.releaseBlock
  split
  · exact sameStatuses_of_groups rfl
  next b hb =>
  split
  · intro k g' hg'
    have hfind : FMap.find (FMap.filterKV (fun k _ => !b.gids.contains k) s.groups) k = some g' := by
      rw [← hg']
      dsimp only
      split <;> simp
    rw [FMap.find_filterKV_key] at hfind
    split at hfind
    · exact ⟨g', hfind, rfl⟩
    · cases hfind
  · split <;> exact sameStatuses_of_groups rfl

theorem sameStatuses_afterExit (s : State) (gid : Nat) : SameStatuses s (s.afterExit gid) := by
  unfold State.afterExit
  dsimp only
  refine (SameStatuses.trans ?_ (sameStatuses_wakeLinked _ _)).trans (sameStatuses_releaseBlock _ _)
  refine SameStatuses.trans ?_ (sameStatuses_evalBarriers _ _)
  refine SameStatuses.trans (sameStatuses_of_groups ?_) (sameStatuses_modGroup _ _ ?_)
  rotate_left
  · exact fun _ => rfl
  split
  · exact State.modGrid_groups ..
  · rfl

/-! Halting. -/

theorem sameStatuses_freeHandler (s : State) (hid : Nat) : SameStatuses s (s.freeHandler hid) := sameStatuses_of_groups (by simp [State.freeHandler])

theorem status_of_modGroup {s : State} {gid : Nat} {f : Group → Group} {st : GStatus} (hf : ∀ g, (f g).status = st) {g' : Group}
    (hg' : FMap.find (s.modGroup gid f).groups gid = some g') : g'.status = st := by
  unfold State.modGroup at hg'
  split at hg'
  · rw [State.find_setGroup] at hg'
    cases hg'
    exact hf _
  · next hnone => simp [hnone] at hg'

/-- A halted group that is still there has exited (R185, R468). -/
theorem exited_of_haltGroup (s : State) (gid : Nat) {g' : Group} (hg' : FMap.find (s.haltGroup gid).groups gid = some g') : g'.status = .exited := by
  unfold State.haltGroup at hg'
  split at hg'
  · next hnone => simp [hnone] at hg'
  next g hg =>
  split at hg'
  · next hexited =>
    obtain rfl : g = g' := Option.some.inj (hg.symm.trans hg')
    exact hexited
  · obtain ⟨g1, hg1, hs1⟩ := sameStatuses_afterExit _ _ _ _ hg'
    rw [hs1]
    split at hg1
    · split at hg1
      · simp only [State.freeHandler, State.schedule_groups, State.forgetDenials_groups, State.modCore_groups] at hg1
        refine status_of_modGroup ?_ hg1
        exact fun _ => rfl
      · refine status_of_modGroup ?_ hg1
        exact fun _ => rfl
    · refine status_of_modGroup ?_ hg1
      exact fun _ => rfl

/-- What leaves the settled memory system alone keeps it but for denials (R102). -/
theorem keepsMs_of_settled {s t : State} (h : t.ms.settled = s.ms.settled) : KeepsMs s t := by
  have hms : ∀ m m' : MemSys, m'.settled = m.settled → { m' with denials := m.denials } = m := by
    rintro ⟨⟩ ⟨⟩ h
    simpa [MemSys.settled] using h
  exact hms _ _ h

theorem mem_of_settled {s t : State} (h : t.ms.settled = s.ms.settled) : t.ms.mem = s.ms.mem := by
  have hmem := congrArg MemSys.mem h
  exact hmem

/-! The handler's entry. -/

theorem Core.putTrap_trap (x : Core) (o : Nat) (b : List Byte) : (x.putTrap o b).trap = putBytes x.trap o b := by
  have hrun : ∀ (b : List Byte) (o : Nat) (m : FMap Byte), (b.mapIdx (fun i v => (o + i, v))).foldl (fun m q => FMap.setD m 0#8 q.1 q.2) m = putBytes m o b := by
    intro b
    induction b with
    | nil => exact fun _ _ => rfl
    | cons v b ih =>
      intro o m
      rw [List.mapIdx_cons, List.foldl_cons, putBytes, ← ih]
      simp only [Nat.add_zero, Nat.add_assoc, Nat.add_comm 1]
  exact hrun b o x.trap

theorem length_bytesLE (n v : Nat) : (bytesLE n v).length = n := by
  induction n generalizing v with
  | zero => rfl
  | succ n ih => rw [bytesLE, List.length_cons, ih]

theorem recordBytes_length (slot : Nat) (f : FaultInfo) (txst tick : Nat) : (recordBytes slot f txst tick).length = 256 := by
  simp only [recordBytes, List.length_append, length_bytesLE, List.length_replicate]

theorem pairOf_halves (x : BitVec 64) : pairOf (hi32 x) (lo32 x) = x := by
  refine BitVec.eq_of_getLsbD_eq fun i hi => ?_
  rw [pairOf, hi32, lo32, BitVec.getLsbD_append, BitVec.getLsbD_extractLsb', BitVec.getLsbD_extractLsb']
  by_cases h : i < 32
  · simp [h]
  · have hhigh : i - 32 < 32 ∧ 32 + (i - 32) = i := by omega
    simp [h, hhigh]

/-- The registers at a handler's start (R456), from what they are to hold. -/
def startRegs (record top : BitVec 64) (code slot : Word) : Regs :=
  ((((⟨[], [], [], 0#32, cvmodeReset⟩ : Regs).write64 0 0#8 record).write64 0 2#8 top).setV 4 0 code).setV 5 0 slot

theorem startRegs_spec (record top : BitVec 64) (code slot : Word) :
    (startRegs record top code slot).mode = 0#32 ∧
    pairOf ((startRegs record top code slot).getV 1 0) ((startRegs record top code slot).getV 0 0) = record ∧
    pairOf ((startRegs record top code slot).getV 3 0) ((startRegs record top code slot).getV 2 0) = top ∧
    (startRegs record top code slot).getV 4 0 = code ∧ (startRegs record top code slot).getV 5 0 = slot := by
  have h0 : specOf 0#8 = .v 0 := by decide
  have h2 : specOf 2#8 = .v 2 := by decide
  refine ⟨rfl, ?_, ?_, ?_, ?_⟩ <;> simp [startRegs, Regs.write64, h0, h2, Regs.getV_setV, pairOf_halves]

theorem handlerStart_regs (gid : Nat) (f : FaultInfo) (pc : BitVec 64) : (handlerStart gid f pc).regs =
    startRegs (BitVec.ofNat 64 (poolBase + trapOff + recordOff (slotOf gid))) (BitVec.ofNat 64 (poolBase + 0x3FC000 + 0x1000 * (slotOf gid / 16 + 1)))
      (BitVec.ofNat 32 f.code) (BitVec.ofNat 32 (slotOf gid)) := rfl

/-- HANDLER_ENTRY with a free context and a first ready group that trapped in an earlier tick. -/
theorem exec_handlerEntry_of_next {s : State} {hid gid : Nat} {g : Group} {f : FaultInfo} (hfree : FMap.find s.handlers hid = none)
    (hnext : s.nextTrapped hid = some gid) (hg : FMap.find s.groups gid = some g) (hf : g.fault = some f) (htick : g.trapTick < s.tick) :
    exec (.handlerEntry hid) s = if !g.links.written.isEmpty then .next (s.releaseTrapped gid g) else if !g.links.flush.isEmpty then .next s
      else .next (s.startHandler hid gid g f) := by
  have hx : exec (.handlerEntry hid) s = execHandlerEntry hid s := rfl
  have hlater : ¬ s.tick ≤ g.trapTick := by omega
  rw [hx, execHandlerEntry, hfree, hnext]
  simp only [Option.isSome_none, Bool.false_eq_true, if_false, hg, hf, hlater]

/-- The core with a group's record written, the group out of its queue. -/
def Core.recorded (x : Core) (gid : Nat) (record : List Byte) : Core :=
  { x.putTrap (recordOff (slotOf gid)) record with trapQueue := x.trapQueue.filter (fun k => decide (k ≠ gid)) }

/-- The state with a group's record written (R457). -/
def State.recorded (s : State) (gid : Nat) (g : Group) (f : FaultInfo) : State :=
  s.modCore (coreOf gid) (fun x => x.recorded gid (recordBytes (slotOf gid) f (g.lane (lowest f.mask)).word.toNat s.tick))

theorem State.startHandler_of_tvec {s : State} {hid gid : Nat} {g : Group} {f : FaultInfo} {gr : Grid} (hg : FMap.find s.groups gid = some g)
    (hgr : s.gridOf gid = some gr) (htvec : g.tvec &&& 0xFFFFFFFC#32 ≠ 0#32) : s.startHandler hid gid g f =
      { (s.recorded gid g f).setGroup gid { g with status := .handler } with
        handlers := FMap.insert s.handlers hid (handlerStart gid f (BitVec.ofNat 64 (gr.hdr.code + (g.tvec &&& 0xFFFFFFFC#32).toNat))) } := by
  rw [State.startHandler, hgr]
  dsimp only
  rw [if_neg htvec, State.modGroup_of_find (s := s.modCore _ _) hg]
  rfl

theorem State.startHandler_of_no_tvec {s : State} {hid gid : Nat} {g : Group} {f : FaultInfo} (htvec : g.tvec &&& 0xFFFFFFFC#32 = 0#32) :
    s.startHandler hid gid g f = (((s.recorded gid g f).reportError gid 1 f.code f.pc).haltGroup gid).schedule (.handlerEntry hid) := by
  rw [State.startHandler]
  dsimp only
  rw [if_pos htvec]
  rfl

/-- The record stands in the trap region of the group's core (R170, R457). -/
theorem State.recorded_trap (s : State) (gid : Nat) (g : Group) (f : FaultInfo) {i : Nat} (hi : i < 256) :
    FMap.getD ((s.recorded gid g f).core (coreOf gid)).trap 0#8 (256 * slotOf gid + i) =
      (recordBytes (slotOf gid) f (g.lane (lowest f.mask)).word.toNat s.tick).getD i 0#8 := by
  rw [State.recorded, State.core_modCore, if_pos rfl, Core.recorded]
  have hin : 256 * slotOf gid ≤ 256 * slotOf gid + i ∧ 256 * slotOf gid + i < 256 * slotOf gid + 256 := by omega
  have hoff : 256 * slotOf gid + i - 256 * slotOf gid = i := by omega
  rw [Core.putTrap_trap, getD_putBytes, recordBytes_length, recordOff, if_pos hin, hoff]

/-! The handler's instructions. -/

/-- Where a handler issues, it stands in its context. -/
theorem handler_of_who {s : State} {c : Ctx} {hid : Nat} (hctx : s.ctx = some c) (hwho : c.who = .handler hid) {h : Handler} {g : Group}
    (hh : FMap.find s.handlers hid = some h) (hg : FMap.find s.groups c.gid = some g) : c = handlerCtx h hid g := by
  have hs : c.single = true := by
    refine Classical.byContradiction fun hs => ?_
    cases hwho.symm.trans (who_of_ctx hctx (by simpa using hs))
  obtain ⟨hid', h', g', hcur, hh', hg', hc⟩ := handler_of_ctx hctx hs
  obtain rfl : hid' = hid := by simpa [hc, handlerCtx] using hwho
  obtain rfl : h' = h := Option.some.inj (hh'.symm.trans hh)
  obtain rfl : g' = g := Option.some.inj ((by rw [hc] at hg; exact hg'.symm.trans hg))
  exact hc

theorem exec_of_handler {i : Instr} {ok : Group → Ctx → Bool} {f : Nat → Handler → Group → State → Ctx → Done} {s : State} {c : Ctx} {hid : Nat} {h : Handler} {g : Group}
    (hx : exec i s = privileged i ok f s) (hctx : s.ctx = some c) (hwho : c.who = .handler hid) (hh : FMap.find s.handlers hid = some h)
    (hg : FMap.find s.groups c.gid = some g) (hok : ok g c = true) : exec i s = finish c ((encode i).getD 0#32) (f hid h g s c) := by
  rw [hx, privileged, issue_of_ctx hctx fun _ => rfl, withGroup, hg]
  simp only [hok, hwho, hh, Bool.not_true, Bool.false_eq_true, if_false]

/-- A register of the trapped group after a write of one: it reads as written, and no other changes (R465). -/
theorem Regs.read32_writeTrapped (r : Regs) {allot : Nat} {a : BitVec 8} (ha : trappedRegOk allot a = true) {k : Nat} (hk : k < 64) (x : Word) :
    (r.writeTrapped k a x).read32 0#64 k a = x ∧
    ∀ y t, t < 64 → t ≠ k ∨ specOf y ≠ specOf a → (r.writeTrapped k a x).read32 0#64 t y = r.read32 0#64 t y := by
  unfold trappedRegOk at ha
  cases hd : specOf a with
  | v n =>
    refine ⟨by simp [Regs.writeTrapped, Regs.write32, Regs.read32, hd, Regs.getV_setV, hk], fun y t ht hne => ?_⟩
    cases hy : specOf y with
    | v m =>
      have hother : ¬ (m = n ∧ t = k) := by rintro ⟨rfl, rfl⟩; simp [hy] at hne
      simp [Regs.writeTrapped, Regs.write32, Regs.read32, hd, hy, Regs.getV_setV, hk, ht, hother]
    | _ => simp [Regs.writeTrapped, Regs.write32, Regs.read32, hd, hy]
  | o n =>
    refine ⟨by simp [Regs.writeTrapped, Regs.write32, Regs.read32, hd, Regs.getO_setO, hk], fun y t ht hne => ?_⟩
    cases hy : specOf y with
    | o m =>
      have hother : ¬ (m = n ∧ t = k) := by rintro ⟨rfl, rfl⟩; simp [hy] at hne
      simp [Regs.writeTrapped, Regs.write32, Regs.read32, hd, hy, Regs.getO_setO, hk, ht, hother]
    | _ => simp [Regs.writeTrapped, Regs.write32, Regs.read32, hd, hy]
  | l n =>
    refine ⟨by simp [Regs.writeTrapped, Regs.read32, hd, Regs.getL_setL, hk], fun y t ht hne => ?_⟩
    cases hy : specOf y with
    | l m =>
      have hother : ¬ (m = n ∧ t = k) := by rintro ⟨rfl, rfl⟩; simp [hy] at hne
      simp [Regs.writeTrapped, Regs.read32, hd, hy, Regs.getL_setL, hk, ht, hother]
    | _ => simp [Regs.writeTrapped, Regs.read32, hd, hy]
  | _ => simp [hd] at ha

/-- The replacements of threads are set, and no other (R466). -/
theorem find_foldl_insert {α : Type} (m : BitVec 64) (x : α) (r : FMap α) {t : Nat} (ht : t < 64) :
    FMap.find ((threadsOf m).foldl (fun r t => FMap.insert r t x) r) t = if m.getLsbD t then some x else FMap.find r t := by
  refine foldl_threads (fun r => FMap.find r t) (fun r t => FMap.insert r t x) (fun _ _ => some x) ht (fun r k _ => ?_) m r
  by_cases h : t = k
  · rw [if_pos h, h, FMap.find_insert_same]
  · rw [if_neg h, FMap.find_insert_other _ (Ne.symm h)]

section

variable {s : State} {c : Ctx} {hid : Nat} {h : Handler} {g : Group} (hctx : s.ctx = some c) (hwho : c.who = .handler hid)
  (hh : FMap.find s.handlers hid = some h) (hg : FMap.find s.groups c.gid = some g)
include hctx hwho hh hg

/-- The handler's context is its own, its group's seed the group's. -/
theorem handlerCtx_fields : c.gid = h.gid ∧ c.regs = h.regs ∧ c.seed = g.srseed ∧ c.split.pc = h.pc ∧ c.split.mask = 1#64 := by
  rw [handler_of_who hctx hwho hh hg]
  exact ⟨rfl, rfl, rfl, rfl, rfl⟩

/-- A handler's retirement after an effect: its own context moves on, and no group changes but for the seed that it has. -/
theorem retire_after_effect {s' : State} {h' : Handler} {g' : Group} (hh' : FMap.find s'.handlers hid = some h') (hg' : FMap.find s'.groups c.gid = some g') :
    s'.retire c c (c.split.pc + 4#64) =
      s'.putHandler hid c.gid { g' with srseed := g.srseed } { h' with regs := h.regs, pc := h.pc + 4#64, pfx := .clear, wait := .none } := by
  obtain ⟨-, hregs, hseed, hpc, -⟩ := handlerCtx_fields hctx hwho hh hg
  have hnote : ∀ x : State, x.noteEnd c c = x := fun x => by simp only [State.noteEnd, hwho]
  rw [State.retire, State.putCtx_of_handler (c := c.advance (c.split.pc + 4#64)) hwho hh' hg', hnote, ← hregs, ← hseed, ← hpc]
  rfl

/-- A handler that goes on after its replacements or skips have changed: its own registers, memory and every group stay. -/
theorem handler_sets (h' : Handler) (hgid : h'.gid = h.gid) : ∃ t h2, (s.setHandler hid h').retire c c (c.split.pc + 4#64) = t ∧
    FMap.find t.handlers hid = some h2 ∧ (h2.skip = h'.skip ∧ h2.repl = h'.repl) ∧ h2.regs = h.regs ∧ h2.pc = h.pc + 4#64 ∧ h2.gid = h.gid ∧ t.ms = s.ms ∧
      ∀ k, FMap.find t.groups k = FMap.find s.groups k := by
  have hfind : FMap.find (s.setHandler hid h').handlers hid = some h' := FMap.find_insert_same ..
  refine ⟨_, _, retire_after_effect hctx hwho hh hg hfind hg, FMap.find_insert_same .., ⟨rfl, rfl⟩, rfl, rfl, hgid, rfl, fun k => ?_⟩
  by_cases hk : c.gid = k
  · subst hk
    exact (FMap.find_insert_same ..).trans hg.symm
  · exact FMap.find_insert_other _ hk _

end

end Sys2Proof.Machine

namespace Sys2Proof.Proofs

open Sys2Proof.Machine Sys2Proof.Claims

/-- Settles O40: the branches are those of `exec_handlerEntry_of_next` and `State.startHandler`. -/
theorem handlerEntryResults : Obligations.HandlerEntryResults := by
  unfold Obligations.HandlerEntryResults
  intro s hid gid g f gr hfree hgr hnext hg hf htick
  have hx := exec_handlerEntry_of_next hfree hnext hg hf htick
  refine ⟨fun hwritten => ?_, fun hwritten hflush => ?_⟩
  · rw [hx, if_pos (by simpa using hwritten)]
  intro slot record base
  rw [hwritten, hflush] at hx
  refine ⟨fun htvec => ?_, fun htvec htrapped => ?_⟩
  · obtain ⟨hmode, hrecord, hstack, hcode, hslot⟩ := startRegs_spec (BitVec.ofNat 64 (poolBase + trapOff + recordOff (slotOf gid)))
      (BitVec.ofNat 64 (poolBase + 0x3FC000 + 0x1000 * (slotOf gid / 16 + 1))) (BitVec.ofNat 32 f.code) (BitVec.ofNat 32 (slotOf gid))
    rw [State.startHandler_of_tvec hg hgr htvec] at hx
    exact ⟨_, _, hx, FMap.find_insert_same .., ⟨_, State.find_setGroup .., rfl⟩, rfl, fun i hi => State.recorded_trap s gid g f hi, rfl, rfl, rfl, rfl, rfl, rfl,
      hmode, hrecord, hstack, hcode, hslot⟩
  · rw [State.startHandler_of_no_tvec htvec] at hx
    refine ⟨_, hx, keepsMs_of_settled ?_, fun g' hg' => exited_of_haltGroup _ _ hg'⟩
    rw [State.schedule_ms, State.haltGroup_settled, State.reportError_ms]
    rfl

/-- Settles O43: each instruction is its effect, then a handler's retirement. -/
theorem handlerInstructionResults : Obligations.HandlerInstructionResults := by
  unfold Obligations.HandlerInstructionResults
  intro s c g h hid d a b hctx hwho hg hh k fm sets m quad skips
  obtain ⟨hgid, hregs, hseed, hpc, hmask⟩ := handlerCtx_fields hctx hwho hh hg
  have hfm : g.faultMask = fm := by
    simp only [fm, Group.faultMask]
    cases g.fault <;> rfl
  have hsets : ∀ {i : Instr} (h' : Handler) {P : Handler → Prop}, h'.gid = h.gid → exec i s = finish c ((encode i).getD 0#32) (Done.seq (s.setHandler hid h') c) →
      (∀ h2 : Handler, h2.skip = h'.skip → h2.repl = h'.repl → P h2) → sets i P := by
    intro i h' P hgid' hx hP
    obtain ⟨t, h2, ht, hh2, ⟨hskip, hrepl⟩, hrest⟩ := handler_sets hctx hwho hh hg h' hgid'
    exact ⟨t, h2, hx.trans (congrArg _ ht), hh2, hP h2 hskip hrepl, hrest⟩
  have hskips : ∀ {i : Instr} {m : BitVec 64}, exec i s = finish c ((encode i).getD 0#32) (Done.seq (s.setHandler hid (h.skipThreads m)) c) → skips i m := by
    intro i m hx
    refine hsets (h.skipThreads m) rfl hx fun h2 hskip hrepl => ⟨hskip, fun t _ => ?_⟩
    rw [hrepl, Handler.skipThreads, FMap.find_filterKV_key]
    cases m.getLsbD t <;> rfl
  refine ⟨fun hd ha hb => ?_, fun hd ha hb => ?_, fun ha hb hrep => ?_, fun ha hb hrep => ?_, ?_, fun ha => ?_, ?_⟩
  · have hx := exec_of_handler (i := .lrd d a b) rfl hctx hwho hh hg (by simp [hd, ha, hb])
    have hreceived := Ctx.put32_received c d (g.regs.read32 0#64 k a)
    rw [hmask] at hreceived
    have hk : c.trappedThread b = k := by simp [Ctx.trappedThread, field, k]
    rw [hk] at hx
    exact ⟨_, hreceived, hx⟩
  · have hx := exec_of_handler (i := .lwr d a b) rfl hctx hwho hh hg (by simp [hd, ha, hb])
    have hk : c.trappedThread b = k := by simp [Ctx.trappedThread, field, k]
    have hlt : k < 64 := Nat.mod_lt _ (by decide)
    obtain ⟨hread, hother⟩ := g.regs.read32_writeTrapped ha hlt (c.regs.read32 c.xi c.lane d)
    rw [hk, State.modGroup_of_find hg] at hx
    refine ⟨_, hx, ?_, State.retire_ms .., ?_⟩
    · rw [retire_after_effect hctx hwho hh hg (s' := s.setGroup c.gid _) hh (State.find_setGroup ..), hwho, hpc]
      simp only [pcOf, State.putHandler, FMap.find_insert_same, Option.map_some]
    · rw [retire_after_effect hctx hwho hh hg (s' := s.setGroup c.gid _) hh (State.find_setGroup ..)]
      exact ⟨_, FMap.find_insert_same .., rfl, hread, hother⟩
  · have hx := exec_of_handler (i := .erpl a b) rfl hctx hwho hh hg (by simp [ha, hb])
    simp only [hrep, if_true, hfm] at hx
    refine hsets _ ?_ hx fun h2 hskip hrepl => ⟨hskip, fun t ht => ?_⟩
    · rfl
    · rw [hrepl]
      exact find_foldl_insert m quad h.repl ht
  · have hx := exec_of_handler (i := .erpl a b) rfl hctx hwho hh hg (by simp [ha, hb])
    simp only [hrep, Bool.false_eq_true, if_false] at hx
    exact hx
  · have hx := exec_of_handler (i := .fskipAll) rfl hctx hwho hh hg rfl
    rw [hfm] at hx
    exact hskips hx
  · have hx := exec_of_handler (i := .fskipMask a) rfl hctx hwho hh hg ha
    rw [hfm] at hx
    exact hskips hx
  · have hx := exec_of_handler (i := .halt) rfl hctx hwho hh hg rfl
    cases hf : g.fault with
    | some f =>
      rw [hf] at hx
      refine ⟨_, hx, mem_of_settled ?_, fun g' hg' => exited_of_haltGroup _ _ hg'⟩
      rw [State.haltGroup_settled, State.reportError_ms]
    | none =>
      rw [hf] at hx
      exact ⟨_, hx, mem_of_settled (State.haltGroup_settled ..), fun g' hg' => exited_of_haltGroup _ _ hg'⟩

end Sys2Proof.Proofs
end

