-- ==== Sys2Proof/Proofs/ReturnResults.lean ====
section
/-! SUPPORT. RETT (R184, R466, R467): the split that it resumes, and the state around it. -/

namespace Sys2Proof.Machine

open Sys2Proof.Claims

/-! The trapped group as RETT leaves it. -/

theorem Group.resumeSplit_of_find {g : Group} {e : Nat} {sp : Split} (hsp : FMap.find g.table e = some sp) (f : Split → Split) :
    g.resumeSplit e f = { g with table := FMap.insert g.table e (f { sp with wait := .none }) } := by
  rw [Group.resumeSplit, hsp]

/-- The split again: for the threads given, which take the place of those that executed. -/
def FaultInfo.again (f : FaultInfo) (m : Option (BitVec 64)) (sp : Split) : Split :=
  { sp with retry := m, poisonAct := f.poison, issued := m.map (fun x => ⟨f.mode, x⟩) }

theorem Group.rettSplit_of_engine (g : Group) {f : FaultInfo} (hengine : f.engine.isSome = true) (h : Handler) : g.rettSplit f h f.pc = g := by
  rw [Group.rettSplit, if_neg (by simp), if_pos hengine]

section

variable {g : Group} {f : FaultInfo} {h : Handler} {sp : Split} {rpc : BitVec 64} (hsp : FMap.find g.table f.entry = some sp)
include hsp

theorem Group.rettSplit_of_moved (hrpc : rpc ≠ f.pc) :
    g.rettSplit f h rpc = { g with table := FMap.insert g.table f.entry (Split.goto { sp with wait := .none } rpc) } := by
  rw [Group.rettSplit, if_pos hrpc, Group.resumeSplit_of_find hsp]

theorem Group.rettSplit_of_whole (hengine : f.engine = none) (hkind : rettKind f = .whole) : g.rettSplit f h f.pc = { g with
    table := FMap.insert g.table f.entry (if h.skip ≠ 0#64 then Split.goto { sp with wait := .none } (f.pc + 4#64) else f.again none { sp with wait := .none }) } := by
  rw [Group.rettSplit, if_neg (by simp), if_neg (by simp [hengine])]
  dsimp only
  rw [if_pos hkind]
  split
  · rw [Group.resumeSplit_of_find hsp]
  · rw [Group.resumeSplit_of_find hsp]
    rfl

theorem Group.rettSplit_of_memory (hengine : f.engine = none) (hkind : rettKind f ≠ .whole) (htx : f.txAborted = 0#64) :
    g.rettSplit f h f.pc = { g with
      regs := deliver (rettKind f) f.mask h.repl g.regs
      table := FMap.insert g.table f.entry (if reexecuted (rettKind f) f.mask h.skip h.repl = 0#64 then Split.goto { sp with wait := .none } (f.pc + 4#64)
        else f.again (some (reexecuted (rettKind f) f.mask h.skip h.repl)) { sp with wait := .none }) } := by
  have hall : reexecuted (rettKind f) f.mask h.skip h.repl &&& ~~~f.txAborted = reexecuted (rettKind f) f.mask h.skip h.repl := by
    rw [htx, BitVec.not_zero, BitVec.and_allOnes]
  have hsp' : FMap.find ({ g with regs := deliver (rettKind f) f.mask h.repl g.regs } : Group).table f.entry = some sp := hsp
  rw [Group.rettSplit, if_neg (by simp), if_neg (by simp [hengine])]
  dsimp only
  rw [if_neg hkind, hall]
  split
  · rw [Group.resumeSplit_of_find hsp']
  · rw [Group.resumeSplit_of_find hsp']
    rfl

end

/-- RETT changes no more of the group than its registers and its split. -/
theorem Group.rettSplit_eq (g : Group) (f : FaultInfo) (h : Handler) (rpc : BitVec 64) : ∃ regs table, g.rettSplit f h rpc = { g with regs := regs, table := table } := by
  have hresume : ∀ (g : Group) (e : Nat) (k : Split → Split), ∃ table, g.resumeSplit e k = { g with table := table } := by
    intro g e k
    unfold Group.resumeSplit
    split
    · exact ⟨_, rfl⟩
    · exact ⟨g.table, rfl⟩
  unfold Group.rettSplit
  dsimp only
  split
  · exact ⟨g.regs, hresume ..⟩
  split
  · exact ⟨g.regs, g.table, rfl⟩
  split
  · split
    · exact ⟨g.regs, hresume ..⟩
    · exact ⟨g.regs, hresume ..⟩
  · split
    · obtain ⟨table, h⟩ := hresume { g with regs := deliver (rettKind f) f.mask h.repl g.regs } f.entry fun sp => sp.goto (f.pc + 4#64)
      exact ⟨_, table, h⟩
    · obtain ⟨table, h⟩ := hresume { g with regs := deliver (rettKind f) f.mask h.repl g.regs } f.entry (f.again _)
      exact ⟨_, table, h⟩

/-! The state around it. -/

theorem State.resumeWaits_of_find (s : State) (gid : Nat) :
    (s.resumeWaits gid).groups = s.groups ∧ (s.resumeWaits gid).handlers = s.handlers ∧ (s.resumeWaits gid).ms = s.ms ∧ (s.resumeWaits gid).cores = s.cores := by
  have hfold : ∀ (l : List (Nat × Split)) (f : State → Nat × Split → State), (∀ s q, (f s q).groups = s.groups ∧ (f s q).handlers = s.handlers ∧ (f s q).ms = s.ms ∧ (f s q).cores = s.cores) →
      ∀ s : State, (l.foldl f s).groups = s.groups ∧ (l.foldl f s).handlers = s.handlers ∧ (l.foldl f s).ms = s.ms ∧ (l.foldl f s).cores = s.cores := by
    intro l f hf s
    have h := foldl_keep (fun s : State => (s.groups, s.handlers, s.ms, s.cores)) f (fun s q => by
      obtain ⟨h1, h2, h3, h4⟩ := hf s q
      simp only [h1, h2, h3, h4]) l s
    simpa only [Prod.mk.injEq] using h
  unfold State.resumeWaits
  split
  · exact ⟨rfl, rfl, rfl, rfl⟩
  · refine hfold _ _ (fun s q => ?_) _
    split <;> exact ⟨rfl, rfl, rfl, rfl⟩

theorem State.rettEngine_rest (s : State) (gid : Nat) (f : FaultInfo) (h : Handler) (rpc : BitVec 64) :
    (s.rettEngine gid f h rpc).groups = s.groups ∧ (s.rettEngine gid f h rpc).handlers = s.handlers ∧ (s.rettEngine gid f h rpc).ms = s.ms := by
  unfold State.rettEngine
  split
  · exact ⟨rfl, rfl, rfl⟩
  · split
    · exact ⟨rfl, rfl, rfl⟩
    · unfold State.restartCommand
      split <;> exact ⟨rfl, rfl, rfl⟩

/-- The command of an engine fault goes on from where it stopped, or is at its end where a thread is skipped (R426). -/
def EngCmd.returned (q : EngCmd) (cancelled : Prop) [Decidable cancelled] : EngCmd :=
  if cancelled then { q with started := true, held := false, stopped := false, ended := some 2, posted := false } else { q with stopped := false }

theorem State.rettEngine_command (s : State) (gid : Nat) {f : FaultInfo} {id : Nat} (hengine : f.engine = some id) (h : Handler) (rpc : BitVec 64) {q : EngCmd}
    (hq : s.command (coreOf gid) id = some q) :
    (s.rettEngine gid f h rpc).command (coreOf gid) id = some (q.returned (h.skip ≠ 0#64 ∧ rpc = f.pc)) := by
  have hfind : ∀ (k : EngCmd → EngCmd) (i : Instr), (∀ x, (k x).id = x.id) → ((s.modCommand (coreOf gid) id k).schedule i).command (coreOf gid) id = some (k q) := by
    intro k i hk
    have hid : q.id = id := by simpa using List.find?_some hq
    have hpred : ((fun q : EngCmd => decide (q.id = id)) ∘ fun q => if q.id = id then k q else q) = fun q => decide (q.id = id) := by
      funext x
      by_cases hx : x.id = id <;> simp [hx, hk]
    unfold State.command at hq ⊢
    rw [State.core_schedule, State.modCommand, core_mapQueue, List.find?_map, hpred, hq, Option.map_some, if_pos hid]
  unfold State.rettEngine EngCmd.returned
  simp only [hengine]
  split
  · exact hfind _ _ fun _ => rfl
  · rw [State.restartCommand, hq]
    exact hfind _ _ fun _ => rfl

/-- The group once it runs again. -/
def Group.backFrom (g : Group) (f : FaultInfo) (h : Handler) (rpc : BitVec 64) : Group := { g.rettSplit f h rpc with status := .running, fault := none }

section

variable {s : State} {hid gid : Nat} {g : Group} {h : Handler} {f : FaultInfo} (htx : f.txAborted = 0#64) (hfaults : g.engFaults = []) (hdue : g.ejectDue = 0#64)

/-- The resume pc of the group's record. -/
def State.resumePc (s : State) (gid : Nat) : BitVec 64 :=
  BitVec.ofNat 64 (ofBytesLE ((s.core (coreOf gid)).getTrap (recordOff (slotOf gid) + 0x10) 8))

include htx hfaults hdue

/-- RETT's end: the context free, the group running, and no other group touched (R467). -/
theorem State.rett_spec : KeepsMs s (s.rett hid gid g h f) ∧ FMap.find (s.rett hid gid g h f).handlers hid = none ∧
    (∀ k, k ≠ gid → FMap.find (s.rett hid gid g h f).groups k = FMap.find s.groups k) ∧
    FMap.find (s.rett hid gid g h f).groups gid = some (g.backFrom f h (s.resumePc gid)) ∧
    ∀ id q, f.engine = some id → s.command (coreOf gid) id = some q →
      (s.rett hid gid g h f).command (coreOf gid) id = some (q.returned (h.skip ≠ 0#64 ∧ s.resumePc gid = f.pc)) := by
  obtain ⟨regs, table, hsplit⟩ := g.rettSplit_eq f h (s.resumePc gid)
  let s1 := s.setGroup gid (g.rettSplit f h (s.resumePc gid))
  let s2 := s1.leaveHandler hid gid
  let s3 := s2.rettEngine gid f h (s.resumePc gid)
  have hlate : Group.ejectLate { g.rettSplit f h (s.resumePc gid) with status := .running, fault := none } = g.backFrom f h (s.resumePc gid) := by
    rw [Group.ejectLate, if_pos (by rw [hsplit]; exact hdue)]
    rfl
  have hleave : s2 = (s.setGroup gid (g.backFrom f h (s.resumePc gid))).freeHandler hid := by
    rw [← hlate]
    exact congrArg (fun x => State.freeHandler x hid) ((State.modGroup_of_find (State.find_setGroup ..) _).trans (State.setGroup_setGroup ..))
  have hgroups : s3.groups = (s.setGroup gid (g.backFrom f h (s.resumePc gid))).groups := by
    rw [(State.rettEngine_rest ..).1, hleave]
    simp [State.freeHandler]
  obtain ⟨hwgroups, hwhandlers, hwms, hwcores⟩ := s3.resumeWaits_of_find gid
  have hfind : FMap.find (s3.resumeWaits gid).groups gid = some (g.backFrom f h (s.resumePc gid)) := by
    rw [hwgroups, hgroups, State.find_setGroup]
  have hnone : (g.backFrom f h (s.resumePc gid)).engFaults = [] := by
    unfold Group.backFrom
    rw [hsplit]
    exact hfaults
  have hrett : s.rett hid gid g h f = s3.resumeWaits gid := by
    have htake : (s3.resumeWaits gid).takeEngFault gid = s3.resumeWaits gid := by
      unfold State.takeEngFault
      simp only [hfind, hnone]
    rw [← htake]
    unfold State.rett
    dsimp only
    rw [if_pos htx]
    rfl
  rw [hrett]
  refine ⟨keepsMs_of_settled ?_, ?_, fun k hk => ?_, hfind, fun id q hengine hq => ?_⟩
  · rw [hwms, (State.rettEngine_rest ..).2.2, hleave, State.freeHandler_settled]
    rfl
  · rw [hwhandlers, (State.rettEngine_rest ..).2.1, hleave]
    simp [State.freeHandler]
  · rw [hwgroups, hgroups]
    exact FMap.find_insert_other _ hk.symm _
  · have hqueue : (s3.resumeWaits gid).command (coreOf gid) id = s3.command (coreOf gid) id := by
      rw [State.command, State.command, State.core_of_cores hwcores]
    rw [hqueue]
    refine State.rettEngine_command s2 gid hengine h (s.resumePc gid) ?_
    rw [← hq, State.command, State.command]
    refine congrArg (fun x : Core => x.queue.find? (fun q => decide (q.id = id))) (State.core_of_cores ?_ _)
    rw [hleave]
    simp [State.freeHandler]

end

end Sys2Proof.Machine

namespace Sys2Proof.Proofs

open Sys2Proof.Machine Sys2Proof.Claims

/-- Settles O44: `State.rett_spec` gives the state, the lemmas of `Group.rettSplit` the split. -/
theorem returnFromException : Obligations.ReturnFromException := by
  unfold Obligations.ReturnFromException
  intro s c g h hid f sp hctx hwho hg hh hf hsp htx hfaults hdue hflush rpc goes again
  have hresume : s.resumePc c.gid = rpc := rfl
  clear_value rpc
  obtain ⟨hms, hfree, hother, hback, hcommand⟩ := State.rett_spec (s := s) (hid := hid) (gid := c.gid) (h := h) htx hfaults hdue
  rw [hresume] at hback hcommand
  have hx : exec .rett s = .next (s.rett hid c.gid g h f) := by
    rw [exec_of_handler (i := .rett) rfl hctx hwho hh hg rfl, withRelease_of_nothing hctx hflush, rettBody, hg]
    simp only [hf]
    rfl
  have hgoes : ∀ {regs : Regs} {sp' : Split} {P : Group → Split → Prop}, g.rettSplit f h rpc = { g with regs := regs, table := FMap.insert g.table f.entry sp' } →
      sp'.mask = sp.mask → sp'.wait = .none → (∀ g' : Group, g'.regs = regs → P g' sp') → goes P := by
    intro regs sp' P hsplit hmask hwait hP
    refine ⟨_, hx, hms, hfree, hother, _, hback, rfl, rfl, sp', ?_, hmask, hwait, hP _ ?_⟩
    · rw [Group.backFrom, hsplit]
      exact FMap.find_insert_same ..
    · rw [Group.backFrom, hsplit]
  refine ⟨fun hrpc => ?_, fun hrpc hengine hkind hskip => ?_, fun hrpc hengine hkind hskip => ?_, fun hrpc hengine hkind hagain => ?_, fun hrpc hengine hkind hagain => ?_,
    fun id q hengine hq => ?_⟩
  · refine hgoes (sp' := Split.goto { sp with wait := .none } rpc) (regs := g.regs) ?_ rfl rfl fun g' hg' => ⟨rfl, rfl, rfl, hg'⟩
    rw [Group.rettSplit_of_moved hsp hrpc]
  · refine hgoes (sp' := f.again none { sp with wait := .none }) (regs := g.regs) ?_ rfl rfl fun g' hg' => ⟨rfl, rfl, rfl, hg'⟩
    rw [hrpc, Group.rettSplit_of_whole hsp hengine hkind, if_neg (by simpa using hskip)]
  · refine hgoes (sp' := Split.goto { sp with wait := .none } (f.pc + 4#64)) (regs := g.regs) ?_ rfl rfl fun g' hg' => ⟨rfl, rfl, hg'⟩
    rw [hrpc, Group.rettSplit_of_whole hsp hengine hkind, if_pos hskip]
  · refine hgoes (sp' := f.again (some again) { sp with wait := .none }) (regs := deliver (rettKind f) f.mask h.repl g.regs) ?_ rfl rfl fun g' hg' => ⟨rfl, rfl, rfl, rfl, hg'⟩
    rw [hrpc, Group.rettSplit_of_memory hsp hengine hkind htx, if_neg hagain]
  · refine hgoes (sp' := Split.goto { sp with wait := .none } (f.pc + 4#64)) (regs := deliver (rettKind f) f.mask h.repl g.regs) ?_ rfl rfl fun g' hg' => ⟨rfl, rfl, hg'⟩
    rw [hrpc, Group.rettSplit_of_memory hsp hengine hkind htx, if_pos hagain]
  · refine ⟨_, hx, hms, hfree, fun hrpc => ⟨_, hback, rfl, rfl, ?_, ?_⟩, hcommand id q hengine hq⟩
    · rw [hrpc, Group.backFrom, Group.rettSplit_of_engine g (by simp [hengine])]
    · rw [hrpc, Group.backFrom, Group.rettSplit_of_engine g (by simp [hengine])]

end Sys2Proof.Proofs
end

