-- ==== Sys2Proof/Proofs/BootEvents.lean ====
section
/-! SUPPORT. Power, boot, repair, heat and spare cores (R22 to R24, R38 to R50). -/

namespace Sys2Proof.Machine

open Sys2Proof.Claims

/-! What only schedules, sends or moves pointers. -/

/-- Between s and t no more has changed than what is due, what was sent, and the pointers and queues of placement. -/
def Quiet (s t : State) : Prop := { t with turn := s.turn, place := s.place } = s

theorem quiet_refl (s : State) : Quiet s s := rfl

theorem Quiet.trans {s t u : State} (h : Quiet s t) (h' : Quiet t u) : Quiet s u := by
  have hu : { u with turn := s.turn, place := s.place } = { t with turn := s.turn, place := s.place } :=
    congrArg (fun x : State => { x with turn := s.turn, place := s.place }) h'
  exact hu.trans h

theorem quiet_foldl {β : Type} {f : State → β → State} (h : ∀ s b, Quiet s (f s b)) (l : List β) (s : State) : Quiet s (l.foldl f s) := by
  induction l generalizing s with
  | nil => exact quiet_refl s
  | cons b l ih => exact (h s b).trans (ih _)

theorem quiet_schedule (s : State) (i : Instr) : Quiet s (s.schedule i) := rfl
theorem quiet_send (s : State) (m : OutMsg) : Quiet s (s.send m) := rfl

theorem Quiet.field {s t : State} (h : Quiet s t) {α : Type} (F : State → α) : F { t with turn := s.turn, place := s.place } = F s := congrArg F h

section

variable {s t : State} (h : Quiet s t)
include h

theorem Quiet.cores : t.cores = s.cores := h.field State.cores
theorem Quiet.boot : t.boot = s.boot := h.field State.boot
theorem Quiet.groups : t.groups = s.groups := h.field State.groups
theorem Quiet.handlers : t.handlers = s.handlers := h.field State.handlers
theorem Quiet.ms : t.ms = s.ms := h.field State.ms
theorem Quiet.grids : t.grids = s.grids := h.field State.grids
theorem Quiet.blocks : t.blocks = s.blocks := h.field State.blocks
theorem Quiet.vfs : t.vfs = s.vfs := h.field State.vfs
theorem Quiet.parts : t.parts = s.parts := h.field State.parts
theorem Quiet.tick : t.tick = s.tick := h.field State.tick
theorem Quiet.core (k : Nat) : t.core k = s.core k := State.core_of_cores h.cores k

end

theorem quiet_wakePlacement (s : State) (p : Nat) : Quiet s (s.wakePlacement p) := by
  refine (quiet_schedule s (.deltaBatchHandout p)).trans (quiet_foldl ?_ _ _)
  exact fun _ _ => quiet_schedule ..

theorem quiet_settlePointers (s : State) (p : Nat) : Quiet s (s.settlePointers p) := by
  refine quiet_foldl ?_ _ _
  exact fun _ _ => rfl

theorem quiet_coreBack (s : State) (core : Nat) : Quiet s (s.coreBack core) := by
  have hmap : Quiet s (s.coresChanged (clusterOf core)) := by
    refine quiet_foldl ?_ _ _
    exact fun s q => (quiet_settlePointers s q.1).trans (quiet_wakePlacement ..)
  refine hmap.trans (quiet_foldl ?_ _ _)
  exact fun _ _ => quiet_schedule ..

/-! Cores. -/

theorem State.core_setCore (s : State) (k j : Nat) (x : Core) : (s.setCore k x).core j = if k = j then x else s.core j := by
  rw [State.core, State.setCore, FMap.getD_setD, State.core]

/-- A core that leaves the map keeps its contents. -/
theorem State.loseCore_core (s : State) (core j : Nat) : ∃ lost, (s.loseCore core).core j = { s.core j with lost := lost } := by
  unfold State.loseCore
  dsimp only
  split
  · exact ⟨(s.core j).lost, rfl⟩
  · rw [State.core_modCore]
    split
    · next h =>
      subst h
      exact ⟨true, rfl⟩
    · exact ⟨(s.core j).lost, rfl⟩

theorem State.loseCore_handlers (s : State) (core : Nat) : (s.loseCore core).handlers = s.handlers := by
  unfold State.loseCore
  dsimp only
  split <;> rfl

/-- The spare takes a lost core's number (R42, R44). -/
theorem State.loseCore_spare {s : State} {core : Nat} (h : FMap.getD s.boot.spareUsed false (clusterOf core) = false) :
    (s.loseCore core).mapWord (clusterOf core) = s.mapWord (clusterOf core) - field (s.mapWord (clusterOf core)) (4 * (core % 9)) 4 * 2 ^ (4 * (core % 9)) + 9 * 2 ^ (4 * (core % 9)) ∧
    FMap.getD (s.loseCore core).boot.spareUsed false (clusterOf core) = true := by
  have hspare : s.loseCore core = { s with boot := { s.boot with
      coreMap := FMap.insert s.boot.coreMap (clusterOf core) (s.mapWord (clusterOf core) - field (s.mapWord (clusterOf core)) (4 * (core % 9)) 4 * 2 ^ (4 * (core % 9)) + 9 * 2 ^ (4 * (core % 9)))
      spareUsed := FMap.setD s.boot.spareUsed false (clusterOf core) true } } := by
    unfold State.loseCore
    dsimp only
    rw [if_pos (by rw [h]; rfl)]
  rw [hspare]
  refine ⟨?_, FMap.getD_setD_same s.boot.spareUsed false (clusterOf core) true⟩
  simp only [State.mapWord, FMap.getD, FMap.find_insert_same, Option.getD_some]

/-! The L2's lines. -/

theorem foldl_dropLine_rest (l : List L2Line) (s : State) :
    (l.foldl (fun s x => s.dropLine x.line) s).ms = s.ms ∧ (l.foldl (fun s x => s.dropLine x.line) s).boot = s.boot := by
  have h := foldl_keep (fun s : State => (s.ms, s.boot)) (fun s (x : L2Line) => s.dropLine x.line) (fun _ _ => rfl) l s
  simpa only [Prod.mk.injEq] using h

/-! The boot scan's map. -/

/-- A map made by setting each number of a range holds each number's value. -/
theorem getD_foldl_setD {α : Type} [DecidableEq α] (d : α) (f : Nat → α) (n : Nat) (m : FMap α) {k : Nat} (hk : k < n) :
    FMap.getD ((List.range n).foldl (fun m c => FMap.setD m d c (f c)) m) d k = f k := by
  induction n with
  | zero => omega
  | succ n ih =>
    rw [List.range_succ, List.foldl_append, List.foldl_cons, List.foldl_nil, FMap.getD_setD]
    by_cases h : n = k
    · rw [if_pos h, h]
    · rw [if_neg h, ih (by omega)]

/-! Events of the powered package. -/

theorem State.whenOn_of_power {s : State} (hp : s.power = true) (t : State) : s.whenOn t = .next t := by rw [State.whenOn, if_pos hp]

theorem exec_imageOffer {s : State} (hp : s.power = true) (b : List (BitVec 8)) : exec (.imageOffer b) s = .next
    (if s.boot.status = 0x03 then s.send (.status 0x03) else if s.boot.status ≠ 0 then s else ({ s with boot := { s.boot with image := b } } : State).setStatus 0x01) :=
  State.whenOn_of_power hp _

theorem exec_rowRepairInService {s : State} (hp : s.power = true) (r : RepairRow) : exec (.rowRepairInService r) s = .next
    (if r.exhausted then s.send (.rowExhausted r.row)
      else if s.boot.softRepaired.contains r.row then s else { s with boot := { s.boot with softRepaired := r.row :: s.boot.softRepaired } }) :=
  State.whenOn_of_power hp _

theorem exec_throttleStepDown {s : State} (hp : s.power = true) : exec .throttleStepDown s = .next
    (if s.boot.throttleAt.any (fun t => decide (s.tick < t + msTicks)) then s
      else { s with boot := { s.boot with throttle := s.boot.throttle - 1, throttleAt := some s.tick } }) :=
  State.whenOn_of_power hp _

/-- The boot ROM's verdict on the image that it holds (R49, R50). -/
theorem State.romStep_of_image {s : State} (hst : s.boot.status = 1) : s.romStep =
    (if imageStatus s.boot s.boot.image = 2 then ({ s with boot := { s.boot.accept s.boot.image with image := [] } } : State) else s).setStatus
      (imageStatus s.boot s.boot.image) := by
  rw [State.romStep, if_pos hst]

/-- A scan that ends in its time (R43). -/
theorem exec_scanComplete_of_end {s : State} {k t0 : Nat} (hscan : (s.core k).scan = true) (hfrom : (s.core k).scanFrom = some t0) (ht0 : t0 + scanTicks = s.tick)
    (pass : Bool) : exec (.scanComplete k pass) s = if pass then .next ((s.setCore k { s.core k with scan := false, scanFrom := none }).coreBack k)
      else .next (((s.setCore k { s.core k with scan := false, scanFrom := none, scanTick := none }).loseCore k).coreBack k) := by
  have hx : exec (.scanComplete k pass) s = execScanComplete k pass s := rfl
  have hend : ((s.core k).scanFrom.any fun t => decide (t + scanTicks = s.tick)) = true := by
    rw [hfrom, Option.any_some]
    exact decide_eq_true ht0
  rw [hx, execScanComplete]
  dsimp only
  rw [hend, hscan, if_neg (by decide)]

end Sys2Proof.Machine

namespace Sys2Proof.Proofs

open Sys2Proof.Machine Sys2Proof.Claims

/-- Settles O46: each event is its branch of the boot rules. -/
theorem powerAndRepairEvents : Obligations.PowerAndRepairEvents := by
  unfold Obligations.PowerAndRepairEvents
  refine ⟨fun s hp => ?_, fun s hp => ?_, fun s hp => ?_, fun s b hp => ⟨fun hst => ?_, fun hst => ?_⟩, fun s hst => ?_, fun s hlo hhi => ?_, fun s p hst => ⟨?_, ?_⟩,
    fun s row hp => ⟨?_, fun hrow => ?_⟩, fun s sl hp hspare => ?_, fun s sl hp hspare => ?_, fun s hp => ?_, fun s hp => ⟨fun hat => ?_, fun t hat hlt => ?_⟩,
    fun s hp => ⟨?_, ?_⟩, fun s k hscan hpresent hlate => ?_, fun s k c hc hscan hfrom hempty => ?_, fun s k t0 hscan hfrom ht0 => ⟨?_, fun hspare => ?_⟩, fun s k hpresent => ?_⟩
  · exact ⟨s.cold true, congrArg Host.Outcome.next (if_neg (by simp [hp])), rfl, rfl, rfl, rfl, rfl, rfl, rfl, rfl, rfl⟩
  · exact ⟨(s.cold false).send (.powerOff false), congrArg Host.Outcome.next (if_pos hp), rfl, rfl, rfl, rfl, rfl⟩
  · exact ⟨(s.cold false).send (.powerOff true), congrArg Host.Outcome.next (if_pos hp), rfl, rfl, rfl, rfl, rfl⟩
  · have hx := exec_imageOffer hp b
    rw [if_neg (by simp [hst]), if_neg (by simp [hst])] at hx
    exact ⟨_, hx, rfl, rfl⟩
  · have hx := exec_imageOffer hp b
    rw [if_pos hst] at hx
    exact hx
  · intro st
    have hrom := State.romStep_of_image hst
    refine ⟨?_, ?_, fun hrejected => ?_, fun haccepted => ?_⟩
    · rw [hrom]
      split <;> rfl
    · rw [hrom]
      split <;> rfl
    · rw [hrom, if_neg hrejected]
      rfl
    · rw [hrom, if_pos haccepted]
      exact ⟨rfl, rfl⟩
  · have hrom : s.romStep = ({ s with boot := { s.boot with image := [] } } : State).setStatus 0 := by rw [State.romStep, if_neg (by omega)]
    rw [hrom]
    exact ⟨rfl, rfl⟩
  · have hx : exec (.selfTestComplete true p) s = execSelfTestComplete true p s := rfl
    rw [execSelfTestComplete, if_neg (by simp [hst]), if_neg (by decide)] at hx
    refine ⟨_, hx, rfl, rfl, rfl, fun cl hcl => ?_⟩
    rw [State.mapWord, State.setStatus, State.send]
    exact getD_foldl_setD 0 (mapWordOf p) 64 [] hcl
  · have hx : exec (.selfTestComplete false p) s = execSelfTestComplete false p s := rfl
    rw [execSelfTestComplete, if_neg (by simp [hst]), if_pos (by decide)] at hx
    exact ⟨_, hx, rfl⟩
  · have hx := exec_rowRepairInService hp ⟨row, true⟩
    rw [if_pos rfl] at hx
    exact hx
  · have hx := exec_rowRepairInService hp ⟨row, false⟩
    rw [if_neg (by simp), if_neg (by simpa using hrow)] at hx
    exact hx
  · have hx : exec (.l2WayFailure sl) s = execL2WayFailure sl s := rfl
    rw [execL2WayFailure, if_neg (by simp [hp]), if_pos (by simp [hspare])] at hx
    exact ⟨_, hx, FMap.getD_setD_same s.boot.l2Spare false sl true, rfl, rfl⟩
  · have hx : exec (.l2WayFailure sl) s = execL2WayFailure sl s := rfl
    rw [execL2WayFailure, if_neg (by simp [hp]), if_neg (by simp [hspare])] at hx
    refine ⟨_, hx, ?_, ?_⟩
    · rw [(foldl_dropLine_rest ..).2]
      exact FMap.getD_setD_same s.boot.l2Ways 0 sl (FMap.getD s.boot.l2Ways 0 sl + 1)
    · rw [(foldl_dropLine_rest ..).1]
  · exact State.whenOn_of_power hp _
  · have hx := exec_throttleStepDown hp
    have hdone : ¬ s.boot.throttleAt.any (fun t => decide (s.tick < t + msTicks)) = true := by
      cases ht : s.boot.throttleAt with
      | none => simp
      | some t =>
        have hpast := hat t ht
        have hms : msTicks = 700000 := rfl
        rw [Option.any_some, decide_eq_true_eq, hms]
        omega
    rw [if_neg hdone] at hx
    exact hx
  · have hx := exec_throttleStepDown hp
    have hms : msTicks = 700000 := rfl
    rw [hat, Option.any_some, if_pos (by rw [decide_eq_true_eq, hms]; exact hlt)] at hx
    exact hx
  · exact State.whenOn_of_power hp _
  · exact State.whenOn_of_power hp _
  · have hx : exec (.inFieldScan k) s = execInFieldScan k s := rfl
    have hgo : ((s.core k).scan || !s.corePresent k || s.scannedLately k) = false := by simp [hscan, hpresent, hlate]
    simp only [execInFieldScan, hgo, Bool.false_eq_true, if_false] at hx
    refine ⟨_, hx, ?_, fun j hj => ?_, fun h => ?_⟩
    · rw [State.core_setCore, if_pos rfl]
    · rw [State.core_setCore, if_neg hj.symm]
    · unfold State.admits
      rw [State.core_setCore, if_pos rfl]
      split <;> simp
  · have hfind : FMap.find s.startScans.cores k = some { c with scanTick := some s.tick, scanFrom := some s.tick } := by
      rw [State.startScans, FMap.find_mapVals, hc, Option.map_some]
      simp [hscan, hfrom, hempty]
    rw [State.core, FMap.getD, hfind, Option.getD_some]
  · have hx := exec_scanComplete_of_end hscan hfrom ht0 true
    rw [if_pos rfl] at hx
    refine ⟨_, hx, ?_, ?_⟩
    · rw [(quiet_coreBack ..).core, State.core_setCore, if_pos rfl]
    · rw [(quiet_coreBack ..).boot]
      rfl
  · have hx := exec_scanComplete_of_end hscan hfrom ht0 false
    rw [if_neg (by decide)] at hx
    obtain ⟨hmap, hused⟩ := State.loseCore_spare (s := s.setCore k { s.core k with scan := false, scanFrom := none, scanTick := none }) (core := k) hspare
    refine ⟨_, hx, ?_, ?_, ?_⟩
    · obtain ⟨lost, hlost⟩ := State.loseCore_core (s.setCore k { s.core k with scan := false, scanFrom := none, scanTick := none }) k k
      rw [(quiet_coreBack ..).core, hlost, State.core_setCore, if_pos rfl]
    · rw [State.mapWord, (quiet_coreBack ..).boot]
      exact hmap
    · rw [(quiet_coreBack ..).boot]
      exact hused
  · have hx : exec (.coreLost k) s = execCoreLost k s := rfl
    rw [execCoreLost, if_neg (by simp [hpresent])] at hx
    refine ⟨_, hx, ?_, ?_, fun h hh => ?_⟩
    · obtain ⟨lost, hlost⟩ := State.loseCore_core (State.setCore _ k Core.empty) k k
      rw [(quiet_coreBack ..).core, hlost, State.core_setCore, if_pos rfl]
      rfl
    · obtain ⟨lost, hlost⟩ := State.loseCore_core (State.setCore _ k Core.empty) k k
      rw [(quiet_coreBack ..).core, hlost, State.core_setCore, if_pos rfl]
      rfl
    · rw [(quiet_coreBack ..).handlers, State.loseCore_handlers, State.setCore_handlers, FMap.find_filterKV_key, if_neg (by simp [hh])]

end Sys2Proof.Proofs
end

