-- ==== Sys2Proof/Proofs/LaunchEvents.lean ====
section
/-! SUPPORT. Launch queues: tails, records, wait objects and headers (R58 to R67). -/

namespace Sys2Proof.Machine

open Sys2Proof.Claims

/-- An MSI-X signal changes no more of a VF than its pending bits. -/
theorem vf_signalMsix (s : State) (vf vec k : Nat) : ∃ p, (s.signalMsix vf vec).vf k = { s.vf k with msixPend := p } := by
  have hmessage : ∀ p m, (s.msixMessage p (some vf) vec m).vfs = s.vfs := by
    intro p m
    unfold State.msixMessage
    dsimp only
    split <;> rfl
  unfold State.signalMsix
  dsimp only
  split
  · rw [State.vf, State.setVf, FMap.getD_setD]
    split
    · next h => exact ⟨_, by rw [h]⟩
    · exact ⟨_, rfl⟩
  · exact ⟨_, State.vf_of_vfs (hmessage _ _) k⟩

theorem State.vf_setVf (s : State) (k : Nat) (v : Vf) : (s.setVf k v).vf k = v := FMap.getD_setD_same ..

theorem State.stopQueue_records (s : State) (vf err det : Nat) (m : Bool) (h : (s.vf vf).stopped = false) :
    ((s.stopQueue vf err det m).vf vf).stopped = true ∧ ((s.stopQueue vf err det m).vf vf).lqerr = err ∧
    ((s.stopQueue vf err det m).vf vf).lqdetail = det := by
  have hvf : ((s.setVf vf { s.vf vf with stopped := true, lqerr := err, lqdetail := det, starting := none }).schedule (.switchIn (s.vf vf).part)).vf vf =
    { s.vf vf with stopped := true, lqerr := err, lqdetail := det, starting := none } := State.vf_setVf ..
  rw [State.stopQueue, if_neg (by rw [h]; decide)]
  cases m with
  | false => rw [if_neg (by decide), hvf]; exact ⟨rfl, rfl, rfl⟩
  | true =>
    rw [if_pos rfl]
    obtain ⟨p, hp⟩ := vf_signalMsix ((s.setVf vf { s.vf vf with stopped := true, lqerr := err, lqdetail := det, starting := none }).schedule
      (.switchIn (s.vf vf).part)) vf 0 vf
    rw [hp, hvf]
    exact ⟨rfl, rfl, rfl⟩

theorem State.lqhead_advanceHead (s : State) (vf : Nat) : ((s.advanceHead vf).vf vf).lqhead = ((s.vf vf).lqhead + 1) % 2 ^ 32 :=
  congrArg Vf.lqhead (s.vf_modVf vf fun v => { v with lqhead := (v.lqhead + 1) % 2 ^ 32, starting := none })

/-! The queue's registers. -/

section
variable {s : State} {vf : Nat} (hreset : (s.vf vf).resetting = false)
include hreset

theorem lqtailWrite_within (val : BitVec 64)
    (h : (val.toNat % 2 ^ 32 + 2 ^ 32 - (s.vf vf).lqtail) % 2 ^ 32 ≤
      ((s.vf vf).lqhead + 2 ^ (if (s.vf vf).en then (s.vf vf).inLgsize else (s.vf vf).lgsize) + 2 ^ 32 - (s.vf vf).lqtail) % 2 ^ 32) :
    exec (.lqtailWrite vf val) s = .next (((s.setVf vf { s.vf vf with lqtail := val.toNat % 2 ^ 32 }).schedule (.recordStart vf)).schedule
      (.switchIn (s.vf vf).part)) := by
  have hx : exec (.lqtailWrite vf val) s = execLqtailWrite vf val s := rfl
  rw [hx, execLqtailWrite, if_neg (by rw [hreset]; decide), if_pos h]

theorem lqtailWrite_beyond (val : BitVec 64)
    (h : ((s.vf vf).lqhead + 2 ^ (if (s.vf vf).en then (s.vf vf).inLgsize else (s.vf vf).lgsize) + 2 ^ 32 - (s.vf vf).lqtail) % 2 ^ 32 <
      (val.toNat % 2 ^ 32 + 2 ^ 32 - (s.vf vf).lqtail) % 2 ^ 32) :
    exec (.lqtailWrite vf val) s = .next (s.stopQueue vf 2 0 true) := by
  have hx : exec (.lqtailWrite vf val) s = execLqtailWrite vf val s := rfl
  rw [hx, execLqtailWrite, if_neg (by rw [hreset]; decide), if_neg (Nat.not_le.mpr h)]

theorem vfctlEn_on (hen : (s.vf vf).en = false) (hlow : 4 ≤ (s.vf vf).lgsize) (hhigh : (s.vf vf).lgsize ≤ 16) (hbase : (s.vf vf).lqbase % 4096 = 0) :
    exec (.vfctlEn vf true) s = .next (((s.setVf vf { s.vf vf with en := true, inLqbase := (s.vf vf).lqbase, inLgsize := (s.vf vf).lgsize, starting := none }).schedule
      (.recordStart vf)).schedule (.switchIn (s.vf vf).part)) := by
  have hx : exec (.vfctlEn vf true) s = execVfctlEn vf true s := rfl
  rw [hx, execVfctlEn, if_neg (by rw [hreset]; decide), if_pos (by rw [hen]; rfl), if_neg (by omega)]

theorem vfctlEn_off : exec (.vfctlEn vf false) s = .next ((s.setVf vf { s.vf vf with en := false }).schedule (.switchIn (s.vf vf).part)) := by
  have hx : exec (.vfctlEn vf false) s = execVfctlEn vf false s := rfl
  rw [hx, execVfctlEn, if_neg (by rw [hreset]; decide)]
  rfl

theorem qreset_clears (hstop : (s.vf vf).stopped = true) :
    exec (.qreset vf) s = .next ((s.setVf vf { s.vf vf with lqhead := (s.vf vf).lqtail, stopped := false, lqerr := 0, lqdetail := 0, starting := none }).schedule
      (.switchIn (s.vf vf).part)) := by
  have hx : exec (.qreset vf) s = execQreset vf s := rfl
  rw [hx, execQreset]
  exact if_pos (by rw [hstop, hreset]; rfl)
end

/-! Records. -/

section
variable {s s1 : State} {vf : Nat} {b : List Byte} (hstart : (s.vf vf).mayStart = true)
  (hread : unitReadWords (s.whoVf vf) ((s.vf vf).inLqbase + 64 * ((s.vf vf).lqhead % 2 ^ (s.vf vf).inLgsize)) 8 s = (.ok (b, false), s1))
include hstart hread

theorem recordStart_passes (hok : recFail b = none) :
    exec (.recordStart vf) s = .next ((s1.modVf vf (fun v => { v with starting := some ⟨launchRec b, none, none, 0, !bitAt (launchRec b).flags 0, none⟩ })).schedule
      (if bitAt (launchRec b).flags 0 then .wobjReread vf else .recordWaitSatisfied vf)) := by
  have hx : exec (.recordStart vf) s = execRecordStart vf s := rfl
  rw [hx, execRecordStart, if_neg (by rw [hstart]; decide), hread]
  dsimp only
  rw [if_neg (by decide), hok]

theorem recordStart_fails {o : Nat} (hfail : recFail b = some o) : exec (.recordStart vf) s = .next (s1.stopQueue vf 3 o true) := by
  have hx : exec (.recordStart vf) s = execRecordStart vf s := rfl
  rw [hx, execRecordStart, if_neg (by rw [hstart]; decide), hread]
  dsimp only
  rw [if_neg (by decide), hfail]
end

section
variable {s s1 : State} {vf x line : Nat} {r : PendingRec} (hr : (s.vf vf).starting = some r) (hok : r.ok = false) (hgo : (s.vf vf).mayGoOn = true)
  (hread : readWobj (s.whoVf vf) r.lrec.wobj s = (.value x line, s1))
include hr hok hgo hread

theorem wobjReread_met (h : r.lrec.wval ≤ x) :
    exec (.wobjReread vf) s = .next ((s1.modVf vf (fun v => { v with starting := some { r with ok := true, line := none } })).schedule (.recordWaitSatisfied vf)) := by
  have hx : exec (.wobjReread vf) s = execWobjReread vf s := rfl
  rw [hx, execWobjReread, hr]
  dsimp only
  rw [if_neg (by rw [hok, hgo]; decide), hread]
  exact if_pos h

theorem wobjReread_below (h : x < r.lrec.wval) :
    exec (.wobjReread vf) s = .next (s1.modVf vf (fun v => { v with starting := some { r with line := some line, due := s1.tick + 1400 } })) := by
  have hx : exec (.wobjReread vf) s = execWobjReread vf s := rfl
  rw [hx, execWobjReread, hr]
  dsimp only
  rw [if_neg (by rw [hok, hgo]; decide), hread]
  exact if_neg (Nat.not_le.mpr h)
end

section
variable {s : State} {vf : Nat} {r : PendingRec} (hr : (s.vf vf).starting = some r)
include hr

theorem recordWaitSatisfied_nop (hok : r.ok = true) (hgo : (s.vf vf).mayGoOn = true) (htype : r.lrec.type = 0) :
    exec (.recordWaitSatisfied vf) s = .next (s.advanceHead vf) := by
  have hx : exec (.recordWaitSatisfied vf) s = execRecordWaitSatisfied vf s := rfl
  rw [hx, execRecordWaitSatisfied, hr]
  dsimp only
  rw [if_neg (by rw [hok, hgo]; decide), if_pos htype]

theorem record_stands (hgo : (s.vf vf).mayGoOn = false) : exec (.wobjReread vf) s = .next s ∧ exec (.recordWaitSatisfied vf) s = .next s := by
  have hx : exec (.wobjReread vf) s = execWobjReread vf s := rfl
  have hx' : exec (.recordWaitSatisfied vf) s = execRecordWaitSatisfied vf s := rfl
  rw [hx, hx', execWobjReread, execRecordWaitSatisfied, hr]
  dsimp only
  rw [if_pos (by rw [hgo]; exact Bool.or_true _), if_pos (by rw [hgo]; exact Bool.or_true _)]
  exact ⟨rfl, rfl⟩

variable {s1 : State} {b : List Byte} (hok : r.ok = true) (hgo : (s.vf vf).mayGoOn = true) (htype : r.lrec.type ≠ 0)
  (hread : unitReadWords (s.whoVf vf) r.lrec.header 16 s = (.ok (b, false), s1))
include hok hgo htype hread

theorem recordWaitSatisfied_starts (hpass : hdrFail b = none) :
    exec (.recordWaitSatisfied vf) s = .next ((s1.startGrid vf true r.lrec (launchHdr b)).advanceHead vf) := by
  have hx : exec (.recordWaitSatisfied vf) s = execRecordWaitSatisfied vf s := rfl
  rw [hx, execRecordWaitSatisfied, hr]
  dsimp only
  rw [if_neg (by rw [hok, hgo]; decide), if_neg htype, hread]
  dsimp only
  rw [if_neg (by decide), hpass]

theorem recordWaitSatisfied_stops {o : Nat} (hfail : hdrFail b = some o) : exec (.recordWaitSatisfied vf) s = .next (s1.stopQueue vf 4 o true) := by
  have hx : exec (.recordWaitSatisfied vf) s = execRecordWaitSatisfied vf s := rfl
  rw [hx, execRecordWaitSatisfied, hr]
  dsimp only
  rw [if_neg (by rw [hok, hgo]; decide), if_neg htype, hread]
  dsimp only
  rw [if_neg (by decide), hfail]
end

end Sys2Proof.Machine

namespace Sys2Proof.Proofs

open Sys2Proof.Machine Sys2Proof.Claims

/-- Settles O47: the branches of the queue unit, one lemma each. -/
theorem launchQueueEvents : Obligations.LaunchQueueEvents := by
  unfold Obligations.LaunchQueueEvents
  refine ⟨?_, ?_, ?_, ?_, ?_, ?_, ?_, ?_, ?_, State.lqhead_advanceHead, State.stopQueue_records⟩
  · intro s vf val hreset
    exact ⟨lqtailWrite_within hreset val, lqtailWrite_beyond hreset val⟩
  · exact fun s vf hreset hen hlow hhigh hbase => vfctlEn_on hreset hen hlow hhigh hbase
  · exact fun s vf hreset => vfctlEn_off hreset
  · exact fun s vf hreset hstop => qreset_clears hreset hstop
  · exact fun s s1 vf b hstart hread => ⟨recordStart_passes hstart hread, fun o => recordStart_fails hstart hread⟩
  · exact fun s s1 vf r x line hr hok hgo hread => ⟨wobjReread_met hr hok hgo hread, wobjReread_below hr hok hgo hread⟩
  · exact fun s vf r hr hok hgo htype => recordWaitSatisfied_nop hr hok hgo htype
  · exact fun s s1 vf r b hr hok hgo htype hread =>
      ⟨recordWaitSatisfied_starts hr hok hgo htype hread, fun o => recordWaitSatisfied_stops hr hok hgo htype hread⟩
  · exact fun s vf r hr hgo => record_stands hr hgo

end Sys2Proof.Proofs
end

