-- ==== Sys2Proof/Proofs/CompletionEvents.lean ====
section
/-! SUPPORT. Grid errors, completions, the device launch queue and returned calls (R72 to R77). -/

namespace Sys2Proof.Machine

open Sys2Proof.Claims

theorem grids_signalMsix (s : State) (vf vec : Nat) : (s.signalMsix vf vec).grids = s.grids := by
  unfold State.signalMsix State.msixMessage
  dsimp only
  split
  · rfl
  · split <;> rfl

theorem ms_signalMsix (s : State) (vf vec : Nat) : (s.signalMsix vf vec).ms = s.ms := by
  unfold State.signalMsix State.msixMessage
  dsimp only
  split
  · rfl
  · split <;> rfl

theorem State.find_modGrid {s : State} {k : Nat} {g : Grid} (h : FMap.find s.grids k = some g) (f : Grid → Grid) :
    FMap.find (s.modGrid k f).grids k = some (f g) := by
  rw [State.modGrid, h]
  exact FMap.find_insert_same _ _ _

theorem State.ms_modGrid (s : State) (k : Nat) (f : Grid → Grid) : (s.modGrid k f).ms = s.ms := by
  unfold State.modGrid
  split <;> rfl

theorem State.turn_modGrid (s : State) (k : Nat) (f : Grid → Grid) : (s.modGrid k f).turn = s.turn := by
  unfold State.modGrid
  split <;> rfl

/-! The first error of a grid. -/

theorem contextErrorReport_first {s : State} {k : Nat} {g : Grid} (st det core slot pc : Nat) (hg : FMap.find s.grids k = some g) (herr : g.err = none)
    (hstage : g.stage < 2) :
    let e : GridErr := ⟨st, if st = 1 then det else 0, if st = 1 ∨ st = 2 then s.clusterField (s.vf g.vf).part core else 0, if st = 1 ∨ st = 2 then core % 9 else 0, slot, pc⟩
    let stops := g.fromRing && !(s.vf g.vf).stopped && decide (st ≠ 3)
    let s1 := s.modGrid k (fun g => { g with err := some e, stopsQueue := stops })
    exec (.contextErrorReport k st det core slot pc) s = .next ((if stops then s1.stopQueue g.vf 6 0 false else s1).haltGrid k) := by
  intro e stops s1
  have hx : exec (.contextErrorReport k st det core slot pc) s = execContextErrorReport k st det core slot pc s := rfl
  have hopen : ¬ (g.err.isSome = true ∨ 2 ≤ g.stage) := by
    rw [herr]
    rintro (h | h)
    · cases h
    · omega
  have hlocated : (⟨st, if st = 1 then det else 0, if decide (st = 1 ∨ st = 2) = true then s.clusterField (s.vf g.vf).part core else 0,
      if decide (st = 1 ∨ st = 2) = true then core % 9 else 0, slot, pc⟩ : GridErr) = e := by
    simp only [decide_eq_true_eq, e]
  rw [hx, execContextErrorReport, hg]
  dsimp only
  rw [if_neg hopen, hlocated]

theorem contextErrorReport_later {s : State} {k : Nat} {g : Grid} {g0 : GridErr} (st det core slot pc : Nat) (hg : FMap.find s.grids k = some g)
    (h : g.err = some g0 ∨ 2 ≤ g.stage) : exec (.contextErrorReport k st det core slot pc) s = .next s := by
  have hx : exec (.contextErrorReport k st det core slot pc) s = execContextErrorReport k st det core slot pc s := rfl
  rw [hx, execContextErrorReport, hg]
  exact if_pos (h.imp (fun h => by rw [h]; rfl) id)

/-! The steps of a completion. -/

section
variable {s : State} {k : Nat} {g : Grid} (hg : FMap.find s.grids k = some g)
include hg

theorem gridCompletion_unended (hstage : g.stage = 0) (hdone : s.gridDone k g = false) : exec (.gridCompletion k) s = .next s := by
  have hx : exec (.gridCompletion k) s = execGridCompletion k s := rfl
  rw [hx, execGridCompletion, hg]
  dsimp only
  rw [if_pos hstage, if_neg (by rw [hdone]; decide)]

theorem gridCompletion_ended (hstage : g.stage = 0) (hdone : s.gridDone k g = true) :
    exec (.gridCompletion k) s = .next ((s.modGrid k (fun x => x.close s.tick)).schedule (.gridCompletion k)) := by
  have hx : exec (.gridCompletion k) s = execGridCompletion k s := rfl
  rw [hx, execGridCompletion, hg]
  dsimp only
  rw [if_pos hstage, if_pos hdone]

theorem gridCompletion_flushes (hstage : g.stage ≠ 0) (hw : g.written ≠ []) : exec (.gridCompletion k) s = .next (s.flushGrid k g) := by
  have hx : exec (.gridCompletion k) s = execGridCompletion k s := rfl
  rw [hx, execGridCompletion, hg]
  dsimp only
  rw [if_neg hstage, if_pos (by rw [Bool.not_eq_true', List.isEmpty_eq_false_iff]; exact hw)]

variable (hstage : g.stage ≠ 0) (hw : g.written = [])
include hstage hw

theorem gridCompletion_waits (hf : g.flush ≠ []) : exec (.gridCompletion k) s = .next s := by
  have hx : exec (.gridCompletion k) s = execGridCompletion k s := rfl
  rw [hx, execGridCompletion, hg]
  dsimp only
  rw [if_neg hstage, if_neg (by rw [hw]; decide), if_pos (by rw [Bool.not_eq_true', List.isEmpty_eq_false_iff]; exact hf)]

variable (hf : g.flush = [])
include hf

theorem gridCompletion_records {s1 : State} (h1 : g.stage = 1) (hcrec : g.lrec.crec ≠ 0)
    (hwrite : unitWrite (s.whoVf g.vf) g.lrec.crec g.completion s = (.ok (), s1)) :
    exec (.gridCompletion k) s =
      .next ((s1.modGrid k (fun x => { x with stage := 2, written := unitPackage (s.whoVf g.vf) g.lrec.crec s })).schedule (.gridCompletion k)) := by
  have hx : exec (.gridCompletion k) s = execGridCompletion k s := rfl
  rw [hx, execGridCompletion, hg]
  dsimp only
  rw [if_neg hstage, if_neg (by rw [hw]; decide), if_neg (by rw [hf]; decide), if_pos h1, State.writeCompletion, if_neg hcrec, hwrite, if_neg hcrec]

variable (h1 : g.stage ≠ 1) (hreset : (s.vf g.vf).resetting = false)
include h1 hreset

theorem gridCompletion_signals {s1 : State} (hflag : bitAt g.lrec.flags 1 = true) (herr : g.err = none)
    (hsig : unitSignal (s.whoVf g.vf) g.lrec.sobj g.lrec.sinc s = (.ok (), s1)) :
    exec (.gridCompletion k) s = .next (s1.endGrid k g g.stepFailed) := by
  have hx : exec (.gridCompletion k) s = execGridCompletion k s := rfl
  rw [hx, execGridCompletion, hg]
  dsimp only
  rw [if_neg hstage, if_neg (by rw [hw]; decide), if_neg (by rw [hf]; decide), if_neg h1, if_neg (by rw [hreset]; decide), State.signalCompletion,
    if_pos (by rw [hflag, herr]; rfl), hsig]

theorem gridCompletion_silent (h : bitAt g.lrec.flags 1 = false ∨ g.err ≠ none) : exec (.gridCompletion k) s = .next (s.endGrid k g g.stepFailed) := by
  have hx : exec (.gridCompletion k) s = execGridCompletion k s := rfl
  have hsilent : ¬ (bitAt g.lrec.flags 1 && g.err.isNone) = true := by
    rw [Bool.and_eq_true, Option.isNone_iff_eq_none]
    rintro ⟨hflag, herr⟩
    exact h.elim (fun h => absurd hflag (by rw [h]; decide)) (fun h => h herr)
  rw [hx, execGridCompletion, hg]
  dsimp only
  rw [if_neg hstage, if_neg (by rw [hw]; decide), if_neg (by rw [hf]; decide), if_neg h1, if_neg (by rw [hreset]; decide), State.signalCompletion,
    if_neg hsilent]
end

/-- A signal sent or left out. -/
theorem grids_ifSignal (s : State) (b : Bool) (vf vec : Nat) :
    (if b then s.signalMsix vf vec else s).grids = s.grids ∧ (if b then s.signalMsix vf vec else s).ms = s.ms := by
  cases b with
  | false => exact ⟨rfl, rfl⟩
  | true => exact ⟨grids_signalMsix s vf vec, ms_signalMsix s vf vec⟩

theorem State.endGrid_removes (s : State) (k : Nat) (g : Grid) (failed : Bool) :
    (s.endGrid k g failed).grids = FMap.erase s.grids k ∧ (s.endGrid k g failed).ms = s.ms := by
  have hend : ∀ t : State, (if (t.vf g.vf).resetting then t.schedule (.vfResetComplete g.vf) else t).grids = t.grids ∧
      (if (t.vf g.vf).resetting then t.schedule (.vfResetComplete g.vf) else t).ms = t.ms := by
    intro t
    split <;> exact ⟨rfl, rfl⟩
  unfold State.endGrid
  obtain ⟨hg1, hm1⟩ := grids_ifSignal s (bitAt g.lrec.flags 2 && !(decide ((g.err.map (fun e => e.status)) = some 3) || (s.vf g.vf).resetting)) g.vf g.lrec.vector
  dsimp only
  generalize (if (bitAt g.lrec.flags 2 && !(decide ((g.err.map (fun e => e.status)) = some 3) || (s.vf g.vf).resetting)) = true then
    s.signalMsix g.vf g.lrec.vector else s) = s1 at hg1 hm1 ⊢
  generalize (failed && !(decide ((g.err.map (fun e => e.status)) = some 3) || (s.vf g.vf).resetting)) = b2
  obtain ⟨hg2, hm2⟩ := grids_ifSignal s1 b2 g.vf 0
  generalize (if b2 = true then s1.signalMsix g.vf 0 else s1) = s2 at hg2 hm2 ⊢
  generalize ((!(decide ((g.err.map (fun e => e.status)) = some 3) || (s.vf g.vf).resetting)) && (g.stopsQueue || (!g.fromRing && g.err.isSome))) = b3
  obtain ⟨hg3, hm3⟩ := grids_ifSignal s2 b3 g.vf 0
  generalize (if b3 = true then s2.signalMsix g.vf 0 else s2) = s3 at hg3 hm3 ⊢
  obtain ⟨hg4, hm4⟩ := hend (({ s3 with grids := FMap.erase s3.grids k }).schedule (.switchIn (s3.vf g.vf).part))
  refine ⟨hg4.trans ?_, hm4.trans (hm3.trans (hm2.trans hm1))⟩
  exact congrArg (FMap.erase · k) (hg3.trans (hg2.trans hg1))

theorem State.endGrid_silent {s : State} {k : Nat} {g : Grid} (hflags : g.lrec.flags = 0) (hstops : g.stopsQueue = false)
    (hring : g.fromRing = true ∨ g.err = none) (hreset : (s.vf g.vf).resetting = false) :
    s.endGrid k g false = ({ s with grids := FMap.erase s.grids k }).schedule (.switchIn (s.vf g.vf).part) := by
  have hquiet : (!g.fromRing && g.err.isSome) = false := by
    obtain h | h := hring
    · rw [h]; rfl
    · rw [h, Option.isSome_none, Bool.and_false]
  have hbit : bitAt g.lrec.flags 2 = false := by rw [hflags]; rfl
  unfold State.endGrid
  dsimp only
  rw [hbit, Bool.false_and, hstops, hquiet, Bool.or_false, Bool.and_false]
  simp only [Bool.false_eq_true, if_false]
  exact if_neg fun h => absurd (hreset.symm.trans h) (by decide)

/-! The device launch queue and returned calls. -/

theorem dlqRecordStart_starts {s : State} {vf : Nat} {r : PendingRec} {rest : List PendingRec} {h : LaunchHdr} (hq : (s.vf vf).dlq = r :: rest)
    (hflag : bitAt r.lrec.flags 0 = false) (hh : r.hdr = some h) : exec (.dlqRecordStart vf) s = .next ((s.startGrid vf false r.lrec h).popDlq vf) := by
  have hx : exec (.dlqRecordStart vf) s = execDlqRecordStart vf s := rfl
  rw [hx, execDlqRecordStart, hq]
  dsimp only
  rw [if_pos (by rw [hflag]; rfl), State.startDlq, hh]

theorem hsdoneWrite_returns {s : State} {vf slot : Nat} {x : CallSlot} (hc : FMap.find (s.vf vf).calls slot = some x) (hslot : slot < 256) (hp : x.pending = true) :
    exec (.hsdoneWrite vf slot) s =
      .next ((s.modVf vf (fun v => { v with calls := FMap.insert v.calls slot { x with pending := false, returned := true } })).schedule (.hcallResume vf slot)) := by
  have hx : exec (.hsdoneWrite vf slot) s = execHsdoneWrite vf slot s := rfl
  rw [hx, execHsdoneWrite, hc]
  exact if_pos ⟨hslot, hp⟩

/-- A split's context comes from its group. -/
theorem split_of_ctxOf {s : State} {gid e : Nat} {c : Ctx} (h : s.ctxOf (some (.split gid e)) = some c) :
    ∃ g sp, FMap.find s.groups gid = some g ∧ FMap.find g.table e = some sp ∧ c = groupCtx g gid e sp := by
  unfold State.ctxOf at h
  dsimp only at h
  split at h
  · next g hg =>
    split at h
    · next sp hsp => exact ⟨g, sp, hg, hsp, (Option.some.inj h).symm⟩
    · cases h
  · cases h

/-- The split that waits for the call is one of its group's. -/
theorem State.callWaits_of_ctxOf {s : State} {vf slot gid e : Nat} {c : Ctx} (hvf : s.vfOf gid = vf) (h : s.ctxOf (some (.split gid e)) = some c)
    (hw : c.split.wait = .call slot) : s.callWaits vf slot gid = true := by
  obtain ⟨g, sp, hg, hsp, rfl⟩ := split_of_ctxOf h
  have hany : g.splits.any (fun sp => decide (sp.wait = .call slot)) = true :=
    List.any_eq_true.mpr ⟨sp, List.mem_append_left _ (List.mem_map_of_mem (f := Prod.snd) (FMap.mem_of_find hsp)), decide_eq_true hw⟩
  unfold State.callWaits
  dsimp only
  rw [hg, Option.map_some, Option.getD_some, hany, decide_eq_true hvf]
  rfl

theorem hcallResume_completes {s s1 : State} {vf slot : Nat} {x : CallSlot} {g : Group} {c : Ctx} {b : List Byte} (hc : FMap.find (s.vf vf).calls slot = some x)
    (hret : x.returned = true) (hg : FMap.find s.groups x.gid = some g) (hrun : g.status = .running) (hvf : s.vfOf x.gid = vf)
    (hctx : s.ctxOf (some (.split x.gid x.entry)) = some c) (hw : c.split.wait = .call slot)
    (hread : unitReadWords (s.whoOf x.gid) ((s.vf vf).hsbase + 64 * slot) 8 s = (.ok (b, false), s1)) (hst : leField b 2 2 < 0xFFFE) :
    exec (.hcallResume vf slot) s =
      .next (((s1.modVf vf (fun v => { v with calls := FMap.erase v.calls slot })).dropL1 (coreOf c.gid)).retire c
        (callResults (BitVec.ofNat 8 x.dst) (BitVec.ofNat 8 x.reg) b c) (c.split.pc + 4#64)) := by
  have hwaits := State.callWaits_of_ctxOf hvf hctx hw
  have hgid : c.gid = x.gid := by
    obtain ⟨g', sp, -, -, rfl⟩ := split_of_ctxOf hctx
    rfl
  have hx : exec (.hcallResume vf slot) s = execHcallResume vf slot s := rfl
  rw [hx, execHcallResume, hc]
  dsimp only
  rw [if_neg (by rw [hwaits]; exact fun h => absurd h.2 (by decide)), hg, hctx]
  dsimp only
  rw [if_pos ⟨hret, hvf, hrun, hw⟩, callFinish, hgid, hread]
  dsimp only
  rw [if_neg (by decide), if_neg (Nat.not_le.mpr hst)]
  rfl

end Sys2Proof.Machine

namespace Sys2Proof.Proofs

open Sys2Proof.Machine Sys2Proof.Claims

/-- Settles O48: a grid's error, the steps of its completion, the head of the device launch queue, and a call's return. -/
theorem completionAndCallEvents : Obligations.CompletionAndCallEvents := by
  unfold Obligations.CompletionAndCallEvents
  refine ⟨?_, ?_, ?_, ?_, ?_, ?_, ?_, ?_, State.endGrid_removes, ?_, ?_, ?_, ?_, ?_⟩
  · exact fun s k g st det core slot pc hg herr hstage => contextErrorReport_first st det core slot pc hg herr hstage
  · exact fun s k g g0 st det core slot pc hg h => contextErrorReport_later st det core slot pc hg h
  · intro s k g hg hstage
    refine ⟨gridCompletion_unended hg hstage, fun hdone => ?_⟩
    have hx := gridCompletion_ended hg hstage hdone
    refine ⟨_, hx, ?_, State.ms_modGrid .., fun _ => ?_⟩
    · exact congrArg (fun x : Turn => x.agenda ++ [.gridCompletion k]) (State.turn_modGrid ..)
    · rw [show (State.schedule (s.modGrid k fun x => x.close s.tick) (.gridCompletion k)).grids = (s.modGrid k fun x => x.close s.tick).grids from rfl,
        State.find_modGrid hg]
      rfl
  · exact fun s k g hg hstage hw => gridCompletion_flushes hg hstage hw
  · exact fun s k g hg hstage hw hf => gridCompletion_waits hg hstage hw hf
  · intro s s1 k g hg h1 hw hf hcrec e hwrite
    exact gridCompletion_records hg (by omega) hw hf h1 hcrec hwrite
  · exact fun s s1 k g hg h2 hw hf hreset hflag herr hsig => gridCompletion_signals hg (by omega) hw hf (by omega) hreset hflag herr hsig
  · exact fun s k g hg h2 hw hf hreset h => gridCompletion_silent hg (by omega) hw hf (by omega) hreset h
  · exact fun s k g hflags hstops hring hreset => State.endGrid_silent hflags hstops hring hreset
  · exact fun s vf r rest h hq hflag hh => dlqRecordStart_starts hq hflag hh
  · exact fun s vf => congrArg Vf.dlq (s.vf_modVf vf fun v => { v with dlq := v.dlq.drop 1 })
  · exact fun s vf slot x hc hslot hp => hsdoneWrite_returns hc hslot hp
  · exact fun s s1 vf slot x g c b hc hret hg hrun hvf hctx hw hread hst => hcallResume_completes hc hret hg hrun hvf hctx hw hread hst

end Sys2Proof.Proofs
end

