-- ==== Sys2Proof/Proofs/OwnershipEvents.lean ====
section
/-! SUPPORT. What a partition owns, invalidations and register writes (R51 to R60, R84, R85, R101, R110). -/

namespace Sys2Proof.Machine

open Sys2Proof.Claims

theorem field_low (x n : Nat) : field x 0 n = x % 2 ^ n := by
  rw [field, Nat.pow_zero, Nat.div_one]

theorem State.part_modPart_other (s : State) {p q : Nat} (h : q ≠ p) (f : Partition → Partition) : (s.modPart p f).part q = s.part q :=
  FMap.getD_setD_other _ _ (Ne.symm h) _

theorem State.part_of_parts {s t : State} (h : t.parts = s.parts) (k : Nat) : t.part k = s.part k := by rw [State.part, h, State.part]

/-! Clusters, lines and ports. -/

theorem pclusWrite_takes {s : State} {p : Nat} {v : BitVec 64} (hown : s.ownedElsewhere p (fun x => x.pclus) v.toNat = false)
    (hheld : ((List.range 64).filter (fun c => bitAt (s.part p).pclus c && !bitAt v.toNat c)).any (s.clusterHeld p) = false) (hsaved : s.hasSaved p = false) :
    ∃ t, exec (.pclusWrite p v) s = .next t ∧ Quiet (s.modPart p (fun x => { x with pclus := v.toNat })) t := by
  have hx : exec (.pclusWrite p v) s = execPclusWrite p v s := rfl
  rw [execPclusWrite] at hx
  dsimp only at hx
  rw [if_neg (by rw [hown]; decide), if_neg (by rw [hheld]; decide), if_neg (by rw [hsaved]; exact fun h => absurd h.2 (by decide))] at hx
  exact ⟨_, hx, ((quiet_settlePointers _ p).trans (quiet_wakePlacement _ p)).trans (quiet_schedule _ _)⟩

theorem State.dropLine_keeps (s : State) (line : Nat) : (s.dropLine line).parts = s.parts ∧ (s.dropLine line).ms = s.ms := ⟨rfl, rfl⟩

/-- Reclaimed lines are lines of the L2 and the L1s. -/
theorem State.reclaim_keeps (s : State) (p : Nat) : (s.reclaim p).parts = s.parts ∧ (s.reclaim p).ms.mem = s.ms.mem := by
  refine ⟨?_, ?_⟩
  · exact foldl_keep State.parts _ (fun t (x : L2Line) => (t.dropLine_keeps x.line).1) _ _
  · exact foldl_keep (fun t : State => t.ms.mem) _ (fun t (x : L2Line) => congrArg MemSys.mem (t.dropLine_keeps x.line).2) _ _

theorem l2qWrite_refuses {s : State} {p : Nat} {v : BitVec 64}
    (h : s.usableLines < (s.parts.filter (fun q => decide (q.1 ≠ p))).foldl (fun m q => m + q.2.l2q) 0 + v.toNat % 2 ^ 13) :
    exec (.l2qWrite p v) s = .next (s.refuse p 0x18 3) := by
  have hx : exec (.l2qWrite p v) s = execL2qWrite p v s := rfl
  rw [hx, execL2qWrite, field_low]
  exact if_pos h

theorem l2qWrite_takes {s : State} {p : Nat} {v : BitVec 64}
    (h : (s.parts.filter (fun q => decide (q.1 ≠ p))).foldl (fun m q => m + q.2.l2q) 0 + v.toNat % 2 ^ 13 ≤ s.usableLines) (hn : v.toNat % 2 ^ 13 ≤ 4096) :
    exec (.l2qWrite p v) s = .next ((s.modPart p (fun x => { x with l2q := v.toNat % 2 ^ 13 })).reclaim p) := by
  have hx : exec (.l2qWrite p v) s = execL2qWrite p v s := rfl
  rw [hx, execL2qWrite, field_low, if_neg (Nat.not_lt.mpr h), if_neg (Nat.not_lt.mpr hn)]

/-! Stages. -/

theorem State.stage_modStage (s : State) (stage2 : Bool) (n : Nat) (f : Stage → Stage) : (s.modStage stage2 n f).stage stage2 n = f (s.stage stage2 n) := by
  cases stage2 with
  | false => exact congrArg Vf.stage1 (s.vf_modVf n fun x => { x with stage1 := f x.stage1 })
  | true => exact congrArg Partition.stage2 (s.part_modPart n fun x => { x with stage2 := f x.stage2 })

theorem State.modStage_keeps (s : State) (stage2 : Bool) (n : Nat) (f : Stage → Stage) :
    (s.modStage stage2 n f).ms = s.ms ∧ (s.modStage stage2 n f).cores = s.cores := by
  cases stage2 with
  | false => exact ⟨rfl, rfl⟩
  | true => exact ⟨rfl, rfl⟩

/-- A dropped range is cached by no core. -/
theorem State.tlb_dropRanges (s : State) (test : CachedRange → Bool) {k : Nat} {r : CachedRange} (h : r ∈ ((s.dropRanges test).core k).tlb) : test r = false := by
  unfold State.dropRanges State.core FMap.getD at h
  rw [FMap.find_mapVals] at h
  cases hc : FMap.find s.cores k with
  | none => rw [hc] at h; cases h
  | some c =>
    rw [hc] at h
    have hr := (List.mem_filter.mp h).2
    rwa [Bool.not_eq_true'] at hr

theorem stageInvalidate_starts {s : State} {stage2 : Bool} {n : Nat} (h : (s.stage stage2 n).busy = false) : exec (.stageInvalidate stage2 n) s =
    .next ((s.modStage stage2 n (fun x => { x with busy := true })).schedule (.invalidationDone stage2 n)) := by
  have hx : exec (.stageInvalidate stage2 n) s = execStageInvalidate stage2 n s := rfl
  rw [hx, execStageInvalidate, if_neg (by rw [h]; decide)]

theorem invalidationDone_waits {s : State} {stage2 : Bool} {n : Nat} (h : (s.stage stage2 n).busy = true) (hf : s.stageInFlight stage2 n = true) :
    exec (.invalidationDone stage2 n) s = .next (s.flushStage stage2 n) := by
  have hx : exec (.invalidationDone stage2 n) s = execInvalidationDone stage2 n s := rfl
  rw [hx, execInvalidationDone, if_pos (by rw [h, hf]; rfl)]

/-- The cached ranges that an invalidation drops. -/
def ofStage (stage2 : Bool) (n : Nat) (r : CachedRange) : Bool := if stage2 then decide (r.part = n) else decide (r.vf = some n)

theorem ofStage_eq_false {stage2 : Bool} {n : Nat} {r : CachedRange} (h : ofStage stage2 n r = false) : ¬ (if stage2 then r.part = n else r.vf = some n) := by
  cases stage2 with
  | false => exact of_decide_eq_false h
  | true => exact of_decide_eq_false h

theorem invalidationDone_drops {s : State} {stage2 : Bool} {n : Nat} (h : (s.stage stage2 n).busy = true) (hf : s.stageInFlight stage2 n = false) :
    exec (.invalidationDone stage2 n) s = .next ((s.dropRanges (ofStage stage2 n)).modStage stage2 n Stage.take) := by
  have hx : exec (.invalidationDone stage2 n) s = execInvalidationDone stage2 n s := rfl
  rw [hx, execInvalidationDone, if_neg (by rw [h, hf]; decide), if_pos h]
  rfl

end Sys2Proof.Machine

namespace Sys2Proof.Proofs

open Sys2Proof.Machine Sys2Proof.Claims

/-- Settles O49: the checks of each ownership write, the stages' invalidation, and where a register write goes. -/
theorem ownershipAndRegisterEvents : Obligations.OwnershipAndRegisterEvents := by
  unfold Obligations.OwnershipAndRegisterEvents
  refine ⟨?_, ?_, ?_, ?_, ?_, ?_, ?_, ?_, ?_, ?_⟩
  · intro s p v hown
    have hx : exec (.pclusWrite p v) s = execPclusWrite p v s := rfl
    rw [hx, execPclusWrite]
    exact if_pos hown
  · intro s p v hown gone
    have hx : exec (.pclusWrite p v) s = execPclusWrite p v s := rfl
    rw [execPclusWrite] at hx
    dsimp only at hx
    rw [if_neg (by rw [hown]; decide)] at hx
    refine ⟨fun hheld => hx.trans (if_pos hheld), fun hheld hne hsaved => ?_, fun hheld hsaved => ?_⟩
    · rw [hx, if_neg (fun h => absurd (hheld.symm.trans h) (by decide)), if_pos ⟨hne, hsaved⟩]
    · obtain ⟨t, ht, hquiet⟩ := pclusWrite_takes hown hheld hsaved
      refine ⟨t, ht, ?_, fun q hq => ?_, hquiet.ms, hquiet.groups, hquiet.blocks⟩
      · rw [State.part_of_parts hquiet.parts, State.part_modPart]
      · rw [State.part_of_parts hquiet.parts, State.part_modPart_other s hq]
  · intro s p v n others
    refine ⟨l2qWrite_refuses, fun h hn => ?_⟩
    have hx := l2qWrite_takes h hn
    obtain ⟨hparts, hmem⟩ := State.reclaim_keeps (s.modPart p (fun x => { x with l2q := n })) p
    refine ⟨_, hx, ?_, fun q hq => ?_, hmem⟩
    · rw [State.part_of_parts hparts, State.part_modPart]
    · rw [State.part_of_parts hparts, State.part_modPart_other s hq]
  · intro s p v
    have hx : exec (.mrportsWrite p v) s = execMrportsWrite p v s := rfl
    rw [execMrportsWrite, field_low] at hx
    exact ⟨fun h => hx.trans (if_pos h), fun h => hx.trans (if_neg (by rw [h]; decide))⟩
  · intro s p v
    have hx : exec (.estpWrite p v) s = execEstpWrite p v s := rfl
    rw [execEstpWrite, field_low] at hx
    exact ⟨fun h => hx.trans (if_pos h), fun h => hx.trans (if_neg (by rw [h]; decide))⟩
  · intro s p
    refine ⟨{ s with wtCache := FMap.filterKV (fun k _ => decide (k / 2 ^ 18 ≠ p)) s.wtCache }, rfl, rfl, fun d h hd hh => ?_⟩
    have hkey : ((p * 4 + d) * 2 ^ 16 + h) / 2 ^ 18 = p := by omega
    rw [FMap.find_filterKV_key s.wtCache (fun k => decide (k / 2 ^ 18 ≠ p)), hkey, decide_eq_false (by simp), if_neg (by decide)]
  · exact fun s stage2 n h => stageInvalidate_starts h
  · exact fun s stage2 n h hf => invalidationDone_waits h hf
  · intro s stage2 n h hf
    have hx := invalidationDone_drops h hf
    obtain ⟨hms, hcores⟩ := (s.dropRanges (ofStage stage2 n)).modStage_keeps stage2 n Stage.take
    have hmem : ((s.dropRanges (ofStage stage2 n)).modStage stage2 n Stage.take).ms.mem = s.ms.mem := (congrArg MemSys.mem hms :)
    refine ⟨_, hx, ?_, hmem, fun k r hr => ofStage_eq_false (s.tlb_dropRanges (k := k) _ ?_)⟩
    · rw [State.stage_modStage]
      rfl
    · exact (State.core_of_cores hcores k) ▸ hr
  · intro s agent off size val hpower hmgmt halign v low
    have hx : exec (.registerWrite agent off size val) s = execRegisterWrite agent off size val s := rfl
    have hsees : ¬ (mgmtSpace ≤ off ∧ isMgmt agent = false) := fun h => absurd (hmgmt h.1) (by rw [h.2]; decide)
    rw [execRegisterWrite, if_neg (by rw [hpower]; decide), if_neg hsees, if_neg (by rw [halign]; decide)] at hx
    rw [hx]
    refine ⟨fun n r h hs => ?_, fun n r h hs => ?_, fun p r h hs => ?_, fun h => ?_⟩
    · rw [h]
      dsimp only
      rw [if_pos hs]
    · rw [h]
      dsimp only
      rw [if_neg (by rw [hs]; decide)]
    · rw [h]
      dsimp only
      rw [if_pos hs]
    · rw [h]

end Sys2Proof.Proofs
end

