-- ==== Sys2Proof/Proofs/ConfigEvents.lean ====
section
/-! SUPPORT. The configuration port: stripe tables, the assignment of VFs, VF reset and the weir commands (R86 to R92, R109, R116, R119). -/

namespace Sys2Proof.Machine

open Sys2Proof.Claims

/-! What an ending group leaves of the VFs. -/

@[simp] theorem State.releaseLock_vfs (s : State) (p : Nat) : (s.releaseLock p).vfs = s.vfs := rfl
@[simp] theorem State.releaseLockAfter_vfs (s : State) (p vf : Nat) (l : List Nat) : (s.releaseLockAfter p vf l).vfs = s.vfs := by
  unfold State.releaseLockAfter
  split <;> rfl

@[simp] theorem State.releaseLockHalted_vfs (s : State) (gid : Nat) : (s.releaseLockHalted gid).vfs = s.vfs := by
  unfold State.releaseLockHalted
  split
  · split
    · exact State.releaseLockAfter_vfs ..
    · rfl
  · rfl

@[simp] theorem State.releaseSavedLock_vfs (s : State) (p vf : Nat) (test : Nat → Bool) : (s.releaseSavedLock p vf test).vfs = s.vfs := by
  unfold State.releaseSavedLock
  split
  · split
    · exact State.releaseLockAfter_vfs ..
    · rfl
  · rfl

@[simp] theorem State.forgetDenials_vfs (s : State) (test : Option Issuer → Bool) : (s.forgetDenials test).vfs = s.vfs := by
  unfold State.forgetDenials
  split <;> rfl

@[simp] theorem State.withdrawGroup_vfs (s : State) (gid : Nat) : (s.withdrawGroup gid).vfs = s.vfs := rfl

theorem vfs_foldl {β : Type} {f : State → β → State} (h : ∀ s b, (f s b).vfs = s.vfs) (l : List β) (s : State) : (l.foldl f s).vfs = s.vfs :=
  foldl_keep State.vfs f h l s

@[simp] theorem State.evalBar_vfs (s : State) (b id : Nat) : (s.evalBar b id).vfs = s.vfs := by
  unfold State.evalBar
  split
  · rfl
  split
  · rfl
  dsimp only
  split
  · split
    · exact (State.dropL1_vfs ..).trans ((vfs_foldl (fun s q => State.modGroup_vfs ..) _ _).trans (State.modBlock_vfs ..))
    · exact (vfs_foldl (fun s q => State.modGroup_vfs ..) _ _).trans (State.modBlock_vfs ..)
  · rfl

@[simp] theorem State.evalBarg_vfs (s : State) (grid x id : Nat) : (s.evalBarg grid x id).vfs = s.vfs := by
  unfold State.evalBarg
  split
  · rfl
  dsimp only
  split
  · exact (vfs_foldl (fun s b => State.dropL1_vfs ..) _ _).trans ((vfs_foldl (fun s q => State.modGroup_vfs ..) _ _).trans (State.modGrid_vfs ..))
  · rfl

@[simp] theorem State.evalBarriers_vfs (s : State) (gid : Nat) : (s.evalBarriers gid).vfs = s.vfs := by
  unfold State.evalBarriers
  split
  · rfl
  dsimp only
  split
  · split
    · exact vfs_foldl (fun s id => State.evalBar_vfs ..) _ _
    · exact (vfs_foldl (fun s id => State.evalBarg_vfs ..) _ _).trans (vfs_foldl (fun s id => State.evalBar_vfs ..) _ _)
  · exact vfs_foldl (fun s id => State.evalBar_vfs ..) _ _

@[simp] theorem State.wakeLinked_vfs (s : State) (gid : Nat) : (s.wakeLinked gid).vfs = s.vfs := vfs_foldl (fun _ _ => State.modGroup_vfs ..) _ _

@[simp] theorem State.releaseBlock_vfs (s : State) (b : Nat) : (s.releaseBlock b).vfs = s.vfs := by
  unfold State.releaseBlock
  split
  · rfl
  split
  · dsimp only
    split <;> simp
  · split <;> rfl

@[simp] theorem State.afterExit_vfs (s : State) (gid : Nat) : (s.afterExit gid).vfs = s.vfs := by
  unfold State.afterExit
  dsimp only
  split <;> simp

@[simp] theorem State.freeHandler_vfs (s : State) (hid : Nat) : (s.freeHandler hid).vfs = s.vfs := State.forgetDenials_vfs ..
@[simp] theorem State.freeWord_vfs (s : State) : s.freeWord.2.vfs = s.vfs := rfl

/-- A VF but for its calls and its counters. -/
def Vf.queues (v : Vf) : Vf := { v with calls := [], counters := [] }

/-- Every VF keeps all but its calls and counters. -/
def KeepsQueues (s t : State) : Prop := ∀ k, (t.vf k).queues = (s.vf k).queues

theorem keepsQueues_of_vfs {s t : State} (h : t.vfs = s.vfs) : KeepsQueues s t := fun k => congrArg Vf.queues (State.vf_of_vfs h k)
theorem KeepsQueues.trans {s t u : State} (h : KeepsQueues s t) (h' : KeepsQueues t u) : KeepsQueues s u := fun k => (h' k).trans (h k)

theorem keepsQueues_foldl {β : Type} {f : State → β → State} (h : ∀ s b, KeepsQueues s (f s b)) (l : List β) (s : State) : KeepsQueues s (l.foldl f s) := by
  induction l generalizing s with
  | nil => exact fun _ => rfl
  | cons b l ih => exact (h s b).trans (ih _)

theorem keepsQueues_modVf (s : State) (n : Nat) {f : Vf → Vf} (h : ∀ v, (f v).queues = v.queues) : KeepsQueues s (s.modVf n f) := by
  intro k
  rw [State.modVf, State.vf, State.setVf, FMap.getD_setD]
  split
  · next heq =>
    rw [h, heq]
  · rfl

theorem keepsQueues_haltGroup (s : State) (gid : Nat) : KeepsQueues s (s.haltGroup gid) := by
  unfold State.haltGroup
  split
  · exact fun _ => rfl
  split
  · exact fun _ => rfl
  intro k
  have hcalls : ∀ n test, (((((s.releaseLockHalted gid).forgetDenials test).withdrawGroup gid).modVf n
      (fun v => { v with calls := FMap.filterKV (fun _ (x : CallSlot) => decide (x.gid ≠ gid) || x.pending) v.calls })).vf k).queues = (s.vf k).queues := by
    intro n test
    rw [keepsQueues_modVf, State.vf_of_vfs (State.withdrawGroup_vfs _ _), State.vf_of_vfs (State.forgetDenials_vfs _ _),
      State.vf_of_vfs (State.releaseLockHalted_vfs _ _)]
    exact fun _ => rfl
  rw [State.vf_of_vfs (State.afterExit_vfs _ _)]
  split
  · split
    · rw [State.vf_of_vfs (State.freeHandler_vfs _ _), State.vf_of_vfs (State.modCore_vfs _ _ _), State.vf_of_vfs (State.modGroup_vfs _ _ _)]
      exact hcalls _ _
    · rw [State.vf_of_vfs (State.modCore_vfs _ _ _), State.vf_of_vfs (State.modGroup_vfs _ _ _)]
      exact hcalls _ _
  · rw [State.vf_of_vfs (State.modCore_vfs _ _ _), State.vf_of_vfs (State.modGroup_vfs _ _ _)]
    exact hcalls _ _

@[simp] theorem State.removeCommand_vfs (s : State) (core id : Nat) : (s.removeCommand core id).vfs = s.vfs := by
  unfold State.removeCommand
  dsimp only
  split
  · exact (State.modCore_vfs ..).trans (vfs_foldl (fun s pkg => State.modGroup_vfs ..) _ _)
  · rfl

@[simp] theorem State.setWeirWait_vfs (s : State) (o : WeirOp) (w : Wait) : (s.setWeirWait o w).vfs = s.vfs := State.modGroup_vfs ..

@[simp] theorem State.withdrawRemote_vfs (s : State) (gid : Nat) : (s.withdrawRemote gid).vfs = s.vfs := by
  unfold State.withdrawRemote
  split
  · rfl
  dsimp only
  have hsent : ∀ (s : State) (op : RemoteOp),
      (op.reqs.foldl (fun s q => s.send (.weirWithdraw (pkgOf q.pa) op.id (s.sender (s.vfOf gid)))) s).vfs = s.vfs :=
    fun s op => vfs_foldl (fun _ _ => State.send_vfs ..) _ _
  refine (vfs_foldl (fun s op => ?_) _ _).trans (State.modGroup_vfs ..)
  split
  · split
    · rw [State.setWeirWait_vfs, State.freeWord_vfs, State.freeWord_vfs]
      exact hsent s op
    · exact hsent s op
  · exact hsent s op

/-! Stripe tables. -/

theorem setRange_getD (t : FMap Nat) (l : List Nat) (v k : Nat) : FMap.getD (setRange t l v) 0xFF k = if k ∈ l then v else FMap.getD t 0xFF k := by
  unfold setRange
  induction l generalizing t with
  | nil => rfl
  | cons j l ih =>
    rw [List.foldl_cons, ih, FMap.getD_setD]
    by_cases hj : j = k
    · rw [if_pos hj, if_pos (List.mem_cons.mpr (.inl hj.symm)), ite_self]
    · have hmem : k ∈ j :: l ↔ k ∈ l := by rw [List.mem_cons, or_iff_right (Ne.symm hj)]
      rw [if_neg hj]
      by_cases hk : k ∈ l
      · rw [if_pos hk, if_pos (hmem.mpr hk)]
      · rw [if_neg hk, if_neg (mt hmem.mp hk)]

theorem State.setStripes_spec (s : State) (tier : Bool) (t : FMap Nat) :
    (s.setStripes tier t).ms.stripes tier = t ∧ (s.setStripes tier t).ms.mem = s.ms.mem ∧ (s.setStripes tier t).cfg = s.cfg := by
  cases tier with
  | false => exact ⟨rfl, rfl, rfl⟩
  | true => exact ⟨rfl, rfl, rfl⟩

/-- Memory, the stripe tables and the configuration port. -/
def State.storage (s : State) : FMap Byte × FMap Nat × FMap Nat × CfgPort := (s.ms.mem, s.ms.fast, s.ms.cap, s.cfg)

theorem State.storage_abortHart (s : State) (k code detail : Nat) : (s.abortHart k code detail).storage = s.storage := by
  unfold State.abortHart
  split <;> rfl

theorem State.storage_send (s : State) (m : OutMsg) : (s.send m).storage = s.storage := rfl
theorem State.storage_wakeWatch (s : State) (by_ : Option Nat) (key : Nat) : (s.wakeWatch by_ key).storage = s.storage := rfl

theorem State.storage_tellPeers (s : State) (l : Nat) (d : DirEntry) : (s.tellPeers l d).storage = s.storage :=
  foldl_keep State.storage _ (fun t _ => t.storage_send _) _ s

theorem State.storage_wakeQueues (s : State) (l : Nat) : (s.wakeQueues l).storage = s.storage := by
  refine foldl_keep State.storage _ (fun s q => ?_) _ s
  dsimp only
  split <;> split <;> rfl

theorem State.storage_noteRange (s : State) (lo n : Nat) : (s.noteRange lo n).storage = s.storage := by
  unfold State.noteRange
  dsimp only
  refine (foldl_keep State.storage _ (fun s l => State.storage_wakeQueues s l) _ _).trans ?_
  refine (foldl_keep State.storage _ (fun s q => ?_) _ _).trans ?_
  · refine (foldl_keep State.storage _ (fun s e => ?_) _ _).trans (foldl_keep State.storage _ (fun t k => t.storage_wakeWatch none k) _ s)
    split
    · split <;> rfl
    · rfl
  refine (foldl_keep State.storage _ (fun s k => ?_) _ _).trans ?_
  · split
    · exact State.storage_abortHart ..
    · rfl
  exact foldl_keep State.storage _ (fun s (q : Nat × DirEntry) => State.storage_tellPeers s q.1 q.2) _ s

/-- A wipe takes the bytes of its range, and nothing else of what is stored. -/
theorem State.storage_wipe (s : State) (lo n : Nat) :
    (s.wipe lo n).storage = (FMap.filterKV (fun k _ => !decide (lo ≤ k * 1 ∧ k * 1 < lo + n)) s.ms.mem, s.ms.fast, s.ms.cap, s.cfg) := by
  unfold State.wipe
  rw [State.storage_noteRange]
  rfl

theorem State.find_wipe (s : State) (lo n a : Nat) :
    FMap.find (s.wipe lo n).ms.mem a = if lo ≤ a ∧ a < lo + n then none else FMap.find s.ms.mem a := by
  have hmem : (s.wipe lo n).ms.mem = FMap.filterKV (fun k _ => !decide (lo ≤ k * 1 ∧ k * 1 < lo + n)) s.ms.mem := congrArg Prod.fst (s.storage_wipe lo n)
  rw [hmem, FMap.find_filterKV_key s.ms.mem (fun k => !decide (lo ≤ k * 1 ∧ k * 1 < lo + n)), Nat.mul_one]
  by_cases h : lo ≤ a ∧ a < lo + n
  · rw [if_pos h, decide_eq_true h, if_neg (by decide)]
  · rw [if_neg h, decide_eq_false h, if_pos (by decide)]

/-- Stripes wiped one after another. -/
def State.wipeStripes (s : State) (tier : Bool) (l : List Nat) : State := l.foldl (fun s k => s.wipe (stripeBase tier k) (2 ^ 23)) s

theorem State.wipeStripes_keeps (s : State) (tier : Bool) (l : List Nat) :
    (s.wipeStripes tier l).ms.stripes tier = s.ms.stripes tier ∧ (s.wipeStripes tier l).cfg = s.cfg := by
  have hkeep : (fun t : State => t.storage.2) (s.wipeStripes tier l) = s.storage.2 :=
    foldl_keep (fun t : State => t.storage.2) _ (fun t k => (congrArg Prod.snd (t.storage_wipe _ _) :)) l s
  have hfast := congrArg Prod.fst hkeep
  have hcap := congrArg (fun x => x.2.1) hkeep
  refine ⟨?_, congrArg (fun x => x.2.2) hkeep⟩
  cases tier with
  | false => exact hfast
  | true => exact hcap

theorem State.wipeStripes_unlisted {s : State} {a : Nat} (h : FMap.find s.ms.mem a = none) (tier : Bool) (l : List Nat) :
    FMap.find (s.wipeStripes tier l).ms.mem a = none := by
  induction l generalizing s with
  | nil => exact h
  | cons k l ih => exact ih (s := s.wipe (stripeBase tier k) (2 ^ 23)) (by rw [State.find_wipe, h, ite_self])

theorem State.wipeStripes_clears (s : State) (tier : Bool) {l : List Nat} {k i : Nat} (hk : k ∈ l) (hi : i < 2 ^ 23) :
    FMap.find (s.wipeStripes tier l).ms.mem (stripeBase tier k + i) = none := by
  induction l generalizing s with
  | nil => cases hk
  | cons j l ih =>
    obtain rfl | hk := List.mem_cons.mp hk
    · refine State.wipeStripes_unlisted (s := s.wipe (stripeBase tier k) (2 ^ 23)) ?_ tier l
      rw [State.find_wipe, if_pos ⟨Nat.le_add_right .., Nat.add_lt_add_left hi _⟩]
    · exact ih (s.wipe (stripeBase tier j) (2 ^ 23)) hk

/-! VF reset. -/

theorem keepsQueues_resetGroups (s : State) (vf : Nat) : KeepsQueues s (s.resetGroups vf) := by
  unfold State.resetGroups
  dsimp only
  refine KeepsQueues.trans (keepsQueues_of_vfs ?_) (keepsQueues_foldl (fun t k => ?_) _ _)
  · rw [State.releaseSavedLock_vfs]
    exact vfs_foldl (fun t k => vfs_foldl (fun t q => State.removeCommand_vfs ..) _ t) _ s
  · exact (keepsQueues_of_vfs (State.withdrawRemote_vfs t k)).trans (keepsQueues_haltGroup _ k)

theorem keepsQueues_resetGrids (s : State) (vf : Nat) : KeepsQueues s (s.resetGrids vf) := keepsQueues_of_vfs rfl

theorem keepsQueues_countUp (s : State) (vf k status : Nat) : KeepsQueues s (s.countUp vf k status) := by
  refine keepsQueues_modVf s vf ?_
  exact fun _ => rfl

theorem keepsQueues_resetPeers (s : State) (vf : Nat) : KeepsQueues s (s.resetPeers vf) := by
  unfold State.resetPeers
  refine keepsQueues_foldl (fun t c => ?_) _ s
  exact keepsQueues_countUp { t with colls := t.colls.filter (fun x => decide (x.id ≠ c.id)) } c.vf c.counter 1

theorem State.vf_resetLinks (s : State) (vf : Nat) : (s.resetLinks vf).vf vf = { s.vf vf with calls := [], conns := [] } := by
  have hsend : ∀ (t : State), ((s.vf vf).conns.foldl (fun s q => s.send (.teardown vf q.1 q.2.2)) t).vfs = t.vfs :=
    vfs_foldl (fun _ _ => State.send_vfs ..) _
  exact (State.vf_of_vfs (hsend _) vf).trans (State.vf_setVf ..)

/-- A VF whose reset begins at a tick (R119 steps 1 and 2). -/
def Vf.resetBegun (v : Vf) (tick : Nat) : Vf :=
  { v with resetting := true, resetAt := tick, gen := (v.gen + 1) % 2 ^ 16, lqhead := v.lqtail, dlq := [], starting := none }

/-- What the first seven steps of a reset leave of the VF. -/
theorem vreset_spec {s : State} {vf : Nat} (h : (s.vf vf).resetting = false) : ∃ t, exec (.vreset vf) s = .next t ∧
    (t.vf vf).queues = { ((s.vf vf).resetBegun s.tick).queues with conns := [] } ∧ (t.vf vf).calls = [] := by
  have hx : exec (.vreset vf) s = execVreset vf s := rfl
  rw [execVreset, if_neg (by rw [h]; decide)] at hx
  dsimp only at hx
  refine ⟨_, hx, ?_⟩
  have hsched : ∀ (l : List Nat) (t : State), ((l.foldl (fun s k => s.schedule (.gridCompletion k)) t).schedule (.vfResetComplete vf)).vfs = t.vfs :=
    fun l t => vfs_foldl (fun _ _ => State.schedule_vfs ..) l t
  rw [State.vf_of_vfs (hsched _ _), State.vf_resetLinks]
  refine ⟨?_, rfl⟩
  have hqueue : (s.resetQueue vf).vf vf = _ := s.vf_modVf vf _
  have hkeeps : (((((s.resetQueue vf).resetGrids vf).resetGroups vf).resetPeers vf).vf vf).queues = ((s.resetQueue vf).vf vf).queues :=
    (((keepsQueues_resetGrids (s.resetQueue vf) vf).trans (keepsQueues_resetGroups _ vf)).trans (keepsQueues_resetPeers _ vf)) vf
  rw [hqueue] at hkeeps
  exact congrArg (fun v : Vf => { v with conns := [] }) hkeeps

/-- The VF after its reset, its grids and cached ranges gone (R119 steps 8 and 9). -/
def State.resetEnd (s : State) (vf : Nat) : State :=
  ((s.eraseGrids vf).dropRanges (fun r => decide (r.vf = some vf))).setVf vf (s.vf vf).afterReset

/-- What VF_RESET_COMPLETE leaves once the VF's grids are gone. -/
theorem vfResetComplete_ends {s : State} {vf : Nat} (hreset : (s.vf vf).resetting = true)
    (hdue : s.grids.any (fun q => decide (q.2.vf = vf)) = false ∨ (s.vf vf).resetAt + 3500000 ≤ s.tick)
    (hidle : ∀ q ∈ s.grids, q.2.vf = vf → q.2.written = [] ∧ q.2.flush = []) :
    exec (.vfResetComplete vf) s =
      .next ((if s.cfg.unassign = some vf then ({ (s.resetEnd vf).removeVf vf with cfg := { s.cfg with unassign := none } }).finishCfg 8 0
        else s.resetEnd vf).schedule (.switchIn (s.vf vf).part)) := by
  have hx : exec (.vfResetComplete vf) s = execVfResetComplete vf s := rfl
  have hopen : ¬ (!(s.vf vf).resetting || (!(s.grids.filter (fun q => decide (q.2.vf = vf))).isEmpty && !decide ((s.vf vf).resetAt + resetTicks ≤ s.tick))) = true := by
    rw [hreset]
    obtain h | h := hdue
    · rw [List.filter_eq_nil_iff.mpr fun q hq hvf => absurd (List.any_eq_true.mpr ⟨q, hq, hvf⟩) (by rw [h]; decide)]
      simp
    · rw [decide_eq_true (show (s.vf vf).resetAt + resetTicks ≤ s.tick from h)]
      simp
  have hsettled : ¬ (s.grids.filter (fun q => decide (q.2.vf = vf))).any (fun q => !(q.2.written.isEmpty && q.2.flush.isEmpty)) = true := by
    rw [List.any_eq_true]
    rintro ⟨q, hq, hopen⟩
    obtain ⟨hq, hvf⟩ := List.mem_filter.mp hq
    obtain ⟨hw, hf⟩ := hidle q hq (of_decide_eq_true hvf)
    rw [hw, hf] at hopen
    cases hopen
  rw [hx, execVfResetComplete, if_neg hopen, if_neg hsettled]
  rfl

/-- The VF, its grids, memory and the port after the end of a reset. -/
theorem State.resetEnd_spec (s : State) (vf : Nat) :
    (s.resetEnd vf).vf vf = (s.vf vf).afterReset ∧ (s.resetEnd vf).ms.mem = s.ms.mem ∧ (s.resetEnd vf).cfg = s.cfg ∧
      ∀ q ∈ (s.resetEnd vf).grids, q.2.vf ≠ vf := by
  refine ⟨State.vf_setVf .., rfl, rfl, fun q hq => ?_⟩
  have hq : q ∈ FMap.filterKV (fun _ (g : Grid) => decide (g.vf ≠ vf)) s.grids := hq
  exact of_decide_eq_true (List.mem_filter.mp hq).2

theorem State.removeVf_spec (s : State) (vf : Nat) :
    (s.removeVf vf).vf vf = { s.vf vf with assigned := false, part := 0, index := 0 } ∧ (s.removeVf vf).ms = s.ms ∧ (s.removeVf vf).grids = s.grids :=
  ⟨State.vf_setVf .., rfl, rfl⟩

/-! The weir commands. -/

section
variable {s : State} {off : Nat} {b : List Byte} (hbusy : s.cfg.busy = true) (halign : s.cfg.arg0 % 64 = 0) (hdesc : s.descriptor s.cfg.arg0 = some (off, b))
include hbusy halign hdesc

theorem weirCommand_runs (code : Nat) (f : Nat → Nat → List Byte → State → Nat × State) :
    weirCommand code f s = .next ((f s.cfg.arg0 off b (s.noteRead off 64)).2.finishCfg code (f s.cfg.arg0 off b (s.noteRead off 64)).1) := by
  rw [weirCommand, if_neg (by rw [hbusy]; decide), if_neg (by rw [halign]; decide), hdesc]
end

theorem leField_byte (b : List Byte) (o : Nat) : leField b o 1 < 256 := by
  have h := ofBytesLE_lt ((b.drop o).take 1)
  have hlen : ((b.drop o).take 1).length ≤ 1 := List.length_take_le ..
  have hpow : 2 ^ (8 * ((b.drop o).take 1).length) ≤ 2 ^ 8 := Nat.pow_le_pow_right (by decide) (by omega)
  rw [leField]
  omega

/-- A well-formed descriptor whose weir is closed here. -/
theorem stateByte_closed {b : List Byte} (hstate : field (leField b 0x14 1) 0 2 = 0 ∨ field (leField b 0x14 1) 0 2 = 3) (hmoved : bitAt (leField b 0x14 1) 7 = false)
    (hformat : weirFormatOk b = true) : leField b 0x14 1 = 0 ∨ leField b 0x14 1 = 3 := by
  have hbyte := leField_byte b 0x14
  have hzero : leField b 0x14 1 / 4 % 32 = 0 := by
    rw [weirFormatOk, Bool.and_eq_true, Bool.and_eq_true] at hformat
    exact (of_decide_eq_true hformat.1.1).2.1
  have hbit := of_decide_eq_false hmoved
  rw [field_low] at hstate
  generalize leField b 0x14 1 = x at *
  omega

end Sys2Proof.Machine

namespace Sys2Proof.Proofs

open Sys2Proof.Machine Sys2Proof.Claims

/-- Settles O50: the branches of SETSTRIPE, the scrub, the assignment and reset of a VF, and the weir commands. -/
theorem configurationCommandEvents : Obligations.ConfigurationCommandEvents := by
  unfold Obligations.ConfigurationCommandEvents
  refine ⟨?_, ?_, ?_, ?_, ?_, ?_, ?_, ?_⟩
  · intro s hbusy tier count first v l old legal allowed
    have hx : exec .setstripe s = execSetstripe s := rfl
    rw [execSetstripe, if_neg (by rw [hbusy]; decide)] at hx
    have hlegal : (count = 0 ∨ (if tier then 262144 else 131072) < first + count ∨ (0x80 ≤ v ∧ v ≤ 0xFA)) ↔ ¬ legal := by
      simp only [legal, ne_eq, Classical.not_and_iff_not_or_not, Classical.not_not (a := count = 0)]
      rw [Nat.not_le, Classical.not_and_iff_not_or_not.symm, Classical.not_not]
    have hallowed : (v = 0xFB ∨ v = 0xFC ∨ l.any (fun k => decide (old k = 0xFB ∨ old k = 0xFC)) = true ∨ adjacentOk (setRange (s.ms.stripes tier) l v) = false) ↔ ¬ allowed := by
      simp only [allowed, List.any_eq_true, decide_eq_true_eq, Classical.not_and_iff_not_or_not, Classical.not_forall, Classical.not_not, Bool.not_eq_true, exists_prop]
    refine ⟨fun h => hx.trans (if_pos (hlegal.mpr h)), fun h h' => ?_, fun h h' hkept => ?_, fun h h' hleave => ?_⟩
    · exact hx.trans ((if_neg (mt hlegal.mp (Classical.not_not.mpr h))).trans (if_pos (hallowed.mpr h')))
    · have hempty : (l.filter (fun k => trustDomain (old k) && decide (old k ≠ v))).isEmpty = true := by
        rw [List.isEmpty_iff, List.filter_eq_nil_iff]
        intro k hk hk'
        rw [Bool.and_eq_true, decide_eq_true_eq] at hk'
        exact hk'.2 (hkept k hk hk'.1)
      exact hx.trans ((if_neg (mt hlegal.mp (Classical.not_not.mpr h))).trans ((if_neg (mt hallowed.mp (Classical.not_not.mpr h'))).trans (if_pos hempty)))
    · obtain ⟨k0, hk0, htrust0, hne0⟩ := hleave
      have hmem : ∀ k, k ∈ l → trustDomain (old k) = true → old k ≠ v → k ∈ l.filter (fun k => trustDomain (old k) && decide (old k ≠ v)) := fun k hk ht hne =>
        List.mem_filter.mpr ⟨hk, by rw [ht, decide_eq_true hne]; rfl⟩
      have hempty : ¬ (l.filter (fun k => trustDomain (old k) && decide (old k ≠ v))).isEmpty = true := by
        rw [List.isEmpty_iff]
        exact List.ne_nil_of_mem (hmem k0 hk0 htrust0 hne0)
      have hnext := hx.trans ((if_neg (mt hlegal.mp (Classical.not_not.mpr h))).trans ((if_neg (mt hallowed.mp (Classical.not_not.mpr h'))).trans (if_neg hempty)))
      obtain ⟨hstripes, hmem', hcfg⟩ := s.setStripes_spec tier (setRange (setRange (s.ms.stripes tier) l v) (l.filter (fun k => trustDomain (old k) && decide (old k ≠ v))) 0xFB)
      refine ⟨_, hnext, ?_, hmem', fun k hk ht hne => ?_⟩
      · exact (congrArg CfgPort.busy hcfg).trans hbusy
      · exact (congrArg (FMap.getD · 0xFF k) hstripes).trans ((setRange_getD ..).trans (if_pos (hmem k hk ht hne)))
  · intro s tier first count v hscrub
    have hx : exec .stripeScrubDone s = execStripeScrubDone s := rfl
    rw [execStripeScrubDone, hscrub] at hx
    refine ⟨_, hx, rfl, rfl, rfl, rfl, fun k hlo hhi hold => ?_⟩
    have hrange : k ∈ (List.range count).map (fun i => first + i) := List.mem_map.mpr ⟨k - first, List.mem_range.mpr (by omega), by omega⟩
    have hlist : k ∈ ((List.range count).map (fun i => first + i)).filter (fun k => decide (FMap.getD (s.ms.stripes tier) 0xFF k = 0xFB)) :=
      List.mem_filter.mpr ⟨hrange, decide_eq_true hold⟩
    obtain ⟨hstripes, hmem, -⟩ := (s.wipeStripes tier (((List.range count).map (fun i => first + i)).filter
      (fun k => decide (FMap.getD (s.ms.stripes tier) 0xFF k = 0xFB)))).setStripes_spec tier (setRange ((s.wipeStripes tier (((List.range count).map (fun i => first + i)).filter
      (fun k => decide (FMap.getD (s.ms.stripes tier) 0xFF k = 0xFB)))).ms.stripes tier) (((List.range count).map (fun i => first + i)).filter
      (fun k => decide (FMap.getD (s.ms.stripes tier) 0xFF k = 0xFB))) v)
    refine ⟨(congrArg (FMap.getD · 0xFF k) hstripes).trans ((setRange_getD ..).trans (if_pos hlist)), fun i hi => ?_⟩
    refine (congrArg (FMap.getD · 0#8 (stripeBase tier k + i)) hmem).trans ?_
    exact congrArg (Option.getD · 0#8) (State.wipeStripes_clears s tier hlist hi)
  · intro s hbusy vf p l
    have hx : exec .assignvf s = execAssignvf s := rfl
    have hx' : exec .unassignvf s = execUnassignvf s := rfl
    rw [execAssignvf, if_neg (by rw [hbusy]; decide)] at hx
    rw [execUnassignvf, if_neg (by rw [hbusy]; decide)] at hx'
    refine ⟨fun h => hx.trans (if_pos h), fun hen hidle hassigned hindex => hx.trans (if_neg ?_), fun hassigned => hx'.trans (if_pos ?_), fun hassigned hreset => ?_⟩
    · change ¬ ((s.vf vf).en = true ∨ s.lqIdle vf = false ∨ (s.vf vf).assigned = true ∨ (s.vfByIndex p l).isSome = true)
      rw [hen, hidle, hassigned, hindex]
      decide
    · exact (congrArg (!·) hassigned :)
    · refine (hx'.trans (if_neg ?_)).trans ?_
      · rw [show (s.vf (field s.cfg.arg0 0 10)).assigned = true from hassigned]; decide
      · exact congrArg Host.Outcome.next (if_neg fun h => absurd (hreset.symm.trans h) (by decide))
  · intro s vf hreset
    obtain ⟨t, ht, hq, hcalls⟩ := vreset_spec hreset
    exact ⟨t, ht, congrArg Vf.resetting hq, congrArg Vf.gen hq, congrArg Vf.lqhead hq, congrArg Vf.dlq hq, hcalls, congrArg Vf.conns hq⟩
  · intro s vf hreset hgrids htick
    have hx : exec (.vfResetComplete vf) s = execVfResetComplete vf s := rfl
    have hmine : (s.grids.filter (fun q => decide (q.2.vf = vf))).isEmpty = false := by
      obtain ⟨q, hq, hvf⟩ := List.any_eq_true.mp hgrids
      exact List.isEmpty_eq_false_iff.mpr (List.ne_nil_of_mem (List.mem_filter.mpr ⟨hq, hvf⟩))
    have hlate : decide ((s.vf vf).resetAt + resetTicks ≤ s.tick) = false := decide_eq_false (Nat.not_le.mpr htick)
    rw [hx, execVfResetComplete]
    exact if_pos (by rw [hreset, hmine, hlate]; rfl)
  · intro s vf hreset hlate hidle
    have hx := vfResetComplete_ends hreset (.inr hlate) hidle
    obtain ⟨hvf, -, -, hgrids⟩ := s.resetEnd_spec vf
    obtain ⟨hremoved, -, hgrids'⟩ := (s.resetEnd vf).removeVf_spec vf
    split at hx
    · exact ⟨_, hx, (congrArg Vf.resetting hremoved).trans (congrArg Vf.resetting hvf), hgrids⟩
    · exact ⟨_, hx, congrArg Vf.resetting hvf, hgrids⟩
  · intro s vf hreset hgrids
    have hidle : ∀ q ∈ s.grids, q.2.vf = vf → q.2.written = [] ∧ q.2.flush = [] := fun q hq hvf =>
      absurd (List.any_eq_true.mpr ⟨q, hq, decide_eq_true hvf⟩) (by rw [hgrids]; decide)
    have hx := vfResetComplete_ends hreset (.inl hgrids) hidle
    obtain ⟨hvf, hmem, hcfg, -⟩ := s.resetEnd_spec vf
    obtain ⟨hremoved, -, -⟩ := (s.resetEnd vf).removeVf_spec vf
    refine ⟨fun h => ?_, fun h => ?_⟩
    · rw [if_neg h] at hx
      exact ⟨_, hx, hvf, hmem, hcfg⟩
    · rw [if_pos h] at hx
      exact ⟨_, hx, congrArg Vf.assigned hremoved, (congrArg Vf.resetting hremoved).trans (congrArg Vf.resetting hvf), rfl, rfl, rfl, hmem⟩
  · intro s0 off b hbusy halign hdesc s pa n
    refine ⟨fun hfind hpoison hstate hmoved hformat hhome hroom => ?_, fun w hw => ?_⟩
    · have hx : exec .wopen s0 = execWopen s0 := rfl
      have hclosed : ¬ ((FMap.find s.weirs pa).isSome = true ∨ (leField b 0x14 1 ≠ 0 ∧ leField b 0x14 1 ≠ 3)) := by
        rw [hfind]
        have := stateByte_closed hstate hmoved hformat
        simp only [Option.isSome_none, Bool.false_eq_true, false_or]
        omega
      have hpoison' : ¬ s.poisoned off 64 = true := by rw [hpoison]; decide
      rw [hx, execWopen, weirCommand_runs hbusy halign hdesc]
      dsimp only
      rw [if_neg hpoison', if_neg hclosed, if_neg (by rw [hformat]; decide), if_neg (Classical.not_not.mpr hhome), if_neg (Nat.not_le.mpr hroom)]
    · intro stored
      refine ⟨fun h0 => ?_, fun h1 => ?_, ?_, fun hopen hpoison hformat => ?_⟩
      · have hx : exec .wquiesce s0 = execWquiesce s0 := rfl
        rw [hx, execWquiesce, weirCommand_runs hbusy halign hdesc, hw]
        dsimp only
        rw [if_pos h0]
      · have hx : exec .wexport s0 = execWexport s0 := rfl
        rw [hx, execWexport, weirCommand_runs hbusy halign hdesc]
        dsimp only
        rw [hw]
        dsimp only
        rw [if_pos h1]
      · have hx : exec .wclose s0 = execWclose s0 := rfl
        rw [hx, execWclose, weirCommand_runs hbusy halign hdesc]
        dsimp only
        rw [hw]
      · intro tokens w'
        have hx : exec .wreload s0 = execWreload s0 := rfl
        have hpoison' : ¬ s.poisoned off 64 = true := by rw [hpoison]; decide
        rw [hx, execWreload, weirCommand_runs hbusy halign hdesc]
        dsimp only
        rw [if_neg hpoison', hw]
        dsimp only
        rw [if_neg (Nat.not_le.mpr hopen), if_neg (by rw [hformat]; decide)]
        rfl

end Sys2Proof.Proofs
end

