-- ==== Sys2Proof/Proofs/PlacementEvents.lean ====
section
/-! SUPPORT. The switch of a partition's VF: a save writes the area, and a write to a watched sector wakes a demoted group. -/

namespace Sys2Proof.Machine

/-- The byte of the save area that receives the first scratchpad byte of the block below: the area begins at 0x1000000, and
the trap region takes its first eight units (R473). -/
def watchedByte : Nat := 0x1000000 + 8 * 4096

/-- A block of the outgoing VF with one byte of scratchpad. -/
def leavingBlock : Block := { placeBlk with gids := [], scSize := 4096, units := 1, sc := [(0, 1#8)] }

/-- A demoted group that is not one of the block's: it watches the sector of that byte (R144). -/
def watchingGroup : Group := { placeGroup with spin := { SpinState.clear with demoted := true, passDone := true, watch := [watchedByte / 32] } }

/-- A switch of partition 0 is under way, and die 0 is quiet: stripes 1 and 2 are the hypervisor's, with the slot table at 0x800000 and
a save area of nine pages. -/
def savingState : State :=
  let s := State.reset.placeDevice 0#32
  { s.modPart 0 (fun p => { p with stbase := 0x800, switch := some ⟨0, 1, [], false, false⟩ }) with
    blocks := [(0, leavingBlock)]
    groups := [(0, watchingGroup)]
    ms := { s.ms with fast := [(0, 0), (1, 0xFD), (2, 0xFD)], mem := putBytes [] 0x800000 (bytesLE 8 (1 + 0x1000 * 2 ^ 12) ++ bytesLE 8 9) } }

/-- Group 0 is demoted in the state that an outcome answers. -/
def demotedAfter (o : Host.Outcome State Fault Refusal) : Option Bool :=
  match o with
  | .next t => (FMap.find t.groups 0).map (fun g => g.spin.demoted)
  | _ => none

theorem saving_wakes_watcher : demotedAfter (exec (.switchDone 0 0) savingState) = some false := by decide +kernel

theorem savingState_saves : savingState.dieQuiet 0 0 = true ∧ savingState.saveArea 0 (savingState.part 0).running = some (0x1000000, 9 * 4096) := by decide +kernel

end Sys2Proof.Machine

namespace Sys2Proof.Proofs

open Sys2Proof.Machine Sys2Proof.Claims

/-- Refutes O51: a save writes the block's scratchpad into the area, and that write wakes a demoted group which watches the
sector written, although the group is of no block that leaves. -/
theorem not_placementAndSwitchEvents : ¬ Obligations.PlacementAndSwitchEvents := by
  unfold Obligations.PlacementAndSwitchEvents
  rintro ⟨-, -, -, -, -, -, -, -, h, -⟩
  obtain ⟨hquiet, harea⟩ := savingState_saves
  obtain ⟨-, -, -, hsave, -⟩ := h savingState 0 0 ⟨0, 1, [], false, false⟩ 0 rfl rfl rfl (by decide)
  obtain ⟨t, ht, -, -, -, -, -, -, hgroups⟩ := hsave _ hquiet harea rfl
  have hkept : FMap.find t.groups 0 = some watchingGroup := hgroups 0 (by decide)
  have hwoken := saving_wakes_watcher
  rw [ht, demotedAfter, hkept] at hwoken
  cases hwoken

end Sys2Proof.Proofs
end

