-- ==== Sys2Proof/Proofs/PathEvents.lean ====
section
/-! SUPPORT. Ports, paths that are gone, and flush answers (R30, R31, R259, R260). -/

namespace Sys2Proof.Machine

open Sys2Proof.Claims

/-! What only sends and schedules. -/

theorem quiet_releaseHeld (s : State) : Quiet s s.releaseHeld := by
  unfold State.releaseHeld
  have hclear : Quiet s { s with turn := { s.turn with held := [] } } := rfl
  refine hclear.trans (quiet_foldl ?_ _ _)
  exact fun _ _ => rfl

theorem quiet_retryEngines (s : State) : Quiet s s.retryEngines := by
  refine quiet_foldl (fun s k => quiet_foldl (fun s q => ?_) _ s) _ s
  split
  · rfl
  · exact quiet_refl s

theorem quiet_ifSend (s : State) (b : Bool) (m : OutMsg) : Quiet s (if b then s.send m else s) := by
  cases b with
  | false => exact quiet_refl s
  | true => rfl

theorem quiet_resendMarkers (s : State) : Quiet s s.resendMarkers := by
  unfold State.resendMarkers
  dsimp only
  refine ((((quiet_foldl ?_ _ _).trans (quiet_foldl ?_ _ _)).trans (quiet_foldl ?_ _ _)).trans (quiet_foldl ?_ _ _)).trans (quiet_foldl ?_ _ _)
  all_goals
    intro s b
    exact quiet_foldl (fun s x => quiet_ifSend s _ _) _ s

/-- Changed ports leave groups, memory and the boot state alone. -/
theorem State.portsChanged_keeps (s0 s : State) :
    (s0.portsChanged s).groups = s.groups ∧ (s0.portsChanged s).ms = s.ms ∧ (s0.portsChanged s).boot = s.boot := by
  unfold State.portsChanged
  dsimp only
  have hparts : ∀ (down : Nat → FMap Nat) (l : List Nat),
      (l.foldl (fun (t : State) p => t.modPart p (fun x => { x with downSince := down p })) s).groups = s.groups ∧
      (l.foldl (fun (t : State) p => t.modPart p (fun x => { x with downSince := down p })) s).ms = s.ms ∧
      (l.foldl (fun (t : State) p => t.modPart p (fun x => { x with downSince := down p })) s).boot = s.boot := fun _ _ =>
    ⟨foldl_keep State.groups _ (fun _ _ => State.modPart_groups ..) _ _, foldl_keep State.ms _ (fun _ _ => State.modPart_ms ..) _ _,
      foldl_keep State.boot _ (fun _ _ => State.modPart_boot ..) _ _⟩
  split
  · have hq : ∀ t : State, Quiet t t.releaseHeld.retryEngines := fun t => (quiet_releaseHeld t).trans (quiet_retryEngines _)
    obtain ⟨hg, hm, hb⟩ := hparts _ _
    exact ⟨(hq _).groups.trans hg, (hq _).ms.trans hm, (hq _).boot.trans hb⟩
  · exact hparts _ _

theorem millracePortFailure_spec {s : State} {k : Nat} (hpower : s.power = true) (hk : k < 32) (hup : bitAt s.boot.portsUp k = true) :
    ∃ t, exec (.millracePortFailure k) s = .next t ∧ t.boot = { s.boot with portsUp := s.boot.portsUp - 2 ^ k } ∧ t.groups = s.groups ∧ t.ms = s.ms := by
  have hx : exec (.millracePortFailure k) s = execMillracePortFailure k s := rfl
  rw [execMillracePortFailure, if_neg (by rw [hpower, decide_eq_true hk, hup]; decide)] at hx
  obtain ⟨hg, hm, hb⟩ := s.portsChanged_keeps { s with boot := { s.boot with portsUp := s.boot.portsUp - 2 ^ k } }
  have hq := quiet_resendMarkers (s.portsChanged { s with boot := { s.boot with portsUp := s.boot.portsUp - 2 ^ k } })
  exact ⟨_, hx, hq.boot.trans hb, hq.groups.trans hg, hq.ms.trans hm⟩

/-! Waits that are set anew. -/

/-- The splits of group `gid` at the entries listed have the wait given; links and status of every group stay, and so do all
other splits. -/
def Rewaits (gid : Nat) (es : List Nat) (w : Wait) (s t : State) : Prop :=
  ∀ k g, FMap.find s.groups k = some g → ∃ g', FMap.find t.groups k = some g' ∧ g'.links = g.links ∧ g'.status = g.status ∧
    ∀ j, j < 16 → FMap.find g'.table j = if k = gid ∧ j ∈ es then (FMap.find g.table j).map (fun sp => { sp with wait := w }) else FMap.find g.table j

theorem rewaits_nil (gid : Nat) (w : Wait) (s : State) : Rewaits gid [] w s s := fun _ g hg =>
  ⟨g, hg, rfl, rfl, fun _ _ => (if_neg fun h => absurd h.2 List.not_mem_nil).symm⟩

theorem Rewaits.append {gid : Nat} {es es' : List Nat} {w : Wait} {s t u : State} (h : Rewaits gid es w s t) (h' : Rewaits gid es' w t u) :
    Rewaits gid (es ++ es') w s u := by
  intro k g hg
  obtain ⟨g1, hg1, hl1, hst1, htab1⟩ := h k g hg
  obtain ⟨g2, hg2, hl2, hst2, htab2⟩ := h' k g1 hg1
  refine ⟨g2, hg2, hl2.trans hl1, hst2.trans hst1, fun j hj => ?_⟩
  rw [htab2 j hj, htab1 j hj]
  by_cases hk : k = gid
  · by_cases hin' : j ∈ es'
    · rw [if_pos ⟨hk, hin'⟩, if_pos (c := k = gid ∧ j ∈ es ++ es') ⟨hk, List.mem_append_right _ hin'⟩]
      split
      · rw [Option.map_map]
        rfl
      · rfl
    · rw [if_neg fun h => hin' h.2]
      by_cases hin : j ∈ es
      · rw [if_pos ⟨hk, hin⟩, if_pos ⟨hk, List.mem_append_left _ hin⟩]
      · rw [if_neg fun h => hin h.2, if_neg fun h => (List.mem_append.mp h.2).elim hin hin']
  · rw [if_neg fun h => hk h.1, if_neg fun h => hk h.1, if_neg fun h => hk h.1]

/-- A handler's own state is written back: no group's links, status or splits change. -/
theorem rewaits_putHandler {s : State} {c : Ctx} {hid : Nat} (hwho : c.who = .handler hid) (gid : Nat) (w : Wait) : Rewaits gid [16] w s (s.putCtx c) := by
  have hgroups : (s.putCtx c).groups = (s.modGroup c.gid (fun g => { g with srseed := c.seed })).groups := by
    simp only [State.putCtx, hwho]
    split <;> rfl
  intro k g hg
  have hj : ∀ (g' : Group), g'.table = g.table → ∀ j, j < 16 →
      FMap.find g'.table j = if k = gid ∧ j ∈ [16] then (FMap.find g.table j).map (fun sp => { sp with wait := w }) else FMap.find g.table j := by
    intro g' htab j hlt
    rw [if_neg (fun h => by have := List.mem_singleton.mp h.2; omega), htab]
  unfold State.modGroup at hgroups
  split at hgroups
  · next g0 hg0 =>
    by_cases hk : c.gid = k
    · obtain rfl : g0 = g := Option.some.inj (hg0.symm.trans (hk ▸ hg))
      refine ⟨{ g0 with srseed := c.seed }, ?_, rfl, rfl, hj _ rfl⟩
      rw [hgroups, ← hk, State.find_setGroup]
    · refine ⟨g, ?_, rfl, rfl, hj _ rfl⟩
      rw [hgroups]
      exact (FMap.find_insert_other _ hk _).trans hg
  · exact ⟨g, by rw [hgroups, hg], rfl, rfl, hj _ rfl⟩

theorem rewaits_setWait (s : State) (gid e : Nat) (w : Wait) : Rewaits gid [e] w s (s.setWait gid e w) := by
  have hnone : (s.setWait gid e w = s) → (∀ g, FMap.find s.groups gid = some g → e < 16 → FMap.find g.table e = none) → Rewaits gid [e] w s (s.setWait gid e w) := by
    intro hs hfree k g hg
    refine ⟨g, by rw [hs, hg], rfl, rfl, fun j hj => ?_⟩
    split
    · next h =>
      obtain rfl : j = e := List.mem_singleton.mp h.2
      rw [hfree g (h.1 ▸ hg) hj]
      rfl
    · rfl
  unfold State.setWait at hnone ⊢
  unfold issuerAt at hnone ⊢
  by_cases he : e = 16
  · subst he
    simp only [if_pos, State.ctxOf] at hnone ⊢
    split
    · next c hc =>
      split at hc
      · split at hc
        · obtain rfl := Option.some.inj hc
          exact rewaits_putHandler rfl gid w
        · cases hc
      · cases hc
    · next hc =>
      rw [hc] at hnone
      exact hnone rfl (fun g _ h => absurd h (by decide))
  · simp only [if_neg he, State.ctxOf] at hnone ⊢
    cases hg : FMap.find s.groups gid with
    | none =>
      simp only [hg] at hnone ⊢
      exact hnone trivial (fun g h => by cases h)
    | some g =>
      simp only [hg] at hnone ⊢
      cases hsp : FMap.find g.table e with
      | none =>
        simp only [hsp] at hnone ⊢
        exact hnone trivial (fun g' h _ => by cases h; exact hsp)
      | some sp =>
        simp only
        rw [State.putCtx_of_find (c := { groupCtx g gid e sp with split := { (groupCtx g gid e sp).split with wait := w } }) rfl hg]
        intro k g0 hg0
        by_cases hk : gid = k
        · subst hk
          obtain rfl : g = g0 := Option.some.inj (hg.symm.trans hg0)
          refine ⟨_, State.find_setGroup .., rfl, rfl, fun j _ => ?_⟩
          by_cases hj : e = j
          · subst hj
            rw [if_pos ⟨rfl, List.mem_singleton.mpr rfl⟩, hsp]
            exact FMap.find_insert_same ..
          · rw [if_neg fun h => hj (List.mem_singleton.mp h.2).symm]
            exact FMap.find_insert_other _ hj _
        · refine ⟨g0, (FMap.find_insert_other _ hk _).trans hg0, rfl, rfl, fun j _ => ?_⟩
          rw [if_neg fun h => hk h.1.symm]

theorem rewaits_foldl (gid : Nat) (w : Wait) (es : List Nat) (s : State) : Rewaits gid es w s (es.foldl (fun s e => s.setWait gid e w) s) := by
  induction es generalizing s with
  | nil => exact rewaits_nil gid w s
  | cons e es ih => exact (rewaits_setWait s gid e w).append (ih _)

/-! Markers that are no longer waited for. -/

/-- Links without the markers that a test names. -/
def Links.without (l : Links) (done : Nat × Nat → Bool) : Links :=
  { l with flush := l.flush.filter (fun q => !done q), stores := l.stores.filter (fun q => !done q.2) }

theorem State.endMarkers_of_find {s : State} {gid : Nat} {g : Group} (hg : FMap.find s.groups gid = some g) (done : Nat × Nat → Bool) :
    s.endMarkers gid done = s.setGroup gid { g with links := g.links.without done } := State.modGroup_of_find hg _

theorem mem_flushWaiters {s : State} {gid : Nat} {g : Group} (hg : FMap.find s.groups gid = some g) {e : Nat} {sp : Split} (hsp : FMap.find g.table e = some sp)
    (hw : sp.wait = .flush) : e ∈ s.flushWaiters gid := by
  rw [State.flushWaiters, hg]
  exact List.mem_append_left _ (List.mem_map_of_mem (f := Prod.fst) (List.mem_filter.mpr ⟨FMap.mem_of_find hsp, decide_eq_true hw⟩))

theorem flushOver_of_open {s : State} {gid : Nat} {g : Group} (hg : FMap.find s.groups gid = some g) (h : g.links.flush ≠ []) : s.flushOver gid = s := by
  rw [State.flushOver, hg]
  exact if_pos (by rw [Bool.not_eq_true', List.isEmpty_eq_false_iff]; exact h)

/-- Once every marker is answered, the splits that waited for it are issued again. -/
theorem rewaits_flushOver {s : State} {gid : Nat} {g : Group} (hg : FMap.find s.groups gid = some g) (h : g.links.flush = []) :
    Rewaits gid (s.flushWaiters gid) .none s (s.flushOver gid) := by
  rw [State.flushOver, hg]
  dsimp only
  rw [if_neg (by rw [h]; decide)]
  split
  · exact rewaits_foldl gid .none (s.flushWaiters gid) s
  · exact rewaits_foldl gid .none (s.flushWaiters gid) s

/-- What the end of a marker's wait leaves: every group's links but for the markers named, and every split's wait but for those
that waited for an answer. -/
theorem rewaits_endMarkers {s : State} {gid : Nat} {g : Group} (hg : FMap.find s.groups gid = some g) (done : Nat × Nat → Bool) :
    ∃ es, (es = [] ∨ ∀ e sp, FMap.find g.table e = some sp → sp.wait = .flush → e ∈ es) ∧
      Rewaits gid es .none (s.setGroup gid { g with links := g.links.without done }) ((s.endMarkers gid done).flushOver gid) := by
  have hfind := State.find_setGroup s gid { g with links := g.links.without done }
  rw [State.endMarkers_of_find hg]
  by_cases hf : (g.links.without done).flush = []
  · exact ⟨_, .inr fun e sp hsp hw => mem_flushWaiters hfind hsp hw, rewaits_flushOver hfind hf⟩
  · exact ⟨[], .inl rfl, by rw [flushOver_of_open hfind hf]; exact rewaits_nil gid .none _⟩

/-! Paths that are gone. -/

/-- A group after the time of a path to a package is over: its markers there are dropped, and splits that waited for an answer take
the fault of the path. -/
def Unreached (pkg : Nat) (g g' : Group) : Prop :=
  g'.links.flush = g.links.flush.filter (fun q => decide (q.1 ≠ pkg)) ∧
    ∀ e sp, e < 16 → FMap.find g.table e = some sp → sp.wait = .flush → ∃ sp', FMap.find g'.table e = some sp' ∧ sp'.wait = .unreached pkg

/-- A group that the time of another group's path has left as it was, as far as its links and splits go. -/
def SameWaits (g g' : Group) : Prop := g'.links = g.links ∧ ∀ j, j < 16 → FMap.find g'.table j = FMap.find g.table j

theorem filter_lost (l : List (Nat × Nat)) (pkg : Nat) : l.filter (fun q => !decide (q.1 = pkg)) = l.filter (fun q => decide (q.1 ≠ pkg)) := by
  congr 1
  funext q
  exact decide_not.symm

/-- The waits of one group's release end. -/
theorem timeoutFlush_groups (s : State) (gid pkg k : Nat) {g : Group} (hg : FMap.find s.groups k = some g) :
    ∃ g', FMap.find (s.timeoutFlush gid pkg).groups k = some g' ∧ g'.links.remote = g.links.remote ∧ (k ≠ gid → SameWaits g g') ∧
      (k = gid → (∃ id, (pkg, id) ∈ g.links.flush) → Unreached pkg g g') ∧ (k = gid → (¬ ∃ id, (pkg, id) ∈ g.links.flush) → g' = g) := by
  have hsame : SameWaits g g := ⟨rfl, fun _ _ => rfl⟩
  unfold State.timeoutFlush
  cases hg0 : FMap.find s.groups gid with
  | none =>
    have hk : k ≠ gid := by
      rintro rfl
      cases hg.symm.trans hg0
    exact ⟨g, hg, rfl, fun _ => hsame, fun h => absurd h hk, fun h => absurd h hk⟩
  | some g0 =>
    have hany : g0.links.flush.any (fun q => decide (q.1 = pkg)) = true ↔ ∃ id, (pkg, id) ∈ g0.links.flush := by
      rw [List.any_eq_true]
      constructor
      · rintro ⟨⟨p, id⟩, hq, hp⟩
        obtain rfl : p = pkg := of_decide_eq_true hp
        exact ⟨id, hq⟩
      · rintro ⟨id, hq⟩
        exact ⟨(pkg, id), hq, decide_eq_true rfl⟩
    dsimp only
    by_cases hin : ∃ id, (pkg, id) ∈ g0.links.flush
    · rw [if_neg (by rw [hany.mpr hin]; decide)]
      obtain ⟨es, -, hre⟩ := rewaits_endMarkers hg0 (fun q => decide (q.1 = pkg))
      have hwait := rewaits_foldl gid (.unreached pkg) (s.flushWaiters gid) ((s.endMarkers gid fun q => decide (q.1 = pkg)).flushOver gid)
      by_cases hk : gid = k
      · subst hk
        obtain rfl : g0 = g := Option.some.inj (hg0.symm.trans hg)
        obtain ⟨g1, hg1, hl1, -, htab1⟩ := hre gid _ (State.find_setGroup ..)
        obtain ⟨g2, hg2, hl2, -, htab2⟩ := hwait gid g1 hg1
        have hlinks : g2.links = g0.links.without fun q => decide (q.1 = pkg) := hl2.trans hl1
        refine ⟨g2, hg2, by rw [hlinks]; rfl, fun h => absurd rfl h, fun _ _ => ⟨?_, fun e sp he hsp hw => ?_⟩, fun _ h => absurd hin h⟩
        · rw [hlinks]
          exact filter_lost ..
        · rw [htab2 e he, if_pos ⟨rfl, mem_flushWaiters hg0 hsp hw⟩, htab1 e he]
          split
          · exact ⟨_, by rw [hsp]; rfl, rfl⟩
          · exact ⟨_, by rw [hsp]; rfl, rfl⟩
      · obtain ⟨g1, hg1, hl1, -, htab1⟩ := hre k g ((FMap.find_insert_other _ hk _).trans hg)
        obtain ⟨g2, hg2, hl2, -, htab2⟩ := hwait k g1 hg1
        refine ⟨g2, hg2, by rw [hl2, hl1], fun _ => ⟨hl2.trans hl1, fun j hj => ?_⟩, fun h => absurd h.symm hk, fun h => absurd h.symm hk⟩
        rw [htab2 j hj, if_neg fun h => hk h.1.symm, htab1 j hj, if_neg fun h => hk h.1.symm]
    · rw [if_pos (by rw [Bool.not_eq_true', Bool.eq_false_iff]; exact mt hany.mp hin)]
      refine ⟨g, hg, rfl, fun _ => hsame, fun hk h => ?_, fun _ _ => rfl⟩
      subst hk
      obtain rfl : g0 = g := Option.some.inj (hg0.symm.trans hg)
      exact absurd h hin

/-- One group of those that cannot reach the package. -/
def State.timeoutGroup (pkg : Nat) (s : State) (gid : Nat) : State :=
  let ops : List RemoteOp := match FMap.find s.groups gid with
    | some g => g.links.remote.filter (fun (r : RemoteOp) => r.reqs.any (fun q => decide (pkgOf q.pa = pkg)))
    | none => []
  (ops.foldl (fun (s : State) (op : RemoteOp) => s.timeoutOp gid pkg op) s).timeoutFlush gid pkg

/-- No operation of the groups listed has an access to the package. -/
def NoOps (pkg : Nat) (l : List Nat) (s : State) : Prop :=
  ∀ k ∈ l, ∀ g, FMap.find s.groups k = some g → ∀ op ∈ g.links.remote, ∀ r ∈ op.reqs, pkgOf r.pa ≠ pkg

theorem timeoutGroup_of_noOps {pkg k : Nat} {l : List Nat} {s : State} (h : NoOps pkg (k :: l) s) : s.timeoutGroup pkg k = s.timeoutFlush k pkg := by
  unfold State.timeoutGroup
  cases hg : FMap.find s.groups k with
  | none => rfl
  | some g =>
    have hnil : g.links.remote.filter (fun (r : RemoteOp) => r.reqs.any (fun q => decide (pkgOf q.pa = pkg))) = [] := by
      rw [List.filter_eq_nil_iff]
      intro op hop hany
      obtain ⟨r, hr, hpkg⟩ := List.any_eq_true.mp hany
      exact h k (List.mem_cons_self ..) g hg op hop r hr (of_decide_eq_true hpkg)
    dsimp only
    rw [hnil]
    rfl

theorem timeoutFlush_find (s : State) (gid pkg : Nat) {k : Nat} {g' : Group} (hg' : FMap.find (s.timeoutFlush gid pkg).groups k = some g')
    (hold : ∃ g, FMap.find s.groups k = some g) : ∃ g, FMap.find s.groups k = some g ∧ g'.links.remote = g.links.remote := by
  obtain ⟨g, hg⟩ := hold
  obtain ⟨g1, hg1, hremote, -⟩ := timeoutFlush_groups s gid pkg k hg
  obtain rfl : g1 = g' := Option.some.inj (hg1.symm.trans hg')
  exact ⟨g, hg, hremote⟩

/-- The groups listed stand. -/
def Stand (l : List Nat) (s : State) : Prop := ∀ k ∈ l, ∃ g, FMap.find s.groups k = some g

theorem stand_timeoutFlush {l : List Nat} {s : State} (h : Stand l s) (gid pkg : Nat) : Stand l (s.timeoutFlush gid pkg) := by
  intro k hk
  obtain ⟨g, hg⟩ := h k hk
  obtain ⟨g1, hg1, -⟩ := timeoutFlush_groups s gid pkg k hg
  exact ⟨g1, hg1⟩

theorem noOps_timeoutFlush {pkg : Nat} {l : List Nat} {s : State} (hstand : Stand l s) (h : NoOps pkg l s) (gid : Nat) : NoOps pkg l (s.timeoutFlush gid pkg) := by
  intro k hk g' hg' op hop
  obtain ⟨g, hg, hremote⟩ := timeoutFlush_find s gid pkg hg' (hstand k hk)
  exact h k hk g hg op (hremote ▸ hop)

theorem Stand.tail {k : Nat} {l : List Nat} {s : State} (h : Stand (k :: l) s) : Stand l s := fun j hj => h j (List.mem_cons_of_mem _ hj)
theorem NoOps.tail {pkg k : Nat} {l : List Nat} {s : State} (h : NoOps pkg (k :: l) s) : NoOps pkg l s := fun j hj => h j (List.mem_cons_of_mem _ hj)
theorem SameWaits.trans {g g1 g2 : Group} (h : SameWaits g g1) (h' : SameWaits g1 g2) : SameWaits g g2 :=
  ⟨h'.1.trans h.1, fun j hj => (h'.2 j hj).trans (h.2 j hj)⟩

theorem Unreached.same {pkg : Nat} {g g1 g2 : Group} (h : Unreached pkg g g1) (h' : SameWaits g1 g2) : Unreached pkg g g2 := by
  refine ⟨(congrArg Links.flush h'.1).trans h.1, fun e sp he hsp hw => ?_⟩
  obtain ⟨sp', hsp', hw'⟩ := h.2 e sp he hsp hw
  exact ⟨sp', (h'.2 e he).trans hsp', hw'⟩

theorem Unreached.none_left {pkg : Nat} {g g' : Group} (h : Unreached pkg g g') : ¬ ∃ id, (pkg, id) ∈ g'.links.flush := by
  rintro ⟨id, hid⟩
  rw [h.1] at hid
  exact of_decide_eq_true (List.mem_filter.mp hid).2 rfl

/-- A group that waits for no marker of the package keeps its waits. -/
theorem timeoutGroups_same {pkg gid : Nat} {g : Group} (l : List Nat) {s : State} (hstand : Stand l s) (hno : NoOps pkg l s)
    (hg : FMap.find s.groups gid = some g) (hfree : ¬ ∃ id, (pkg, id) ∈ g.links.flush) :
    ∃ g', FMap.find (l.foldl (State.timeoutGroup pkg) s).groups gid = some g' ∧ SameWaits g g' := by
  induction l generalizing s g with
  | nil => exact ⟨g, hg, rfl, fun _ _ => rfl⟩
  | cons k l ih =>
    obtain ⟨g1, hg1, -, hother, -, hown⟩ := timeoutFlush_groups s k pkg gid hg
    have hsame : SameWaits g g1 := by
      by_cases hk : gid = k
      · rw [hown hk hfree]
        exact ⟨rfl, fun _ _ => rfl⟩
      · exact hother hk
    have hfree1 : ¬ ∃ id, (pkg, id) ∈ g1.links.flush := by rw [hsame.1]; exact hfree
    rw [List.foldl_cons, timeoutGroup_of_noOps hno]
    obtain ⟨g', hg', hsame'⟩ := ih (stand_timeoutFlush hstand.tail k pkg) (noOps_timeoutFlush hstand.tail hno.tail k) hg1 hfree1
    exact ⟨g', hg', hsame.trans hsame'⟩

theorem timeoutGroups_unreached {pkg gid : Nat} {g : Group} (l : List Nat) {s : State} (hstand : Stand l s) (hno : NoOps pkg l s)
    (hg : FMap.find s.groups gid = some g) (hwait : ∃ id, (pkg, id) ∈ g.links.flush) (hin : gid ∈ l) :
    ∃ g', FMap.find (l.foldl (State.timeoutGroup pkg) s).groups gid = some g' ∧ Unreached pkg g g' := by
  induction l generalizing s g with
  | nil => cases hin
  | cons k l ih =>
    obtain ⟨g1, hg1, -, hother, hown, -⟩ := timeoutFlush_groups s k pkg gid hg
    rw [List.foldl_cons, timeoutGroup_of_noOps hno]
    have hstand' := stand_timeoutFlush hstand.tail k pkg
    have hno' := noOps_timeoutFlush hstand.tail hno.tail k
    by_cases hk : gid = k
    · have hun := hown hk hwait
      obtain ⟨g', hg', hsame⟩ := timeoutGroups_same l hstand' hno' hg1 hun.none_left
      exact ⟨g', hg', hun.same hsame⟩
    · obtain ⟨hlinks, htable⟩ := hother hk
      obtain ⟨g', hg', hflush, hsplits⟩ := ih hstand' hno' hg1 (by rw [hlinks]; exact hwait) ((List.mem_cons.mp hin).resolve_left hk)
      refine ⟨g', hg', by rw [hflush, hlinks], fun e sp he hsp hw => hsplits e sp he ((htable e he).trans hsp) hw⟩

/-! What follows for grids, locks, tier moves and engine commands. -/

/-- Groups and queues for handler contexts stay. -/
def KeepsGroups (s t : State) : Prop := t.groups = s.groups ∧ ∀ k, (t.core k).trapQueue = (s.core k).trapQueue

theorem KeepsGroups.trans {s t u : State} (h : KeepsGroups s t) (h' : KeepsGroups t u) : KeepsGroups s u :=
  ⟨h'.1.trans h.1, fun k => (h'.2 k).trans (h.2 k)⟩

theorem keepsGroups_of_quiet {s t : State} (h : Quiet s t) : KeepsGroups s t := ⟨h.groups, fun k => by rw [h.core]⟩

theorem keepsGroups_foldl {β : Type} {f : State → β → State} (h : ∀ s b, KeepsGroups s (f s b)) (l : List β) (s : State) : KeepsGroups s (l.foldl f s) := by
  induction l generalizing s with
  | nil => exact ⟨rfl, fun _ => rfl⟩
  | cons b l ih => exact (h s b).trans (ih _)

theorem keepsGroups_endGridMarkers (s : State) (grid : Nat) (done : Nat × Nat → Bool) : KeepsGroups s (s.endGridMarkers grid done) := by
  refine ⟨State.modGrid_groups .., fun k => ?_⟩
  rw [State.core_of_cores (s := s) (t := s.endGridMarkers grid done) (State.modGrid_cores ..)]

theorem keepsGroups_endLockMarkers (s : State) (p : Nat) (done : Nat × Nat → Bool) : KeepsGroups s (s.endLockMarkers p done) := ⟨rfl, fun _ => rfl⟩
theorem keepsGroups_endMoveMarkers (s : State) (m : Nat) (done : Nat × Nat → Bool) : KeepsGroups s (s.endMoveMarkers m done) := ⟨rfl, fun _ => rfl⟩

theorem keepsGroups_anyCommand (s : State) (id : Nat) (f : EngCmd → EngCmd) : KeepsGroups s (s.anyCommand id f) := by
  refine ⟨rfl, fun k => ?_⟩
  unfold State.anyCommand State.core FMap.getD
  rw [FMap.find_mapVals]
  cases FMap.find s.cores k <;> rfl

theorem keepsGroups_endEngineMarkers (s : State) (id : Nat) (done : Nat × Nat → Bool) : KeepsGroups s (s.endEngineMarkers id done) := by
  have h := keepsGroups_anyCommand s id fun q => { q with marks := q.marks.filter (fun m => !done m) }
  unfold State.endEngineMarkers
  dsimp only
  split
  · exact h.trans (keepsGroups_of_quiet (quiet_schedule _ _))
  · exact h

/-- The groups of a path's timeout come first; nothing after them touches a group. -/
theorem millracePathTimeout_spec (s : State) (pkg : Nat) : ∃ t, exec (.millracePathTimeout pkg) s = .next t ∧
    KeepsGroups (((FMap.keys s.groups).filter (fun k => s.unreachable (s.partOf k) pkg)).foldl (State.timeoutGroup pkg) s) t := by
  have hx : exec (.millracePathTimeout pkg) s = execMillracePathTimeout pkg s := rfl
  refine ⟨_, hx, ?_⟩
  refine KeepsGroups.trans ?_ (keepsGroups_of_quiet (quiet_releaseHeld _))
  refine KeepsGroups.trans ?_ (keepsGroups_foldl (fun s k => keepsGroups_endEngineMarkers s k _) _ _)
  refine KeepsGroups.trans ?_ (keepsGroups_foldl (fun s k => keepsGroups_endMoveMarkers s k _) _ _)
  refine KeepsGroups.trans ?_ (keepsGroups_foldl (fun s k => keepsGroups_endLockMarkers s k _) _ _)
  refine KeepsGroups.trans ?_ (keepsGroups_foldl (fun s k => keepsGroups_endGridMarkers s k _) _ _)
  exact ⟨rfl, fun _ => rfl⟩

theorem millracePathTimeout_flushes {s : State} {pkg gid : Nat} {g : Group} (hg : FMap.find s.groups gid = some g)
    (hun : s.unreachable (s.partOf gid) pkg = true) (hwait : ∃ id, (pkg, id) ∈ g.links.flush)
    (hops : ∀ q ∈ s.groups, s.unreachable (s.partOf q.1) pkg = true → ∀ op ∈ q.2.links.remote, ∀ r ∈ op.reqs, pkgOf r.pa ≠ pkg) :
    ∃ t, exec (.millracePathTimeout pkg) s = .next t ∧ OfGroup t gid (Unreached pkg g) := by
  obtain ⟨t, ht, hgroups, -⟩ := millracePathTimeout_spec s pkg
  have hkey : ∀ k, k ∈ FMap.keys s.groups → ∃ g, FMap.find s.groups k = some g := by
    intro k hk
    cases hf : FMap.find s.groups k with
    | none =>
      obtain ⟨q, hq, rfl⟩ := List.mem_map.mp hk
      exact absurd rfl ((FMap.find_none_iff _ _).mp hf q hq)
    | some g => exact ⟨g, rfl⟩
  have hstand : Stand ((FMap.keys s.groups).filter fun k => s.unreachable (s.partOf k) pkg) s := fun k hk => hkey k (List.mem_filter.mp hk).1
  have hno : NoOps pkg ((FMap.keys s.groups).filter fun k => s.unreachable (s.partOf k) pkg) s := fun k hk g hg =>
    hops (k, g) (FMap.mem_of_find hg) (List.mem_filter.mp hk).2
  obtain ⟨g', hg', hun'⟩ := timeoutGroups_unreached _ hstand hno hg hwait
    (List.mem_filter.mpr ⟨List.mem_map_of_mem (f := Prod.fst) (FMap.mem_of_find hg), hun⟩)
  exact ⟨t, ht, g', by rw [hgroups, hg'], hun'⟩

/-! The operation of one group to a package that is gone. -/

/-- The threads of an operation that are still the split's. -/
def RemoteOp.liveMask (op : RemoteOp) (c : Ctx) : BitVec 64 := op.reqs.foldl (fun m q => m ||| q.live c) 0#64

theorem getLsbD_foldl_live (l : List RemoteReq) (c : Ctx) (m : BitVec 64) (j : Nat) :
    (l.foldl (fun m q => m ||| q.live c) m).getLsbD j = true ↔ m.getLsbD j = true ∨ ∃ q ∈ l, (q.live c).getLsbD j = true := by
  induction l generalizing m with
  | nil => simp
  | cons q l ih =>
    rw [List.foldl_cons, ih, BitVec.getLsbD_or, Bool.or_eq_true]
    constructor
    · rintro ((h | h) | ⟨x, hx, h⟩)
      · exact .inl h
      · exact .inr ⟨q, List.mem_cons_self .., h⟩
      · exact .inr ⟨x, List.mem_cons_of_mem _ hx, h⟩
    · rintro (h | ⟨x, hx, h⟩)
      · exact .inl (.inl h)
      · obtain rfl | hx := List.mem_cons.mp hx
        · exact .inl (.inr h)
        · exact .inr ⟨x, hx, h⟩

/-- Every thread of an operation, with the fault of its access's path. -/
def pathBad (s : State) (p : Nat) (c : Ctx) (op : RemoteOp) : List (Nat × XFault) :=
  (op.reqs.map (fun q => (threadsOf (q.live c)).map (fun t => (t, s.pathFault p q.pa q.va)))).flatten

/-- A fault that a missing path gives. -/
def XFault.IsPath (f : XFault) : Prop := f.code = fUncorrectable ∧ f.pathFail = true ∨ f.code = fTranslation

theorem pathFault_isPath (s : State) (p pa va : Nat) : (s.pathFault p pa va).IsPath := by
  unfold State.pathFault
  split
  · exact .inl ⟨rfl, rfl⟩
  · exact .inr rfl

theorem mem_pathBad {s : State} {p : Nat} {c : Ctx} {op : RemoteOp} {t : Nat} {f : XFault} (h : (t, f) ∈ pathBad s p c op) :
    f.IsPath ∧ t < 64 ∧ (op.liveMask c).getLsbD t = true := by
  obtain ⟨l, hl, ht⟩ := List.mem_flatten.mp h
  obtain ⟨q, hq, rfl⟩ := List.mem_map.mp hl
  obtain ⟨t', ht', heq⟩ := List.mem_map.mp ht
  cases heq
  obtain ⟨hlt, hlive⟩ := (mem_threadsOf _ _).mp ht'
  exact ⟨pathFault_isPath .., hlt, (getLsbD_foldl_live ..).mpr (.inr ⟨q, hq, hlive⟩)⟩

theorem pathBad_of_live {s : State} {p : Nat} {c : Ctx} {op : RemoteOp} {t : Nat} (ht : t < 64) (h : (op.liveMask c).getLsbD t = true) :
    ∃ f, (t, f) ∈ pathBad s p c op := by
  obtain h | ⟨q, hq, hlive⟩ := (getLsbD_foldl_live ..).mp h
  · simp at h
  · exact ⟨_, List.mem_flatten.mpr ⟨_, List.mem_map_of_mem hq, List.mem_map_of_mem ((mem_threadsOf _ _).mpr ⟨ht, hlive⟩)⟩⟩

/-- The exception of the threads of an operation whose path is gone, none of them in a transaction. -/
theorem memFault_path {s : State} {p : Nat} {c : Ctx} {op : RemoteOp} (hm : op.liveMask c ≠ 0#64) :
    let r := memFault 0#64 (pathBad s p c op) []
    r.mask = op.liveMask c ∧ r.aborts = [] ∧ r.poison = false ∧ (r.code = fUncorrectable ∨ r.code = fTranslation) := by
  intro r
  have hrest : (pathBad s p c op).filter (fun q => !(0#64 : BitVec 64).getLsbD q.1) = pathBad s p c op := by
    rw [List.filter_eq_self]
    exact fun q _ => by rw [BitVec.getLsbD_zero]; rfl
  have htx : (pathBad s p c op).filter (fun q => (0#64 : BitVec 64).getLsbD q.1) = [] := by
    rw [List.filter_eq_nil_iff]
    exact fun q _ => by rw [BitVec.getLsbD_zero]; decide
  have hmask : maskOf ((pathBad s p c op).map (fun q => q.1)) = op.liveMask c := by
    refine BitVec.eq_of_getLsbD_eq fun j hj => Bool.eq_iff_iff.mpr ?_
    rw [getLsbD_maskOf, decide_eq_true_eq]
    constructor
    · rintro ⟨-, hmem⟩
      obtain ⟨⟨t, f⟩, hq, rfl⟩ := List.mem_map.mp hmem
      exact (mem_pathBad hq).2.2
    · intro h
      obtain ⟨f, hf⟩ := pathBad_of_live (s := s) (p := p) hj h
      exact ⟨hj, List.mem_map_of_mem hf⟩
  have hr : r = memFault 0#64 (pathBad s p c op) [] := rfl
  unfold memFault at hr
  simp only [hrest, htx, hmask, List.map_nil, List.append_nil] at hr
  rw [hr]
  refine ⟨rfl, rfl, ?_, ?_⟩
  · rw [List.any_eq_false]
    rintro ⟨t, f⟩ hq hbad
    rw [Bool.and_eq_true, decide_eq_true_eq, Bool.not_eq_true'] at hbad
    obtain ⟨-, hp⟩ | hp := (mem_pathBad hq).1
    · exact absurd (hp.symm.trans hbad.2) (by decide)
    · exact absurd (hp.symm.trans hbad.1) (by decide)
  · obtain ⟨hlt, hbit⟩ := (mem_threadsOf _ _).mp (lowest_mem hm)
    obtain ⟨f, hf⟩ := pathBad_of_live (s := s) (p := p) hlt hbit
    cases hfind : (pathBad s p c op).find? (fun q => decide (q.1 = lowest (op.liveMask c))) with
    | none => exact absurd (decide_eq_true rfl) (List.find?_eq_none.mp hfind _ hf)
    | some q =>
      have hpath := (mem_pathBad (t := q.1) (f := q.2) (List.mem_of_find?_eq_some hfind)).1
      exact hpath.imp (fun h => h.1) id

/-- A trapped group stays so when an operation of it ends. -/
theorem trapped_operationDone {s : State} {gid : Nat} {P : FaultInfo → Prop} (h : Trapped s gid P) : Trapped (s.operationDone gid) gid P := by
  obtain ⟨⟨g, hg, hst, f, hf, hP⟩, hq⟩ := h
  unfold State.operationDone
  rw [hg]
  dsimp only
  split
  · rw [State.queueTrap, State.modGroup_of_find hg]
    refine ⟨⟨{ g with trapTick := s.tick }, State.find_setGroup .., hst, f, hf, hP⟩, ?_⟩
    have hcore := State.core_modCore (s.setGroup gid { g with trapTick := s.tick }) (coreOf gid) (coreOf gid)
      (fun x => x.queued gid ((s.setGroup gid { g with trapTick := s.tick }).joinsLater gid))
    rw [if_pos rfl] at hcore
    exact (congrArg Core.trapQueue hcore) ▸ Core.mem_queued ..
  · exact ⟨⟨g, hg, hst, f, hf, hP⟩, hq⟩

theorem links_operationDone {s : State} {gid : Nat} {l : Links} (h : OfGroup s gid (fun g => g.links = l)) : OfGroup (s.operationDone gid) gid (fun g => g.links = l) := by
  obtain ⟨g, hg, hl⟩ := h
  unfold State.operationDone
  rw [hg]
  dsimp only
  split
  · rw [State.queueTrap, State.modGroup_of_find hg]
    exact ⟨{ g with trapTick := s.tick }, State.find_setGroup .., hl⟩
  · exact ⟨g, hg, hl⟩

theorem trapped_of_keepsGroups {s t : State} {gid : Nat} {P : FaultInfo → Prop} (h : KeepsGroups s t) (hs : Trapped s gid P) : Trapped t gid P := by
  obtain ⟨⟨g, hg, hP⟩, hq⟩ := hs
  exact ⟨⟨g, by rw [h.1, hg], hP⟩, by rw [h.2]; exact hq⟩

/-- The group of an operation that is no longer outstanding. -/
def Group.dropOp (g : Group) (id : Nat) : Group :=
  { g.undemote with links := { g.links with remote := g.links.remote.filter (fun r => decide (r.id ≠ id)) } }

theorem State.dropRemote_of_find {s : State} {gid : Nat} {g : Group} (hg : FMap.find s.groups gid = some g) (id : Nat) :
    s.dropRemote gid id = s.setGroup gid (g.dropOp id) := by
  rw [State.dropRemote, State.modGroup_of_find hg]
  rfl

theorem Group.dropOp_keeps (g : Group) (id : Nat) : (g.dropOp id).status = g.status ∧ (g.dropOp id).tx = g.tx ∧ (g.dropOp id).links.flush = g.links.flush := by
  unfold Group.dropOp Group.undemote
  split <;> exact ⟨rfl, rfl, rfl⟩

/-- The context of a split agrees with its group, but for the split, also once an operation is no longer outstanding. -/
theorem Group.withCtx_dropOp (g : Group) (id gid e : Nat) (sp sp' : Split) :
    (g.dropOp id).withCtx e { groupCtx g gid e sp with split := sp' } = { g.dropOp id with table := FMap.insert (g.dropOp id).table e sp' } := by
  unfold Group.dropOp Group.undemote
  split <;> cases hi : sp.issued <;> simp [Group.withCtx, groupCtx, hi]

/-- The split that waits for an operation. -/
theorem split_of_waiter {s : State} {gid : Nat} {op : RemoteOp} {c : Ctx} (h : s.waiter gid op = some c) (hs : c.single = false) :
    ∃ g sp, FMap.find s.groups gid = some g ∧ c = groupCtx g gid op.entry sp := by
  unfold State.waiter issuerAt at h
  split at h
  · next c' hc =>
    split at h
    · obtain rfl := Option.some.inj h
      split at hc
      · unfold State.ctxOf at hc
        dsimp only at hc
        split at hc
        · split at hc
          · obtain rfl := Option.some.inj hc
            cases hs
          · cases hc
        · cases hc
      · obtain ⟨g, sp, hg, -, rfl⟩ := split_of_ctxOf hc
        exact ⟨g, sp, hg, rfl⟩
    · cases h
  · cases h

theorem timeoutOp_traps {s : State} {pkg gid : Nat} {g : Group} {op : RemoteOp} {c : Ctx} (hg : FMap.find s.groups gid = some g) (hrun : g.status = .running)
    (hopen : g.openLanes (~~~0#64) = 0#64) (hkind : ∀ k h v n, op.kind ≠ .weir k h v n) (hbad : op.bad = []) (haborts : op.aborts = [])
    (hw : s.waiter gid op = some c) (hs : c.single = false) (hm : op.liveMask c ≠ 0#64) :
    Trapped (s.timeoutOp gid pkg op) gid (fun f => f.mask = op.liveMask c ∧ f.pc = c.split.pc ∧ (f.code = fUncorrectable ∨ f.code = fTranslation)) ∧
      OfGroup (s.timeoutOp gid pkg op) gid (fun g' => g'.links = (g.dropOp op.id).links) := by
  obtain ⟨g', sp, hg', rfl⟩ := split_of_waiter hw hs
  obtain rfl : g' = g := Option.some.inj (hg'.symm.trans hg)
  obtain ⟨hstatus, htx, -⟩ := g'.dropOp_keeps op.id
  let c := groupCtx g' gid op.entry sp
  have hdrop := State.dropRemote_of_find hg op.id
  have hfind : FMap.find (s.dropRemote gid op.id).groups gid = some (g'.dropOp op.id) := by rw [hdrop]; exact State.find_setGroup ..
  have hlanes : ∀ m, (g'.dropOp op.id).openLanes m = 0#64 := by
    intro m
    have hsame : (g'.dropOp op.id).openLanes m = g'.openLanes m := by
      unfold Group.openLanes Group.lane
      rw [htx]
    rw [hsame]
    exact Group.openLanes_sub hopen
  have htxl : c.txLanes (s.dropRemote gid op.id) = 0#64 := by
    have hc : c.gid = gid := rfl
    rw [Ctx.txLanes, if_neg (by rw [hs]; decide), hc, hfind]
    exact hlanes _
  have hend : s.timeoutOp gid pkg op = (s.dropRemote gid op.id).endRemote c c op.word (pathBad s (s.partOf gid) c op) [] := by
    unfold State.timeoutOp
    rw [hw, hbad, haborts]
    cases hk : op.kind with
    | weir k h v n => exact absurd hk (hkind k h v n)
    | load _ _ => rfl
    | atomic _ _ _ _ => rfl
    | bow _ _ => rfl
  obtain ⟨hmask, hnone, hpoison, hcode⟩ := memFault_path (s := s) (p := s.partOf gid) hm
  have hne : (pathBad s (s.partOf gid) c op).isEmpty = false := by
    rw [List.isEmpty_eq_false_iff]
    intro hnil
    have hzero : (memFault 0#64 (pathBad s (s.partOf gid) c op) []).mask = 0#64 := by rw [hnil]; rfl
    exact hm (hmask.symm.trans hzero)
  rw [hend, State.endRemote]
  dsimp only
  rw [if_neg (by rw [hne]; decide), htxl]
  have hc : c.gid = gid := rfl
  rw [hc, hfind]
  dsimp only
  rw [if_neg (by rw [hstatus, hrun]; simp)]
  obtain ⟨last, later, ht⟩ := State.raise_traps_own (s := s.dropRemote gid op.id) (c := c) rfl rfl hfind (fun sp' => Group.withCtx_dropOp g' op.id gid op.entry sp sp')
    op.word (r := memFault 0#64 (pathBad s (s.partOf gid) c op) []) (hlanes _) (by rw [hmask]; exact hm) hnone (by rw [secondPoison, hpoison, Bool.and_false])
  rw [ht]
  refine ⟨trapped_operationDone ?_, links_operationDone ?_⟩
  · refine ⟨⟨_, State.find_setGroup .., rfl, _, rfl, hmask, rfl, hcode⟩, ?_⟩
    have hcore := State.core_modCore ((s.dropRemote gid op.id).setGroup c.gid ((g'.dropOp op.id).excepted c last
      (faultInfo c op.word (memFault 0#64 (pathBad s (s.partOf gid) c op) []) (memFault 0#64 (pathBad s (s.partOf gid) c op) []).mask 0#64) (s.dropRemote gid op.id).tick))
      (coreOf gid) (coreOf gid) (fun x => x.queued gid later)
    rw [if_pos rfl] at hcore
    exact (congrArg Core.trapQueue hcore) ▸ Core.mem_queued ..
  · exact ⟨_, State.find_setGroup .., rfl⟩

theorem millracePathTimeout_traps {s : State} {pkg gid : Nat} {g : Group} {op : RemoteOp} {c : Ctx}
    (hlost : (FMap.keys s.groups).filter (fun k => s.unreachable (s.partOf k) pkg) = [gid]) (hg : FMap.find s.groups gid = some g) (hrun : g.status = .running)
    (hopen : g.openLanes (~~~0#64) = 0#64) (hflush : g.links.flush = []) (hremote : g.links.remote = [op]) (hpkg : op.reqs.any (fun q => decide (pkgOf q.pa = pkg)) = true)
    (hkind : ∀ k h v n, op.kind ≠ .weir k h v n) (hbad : op.bad = []) (haborts : op.aborts = []) (hw : s.waiter gid op = some c) (hs : c.single = false)
    (hm : op.liveMask c ≠ 0#64) :
    ∃ t, exec (.millracePathTimeout pkg) s = .next t ∧
      Trapped t gid (fun f => f.mask = op.liveMask c ∧ f.pc = c.split.pc ∧ (f.code = fUncorrectable ∨ f.code = fTranslation)) := by
  obtain ⟨t, ht, hkeeps⟩ := millracePathTimeout_spec s pkg
  obtain ⟨htrap, g1, hg1, hlinks⟩ := timeoutOp_traps (pkg := pkg) hg hrun hopen hkind hbad haborts hw hs hm
  have hflush1 : g1.links.flush = [] := by rw [hlinks, (g.dropOp_keeps op.id).2.2, hflush]
  have hover : (s.timeoutOp gid pkg op).timeoutFlush gid pkg = s.timeoutOp gid pkg op := by
    rw [State.timeoutFlush, hg1]
    exact if_pos (by rw [hflush1]; rfl)
  have hgroup : s.timeoutGroup pkg gid = (s.timeoutOp gid pkg op).timeoutFlush gid pkg := by
    unfold State.timeoutGroup
    rw [hg]
    have hops : [op].filter (fun (r : RemoteOp) => r.reqs.any (fun q => decide (pkgOf q.pa = pkg))) = [op] :=
      List.filter_eq_self.mpr fun r hr => by rw [List.mem_singleton.mp hr]; exact hpkg
    dsimp only
    rw [hremote, hops]
    rfl
  rw [hlost, List.foldl_cons, List.foldl_nil, hgroup, hover] at hkeeps
  exact ⟨t, ht, trapped_of_keepsGroups hkeeps htrap⟩

/-! Flush answers. -/

section
variable {s : State} {gid pkg id vf gen : Nat} (hgid : gid < 2 ^ 30)
include hgid

theorem flushAnswer_stale (hgen : gen ≠ (s.vf vf).gen) : exec (.flushAnswer gid ⟨pkg, id, vf, gen⟩) s = .next s := by
  have hx : exec (.flushAnswer gid ⟨pkg, id, vf, gen⟩) s = execFlushAnswer gid ⟨pkg, id, vf, gen⟩ s := rfl
  have hunit : ¬ gridSender 0 ≤ gid := by rw [gridSender]; omega
  rw [hx, execFlushAnswer]
  exact (if_neg hunit).trans (if_pos hgen)

theorem flushAnswer_taken (hgen : gen = (s.vf vf).gen) : exec (.flushAnswer gid ⟨pkg, id, vf, gen⟩) s =
    .next ((s.endMarkers gid (fun q => decide (q = (pkg, id)))).flushOver gid) := by
  have hx : exec (.flushAnswer gid ⟨pkg, id, vf, gen⟩) s = execFlushAnswer gid ⟨pkg, id, vf, gen⟩ s := rfl
  have hunit : ¬ gridSender 0 ≤ gid := by rw [gridSender]; omega
  rw [hx, execFlushAnswer]
  exact (if_neg hunit).trans (if_neg (Classical.not_not.mpr hgen))
end

theorem Links.without_marker (l : Links) (m : Nat × Nat) :
    l.without (fun q => decide (q = m)) = { l with flush := l.flush.filter (fun q => decide (q ≠ m)), stores := l.stores.filter (fun q => decide (q.2 ≠ m)) } := by
  have h : ∀ q : Nat × Nat, (!decide (q = m)) = decide (q ≠ m) := fun q => decide_not.symm
  simp only [Links.without, h]

end Sys2Proof.Machine
end

