-- ==== Sys2Proof/Proofs/PacketEvents.lean ====
section
/-! SUPPORT. Packets from other packages, requests at a home slice, and what ends a host transaction (R16 to R19, R28, R29,
R32 to R35, R93, R215, R216, R230, R231). -/

namespace Sys2Proof.Machine

open Sys2Proof.Claims

/-! What a read at home leaves. -/

/-- What an access that only reads memory leaves unchanged. -/
structure OnlyReads (s t : State) : Prop where
  groups : t.groups = s.groups
  harts : t.harts = s.harts
  mem : t.ms.mem = s.ms.mem

theorem OnlyReads.refl (s : State) : OnlyReads s s := ⟨rfl, rfl, rfl⟩

theorem OnlyReads.trans {s t u : State} (h : OnlyReads s t) (h' : OnlyReads t u) : OnlyReads s u :=
  ⟨h'.groups.trans h.groups, h'.harts.trans h.harts, h'.mem.trans h.mem⟩

theorem onlyReads_foldl {β : Type} {f : State → β → State} (h : ∀ s b, OnlyReads s (f s b)) (l : List β) (s : State) : OnlyReads s (l.foldl f s) := by
  induction l generalizing s with
  | nil => exact .refl s
  | cons b l ih => exact (h s b).trans (ih _)

theorem onlyReads_touchLine (s : State) (p line bits : Nat) (write : Bool) : OnlyReads s (s.touchLine p line bits write).2 := by
  unfold State.touchLine
  dsimp only
  split
  · exact ⟨rfl, rfl, rfl⟩
  · split
    · exact .refl s
    · split
      · exact ⟨rfl, rfl, rfl⟩
      · split
        · exact ⟨rfl, rfl, rfl⟩
        · exact .refl s

theorem onlyReads_touchL2 (s : State) (p key n : Nat) (write : Bool) : OnlyReads s (s.touchL2 p key n write).2 := by
  have hfold : ∀ (l : List Nat) (r : Bool × State),
      OnlyReads r.2 (l.foldl (fun (r : Bool × State) line => r.2.touchLine p line (sectorBits line key n) write) r).2 := by
    intro l
    induction l with
    | nil => exact fun r => .refl r.2
    | cons x l ih => exact fun r => (onlyReads_touchLine ..).trans (ih _)
  exact hfold _ (false, s)

theorem onlyReads_readHome (s : State) (p off n : Nat) : OnlyReads s (s.readHome p off n) := by
  obtain ⟨d, hd⟩ := s.noteRead_eq off n
  have hnote : OnlyReads s (s.noteRead off n) := by
    rw [hd]
    exact ⟨rfl, rfl, rfl⟩
  exact hnote.trans (onlyReads_touchL2 ..)

theorem onlyReads_send (s : State) (m : OutMsg) : OnlyReads s (s.send m) := ⟨rfl, rfl, rfl⟩

theorem onlyReads_hostCopy (s : State) (off : Nat) (write : Bool) : OnlyReads s (s.hostCopy off write) := by
  have htell : ∀ d, OnlyReads s (s.tellPeers (off / 256) d) := fun d => onlyReads_foldl (fun s q => onlyReads_send s _) _ _
  unfold State.hostCopy
  cases write with
  | false => exact ⟨rfl, rfl, rfl⟩
  | true => exact (htell _).trans ⟨rfl, rfl, rfl⟩

theorem onlyReads_peerCopy (s : State) (src off n : Nat) : OnlyReads s (s.peerCopy src off n) := by
  refine onlyReads_foldl (fun s line => ?_) _ s
  exact ⟨rfl, rfl, rfl⟩

theorem onlyReads_trackHost (s : State) (agent : Option Nat) (p off n : Nat) : OnlyReads s (s.trackHost agent p off n false) := by
  unfold State.trackHost
  split
  · exact onlyReads_hostCopy ..
  · exact onlyReads_readHome ..

theorem mem_trackHost (s : State) (agent : Option Nat) (p off n : Nat) : (s.trackHost agent p off n true).ms.mem = s.ms.mem := by
  unfold State.trackHost
  split
  · exact (onlyReads_hostCopy s off true).mem
  · rfl

/-- What a sender is told last. -/
theorem lastSent (s : State) (m : OutMsg) : (s.send m).turn.outbox.getLast? = some m := List.getLast?_concat ..

/-! Poison. -/

theorem mem_markPoison (s : State) (l : List Nat) : (s.markPoison l).ms.mem = s.ms.mem :=
  foldl_keep (fun s : State => s.ms.mem) _ (fun s k => s.setPoison_mem k true) l s

theorem assistOn_markPoison (s : State) (l : List Nat) (p bit : Nat) : (s.markPoison l).assistOn p bit = s.assistOn p bit := by
  have hone : ∀ (s : State) k, (s.setPoison k true).assistOn p bit = s.assistOn p bit := fun _ _ => rfl
  exact foldl_keep (fun s : State => s.assistOn p bit) _ hone l s

/-- A write of a home that may mark what it has written. -/
theorem mem_written (s : State) (p off : Nat) (b : List Byte) (secs : List Nat) (bad : Bool) :
    (if bad then ((s.writeHome none p off b).clearPoison [(off, b.length)]).markPoison secs else (s.writeHome none p off b).clearPoison [(off, b.length)]).ms.mem =
      putBytes s.ms.mem off b := by
  have hput : ((s.writeHome none p off b).clearPoison [(off, b.length)]).ms.mem = putBytes s.ms.mem off b := by
    rw [State.clearPoison_mem, State.writeHome_mem]
  cases bad with
  | false => exact hput
  | true => exact (mem_markPoison ..).trans hput

/-- Poison that is not posted holds no write (R194, R213). -/
theorem State.fillPost_of_off {s : State} {p : Nat} (h : s.assistOn p 3 = false) (off n : Nat) : s.fillPost p off n = none :=
  List.findSome?_eq_none_iff.mpr fun _ _ => State.toPost_of_off h _ _

/-! Millrace packets. -/

/-- A request of another package that comes to its home with the generation in force. -/
structure AtHome (s : State) (pa : Nat) (bytes : List Byte) : Prop where
  power : s.power = true
  some_ : bytes ≠ []
  here : pkgOf pa = s.boot.pkg
  mapped : pa < 2 ^ 51
  page : offOf pa / 4096 = (offOf pa + bytes.length - 1) / 4096

section
variable {s : State} {vf ppid pa : Nat} {bytes : List Byte} (src rvf rgen : Nat) (bad : Bool)

theorem millracePacket_stale {gen kind : Nat} (h : gen ≠ (s.vf vf).gen) :
    exec (.millracePacketRx vf gen ppid ⟨src, kind, rvf, rgen⟩ pa ⟨bytes, bad⟩) s = .next s := by
  have hx : exec (.millracePacketRx vf gen ppid ⟨src, kind, rvf, rgen⟩ pa ⟨bytes, bad⟩) s = execMillracePacketRx vf gen ppid ⟨src, kind, rvf, rgen⟩ pa ⟨bytes, bad⟩ s := rfl
  rw [hx, execMillracePacketRx]
  exact if_pos (.inr h)

/-- A read or a write that reaches its home is refused where the home does not admit it, and else performed, where poison is not posted. -/
theorem millracePacket_arrives (h : AtHome s pa bytes) {kind : Nat} (hkind : kind < 2) :
    (s.admitPpid ppid (offOf pa) = false → exec (.millracePacketRx vf (s.vf vf).gen ppid ⟨src, kind, rvf, rgen⟩ pa ⟨bytes, bad⟩) s =
      .next (s.answerPacket src ⟨ppid, rvf, rgen⟩ true [] false)) ∧
    (s.admitPpid ppid (offOf pa) = true → s.assistOn ((s.partOfPpid ppid).getD 0) 3 = false →
      exec (.millracePacketRx vf (s.vf vf).gen ppid ⟨src, kind, rvf, rgen⟩ pa ⟨bytes, bad⟩) s =
        .next (s.servePacket src ⟨ppid, rvf, rgen⟩ kind ((s.partOfPpid ppid).getD 0) (offOf pa) bytes bad)) := by
  have hx : exec (.millracePacketRx vf (s.vf vf).gen ppid ⟨src, kind, rvf, rgen⟩ pa ⟨bytes, bad⟩) s =
    execMillracePacketRx vf (s.vf vf).gen ppid ⟨src, kind, rvf, rgen⟩ pa ⟨bytes, bad⟩ s := rfl
  have hsize : packetSize kind bytes = bytes.length := if_pos hkind
  have hlen : bytes.length ≠ 0 := mt List.length_eq_zero_iff.mp h.some_
  rw [hx, execMillracePacketRx]
  dsimp only
  rw [if_neg (by rw [h.power]; simp), if_neg (by rw [invalidateKind]; omega), if_neg (not_or.mpr ⟨Classical.not_not.mpr h.here, Nat.not_le.mpr h.mapped⟩),
    if_neg (by rw [weirKind]; omega), hsize, if_neg (not_or.mpr ⟨hlen, Classical.not_not.mpr h.page⟩)]
  refine ⟨fun hadmit => if_pos hadmit, fun hadmit hquiet => ?_⟩
  rw [if_neg (by rw [hadmit]; decide), State.fillPost_of_off hquiet, State.toPost_of_off hquiet, ite_self]

variable (h : AtHome s pa bytes)
include h

theorem millracePacket_refused (hadmit : s.admitPpid ppid (offOf pa) = false) {kind : Nat} (hkind : kind < 2) :
    exec (.millracePacketRx vf (s.vf vf).gen ppid ⟨src, kind, rvf, rgen⟩ pa ⟨bytes, bad⟩) s =
      .next (s.send (.millraceAnswer src true [] false ⟨ppid, rvf, rgen⟩)) := by
  exact (millracePacket_arrives src rvf rgen bad h hkind).1 hadmit

variable (hadmit : s.admitPpid ppid (offOf pa) = true) (hquiet : s.assistOn ((s.partOfPpid ppid).getD 0) 3 = false)
include hadmit hquiet

theorem millracePacket_writes :
    ∃ t, exec (.millracePacketRx vf (s.vf vf).gen ppid ⟨src, 1, rvf, rgen⟩ pa ⟨bytes, bad⟩) s = .next t ∧ t.ms.mem = putBytes s.ms.mem (offOf pa) bytes := by
  exact ⟨_, (millracePacket_arrives src rvf rgen bad h (by decide)).2 hadmit hquiet, mem_written ..⟩

theorem millracePacket_reads :
    ∃ t, exec (.millracePacketRx vf (s.vf vf).gen ppid ⟨src, 0, rvf, rgen⟩ pa ⟨bytes, bad⟩) s = .next t ∧ t.ms.mem = s.ms.mem ∧
      t.turn.outbox.getLast? = some (.millraceAnswer src false (s.bytesAt (offOf pa) bytes.length) (s.poisoned (offOf pa) bytes.length) ⟨ppid, rvf, rgen⟩) := by
  refine ⟨_, (millracePacket_arrives src rvf rgen bad h (by decide)).2 hadmit hquiet, ?_, lastSent ..⟩
  change ((if s.isPeer src then _ else _ : State)).ms.mem = s.ms.mem
  split
  · exact ((onlyReads_peerCopy ..).trans (onlyReads_touchL2 ..)).mem
  · exact (onlyReads_readHome ..).mem
end

/-! Estuary packets. -/

section
variable {s : State} {vf conn seq va : Nat} {bytes : List Byte} {counter : Option Nat}

theorem estuaryPacket_stale {gen : Nat} (h : gen ≠ (s.vf vf).gen) (head : EstuaryHead) : exec (.estuaryPacketRx vf gen head va bytes counter) s = .next s := by
  have hx : exec (.estuaryPacketRx vf gen head va bytes counter) s = execEstuaryPacketRx vf gen head va bytes counter s := rfl
  rw [hx, execEstuaryPacketRx]
  exact if_pos (.inr (.inl h))

variable (hpower : s.power = true) (hassigned : (s.vf vf).assigned = true)
include hpower hassigned

theorem estuaryPacket_badMode {mode : Nat} {read : Option Nat} (hmode : 1 < mode) :
    exec (.estuaryPacketRx vf (s.vf vf).gen ⟨conn, seq, mode, read⟩ va bytes counter) s = .next (s.send (.negAck vf conn (s.peerGen vf conn))) := by
  have hx : exec (.estuaryPacketRx vf (s.vf vf).gen ⟨conn, seq, mode, read⟩ va bytes counter) s =
    execEstuaryPacketRx vf (s.vf vf).gen ⟨conn, seq, mode, read⟩ va bytes counter s := rfl
  rw [hx, execEstuaryPacketRx]
  exact (if_neg (by rw [hpower, hassigned]; simp)).trans (if_pos hmode)

theorem estuaryPacket_again {read : Option Nat} (hseq : seq < ((s.vf vf).rodState conn).next) :
    exec (.estuaryPacketRx vf (s.vf vf).gen ⟨conn, seq, 1, read⟩ va bytes counter) s = .next s := by
  have hx : exec (.estuaryPacketRx vf (s.vf vf).gen ⟨conn, seq, 1, read⟩ va bytes counter) s =
    execEstuaryPacketRx vf (s.vf vf).gen ⟨conn, seq, 1, read⟩ va bytes counter s := rfl
  rw [hx, execEstuaryPacketRx]
  exact (if_neg (by rw [hpower, hassigned]; simp)).trans ((if_neg (Nat.lt_irrefl 1)).trans (if_pos ⟨rfl, hseq⟩))

/-- A connection's packets with one more held. -/
def Vf.holdPacket (v : Vf) (conn : Nat) (x : RodPacket) : Vf :=
  { v with rod := FMap.setD v.rod ⟨0, []⟩ conn { v.rodState conn with held := (v.rodState conn).held ++ [x] } }

omit hpower hassigned in
theorem Vf.rodState_holdPacket (v : Vf) (conn : Nat) (x : RodPacket) :
    (v.holdPacket conn x).rodState conn = { v.rodState conn with held := (v.rodState conn).held ++ [x] } := FMap.getD_setD_same ..

theorem estuaryPacket_held {read : Option Nat} (hseq : ((s.vf vf).rodState conn).next < seq)
    (hnew : ((s.vf vf).rodState conn).held.any (fun h => decide (h.seq = seq)) = false) :
    ∃ t, exec (.estuaryPacketRx vf (s.vf vf).gen ⟨conn, seq, 1, read⟩ va bytes counter) s = .next t ∧ t.ms = s.ms ∧
      (t.vf vf).rodState conn = { (s.vf vf).rodState conn with held := ((s.vf vf).rodState conn).held ++ [⟨seq, va, bytes, counter, read⟩] } := by
  have hx : exec (.estuaryPacketRx vf (s.vf vf).gen ⟨conn, seq, 1, read⟩ va bytes counter) s = .next (s.modVf vf (fun v =>
      { v with rod := FMap.setD v.rod ⟨0, []⟩ conn { (s.vf vf).rodState conn with held := ((s.vf vf).rodState conn).held ++ [⟨seq, va, bytes, counter, read⟩] } })) := by
    have hx : exec (.estuaryPacketRx vf (s.vf vf).gen ⟨conn, seq, 1, read⟩ va bytes counter) s =
      execEstuaryPacketRx vf (s.vf vf).gen ⟨conn, seq, 1, read⟩ va bytes counter s := rfl
    rw [hx, execEstuaryPacketRx]
    dsimp only
    rw [if_neg (by rw [hpower, hassigned]; simp), if_neg (by decide), if_neg (fun h => by omega), if_pos ⟨rfl, hseq⟩, if_neg (by rw [hnew]; decide)]
  refine ⟨_, hx, State.modVf_ms .., ?_⟩
  rw [State.vf_modVf]
  exact Vf.rodState_holdPacket (s.vf vf) conn ⟨seq, va, bytes, counter, read⟩

/-- A packet has its turn: any under RUD, the next one under ROD (R32, R35). -/
def Vf.HasTurn (v : Vf) (conn mode seq : Nat) : Prop := mode = 0 ∨ mode = 1 ∧ seq = (v.rodState conn).next

variable {mode : Nat} (hturn : (s.vf vf).HasTurn conn mode seq)
include hturn

omit hassigned hpower in
theorem not_late : ¬ 1 < mode ∧ ¬ (mode = 1 ∧ seq < ((s.vf vf).rodState conn).next) ∧ ¬ (mode = 1 ∧ ((s.vf vf).rodState conn).next < seq) := by
  obtain h | ⟨h, h'⟩ := hturn <;> omega

/-- A packet that has its turn is no repetition and is not held. -/
theorem estuaryPacket_runs (read : Option Nat) :
    (∀ n, read = some n → exec (.estuaryPacketRx vf (s.vf vf).gen ⟨conn, seq, mode, read⟩ va bytes counter) s =
      .next (s.estuaryRead vf conn seq va n (.estuaryPacketRx vf (s.vf vf).gen ⟨conn, seq, mode, read⟩ va bytes counter)
        fun s' => s'.rodNext vf (s.vf vf).gen conn mode seq)) ∧
    (read = none → meetsPool va bytes.length = true → exec (.estuaryPacketRx vf (s.vf vf).gen ⟨conn, seq, mode, read⟩ va bytes counter) s =
      .next ((s.send (.nack vf conn (s.peerGen vf conn) 2)).rodNext vf (s.vf vf).gen conn mode seq)) ∧
    (∀ s1 k, read = none → meetsPool va bytes.length = false → unitWriteRange (s.whoVf vf) va false bytes s = (.ok (), s1) → counter = some k →
      exec (.estuaryPacketRx vf (s.vf vf).gen ⟨conn, seq, mode, read⟩ va bytes counter) s = .next ((s1.countUp vf k 0).rodNext vf (s.vf vf).gen conn mode seq)) := by
  obtain ⟨hmode, hlate, hearly⟩ := not_late hturn
  have hx : exec (.estuaryPacketRx vf (s.vf vf).gen ⟨conn, seq, mode, read⟩ va bytes counter) s =
    execEstuaryPacketRx vf (s.vf vf).gen ⟨conn, seq, mode, read⟩ va bytes counter s := rfl
  rw [hx, execEstuaryPacketRx]
  dsimp only
  rw [if_neg (by rw [hpower, hassigned]; simp), if_neg hmode, if_neg hlate, if_neg hearly]
  refine ⟨?_, ?_, ?_⟩
  · rintro n rfl
    rfl
  · rintro rfl hpool
    exact if_pos hpool
  · rintro s1 k rfl hpool hwrite rfl
    dsimp only
    rw [if_neg (by rw [hpool]; decide), hwrite]
end

theorem estuaryRead_pool (s : State) (vf conn seq : Nat) {va n : Nat} (h : meetsPool va n = true) (again : Instr) (rest : State → State) :
    s.estuaryRead vf conn seq va n again rest = rest (s.send (.nack vf conn (s.peerGen vf conn) 2)) := if_pos h

theorem estuaryRead_read {s s1 : State} {vf va n : Nat} {b : List Byte} {bad : Bool} (conn seq : Nat) (h : meetsPool va n = false)
    (hread : unitReadRange (s.whoVf vf) va n s = (.ok (b, bad), s1)) (hvfs : s1.vfs = s.vfs) (again : Instr) (rest : State → State) :
    s.estuaryRead vf conn seq va n again rest =
      rest (s1.send (if bad then .nack vf conn (s.peerGen vf conn) 7 else .estuaryData vf conn (s.peerGen vf conn) seq b)) := by
  have hpeer : s1.peerGen vf conn = s.peerGen vf conn := by rw [State.peerGen, State.peerGen, State.vf_of_vfs hvfs]
  rw [State.estuaryRead]
  dsimp only
  rw [if_neg (by rw [h]; decide), hread]
  cases bad with
  | false => exact congrArg (fun g => rest (s1.send (.estuaryData vf conn g seq b))) hpeer
  | true => exact congrArg (fun g => rest (s1.send (.nack vf conn g 7))) hpeer

theorem estuaryRetx_stale {s : State} {conn vf port seq sent work first gen : Nat} (hgen : gen ≠ (s.vf vf).gen) :
    exec (.estuaryRetxTimeout conn vf port seq ⟨sent, work, first, gen⟩ true) s = .next s := by
  have hx : exec (.estuaryRetxTimeout conn vf port seq ⟨sent, work, first, gen⟩ true) s = execEstuaryRetxTimeout conn vf port seq ⟨sent, work, first, gen⟩ true s := rfl
  rw [hx, execEstuaryRetxTimeout]
  exact if_pos (.inr ⟨rfl, hgen⟩)

theorem estuaryRetx_resends {s : State} {conn vf port seq sent work first gen : Nat} {nak : Bool} (hpower : s.power = true)
    (hgen : nak = false ∨ gen = (s.vf vf).gen) (hposted : s.retxPosted (s.vf vf).part first = false) :
    exec (.estuaryRetxTimeout conn vf port seq ⟨sent, work, first, gen⟩ nak) s = .next (s.send (.resend vf conn (s.peerGen vf conn) port seq)) := by
  have hx : exec (.estuaryRetxTimeout conn vf port seq ⟨sent, work, first, gen⟩ nak) s = execEstuaryRetxTimeout conn vf port seq ⟨sent, work, first, gen⟩ nak s := rfl
  have hfresh : ¬ (nak = true ∧ gen ≠ (s.vf vf).gen) := by
    rintro ⟨rfl, hne⟩
    exact hgen.elim (by decide) hne
  rw [hx, execEstuaryRetxTimeout]
  dsimp only
  rw [if_neg (not_or.mpr ⟨by rw [hpower]; decide, hfresh⟩), if_neg (by rw [hposted]; decide)]

/-! The last answer of an instruction. -/

/-- An instruction none of whose threads fault or abort retires with its last answer (R381). -/
theorem endRemote_retires (s : State) (c0 c : Ctx) (word : Word) {bad : List (Nat × XFault)} {aborts : List LaneAbort} (hbad : bad = []) (haborts : aborts = []) :
    s.endRemote c0 c word bad aborts = (s.retire c0 c (c.split.pc + 4#64)).operationDone c.gid := by
  subst hbad haborts
  rfl

/-! Requests at a home slice. -/

/-- A read or write outside transactions, of bytes of one granule that lie in a tier of this package, where a first error is not posted. -/
structure HomeAsked (s : State) (pa : Nat) (bytes : List Byte) : Prop where
  power : s.power = true
  some_ : bytes ≠ []
  size : bytes.length ≤ 64
  granule : pa / 64 = (pa + bytes.length - 1) / 64
  mapped : pa < 2 ^ 51
  here : pkgOf pa = s.boot.pkg
  tier : offOf pa < tierEnd
  quiet : s.assistOn (s.stripe (offOf pa)) 3 = false

section
variable {s : State} {pa : Nat} {bytes : List Byte} (agent : Option Nat) (u : Bool) (h : HomeAsked s pa bytes)
include h

theorem homeRequest_arrives (hreg : offOf pa < regBase) {kind : Nat} (hkind : kind < 2) :
    exec (.homeRequest agent false kind pa bytes u) s =
      if closedStripe (s.stripe (offOf pa)) = true then .next (s.accessFault (hartOf agent) pa) else .next (s.homeOwn agent false kind pa bytes u) := by
  have hx : exec (.homeRequest agent false kind pa bytes u) s = execHomeRequest agent false kind pa bytes u s := rfl
  have hsize : homeSize kind bytes = bytes.length := if_pos hkind
  have hlen : bytes.length ≠ 0 := mt List.length_eq_zero_iff.mp h.some_
  have hmapped := h.mapped
  rw [hx, execHomeRequest]
  rw [if_neg (by rw [h.power]; decide), if_neg (by rw [poolErrorKind]; omega), if_neg (by rw [memoryErrorKind]; omega), hsize,
    if_neg (not_or.mpr ⟨hlen, not_or.mpr ⟨Nat.not_lt.mpr h.size, Classical.not_not.mpr h.granule⟩⟩), if_neg (by rw [bootWindow]; omega),
    if_neg (by rw [apertureBase]; omega), if_neg (Nat.not_le.mpr hmapped), if_neg (fun hr => absurd hr.1 (Nat.not_le.mpr hreg)),
    if_neg (Classical.not_not.mpr h.here)]
  by_cases hclosed : closedStripe (s.stripe (offOf pa)) = true
  · rw [if_pos (.inr hclosed), if_pos hclosed]
  · rw [if_neg (not_or.mpr ⟨Nat.not_le.mpr h.tier, hclosed⟩), if_neg hclosed]

/-- An error that is not posted only marks sectors (R213). -/
theorem homeOwn_accesses (kind : Nat) : ∃ l, s.homeOwn agent false kind pa bytes u =
    (if u then s.markPoison l else s).homeAccess agent kind pa (offOf pa) bytes := by
  unfold State.homeOwn
  dsimp only
  refine ⟨if kind = 1 then (partSectors (offOf pa) (homeSize kind bytes)).filter (fun k => !s.l2Valid k) else spanUnits 32 (offOf pa) (homeSize kind bytes), ?_⟩
  have hquiet : ∀ l : List Nat, (if u then s.markPoison l else s).assistOn (s.stripe (offOf pa)) 3 = false := by
    intro l
    split
    · rw [assistOn_markPoison]
      exact h.quiet
    · exact h.quiet
  rw [List.findSome?_eq_none_iff.mpr fun _ _ => State.toPost_of_off (hquiet _) _ _]
  cases hartOf agent <;> rfl

theorem homeAsked_writes :
    ∃ l, (s.homeOwn agent false 1 pa bytes u).ms.mem = putBytes (if u then s.markPoison l else s).ms.mem (offOf pa) bytes := by
  obtain ⟨l, hl⟩ := homeOwn_accesses agent u h 1
  refine ⟨l, ?_⟩
  rw [hl, State.homeAccess]
  rw [if_pos rfl, mem_trackHost, State.clearPoison_mem, State.writeHome_mem]

theorem homeAsked_reads (hpoison : s.poisoned (offOf pa) bytes.length = false) :
    ∃ t, s.homeOwn agent false 0 pa bytes false = t.giveHost agent (s.bytesAt (offOf pa) bytes.length) ∧ OnlyReads s t := by
  obtain ⟨l, hl⟩ := homeOwn_accesses agent false h 0
  have hsize : homeSize 0 bytes = bytes.length := rfl
  rw [if_neg (by decide)] at hl
  rw [hl, State.homeAccess]
  rw [if_neg (by decide), hsize, if_neg (by rw [hpoison]; decide), if_pos rfl]
  exact ⟨_, rfl, onlyReads_trackHost ..⟩
end

/-! Ends of host transactions. -/

/-- An event that ends a hart's transaction, with the code and the detail it gives (R231, R236). -/
def EndsTransaction (s : State) (h : Nat) (i : Instr) (code detail : Nat) : Prop :=
  i = .hostTxInterrupt h false ∧ code = 10 ∧ detail = 0 ∨ i = .hostTxInterrupt h true ∧ code = 10 ∧ detail = 1 ∨ i = .hostTxIllegal h ∧ code = 4 ∧ detail = 0 ∨
    (∃ k, i = .privateCacheEviction h k ∧ k ∈ (s.hart h).wsig ∧ 256 < (s.hart h).wsig.length) ∧ code = 2 ∧ detail = 0

theorem exec_endsTransaction {s : State} {h : Nat} {i : Instr} {code detail : Nat} (hi : EndsTransaction s h i code detail) :
    exec i s = .next (s.abortHart h code detail) := by
  obtain ⟨rfl, rfl, rfl⟩ | ⟨rfl, rfl, rfl⟩ | ⟨rfl, rfl, rfl⟩ | ⟨⟨k, rfl, hk, hlen⟩, rfl, rfl⟩ := hi
  · rfl
  · rfl
  · rfl
  · have hx : exec (.privateCacheEviction h k) s = execPrivateCacheEviction h k s := rfl
    rw [hx, execPrivateCacheEviction]
    exact if_pos ⟨List.contains_iff_mem.mpr hk, hlen⟩

theorem Hart.abort_depth (x : Hart) (code detail : Nat) : (x.abort code detail).depth = 0 ∧ (x.abort code detail).pc = x.resume := by
  unfold Hart.abort Hart.setX
  split <;> exact ⟨rfl, rfl⟩

theorem State.tickets_abortHart {s : State} {h : Nat} (hdepth : (s.hart h).depth ≠ 0) (code detail : Nat) :
    (s.abortHart h code detail).tickets = s.tickets.filter (fun x => decide (x ≠ .hart h)) := by
  rw [State.abortHart, if_neg hdepth]
  rfl

end Sys2Proof.Machine

namespace Sys2Proof.Proofs

open Sys2Proof.Machine Sys2Proof.Claims

/-- Settles O52: a clause for each kind of event, in the order of the statement. -/
theorem linkAndResponseEvents : Obligations.LinkAndResponseEvents := by
  unfold Obligations.LinkAndResponseEvents
  refine ⟨fun s k hpower hk hup => millracePortFailure_spec hpower hk hup, fun s pkg gid g hg hun hwait hops => millracePathTimeout_flushes hg hun hwait hops,
    ?_, ?_, fun s m hpower => ?_, ?_, ?_, ?_, ?_, ?_, ?_, ?_⟩
  · intro s pkg gid g op c hlost hg hrun hopen hflush hremote hpkg hkind hbad haborts hw hs m hm
    exact millracePathTimeout_traps hlost hg hrun hopen hflush hremote hpkg hkind hbad haborts hw hs hm
  · intro s src vf rvf rgen ppid pa bytes hpower hsome hhere hmapped hpage gen req quiet
    have h : AtHome s pa bytes := ⟨hpower, hsome, hhere, hmapped, hpage⟩
    exact ⟨fun bad hadmit hquiet => millracePacket_writes src rvf rgen bad h hadmit hquiet,
      fun bad hadmit hquiet => millracePacket_reads src rvf rgen bad h hadmit hquiet,
      fun bad kind hkind hadmit => millracePacket_refused src rvf rgen bad h hadmit hkind, fun g' kind bad hgen => millracePacket_stale src rvf rgen bad hgen⟩
  · have hx : exec (.flushMarker m) s = .next (if s.power then s.send (.flushAnswer m) else s) := rfl
    rw [hx, if_pos hpower]
  · intro s gid pkg id vf gen g hgid hg rest
    have hlinks : g.links.without (fun q => decide (q = (pkg, id))) = { g.links with flush := rest, stores := g.links.stores.filter (fun q => decide (q.2 ≠ (pkg, id))) } :=
      g.links.without_marker (pkg, id)
    refine ⟨fun hgen => flushAnswer_stale hgid hgen, fun hgen hrest => ?_, fun hgen hrest e sp he hsp hw => ?_⟩
    · rw [flushAnswer_taken hgid hgen, State.endMarkers_of_find hg, hlinks, flushOver_of_open (State.find_setGroup ..) hrest]
    · have hfind := State.find_setGroup s gid { g with links := g.links.without fun q => decide (q = (pkg, id)) }
      obtain ⟨g', hg', hl', -, htab⟩ := rewaits_flushOver hfind (by rw [hlinks]; exact hrest) gid _ hfind
      refine ⟨_, flushAnswer_taken hgid hgen, g', by rw [State.endMarkers_of_find hg]; exact hg', by rw [hl', hlinks]; exact hrest, ?_⟩
      rw [htab e he, if_pos ⟨rfl, mem_flushWaiters hfind hsp hw⟩]
      exact congrArg (Option.map _) hsp
  · intro s vf conn seq va bytes counter hpower hassigned gen peer rod head rx
    refine ⟨fun mode read hmode => estuaryPacket_badMode hpower hassigned hmode, fun mode hturn => ?_, fun read hseq => estuaryPacket_again hpower hassigned hseq,
      fun read hseq hnew => estuaryPacket_held hpower hassigned hseq hnew, fun g' mode read hgen => estuaryPacket_stale hgen _⟩
    have hruns := estuaryPacket_runs (va := va) (bytes := bytes) (counter := counter) hpower hassigned hturn
    refine ⟨(hruns none).2.1 rfl, fun s1 k => (hruns none).2.2 s1 k rfl, fun n hpool => ?_, fun n s1 b bad hpool hread hvfs => ?_⟩
    · exact ((hruns (some n)).1 n rfl).trans (congrArg Host.Outcome.next (estuaryRead_pool s vf conn seq hpool _ _))
    · exact ((hruns (some n)).1 n rfl).trans (congrArg Host.Outcome.next (estuaryRead_read conn seq hpool hread hvfs _ _))
  · rintro s conn vf port seq sent work first gen nak hpower
    refine ⟨?_, fun hgen hposted => estuaryRetx_resends hpower hgen hposted⟩
    rintro rfl hgen
    exact estuaryRetx_stale hgen
  · intro s gid id op dst sg c data poison refused hop hlen hkind hw marks m hbad haborts
    have hx : exec (.loadResponse gid id data ⟨poison, refused⟩) s = execLoadResponse gid id data ⟨poison, refused⟩ s := rfl
    rw [hx, execLoadResponse, hop]
    dsimp only
    rw [if_neg (Classical.not_not.mpr hlen), hkind, hw]
    exact congrArg Host.Outcome.next (endRemote_retires _ _ _ _ hbad haborts)
  · intro s gid id op dst code et draws c data poison refused hop hlen hkind hw e marks m hbad haborts
    have hx : exec (.atomicResponse gid id data ⟨poison, refused⟩) s = execAtomicResponse gid id data ⟨poison, refused⟩ s := rfl
    rw [hx, execAtomicResponse, hop]
    dsimp only
    rw [if_neg (Classical.not_not.mpr hlen), hkind, hw]
    exact congrArg Host.Outcome.next (endRemote_retires _ _ _ _ hbad haborts)
  · intro s agent pa bytes hpower hsome hsize hgranule hmapped hhere hreg htier hquiet
    have h : HomeAsked s pa bytes := ⟨hpower, hsome, hsize, hgranule, hmapped, hhere, htier, hquiet⟩
    refine ⟨fun hclosed kind u hkind => ?_, fun hclosed u => ?_, fun hclosed hpoison => ?_⟩
    · rw [homeRequest_arrives agent u h hreg hkind, if_pos hclosed]
    · rw [homeRequest_arrives agent u h hreg (by decide), if_neg (by rw [hclosed]; decide)]
      obtain ⟨l, hl⟩ := homeAsked_writes agent u h
      refine ⟨_, rfl, ?_⟩
      rw [hl]
      split
      · rw [mem_markPoison]
      · rfl
    · rw [homeRequest_arrives agent false h hreg (by decide), if_neg (by rw [hclosed]; decide)]
      obtain ⟨t, ht, hreads⟩ := homeAsked_reads agent h hpoison
      rw [ht]
      exact ⟨_, rfl, hreads.mem, hreads.groups, hreads.harts, lastSent ..⟩
  · intro s h hdepth i code detail hi
    have hhart := (State.hart_abortHart hdepth code detail).1
    obtain ⟨hd, hpc⟩ := (s.hart h).abort_depth code detail
    exact ⟨_, exec_endsTransaction hi, hhart, by rw [hhart]; exact hd, by rw [hhart]; exact hpc, State.tickets_abortHart hdepth .., State.abortHart_ms ..⟩

end Sys2Proof.Proofs
end

