-- ==== Sys2Proof/Proofs/EngineEvents.lean ====
section
/-! SUPPORT. The events of engine commands, chains, collectives, Estuary work and tier moves (R180, R199, R246, R410, R416 to R421,
R424, R425). -/

namespace Sys2Proof.Machine

open Sys2Proof.Claims

/-! The start of a command. -/

/-- The next command that an engine starts, in its round-robin (R180). -/
def State.nextCommand (s : State) (core : Nat) (gather : Bool) : Option EngCmd :=
  (List.range 64).findSome? (fun i =>
    let gid := core * 64 + (FMap.getD (s.core core).served 63 (if gather then 1 else 0) + 1 + i) % 64
    if s.streamsStop gid then none else startable (s.core core).queue gid (if gather then 1 else 0))

theorem engineCommandStart_starts {s : State} {core : Nat} {gather : Bool} {q : EngCmd} (h : s.nextCommand core gather = some q) :
    ∃ t, exec (.engineCommandStart core gather) s = .next t ∧ t.ms = s.ms ∧ t.groups = s.groups ∧
      (∀ x, x ∈ (t.core core).queue ↔ ∃ y, y ∈ (s.core core).queue ∧ x = if y.id = q.id then { y with started := true } else y) ∧
      t.turn.agenda = s.turn.agenda ++ [if q.sub = 5 then .chainEntryStart core q.id else .engineCommandComplete core q.id] := by
  have hx : exec (.engineCommandStart core gather) s = execEngineCommandStart core gather s := rfl
  unfold State.nextCommand at h
  rw [execEngineCommandStart] at hx
  dsimp only at hx
  rw [h] at hx
  refine ⟨_, hx, rfl, rfl, fun x => ?_, rfl⟩
  rw [State.core_schedule, State.modCommand, core_mapQueue, List.mem_map]
  have hqueue := queue_modCore s core core (f := fun k => { k with served := FMap.setD k.served 63 (if gather then 1 else 0) (slotOf q.gid) }) (fun _ => rfl)
  rw [hqueue]
  exact exists_congr fun y => and_congr_right fun _ => eq_comm

/-! The end of a command. -/

/-- A command after a run from its committed position (R424). -/
def EngCmd.ran (q : EngCmd) (r : RunEnd) : EngCmd :=
  { q with cpos := r.c, spos := r.c, oor := q.oor + r.oor, wrote := r.wrote, far := r.far, wroteTo := (q.wroteTo ++ r.wroteTo).eraseDups,
           ended := if r.stop.isNone then some 0 else none }

/-- A run of a command that is no chain. -/
def EngCmd.run (q : EngCmd) (s : State) : RunEnd :=
  runStream ⟨q.gid, q.id, q.sub, q.words, ⟨q.cvmode, q.mode⟩, q.base, q.ent1, q.ent2, q.wrote, q.far, q.taint⟩ q.cpos s

theorem id_of_command {s : State} {core id : Nat} {q : EngCmd} (h : s.command core id = some q) : q.id = id := by
  have hid := List.find?_some h
  exact of_decide_eq_true hid

/-- A completion object whose command is over is signalled no more. -/
def EngCmd.signalled (q : EngCmd) : EngCmd := { q with words := (q.words.set 4 0#32).set 5 0#32, posted := false }

section
variable {s : State} {core id : Nat} {q : EngCmd} (hq : s.command core id = some q)
include hq

theorem engineCommand_standsStill (hstop : s.streamsStop q.gid = true) :
    exec (.engineCommandComplete core id) s = .next s ∧ exec (.chainEntryStart core id) s = .next s := by
  have hx : exec (.engineCommandComplete core id) s = execEngineCommandComplete core id s := rfl
  have hy : exec (.chainEntryStart core id) s = execChainEntryStart core id s := rfl
  rw [hx, hy, execEngineCommandComplete, execChainEntryStart, hq]
  exact ⟨if_pos (by rw [hstop]; simp), if_pos (by rw [hstop]; simp)⟩

variable (hstarted : q.started = true) (hrunning : q.stopped = false) (hgoes : s.streamsStop q.gid = false)
include hstarted hrunning hgoes

/-- A command that is no chain, started and not stopped: at its end, or run on from its committed position. -/
theorem engineCommand_runs (hsub : q.sub ≠ 5) :
    (∀ code, q.ended = some code → exec (.engineCommandComplete core id) s = .next (s.finishCommand q code)) ∧
    (q.ended = none → (q.run s).stop = none →
      exec (.engineCommandComplete core id) s = .next (((q.run s).s.modCommand core id (fun _ => q.ran (q.run s))).finishCommand (q.ran (q.run s)) 0)) ∧
    (∀ f, q.ended = none → (q.run s).stop = some (.fault f) → exec (.engineCommandComplete core id) s =
      .next (((q.run s).s.modCommand core id (fun _ => q.ran (q.run s))).stopCommand (q.ran (q.run s)) (q.run s).c (q.run s).total f)) := by
  have hid := id_of_command hq
  have hx : exec (.engineCommandComplete core id) s = execEngineCommandComplete core id s := rfl
  have hstream : q.stream = q.words := if_neg hsub
  have hkind : (if q.sub = 5 then q.entrySub else q.sub) = q.sub := if_neg hsub
  rw [hx, execEngineCommandComplete, hq]
  dsimp only
  rw [if_neg (by rw [hstarted, hrunning, hgoes, decide_eq_false hsub]; simp), hstream, hkind]
  have hrun : runStream ⟨q.gid, id, q.sub, q.words, ⟨q.cvmode, q.mode⟩, q.base, q.ent1, q.ent2, q.wrote, q.far, q.taint⟩ q.cpos s = q.run s := by
    rw [EngCmd.run, hid]
  rw [hrun]
  refine ⟨fun code hended => by rw [hended], fun hended hstop => ?_, fun f hended hstop => ?_⟩
  · rw [hended]
    dsimp only
    simp only [EngCmd.ran, hstop]
  · rw [hended]
    simp only [EngCmd.ran, hstop]
    rfl
end

theorem completion_of_stream {q : EngCmd} (hsub : q.sub ≠ 5) : q.completion = pairAt q.words 4 := by
  rw [EngCmd.completion, if_neg fun h => hsub h.1, EngCmd.stream, if_neg hsub]

theorem endCommand_of_stream (s : State) {q : EngCmd} (hsub : q.sub ≠ 5) : s.endCommand q = (s.removeCommand (coreOf q.gid) q.id).afterCommand q.gid :=
  if_neg fun h => hsub h.1

section
variable (s s1 : State) {q : EngCmd} (code : Nat)

theorem finishCommand_flushes (hwrote : q.wroteTo ≠ []) : s.finishCommand q code = s.flushCommand (s.vfOf q.gid) q :=
  if_pos (by rw [Bool.not_eq_true', List.isEmpty_eq_false_iff]; exact hwrote)

variable (hwrote : q.wroteTo = [])
include hwrote

theorem finishCommand_waits (hmarks : q.marks ≠ []) : s.finishCommand q code = s :=
  (if_neg (by rw [hwrote]; decide)).trans (if_pos (by rw [Bool.not_eq_true', List.isEmpty_eq_false_iff]; exact hmarks))

variable (hmarks : q.marks = []) (hsub : q.sub ≠ 5)
include hmarks hsub

theorem finishCommand_ends (hb : pairAt q.words 4 = 0) : s.finishCommand q code = (s.removeCommand (coreOf q.gid) q.id).afterCommand q.gid := by
  rw [State.finishCommand, if_neg (by rw [hwrote]; decide), if_neg (by rw [hmarks]; decide), completion_of_stream hsub, if_pos hb, endCommand_of_stream s hsub]

variable {s1}

theorem finishCommand_posts {l : List Nat} (hb : pairAt q.words 4 ≠ 0) (hposted : q.posted = false)
    (hstore : engStore q (pairAt q.words 4 + 8) (statusWord q.version q.oor code) s = (.ok l, s1)) :
    s.finishCommand q code =
      (s1.modCommand (coreOf q.gid) q.id (fun x => { x with posted := true, wroteTo := l })).schedule (.engineCommandComplete (coreOf q.gid) q.id) := by
  rw [State.finishCommand, if_neg (by rw [hwrote]; decide), if_neg (by rw [hmarks]; decide), completion_of_stream hsub, if_neg hb, if_pos (by rw [hposted]; rfl), hstore]

theorem finishCommand_signals (hb : pairAt q.words 4 ≠ 0) (hposted : q.posted = true) (hcount : engCount q (pairAt q.words 4) s = (.ok (), s1)) :
    s.finishCommand q code = ((s1.modCommand (coreOf q.gid) q.id EngCmd.signalled).removeCommand (coreOf q.gid) q.id).afterCommand q.gid := by
  rw [State.finishCommand, if_neg (by rw [hwrote]; decide), if_neg (by rw [hmarks]; decide), completion_of_stream hsub, if_neg hb, if_neg (by rw [hposted]; decide), hcount]
  dsimp only
  simp only [if_neg hsub]
  exact endCommand_of_stream (q := q.signalled) _ hsub
end

/-! Faults and chains. -/

theorem engineFault_traps {s : State} {core id : Nat} {q : EngCmd} {g : Group} {f : FaultInfo} {e : Nat} {sp : Split} {r : List FaultInfo}
    (hq : s.command core id = some q) (hg : FMap.find s.groups q.gid = some g) (hrun : g.status = .running) (hfaults : g.engFaults = f :: r)
    (hnext : g.nextEntry = some (e, sp)) :
    exec (.engineFault core id) s =
      .next ((s.setGroup q.gid { g with engFaults := r }).trapGroup q.gid { f with pc := sp.pc, pfx := sp.pfx, entry := e }) := by
  have hx : exec (.engineFault core id) s = execEngineFault core id s := rfl
  rw [hx, execEngineFault, hq]
  dsimp only
  rw [hg]
  dsimp only
  rw [if_neg (by rw [hrun]; decide), State.takeEngFault, hg]
  dsimp only
  rw [hfaults]
  dsimp only
  rw [if_neg (Classical.not_not.mpr hrun), hnext]
  dsimp only
  rw [State.modGroup_of_find hg]

/-- The words of a chain's entry. -/
def entryWordsOf (b : List Byte) : List Word := (List.range 8).map (fun k => BitVec.ofNat 32 (leField b (4 * k) 4))

/-- A chain that has taken an entry. -/
def EngCmd.tookEntry (b : List Byte) (i : EnqInfo) (p : Bool) (x : EngCmd) : EngCmd :=
  { x with
    entrySub := leField b 0x20 1, entryWords := entryWordsOf b, nextAddr := leField b 0x28 8, runningEntry := true, version := i.version, base := i.base
    ent1 := i.ent1, ent2 := i.ent2, cpos := 0, spos := 0, oor := 0, ended := none, posted := false, wrote := [], far := [], taint := p || i.taint }

theorem chainEntryStart_takes {s s0 s1 s2 : State} {core id : Nat} {q : EngCmd} {b : List Byte} {p : Bool} {i : EnqInfo} (hq : s.command core id = some q)
    (hsub : q.sub = 5) (hstarted : q.started = true) (hrunning : q.stopped = false) (hgoes : s.streamsStop q.gid = false) (hentry : q.runningEntry = false)
    (htail : q.k < q.tc) (hreq : engRequest q (chainSectors q s) s = (true, s0)) (hread : coreRead q.gid q.entryAddr 64 s0 = (.ok (b, p), s1))
    (hok : chainEntryOk (engineOf 5 q.words) b = none) (hcheck : enqCheck true q.gid (leField b 0x20 1) (entryWordsOf b) s1 = (.ok i, s2)) :
    exec (.chainEntryStart core id) s = .next ((s2.modCommand core id (EngCmd.tookEntry b i p)).schedule (.engineCommandComplete core id)) := by
  have hx : exec (.chainEntryStart core id) s = execChainEntryStart core id s := rfl
  unfold entryWordsOf at hcheck
  rw [hx, execChainEntryStart, hq]
  dsimp only
  rw [if_neg (by rw [hsub, hstarted, hrunning, hgoes, hentry]; simp; exact htail), hreq]
  dsimp only
  rw [if_neg (by decide), hread]
  dsimp only
  rw [hok]
  dsimp only
  rw [hcheck]
  rfl

/-! Collectives. -/

theorem meetsPool_prefix {a n m : Nat} (h : meetsPool a m = false) (hle : n ≤ m) : meetsPool a n = false := by
  unfold meetsPool at h ⊢
  rw [decide_eq_false_iff_not] at h ⊢
  omega

/-- A collective as its command and the first words of its descriptor give it (R416). -/
def State.collOf (s : State) (q : EngCmd) (h : List Byte) (ranks : List Nat) : Collective :=
  ⟨q.id, s.vfOf q.gid, field (wordOf q.words 0) 0 4, field (wordOf q.words 0) 4 4, field (wordOf q.words 0) 8 12, field (wordOf q.words 0) 24 8, wordOf q.words 1,
    pairAt q.words 2, pairAt q.words 4, ranks, leField h 4 4, leField h 8 4, none, none⟩

/-- A command leaves its queue, and the next one of its kind is served. -/
def State.passOn (s : State) (core id gid sub : Nat) : State := ((s.removeCommand core id).afterCommand gid).serveNext gid sub

section
variable {s s1 s2 : State} {core id : Nat} {q : EngCmd} (hq : s.command core id = some q) (hsub : q.sub = 4) (hheld : q.held = false)
  (hfirst : firstOfKind (s.core core).queue q = true)
include hq hsub hheld hfirst

theorem collAccept_faults {f : XFault} (hread : unitReadWords (s.whoVf (s.vfOf q.gid)) (pairAt q.words 6) 2 s = (.error (.fault f), s1)) :
    exec (.collAccept core id) s = .next ((s1.passOn core id q.gid 4).countUp (s.vfOf q.gid) (field (wordOf q.words 0) 24 8) 5) := by
  have hx : exec (.collAccept core id) s = execCollAccept core id s := rfl
  rw [hx, execCollAccept, hq]
  dsimp only
  rw [if_neg (by rw [hsub, hheld, hfirst]; decide), hread]
  rfl

theorem collAccept_takes {h b : List Byte} (hread : unitReadWords (s.whoVf (s.vfOf q.gid)) (pairAt q.words 6) 2 s = (.ok (h, false), s1))
    (hdesc : meetsPool (pairAt q.words 6) (16 + 8 * min (leField h 0 4) 4096) = false)
    (hsrc : meetsPool (pairAt q.words 2) ((s.collOf q h []).sizes (leField h 0 4)).1 = false)
    (hdst : meetsPool (pairAt q.words 4) ((s.collOf q h []).sizes (leField h 0 4)).2 = false) (htwo : 2 ≤ leField h 0 4) (hmany : leField h 0 4 ≤ 4096)
    (hown : leField h 4 4 < leField h 0 4) (hzero : leField h 12 4 = 0)
    (hwords : unitReadWords (s1.whoVf (s.vfOf q.gid)) (pairAt q.words 6 + 16) (leField h 0 4) s1 = (.ok (b, false), s2))
    (hranks : ((List.range (leField h 0 4)).map (fun i => leField b (8 * i) 8)).all partWordOk = true) :
    exec (.collAccept core id) s =
      .next ((State.passOn { s2 with colls := s2.colls ++ [s.collOf q h ((List.range (leField h 0 4)).map (fun i => leField b (8 * i) 8))] } core id q.gid 4).schedule
        (.collComplete id 0 [])) := by
  have hx : exec (.collAccept core id) s = execCollAccept core id s := rfl
  rw [hx, execCollAccept, hq]
  dsimp only
  rw [if_neg (by rw [hsub, hheld, hfirst]; decide), hread]
  dsimp only
  rw [if_neg (by rw [meetsPool_prefix hdesc (by omega)]; decide)]
  have hclear : (meetsPool (pairAt q.words 6) (16 + 8 * min (leField h 0 4) 4096) || meetsPool (pairAt q.words 2) ((s.collOf q h []).sizes (leField h 0 4)).1 ||
      meetsPool (pairAt q.words 4) ((s.collOf q h []).sizes (leField h 0 4)).2) = false := by rw [hdesc, hsrc, hdst]; rfl
  refine (if_neg (by rw [Bool.not_eq_true]; exact hclear)).trans ?_
  rw [if_neg (by omega), hwords]
  dsimp only
  rw [if_neg (by decide), if_neg (by rw [hranks]; decide)]
  rfl
end

section
variable {s s1 : State} {id : Nat} {c : Collective} (st : Nat) (bytes : List Byte) (hc : s.colls.find? (fun c => decide (c.id = id)) = some c) (hended : c.ended = none)
include hc hended

theorem collComplete_stale (hstale : s.stalePart c = true) : exec (.collComplete id st bytes) s = .next (s.endColl c 1) := by
  have hx : exec (.collComplete id st bytes) s = execCollComplete id st bytes s := rfl
  rw [hx, execCollComplete, hc]
  dsimp only
  rw [if_neg (by rw [hended]; decide), if_pos hstale]

variable (hfresh : s.stalePart c = false)
include hfresh

/-- The participants of a collective whose packages are this one, by rank. -/
def State.partners (s : State) (c : Collective) : List (Option Collective) := (List.range c.ranks.length).map (fun i => s.partner c i)

theorem collComplete_performs (hlocal : s.allLocal c = true) (hall : (s.partners c).all Option.isSome = true)
    (hagree : ((s.partners c).filterMap (fun x => x)).all (collsAgree c) = true) (hprobe : probeColls true ((s.partners c).filterMap (fun x => x)) s = (none, s1)) :
    exec (.collComplete id st bytes) s = .next (s1.performColl ((s.partners c).filterMap (fun x => x))) := by
  have hx : exec (.collComplete id st bytes) s = execCollComplete id st bytes s := rfl
  unfold State.partners at *
  have hnone : ((List.range c.ranks.length).map (fun i => s.partner c i)).any Option.isNone = false := by
    rw [List.any_eq_false]
    intro x hmem
    have := List.all_eq_true.mp hall x hmem
    rw [Option.isSome_iff_exists] at this
    obtain ⟨y, rfl⟩ := this
    exact Bool.false_ne_true
  rw [hx, execCollComplete, hc]
  dsimp only
  rw [if_neg (by rw [hended]; decide), if_neg (by rw [hfresh]; decide), if_pos hlocal, if_neg (by rw [hnone]; decide), hagree]
  have hfilter : ∀ l : List Collective, l.filter (fun x => true || x.ended.isNone) = l := fun l => List.filter_eq_self.mpr fun _ _ => rfl
  rw [if_neg (by simp), hfilter, hprobe]
  rfl

theorem collComplete_ends (hfar : s.allLocal c = false) (h0 : st ≠ 0) (h7 : st ≠ 7) : exec (.collComplete id st bytes) s = .next (s.endColl c st) := by
  have hx : exec (.collComplete id st bytes) s = execCollComplete id st bytes s := rfl
  rw [hx, execCollComplete, hc]
  dsimp only
  rw [if_neg (by rw [hended]; decide), if_neg (by rw [hfresh]; decide), if_neg (by rw [hfar]; decide), if_pos ⟨h0, h7⟩]

/-- Bytes of the source that a participant reads itself. -/
def Collective.ownSize (c : Collective) : Nat := if c.readsSource then (c.sizes c.ranks.length).1 else 0

theorem collComplete_sends {b : List (Byte × Bool)} (hfar : s.allLocal c = false) (hst : st = 0 ∨ st = 7) (hpart : c.part = none)
    (hprobe : unitProbe (s.whoVf c.vf) 1 c.src c.ownSize s = (none, s1))
    (hread : (readFlagged (s.whoVf c.vf) (sectorPieces (c.ownSize / 32 + 2) c.src c.ownSize) s1).1 = .ok b) :
    ∃ t, exec (.collComplete id st bytes) s = .next t ∧ t.turn.outbox.getLast? = some (.collPart c.vf c.tag c.own (some b)) := by
  have hx : exec (.collComplete id st bytes) s = execCollComplete id st bytes s := rfl
  rw [execCollComplete, hc] at hx
  dsimp only at hx
  rw [if_neg (by rw [hended]; decide), if_neg (by rw [hfresh]; decide), if_neg (by rw [hfar]; decide), if_neg (by omega), if_pos (by rw [hpart]; rfl)] at hx
  refine ⟨_, hx, ?_⟩
  unfold Collective.ownSize at hprobe hread
  unfold sendSource
  dsimp only
  rw [hprobe]
  dsimp only
  generalize readFlagged _ _ s1 = r at hread ⊢
  obtain ⟨x, s2⟩ := r
  obtain rfl : x = .ok b := hread
  exact lastSent ..
end

/-! Estuary work. -/

/-- The work request of an NPOST (R417). -/
def State.workOf (s : State) (q : EngCmd) : NetWork :=
  ⟨q.id, s.vfOf q.gid, field (wordOf q.words 0) 0 4, field (wordOf q.words 0) 24 8, wordOf q.words 1, pairAt q.words 2, pairAt q.words 4, field (wordOf q.words 6) 0 16,
    if bitAt (wordOf q.words 0) 16 then some (field (wordOf q.words 0) 8 8) else none, field (wordOf q.words 0) 4 4⟩

/-- A work request goes out under the generation of its connection. -/
def State.postWork (s : State) (core id gid gen : Nat) (w : NetWork) (b : List Byte) : State :=
  State.send { s.passOn core id gid 6 with works := s.works ++ [w] } (.estuary gen w b)

section
variable {s s1 : State} {core id : Nat} {q : EngCmd} (hq : s.command core id = some q) (hsub : q.sub = 6) (hheld : q.held = false)
  (hfirst : firstOfKind (s.core core).queue q = true)
include hq hsub hheld hfirst

theorem npostAccept_refuses {st : Nat} (href : s.npostRefusal (s.vfOf q.gid) q.words = some st) :
    exec (.npostAccept core id) s = .next ((s.passOn core id q.gid 6).countUp (s.vfOf q.gid) (field (wordOf q.words 0) 24 8) st) := by
  have hx : exec (.npostAccept core id) s = execNpostAccept core id s := rfl
  rw [hx, execNpostAccept, hq]
  dsimp only
  rw [if_neg (by rw [hsub, hheld, hfirst]; decide), href]
  rfl

theorem npostAccept_reads (href : s.npostRefusal (s.vfOf q.gid) q.words = none) (hop : field (wordOf q.words 0) 0 4 = 1) :
    exec (.npostAccept core id) s = .next (s.postWork core id q.gid (FMap.getD (s.vf (s.vfOf q.gid)).conns (0, 0) (s.workOf q).conn).2 (s.workOf q) []) := by
  have hx : exec (.npostAccept core id) s = execNpostAccept core id s := rfl
  rw [hx, execNpostAccept, hq]
  dsimp only
  rw [if_neg (by rw [hsub, hheld, hfirst]; decide), href]
  exact if_pos hop

theorem npostAccept_writes {b : List Byte} (href : s.npostRefusal (s.vfOf q.gid) q.words = none) (hop : field (wordOf q.words 0) 0 4 ≠ 1)
    (hread : unitReadRange (s.whoVf (s.workOf q).vf) (s.workOf q).laddr (s.workOf q).len s = (.ok (b, false), s1)) :
    exec (.npostAccept core id) s = .next (s1.postWork core id q.gid (FMap.getD (s.vf (s.vfOf q.gid)).conns (0, 0) (s.workOf q).conn).2 (s.workOf q) b) := by
  have hx : exec (.npostAccept core id) s = execNpostAccept core id s := rfl
  unfold State.workOf at hread
  rw [hx, execNpostAccept, hq]
  dsimp only at hread ⊢
  rw [if_neg (by rw [hsub, hheld, hfirst]; decide), href]
  dsimp only
  rw [if_neg hop, hread]
  rfl
end

/-- A work request is over. -/
def State.dropWork (s : State) (id : Nat) : State := { s with works := s.works.filter (fun x => decide (x.id ≠ id)) }

section
variable {s s1 : State} {id st : Nat} {w : NetWork} (bytes : List Byte) (hw : s.works.find? (fun w => decide (w.id = id)) = some w)
include hw

theorem estuaryWork_counts (h : st ≠ 0 ∨ w.op ≠ 1) :
    exec (.estuaryWorkComplete id st bytes) s = .next ((s.dropWork id).countUp w.vf w.counter (st % 256)) := by
  have hx : exec (.estuaryWorkComplete id st bytes) s = execEstuaryWorkComplete id st bytes s := rfl
  rw [hx, execEstuaryWorkComplete, hw]
  exact if_neg fun h' => h.elim (fun h0 => h0 h'.1) (fun h1 => h1 h'.2)

variable (hst : st = 0) (hop : w.op = 1)
include hst hop

theorem estuaryWork_stores (hwrite : unitWriteRange (s.whoVf w.vf) w.laddr false (bytes.take w.len) s = (.ok (), s1)) :
    exec (.estuaryWorkComplete id st bytes) s = .next ((s1.dropWork id).countUp w.vf w.counter 0) := by
  have hx : exec (.estuaryWorkComplete id st bytes) s = execEstuaryWorkComplete id st bytes s := rfl
  rw [hx, execEstuaryWorkComplete, hw]
  dsimp only
  rw [if_pos ⟨hst, hop⟩, hwrite]
  rfl

theorem estuaryWork_faults {f : XFault} (hwrite : unitWriteRange (s.whoVf w.vf) w.laddr false (bytes.take w.len) s = (.error (.fault f), s1)) :
    exec (.estuaryWorkComplete id st bytes) s = .next ((s1.dropWork id).countUp w.vf w.counter 5) := by
  have hx : exec (.estuaryWorkComplete id st bytes) s = execEstuaryWorkComplete id st bytes s := rfl
  rw [hx, execEstuaryWorkComplete, hw]
  dsimp only
  rw [if_pos ⟨hst, hop⟩, hwrite]
  rfl
end

/-! Tier moves. -/

theorem ms_sendMarkers (s : State) (vf gid : Nat) (l : List Nat) : (s.sendMarkers vf gid l).2.ms = s.ms := by
  have hfold : ∀ (l : List Nat) (r : List (Nat × Nat) × State), (l.foldl (fun (r : List (Nat × Nat) × State) pkg =>
      let q := r.2.fresh
      let s := q.2.send (.flushMarker pkg gid q.1 (q.2.sender vf))
      (r.1 ++ [(pkg, q.1)], if s.unreachable (s.vf vf).part pkg then s.schedule (.millracePathTimeout pkg) else s)) r).2.ms = r.2.ms := by
    intro l
    induction l with
    | nil => exact fun _ => rfl
    | cons x l ih =>
      intro r
      refine (ih _).trans ?_
      dsimp only
      split <;> rfl
  exact hfold l ([], s)

section
variable {s s0 s1 : State} {m : TierMove} {rest : List TierMove} (hmoves : s.moves = m :: rest)
include hmoves

theorem tierMove_signals (hwritten : m.written.isSome = true) : exec .tierMoveComplete s = .next (s.moveSignal m rest) := by
  have hx : exec .tierMoveComplete s = execTierMoveComplete s := rfl
  rw [hx, execTierMoveComplete, hmoves]
  exact if_pos hwritten

theorem tierMove_writes {st : Nat} (hwritten : m.written = none) (hstatus : m.status = none) (hrange : s.moveRange m = (.ok st, s0))
    (hwrite : unitWrite (s.whoVf m.vf) (m.bobj + 8) (bytesLE 8 st) { s0 with moves := { m with status := some st } :: rest } = (.ok (), s1)) :
    exec .tierMoveComplete s = .next (State.moveSignal { s1 with moves := { m with status := some st, written := some (s1.moveWrote m) } :: rest }
      { m with status := some st, written := some (s1.moveWrote m) } rest) := by
  have hx : exec .tierMoveComplete s = execTierMoveComplete s := rfl
  rw [hx, execTierMoveComplete, hmoves]
  dsimp only
  rw [if_neg (by rw [hwritten]; decide), hstatus]
  dsimp only
  rw [hrange]
  dsimp only
  rw [hwrite]

theorem tierMove_flushes {p : Nat} {l : List Nat} (hwritten : m.written = some (p :: l)) : ∃ t, exec .tierMoveComplete s = .next t ∧ t.ms = s.ms ∧
    t.moves = { m with written := some [], flush := (s.sendMarkers m.vf (moveSender m.id) (p :: l)).1 } :: rest := by
  refine ⟨_, tierMove_signals hmoves (by rw [hwritten]; rfl), ?_⟩
  rw [State.moveSignal, hwritten]
  exact ⟨ms_sendMarkers .., rfl⟩

theorem tierMove_waits (hwritten : m.written = some []) (hflush : m.flush ≠ []) : exec .tierMoveComplete s = .next s := by
  rw [tierMove_signals hmoves (by rw [hwritten]; rfl), State.moveSignal, hwritten]
  exact congrArg Host.Outcome.next (if_pos (by rw [Bool.not_eq_true', List.isEmpty_eq_false_iff]; exact hflush))

theorem tierMove_ends (hwritten : m.written = some []) (hflush : m.flush = []) (hsignal : unitSignal (s.whoVf m.vf) m.bobj 1 s = (.ok (), s1)) :
    exec .tierMoveComplete s = .next (({ s1 with moves := rest }).schedule .tierMoveComplete) := by
  rw [tierMove_signals hmoves (by rw [hwritten]; rfl), State.moveSignal, hwritten]
  dsimp only
  rw [if_neg (by rw [hflush]; decide), hsignal]
end

/-- A move whose range has no tier entry ends with status 1 (log 46). -/
theorem moveRange_of_no_entry {s : State} {m : TierMove} (h : (s.moveEntry m).1 = .ok none) : (s.moveRange m).1 = .ok 1 := by
  unfold State.moveRange
  generalize s.moveEntry m = r at h ⊢
  obtain ⟨x, s1⟩ := r
  obtain rfl : x = .ok none := h
  rfl

theorem moveRange_of_done {s s1 : State} {m : TierMove} {x : MovePlan} (h : s.moveEntry m = (.ok (some x), s1)) (hcur : (if bitAt x.w0 5 then 1 else 0) = m.target) :
    s.moveRange m = (.ok 0, s1) := by
  unfold State.moveRange
  rw [h]
  exact if_pos hcur

end Sys2Proof.Machine

namespace Sys2Proof.Proofs

open Sys2Proof.Machine Sys2Proof.Claims

/-- Settles O53: a clause for each kind of event, in the order of the statement. -/
theorem engineAndUnitEvents : Obligations.EngineAndUnitEvents := by
  unfold Obligations.EngineAndUnitEvents
  refine ⟨fun s core gather q h => engineCommandStart_starts h, ?_, ?_, fun s core id q g f e sp r hq hg hrun hfaults hnext => engineFault_traps hq hg hrun hfaults hnext,
    ?_, fun s core id q hq hstop => engineCommand_standsStill hq hstop,
    fun s s1 core id q hq hsub hheld hfirst f hread => collAccept_faults hq hsub hheld hfirst hread, ?_,
    fun s id c st bytes hc hended hstale => collComplete_stale st bytes hc hended hstale, ?_, ?_,
    fun s core id q st hq hsub hheld hfirst href => npostAccept_refuses hq hsub hheld hfirst href, ?_, ?_, ?_,
    fun s m rest p l hmoves hwritten => tierMove_flushes hmoves hwritten,
    fun s s1 m rest hmoves hwritten => ⟨tierMove_waits hmoves hwritten, tierMove_ends hmoves hwritten⟩,
    fun s m h => moveRange_of_no_entry h, fun s s1 m x h hcur => moveRange_of_done h hcur⟩
  · intro s core id q hq hstarted hrunning hgoes hsub r q1
    obtain rfl := id_of_command hq
    exact engineCommand_runs hq hstarted hrunning hgoes hsub
  · intro s s1 q code hsub b done
    exact ⟨finishCommand_flushes s code, finishCommand_waits s code, fun hwrote hmarks hb => finishCommand_ends s code hwrote hmarks hsub hb,
      fun l hwrote hmarks hb hposted hstore => finishCommand_posts s code hwrote hmarks hsub hb hposted hstore,
      fun hwrote hmarks hb hposted hcount => finishCommand_signals s code hwrote hmarks hsub hb hposted hcount⟩
  · intro s s0 s1 s2 core id q b p i hq hsub hstarted hrunning hgoes hentry htail hreq hread hok w hcheck
    exact chainEntryStart_takes hq hsub hstarted hrunning hgoes hentry htail hreq hread hok hcheck
  · intro s s1 s2 core id q h b hq hsub hheld hfirst w0 n ranks c hread hdesc hsrc hdst htwo hmany hown hzero hwords hranks
    exact collAccept_takes hq hsub hheld hfirst hread hdesc hsrc hdst htwo hmany hown hzero hwords hranks
  · intro s id c st bytes hc hended hfresh hlocal ps hall hagree s1 hprobe
    exact collComplete_performs st bytes hc hended hfresh hlocal hall hagree hprobe
  · intro s id c st bytes hc hended hfresh hfar
    refine ⟨collComplete_ends st bytes hc hended hfresh hfar, ?_⟩
    rintro s1 b w n hst hpart rfl rfl hprobe hread
    exact collComplete_sends st bytes hc hended hfresh hfar hst hpart hprobe hread
  · intro s core id q hq hsub hheld hfirst href op work gen posts
    exact ⟨fun hop => npostAccept_reads hq hsub hheld hfirst href hop, fun s1 b hop hread => npostAccept_writes hq hsub hheld hfirst href hop hread⟩
  · intro s id st bytes w hw done
    exact ⟨estuaryWork_counts bytes hw, fun s1 hst hop hwrite => estuaryWork_stores bytes hw hst hop hwrite,
      fun s1 f hst hop hwrite => estuaryWork_faults bytes hw hst hop hwrite⟩
  · intro s s0 s1 m rest st hmoves hwritten hstatus hrange hwrite m1
    exact tierMove_writes hmoves hwritten hstatus hrange hwrite

end Sys2Proof.Proofs
end

