-- ==== Sys2Proof/Proofs/SchedulerEvents.lean ====
section
/-! SUPPORT. The re-read of a BOW's object is a request of its group, which pays a token (R106). -/

namespace Sys2Proof.Machine

/-- A group whose split waits at a BOW of address 0 for the value 0: every register reads 0. -/
def rereadGroup : Group :=
  { placeGroup with table := [(0, ⟨~~~0#64, BitVec.ofNat 64 placeAt, none, .clear, .bow 0 0 0x5C040204#32, none, false, 0, none⟩)] }

/-- Its VF is held to a bandwidth, and has one token left on the die of the group. -/
def rereadState : State :=
  let s := State.reset.placeDevice 0#32
  { s.modPart 0 (fun p => { p with bw := [(0, ⟨8, 1, true⟩)] }) with groups := [(0, rereadGroup)], buckets := [(bucketKey 0 0, 1)] }

/-- The tokens of VF 0 on die 0 in the state that an outcome answers. -/
def tokensAfter (o : Host.Outcome State Fault Refusal) : Option Nat :=
  match o with
  | .next t => some (t.tokens 0 0)
  | _ => none

theorem reread_pays : tokensAfter (exec (.bowReread 0 0) rereadState) = some 0 := by decide +kernel

/-- The context of the split that waits. -/
def rereadCtx : Ctx := groupCtx rereadGroup 0 0 ⟨~~~0#64, BitVec.ofNat 64 placeAt, none, .clear, .bow 0 0 0x5C040204#32, none, false, 0, none⟩

theorem rereadState_reaches : rereadState.reach rereadCtx rereadCtx.lane 0 8 .load = (.ok (.own 0 0), rereadState) := rfl

/-- The next state that the statement names: the object is read, and the BOW completes. -/
def rereadStated : State :=
  (((rereadState.noteRead 0 8).dropL1 (coreOf rereadCtx.gid)).dropDenials ((rereadState.noteRead 0 8).whoOf rereadCtx.gid)).retire rereadCtx
    (rereadCtx.put64 ((0x5C040204#32 : Word).extractLsb' 16 8) (BitVec.ofNat 64 (rereadState.wordAt 0 8))) (rereadCtx.split.pc + 4#64)

theorem tokens_rereadStated : rereadStated.tokens 0 0 = 1 := by decide +kernel

end Sys2Proof.Machine

namespace Sys2Proof.Proofs

open Sys2Proof.Machine Sys2Proof.Claims

/-- Refutes O54: BOW_REREAD of a group under a bandwidth takes a token for its request, while the statement keeps the bucket. -/
theorem not_schedulerAndHomeEvents : ¬ Obligations.SchedulerAndHomeEvents := by
  unfold Obligations.SchedulerAndHomeEvents
  rintro ⟨-, -, h, -⟩
  obtain ⟨-, hdone⟩ := h rereadState rereadState 0 0 rereadGroup rereadCtx 0 0 0x5C040204#32 0 0 rfl rfl rfl rfl rfl rfl rfl rereadState_reaches
    (by decide +kernel) (by decide +kernel)
  have hx : exec (.bowReread 0 0) rereadState = .next rereadStated := hdone (by decide +kernel)
  have hpays := reread_pays
  rw [hx, tokensAfter, tokens_rereadStated] at hpays
  cases hpays

end Sys2Proof.Proofs
end

