-- ==== Sys2Proof/Proofs/MemoryResults.lean ====
section
/-! SUPPORT. Two lanes in transactions whose table is not in rising order (log 5): the lane that is written first is listed
once more, so that the second one finds no room, although `Placed` counts enough of it (R220). -/

namespace Sys2Proof.Machine

open Sys2Proof.Claims

/-- A lane in a transaction that has read 192 lines. -/
def crowdedLane : TxLane := { TxLane.empty with depth := 1, rlines := List.replicate 192 1 }

def crowdedSplit : Split := ⟨3#64, BitVec.ofNat 64 placeAt, none, .clear, .none, none, false, 0, none⟩

/-- Threads 0 and 1 stand in transactions; their table lists thread 1 first. Every register reads 0. -/
def crowdedGroup : Group := { placeGroup with table := [(0, crowdedSplit)], tx := [(1, crowdedLane), (0, crowdedLane)] }

def crowdedState : State :=
  let s := State.reset.placeDevice 0#32
  { s with groups := [(0, crowdedGroup)], turn := { s.turn with cur := some (.split 0 0) } }

def crowdedCtx : Ctx := groupCtx crowdedGroup 0 0 crowdedSplit

/-- The depth of thread 1 in the state that an outcome answers. -/
def laneDepthAfter (o : Host.Outcome State Fault Refusal) : Option Nat :=
  match o with
  | .next t => some (t.laneOf 0 1).depth
  | _ => none

theorem crowded_load_aborts : laneDepthAfter (exec (.ldb false 4#8 0#8 2#8) crowdedState) = some 0 := by decide +kernel

theorem crowded_store_aborts : laneDepthAfter (exec (.stb false 4#8 0#8 2#8) crowdedState) = some 0 := by decide +kernel

theorem crowded_atomic_aborts : laneDepthAfter (exec (.atAdd false 4#8 0#8 2#8) crowdedState) = some 0 := by decide +kernel

theorem crowded_calm : Calm crowdedState crowdedCtx := ⟨rfl, by decide +kernel, by decide +kernel⟩

theorem crowded_member {k : Nat} (h : crowdedCtx.exec.getLsbD k = true) : k = 0 ∨ k = 1 := by
  have hexec : crowdedCtx.exec = 3#64 := by decide +kernel
  have hbits : ∀ j : Fin 64, (3#64).getLsbD j.val = true → j.val = 0 ∨ j.val = 1 := by decide
  rw [hexec] at h
  exact hbits ⟨k, BitVec.lt_of_getLsbD h⟩ h

/-- What holds for threads 0 and 1 holds for every executing thread. -/
theorem crowded_all {P : Nat → Prop} (h0 : P 0) (h1 : P 1) : ∀ k, crowdedCtx.exec.getLsbD k = true → P k := fun _ h => by
  obtain rfl | rfl := crowded_member h
  · exact h0
  · exact h1

/-- Both threads reach offset 0. -/
def crowdedPlace : Nat → Reach := fun _ => .own 0 0

/-- The address of the statements on loads, stores and atomics, for the operands above. -/
def crowdedAddr (size : Nat) (disp : BitVec 64) (t : Nat) : Nat :=
  (crowdedCtx.regs.read64 crowdedCtx.xi crowdedCtx.lane 0#8 + zext64 (crowdedCtx.regs.read32 crowdedCtx.xi t 2#8) * BitVec.ofNat 64 size + disp).toNat

theorem crowded_reaches {size : Nat} {disp : BitVec 64} {k : AccKind}
    (h0 : crowdedState.reach crowdedCtx 0 (crowdedAddr size disp 0) size k = (.ok (.own 0 0), crowdedState))
    (h1 : crowdedState.reach crowdedCtx 1 (crowdedAddr size disp 1) size k = (.ok (.own 0 0), crowdedState)) :
    Reaches crowdedState crowdedCtx false size k (crowdedAddr size disp) crowdedPlace := crowded_all h0 h1

theorem crowded_placed {size lines : Nat} (hlines : lines ≤ 2) : Placed crowdedState crowdedCtx false size lines crowdedPlace := by
  have hroom : crowdedGroup.footprint = 384 ∧ crowdedState.coreFootprint (coreOf crowdedCtx.gid) = 384 := by decide +kernel
  refine ⟨crowded_all ⟨Nat.zero_mod _, fun _ => .inl rfl⟩ ⟨Nat.zero_mod _, fun _ => .inl rfl⟩, .inr fun g hg => ?_⟩
  obtain rfl : crowdedGroup = g := Option.some.inj hg
  omega

theorem crowded_performs (reads : Bool) (size addr : Nat) (k : Nat) : endOf crowdedState crowdedCtx reads size addr (crowdedPlace k) k = .done := by
  have hclean : ∀ n, crowdedState.poisoned 0 n = false := by
    intro n
    rw [State.poisoned, List.any_eq_false]
    intro i _
    have hnone : crowdedState.ms.poison = [] := rfl
    rw [hnone]
    exact Bool.false_ne_true
  rw [crowdedPlace, endOf]
  exact if_neg (by rw [hclean]; simp)

theorem crowded_in_transactions : (crowdedCtx.txLanes crowdedState).getLsbD 1 = true ∧ crowdedCtx.exec.getLsbD 1 = true ∧ (crowdedState.laneOf 0 1).depth = 1 := by decide +kernel

/-- Thread 1 has aborted, so that no state answered keeps its depth. -/
theorem crowded_absurd {i : Instr} {t : State} (haborts : laneDepthAfter (exec i crowdedState) = some 0) (ht : exec i crowdedState = .next t)
    (hdepth : (t.laneOf crowdedCtx.gid 1).depth = (crowdedState.laneOf crowdedCtx.gid 1).depth) : False := by
  have hone : (t.laneOf 0 1).depth = 1 := hdepth.trans crowded_in_transactions.2.2
  rw [ht, laneDepthAfter, hone] at haborts
  cases haborts

end Sys2Proof.Machine

namespace Sys2Proof.Proofs

open Sys2Proof.Machine Sys2Proof.Claims

/-- Refutes O17: with a lane table that is not in rising order, the second lane of a load aborts with CAPACITY, although the
statement's count leaves room for it. -/
theorem not_loadResults : ¬ Obligations.LoadResults := by
  unfold Obligations.LoadResults
  rintro ⟨-, h⟩
  obtain ⟨hbyte, -⟩ := h crowdedState crowdedCtx false 4#8 0#8 2#8 crowdedPlace crowded_calm (fun _ _ hd => by cases hd) (fun _ _ => rfl) (by decide +kernel)
  obtain ⟨htx, hexec, -⟩ := crowded_in_transactions
  obtain ⟨hdone, -⟩ := hbyte (by decide +kernel) (by decide +kernel) (crowded_reaches rfl rfl) (crowded_placed (by decide))
  obtain ⟨t, r, ht, -, -, -, -, hlanes⟩ := hdone fun k _ => crowded_performs ..
  exact crowded_absurd crowded_load_aborts ht (hlanes 1 0 0 hexec htx rfl).2.1

/-- Refutes O19: the second lane of a store aborts in the same state. -/
theorem not_storeResults : ¬ Obligations.StoreResults := by
  unfold Obligations.StoreResults
  intro h
  obtain ⟨hbyte, -⟩ := h crowdedState crowdedCtx false 4#8 0#8 2#8 crowdedPlace crowded_calm (by decide +kernel)
  obtain ⟨htx, hexec, -⟩ := crowded_in_transactions
  obtain ⟨hdone, -⟩ := hbyte (by decide +kernel) (by decide +kernel) (crowded_reaches rfl rfl) (crowded_placed (by decide))
  obtain ⟨t, ht, -, -, -, -, -, -, -, hlanes⟩ := hdone fun k _ => crowded_performs ..
  exact crowded_absurd crowded_store_aborts ht (hlanes 1 0 0 hexec htx rfl).2

/-- Refutes O20: the second lane of an atomic aborts in the same state. -/
theorem not_atomicResults : ¬ Obligations.AtomicResults := by
  unfold Obligations.AtomicResults
  intro h
  obtain ⟨hadd, -⟩ := h crowdedState crowdedCtx false 4#8 0#8 2#8 crowdedPlace .tiers crowded_calm (by decide +kernel) (by decide +kernel)
    (fun p hp => by cases hp) (fun g hg => by obtain rfl : crowdedGroup = g := Option.some.inj hg; exact ⟨rfl, rfl⟩)
    (crowded_reaches rfl rfl) (crowded_placed (by decide)) (fun k _ _ => rfl)
  obtain ⟨htx, hexec, -⟩ := crowded_in_transactions
  obtain ⟨hdone, -⟩ := hadd (by decide +kernel) (by decide +kernel) (by decide +kernel)
  obtain ⟨t, r, ht, -, -, -, -, -, -, -, hlanes⟩ := hdone fun k _ => crowded_performs ..
  exact crowded_absurd crowded_atomic_aborts ht (hlanes 1 0 0 hexec htx rfl).2.1

end Sys2Proof.Proofs
end

