-- ==== Sys2Proof/Proofs/MemoryAccess.lean ====
section
/-! SUPPORT. What the accesses of one memory instruction have in common (R376 to R381): the words that threads receive, the plan
of an instruction without lanes in transactions, and what its accesses leave of groups and handlers. -/

namespace Sys2Proof.Machine

open Sys2Proof.Claims

/-! Runs of words (R377). -/

/-- A register of a file from `b` on, after a run of words is written there. -/
theorem Regs.get_writeRunList (get : Regs → Word) {t : Nat} {d : BitVec 8} {b n : Nat} {mine : Prop} [Decidable mine]
    (hget : ∀ (r : Regs) k x, get (r.writeRun t d k x) = if mine ∧ n = b + k then x else get r) (l : List Word) :
    ∀ (k : Nat) (r : Regs), get (r.writeRunList t d k l) =
      if mine ∧ b + k ≤ n ∧ n < b + k + l.length then l.getD (n - (b + k)) 0#32 else get r := by
  induction l with
  | nil =>
    intro k r
    rw [if_neg (by rintro ⟨-, hlo, hhi⟩; rw [List.length_nil] at hhi; omega)]
    rfl
  | cons x l ih =>
    intro k r
    rw [Regs.writeRunList, ih, List.length_cons, hget]
    by_cases hn : n = b + k
    · subst hn
      by_cases hmine : mine
      · rw [if_neg (by rintro ⟨-, h, -⟩; omega), if_pos ⟨hmine, rfl⟩, if_pos ⟨hmine, Nat.le_refl _, by omega⟩, Nat.sub_self]
        rfl
      · simp [hmine]
    · by_cases hin : mine ∧ b + k ≤ n ∧ n < b + k + (l.length + 1)
      · obtain ⟨hmine, hlo, hhi⟩ := hin
        rw [if_pos ⟨hmine, by omega, by omega⟩, if_pos ⟨hmine, hlo, hhi⟩, show n - (b + k) = n - (b + (k + 1)) + 1 by omega, List.getD_cons_succ]
      · rw [if_neg (fun h => hin ⟨h.1, by omega, by omega⟩), if_neg (fun h => hn h.2), if_neg hin]

/-- A run that names no register writes nothing. -/
theorem Regs.writeRunList_nowhere {t : Nat} {d : BitVec 8} (h : ∀ (r : Regs) k x, r.writeRun t d k x = r) (l : List Word) :
    ∀ (k : Nat) (r : Regs), r.writeRunList t d k l = r := by
  induction l with
  | nil => exact fun _ _ => rfl
  | cons x l ih => exact fun k r => by rw [Regs.writeRunList, h, ih]

/-- A run of words, read back in the main file (R163). -/
theorem Regs.getV_writeRunList (r : Regs) (d : BitVec 8) (l : List Word) {t u : Nat} (ht : t < 64) (hu : u < 64) (n : Nat) :
    (r.writeRunList t d 0 l).getV n u = if u = t then runAfter true d l n (r.getV n u) else r.getV n u := by
  cases hd : specOf d with
  | v b =>
    rw [Regs.get_writeRunList (fun r => r.getV n u) (b := b) (n := n) (mine := u = t) (fun r k x => by
      simp only [Regs.writeRun, hd, Regs.getV_setV r ht hu, and_comm])]
    by_cases hut : u = t <;> simp [runAfter, hd, hut]
  | o b =>
    rw [Regs.get_writeRunList (fun r => r.getV n u) (b := n + 1) (n := n) (mine := u = t) (fun r k x => by
      rw [if_neg (by omega)]
      simp [Regs.writeRun, hd])]
    rw [if_neg (by omega)]
    simp [runAfter, hd]
  | _ =>
    rw [Regs.writeRunList_nowhere fun r k x => by simp only [Regs.writeRun, hd]]
    simp [runAfter, hd]

/-- The same in the operand file. -/
theorem Regs.getO_writeRunList (r : Regs) (d : BitVec 8) (l : List Word) {t u : Nat} (ht : t < 64) (hu : u < 64) (n : Nat) :
    (r.writeRunList t d 0 l).getO n u = if u = t then runAfter false d l n (r.getO n u) else r.getO n u := by
  cases hd : specOf d with
  | o b =>
    rw [Regs.get_writeRunList (fun r => r.getO n u) (b := b) (n := n) (mine := u = t) (fun r k x => by
      simp only [Regs.writeRun, hd, Regs.getO_setO r ht hu, and_comm])]
    by_cases hut : u = t <;> simp [runAfter, hd, hut]
  | v b =>
    rw [Regs.get_writeRunList (fun r => r.getO n u) (b := n + 1) (n := n) (mine := u = t) (fun r k x => by
      rw [if_neg (by omega)]
      simp [Regs.writeRun, hd])]
    rw [if_neg (by omega)]
    simp [runAfter, hd]
  | _ =>
    rw [Regs.writeRunList_nowhere fun r k x => by simp only [Regs.writeRun, hd]]
    simp [runAfter, hd]

theorem Regs.writeRunList_rest (t : Nat) (d : BitVec 8) (l : List Word) :
    ∀ (k : Nat) (r : Regs), ((r.writeRunList t d k l).l, (r.writeRunList t d k l).mode, (r.writeRunList t d k l).cvmode) = (r.l, r.mode, r.cvmode) := by
  induction l with
  | nil => exact fun _ _ => rfl
  | cons x l ih =>
    intro k r
    rw [Regs.writeRunList, ih]
    unfold Regs.writeRun
    cases specOf d <;> rfl

/-- Each thread of the mask receives its own run of words (R378). -/
theorem received_runs (r : Regs) (m : BitVec 64) (d : BitVec 8) (f : Nat → List Word) :
    Received r m d f ((threadsOf m).foldl (fun r t => r.writeRunList t d 0 (f t)) r) := by
  have hrest := foldl_keep (fun r : Regs => (r.l, r.mode, r.cvmode)) (fun r t => r.writeRunList t d 0 (f t))
    (fun r t => Regs.writeRunList_rest t d (f t) 0 r) (threadsOf m) r
  simp only [Prod.mk.injEq] at hrest
  refine ⟨fun u n hu => ?main, fun u n hu => ?operand, hrest⟩
  case main =>
    exact foldl_threads (fun r => r.getV n u) _ (fun t => runAfter true d (f t) n) hu (fun r t ht => r.getV_writeRunList d (f t) ht hu n) m r
  case operand =>
    exact foldl_threads (fun r => r.getO n u) _ (fun t => runAfter false d (f t) n) hu (fun r t ht => r.getO_writeRunList d (f t) ht hu n) m r

theorem Regs.write32_eq_run (r : Regs) (t : Nat) (d : BitVec 8) (x : Word) : r.write32 t d x = r.writeRunList t d 0 [x] := by
  cases hd : specOf d <;> simp [Regs.write32, Regs.writeRunList, Regs.writeRun, hd]

theorem Regs.write64_eq_run (r : Regs) (t : Nat) (d : BitVec 8) (x : DWord) : r.write64 t d x = r.writeRunList t d 0 [lo32 x, hi32 x] := by
  cases hd : specOf d <;> simp [Regs.write64, Regs.writeRunList, Regs.writeRun, hd]

/-- A 64-bit number goes to a pair (R377). -/
theorem Regs.write64_ofNat (r : Regs) (t : Nat) (d : BitVec 8) (v : Nat) :
    r.write64 t d (BitVec.ofNat 64 v) = r.writeRunList t d 0 [BitVec.ofNat 32 v, BitVec.ofNat 32 (v / 2 ^ 32)] := by
  rw [Regs.write64_eq_run, lo32_ofNat, hi32_ofNat]

/-- A 32-bit field of a number is what `BitVec.ofNat` takes of it. -/
theorem ofNat_field_word (v o : Nat) : BitVec.ofNat 32 (field v o 32) = BitVec.ofNat 32 (v / 2 ^ o) := by
  apply BitVec.eq_of_toNat_eq
  simp [field]

/-- A load of 4 or 8 bytes, unsigned, writes the words of its value (R376, R377). -/
theorem Regs.writeLoaded_eq_run (r : Regs) {size : Nat} (hsize : size = 4 ∨ size = 8) (d : BitVec 8) (t v : Nat) :
    r.writeLoaded size false d t v = r.writeRunList t d 0 (loadedWords size false v) := by
  rcases hsize with rfl | rfl
  · exact Regs.write32_eq_run ..
  · exact Regs.write64_ofNat ..

/-! One thread's access. -/

theorem threadsOf_bitOf {t : Nat} (ht : t < 64) : threadsOf (bitOf t) = [t] := by
  revert t
  decide

theorem writeTargets_bitOf (f : Regs → Nat → Regs) {t : Nat} (ht : t < 64) (r : Regs) : writeTargets f (bitOf t) r = f r t := by
  rw [writeTargets, threadsOf_bitOf ht]
  rfl

/-- Without a lane in a transaction each executing thread makes its own access (R378). -/
theorem accessPlan_plain (c : Ctx) : accessPlan c false 0#64 = (threadsOf c.exec).map fun t => ⟨t, bitOf t, false⟩ := by
  simp [accessPlan]

/-- In the uniform form the lowest thread makes one access for all (R383). -/
theorem accessPlan_uniform {c : Ctx} (h : c.exec ≠ 0#64) : accessPlan c true 0#64 = [⟨c.lane, c.exec, false⟩] := by
  have hmask : c.exec &&& ~~~(0#64) = c.exec := BitVec.and_allOnes
  have hnone : threadsOf (c.exec &&& 0#64) = [] := (threadsOf_eq_nil _).2 (by simp)
  rw [accessPlan, if_pos rfl, hmask, if_neg h, hnone]
  rfl

/-! What accesses leave of groups and handlers. -/

/-- What a memory instruction of another split leaves of a group. -/
def Group.face (g : Group) : Regs × FMap Split × List Split × Option FaultInfo × GroupId := (g.regs, g.table, g.stack, g.fault, g.ident)

/-- The accesses have changed no group's registers, splits, fault or identity, and no handler. -/
structure Serves (s t : State) : Prop where
  groups : ∀ k, (FMap.find t.groups k).map Group.face = (FMap.find s.groups k).map Group.face
  handlers : t.handlers = s.handlers

theorem Serves.refl (s : State) : Serves s s := ⟨fun _ => rfl, rfl⟩

theorem Serves.trans {s t u : State} (h : Serves s t) (h' : Serves t u) : Serves s u :=
  ⟨fun k => (h'.groups k).trans (h.groups k), h'.handlers.trans h.handlers⟩

theorem serves_of_eq {s t : State} (hgroups : t.groups = s.groups) (hhandlers : t.handlers = s.handlers) : Serves s t :=
  ⟨fun k => by rw [hgroups], hhandlers⟩

theorem serves_of_wakes {s t : State} (h : Wakes s t) : Serves s t := by
  refine ⟨fun k => ?_, h.handlers⟩
  have hface : (Group.face : Group → _) = Group.face ∘ Group.still := rfl
  rw [hface, ← Option.map_map, ← Option.map_map, h.groups]

theorem serves_modGroup (s : State) (gid : Nat) {f : Group → Group} (hf : ∀ g, (f g).face = g.face) : Serves s (s.modGroup gid f) := by
  refine ⟨fun k => ?_, State.modGroup_handlers ..⟩
  unfold State.modGroup
  split
  · next g hg =>
    by_cases hk : k = gid
    · subst hk
      rw [State.find_setGroup, hg, Option.map_some, Option.map_some, hf]
    · rw [State.setGroup, FMap.find_insert_other s.groups (Ne.symm hk)]
  · rfl

theorem Serves.keepsIssuer {s t : State} {c : Ctx} (h : Serves s t) (hctx : s.ctx = some c) : KeepsIssuer s t c := by
  obtain ⟨g, hg⟩ := group_of_ctx hctx
  have hk := h.groups c.gid
  rw [hg, Option.map_some, Option.map_eq_some_iff] at hk
  obtain ⟨g', hg', -⟩ := hk
  exact ⟨⟨g', hg'⟩, h.handlers⟩

theorem Serves.block {s t : State} (h : Serves s t) (c : Ctx) : c.block t = c.block s := by
  have hk := h.groups c.gid
  unfold Ctx.block
  cases hs : FMap.find s.groups c.gid <;> cases ht : FMap.find t.groups c.gid <;> simp_all [Group.face]

theorem Serves.keepsOtherGroups {s t : State} (h : Serves s t) (gid : Nat) : KeepsOtherGroups s t gid := by
  intro k _
  have hk := h.groups k
  cases hs : FMap.find s.groups k <;> cases ht : FMap.find t.groups k <;> simp_all [Group.face]

theorem serves_notePool (s : State) (c : Ctx) (store : Bool) (l : PoolLoc) (bk : Nat) : Serves s (s.notePool c store l bk) := by
  unfold State.notePool
  split
  · exact Serves.refl s
  · refine serves_modGroup s c.gid fun g => ?_
    split
    · unfold Group.filterStore
      split
      · obtain ⟨fp, h⟩ := g.closeRegion_eq 5
        rw [h]
        rfl
      · rfl
    · unfold Group.watchSector Group.filterLoad
      dsimp only
      split
      · rfl
      · split <;> rfl

theorem serves_watchOf (s : State) (c : Ctx) (key : Nat) : Serves s (s.watchOf c key) := by
  unfold State.watchOf
  split
  · exact Serves.refl s
  · refine serves_modGroup s c.gid fun g => ?_
    unfold Group.watchSector
    split
    · rfl
    · split <;> rfl

theorem serves_dropDenials (s : State) (w : XWho) : Serves s (s.dropDenials w) := serves_of_eq (s.dropDenials_groups w) (s.dropDenials_handlers w)

/-- A retirement after accesses: the other groups' registers and splits stand. -/
theorem Serves.keepsOtherGroups_retire {s t : State} {c : Ctx} (h : Serves s t) (hctx : s.ctx = some c) (regs : Regs) (seed : Word) (npc : BitVec 64) :
    KeepsOtherGroups s (t.retire c { c with regs := regs, seed := seed } npc) c.gid := by
  intro k hk
  rw [State.retire_other hctx t regs seed npc hk]
  exact h.keepsOtherGroups c.gid k hk

/-- A retirement leaves the block of its issuer's group. -/
theorem block_retire {s : State} {c : Ctx} (hctx : s.ctx = some c) {t : State} (hkeeps : KeepsIssuer s t c) (regs : Regs) (seed : Word) (npc : BitVec 64) :
    c.block (t.retire c { c with regs := regs, seed := seed } npc) = c.block t := by
  obtain ⟨⟨g', hg'⟩, hhandlers⟩ := hkeeps
  have hblock : ∀ {u : State} {k : Nat} {g : Group}, k = c.gid → FMap.find u.groups k = some g → g.ident = g'.ident → c.block u = c.block t := by
    rintro u k g rfl hg hident
    rw [Ctx.block, Ctx.block, hg, hg']
    exact congrArg GroupId.block hident
  obtain hs | hs := Bool.eq_false_or_eq_true c.single
  case inr =>
    have hwho : c.who = .split c.gid c.entry := who_of_ctx hctx hs
    obtain ⟨last, spin, ht⟩ := State.retire_of_find c (c := { c with regs := regs, seed := seed }) hwho hg' npc
    rw [ht]
    exact hblock rfl (State.find_setGroup ..) rfl
  case inl =>
    obtain ⟨hid, h, g, hcur, hh, hg, hc⟩ := handler_of_ctx hctx hs
    have hgid : c.gid = h.gid := by rw [hc]; rfl
    rw [State.retire_of_handler (g := g') hc (by rw [hhandlers, hh]) (by rw [← hgid, hg'])]
    exact hblock hgid.symm (FMap.find_insert_same ..) rfl

/-! The regions (R17, R168). -/

/-- Regions are read from memory, the block's Pool bytes and the core's trap region alone. -/
theorem regionMem_of_keepsMemory {s t : State} {c : Ctx} (h : KeepsMemory s t) (hblock : c.block t = c.block s) (R : Region) :
    regionMem t c R = regionMem s c R := by
  obtain ⟨hmem, -, hblocks, htrap⟩ := h
  cases R
  · exact hmem
  · simp only [regionMem, hblock, hblocks]
  · simp only [regionMem, hblock, hblocks]
  · exact htrap _

/-- What a write to one region leaves: registers and splits, every other region, and the regions that the issuer does not see. -/
structure RegionWritten (s t : State) (c : Ctx) (R : Region) (m : FMap Byte) : Prop where
  serves : Serves s t
  pools : KeepsOtherPools s t c
  region : regionMem t c R = m
  rest : ∀ R', R' ≠ R → regionMem t c R' = regionMem s c R'

theorem RegionWritten.refl (s : State) (c : Ctx) (R : Region) : RegionWritten s s c R (regionMem s c R) :=
  ⟨Serves.refl s, ⟨fun _ _ => rfl, fun _ _ => rfl⟩, rfl, fun _ _ => rfl⟩

theorem RegionWritten.trans {s t u : State} {c : Ctx} {R : Region} {m m' : FMap Byte} (h : RegionWritten s t c R m) (h' : RegionWritten t u c R m') :
    RegionWritten s u c R m' := by
  refine ⟨h.serves.trans h'.serves, ⟨fun k hk => ?_, fun k hk => (h'.pools.2 k hk).trans (h.pools.2 k hk)⟩, h'.region,
    fun R' hR => (h'.rest R' hR).trans (h.rest R' hR)⟩
  exact (h'.pools.1 k (by rw [h.serves.block]; exact hk)).trans (h.pools.1 k hk)

theorem regionWritten_of_keepsMemory {s t : State} {c : Ctx} (hserves : Serves s t) (h : KeepsMemory s t) (R : Region) :
    RegionWritten s t c R (regionMem s c R) := by
  have hregion := regionMem_of_keepsMemory h (hserves.block c)
  obtain ⟨-, -, hblocks, htrap⟩ := h
  exact ⟨hserves, ⟨fun k _ => by rw [hblocks], fun k _ => htrap k⟩, hregion R, fun R' _ => hregion R'⟩

/-- The retirement leaves the regions. -/
theorem RegionWritten.retire {s t : State} {c : Ctx} {R : Region} {m : FMap Byte} (h : RegionWritten s t c R m) (hctx : s.ctx = some c)
    (regs : Regs) (seed : Word) (npc : BitVec 64) (R' : Region) :
    regionMem (t.retire c { c with regs := regs, seed := seed } npc) c R' = regionMem t c R' :=
  regionMem_of_keepsMemory (keepsMemory_retire t ..) (block_retire hctx (h.serves.keepsIssuer hctx) ..) R'

theorem RegionWritten.retire_pools {s t : State} {c : Ctx} {R : Region} {m : FMap Byte} (h : RegionWritten s t c R m) (c' : Ctx) (npc : BitVec 64) :
    KeepsOtherPools s (t.retire c c' npc) c := by
  obtain ⟨-, -, hblocks, htrap⟩ := keepsMemory_retire t c c' npc
  exact ⟨fun k hk => by rw [hblocks, h.pools.1 k hk], fun k hk => (htrap k).trans (h.pools.2 k hk)⟩

theorem State.find_modBlock {s : State} {k : Nat} {b : Block} (hb : FMap.find s.blocks k = some b) (f : Block → Block) (j : Nat) :
    FMap.find (s.modBlock k f).blocks j = if j = k then some (f b) else FMap.find s.blocks j := by
  rw [State.modBlock, hb]
  by_cases hj : j = k
  · subst hj
    rw [if_pos rfl]
    exact FMap.find_insert_same ..
  · rw [if_neg hj]
    exact FMap.find_insert_other s.blocks (Ne.symm hj) _

/-- The region of a place of the Pool. -/
def PoolLoc.region : PoolLoc → Region
  | .sc _ => .scratch
  | .ti _ => .tile
  | .trap _ => .trap

/-- The offset of a place of the Pool in its region. -/
def PoolLoc.offset : PoolLoc → Nat
  | .sc o => o
  | .ti o => o
  | .trap o => o

/-- A Pool write puts its bytes into the region of its place. -/
theorem regionWritten_poolWrite {s : State} {c : Ctx} {b : Block} (hb : FMap.find s.blocks (c.block s) = some b) (w : Option Nat) (l : PoolLoc) (x : List Byte) :
    RegionWritten s (s.poolWrite w (c.block s) (coreOf c.gid) l x) c l.region (putBytes (regionMem s c l.region) l.offset x) := by
  have hwake : ∀ (u : State) (R : Region), RegionWritten u (u.wakeWatch w (poolWatch (c.block s) l)) c R (regionMem u c R) := fun u R =>
    regionWritten_of_keepsMemory (serves_of_wakes (wakes_wakeWatch ..)) ⟨rfl, rfl, rfl, fun _ => rfl⟩ R
  unfold State.poolWrite
  cases l with
  | sc o =>
    let u := s.modBlock (c.block s) fun x' => { x' with sc := putBytes x'.sc o x }
    have hserves : Serves s u := serves_of_eq (State.modBlock_groups ..) (State.modBlock_handlers ..)
    have hfind := State.find_modBlock hb fun x' => { x' with sc := putBytes x'.sc o x }
    have hu : RegionWritten s u c .scratch (putBytes (regionMem s c .scratch) o x) := by
      refine ⟨hserves, ⟨fun k hk => by rw [hfind, if_neg hk], fun k _ => ?_⟩, ?_, fun R hR => ?_⟩
      · rw [State.core_of_cores (State.modBlock_cores ..)]
      · simp only [regionMem, hserves.block, u, hfind, hb]
        rfl
      · cases R
        · exact congrArg MemSys.mem (State.modBlock_ms ..)
        · exact absurd rfl hR
        · simp only [regionMem, hserves.block, u, hfind, hb]
          rfl
        · exact congrArg Core.trap (State.core_of_cores (State.modBlock_cores ..) _)
    have h := hu.trans (hwake u .scratch)
    rwa [hu.region] at h
  | ti o =>
    let u := s.modBlock (c.block s) fun x' => { x' with ti := putBytes x'.ti o x }
    have hserves : Serves s u := serves_of_eq (State.modBlock_groups ..) (State.modBlock_handlers ..)
    have hfind := State.find_modBlock hb fun x' => { x' with ti := putBytes x'.ti o x }
    have hu : RegionWritten s u c .tile (putBytes (regionMem s c .tile) o x) := by
      refine ⟨hserves, ⟨fun k hk => by rw [hfind, if_neg hk], fun k _ => ?_⟩, ?_, fun R hR => ?_⟩
      · rw [State.core_of_cores (State.modBlock_cores ..)]
      · simp only [regionMem, hserves.block, u, hfind, hb]
        rfl
      · cases R
        · exact congrArg MemSys.mem (State.modBlock_ms ..)
        · simp only [regionMem, hserves.block, u, hfind, hb]
          rfl
        · exact absurd rfl hR
        · exact congrArg Core.trap (State.core_of_cores (State.modBlock_cores ..) _)
    have h := hu.trans (hwake u .tile)
    rwa [hu.region] at h
  | trap o =>
    let u := s.modCore (coreOf c.gid) fun x' => { x' with trap := putBytes x'.trap o x }
    have hserves : Serves s u := serves_of_eq rfl rfl
    have hu : RegionWritten s u c .trap (putBytes (regionMem s c .trap) o x) := by
      refine ⟨hserves, ⟨fun _ _ => rfl, fun k hk => ?_⟩, ?_, fun R hR => ?_⟩
      · simp only [u, State.core_modCore, if_neg (Ne.symm hk)]
      · simp only [regionMem, u, State.core_modCore, if_true]
      · cases R
        · rfl
        · rfl
        · rfl
        · exact absurd rfl hR
    have h := hu.trans (hwake u .trap)
    rwa [hu.region] at h

/-! The end of an instruction whose accesses have all been performed here. -/

/-- Poison that stores take away leaves the bytes. -/
theorem regionWritten_clearPoison (s : State) (c : Ctx) (l : List (Nat × Nat)) (R : Region) : RegionWritten s (s.clearPoison l) c R (regionMem s c R) := by
  refine ⟨serves_of_eq rfl rfl, ⟨fun _ _ => rfl, fun _ _ => rfl⟩, ?_, fun R' _ => ?_⟩
  · cases R <;> rfl
  · cases R' <;> rfl

/-- A change of a block that leaves its Pool bytes. -/
theorem regionWritten_modBlock (s : State) (c : Ctx) {f : Block → Block} (hsc : ∀ b, (f b).sc = b.sc) (hti : ∀ b, (f b).ti = b.ti) (R : Region) :
    RegionWritten s (s.modBlock (c.block s) f) c R (regionMem s c R) := by
  have hserves : Serves s (s.modBlock (c.block s) f) := serves_of_eq (State.modBlock_groups ..) (State.modBlock_handlers ..)
  have hregion : ∀ R, regionMem (s.modBlock (c.block s) f) c R = regionMem s c R := by
    intro R
    cases R
    · exact congrArg MemSys.mem (State.modBlock_ms ..)
    · simp only [regionMem, hserves.block]
      cases hb : FMap.find s.blocks (c.block s) with
      | none => simp only [State.modBlock, hb]
      | some b => simp [State.find_modBlock hb, hsc]
    · simp only [regionMem, hserves.block]
      cases hb : FMap.find s.blocks (c.block s) with
      | none => simp only [State.modBlock, hb]
      | some b => simp [State.find_modBlock hb, hti]
    · exact congrArg Core.trap (State.core_of_cores (State.modBlock_cores ..) _)
  refine ⟨hserves, ⟨fun k hk => ?_, fun k _ => congrArg Core.trap (State.core_of_cores (State.modBlock_cores ..) _)⟩, hregion R, fun R' _ => hregion R'⟩
  cases hb : FMap.find s.blocks (c.block s) with
  | none => simp only [State.modBlock, hb]
  | some b => rw [State.find_modBlock hb, if_neg hk]

theorem regionWritten_clearPoolPoison (s : State) (c : Ctx) (l : List (Nat × Nat)) (R : Region) :
    RegionWritten s (s.clearPoolPoison (c.block s) l) c R (regionMem s c R) := by
  unfold State.clearPoolPoison
  dsimp only
  split
  · exact RegionWritten.refl s c R
  · refine regionWritten_modBlock s c ?_ ?_ R
    · exact fun _ => rfl
    · exact fun _ => rfl

/-- The state in which an instruction ends. -/
def MemAcc.settle (m : MemAcc) (c : Ctx) : State := ((m.s.clearPoison m.written).clearPoolPoison (c.block m.s) m.written).dropDenials (m.s.whoOf c.gid)

theorem regionWritten_settle (m : MemAcc) (c : Ctx) (R : Region) : RegionWritten m.s (m.settle c) c R (regionMem m.s c R) := by
  have hclear := regionWritten_clearPoison m.s c m.written R
  have hpool := regionWritten_clearPoolPoison (m.s.clearPoison m.written) c m.written R
  have hdrop := regionWritten_of_keepsMemory (c := c) (serves_dropDenials ((m.s.clearPoison m.written).clearPoolPoison (c.block m.s) m.written) (m.s.whoOf c.gid))
    (keepsMemory_dropDenials ..) R
  have h := (hclear.trans hpool).trans hdrop
  rw [hclear.region] at hpool
  rwa [show regionMem ((m.s.clearPoison m.written).clearPoolPoison (c.block m.s) m.written) c R = regionMem m.s c R from hpool.region] at h

/-- Accesses that only read settle without a trace. -/
theorem keepsMemory_settle {m : MemAcc} (h : m.written = []) (c : Ctx) : KeepsMemory m.s (m.settle c) := by
  have hsame : (m.s.clearPoison m.written).clearPoolPoison (c.block m.s) m.written = m.s := by rw [h]; rfl
  rw [MemAcc.settle, hsame]
  exact keepsMemory_dropDenials ..

theorem serves_settle (m : MemAcc) (c : Ctx) : Serves m.s (m.settle c) := (regionWritten_settle m c .tiers).serves

/-- With every access performed here the instruction completes (R381). -/
theorem memDone_of_performed {m : MemAcc} (hbad : m.bad = []) (haborts : m.aborts = []) (hreqs : m.reqs = []) (c : Ctx) (open_ : BitVec 64) (kind : RemoteKind)
    (word : BitVec 32) : memDone c open_ kind word m = Done.seq (m.settle c) { c with regs := m.regs } := by
  rw [memDone, hreqs, hbad, haborts]
  rfl

end Sys2Proof.Machine
end

