-- ==== Sys2Proof/Proofs/PanelResults.lean ====
section
/-! SUPPORT. Tile panels (R433, R451): one access of the tile store for each executing thread, in ascending order. -/

namespace Sys2Proof.Machine

open Sys2Proof.Claims

/-- Thread t's access of a panel, at an offset of the tile store. -/
def panelAccess (off : Nat → Nat) (t : Nat) : Reached := (⟨t, bitOf t, false⟩, .pool (.ti (off t)))

/-- Every executing thread reaches its bytes of the tile store (R451). -/
theorem panelPlan_of_room {s : State} {c : Ctx} {size : Nat} {a : BitVec 8} {blk : Block} (hblk : s.blockOf c.gid = some blk) (htx : c.txLanes s = 0#64)
    (halign : (c.regs.read32 c.xi c.lane a).toNat % size = 0)
    (hroom : ∀ t, c.exec.getLsbD t = true → (c.regs.read32 c.xi c.lane a).toNat + size * t + size ≤ blk.tiSize) :
    panelPlan c size a s = (threadsOf c.exec).map (panelAccess fun t => (c.regs.read32 c.xi c.lane a).toNat + size * t) := by
  rw [panelPlan, htx, accessPlan_plain, List.map_map, hblk]
  refine List.map_congr_left fun t ht => ?_
  have hfits := hroom t ((mem_threadsOf c.exec t).1 ht).2
  simp [panelReach, panelAccess, halign, Nat.not_lt.2 hfits]

theorem notePool_blocks (s : State) (c : Ctx) (store : Bool) (l : PoolLoc) (bk : Nat) : (s.notePool c store l bk).blocks = s.blocks := by
  unfold State.notePool
  split
  · rfl
  · exact State.modGroup_blocks ..

theorem keepsMemory_notePool (s : State) (c : Ctx) (store : Bool) (l : PoolLoc) (bk : Nat) : KeepsMemory s (s.notePool c store l bk) := by
  unfold State.notePool
  split
  · exact keepsMemory_refl s
  · exact keepsMemory_of_eq (State.modGroup_ms ..) (State.modGroup_blocks ..) (State.modGroup_cores ..)

/-! Stores. -/

/-- The block of an instruction's group is there. -/
def HasBlock (s : State) (c : Ctx) : Prop := ∃ b, FMap.find s.blocks (c.block s) = some b

theorem hasBlock_of_blockOf {s : State} {c : Ctx} {blk : Block} (h : s.blockOf c.gid = some blk) : HasBlock s c := by
  unfold State.blockOf at h
  unfold HasBlock Ctx.block
  cases hg : FMap.find s.groups c.gid with
  | none => rw [hg] at h; exact absurd h (by simp)
  | some g => rw [hg] at h; exact ⟨blk, h⟩

theorem HasBlock.poolWrite {s : State} {c : Ctx} (h : HasBlock s c) (w : Option Nat) (core : Nat) (l : PoolLoc) (x : List Byte) :
    HasBlock (s.poolWrite w (c.block s) core l x) c := by
  obtain ⟨b, hb⟩ := h
  have hwake : ∀ u : State, Serves s u → HasBlock u c → HasBlock (u.wakeWatch w (poolWatch (c.block s) l)) c := fun u _ hu => by
    obtain ⟨b', hb'⟩ := hu
    exact ⟨b', by rw [(serves_of_wakes (wakes_wakeWatch u ..)).block]; exact hb'⟩
  have hmod : ∀ f, Serves s (s.modBlock (c.block s) f) := fun f => serves_of_eq (State.modBlock_groups ..) (State.modBlock_handlers ..)
  cases l with
  | sc o => exact hwake _ (hmod _) ⟨_, by rw [(hmod _).block, State.find_modBlock hb, if_pos rfl]⟩
  | ti o => exact hwake _ (hmod _) ⟨_, by rw [(hmod _).block, State.find_modBlock hb, if_pos rfl]⟩
  | trap o => exact hwake (s.modCore core _) (serves_of_eq rfl rfl) ⟨b, hb⟩

/-- The stores of a panel put each thread's bytes into the tile store, in ascending order. -/
theorem panel_stores (c : Ctx) (op size n : Nat) (data : Nat → List Byte) (off : Nat → Nat) (l : List Nat) :
    ∀ m : MemAcc, HasBlock m.s c →
      let m' := (l.map (panelAccess off)).foldl (storeOne c op size n data) m
      (m'.regs = m.regs ∧ m'.bad = m.bad ∧ m'.aborts = m.aborts ∧ m'.reqs = m.reqs) ∧
      RegionWritten m.s m'.s c .tile (l.foldl (fun b t => putBytes b (off t) (data t)) (regionMem m.s c .tile)) := by
  induction l with
  | nil => exact fun m _ => ⟨⟨rfl, rfl, rfl, rfl⟩, RegionWritten.refl ..⟩
  | cons t l ih =>
    intro m hblock
    let u := m.s.notePool c true (.ti (off t)) (c.block m.s)
    have hserves : Serves m.s u := serves_notePool ..
    have hnote := regionWritten_of_keepsMemory (c := c) hserves (keepsMemory_notePool m.s c true (.ti (off t)) (c.block m.s)) .tile
    obtain ⟨b, hb⟩ := hblock
    have hb' : FMap.find u.blocks (c.block u) = some b := by rw [hserves.block, notePool_blocks, hb]
    have hput := regionWritten_poolWrite hb' c.writer (.ti (off t)) (data t)
    have hhas := HasBlock.poolWrite ⟨b, hb'⟩ c.writer (coreOf c.gid) (.ti (off t)) (data t)
    rw [hserves.block] at hput hhas
    obtain ⟨hkeeps, hrest⟩ := ih (storeOne c op size n data m (panelAccess off t)) hhas
    refine ⟨hkeeps, ?_⟩
    have hfirst := hnote.trans hput
    have hstep : regionMem (storeOne c op size n data m (panelAccess off t)).s c .tile = putBytes (regionMem m.s c .tile) (off t) (data t) := by
      rw [← hnote.region]
      exact hput.region
    rw [hstep] at hrest
    exact hfirst.trans hrest

/-! Loads. -/

/-- Pool bytes as a number of their region (R2). -/
theorem ofBytesLE_poolBytes (s : State) (c : Ctx) (l : PoolLoc) (n : Nat) :
    ofBytesLE (s.poolBytes (c.block s) (coreOf c.gid) l n) = readMem (regionMem s c l.region) l.offset n := by
  unfold State.poolBytes readMem regionMem
  cases l with
  | sc o => cases FMap.find s.blocks (c.block s) <;> rfl
  | ti o => cases FMap.find s.blocks (c.block s) <;> rfl
  | trap o => rfl

/-- The loads of a panel give each thread the bytes of its place, and change no memory. -/
theorem panel_loads {s : State} {c : Ctx} {op size : Nat} {addr : Nat → Nat} {put : Nat → Regs → Nat → Regs} {off : Nat → Nat} (l : List Nat)
    (h64 : ∀ t ∈ l, t < 64) (hclean : ∀ t ∈ l, s.poolPoisoned (c.block s) (.ti (off t)) = false) :
    ∀ m : MemAcc, Serves s m.s → KeepsMemory s m.s →
      let m' := (l.map (panelAccess off)).foldl (loadOne c op size [] addr put) m
      m'.regs = l.foldl (fun r t => put (readMem (regionMem s c .tile) (off t) size) r t) m.regs ∧
      (m'.bad = m.bad ∧ m'.aborts = m.aborts ∧ m'.reqs = m.reqs ∧ m'.written = m.written) ∧ Serves s m'.s ∧ KeepsMemory s m'.s := by
  induction l with
  | nil => exact fun m hserves hkeeps => ⟨rfl, ⟨rfl, rfl, rfl, rfl⟩, hserves, hkeeps⟩
  | cons t l ih =>
    intro m hserves hkeeps
    have hpoison : m.s.poolPoisoned (c.block m.s) (.ti (off t)) = false := by
      rw [← hclean t List.mem_cons_self, State.poolPoisoned, State.poolPoisoned, hserves.block, hkeeps.2.2.1]
    have hvalue : ofBytesLE (m.s.poolBytes (c.block m.s) (coreOf c.gid) (.ti (off t)) size) = readMem (regionMem s c .tile) (off t) size := by
      rw [ofBytesLE_poolBytes, regionMem_of_keepsMemory hkeeps (hserves.block c)]
      rfl
    let m1 : MemAcc := { m with s := m.s.notePool c false (.ti (off t)) (c.block m.s),
                                regs := put (readMem (regionMem s c .tile) (off t) size) m.regs t }
    have hone : loadOne c op size [] addr put m (panelAccess off t) = m1 := by
      simp only [loadOne, panelAccess, Bool.false_eq_true, if_false, hpoison, hvalue, writeTargets_bitOf _ (h64 t List.mem_cons_self)]
      rfl
    rw [List.map_cons, List.foldl_cons, hone, List.foldl_cons]
    exact ih (fun u hu => h64 u (List.mem_cons_of_mem _ hu)) (fun u hu => hclean u (List.mem_cons_of_mem _ hu)) m1
      (hserves.trans (serves_notePool ..)) (keepsMemory_trans hkeeps (keepsMemory_notePool ..))

/-- The words of a panel (R377, R451). -/
theorem writePanel_eq_run (r : Regs) {size : Nat} (hsize : size = 8 ∨ size = 16 ∨ size = 32) (d : BitVec 8) (t v : Nat) :
    r.writePanel size d t v = r.writeRunList t d 0 ((List.range (size / 4)).map (fun i => BitVec.ofNat 32 (v / 2 ^ (32 * i)))) := by
  have hwords : ∀ n, (List.range n).map (fun i => BitVec.ofNat 32 (field v (32 * i) 32)) = (List.range n).map (fun i => BitVec.ofNat 32 (v / 2 ^ (32 * i))) :=
    fun n => List.map_congr_left fun i _ => ofNat_field_word v (32 * i)
  unfold Regs.writePanel
  rcases hsize with rfl | rfl | rfl
  · rw [if_pos rfl, Regs.write64_ofNat]
    congr 1
    simp [List.range_succ]
  · rw [if_neg (by decide), hwords]
  · rw [if_neg (by decide), hwords]

/-! The instructions. -/

theorem panelSize_of_code {c : Ctx} (h : c.extv.toNat < 3) :
    panelSize c = (if c.extv.toNat = 0 then 16 else if c.extv.toNat = 1 then 32 else 8) ∧ (panelSize c = 8 ∨ panelSize c = 16 ∨ panelSize c = 32) := by
  unfold panelSize
  have hcases : c.extv.toNat = 0 ∨ c.extv.toNat = 1 ∨ c.extv.toNat = 2 := by omega
  rcases hcases with h | h | h <;> rw [h] <;> decide

/-- A panel instruction whose operands are valid makes its accesses (R451). -/
theorem exec_panel {i : Instr} {dest : Bool} {d a : BitVec 8} {body : Nat → State → Ctx → Done} {s : State} {c : Ctx} (hx : exec i s = panel i dest d a body s)
    (hctx : s.ctx = some c) (hs : c.single = false) (hsize : panelSize c ≠ 0) (hd : panelOk c.allot (panelSize c) dest d = true) (ha : src32Ok c.allot false a = true)
    (hwait : c.mustWait (touchesAcc (panelSize c / 4) d || touchesAcc 1 a) = false) :
    exec i s = finish c ((encode i).getD 0#32) (body (panelSize c) s c) := by
  rw [exec_of_issue (show exec i s = issue i false _ s from hx) hctx (by simp [hs])]
  simp only [if_neg hsize, hd, ha, hwait, Bool.and_self, Bool.not_true, Bool.false_eq_true, if_false]

end Sys2Proof.Machine

namespace Sys2Proof.Proofs

open Sys2Proof.Machine Sys2Proof.Claims

/-- Settles O38: a panel's accesses go to the tile store one after another, each after what the others have left. -/
theorem tilePanelResults : Obligations.TilePanelResults := by
  unfold Obligations.TilePanelResults
  intro s c d a blk hctx hs htx hblk hcode size o ha hwait halign hroom
  obtain ⟨hsize, hsizes⟩ := panelSize_of_code hcode
  have hpos : panelSize c ≠ 0 := by omega
  have hplan : panelPlan c size a s = (threadsOf c.exec).map (panelAccess fun t => o + size * t) := panelPlan_of_room hblk htx halign hroom
  rw [← show panelSize c = size from hsize] at *
  refine ⟨fun hd => ?store, fun hd hclean => ?load⟩
  case store =>
    have hx := exec_panel (show exec (.gstp d a) s = execGstp d a s from rfl) hctx hs hpos hd ha hwait
    obtain ⟨⟨hregs, hbad, haborts, hreqs⟩, hwritten⟩ := panel_stores c 0x76 (panelSize c) 0 (c.panelBytes (panelSize c) d) (fun t => o + panelSize c * t)
      (threadsOf c.exec) ⟨s, c.regs, [], [], [], []⟩ (hasBlock_of_blockOf hblk)
    rw [hplan, memDone_of_performed hbad haborts hreqs, hregs] at hx
    have hsettled := hwritten.trans (hwritten.region ▸ regionWritten_settle _ c .tile)
    refine ⟨_, hx, goesOn_retire hctx _ c.regs c.seed (hsettled.serves.keepsIssuer hctx) _, hsettled.serves.keepsOtherGroups_retire hctx c.regs c.seed _,
      hsettled.retire_pools .., fun R hR => ?_, ?_⟩
    · exact (hsettled.retire hctx c.regs c.seed _ R).trans (hsettled.rest R hR)
    · exact (hsettled.retire hctx c.regs c.seed _ .tile).trans hsettled.region
  case load =>
    have hx := exec_panel (show exec (.gldp d a) s = execGldp d a s from rfl) hctx hs hpos hd ha hwait
    obtain ⟨hregs, ⟨hbad, haborts, hreqs, hwritten⟩, hserves, hkeeps⟩ := panel_loads (c := c) (op := 0x76) (size := panelSize c)
      (addr := c.panelAddress (panelSize c) a) (put := fun v r t => r.writePanel (panelSize c) d t v) (off := fun t => o + panelSize c * t) (threadsOf c.exec)
      (fun t ht => ((mem_threadsOf _ t).1 ht).1) (fun t ht => hclean t ((mem_threadsOf _ t).1 ht).2) ⟨s, c.regs, [], [], [], []⟩ (Serves.refl s) (keepsMemory_refl s)
    rw [hplan, memDone_of_performed hbad haborts hreqs, hregs] at hx
    have hserves := hserves.trans (serves_settle _ c)
    refine ⟨_, _, hx, goesOn_retire hctx _ _ c.seed (hserves.keepsIssuer hctx) _,
      keepsMemory_trans (keepsMemory_trans hkeeps (keepsMemory_settle hwritten c)) (keepsMemory_retire ..), hserves.keepsOtherGroups_retire hctx _ c.seed _, ?_⟩
    simp only [writePanel_eq_run _ hsizes]
    exact received_runs ..

end Sys2Proof.Proofs
end

