-- ==== Sys2Proof/Proofs/ConstantLoads.lean ====
section
/-! SUPPORT. Constant loads (R192, R384): the bytes of a line of the bank, from the constant cache or from home, and the cache
after the lines that a load's threads have brought into it. -/

namespace Sys2Proof.Machine

open Sys2Proof.Claims

/-! Bytes of a number (R2). -/

theorem ofBytesLE_append (l l' : List Byte) : ofBytesLE (l ++ l') = ofBytesLE l + 2 ^ (8 * l.length) * ofBytesLE l' := by
  induction l with
  | nil => simp [ofBytesLE]
  | cons b l ih =>
    rw [List.cons_append, ofBytesLE, ih, ofBytesLE, List.length_cons, show 8 * (l.length + 1) = 8 + 8 * l.length by omega, Nat.pow_add,
      show (2 : Nat) ^ 8 = 256 from rfl, Nat.mul_add, Nat.mul_assoc, Nat.add_assoc]

theorem ofBytesLE_bytesLE (n v : Nat) : ofBytesLE (bytesLE n v) = v % 2 ^ (8 * n) := by
  induction n generalizing v with
  | zero => simp [bytesLE, ofBytesLE, Nat.mod_one]
  | succ n ih =>
    rw [bytesLE, ofBytesLE, ih, show 8 * (n + 1) = 8 + 8 * n by omega, Nat.pow_add, Nat.mod_mul]
    simp

/-- A field of a word of memory, at whole bytes, is the word of those bytes. -/
theorem State.field_wordAt (s : State) (off : Nat) {i k n : Nat} (h : i + k ≤ n) : field (s.wordAt off n) (8 * i) (8 * k) = s.wordAt (off + i) k := by
  obtain ⟨j, rfl⟩ := Nat.exists_eq_add_of_le h
  have hbytes : s.bytesAt off (i + k + j) = s.bytesAt off i ++ (s.bytesAt (off + i) k ++ s.bytesAt (off + i + k) j) := by
    simp only [State.bytesAt, List.range_add, List.map_append, List.map_map, List.append_assoc]
    congr 2
    · exact List.map_congr_left fun x _ => by rw [Function.comp_apply, Nat.add_assoc]
    · exact List.map_congr_left fun x _ => congrArg s.byteAt (by change off + (i + k + x) = off + i + k + x; omega)
  have hlen : ∀ off n, (s.bytesAt off n).length = n := fun off n => by simp [State.bytesAt]
  have hlow : s.wordAt off i < 2 ^ (8 * i) := s.wordAt_lt off i
  have hmid : s.wordAt (off + i) k < 2 ^ (8 * k) := s.wordAt_lt (off + i) k
  unfold State.wordAt at *
  rw [hbytes, ofBytesLE_append, ofBytesLE_append, hlen, hlen, field, Nat.add_mul_div_left _ _ (Nat.two_pow_pos _), Nat.div_eq_of_lt hlow, Nat.zero_add,
    Nat.add_mul_mod_self_left, Nat.mod_eq_of_lt hmid]

/-- A range without poison holds none in its parts. -/
theorem State.poisoned_part {s : State} {off i k n : Nat} (h : s.poisoned off n = false) (hk : 0 < k) (hin : i + k ≤ n) : s.poisoned (off + i) k = false := by
  simp only [State.poisoned, List.any_eq_false, List.mem_range] at h ⊢
  intro x hx
  have hlow : off / 32 ≤ (off + i) / 32 := Nat.div_le_div_right (by omega)
  have hhigh : (off + i + k - 1) / 32 ≤ (off + n - 1) / 32 := Nat.div_le_div_right (by omega)
  have := h ((off + i) / 32 - off / 32 + x) (by omega)
  rwa [show off / 32 + ((off + i) / 32 - off / 32 + x) = (off + i) / 32 + x by omega] at this

/-! Reads at home. -/

theorem Wakes.trap {s t : State} (h : Wakes s t) (k : Nat) : (t.core k).trap = (s.core k).trap := by
  have hcore := congrArg Core.trap (h.cores k)
  exact hcore

theorem Wakes.cc {s t : State} (h : Wakes s t) (k : Nat) : (t.core k).cc = (s.core k).cc := by
  have hcore := congrArg Core.cc (h.cores k)
  exact hcore

theorem State.touchLine_poison (s : State) (p line bits : Nat) (write : Bool) : (s.touchLine p line bits write).2.ms.poison = s.ms.poison := by
  unfold State.touchLine
  simp only
  split
  · rfl
  · split
    · rfl
    · split
      · rfl
      · split <;> rfl

theorem State.touchL2_poison (s : State) (p key n : Nat) (write : Bool) : (s.touchL2 p key n write).2.ms.poison = s.ms.poison := by
  unfold State.touchL2
  exact foldl_keep (fun r : Bool × State => r.2.ms.poison) _ (fun r line => r.2.touchLine_poison p line _ write) _ (false, s)

/-- A read at home moves the L2 and the directory, and what follows of them. -/
theorem wakes_readHome (s : State) (p off n : Nat) : Wakes s (s.readHome p off n) := by
  obtain ⟨d, h⟩ := s.noteRead_eq off n
  rw [State.readHome, h]
  exact (wakes_of_eq rfl rfl rfl rfl rfl rfl rfl rfl rfl : Wakes s (s.withDir d)).trans (wakes_touchL2 ..)

theorem keepsMemory_readHome (s : State) (p off n : Nat) : KeepsMemory s (s.readHome p off n) := by
  have hwakes := wakes_readHome s p off n
  refine ⟨(looks_readHome s p off n).mem, ?_, hwakes.blocks, hwakes.trap⟩
  obtain ⟨d, h⟩ := s.noteRead_eq off n
  rw [State.readHome, h]
  exact State.touchL2_poison ..

theorem wordAt_of_keepsMemory {s t : State} (h : KeepsMemory s t) (off n : Nat) : t.wordAt off n = s.wordAt off n := by
  simp only [State.wordAt, State.bytesAt, State.byteAt, h.1]

theorem poisoned_of_keepsMemory {s t : State} (h : KeepsMemory s t) (off n : Nat) : t.poisoned off n = s.poisoned off n := by
  simp only [State.poisoned, h.2.1]

/-! The constant cache (R192). -/

/-- The value that a constant load reads (R384). -/
def State.bankWord (s : State) (gr : Grid) (home : Nat → Nat) (size : Nat) (o : Int) : Nat :=
  if o < 0 ∨ (gr.hdr.csize : Int) < o + size then 0 else s.wordAt (home (o.toNat / 64) + o.toNat % 64) size

/-- The lines that the cache has taken since the load issued are the bank's. -/
def BankCached (s t : State) (core grid : Nat) (home : Nat → Nat) : Prop :=
  ∀ line, FMap.find (s.core core).cc (grid * 1024 + line) = none →
    ∀ x, (grid * 1024 + line, x) ∈ (t.core core).cc → x = BitVec.ofNat 512 (s.wordAt (home line) 64)

theorem bankCached_refl (s : State) (core grid : Nat) (home : Nat → Nat) : BankCached s s core grid home := by
  intro line hnone x hx
  exact absurd rfl ((FMap.find_none_iff (s.core core).cc _).1 hnone _ hx)

theorem BankCached.of_cc {s t u : State} {core grid : Nat} {home : Nat → Nat} (h : BankCached s t core grid home) (hcc : (u.core core).cc = (t.core core).cc) :
    BankCached s u core grid home := fun line hnone x hx => h line hnone x (hcc ▸ hx)

/-- A line that is put into the cache, whatever it displaces. -/
theorem mem_ccInsert {m : FMap (BitVec 512)} {pick key : Nat} {d : BitVec 512} {q : Nat × BitVec 512} (h : q ∈ ccInsert m pick key d) : q = (key, d) ∨ q ∈ m := by
  rcases FMap.mem_insert _ _ _ _ h with h | h
  · exact .inl h
  · right
    split at h
    · exact h
    · exact List.mem_of_mem_eraseIdx h

theorem BankCached.insert {s t : State} {core grid : Nat} {home : Nat → Nat} (h : BankCached s t core grid home) {line pick : Nat} :
    BankCached s (t.modCore core fun c => { c with cc := ccInsert c.cc pick (grid * 1024 + line) (BitVec.ofNat 512 (s.wordAt (home line) 64)) }) core grid home := by
  intro j hnone x hx
  rw [State.core_modCore, if_pos rfl] at hx
  rcases mem_ccInsert hx with heq | hx
  · obtain ⟨hkey, rfl⟩ := Prod.mk.inj heq
    rw [show j = line by omega]
  · exact h j hnone x hx

/-- Bytes of a cached run of `n` bytes. -/
theorem State.field_copy (s : State) (home : Nat) {i size n w : Nat} (hw : w = 8 * n) (h : i + size ≤ n) :
    field (BitVec.ofNat w (s.wordAt home n)).toNat (8 * i) (8 * size) = s.wordAt (home + i) size := by
  subst hw
  rw [BitVec.toNat_ofNat, Nat.mod_eq_of_lt (s.wordAt_lt home n), s.field_wordAt home h]

/-- A line of the bank that the load's cache did not hold when it issued is read at home, or from what another thread of the load has
brought into the cache since. -/
theorem constRead_of_line {s t : State} {core grid p line size o : Nat} {home : Nat → Nat} (hkeeps : KeepsMemory s t) (hcached : BankCached s t core grid home)
    (hnone : FMap.find (s.core core).cc (grid * 1024 + line) = none) (hclean : s.poisoned (home line) 64 = false) (hsize : 0 < size) (hin : o % 64 + size ≤ 64) :
    ∃ b u, t.constRead core grid p line (home line) o size = (some b, u) ∧ ofBytesLE b = s.wordAt (home line + o % 64) size ∧
      Serves t u ∧ KeepsMemory t u ∧ BankCached s u core grid home := by
  unfold State.constRead
  dsimp only
  split
  · next x hx =>
    refine ⟨_, t, rfl, ?_, Serves.refl t, keepsMemory_refl t, hcached⟩
    rw [hcached line hnone x (FMap.mem_of_find hx), ofBytesLE_bytesLE, s.field_copy (home line) rfl hin, Nat.mod_eq_of_lt (s.wordAt_lt _ _)]
  · rw [poisoned_of_keepsMemory hkeeps, State.poisoned_part hclean hsize hin, if_neg Bool.false_ne_true]
    have hread := keepsMemory_readHome t p (home line) 64
    have hwakes := wakes_readHome t p (home line) 64
    rw [poisoned_of_keepsMemory (keepsMemory_trans hkeeps hread), hclean, if_neg Bool.false_ne_true]
    generalize hu : (if ((t.readHome p (home line) 64).core core).cc.length < 1024 then t.readHome p (home line) 64 else _) = u
    have hcount : KeepsMemory (t.readHome p (home line) 64) u ∧ Serves (t.readHome p (home line) 64) u ∧ u.cores = (t.readHome p (home line) 64).cores := by
      subst hu
      split
      · exact ⟨keepsMemory_refl _, Serves.refl _, rfl⟩
      · exact ⟨⟨rfl, rfl, rfl, fun _ => rfl⟩, ⟨fun _ => rfl, rfl⟩, rfl⟩
    obtain ⟨hkeepsU, hservesU, hcores⟩ := hcount
    have hkeepsU := keepsMemory_trans hread hkeepsU
    have hcachedU : BankCached s u core grid home := hcached.of_cc (by rw [State.core_of_cores hcores, hwakes.cc])
    rw [wordAt_of_keepsMemory (keepsMemory_trans hkeeps hkeepsU)]
    exact ⟨_, _, rfl, wordAt_of_keepsMemory hkeeps .., ((serves_of_wakes hwakes).trans hservesU).trans (serves_of_eq rfl rfl),
      keepsMemory_trans hkeepsU (keepsMemory_modCore u core fun _ => rfl), hcachedU.insert⟩

/-! Threads of a constant load (R384). -/

/-- Where a thread's load goes, by the constant cache as the load issues. -/
def State.bankPlace (s : State) (core grid : Nat) (gr : Grid) (home : Nat → Nat) (size : Nat) (o : Int) : ConstReach :=
  if o < 0 ∨ (gr.hdr.csize : Int) < o + size then .outside
  else match FMap.find (s.core core).cc (grid * 1024 + o.toNat / 64) with
    | some d => .cached d
    | none => .place (o.toNat / 64) (.own (home (o.toNat / 64)))

/-- A line of the bank is in the constant cache as memory holds it, or at home without poison. -/
def BankLine (s : State) (c : Ctx) (grid : Nat) (gr : Grid) (home : Nat → Nat) (line : Nat) : Prop :=
  (∀ x, FMap.find (s.core (coreOf c.gid)).cc (grid * 1024 + line) = some x → x = BitVec.ofNat 512 (s.wordAt (home line) 64)) ∧
  (FMap.find (s.core (coreOf c.gid)).cc (grid * 1024 + line) = none →
    s.poisoned (home line) 64 = false ∧ ∃ pol, resolve (s.whoOf c.gid) (gr.hdr.cbank + line * 64) 1 s = (.ok (.own (home line), pol), s))

/-- A thread's offset is aligned, and inside the bank its line can be read. -/
def BankReads (s : State) (c : Ctx) (grid : Nat) (gr : Grid) (home : Nat → Nat) (size : Nat) (o : Int) : Prop :=
  o % size = 0 ∧ (¬ (o < 0 ∨ (gr.hdr.csize : Int) < o + size) → BankLine s c grid gr home (o.toNat / 64))

theorem constReach_of_reads {s : State} {c : Ctx} {grid size : Nat} {gr : Grid} {home : Nat → Nat} {o : Int} (h : BankReads s c grid gr home size o) :
    constReach c gr grid size o s = (.ok (s.bankPlace (coreOf c.gid) grid gr home size o), s) := by
  obtain ⟨halign, hinside⟩ := h
  unfold constReach State.bankPlace
  rw [if_neg (Classical.not_not.2 halign)]
  by_cases hout : o < 0 ∨ (gr.hdr.csize : Int) < o + size
  · rw [if_pos hout, if_pos hout]
  · rw [if_neg hout, if_neg hout]
    dsimp only
    obtain ⟨-, hnone⟩ := hinside hout
    cases hfind : FMap.find (s.core (coreOf c.gid)).cc (grid * 1024 + o.toNat / 64) with
    | some d => rfl
    | none =>
      obtain ⟨-, pol, hresolve⟩ := hnone hfind
      simp only [hresolve]

theorem constReachAll_of_reads {s : State} {c : Ctx} {grid size : Nat} {gr : Grid} {home : Nat → Nat} {off : Nat → Int} {l : List Access}
    (h : ∀ a ∈ l, BankReads s c grid gr home size (off a.t)) :
    constReachAll c gr grid size off l s = (.ok (l.map fun a => (a, s.bankPlace (coreOf c.gid) grid gr home size (off a.t))), s) := by
  induction l with
  | nil => rfl
  | cons a l ih =>
    rw [constReachAll, constReach_of_reads (h a List.mem_cons_self)]
    simp only [ih fun b hb => h b (List.mem_cons_of_mem _ hb), List.map_cons]

/-- What one access of a constant load leaves: the value in the threads that it serves. -/
structure BankGiven (s : State) (c : Ctx) (grid : Nat) (home : Nat → Nat) (m m' : MemAcc) (regs : Regs) : Prop where
  regs : m'.regs = regs
  bad : m'.bad = m.bad
  aborts : m'.aborts = m.aborts
  reqs : m'.reqs = m.reqs
  written : m'.written = m.written
  serves : Serves s m'.s
  memory : KeepsMemory s m'.s
  cached : BankCached s m'.s (coreOf c.gid) grid home

theorem cores_watchOf (s : State) (c : Ctx) (key : Nat) : (s.watchOf c key).cores = s.cores := by
  unfold State.watchOf
  split
  · rfl
  · exact State.modGroup_cores ..

theorem keepsMemory_watchOf (s : State) (c : Ctx) (key : Nat) : KeepsMemory s (s.watchOf c key) := by
  unfold State.watchOf
  split
  · exact keepsMemory_refl s
  · exact keepsMemory_of_eq (State.modGroup_ms ..) (State.modGroup_blocks ..) (State.modGroup_cores ..)

/-- An aligned access of 4 or 8 bytes lies in one line. -/
theorem mod_line_of_aligned {o : Int} {size : Nat} (hsize : size = 4 ∨ size = 8) (h : o % size = 0) : o.toNat % 64 + size ≤ 64 := by
  rcases hsize with rfl | rfl <;> omega

section

variable {s : State} {c : Ctx} {grid size : Nat} {gr : Grid} {home : Nat → Nat} {off : Nat → Int} {d : BitVec 8}

theorem constOne_of_reads {m : MemAcc} {a : Access} (hsize : size = 4 ∨ size = 8) (h : BankReads s c grid gr home size (off a.t)) (hserves : Serves s m.s)
    (hkeeps : KeepsMemory s m.s) (hcached : BankCached s m.s (coreOf c.gid) grid home) :
    BankGiven s c grid home m (constOne c gr grid size d off m (a, s.bankPlace (coreOf c.gid) grid gr home size (off a.t)))
      (writeTargets (fun r t => r.writeLoaded size false d t (s.bankWord gr home size (off a.t))) a.targets m.regs) := by
  obtain ⟨halign, hinside⟩ := h
  unfold State.bankPlace State.bankWord
  by_cases hout : off a.t < 0 ∨ (gr.hdr.csize : Int) < off a.t + size
  · rw [if_pos hout, if_pos hout]
    exact ⟨rfl, rfl, rfl, rfl, rfl, hserves, hkeeps, hcached⟩
  · rw [if_neg hout, if_neg hout]
    have hin := mod_line_of_aligned hsize halign
    obtain ⟨hhit, hmiss⟩ := hinside hout
    cases hfind : FMap.find (s.core (coreOf c.gid)).cc (grid * 1024 + (off a.t).toNat / 64) with
    | some x =>
      refine ⟨?_, rfl, rfl, rfl, rfl, hserves, hkeeps, hcached⟩
      simp only [constOne]
      rw [hhit x hfind, s.field_copy _ rfl hin]
    | none =>
      obtain ⟨hclean, -⟩ := hmiss hfind
      obtain ⟨b, u, hread, hvalue, hservesU, hkeepsU, hcachedU⟩ := constRead_of_line (p := m.s.partOf c.gid) hkeeps hcached hfind hclean (by omega) hin
      simp only [constOne, hread, hvalue]
      exact ⟨rfl, rfl, rfl, rfl, rfl, (hserves.trans hservesU).trans (serves_watchOf ..), keepsMemory_trans (keepsMemory_trans hkeeps hkeepsU) (keepsMemory_watchOf ..),
        hcachedU.of_cc (by rw [State.core_of_cores (cores_watchOf ..)])⟩

/-- Every thread of a constant load receives its value. -/
theorem constAll_of_reads (hsize : size = 4 ∨ size = 8) {l : List Access} (h : ∀ a ∈ l, BankReads s c grid gr home size (off a.t)) :
    ∀ m : MemAcc, Serves s m.s → KeepsMemory s m.s → BankCached s m.s (coreOf c.gid) grid home →
      BankGiven s c grid home m ((l.map fun a => (a, s.bankPlace (coreOf c.gid) grid gr home size (off a.t))).foldl (constOne c gr grid size d off) m)
        (l.foldl (fun r a => writeTargets (fun r t => r.writeLoaded size false d t (s.bankWord gr home size (off a.t))) a.targets r) m.regs) := by
  induction l with
  | nil => exact fun m hserves hkeeps hcached => ⟨rfl, rfl, rfl, rfl, rfl, hserves, hkeeps, hcached⟩
  | cons a l ih =>
    intro m hserves hkeeps hcached
    have hone := constOne_of_reads (d := d) hsize (h a List.mem_cons_self) hserves hkeeps hcached
    have hrest := ih (fun b hb => h b (List.mem_cons_of_mem _ hb)) _ hone.serves hone.memory hone.cached
    rw [hone.regs] at hrest
    exact ⟨hrest.regs, hrest.bad.trans hone.bad, hrest.aborts.trans hone.aborts, hrest.reqs.trans hone.reqs, hrest.written.trans hone.written, hrest.serves, hrest.memory,
      hrest.cached⟩

end

/-- Two folds agree where their steps agree on the members. -/
theorem foldl_congr_mem {α β : Type} {f g : α → β → α} {l : List β} (h : ∀ a, ∀ b ∈ l, f a b = g a b) (a : α) : l.foldl f a = l.foldl g a := by
  induction l generalizing a with
  | nil => rfl
  | cons b l ih =>
    rw [List.foldl_cons, List.foldl_cons, h a b List.mem_cons_self]
    exact ih (fun a x hx => h a x (List.mem_cons_of_mem _ hx)) _

/-- The accesses of an instruction without lanes in transactions give each executing thread the value of its source thread (R378, R383). -/
theorem plan_writes (c : Ctx) (u : Bool) (g : Regs → Nat → Nat → Regs) (v : Nat → Nat) (r : Regs) :
    (accessPlan c u 0#64).foldl (fun r a => writeTargets (fun r t => g r t (v a.t)) a.targets r) r =
      (threadsOf c.exec).foldl (fun r t => g r t (v (source c u t))) r := by
  cases u with
  | true =>
    by_cases hexec : c.exec = 0#64
    · rw [hexec, (threadsOf_eq_nil _).2 rfl, accessPlan, if_pos rfl, hexec, BitVec.zero_and, BitVec.zero_and, if_pos rfl, (threadsOf_eq_nil _).2 rfl]
      rfl
    · rw [accessPlan_uniform hexec]
      rfl
  | false =>
    rw [accessPlan_plain, List.foldl_map]
    refine foldl_congr_mem (fun r t ht => ?_) r
    exact writeTargets_bitOf _ ((mem_threadsOf _ t).1 ht).1 r

theorem mem_plan_source {c : Ctx} {u : Bool} {a : Access} (h : a ∈ accessPlan c u 0#64) : ∃ t, c.exec.getLsbD t = true ∧ a.t = source c u t := by
  cases u with
  | true =>
    by_cases hexec : c.exec = 0#64
    · rw [accessPlan, if_pos rfl, hexec, BitVec.zero_and, BitVec.zero_and, if_pos rfl, (threadsOf_eq_nil _).2 rfl] at h
      exact absurd h List.not_mem_nil
    · rw [accessPlan_uniform hexec, List.mem_singleton] at h
      exact ⟨lowest c.exec, ((mem_threadsOf _ _).1 (lowest_mem hexec)).2, by rw [h]; rfl⟩
  | false =>
    rw [accessPlan_plain, List.mem_map] at h
    obtain ⟨t, ht, rfl⟩ := h
    exact ⟨t, ((mem_threadsOf _ t).1 ht).2, rfl⟩

/-- Poison that is not posted holds no access (R213). -/
theorem containWait_of_off {s : State} {c : Ctx} (h : s.assistOn (s.partOf c.gid) 3 = false) (size : Nat) (l : List Reach) : containWait c size l s = none := by
  unfold containWait
  have hnone : l.findSome? (fun r => match r with
      | .own off _ => s.toPost (s.partOf c.gid) off size
      | _ => none) = none := by
    rw [List.findSome?_eq_none_iff]
    intro r _
    split
    · exact State.toPost_of_off h ..
    · rfl
  simp only
  split
  · rfl
  · next sec hsome =>
    exact absurd (hnone.symm.trans hsome) (by simp)

end Sys2Proof.Machine

namespace Sys2Proof.Proofs

open Sys2Proof.Machine Sys2Proof.Claims

/-- Settles O18: one thread after another, over a constant cache that holds lines of the bank. -/
theorem constantLoadResults : Obligations.ConstantLoadResults := by
  unfold Obligations.ConstantLoadResults
  intro s c u d b blk gr home hunhindered hblk hgr size o outside hd hb hwait halign hlines
  obtain ⟨⟨hctx, hfree, hassist⟩, htx⟩ := hunhindered
  have hsize : size = 4 ∨ size = 8 := by
    change (if etypeWide c.etype then 8 else 4) = 4 ∨ (if etypeWide c.etype then 8 else 4) = 8
    split <;> simp
  have hreads : ∀ a ∈ accessPlan c u 0#64, BankReads s c blk.grid gr home size (o a.t) := by
    intro a ha
    obtain ⟨t, ht, hsource⟩ := mem_plan_source ha
    rw [hsource]
    refine ⟨halign t ht, fun hin => ?_⟩
    have hline := hlines t ht hin
    refine ⟨fun x hx => ?_, fun hnone => ?_⟩
    · simp only [hx] at hline
      exact hline
    · simp only [hnone] at hline
      exact hline
  have hx : exec (.ldc u d b) s = execLdc u d b s := rfl
  simp only [execLdc] at hx
  rw [exec_of_issue hx hctx fun _ => rfl] 
  let plan := (accessPlan c u 0#64).map fun a => (a, s.bankPlace (coreOf c.gid) blk.grid gr home size (o a.t))
  obtain ⟨v, hcharge⟩ := chargeSectors_of_free hfree (constSectors o plan) fun s' =>
    memDone c (c.txLanes s') (.load d.toNat false) ((encode (.ldc u d b)).getD 0#32) (plan.foldl (constOne c gr blk.grid size d o) ⟨s', c.regs, [], [], [], []⟩)
  let m := plan.foldl (constOne c gr blk.grid size d o) ⟨s.withVfs v, c.regs, [], [], [], []⟩
  have hgiven : BankGiven s c blk.grid home _ m _ := constAll_of_reads (d := d) hsize hreads ⟨s.withVfs v, c.regs, [], [], [], []⟩ (serves_of_eq rfl rfl)
    (keepsMemory_withVfs s v) ((bankCached_refl s (coreOf c.gid) blk.grid home).of_cc rfl)
  have hbody : vConstLoad u ((encode (.ldc u d b)).getD 0#32) d b s c = Done.seq (m.settle c) { c with regs := m.regs } := by
    rw [vConstLoad]
    simp only [show (if etypeWide c.etype then 8 else 4) = size from rfl, hd, hb, hwait, Bool.and_self, Bool.not_true, Bool.false_eq_true, if_false, hblk, hgr]
    rw [show (fun t => c.constOff b size t) = o from rfl, constReachAll_of_reads hreads]
    simp only [containWait_of_off hassist, Option.getD_none]
    exact hcharge.trans (memDone_of_performed hgiven.bad hgiven.aborts hgiven.reqs ..)
  rw [hbody]
  have hserves := hgiven.serves.trans (serves_settle _ c)
  refine ⟨_, _, rfl, goesOn_retire hctx _ _ c.seed (hserves.keepsIssuer hctx) _,
    keepsMemory_trans (keepsMemory_trans hgiven.memory (keepsMemory_settle hgiven.written c)) (keepsMemory_retire ..), hserves.keepsOtherGroups_retire hctx _ c.seed _, ?_⟩
  rw [hgiven.regs, plan_writes c u (fun r t v => r.writeLoaded size false d t v) (fun t => s.bankWord gr home size (o t))]
  simp only [Regs.writeLoaded_eq_run _ hsize]
  exact received_runs ..

end Sys2Proof.Proofs
end

