-- ==== Sys2Proof/Proofs/AggregatedAtomic.lean ====
section
/-! SUPPORT. A vector agg whose threads all name one place (R390): its accesses become one, which adds the sum of their values. -/

namespace Sys2Proof.Machine

open Sys2Proof.Claims

/-! One access for all threads. -/

theorem Reach.same_self {R : Region} {p : Reach} {off : Nat} (h : inRegion R p = some off) : p.same p = true := by
  cases p with
  | own _ _ => simp [Reach.same]
  | pool _ => simp [Reach.same]
  | remote _ _ => cases R <;> simp [inRegion] at h
  | fault _ => cases R <;> simp [inRegion] at h

/-- Accesses of one address to one place go into the group of the first (R390). -/
theorem aggMerge_same {addr : Nat → Nat} {p : Reach} (hsame : p.same p = true) {t0 : Nat} (l : List Nat) (haddr : ∀ t ∈ l, addr t0 = addr t) (targets : BitVec 64) :
    (l.map fun t => ((⟨t, bitOf t, false⟩ : Access), p)).foldl (fun acc q => aggInsert addr q acc) [((⟨t0, targets, false⟩ : Access), p)] =
      [((⟨t0, l.foldl (fun m t => m ||| bitOf t) targets, false⟩ : Access), p)] := by
  induction l generalizing targets with
  | nil => rfl
  | cons t l ih =>
    have hone : aggInsert addr ((⟨t, bitOf t, false⟩ : Access), p) [((⟨t0, targets, false⟩ : Access), p)] = [((⟨t0, targets ||| bitOf t, false⟩ : Access), p)] := by
      simp [aggInsert, haddr t List.mem_cons_self, hsame]
    rw [List.map_cons, List.foldl_cons, hone, ih (fun u hu => haddr u (List.mem_cons_of_mem _ hu))]
    rfl

/-- The accesses of an agg at one place are one, for all executing threads. -/
theorem aggMerge_plan {c : Ctx} {addr : Nat → Nat} {p : Reach} (hsame : p.same p = true) (hexec : c.exec ≠ 0#64)
    (haddr : ∀ t, c.exec.getLsbD t = true → addr t = addr (lowest c.exec)) :
    ∃ t0, aggMerge addr ((accessPlan c false 0#64).map fun a => (a, p)) = [((⟨t0, c.exec, false⟩ : Access), p)] := by
  have haddr' : ∀ t ∈ threadsOf c.exec, addr t = addr (lowest c.exec) := fun t ht => haddr t ((mem_threadsOf _ t).1 ht).2
  have hmask := maskOf_threadsOf c.exec
  rw [accessPlan_plain, List.map_map]
  cases hts : threadsOf c.exec with
  | nil => exact absurd ((threadsOf_eq_nil _).1 hts) hexec
  | cons t0 l =>
    rw [hts] at haddr' hmask
    refine ⟨t0, ?_⟩
    have hall : ∀ t ∈ l, addr t0 = addr t := fun t ht => (haddr' t0 List.mem_cons_self).trans (haddr' t (List.mem_cons_of_mem _ ht)).symm
    have hfold : l.foldl (fun m t => m ||| bitOf t) (bitOf t0) = c.exec := by
      rw [← hmask, maskOf, List.foldl_cons, BitVec.zero_or]
      rfl
    have hmerge := aggMerge_same hsame l hall (bitOf t0)
    rw [hfold] at hmerge
    exact hmerge

/-! The access (R388). -/

theorem regionWritten_writeHome (s : State) (c : Ctx) (w : Option Nat) (p off : Nat) (b : List Byte) :
    RegionWritten s (s.writeHome w p off b) c .tiers (putBytes (regionMem s c .tiers) off b) := by
  have hwakes := wakes_writeHome s w p off b
  have hserves := serves_of_wakes hwakes
  refine ⟨hserves, ⟨fun k _ => by rw [hwakes.blocks], fun k _ => hwakes.trap k⟩, State.writeHome_mem .., fun R hR => ?_⟩
  cases R with
  | tiers => exact absurd rfl hR
  | scratch => simp only [regionMem, hserves.block, hwakes.blocks]
  | tile => simp only [regionMem, hserves.block, hwakes.blocks]
  | trap => exact hwakes.trap _

theorem regionWritten_dropSector (s : State) (c : Ctx) (core off : Nat) (R : Region) : RegionWritten s (s.dropSector core off) c R (regionMem s c R) :=
  regionWritten_of_keepsMemory (serves_of_eq rfl rfl : Serves s (s.dropSector core off)) (keepsMemory_modCore s core fun _ => rfl) R

/-- A place of a region that holds a value is of the tiers, or of the Pool. -/
theorem place_of_inRegion {R : Region} {p : Reach} {off : Nat} (h : inRegion R p = some off) :
    (∃ pol, p = .own off pol ∧ R = .tiers) ∨ ∃ l : PoolLoc, p = .pool l ∧ R = l.region ∧ off = l.offset := by
  cases p with
  | own o pol =>
    left
    cases R <;> simp [inRegion] at h
    exact ⟨pol, by rw [h], rfl⟩
  | pool l =>
    right
    refine ⟨l, rfl, ?_⟩
    cases R <;> cases l <;> simp [inRegion, PoolLoc.region, PoolLoc.offset] at h ⊢ <;> exact h.symm
  | remote _ _ => cases R <;> simp [inRegion] at h
  | fault _ => cases R <;> simp [inRegion] at h

/-- What the access of an atomic outside transactions leaves: the new value at its place, and each thread that it serves with its answer. -/
theorem atOne_of_value {c : Ctx} {e : AtEnv} {d : BitVec 8} {addr : Nat → Nat} {m : MemAcc} {t0 : Nat} {targets : BitVec 64} {p : Reach} {R : Region} {off : Nat}
    (hregion : inRegion R p = some off) (hvalue : (valueAt m.s c (atSize e.et) p).isSome = true) (hblock : ∀ l, p = .pool l → HasBlock m.s c) :
    let a : Access := ⟨t0, targets, false⟩
    let old := readMem (regionMem m.s c R) off (atSize e.et)
    let m' := atOne c e d addr m (a, p)
    m'.regs = writeTargets (fun r t => r.writeOld (atSize e.et) d t (e.answer a old t)) targets m.regs ∧
    (m'.bad = m.bad ∧ m'.aborts = m.aborts ∧ m'.reqs = m.reqs) ∧
    RegionWritten m.s m'.s c R (putBytes (regionMem m.s c R) off (bytesLE (atSize e.et) (e.result a old))) := by
  rcases place_of_inRegion hregion with ⟨pol, rfl, rfl⟩ | ⟨l, rfl, rfl, rfl⟩
  · have hclean : m.s.poisoned off (atSize e.et) = false := by
      refine Bool.eq_false_iff.2 fun hpoison => ?_
      simp [valueAt, hpoison] at hvalue
    have hold : m.s.wordAt off (atSize e.et) = readMem (regionMem m.s c .tiers) off (atSize e.et) := rfl
    simp only [atOne, Bool.false_eq_true, if_false, hclean, hold]
    refine ⟨trivial, ⟨trivial, trivial, trivial⟩, ?_⟩
    have hwrite := regionWritten_writeHome m.s c c.writer (m.s.partOf c.gid) off (bytesLE (atSize e.et) (e.result ⟨t0, targets, false⟩ (readMem (regionMem m.s c .tiers) off (atSize e.et))))
    have hdrop := regionWritten_dropSector (m.s.writeHome c.writer (m.s.partOf c.gid) off
      (bytesLE (atSize e.et) (e.result ⟨t0, targets, false⟩ (readMem (regionMem m.s c .tiers) off (atSize e.et))))) c (coreOf c.gid) off .tiers
    rw [hwrite.region] at hdrop
    exact hwrite.trans hdrop
  · have hclean : m.s.poolPoisoned (c.block m.s) l = false := by
      refine Bool.eq_false_iff.2 fun hpoison => ?_
      simp [valueAt, hpoison] at hvalue
    obtain ⟨b, hb⟩ := hblock l rfl
    simp only [atOne, Bool.false_eq_true, if_false, hclean, ofBytesLE_poolBytes]
    exact ⟨trivial, ⟨trivial, trivial, trivial⟩, regionWritten_poolWrite hb ..⟩

/-! The instruction. -/

theorem reachAll_of_place {s : State} {c : Ctx} {size : Nat} {k : AccKind} {addr : Nat → Nat} {p : Reach} {l : List Access}
    (h : ∀ a ∈ l, s.reach c a.t (addr a.t) size k = (.ok p, s)) : reachAll c size k addr l s = (.ok (l.map fun a => (a, p)), s) := by
  induction l with
  | nil => rfl
  | cons a l ih =>
    rw [reachAll, h a List.mem_cons_self]
    simp only [ih fun b hb => h b (List.mem_cons_of_mem _ hb), List.map_cons]

/-- An address that leads into the Pool belongs to a block. -/
theorem hasBlock_of_reach {s : State} {c : Ctx} {t a size : Nat} {k : AccKind} {l : PoolLoc} (h : s.reach c t a size k = (.ok (.pool l), s)) : HasBlock s c := by
  cases hblk : s.blockOf c.gid with
  | some b => exact hasBlock_of_blockOf hblk
  | none =>
    unfold State.reach at h
    rw [hblk] at h
    cases hg : FMap.find s.groups c.gid <;> simp [hg] at h

/-- What an agg of several threads computes with. -/
def aggEnv (c : Ctx) (d : BitVec 8) : AtEnv :=
  { op := .agg, et := c.etype, mode := c.regs.mode, shared := false, x := c.atX (atSize c.etype) d, nv := c.atNew (atSize c.etype) d, ds := fun _ => [] }

theorem aggEnv_result (c : Ctx) (d : BitVec 8) (a : Access) (old : Nat) :
    (aggEnv c d).result a old = (old + ((threadsOf a.targets).map (c.atX (atSize c.etype) d)).sum) % 2 ^ (8 * atSize c.etype) := by
  rw [List.sum_eq_foldl]
  exact Nat.add_mod_mod ..

theorem aggEnv_answer (c : Ctx) (d : BitVec 8) (a : Access) (old t : Nat) :
    (aggEnv c d).answer a old t =
      (old + (((threadsOf a.targets).filter (fun k => decide (k < t))).map (c.atX (atSize c.etype) d)).sum) % 2 ^ (8 * atSize c.etype) := by
  rw [List.sum_eq_foldl]
  rfl

/-- The old value goes to D as a load's would (R388). -/
theorem Regs.writeOld_eq_run (r : Regs) {size : Nat} (hsize : size = 4 ∨ size = 8) (d : BitVec 8) (t v : Nat) :
    r.writeOld size d t v = r.writeRunList t d 0 (loadedWords size false v) := by
  rcases hsize with rfl | rfl
  · exact Regs.write32_eq_run ..
  · exact Regs.write64_ofNat ..

/-- The state in which an atomic's accesses begin: its region of the recipe closes, and its group's demotion ends. -/
def State.atomicIssues (s : State) (c : Ctx) : State := if c.single then s else s.modGroup c.gid (fun g => (g.closeRegion 1).undemote)

theorem serves_atomicIssues (s : State) (c : Ctx) : Serves s (s.atomicIssues c) := by
  unfold State.atomicIssues
  split
  · exact Serves.refl s
  · refine serves_modGroup s c.gid fun g => ?_
    obtain ⟨fp, h⟩ := g.closeRegion_eq 1
    rw [h]
    unfold Group.undemote
    split <;> rfl

theorem keepsMemory_atomicIssues (s : State) (c : Ctx) : KeepsMemory s (s.atomicIssues c) := by
  unfold State.atomicIssues
  split
  · exact keepsMemory_refl s
  · exact keepsMemory_of_eq (State.modGroup_ms ..) (State.modGroup_blocks ..) (State.modGroup_cores ..)

theorem regionWritten_acquireDrop (s : State) (c : Ctx) (open_ : BitVec 64) (l : List Reached) (R : Region) :
    RegionWritten s (acquireDrop c open_ l s) c R (regionMem s c R) := by
  unfold acquireDrop
  dsimp only
  split
  · exact regionWritten_of_keepsMemory (serves_of_eq rfl rfl : Serves s (s.dropL1 (coreOf c.gid))) (keepsMemory_dropL1 ..) R
  · exact RegionWritten.refl s c R

theorem valueAt_of_keepsMemory {s t : State} {c : Ctx} (hkeeps : KeepsMemory s t) (hserves : Serves s t) (size : Nat) (p : Reach) :
    valueAt t c size p = valueAt s c size p := by
  have hblocks := hkeeps.2.2.1
  cases p with
  | own off pol => simp only [valueAt, poisoned_of_keepsMemory hkeeps, wordAt_of_keepsMemory hkeeps]
  | pool l =>
    rw [valueAt, valueAt, ofBytesLE_poolBytes, ofBytesLE_poolBytes, regionMem_of_keepsMemory hkeeps (hserves.block c), State.poolPoisoned, State.poolPoisoned,
      hserves.block, hblocks]
  | remote _ _ => rfl
  | fault _ => rfl

/-- An AT_AGG whose threads all name one place ends with one access for all of them. -/
theorem runAtomic_agg {s : State} {c : Ctx} {word : BitVec 32} {d a b : BitVec 8} {p : Reach} {R : Region} {off : Nat} (hfree : (s.bandwidth (s.vfOf c.gid)).en = false)
    (hassist : s.assistOn (s.partOf c.gid) 3 = false)
    (haddr : ∀ k, c.exec.getLsbD k = true → c.address a b (atSize c.etype) c.atDisp k = c.address a b (atSize c.etype) c.atDisp (lowest c.exec))
    (hreach : Reaches s c false (atSize c.etype) .atomic (c.address a b (atSize c.etype) c.atDisp) fun _ => p) (hregion : inRegion R p = some off) (hexec : c.exec ≠ 0#64) :
    ∃ v t0 l, ∀ m, atOne c (aggEnv c d) d (c.address a b (atSize c.etype) c.atDisp) ⟨(s.withVfs v).atomicIssues c, c.regs, [], [], [], []⟩ (⟨t0, c.exec, false⟩, p) = m →
      runAtomic false .agg word d a b 0#64 false s c =
        memDone c 0#64 (.atomic d.toNat AtOp.agg.code c.etype []) word { m with s := acquireDrop c 0#64 l m.s } := by
  obtain ⟨t0, hmerge⟩ := aggMerge_plan (p := p) (Reach.same_self hregion) hexec haddr
  have hall := reachAll_of_place (s := s) (c := c) (size := atSize c.etype) (k := .atomic) (addr := c.address a b (atSize c.etype) c.atDisp) (p := p)
    (l := accessPlan c false 0#64) fun x hx => by
      obtain ⟨t, ht, hsource⟩ := mem_plan_source hx
      rw [hsource]
      exact hreach t ht
  unfold runAtomic
  simp only [Bool.false_eq_true, if_false, hall, containWait_of_off hassist, Option.getD_none, and_self, if_true, hmerge]
  obtain ⟨v, hcharge⟩ := chargeSectors_of_free hfree _ _
  exact ⟨v, t0, _, fun m hm => by rw [hcharge, ← hm]; rfl⟩

end Sys2Proof.Machine

namespace Sys2Proof.Proofs

open Sys2Proof.Machine Sys2Proof.Claims

/-- Settles O21: the accesses merge into one, whose answer to a thread counts the threads below it. -/
theorem aggregatedAtomicResult : Obligations.AggregatedAtomicResult := by
  unfold Obligations.AggregatedAtomicResult
  intro s c d a b p R off hunhindered hab hscope hwait hlinks size w addr haddr hreach hregion hvalue hexec het hd hbusy x total old
  obtain ⟨⟨hctx, hfree, hassist⟩, htx⟩ := hunhindered
  have hsize : size = 4 ∨ size = 8 := by
    change (if etypeWide c.etype then 8 else 4) = 4 ∨ (if etypeWide c.etype then 8 else 4) = 8
    split <;> simp
  have hx : exec (.atAgg false d a b) s = execAtAgg false d a b s := rfl
  simp only [execAtAgg] at hx
  rw [exec_of_issue hx hctx fun _ => rfl]
  obtain ⟨g, hg⟩ := group_of_ctx hctx
  obtain ⟨hwritten, hflush⟩ := hlinks g hg
  have hbusy' : c.mustWait (touchesAcc (atRegs .agg size) d || touchesAcc 2 a || touchesAcc 1 b) = false := by
    rw [show atRegs .agg size = size / 4 from Nat.one_mul _]
    exact hbusy
  have hatomic : ∀ word, vAtomic false .agg word d a b s c = runAtomic false .agg word d a b 0#64 false s c := by
    intro word
    rw [vAtomic]
    simp only [htx, het, show atSize c.etype = size from rfl, hd, hab, hbusy', Bool.and_self, Bool.not_true, Bool.false_eq_true, if_false]
    rw [if_neg fun h => absurd h.1 (by omega)]
    split
    · exact withReleaseOf_of_links hg hwait hwritten hflush _ _
    · rfl
  obtain ⟨v, t0, l, hrun⟩ := runAtomic_agg (word := (encode (.atAgg false d a b)).getD 0#32) (d := d) hfree hassist haddr hreach hregion hexec
  let u := (s.withVfs v).atomicIssues c
  have hserves : Serves s u := (serves_of_eq rfl rfl : Serves s (s.withVfs v)).trans (serves_atomicIssues ..)
  have hkeeps : KeepsMemory s u := keepsMemory_trans (keepsMemory_withVfs s v) (keepsMemory_atomicIssues ..)
  have hblock : ∀ l, p = .pool l → HasBlock u c := by
    rintro l rfl
    obtain ⟨b, hb⟩ := hasBlock_of_reach (hreach (lowest c.exec) ((mem_threadsOf _ _).1 (lowest_mem hexec)).2)
    exact ⟨b, by rw [hserves.block, hkeeps.2.2.1, hb]⟩
  obtain ⟨hregs, ⟨hbad, haborts, hreqs⟩, hone⟩ := atOne_of_value (e := aggEnv c d) (d := d) (addr := addr) (m := ⟨u, c.regs, [], [], [], []⟩) (t0 := t0) (targets := c.exec) hregion
    (by rw [valueAt_of_keepsMemory hkeeps hserves]; exact hvalue) hblock
  rw [aggEnv_result, regionMem_of_keepsMemory hkeeps (hserves.block c)] at hone
  rw [regionMem_of_keepsMemory hkeeps (hserves.block c)] at hregs
  generalize hm : atOne c (aggEnv c d) d addr ⟨u, c.regs, [], [], [], []⟩ (⟨t0, c.exec, false⟩, p) = m at hregs hbad haborts hreqs hone
  let m' : MemAcc := { m with s := acquireDrop c 0#64 l m.s }
  have hend : runAtomic false .agg ((encode (.atAgg false d a b)).getD 0#32) d a b 0#64 false s c = Done.seq (m'.settle c) { c with regs := m.regs } := by
    exact (hrun m hm).trans (memDone_of_performed (m := m') hbad haborts hreqs ..)
  rw [hatomic, hend]
  have hbegin := regionWritten_of_keepsMemory (c := c) hserves hkeeps R
  have hdrop := regionWritten_acquireDrop m.s c 0#64 l R
  have hsettle := regionWritten_settle m' c R
  rw [hdrop.region, hone.region] at hsettle
  rw [hone.region] at hdrop
  have hwrittenR := ((hbegin.trans hone).trans hdrop).trans hsettle
  refine ⟨_, _, rfl, goesOn_retire hctx _ _ c.seed (hwrittenR.serves.keepsIssuer hctx) _, ?_, fun R' hR => ?_, ?_⟩
  · exact (hwrittenR.retire hctx m.regs c.seed _ R).trans hwrittenR.region
  · exact (hwrittenR.retire hctx m.regs c.seed _ R').trans (hwrittenR.rest R' hR)
  · rw [hregs]
    simp only [aggEnv_answer, writeTargets]
    change Received c.regs c.exec d _ ((threadsOf c.exec).foldl (fun r t => r.writeOld size d t _) c.regs)
    simp only [Regs.writeOld_eq_run _ hsize]
    exact received_runs ..

end Sys2Proof.Proofs
end

