-- ==== Sys2Proof/Proofs/CanonicalMemory.lean ====
section
/-! SUPPORT. Memory in its canonical form (log 5), and how the rules about it go together: for each function of the model one
rule says that what it makes of a state with canonical memory has canonical memory again. -/

namespace Sys2Proof.Machine

open Sys2Proof.Claims

/-- The memory of a state is canonical: addresses strictly rising, no byte listed that an unlisted address reads as. -/
def State.Canon (s : State) : Prop := Memory.wf s.ms.mem = true

/-- The state that an instruction's effect leaves. -/
def Done.state (d : Done) : State :=
  match d with
  | .retire s _ _ => s
  | .stay s _ _ => s
  | .fault s _ _ => s
  | .next s => s

/-- An outcome whose next state, where there is one, has canonical memory. -/
def CanonOutcome (o : Host.Outcome State Fault Refusal) : Prop := ∀ t, o = .next t → t.Canon

/-- The outcome of an event: it has a next state, whose memory is canonical where the state's was. -/
def Steps (s : State) (o : Host.Outcome State Fault Refusal) : Prop := ∃ t, o = .next t ∧ (s.Canon → t.Canon)

section

variable {s t : State}

theorem canon_of_mem (hmem : t.ms.mem = s.ms.mem) (h : s.Canon) : t.Canon := by
  rw [State.Canon, hmem]
  exact h

/-- The same where other fields are set, so that the equation holds by computation. -/
theorem canon_set (h : s.Canon) (hmem : t.ms.mem = s.ms.mem) : t.Canon := canon_of_mem hmem h

theorem canon_of_ms (hms : t.ms = s.ms) (h : s.Canon) : t.Canon := canon_of_mem (by rw [hms]) h

theorem canon_of_settled (hsettled : t.ms.settled = s.ms.settled) (h : s.Canon) : t.Canon := canon_of_mem (mem_of_settled hsettled) h

theorem canon_of_eq {α : Type} {p : α × State} {a : α} (hp : p = (a, t)) (h : p.2.Canon) : t.Canon := by
  rw [hp] at h
  exact h

theorem canon_ite {c : Prop} [Decidable c] (hs : s.Canon) (ht : t.Canon) : (if c then s else t).Canon := by
  split
  · exact hs
  · exact ht

theorem canon_ite_snd {α : Type} {c : Prop} [Decidable c] {p q : α × State} (hp : p.2.Canon) (hq : q.2.Canon) : (if c then p else q).2.Canon := by
  split
  · exact hp
  · exact hq

theorem canon_ite_done {c : Prop} [Decidable c] {d e : Done} (hd : d.state.Canon) (he : e.state.Canon) : (if c then d else e).state.Canon := by
  split
  · exact hd
  · exact he

/-- A look keeps what canonical memory there is. -/
theorem Looking.canon {α : Type} {f : State → α × State} (hf : Looking f) (h : s.Canon) : (f s).2.Canon := canon_of_mem (hf s).mem h

theorem canon_foldl {β : Type} {f : State → β → State} (hf : ∀ s x, s.Canon → (f s x).Canon) {l : List β} (h : s.Canon) : (l.foldl f s).Canon :=
  foldl_wf f hf l s h

theorem canon_foldl_snd {α β : Type} {f : α × State → β → α × State} (hf : ∀ r x, r.2.Canon → (f r x).2.Canon) {l : List β} {r : α × State} (h : r.2.Canon) :
    (l.foldl f r).2.Canon := by
  induction l generalizing r with
  | nil => exact h
  | cons x l ih => exact ih (hf r x h)

theorem canon_foldl_mem {β : Type} {f : MemAcc → β → MemAcc} (hf : ∀ r x, r.s.Canon → (f r x).s.Canon) {l : List β} {r : MemAcc} (h : r.s.Canon) :
    (l.foldl f r).s.Canon := by
  induction l generalizing r with
  | nil => exact h
  | cons x l ih => exact ih (hf r x h)

theorem canon_foldl_eng {β : Type} {f : EngAcc → β → EngAcc} (hf : ∀ r x, r.s.Canon → (f r x).s.Canon) {l : List β} {r : EngAcc} (h : r.s.Canon) :
    (l.foldl f r).s.Canon := by
  induction l generalizing r with
  | nil => exact h
  | cons x l ih => exact ih (hf r x h)

theorem steps_next (h : s.Canon → t.Canon) : Steps s (.next t) := ⟨t, rfl, h⟩

theorem steps_whenOn (h : s.Canon → t.Canon) : Steps s (s.whenOn t) := ⟨_, rfl, fun hs => canon_ite (h hs) hs⟩

/-- What an issue comes to has canonical memory where the instruction's effect has. -/
theorem steps_finish {c0 : Ctx} {word : BitVec 32} {d : Done} (hd : s.Canon → d.state.Canon) : Steps s (finish c0 word d) := by
  cases d with
  | retire t c npc => exact steps_next fun h => canon_of_ms (State.retire_ms ..) (hd h)
  | stay t c w => exact steps_next fun h => canon_of_ms (State.stay_ms ..) (hd h)
  | fault t c r => exact steps_next fun h => canon_of_settled (State.raise_settled ..) (hd h)
  | next t => exact steps_next hd

theorem canon_of_eq_acc {α : Type} {p : α × EngAcc} {a : α} {m : EngAcc} (hp : p = (a, m)) (h : p.2.s.Canon) : m.s.Canon := by
  rw [hp] at h
  exact h

theorem canon_of_eq_run {α β : Type} {p : α × β × EngAcc} {a : α} {b : β} {m : EngAcc} (hp : p = (a, b, m)) (h : p.2.2.s.Canon) : m.s.Canon := by
  rw [hp] at h
  exact h

/-! Translations and table reads look (R98 to R102). -/

theorem canon_freeBytes {n : Nat} (h : s.Canon) : (s.freeBytes n).2.Canon := (looking_freeBytes n).canon h

theorem canon_lookup2 {w : XWho} {ipa need : Nat} (h : s.Canon) : (lookup2 w ipa need s).2.Canon := (looking_lookup2 w ipa need).canon h

theorem canon_lookup1 {w : XWho} {va need : Nat} (h : s.Canon) : (lookup1 w va need s).2.Canon := (looking_lookup1 w va need).canon h

theorem canon_readTable2 {p vf pa : Nat} (h : s.Canon) : (readTable2 p vf pa s).2.Canon := (looking_readTable2 p vf pa).canon h

theorem canon_translate {w : XWho} {va need : Nat} (h : s.Canon) : (translate w va need s).2.Canon := (looking_translate w va need).canon h

theorem canon_resolve {w : XWho} {va need : Nat} (h : s.Canon) : (resolve w va need s).2.Canon := (looking_resolve w va need).canon h

theorem canon_resolveOnce {w : XWho} {va need : Nat} (h : s.Canon) : (resolveOnce w va need s).2.Canon := (looking_resolveOnce w va need).canon h

theorem canon_coreReach {gid va n need : Nat} (h : s.Canon) : (coreReach gid va n need s).2.Canon := (looking_coreReach gid va n need).canon h

theorem canon_coreRead {gid va n : Nat} (h : s.Canon) : (coreRead gid va n s).2.Canon := (looking_coreRead gid va n).canon h

theorem canon_entryRead {gid i : Nat} (h : s.Canon) : (entryRead gid i s).2.Canon := (looking_entryRead gid i).canon h

theorem canon_entryOf {α : Type} {parse : List Byte → Option α} {chain : Bool} {gid i : Nat} (h : s.Canon) : (entryOf parse chain gid i s).2.Canon :=
  (looking_entryOf parse chain gid i).canon h

theorem canon_tableOf {gid i : Nat} (h : s.Canon) : (tableOf gid i s).2.Canon := (looking_tableOf gid i).canon h

/-! The writes. -/

/-- Without power nothing is listed. -/
theorem canon_cold {power : Bool} : (s.cold power).Canon := State.wf_cold s power

theorem canon_writeHome {w : Option Nat} {p off : Nat} {b : List Byte} (h : s.Canon) : (s.writeHome w p off b).Canon := State.wf_writeHome _ _ _ _ _ h

theorem canon_pokeHyper {pa : Nat} {b : List Byte} (h : s.Canon) : (s.pokeHyper pa b).Canon := State.wf_pokeHyper _ _ _ h

theorem canon_wipe {lo n : Nat} (h : s.Canon) : (s.wipe lo n).Canon := State.wf_wipe _ _ _ h

theorem canon_storeWeir {off : Nat} {w : Weir} (h : s.Canon) : (s.storeWeir off w).Canon := State.wf_storeWeir _ _ _ h

theorem canon_storeWeirState {off v : Nat} (h : s.Canon) : (s.storeWeirState off v).Canon := State.wf_storeWeirState _ _ _ h

/-! The outcomes of an issue (R313). -/

theorem canonOutcome_next (h : t.Canon) : CanonOutcome (.next t) := fun u e => by
  cases e
  exact h

theorem canonOutcome_fault {f : Fault} : CanonOutcome (.fault f) := fun u e => by cases e

theorem Steps.canon {o : Host.Outcome State Fault Refusal} (hs : Steps s o) (h : s.Canon) : CanonOutcome o := by
  obtain ⟨t, rfl, ht⟩ := hs
  exact canonOutcome_next (ht h)

/-- An issued device instruction keeps canonical memory where its effect does. -/
theorem canon_issue {i : Instr} {single : Bool} {f : State → Ctx → Done} (hf : ∀ s c, s.Canon → (f s c).state.Canon) (h : s.Canon) :
    CanonOutcome (issue i single f s) := by
  unfold issue
  split
  · exact canonOutcome_fault
  · split
    · exact canonOutcome_next (canon_of_settled (State.raise_settled ..) h)
    · exact (steps_finish (hf s _)).canon h

/-- An issued host word likewise. -/
theorem canon_issueHart {f : Nat → State → State} (hf : ∀ k s, s.Canon → (f k s).Canon) (h : s.Canon) : CanonOutcome (issueHart f s) := by
  unfold issueHart
  split
  · exact canonOutcome_next (hf _ s h)
  · exact canonOutcome_fault

theorem canon_raiseIllegalWord {w : BitVec 32} (h : s.Canon) : CanonOutcome (raiseIllegalWord w s) := by
  unfold raiseIllegalWord
  split
  · exact canonOutcome_fault
  · exact canonOutcome_next (canon_of_settled (State.raise_settled ..) h)

end

end Sys2Proof.Machine
end

