-- ==== Sys2Proof/Proofs/CanonicalPackets.lean ====
section
/-! SUPPORT. Canonical memory (log 5) through the boot ROM, the host, time, paths and their ends, packets, and the hypervisor's assists. -/

namespace Sys2Proof.Machine

open Sys2Proof.Claims

theorem canon_setStatus {s : State} {st : Nat} (h : s.Canon) : (s.setStatus st).Canon := by
  unfold State.setStatus
  dsimp only
  exact canon_of_ms (State.send_ms ..) (canon_set h rfl)

theorem canon_romStep {s : State} (h : s.Canon) : s.romStep.Canon := by
  unfold State.romStep
  dsimp only
  exact canon_ite (canon_setStatus (canon_ite (canon_set h rfl) h)) (canon_setStatus (canon_set h rfl))

theorem canon_hostException {s : State} {k : Nat} {m : OutMsg} (h : s.Canon) : (s.hostException k m).Canon := by
  unfold State.hostException
  exact canon_of_ms (State.send_ms ..) (canon_of_ms (State.abortHart_ms ..) h)

theorem canon_accessFault {s : State} {hart : Option Nat} {pa : Nat} (h : s.Canon) : (s.accessFault hart pa).Canon := by
  unfold State.accessFault
  split
  · exact canon_hostException h
  · exact canon_of_ms (State.send_ms ..) h

theorem canon_hartNext {s : State} {k : Nat} (h : s.Canon) : (s.hartNext k).Canon := by
  unfold State.hartNext
  exact canon_of_ms (State.modHart_ms ..) h

theorem canon_readTime {s : State} {k : Nat} {w : BitVec 32} (h : s.Canon) : (s.readTime k w).Canon := by
  unfold State.readTime
  exact canon_hartNext (canon_of_ms (State.modHart_ms ..) h)

theorem canon_sendRemote {s : State} {vf kind pa size : Nat} {data : List Byte} {poison : Bool} (h : s.Canon) :
    (s.sendRemote vf kind pa size data poison).Canon := by
  unfold State.sendRemote
  exact canon_of_ms (State.send_ms ..) h

theorem canon_dropLine {s : State} {line : Nat} (h : s.Canon) : (s.dropLine line).Canon := by
  unfold State.dropLine
  exact canon_set h rfl

theorem canon_fetch {s : State} {c : Ctx} (h : s.Canon) : (s.fetch c).2.Canon := by
  unfold State.fetch
  dsimp only
  split
  · dsimp only
    exact canon_of_mem (looks_dropDenials ..).mem h
  · split
    · dsimp only
      exact canon_of_mem (looks_dropDenials ..).mem h
    · split
      next _ _ _ e3 =>
        have h1 := canon_of_eq e3 (canon_resolve h)
        dsimp only
        exact canon_of_mem (looks_dropDenials ..).mem h1
      next _ _ _ e3 => exact canon_of_eq e3 (canon_resolve h)
      next _ _ _ _ e4 =>
        have h1 := canon_of_eq e4 (canon_resolve h)
        split
        · exact h1
        · exact canon_ite_snd (canon_of_mem (looks_dropDenials ..).mem h1) (canon_of_mem (State.readHome_mem ..) h1)
      next _ _ _ _ e4 =>
        have h1 := canon_of_eq e4 (canon_resolve h)
        exact canon_ite_snd (canon_of_mem (looks_dropDenials ..).mem (canon_of_mem (looks_farRead ..).mem (canon_sendRemote h1)))
          (canon_ite_snd (canon_of_mem (looks_dropDenials ..).mem (canon_of_mem (looks_farRead ..).mem (canon_sendRemote h1)))
            (canon_of_mem (looks_farRead ..).mem (canon_sendRemote h1)))

theorem canon_postAssist {s : State} {p : Nat} {r : AssistReq} (h : s.Canon) : (s.postAssist p r).2.Canon := by
  unfold State.postAssist
  split
  · exact h
  · exact canon_of_ms (State.signalPf_ms ..)
      (canon_pokeHyper (canon_ite (canon_set (canon_of_ms (State.modPart_ms ..) h) rfl) (canon_of_ms (State.modPart_ms ..) h)))

theorem canon_waitNeed {s : State} {gid entry : Nat} {x : AssistNeed} (h : s.Canon) : (s.waitNeed gid entry x).2.Canon := by
  unfold State.waitNeed
  dsimp only
  split
  · exact h
  · dsimp only
    exact canon_postAssist h
  · exact h

theorem canon_holdCtx {s : State} {c : Ctx} {w : Wait} (h : s.Canon) : (s.holdCtx c w).Canon := by
  unfold State.holdCtx
  dsimp only
  exact canon_of_ms (State.putCtx_ms ..) h

theorem canon_noteTurn {s : State} {gid : Nat} (h : s.Canon) : (s.noteTurn gid).Canon := by
  unfold State.noteTurn
  dsimp only
  exact canon_set (canon_of_ms (State.modGroup_ms ..) h) rfl

theorem canon_startIssue {s : State} {hid : Nat} {w : Issuer} (h : s.Canon) : (s.startIssue hid w).Canon := by
  unfold State.startIssue
  dsimp only
  split
  · exact canon_noteTurn (canon_set h rfl)
  · exact canon_set h rfl

theorem canon_startScans {s : State} (h : s.Canon) : s.startScans.Canon := by
  unfold State.startScans
  exact canon_set h rfl

theorem canon_noteReady {s : State} (h : s.Canon) : s.noteReady.Canon := by
  unfold State.noteReady
  exact canon_set h rfl

theorem canon_advance {s : State} (h : s.Canon) : s.advance.Canon := by
  unfold State.advance
  dsimp only
  exact canon_set h rfl

theorem steps_PowerGood {s : State} : Steps s (execPowerGood s) := by
  unfold execPowerGood
  exact steps_next fun h => canon_ite h (canon_cold)

theorem steps_ImageOffer {bytes : List (BitVec 8)} {s : State} : Steps s (execImageOffer bytes s) := by
  unfold execImageOffer
  dsimp only
  exact steps_whenOn fun h => canon_ite (canon_of_ms (State.send_ms ..) h) (canon_ite h (canon_setStatus (canon_set h rfl)))

theorem steps_SelfTestComplete {linksOk : Bool} {passing : List Nat} {s : State} : Steps s (execSelfTestComplete linksOk passing s) := by
  unfold execSelfTestComplete
  dsimp only
  split
  · exact steps_next fun h => h
  · split
    · exact steps_next fun h => canon_setStatus h
    · exact steps_next fun h => canon_setStatus (canon_set h rfl)

theorem steps_RowRepairInService {row : RepairRow} {s : State} : Steps s (execRowRepairInService row s) := by
  unfold execRowRepairInService
  dsimp only
  exact steps_whenOn fun h => canon_ite (canon_of_ms (State.send_ms ..) h) (canon_ite h (canon_set h rfl))

theorem steps_L2WayFailure {slice : Nat} {s : State} : Steps s (execL2WayFailure slice s) := by
  unfold execL2WayFailure
  dsimp only
  split
  · exact steps_next fun h => h
  · split
    · exact steps_next fun h => canon_set h rfl
    · exact steps_next fun h => canon_foldl (fun _ _ h1 => canon_dropLine h1) (canon_set h rfl)

theorem steps_PowerCapExceeded {s : State} : Steps s (execPowerCapExceeded s) := by
  unfold execPowerCapExceeded
  dsimp only
  exact steps_whenOn fun h => canon_set h rfl

theorem steps_ThrottleStepDown {s : State} : Steps s (execThrottleStepDown s) := by
  unfold execThrottleStepDown
  dsimp only
  exact steps_whenOn fun h => canon_ite h (canon_set h rfl)

theorem steps_ThermalThrottle {s : State} : Steps s (execThermalThrottle s) := by
  unfold execThermalThrottle
  dsimp only
  exact steps_whenOn fun h => canon_set h rfl

theorem steps_ThermalRecover {s : State} : Steps s (execThermalRecover s) := by
  unfold execThermalRecover
  dsimp only
  exact steps_whenOn fun h => canon_set h rfl

theorem steps_ThermalShutdown {s : State} : Steps s (execThermalShutdown s) := by
  unfold execThermalShutdown
  exact steps_next fun h => canon_ite (canon_of_ms (State.send_ms ..) (canon_cold)) h

theorem canon_portsChanged {s0 s : State} (h : s.Canon) : (State.portsChanged s0 s).Canon := by
  unfold State.portsChanged
  dsimp only
  split
  · exact canon_of_ms (quiet_retryEngines ..).ms (canon_of_ms (quiet_releaseHeld ..).ms (canon_foldl (fun _ _ h => canon_of_ms (State.modPart_ms ..) h) h))
  · exact canon_foldl (fun _ _ h => canon_of_ms (State.modPart_ms ..) h) h

theorem steps_MillracePortFailure {port : Nat} {s : State} : Steps s (execMillracePortFailure port s) := by
  unfold execMillracePortFailure
  dsimp only
  split
  · exact steps_next fun h => h
  · exact steps_next fun h => canon_of_ms (quiet_resendMarkers ..).ms (canon_portsChanged (canon_set h rfl))

theorem canon_setWait {s : State} {gid e : Nat} {w : Wait} (h : s.Canon) : (s.setWait gid e w).Canon := by
  unfold State.setWait
  dsimp only
  split
  · exact canon_of_ms (State.putCtx_ms ..) h
  · exact h

theorem canon_reissueEntry {s : State} {gid e : Nat} (h : s.Canon) : (s.reissueEntry gid e).Canon := by
  unfold State.reissueEntry
  dsimp only
  split
  · exact canon_of_ms (State.putCtx_ms ..) h
  · exact h

theorem canon_flushOver {s : State} {gid : Nat} (h : s.Canon) : (s.flushOver gid).Canon := by
  unfold State.flushOver
  dsimp only
  split
  · exact canon_ite h
      (canon_ite (canon_of_ms (State.schedule_ms ..) (canon_foldl (fun _ _ h1 => canon_reissueEntry h1) h))
        (canon_foldl (fun _ _ h1 => canon_reissueEntry h1) h))
  · exact h

theorem canon_endMarkers {s : State} {gid : Nat} {done : Nat × Nat → Bool} (h : s.Canon) : (s.endMarkers gid done).Canon := by
  unfold State.endMarkers
  dsimp only
  exact canon_of_ms (State.modGroup_ms ..) h

theorem canon_timeoutFlush {s : State} {gid pkg : Nat} (h : s.Canon) : (s.timeoutFlush gid pkg).Canon := by
  unfold State.timeoutFlush
  dsimp only
  split
  · exact h
  · exact canon_ite h (canon_foldl (fun _ _ h1 => canon_setWait h1) (canon_flushOver (canon_endMarkers h)))

theorem canon_operationDone {s : State} {gid : Nat} (h : s.Canon) : (s.operationDone gid).Canon := by
  unfold State.operationDone
  split
  · exact h
  · exact canon_ite (canon_of_ms (State.schedule_ms ..) (canon_of_ms (State.queueTrap_ms ..) h)) h

theorem canon_faultEntry {s : State} {gid e : Nat} {word : BitVec 32} {r : Ctx → FaultReq} (h : s.Canon) : (s.faultEntry gid e word r).Canon := by
  unfold State.faultEntry
  split
  · exact h
  · exact canon_of_settled (State.raise_settled ..) h

theorem canon_setWeirWait {s : State} {o : WeirOp} {w : Wait} (h : s.Canon) : (s.setWeirWait o w).Canon := by
  unfold State.setWeirWait
  dsimp only
  exact canon_of_ms (State.modGroup_ms ..) h

theorem canon_weirFault {s : State} {o : WeirOp} {r : BitVec 64 → FaultReq} (h : s.Canon) : (s.weirFault o r).Canon := by
  unfold State.weirFault
  split
  · exact h
  · split
    · exact h
    · split
      · exact canon_ite (canon_faultEntry h) (canon_setWeirWait h)
      · exact h

theorem canon_dropRemote {s : State} {gid id : Nat} (h : s.Canon) : (s.dropRemote gid id).Canon := by
  unfold State.dropRemote
  dsimp only
  exact canon_of_ms (State.modGroup_ms ..) h

theorem canon_joinTrap {s : State} {c : Ctx} {m : BitVec 64} (h : s.Canon) : (s.joinTrap c m).Canon := by
  unfold State.joinTrap
  dsimp only
  exact canon_of_ms (State.modGroup_ms ..) (canon_of_ms (State.putCtx_ms ..) h)

theorem canon_endRemote {s : State} {c0 c : Ctx} {word : BitVec 32} {bad : List (Nat × XFault)} {aborts : List LaneAbort} (h : s.Canon) :
    (s.endRemote c0 c word bad aborts).Canon := by
  unfold State.endRemote
  dsimp only
  exact canon_operationDone
    (canon_ite (canon_of_ms (State.retire_ms ..) h)
      (canon_ite (canon_of_settled (State.abortLanes_settled ..) (canon_joinTrap h)) (canon_of_settled (State.raise_settled ..) h)))

theorem canon_timeoutOp {s : State} {gid pkg : Nat} {op : RemoteOp} (h : s.Canon) : (s.timeoutOp gid pkg op).Canon := by
  unfold State.timeoutOp
  dsimp only
  split
  · exact canon_operationDone (canon_weirFault (canon_dropRemote h))
  · exact canon_operationDone (canon_dropRemote h)
  · exact canon_endRemote (canon_dropRemote h)

theorem canon_endGridMarkers {s : State} {grid : Nat} {done : Nat × Nat → Bool} (h : s.Canon) : (s.endGridMarkers grid done).Canon := by
  unfold State.endGridMarkers
  dsimp only
  exact canon_of_ms (State.schedule_ms ..) (canon_of_ms (State.modGrid_ms ..) h)

theorem canon_endLockMarkers {s : State} {p : Nat} {done : Nat × Nat → Bool} (h : s.Canon) : (s.endLockMarkers p done).Canon := by
  unfold State.endLockMarkers
  exact canon_of_ms (State.schedule_ms ..) (canon_of_ms (State.modPart_ms ..) h)

theorem canon_endMoveMarkers {s : State} {move : Nat} {done : Nat × Nat → Bool} (h : s.Canon) : (s.endMoveMarkers move done).Canon := by
  unfold State.endMoveMarkers
  exact canon_of_ms (State.schedule_ms ..) (canon_set h rfl)

theorem canon_anyCommand {s : State} {id : Nat} {f : EngCmd → EngCmd} (h : s.Canon) : (s.anyCommand id f).Canon := by
  unfold State.anyCommand
  dsimp only
  exact canon_set h rfl

theorem canon_endEngineMarkers {s : State} {id : Nat} {done : Nat × Nat → Bool} (h : s.Canon) : (s.endEngineMarkers id done).Canon := by
  unfold State.endEngineMarkers
  dsimp only
  split
  · exact canon_of_ms (State.schedule_ms ..) (canon_anyCommand h)
  · exact canon_anyCommand h

theorem steps_MillracePathTimeout {pkg : Nat} {s : State} : Steps s (execMillracePathTimeout pkg s) := by
  unfold execMillracePathTimeout
  dsimp only
  exact steps_next fun h =>
    canon_of_ms (quiet_releaseHeld ..).ms
      (canon_foldl (fun _ _ h1 => canon_endEngineMarkers h1)
        (canon_foldl (fun _ _ h1 => canon_endMoveMarkers h1)
          (canon_foldl (fun _ _ h1 => canon_endLockMarkers h1)
            (canon_foldl (fun _ _ h1 => canon_endGridMarkers h1)
              (canon_foldl (fun _ _ h1 => canon_timeoutFlush (canon_foldl (fun _ _ h2 => canon_timeoutOp h2) h1)) h)))))

theorem canon_spoilPeer {s : State} {pa : Nat} (h : s.Canon) : (s.spoilPeer pa).Canon := by
  unfold State.spoilPeer
  dsimp only
  exact canon_set h rfl

theorem canon_withdrawFrom {s : State} {pkg id : Nat} (h : s.Canon) : (s.withdrawFrom pkg id).Canon := by
  unfold State.withdrawFrom
  dsimp only
  exact canon_set h rfl

theorem canon_registerList {s : State} {src commons weir : Nat} {acl : List Nat} (h : s.Canon) : (s.registerList src commons weir acl).Canon := by
  unfold State.registerList
  dsimp only
  exact canon_set h rfl

theorem canon_answerWeir {s : State} {o : WeirOp} {v : Nat} (h : s.Canon) : (s.answerWeir o v).Canon := by
  unfold State.answerWeir
  split
  · exact canon_of_ms (State.send_ms ..) h
  · exact canon_setWeirWait h

theorem canon_wakeWaiters {s : State} {key : Nat} (h : s.Canon) : (s.wakeWaiters key).Canon := by
  unfold State.wakeWaiters
  dsimp only
  split
  · exact h
  · exact canon_foldl (fun _ _ h1 => canon_answerWeir h1) (canon_set h rfl)

theorem canon_weirSignal {s : State} {key : Nat} {w : Weir} {o : WeirOp} (h : s.Canon) : (s.weirSignal key w o).Canon := by
  unfold State.weirSignal
  dsimp only
  exact canon_wakeWaiters (canon_answerWeir (canon_set h rfl))

theorem canon_weirPerform {s : State} {key : Nat} {w : Weir} {o : WeirOp} (h : s.Canon) : (s.weirPerform key w o).Canon := by
  unfold State.weirPerform
  split
  · exact canon_ite (canon_set h rfl) (canon_weirSignal h)
  · exact canon_ite (canon_answerWeir h) (canon_weirSignal h)
  · exact canon_ite (canon_answerWeir h) (canon_set h rfl)
  · exact canon_answerWeir h

theorem canon_weirAt {s : State} {key : Nat} {w : Weir} {o : WeirOp} (h : s.Canon) : (s.weirAt key w o).Canon := by
  unfold State.weirAt
  exact canon_ite (canon_weirPerform h) (canon_set h rfl)

theorem canon_noteDescriptor {s : State} {pa : Nat} (h : s.Canon) : (s.noteDescriptor pa).Canon := by
  unfold State.noteDescriptor
  split
  · exact canon_of_mem (State.noteRead_mem ..) h
  · exact h

theorem canon_weirArrives {s : State} {pa : Nat} {o : WeirOp} (h : s.Canon) : (s.weirArrives pa o).Canon := by
  unfold State.weirArrives
  split
  · exact h
  · split
    · exact canon_ite (canon_weirAt h) (canon_of_ms (State.send_ms ..) h)
    · exact canon_of_ms (State.send_ms ..) (canon_noteDescriptor h)

theorem canon_unitPacket {s : State} {src kind : Nat} {back : Sender} {pa : Nat} {bytes : List Byte} (h : s.Canon) :
    (s.unitPacket src kind back pa bytes).Canon := by
  unfold State.unitPacket
  dsimp only
  exact canon_ite (canon_spoilPeer (canon_dropLine (canon_set h rfl)))
    (canon_ite (canon_withdrawFrom h) (canon_ite (canon_registerList h) (canon_weirArrives h)))

theorem canon_answerPacket {s : State} {src : Nat} {back : Sender} {refused : Bool} {data : List Byte} {poison : Bool} (h : s.Canon) :
    (s.answerPacket src back refused data poison).Canon := by
  unfold State.answerPacket
  exact canon_of_ms (State.send_ms ..) h

theorem canon_holdEvent {s : State} {i : Instr} (h : s.Canon) : (s.holdEvent i).Canon := by
  unfold State.holdEvent
  dsimp only
  exact canon_ite h (canon_set h rfl)

theorem canon_postOrHold {s : State} {p : Nat} {r : AssistReq} {i : Instr} (h : s.Canon) : (s.postOrHold p r i).Canon := by
  unfold State.postOrHold
  dsimp only
  exact canon_ite (canon_postAssist h) (canon_holdEvent (canon_postAssist h))

theorem canon_servePacket {s : State} {src : Nat} {back : Sender} {kind p off : Nat} {bytes : List Byte} {poison : Bool} (h : s.Canon) :
    (s.servePacket src back kind p off bytes poison).Canon := by
  unfold State.servePacket
  dsimp only
  exact canon_ite
    (canon_answerPacket
      (canon_ite (canon_of_mem (State.touchL2_mem ..) (canon_of_mem (onlyReads_peerCopy ..).mem h)) (canon_of_mem (State.readHome_mem ..) h)))
    (canon_ite
      (canon_ite (canon_of_mem (mem_markPoison ..) (canon_of_mem (State.clearPoison_mem ..) (canon_writeHome h)))
        (canon_of_mem (State.clearPoison_mem ..) (canon_writeHome h)))
      (canon_ite (canon_ite h (canon_answerPacket h))
        (canon_ite (canon_ite (canon_of_mem (mem_markPoison ..) (canon_writeHome h)) (canon_writeHome h)) (canon_answerPacket (canon_writeHome h)))))

theorem steps_MillracePacketRx {vf gen ppid : Nat} {req : PeerRequest} {pa : Nat} {body : PacketBody} {s : State} :
    Steps s (execMillracePacketRx vf gen ppid req pa body s) := by
  unfold execMillracePacketRx
  dsimp only
  split
  · exact steps_next fun h => h
  · split
    · exact steps_next fun h => canon_ite (canon_unitPacket h) h
    · split
      · exact steps_next fun h => h
      · split
        · exact steps_next fun h => canon_unitPacket h
        · split
          · exact steps_next fun h => h
          · split
            · exact steps_next fun h => canon_answerPacket h
            · split
              · exact steps_next fun h => canon_postOrHold h
              · exact steps_next fun h => canon_servePacket h

theorem steps_FlushMarker {marker : Marker} {s : State} : Steps s (execFlushMarker marker s) := by
  unfold execFlushMarker
  exact steps_next fun h => canon_ite (canon_of_ms (State.send_ms ..) h) h

theorem canon_endUnitMarkers {s : State} {sender : Nat} {done : Nat × Nat → Bool} (h : s.Canon) : (s.endUnitMarkers sender done).Canon := by
  unfold State.endUnitMarkers
  dsimp only
  split
  · exact canon_endGridMarkers h
  · exact canon_endLockMarkers h
  · exact canon_endMoveMarkers h
  · exact canon_endEngineMarkers h

theorem steps_FlushAnswer {gid : Nat} {marker : Marker} {s : State} : Steps s (execFlushAnswer gid marker s) := by
  unfold execFlushAnswer
  dsimp only
  split
  · exact steps_next fun h => canon_endUnitMarkers h
  · split
    · exact steps_next fun h => h
    · exact steps_next fun h => canon_flushOver (canon_endMarkers h)

theorem canon_rodNext {s : State} {vf gen conn mode seq : Nat} (h : s.Canon) : (s.rodNext vf gen conn mode seq).Canon := by
  unfold State.rodNext
  dsimp only
  split
  · exact h
  · split
    · exact canon_of_ms (State.schedule_ms ..) (canon_of_ms (State.modVf_ms ..) h)
    · exact canon_of_ms (State.modVf_ms ..) h

theorem canon_unitRead {w : XWho} {va n : Nat} {s : State} (h : s.Canon) : (unitRead w va n s).2.Canon := by
  unfold unitRead
  dsimp only
  split
  next _ _ _ e3 => exact canon_of_eq e3 (canon_resolveOnce h)
  next _ _ _ _ e4 =>
    have h1 := canon_of_eq e4 (canon_resolveOnce h)
    split
    · exact h1
    · dsimp only
      exact canon_of_mem (State.readHome_mem ..) h1
  next _ _ _ _ e4 =>
    have h1 := canon_of_eq e4 (canon_resolveOnce h)
    dsimp only
    exact canon_of_mem (looks_farRead ..).mem (canon_sendRemote h1)

theorem canon_readPieces {w : XWho} {l : List (Nat × Nat)} {s : State} (h : s.Canon) : (readPieces w l s).2.Canon := by
  induction l generalizing s with
  | nil =>
    rw [readPieces]
    exact h
  | cons x l ih =>
    obtain ⟨p, q⟩ := x
    rw [readPieces]
    split
    next _ _ _ e3 => exact canon_of_eq e3 (canon_unitRead h)
    next _ _ _ _ e4 =>
      have h1 := canon_of_eq e4 (canon_unitRead h)
      split
      next _ _ _ e3 => exact canon_of_eq e3 (ih h1)
      next _ _ _ _ e4 => exact canon_of_eq e4 (ih h1)

theorem canon_unitReadRange {w : XWho} {va n : Nat} {s : State} (h : s.Canon) : (unitReadRange w va n s).2.Canon := by
  unfold unitReadRange
  exact canon_readPieces h

theorem canon_postNeed {s : State} {w : XWho} {x : AssistNeed} {kind gid entry : Nat} {i : Instr} (h : s.Canon) : (s.postNeed w x kind gid entry i).Canon := by
  unfold State.postNeed
  split
  · exact canon_postOrHold h
  · exact canon_holdEvent h

theorem canon_unitAssist {s : State} {w : XWho} {x : AssistNeed} {i : Instr} (h : s.Canon) : (s.unitAssist w x i).Canon := by
  unfold State.unitAssist
  exact canon_ite h (canon_postNeed h)

theorem canon_estuaryRead {s : State} {vf conn seq va n : Nat} {again : Instr} {rest : State → State} (hrest : ∀ s, s.Canon → (rest s).Canon) (h : s.Canon) :
    (s.estuaryRead vf conn seq va n again rest).Canon := by
  unfold State.estuaryRead
  dsimp only
  split
  · exact hrest _ (canon_of_ms (State.send_ms ..) h)
  · split
    next _ _ _ e3 => exact canon_unitAssist (canon_of_eq e3 (canon_unitReadRange h))
    next _ _ _ e3 => exact hrest _ (canon_of_ms (State.send_ms ..) (canon_of_eq e3 (canon_unitReadRange h)))
    next _ _ _ e3 => exact hrest _ (canon_of_ms (State.send_ms ..) (canon_of_eq e3 (canon_unitReadRange h)))
    next _ _ _ e3 => exact hrest _ (canon_of_ms (State.send_ms ..) (canon_of_eq e3 (canon_unitReadRange h)))

theorem canon_farRefuses {s : State} (h : s.Canon) : s.farRefuses.2.Canon := by
  unfold State.farRefuses
  dsimp only
  exact canon_of_ms (State.freeWord_ms ..) h

theorem canon_unitFar {s : State} {w : XWho} {kind pa n : Nat} {b : List Byte} {bad : Bool} (h : s.Canon) : (s.unitFar w kind pa n b bad).2.Canon := by
  unfold State.unitFar
  dsimp only
  exact canon_farRefuses (canon_sendRemote h)

theorem canon_writePieces {w : XWho} {bad : Bool} {l : List (Nat × Nat)} {b : List Byte} {s : State} (h : s.Canon) : (writePieces w bad l b s).2.Canon := by
  induction l generalizing b s with
  | nil =>
    rw [writePieces]
    exact h
  | cons x l ih =>
    obtain ⟨p, q⟩ := x
    rw [writePieces]
    dsimp only
    split
    next _ _ _ e3 => exact canon_of_eq e3 (canon_resolveOnce h)
    next _ _ _ _ e4 =>
      have h1 := canon_of_eq e4 (canon_resolveOnce h)
      exact ih
        (canon_ite
          (canon_foldl (fun _ _ h2 => canon_of_mem (State.setPoison_mem ..) h2) (canon_of_mem (State.clearPoison_mem ..) (canon_writeHome h1)))
          (canon_of_mem (State.clearPoison_mem ..) (canon_writeHome h1)))
    next _ _ _ _ e4 =>
      have h1 := canon_of_eq e4 (canon_resolveOnce h)
      split
      next _ _ _ e3 => exact canon_of_eq e3 (canon_unitFar h1)
      next _ _ _ e3 => exact ih (canon_of_eq e3 (canon_unitFar h1))

theorem canon_unitWriteRange {w : XWho} {va : Nat} {bad : Bool} {b : List Byte} {s : State} (h : s.Canon) : (unitWriteRange w va bad b s).2.Canon := by
  unfold unitWriteRange
  exact canon_writePieces h

theorem canon_countUp {s : State} {vf k status : Nat} (h : s.Canon) : (s.countUp vf k status).Canon := by
  unfold State.countUp
  dsimp only
  exact canon_of_ms (State.modVf_ms ..) h

theorem steps_EstuaryPacketRx {vf gen : Nat} {head : EstuaryHead} {va : Nat} {bytes : List (BitVec 8)} {counter : Option Nat} {s : State} :
    Steps s (execEstuaryPacketRx vf gen head va bytes counter s) := by
  unfold execEstuaryPacketRx
  dsimp only
  split
  · exact steps_next fun h => h
  · split
    · exact steps_next fun h => canon_of_ms (State.send_ms ..) h
    · split
      · exact steps_next fun h => h
      · split
        · exact steps_next fun h => canon_ite h (canon_of_ms (State.modVf_ms ..) h)
        · split
          · exact steps_next fun h => canon_estuaryRead (fun _ h1 => canon_rodNext h1) h
          · split
            · exact steps_next fun h => canon_rodNext (canon_of_ms (State.send_ms ..) h)
            · split
              next _ _ _ e3 =>
                refine steps_next fun h => ?_
                exact canon_unitAssist (canon_of_eq e3 (canon_unitWriteRange h))
              next _ _ _ e3 =>
                refine steps_next fun h => ?_
                exact canon_rodNext (canon_of_ms (State.send_ms ..) (canon_of_eq e3 (canon_unitWriteRange h)))
              next _ _ _ e3 =>
                refine steps_next fun h => ?_
                have h1 := canon_of_eq e3 (canon_unitWriteRange h)
                refine canon_rodNext ?_
                split
                · exact canon_countUp h1
                · exact h1

theorem steps_EstuaryRetxTimeout {conn vf port seq : Nat} {packet : RetxPacket} {nak : Bool} {s : State} :
    Steps s (execEstuaryRetxTimeout conn vf port seq packet nak s) := by
  unfold execEstuaryRetxTimeout
  dsimp only
  split
  · exact steps_next fun h => h
  · split
    · exact steps_next fun h => canon_postOrHold h
    · exact steps_next fun h => canon_of_ms (State.send_ms ..) h

theorem steps_EstuaryWorkComplete {id status : Nat} {bytes : List (BitVec 8)} {s : State} : Steps s (execEstuaryWorkComplete id status bytes s) := by
  unfold execEstuaryWorkComplete
  dsimp only
  split
  · exact steps_next fun h => h
  · split
    · split
      next _ _ _ e3 =>
        refine steps_next fun h => ?_
        exact canon_unitAssist (canon_of_eq e3 (canon_unitWriteRange h))
      next _ _ _ _ e4 =>
        refine steps_next fun h => ?_
        exact canon_countUp (canon_set (canon_of_eq e4 (canon_unitWriteRange h)) rfl)
      next _ _ _ e3 =>
        refine steps_next fun h => ?_
        exact canon_countUp (canon_set (canon_of_eq e3 (canon_unitWriteRange h)) rfl)
    · exact steps_next fun h => canon_countUp (canon_set h rfl)

theorem canon_dropMove {s : State} {i : Instr} (h : s.Canon) : (s.dropMove i).Canon := by
  unfold State.dropMove
  exact canon_ite (canon_of_ms (State.schedule_ms ..) (canon_set h rfl)) h

theorem canon_resumeAssist {s : State} {slot : Nat} {r : AssistReq} {dropped : Bool} (h : s.Canon) : (s.resumeAssist slot r dropped).Canon := by
  unfold State.resumeAssist
  split
  · exact canon_ite (canon_dropMove h) (canon_of_ms (State.schedule_ms ..) h)
  · split
    · exact canon_ite (canon_reissueEntry h) h
    · exact h

theorem canon_answerPlacement {s : State} {p die status word0 word1 word2 : Nat} (h : s.Canon) : (s.answerPlacement p die status word0 word1 word2).Canon := by
  unfold State.answerPlacement
  dsimp only
  refine canon_of_ms (State.schedule_ms ..) ?_
  split
  · exact h
  · split
    · exact canon_set h rfl
    · exact canon_set h rfl

theorem canon_answerRetx {s : State} {status : Nat} {r : AssistReq} (h : s.Canon) : (s.answerRetx status r).Canon := by
  unfold State.answerRetx
  dsimp only
  exact canon_ite (canon_foldl (fun _ _ h1 => canon_of_ms (State.schedule_ms ..) h1) h)
    (canon_ite
      (canon_of_ms (State.send_ms ..)
        (canon_ite
          (canon_of_ms (State.modPart_ms ..) (canon_of_ms (State.modVf_ms ..) (canon_foldl (fun _ _ h1 => canon_of_ms (State.schedule_ms ..) h1) h)))
          (canon_foldl (fun _ _ h1 => canon_of_ms (State.schedule_ms ..) h1) h))) (canon_of_ms (State.send_ms ..) h))

theorem canon_resetPart {s : State} {p : Nat} (h : s.Canon) : (s.resetPart p).Canon := by
  unfold State.resetPart
  exact canon_foldl (fun _ _ h1 => canon_of_ms (State.schedule_ms ..) h1) h

theorem canon_answerContain {s : State} {p status : Nat} {r : AssistReq} (h : s.Canon) : (s.answerContain p status r).Canon := by
  unfold State.answerContain
  dsimp only
  exact canon_ite (canon_of_ms (State.schedule_ms ..) (canon_set h rfl)) (canon_ite (canon_resetPart (canon_set h rfl)) (canon_set h rfl))

theorem canon_withdrawRemote {s : State} {gid : Nat} (h : s.Canon) : (s.withdrawRemote gid).Canon := by
  unfold State.withdrawRemote
  dsimp only
  split
  · exact h
  · refine canon_foldl ?_ (canon_of_ms (State.modGroup_ms ..) h)
    intro x1 x2 h1
    split
    · exact canon_ite
        (canon_setWeirWait
          (canon_of_ms (State.freeWord_ms ..)
            (canon_of_ms (State.freeWord_ms ..) (canon_foldl (fun _ _ h2 => canon_of_ms (State.send_ms ..) h2) h1))))
        (canon_of_ms (State.freeWord_ms ..) (canon_foldl (fun _ _ h2 => canon_of_ms (State.send_ms ..) h2) h1))
    · exact canon_of_ms (State.freeWord_ms ..) (canon_foldl (fun _ _ h2 => canon_of_ms (State.send_ms ..) h2) h1)

theorem canon_beginSwitch {s : State} {p incoming : Nat} (h : s.Canon) : (s.beginSwitch p incoming).Canon := by
  unfold State.beginSwitch
  dsimp only
  split
  · exact h
  · exact canon_foldl (fun _ _ h1 => canon_of_ms (State.schedule_ms ..) h1)
      (canon_of_ms (State.modPart_ms ..)
        (canon_foldl
          (fun _ _ h1 =>
            canon_of_ms (State.modGroup_ms ..)
              (canon_withdrawRemote (canon_of_ms (State.withdrawGroup_ms ..) (canon_of_settled (State.abortLanes_settled ..) h1)))) h))

theorem canon_answerSwitch {s : State} {p status word2 : Nat} (h : s.Canon) : (s.answerSwitch p status word2).Canon := by
  unfold State.answerSwitch
  dsimp only
  exact canon_ite (canon_beginSwitch h) h

theorem canon_applyAnswer {s : State} {p slot : Nat} {r : AssistReq} {b : List Byte} (h : s.Canon) : (s.applyAnswer p slot r b).Canon := by
  unfold State.applyAnswer
  dsimp only
  split
  · refine canon_resumeAssist ?_
    split
    · exact canon_of_mem (looks_keepRange ..).mem h
    · exact canon_set h rfl
  · exact canon_answerPlacement h
  · exact canon_answerRetx h
  · exact canon_resumeAssist (canon_answerContain h)
  · exact canon_answerSwitch h

theorem canon_hardwareAnswer {s : State} {p slot : Nat} {r : AssistReq} (h : s.Canon) : (s.hardwareAnswer p slot r).Canon := by
  unfold State.hardwareAnswer
  split
  · exact canon_answerPlacement h
  · exact canon_answerRetx h
  · exact canon_resumeAssist (canon_answerContain h)
  · exact h
  · exact canon_resumeAssist h

theorem canon_slotFreed {s : State} (h : s.Canon) : s.slotFreed.Canon := by
  unfold State.slotFreed
  dsimp only
  exact canon_foldl (fun _ _ h1 => canon_of_ms (State.schedule_ms ..) h1) (canon_of_ms (quiet_releaseHeld ..).ms h)

theorem steps_AssistDone {part slot : Nat} {s : State} : Steps s (execAssistDone part slot s) := by
  unfold execAssistDone
  dsimp only
  split
  · exact steps_next fun h => h
  · split
    · exact steps_next fun h => h
    · refine steps_next fun h => ?_
      refine canon_slotFreed ?_
      split
      · exact canon_applyAnswer (canon_of_ms (State.modPart_ms ..) h)
      · exact canon_hardwareAnswer (canon_of_ms (State.modPart_ms ..) h)

end Sys2Proof.Machine
end

