-- ==== Sys2Proof/Proofs/CanonicalQueues.lean ====
section
/-! SUPPORT. Canonical memory (log 5) through register writes, launch queues, host-service calls, completions, the configuration port and the weirs. -/

namespace Sys2Proof.Machine

open Sys2Proof.Claims

theorem canon_writeVfMsix {s : State} {vf o v : Nat} (h : s.Canon) : (s.writeVfMsix vf o v).Canon := by
  unfold State.writeVfMsix
  dsimp only
  exact canon_ite (canon_of_ms (State.msixMessage_ms ..) (canon_of_ms (State.setVf_ms ..) (canon_of_ms (State.modVf_ms ..) h)))
    (canon_of_ms (State.modVf_ms ..) h)

theorem canon_writeVfctl {s : State} {n v : Nat} (h : s.Canon) : (s.writeVfctl n v).Canon := by
  unfold State.writeVfctl
  dsimp only
  exact canon_ite (canon_of_ms (State.schedule_ms ..) h) (canon_of_ms (State.schedule_ms ..) (canon_ite (canon_of_ms (State.schedule_ms ..) h) h))

theorem canon_writeVfReg {s : State} {n r v : Nat} {low : Bool} (h : s.Canon) : (s.writeVfReg n r v low).Canon := by
  unfold State.writeVfReg
  exact canon_ite h
    (canon_ite (canon_writeVfMsix h)
      (canon_ite (canon_ite (canon_of_ms (State.schedule_ms ..) h) h)
        (canon_ite (canon_of_ms (State.modVf_ms ..) h)
          (canon_ite (canon_ite (canon_writeVfctl h) h)
            (canon_ite (canon_of_ms (State.modVf_ms ..) h)
              (canon_ite (canon_of_ms (State.modVf_ms ..) h)
                (canon_ite (canon_ite (canon_of_ms (State.schedule_ms ..) h) h)
                  (canon_ite (canon_of_ms (State.modVf_ms ..) h)
                    (canon_ite (canon_ite (canon_of_ms (State.schedule_ms ..) h) h) (canon_ite (canon_of_ms (State.modVf_ms ..) h) h))))))))))

theorem canon_fillBuckets {s : State} {vf : Nat} (h : s.Canon) : (s.fillBuckets vf).Canon := by
  unfold State.fillBuckets
  dsimp only
  exact canon_set h rfl

theorem canon_clipReservoirs {s : State} {p : Nat} (h : s.Canon) : (s.clipReservoirs p).Canon := by
  unfold State.clipReservoirs
  dsimp only
  exact canon_set h rfl

theorem canon_writeBandwidth {s : State} {p o v : Nat} (h : s.Canon) : (s.writeBandwidth p o v).Canon := by
  unfold State.writeBandwidth
  dsimp only
  refine canon_clipReservoirs ?_
  split
  · split
    · split
      · exact canon_fillBuckets (canon_of_ms (State.modPart_ms ..) h)
      · exact canon_of_ms (State.modPart_ms ..) h
    · exact canon_of_ms (State.modPart_ms ..) h
  · split
    · split
      · exact canon_fillBuckets (canon_of_ms (State.modPart_ms ..) h)
      · exact canon_of_ms (State.modPart_ms ..) h
    · exact canon_of_ms (State.modPart_ms ..) h

theorem canon_knowPoison {s : State} {p : Nat} (h : s.Canon) : (s.knowPoison p).Canon := by
  unfold State.knowPoison
  dsimp only
  exact canon_set h rfl

theorem canon_writeFunctions {s : State} {p v : Nat} (h : s.Canon) : (s.writeFunctions p v).Canon := by
  unfold State.writeFunctions
  exact canon_of_ms (State.modPart_ms ..) (canon_ite (canon_knowPoison h) h)

theorem canon_finishCfg {s : State} {code result : Nat} (h : s.Canon) : (s.finishCfg code result).Canon := by
  unfold State.finishCfg
  dsimp only
  exact canon_set h rfl

theorem canon_writeCfgcmd {s : State} {v : Nat} (h : s.Canon) : (s.writeCfgcmd v).Canon := by
  unfold State.writeCfgcmd
  dsimp only
  split
  · exact h
  · split
    · exact canon_of_ms (State.schedule_ms ..) (canon_set h rfl)
    · exact canon_finishCfg h

theorem canon_writePartReg {s : State} {p r v : Nat} {low : Bool} (h : s.Canon) : (s.writePartReg p r v low).Canon := by
  unfold State.writePartReg
  dsimp only
  exact canon_ite (canon_writeBandwidth h)
    (canon_ite (canon_of_ms (State.schedule_ms ..) h)
      (canon_ite (canon_of_ms (State.schedule_ms ..) h)
        (canon_ite (canon_of_ms (State.schedule_ms ..) h)
          (canon_ite (canon_of_ms (State.schedule_ms ..) h)
            (canon_ite (canon_writeFunctions h)
              (canon_ite (canon_ite (canon_of_ms (State.schedule_ms ..) h) h)
                (canon_ite (canon_ite (canon_of_ms (State.schedule_ms ..) h) h)
                  (canon_ite (canon_ite (canon_of_ms (State.schedule_ms ..) h) h)
                    (canon_ite (canon_ite h (canon_set h rfl))
                      (canon_ite (canon_ite h (canon_set h rfl))
                        (canon_ite (canon_ite (canon_writeCfgcmd h) h) (canon_of_ms (State.modPart_ms ..) h))))))))))))

theorem canon_writePfMsix {s : State} {o v : Nat} (h : s.Canon) : (s.writePfMsix o v).Canon := by
  unfold State.writePfMsix
  dsimp only
  exact canon_ite (canon_of_ms (State.msixMessage_ms ..) (canon_set h rfl)) (canon_set h rfl)

theorem canon_coresChanged {s : State} {cl : Nat} (h : s.Canon) : (s.coresChanged cl).Canon := by
  unfold State.coresChanged
  exact canon_foldl (fun _ _ h1 => canon_of_ms (quiet_wakePlacement ..).ms (canon_of_ms (quiet_settlePointers ..).ms h1)) h

theorem canon_writeMapWord {s : State} {cl word : Nat} (h : s.Canon) : (s.writeMapWord cl word).Canon := by
  unfold State.writeMapWord
  dsimp only
  exact canon_coresChanged (canon_set h rfl)

theorem canon_setStripes {s : State} {tier : Bool} {t : List (Nat × Nat)} (h : s.Canon) : (s.setStripes tier t).Canon := by
  unfold State.setStripes
  dsimp only
  exact canon_ite (canon_set h rfl) (canon_set h rfl)

theorem canon_retireStripe {s : State} {tier : Bool} {k : Nat} (h : s.Canon) : (s.retireStripe tier k).Canon := by
  unfold State.retireStripe
  dsimp only
  exact canon_setStripes (canon_ite (canon_wipe h) h)

theorem canon_writeStripes {s : State} {tier : Bool} {k size v : Nat} (h : s.Canon) : (s.writeStripes tier k size v).Canon := by
  unfold State.writeStripes
  exact canon_foldl (fun _ _ h1 => canon_ite (canon_retireStripe h1) h1) h

theorem canon_writePkgReg {s : State} {r size v word : Nat} (h : s.Canon) : (s.writePkgReg r size v word).Canon := by
  unfold State.writePkgReg
  exact canon_ite (canon_writeMapWord h) (canon_ite (canon_writeStripes h) (canon_ite (canon_writeStripes h) h))

theorem canon_openConn {s : State} {vf handle port gen : Nat} (h : s.Canon) : (s.openConn vf handle port gen).Canon := by
  unfold State.openConn
  dsimp only
  exact canon_ite (canon_of_ms (State.modPart_ms ..) (canon_of_ms (State.modVf_ms ..) h)) h

theorem canon_writeMgmt {s : State} {r v : Nat} (h : s.Canon) : (s.writeMgmt r v).Canon := by
  unfold State.writeMgmt
  dsimp only
  exact canon_ite (canon_ite (canon_of_ms (State.modVf_ms ..) h) h)
    (canon_ite (canon_ite (canon_set h rfl) h)
      (canon_ite (canon_set h rfl)
        (canon_ite (canon_ite h (canon_set h rfl))
          (canon_ite (canon_openConn h) (canon_ite (canon_of_ms (State.modPart_ms ..) h) (canon_ite (canon_portsChanged (canon_set h rfl)) h))))))

theorem steps_RegisterWrite {agent off size : Nat} {val : BitVec 64} {s : State} : Steps s (execRegisterWrite agent off size val s) := by
  unfold execRegisterWrite
  dsimp only
  split
  · exact steps_next fun h => h
  · split
    · exact steps_next fun h => canon_ite (canon_accessFault h) h
    · split
      · exact steps_next fun h => h
      · split
        · exact steps_next fun h => canon_ite (canon_writeVfReg h) h
        · exact steps_next fun h => canon_ite (canon_writePartReg h) h
        · split
          · exact steps_next fun h => canon_ite (canon_writePfMsix h) h
          · exact steps_next fun h => canon_ite (canon_ite (canon_writePkgReg h) (canon_writePkgReg h)) h
        · exact steps_next fun h => canon_writeMgmt h
        · exact steps_next fun h => h

theorem canon_stopQueue {s : State} {vf err detail : Nat} {msix : Bool} (h : s.Canon) : (s.stopQueue vf err detail msix).Canon := by
  unfold State.stopQueue
  dsimp only
  exact canon_ite h
    (canon_ite (canon_of_ms (State.signalMsix_ms ..) (canon_of_ms (State.schedule_ms ..) (canon_of_ms (State.setVf_ms ..) h)))
      (canon_of_ms (State.schedule_ms ..) (canon_of_ms (State.setVf_ms ..) h)))

theorem steps_LqtailWrite {vf : Nat} {val : BitVec 64} {s : State} : Steps s (execLqtailWrite vf val s) := by
  unfold execLqtailWrite
  dsimp only
  split
  · exact steps_next fun h => h
  · split
    · split
      · exact steps_next fun h => canon_of_ms (State.schedule_ms ..) (canon_of_ms (State.schedule_ms ..) (canon_of_ms (State.setVf_ms ..) h))
      · exact steps_next fun h => canon_stopQueue h
    · split
      · exact steps_next fun h => canon_of_ms (State.schedule_ms ..) (canon_of_ms (State.schedule_ms ..) (canon_of_ms (State.setVf_ms ..) h))
      · exact steps_next fun h => canon_stopQueue h

theorem steps_VfctlEn {vf : Nat} {en : Bool} {s : State} : Steps s (execVfctlEn vf en s) := by
  unfold execVfctlEn
  dsimp only
  split
  · exact steps_next fun h => h
  · split
    · split
      · exact steps_next fun h => canon_stopQueue (canon_of_ms (State.setVf_ms ..) h)
      · exact steps_next fun h => canon_of_ms (State.schedule_ms ..) (canon_of_ms (State.schedule_ms ..) (canon_of_ms (State.setVf_ms ..) h))
    · exact steps_next fun h => canon_of_ms (State.schedule_ms ..) (canon_of_ms (State.setVf_ms ..) h)

theorem steps_Qreset {vf : Nat} {s : State} : Steps s (execQreset vf s) := by
  unfold execQreset
  dsimp only
  split
  · exact steps_next fun h => canon_of_ms (State.schedule_ms ..) (canon_of_ms (State.setVf_ms ..) h)
  · exact steps_next fun h => h

theorem canon_resetLinks {s : State} {vf : Nat} (h : s.Canon) : (s.resetLinks vf).Canon := by
  unfold State.resetLinks
  dsimp only
  exact canon_set (canon_foldl (fun _ _ h1 => canon_of_ms (State.send_ms ..) h1) (canon_of_ms (State.setVf_ms ..) (canon_of_ms (State.modPart_ms ..) h))) rfl

theorem canon_endColl {s : State} {c : Collective} {status : Nat} (h : s.Canon) : (s.endColl c status).Canon := by
  unfold State.endColl
  exact canon_countUp (canon_set h rfl)

theorem canon_resetPeers {s : State} {vf : Nat} (h : s.Canon) : (s.resetPeers vf).Canon := by
  unfold State.resetPeers
  dsimp only
  exact canon_set (canon_foldl (fun _ _ h1 => canon_endColl h1) h) rfl

theorem canon_removeCommand {s : State} {core id : Nat} (h : s.Canon) : (s.removeCommand core id).Canon := by
  unfold State.removeCommand
  dsimp only
  refine canon_of_ms (State.modCore_ms ..) ?_
  split
  · exact canon_foldl (fun _ _ h1 => canon_of_ms (State.modGroup_ms ..) h1) h
  · exact h

theorem canon_releaseSavedLock {s : State} {p vf : Nat} {test : Nat → Bool} (h : s.Canon) : (s.releaseSavedLock p vf test).Canon := by
  unfold State.releaseSavedLock
  split
  · exact canon_ite (canon_of_ms (State.releaseLockAfter_ms ..) h) h
  · exact h

theorem canon_resetGroups {s : State} {vf : Nat} (h : s.Canon) : (s.resetGroups vf).Canon := by
  unfold State.resetGroups
  dsimp only
  exact canon_foldl (fun _ _ h1 => canon_of_settled (State.haltGroup_settled ..) (canon_withdrawRemote h1))
    (canon_releaseSavedLock (canon_foldl (fun _ _ h1 => canon_foldl (fun _ _ h2 => canon_removeCommand h2) h1) h))

theorem canon_resetGrids {s : State} {vf : Nat} (h : s.Canon) : (s.resetGrids vf).Canon := by
  unfold State.resetGrids
  dsimp only
  exact canon_set h rfl

theorem canon_resetQueue {s : State} {vf : Nat} (h : s.Canon) : (s.resetQueue vf).Canon := by
  unfold State.resetQueue
  exact canon_of_ms (State.modVf_ms ..) h

theorem steps_Vreset {vf : Nat} {s : State} : Steps s (execVreset vf s) := by
  unfold execVreset
  dsimp only
  split
  · exact steps_next fun h => h
  · exact steps_next fun h =>
      canon_of_ms (State.schedule_ms ..)
        (canon_foldl (fun _ _ h1 => canon_of_ms (State.schedule_ms ..) h1)
          (canon_resetLinks (canon_resetPeers (canon_resetGroups (canon_resetGrids (canon_resetQueue h))))))

theorem steps_HsdoneWrite {vf slot : Nat} {s : State} : Steps s (execHsdoneWrite vf slot s) := by
  unfold execHsdoneWrite
  split
  · exact steps_next fun h => h
  · split
    · exact steps_next fun h => canon_of_ms (State.schedule_ms ..) (canon_of_ms (State.modVf_ms ..) h)
    · exact steps_next fun h => h

theorem canon_unitReadWords {w : XWho} {va n : Nat} {s : State} (h : s.Canon) : (unitReadWords w va n s).2.Canon := by
  induction n generalizing va s with
  | zero =>
    rw [unitReadWords]
    exact h
  | succ n ih =>
    rw [unitReadWords]
    split
    next _ _ _ e3 => exact canon_of_eq e3 (canon_unitRead h)
    next _ _ _ _ e4 =>
      have h1 := canon_of_eq e4 (canon_unitRead h)
      split
      next _ _ _ e3 => exact canon_of_eq e3 (ih h1)
      next _ _ _ _ e4 => exact canon_of_eq e4 (ih h1)

theorem canon_seq {s : State} {c : Ctx} (h : s.Canon) : (Done.seq s c).state.Canon := h

theorem canon_acquire {s : State} {core scope : Nat} (h : s.Canon) : (s.acquire core scope).Canon := by
  unfold State.acquire
  exact canon_ite (canon_of_ms (State.dropL1_ms ..) h) h

theorem canon_callFinish {vf slot : Nat} {d a : BitVec 8} {s : State} {c : Ctx} (h : s.Canon) : (callFinish vf slot d a s c).state.Canon := by
  unfold callFinish
  dsimp only
  split
  next _ _ _ e3 =>
    have h1 := canon_of_eq e3 (canon_unitReadWords h)
    dsimp only [Done.state]
    exact canon_unitAssist h1
  next _ _ _ e3 => exact canon_seq (canon_acquire (canon_of_ms (State.modVf_ms ..) (canon_of_eq e3 (canon_unitReadWords h))))
  next _ _ _ _ e4 =>
    have h1 := canon_of_eq e4 (canon_unitReadWords h)
    exact canon_ite_done (canon_seq (canon_acquire (canon_of_ms (State.modVf_ms ..) h1)))
      (canon_ite_done (canon_seq (canon_acquire (canon_of_ms (State.modVf_ms ..) h1)))
        (canon_seq (canon_acquire (canon_of_ms (State.modVf_ms ..) h1))))

theorem steps_HcallResume {vf slot : Nat} {s : State} : Steps s (execHcallResume vf slot s) := by
  unfold execHcallResume
  split
  · exact steps_next fun h => h
  · split
    · exact steps_next fun h => canon_of_ms (State.modVf_ms ..) h
    · split
      · split
        · exact steps_finish canon_callFinish
        · exact steps_next fun h => h
      · exact steps_next fun h => h

theorem steps_RecordStart {vf : Nat} {s : State} : Steps s (execRecordStart vf s) := by
  unfold execRecordStart
  dsimp only
  split
  · exact steps_next fun h => h
  · split
    next _ _ _ e3 =>
      refine steps_next fun h => ?_
      exact canon_unitAssist (canon_of_eq e3 (canon_unitReadWords h))
    next _ _ _ e3 =>
      refine steps_next fun h => ?_
      exact canon_stopQueue (canon_of_eq e3 (canon_unitReadWords h))
    next _ _ _ _ e4 =>
      split
      · refine steps_next fun h => ?_
        exact canon_stopQueue (canon_of_eq e4 (canon_unitReadWords h))
      · split
        · refine steps_next fun h => ?_
          exact canon_stopQueue (canon_of_eq e4 (canon_unitReadWords h))
        · refine steps_next fun h => ?_
          exact canon_of_ms (State.schedule_ms ..) (canon_of_ms (State.modVf_ms ..) (canon_of_eq e4 (canon_unitReadWords h)))

theorem canon_advanceHead {s : State} {vf : Nat} (h : s.Canon) : (s.advanceHead vf).Canon := by
  unfold State.advanceHead
  exact canon_of_ms (State.schedule_ms ..) (canon_of_ms (State.schedule_ms ..) (canon_of_ms (State.modVf_ms ..) h))

theorem canon_startGrid {s : State} {vf : Nat} {ring : Bool} {r : LaunchRec} {k : LaunchHdr} (h : s.Canon) : (s.startGrid vf ring r k).Canon := by
  unfold State.startGrid
  dsimp only
  exact canon_of_ms (State.schedule_ms ..) (canon_set h rfl)

theorem steps_RecordWaitSatisfied {vf : Nat} {s : State} : Steps s (execRecordWaitSatisfied vf s) := by
  unfold execRecordWaitSatisfied
  split
  · exact steps_next fun h => h
  · split
    · exact steps_next fun h => h
    · split
      · exact steps_next fun h => canon_advanceHead h
      · split
        next _ _ _ e3 =>
          refine steps_next fun h => ?_
          exact canon_unitAssist (canon_of_eq e3 (canon_unitReadWords h))
        next _ _ _ e3 =>
          refine steps_next fun h => ?_
          exact canon_stopQueue (canon_of_eq e3 (canon_unitReadWords h))
        next _ _ _ _ e4 =>
          split
          · refine steps_next fun h => ?_
            exact canon_stopQueue (canon_of_eq e4 (canon_unitReadWords h))
          · split
            · refine steps_next fun h => ?_
              exact canon_stopQueue (canon_of_eq e4 (canon_unitReadWords h))
            · refine steps_next fun h => ?_
              exact canon_advanceHead (canon_startGrid (canon_of_eq e4 (canon_unitReadWords h)))

theorem canon_readWobj {w : XWho} {va : Nat} {s : State} (h : s.Canon) : (readWobj w va s).2.Canon := by
  unfold readWobj
  dsimp only
  split
  next _ _ _ e3 => exact canon_of_eq e3 (canon_resolveOnce h)
  next _ _ _ e3 => exact canon_of_eq e3 (canon_resolveOnce h)
  next _ _ _ _ e4 =>
    have h1 := canon_of_eq e4 (canon_resolveOnce h)
    split
    · exact h1
    · exact canon_ite_snd h1 (canon_of_mem (State.noteRead_mem ..) h1)
  next _ _ _ _ e4 =>
    have h1 := canon_of_eq e4 (canon_resolveOnce h)
    dsimp only
    exact canon_of_mem (looks_farRead ..).mem (canon_sendRemote h1)

theorem steps_WobjReread {vf : Nat} {s : State} : Steps s (execWobjReread vf s) := by
  unfold execWobjReread
  split
  · exact steps_next fun h => h
  · split
    · exact steps_next fun h => h
    · split
      next _ _ _ e3 =>
        refine steps_next fun h => ?_
        exact canon_stopQueue (canon_of_eq e3 (canon_readWobj h))
      next _ _ _ e3 =>
        refine steps_next fun h => ?_
        exact canon_unitAssist (canon_of_eq e3 (canon_readWobj h))
      next _ _ _ _ e4 =>
        split
        · refine steps_next fun h => ?_
          exact canon_of_ms (State.schedule_ms ..) (canon_of_ms (State.modVf_ms ..) (canon_of_eq e4 (canon_readWobj h)))
        · refine steps_next fun h => ?_
          exact canon_of_ms (State.modVf_ms ..) (canon_of_eq e4 (canon_readWobj h))

theorem canon_popDlq {s : State} {vf : Nat} (h : s.Canon) : (s.popDlq vf).Canon := by
  unfold State.popDlq
  exact canon_of_ms (State.schedule_ms ..) (canon_of_ms (State.schedule_ms ..) (canon_of_ms (State.modVf_ms ..) h))

theorem canon_startDlq {s : State} {vf : Nat} {r : PendingRec} (h : s.Canon) : (s.startDlq vf r).Canon := by
  unfold State.startDlq
  split
  · exact canon_popDlq (canon_startGrid h)
  · exact canon_popDlq h

theorem canon_unitWrite {w : XWho} {va : Nat} {b : List Byte} {s : State} (h : s.Canon) : (unitWrite w va b s).2.Canon := by
  unfold unitWrite
  split
  next _ _ _ e3 => exact canon_of_eq e3 (canon_resolveOnce h)
  next _ _ _ _ e4 =>
    have h1 := canon_of_eq e4 (canon_resolveOnce h)
    dsimp only
    exact canon_of_mem (State.clearPoison_mem ..) (canon_writeHome h1)
  next _ _ _ _ e4 => exact canon_unitFar (canon_of_eq e4 (canon_resolveOnce h))

theorem canon_failDlqRecord {s : State} {vf : Nat} {r : PendingRec} {code tick : Nat} (h : s.Canon) : (s.failDlqRecord vf r code tick).2.Canon := by
  unfold State.failDlqRecord
  exact canon_ite_snd (canon_unitWrite h) h

theorem canon_failDlq {s : State} {vf : Nat} {r : PendingRec} (h : s.Canon) : (s.failDlq vf r).Canon := by
  unfold State.failDlq
  dsimp only
  exact canon_of_ms (State.signalMsix_ms ..) (canon_ite (canon_of_ms (State.signalMsix_ms ..) h) h)

theorem canon_dropDlqHead {s : State} {vf : Nat} {r : PendingRec} {code tick : Nat} (h : s.Canon) : (s.dropDlqHead vf r code tick).Canon := by
  unfold State.dropDlqHead
  split
  next _ _ _ e3 => exact canon_unitAssist (canon_of_ms (State.modVf_ms ..) (canon_of_eq e3 (canon_failDlqRecord h)))
  next _ _ _ _ e4 => exact canon_popDlq (canon_failDlq (canon_of_eq e4 (canon_failDlqRecord h)))

theorem steps_DlqRecordStart {vf : Nat} {s : State} : Steps s (execDlqRecordStart vf s) := by
  unfold execDlqRecordStart
  split
  · exact steps_next fun h => h
  · split
    · exact steps_next fun h => canon_startDlq h
    · split
      · exact steps_next fun h => canon_dropDlqHead h
      · split
        next _ _ _ e3 =>
          refine steps_next fun h => ?_
          exact canon_dropDlqHead (canon_of_eq e3 (canon_readWobj h))
        next _ _ _ e3 =>
          refine steps_next fun h => ?_
          exact canon_unitAssist (canon_of_eq e3 (canon_readWobj h))
        next _ _ _ _ e4 =>
          split
          · refine steps_next fun h => ?_
            exact canon_startDlq (canon_of_eq e4 (canon_readWobj h))
          · refine steps_next fun h => ?_
            exact canon_of_ms (State.modVf_ms ..) (canon_of_eq e4 (canon_readWobj h))

theorem canon_haltGrid {s : State} {grid : Nat} (h : s.Canon) : (s.haltGrid grid).Canon := by
  unfold State.haltGrid
  dsimp only
  exact canon_of_ms (quiet_wakePlacement ..).ms
    (canon_of_ms (State.schedule_ms ..)
      (canon_foldl (fun _ _ h1 => canon_of_settled (State.haltGroup_settled ..) h1) (canon_set (canon_of_ms (State.modGrid_ms ..) h) rfl)))

theorem steps_ContextErrorReport {grid status detail core slot pc : Nat} {s : State} : Steps s (execContextErrorReport grid status detail core slot pc s) := by
  unfold execContextErrorReport
  dsimp only
  split
  · exact steps_next fun h => h
  · split
    · exact steps_next fun h => h
    · exact steps_next fun h => canon_haltGrid (canon_ite (canon_stopQueue (canon_of_ms (State.modGrid_ms ..) h)) (canon_of_ms (State.modGrid_ms ..) h))

theorem canon_flushGrid {s : State} {grid : Nat} {g : Grid} (h : s.Canon) : (s.flushGrid grid g).Canon := by
  unfold State.flushGrid
  dsimp only
  exact canon_of_ms (State.modGrid_ms ..) (canon_of_ms (ms_sendMarkers ..) h)

theorem canon_writeCompletion {s : State} {w : XWho} {g : Grid} (h : s.Canon) : (s.writeCompletion w g).2.Canon := by
  unfold State.writeCompletion
  exact canon_ite_snd h (canon_unitWrite h)

theorem canon_endGrid {s : State} {grid : Nat} {g : Grid} {failed : Bool} (h : s.Canon) : (s.endGrid grid g failed).Canon := by
  unfold State.endGrid
  dsimp only
  exact canon_ite
    (canon_of_ms (State.schedule_ms ..)
      (canon_of_ms (State.schedule_ms ..)
        (canon_set
          (canon_ite
            (canon_of_ms (State.signalMsix_ms ..)
              (canon_ite (canon_of_ms (State.signalMsix_ms ..) (canon_ite (canon_of_ms (State.signalMsix_ms ..) h) h))
                (canon_ite (canon_of_ms (State.signalMsix_ms ..) h) h)))
            (canon_ite (canon_of_ms (State.signalMsix_ms ..) (canon_ite (canon_of_ms (State.signalMsix_ms ..) h) h))
              (canon_ite (canon_of_ms (State.signalMsix_ms ..) h) h))) rfl)))
    (canon_of_ms (State.schedule_ms ..)
      (canon_set
        (canon_ite
          (canon_of_ms (State.signalMsix_ms ..)
            (canon_ite (canon_of_ms (State.signalMsix_ms ..) (canon_ite (canon_of_ms (State.signalMsix_ms ..) h) h))
              (canon_ite (canon_of_ms (State.signalMsix_ms ..) h) h)))
          (canon_ite (canon_of_ms (State.signalMsix_ms ..) (canon_ite (canon_of_ms (State.signalMsix_ms ..) h) h))
            (canon_ite (canon_of_ms (State.signalMsix_ms ..) h) h))) rfl))

theorem canon_unitSignal {w : XWho} {va inc : Nat} {s : State} (h : s.Canon) : (unitSignal w va inc s).2.Canon := by
  unfold unitSignal
  split
  next _ _ _ e3 => exact canon_of_eq e3 (canon_resolveOnce h)
  next _ _ _ _ e4 =>
    have h1 := canon_of_eq e4 (canon_resolveOnce h)
    split
    · exact h1
    · exact canon_ite_snd h1 (canon_writeHome h1)
  next _ _ _ _ e4 =>
    have h1 := canon_of_eq e4 (canon_resolveOnce h)
    split
    next _ _ _ e3 => exact canon_of_eq e3 (canon_unitFar h1)
    next _ _ _ e3 => exact canon_of_eq e3 (canon_unitFar h1)

theorem canon_signalCompletion {s : State} {w : XWho} {g : Grid} (h : s.Canon) : (s.signalCompletion w g).2.Canon := by
  unfold State.signalCompletion
  exact canon_ite_snd (canon_unitSignal h) h

theorem steps_GridCompletion {grid : Nat} {s : State} : Steps s (execGridCompletion grid s) := by
  unfold execGridCompletion
  dsimp only
  split
  · exact steps_next fun h => h
  · split
    · exact steps_next fun h => canon_ite (canon_of_ms (State.schedule_ms ..) (canon_of_ms (State.modGrid_ms ..) h)) h
    · split
      · exact steps_next fun h => canon_flushGrid h
      · split
        · exact steps_next fun h => h
        · split
          · split
            next _ _ _ e3 =>
              refine steps_next fun h => ?_
              exact canon_unitAssist (canon_of_eq e3 (canon_writeCompletion h))
            next _ _ _ _ e4 =>
              refine steps_next fun h => ?_
              exact canon_of_ms (State.schedule_ms ..) (canon_of_ms (State.modGrid_ms ..) (canon_of_eq e4 (canon_writeCompletion h)))
            next _ _ _ e3 =>
              refine steps_next fun h => ?_
              exact canon_of_ms (State.schedule_ms ..) (canon_of_ms (State.modGrid_ms ..) (canon_of_eq e3 (canon_writeCompletion h)))
          · split
            · exact steps_next fun h => canon_endGrid h
            · split
              next _ _ _ e3 =>
                refine steps_next fun h => ?_
                exact canon_unitAssist (canon_of_eq e3 (canon_signalCompletion h))
              next _ _ _ _ e4 =>
                refine steps_next fun h => ?_
                exact canon_endGrid (canon_of_eq e4 (canon_signalCompletion h))
              next _ _ _ e3 =>
                refine steps_next fun h => ?_
                exact canon_endGrid (canon_of_eq e3 (canon_signalCompletion h))

theorem canon_refuse {s : State} {p off reason : Nat} (h : s.Canon) : (s.refuse p off reason).Canon := by
  unfold State.refuse
  exact canon_of_ms (State.modPart_ms ..) h

theorem steps_PclusWrite {part : Nat} {val : BitVec 64} {s : State} : Steps s (execPclusWrite part val s) := by
  unfold execPclusWrite
  dsimp only
  split
  · exact steps_next fun h => canon_refuse h
  · split
    · exact steps_next fun h => canon_refuse h
    · split
      · exact steps_next fun h => canon_refuse h
      · exact steps_next fun h =>
          canon_of_ms (State.schedule_ms ..)
            (canon_of_ms (quiet_wakePlacement ..).ms (canon_of_ms (quiet_settlePointers ..).ms (canon_of_ms (State.modPart_ms ..) h)))

theorem canon_reclaim {s : State} {p : Nat} (h : s.Canon) : (s.reclaim p).Canon := by
  unfold State.reclaim
  dsimp only
  exact canon_foldl (fun _ _ h1 => canon_dropLine h1) (canon_set h rfl)

theorem steps_L2qWrite {part : Nat} {val : BitVec 64} {s : State} : Steps s (execL2qWrite part val s) := by
  unfold execL2qWrite
  dsimp only
  split
  · exact steps_next fun h => canon_refuse h
  · split
    · exact steps_next fun h => canon_refuse h
    · exact steps_next fun h => canon_reclaim (canon_of_ms (State.modPart_ms ..) h)

theorem steps_MrportsWrite {part : Nat} {val : BitVec 64} {s : State} : Steps s (execMrportsWrite part val s) := by
  unfold execMrportsWrite
  dsimp only
  split
  · exact steps_next fun h => canon_refuse h
  · exact steps_next fun h => canon_portsChanged (canon_of_ms (State.modPart_ms ..) h)

theorem steps_EstpWrite {part : Nat} {val : BitVec 64} {s : State} : Steps s (execEstpWrite part val s) := by
  unfold execEstpWrite
  dsimp only
  split
  · exact steps_next fun h => canon_refuse h
  · exact steps_next fun h => canon_of_ms (State.modPart_ms ..) h

theorem steps_WtinvWrite {part : Nat} {s : State} : Steps s (execWtinvWrite part s) := by
  unfold execWtinvWrite
  exact steps_next fun h => canon_set h rfl

theorem canon_modStage {s : State} {stage2 : Bool} {n : Nat} {f : Stage → Stage} (h : s.Canon) : (s.modStage stage2 n f).Canon := by
  unfold State.modStage
  exact canon_ite (canon_of_ms (State.modPart_ms ..) h) (canon_of_ms (State.modVf_ms ..) h)

theorem steps_StageInvalidate {stage2 : Bool} {n : Nat} {s : State} : Steps s (execStageInvalidate stage2 n s) := by
  unfold execStageInvalidate
  split
  · exact steps_next fun h => h
  · exact steps_next fun h => canon_of_ms (State.schedule_ms ..) (canon_modStage h)

theorem canon_releaseTrapped {s : State} {gid : Nat} {g : Group} (h : s.Canon) : (s.releaseTrapped gid g).Canon := by
  unfold State.releaseTrapped
  dsimp only
  exact canon_of_ms (State.modGroup_ms ..) (canon_of_ms (ms_sendMarkers ..) h)

theorem canon_flushCommand {s : State} {vf : Nat} {q : EngCmd} (h : s.Canon) : (s.flushCommand vf q).Canon := by
  unfold State.flushCommand
  dsimp only
  exact canon_anyCommand (canon_of_ms (ms_sendMarkers ..) h)

theorem canon_flushStage {s : State} {stage2 : Bool} {n : Nat} (h : s.Canon) : (s.flushStage stage2 n).Canon := by
  unfold State.flushStage
  dsimp only
  exact canon_foldl (fun _ _ h1 => canon_ite h1 (canon_flushCommand h1))
    (canon_foldl (fun _ _ h1 => canon_ite h1 (canon_flushGrid h1)) (canon_foldl (fun _ _ h1 => canon_ite h1 (canon_releaseTrapped h1)) h))

theorem canon_dropRanges {s : State} {test : CachedRange → Bool} (h : s.Canon) : (s.dropRanges test).Canon := by
  unfold State.dropRanges
  dsimp only
  exact canon_set h rfl

theorem steps_InvalidationDone {stage2 : Bool} {n : Nat} {s : State} : Steps s (execInvalidationDone stage2 n s) := by
  unfold execInvalidationDone
  dsimp only
  split
  · exact steps_next fun h => canon_flushStage h
  · split
    · exact steps_next fun h => canon_modStage (canon_dropRanges h)
    · exact steps_next fun h => h

theorem steps_Setstripe {s : State} : Steps s (execSetstripe s) := by
  unfold execSetstripe
  dsimp only
  split
  · exact steps_next fun h => h
  · split
    · split
      · exact steps_next fun h => canon_finishCfg h
      · split
        · exact steps_next fun h => canon_finishCfg h
        · split
          · exact steps_next fun h => canon_finishCfg (canon_setStripes h)
          · exact steps_next fun h => canon_of_ms (State.schedule_ms ..) (canon_set (canon_setStripes h) rfl)
    · split
      · exact steps_next fun h => canon_finishCfg h
      · split
        · exact steps_next fun h => canon_finishCfg h
        · split
          · exact steps_next fun h => canon_finishCfg (canon_setStripes h)
          · exact steps_next fun h => canon_of_ms (State.schedule_ms ..) (canon_set (canon_setStripes h) rfl)

theorem steps_StripeScrubDone {s : State} : Steps s (execStripeScrubDone s) := by
  unfold execStripeScrubDone
  dsimp only
  split
  · exact steps_next fun h => h
  · exact steps_next fun h => canon_finishCfg (canon_set (canon_setStripes (canon_foldl (fun _ _ h1 => canon_wipe h1) h)) rfl)

theorem steps_Assignvf {s : State} : Steps s (execAssignvf s) := by
  unfold execAssignvf
  dsimp only
  split
  · exact steps_next fun h => h
  · split
    · exact steps_next fun h => canon_finishCfg h
    · exact steps_next fun h => canon_finishCfg (canon_fillBuckets (canon_of_ms (State.setVf_ms ..) h))

theorem steps_Unassignvf {s : State} : Steps s (execUnassignvf s) := by
  unfold execUnassignvf
  dsimp only
  split
  · exact steps_next fun h => h
  · split
    · exact steps_next fun h => canon_finishCfg h
    · exact steps_next fun h => canon_ite (canon_set h rfl) (canon_of_ms (State.schedule_ms ..) (canon_set h rfl))

theorem steps_weirCommand {code : Nat} {f : Nat → Nat → List Byte → State → Nat × State} {s : State} (hf : ∀ a off b s, s.Canon → (f a off b s).2.Canon) :
    Steps s (weirCommand code f s) := by
  unfold weirCommand
  split
  · exact steps_next fun h => h
  · split
    · exact steps_next canon_finishCfg
    · split
      · exact steps_next canon_finishCfg
      · exact steps_next fun h => canon_finishCfg (hf _ _ _ _ (canon_of_mem (State.noteRead_mem ..) h))

theorem canon_tellCommons {s : State} {commons pa : Nat} {acl : List Nat} (h : s.Canon) : (s.tellCommons commons pa acl).Canon := by
  unfold State.tellCommons
  exact canon_ite h (canon_of_ms (State.send_ms ..) h)

theorem steps_Wopen {s : State} : Steps s (execWopen s) := by
  unfold execWopen
  dsimp only
  refine steps_weirCommand ?_
  exact fun _ _ _ _ h0 =>
    (canon_ite_snd h0
      (canon_ite_snd h0 (canon_ite_snd h0 (canon_ite_snd h0 (canon_ite_snd h0 (canon_set (canon_tellCommons (canon_storeWeirState h0)) rfl))))))

theorem steps_Wquiesce {s : State} : Steps s (execWquiesce s) := by
  unfold execWquiesce
  refine steps_weirCommand ?_
  intro s x1 x2 x3 h0
  split
  · exact canon_ite_snd (canon_set h0 rfl) h0
  · exact h0

theorem steps_Wexport {s : State} : Steps s (execWexport s) := by
  unfold execWexport
  dsimp only
  refine steps_weirCommand ?_
  intro s x1 x2 x3 h0
  split
  · exact canon_ite_snd (canon_set (canon_storeWeirState (canon_storeWeir h0)) rfl) h0
  · exact h0

theorem canon_weirEntry {s : State} {p vf die k : Nat} (h : s.Canon) : (s.weirEntry p vf die k).2.Canon := by
  unfold State.weirEntry
  dsimp only
  split
  · exact h
  · split
    · exact h
    · split
      · exact canon_ite_snd h
          (canon_ite_snd h
            (canon_ite_snd (canon_of_mem (looks_farRead ..).mem (canon_sendRemote h))
              (canon_set (canon_of_mem (looks_farRead ..).mem (canon_sendRemote h)) rfl)))
      · split
        · exact h
        · split
          · exact h
          · exact canon_ite_snd h (canon_set (canon_of_mem (State.noteRead_mem ..) h) rfl)

theorem canon_findWeir {p vf die k kind n : Nat} {s : State} (h : s.Canon) : (findWeir p vf die k kind n s).2.Canon := by
  induction n generalizing s with
  | zero =>
    rw [findWeir]
    exact h
  | succ n ih =>
    rw [findWeir]
    split
    next _ _ _ e3 => exact canon_of_eq e3 (canon_weirEntry h)
    next _ _ e2 => exact canon_of_eq e2 (canon_weirEntry h)
    next _ _ _ e3 =>
      have h1 := canon_of_eq e3 (canon_weirEntry h)
      split
      · exact canon_ite_snd h1 h1
      · split
        · exact h1
        · split
          · exact h1
          · split
            · exact h1
            · exact canon_ite_snd (ih (canon_of_mem (State.noteRead_mem ..) h1)) (canon_of_mem (State.noteRead_mem ..) h1)

theorem canon_weirRemote {s : State} {p : Nat} {o : WeirOp} {pa tries : Nat} (h : s.Canon) : (s.weirRemote p o pa tries).Canon := by
  unfold State.weirRemote
  dsimp only
  exact canon_ite (canon_weirFault h)
    (canon_ite (canon_holdEvent h) (canon_of_ms (State.modGroup_ms ..) (canon_sendRemote (canon_of_ms (State.fresh_ms ..) h))))

theorem canon_weirFrom {s : State} {n : Nat} {o : WeirOp} (h : s.Canon) : (s.weirFrom n o).Canon := by
  unfold State.weirFrom
  dsimp only
  split
  next _ _ e2 => exact canon_weirFault (canon_of_eq e2 (canon_findWeir h))
  next _ _ e2 => exact canon_weirFault (canon_of_eq e2 (canon_findWeir h))
  next _ _ _ e3 => exact canon_weirFault (canon_of_eq e3 (canon_findWeir h))
  next _ _ _ _ e4 => exact canon_weirRemote (canon_of_eq e4 (canon_findWeir h))
  next _ _ _ e3 => exact canon_postNeed (canon_of_eq e3 (canon_findWeir h))
  next _ _ _ _ e4 => exact canon_weirAt (canon_of_eq e4 (canon_findWeir h))

theorem canon_closedOp {s : State} {moved : Bool} {o : WeirOp} (h : s.Canon) : (s.closedOp moved o).Canon := by
  unfold State.closedOp
  split
  · exact canon_of_ms (State.send_ms ..) h
  · exact canon_ite (canon_weirFrom h) (canon_weirFault h)

theorem steps_Wclose {s : State} : Steps s (execWclose s) := by
  unfold execWclose
  dsimp only
  refine steps_weirCommand ?_
  intro s x1 x2 x3 h0
  split
  · dsimp only
    exact canon_foldl (fun _ _ h1 => canon_closedOp h1)
      (canon_tellCommons (canon_set (canon_ite (canon_storeWeirState h0) (canon_storeWeirState (canon_storeWeir h0))) rfl))
  · exact h0

theorem steps_Wreload {s : State} : Steps s (execWreload s) := by
  unfold execWreload
  dsimp only
  refine steps_weirCommand ?_
  intro s x1 x2 x3 h0
  split
  · exact h0
  · split
    · exact canon_ite_snd h0 (canon_ite_snd h0 (canon_set (canon_tellCommons (canon_tellCommons h0)) rfl))
    · exact h0

theorem canon_refillBucket {s : State} {vf die : Nat} (h : s.Canon) : (s.refillBucket vf die).Canon := by
  unfold State.refillBucket
  dsimp only
  exact canon_set h rfl

theorem steps_BandwidthRefill {s : State} : Steps s (execBandwidthRefill s) := by
  unfold execBandwidthRefill
  dsimp only
  split
  · exact steps_next fun h => h
  · exact steps_next fun h => canon_of_ms (quiet_retryEngines ..).ms (canon_foldl (fun _ _ h1 => canon_foldl (fun _ _ h2 => canon_refillBucket h2) h1) h)

theorem steps_WeirRequest {gid entry kind handle value : Nat} {s : State} : Steps s (execWeirRequest gid entry kind handle value s) := by
  unfold execWeirRequest
  split
  · exact steps_next fun h => h
  · split
    · exact steps_next fun h => h
    · exact steps_next fun h => canon_weirFrom h

theorem canon_drainWeir {key n : Nat} {s : State} (h : s.Canon) : (drainWeir key n s).Canon := by
  induction n generalizing s with
  | zero =>
    rw [drainWeir]
    exact h
  | succ n ih =>
    rw [drainWeir]
    split
    · exact h
    · split
      · exact h
      · exact canon_ite h (ih (canon_weirSignal h))

theorem canon_refillWeir {s : State} {key : Nat} (h : s.Canon) : (s.refillWeir key).Canon := by
  unfold State.refillWeir
  dsimp only
  split
  · exact h
  · exact canon_ite h (canon_drainWeir (canon_set h rfl))

theorem steps_WeirRefill {s : State} : Steps s (execWeirRefill s) := by
  unfold execWeirRefill
  split
  · exact steps_next fun h => canon_foldl (fun _ _ h1 => canon_refillWeir h1) h
  · exact steps_next fun h => h

end Sys2Proof.Machine
end

