-- ==== Sys2Proof/Proofs/CanonicalPlacement.lean ====
section
/-! SUPPORT. Canonical memory (log 5) through the placement of blocks, switches with their save areas, and cores that are lost or scanned. -/

namespace Sys2Proof.Machine

open Sys2Proof.Claims

theorem canon_placementError {s : State} {grid : Nat} (h : s.Canon) : (s.placementError grid).Canon := by
  unfold State.placementError
  exact canon_of_ms (State.schedule_ms ..) h

theorem canon_setDieQueue {s : State} {p die : Nat} {l : List Batch} (h : s.Canon) : (s.setDieQueue p die l).Canon := by
  unfold State.setDieQueue
  dsimp only
  exact canon_set h rfl

theorem steps_DeltaBatchHandout {part : Nat} {s : State} : Steps s (execDeltaBatchHandout part s) := by
  unfold execDeltaBatchHandout
  split
  · exact steps_next fun h => canon_of_ms (State.schedule_ms ..) h
  · split
    · exact steps_next fun h => h
    next b returned _ =>
      split
      · exact steps_next fun h => canon_placementError h
      · split
        · exact steps_next fun h => h
        · refine steps_next fun h => canon_of_ms (quiet_wakePlacement ..).ms ?_
          cases returned
          · exact canon_set (canon_of_ms (State.modGrid_ms s b.grid _) h) rfl
          · exact canon_set h rfl

theorem steps_BatchReturn {die part : Nat} {s : State} : Steps s (execBatchReturn die part s) := by
  unfold execBatchReturn
  dsimp only
  split
  · exact steps_next fun h => h
  · split
    · exact steps_next fun h => h
    · split
      · exact steps_next fun h => h
      · exact steps_next fun h => canon_of_ms (quiet_wakePlacement ..).ms (canon_set h rfl)

theorem canon_constRead {s : State} {core grid p line home o n : Nat} (h : s.Canon) : (s.constRead core grid p line home o n).2.Canon := by
  unfold State.constRead
  dsimp only
  split
  · exact h
  · exact canon_ite_snd h
      (canon_ite_snd (canon_of_mem (State.readHome_mem ..) h)
        (canon_of_ms (State.modCore_ms ..)
          (canon_ite (canon_of_mem (State.readHome_mem ..) h) (canon_set (canon_of_mem (State.readHome_mem ..) h) rfl))))

theorem canon_entryTvec {s : State} {core grid : Nat} {g : Grid} (h : s.Canon) : (s.entryTvec core grid g).2.Canon := by
  unfold State.entryTvec
  dsimp only
  split
  · exact h
  · split
    · exact h
    · split
      next _ _ _ e3 => exact canon_of_eq e3 (canon_resolveOnce h)
      next _ _ _ e3 => exact canon_of_eq e3 (canon_resolveOnce h)
      next _ _ _ _ e4 =>
        have h1 := canon_of_eq e4 (canon_resolveOnce h)
        dsimp only
        exact canon_of_mem (looks_farRead ..).mem (canon_sendRemote h1)
      next _ _ _ _ e4 =>
        have h1 := canon_of_eq e4 (canon_resolveOnce h)
        split
        · exact h1
        · split
          next _ _ _ e3 => exact canon_of_eq e3 (canon_constRead h1)
          next _ _ e2 => exact canon_of_eq e2 (canon_constRead h1)

theorem canon_entryTvecs {grid : Nat} {g : Grid} {l : List Nat} {s : State} (h : s.Canon) : (entryTvecs grid g l s).2.Canon := by
  induction l generalizing s with
  | nil =>
    rw [entryTvecs]
    exact h
  | cons x l ih =>
    rw [entryTvecs]
    split
    next _ _ _ e3 => exact canon_of_eq e3 (canon_entryTvec h)
    next _ _ _ e3 =>
      have h1 := canon_of_eq e3 (canon_entryTvec h)
      split
      next _ _ _ e3 => exact canon_of_eq e3 (ih h1)
      next _ _ _ e3 => exact canon_of_eq e3 (ih h1)

theorem canon_placeBlock {s : State} {core q0 gridId linear : Nat} {g : Grid} {tvec : BitVec 32} (h : s.Canon) :
    (s.placeBlock core q0 gridId linear g tvec).Canon := by
  unfold State.placeBlock
  dsimp only
  exact canon_of_ms (State.modGrid_ms ..)
    (canon_of_ms (State.modCore_ms ..) (canon_foldl (fun _ _ h1 => canon_of_ms (State.setGroup_ms ..) h1) (canon_set h rfl)))

theorem canon_movePointer {s : State} {p die core : Nat} (h : s.Canon) : (s.movePointer p die core).Canon := by
  unfold State.movePointer
  dsimp only
  exact canon_set h rfl

theorem canon_placeGang {s : State} {p die vf : Nat} {b : Batch} {g : Grid} {cores : List Nat} (h : s.Canon) : (s.placeGang p die vf b g cores).Canon := by
  unfold State.placeGang
  dsimp only
  split
  next e => exact canon_unitAssist (canon_set (canon_of_eq e (canon_entryTvecs h)) rfl)
  next l t e =>
    have ht := canon_of_eq e (canon_entryTvecs h)
    refine canon_of_ms (State.schedule_ms ..) (canon_movePointer (canon_set (canon_foldl (fun s x h => ?_) ht) rfl))
    split
    · exact canon_placeBlock h
    · exact h

theorem steps_BlockPlacement {die part : Nat} {s : State} : Steps s (execBlockPlacement die part s) := by
  unfold execBlockPlacement
  dsimp only
  split
  · exact steps_next fun h => h
  · split
    · exact steps_next fun h => h
    · split
      · exact steps_next fun h => canon_ite (canon_of_ms (State.schedule_ms ..) h) h
      · split
        · exact steps_next fun h => h
        · split
          · exact steps_next fun h => canon_placementError h
          · split
            · exact steps_next fun h => canon_of_ms (State.schedule_ms ..) h
            · split
              · exact steps_next fun h => canon_placeGang h
              · exact steps_next fun h => h
              · split
                · exact steps_next fun h => canon_postOrHold (canon_set h rfl)
                · exact steps_next fun h => canon_placeGang h

theorem steps_StealRequest {die part : Nat} {s : State} : Steps s (execStealRequest die part s) := by
  unfold execStealRequest
  dsimp only
  split
  · exact steps_next fun h => h
  · split
    · exact steps_next fun h => h
    · exact steps_next fun h => canon_of_ms (State.schedule_ms ..) (canon_setDieQueue (canon_setDieQueue h))

theorem steps_SplitExchange {gid : Nat} {s : State} : Steps s (execSplitExchange gid s) := by
  unfold execSplitExchange
  exact steps_next fun h => canon_of_ms (State.modGroup_ms ..) h

theorem steps_DemotionTimeout {gid : Nat} {s : State} : Steps s (execDemotionTimeout gid s) := by
  unfold execDemotionTimeout
  split
  · exact steps_next fun h => h
  · split
    · exact steps_next fun h => canon_of_ms (State.setGroup_ms ..) h
    · exact steps_next fun h => h

theorem canon_reportContexts {s : State} {vf : Nat} {dies : List Nat} (h : s.Canon) : (s.reportContexts vf dies).Canon := by
  unfold State.reportContexts
  exact canon_foldl (fun _ _ h1 => canon_of_ms (State.schedule_ms ..) h1) h

theorem steps_SwitchTick {part : Nat} {s : State} : Steps s (execSwitchTick part s) := by
  unfold execSwitchTick
  dsimp only
  split
  · exact steps_next fun h => h
  · split
    · refine steps_next fun h => ?_
      split
      · exact canon_reportContexts h
      · exact h
    · split
      · exact steps_next fun h => h
      · split
        · split
          · exact steps_next fun h => h
          · exact steps_next fun h => canon_of_ms (State.modPart_ms ..) (canon_postAssist h)
        · exact steps_next fun h => canon_beginSwitch h

theorem canon_flushDie {s : State} {vf die : Nat} (h : s.Canon) : (s.flushDie vf die).Canon := by
  unfold State.flushDie
  refine canon_foldl ?_ h
  intro x1 x2 h1
  split
  · exact canon_ite (canon_releaseTrapped h1) h1
  · exact h1

theorem canon_commitSwitch {s : State} {p : Nat} {w : Switch} (h : s.Canon) : (s.commitSwitch p w).Canon := by
  unfold State.commitSwitch
  exact canon_ite (canon_of_ms (State.schedule_ms ..) (canon_of_ms (State.modPart_ms ..) h)) h

theorem canon_dieDone {s : State} {p die : Nat} {w : Switch} (h : s.Canon) : (s.dieDone p die w).Canon := by
  unfold State.dieDone
  dsimp only
  exact canon_commitSwitch (canon_of_ms (State.modPart_ms ..) h)

theorem canon_clearArea {s : State} {area : Nat × Nat} {o n : Nat} (h : s.Canon) : (s.clearArea area o n).Canon := by
  unfold State.clearArea
  rw [State.Canon, State.noteRange_mem]
  dsimp only
  exact Memory.wf_filterKV _ _ h

theorem canon_fillArea {s : State} {area : Nat × Nat} {o : Nat} {b : List Byte} (h : s.Canon) : (s.fillArea area o b).Canon := by
  unfold State.fillArea
  dsimp only
  split
  · split
    · exact h
    · exact Memory.wf_spliceBytes _ _ _ h
  · exact h

theorem canon_openArea {s : State} {p : Nat} {area : Nat × Nat} {core : Nat} (h : s.Canon) : (s.openArea p area core).Canon := by
  unfold State.openArea
  dsimp only
  exact canon_fillArea (canon_freeBytes (canon_clearArea (canon_clearArea h)))

theorem canon_writeArea {s : State} {area : Nat × Nat} {o : Nat} {b : List Byte} (h : s.Canon) : (s.writeArea area o b).Canon := by
  unfold State.writeArea
  dsimp only
  exact canon_ite h (canon_pokeHyper h)

theorem canon_writeImages {s : State} {p : Nat} {area : Nat × Nat} {gid : Nat} {g : Group} {b : Block} (h : s.Canon) :
    (s.writeImages p area gid g b).Canon := by
  unfold State.writeImages
  dsimp only
  exact canon_writeArea (canon_writeArea (canon_writeArea h))

theorem canon_writeSparse {s : State} {area : Nat × Nat} {o : Nat} {l : List (Nat × Byte)} (h : s.Canon) : (s.writeSparse area o l).Canon := by
  unfold State.writeSparse
  exact canon_foldl (fun _ _ h1 => canon_writeArea h1) h

theorem canon_writePool {s : State} {area : Nat × Nat} {k u0 : Nat} {b : Block} {forms : List (Nat × Group)} (h : s.Canon) :
    (s.writePool area k u0 b forms).Canon := by
  unfold State.writePool
  dsimp only
  exact canon_foldl (fun _ _ h1 => canon_ite (canon_of_mem (State.setPoison_mem ..) h1) h1) (canon_writeSparse (canon_writeSparse (canon_writeSparse h)))

theorem canon_renameHolder {s : State} {p old new : Nat} (h : s.Canon) : (s.renameHolder p old new).Canon := by
  unfold State.renameHolder
  exact canon_of_ms (State.modPart_ms ..) h

theorem canon_saveBlock {s : State} {p vf : Nat} {area : Nat × Nat} {bk : Nat} (h : s.Canon) : (s.saveBlock p vf area bk).Canon := by
  unfold State.saveBlock
  dsimp only
  split
  · exact h
  · exact canon_ite
      (canon_of_ms (State.modCore_ms ..)
        (canon_foldl (fun _ _ h1 => canon_renameHolder h1)
          (canon_of_ms (State.modVf_ms ..)
            (canon_of_ms (State.modBlock_ms ..)
              (canon_of_ms (State.modCore_ms ..) (canon_set (canon_writePool (canon_foldl (fun _ _ h1 => canon_writeImages h1) h)) rfl))))))
      (canon_foldl (fun _ _ h1 => canon_renameHolder h1)
        (canon_of_ms (State.modVf_ms ..)
          (canon_of_ms (State.modBlock_ms ..)
            (canon_of_ms (State.modCore_ms ..) (canon_set (canon_writePool (canon_foldl (fun _ _ h1 => canon_writeImages h1) h)) rfl)))))

theorem canon_writeQueue {s : State} {p vf : Nat} {area : Nat × Nat} {core : Nat} (h : s.Canon) : (s.writeQueue p vf area core).Canon := by
  unfold State.writeQueue
  dsimp only
  exact canon_foldl (fun _ _ h1 => canon_writeArea h1) h

theorem steps_SwitchDone {part die : Nat} {s : State} : Steps s (execSwitchDone part die s) := by
  unfold execSwitchDone
  dsimp only
  split
  · split
    · exact steps_next fun h => h
    · split
      · exact steps_next fun h => canon_flushDie h
      · split
        · exact steps_next fun h => canon_reportContexts h
        · exact steps_next fun h => canon_dieDone h
        · exact steps_next fun h =>
            canon_dieDone
              (canon_foldl (fun _ _ h1 => canon_writeQueue h1)
                (canon_foldl (fun _ _ h1 => canon_saveBlock h1) (canon_foldl (fun _ _ h1 => canon_openArea h1) h)))
  · exact steps_next fun h => h

theorem canon_haltErrors {s : State} {vf : Nat} (h : s.Canon) : (s.haltErrors vf).Canon := by
  unfold State.haltErrors
  exact canon_foldl (fun _ _ h1 => canon_ite (canon_haltGrid h1) h1) h

theorem canon_takeEngFault {s : State} {gid : Nat} (h : s.Canon) : (s.takeEngFault gid).Canon := by
  unfold State.takeEngFault
  dsimp only
  split
  · exact h
  · split
    · exact h
    · split
      · exact h
      · split
        · exact h
        · exact canon_of_ms (State.trapGroup_ms ..) (canon_of_ms (State.modGroup_ms ..) h)

theorem canon_resumeWaits {s : State} {gid : Nat} (h : s.Canon) : (s.resumeWaits gid).Canon := by
  unfold State.resumeWaits
  split
  · exact h
  · refine canon_foldl ?_ h
    intro x1 x2 h1
    split
    · exact canon_of_ms (State.schedule_ms ..) h1
    · exact canon_of_ms (State.schedule_ms ..) h1
    · exact canon_of_ms (State.schedule_ms ..) h1
    · exact h1

theorem canon_wakeSaved {s : State} {gid : Nat} {g : Group} (h : s.Canon) : (s.wakeSaved gid g).Canon := by
  unfold State.wakeSaved
  dsimp only
  split
  · exact canon_of_ms (State.setGroup_ms ..) h
  · split
    · exact canon_of_ms (State.trapGroup_ms ..) (canon_of_ms (State.setGroup_ms ..) h)
    · exact canon_takeEngFault (canon_resumeWaits (canon_of_ms (State.setGroup_ms ..) h))

theorem canon_mapQueue {s : State} {core : Nat} {f : EngCmd → EngCmd} (h : s.Canon) : (s.mapQueue core f).Canon := by
  unfold State.mapQueue
  exact canon_of_ms (State.modCore_ms ..) h

theorem canon_modCommand {s : State} {core id : Nat} {f : EngCmd → EngCmd} (h : s.Canon) : (s.modCommand core id f).Canon := by
  unfold State.modCommand
  exact canon_mapQueue h

theorem canon_cancelCommand {s : State} {core id : Nat} (h : s.Canon) : (s.cancelCommand core id).Canon := by
  unfold State.cancelCommand
  exact canon_of_ms (State.schedule_ms ..) (canon_modCommand h)

theorem canon_restartCommand {s : State} {core id : Nat} (h : s.Canon) : (s.restartCommand core id).Canon := by
  unfold State.restartCommand
  split
  · exact h
  · exact canon_of_ms (State.schedule_ms ..) (canon_modCommand h)

theorem canon_wakeBlock {s : State} {p vf : Nat} {lost : List Nat} {bk : Nat} {b : Block} {groups : List (Nat × Group)} (h : s.Canon) :
    (s.wakeBlock p vf lost bk b groups).Canon := by
  unfold State.wakeBlock
  dsimp only
  exact canon_foldl (fun _ _ h1 => canon_ite (canon_ite h1 (canon_restartCommand h1)) (canon_ite h1 (canon_of_ms (State.schedule_ms ..) h1)))
    (canon_foldl (fun _ _ h1 => canon_cancelCommand h1)
      (canon_foldl (fun _ _ h1 => canon_wakeSaved h1)
        (canon_foldl (fun _ _ h1 => canon_renameHolder h1) (canon_of_ms (State.modCore_ms ..) (canon_set h rfl)))))

theorem canon_dropBlock {s : State} {p vf bk : Nat} {b : Block} {status detail : Nat} (h : s.Canon) : (s.dropBlock p vf bk b status detail).Canon := by
  unfold State.dropBlock
  dsimp only
  exact canon_of_ms (State.schedule_ms ..) (canon_set (canon_releaseSavedLock (canon_of_ms (State.modGrid_ms ..) h)) rfl)

theorem canon_resumeSaved {s : State} {p vf : Nat} (h : s.Canon) : (s.resumeSaved p vf).Canon := by
  unfold State.resumeSaved
  exact canon_haltErrors (canon_foldl (fun _ _ h1 => canon_ite (canon_wakeBlock h1) (canon_dropBlock h1)) h)

theorem steps_SwitchDeadline {part : Nat} {s : State} : Steps s (execSwitchDeadline part s) := by
  unfold execSwitchDeadline
  dsimp only
  split
  · exact steps_next fun h => h
  · split
    · exact steps_next fun h => h
    · split
      · exact steps_next fun h => canon_of_ms (State.modPart_ms ..) h
      · split
        · exact steps_next fun h =>
            canon_of_ms (quiet_wakePlacement ..).ms (canon_of_ms (quiet_retryEngines ..).ms (canon_resumeSaved (canon_of_ms (State.modPart_ms ..) h)))
        · exact steps_next fun h => canon_of_ms (State.modPart_ms ..) h

theorem canon_restoreBlock {s : State} {p vf : Nat} {bad : Bool} {lost : List Nat} {x : LoadedBlock} (h : s.Canon) :
    (s.restoreBlock p vf bad lost x).Canon := by
  unfold State.restoreBlock
  dsimp only
  exact canon_ite (canon_of_ms (State.schedule_ms ..) (canon_wakeBlock (canon_of_ms (State.modGrid_ms ..) h)))
    (canon_wakeBlock (canon_of_ms (State.modGrid_ms ..) h))

theorem canon_noteAreaRead {s : State} {p core : Nat} {area : Nat × Nat} (h : s.Canon) : (s.noteAreaRead p core area).Canon := by
  unfold State.noteAreaRead
  dsimp only
  exact canon_foldl (fun _ _ h1 => canon_of_mem (State.noteReadLine_mem ..) h1) h

theorem canon_restoreCore {s : State} {p vf : Nat} {area : Option (Nat × Nat)} {core : Nat} (h : s.Canon) : (s.restoreCore p vf area core).Canon := by
  unfold State.restoreCore
  dsimp only
  split
  · exact canon_foldl (fun _ _ h1 => canon_dropBlock h1) h
  · split
    · exact canon_foldl (fun _ _ h1 => canon_dropBlock h1) h
    · exact canon_foldl (fun _ _ h1 => canon_restoreBlock h1) (canon_noteAreaRead h)

theorem canon_restoreVf {s : State} {p vf : Nat} (h : s.Canon) : (s.restoreVf p vf).Canon := by
  unfold State.restoreVf
  dsimp only
  exact canon_haltErrors (canon_foldl (fun _ _ h1 => canon_restoreCore h1) h)

theorem steps_SwitchIn {part : Nat} {s : State} : Steps s (execSwitchIn part s) := by
  unfold execSwitchIn
  dsimp only
  split
  · refine steps_next fun h => ?_
    split
    · split
      · split
        · exact canon_ite h (canon_postOrHold h)
        · exact canon_of_ms (quiet_wakePlacement ..).ms (canon_of_ms (quiet_retryEngines ..).ms (canon_restoreVf (canon_of_ms (State.modPart_ms ..) h)))
      · exact canon_of_ms (State.modPart_ms ..) h
    · exact h
  · split
    · split
      · refine steps_next fun h => ?_
        split
        · exact h
        · split
          · split
            · exact canon_ite h (canon_postOrHold h)
            · exact canon_of_ms (quiet_wakePlacement ..).ms (canon_of_ms (quiet_retryEngines ..).ms (canon_restoreVf (canon_of_ms (State.modPart_ms ..) h)))
          · exact canon_of_ms (State.modPart_ms ..) h
      · split
        · refine steps_next fun h => ?_
          split
          · split
            · exact canon_ite h (canon_postOrHold h)
            · exact canon_of_ms (quiet_wakePlacement ..).ms (canon_of_ms (quiet_retryEngines ..).ms (canon_restoreVf (canon_of_ms (State.modPart_ms ..) h)))
          · exact canon_of_ms (State.modPart_ms ..) h
        · exact steps_next fun h => h
    · split
      · exact steps_next fun h => h
      · split
        · refine steps_next fun h => ?_
          split
          · split
            · exact canon_ite h (canon_postOrHold h)
            · exact canon_of_ms (quiet_wakePlacement ..).ms (canon_of_ms (quiet_retryEngines ..).ms (canon_restoreVf (canon_of_ms (State.modPart_ms ..) h)))
          · exact canon_of_ms (State.modPart_ms ..) h
        · exact steps_next fun h => h

theorem steps_InFieldScan {core : Nat} {s : State} : Steps s (execInFieldScan core s) := by
  unfold execInFieldScan
  dsimp only
  split
  · exact steps_next fun h => h
  · exact steps_next fun h => canon_of_ms (State.setCore_ms ..) h

theorem canon_loseCore {s : State} {core : Nat} (h : s.Canon) : (s.loseCore core).Canon := by
  unfold State.loseCore
  dsimp only
  exact canon_ite (canon_set h rfl) (canon_of_ms (State.modCore_ms ..) (canon_set h rfl))

theorem steps_ScanComplete {core : Nat} {pass : Bool} {s : State} : Steps s (execScanComplete core pass s) := by
  unfold execScanComplete
  dsimp only
  split
  · exact steps_next fun h => h
  · split
    · exact steps_next fun h => canon_of_ms (quiet_coreBack ..).ms (canon_of_ms (State.setCore_ms ..) h)
    · exact steps_next fun h => canon_of_ms (quiet_coreBack ..).ms (canon_loseCore (canon_of_ms (State.setCore_ms ..) h))

theorem steps_CoreLost {core : Nat} {s : State} : Steps s (execCoreLost core s) := by
  unfold execCoreLost
  dsimp only
  split
  · exact steps_next fun h => h
  · exact steps_next fun h =>
      canon_of_ms (quiet_coreBack ..).ms
        (canon_loseCore
          (canon_of_ms (State.setCore_ms ..)
            (canon_set
              (canon_foldl (fun _ _ h1 => canon_of_settled (State.haltGroup_settled ..) h1)
                (canon_foldl (fun _ _ h1 => canon_of_ms (State.modGroup_ms ..) h1)
                  (canon_of_ms (State.modCore_ms ..)
                    (canon_foldl (fun _ _ h1 => canon_of_ms (State.schedule_ms ..) h1) (canon_of_ms (State.send_ms ..) h))))) rfl)))

theorem canon_startHandler {s : State} {hid gid : Nat} {g : Group} {f : FaultInfo} (h : s.Canon) : (s.startHandler hid gid g f).Canon := by
  unfold State.startHandler
  dsimp only
  exact canon_ite
    (canon_of_ms (State.schedule_ms ..)
      (canon_of_settled (State.haltGroup_settled ..) (canon_of_ms (State.reportError_ms ..) (canon_of_ms (State.modCore_ms ..) h))))
    (canon_set (canon_of_ms (State.modGroup_ms ..) (canon_of_ms (State.modCore_ms ..) h)) rfl)

theorem steps_HandlerEntry {hid : Nat} {s : State} : Steps s (execHandlerEntry hid s) := by
  unfold execHandlerEntry
  split
  · exact steps_next fun h => h
  · split
    · exact steps_next fun h => h
    · split
      · exact steps_next fun h => h
      · split
        · exact steps_next fun h => h
        · split
          · exact steps_next fun h => h
          · split
            · exact steps_next fun h => canon_releaseTrapped h
            · split
              · exact steps_next fun h => h
              · exact steps_next fun h => canon_startHandler h

end Sys2Proof.Machine
end

