-- ==== Sys2Proof/Proofs/CanonicalRequests.lean ====
section
/-! SUPPORT. Canonical memory (log 5) through answers from other packages and the requests that come home. -/

namespace Sys2Proof.Machine

open Sys2Proof.Claims

theorem canon_weirAnswered {s : State} {o : WeirOp} {tries result v : Nat} (h : s.Canon) : (s.weirAnswered o tries result v).Canon := by
  unfold State.weirAnswered
  split
  · exact canon_setWeirWait h
  · exact canon_weirFault h
  · exact canon_weirFrom h
  · exact canon_weirFault h

theorem canon_s {self : MemAcc} (h : self.s.Canon) : (MemAcc.s self).Canon := h

theorem canon_failAnswer {m : MemAcc} {f : XFault} {ts : BitVec 64} (h : m.s.Canon) : (MemAcc.failAnswer m f ts).s.Canon := h

theorem canon_modLane {s : State} {gid t : Nat} {f : TxLane → TxLane} (h : s.Canon) : (s.modLane gid t f).Canon := by
  unfold State.modLane
  exact canon_of_ms (State.modGroup_ms ..) h

theorem canon_remoteValue {c : Ctx} {tx : Bool} {q : RemoteReq} {v : Nat} {s : State} (h : s.Canon) : (remoteValue c tx q v s).2.Canon := by
  unfold remoteValue
  dsimp only
  exact canon_ite_snd (canon_modLane h) h

theorem canon_keepConst {s : State} {c : Ctx} {q : RemoteReq} {v : Nat} (h : s.Canon) : (s.keepConst c q v).Canon := by
  unfold State.keepConst
  dsimp only
  split
  · split
    · exact canon_of_ms (State.modCore_ms ..) h
    · exact canon_of_ms (State.modCore_ms ..) (canon_freeBytes h)
  · exact h

theorem canon_fillL1 {s : State} {core sec : Nat} {d : BitVec 256} (h : s.Canon) : (s.fillL1 core sec d).Canon := by
  unfold State.fillL1
  exact canon_of_ms (State.modCore_ms ..) h

theorem canon_keepPeer {s : State} {c : Ctx} {q : RemoteReq} {v : Nat} (h : s.Canon) : (s.keepPeer c q v).Canon := by
  unfold State.keepPeer
  dsimp only
  split
  · exact canon_of_mem (State.touchL2_mem ..) h
  · split
    · exact canon_fillL1 (canon_of_mem (State.touchL2_mem ..) h)
    · exact canon_fillL1 (canon_freeBytes (canon_of_mem (State.touchL2_mem ..) h))

theorem canon_keepAnswer {s : State} {c : Ctx} {id : Nat} {word : BitVec 32} {q : RemoteReq} {v : Nat} (h : s.Canon) : (s.keepAnswer c id word q v).Canon := by
  unfold State.keepAnswer
  exact canon_ite h (canon_ite (canon_keepConst h) (canon_ite (canon_keepPeer h) h))

theorem canon_loadAnswer {c : Ctx} {id : Nat} {word : BitVec 32} {d : BitVec 8} {signed : Bool} {f : AnswerFaults} {m : MemAcc} {x : RemoteReq × BitVec 128}
    (h : m.s.Canon) : (loadAnswer c id word d signed f m x).s.Canon := by
  unfold loadAnswer
  dsimp only
  split
  · exact h
  · split
    · exact canon_failAnswer h
    · exact canon_keepAnswer (canon_remoteValue h)

theorem canon_bowAnswer {op : RemoteOp} {d : BitVec 8} {v x : Nat} {f : AnswerFaults} {s : State} {c : Ctx} (h : s.Canon) :
    (bowAnswer op d v x f s c).Canon := by
  unfold bowAnswer
  dsimp only
  split
  · exact canon_endRemote h
  · exact canon_ite (canon_operationDone (canon_of_ms (State.retire_ms ..) (canon_acquire h))) (canon_operationDone (canon_of_ms (State.putCtx_ms ..) h))

theorem steps_LoadResponse {gid id : Nat} {data : List (BitVec 128)} {marks : AnswerMarks} {s : State} : Steps s (execLoadResponse gid id data marks s) := by
  unfold execLoadResponse
  dsimp only
  split
  · exact steps_next fun h => h
  · split
    · exact steps_next fun h => h
    · split
      · exact steps_next fun h => canon_operationDone (canon_weirAnswered (canon_dropRemote h))
      · exact steps_next fun h => canon_endRemote (canon_foldl_mem (fun _ _ h1 => canon_loadAnswer h1) (canon_dropRemote h))
      · exact steps_next fun h => canon_bowAnswer (canon_dropRemote h)
      · exact steps_next fun h => h
      · exact steps_next fun h => canon_operationDone (canon_dropRemote h)

theorem canon_atomicAnswer {c : Ctx} {e : AtEnv} {word : BitVec 32} {d : BitVec 8} {f : AnswerFaults} {m : MemAcc} {x : RemoteReq × BitVec 128}
    (h : m.s.Canon) : (atomicAnswer c e word d f m x).s.Canon := by
  unfold atomicAnswer
  dsimp only
  split
  · exact h
  · split
    · exact canon_failAnswer h
    · exact canon_ite (canon_modLane (canon_remoteValue h)) (canon_remoteValue h)

theorem canon_acquireAnswer {s : State} {c : Ctx} (h : s.Canon) : (s.acquireAnswer c).Canon := by
  unfold State.acquireAnswer
  exact canon_ite (canon_of_ms (State.dropL1_ms ..) h) h

theorem steps_AtomicResponse {gid id : Nat} {data : List (BitVec 128)} {marks : AnswerMarks} {s : State} :
    Steps s (execAtomicResponse gid id data marks s) := by
  unfold execAtomicResponse
  dsimp only
  split
  · exact steps_next fun h => h
  · split
    · exact steps_next fun h => h
    · split
      · exact steps_next fun h => canon_endRemote (canon_acquireAnswer (canon_foldl_mem (fun _ _ h1 => canon_atomicAnswer h1) (canon_dropRemote h)))
      · exact steps_next fun h => canon_operationDone (canon_dropRemote h)
      · exact steps_next fun h => h

theorem canon_poisonPool {s : State} {bk wo : Nat} (h : s.Canon) : (s.poisonPool bk wo).Canon := by
  unfold State.poisonPool
  split
  · exact h
  · split
    · exact canon_of_ms (State.modBlock_ms ..) h
    · exact h

theorem canon_latentError {s : State} {pa : Nat} (h : s.Canon) : (s.latentError pa).Canon := by
  unfold State.latentError
  dsimp only
  exact canon_ite (canon_of_mem (mem_markPoison ..) h) h

theorem canon_giveHost {s : State} {agent : Option Nat} {data : List Byte} (h : s.Canon) : (s.giveHost agent data).Canon := by
  unfold State.giveHost
  exact canon_of_ms (State.send_ms ..) h

theorem canon_homeBootWindow {s : State} {agent : Option Nat} {kind pa n : Nat} (h : s.Canon) : (s.homeBootWindow agent kind pa n).Canon := by
  unfold State.homeBootWindow
  dsimp only
  exact canon_ite h (canon_giveHost (canon_freeBytes h))

theorem canon_homeAperture {s : State} {agent : Option Nat} {kind pa : Nat} {bytes : List Byte} {again : Instr} (h : s.Canon) :
    (s.homeAperture agent kind pa bytes again).Canon := by
  unfold State.homeAperture
  dsimp only
  generalize (pa - apertureBase) / 2 ^ 40 = vf
  generalize (pa - apertureBase) % 2 ^ 40 = va
  split
  · exact h
  · split
    · split
      next _ _ e => exact canon_unitAssist (canon_of_eq e (canon_unitWrite h))
      next _ _ e => exact canon_accessFault (canon_of_eq e (canon_unitWrite h))
      next _ _ e => exact canon_of_eq e (canon_unitWrite h)
    · split
      next _ _ e => exact canon_unitAssist (canon_of_eq e (canon_unitRead h))
      next _ _ e => exact canon_accessFault (canon_of_eq e (canon_unitRead h))
      next _ _ _ e =>
        have hread := canon_of_eq e (canon_unitRead h)
        split
        · exact canon_accessFault hread
        · exact canon_giveHost hread

theorem canon_homeRegister {s : State} {agent : Option Nat} {tx : Bool} {kind pa : Nat} {bytes : List Byte} (h : s.Canon) :
    (s.homeRegister agent tx kind pa bytes).Canon := by
  unfold State.homeRegister
  dsimp only
  split
  · exact canon_of_ms (State.abortHart_ms ..) h
  · split
    · exact canon_of_ms (State.schedule_ms ..) h
    · split
      · exact canon_giveHost h
      · exact canon_ite (canon_accessFault h) h

theorem canon_endHostWait {s : State} {agent : Option Nat} {pa : Nat} (h : s.Canon) : (s.endHostWait agent pa).Canon := by
  unfold State.endHostWait
  dsimp only
  exact canon_set h rfl

theorem canon_hostHome {s : State} {k pkg : Nat} (h : s.Canon) : (s.hostHome k pkg).2.Canon := by
  unfold State.hostHome
  split
  · dsimp only
    exact canon_of_ms (State.modHart_ms ..) h
  · exact canon_ite_snd h (canon_of_ms (State.abortHart_ms ..) h)

theorem canon_homeRemote {s : State} {agent : Option Nat} {tx : Bool} {kind pa : Nat} {bytes : List Byte} {again : Instr} (h : s.Canon) :
    (s.homeRemote agent tx kind pa bytes again).Canon := by
  unfold State.homeRemote
  dsimp only
  split
  · exact canon_accessFault h
  · split
    · exact canon_endHostWait h
    · split
      · split
        · exact canon_ite (canon_accessFault (canon_endHostWait h)) (canon_holdEvent h)
        · exact canon_holdEvent (canon_set h rfl)
      · split
        · exact canon_hostHome (canon_endHostWait h)
        · exact canon_ite (canon_accessFault (canon_of_mem (looks_farRead ..).mem (canon_of_ms (State.send_ms ..) (canon_endHostWait h))))
            (canon_ite (canon_of_mem (looks_farRead ..).mem (canon_of_ms (State.send_ms ..) (canon_endHostWait h)))
              (canon_ite (canon_accessFault (canon_of_mem (looks_farRead ..).mem (canon_of_ms (State.send_ms ..) (canon_endHostWait h))))
                (canon_giveHost (canon_of_mem (looks_farRead ..).mem (canon_of_ms (State.send_ms ..) (canon_endHostWait h))))))

theorem canon_takePair {s : State} {k sl : Nat} (h : s.Canon) : (s.takePair k sl).2.Canon := by
  unfold State.takePair
  dsimp only
  exact canon_ite_snd h (canon_ite_snd h (canon_of_ms (State.setHart_ms ..) h))

theorem canon_sigHit {s : State} {k g sl : Nat} {write : Bool} (h : s.Canon) : (s.sigHit k g sl write).2.Canon := by
  unfold State.sigHit
  dsimp only
  exact canon_set h rfl

theorem canon_hostClash {k g sl : Nat} {write : Bool} {l : List Nat} {s : State} (h : s.Canon) : (hostClash k g sl write l s).2.Canon := by
  induction l generalizing s with
  | nil =>
    rw [hostClash]
    exact h
  | cons x l ih =>
    rw [hostClash]
    dsimp only
    exact canon_ite_snd (ih (canon_sigHit h))
      (canon_ite_snd (canon_of_ms (State.abortHart_ms ..) (canon_sigHit h)) (ih (canon_of_ms (State.abortHart_ms ..) (canon_sigHit h))))

theorem canon_hostTx {s : State} {k : Nat} {write : Bool} {off : Nat} {b : List Byte} (h : s.Canon) : (s.hostTx k write off b).Canon := by
  unfold State.hostTx
  dsimp only
  split
  next _ _ e2 => exact canon_of_ms (State.abortHart_ms ..) (canon_of_eq e2 (canon_takePair h))
  next _ _ e2 =>
    have h1 := canon_of_eq e2 (canon_takePair h)
    split
    next _ _ e2 => exact canon_of_eq e2 (canon_hostClash h1)
    next _ _ e2 =>
      have h2 := canon_of_eq e2 (canon_hostClash h1)
      exact canon_ite (canon_of_mem (onlyReads_hostCopy ..).mem (canon_of_ms (State.modHart_ms ..) h2))
        (canon_ite (canon_hostException h2)
          (canon_of_ms (State.send_ms ..) (canon_of_mem (onlyReads_hostCopy ..).mem (canon_of_ms (State.modHart_ms ..) h2))))

theorem canon_homeTx {s : State} {k kind off : Nat} {bytes : List Byte} (h : s.Canon) : (s.homeTx k kind off bytes).Canon := by
  unfold State.homeTx
  dsimp only
  exact canon_ite (canon_hostTx h) (canon_ite (canon_hostTx h) (canon_hostTx (canon_hostTx h)))

theorem canon_trackHost {s : State} {agent : Option Nat} {p off n : Nat} {write : Bool} (h : s.Canon) : (s.trackHost agent p off n write).Canon := by
  cases write with
  | false => exact canon_of_mem (onlyReads_trackHost ..).mem h
  | true => exact canon_of_mem (mem_trackHost ..) h

theorem canon_homeAccess {s : State} {agent : Option Nat} {kind pa off : Nat} {bytes : List Byte} (h : s.Canon) :
    (s.homeAccess agent kind pa off bytes).Canon := by
  unfold State.homeAccess
  dsimp only
  split
  · exact canon_trackHost (canon_of_mem (State.clearPoison_mem ..) (canon_writeHome h))
  · split
    · exact canon_accessFault h
    · split
      · exact canon_giveHost (canon_trackHost h)
      · exact canon_giveHost (canon_trackHost (canon_writeHome h))

theorem canon_homeOwn {s : State} {agent : Option Nat} {tx : Bool} {kind pa : Nat} {bytes : List Byte} {uncorrectable : Bool} (h : s.Canon) :
    (s.homeOwn agent tx kind pa bytes uncorrectable).Canon := by
  unfold State.homeOwn
  dsimp only
  split
  · exact canon_postOrHold (canon_ite (canon_of_mem (mem_markPoison ..) h) h)
  · split
    · exact canon_ite (canon_ite (canon_of_mem (mem_markPoison ..) h) h)
        (canon_ite (canon_homeTx (canon_hostHome (canon_ite (canon_of_mem (mem_markPoison ..) h) h)))
          (canon_hostHome (canon_ite (canon_of_mem (mem_markPoison ..) h) h)))
    · exact canon_homeAccess (canon_ite (canon_of_mem (mem_markPoison ..) h) h)

theorem steps_HomeRequest {agent : Option Nat} {tx : Bool} {kind pa : Nat} {bytes : List (BitVec 8)} {uncorrectable : Bool} {s : State} :
    Steps s (execHomeRequest agent tx kind pa bytes uncorrectable s) := by
  unfold execHomeRequest
  dsimp only
  split
  · exact steps_next fun h => h
  · split
    · exact steps_next fun h => canon_ite (canon_poisonPool h) h
    · split
      · exact steps_next fun h => canon_latentError h
      · split
        · exact steps_next fun h => h
        · split
          · exact steps_next fun h => canon_homeBootWindow h
          · split
            · exact steps_next fun h => canon_homeAperture h
            · split
              · exact steps_next fun h => canon_accessFault h
              · split
                · exact steps_next fun h => canon_homeRegister h
                · split
                  · exact steps_next fun h => canon_homeRemote h
                  · split
                    · exact steps_next fun h => canon_accessFault h
                    · exact steps_next fun h => canon_homeOwn h

theorem steps_GridOpComplete {gid : Nat} {s : State} : Steps s (execGridOpComplete gid s) := by
  unfold execGridOpComplete
  dsimp only
  split
  · exact steps_next fun h => h
  · split
    · exact steps_next fun h => h
    · split
      · exact steps_next fun h => h
      · exact steps_next fun h =>
          canon_ite
            (canon_of_ms (State.releaseBlock_ms ..)
              (canon_of_ms (State.modCore_ms ..) (canon_of_ms (State.modGroup_ms ..) (canon_of_ms (State.setGroup_ms ..) h))))
            (canon_operationDone (canon_of_ms (State.modCore_ms ..) (canon_of_ms (State.modGroup_ms ..) (canon_of_ms (State.setGroup_ms ..) h))))

end Sys2Proof.Machine
end

