-- ==== Sys2Proof/Proofs/CanonicalEngines.lean ====
section
/-! SUPPORT. Canonical memory (log 5) through engine commands, collectives, tier moves, commit turns and the waits that end. -/

namespace Sys2Proof.Machine

open Sys2Proof.Claims

theorem steps_EngineCommandStart {core : Nat} {gather : Bool} {s : State} : Steps s (execEngineCommandStart core gather s) := by
  unfold execEngineCommandStart
  dsimp only
  split
  · exact steps_next fun h => h
  · exact steps_next fun h => canon_of_ms (State.schedule_ms ..) (canon_modCommand (canon_of_ms (State.modCore_ms ..) h))

theorem canon_engLoc {gid : Nat} {tile : Bool} {va n need : Nat} {s : State} (h : s.Canon) : (engLoc gid tile va n need s).2.Canon := by
  unfold engLoc
  split
  · split
    · exact h
    · exact canon_ite_snd h h
  · split
    next _ _ _ e3 => exact canon_of_eq e3 (canon_coreReach h)
    next _ _ _ _ e4 => exact canon_of_eq e4 (canon_coreReach h)
    next _ _ _ _ e4 => exact canon_of_eq e4 (canon_coreReach h)
    next _ _ _ e3 => exact canon_of_eq e3 (canon_coreReach h)
    next _ _ _ e3 => exact canon_of_eq e3 (canon_coreReach h)
    next _ _ _ e3 => exact canon_of_eq e3 (canon_coreReach h)

theorem canon_leaveLine {s : State} {vf die : Nat} {who : Nat × Nat} (h : s.Canon) : (s.leaveLine vf die who).Canon := by
  unfold State.leaveLine
  exact canon_ite h (canon_of_ms (State.modVf_ms ..) h)

theorem canon_joinLine {s : State} {vf die : Nat} {who : Nat × Nat} (h : s.Canon) : (s.joinLine vf die who).Canon := by
  unfold State.joinLine
  exact canon_of_ms (State.modVf_ms ..) h

theorem canon_spend {s : State} {vf die n : Nat} {who : Nat × Nat} (h : s.Canon) : (s.spend vf die n who).2.Canon := by
  unfold State.spend
  dsimp only
  exact canon_ite_snd (canon_leaveLine h) (canon_ite_snd (canon_leaveLine (canon_set h rfl)) (canon_joinLine h))

theorem canon_engToken {gid cmd last : Nat} {l : ELoc} {s : State} (h : s.Canon) : (engToken gid cmd last l s).2.Canon := by
  unfold engToken
  dsimp only
  split
  · exact h
  · exact canon_ite_snd h (canon_spend h)

theorem canon_engPlaces {gid : Nat} {tile : Bool} {need : Nat} {l : List (Nat × Nat)} {a : EngAcc} (h : a.s.Canon) :
    (engPlaces gid tile need l a).2.s.Canon := by
  induction l generalizing a with
  | nil =>
    rw [engPlaces]
    exact h
  | cons x l ih =>
    obtain ⟨p, q⟩ := x
    rw [engPlaces]
    split
    next _ _ _ e3 => exact canon_of_eq e3 (canon_engLoc h)
    next _ _ _ e3 =>
      have h1 := canon_of_eq e3 (canon_engLoc h)
      split
      next _ _ e2 => exact canon_of_eq e2 (canon_engToken h1)
      next _ _ _ e3 =>
        have h2 := canon_of_eq e3 (canon_engToken h1)
        split
        · exact h2
        · split
          next _ _ _ e3 => exact canon_of_eq_acc e3 (ih h2)
          next _ _ _ e3 => exact canon_of_eq_acc e3 (ih h2)

theorem canon_engNow {gid : Nat} {l : List (ELoc × Nat)} {a : EngAcc} (h : a.s.Canon) : (engNow gid l a).2.s.Canon := by
  induction l generalizing a with
  | nil => exact h
  | cons q r ih =>
    obtain ⟨place, n⟩ := q
    refine ih ?_
    cases place with
    | pool p => exact h
    | own off => exact h
    | remote pa => exact canon_freeBytes h

theorem canon_dropSector {s : State} {core off : Nat} (h : s.Canon) : (s.dropSector core off).Canon := by
  unfold State.dropSector
  exact canon_of_ms (State.modCore_ms ..) h

theorem canon_dropPeer {s : State} {core pa : Nat} (h : s.Canon) : (s.dropPeer core pa).Canon := by
  unfold State.dropPeer
  exact canon_spoilPeer (canon_dropSector h)

theorem canon_engineFar {s : State} {gid kind pa n : Nat} {b : List Byte} {bad : Bool} (h : s.Canon) : (s.engineFar gid kind pa n b bad).2.Canon := by
  unfold State.engineFar
  dsimp only
  exact canon_farRefuses (canon_dropPeer (canon_sendRemote h))

theorem canon_wroteAt {a : EngAcc} {pa : Nat} (h : a.s.Canon) : (EngAcc.wroteAt a pa).s.Canon := by
  unfold EngAcc.wroteAt
  split
  · exact h
  · exact h

theorem canon_engPut {gid : Nat} {bad : Bool} {l : List (ELoc × Nat)} {b : List Byte} {a : EngAcc} (h : a.s.Canon) : (engPut gid bad l b a).2.s.Canon := by
  induction l generalizing b a with
  | nil => exact h
  | cons q r ih =>
    obtain ⟨place, n⟩ := q
    cases place with
    | pool p => exact ih (canon_of_ms (State.poolWrite_ms ..) h)
    | own off => exact ih (canon_writeHome h)
    | remote pa =>
      rw [engPut]
      dsimp only
      split
      · exact ih (canon_wroteAt (canon_engineFar h))
      · exact canon_engineFar h

theorem canon_writeElem {gid : Nat} {tile : Bool} {va fmt e : Nat} {hi bad : Bool} {v : Nat} {a : EngAcc} (h : a.s.Canon) :
    (writeElem gid tile va fmt e hi bad v a).2.s.Canon := by
  unfold writeElem
  dsimp only
  split
  next _ _ _ e3 => exact canon_of_eq_acc e3 (canon_engPlaces h)
  next _ _ _ e3 =>
    have h1 := canon_of_eq_acc e3 (canon_engPlaces h)
    exact canon_engPut (canon_ite (canon_of_ms (State.freeWord_ms ..) (canon_engNow h1)) (canon_engNow h1))

theorem canon_clearPoolPoison {s : State} {bk : Nat} {written : List (Nat × Nat)} (h : s.Canon) : (s.clearPoolPoison bk written).Canon := by
  unfold State.clearPoolPoison
  dsimp only
  exact canon_ite h (canon_of_ms (State.modBlock_ms ..) h)

theorem canon_settle {gid : Nat} {a : EngAcc} (h : a.s.Canon) : (EngAcc.settle gid a).Canon := by
  unfold EngAcc.settle
  dsimp only
  exact canon_foldl (fun _ _ h1 => canon_ite (canon_of_ms (State.modBlock_ms ..) h1) (canon_ite (canon_of_mem (State.setPoison_mem ..) h1) h1))
    (canon_clearPoolPoison
      (canon_of_mem (State.clearPoison_mem ..) (canon_foldl (fun _ _ h1 => canon_spoilPeer h1) (canon_of_ms (State.modCore_ms ..) h))))

theorem canon_engStore {q : EngCmd} {va v : Nat} {s : State} (h : s.Canon) : (engStore q va v s).2.Canon := by
  unfold engStore
  dsimp only
  exact canon_settle (canon_writeElem h)

theorem canon_afterCommand {s : State} {gid : Nat} (h : s.Canon) : (s.afterCommand gid).Canon := by
  unfold State.afterCommand
  dsimp only
  exact canon_of_ms (State.releaseBlock_ms ..) (canon_of_ms (State.schedule_ms ..) (canon_of_ms (State.schedule_ms ..) h))

theorem canon_stopCommand {s : State} {q : EngCmd} {c total : Nat} {f : XFault} (h : s.Canon) : (s.stopCommand q c total f).Canon := by
  unfold State.stopCommand
  dsimp only
  exact canon_of_ms (State.schedule_ms ..) (canon_of_ms (State.modGroup_ms ..) (canon_modCommand (canon_of_ms (State.freeWord_ms ..) h)))

theorem canon_pauseCommand {s : State} {q : EngCmd} {x : EngStop} {i : Instr} (h : s.Canon) : (s.pauseCommand q x i).Canon := by
  unfold State.pauseCommand
  split
  · exact canon_ite h (canon_postNeed h)
  · exact h

theorem canon_haltCommand {s : State} {q : EngCmd} {c total : Nat} {x : EngStop} (h : s.Canon) : (s.haltCommand q c total x).Canon := by
  unfold State.haltCommand
  split
  · exact canon_ite (canon_afterCommand (canon_removeCommand h)) (canon_stopCommand h)
  · exact canon_pauseCommand h

theorem canon_chainNext {q : EngCmd} {s : State} (h : s.Canon) : (chainNext q s).Canon := by
  unfold chainNext
  dsimp only
  split
  next _ _ _ e3 => exact canon_haltCommand (canon_of_eq e3 (canon_engStore h))
  next _ _ _ e3 =>
    have h1 := canon_of_eq e3 (canon_engStore h)
    exact canon_ite (canon_afterCommand (canon_removeCommand (canon_modCommand h1))) (canon_of_ms (State.schedule_ms ..) (canon_modCommand h1))

theorem canon_endCommand {s : State} {q : EngCmd} (h : s.Canon) : (s.endCommand q).Canon := by
  unfold State.endCommand
  exact canon_ite (canon_chainNext h) (canon_afterCommand (canon_removeCommand h))

theorem canon_engRequest {q : EngCmd} {n : Nat} {s : State} (h : s.Canon) : (engRequest q n s).2.Canon := by
  unfold engRequest
  exact canon_spend h

theorem canon_engCount {q : EngCmd} {b : Nat} {s : State} (h : s.Canon) : (engCount q b s).2.Canon := by
  unfold engCount
  dsimp only
  split
  next _ _ _ e3 => exact canon_of_eq e3 (canon_coreReach h)
  next _ _ _ e3 => exact canon_of_eq e3 (canon_coreReach h)
  next _ _ _ e3 =>
    have h1 := canon_of_eq e3 (canon_coreReach h)
    dsimp only
    exact canon_ite h1 (canon_of_ms (State.poolWrite_ms ..) h1)
  next _ _ _ _ e4 =>
    have h1 := canon_of_eq e4 (canon_coreReach h)
    split
    · exact h1
    · exact canon_ite_snd (canon_engRequest h1) (canon_dropSector (canon_ite (canon_engRequest h1) (canon_writeHome (canon_engRequest h1))))
  next _ _ _ _ e4 =>
    have h1 := canon_of_eq e4 (canon_coreReach h)
    exact canon_ite_snd (canon_engRequest h1) (canon_engineFar (canon_engRequest h1))

theorem canon_finishCommand {s : State} {q : EngCmd} {code : Nat} (h : s.Canon) : (s.finishCommand q code).Canon := by
  unfold State.finishCommand
  dsimp only
  split
  · exact canon_flushCommand h
  · split
    · exact h
    · split
      · exact canon_endCommand h
      · split
        · split
          next _ _ _ e3 => exact canon_haltCommand (canon_of_eq e3 (canon_engStore h))
          next _ _ _ e3 => exact canon_of_ms (State.schedule_ms ..) (canon_modCommand (canon_of_eq e3 (canon_engStore h)))
        · split
          next _ _ _ e3 => exact canon_haltCommand (canon_of_eq e3 (canon_engCount h))
          next _ _ _ e3 => exact canon_endCommand (canon_modCommand (canon_of_eq e3 (canon_engCount h)))

theorem canon_usedEntry {α : Type} {parse : List Byte → Option α} {fields : List (Nat × Nat)} {gid i : Nat} {old : List Byte} {s : State} (h : s.Canon) :
    (usedEntry parse fields gid i old s).2.Canon := by
  have hread := canon_entryRead (gid := gid) (i := i) h
  unfold usedEntry
  split
  next _ _ e =>
    have hnow := canon_of_eq e hread
    split
    · exact hnow
    · exact canon_of_ms (State.freeWord_ms ..) hnow
  next _ _ e => exact canon_of_eq e hread

/-- What a place of an engine read hands over leaves memory as it is. -/
theorem canon_engRead {gid : Nat} {tile : Bool} {l : List (Nat × Nat)} {a : EngAcc} (h : a.s.Canon) : (engRead gid tile l a).2.s.Canon := by
  induction l generalizing a with
  | nil => exact h
  | cons q r ih =>
    obtain ⟨va, n⟩ := q
    rw [engRead]
    split
    next _ _ e => exact canon_of_eq e (canon_engLoc h)
    next place _ e =>
      have h1 := canon_of_eq e (canon_engLoc h)
      split
      next _ e1 => exact canon_of_eq e1 (canon_engToken h1)
      next _ t e1 =>
        have h2 := canon_of_eq e1 (canon_engToken h1)
        split
        · exact h2
        · cases place with
          | pool p =>
            dsimp only
            split
            · exact h2
            · split
              next _ _ e2 => exact canon_of_eq_acc e2 (ih h2)
              next _ _ e2 => exact canon_of_eq_acc e2 (ih h2)
          | own off =>
            have h3 := canon_of_mem (State.readHome_mem t (t.partOf gid) off n) h2
            dsimp only
            split
            · exact h3
            · split
              next _ _ e2 => exact canon_of_eq_acc e2 (ih h3)
              next _ _ e2 => exact canon_of_eq_acc e2 (ih h3)
          | remote pa =>
            have h3 := canon_of_mem (looks_farRead (t.sendRemote (t.vfOf gid) 0 pa n [] false) n).mem (canon_sendRemote h2)
            dsimp only
            split
            · exact h3
            · split
              next _ _ e2 => exact canon_of_eq_acc e2 (ih h3)
              next _ _ e2 => exact canon_of_eq_acc e2 (ih h3)

theorem canon_engWords {gid va n : Nat} {a : EngAcc} (h : a.s.Canon) : (engWords gid va n a).2.s.Canon := by
  induction n generalizing va a with
  | zero => exact h
  | succ n ih =>
    rw [engWords]
    split
    next e => exact canon_of_eq_acc e (canon_engRead h)
    next e =>
      have h1 := canon_of_eq_acc e (canon_engRead h)
      split
      next e1 => exact canon_of_eq_acc e1 (ih h1)
      next e1 => exact canon_of_eq_acc e1 (ih h1)

theorem canon_engOuter {gid va : Nat} {a : EngAcc} (h : a.s.Canon) : (engOuter gid va a).2.s.Canon := by
  unfold engOuter
  dsimp only
  split
  · exact h
  · split
    next _ _ _ e3 => exact canon_of_eq_acc e3 (canon_engWords h)
    next _ _ _ e3 =>
      have h1 := canon_of_eq_acc e3 (canon_engWords h)
      split
      · exact h1
      · split
        next _ _ _ e3 => exact canon_of_eq_acc e3 (canon_engWords h1)
        next _ _ _ e3 =>
          have h2 := canon_of_eq_acc e3 (canon_engWords h1)
          split
          · exact h2
          · exact h2

theorem canon_runElems {f : Nat → EngAcc → Except EngStop Unit × EngAcc} {n k : Nat} {a : EngAcc} (hf : ∀ y0 s, s.s.Canon → (f y0 s).2.s.Canon)
    (h : a.s.Canon) : (runElems f n k a).2.2.s.Canon := by
  induction n generalizing k a with
  | zero =>
    rw [runElems]
    exact h
  | succ n ih =>
    rw [runElems]
    split
    next _ _ _ e3 =>
      have h1 := canon_of_eq_acc e3 (hf _ _ h)
      exact h1
    next _ _ _ e3 =>
      have h1 := canon_of_eq_acc e3 (hf _ _ h)
      exact ih h1

theorem canon_readElem {gid : Nat} {tile : Bool} {va e : Nat} {hi : Bool} {a : EngAcc} (h : a.s.Canon) : (readElem gid tile va e hi a).2.s.Canon := by
  unfold readElem
  dsimp only
  split
  next _ _ _ e3 => exact canon_of_eq_acc e3 (canon_engRead h)
  next _ _ _ e3 =>
    have h1 := canon_of_eq_acc e3 (canon_engRead h)
    split
    · exact canon_of_ms (State.freeWord_ms ..) h1
    · exact h1

theorem canon_cpyElem {gid : Nat} {cv : EngCv} {x y : TensorEnt} {outer : List OuterDim} {i : Nat} {a : EngAcc} (h : a.s.Canon) :
    (cpyElem gid cv x y outer i a).2.s.Canon := by
  unfold cpyElem
  dsimp only
  split
  next _ _ _ e3 => exact canon_of_eq_acc e3 (canon_readElem h)
  next _ _ _ e3 =>
    have h1 := canon_of_eq_acc e3 (canon_readElem h)
    split
    · split
      next _ _ _ e3 => exact canon_of_eq_acc e3 (canon_readElem h1)
      next _ _ _ e3 =>
        have h2 := canon_of_eq_acc e3 (canon_readElem h1)
        split
        next _ _ _ e3 => exact canon_of_eq_acc e3 (canon_writeElem h2)
        next _ _ _ e3 => exact canon_writeElem (canon_of_eq_acc e3 (canon_writeElem h2))
    · exact canon_writeElem h1

theorem canon_indexAt {gid va i : Nat} {a : EngAcc} (h : a.s.Canon) : (indexAt gid va i a).2.s.Canon := by
  unfold indexAt
  exact canon_readElem h

theorem canon_rowElem {gid : Nat} {t : TableEnt} {tab r e : Nat} {a : EngAcc} (h : a.s.Canon) : (rowElem gid t tab r e a).2.s.Canon := by
  unfold rowElem
  dsimp only
  split
  next _ _ _ e3 => exact canon_of_eq_acc e3 (canon_readElem h)
  next _ _ _ e3 => exact canon_of_eq_acc e3 (canon_readElem h)

theorem canon_gatherElem {gid : Nat} {t : TableEnt} {base x e : Nat} {a : EngAcc} (h : a.s.Canon) : (gatherElem gid t base x e a).2.s.Canon := by
  unfold gatherElem
  dsimp only
  split
  next _ _ _ e3 => exact canon_of_eq_acc e3 (canon_rowElem h)
  next _ _ _ e3 =>
    have h1 := canon_of_eq_acc e3 (canon_rowElem h)
    split
    · split
      next _ _ _ e3 => exact canon_of_eq_acc e3 (canon_rowElem h1)
      next _ _ _ e3 => exact canon_of_eq_acc e3 (canon_rowElem h1)
    · exact h1

theorem canon_gthrElem {gid : Nat} {cv : EngCv} {t : TableEnt} {base : Nat} {y : TensorEnt} {idx i : Nat} {a : EngAcc} (h : a.s.Canon) :
    (gthrElem gid cv t base y idx i a).2.s.Canon := by
  unfold gthrElem
  dsimp only
  split
  next _ _ _ e3 => exact canon_of_eq_acc e3 (canon_indexAt h)
  next _ _ _ e3 =>
    have h1 := canon_of_eq_acc e3 (canon_indexAt h)
    split
    · exact canon_writeElem h1
    · split
      next _ _ _ e3 => exact canon_of_eq_acc e3 (canon_gatherElem h1)
      next _ _ _ e3 => exact canon_writeElem (canon_of_eq_acc e3 (canon_gatherElem h1))

theorem canon_bagElems {gid : Nat} {t : TableEnt} {base idx e n p : Nat} {a : EngAcc} (h : a.s.Canon) : (bagElems gid t base idx e n p a).2.s.Canon := by
  induction n generalizing p a with
  | zero => exact h
  | succ n ih =>
    rw [bagElems]
    split
    next e1 => exact canon_of_eq_acc e1 (canon_indexAt h)
    next e1 =>
      have h1 := canon_of_eq_acc e1 (canon_indexAt h)
      split
      · split
        next e2 => exact canon_of_eq_acc e2 (ih h1)
        next e2 => exact canon_of_eq_acc e2 (ih h1)
      · split
        next e2 => exact canon_of_eq_acc e2 (canon_gatherElem h1)
        next e2 =>
          have h2 := canon_of_eq_acc e2 (canon_gatherElem h1)
          split
          next e3 => exact canon_of_eq_acc e3 (ih h2)
          next e3 => exact canon_of_eq_acc e3 (ih h2)

theorem canon_gbagElem {gid : Nat} {cv : EngCv} {t : TableEnt} {base : Nat} {y : TensorEnt} {mode idx offs i : Nat} {a : EngAcc} (h : a.s.Canon) :
    (gbagElem gid cv t base y mode idx offs i a).2.s.Canon := by
  unfold gbagElem
  dsimp only
  split
  next _ _ _ e3 => exact canon_of_eq_acc e3 (canon_readElem h)
  next _ _ _ e3 =>
    have h1 := canon_of_eq_acc e3 (canon_readElem h)
    split
    next _ _ _ e3 => exact canon_of_eq_acc e3 (canon_readElem h1)
    next _ _ _ e3 =>
      have h2 := canon_of_eq_acc e3 (canon_readElem h1)
      split
      next _ _ _ e3 => exact canon_of_eq_acc e3 (canon_bagElems h2)
      next _ _ _ e3 => exact canon_writeElem (canon_of_eq_acc e3 (canon_bagElems h2))

theorem canon_scaleOf {gid : Nat} {x : TensorEnt} {e k : Nat} {a : EngAcc} (h : a.s.Canon) : (scaleOf gid x e k a).2.s.Canon := by
  unfold scaleOf
  split
  · exact h
  · split
    next _ _ _ e3 => exact canon_of_eq_acc e3 (canon_readElem h)
    next _ _ _ e3 => exact canon_of_eq_acc e3 (canon_readElem h)

theorem canon_sctrAdd {gid : Nat} {t : TableEnt} {sf code : Nat} {X : Option Nat} {bad : Bool} {pl : List (Nat × Nat)} {a : EngAcc} (h : a.s.Canon) :
    (sctrAdd gid t sf code X bad pl a).2.s.Canon := by
  unfold sctrAdd
  dsimp only
  split
  next e => exact canon_of_eq_acc e (canon_engPlaces h)
  next e =>
    have h1 := canon_of_eq_acc e (canon_engPlaces h)
    split
    · exact canon_wroteAt (canon_engineFar h1)
    · exact canon_engineFar h1
  next e =>
    have h1 := canon_of_eq_acc e (canon_engPlaces h)
    split
    next e1 => exact canon_of_eq_acc e1 (canon_engRead h1)
    next e1 => exact canon_engPut (canon_of_eq_acc e1 (canon_engRead h1))

theorem canon_sctrElem {gid : Nat} {t : TableEnt} {base : Nat} {x : TensorEnt} {idx i : Nat} {a : EngAcc} (h : a.s.Canon) :
    (sctrElem gid t base x idx i a).2.s.Canon := by
  unfold sctrElem
  dsimp only
  split
  next _ _ _ e3 => exact canon_of_eq_acc e3 (canon_indexAt h)
  next _ _ _ e3 =>
    have h1 := canon_of_eq_acc e3 (canon_indexAt h)
    split
    · exact h1
    · split
      next _ _ _ e3 => exact canon_of_eq_acc e3 (canon_readElem h1)
      next _ _ _ e3 =>
        have h2 := canon_of_eq_acc e3 (canon_readElem h1)
        split
        next _ _ _ e3 => exact canon_of_eq_acc e3 (canon_scaleOf h2)
        next _ _ _ e3 => exact canon_sctrAdd (canon_of_eq_acc e3 (canon_scaleOf h2))

theorem canon_runStream {j : StreamJob} {c : Nat} {s : State} (h : s.Canon) : (runStream j c s).s.Canon := by
  unfold runStream
  dsimp only
  split
  · split
    · split
      next _ _ _ e3 =>
        have h1 := canon_of_eq_acc e3 (canon_engOuter (canon_usedEntry (canon_usedEntry h)))
        exact canon_settle h1
      next _ _ _ e3 =>
        have h1 := canon_of_eq_acc e3 (canon_engOuter (canon_usedEntry (canon_usedEntry h)))
        exact canon_settle (canon_runElems (fun _ _ h2 => canon_cpyElem h2) h1)
    · exact canon_settle (canon_usedEntry (canon_usedEntry h))
  · split
    · split
      · exact canon_settle (canon_runElems (fun _ _ h1 => canon_gthrElem h1) (canon_usedEntry (canon_usedEntry h)))
      · split
        · exact canon_settle (canon_runElems (fun _ _ h1 => canon_gbagElem h1) (canon_usedEntry (canon_usedEntry h)))
        · exact canon_settle (canon_runElems (fun _ _ h1 => canon_sctrElem h1) (canon_usedEntry (canon_usedEntry h)))
    · exact canon_settle (canon_usedEntry (canon_usedEntry h))

theorem steps_EngineCommandComplete {core id : Nat} {s : State} : Steps s (execEngineCommandComplete core id s) := by
  unfold execEngineCommandComplete
  dsimp only
  split
  · exact steps_next fun h => h
  · split
    · exact steps_next fun h => h
    · split
      · exact steps_next fun h => canon_finishCommand h
      · split
        · exact steps_next fun h => canon_haltCommand (canon_modCommand (canon_runStream h))
        · exact steps_next fun h => canon_finishCommand (canon_modCommand (canon_runStream h))

theorem steps_EngineFault {core id : Nat} {s : State} : Steps s (execEngineFault core id s) := by
  unfold execEngineFault
  dsimp only
  split
  · exact steps_next fun h => h
  · split
    · exact steps_next fun h => canon_removeCommand h
    · split
      · split
        · exact steps_next fun h => canon_afterCommand (canon_removeCommand (canon_of_ms (State.reportError_ms ..) h))
        · exact steps_next fun h => h
      · exact steps_next fun h => canon_takeEngFault h

theorem canon_enqEntries {chain : Bool} {gid sub : Nat} {w : List Word} {s : State} (h : s.Canon) : (enqEntries chain gid sub w s).2.Canon := by
  unfold enqEntries
  dsimp only
  split
  · split
    next _ _ _ e3 => exact canon_of_eq e3 (canon_entryOf h)
    next _ _ _ e3 =>
      have h1 := canon_of_eq e3 (canon_entryOf h)
      split
      next _ _ _ e3 => exact canon_of_eq e3 (canon_entryOf h1)
      next _ _ _ e3 =>
        have h2 := canon_of_eq e3 (canon_entryOf h1)
        exact canon_ite_snd h2 h2
  · exact h
  · exact h
  · exact h
  · split
    next _ _ _ e3 => exact canon_of_eq e3 (canon_entryOf h)
    next _ _ _ e3 =>
      have h1 := canon_of_eq e3 (canon_entryOf h)
      split
      · exact h1
      · split
        next _ _ _ e3 => exact canon_of_eq e3 (canon_entryOf h1)
        next _ _ _ e3 =>
          have h2 := canon_of_eq e3 (canon_entryOf h1)
          exact canon_ite_snd h2 h2

theorem canon_enqCheck {chain : Bool} {gid sub : Nat} {w : List Word} {s : State} (h : s.Canon) : (enqCheck chain gid sub w s).2.Canon := by
  unfold enqCheck
  split
  next _ _ _ e3 => exact canon_of_eq e3 (canon_enqEntries h)
  next _ _ _ e3 =>
    have h1 := canon_of_eq e3 (canon_enqEntries h)
    split
    · exact h1
    · exact h1

theorem steps_ChainEntryStart {core id : Nat} {s : State} : Steps s (execChainEntryStart core id s) := by
  unfold execChainEntryStart
  dsimp only
  split
  · exact steps_next fun h => h
  · split
    · exact steps_next fun h => h
    · split
      · exact steps_next fun h => canon_engRequest h
      · split
        next _ _ _ e3 =>
          refine steps_next fun h => ?_
          exact canon_stopCommand (canon_of_eq e3 (canon_coreRead (canon_engRequest h)))
        next _ _ _ e3 =>
          refine steps_next fun h => ?_
          exact canon_pauseCommand (canon_of_eq e3 (canon_coreRead (canon_engRequest h)))
        next _ _ _ _ e4 =>
          split
          · refine steps_next fun h => ?_
            exact canon_stopCommand (canon_of_eq e4 (canon_coreRead (canon_engRequest h)))
          · split
            next _ _ _ e3 =>
              refine steps_next fun h => ?_
              exact canon_pauseCommand (canon_of_eq e3 (canon_enqCheck (canon_of_eq e4 (canon_coreRead (canon_engRequest h)))))
            next _ _ _ e3 =>
              refine steps_next fun h => ?_
              exact canon_stopCommand (canon_of_eq e3 (canon_enqCheck (canon_of_eq e4 (canon_coreRead (canon_engRequest h)))))
            next _ _ _ e3 =>
              refine steps_next fun h => ?_
              exact canon_of_ms (State.schedule_ms ..)
                (canon_modCommand (canon_of_eq e3 (canon_enqCheck (canon_of_eq e4 (canon_coreRead (canon_engRequest h))))))

theorem canon_dropEnded {s : State} {cs : List Collective} (h : s.Canon) : (s.dropEnded cs).Canon := by
  unfold State.dropEnded
  exact canon_set h rfl

theorem canon_refusedColl {s : State} {cs : List Collective} (h : s.Canon) : (s.refusedColl cs).Canon := by
  unfold State.refusedColl
  exact canon_foldl (fun _ _ h1 => canon_endColl h1) (canon_dropEnded h)

theorem canon_probePieces {w : XWho} {need : Nat} {l : List (Nat × Nat)} {s : State} (h : s.Canon) : (probePieces w need l s).2.Canon := by
  induction l generalizing s with
  | nil =>
    rw [probePieces]
    exact h
  | cons x l ih =>
    obtain ⟨p, q⟩ := x
    rw [probePieces]
    split
    next _ _ _ e3 => exact canon_of_eq e3 (canon_resolve h)
    next _ _ _ _ e4 =>
      have h1 := canon_of_eq e4 (canon_resolve h)
      split
      · exact h1
      · exact ih h1
    next _ _ _ _ _ e5 => exact ih (canon_of_eq e5 (canon_resolve h))

theorem canon_unitProbe {w : XWho} {need va n : Nat} {s : State} (h : s.Canon) : (unitProbe w need va n s).2.Canon := by
  unfold unitProbe
  exact canon_probePieces h

theorem canon_probeColls {sources : Bool} {l : List Collective} {s : State} (h : s.Canon) : (probeColls sources l s).2.Canon := by
  induction l generalizing s with
  | nil =>
    rw [probeColls]
    exact h
  | cons x l ih =>
    rw [probeColls]
    split
    next _ _ _ e3 => exact canon_of_eq e3 (canon_ite_snd (canon_unitProbe h) h)
    next _ _ e2 =>
      have h1 := canon_of_eq e2 (canon_ite_snd (canon_unitProbe h) h)
      split
      next _ _ _ e3 => exact canon_of_eq e3 (canon_unitProbe h1)
      next _ _ e2 => exact ih (canon_of_eq e2 (canon_unitProbe h1))

theorem canon_readFlagged {w : XWho} {l : List (Nat × Nat)} {s : State} (h : s.Canon) : (readFlagged w l s).2.Canon := by
  induction l generalizing s with
  | nil =>
    rw [readFlagged]
    exact h
  | cons x l ih =>
    obtain ⟨p, q⟩ := x
    rw [readFlagged]
    split
    next _ _ _ e3 => exact canon_of_eq e3 (canon_unitRead h)
    next _ _ _ _ e4 =>
      have h1 := canon_of_eq e4 (canon_unitRead h)
      split
      next _ _ _ e3 => exact canon_of_eq e3 (ih h1)
      next _ _ _ e3 => exact canon_of_eq e3 (ih h1)

theorem canon_collSources {cs : List Collective} {s : State} (h : s.Canon) : (collSources cs s).2.Canon := by
  unfold collSources
  refine canon_foldl_snd (fun _ _ h => ?_) h
  exact canon_readFlagged h

theorem canon_collBytes {s : State} {c : Collective} {srcs : List (List (Byte × Bool))} (h : s.Canon) : (s.collBytes c srcs).2.Canon := by
  unfold State.collBytes
  dsimp only
  exact canon_ite_snd (canon_freeBytes h) h

theorem canon_writeFlagged {w : XWho} {l : List (Nat × Nat)} {b : List (Byte × Bool)} {s : State} (h : s.Canon) : (writeFlagged w l b s).2.Canon := by
  induction l generalizing b s with
  | nil =>
    rw [writeFlagged]
    exact h
  | cons x l ih =>
    obtain ⟨p, q⟩ := x
    rw [writeFlagged]
    split
    next _ _ _ e3 => exact canon_of_eq e3 (canon_writePieces h)
    next _ _ _ e3 => exact ih (canon_of_eq e3 (canon_writePieces h))

theorem canon_deliverColl {s : State} {cs : List Collective} {bytes : List (List (Byte × Bool))} (h : s.Canon) : (s.deliverColl cs bytes).Canon := by
  unfold State.deliverColl
  dsimp only
  refine canon_foldl ?_ h
  intro x1 x2 h1
  split
  next _ _ _ e3 => exact canon_endColl (canon_of_eq e3 (canon_writeFlagged (canon_collBytes h1)))
  next _ _ _ e3 => exact canon_endColl (canon_of_eq e3 (canon_writeFlagged (canon_collBytes h1)))

theorem canon_performColl {s : State} {cs : List Collective} (h : s.Canon) : (s.performColl cs).Canon := by
  unfold State.performColl
  dsimp only
  exact canon_ite (canon_foldl (fun _ _ h1 => canon_endColl h1) (canon_collSources h)) (canon_deliverColl (canon_collSources h))

theorem canon_mismatchColl {s : State} {cs : List Collective} (h : s.Canon) : (s.mismatchColl cs).Canon := by
  unfold State.mismatchColl
  dsimp only
  exact canon_foldl (fun _ _ h1 => canon_endColl (canon_unitWriteRange (canon_freeBytes h1))) (canon_dropEnded h)

theorem canon_sendSource {c : Collective} {again : Instr} {s : State} (h : s.Canon) : (sendSource c again s).Canon := by
  unfold sendSource
  dsimp only
  split
  next _ _ _ e3 => exact canon_unitAssist (canon_of_eq e3 (canon_unitProbe h))
  next _ _ e2 =>
    have h1 := canon_of_eq e2 (canon_unitProbe h)
    split
    next _ _ _ e3 => exact canon_of_ms (State.send_ms ..) (canon_endColl (canon_of_eq e3 (canon_readFlagged h1)))
    next _ _ _ e3 => exact canon_of_ms (State.send_ms ..) (canon_set (canon_of_eq e3 (canon_readFlagged h1)) rfl)

theorem canon_farColl {s : State} {c : Collective} {status : Nat} {bytes : List Byte} {again : Instr} (h : s.Canon) :
    (s.farColl c status bytes again).Canon := by
  unfold State.farColl
  dsimp only
  split
  · exact h
  · split
    · exact canon_refusedColl h
    · split
      next _ _ _ _ e4 => exact canon_unitAssist (canon_of_eq e4 (canon_probeColls h))
      next _ _ e2 =>
        have h1 := canon_of_eq e2 (canon_probeColls h)
        exact canon_ite (canon_deliverColl h1) (canon_mismatchColl h1)

theorem steps_CollComplete {id status : Nat} {bytes : List (BitVec 8)} {s : State} : Steps s (execCollComplete id status bytes s) := by
  unfold execCollComplete
  dsimp only
  split
  · exact steps_next fun h => h
  · split
    · exact steps_next fun h => h
    · split
      · exact steps_next fun h => canon_endColl h
      · split
        · split
          · exact steps_next fun h => h
          · split
            · exact steps_next fun h => canon_refusedColl h
            · split
              next _ _ _ _ e4 =>
                refine steps_next fun h => ?_
                exact canon_unitAssist (canon_of_eq e4 (canon_probeColls h))
              next _ _ e2 =>
                refine steps_next fun h => ?_
                have h1 := canon_of_eq e2 (canon_probeColls h)
                exact canon_ite (canon_performColl h1) (canon_mismatchColl h1)
        · split
          · exact steps_next fun h => canon_endColl h
          · split
            · exact steps_next fun h => canon_sendSource h
            · exact steps_next fun h => canon_farColl h

theorem canon_moveSignal {s : State} {m : TierMove} {rest : List TierMove} (h : s.Canon) : (s.moveSignal m rest).Canon := by
  unfold State.moveSignal
  dsimp only
  split
  · exact canon_set (canon_of_ms (ms_sendMarkers ..) h) rfl
  · split
    · exact h
    · split
      next _ _ _ e3 => exact canon_unitAssist (canon_of_eq e3 (canon_unitSignal h))
      next _ _ _ _ e4 => exact canon_of_ms (State.schedule_ms ..) (canon_set (canon_of_eq e4 (canon_unitSignal h)) rfl)

theorem canon_moveEntry {s : State} {m : TierMove} (h : s.Canon) : (s.moveEntry m).2.Canon := by
  unfold State.moveEntry
  dsimp only
  split
  next _ _ _ e3 =>
    have h1 := canon_of_eq e3 (canon_lookup2 h)
    split
    · exact h1
    · split
      next _ _ _ e3 =>
        have h2 := canon_of_eq e3 (canon_readTable2 h1)
        split
        next _ _ _ e3 =>
          have h3 := canon_of_eq e3 (canon_readTable2 h2)
          split
          next _ _ _ e3 => exact canon_of_eq e3 (canon_readTable2 h3)
          next _ _ _ e3 => exact canon_of_eq e3 (canon_readTable2 h3)
          next _ _ _ e3 => exact canon_of_eq e3 (canon_readTable2 h3)
        next _ _ _ e3 => exact canon_of_eq e3 (canon_readTable2 h2)
        next _ _ _ e3 => exact canon_of_eq e3 (canon_readTable2 h2)
      next _ _ _ e3 => exact canon_of_eq e3 (canon_readTable2 h1)
      next _ _ _ e3 => exact canon_of_eq e3 (canon_readTable2 h1)
  next _ _ _ e3 => exact canon_of_eq e3 (canon_lookup2 h)
  next _ _ _ e3 => exact canon_of_eq e3 (canon_lookup2 h)

theorem canon_tearLanes {s : State} {pkg lo hi n : Nat} (h : s.Canon) : (s.tearLanes pkg lo hi n).Canon := by
  unfold State.tearLanes
  dsimp only
  exact canon_set h rfl

theorem canon_flipRange {s : State} {m : TierMove} {x : MovePlan} (h : s.Canon) : (s.flipRange m x).Canon := by
  unfold State.flipRange
  dsimp only
  exact canon_tearLanes (canon_dropRanges (canon_ite (canon_pokeHyper h) (canon_sendRemote h)))

theorem canon_dropFar {s : State} {pa : Nat} (h : s.Canon) : (s.dropFar pa).Canon := by
  unfold State.dropFar
  exact canon_spoilPeer (canon_dropLine h)

theorem canon_copyFar {s : State} {vf pkg src dst : Nat} (h : s.Canon) : (s.copyFar vf pkg src dst).Canon := by
  unfold State.copyFar
  dsimp only
  exact canon_dropFar (canon_sendRemote (canon_of_mem (looks_farRead ..).mem (canon_sendRemote h)))

theorem canon_copySector {s : State} {p src dst : Nat} (h : s.Canon) : (s.copySector p src dst).Canon := by
  unfold State.copySector
  dsimp only
  exact canon_of_mem (State.setPoison_mem ..) (canon_dropLine (canon_writeHome h))

theorem canon_spoilSector {s : State} {p dst : Nat} (h : s.Canon) : (s.spoilSector p dst).Canon := by
  unfold State.spoilSector
  dsimp only
  exact canon_ite (canon_dropLine (canon_writeHome (canon_freeBytes h))) h

theorem canon_moveRange {s : State} {m : TierMove} (h : s.Canon) : (s.moveRange m).2.Canon := by
  unfold State.moveRange
  dsimp only
  split
  next _ _ _ e3 => exact canon_of_eq e3 (canon_moveEntry h)
  next _ _ e2 => exact canon_of_eq e2 (canon_moveEntry h)
  next _ _ _ e3 =>
    have h1 := canon_of_eq e3 (canon_moveEntry h)
    split
    · split
      · exact h1
      · split
        · exact canon_ite_snd (canon_of_ms (State.freeWord_ms ..) h1)
            (canon_flipRange (canon_foldl (fun _ _ h2 => canon_copyFar h2) (canon_of_ms (State.freeWord_ms ..) h1)))
        · split
          · split
            · split
              · exact h1
              · dsimp only
                exact canon_flipRange (canon_foldl (fun _ _ h2 => canon_copySector h2) h1)
            · dsimp only
              exact canon_foldl (fun _ _ h2 => canon_spoilSector h2) h1
          · split
            · split
              · exact h1
              · dsimp only
                exact canon_flipRange (canon_foldl (fun _ _ h2 => canon_copySector h2) h1)
            · dsimp only
              exact canon_foldl (fun _ _ h2 => canon_spoilSector h2) h1
    · split
      · exact h1
      · split
        · exact canon_ite_snd (canon_of_ms (State.freeWord_ms ..) h1)
            (canon_flipRange (canon_foldl (fun _ _ h2 => canon_copyFar h2) (canon_of_ms (State.freeWord_ms ..) h1)))
        · split
          · split
            · split
              · exact h1
              · dsimp only
                exact canon_flipRange (canon_foldl (fun _ _ h2 => canon_copySector h2) h1)
            · dsimp only
              exact canon_foldl (fun _ _ h2 => canon_spoilSector h2) h1
          · split
            · split
              · exact h1
              · dsimp only
                exact canon_flipRange (canon_foldl (fun _ _ h2 => canon_copySector h2) h1)
            · dsimp only
              exact canon_foldl (fun _ _ h2 => canon_spoilSector h2) h1

theorem steps_TierMoveComplete {s : State} : Steps s (execTierMoveComplete s) := by
  unfold execTierMoveComplete
  split
  · exact steps_next fun h => h
  next m rest _ =>
    dsimp only
    split
    · exact steps_next canon_moveSignal
    · split
      next x t e =>
        refine steps_next fun h => canon_unitAssist ?_
        split at e
        · cases e
        · exact canon_of_eq e (canon_moveRange h)
      next k t e =>
        have ht : s.Canon → t.Canon := by
          intro h
          split at e
          · cases e
            exact h
          · exact canon_of_eq e (canon_moveRange h)
        split
        next e1 => exact steps_next fun h => canon_unitAssist (canon_of_eq e1 (canon_unitWrite (canon_set (ht h) rfl)))
        next e1 => exact steps_next fun h => canon_of_ms (State.schedule_ms ..) (canon_set (canon_of_eq e1 (canon_unitWrite (canon_set (ht h) rfl))) rfl)
        next e1 => exact steps_next fun h => canon_moveSignal (canon_set (canon_of_eq e1 (canon_unitWrite (canon_set (ht h) rfl))) rfl)

theorem canon_validateFar {s : State} {t : Nat} {x : TxLane} {below : List (Nat × Byte)} (h : s.Canon) : (s.validateFar t x below).2.Canon := by
  unfold State.validateFar
  dsimp only
  exact canon_ite_snd h (canon_of_ms (State.freeWord_ms ..) h)

theorem canon_validate {s : State} {t : Nat} {x : TxLane} {below : List (Nat × Byte)} (h : s.Canon) : (s.validate t x below).2.Canon := by
  unfold State.validate
  exact canon_ite_snd (canon_validateFar h) (canon_ite_snd h (canon_ite_snd h h))

theorem canon_updatePeer {s : State} {core pa : Nat} {b : List Byte} (h : s.Canon) : (s.updatePeer core pa b).Canon := by
  unfold State.updatePeer
  exact canon_spoilPeer (canon_of_ms (State.updateL1_ms ..) h)

theorem canon_postWrite {s : State} {gid pa : Nat} {b : List Byte} {poison : Bool} (h : s.Canon) : (s.postWrite gid pa b poison).Canon := by
  unfold State.postWrite
  exact canon_of_ms (State.modGroup_ms ..) (canon_sendRemote h)

theorem canon_performWrites {s : State} {gid : Nat} {x : TxLane} (h : s.Canon) : (s.performWrites gid x).Canon := by
  unfold State.performWrites
  refine canon_foldl ?_ h
  intro x1 x2 h1
  split
  · exact canon_of_ms (State.updateL1_ms ..) (canon_writeHome h1)
  · exact canon_updatePeer (canon_postWrite h1)

theorem canon_turnLanes {gid : Nat} {l : List Nat} {below : List (Nat × Byte)} {s : State} (h : s.Canon) : (turnLanes gid l below s).2.Canon := by
  induction l generalizing below s with
  | nil =>
    rw [turnLanes]
    exact h
  | cons x l ih =>
    rw [turnLanes]
    dsimp only
    split
    next _ _ _ e3 =>
      have h1 := canon_of_eq e3 (canon_validate h)
      dsimp only
      exact ih h1
    next _ _ e2 => exact ih (canon_modLane (canon_of_mem (State.clearPoison_mem ..) (canon_performWrites (canon_of_eq e2 (canon_validate h)))))

theorem canon_turnHosts {s : State} {gid : Nat} {lanes : BitVec 64} (h : s.Canon) : (s.turnHosts gid lanes).Canon := by
  unfold State.turnHosts
  dsimp only
  exact canon_foldl (fun _ _ h1 => canon_of_ms (State.checkHost_ms ..) h1) h

theorem canon_completeEntry {s : State} {gid e : Nat} {f : Ctx → Ctx} (h : s.Canon) : (s.completeEntry gid e f).Canon := by
  unfold State.completeEntry
  split
  · exact h
  · exact canon_of_ms (State.retire_ms ..) h

theorem canon_txcOthers {s : State} {gid : Nat} {m : BitVec 64} (h : s.Canon) : (s.txcOthers gid m).Canon := by
  unfold State.txcOthers
  dsimp only
  split
  · exact h
  · exact canon_of_ms (State.releaseLockOf_ms ..) (canon_of_ms (State.modGroup_ms ..) h)

theorem canon_endTurn {s : State} {gid e v : Nat} (h : s.Canon) : (s.endTurn gid e v).Canon := by
  unfold State.endTurn
  dsimp only
  split
  · exact h
  · exact canon_of_settled (State.abortLanes_settled ..) (canon_completeEntry (canon_txcOthers h))

theorem canon_groupTurn {s : State} {gid e : Nat} {lanes : BitVec 64} (h : s.Canon) : (s.groupTurn gid e lanes).Canon := by
  unfold State.groupTurn
  dsimp only
  split
  · exact canon_ite h
      (canon_ite
        (canon_endTurn (canon_ite (canon_of_ms (State.dropL1_ms ..) (canon_turnLanes (canon_turnHosts h))) (canon_turnLanes (canon_turnHosts h))))
        (canon_of_settled (State.abortLanes_settled ..)
          (canon_of_ms (State.modGroup_ms ..)
            (canon_ite (canon_of_ms (State.dropL1_ms ..) (canon_turnLanes (canon_turnHosts h))) (canon_turnLanes (canon_turnHosts h))))))
  · exact h

theorem canon_hartTurn {s : State} {k : Nat} (h : s.Canon) : (s.hartTurn k).Canon := by
  unfold State.hartTurn
  dsimp only
  exact canon_ite h
    (canon_of_mem (State.clearPoison_mem ..)
      (canon_foldl (fun _ _ h1 => canon_of_mem (onlyReads_hostCopy ..).mem (canon_writeHome h1)) (canon_of_ms (State.setHart_ms ..) h)))

theorem steps_SluiceTurn {s : State} : Steps s (execSluiceTurn s) := by
  unfold execSluiceTurn
  split
  · exact steps_next fun h => h
  · exact steps_next fun h => canon_groupTurn (canon_set h rfl)
  · exact steps_next fun h => canon_hartTurn (canon_set h rfl)

theorem canon_endGhost {s : State} {part : Nat} (h : s.Canon) : (s.endGhost part).Canon := by
  unfold State.endGhost
  dsimp only
  exact canon_ite (canon_of_ms (State.modPart_ms ..) (canon_of_ms (ms_sendMarkers ..) h)) (canon_ite (canon_of_ms (State.releaseLock_ms ..) h) h)

theorem canon_fallbackAborts {s : State} {p : Nat} (h : s.Canon) : (s.fallbackAborts p).Canon := by
  unfold State.fallbackAborts
  dsimp only
  refine canon_foldl (fun _ _ h1 => canon_of_ms (State.abortHart_ms ..) h1) ?_
  refine canon_foldl ?_ h
  intro x1 x2 h1
  split
  · exact h1
  · exact canon_ite (canon_of_settled (State.abortLanes_settled ..) h1) h1

theorem steps_FallbackLockGrant {part : Nat} {s : State} : Steps s (execFallbackLockGrant part s) := by
  unfold execFallbackLockGrant
  dsimp only
  split
  · exact steps_next fun h => canon_ite (canon_endGhost h) h
  · exact steps_next fun h => canon_of_ms (State.modGroup_ms ..) (canon_fallbackAborts (canon_of_ms (State.setPart_ms ..) h))
  · exact steps_next fun h => h

theorem steps_HostTxInterrupt {k : Nat} {exception : Bool} {s : State} : Steps s (execHostTxInterrupt k exception s) := by
  unfold execHostTxInterrupt
  exact steps_next fun h => canon_of_ms (State.abortHart_ms ..) h

theorem canon_reach {s : State} {c : Ctx} {t a size : Nat} {k : AccKind} (h : s.Canon) : (s.reach c t a size k).2.Canon := by
  unfold State.reach
  split
  · split
    · exact h
    · split
      · exact h
      · split
        · split
          · exact h
          · exact h
        · split
          · exact h
          · split
            next _ _ _ _ e4 => exact canon_of_eq e4 (canon_resolve h)
            next _ _ _ _ e4 => exact canon_of_eq e4 (canon_resolve h)
            next _ _ _ e3 => exact canon_of_eq e3 (canon_resolve h)
            next _ _ _ e3 => exact canon_of_eq e3 (canon_resolve h)
  · exact h

theorem canon_assistWait {c : Ctx} {x : AssistNeed} {s : State} (h : s.Canon) : (assistWait c x s).state.Canon := by
  unfold assistWait
  dsimp only
  dsimp only [Done.state]
  exact canon_waitNeed h

theorem canon_containWait {c : Ctx} {size : Nat} {places : List Reach} {s : State} {d : Done} (h : s.Canon) (hd : d.state.Canon) :
    ((containWait c size places s).getD d).state.Canon := by
  unfold containWait
  dsimp only
  split
  · exact hd
  · exact canon_assistWait h

theorem canon_spendAll {vf die : Nat} {who : Nat × Nat} {l : List Nat} {n : Nat} {s : State} (h : s.Canon) : (spendAll vf die who l n s).2.Canon := by
  induction l generalizing n s with
  | nil =>
    rw [spendAll]
    exact h
  | cons x l ih =>
    rw [spendAll]
    exact canon_ite_snd (ih (canon_spend h)) (canon_spend h)

theorem canon_chargeSectors {c : Ctx} {sizes : List Nat} {k : State → Done} {s : State} (hk : ∀ s, s.Canon → (k s).state.Canon) (h : s.Canon) :
    (chargeSectors c sizes k s).state.Canon := by
  unfold chargeSectors
  dsimp only
  split
  next _ _ _ e3 => exact canon_of_eq e3 (canon_spendAll h)
  next _ _ e2 => exact hk _ (canon_of_eq e2 (canon_spendAll h))

theorem canon_bowDone {d : BitVec 8} {v : Nat} {s : State} {c : Ctx} (h : s.Canon) : (bowDone d v s c).state.Canon := by
  unfold bowDone
  exact canon_seq (canon_of_mem (looks_dropDenials ..).mem (canon_acquire h))

theorem canon_bowBody {word : BitVec 32} {d a b : BitVec 8} {s : State} {c : Ctx} (h : s.Canon) : (bowBody word d a b s c).state.Canon := by
  unfold bowBody
  dsimp only
  split
  · dsimp only [Done.state]
    exact canon_of_mem (looks_dropDenials ..).mem h
  · split
    · dsimp only [Done.state]
      exact canon_of_mem (looks_dropDenials ..).mem h
    · split
      next _ _ _ e3 => exact canon_assistWait (canon_of_eq e3 (canon_reach h))
      next _ _ _ e3 =>
        have h1 := canon_of_eq e3 (canon_reach h)
        dsimp only [Done.state]
        exact canon_of_mem (looks_dropDenials ..).mem h1
      next _ _ _ _ e4 =>
        have h1 := canon_of_eq e4 (canon_reach h)
        exact canon_containWait h1
          (canon_chargeSectors
            (fun _ h2 =>
              canon_ite_done (canon_of_mem (looks_dropDenials ..).mem h2)
                (canon_ite_done (canon_bowDone (canon_of_mem (State.noteRead_mem ..) h2)) (canon_of_mem (State.noteRead_mem ..) h2))) h1)
      next _ _ _ _ e4 =>
        have h1 := canon_of_eq e4 (canon_reach h)
        exact canon_chargeSectors (fun _ h2 => canon_sendRemote (canon_of_ms (State.modGroup_ms ..) (canon_of_ms (State.fresh_ms ..) h2))) h1
      next _ _ _ e3 => exact canon_of_eq e3 (canon_reach h)

theorem steps_BowReread {gid entry : Nat} {s : State} : Steps s (execBowReread gid entry s) := by
  unfold execBowReread
  split
  · split
    · split
      · exact steps_finish canon_bowBody
      · exact steps_next fun h => h
    · exact steps_next fun h => h
  · exact steps_next fun h => h

theorem steps_SlpWake {gid entry : Nat} {s : State} : Steps s (execSlpWake gid entry s) := by
  unfold execSlpWake
  split
  · split
    · exact steps_next fun h => canon_ite (canon_of_ms (State.retire_ms ..) h) h
    · exact steps_next fun h => h
  · exact steps_next fun h => h

theorem steps_YldExpire {gid : Nat} {s : State} : Steps s (execYldExpire gid s) := by
  unfold execYldExpire
  dsimp only
  split
  · exact steps_next fun h => h
  · exact steps_next fun h => canon_ite (canon_of_ms (State.setGroup_ms ..) h) h

end Sys2Proof.Machine
end

