-- ==== Sys2Proof/Proofs/CanonicalInstructions.lean ====
section
/-! SUPPORT. Canonical memory (log 5) through what the device instructions do, each body once. -/

namespace Sys2Proof.Machine

open Sys2Proof.Claims

theorem canon_early {s : State} {c : Ctx} {code : Nat} (h : s.Canon) : (Done.early s c code).state.Canon := h

theorem canon_setPrefixState {f : PfxState → Option PfxState} {s : State} {c : Ctx} (h : s.Canon) : (setPrefixState f s c).state.Canon := by
  unfold setPrefixState
  dsimp only
  split
  · exact canon_early h
  · dsimp only [Done.state]
    exact canon_ite (canon_of_ms (State.putCtx_ms ..) h) (canon_of_ms (State.modGroup_ms ..) (canon_of_ms (State.putCtx_ms ..) h))

theorem canon_noteTaken {s : State} {c : Ctx} {target : BitVec 64} (h : s.Canon) : (s.noteTaken c target).Canon := by
  unfold State.noteTaken
  exact canon_ite h (canon_of_ms (State.modGroup_ms ..) h)

theorem canon_divide {s : State} {c : Ctx} {taken target : BitVec 64} (h : s.Canon) : (divide s c taken target).state.Canon := by
  unfold divide
  dsimp only
  split
  · exact h
  · exact canon_ite_done h (canon_noteTaken (canon_of_ms (State.setGroup_ms ..) h))

theorem canon_jumpFault {a : BitVec 8} {r : FaultReq} {k : State → Ctx → BitVec 64 → Done} {s : State} {c : Ctx}
    (hk : ∀ s y1 y2, s.Canon → (k s y1 y2).state.Canon) (h : s.Canon) : (jumpFault a r k s c).state.Canon := by
  unfold jumpFault
  dsimp only
  split
  · exact h
  · split
    · split
      · split
        · exact hk _ _ _ (canon_of_settled (State.abortLanes_settled ..) h)
        · dsimp only [Done.state]
          exact canon_of_settled (State.abortLanes_settled ..) h
      · exact h
    · exact h

theorem canon_txIllegal {op : Nat} {m : BitVec 64} {k : State → Ctx → Done} {s : State} {c : Ctx} (hk : ∀ s y1, s.Canon → (k s y1).state.Canon)
    (h : s.Canon) : (txIllegal op m k s c).state.Canon := by
  unfold txIllegal
  dsimp only
  split
  · exact hk _ _ h
  · split
    · split
      · exact hk _ _ h
      · split
        · dsimp only [Done.state]
          exact canon_of_ms (State.modGroup_ms ..) (canon_of_settled (State.abortLanes_settled ..) h)
        · split
          · exact hk _ _ (canon_of_ms (State.modGroup_ms ..) (canon_of_settled (State.abortLanes_settled ..) h))
          · dsimp only [Done.state]
            exact canon_of_ms (State.modGroup_ms ..) (canon_of_settled (State.abortLanes_settled ..) h)
    · split
      · exact hk _ _ h
      · split
        · dsimp only [Done.state]
          exact canon_of_ms (State.modGroup_ms ..) (canon_of_settled (State.abortLanes_settled ..) h)
        · split
          · exact hk _ _ (canon_of_ms (State.modGroup_ms ..) (canon_of_settled (State.abortLanes_settled ..) h))
          · dsimp only [Done.state]
            exact canon_of_ms (State.modGroup_ms ..) (canon_of_settled (State.abortLanes_settled ..) h)

theorem canon_withReleaseOf {m : BitVec 64} {k : State → Ctx → Done} {s : State} {c : Ctx} (hk : ∀ s y1, s.Canon → (k s y1).state.Canon) (h : s.Canon) :
    (withReleaseOf m k s c).state.Canon := by
  unfold withReleaseOf
  dsimp only
  split
  · exact hk _ _ h
  · exact h
  · exact canon_ite_done (canon_ite_done (hk _ _ h) h) (canon_of_ms (State.modGroup_ms ..) (canon_of_ms (ms_sendMarkers ..) h))

theorem canon_withRelease {k : State → Ctx → Done} {s : State} {c : Ctx} (hk : ∀ s y1, s.Canon → (k s y1).state.Canon) (h : s.Canon) :
    (withRelease k s c).state.Canon := by
  unfold withRelease
  exact canon_withReleaseOf (fun _ _ h1 => hk _ _ h1) h

theorem canon_exitSplit {s : State} {c : Ctx} (h : s.Canon) : (exitSplit s c).state.Canon := by
  unfold exitSplit
  dsimp only
  generalize hleft : State.modGroup (s.releaseLockOf c.gid c.split.mask) c.gid _ = t
  have ht : t.Canon := by
    rw [← hleft, State.Canon, State.modGroup_ms, State.releaseLockOf_ms]
    exact h
  split
  · exact ht
  · split
    · rw [Done.state, State.Canon, State.afterExit_ms, State.modGroup_ms]
      exact ht
    · rw [Done.state, State.Canon, State.evalBarriers_ms]
      exact ht

theorem canon_vIssue {etOk : Bool} {ops : List Opnd} {wide : Bool} {d : BitVec 8} {run : Ctx → List (Nat × DWord) × Word} {s : State} {c : Ctx}
    (h : s.Canon) : (vIssue etOk ops wide d run s c).state.Canon := by
  unfold vIssue
  dsimp only
  exact canon_ite_done (canon_early h) (canon_ite_done (canon_early h) (canon_ite_done h (canon_seq h)))

theorem canon_vTyped {u : Bool} {d a b : BitVec 8} {f : Bool → Bool → Nat → Nat → Nat → Nat → Nat} {s : State} {c : Ctx} (h : s.Canon) :
    (vTyped u d a b f s c).state.Canon := by
  unfold vTyped
  dsimp only
  exact canon_vIssue h

theorem canon_vWidth {u : Bool} {d a b : BitVec 8} {f : DWord → DWord → DWord} {s : State} {c : Ctx} (h : s.Canon) : (vWidth u d a b f s c).state.Canon := by
  unfold vWidth
  dsimp only
  exact canon_vIssue h

theorem canon_vFixed {u pd pa pb : Bool} {d a b : BitVec 8} {f : Nat → DWord → DWord → DWord → DWord} {s : State} {c : Ctx} (h : s.Canon) :
    (vFixed u pd pa pb d a b f s c).state.Canon := by
  unfold vFixed
  exact canon_vIssue h

theorem canon_vConst {u : Bool} {d : BitVec 8} {f : DWord → DWord} {s : State} {c : Ctx} (h : s.Canon) : (vConst u d f s c).state.Canon := by
  unfold vConst
  exact canon_vIssue h

theorem canon_vWidth1 {u : Bool} {d a : BitVec 8} {f : DWord → DWord} {s : State} {c : Ctx} (h : s.Canon) : (vWidth1 u d a f s c).state.Canon := by
  unfold vWidth1
  dsimp only
  exact canon_vIssue h

theorem canon_vTyped1 {u : Bool} {d a : BitVec 8} {f : Bool → Bool → Nat → Nat → Nat} {s : State} {c : Ctx} (h : s.Canon) :
    (vTyped1 u d a f s c).state.Canon := by
  unfold vTyped1
  dsimp only
  exact canon_vIssue h

theorem canon_vFloat {u rounds : Bool} {ops : List Opnd} {d a b : BitVec 8} {f : FEnv → Nat → Nat → Nat → Nat → Nat} {s : State} {c : Ctx} (h : s.Canon) :
    (vFloat u rounds ops d a b f s c).state.Canon := by
  unfold vFloat
  dsimp only
  split
  · exact canon_early h
  · exact canon_vIssue h

theorem canon_vFloat2 {u rounds : Bool} {d a b : BitVec 8} {f : FEnv → Nat → Nat → Nat → Nat → Nat} {s : State} {c : Ctx} (h : s.Canon) :
    (vFloat2 u rounds d a b f s c).state.Canon := by
  unfold vFloat2
  exact canon_vFloat h

theorem canon_vFloat1 {u rounds : Bool} {d a : BitVec 8} {f : FEnv → Nat → Nat → Nat} {s : State} {c : Ctx} (h : s.Canon) :
    (vFloat1 u rounds d a f s c).state.Canon := by
  unfold vFloat1
  exact canon_vFloat h

theorem canon_vConvert {u ok draws : Bool} {d a : BitVec 8} {fmt : Nat} {f : Ctx → Nat → DWord → DWord} {s : State} {c : Ctx} (h : s.Canon) :
    (vConvert u ok draws d a fmt f s c).state.Canon := by
  unfold vConvert
  exact canon_vIssue h

theorem canon_vPack {u four : Bool} {d a b : BitVec 8} {s : State} {c : Ctx} (h : s.Canon) : (vPack u four d a b s c).state.Canon := by
  unfold vPack
  dsimp only
  exact canon_vIssue h

theorem canon_vShuffle {u : Bool} {d a b : BitVec 8} {src : Nat → Nat → Option Nat} {s : State} {c : Ctx} (h : s.Canon) :
    (vShuffle u d a b src s c).state.Canon := by
  unfold vShuffle
  dsimp only
  exact canon_vIssue h

theorem canon_vReduce {u : Bool} {d a : BitVec 8} {run : Ctx → Nat → (Nat → List Nat) × Word} {s : State} {c : Ctx} (h : s.Canon) :
    (vReduce u d a run s c).state.Canon := by
  unfold vReduce
  dsimp only
  exact canon_vIssue h

theorem canon_vVote {u wide : Bool} {d a : BitVec 8} {f : Ctx → DWord} {s : State} {c : Ctx} (h : s.Canon) : (vVote u wide d a f s c).state.Canon := by
  unfold vVote
  exact canon_vIssue h

theorem canon_reachAll {c : Ctx} {size : Nat} {k : AccKind} {addr : Nat → Nat} {l : List Access} {s : State} (h : s.Canon) :
    (reachAll c size k addr l s).2.Canon := by
  induction l generalizing s with
  | nil =>
    rw [reachAll]
    exact h
  | cons x l ih =>
    rw [reachAll]
    split
    next _ _ _ e3 => exact canon_of_eq e3 (canon_reach h)
    next _ _ _ e3 =>
      have h1 := canon_of_eq e3 (canon_reach h)
      split
      next _ _ _ e3 => exact canon_of_eq e3 (ih h1)
      next _ _ _ e3 => exact canon_of_eq e3 (ih h1)

theorem canon_memDone {c : Ctx} {lanes : BitVec 64} {kind : RemoteKind} {word : BitVec 32} {m : MemAcc} (h : m.s.Canon) :
    (memDone c lanes kind word m).state.Canon := by
  unfold memDone
  dsimp only
  exact canon_ite_done
    (canon_ite_done (canon_seq (canon_of_mem (looks_dropDenials ..).mem (canon_clearPoolPoison (canon_of_mem (State.clearPoison_mem ..) h))))
      (canon_of_mem (looks_dropDenials ..).mem (canon_clearPoolPoison (canon_of_mem (State.clearPoison_mem ..) h))))
    (canon_of_ms (State.modGroup_ms ..)
      (canon_of_ms (State.fresh_ms ..) (canon_of_mem (looks_dropDenials ..).mem (canon_clearPoolPoison (canon_of_mem (State.clearPoison_mem ..) h)))))

theorem canon_illegal {m : MemAcc} {a : Access} {op : Nat} (h : m.s.Canon) : (MemAcc.illegal m a op).s.Canon := h

theorem canon_fail {m : MemAcc} {a : Access} {f : XFault} (h : m.s.Canon) : (MemAcc.fail m a f).s.Canon := h

theorem canon_refuseAccess {m : MemAcc} {a : Access} {op : Nat} {f : XFault} (h : m.s.Canon) : (m.refuse a op f).s.Canon := by
  unfold MemAcc.refuse
  split
  · exact h
  · exact h

theorem canon_notePool {s : State} {c : Ctx} {store : Bool} {l : PoolLoc} {bk : Nat} (h : s.Canon) : (s.notePool c store l bk).Canon := by
  unfold State.notePool
  exact canon_ite h (canon_of_ms (State.modGroup_ms ..) h)

theorem canon_drop {m : MemAcc} {x : LaneAbort} (h : m.s.Canon) : (MemAcc.drop m x).s.Canon := h

theorem canon_txLoad {s : State} {gid t off size : Nat} (h : s.Canon) : (txLoad s gid t off size).2.Canon := by
  unfold txLoad
  dsimp only
  exact canon_ite_snd h (canon_modLane (canon_dropSector (canon_of_mem (State.readHome_mem ..) h)))

theorem canon_watchOf {s : State} {c : Ctx} {key : Nat} (h : s.Canon) : (s.watchOf c key).Canon := by
  unfold State.watchOf
  exact canon_ite h (canon_of_ms (State.modGroup_ms ..) h)

theorem canon_loadHome {s : State} {core p pol : Nat} {copy : Option (BitVec 256)} {off n : Nat} (h : s.Canon) :
    (s.loadHome core p pol copy off n).2.Canon := by
  unfold State.loadHome
  dsimp only
  split
  · exact h
  · exact canon_ite_snd h
      (canon_ite (canon_fillL1 (canon_of_mem (State.touchL2_mem ..) (canon_of_mem (State.noteRead_mem ..) h)))
        (canon_dropSector (canon_of_mem (State.touchL2_mem ..) (canon_of_mem (State.noteRead_mem ..) h))))

theorem canon_loadOne {c : Ctx} {op size : Nat} {copies : FMap (BitVec 256)} {addr : Nat → Nat} {put : Nat → Regs → Nat → Regs} {m : MemAcc} {q : Reached}
    (h : m.s.Canon) : (loadOne c op size copies addr put m q).s.Canon := by
  obtain ⟨a, place⟩ := q
  cases place with
  | fault f =>
    unfold loadOne
    dsimp only
    exact canon_refuseAccess h
  | pool l =>
    unfold loadOne
    dsimp only
    split
    · exact h
    · split
      · exact h
      · exact canon_notePool h
  | own off pol =>
    unfold loadOne
    dsimp only
    split
    · split
      · exact h
      · split
        next e => exact canon_watchOf (canon_of_eq e (canon_txLoad h))
        next e => exact canon_of_eq e (canon_txLoad h)
    · split
      next e => exact canon_watchOf (canon_of_eq e (canon_loadHome h))
      next e => exact canon_of_eq e (canon_loadHome h)
  | remote pa pol =>
    unfold loadOne
    dsimp only
    split
    · exact canon_watchOf h
    · split
      · exact h
      · exact canon_sendRemote (canon_watchOf (canon_ite (canon_dropPeer (canon_modLane h))
          (canon_ite h (canon_dropPeer h))))

theorem canon_runLoad {c : Ctx} {u : Bool} {op size : Nat} {word : BitVec 32} {d : BitVec 8} {signed : Bool} {addr : Nat → Nat} {s : State} (h : s.Canon) :
    (runLoad c u op size word d signed addr s).state.Canon := by
  unfold runLoad
  dsimp only
  split
  next _ _ _ e3 => exact canon_assistWait (canon_of_eq e3 (canon_reachAll h))
  next _ _ _ e3 =>
    have h1 := canon_of_eq e3 (canon_reachAll h)
    exact canon_containWait h1 (canon_chargeSectors (fun _ h2 => canon_memDone (canon_foldl_mem (fun _ _ h3 => canon_loadOne h3) (canon_set h2 rfl))) h1)

theorem canon_vLoad {u : Bool} {op size : Nat} {word : BitVec 32} {d a b : BitVec 8} {s : State} {c : Ctx} (h : s.Canon) :
    (vLoad u op size word d a b s c).state.Canon := by
  unfold vLoad
  exact canon_ite_done (canon_early h) (canon_ite_done h (canon_runLoad h))

theorem canon_writeFar {s : State} {gid pa : Nat} {b : List Byte} {poison : Bool} (h : s.Canon) : (s.writeFar gid pa b poison).2.Canon := by
  unfold State.writeFar
  dsimp only
  exact canon_ite_snd (canon_sendRemote (canon_farRefuses h)) (canon_updatePeer (canon_postWrite (canon_farRefuses h)))

theorem canon_storeOne {c : Ctx} {op size n : Nat} {data : Nat → List Byte} {m : MemAcc} {q : Reached} (h : m.s.Canon) :
    (storeOne c op size n data m q).s.Canon := by
  obtain ⟨a, place⟩ := q
  cases place with
  | fault f =>
    unfold storeOne
    dsimp only
    exact canon_refuseAccess h
  | pool l =>
    unfold storeOne
    dsimp only
    split
    · exact h
    · exact canon_of_ms (State.poolWrite_ms ..) (canon_notePool h)
  | own off pol =>
    unfold storeOne
    dsimp only
    split
    · split
      · exact h
      · exact canon_modLane h
    · exact canon_of_ms (State.updateL1_ms ..) (canon_writeHome h)
  | remote pa pol =>
    unfold storeOne
    dsimp only
    split
    · split
      · exact h
      · exact canon_modLane h
    · split
      · exact canon_of_ms (State.modGroup_ms ..) (canon_writeFar h)
      · exact canon_writeFar h

theorem canon_storeRoom {m : BitVec 64} {k : State → Done} {c : Ctx} {s : State} (hk : ∀ s, s.Canon → (k s).state.Canon) (h : s.Canon) :
    (storeRoom m k c s).state.Canon := by
  unfold storeRoom
  split
  · exact canon_ite_done (hk _ h) (canon_withReleaseOf (fun _ _ h1 => hk _ h1) h)
  · exact hk _ h

theorem canon_runStore {c : Ctx} {u : Bool} {op size : Nat} {word : BitVec 32} {d : BitVec 8} {addr : Nat → Nat} {s : State} (h : s.Canon) :
    (runStore c u op size word d addr s).state.Canon := by
  unfold runStore
  dsimp only
  split
  next _ _ _ e3 => exact canon_assistWait (canon_of_eq e3 (canon_reachAll h))
  next _ _ _ e3 =>
    have h1 := canon_of_eq e3 (canon_reachAll h)
    exact canon_containWait h1
      (canon_ite_done
        (canon_storeRoom
          (fun _ h2 =>
            canon_chargeSectors
              (fun _ h3 => canon_memDone (canon_foldl_mem (fun _ _ h4 => canon_storeOne h4) (canon_ite_snd (canon_of_ms (State.fresh_ms ..) h3) h3)))
              h2) h1)
        (canon_chargeSectors
          (fun _ h2 => canon_memDone (canon_foldl_mem (fun _ _ h3 => canon_storeOne h3) (canon_ite_snd (canon_of_ms (State.fresh_ms ..) h2) h2))) h1))

theorem canon_vStore {u : Bool} {op size : Nat} {word : BitVec 32} {d a b : BitVec 8} {s : State} {c : Ctx} (h : s.Canon) :
    (vStore u op size word d a b s c).state.Canon := by
  unfold vStore
  exact canon_ite_done (canon_early h) (canon_ite_done h (canon_runStore h))

theorem canon_constReach {c : Ctx} {gr : Grid} {grid size : Nat} {o : Int} {s : State} (h : s.Canon) : (constReach c gr grid size o s).2.Canon := by
  unfold constReach
  dsimp only
  split
  · exact h
  · split
    · exact h
    · split
      · exact h
      · split
        next _ _ _ _ e4 => exact canon_of_eq e4 (canon_resolve h)
        next _ _ _ e3 => exact canon_of_eq e3 (canon_resolve h)
        next _ _ _ e3 => exact canon_of_eq e3 (canon_resolve h)

theorem canon_constReachAll {c : Ctx} {gr : Grid} {grid size : Nat} {off : Nat → Int} {l : List Access} {s : State} (h : s.Canon) :
    (constReachAll c gr grid size off l s).2.Canon := by
  induction l generalizing s with
  | nil =>
    rw [constReachAll]
    exact h
  | cons x l ih =>
    rw [constReachAll]
    split
    next _ _ _ e3 => exact canon_of_eq e3 (canon_constReach h)
    next _ _ _ e3 =>
      have h1 := canon_of_eq e3 (canon_constReach h)
      split
      next _ _ _ e3 => exact canon_of_eq e3 (ih h1)
      next _ _ _ e3 => exact canon_of_eq e3 (ih h1)

theorem canon_constOne {c : Ctx} {gr : Grid} {grid size : Nat} {d : BitVec 8} {off : Nat → Int} {m : MemAcc} {q : Access × ConstReach} (h : m.s.Canon) :
    (constOne c gr grid size d off m q).s.Canon := by
  unfold constOne
  dsimp only
  split
  · exact canon_fail h
  · exact h
  · exact h
  · split
    next _ _ _ e3 => exact canon_watchOf (canon_of_eq e3 (canon_constRead h))
    next _ _ e2 => exact canon_fail (canon_of_eq e2 (canon_constRead h))
  · exact canon_sendRemote (canon_watchOf h)
  · exact canon_fail h

theorem canon_vConstLoad {u : Bool} {word : BitVec 32} {d b : BitVec 8} {s : State} {c : Ctx} (h : s.Canon) : (vConstLoad u word d b s c).state.Canon := by
  unfold vConstLoad
  dsimp only
  split
  · split
    · exact canon_early h
    · split
      · exact h
      · split
        · exact h
        · split
          · exact h
          · split
            next _ _ _ e3 => exact canon_assistWait (canon_of_eq e3 (canon_constReachAll h))
            next _ _ _ e3 =>
              have h1 := canon_of_eq e3 (canon_constReachAll h)
              exact canon_containWait h1 (canon_chargeSectors (fun _ h2 => canon_memDone (canon_foldl_mem (fun _ _ h3 => canon_constOne h3) h2)) h1)
  · split
    · exact canon_early h
    · split
      · exact h
      · split
        · exact h
        · split
          · exact h
          · split
            next _ _ _ e3 => exact canon_assistWait (canon_of_eq e3 (canon_constReachAll h))
            next _ _ _ e3 =>
              have h1 := canon_of_eq e3 (canon_constReachAll h)
              exact canon_containWait h1 (canon_chargeSectors (fun _ h2 => canon_memDone (canon_foldl_mem (fun _ _ h3 => canon_constOne h3) h2)) h1)

theorem canon_atOne {c : Ctx} {e : AtEnv} {d : BitVec 8} {addr : Nat → Nat} {m : MemAcc} {q : Reached} (h : m.s.Canon) : (atOne c e d addr m q).s.Canon := by
  obtain ⟨a, place⟩ := q
  cases place with
  | fault f =>
    unfold atOne
    dsimp only
    exact canon_refuseAccess h
  | pool l =>
    unfold atOne
    dsimp only
    split
    · exact h
    · split
      · exact h
      · exact canon_of_ms (State.poolWrite_ms ..) h
  | own off pol =>
    unfold atOne
    dsimp only
    split
    · split
      · exact h
      · split
        next e => exact canon_modLane (canon_of_eq e (canon_txLoad h))
        next e => exact canon_of_eq e (canon_txLoad h)
    · split
      · exact h
      · exact canon_dropSector (canon_writeHome h)
  | remote pa pol =>
    unfold atOne
    dsimp only
    split
    · exact h
    · have hnoted : (if a.tx then m.s.modLane c.gid a.lane (fun x => x.noteRead pa) else m.s.dropPeer (coreOf c.gid) pa).Canon :=
        canon_ite (canon_modLane h) (canon_dropPeer h)
      exact canon_ite (canon_sendRemote hnoted) (canon_sendRemote hnoted)

theorem canon_acquireDrop {c : Ctx} {lanes : BitVec 64} {l : List Reached} {s : State} (h : s.Canon) : (acquireDrop c lanes l s).Canon := by
  unfold acquireDrop
  dsimp only
  exact canon_ite (canon_of_ms (State.dropL1_ms ..) h) h

theorem canon_runAtomic {u : Bool} {op : AtOp} {word : BitVec 32} {d a b : BitVec 8} {lanes : BitVec 64} {scopeBad : Bool} {s : State} {c : Ctx}
    (h : s.Canon) : (runAtomic u op word d a b lanes scopeBad s c).state.Canon := by
  unfold runAtomic
  dsimp only
  split
  next _ _ _ e3 => exact canon_assistWait (canon_of_eq e3 (canon_reachAll h))
  next _ _ _ e3 =>
    have h1 := canon_of_eq e3 (canon_reachAll h)
    exact canon_containWait h1
      (canon_chargeSectors
        (fun _ h2 =>
          canon_memDone (canon_acquireDrop (canon_foldl_mem (fun _ _ h3 => canon_atOne h3) (canon_ite h2 (canon_of_ms (State.modGroup_ms ..) h2)))))
        h1)

theorem canon_vAtomic {u : Bool} {op : AtOp} {word : BitVec 32} {d a b : BitVec 8} {s : State} {c : Ctx} (h : s.Canon) :
    (vAtomic u op word d a b s c).state.Canon := by
  unfold vAtomic
  dsimp only
  exact canon_ite_done (canon_early h)
    (canon_ite_done (canon_early h)
      (canon_ite_done h
        (canon_ite_done (canon_ite_done h (canon_runAtomic h))
          (canon_ite_done (canon_withReleaseOf (fun _ _ h1 => canon_runAtomic h1) h) (canon_runAtomic h)))))

theorem canon_fenceBody {order scope : Nat} {s : State} {c : Ctx} (h : s.Canon) : (fenceBody order scope s c).state.Canon := by
  unfold fenceBody
  dsimp only
  exact canon_ite_done (canon_seq h)
    (canon_ite_done (canon_seq (canon_ite (canon_acquire h) h)) (canon_withRelease (fun _ _ h1 => canon_seq (canon_ite (canon_acquire h1) h1)) h))

theorem canon_barBody {id mask : Nat} {cluster : Bool} {s : State} {c : Ctx} (h : s.Canon) : (barBody id mask cluster s c).state.Canon := by
  unfold barBody
  dsimp only
  split
  · exact canon_ite_done (canon_seq h)
      (canon_ite_done h
        (canon_ite_done
          (canon_seq (canon_ite (canon_of_ms (State.dropL1_ms ..) (canon_of_ms (State.modGroup_ms ..) h)) (canon_of_ms (State.modGroup_ms ..) h)))
          (canon_ite_done h (canon_of_ms (State.evalBar_ms ..) (canon_of_ms (State.stay_ms ..) (canon_of_ms (State.modBlock_ms ..) h))))))
  · exact h

theorem canon_bargBody {id : Nat} {s : State} {c : Ctx} (h : s.Canon) : (bargBody id s c).state.Canon := by
  unfold bargBody
  dsimp only
  split
  · split
    · exact h
    · exact canon_ite_done (canon_barBody h)
        (canon_ite_done (canon_seq h)
          (canon_ite_done (canon_seq (canon_of_ms (State.dropL1_ms ..) (canon_of_ms (State.modGroup_ms ..) h)))
            (canon_of_ms (State.evalBarg_ms ..) (canon_of_ms (State.stay_ms ..) h))))
  · exact h

theorem canon_moveChecks {c : Ctx} {a b : Nat} {s : State} (h : s.Canon) : (moveChecks c a b s).2.Canon := by
  unfold moveChecks
  dsimp only
  split
  · exact h
  · split
    · exact h
    · split
      next _ _ _ e3 => exact canon_of_eq e3 (canon_lookup1 h)
      next _ _ _ e3 =>
        have h1 := canon_of_eq e3 (canon_lookup1 h)
        split
        · exact h1
        · split
          next _ _ _ e3 => exact canon_of_eq e3 (canon_lookup2 h1)
          next _ _ _ e3 =>
            have h2 := canon_of_eq e3 (canon_lookup2 h1)
            split
            · exact h2
            · split
              · exact h2
              · split
                next _ _ _ e3 => exact canon_of_eq e3 (canon_reach h2)
                next _ _ _ e3 => exact canon_of_eq e3 (canon_reach h2)
                next _ _ _ _ e4 => exact canon_of_eq e4 (canon_reach h2)

theorem canon_moveBody {target : Nat} {a b : BitVec 8} {s : State} {c : Ctx} (h : s.Canon) : (moveBody target a b s c).state.Canon := by
  unfold moveBody
  dsimp only
  split
  next _ _ _ e3 => exact canon_assistWait (canon_of_eq e3 (canon_moveChecks h))
  next _ _ _ e3 =>
    have h1 := canon_of_eq e3 (canon_moveChecks h)
    dsimp only [Done.state]
    exact canon_of_mem (looks_dropDenials ..).mem h1
  next _ _ _ e3 => exact canon_seq (canon_of_ms (State.schedule_ms ..) (canon_set (canon_of_eq e3 (canon_moveChecks h)) rfl))

theorem canon_vMove {op target : Nat} {a b : BitVec 8} {s : State} {c : Ctx} (h : s.Canon) : (vMove op target a b s c).state.Canon := by
  unfold vMove
  exact canon_ite_done (canon_early h) (canon_ite_done h (canon_txIllegal (fun _ _ h1 => canon_moveBody h1) h))

theorem canon_mappedRun {w : XWho} {va : Nat} {s : State} (h : s.Canon) : (mappedRun w va s).2.Canon := by
  unfold mappedRun
  dsimp only
  split
  · exact h
  · split
    next _ _ _ e3 => exact canon_of_eq e3 (canon_lookup1 h)
    next _ _ _ e3 => exact canon_of_eq e3 (canon_lookup1 h)
    next _ _ _ e3 =>
      have h1 := canon_of_eq e3 (canon_lookup1 h)
      split
      next _ _ _ e3 => exact canon_of_eq e3 (canon_lookup2 h1)
      next _ _ _ e3 => exact canon_of_eq e3 (canon_lookup2 h1)
      next _ _ _ e3 =>
        have h2 := canon_of_eq e3 (canon_lookup2 h1)
        exact canon_ite_snd h2 h2

theorem canon_dropSpan {s : State} {core pa n : Nat} (h : s.Canon) : (s.dropSpan core pa n).Canon := by
  unfold State.dropSpan
  dsimp only
  exact canon_of_ms (State.modCore_ms ..) h

theorem canon_cinvSpan {w : XWho} {core n va len : Nat} {s : State} (h : s.Canon) : (cinvSpan w core n va len s).2.Canon := by
  induction n generalizing va len s with
  | zero =>
    rw [cinvSpan]
    exact h
  | succ n ih =>
    rw [cinvSpan]
    dsimp only
    split
    · exact h
    · split
      next _ _ _ e3 => exact canon_of_eq e3 (canon_mappedRun h)
      next _ _ _ e3 => exact ih (canon_dropSpan (canon_of_eq e3 (canon_mappedRun h)))
      next _ _ e2 => exact ih (canon_of_eq e2 (canon_mappedRun h))

theorem canon_closing {cause : Nat} {body : State → Ctx → Done} {s : State} {c : Ctx} (hbody : ∀ s c, s.Canon → (body s c).state.Canon) (h : s.Canon) :
    (closing cause body s c).state.Canon := by
  have hrun := hbody (s.modGroup c.gid (fun g => g.closeRegion cause)) c (canon_of_ms (State.modGroup_ms ..) h)
  unfold closing
  split
  next e =>
    rw [e] at hrun
    split
    · exact canon_of_ms (State.modGroup_ms ..) hrun
    · exact hrun
  next => exact hrun

theorem canon_enqueue {sub : Nat} {guard : Option Nat} {word : BitVec 32} {w : List Word} {i : EnqInfo} {s : State} {c : Ctx} (h : s.Canon) :
    (enqueue sub guard word w i s c).state.Canon := by
  unfold enqueue
  dsimp only
  exact canon_ite_done (canon_seq h) (canon_seq (canon_of_ms (State.schedule_ms ..) (canon_of_ms (State.modCore_ms ..) (canon_of_ms (State.fresh_ms ..) h))))

theorem canon_enqBody {sub : Nat} {guard : Option Nat} {word : BitVec 32} {a : BitVec 8} {s : State} {c : Ctx} (h : s.Canon) :
    (enqBody sub guard word a s c).state.Canon := by
  unfold enqBody
  dsimp only
  refine canon_chargeSectors ?_ h
  intro x1 h1
  split
  next _ _ _ e3 => exact canon_assistWait (canon_of_eq e3 (canon_enqCheck h1))
  next _ _ _ e3 => exact canon_of_eq e3 (canon_enqCheck h1)
  next _ _ _ e3 =>
    have h2 := canon_of_eq e3 (canon_enqCheck h1)
    exact canon_ite_done h2 (canon_ite_done (canon_withRelease (fun _ _ h3 => canon_enqueue h3) h2) (canon_enqueue (canon_ite (canon_acquire h2) h2)))

theorem canon_ctailBody {e : Bool} {b : BitVec 8} {s : State} {c : Ctx} (h : s.Canon) : (ctailBody e b s c).state.Canon := by
  unfold ctailBody
  dsimp only
  split
  · exact canon_seq (canon_of_ms (State.closeRegionOf_ms ..) h)
  · exact canon_ite_done (canon_seq (canon_of_ms (State.schedule_ms ..) (canon_mapQueue (canon_of_ms (State.closeRegionOf_ms ..) h))))
      (canon_seq (canon_of_ms (State.closeRegionOf_ms ..) h))

theorem canon_resolveGuard {s : State} {gid n v : Nat} (h : s.Canon) : (s.resolveGuard gid n v).Canon := by
  unfold State.resolveGuard
  dsimp only
  split
  · exact h
  · exact canon_ite
      (canon_ite (canon_foldl (fun _ _ h1 => canon_of_ms (State.schedule_ms ..) h1) (canon_mapQueue (canon_of_ms (State.modGroup_ms ..) h)))
        (canon_afterCommand
          (canon_foldl (fun _ _ h1 => canon_of_ms (State.schedule_ms ..) h1)
            (canon_of_ms (State.modCore_ms ..) (canon_of_ms (State.modGroup_ms ..) h))))) (canon_of_ms (State.modGroup_ms ..) h)

theorem canon_ncwtBody {d a b : BitVec 8} {s : State} {c : Ctx} (h : s.Canon) : (ncwtBody d a b s c).state.Canon := by
  unfold ncwtBody
  dsimp only
  exact canon_ite_done (canon_seq (canon_acquire (canon_of_ms (State.closeRegionOf_ms ..) h))) (canon_of_ms (State.closeRegionOf_ms ..) h)

theorem canon_coreWrite {writer : Option Nat} {gid va : Nat} {b : List Byte} {s : State} (h : s.Canon) : (coreWrite writer gid va b s).2.Canon := by
  unfold coreWrite
  dsimp only
  split
  next _ _ _ e3 => exact canon_of_eq e3 (canon_coreReach h)
  next _ _ _ e3 =>
    have h1 := canon_of_eq e3 (canon_coreReach h)
    dsimp only
    exact canon_of_ms (State.poolWrite_ms ..) h1
  next _ _ _ _ e4 =>
    have h1 := canon_of_eq e4 (canon_coreReach h)
    dsimp only
    exact canon_of_ms (State.updateL1_ms ..) (canon_of_mem (State.clearPoison_mem ..) (canon_writeHome h1))
  next _ _ _ _ e4 =>
    have h1 := canon_of_eq e4 (canon_coreReach h)
    dsimp only
    exact canon_writeFar h1
  next _ _ _ e3 => exact canon_of_eq e3 (canon_coreReach h)

theorem canon_tswapWrite {d a b : BitVec 8} {old : TableEnt} {s : State} {c : Ctx} (h : s.Canon) : (tswapWrite d a b old s c).state.Canon := by
  unfold tswapWrite
  dsimp only
  split
  next _ _ _ e3 => exact canon_assistWait (canon_of_eq e3 (canon_coreWrite h))
  next _ _ _ e3 => exact canon_of_eq e3 (canon_coreWrite h)
  next _ _ _ e3 => exact canon_seq (canon_of_eq e3 (canon_coreWrite h))

theorem canon_tswapBody {d a b : BitVec 8} {s : State} {c : Ctx} (h : s.Canon) : (tswapBody d a b s c).state.Canon := by
  unfold tswapBody
  dsimp only
  split
  · exact h
  · split
    next _ _ _ e3 => exact canon_assistWait (canon_of_eq e3 (canon_tableOf h))
    next _ _ _ e3 => exact canon_of_eq e3 (canon_tableOf h)
    next _ _ _ e3 =>
      have h1 := canon_of_eq e3 (canon_tableOf h)
      split
      · exact h1
      · refine canon_withRelease ?_ h1
        intro x2 x3 h2
        refine canon_chargeSectors ?_ h2
        intro x3 h3
        split
        next _ _ _ e3 => exact canon_assistWait (canon_of_eq e3 (canon_tableOf h3))
        next _ _ _ e3 => exact canon_of_eq e3 (canon_tableOf h3)
        next _ _ _ e3 =>
          have h4 := canon_of_eq e3 (canon_tableOf h3)
          exact canon_ite_done h4 (canon_tswapWrite h4)

theorem canon_lnchRead {gid va : Nat} {s : State} (h : s.Canon) : (lnchRead gid va s).2.Canon := by
  unfold lnchRead
  dsimp only
  split
  next _ _ _ e3 => exact canon_of_eq e3 (canon_coreRead h)
  next _ _ _ e3 => exact canon_of_eq e3 (canon_coreRead h)
  next _ _ _ e3 => exact canon_of_eq e3 (canon_coreRead h)
  next _ _ _ e3 =>
    have h1 := canon_of_eq e3 (canon_coreRead h)
    split
    · exact h1
    · split
      · exact h1
      · split
        next _ _ _ e3 => exact canon_of_eq e3 (canon_coreRead h1)
        next _ _ _ e3 => exact canon_of_eq e3 (canon_coreRead h1)
        next _ _ _ e3 => exact canon_of_eq e3 (canon_coreRead h1)
        next _ _ _ e3 =>
          have h2 := canon_of_eq e3 (canon_coreRead h1)
          split
          · exact h2
          · exact h2

theorem canon_lnchRun {d a : BitVec 8} {s : State} {c : Ctx} (h : s.Canon) : (lnchRun d a s c).state.Canon := by
  unfold lnchRun
  dsimp only
  refine canon_chargeSectors ?_ h
  intro x1 h1
  split
  next _ _ _ e3 => exact canon_assistWait (canon_of_eq e3 (canon_lnchRead h1))
  next _ _ _ _ e4 =>
    have h2 := canon_of_eq e4 (canon_lnchRead h1)
    exact canon_seq (canon_ite (canon_of_ms (State.schedule_ms ..) (canon_of_ms (State.modVf_ms ..) h2)) (canon_of_ms (State.modVf_ms ..) h2))
  next _ _ _ e3 => exact canon_seq (canon_of_eq e3 (canon_lnchRead h1))

theorem canon_lnchBody {d a : BitVec 8} {s : State} {c : Ctx} (h : s.Canon) : (lnchBody d a s c).state.Canon := by
  unfold lnchBody
  dsimp only
  exact canon_ite_done h (canon_ite_done h (canon_withRelease (fun _ _ h1 => canon_lnchRun h1) h))

theorem canon_postCall {slot : Nat} {s : State} {c : Ctx} (h : s.Canon) : (postCall slot s c).state.Canon := by
  unfold postCall
  dsimp only
  dsimp only [Done.state]
  exact canon_of_ms (State.signalMsix_ms ..) (canon_of_ms (State.modVf_ms ..) h)

theorem canon_hcallRun {d a : BitVec 8} {s : State} {c : Ctx} (h : s.Canon) : (hcallRun d a s c).state.Canon := by
  unfold hcallRun
  dsimp only
  split
  · split
    · exact canon_ite_done (canon_callFinish h) h
    · exact canon_seq h
  · split
    · exact canon_postCall h
    · split
      · exact canon_seq h
      · split
        · exact h
        · split
          next _ _ _ e3 => exact canon_assistWait (canon_of_eq e3 (canon_unitWrite h))
          next _ _ _ e3 => exact canon_seq (canon_of_eq e3 (canon_unitWrite h))
          next _ _ _ e3 =>
            have h1 := canon_of_eq e3 (canon_unitWrite h)
            exact canon_withRelease (fun _ _ h2 => canon_postCall h2)
              (canon_foldl (fun _ _ h2 => canon_of_ms (State.modGroup_ms ..) h2) (canon_of_ms (State.modVf_ms ..) h1))

theorem canon_txoEnd {stay nest : BitVec 64} {s : State} {c : Ctx} (h : s.Canon) : (txoEnd stay nest s c).state.Canon := by
  unfold txoEnd
  dsimp only
  dsimp only [Done.state]
  exact canon_of_settled (State.abortLanes_settled ..)
    (canon_ite (canon_of_ms (State.putCtx_ms ..) (canon_of_ms (State.modGroup_ms ..) h))
      (canon_of_ms (State.modGroup_ms ..) (canon_of_ms (State.putCtx_ms ..) (canon_of_ms (State.modGroup_ms ..) h))))

theorem canon_askLock {s : State} {p gid t : Nat} (h : s.Canon) : (s.askLock p gid t).Canon := by
  unfold State.askLock
  exact canon_ite h (canon_of_ms (State.schedule_ms ..) (canon_of_ms (State.modPart_ms ..) h))

theorem canon_txoBody {s : State} {c : Ctx} (h : s.Canon) : (txoBody s c).state.Canon := by
  unfold txoBody
  split
  · exact h
  next g _ =>
    lift_lets
    intro m p held lanes out0 asked want nest deep t nested full
    split
    · intro stay
      split
      · exact h
      · exact canon_txoEnd (canon_of_ms (State.dropL1_ms ..) (canon_of_ms (State.modGroup_ms ..) (canon_of_ms (State.modGroup_ms ..) h)))
    · split
      · split
        · exact h
        · exact canon_txoEnd (canon_of_ms (State.modGroup_ms ..) (canon_ite h (canon_askLock h)))
      · split
        · exact canon_askLock h
        · split
          · exact canon_txoEnd (canon_of_ms (State.modGroup_ms ..) h)
          · split
            · exact h
            · split
              · exact h
              · exact canon_txoEnd (canon_of_ms (State.modGroup_ms ..) (canon_of_ms (State.modGroup_ms ..) h))

theorem canon_txcBody {s : State} {c : Ctx} (h : s.Canon) : (txcBody s c).state.Canon := by
  unfold txcBody
  dsimp only
  split
  · exact h
  · split
    · dsimp only [Done.state]
      exact canon_endTurn (canon_of_ms (State.closeRegionOf_ms ..) h)
    · exact canon_ite_done
        (canon_withRelease (fun _ _ h1 => canon_of_ms (State.schedule_ms ..) (canon_set h1 rfl)) (canon_of_ms (State.closeRegionOf_ms ..) h))
        (canon_ite_done (canon_withRelease (fun _ _ h1 => canon_seq (canon_txcOthers h1)) (canon_of_ms (State.closeRegionOf_ms ..) h))
          (canon_seq (canon_txcOthers (canon_of_ms (State.closeRegionOf_ms ..) h))))

theorem canon_txdDrop {b : BitVec 8} {s : State} {c : Ctx} (h : s.Canon) : (txdDrop b s c).state.Canon := by
  unfold txdDrop
  dsimp only
  split
  · exact h
  · dsimp only [Done.state]
    exact canon_of_settled (State.abortLanes_settled ..)
      (canon_of_ms (State.releaseLockOf_ms ..) (canon_of_ms (State.putCtx_ms ..) (canon_of_ms (State.modGroup_ms ..) h)))

theorem canon_txdBody {b : BitVec 8} {s : State} {c : Ctx} (h : s.Canon) : (txdBody b s c).state.Canon := by
  unfold txdBody
  dsimp only
  split
  · exact h
  · exact canon_ite_done (canon_withRelease (fun _ _ h1 => canon_txdDrop h1) (canon_of_ms (State.closeRegionOf_ms ..) h))
      (canon_txdDrop (canon_of_ms (State.closeRegionOf_ms ..) h))

theorem canon_weirPost {word : BitVec 32} {kind : Nat} {a : BitVec 8} {value : Nat} {s : State} {c : Ctx} (h : s.Canon) :
    (weirPost word kind a value s c).state.Canon := by
  unfold weirPost
  dsimp only
  dsimp only [Done.state]
  exact canon_of_ms (State.schedule_ms ..) h

theorem canon_weirBody {i : Instr} {kind : Nat} {a : BitVec 8} {value : Ctx → Nat} {put : Nat → Ctx → Ctx} {s : State} {c : Ctx} (h : s.Canon) :
    (weirBody i kind a value put s c).state.Canon := by
  unfold weirBody
  dsimp only
  split
  · exact canon_seq (canon_ite (canon_acquire h) h)
  · exact h
  · exact canon_closing (fun _ _ h1 => canon_ite_done (canon_withRelease (fun _ _ h2 => canon_weirPost h2) h1) (canon_weirPost h1)) h

theorem canon_withGroup {f : Group → State → Ctx → Done} {s : State} {c : Ctx} (hf : ∀ y0 s y2, s.Canon → (f y0 s y2).state.Canon) (h : s.Canon) :
    (withGroup f s c).state.Canon := by
  unfold withGroup
  split
  · exact h
  · exact hf _ _ _ h

theorem canon_gridState {s : State} {c : Ctx} (h : s.Canon) : (gridState s c).state.Canon := h

theorem canon_inGrid {f : Group → State → Ctx → Done} {s : State} {c : Ctx} (hf : ∀ y0 s y2, s.Canon → (f y0 s y2).state.Canon) (h : s.Canon) :
    (inGrid f s c).state.Canon := by
  unfold inGrid
  exact canon_withGroup (fun _ _ _ h1 => canon_ite_done (canon_gridState h1) (canon_ite_done h1 (hf _ _ _ h1))) h

theorem canon_tensorOf {gid i : Nat} {s : State} (h : s.Canon) : (tensorOf gid i s).2.Canon := by
  unfold tensorOf
  split
  next _ _ _ e3 => exact canon_of_eq e3 (canon_entryOf h)
  next _ _ _ e3 => exact canon_of_eq e3 (canon_entryOf h)

theorem canon_gridIds {c : Ctx} {octets : Bool} {a b : BitVec 8} {s : State} (h : s.Canon) : (gridIds c octets a b s).2.Canon := by
  unfold gridIds
  split
  next _ _ _ e3 => exact canon_of_eq e3 (canon_tensorOf h)
  next _ _ _ e3 =>
    have h1 := canon_of_eq e3 (canon_tensorOf h)
    split
    · exact h1
    · split
      next _ _ _ e3 => exact canon_of_eq e3 (canon_tensorOf h1)
      next _ _ _ e3 =>
        have h2 := canon_of_eq e3 (canon_tensorOf h1)
        exact canon_ite_snd h2 (canon_ite_snd h2 (canon_ite_snd h2 h2))

theorem canon_idStop {c : Ctx} {x : IdStop} {s : State} (h : s.Canon) : (idStop c x s).state.Canon := by
  unfold idStop
  split
  · exact canon_assistWait h
  · exact h

theorem canon_withIds {octets : Bool} {a b : BitVec 8} {k : Nat × Nat → State → Done} {s : State} {c : Ctx} (hk : ∀ y0 s, s.Canon → (k y0 s).state.Canon)
    (h : s.Canon) : (withIds octets a b k s c).state.Canon := by
  unfold withIds
  refine canon_chargeSectors ?_ h
  intro x1 h1
  split
  next _ _ _ e3 => exact canon_idStop (canon_of_eq e3 (canon_gridIds h1))
  next _ _ _ e3 => exact hk _ _ (canon_of_eq e3 (canon_gridIds h1))

theorem canon_pushGridOp {s : State} {gid lead g : Nat} {isGmm : Bool} {cells : List (Nat × Word)} (h : s.Canon) :
    (s.pushGridOp gid lead g isGmm cells).Canon := by
  unfold State.pushGridOp
  dsimp only
  exact canon_of_ms (State.modCore_ms ..) (canon_of_ms (State.modGroup_ms ..) h)

theorem canon_gmmBody {sparse z : Bool} {a b : BitVec 8} {g : Group} {s : State} {c : Ctx} (h : s.Canon) : (gmmBody sparse z a b g s c).state.Canon := by
  unfold gmmBody
  dsimp only
  exact canon_withIds (fun _ _ h1 => canon_seq (canon_pushGridOp h1)) h

theorem canon_linkedIds {l : List LinkedAt} {s : State} (h : s.Canon) : (linkedIds l s).2.Canon := by
  induction l generalizing s with
  | nil =>
    rw [linkedIds]
    exact h
  | cons x l ih =>
    rw [linkedIds]
    split
    next _ _ _ e3 => exact canon_of_eq e3 (canon_gridIds h)
    next _ _ _ e3 =>
      have h1 := canon_of_eq e3 (canon_gridIds h)
      split
      next _ _ _ e3 => exact canon_of_eq e3 (ih h1)
      next _ _ _ e3 => exact canon_of_eq e3 (ih h1)

theorem canon_linkedPart {sparse : Bool} {cols : List GridCol} {phase : LinkedAt × Nat × Nat → Nat} {s : State} {q : LinkedAt × Nat × Nat} (h : s.Canon) :
    (linkedPart sparse cols phase s q).Canon := by
  unfold linkedPart
  dsimp only
  exact canon_of_ms (State.modGroup_ms ..) (canon_of_ms (State.retire_ms ..) (canon_pushGridOp h))

theorem canon_linkedRun {sparse : Bool} {l : List (LinkedAt × Nat × Nat)} {s : State} (h : s.Canon) : (linkedRun sparse l s).Canon := by
  unfold linkedRun
  dsimp only
  exact canon_foldl (fun _ _ h1 => canon_linkedPart h1) h

theorem canon_linkedMeet {gid : Nat} {s : State} (h : s.Canon) : (linkedMeet gid s).Canon := by
  unfold linkedMeet
  dsimp only
  split
  · exact h
  · split
    · exact canon_of_settled (State.raise_settled ..) h
    · split
      · exact canon_foldl (fun _ _ h => canon_of_settled (State.raise_settled ..) h) h
      · split
        next m x _ e =>
          have hids := canon_of_eq e (canon_linkedIds h)
          have hstop := canon_idStop (c := m.c) (x := x) hids
          split
          next e1 => rw [e1] at hstop; exact canon_of_ms (State.stay_ms ..) hstop
          next e1 => rw [e1] at hstop; exact canon_of_settled (State.raise_settled ..) hstop
          next e1 => rw [e1] at hstop; exact hstop
          next e1 => rw [e1] at hstop; exact hstop
        next e => exact canon_linkedRun (canon_of_eq e (canon_linkedIds h))

theorem canon_gmmLinkedBody {d : Nat} {a b : BitVec 8} {g : Group} {s : State} {c : Ctx} (h : s.Canon) : (gmmLinkedBody d a b g s c).state.Canon := by
  unfold gmmLinkedBody
  exact canon_ite_done h (canon_withIds (fun _ _ h1 => canon_ite_done h1 (canon_linkedMeet (canon_of_ms (State.stay_ms ..) h1))) h)

theorem canon_goutBody {z : Bool} {a b : BitVec 8} {g : Group} {s : State} {c : Ctx} (h : s.Canon) : (goutBody z a b g s c).state.Canon := by
  unfold goutBody
  dsimp only
  exact canon_withIds (fun _ _ h1 => canon_seq (canon_pushGridOp h1)) h

theorem canon_captureClock {s : State} {gid n : Nat} {g : Group} (h : s.Canon) : (s.captureClock gid n g).2.Canon := by
  unfold State.captureClock
  dsimp only
  split
  · dsimp only
    exact canon_of_ms (State.modGroup_ms ..) h
  · split
    · exact h
    · dsimp only
      exact canon_of_ms (State.modGroup_ms ..) h

theorem canon_setModes {c : Ctx} {f : Regs → Regs} {s : State} (h : s.Canon) : (setModes c f s).1.Canon := by
  unfold setModes
  split
  · exact canon_of_ms (State.modGroup_ms ..) h
  · exact h

theorem canon_swrWrite {n : Nat} {x : Word} {s : State} {c : Ctx} (h : s.Canon) : (swrWrite n x s c).state.Canon := by
  unfold swrWrite
  split
  · exact canon_seq (canon_setModes h)
  · exact canon_seq (canon_setModes h)
  · exact canon_seq (canon_of_ms (State.modGroup_ms ..) h)
  · exact canon_seq h
  · exact canon_seq (canon_of_ms (State.modGroup_ms ..) h)
  · exact canon_seq (canon_of_ms (State.modGroup_ms ..) h)

theorem canon_rettEngine {s : State} {gid : Nat} {f : FaultInfo} {k : Handler} {rpc : BitVec 64} (h : s.Canon) : (s.rettEngine gid f k rpc).Canon := by
  unfold State.rettEngine
  split
  · exact h
  · exact canon_ite (canon_cancelCommand h) (canon_restartCommand h)

theorem canon_rett {s : State} {hid gid : Nat} {g : Group} {k : Handler} {f : FaultInfo} (h : s.Canon) : (s.rett hid gid g k f).Canon := by
  unfold State.rett
  dsimp only
  exact canon_takeEngFault
    (canon_resumeWaits
      (canon_ite (canon_rettEngine (canon_of_settled (State.leaveHandler_settled ..) (canon_of_ms (State.setGroup_ms ..) h)))
        (canon_of_ms (State.modGroup_ms ..)
          (canon_rettEngine (canon_of_settled (State.leaveHandler_settled ..) (canon_of_ms (State.setGroup_ms ..) h))))))

theorem canon_rettBody {hid : Nat} {k : Handler} {s : State} {c : Ctx} (h : s.Canon) : (rettBody hid k s c).state.Canon := by
  unfold rettBody
  split
  · exact h
  · split
    · dsimp only [Done.state]
      exact canon_rett h
    · dsimp only [Done.state]
      exact canon_of_settled (State.leaveHandler_settled ..) h

theorem canon_setHandler {s : State} {hid : Nat} {k : Handler} (h : s.Canon) : (s.setHandler hid k).Canon := by
  unfold State.setHandler
  exact canon_set h rfl

end Sys2Proof.Machine
end

