-- ==== Sys2Proof/Proofs/CanonicalSteps.lean ====
section
/-! SUPPORT. The events that remain, the instructions, the choice of a step, and O58 and O60. -/

namespace Sys2Proof.Machine

open Sys2Proof.Claims

theorem steps_PowerOff {s : State} : Steps s (execPowerOff s) := by
  unfold execPowerOff
  exact steps_next fun h => canon_ite (canon_of_ms (State.send_ms ..) (canon_cold)) h

theorem canon_hurryGrids {s : State} {vf : Nat} (h : s.Canon) : (s.hurryGrids vf).Canon := by
  unfold State.hurryGrids
  dsimp only
  exact canon_of_ms (State.schedule_ms ..) (canon_foldl (fun _ _ h1 => canon_of_ms (State.schedule_ms ..) (canon_of_ms (State.modGrid_ms ..) h1)) h)

theorem canon_eraseGrids {s : State} {vf : Nat} (h : s.Canon) : (s.eraseGrids vf).Canon := by
  unfold State.eraseGrids
  dsimp only
  exact canon_set h rfl

theorem canon_removeVf {s : State} {vf : Nat} (h : s.Canon) : (s.removeVf vf).Canon := by
  unfold State.removeVf
  refine canon_of_ms ?_ h
  dsimp only
  rw [State.setVf_ms, State.modPart_ms]

theorem steps_VfResetComplete {vf : Nat} {s : State} : Steps s (execVfResetComplete vf s) := by
  unfold execVfResetComplete
  dsimp only
  split
  · exact steps_next fun h => h
  · split
    · exact steps_next fun h => canon_hurryGrids h
    · refine steps_next fun h => canon_of_ms (State.schedule_ms ..) ?_
      have hreset : (((s.eraseGrids vf).dropRanges (fun r => decide (r.vf = some vf))).setVf vf (s.vf vf).afterReset).Canon :=
        canon_of_ms (State.setVf_ms ..) (canon_dropRanges (canon_eraseGrids h))
      refine canon_ite (canon_finishCfg ?_) hreset
      exact canon_set (canon_removeVf (vf := vf) hreset) rfl

theorem canon_serveNext {s : State} {gid sub : Nat} (h : s.Canon) : (s.serveNext gid sub).Canon := by
  unfold State.serveNext
  split
  · exact canon_ite h (canon_of_ms (State.schedule_ms ..) h)
  · exact h

theorem canon_endAtOnce {s : State} {c : Collective} {own peers : Nat} (h : s.Canon) : (s.endAtOnce c own peers).Canon := by
  unfold State.endAtOnce
  dsimp only
  exact canon_foldl (fun _ _ h1 => canon_of_ms (State.schedule_ms ..) h1) (canon_countUp (canon_set h rfl))

theorem canon_collMalformed {core id : Nat} {c : Collective} {n : Nat} {go : State → State} {s : State} (hgo : ∀ s, s.Canon → (go s).Canon) (h : s.Canon) :
    (collMalformed core id c n go s).Canon := by
  unfold collMalformed
  dsimp only
  split
  next _ _ _ e3 => exact canon_unitAssist (canon_of_eq e3 (canon_unitProbe h))
  next _ _ e2 => exact canon_endAtOnce (canon_unitWriteRange (canon_freeBytes (hgo _ (canon_of_eq e2 (canon_unitProbe h)))))

theorem steps_CollAccept {core id : Nat} {s : State} : Steps s (execCollAccept core id s) := by
  unfold execCollAccept
  split
  · exact steps_next fun h => h
  next q _ =>
    dsimp only
    split
    · exact steps_next fun h => h
    · have hgo : ∀ u : State, u.Canon → (((u.removeCommand core id).afterCommand q.gid).serveNext q.gid 4).Canon :=
        fun u hu => canon_serveNext (canon_afterCommand (canon_removeCommand hu))
      split
      next t e => exact steps_next fun h => canon_unitAssist (canon_of_eq e (canon_unitReadWords h))
      next t e => exact steps_next fun h => canon_countUp (hgo _ (canon_of_eq e (canon_unitReadWords h)))
      next p0 t e =>
        have ht : s.Canon → t.Canon := fun h => canon_of_eq e (canon_unitReadWords h)
        split
        · exact steps_next fun h => canon_countUp (hgo _ (ht h))
        · split
          · exact steps_next fun h => canon_endAtOnce (hgo _ (ht h))
          · split
            · exact steps_next fun h => canon_collMalformed hgo (ht h)
            · split
              next e1 => exact steps_next fun h => canon_unitAssist (canon_of_eq e1 (canon_unitReadWords (ht h)))
              next e1 => exact steps_next fun h => canon_endAtOnce (hgo _ (canon_of_eq e1 (canon_unitReadWords (ht h))))
              next e1 =>
                have h1 := fun h => canon_of_eq e1 (canon_unitReadWords (ht h))
                split
                · exact steps_next fun h => canon_endAtOnce (hgo _ (h1 h))
                · split
                  · exact steps_next fun h => canon_collMalformed hgo (h1 h)
                  · exact steps_next fun h => canon_of_ms (State.schedule_ms ..) (hgo _ (canon_set (h1 h) rfl))

theorem steps_NpostAccept {core id : Nat} {s : State} : Steps s (execNpostAccept core id s) := by
  unfold execNpostAccept
  dsimp only
  split
  · exact steps_next fun h => h
  · split
    · exact steps_next fun h => h
    · split
      · exact steps_next fun h => canon_countUp (canon_serveNext (canon_afterCommand (canon_removeCommand h)))
      · split
        · exact steps_next fun h => canon_of_ms (State.send_ms ..) (canon_set (canon_serveNext (canon_afterCommand (canon_removeCommand h))) rfl)
        · split
          next _ _ _ e3 =>
            refine steps_next fun h => ?_
            exact canon_unitAssist (canon_of_eq e3 (canon_unitReadRange h))
          next _ _ _ e3 =>
            refine steps_next fun h => ?_
            exact canon_countUp (canon_serveNext (canon_afterCommand (canon_removeCommand (canon_of_eq e3 (canon_unitReadRange h)))))
          next _ _ _ e3 =>
            refine steps_next fun h => ?_
            exact canon_countUp (canon_serveNext (canon_afterCommand (canon_removeCommand (canon_of_eq e3 (canon_unitReadRange h)))))
          next _ _ _ e3 =>
            refine steps_next fun h => ?_
            exact canon_of_ms (State.send_ms ..)
              (canon_set (canon_serveNext (canon_afterCommand (canon_removeCommand (canon_of_eq e3 (canon_unitReadRange h))))) rfl)

theorem steps_PrivateCacheEviction {k granule : Nat} {s : State} : Steps s (execPrivateCacheEviction k granule s) := by
  unfold execPrivateCacheEviction
  dsimp only
  split
  · exact steps_next fun h => canon_of_ms (State.abortHart_ms ..) h
  · exact steps_next fun h => h

theorem steps_HostTxIllegal {k : Nat} {s : State} : Steps s (execHostTxIllegal k s) := by
  unfold execHostTxIllegal
  exact steps_next fun h => canon_of_ms (State.abortHart_ms ..) h

/-! The instructions whose effect is more than one body. -/

theorem canon_privileged {i : Instr} {ok : Group → Ctx → Bool} {f : Nat → Handler → Group → State → Ctx → Done} {s : State}
    (hf : ∀ y0 y1 y2 s y4, s.Canon → (f y0 y1 y2 s y4).state.Canon) (h : s.Canon) : CanonOutcome (privileged i ok f s) := by
  unfold privileged
  refine canon_issue (fun s c h => ?_) h
  refine canon_withGroup ?_ h
  intro x2 s x4 h2
  split
  · exact canon_early h2
  · split
    · split
      · exact hf _ _ _ _ _ h2
      · exact h2
    · exact canon_early h2

theorem canon_enq {i : Instr} {sub : Nat} {g : Bool} {n : BitVec 3} {a : BitVec 8} {s : State} (h : s.Canon) : CanonOutcome (enq i sub g n a s) := by
  unfold enq
  exact canon_issue
    (fun s c h =>
      canon_ite_done (canon_early h) (canon_ite_done h (canon_txIllegal (fun _ _ h2 => canon_closing (fun _ _ h3 => canon_enqBody h3) h2) h))) h

theorem canon_gmm {i : Instr} {sparse z : Bool} {a b : BitVec 8} {s : State} (h : s.Canon) : CanonOutcome (gmm i sparse z a b s) := by
  unfold gmm
  exact canon_issue (fun s c h => canon_ite_done (canon_early h) (canon_ite_done h (canon_inGrid (fun _ _ _ h2 => canon_gmmBody h2) h))) h

theorem canon_gmmLinked {i : Instr} {d : Nat} {a b : BitVec 8} {s : State} (h : s.Canon) : CanonOutcome (gmmLinked i d a b s) := by
  unfold gmmLinked
  exact canon_issue (fun s c h => canon_ite_done (canon_early h) (canon_ite_done h (canon_inGrid (fun _ _ _ h2 => canon_gmmLinkedBody h2) h))) h

theorem canon_epilogue {i : Instr} {f : FEnv → Nat → Nat → Nat → Nat → Nat} {d a : BitVec 8} {s : State} (h : s.Canon) : CanonOutcome (epilogue i f d a s) := by
  unfold epilogue
  refine canon_issue (fun s c h => ?_) h
  dsimp only
  exact canon_ite_done (canon_early h) (canon_ite_done h (canon_inGrid (fun _ _ _ h2 => canon_seq (canon_pushGridOp h2)) h))

theorem canon_panel {i : Instr} {dest : Bool} {d a : BitVec 8} {body : Nat → State → Ctx → Done} {s : State}
    (hbody : ∀ y0 s y2, s.Canon → (body y0 s y2).state.Canon) (h : s.Canon) : CanonOutcome (panel i dest d a body s) := by
  unfold panel
  refine canon_issue (fun s c h => ?_) h
  dsimp only
  exact canon_ite_done (canon_early h) (canon_ite_done (canon_early h) (canon_ite_done h (hbody _ _ _ h)))

theorem canon_execTxOpen {d : BitVec 5} {s : State} (h : s.Canon) : CanonOutcome (execTxOpen d s) := by
  unfold execTxOpen
  refine canon_issueHart (fun k s h => ?_) h
  dsimp only
  exact canon_ite (canon_ite h (canon_of_ms (State.setHart_ms ..) h)) (canon_ite (canon_of_ms (State.setHart_ms ..) h) (canon_of_ms (State.abortHart_ms ..) h))

theorem canon_execTxClose {s : State} (h : s.Canon) : CanonOutcome (execTxClose s) := by
  unfold execTxClose
  refine canon_issueHart (fun k s h => ?_) h
  dsimp only
  exact canon_ite (canon_hostException h) (canon_ite (canon_ite h (canon_of_ms (State.schedule_ms ..) (canon_set h rfl))) (canon_of_ms (State.setHart_ms ..) h))

theorem canon_execTxDrop {r : BitVec 5} {s : State} (h : s.Canon) : CanonOutcome (execTxDrop r s) := by
  unfold execTxDrop
  refine canon_issueHart (fun k s h => ?_) h
  dsimp only
  exact canon_ite (canon_hartNext h) (canon_of_ms (State.abortHart_ms ..) h)

theorem canon_execSetm {i : BitVec 24} {s : State} (h : s.Canon) : CanonOutcome (execSetm i s) := by
  unfold execSetm
  refine canon_issue (fun s c h => ?_) h
  dsimp only
  exact canon_ite_done (canon_early h) (canon_ite_done (canon_early h) (canon_seq h))

theorem canon_execSetcv {b : BitVec 8} {s : State} (h : s.Canon) : CanonOutcome (execSetcv b s) := by
  unfold execSetcv
  refine canon_issue (fun s c h => ?_) h
  dsimp only
  exact canon_ite_done (canon_early h) (canon_ite_done h (canon_ite_done (canon_early h) (canon_seq h)))

theorem canon_execBra {i : BitVec 24} {s : State} (h : s.Canon) : CanonOutcome (execBra i s) := by
  unfold execBra
  refine canon_issue (fun s c h => ?_) h
  dsimp only [Done.state]
  exact canon_noteTaken h

theorem canon_execBrc {u : Bool} {d : BitVec 8} {i : BitVec 16} {s : State} (h : s.Canon) : CanonOutcome (execBrc u d i s) := by
  unfold execBrc
  refine canon_issue (fun s c h => ?_) h
  dsimp only
  exact canon_ite_done (canon_early h) (canon_ite_done h (canon_ite_done (canon_noteTaken h) (canon_ite_done (canon_seq h) (canon_divide h))))

theorem canon_execJoin {s : State} (h : s.Canon) : CanonOutcome (execJoin s) := by
  unfold execJoin
  refine canon_issue (fun s c h => ?_) h
  dsimp only
  exact canon_ite_done (canon_seq h) (canon_of_ms (State.modGroup_ms ..) (canon_of_ms (State.putCtx_ms ..) h))

theorem canon_execJmpi {a : BitVec 8} {s : State} (h : s.Canon) : CanonOutcome (execJmpi a s) := by
  unfold execJmpi
  refine canon_issue (fun s c h => ?_) h
  split
  · exact canon_early h
  · split
    · exact h
    · split
      · exact h
      · exact canon_jumpFault (fun _ _ _ h2 => h2) h

theorem canon_execCall {d : BitVec 8} {i : BitVec 16} {s : State} (h : s.Canon) : CanonOutcome (execCall d i s) := by
  unfold execCall
  exact canon_issue (fun s c h => canon_ite_done (canon_early h) (canon_ite_done h h)) h

theorem canon_execCalli {d a : BitVec 8} {s : State} (h : s.Canon) : CanonOutcome (execCalli d a s) := by
  unfold execCalli
  refine canon_issue (fun s c h => ?_) h
  split
  · exact canon_early h
  · split
    · exact h
    · split
      · exact h
      · exact canon_jumpFault (fun _ _ _ h2 => h2) h

theorem canon_execExit {s : State} (h : s.Canon) : CanonOutcome (execExit s) := by
  unfold execExit
  exact canon_issue
    (fun s c h => canon_txIllegal (fun _ _ h2 => canon_ite_done (canon_withRelease (fun _ _ h3 => canon_exitSplit h3) h2) (canon_exitSplit h2)) h) h

theorem canon_execSel {u : Bool} {d a b : BitVec 8} {s : State} (h : s.Canon) : CanonOutcome (execSel u d a b s) := by
  unfold execSel
  refine canon_issue (fun s c h => ?_) h
  dsimp only
  exact canon_vIssue h

theorem canon_execCvtf {u : Bool} {d a : BitVec 8} {f : BitVec 4} {s : State} (h : s.Canon) : CanonOutcome (execCvtf u d a f s) := by
  unfold execCvtf
  refine canon_issue (fun s c h => ?_) h
  dsimp only
  exact canon_vConvert h

theorem canon_execCvti {u : Bool} {d a : BitVec 8} {f : BitVec 4} {s : State} (h : s.Canon) : CanonOutcome (execCvti u d a f s) := by
  unfold execCvti
  refine canon_issue (fun s c h => ?_) h
  dsimp only
  exact canon_vConvert h

theorem canon_execCvif {u : Bool} {d a : BitVec 8} {f : BitVec 4} {s : State} (h : s.Canon) : CanonOutcome (execCvif u d a f s) := by
  unfold execCvif
  refine canon_issue (fun s c h => ?_) h
  dsimp only
  exact canon_vConvert h

theorem canon_execCvii {u : Bool} {d a : BitVec 8} {f : BitVec 4} {s : State} (h : s.Canon) : CanonOutcome (execCvii u d a f s) := by
  unfold execCvii
  refine canon_issue (fun s c h => ?_) h
  dsimp only
  exact canon_vConvert h

theorem canon_execUnpk {u : Bool} {d a : BitVec 8} {f : BitVec 4} {s : State} (h : s.Canon) : CanonOutcome (execUnpk u d a f s) := by
  unfold execUnpk
  refine canon_issue (fun s c h => ?_) h
  dsimp only
  exact canon_vConvert h

theorem canon_execMxq {u : Bool} {d a : BitVec 8} {f : BitVec 4} {s : State} (h : s.Canon) : CanonOutcome (execMxq u d a f s) := by
  unfold execMxq
  refine canon_issue (fun s c h => ?_) h
  dsimp only
  exact canon_vIssue h

theorem canon_execMxsc {u : Bool} {d a : BitVec 8} {f : BitVec 4} {s : State} (h : s.Canon) : CanonOutcome (execMxsc u d a f s) := by
  unfold execMxsc
  refine canon_issue (fun s c h => ?_) h
  dsimp only
  exact canon_vIssue h

theorem canon_execRed {u : Bool} {d a : BitVec 8} {s : State} (h : s.Canon) : CanonOutcome (execRed u d a s) := by
  unfold execRed
  refine canon_issue (fun s c h => ?_) h
  dsimp only
  exact canon_vReduce h

theorem canon_execRstep {u : Bool} {d a : BitVec 8} {s : State} (h : s.Canon) : CanonOutcome (execRstep u d a s) := by
  unfold execRstep
  refine canon_issue (fun s c h => ?_) h
  dsimp only
  exact canon_vReduce h

theorem canon_execPscan {u : Bool} {d a : BitVec 8} {s : State} (h : s.Canon) : CanonOutcome (execPscan u d a s) := by
  unfold execPscan
  refine canon_issue (fun s c h => ?_) h
  dsimp only
  exact canon_vReduce h

theorem canon_execBcast {u : Bool} {d a : BitVec 8} {s : State} (h : s.Canon) : CanonOutcome (execBcast u d a s) := by
  unfold execBcast
  refine canon_issue (fun s c h => ?_) h
  dsimp only
  exact canon_vIssue h

theorem canon_execFence {o : BitVec 3} {sc : BitVec 4} {s : State} (h : s.Canon) : CanonOutcome (execFence o sc s) := by
  unfold execFence
  refine canon_issue (fun s c h => ?_) h
  dsimp only
  exact canon_ite_done (canon_early h) (canon_ite_done h (canon_ite_done (canon_txIllegal (fun _ _ h2 => canon_fenceBody h2) h) (canon_fenceBody h)))

theorem canon_execBar {r i : BitVec 4} {s : State} (h : s.Canon) : CanonOutcome (execBar r i s) := by
  unfold execBar
  exact canon_issue (fun s c h => canon_txIllegal (fun _ _ h2 => canon_withRelease (fun _ _ h3 => canon_barBody h3) h2) h) h

theorem canon_execBarg {i : BitVec 4} {s : State} (h : s.Canon) : CanonOutcome (execBarg i s) := by
  unfold execBarg
  exact canon_issue (fun s c h => canon_txIllegal (fun _ _ h2 => canon_withRelease (fun _ _ h3 => canon_bargBody h3) h2) h) h

theorem canon_execWaitc {n cls : BitVec 8} {s : State} (h : s.Canon) : CanonOutcome (execWaitc n cls s) := by
  unfold execWaitc
  refine canon_issue (fun s c h => ?_) h
  split
  · exact canon_early h
  · split
    · exact h
    · exact canon_ite_done (canon_seq h) (canon_ite_done (canon_withRelease (fun _ _ h2 => canon_seq h2) h) h)

theorem canon_execSeal {d : BitVec 8} {s : State} (h : s.Canon) : CanonOutcome (execSeal d s) := by
  unfold execSeal
  refine canon_issue (fun s c h => ?_) h
  dsimp only
  split
  · exact canon_early h
  · split
    · exact h
    · refine canon_txIllegal ?_ h
      intro x2 x3 h2
      split
      · exact h2
      · exact canon_seq (canon_of_ms (State.modCore_ms ..) (canon_of_ms (State.modGroup_ms ..) h2))

theorem canon_execWaitb {b : BitVec 8} {s : State} (h : s.Canon) : CanonOutcome (execWaitb b s) := by
  unfold execWaitb
  refine canon_issue (fun s c h => ?_) h
  dsimp only
  split
  · exact canon_early h
  · split
    · exact h
    · refine canon_txIllegal ?_ h
      intro x2 x3 h2
      split
      · exact h2
      · exact canon_ite_done h2 (canon_seq h2)

theorem canon_execBow {d a b : BitVec 8} {s : State} (h : s.Canon) : CanonOutcome (execBow d a b s) := by
  unfold execBow
  exact canon_issue (fun s c h => canon_ite_done (canon_early h) (canon_ite_done h (canon_txIllegal (fun _ _ h2 => canon_bowBody h2) h))) h

theorem canon_execCinv {s : State} (h : s.Canon) : CanonOutcome (execCinv s) := by
  unfold execCinv
  exact canon_issue (fun s c h => canon_txIllegal (fun _ _ h2 => canon_seq (canon_of_ms (State.dropL1_ms ..) h2)) h) h

theorem canon_execCinvRange {a b : BitVec 8} {s : State} (h : s.Canon) : CanonOutcome (execCinvRange a b s) := by
  unfold execCinvRange
  refine canon_issue (fun s c h => ?_) h
  dsimp only
  split
  · exact canon_early h
  · split
    · exact h
    · refine canon_txIllegal ?_ h
      intro s x3 h2
      split
      next _ _ _ e3 => exact canon_assistWait (canon_of_eq e3 (canon_cinvSpan h2))
      next _ _ e2 => exact canon_seq (canon_of_mem (looks_dropDenials ..).mem (canon_of_eq e2 (canon_cinvSpan h2)))

theorem canon_execCtail {e : Bool} {b : BitVec 8} {s : State} (h : s.Canon) : CanonOutcome (execCtail e b s) := by
  unfold execCtail
  exact canon_issue (fun s c h => canon_ite_done (canon_early h) (canon_ite_done h (canon_txIllegal (fun _ _ h2 => canon_ctailBody h2) h))) h

theorem canon_execGres {n : BitVec 3} {b : BitVec 8} {s : State} (h : s.Canon) : CanonOutcome (execGres n b s) := by
  unfold execGres
  refine canon_issue (fun s c h => ?_) h
  dsimp only
  exact canon_ite_done (canon_early h)
    (canon_ite_done h (canon_txIllegal (fun _ _ h2 => canon_seq (canon_resolveGuard (canon_of_ms (State.closeRegionOf_ms ..) h2))) h))

theorem canon_execGresClear {n : BitVec 3} {s : State} (h : s.Canon) : CanonOutcome (execGresClear n s) := by
  unfold execGresClear
  exact canon_issue
    (fun s c h => canon_txIllegal (fun _ _ h2 => canon_seq (canon_of_ms (State.modGroup_ms ..) (canon_of_ms (State.closeRegionOf_ms ..) h2))) h) h

theorem canon_execNcwt {d a b : BitVec 8} {s : State} (h : s.Canon) : CanonOutcome (execNcwt d a b s) := by
  unfold execNcwt
  exact canon_issue (fun s c h => canon_ite_done (canon_early h) (canon_ite_done h (canon_txIllegal (fun _ _ h2 => canon_ncwtBody h2) h))) h

theorem canon_execTswap {d a b : BitVec 8} {s : State} (h : s.Canon) : CanonOutcome (execTswap d a b s) := by
  unfold execTswap
  exact canon_issue
    (fun s c h =>
      canon_ite_done (canon_early h) (canon_ite_done h (canon_txIllegal (fun _ _ h2 => canon_closing (fun _ _ h3 => canon_tswapBody h3) h2) h))) h

theorem canon_execLnch {d a : BitVec 8} {s : State} (h : s.Canon) : CanonOutcome (execLnch d a s) := by
  unfold execLnch
  exact canon_issue
    (fun s c h =>
      canon_ite_done (canon_early h) (canon_ite_done h (canon_txIllegal (fun _ _ h2 => canon_closing (fun _ _ h3 => canon_lnchBody h3) h2) h))) h

theorem canon_execHcall {d a : BitVec 8} {s : State} (h : s.Canon) : CanonOutcome (execHcall d a s) := by
  unfold execHcall
  exact canon_issue
    (fun s c h =>
      canon_ite_done (canon_early h)
        (canon_ite_done h
          (canon_txIllegal (fun _ _ h2 => canon_closing (fun _ _ h3 => canon_withRelease (fun _ _ h4 => canon_hcallRun h4) h3) h2) h))) h

theorem canon_execTxo {s : State} (h : s.Canon) : CanonOutcome (execTxo s) := by
  unfold execTxo
  exact canon_issue (fun s c h => canon_closing (fun _ _ h2 => canon_txoBody h2) h) h

theorem canon_execTxd {b : BitVec 8} {s : State} (h : s.Canon) : CanonOutcome (execTxd b s) := by
  unfold execTxd
  exact canon_issue (fun s c h => canon_ite_done (canon_early h) (canon_ite_done h (canon_txdBody h))) h

theorem canon_execTxs {d : BitVec 8} {s : State} (h : s.Canon) : CanonOutcome (execTxs d s) := by
  unfold execTxs
  refine canon_issue (fun s c h => ?_) h
  split
  · exact canon_early h
  · split
    · exact h
    · split
      · exact h
      · exact canon_seq (canon_of_ms (State.closeRegionOf_ms ..) h)

theorem canon_execWsig {a b : BitVec 8} {s : State} (h : s.Canon) : CanonOutcome (execWsig a b s) := by
  unfold execWsig
  exact canon_issue (fun s c h => canon_ite_done (canon_early h) (canon_ite_done h (canon_txIllegal (fun _ _ h2 => canon_weirBody h2) h))) h

theorem canon_execWtry {d a b : BitVec 8} {s : State} (h : s.Canon) : CanonOutcome (execWtry d a b s) := by
  unfold execWtry
  exact canon_issue (fun s c h => canon_ite_done (canon_early h) (canon_ite_done h (canon_txIllegal (fun _ _ h2 => canon_weirBody h2) h))) h

theorem canon_execWwait {d a b : BitVec 8} {s : State} (h : s.Canon) : CanonOutcome (execWwait d a b s) := by
  unfold execWwait
  exact canon_issue (fun s c h => canon_ite_done (canon_early h) (canon_ite_done h (canon_txIllegal (fun _ _ h2 => canon_weirBody h2) h))) h

theorem canon_execWqry {d a : BitVec 8} {s : State} (h : s.Canon) : CanonOutcome (execWqry d a s) := by
  unfold execWqry
  exact canon_issue (fun s c h => canon_ite_done (canon_early h) (canon_ite_done h (canon_txIllegal (fun _ _ h2 => canon_weirBody h2) h))) h

theorem canon_execEntg {s : State} (h : s.Canon) : CanonOutcome (execEntg s) := by
  unfold execEntg
  exact canon_issue (fun s c h => canon_withGroup (fun _ _ _ h2 => canon_ite_done (canon_gridState h2) (canon_seq (canon_of_ms (State.modGroup_ms ..) h2))) h) h

theorem canon_execExtg {s : State} (h : s.Canon) : CanonOutcome (execExtg s) := by
  unfold execExtg
  exact canon_issue
    (fun s c h =>
      canon_withGroup (fun _ _ _ h2 => canon_ite_done (canon_gridState h2) (canon_ite_done h2 (canon_seq (canon_of_ms (State.modGroup_ms ..) h2)))) h)
    h

theorem canon_execGout {z : Bool} {a b : BitVec 8} {s : State} (h : s.Canon) : CanonOutcome (execGout z a b s) := by
  unfold execGout
  exact canon_issue (fun s c h => canon_ite_done (canon_early h) (canon_ite_done h (canon_inGrid (fun _ _ _ h2 => canon_goutBody h2) h))) h

theorem canon_execGzro {s : State} (h : s.Canon) : CanonOutcome (execGzro s) := by
  unfold execGzro
  exact canon_issue (fun s c h => canon_ite_done h (canon_inGrid (fun _ _ _ h2 => canon_seq (canon_pushGridOp h2)) h)) h

theorem canon_execGpack {d a : BitVec 8} {s : State} (h : s.Canon) : CanonOutcome (execGpack d a s) := by
  unfold execGpack
  refine canon_issue (fun s c h => ?_) h
  dsimp only
  exact canon_ite_done (canon_early h) (canon_ite_done (canon_early h) (canon_ite_done h (canon_ite_done (canon_early h) (canon_seq h))))

theorem canon_execGstp {d a : BitVec 8} {s : State} (h : s.Canon) : CanonOutcome (execGstp d a s) := by
  unfold execGstp
  exact canon_panel (fun size s c h => canon_memDone (canon_foldl_mem (fun _ _ h2 => canon_storeOne h2) h)) h

theorem canon_execGldp {d a : BitVec 8} {s : State} (h : s.Canon) : CanonOutcome (execGldp d a s) := by
  unfold execGldp
  exact canon_panel (fun size s c h => canon_memDone (canon_foldl_mem (fun _ _ h2 => canon_loadOne h2) h)) h

theorem canon_execGstat {d : BitVec 8} {s : State} (h : s.Canon) : CanonOutcome (execGstat d s) := by
  unfold execGstat
  exact canon_issue (fun s c h => canon_withGroup (fun _ _ _ h2 => canon_ite_done (canon_early h2) (canon_ite_done h2 (canon_seq h2))) h) h

theorem canon_execTrap {i : BitVec 24} {s : State} (h : s.Canon) : CanonOutcome (execTrap i s) := by
  unfold execTrap
  refine canon_issue (fun s c h => ?_) h
  exact h

theorem canon_execSrd {d : BitVec 8} {i : BitVec 16} {s : State} (h : s.Canon) : CanonOutcome (execSrd d i s) := by
  unfold execSrd
  refine canon_issue (fun s c h => ?_) h
  dsimp only
  exact canon_withGroup
    (fun _ _ _ h2 =>
      canon_ite_done (canon_early h2)
        (canon_ite_done (canon_early h2) (canon_ite_done h2 (canon_ite_done (canon_seq (canon_captureClock h2)) (canon_seq h2))))) h

theorem canon_execSwr {d : BitVec 8} {i : BitVec 16} {s : State} (h : s.Canon) : CanonOutcome (execSwr d i s) := by
  unfold execSwr
  refine canon_issue (fun s c h => ?_) h
  dsimp only
  refine canon_withGroup ?_ h
  intro s x3 x4 h2
  split
  · exact canon_early h2
  · split
    · exact canon_early h2
    · split
      · exact canon_early h2
      · split
        · exact h2
        · split
          · exact canon_early h2
          · exact canon_swrWrite h2

theorem canon_execRett {s : State} (h : s.Canon) : CanonOutcome (execRett s) := by
  unfold execRett
  exact canon_privileged (fun hid k g s c h => canon_withRelease (fun _ _ h2 => canon_rettBody h2) h) h

theorem canon_execFpret {s : State} (h : s.Canon) : CanonOutcome (execFpret s) := by
  unfold execFpret
  refine canon_issue (fun s c h => ?_) h
  dsimp only
  exact canon_withGroup (fun _ _ _ h2 => canon_ite_done (canon_early h2) (canon_of_ms (State.modGroup_ms ..) h2)) h

theorem canon_execYld {s : State} (h : s.Canon) : CanonOutcome (execYld s) := by
  unfold execYld
  refine canon_issue (fun s c h => ?_) h
  dsimp only
  exact canon_seq (canon_ite h (canon_of_ms (State.modGroup_ms ..) h))

theorem canon_execHalt {s : State} (h : s.Canon) : CanonOutcome (execHalt s) := by
  unfold execHalt
  refine canon_privileged (fun hid k g s c h => ?_) h
  split
  · dsimp only [Done.state]
    exact canon_of_settled (State.haltGroup_settled ..) (canon_of_ms (State.reportError_ms ..) h)
  · dsimp only [Done.state]
    exact canon_of_settled (State.haltGroup_settled ..) h

theorem canon_execDbrk {s : State} (h : s.Canon) : CanonOutcome (execDbrk s) := by
  unfold execDbrk
  refine canon_issue (fun s c h => ?_) h
  exact h

theorem canon_execFskipAll {s : State} (h : s.Canon) : CanonOutcome (execFskipAll s) := by
  unfold execFskipAll
  exact canon_privileged (fun hid k g s c h => canon_seq (canon_setHandler h)) h

theorem canon_execFskipMask {a : BitVec 8} {s : State} (h : s.Canon) : CanonOutcome (execFskipMask a s) := by
  unfold execFskipMask
  exact canon_privileged (fun hid k g s c h => canon_seq (canon_setHandler h)) h

theorem canon_execSlp {a : BitVec 8} {s : State} (h : s.Canon) : CanonOutcome (execSlp a s) := by
  unfold execSlp
  refine canon_issue (fun s c h => ?_) h
  dsimp only
  exact canon_ite_done (canon_early h) (canon_ite_done h (canon_ite_done (canon_seq h) h))

theorem canon_execLrd {d a b : BitVec 8} {s : State} (h : s.Canon) : CanonOutcome (execLrd d a b s) := by
  unfold execLrd
  exact canon_privileged (fun hid k g s c h => canon_seq h) h

theorem canon_execLwr {d a b : BitVec 8} {s : State} (h : s.Canon) : CanonOutcome (execLwr d a b s) := by
  unfold execLwr
  exact canon_privileged (fun hid k g s c h => canon_seq (canon_of_ms (State.modGroup_ms ..) h)) h

theorem canon_execErpl {a b : BitVec 8} {s : State} (h : s.Canon) : CanonOutcome (execErpl a b s) := by
  unfold execErpl
  refine canon_privileged (fun hid k g s c h => ?_) h
  dsimp only
  exact canon_seq (canon_ite (canon_setHandler h) h)

theorem canon_execFpt {a : BitVec 8} {s : State} (h : s.Canon) : CanonOutcome (execFpt a s) := by
  unfold execFpt
  refine canon_issue (fun s c h => ?_) h
  dsimp only
  exact canon_withGroup
    (fun _ _ _ h2 =>
      canon_ite_done (canon_early h2)
        (canon_ite_done h2 (canon_ite_done (canon_seq (canon_of_ms (State.modGroup_ms ..) h2)) (canon_seq (canon_of_ms (State.modGroup_ms ..) h2)))))
    h

/-! Every event and every instruction. -/

/-- An event has a next state from every state, and it keeps canonical memory. -/
theorem steps_exec_event {i : Instr} {s : State} (hi : i.isEvent = true) (hword : ∀ w, i ≠ .reservedOpcode w) : Steps s (exec i s) := by
  cases i with
  | powerGood => exact steps_PowerGood
  | imageOffer => exact steps_ImageOffer
  | selfTestComplete => exact steps_SelfTestComplete
  | rowRepairInService => exact steps_RowRepairInService
  | l2WayFailure => exact steps_L2WayFailure
  | powerCapExceeded => exact steps_PowerCapExceeded
  | throttleStepDown => exact steps_ThrottleStepDown
  | thermalThrottle => exact steps_ThermalThrottle
  | thermalRecover => exact steps_ThermalRecover
  | thermalShutdown => exact steps_ThermalShutdown
  | millracePortFailure => exact steps_MillracePortFailure
  | millracePathTimeout => exact steps_MillracePathTimeout
  | millracePacketRx => exact steps_MillracePacketRx
  | flushMarker => exact steps_FlushMarker
  | flushAnswer => exact steps_FlushAnswer
  | estuaryPacketRx => exact steps_EstuaryPacketRx
  | estuaryRetxTimeout => exact steps_EstuaryRetxTimeout
  | estuaryWorkComplete => exact steps_EstuaryWorkComplete
  | assistDone => exact steps_AssistDone
  | registerWrite => exact steps_RegisterWrite
  | lqtailWrite => exact steps_LqtailWrite
  | vfctlEn => exact steps_VfctlEn
  | qreset => exact steps_Qreset
  | vreset => exact steps_Vreset
  | hsdoneWrite => exact steps_HsdoneWrite
  | hcallResume => exact steps_HcallResume
  | recordStart => exact steps_RecordStart
  | recordWaitSatisfied => exact steps_RecordWaitSatisfied
  | wobjReread => exact steps_WobjReread
  | dlqRecordStart => exact steps_DlqRecordStart
  | contextErrorReport => exact steps_ContextErrorReport
  | gridCompletion => exact steps_GridCompletion
  | pclusWrite => exact steps_PclusWrite
  | l2qWrite => exact steps_L2qWrite
  | mrportsWrite => exact steps_MrportsWrite
  | estpWrite => exact steps_EstpWrite
  | wtinvWrite => exact steps_WtinvWrite
  | stageInvalidate => exact steps_StageInvalidate
  | invalidationDone => exact steps_InvalidationDone
  | setstripe => exact steps_Setstripe
  | stripeScrubDone => exact steps_StripeScrubDone
  | assignvf => exact steps_Assignvf
  | unassignvf => exact steps_Unassignvf
  | wopen => exact steps_Wopen
  | wquiesce => exact steps_Wquiesce
  | wexport => exact steps_Wexport
  | wclose => exact steps_Wclose
  | wreload => exact steps_Wreload
  | bandwidthRefill => exact steps_BandwidthRefill
  | weirRequest => exact steps_WeirRequest
  | weirRefill => exact steps_WeirRefill
  | deltaBatchHandout => exact steps_DeltaBatchHandout
  | batchReturn => exact steps_BatchReturn
  | blockPlacement => exact steps_BlockPlacement
  | stealRequest => exact steps_StealRequest
  | splitExchange => exact steps_SplitExchange
  | demotionTimeout => exact steps_DemotionTimeout
  | switchTick => exact steps_SwitchTick
  | switchDone => exact steps_SwitchDone
  | switchDeadline => exact steps_SwitchDeadline
  | switchIn => exact steps_SwitchIn
  | inFieldScan => exact steps_InFieldScan
  | scanComplete => exact steps_ScanComplete
  | coreLost => exact steps_CoreLost
  | handlerEntry => exact steps_HandlerEntry
  | loadResponse => exact steps_LoadResponse
  | atomicResponse => exact steps_AtomicResponse
  | homeRequest => exact steps_HomeRequest
  | gridOpComplete => exact steps_GridOpComplete
  | engineCommandStart => exact steps_EngineCommandStart
  | engineCommandComplete => exact steps_EngineCommandComplete
  | engineFault => exact steps_EngineFault
  | chainEntryStart => exact steps_ChainEntryStart
  | collComplete => exact steps_CollComplete
  | tierMoveComplete => exact steps_TierMoveComplete
  | sluiceTurn => exact steps_SluiceTurn
  | fallbackLockGrant => exact steps_FallbackLockGrant
  | hostTxInterrupt => exact steps_HostTxInterrupt
  | bowReread => exact steps_BowReread
  | slpWake => exact steps_SlpWake
  | yldExpire => exact steps_YldExpire
  | powerOff => exact steps_PowerOff
  | vfResetComplete => exact steps_VfResetComplete
  | collAccept => exact steps_CollAccept
  | npostAccept => exact steps_NpostAccept
  | privateCacheEviction => exact steps_PrivateCacheEviction
  | hostTxIllegal => exact steps_HostTxIllegal
  | reservedOpcode w => exact absurd rfl (hword w)
  | _ => cases hi

theorem canon_exec {i : Instr} {s : State} (h : s.Canon) : CanonOutcome (exec i s) := by
  cases i with
  | txOpen => exact canon_execTxOpen h
  | txClose => exact canon_execTxClose h
  | txDrop => exact canon_execTxDrop h
  | nop => exact canon_issue (fun _ _ h => canon_seq h) h
  | ext | exth => exact canon_issue (fun _ _ h => canon_setPrefixState h) h
  | setm => exact canon_execSetm h
  | setcv => exact canon_execSetcv h
  | bra => exact canon_execBra h
  | brc => exact canon_execBrc h
  | join => exact canon_execJoin h
  | jmpi => exact canon_execJmpi h
  | call => exact canon_execCall h
  | calli => exact canon_execCalli h
  | exit => exact canon_execExit h
  | iadd | isub | imul | imulh | imad | idiv | imin | imax | shl | shr | sar | iseq | isne | islt | isle => exact canon_issue (fun _ _ h => canon_vTyped h) h
  | and | or | xor | andn => exact canon_issue (fun _ _ h => canon_vWidth h) h
  | fshl | bfx | bfi | prmb | iadd64 | isub64 | ada | adax | adcmp => exact canon_issue (fun _ _ h => canon_vFixed h) h
  | sel => exact canon_execSel h
  | limm | limmh => exact canon_issue (fun _ _ h => canon_vConst h) h
  | mov | not => exact canon_issue (fun _ _ h => canon_vWidth1 h) h
  | ineg | iabs | clz | ffs | popc | brev => exact canon_issue (fun _ _ h => canon_vTyped1 h) h
  | fadd | fsub | fmul | fma | fnma | fmin | fmax | fcpys | fscl | fdiv | fseq | fsne | fslt | fsle | fsun => exact canon_issue (fun _ _ h => canon_vFloat2 h) h
  | fabs | fneg | fclass | frnd | fexpo | frcp | frsq | fsqrt | fex2 | flg2 | fsin | fcos | ftanh => exact canon_issue (fun _ _ h => canon_vFloat1 h) h
  | cvtf => exact canon_execCvtf h
  | cvti => exact canon_execCvti h
  | cvif => exact canon_execCvif h
  | cvii => exact canon_execCvii h
  | unpk => exact canon_execUnpk h
  | mxq => exact canon_execMxq h
  | mxsc => exact canon_execMxsc h
  | pack2 | pack4 => exact canon_issue (fun _ _ h => canon_vPack h) h
  | shfl | shflx | shflup | shfldn => exact canon_issue (fun _ _ h => canon_vShuffle h) h
  | red => exact canon_execRed h
  | rstep => exact canon_execRstep h
  | vany | vall | blt => exact canon_issue (fun _ _ h => canon_vVote h) h
  | elect => exact canon_issue (fun _ _ h => canon_vIssue h) h
  | pscan => exact canon_execPscan h
  | bcast => exact canon_execBcast h
  | ldb | ldh | ldw | ldd | ldq => exact canon_issue (fun _ _ h => canon_vLoad h) h
  | stb | sth | stw | std | stq => exact canon_issue (fun _ _ h => canon_vStore h) h
  | ldc => exact canon_issue (fun _ _ h => canon_vConstLoad h) h
  | atAdd | atMin | atMax | atAnd | atOr | atXor | atXch | atCas | atInc | atAgg | atFadd => exact canon_issue (fun _ _ h => canon_vAtomic h) h
  | fence => exact canon_execFence h
  | bar => exact canon_execBar h
  | barg => exact canon_execBarg h
  | waitc => exact canon_execWaitc h
  | waitb => exact canon_execWaitb h
  | pft | evt => exact canon_issue (fun _ _ h => canon_vMove h) h
  | bow => exact canon_execBow h
  | cinv => exact canon_execCinv h
  | cinvRange => exact canon_execCinvRange h
  | cpy | gthr | gbag | sctr | coll | chain | npost => exact canon_enq h
  | ctail => exact canon_execCtail h
  | gres => exact canon_execGres h
  | gresClear => exact canon_execGresClear h
  | ncwt => exact canon_execNcwt h
  | tswap => exact canon_execTswap h
  | lnch => exact canon_execLnch h
  | hcall => exact canon_execHcall h
  | txo => exact canon_execTxo h
  | txc => exact canon_issue (fun _ _ h => canon_txcBody h) h
  | txd => exact canon_execTxd h
  | txs => exact canon_execTxs h
  | wsig => exact canon_execWsig h
  | wtry => exact canon_execWtry h
  | wwait => exact canon_execWwait h
  | wqry => exact canon_execWqry h
  | entg => exact canon_execEntg h
  | extg => exact canon_execExtg h
  | gmm | gmmSparse => exact canon_gmm h
  | gmmLinked | gmmLinkedSparse => exact canon_gmmLinked h
  | gout => exact canon_execGout h
  | gzro => exact canon_execGzro h
  | gbias | gscl => exact canon_epilogue h
  | gpack => exact canon_execGpack h
  | gstp => exact canon_execGstp h
  | gldp => exact canon_execGldp h
  | gstat => exact canon_execGstat h
  | trap => exact canon_execTrap h
  | srd => exact canon_execSrd h
  | swr => exact canon_execSwr h
  | rett => exact canon_execRett h
  | fpret => exact canon_execFpret h
  | yld => exact canon_execYld h
  | halt => exact canon_execHalt h
  | dbrk => exact canon_execDbrk h
  | fskipAll => exact canon_execFskipAll h
  | fskipMask => exact canon_execFskipMask h
  | slp => exact canon_execSlp h
  | lrd => exact canon_execLrd h
  | lwr => exact canon_execLwr h
  | erpl => exact canon_execErpl h
  | fpt => exact canon_execFpt h
  | reservedOpcode => exact canon_raiseIllegalWord h
  | powerGood | imageOffer | selfTestComplete | rowRepairInService | l2WayFailure | powerCapExceeded | throttleStepDown | thermalThrottle
  | thermalRecover | thermalShutdown | millracePortFailure | millracePathTimeout | millracePacketRx | flushMarker | flushAnswer | estuaryPacketRx
  | estuaryRetxTimeout | estuaryWorkComplete | assistDone | registerWrite | lqtailWrite | vfctlEn | qreset | vreset | hsdoneWrite | hcallResume
  | recordStart | recordWaitSatisfied | wobjReread | dlqRecordStart | contextErrorReport | gridCompletion | pclusWrite | l2qWrite | mrportsWrite
  | estpWrite | wtinvWrite | stageInvalidate | invalidationDone | setstripe | stripeScrubDone | assignvf | unassignvf | wopen | wquiesce | wexport
  | wclose | wreload | bandwidthRefill | weirRequest | weirRefill | deltaBatchHandout | batchReturn | blockPlacement | stealRequest | splitExchange
  | demotionTimeout | switchTick | switchDone | switchDeadline | switchIn | inFieldScan | scanComplete | coreLost | handlerEntry | loadResponse
  | atomicResponse | homeRequest | gridOpComplete | engineCommandStart | engineCommandComplete | engineFault | chainEntryStart | collComplete
  | tierMoveComplete | sluiceTurn | fallbackLockGrant | hostTxInterrupt | bowReread | slpWake | yldExpire | powerOff | vfResetComplete | collAccept
  | npostAccept | privateCacheEviction | hostTxIllegal => exact (steps_exec_event rfl (fun _ => Instr.noConfusion)).canon h
  -- what is left is SEAL, whose name is a word of Lean
  | _ => exact canon_execSeal h

/-- A choice of the step whose state, where it has one, has canonical memory. -/
def Pick.Canon (p : Pick) : Prop :=
  match p with
  | .run _ s => s.Canon
  | .illegal _ s => s.Canon
  | .done s => s.Canon
  | .outside _ => True

theorem canon_pickHost {s : State} {k : Nat} (h : s.Canon) : (s.pickHost k).Canon := by
  have hturn : ({ s with turn := { s.turn with cur := some (.hart k), hostTurn := none } } : State).Canon := canon_set h rfl
  unfold State.pickHost
  dsimp only
  split
  · exact canon_accessFault hturn
  · have hcopy := canon_of_mem (onlyReads_hostCopy _ (offOf (s.hart k).pc.toNat) false).mem hturn
    split
    · exact hcopy
    · split
      · exact canon_hostException hcopy
      · split
        · exact canon_readTime hcopy
        · trivial

theorem canon_pickWord {s : State} (h : s.Canon) : s.pickWord.Canon := by
  unfold State.pickWord
  split
  · exact h
  · split
    next e => exact canon_of_settled (State.raise_settled ..) (canon_of_eq e (canon_fetch h))
    next e => exact canon_holdCtx (canon_waitNeed (canon_of_eq e (canon_fetch h)))
    next t e =>
      have ht : t.Canon := canon_of_eq e (canon_fetch h)
      split
      · exact ht
      · exact ht
      · exact ht
      · exact ht
      · exact ht

theorem canon_pick {s : State} (h : s.Canon) : s.pick.Canon := by
  unfold State.pick
  split
  · exact h
  · split
    · exact canon_romStep h
    · split
      · exact canon_set h rfl
      · split
        · exact canon_pickHost h
        · split
          · split
            · exact canon_pickWord (canon_startIssue h)
            · exact canon_set h rfl
          · exact canon_advance h

/-- Whatever a step does (R318, R319), memory stays canonical. -/
theorem canon_step {s : State} (h : s.Canon) : CanonOutcome (step s) := by
  have hpick := canon_pick h
  unfold step
  split
  next e => rw [e] at hpick; exact canon_exec hpick
  next e => rw [e] at hpick; exact canon_raiseIllegalWord hpick
  next e => rw [e] at hpick; exact canonOutcome_next hpick
  next => exact fun _ e => by cases e

end Sys2Proof.Machine

namespace Sys2Proof.Proofs

open Sys2Proof.Machine Sys2Proof.Claims

/-- Settles O58: a device instruction that is issued answers, so does a host word of the hart whose turn it is, and each event has a next state from every
state. -/
theorem everyInstructionAnswers : Obligations.EveryInstructionAnswers := by
  unfold Obligations.EveryInstructionAnswers
  refine ⟨fun i s hi hctx => ?_, fun i s k hi hevent hcur => ?_, fun i s hi hword => ?_⟩
  · obtain ⟨c, hc⟩ := Option.isSome_iff_exists.mp hctx
    obtain ⟨single, f, hexec⟩ := exec_device hi s
    rw [hexec]
    exact issue_completes hc i single f
  · obtain ⟨f, hexec⟩ := exec_host hi hevent s
    rw [hexec]
    exact issueHart_completes hcur f
  · obtain ⟨t, ht, _⟩ := steps_exec_event (s := s) hi hword
    exact ⟨t, ht⟩

/-- Settles O60: from canonical memory a step's choice, the instruction or event that it runs, and every function that these call lead to canonical memory. -/
theorem stepKeepsMemoryCanonical : Obligations.StepKeepsMemoryCanonical := by
  unfold Obligations.StepKeepsMemoryCanonical
  intro s t hwf hstep
  exact canon_step hwf t hstep

end Sys2Proof.Proofs
end
